-- ==== Sys2Proof/Word.lean ====
section
/-! DEFINITION. The words of the J8 and their plainest arithmetic (R2, R3, R69). -/

namespace Sys2Proof

/-- A 64-bit general register or memory word. -/
abbrev Word := BitVec 64
/-- The smallest addressable unit of memory. -/
abbrev Byte := BitVec 8
/-- A register number of a native word (R57, R58). -/
abbrev Reg := BitVec 5
/-- A vector register, 512 bits (R69). -/
abbrev VWord := BitVec 512

end Sys2Proof
end

