-- ==== Sys2Proof/Syntax.lean ====
section
/-! DEFINITION. The instruction set of the J8: one constructor for every row of the operation table. The first 164 are
the instructions a core fetches (R57 to R67); the rest are the steps of the other units, each whole and indivisible
(file 95 of the spec). -/

namespace Sys2Proof

/-- Sizes of `lx` and `sx` (R375, R422). -/
inductive MemSize where
  | b | h | w | d
  deriving DecidableEq, Repr

/-- Sync modes of `lx` (R62, Table 05.6). -/
inductive LoadMode where
  | pl | wf | wfe | rdn
  deriving DecidableEq, Repr

/-- Store modes of `sx` (R62, Table 05.6). -/
inductive StoreMode where
  | pl | we | sf | se
  deriving DecidableEq, Repr

/-- Wait classes of `lx` and `sx`, and the destination classes of R140. -/
inductive WaitClass where
  | no | near | die | far
  deriving DecidableEq, Repr

/-- Operations of `amo` (R62). -/
inductive AmoOp where
  | add | and | or | xor | min | minu | max | maxu | swap | cas
  deriving DecidableEq, Repr

/-- `amo` sizes (R341). -/
inductive AmoSize where
  | w | d
  deriving DecidableEq, Repr

/-- Integer element types of a vector (R65). -/
inductive ElemType where
  | i8 | i16 | i32 | i64
  deriving DecidableEq, Repr

/-- Floating-point element formats of a vector (R65, R182). -/
inductive FFmt where
  | bf16 | f32 | f64
  deriving DecidableEq, Repr

/-- `vcmp` comparisons (R436). -/
inductive VCmpOp where
  | eq | ne | lt | ltu | le | leu
  deriving DecidableEq, Repr

/-- `vred` operations (R65). -/
inductive RedOp where
  | add | min | max | minu | maxu | and | or | xor
  deriving DecidableEq, Repr

/-- `vfcmp` comparisons (R439). -/
inductive FCmpOp where
  | eq | lt | le | un
  deriving DecidableEq, Repr

/-- Kinds of `cpy` (R144). -/
inductive CopyKind where
  | plain | tags | zero
  deriving DecidableEq, Repr

/-- Scopes of a policy word and of `cpy` (R137, R144). -/
inductive Scope where
  | core | cl | pkg | sys
  deriving DecidableEq, Repr

/-- Conditions of `wset` (Table 24.9). -/
inductive WaitCond where
  | full | empty | cnt | bag | msg | time | ticket | diff
  deriving DecidableEq, Repr

/-- Strides of `rpt` (R73). -/
inductive RptStride where
  | s1 | s2 | s4 | s8
  deriving DecidableEq, Repr

/-- A fabric flit (Table 15.1): its header's fields, its payload words, and the GCM tag it carries; `rsv` holds the header's
reserved fields, bits 63:60 of word 0 lowest, and `port` is the port it travels on. -/
structure Flit where
  dest   : Nat
  src    : Nat
  sinc   : Nat
  kgen   : Bool
  cls    : Nat
  ti     : Nat
  score  : Nat
  dcore  : Nat
  op     : Nat
  reqid  : Nat
  dinc   : Nat
  status : Nat
  words  : List Word
  rsv    : BitVec 15
  port   : Nat
  tag    : List Byte
  deriving DecidableEq, Repr

/-- Who wrote TENANT[t].PREEMPT: service firmware through its window, or a trusted image (R285). -/
inductive PreemptSrc where
  | service | trusted
  deriving DecidableEq, Repr

/-- The scopes of a commit token (R115, R119). -/
inductive TokenScope where
  | cluster (n : Nat) | die (n : Nat) | package
  deriving DecidableEq, Repr

/-- How the copy engine's oldest command ends (R148): it moves its next beat, completes, or fails with a cause. -/
inductive CopyStep where
  | beat | finish | fail (cause : Nat)
  deriving DecidableEq, Repr

/-- The engines that have a progress watchdog (Table 08.3). -/
inductive EngineId where
  | copy (core : Nat) | array (row : Nat) | vector (core slot : Nat) | home (core : Nat) (addr : Nat)
  deriving DecidableEq, Repr

/-- Where an arriving message comes from: a core of this package, or the fabric (R87, R107). -/
inductive MsgSource where
  | inPackage (src dst : Nat) | fabric (f : Flit)
  deriving DecidableEq, Repr

/-- One SPDM or TDISP request as it reaches the security monitor: the session it came on and its bytes (R277, R324). -/
structure SpdmMsg where
  session : Nat
  bytes   : List Byte
  deriving DecidableEq, Repr

/-- The words of a SET_TI_CONFIG request (Table 13.15). -/
structure TiConfig where
  op     : Word
  arlo   : Word
  arhi   : Word
  spwin  : Word
  tbase  : Word
  save   : Word
  spill  : Word
  undq   : Word
  hostep : Word
  fmask  : Word
  deriving DecidableEq, Repr

/-- The instructions and steps of the operation table, in its order. Operand names follow the table's fields: `d` the
destination, `a` the first source (rs1), `b` the second (rs2), `p` a policy register. -/
inductive Instr where
  | add (d a b : Reg) | sub (d a b : Reg) | addw (d a b : Reg) | subw (d a b : Reg)
  | addi (d a : Reg) (i : BitVec 12) | addiw (d a : Reg) (i : BitVec 12)
  | and (d a b : Reg) | or (d a b : Reg) | xor (d a b : Reg)
  | andi (d a : Reg) (i : BitVec 12) | ori (d a : Reg) (i : BitVec 12) | xori (d a : Reg) (i : BitVec 12)
  | slt (d a b : Reg) | sltu (d a b : Reg) | slti (d a : Reg) (i : BitVec 12) | sltiu (d a : Reg) (i : BitVec 12)
  | sll (d a b : Reg) | srl (d a b : Reg) | sra (d a b : Reg)
  | sllw (d a b : Reg) | srlw (d a b : Reg) | sraw (d a b : Reg)
  | slli (d a : Reg) (s : BitVec 6) | srli (d a : Reg) (s : BitVec 6) | srai (d a : Reg) (s : BitVec 6)
  | slliw (d a : Reg) (s : BitVec 5) | srliw (d a : Reg) (s : BitVec 5) | sraiw (d a : Reg) (s : BitVec 5)
  | mul (d a b : Reg) | mulh (d a b : Reg) | mulhsu (d a b : Reg) | mulhu (d a b : Reg) | mulw (d a b : Reg)
  | div (d a b : Reg) | divu (d a b : Reg) | rem (d a b : Reg) | remu (d a b : Reg)
  | divw (d a b : Reg) | divuw (d a b : Reg) | remw (d a b : Reg) | remuw (d a b : Reg)
  | lui (d : Reg) (i : BitVec 20) | auipc (d : Reg) (i : BitVec 20)
  /-- `i` is imm[20:1]. -/
  | jal (d : Reg) (i : BitVec 20)
  | jalr (d a : Reg) (i : BitVec 12)
  /-- For the branches `i` is imm[12:1]. -/
  | beq (a b : Reg) (i : BitVec 12) | bne (a b : Reg) (i : BitVec 12) | blt (a b : Reg) (i : BitVec 12)
  | bge (a b : Reg) (i : BitVec 12) | bltu (a b : Reg) (i : BitVec 12) | bgeu (a b : Reg) (i : BitVec 12)
  | lb (d a : Reg) (i : BitVec 12) | lh (d a : Reg) (i : BitVec 12) | lw (d a : Reg) (i : BitVec 12)
  | ld (d a : Reg) (i : BitVec 12) | lbu (d a : Reg) (i : BitVec 12) | lhu (d a : Reg) (i : BitVec 12)
  | lwu (d a : Reg) (i : BitVec 12)
  /-- For the base stores `a` is the base and `b` the data. -/
  | sb (a b : Reg) (i : BitVec 12) | sh (a b : Reg) (i : BitVec 12) | sw (a b : Reg) (i : BitVec 12)
  | sd (a b : Reg) (i : BitVec 12)
  | lx (z : MemSize) (ss : LoadMode) (ww : WaitClass) (x : Bool) (d a p : Reg)
  | lxQ (ss : LoadMode) (ww : WaitClass) (x : Bool) (d a p : Reg)
  | sx (z : MemSize) (ss : StoreMode) (ww : WaitClass) (x : Bool) (v a p : Reg)
  | amo (z : AmoSize) (o : AmoOp) (x : Bool) (d a b : Reg)
  | tagr (d a : Reg) | tagw (a b : Reg)
  /-- `seal`: handle `h`, base `b`, length `l`. -/
  | seal (h b l : Reg) | unseal (h : Reg)
  | fenceC | fenceD | fenceP | fenceS
  | cwait (n : BitVec 5)
  | dwb (b l : Reg) | icinv (b l : Reg) | fbar
  /-- `bchk`: address `a`, low bound `l`, high bound `h`. -/
  | bchk (a l h : Reg)
  | spawn (d t e : Reg) | spawnOrd (d t e : Reg) | spawnRow (d t e : Reg) | spawnCl (d t e : Reg)
  /-- `msg`: status `d`, destination `n`, tag `g`, count `c`. -/
  | msg (d n : Reg) (g : BitVec 8) (c : BitVec 4)
  | mdone
  | wset (s : BitVec 2) (c : WaitCond) (a b : Reg)
  /-- `wait`: enable mask `e`, all (`y` = 1) or any. -/
  | wait (e : BitVec 4) (y : Bool) (d t : Reg)
  | tend | yield | cmt | gsyncRow | gsyncCl | brk
  | trap (n : BitVec 5) | getst (d : Reg) (n : BitVec 5)
  | tgctl (a b : Reg) | slp (t : Reg)
  /-- `rpt`: `c` is count - 1 and `l` is len - 1. -/
  | rpt (c : BitVec 6) (l : BitVec 4) (s : RptStride)
  | rpart (d b : Reg) | rpst (d h : Reg)
  | vadd (t : ElemType) (m : BitVec 3) (d a b : Reg) | vsub (t : ElemType) (m : BitVec 3) (d a b : Reg)
  | vmul (t : ElemType) (m : BitVec 3) (d a b : Reg) | vmin (t : ElemType) (m : BitVec 3) (d a b : Reg)
  | vmax (t : ElemType) (m : BitVec 3) (d a b : Reg) | vminu (t : ElemType) (m : BitVec 3) (d a b : Reg)
  | vmaxu (t : ElemType) (m : BitVec 3) (d a b : Reg) | vand (t : ElemType) (m : BitVec 3) (d a b : Reg)
  | vor (t : ElemType) (m : BitVec 3) (d a b : Reg) | vxor (t : ElemType) (m : BitVec 3) (d a b : Reg)
  | vsll (t : ElemType) (m : BitVec 3) (d a b : Reg) | vsrl (t : ElemType) (m : BitVec 3) (d a b : Reg)
  | vsra (t : ElemType) (m : BitVec 3) (d a b : Reg)
  /-- For the floating-point forms `z` is fzi, `u` is fzo and `k` selects m1. -/
  | vfadd (y : FFmt) (z u k : Bool) (d a b : Reg) | vfsub (y : FFmt) (z u k : Bool) (d a b : Reg)
  | vfmul (y : FFmt) (z u k : Bool) (d a b : Reg) | vfma (y : FFmt) (z u k : Bool) (d a b : Reg)
  | vfmin (y : FFmt) (z u k : Bool) (d a b : Reg) | vfmax (y : FFmt) (z u k : Bool) (d a b : Reg)
  | vfdiv (y : FFmt) (z u k : Bool) (d a b : Reg) | vfsqrt (y : FFmt) (z u k : Bool) (d a : Reg)
  | vfcmp (c : FCmpOp) (y : FFmt) (z u k : Bool) (m a b : Reg)
  | vld (d a : Reg) | vst (v a : Reg) | vldx (d b i : Reg) | vstx (v b i : Reg)
  | vperm (d s i : Reg) | vbcast (d s : Reg) (w : BitVec 5)
  | vmvVg (d s : Reg) (n : BitVec 5) | vmvGv (d s : Reg) (n : BitVec 5) | vsel (d a b : Reg)
  | vcmp (c : VCmpOp) (t : ElemType) (m a b : Reg)
  | vred (o : RedOp) (t : ElemType) (d a : Reg)
  | vfcvt (d a : Reg) (c : BitVec 5)
  | vfredAddF32 (d a : Reg) | vfredAddBf16 (d a : Reg) | vfredMaxF32 (d a : Reg) | vfredMinF32 (d a : Reg)
  | mand (d a b : Reg) | mor (d a b : Reg) | mxor (d a b : Reg) | mnot (d a : Reg) | mpop (d a : Reg)
  | mfirst (d a : Reg)
  | sfckey (d a : Reg) (k : BitVec 5)
  | mldA (k : BitVec 5) (b i : Reg) | mldB (k : BitVec 5) (b s : Reg)
  | mst (t a s : Reg) | mzero (t : Reg)
  | mma (t : BitVec 2) (z u : Bool) (f : BitVec 5) (k : Reg)
  /-- `cpy`: acquire `q`, release `r`, scope, kind, length `n`, source `s`, destination `e`. -/
  | cpy (q r : Bool) (c : Scope) (y : CopyKind) (n s e : Reg)
  | cpst (d t : Reg)
  | laccClr (a : Reg) | laccAdd (a b : Reg) | laccAddp (d a b : Reg) | laccMrg (a b : Reg)
  | laccRdF32 (d a : Reg) | laccRdF64 (d a : Reg)
  | nalloc (d t : Reg) | nfree (n : Reg) | nlink (a b : Reg) | npush (a b : Reg) | nrd (d p : Reg)
  | nrset (k e : Reg)
  -- the steps of the other units
  | chunkInstructionLimit | chunkCommit
  | serialTokenGrant (scope : TokenScope)
  | bagReload (core : Nat) | dispatch (core slot : Nat) | bagPop (core : Nat) | steal (core : Nat)
  /-- `occ`: the summed run-queue occupancy of the cluster's 16 cores over the 4,096 cycles just ended. -/
  | placementLoop (cluster occ : Nat)
  | gangReserve (cluster : Nat) | gangSlotHold (cluster : Nat) | gsyncPass (core slot : Nat)
  | waitLatch (core slot ws : Nat) | waitReturn (core slot : Nat) | waitTimeout (core slot : Nat)
  | slpWake (core slot : Nat)
  | copyComplete (core : Nat) (how : CopyStep)
  | engineWatchdog (eng : EngineId) (tenant : Nat)
  | mmaArrayStart (row : Nat) | mmaArrayComplete (row : Nat)
  | cribRefill (core tenant pool : Nat)
  | icinvComplete (core slot : Nat) | icacheFill
  | scrubClearComplete (granule : Nat)
  | storeAck (core tenant : Nat) (cls : WaitClass)
  | launchCompletion (ti number : Nat)
  | messageArrival (m : MsgSource) | messageResend (src dst : Nat)
  | repartitionComplete (seq : Nat) | gleaner (f : Flit)
  | preemptRequest (t : Nat) (src : PreemptSrc) | preemptRelease (t : Nat) (src : PreemptSrc)
  | preemptHaltComplete (t : Nat) (src : PreemptSrc)
  /-- A trusted write of word `hi` of HMAP[n] by slot `slot` of core `core`. -/
  | hmapWrite (core slot n : Nat) (hi : Bool) (v : Word)
  | unscrubbedMark (core slot granule : Nat)
  | weight (t : Nat) (v : Byte)
  /-- A trusted write of the control-space word at byte offset `off`. -/
  | controlSpaceWrite (core slot off : Nat) (v : Word)
  | load (f : Flit) | store (f : Flit) | atomic (f : Flit) | tagRead (f : Flit) | tagWrite (f : Flit)
  | launch (f : Flit)
  | admission
  | cancel (f : Flit) | reply (f : Flit)
  | nackWaitRetry (core reqid : Nat)
  | replyTimeout (core reqid : Nat)
  | incarnationAnnouncement (f : Flit) | incarnationFence (f : Flit)
  | rekeyRequest (port : Nat)
  | getVersion (m : SpdmMsg) | getCapabilities (m : SpdmMsg)
  | negotiateAlgorithms (m : SpdmMsg) | getDigests (m : SpdmMsg)
  | getCertificate (m : SpdmMsg) | challenge (m : SpdmMsg) | getMeasurements (m : SpdmMsg)
  | keyExchange (m : SpdmMsg) | finish (m : SpdmMsg)
  | keyUpdate (m : SpdmMsg) (port : Nat)
  | heartbeat (m : SpdmMsg) | endSession (m : SpdmMsg) | spdmUnsupportedRequest (m : SpdmMsg)
  | getTdispVersion (t : Nat) | getTdispCapabilities (t : Nat)
  | lockInterfaceRequest (t : Nat) | getDeviceInterfaceReport (t : Nat)
  | getDeviceInterfaceState (t : Nat) | startInterfaceRequest (t : Nat) | stopInterfaceRequest (t : Nat)
  | tdispUnsupportedRequest (t : Nat)
  | setTiConfig (c : TiConfig)
  | compactTimeout
  | cryptoSha384 | cryptoEcdsaVerify
  | cryptoEcdsaSign (slot : Nat) | cryptoExtend (index : Nat)
  | cryptoAesGcm (slot : Nat) | cryptoAesXts (slot : Nat)
  | cryptoRandom | cryptoInvalidOp (op : BitVec 4)
  | cryptoCommandDone
  | txctl (v : Word)
  | mailboxRequestArrival (bytes : List Byte)
  /-- An MCTP message of type `ty` on I3C. -/
  | mctpMessage (ty : Nat) (bytes : List Byte)
  | powerOnReset
  | droopClockStretch (cluster : Nat) | junctionStretch | junctionShutdown
  | siloFlush
  | illegalEncoding
  | serviceWindowRefusal | managementCoreAccessFault (addr : Nat)
  | uncorrectableMemoryError (addr : Nat)
  | powerLoss | orderlyShutdown
  | linkBringUp (port txDir rxDir : Nat)
  | spdmSessionLoss (t : Nat)
  deriving DecidableEq, Repr

end Sys2Proof
end

