-- ==== Sys2Proof/WellFormed.lean ====
section
/-! DEFINITION. Which terms of `Instr` are instructions: the literal and register ranges of R58 and R62 to R67 that the
types of the operands do not already say. A word that breaks one is illegal (R59). -/

namespace Sys2Proof

/-- A field that names a mask to be written: m1 to m7 (R58, R65, R380). -/
def maskDst (m : Reg) : Bool := decide (m ≠ 0) && decide (m.toNat ≤ 7)

/-- A field that names a mask to be read: m0 to m7 (R58). -/
def maskSrc (m : Reg) : Bool := decide (m.toNat ≤ 7)

/-- The ranges of R58, R62 (lx.q, cwait), R64 (msg, wset, wait, getst), R65, R66 and R67. -/
def Instr.wf : Instr → Bool
  | .lxQ _ _ _ d _ _ => decide (d.toNat % 2 = 0) && decide (d ≠ 0) && decide (d ≠ 28)
  | .cwait n => decide (1 ≤ n.toNat) && decide (n.toNat ≤ 3)
  | .msg _ _ _ c => decide (c.toNat ≤ 8)
  | .wset _ c a b =>
    match c with
    | .diff => true
    | .bag => decide (a = 0) && decide (b = 0)
    | _ => decide (b = 0)
  | .wait e _ _ _ => decide (e ≠ 0)
  | .getst _ n => decide (n.toNat ≤ 14)
  | .vfcmp _ _ _ _ _ m _ _ => maskDst m
  | .vcmp _ _ m _ _ => maskDst m
  | .vbcast _ _ w => decide (w.toNat ≤ 3)
  | .vmvVg _ _ n => decide (n.toNat ≤ 7)
  | .vmvGv _ _ n => decide (n.toNat ≤ 7)
  | .vfcvt _ a c => decide (c.toNat ≤ 30) && !(decide (16 ≤ c.toNat) && decide (c.toNat ≤ 27) && decide (a = 31))
  | .mand d a b => maskDst d && maskSrc a && maskSrc b
  | .mor d a b => maskDst d && maskSrc a && maskSrc b
  | .mxor d a b => maskDst d && maskSrc a && maskSrc b
  | .mnot d a => maskDst d && maskSrc a
  | .mpop _ a => maskSrc a
  | .mfirst _ a => maskSrc a
  | .sfckey _ a k =>
    decide (k.toNat ≤ 3) && (if k.toNat % 2 = 0 then decide (a ≠ 31) else decide (a.toNat ≤ 29))
  | .mldA k _ _ => decide (k.toNat ≤ 7)
  | .mldB k _ _ => decide (k.toNat ≤ 7)
  | .mst t _ _ => decide (t.toNat ≤ 3)
  | .mzero t => decide (t.toNat ≤ 3)
  | .mma _ _ _ f _ => decide (f.toNat ≤ 11)
  | _ => true

/-- `i` is an instruction the spec admits. -/
abbrev Instr.WellFormed (i : Instr) : Prop := i.wf = true

end Sys2Proof
end

