-- ==== Sys2Proof/Decode.lean ====
section
/-! DEFINITION. The decoder of native words (R57 to R67), total on any bytes and rejecting by name, and the encoder
written from the same tables. -/

namespace Sys2Proof

/-- The six fields of a native word (R57). -/
structure Fields where
  f7 : BitVec 7
  b  : BitVec 5
  a  : BitVec 5
  f3 : BitVec 3
  d  : BitVec 5
  op : BitVec 7
  deriving DecidableEq, Repr

/-- Why bytes are no instruction (R58 to R67). -/
inductive Reject where
  /-- Fewer than the four bytes of a word (R57). -/
  | short
  /-- A major opcode, funct3 or funct7 that names no instruction (R60 to R67). -/
  | opcode
  /-- A field the instruction does not use is not zero, or a literal, mask or tile is out of range (R58). -/
  | field
  deriving DecidableEq, Repr

/-- The fields of a word (R57). -/
def split (w : BitVec 32) : Fields :=
  ⟨w.extractLsb' 25 7, w.extractLsb' 20 5, w.extractLsb' 15 5, w.extractLsb' 12 3, w.extractLsb' 7 5, w.extractLsb' 0 7⟩

/-- The word of six fields (R57). -/
def join (f : Fields) : BitVec 32 :=
  f.f7 ++ (f.b ++ (f.a ++ (f.f3 ++ (f.d ++ f.op))))

/-! ### Immediates (R57: the bits that RISC-V assigns them) -/

/-- I-type: imm[11:0] in bits 31 to 20. -/
def immI (f : Fields) : BitVec 12 := f.f7 ++ f.b
/-- S-type: imm[11:5] in bits 31 to 25, imm[4:0] in bits 11 to 7. -/
def immS (f : Fields) : BitVec 12 := f.f7 ++ f.d
/-- B-type, as imm[12:1]: imm[12] bit 31, imm[11] bit 7, imm[10:5] bits 30 to 25, imm[4:1] bits 11 to 8. -/
def immB (f : Fields) : BitVec 12 :=
  f.f7.extractLsb' 6 1 ++ (f.d.extractLsb' 0 1 ++ (f.f7.extractLsb' 0 6 ++ f.d.extractLsb' 1 4))
/-- The funct7 field of a B-type immediate. -/
def immBf7 (i : BitVec 12) : BitVec 7 := i.extractLsb' 11 1 ++ i.extractLsb' 4 6
/-- The rd field of a B-type immediate. -/
def immBd (i : BitVec 12) : BitVec 5 := i.extractLsb' 0 4 ++ i.extractLsb' 10 1
/-- U-type: imm[31:12]. -/
def immU (f : Fields) : BitVec 20 := f.f7 ++ (f.b ++ (f.a ++ f.f3))
/-- J-type, as imm[20:1]: imm[20] bit 31, imm[19:12] bits 19 to 12, imm[11] bit 20, imm[10:1] bits 30 to 21. -/
def immJ (f : Fields) : BitVec 20 :=
  let u := immU f
  u.extractLsb' 19 1 ++ (u.extractLsb' 0 8 ++ (u.extractLsb' 8 1 ++ u.extractLsb' 9 10))
/-- The bits 31 to 12 of a J-type immediate given as imm[20:1]. -/
def immJu (i : BitVec 20) : BitVec 20 :=
  i.extractLsb' 19 1 ++ (i.extractLsb' 0 10 ++ (i.extractLsb' 10 1 ++ i.extractLsb' 11 8))
/-- The fields whose bits 31 to 12 are `u`. -/
def fieldsU (u : BitVec 20) (d : BitVec 5) (op : BitVec 7) : Fields :=
  ⟨u.extractLsb' 13 7, u.extractLsb' 8 5, u.extractLsb' 3 5, u.extractLsb' 0 3, d, op⟩
/-- The fields of an I-type word. -/
def fieldsI (i : BitVec 12) (a : BitVec 5) (f3 : BitVec 3) (d : BitVec 5) (op : BitVec 7) : Fields :=
  ⟨i.extractLsb' 5 7, i.extractLsb' 0 5, a, f3, d, op⟩

/-! ### Codes of the small operand types -/

def MemSize.code : MemSize → BitVec 3
  | .b => 0 | .h => 1 | .w => 2 | .d => 3
def LoadMode.code : LoadMode → BitVec 2
  | .pl => 0 | .wf => 1 | .wfe => 2 | .rdn => 3
def LoadMode.ofCode (c : BitVec 2) : LoadMode :=
  if c = 0 then .pl else if c = 1 then .wf else if c = 2 then .wfe else .rdn
def StoreMode.code : StoreMode → BitVec 2
  | .pl => 0 | .we => 1 | .sf => 2 | .se => 3
def StoreMode.ofCode (c : BitVec 2) : StoreMode :=
  if c = 0 then .pl else if c = 1 then .we else if c = 2 then .sf else .se
def WaitClass.code : WaitClass → BitVec 2
  | .no => 0 | .near => 1 | .die => 2 | .far => 3
def WaitClass.ofCode (c : BitVec 2) : WaitClass :=
  if c = 0 then .no else if c = 1 then .near else if c = 2 then .die else .far
def AmoOp.code : AmoOp → BitVec 4
  | .add => 0 | .and => 1 | .or => 2 | .xor => 3 | .min => 4 | .minu => 5 | .max => 6 | .maxu => 7 | .swap => 8
  | .cas => 9
def AmoOp.ofCode (c : BitVec 4) : Option AmoOp :=
  if c = 0 then some .add else if c = 1 then some .and else if c = 2 then some .or else if c = 3 then some .xor
  else if c = 4 then some .min else if c = 5 then some .minu else if c = 6 then some .max
  else if c = 7 then some .maxu else if c = 8 then some .swap else if c = 9 then some .cas else none
def ElemType.code : ElemType → BitVec 2
  | .i8 => 0 | .i16 => 1 | .i32 => 2 | .i64 => 3
def ElemType.ofCode (c : BitVec 2) : ElemType :=
  if c = 0 then .i8 else if c = 1 then .i16 else if c = 2 then .i32 else .i64
/-- The funct3 of a floating-point format (R65). -/
def FFmt.code : FFmt → BitVec 3
  | .bf16 => 4 | .f32 => 5 | .f64 => 6
def VCmpOp.code : VCmpOp → BitVec 3
  | .eq => 0 | .ne => 1 | .lt => 2 | .ltu => 3 | .le => 4 | .leu => 5
def VCmpOp.ofCode (c : BitVec 3) : Option VCmpOp :=
  if c = 0 then some .eq else if c = 1 then some .ne else if c = 2 then some .lt else if c = 3 then some .ltu
  else if c = 4 then some .le else if c = 5 then some .leu else none
def RedOp.code : RedOp → BitVec 3
  | .add => 0 | .min => 1 | .max => 2 | .minu => 3 | .maxu => 4 | .and => 5 | .or => 6 | .xor => 7
def RedOp.ofCode (c : BitVec 3) : RedOp :=
  if c = 0 then .add else if c = 1 then .min else if c = 2 then .max else if c = 3 then .minu
  else if c = 4 then .maxu else if c = 5 then .and else if c = 6 then .or else .xor
def FCmpOp.code : FCmpOp → BitVec 4
  | .eq => 8 | .lt => 9 | .le => 10 | .un => 11
def CopyKind.code : CopyKind → BitVec 3
  | .plain => 0 | .tags => 1 | .zero => 2
def CopyKind.ofCode (c : BitVec 3) : Option CopyKind :=
  if c = 0 then some .plain else if c = 1 then some .tags else if c = 2 then some .zero else none
def Scope.code : Scope → BitVec 2
  | .core => 0 | .cl => 1 | .pkg => 2 | .sys => 3
def Scope.ofCode (c : BitVec 2) : Scope :=
  if c = 0 then .core else if c = 1 then .cl else if c = 2 then .pkg else .sys
def WaitCond.code : WaitCond → BitVec 5
  | .full => 1 | .empty => 2 | .cnt => 3 | .bag => 4 | .msg => 5 | .time => 6 | .ticket => 7 | .diff => 8
def WaitCond.ofCode (c : BitVec 5) : Option WaitCond :=
  if c = 1 then some .full else if c = 2 then some .empty else if c = 3 then some .cnt else if c = 4 then some .bag
  else if c = 5 then some .msg else if c = 6 then some .time else if c = 7 then some .ticket
  else if c = 8 then some .diff else none
def RptStride.code : RptStride → BitVec 2
  | .s1 => 0 | .s2 => 1 | .s4 => 2 | .s8 => 3
def RptStride.ofCode (c : BitVec 2) : RptStride :=
  if c = 0 then .s1 else if c = 1 then .s2 else if c = 2 then .s4 else .s8

/-- A one-bit field. -/
def bit1 (b : Bool) : BitVec 1 := BitVec.ofBool b
/-- Bit `n` of a seven-bit field. -/
def f7bit (f : BitVec 7) (n : Nat) : Bool := f.getLsbD n

/-- Accept `i` when the listed unused fields are zero (R58). -/
def onlyIf (c : Bool) (i : Instr) : Except Reject Instr := if c then .ok i else .error .field

/-! ### The decoder, one function per major opcode -/

/-- OP (0110011): funct7 0000000, 0100000 and 0000001 (R61). -/
def decOp (f : Fields) : Except Reject Instr :=
  if f.f7 = 0 then
    if f.f3 = 0 then .ok (.add f.d f.a f.b) else if f.f3 = 1 then .ok (.sll f.d f.a f.b)
    else if f.f3 = 2 then .ok (.slt f.d f.a f.b) else if f.f3 = 3 then .ok (.sltu f.d f.a f.b)
    else if f.f3 = 4 then .ok (.xor f.d f.a f.b) else if f.f3 = 5 then .ok (.srl f.d f.a f.b)
    else if f.f3 = 6 then .ok (.or f.d f.a f.b) else .ok (.and f.d f.a f.b)
  else if f.f7 = 0x20 then
    if f.f3 = 0 then .ok (.sub f.d f.a f.b) else if f.f3 = 5 then .ok (.sra f.d f.a f.b) else .error .opcode
  else if f.f7 = 1 then
    if f.f3 = 0 then .ok (.mul f.d f.a f.b) else if f.f3 = 1 then .ok (.mulh f.d f.a f.b)
    else if f.f3 = 2 then .ok (.mulhsu f.d f.a f.b) else if f.f3 = 3 then .ok (.mulhu f.d f.a f.b)
    else if f.f3 = 4 then .ok (.div f.d f.a f.b) else if f.f3 = 5 then .ok (.divu f.d f.a f.b)
    else if f.f3 = 6 then .ok (.rem f.d f.a f.b) else .ok (.remu f.d f.a f.b)
  else .error .opcode

/-- OP-32 (0111011) (R61). -/
def decOp32 (f : Fields) : Except Reject Instr :=
  if f.f7 = 0 then
    if f.f3 = 0 then .ok (.addw f.d f.a f.b) else if f.f3 = 1 then .ok (.sllw f.d f.a f.b)
    else if f.f3 = 5 then .ok (.srlw f.d f.a f.b) else .error .opcode
  else if f.f7 = 0x20 then
    if f.f3 = 0 then .ok (.subw f.d f.a f.b) else if f.f3 = 5 then .ok (.sraw f.d f.a f.b) else .error .opcode
  else if f.f7 = 1 then
    if f.f3 = 0 then .ok (.mulw f.d f.a f.b) else if f.f3 = 4 then .ok (.divw f.d f.a f.b)
    else if f.f3 = 5 then .ok (.divuw f.d f.a f.b) else if f.f3 = 6 then .ok (.remw f.d f.a f.b)
    else if f.f3 = 7 then .ok (.remuw f.d f.a f.b) else .error .opcode
  else .error .opcode

/-- OP-IMM (0010011): a shift immediate's high bits are 000000 or 010000 (R61). -/
def decOpImm (f : Fields) : Except Reject Instr :=
  if f.f3 = 0 then .ok (.addi f.d f.a (immI f))
  else if f.f3 = 1 then
    if f.f7.extractLsb' 1 6 = 0 then .ok (.slli f.d f.a (f.f7.extractLsb' 0 1 ++ f.b)) else .error .opcode
  else if f.f3 = 2 then .ok (.slti f.d f.a (immI f)) else if f.f3 = 3 then .ok (.sltiu f.d f.a (immI f))
  else if f.f3 = 4 then .ok (.xori f.d f.a (immI f))
  else if f.f3 = 5 then
    if f.f7.extractLsb' 1 6 = 0 then .ok (.srli f.d f.a (f.f7.extractLsb' 0 1 ++ f.b))
    else if f.f7.extractLsb' 1 6 = 0x10 then .ok (.srai f.d f.a (f.f7.extractLsb' 0 1 ++ f.b)) else .error .opcode
  else if f.f3 = 6 then .ok (.ori f.d f.a (immI f)) else .ok (.andi f.d f.a (immI f))

/-- OP-IMM-32 (0011011) (R61). -/
def decOpImm32 (f : Fields) : Except Reject Instr :=
  if f.f3 = 0 then .ok (.addiw f.d f.a (immI f))
  else if f.f3 = 1 then (if f.f7 = 0 then .ok (.slliw f.d f.a f.b) else .error .opcode)
  else if f.f3 = 5 then
    if f.f7 = 0 then .ok (.srliw f.d f.a f.b) else if f.f7 = 0x20 then .ok (.sraiw f.d f.a f.b) else .error .opcode
  else .error .opcode

/-- LOAD (0000011): funct3 111 is illegal (R61). -/
def decLoad (f : Fields) : Except Reject Instr :=
  if f.f3 = 0 then .ok (.lb f.d f.a (immI f)) else if f.f3 = 1 then .ok (.lh f.d f.a (immI f))
  else if f.f3 = 2 then .ok (.lw f.d f.a (immI f)) else if f.f3 = 3 then .ok (.ld f.d f.a (immI f))
  else if f.f3 = 4 then .ok (.lbu f.d f.a (immI f)) else if f.f3 = 5 then .ok (.lhu f.d f.a (immI f))
  else if f.f3 = 6 then .ok (.lwu f.d f.a (immI f)) else .error .opcode

/-- STORE (0100011): funct3 1xx is illegal (R61). -/
def decStore (f : Fields) : Except Reject Instr :=
  if f.f3 = 0 then .ok (.sb f.a f.b (immS f)) else if f.f3 = 1 then .ok (.sh f.a f.b (immS f))
  else if f.f3 = 2 then .ok (.sw f.a f.b (immS f)) else if f.f3 = 3 then .ok (.sd f.a f.b (immS f))
  else .error .opcode

/-- BRANCH (1100011): funct3 010 and 011 are illegal (R61). -/
def decBranch (f : Fields) : Except Reject Instr :=
  if f.f3 = 0 then .ok (.beq f.a f.b (immB f)) else if f.f3 = 1 then .ok (.bne f.a f.b (immB f))
  else if f.f3 = 4 then .ok (.blt f.a f.b (immB f)) else if f.f3 = 5 then .ok (.bge f.a f.b (immB f))
  else if f.f3 = 6 then .ok (.bltu f.a f.b (immB f)) else if f.f3 = 7 then .ok (.bgeu f.a f.b (immB f))
  else .error .opcode

/-- The size of a MEMX funct3 000 to 011. -/
def memSizeOf (c : BitVec 3) : MemSize := if c = 0 then .b else if c = 1 then .h else if c = 2 then .w else .d

/-- MEMX (0001011), Table 03.2. -/
def decMemx (f : Fields) : Except Reject Instr :=
  let ss := f.f7.extractLsb' 3 2
  let ww := f.f7.extractLsb' 1 2
  let x := f7bit f.f7 0
  if f.f3.toNat ≤ 4 then
    if f.f7.extractLsb' 5 2 = 0 then
      if f.f3 = 4 then .ok (.lxQ (LoadMode.ofCode ss) (WaitClass.ofCode ww) x f.d f.a f.b)
      else .ok (.lx (memSizeOf f.f3) (LoadMode.ofCode ss) (WaitClass.ofCode ww) x f.d f.a f.b)
    else if f.f7.extractLsb' 5 2 = 1 then
      if f.f3 = 4 then .error .opcode
      else .ok (.sx (memSizeOf f.f3) (StoreMode.ofCode ss) (WaitClass.ofCode ww) x f.d f.a f.b)
    else if f.f7.extractLsb' 5 2 = 2 then
      match AmoOp.ofCode (f.f7.extractLsb' 1 4) with
      | none => .error .opcode
      | some o =>
        if f.f3 = 2 then .ok (.amo .w o x f.d f.a f.b) else if f.f3 = 3 then .ok (.amo .d o x f.d f.a f.b)
        else .error .opcode
    else .error .opcode
  else if f.f3 = 5 then
    if f.f7 = 0 then onlyIf (f.b = 0) (.tagr f.d f.a)
    else if f.f7 = 1 then onlyIf (f.d = 0) (.tagw f.a f.b) else .error .opcode
  else if f.f3 = 6 then
    if f.f7 = 0 then .ok (.seal f.d f.a f.b)
    else if f.f7 = 1 then onlyIf (f.d = 0 && f.b = 0) (.unseal f.a) else .error .opcode
  else
    let z := f.d = 0 && f.a = 0 && f.b = 0
    if f.f7 = 0 then onlyIf z .fenceC else if f.f7 = 1 then onlyIf z .fenceD
    else if f.f7 = 2 then onlyIf z .fenceP else if f.f7 = 3 then onlyIf z .fenceS
    else if f.f7 = 4 then onlyIf (f.d = 0 && f.a = 0) (.cwait f.b)
    else if f.f7 = 8 then onlyIf (f.d = 0) (.dwb f.a f.b)
    else if f.f7 = 9 then onlyIf (f.d = 0) (.icinv f.a f.b)
    else if f.f7 = 10 then onlyIf z .fbar
    else if f.f7 = 12 then .ok (.bchk f.d f.a f.b)
    else .error .opcode

/-- TASK (0101011), Table 03.3 and R73. -/
def decTask (f : Fields) : Except Reject Instr :=
  if f.f3 = 0 then
    if f.f7 = 0 then .ok (.spawn f.d f.a f.b) else if f.f7 = 0x40 then .ok (.spawnOrd f.d f.a f.b)
    else if f.f7 = 0x20 then .ok (.spawnRow f.d f.a f.b) else if f.f7 = 0x30 then .ok (.spawnCl f.d f.a f.b)
    else .error .opcode
  else if f.f3 = 1 then
    .ok (.msg f.d f.a ((immI f).extractLsb' 4 8) ((immI f).extractLsb' 0 4))
  else if f.f3 = 2 then (if f.f7 = 0 then onlyIf (f.d = 0 && f.a = 0 && f.b = 0) .mdone else .error .opcode)
  else if f.f3 = 3 then
    match WaitCond.ofCode (f.f7.extractLsb' 0 5) with
    | none => .error .opcode
    | some c => onlyIf (f.d = 0) (.wset (f.f7.extractLsb' 5 2) c f.a f.b)
  else if f.f3 = 4 then
    if f.f7.extractLsb' 1 2 = 0 then onlyIf (f.b = 0) (.wait (f.f7.extractLsb' 3 4) (f7bit f.f7 0) f.d f.a)
    else .error .opcode
  else if f.f3 = 5 then
    let z := f.d = 0 && f.a = 0 && f.b = 0
    if f.f7 = 0 then onlyIf z .tend else if f.f7 = 1 then onlyIf z .yield else if f.f7 = 2 then onlyIf z .cmt
    else if f.f7 = 4 then onlyIf z .gsyncRow else if f.f7 = 5 then onlyIf z .gsyncCl
    else if f.f7 = 8 then onlyIf z .brk
    else if f.f7 = 9 then onlyIf (f.d = 0 && f.a = 0) (.trap f.b)
    else if f.f7 = 0x10 then onlyIf (f.a = 0) (.getst f.d f.b)
    else if f.f7 = 0x18 then onlyIf (f.d = 0) (.tgctl f.a f.b)
    else if f.f7 = 0x20 then onlyIf (f.d = 0 && f.b = 0) (.slp f.a)
    else .error .opcode
  else if f.f3 = 6 then
    onlyIf (f.d = 0 && f.a = 0)
      (.rpt ((immI f).extractLsb' 6 6) ((immI f).extractLsb' 2 4) (RptStride.ofCode ((immI f).extractLsb' 0 2)))
  else
    if f.f7 = 0 then onlyIf (f.b = 0) (.rpart f.d f.a)
    else if f.f7 = 1 then onlyIf (f.b = 0) (.rpst f.d f.a) else .error .opcode

/-- VEC funct3 0tt: integer operations (R65). -/
def decVInt (f : Fields) : Except Reject Instr :=
  let t := ElemType.ofCode (f.f3.extractLsb' 0 2)
  let m := f.f7.extractLsb' 0 3
  let o := f.f7.extractLsb' 3 4
  if o = 0 then .ok (.vadd t m f.d f.a f.b) else if o = 1 then .ok (.vsub t m f.d f.a f.b)
  else if o = 2 then .ok (.vmul t m f.d f.a f.b) else if o = 3 then .ok (.vmin t m f.d f.a f.b)
  else if o = 4 then .ok (.vmax t m f.d f.a f.b) else if o = 5 then .ok (.vminu t m f.d f.a f.b)
  else if o = 6 then .ok (.vmaxu t m f.d f.a f.b) else if o = 7 then .ok (.vand t m f.d f.a f.b)
  else if o = 8 then .ok (.vor t m f.d f.a f.b) else if o = 9 then .ok (.vxor t m f.d f.a f.b)
  else if o = 10 then .ok (.vsll t m f.d f.a f.b) else if o = 11 then .ok (.vsrl t m f.d f.a f.b)
  else if o = 12 then .ok (.vsra t m f.d f.a f.b) else .error .opcode

/-- VEC funct3 100 to 110: floating-point operations (R65). -/
def decVFp (y : FFmt) (f : Fields) : Except Reject Instr :=
  let z := f7bit f.f7 2
  let u := f7bit f.f7 1
  let k := f7bit f.f7 0
  let o := f.f7.extractLsb' 3 4
  if o = 0 then .ok (.vfadd y z u k f.d f.a f.b) else if o = 1 then .ok (.vfsub y z u k f.d f.a f.b)
  else if o = 2 then .ok (.vfmul y z u k f.d f.a f.b) else if o = 3 then .ok (.vfma y z u k f.d f.a f.b)
  else if o = 4 then .ok (.vfmin y z u k f.d f.a f.b) else if o = 5 then .ok (.vfmax y z u k f.d f.a f.b)
  else if o = 6 then .ok (.vfdiv y z u k f.d f.a f.b)
  else if o = 7 then onlyIf (f.b = 0) (.vfsqrt y z u k f.d f.a)
  else if o = 8 then .ok (.vfcmp .eq y z u k f.d f.a f.b) else if o = 9 then .ok (.vfcmp .lt y z u k f.d f.a f.b)
  else if o = 10 then .ok (.vfcmp .le y z u k f.d f.a f.b) else if o = 11 then .ok (.vfcmp .un y z u k f.d f.a f.b)
  else .error .opcode

/-- VEC funct3 111: the special operations (R65). -/
def decVSpec (f : Fields) : Except Reject Instr :=
  if f.f7.extractLsb' 5 2 = 1 then
    match VCmpOp.ofCode (f.f7.extractLsb' 2 3) with
    | none => .error .opcode
    | some c => .ok (.vcmp c (ElemType.ofCode (f.f7.extractLsb' 0 2)) f.d f.a f.b)
  else if f.f7.extractLsb' 5 2 = 2 then
    onlyIf (f.b = 0)
      (.vred (RedOp.ofCode (f.f7.extractLsb' 2 3)) (ElemType.ofCode (f.f7.extractLsb' 0 2)) f.d f.a)
  else if f.f7 = 0 then onlyIf (f.b = 0) (.vld f.d f.a) else if f.f7 = 1 then onlyIf (f.b = 0) (.vst f.d f.a)
  else if f.f7 = 2 then .ok (.vldx f.d f.a f.b) else if f.f7 = 3 then .ok (.vstx f.d f.a f.b)
  else if f.f7 = 4 then .ok (.vperm f.d f.a f.b) else if f.f7 = 5 then .ok (.vbcast f.d f.a f.b)
  else if f.f7 = 6 then .ok (.vmvVg f.d f.a f.b) else if f.f7 = 7 then .ok (.vmvGv f.d f.a f.b)
  else if f.f7 = 8 then .ok (.vsel f.d f.a f.b)
  else if f.f7 = 0x60 then .ok (.vfcvt f.d f.a f.b)
  else if f.f7 = 0x61 then onlyIf (f.b = 0) (.vfredAddF32 f.d f.a)
  else if f.f7 = 0x62 then onlyIf (f.b = 0) (.vfredAddBf16 f.d f.a)
  else if f.f7 = 0x63 then onlyIf (f.b = 0) (.vfredMaxF32 f.d f.a)
  else if f.f7 = 0x64 then onlyIf (f.b = 0) (.vfredMinF32 f.d f.a)
  else if f.f7 = 0x68 then .ok (.mand f.d f.a f.b) else if f.f7 = 0x69 then .ok (.mor f.d f.a f.b)
  else if f.f7 = 0x6A then .ok (.mxor f.d f.a f.b)
  else if f.f7 = 0x6B then onlyIf (f.b = 0) (.mnot f.d f.a)
  else if f.f7 = 0x6C then onlyIf (f.b = 0) (.mpop f.d f.a)
  else if f.f7 = 0x6D then onlyIf (f.b = 0) (.mfirst f.d f.a)
  else if f.f7 = 0x70 then .ok (.sfckey f.d f.a f.b)
  else .error .opcode

/-- VEC (1011011), Table 03.4. -/
def decVec (f : Fields) : Except Reject Instr :=
  if f.f3 = 4 then decVFp .bf16 f else if f.f3 = 5 then decVFp .f32 f else if f.f3 = 6 then decVFp .f64 f
  else if f.f3 = 7 then decVSpec f else decVInt f

/-- XE (1111011), Table 03.6. -/
def decXe (f : Fields) : Except Reject Instr :=
  if f.f3 = 0 then
    if f.f7 = 0 then .ok (.mldA f.d f.a f.b) else if f.f7 = 1 then .ok (.mldB f.d f.a f.b)
    else if f.f7 = 2 then .ok (.mst f.d f.a f.b)
    else if f.f7 = 3 then onlyIf (f.a = 0 && f.b = 0) (.mzero f.d)
    else if f.f7.extractLsb' 5 2 = 2 && !(f7bit f.f7 0) then
      onlyIf (f.d = 0) (.mma (f.f7.extractLsb' 3 2) (f7bit f.f7 2) (f7bit f.f7 1) f.b f.a)
    else .error .opcode
  else if f.f3 = 1 then
    match CopyKind.ofCode (f.f7.extractLsb' 0 3) with
    | none => .error .opcode
    | some y => .ok (.cpy (f7bit f.f7 6) (f7bit f.f7 5) (Scope.ofCode (f.f7.extractLsb' 3 2)) y f.d f.a f.b)
  else if f.f3 = 2 then (if f.f7 = 0 then onlyIf (f.b = 0) (.cpst f.d f.a) else .error .opcode)
  else if f.f3 = 3 then
    if f.f7 = 0 then onlyIf (f.d = 0 && f.b = 0) (.laccClr f.a)
    else if f.f7 = 1 then onlyIf (f.d = 0) (.laccAdd f.a f.b)
    else if f.f7 = 2 then .ok (.laccAddp f.d f.a f.b)
    else if f.f7 = 3 then onlyIf (f.d = 0) (.laccMrg f.a f.b)
    else if f.f7 = 4 then onlyIf (f.b = 0) (.laccRdF32 f.d f.a)
    else if f.f7 = 5 then onlyIf (f.b = 0) (.laccRdF64 f.d f.a)
    else .error .opcode
  else if f.f3 = 4 then
    if f.f7 = 0 then onlyIf (f.b = 0) (.nalloc f.d f.a)
    else if f.f7 = 1 then onlyIf (f.d = 0 && f.b = 0) (.nfree f.a)
    else if f.f7 = 2 then onlyIf (f.d = 0) (.nlink f.a f.b)
    else if f.f7 = 3 then onlyIf (f.d = 0) (.npush f.a f.b)
    else if f.f7 = 4 then onlyIf (f.b = 0) (.nrd f.d f.a)
    else if f.f7 = 5 then onlyIf (f.d = 0) (.nrset f.a f.b)
    else .error .opcode
  else .error .opcode

/-- The instruction six fields spell, before the ranges of `Instr.wf` are judged; every major opcode not listed is
illegal (Table 03.1). -/
def decodeFields (f : Fields) : Except Reject Instr :=
  if f.op = 0x33 then decOp f
  else if f.op = 0x3B then decOp32 f
  else if f.op = 0x13 then decOpImm f
  else if f.op = 0x1B then decOpImm32 f
  else if f.op = 0x03 then decLoad f
  else if f.op = 0x23 then decStore f
  else if f.op = 0x63 then decBranch f
  else if f.op = 0x37 then .ok (.lui f.d (immU f))
  else if f.op = 0x17 then .ok (.auipc f.d (immU f))
  else if f.op = 0x6F then .ok (.jal f.d (immJ f))
  else if f.op = 0x67 then (if f.f3 = 0 then .ok (.jalr f.d f.a (immI f)) else .error .opcode)
  else if f.op = 0x0B then decMemx f
  else if f.op = 0x2B then decTask f
  else if f.op = 0x5B then decVec f
  else if f.op = 0x7B then decXe f
  else .error .opcode

/-- The fields of a word, judged under R58 to R67. -/
def decodeRaw (w : BitVec 32) : Except Reject Instr := decodeFields (split w)

/-- The instruction of a word, or why there is none (R58, R59). -/
def decode (w : BitVec 32) : Except Reject Instr :=
  match decodeRaw w with
  | .error r => .error r
  | .ok i => if i.wf then .ok i else .error .field

/-- The little-endian word of four bytes, the first at the lowest address (R3, R57). -/
def wordOfBytes (b0 b1 b2 b3 : Byte) : BitVec 32 := b3 ++ (b2 ++ (b1 ++ b0))

/-- The instruction at the front of a list of bytes, with the rest of the list. -/
def decodeBytes : List Byte → Except Reject (Instr × List Byte)
  | b0 :: b1 :: b2 :: b3 :: rest =>
    match decode (wordOfBytes b0 b1 b2 b3) with
    | .ok i => .ok (i, rest)
    | .error r => .error r
  | _ => .error .short

/-- Byte `n` of a number, little-endian. -/
def byteOfNat (w n : Nat) : Byte := BitVec.ofNat 8 (w / 2 ^ (8 * n))

/-- The bytes of a table word of `nbits` bits: the bits above `nbits` are zero. -/
def tableBytes (nbits w : Nat) : List Byte :=
  let v := w % 2 ^ nbits
  [byteOfNat v 0, byteOfNat v 1, byteOfNat v 2, byteOfNat v 3]

/-- The instruction read from an instruction whose bits are `w`, numbered as the operation table numbers them. -/
def decodeTableWord (nbits w : Nat) : Option Instr :=
  match decodeBytes (tableBytes nbits w) with
  | .ok (i, _) => some i
  | .error _ => none

/-! ### The encoder -/

/-- The fields of an instruction's word; none for the steps of the other units, which have no word. -/
def encodeFields : Instr → Option Fields
  | .add d a b => some ⟨0, b, a, 0, d, 0x33⟩
  | .sub d a b => some ⟨0x20, b, a, 0, d, 0x33⟩
  | .addw d a b => some ⟨0, b, a, 0, d, 0x3B⟩
  | .subw d a b => some ⟨0x20, b, a, 0, d, 0x3B⟩
  | .addi d a i => some (fieldsI i a 0 d 0x13)
  | .addiw d a i => some (fieldsI i a 0 d 0x1B)
  | .and d a b => some ⟨0, b, a, 7, d, 0x33⟩
  | .or d a b => some ⟨0, b, a, 6, d, 0x33⟩
  | .xor d a b => some ⟨0, b, a, 4, d, 0x33⟩
  | .andi d a i => some (fieldsI i a 7 d 0x13)
  | .ori d a i => some (fieldsI i a 6 d 0x13)
  | .xori d a i => some (fieldsI i a 4 d 0x13)
  | .slt d a b => some ⟨0, b, a, 2, d, 0x33⟩
  | .sltu d a b => some ⟨0, b, a, 3, d, 0x33⟩
  | .slti d a i => some (fieldsI i a 2 d 0x13)
  | .sltiu d a i => some (fieldsI i a 3 d 0x13)
  | .sll d a b => some ⟨0, b, a, 1, d, 0x33⟩
  | .srl d a b => some ⟨0, b, a, 5, d, 0x33⟩
  | .sra d a b => some ⟨0x20, b, a, 5, d, 0x33⟩
  | .sllw d a b => some ⟨0, b, a, 1, d, 0x3B⟩
  | .srlw d a b => some ⟨0, b, a, 5, d, 0x3B⟩
  | .sraw d a b => some ⟨0x20, b, a, 5, d, 0x3B⟩
  | .slli d a s => some ⟨0#6 ++ s.extractLsb' 5 1, s.extractLsb' 0 5, a, 1, d, 0x13⟩
  | .srli d a s => some ⟨0#6 ++ s.extractLsb' 5 1, s.extractLsb' 0 5, a, 5, d, 0x13⟩
  | .srai d a s => some ⟨0x10#6 ++ s.extractLsb' 5 1, s.extractLsb' 0 5, a, 5, d, 0x13⟩
  | .slliw d a s => some ⟨0, s, a, 1, d, 0x1B⟩
  | .srliw d a s => some ⟨0, s, a, 5, d, 0x1B⟩
  | .sraiw d a s => some ⟨0x20, s, a, 5, d, 0x1B⟩
  | .mul d a b => some ⟨1, b, a, 0, d, 0x33⟩
  | .mulh d a b => some ⟨1, b, a, 1, d, 0x33⟩
  | .mulhsu d a b => some ⟨1, b, a, 2, d, 0x33⟩
  | .mulhu d a b => some ⟨1, b, a, 3, d, 0x33⟩
  | .mulw d a b => some ⟨1, b, a, 0, d, 0x3B⟩
  | .div d a b => some ⟨1, b, a, 4, d, 0x33⟩
  | .divu d a b => some ⟨1, b, a, 5, d, 0x33⟩
  | .rem d a b => some ⟨1, b, a, 6, d, 0x33⟩
  | .remu d a b => some ⟨1, b, a, 7, d, 0x33⟩
  | .divw d a b => some ⟨1, b, a, 4, d, 0x3B⟩
  | .divuw d a b => some ⟨1, b, a, 5, d, 0x3B⟩
  | .remw d a b => some ⟨1, b, a, 6, d, 0x3B⟩
  | .remuw d a b => some ⟨1, b, a, 7, d, 0x3B⟩
  | .lui d i => some (fieldsU i d 0x37)
  | .auipc d i => some (fieldsU i d 0x17)
  | .jal d i => some (fieldsU (immJu i) d 0x6F)
  | .jalr d a i => some (fieldsI i a 0 d 0x67)
  | .beq a b i => some ⟨immBf7 i, b, a, 0, immBd i, 0x63⟩
  | .bne a b i => some ⟨immBf7 i, b, a, 1, immBd i, 0x63⟩
  | .blt a b i => some ⟨immBf7 i, b, a, 4, immBd i, 0x63⟩
  | .bge a b i => some ⟨immBf7 i, b, a, 5, immBd i, 0x63⟩
  | .bltu a b i => some ⟨immBf7 i, b, a, 6, immBd i, 0x63⟩
  | .bgeu a b i => some ⟨immBf7 i, b, a, 7, immBd i, 0x63⟩
  | .lb d a i => some (fieldsI i a 0 d 0x03)
  | .lh d a i => some (fieldsI i a 1 d 0x03)
  | .lw d a i => some (fieldsI i a 2 d 0x03)
  | .ld d a i => some (fieldsI i a 3 d 0x03)
  | .lbu d a i => some (fieldsI i a 4 d 0x03)
  | .lhu d a i => some (fieldsI i a 5 d 0x03)
  | .lwu d a i => some (fieldsI i a 6 d 0x03)
  | .sb a b i => some ⟨i.extractLsb' 5 7, b, a, 0, i.extractLsb' 0 5, 0x23⟩
  | .sh a b i => some ⟨i.extractLsb' 5 7, b, a, 1, i.extractLsb' 0 5, 0x23⟩
  | .sw a b i => some ⟨i.extractLsb' 5 7, b, a, 2, i.extractLsb' 0 5, 0x23⟩
  | .sd a b i => some ⟨i.extractLsb' 5 7, b, a, 3, i.extractLsb' 0 5, 0x23⟩
  | .lx z ss ww x d a p => some ⟨0#2 ++ (ss.code ++ (ww.code ++ bit1 x)), p, a, z.code, d, 0x0B⟩
  | .lxQ ss ww x d a p => some ⟨0#2 ++ (ss.code ++ (ww.code ++ bit1 x)), p, a, 4, d, 0x0B⟩
  | .sx z ss ww x v a p => some ⟨1#2 ++ (ss.code ++ (ww.code ++ bit1 x)), p, a, z.code, v, 0x0B⟩
  | .amo z o x d a b =>
    some ⟨2#2 ++ (o.code ++ bit1 x), b, a, (match z with | .w => 2 | .d => 3), d, 0x0B⟩
  | .tagr d a => some ⟨0, 0, a, 5, d, 0x0B⟩
  | .tagw a b => some ⟨1, b, a, 5, 0, 0x0B⟩
  | .seal h b l => some ⟨0, l, b, 6, h, 0x0B⟩
  | .unseal h => some ⟨1, 0, h, 6, 0, 0x0B⟩
  | .fenceC => some ⟨0, 0, 0, 7, 0, 0x0B⟩
  | .fenceD => some ⟨1, 0, 0, 7, 0, 0x0B⟩
  | .fenceP => some ⟨2, 0, 0, 7, 0, 0x0B⟩
  | .fenceS => some ⟨3, 0, 0, 7, 0, 0x0B⟩
  | .cwait n => some ⟨4, n, 0, 7, 0, 0x0B⟩
  | .dwb b l => some ⟨8, l, b, 7, 0, 0x0B⟩
  | .icinv b l => some ⟨9, l, b, 7, 0, 0x0B⟩
  | .fbar => some ⟨10, 0, 0, 7, 0, 0x0B⟩
  | .bchk a l h => some ⟨12, h, l, 7, a, 0x0B⟩
  | .spawn d t e => some ⟨0, e, t, 0, d, 0x2B⟩
  | .spawnOrd d t e => some ⟨0x40, e, t, 0, d, 0x2B⟩
  | .spawnRow d t e => some ⟨0x20, e, t, 0, d, 0x2B⟩
  | .spawnCl d t e => some ⟨0x30, e, t, 0, d, 0x2B⟩
  | .msg d n g c => some (fieldsI (g ++ c) n 1 d 0x2B)
  | .mdone => some ⟨0, 0, 0, 2, 0, 0x2B⟩
  | .wset s c a b => some ⟨s ++ c.code, b, a, 3, 0, 0x2B⟩
  | .wait e y d t => some ⟨e ++ (0#2 ++ bit1 y), 0, t, 4, d, 0x2B⟩
  | .tend => some ⟨0, 0, 0, 5, 0, 0x2B⟩
  | .yield => some ⟨1, 0, 0, 5, 0, 0x2B⟩
  | .cmt => some ⟨2, 0, 0, 5, 0, 0x2B⟩
  | .gsyncRow => some ⟨4, 0, 0, 5, 0, 0x2B⟩
  | .gsyncCl => some ⟨5, 0, 0, 5, 0, 0x2B⟩
  | .brk => some ⟨8, 0, 0, 5, 0, 0x2B⟩
  | .trap n => some ⟨9, n, 0, 5, 0, 0x2B⟩
  | .getst d n => some ⟨0x10, n, 0, 5, d, 0x2B⟩
  | .tgctl a b => some ⟨0x18, b, a, 5, 0, 0x2B⟩
  | .slp t => some ⟨0x20, 0, t, 5, 0, 0x2B⟩
  | .rpt c l s => some (fieldsI (c ++ (l ++ s.code)) 0 6 0 0x2B)
  | .rpart d b => some ⟨0, 0, b, 7, d, 0x2B⟩
  | .rpst d h => some ⟨1, 0, h, 7, d, 0x2B⟩
  | .vadd t m d a b => some ⟨0#4 ++ m, b, a, 0#1 ++ t.code, d, 0x5B⟩
  | .vsub t m d a b => some ⟨1#4 ++ m, b, a, 0#1 ++ t.code, d, 0x5B⟩
  | .vmul t m d a b => some ⟨2#4 ++ m, b, a, 0#1 ++ t.code, d, 0x5B⟩
  | .vmin t m d a b => some ⟨3#4 ++ m, b, a, 0#1 ++ t.code, d, 0x5B⟩
  | .vmax t m d a b => some ⟨4#4 ++ m, b, a, 0#1 ++ t.code, d, 0x5B⟩
  | .vminu t m d a b => some ⟨5#4 ++ m, b, a, 0#1 ++ t.code, d, 0x5B⟩
  | .vmaxu t m d a b => some ⟨6#4 ++ m, b, a, 0#1 ++ t.code, d, 0x5B⟩
  | .vand t m d a b => some ⟨7#4 ++ m, b, a, 0#1 ++ t.code, d, 0x5B⟩
  | .vor t m d a b => some ⟨8#4 ++ m, b, a, 0#1 ++ t.code, d, 0x5B⟩
  | .vxor t m d a b => some ⟨9#4 ++ m, b, a, 0#1 ++ t.code, d, 0x5B⟩
  | .vsll t m d a b => some ⟨10#4 ++ m, b, a, 0#1 ++ t.code, d, 0x5B⟩
  | .vsrl t m d a b => some ⟨11#4 ++ m, b, a, 0#1 ++ t.code, d, 0x5B⟩
  | .vsra t m d a b => some ⟨12#4 ++ m, b, a, 0#1 ++ t.code, d, 0x5B⟩
  | .vfadd y z u k d a b => some ⟨0#4 ++ (bit1 z ++ (bit1 u ++ bit1 k)), b, a, y.code, d, 0x5B⟩
  | .vfsub y z u k d a b => some ⟨1#4 ++ (bit1 z ++ (bit1 u ++ bit1 k)), b, a, y.code, d, 0x5B⟩
  | .vfmul y z u k d a b => some ⟨2#4 ++ (bit1 z ++ (bit1 u ++ bit1 k)), b, a, y.code, d, 0x5B⟩
  | .vfma y z u k d a b => some ⟨3#4 ++ (bit1 z ++ (bit1 u ++ bit1 k)), b, a, y.code, d, 0x5B⟩
  | .vfmin y z u k d a b => some ⟨4#4 ++ (bit1 z ++ (bit1 u ++ bit1 k)), b, a, y.code, d, 0x5B⟩
  | .vfmax y z u k d a b => some ⟨5#4 ++ (bit1 z ++ (bit1 u ++ bit1 k)), b, a, y.code, d, 0x5B⟩
  | .vfdiv y z u k d a b => some ⟨6#4 ++ (bit1 z ++ (bit1 u ++ bit1 k)), b, a, y.code, d, 0x5B⟩
  | .vfsqrt y z u k d a => some ⟨7#4 ++ (bit1 z ++ (bit1 u ++ bit1 k)), 0, a, y.code, d, 0x5B⟩
  | .vfcmp c y z u k m a b => some ⟨c.code ++ (bit1 z ++ (bit1 u ++ bit1 k)), b, a, y.code, m, 0x5B⟩
  | .vld d a => some ⟨0, 0, a, 7, d, 0x5B⟩
  | .vst v a => some ⟨1, 0, a, 7, v, 0x5B⟩
  | .vldx d b i => some ⟨2, i, b, 7, d, 0x5B⟩
  | .vstx v b i => some ⟨3, i, b, 7, v, 0x5B⟩
  | .vperm d s i => some ⟨4, i, s, 7, d, 0x5B⟩
  | .vbcast d s w => some ⟨5, w, s, 7, d, 0x5B⟩
  | .vmvVg d s n => some ⟨6, n, s, 7, d, 0x5B⟩
  | .vmvGv d s n => some ⟨7, n, s, 7, d, 0x5B⟩
  | .vsel d a b => some ⟨8, b, a, 7, d, 0x5B⟩
  | .vcmp c t m a b => some ⟨1#2 ++ (c.code ++ t.code), b, a, 7, m, 0x5B⟩
  | .vred o t d a => some ⟨2#2 ++ (o.code ++ t.code), 0, a, 7, d, 0x5B⟩
  | .vfcvt d a c => some ⟨0x60, c, a, 7, d, 0x5B⟩
  | .vfredAddF32 d a => some ⟨0x61, 0, a, 7, d, 0x5B⟩
  | .vfredAddBf16 d a => some ⟨0x62, 0, a, 7, d, 0x5B⟩
  | .vfredMaxF32 d a => some ⟨0x63, 0, a, 7, d, 0x5B⟩
  | .vfredMinF32 d a => some ⟨0x64, 0, a, 7, d, 0x5B⟩
  | .mand d a b => some ⟨0x68, b, a, 7, d, 0x5B⟩
  | .mor d a b => some ⟨0x69, b, a, 7, d, 0x5B⟩
  | .mxor d a b => some ⟨0x6A, b, a, 7, d, 0x5B⟩
  | .mnot d a => some ⟨0x6B, 0, a, 7, d, 0x5B⟩
  | .mpop d a => some ⟨0x6C, 0, a, 7, d, 0x5B⟩
  | .mfirst d a => some ⟨0x6D, 0, a, 7, d, 0x5B⟩
  | .sfckey d a k => some ⟨0x70, k, a, 7, d, 0x5B⟩
  | .mldA k b i => some ⟨0, i, b, 0, k, 0x7B⟩
  | .mldB k b s => some ⟨1, s, b, 0, k, 0x7B⟩
  | .mst t a s => some ⟨2, s, a, 0, t, 0x7B⟩
  | .mzero t => some ⟨3, 0, 0, 0, t, 0x7B⟩
  | .mma t z u f k => some ⟨2#2 ++ (t ++ (bit1 z ++ (bit1 u ++ 0#1))), f, k, 0, 0, 0x7B⟩
  | .cpy q r c y n s e => some ⟨bit1 q ++ (bit1 r ++ (c.code ++ y.code)), e, s, 1, n, 0x7B⟩
  | .cpst d t => some ⟨0, 0, t, 2, d, 0x7B⟩
  | .laccClr a => some ⟨0, 0, a, 3, 0, 0x7B⟩
  | .laccAdd a b => some ⟨1, b, a, 3, 0, 0x7B⟩
  | .laccAddp d a b => some ⟨2, b, a, 3, d, 0x7B⟩
  | .laccMrg a b => some ⟨3, b, a, 3, 0, 0x7B⟩
  | .laccRdF32 d a => some ⟨4, 0, a, 3, d, 0x7B⟩
  | .laccRdF64 d a => some ⟨5, 0, a, 3, d, 0x7B⟩
  | .nalloc d t => some ⟨0, 0, t, 4, d, 0x7B⟩
  | .nfree n => some ⟨1, 0, n, 4, 0, 0x7B⟩
  | .nlink a b => some ⟨2, b, a, 4, 0, 0x7B⟩
  | .npush a b => some ⟨3, b, a, 4, 0, 0x7B⟩
  | .nrd d p => some ⟨4, 0, p, 4, d, 0x7B⟩
  | .nrset k e => some ⟨5, e, k, 4, 0, 0x7B⟩
  | _ => none

/-- The word of an instruction that has one. -/
def encode (i : Instr) : Option (BitVec 32) := (encodeFields i).map join

/-- `i` is an instruction a core fetches; the other constructors are steps of the other units. -/
def Instr.hasWord (i : Instr) : Bool := (encodeFields i).isSome

end Sys2Proof
end

