-- ==== Sys2Proof/Machine/State.lean ====
section
/-! DEFINITION. The state of the J8: everything the spec gives the machine, as plain data, and the state right after
reset. Counts, indexes and addresses used as keys are natural numbers; what software sees as a word is a bit vector. -/

namespace Sys2Proof.Machine

/-- A sparse table: an unlisted key reads as a default that its reader names. -/
abbrev Tab (α : Type) := List (Nat × α)

/-- An accumulator tile: 128 rows of 16 FP32 elements, element (i, c) at 16 i + c (R12, R69). -/
abbrev Tile := Vector (BitVec 32) 2048

/-- Why the machine stops. Every condition a program can meet is a trap of Table 08.1 and answers a next state. -/
inductive Fault where
  /-- Raised by `step`: the module has no power (R327, R329). Safe: nothing is claimed of a module that is off. -/
  | noPower
  deriving DecidableEq, Repr

/-- Why an instruction has no meaning here. -/
inductive Refusal where
  /-- Raised by `exec`: an instruction not modelled yet, by its mnemonic. Safe. -/
  | notModelled (mnemonic : String)
  deriving DecidableEq, Repr

/-! ### One task -/

/-- Repetition state (R73, R74, R407): the body, the pass and the position in it. -/
structure Rep where
  base   : Word
  len    : Nat
  count  : Nat
  stride : Nat
  pass   : Nat
  pos    : Nat
  deriving DecidableEq, Repr

/-- What an abort restores and what travels with a task (R69, R74, R114, R187, R203, R382, R389). -/
structure Ctx where
  pc        : Word
  g         : Vector Word 32
  /-- Full/empty tags of g0 to g31, 1 full. -/
  gFull     : BitVec 32
  v         : Vector VWord 32
  /-- Full/empty tags of v0 to v31, 1 full. -/
  vFull     : BitVec 32
  /-- m0 to m7; m0 reads all ones (R380). -/
  m         : Vector Word 8
  ac        : Vector Tile 4
  rep       : Option Rep
  /-- The row a continued `mst` has reached (R392). -/
  mstRow    : Nat
  /-- Sticky flags (Table 07.1). -/
  flags     : BitVec 8
  sendq     : List Word
  trapCause : Word
  trapPc    : Word
  trapIdx   : Word
  tlink     : Word
  trapMode  : Bool
  /-- The repetition suspended at trap entry (R407). -/
  trapRep   : Option Rep
  trapRow   : Nat
  /-- Words of the current message read, in the running chunk's position, and whether `mdone` ended it (R382). -/
  msgPos    : Nat
  msgDone   : Bool
  deriving DecidableEq, Repr

/-- A wait slot (R102, R453). -/
structure WaitSlot where
  cond : Option WaitCond
  a    : Word
  b    : Word
  /-- Its unit has observed the condition true since it was armed; the report is on its way (R102). -/
  seen : Bool
  sat  : Bool
  /-- The request by which another package was told to arm it: its report names it (R454; DESIGN CHOICE, log entry 62). -/
  req  : Option Nat
  deriving DecidableEq, Repr

/-- A message: sender's name, route tag, words, and the tenant whose interface carries it (R107, R388). -/
structure Msg where
  src    : Nat
  /-- The thread slot that sent it, 8 for a home's own message (R123). -/
  slot   : Nat
  tag    : Nat
  words  : List Word
  tenant : Nat
  /-- The handler entry it found on arrival (R107). -/
  entry  : Word
  /-- The time base at which it arrived. -/
  time   : Nat
  /-- Its last words still to arrive (R70). -/
  missing : Nat
  deriving DecidableEq, Repr

/-- A held operation on a long accumulator (R197, R198); addresses are scratchpad byte addresses. -/
inductive LaccEff where
  | clr (a : Nat) | add (a : Nat) (x : BitVec 32) | addp (a : Nat) (x y : BitVec 32) | mrg (a b : Nat)
  deriving DecidableEq, Repr

/-- An effect a chunk holds until its commit, in program order. -/
inductive Eff where
  /-- Bytes stored at a canonical local address; `posted` gives the class when the home is remote. -/
  | store (a : Nat) (bs : List Byte)
  /-- A change of the tag of the word at `a` (R426). -/
  | tag (a : Nat) (full : Bool)
  /-- Bytes stored to control space at a byte offset (R458). -/
  | ctl (off : Nat) (bs : List Byte)
  | lacc (o : LaccEff)
  /-- A pair to push: pool base and number, bag entry (R241). -/
  | push (base pool : Nat) (entry : Word)
  /-- A node to free (R240). -/
  | free (base pool off : Nat)
  /-- An update of a handler entry (R430). -/
  | tgctl (tag : Nat) (c : BitVec 2)
  deriving DecidableEq, Repr

/-- Operands recorded by `mld.a` and `mld.b` (R383). -/
structure DescA where
  k    : Nat
  base : Word
  rows : VWord
  deriving DecidableEq, Repr
structure DescB where
  k      : Nat
  base   : Word
  stride : Word
  deriving DecidableEq, Repr

/-- The running chunk of a task (R110 to R117). -/
structure Chunk where
  start  : Ctx
  /-- Time base at the chunk's first start (R113). -/
  age    : Nat
  instrs : Nat
  log    : List Eff
  rlines : List Nat
  wlines : List Nat
  /-- Lines of accumulators that held operations modify: they count towards the limit alone (R112, R371). -/
  llines : List Nat
  /-- Nodes taken by `nalloc`: pool number and offset (R114). -/
  allocs : List (Nat × Nat)
  aborts : Nat
  serial : Bool
  /-- Serial mode: the commit token it waits for (R115). -/
  want   : Option TokenScope
  /-- The chunk has ended and waits for its commit to be granted (R118, R115). -/
  due    : Bool
  /-- The first chunk of its task (R116). -/
  first  : Bool
  /-- A limit was met in serial mode before (R116). -/
  limited : Bool
  mldA   : Option DescA
  mldB   : Option DescB
  /-- A home answered an access of the chunk with a cause: it re-executes with each access answered before the next
  instruction issues (R457). -/
  stepwise : Bool
  deriving DecidableEq, Repr

/-- What a held slot waits for (R105, R457). -/
inductive Hold where
  /-- A waiting access at a home (R158). -/
  | home (waiter : Nat)
  /-- The reply to a remote request (R294). -/
  | reply (req : Nat)
  /-- The home or the target has answered: a cause, or the value; `pair` for `lx.q` (R216, R457). -/
  | answer (cause : Option Nat) (v : VWord) (pair : Bool)
  /-- `wait`: enabled slots, all, destination, deadline in reference ticks (R452). -/
  | wait (e : BitVec 4) (all : Bool) (d : Reg) (deadline : Option Nat)
  /-- After a store with acquire: its class's counter is to read 0 (R139). -/
  | performed (cls : WaitClass)
  /-- `nalloc` awaits a refill of its crib list (R239). -/
  | refill (pool : Nat)
  /-- `slp` on a time or a ticket (R415). -/
  | slp (x : Word)
  /-- A member waiting at its k-th row or cluster barrier (R364). -/
  | gsync (cl : Bool)
  /-- `dwb` has had its lines written back, and waits for the counts of their homes (R358). -/
  | writeback
  /-- `spawn` found the run queue of its core full and may not run its child inline: it waits for room (R419). -/
  | room
  deriving DecidableEq, Repr

/-- Where a value in flight goes (R71). -/
inductive Dest where
  | g (r : Reg) | g2 (r : Reg) | v (r : Reg) | drop
  deriving DecidableEq, Repr

/-- A value on its way to a register whose tag is empty (R71, R72). -/
structure InFlight where
  dest : Dest
  val  : VWord
  /-- Issued before the running chunk began, so that an abort keeps it. -/
  old  : Bool
  deriving DecidableEq, Repr

/-- Kinds of task (Table 04.1, KIND of Table 04.2). -/
inductive TaskKind where
  | rule | message | spawn | root
  deriving DecidableEq, Repr

/-- Where a task stands (R86 to R89, R97). -/
inductive Status where
  /-- No task: an empty slot. -/
  | vacant
  | unstarted
  | resident (slot : Nat)
  /-- In the run queue after `yield`. -/
  | yielded
  /-- In its tenant's resume list after a pre-emption. -/
  | resume
  /-- A halted gang member. -/
  | gangHalted
  deriving DecidableEq, Repr

/-- A deferred cause (R206, R207). -/
structure Deferred where
  cause  : Nat
  detail : Word
  deriving DecidableEq, Repr

/-- A parent's state set aside while its child runs inline (R420). -/
structure Inline where
  ctx    : Ctx
  waits  : Vector WaitSlot 4
  d      : Reg
  /-- The child's task number. -/
  number : Nat
  msg    : Option Msg
  deriving DecidableEq, Repr

/-- A task, from its creation to its end. -/
structure Task where
  /-- The model's name of the task; keys rise in order of creation. -/
  key      : Nat
  kind     : TaskKind
  status   : Status
  core     : Nat
  tenant   : Nat
  prio     : Nat
  /-- Task number k (R85). -/
  number   : Nat
  started  : Bool
  startTime : Nat
  /-- Its place in the order of dispatches to slots (R100). -/
  dispatched : Nat
  taskId   : Word
  origin   : Word
  owner    : Word
  entryPb  : Word
  handle   : BitVec 16
  /-- The image is sealed with class trusted (R210). -/
  trusted  : Bool
  /-- The image is the Winnower's (R238). -/
  winnower : Bool
  /-- IMGD of an op 10 launch, judged at the first fill (R289). -/
  imgd     : Option Word
  /-- The launch it belongs to: tenant interface and number. -/
  launch   : Option (Nat × Nat)
  /-- A root task of its launch, or spawned from one at any depth (R83). -/
  rooted   : Bool
  /-- The number of a rule task's pool, which names its net (R230). -/
  net      : Option Nat
  /-- An ord child: its parent's key and its place among the parent's ord children (R118). -/
  ord      : Option (Nat × Nat)
  /-- ord children spawned so far. -/
  ordNext  : Nat
  ctx      : Ctx
  waits    : Vector WaitSlot 4
  msg      : Option Msg
  chunk    : Chunk
  deferred : List Deferred
  hold     : Option Hold
  inflight : List InFlight
  /-- Gang and position (R97). -/
  gang     : Option (Nat × Nat)
  inline   : Option Inline
  /-- Each `icinv` issued and not completed: the slot that issued it, its first and its last line (R359, R365). -/
  icinvs   : List (Nat × Nat × Nat)
  /-- What a held instruction has been answered so far: the elements of a `vldx`, lane 0 first, or, for a `cpy`, one word for
  each range that another package has accepted (R145, R445). -/
  lanes    : List Word
  /-- The accumulators have been used in a gang (R216). -/
  usedAc   : Bool
  /-- When it entered its run queue, and its source's place among those of one cycle (R88, R123); of a resident task, when it
  last issued (R213). -/
  since    : Nat
  src      : Nat
  /-- It has been resumed and has not issued since: its pc is judged first (R216). -/
  resumed  : Bool
  deriving DecidableEq, Repr

/-- What a fault record says of its task (R208), kept of a task that has ended while an access or a copy of it is open. -/
structure TaskName where
  key      : Nat
  tenant   : Nat
  taskId   : Word
  handle   : BitVec 16
  trusted  : Bool
  launch   : Option (Nat × Nat)
  pc       : Word
  trapMode : Bool
  deriving DecidableEq, Repr

/-! ### Memory -/

/-- DRAM and scratchpads by canonical local address (a scratchpad byte by its W0 address). -/
structure Mem where
  /-- Bytes, addresses strictly rising, none equal to zero, which is what an unlisted address reads as. -/
  cells    : List Host.Cell
  /-- Words whose tag is empty, by address, strictly rising. -/
  empties  : List Nat
  /-- Words holding an uncorrectable error (R165). -/
  poison   : List Nat
  /-- Granules whose unscrubbed bit reads 0 (R143). -/
  scrubbed : List Nat
  /-- Unscrubbed granules that an access has reached, whose background clear is under way (R143). -/
  clearing : List Nat
  deriving DecidableEq, Repr

/-! ### Homes, engines and the fabric interface -/

/-- Operations a home or a target performs (Table 05.6, Table 15.2). -/
inductive HomeOp where
  | load (mode : LoadMode) (size : Nat)
  | store (mode : StoreMode) (bs : List Byte)
  | amo (o : AmoOp) (size : Nat) (v e : Word)
  | tagr
  | tagw (full : Bool)
  /-- A copy engine elsewhere asks whether its tenant owns `n` bytes and, for a write, whether they stand unsealed (R145). -/
  | range (n : Nat) (write : Bool)
  /-- A copy engine elsewhere reads `n` bytes of one line, with their words' tags (R146, R154). -/
  | line (n : Nat)
  /-- It writes part of one line: its words full, or with the tags given (R146, R154). -/
  | fill (bs : List Byte) (tags : List Bool)
  /-- The condition of a wait slot of another package, to be armed, or armed and reported once by its home (R102, R454). -/
  | watch (c : WaitCond) (v : Word) (armed : Bool)
  /-- `nrd` of a port word of another package, with the pool's base (R238, R294). -/
  | port (base : Nat)
  deriving DecidableEq, Repr

/-- Who waits for a home operation. -/
inductive Asker where
  /-- A held slot: the task, where the value goes, and its extension (size and sign). -/
  | task (key : Nat) (d : Dest) (size : Nat) (signed : Bool)
  /-- A posted store of a tenant from a core of this package, counted under R140, and its task. -/
  | posted (core tenant : Nat) (cls : WaitClass) (task : Nat)
  /-- A request or posted flit of another package (R295). -/
  | remote (f : Flit)
  deriving DecidableEq, Repr

/-- A waiting access at its home, in order of arrival (R158). -/
structure Waiter where
  id      : Nat
  tenant  : Nat
  trusted : Bool
  addr   : Nat
  op     : HomeOp
  asker  : Asker
  /-- When it arrived. -/
  since  : Nat
  deriving DecidableEq, Repr

/-- Posted-store counters of a tenant on a core (R140, R141). -/
structure Counters where
  near  : Nat
  die   : Nat
  far   : Nat
  nearF : Nat
  dieF  : Nat
  farF  : Nat
  deriving DecidableEq, Repr

/-- State of a copy command (R148). -/
inductive CopyState where
  | pending | complete | failed
  deriving DecidableEq, Repr

/-- A command of a copy engine (R145 to R148). -/
structure CopyCmd where
  seq     : Nat
  tenant  : Nat
  trusted : Bool
  task    : Nat
  taskId  : Word
  q       : Bool
  r       : Bool
  scope   : Scope
  kind    : CopyKind
  len     : Nat
  src     : Word
  dst     : Word
  done    : Nat
  promise : Nat
  state   : CopyState
  cause   : Nat
  /-- Its beats have been held since then, by a serial chunk or a BUSY entry (R147). -/
  heldAt  : Option Nat
  /-- When it last progressed (R213). -/
  since   : Nat
  /-- The bytes of the next beat, and their words' tags, that have come from another package; a request is outstanding. -/
  buf     : List Byte
  tagBuf  : List Bool
  asked   : Bool
  /-- Posted writes to another package not yet acknowledged. -/
  acks    : Nat
  /-- A sleeper found its promise missed at this time: the engine's updates of that cycle stand before (R148). -/
  missed  : Option Nat
  deriving DecidableEq, Repr

/-- A core's copy engine: commands oldest first, finished ones kept to the last 256 (R148). -/
structure Engine where
  next    : Nat
  promise : Nat
  cmds    : List CopyCmd
  deriving DecidableEq, Repr

/-- One member's part of a matrix operation (R386). -/
structure MmaPart where
  key  : Nat
  core : Nat
  tile : BitVec 2
  z    : Bool
  u    : Bool
  fmt  : BitVec 5
  k    : Nat
  da   : DescA
  db   : DescB
  /-- The barrier has joined it with the other seven. -/
  met  : Bool
  committed : Bool
  deriving DecidableEq, Repr

/-- An operation of a row's joint matrix array (R12, R386, R387). -/
structure ArrayOp where
  /-- Members waiting at the barrier or committed. -/
  parts   : List MmaPart
  running : Bool
  /-- K-blocks done. -/
  kb      : Nat
  /-- When it last progressed (R213). -/
  since   : Nat
  deriving DecidableEq, Repr

/-- One list of the crib, newest offset first (R239). -/
structure CribList where
  tenant : Nat
  pool   : Nat
  offs   : List Nat
  /-- When it was last used. -/
  last   : Nat
  deriving DecidableEq, Repr

/-- A line of a core's instruction cache (R270). -/
structure ICLine where
  core   : Nat
  line   : Nat
  handle : BitVec 16
  words  : List (BitVec 32)
  deriving DecidableEq, Repr

/-- An L1 copy of a line of another package, its address a multiple of 64 (R11, R160). -/
structure FarCopy where
  core   : Nat
  tenant : Nat
  addr   : Nat
  bytes  : List Byte
  /-- The tags of its eight words (R18). -/
  tags   : List Bool
  deriving DecidableEq, Repr

/-- A request or posted flit sent and not yet answered (R294, R295). -/
structure OutReq where
  reqid   : Nat
  core    : Nat
  tenant  : Nat
  flit    : Flit
  /-- The task that waits for the reply, where its value goes, its size and sign. -/
  waits   : Option (Nat × Dest × Nat × Bool)
  /-- The task that issued it, for deferred causes (R206). -/
  task    : Nat
  /-- Backoff delay, and the time at which the retry is due. -/
  delay   : Nat
  due     : Option Nat
  posted  : Bool
  /-- Counted in the far counter (R140). -/
  counted : Bool
  /-- The copy command it belongs to, by its sequence. -/
  copy    : Option Nat
  deriving DecidableEq, Repr

/-- A piece of an item of a repartition's team: its sender's rank and sorted position, key and weight, and up to 16 of its
words, the `piece`-th (R310, R312). -/
structure GItem where
  rank   : Nat
  pos    : Nat
  key    : Nat
  weight : Nat
  piece  : Nat
  words  : List Word
  deriving DecidableEq, Repr

/-- A repartition the gleaner has accepted (R402, R405): the block, the team table, and what has arrived from each rank: the
words that must agree with its capacities, the pieces of its table, and its items. -/
structure Repart where
  seq    : Nat
  tenant : Nat
  core   : Nat
  /-- The task that issued it, which a deferred cause reaches (R457). -/
  task   : Nat
  block  : List Word
  table  : List Nat
  /-- Which call of the team this is between its own package and each of the table, in its order. -/
  calls  : List Nat
  phase  : Nat
  round  : Nat
  heads  : List (Nat × List Word)
  tabs   : List (Nat × Nat)
  items  : List GItem
  err    : Option Nat
  /-- What its phase has still to write, in order: an address and bytes of one line (R312, R317). -/
  todo   : List (Nat × List Byte)
  deriving DecidableEq, Repr

structure Gleaner where
  next    : Nat
  records : List Repart
  /-- Flits of teams that this package has not joined yet (R313). -/
  early   : List Flit
  /-- Calls made of a team whose table names a package, by 65,536 times the team's identifier plus the package (R313; DESIGN
  CHOICE, log entry 11). -/
  calls   : Tab Nat
  deriving DecidableEq, Repr

/-- A rekey in progress: whether the transmitter has inverted KGEN, and whether the receiver has retired the old bank
(R300). -/
structure Rekey where
  tx : Bool
  rx : Bool
  deriving DecidableEq, Repr

/-- One direction pair of a fabric link (R299 to R301). The keys of its banks stand in the key store. -/
structure Link where
  up      : Bool
  kgen    : Bool
  txCtr   : Nat
  rxCtr   : Nat
  txDir   : Nat
  rxDir   : Nat
  /-- The rekey in progress. -/
  rekey   : Option Rekey
  fails   : Nat
  /-- A request for a rekey is pending (R299). -/
  want    : Bool
  /-- The bank that decrypts what arrives. -/
  rxKgen  : Bool
  /-- Flits held at the counter's end until the rekey, or until the link is up (R299, R301). -/
  held    : List Flit
  deriving DecidableEq, Repr

/-- A message on the network of the package, or held at its sender (R87). -/
structure NetMsg where
  src   : Nat
  dst   : Nat
  msg   : Msg
  delay : Nat
  due   : Option Nat
  /-- Counted in the sender's near or die counter (R389). -/
  counted : Bool
  deriving DecidableEq, Repr

/-! ### The scheduler's queues -/

/-- An entry of a bag (R90, R91, R235). -/
structure BagEntry where
  entry    : Word
  tenant   : Nat
  prio     : Nat
  passes   : Nat
  /-- Promoted, with its place in the order of promotion. -/
  promoted : Option Nat
  /-- When it entered the bag, and its source's place among those of one cycle (R123). -/
  since    : Nat
  src      : Nat
  deriving DecidableEq, Repr

/-- A circular spill list in memory: entries written and taken (R90, R236). -/
structure Spill where
  head : Nat
  tail : Nat
  deriving DecidableEq, Repr

/-- A gang request (R95): what its members take from the parent (R84, R419). -/
structure GangReq where
  id       : Nat
  tenant   : Nat
  cl       : Bool
  target   : Nat
  entry    : Word
  args     : List Word
  since    : Nat
  /-- Its source's place among the requests of one cycle (R123). -/
  src      : Nat
  prio     : Nat
  handle   : BitVec 16
  trusted  : Bool
  winnower : Bool
  launch   : Option (Nat × Nat)
  /-- Made by a root task, or by one spawned from it at any depth (R83). -/
  rooted   : Bool
  origin   : Word
  owner    : Word
  pb       : Word
  deriving DecidableEq, Repr

/-- A member of a gang: its position and task, whether it has ended, and the row and cluster barriers it has reached
and passed (R364). -/
structure Member where
  pos     : Nat
  key     : Nat
  ended   : Bool
  rowAt   : Nat
  rowPast : Nat
  clAt    : Nat
  clPast  : Nat
  deriving DecidableEq, Repr

/-- A dispatched gang (R97, R364). -/
structure Gang where
  id      : Nat
  tenant  : Nat
  cl      : Bool
  target  : Nat
  members : List Member
  deriving DecidableEq, Repr

/-- A launch (R83, R302 to R305). -/
structure Launch where
  ti      : Nat
  number  : Nat
  /-- The pools of its image, and those whose nets have not completed, by number (R83, R231). -/
  pools   : List Nat
  nets    : List Nat
  fatals  : Nat
  unacked : Nat
  status  : Nat
  /-- Started: its root task and nets are what ends it. -/
  begun   : Bool
  cancelled : Bool
  deriving DecidableEq, Repr

/-- A launch record queued for admission (R302). -/
structure LaunchReq where
  ti     : Nat
  number : Nat
  addr   : Word
  deriving DecidableEq, Repr

/-- What admission folds into an image's text: the package's own number, the arena and the scratchpad window, whether FMASK
bit 6 stands, and the local addresses of the data section and of the `.region`s (R263, R266, R282). -/
structure Folded where
  pkg     : Nat
  arlo    : Nat
  arhi    : Nat
  splo    : Nat
  sphi    : Nat
  narrow  : Bool
  data    : Nat
  regions : List Nat
  deriving DecidableEq, Repr

/-- An admitted image (R259, R280). -/
structure Image where
  tenant  : Nat
  handle  : BitVec 16
  d       : BitVec 384
  plain   : List Byte
  place   : Folded
  /-- Length of the native text in bytes. -/
  tlen    : Nat
  /-- The numbers of its pools (R227). -/
  pools   : List Nat
  /-- The native word at which each function begins, and each word's portable operation index (R259 step 4). -/
  entries : List Nat
  index   : List Nat
  /-- It was translated with no elision at all (R211). -/
  whole   : Bool
  /-- A later translation has taken its place (R274, R287). -/
  old     : Bool
  deriving DecidableEq, Repr

/-- What a core has issued in the running cycle (R10, R99, R100): the cycle, its ready slots in the order of choice as it
began, the ports used, and the task that was chosen. -/
structure Ports where
  time   : Nat
  order  : List Nat
  scalar : Bool
  engine : Bool
  chosen : Option Nat
  deriving DecidableEq, Repr

/-- The order of events within one cycle (R120, R122, R123, R152): the time base, arbiter level and core of the last commit,
and the time bases of the last access that a home performed outside a chunk, of the last arrival of a message and of the last
cancel. -/
structure Order where
  commit : Option (Nat × Nat × Nat)
  job    : Option Nat
  msg    : Option Nat
  cancel : Option Nat
  deriving DecidableEq, Repr

structure Sched where
  dispatched : Tab Nat
  ports      : Tab Ports
  order      : Order
  /-- Run-queue entries of each cluster, summed over the cycles since its last placement loop, and when that was (R94). -/
  occ        : Tab Nat
  occFrom    : Tab Nat
  deficit    : Tab Int
  bags       : Tab (List BagEntry)
  promoNext  : Nat
  spills     : Tab Spill
  divert     : Tab Nat
  gangQ      : Tab (List GangReq)
  gangs      : List Gang
  /-- Thread slots held: core, and the gang request's or gang's marks (R96, R97). -/
  slotHolds  : List (Nat × Nat)
  /-- Commit tokens held: scope and task key (R115). -/
  tokens     : List (TokenScope × Nat)
  arrivals   : Tab (List Msg)
  /-- Messages waiting under EN = 0: core and message (R107). -/
  enWait     : List (Nat × Msg)
  launches   : List Launch
  launchQ    : List LaunchReq
  images     : List Image
  /-- Regions that admission created for data sections, by home-map index (R456). -/
  dataRegs   : List Nat
  /-- Images disabled by the elision audit (R211). -/
  quarantine : List (Nat × BitVec 16)
  cribs      : Tab (List CribList)
  /-- Ended tasks of which accesses or copies are open (R148, R206). -/
  ended      : List TaskName
  deriving DecidableEq, Repr

structure Eng where
  /-- The register files of each core's home-handler slot, as `State.homeCtx` reads them (R69). -/
  homes      : Tab Ctx
  engines    : Tab Engine
  /-- The operation of a gang in a row, by 128 times the gang's name plus the row. -/
  arrays     : Tab ArrayOp
  gleaner    : Gleaner
  icache     : List ICLine
  farCopies  : List FarCopy
  writebacks : Tab Nat
  waiters    : List Waiter
  counters   : Tab Counters
  deriving DecidableEq, Repr

structure Fab where
  links   : Tab Link
  epInc   : Tab Nat
  outReqs : List OutReq
  holdQ   : Tab (List Flit)
  /-- REQID and TI of posted flits answered NACK-WAIT and not yet resent, by source core, in order (R161, R314). -/
  nacked  : Tab (List (Nat × Nat))
  /-- The one among them that stands before the core's hold queue, by source core. -/
  front   : Tab (Nat × Nat)
  netMsgs : List NetMsg
  /-- Packages each tenant interface has addressed (R281). -/
  sent    : Tab (List Nat)
  /-- Flits and records sent, newest last. -/
  egress  : List Flit
  /-- The same as they travel: the port, and the 256 bytes (R291, R299). -/
  wire    : List (Nat × List Byte)
  deriving DecidableEq, Repr

/-! ### The management die -/

/-- A crypto command in progress: its error, and whether CMD was written while it ran (R319, R320). -/
structure CryptoCmd where
  op    : Nat
  err   : Nat
  late  : Bool
  deriving DecidableEq, Repr

/-- The crypto block's registers (Table 18.2). -/
structure Crypto where
  busy    : Option CryptoCmd
  stat    : Word
  src     : Word
  len     : Word
  keyaddr : Word
  dig     : BitVec 384
  sig     : BitVec 768
  keyhash : BitVec 384
  deriving DecidableEq, Repr

/-- The SPDM and MCTP mailbox (Table 19.1). -/
structure Mailbox where
  pend    : Bool
  rxbuf   : List Byte
  /-- The time base at which the request's last byte entered RXBUF (R336). -/
  rxAt    : Nat
  txbuf   : Tab Byte
  bootst  : Word
  /-- The security monitor has started (R336). -/
  monitor : Bool
  /-- Responses sent to the BMC, newest last. -/
  sent    : List (List Byte)
  deriving DecidableEq, Repr

/-- The SPDM responses of which the manual gives no byte but the name (R324). -/
inductive SpdmName where
  | version | capabilities | digests | certificate | challengeAuth | keyExchangeRsp | finishRsp | keyUpdateAck
  | heartbeatAck | endSessionAck
  deriving DecidableEq, Repr

/-- An SPDM response. -/
inductive SpdmReply where
  /-- A named response and its bytes, which are free. -/
  | named (n : SpdmName) (bs : List Byte)
  /-- ALGORITHMS: BaseHashAlgo, MeasurementHashAlgo, DHE, AEAD, BaseAsymAlgo, ExtAsymSelCount and the extended entry
  (R325). -/
  | algorithms (hash meas dhe aead asym count : Nat) (ext : List Byte)
  /-- A response whose bytes the manual gives (R337). -/
  | exact (bs : List Byte)
  deriving DecidableEq, Repr

/-- A session of the SPDM responder (R324): 0 is the mailbox, every other one comes over the fabric's management class. -/
structure SpdmSession where
  id      : Nat
  keyed   : Bool
  secured : Bool
  sent    : List SpdmReply
  deriving DecidableEq, Repr

/-- One region of an interface report: base, size, KIND and seal class, none where it is not sealed (R280). -/
structure ReportRegion where
  base : Nat
  size : Nat
  kind : Nat
  cls  : Option Nat
  deriving DecidableEq, Repr

/-- The answer to a request for a tenant interface (R277 to R280). -/
inductive TiReply where
  | version
  | capabilities
  | locked
  | report (repgen : Nat) (regions : List ReportRegion) (images : List (BitVec 384 × BitVec 16))
  | state (n : Nat)
  | started
  | stopped
  | invalidRequest
  | invalidInterfaceState
  | unsupportedRequest
  /-- VENDOR_DEFINED_RESPONSE: payload word 0 (R278). -/
  | vendor (w : Word)
  deriving DecidableEq, Repr

/-- The management core: x0 to x31 and the pc (R332), its privilege, the reservation of its load-reserved and its CSRs by
number (R22; PRESUMED, log entry 65), and whether boot has halted it (R321). -/
structure MgmtCore where
  x       : Vector Word 32
  pc      : Word
  stopped : Bool
  user    : Bool
  resv    : Option Nat
  csr     : Tab Word
  deriving DecidableEq, Repr

/-- A key-store slot: the bytes of its keys (R273, R320); a link direction's slot holds the keys of its banks KGEN = 0 and
KGEN = 1 (R299). `sign`: the number of an ECDSA signing key. -/
structure KeySlot where
  image : List Byte
  code  : List Byte
  sign  : Option Nat
  deriving DecidableEq, Repr

/-- A slot that holds no key. -/
def KeySlot.empty : KeySlot := ⟨[], [], none⟩

/-- A unit on the disable list (R331): a row, a pair of module DRAM channels, a port and the width it keeps as PORTW names it,
or a stacked DRAM bank of a die. -/
inductive Disabled where
  | row (n : Nat)
  | channels (pair : Nat)
  | port (p width : Nat)
  | bank (die n : Nat)
  deriving DecidableEq, Repr

structure Mgmt where
  /-- Boot stage reached, 0 to 4 (R321). -/
  stage    : Nat
  /-- Boot has halted (R321, R338). -/
  halted   : Bool
  romExit  : Bool
  keys     : Tab KeySlot
  meas     : Vector (BitVec 384) 16
  crypto   : Crypto
  sram     : Tab Byte
  flash    : Tab Byte
  mbox     : Mailbox
  /-- OP 13 flits that have arrived and not been served, oldest first (R307). -/
  inbox    : List Flit
  spdm     : List SpdmSession
  /-- Answers to requests for tenant interfaces, with the interface, newest last. -/
  tiSent   : List (Nat × TiReply)
  core     : MgmtCore
  siloNv   : Tab Nat
  /-- Clusters whose clock a droop stretches, and a junction stretch (R327, R328). -/
  stretched : List Nat
  hot      : Bool
  /-- The last address that raised an access fault in the management core (R318). -/
  fault    : Option Nat
  /-- Fault records of elision audits sent to the security monitor, newest last (R211). -/
  audits   : List (List Word)
  /-- Stage 1 has come to its one read of RXSTAT: still to do, or done (R336, R338). -/
  poll     : Option Bool
  /-- The disable list of the non-volatile store (R331). -/
  disable  : List Disabled
  deriving DecidableEq, Repr

/-- What a package is and what its disable list leaves (R297, R330). -/
structure Conf where
  pkg         : Nat
  incarnation : Nat
  rowEn       : BitVec 128
  lpen        : BitVec 32
  portw       : BitVec 32
  modcap      : Nat
  bankret     : Vector Word 4
  /-- The endpoints of its fabric configuration (R298). -/
  endpoints   : List Nat
  /-- The address of `wn_retrans` in the trusted runtime's image, once that runs (R287). -/
  retrans     : Option Word
  deriving DecidableEq, Repr

/-- PREEMPT requests and their acknowledgements, one bit per tenant (R285). -/
structure Preempt where
  svc    : BitVec 64
  tr     : BitVec 64
  svcAck : BitVec 64
  trAck  : BitVec 64
  /-- When the copies of a tenant's code-class (2 t) or trusted (2 t + 1) tasks stopped (R147, R285). -/
  since  : Tab Nat
  deriving DecidableEq, Repr

/-- A tenant interface being torn down (R281): since when, whether its fences have been sent, and the packages whose fence
is not acknowledged. -/
structure Teardown where
  tenant : Nat
  since  : Nat
  fenced : Bool
  fences : List Nat
  deriving DecidableEq, Repr

/-- A move of the trusted runtime, from its first pre-emption request: the tenant, the span, when it began, the control-space
offsets of the entries that it holds disabled, and whether `wn_retrans` has ended well (R274, R287). -/
structure Move where
  tenant   : Nat
  base     : Word
  len      : Nat
  since    : Nat
  disabled : List Nat
  moved    : Bool
  deriving DecidableEq, Repr

/-! ### Who moves next -/

/-- What a turn does: a unit's step, or an issue by a core. -/
inductive Actor where
  | unit (i : Instr)
  /-- The core issues from the slot R100 chooses; `late`: a memory value it asks for arrives later (R71). -/
  | issue (core : Nat) (late : Bool)
  /-- A value in flight arrives at a task of a core's slot (R71). -/
  | arrive (core slot : Nat)
  /-- The next word of a message that a core is still receiving arrives (R70). -/
  | msgWord (core : Nat)
  /-- An OP 13 flit arrives (R307). -/
  | mgmtFlit (f : Flit)
  /-- The last `n` words of the next message from one core to another will arrive after its first (R70). -/
  | msgSplit (src dst n : Nat)
  /-- An L2 slice begins a write-back under a tenant, or ends one (R142). -/
  | writeBack (core tenant : Nat) (start : Bool)
  /-- A chunk's signature reports an intersection that does not exist (R113). -/
  | falseConflict (core slot : Nat)
  /-- The management core executes its next instruction (R332). -/
  | mgmtCore
  /-- A gleaner goes on with a repartition (R310 to R312). -/
  | glean (seq : Nat)
  /-- An L1 drops a far copy (R160). -/
  | evict (core : Nat)
  /-- An instruction cache drops a line (R164, R365). -/
  | icEvict (core line : Nat)
  /-- The Winnower retranslates a quarantined image of a tenant (R211). -/
  | reseal (tenant : Nat)
  /-- The security monitor starts a move of a tenant as a task of it, on an image sealed trusted, at a byte of its text, with
  the first registers it is given (R285). -/
  | moveTask (tenant core : Nat) (image : BitVec 16) (entry : Nat) (args : List Word)
  /-- The next stage of boot runs (R321, R338). -/
  | boot
  /-- The security monitor puts a unit on the disable list (R331). -/
  | disable (u : Disabled)
  /-- A unit counts an event in the silo: a corrected error of a core or a DRAM bank, a sample of temperature or voltage
  margin, a link's retrain or FEC correction (R329). -/
  | count (entry : Nat)
  deriving DecidableEq, Repr

structure Turn where
  /-- Cycles that pass before it. -/
  cycles : Nat
  actor  : Actor
  deriving DecidableEq, Repr

/-- The machine. `cur` is the task whose instruction is executed; `tasks` are all the others. -/
structure State where
  conf    : Conf
  time    : Nat
  power   : Bool
  mem     : Mem
  /-- Control-space words by byte offset (Tables 04.4, 05.4, 05.5, 11.5, 13.1, 13.5, 13.14). -/
  ctl     : Tab Word
  pre     : Preempt
  silo    : Tab Nat
  mgmt    : Mgmt
  fab     : Fab
  sched   : Sched
  eng     : Eng
  moves   : List Move
  tears   : List Teardown
  cur     : Task
  tasks   : List Task
  /-- The model's own: the turns to come (DESIGN CHOICE, log entry 1). -/
  agenda  : List Turn
  late    : Bool
  /-- The model's own: numbers free values (DESIGN CHOICE, log entry 2). -/
  fresh   : Nat
  /-- The model's own: names tasks, gangs and requests (DESIGN CHOICE, log entry 2). -/
  nextKey : Nat
  deriving DecidableEq, Repr

/-- The answer of a step. -/
abbrev Out := Host.Outcome State Fault Refusal

/-! ### Reset -/

/-- The registers a task starts with (R84): zero, full, masks m1 to m7 zero, no message. -/
def Ctx.initial : Ctx where
  pc := 0
  g := Vector.replicate 32 0
  gFull := BitVec.allOnes 32
  v := Vector.replicate 32 0
  vFull := BitVec.allOnes 32
  m := Vector.replicate 8 0
  ac := Vector.replicate 4 (Vector.replicate 2048 0)
  rep := none
  mstRow := 0
  flags := 0
  sendq := []
  trapCause := 0
  trapPc := 0
  trapIdx := 0
  tlink := 0
  trapMode := false
  trapRep := none
  trapRow := 0
  msgPos := 0
  msgDone := false

/-- A chunk that begins with context `c` at time `t`. -/
def Chunk.begin (c : Ctx) (t : Nat) (first : Bool) : Chunk where
  start := c
  age := t
  instrs := 0
  log := []
  rlines := []
  wlines := []
  llines := []
  allocs := []
  aborts := 0
  serial := false
  want := none
  due := false
  first := first
  limited := false
  mldA := none
  mldB := none
  stepwise := false

/-- No task: the empty slot whose core `core` names. -/
def Task.vacant (core : Nat) : Task where
  key := 0
  kind := .root
  status := .vacant
  core := core
  tenant := 0
  prio := 0
  number := 0
  started := false
  startTime := 0
  dispatched := 0
  taskId := 0
  origin := 0
  owner := 0
  entryPb := 0
  handle := 0
  trusted := false
  winnower := false
  imgd := none
  launch := none
  rooted := false
  net := none
  ord := none
  ordNext := 0
  ctx := Ctx.initial
  waits := Vector.replicate 4 ⟨none, 0, 0, false, false, none⟩
  msg := none
  chunk := Chunk.begin Ctx.initial 0 true
  deferred := []
  hold := none
  inflight := []
  gang := none
  inline := none
  icinvs := []
  lanes := []
  usedAc := false
  since := 0
  src := 0
  resumed := false

def Sched.initial : Sched where
  dispatched := []
  ports := []
  order := ⟨none, none, none, none⟩
  occ := []
  occFrom := []
  deficit := []
  bags := []
  promoNext := 0
  spills := []
  divert := []
  gangQ := []
  gangs := []
  slotHolds := []
  tokens := []
  arrivals := []
  enWait := []
  launches := []
  launchQ := []
  images := []
  dataRegs := []
  quarantine := []
  cribs := []
  ended := []

def Eng.initial : Eng where
  homes := []
  engines := []
  arrays := []
  gleaner := ⟨0, [], [], []⟩
  icache := []
  farCopies := []
  writebacks := []
  waiters := []
  counters := []

def Fab.initial : Fab := ⟨[], [], [], [], [], [], [], [], [], []⟩

def Mgmt.initial : Mgmt where
  stage := 0
  halted := false
  romExit := false
  keys := []
  meas := Vector.replicate 16 0
  crypto := ⟨none, 0, 0, 0, 0, 0, 0, 0⟩
  sram := []
  flash := []
  mbox := ⟨false, [], 0, [], 0, false, []⟩
  inbox := []
  spdm := []
  tiSent := []
  core := ⟨Vector.replicate 32 0, 0, false, false, none, []⟩
  siloNv := []
  stretched := []
  hot := false
  fault := none
  audits := []
  poll := none
  disable := []

/-- Bytes of module DRAM available with every channel enabled: 504 GiB (R125, R331). -/
def fullModuleDram : Nat := 504 * 2 ^ 30

/-- The register files of a core's home-handler slot. No instruction names them; at reset they stand as a task's (R69; DESIGN
CHOICE, log entry 59). -/
def State.homeCtx (s : State) (core : Nat) : Ctx :=
  match s.eng.homes.find? fun e => e.1 == core with
  | some e => e.2
  | none => Ctx.initial

/-- The machine right after a power-on reset, before boot stage 0 has run (R321): every table at its Reset column, no
task, the compute dies still held in reset. Values the spec does not give are those of DESIGN CHOICE, log entries 3 to 6. -/
def State.reset : State where
  conf := ⟨0, 0, BitVec.allOnes 128, BitVec.allOnes 32, BitVec.allOnes 32, fullModuleDram, Vector.replicate 4 0, [], none⟩
  time := 0
  power := true
  mem := ⟨[], [], [], [], []⟩
  ctl := []
  pre := ⟨0, 0, 0, 0, []⟩
  silo := []
  mgmt := Mgmt.initial
  fab := Fab.initial
  sched := Sched.initial
  eng := Eng.initial
  moves := []
  tears := []
  cur := Task.vacant 0
  tasks := []
  agenda := []
  late := false
  fresh := 0
  nextKey := 1

end Sys2Proof.Machine
end

