-- ==== Sys2Proof/Machine/Bits.lean ====
section
/-! DEFINITION. Bit fields, sign extension, byte order and sparse tables: the helpers the rest of the machine uses. -/

namespace Sys2Proof.Machine

/-- Bits [hi:lo] of a word as a number (R3). -/
def fieldNat (w : Word) (hi lo : Nat) : Nat := (w.toNat >>> lo) % 2 ^ (hi + 1 - lo)

/-- Bit `n` of a word. -/
def bitOf (w : Word) (n : Nat) : Bool := w.getLsbD n

/-- The low 32 bits of `w`, sign-extended (sext32 of R339). -/
def sext32 (w : Word) : Word := (w.truncate 32).signExtend 64

/-- A twelve-bit immediate, sign-extended (sext12 of R340). -/
def sext12 (i : BitVec 12) : Word := i.signExtend 64

/-- `n` bytes of a number, little-endian (R3). -/
def bytesOfNat : Nat → Nat → List Byte
  | 0, _ => []
  | n + 1, v => BitVec.ofNat 8 v :: bytesOfNat n (v / 256)

/-- The number of a list of bytes, little-endian (R3). -/
def natOfBytes : List Byte → Nat
  | [] => 0
  | b :: bs => b.toNat + 256 * natOfBytes bs

/-- `n` bytes of a number, big-endian (R319). -/
def bytesBE (n v : Nat) : List Byte := (bytesOfNat n v).reverse

/-- The number of a list of bytes, big-endian (R319). -/
def natBE (bs : List Byte) : Nat := natOfBytes bs.reverse

/-- The low `8 n` bits of `v`, sign- or zero-extended to a word. -/
def extend (n : Nat) (signed : Bool) (v : Nat) : Word :=
  let m := 2 ^ (8 * n)
  let x := v % m
  if signed && decide (m / 2 ≤ x) then BitVec.ofInt 64 ((x : Int) - m) else BitVec.ofNat 64 x

/-- Split a list into words of eight bytes. -/
def wordsOfBytes (bs : List Byte) : Nat → List Word
  | 0 => []
  | n + 1 => BitVec.ofNat 64 (natOfBytes (bs.take 8)) :: wordsOfBytes (bs.drop 8) n

/-- The bytes of a list of words, each little-endian. -/
def bytesOfWords (ws : List Word) : List Byte := ws.flatMap fun w => bytesOfNat 8 w.toNat

/-- Little-endian chunks of `n` bytes of a list. -/
def chunksOf (n : Nat) : Nat → List Byte → List (List Byte)
  | 0, _ => []
  | k + 1, bs => bs.take n :: chunksOf n k (bs.drop n)

/-- Element `i` of width `w` bits of a vector register (R433). -/
def elemAt (w : Nat) (x : VWord) (i : Nat) : Nat := (x.toNat >>> (w * i)) % 2 ^ w

/-- The vector register of elements of width `w`, element 0 first (R433). -/
def vecOf (w : Nat) : List Nat → Nat
  | [] => 0
  | e :: es => e % 2 ^ w + 2 ^ w * vecOf w es

/-- The number of `x` as a two's complement value of `w` bits. -/
def signedOf (w x : Nat) : Int := if 2 ^ w ≤ 2 * (x % 2 ^ w) then (x % 2 ^ w : Nat) - 2 ^ w else (x % 2 ^ w : Nat)

/-- The low `w` bits of an integer. -/
def wrapTo (w : Nat) (x : Int) : Nat := (x % (2 ^ w : Nat)).toNat

/-! ### Sparse tables -/

namespace Tab

/-- The value of a key, or the default. -/
def get {α : Type} (t : Tab α) (k : Nat) (dflt : α) : α :=
  match t.find? (fun e => e.1 == k) with
  | some e => e.2
  | none => dflt

/-- Set the value of a key. -/
def set {α : Type} : Tab α → Nat → α → Tab α
  | [], k, v => [(k, v)]
  | e :: es, k, v => if e.1 = k then (k, v) :: es else e :: set es k v

/-- Drop a key. -/
def erase {α : Type} (t : Tab α) (k : Nat) : Tab α := t.filter (fun e => e.1 != k)

end Tab

/-- The key of a pair of a core and a tenant in a table. -/
def coreTenant (core tenant : Nat) : Nat := core * 64 + tenant

/-! ### Sorted lists -/

/-- Insert into a strictly rising list. -/
def insertNat (a : Nat) : List Nat → List Nat
  | [] => [a]
  | x :: xs => if a < x then a :: x :: xs else if a = x then x :: xs else x :: insertNat a xs

/-- Remove from a list. -/
def removeNat (a : Nat) (l : List Nat) : List Nat := l.filter (fun x => x != a)

/-- Add an element that is not there. -/
def addNew (a : Nat) (l : List Nat) : List Nat := if l.contains a then l else a :: l

/-- The lines of 64 bytes that `n` bytes from `a` touch (R112). -/
def linesOf (a n : Nat) : List Nat :=
  if n = 0 then [] else (List.range ((a + n - 1) / 64 - a / 64 + 1)).map (fun k => a / 64 + k)

/-- The aligned 64-bit words that `n` bytes from `a` touch (R136). -/
def wordsAt (a n : Nat) : List Nat :=
  if n = 0 then [] else (List.range ((a + n - 1) / 8 - a / 8 + 1)).map (fun k => 8 * (a / 8 + k))

end Sys2Proof.Machine
end

