-- ==== Sys2Proof/Machine/Cipher.lean ====
section
/-! DEFINITION. The algorithms the manual names: SHA-384, HMAC and HKDF with it, AES-256 with GCM and XTS, and ECDSA
verification on brainpoolP384r1 (R259, R272, R273, R299, R320). -/

namespace Sys2Proof.Machine

/-! ### SHA-384 -/

/-- Newton's steps towards the `k`-th root of `n` from above, at most `fuel` of them: the greatest whole number whose `k`-th
power is not above `n`. -/
def rootFrom (k n : Nat) : Nat → Nat → Nat
  | 0, x => x
  | fuel + 1, x =>
    let y := ((k - 1) * x + n / x ^ (k - 1)) / k
    if y < x then rootFrom k n fuel y else x

/-- The first 64 bits of the fraction of the `k`-th root of `p`. -/
def rootFraction (k p : Nat) : Nat := rootFrom k (p * 2 ^ (64 * k)) 80 (2 ^ 69) % 2 ^ 64

/-- The primes below `2 + n`, least first: each that no smaller prime divides. -/
def primesBelow (n : Nat) : List Nat :=
  (List.range n).foldl (fun ps i => if ps.any fun q => (i + 2) % q = 0 then ps else ps ++ [i + 2]) []

/-- The constants of the 80 rounds: the fractions of the cube roots of the first 80 primes (FIPS 180-4). -/
def shaRounds : List Nat := (primesBelow 408).map (rootFraction 3)

/-- The initial hash value: the fractions of the square roots of the ninth to the sixteenth prime (FIPS 180-4). -/
def shaInit : List Word := (((primesBelow 52).drop 8).map (rootFraction 2)).map (BitVec.ofNat 64)

def rotr (x : Word) (n : Nat) : Word := x.rotateRight n

/-- The message schedule: 64 more words after the 16 of a block. -/
def shaSchedule : Nat → List Word → List Word
  | 0, w => w.reverse
  | n + 1, w =>
    let a := w.getD 14 0
    let b := w.getD 1 0
    let s0 := rotr a 1 ^^^ rotr a 8 ^^^ (a >>> 7)
    let s1 := rotr b 19 ^^^ rotr b 61 ^^^ (b >>> 6)
    shaSchedule n ((w.getD 15 0 + s0 + w.getD 6 0 + s1) :: w)

/-- One round over the eight working words a to h. -/
def shaRound (v : List Word) (kw : Word) : List Word :=
  match v with
  | [a, b, c, d, e, f, g, h] =>
    let t1 := h + (rotr e 14 ^^^ rotr e 18 ^^^ rotr e 41) + ((e &&& f) ^^^ (~~~e &&& g)) + kw
    let t2 := (rotr a 28 ^^^ rotr a 34 ^^^ rotr a 39) + ((a &&& b) ^^^ (a &&& c) ^^^ (b &&& c))
    [t1 + t2, a, b, c, d + t1, e, f, g]
  | v => v

/-- One block of 128 bytes. -/
def shaBlock (hash : List Word) (block : List Byte) : List Word :=
  let w := (List.range 16).map fun i => BitVec.ofNat 64 (natBE ((block.drop (8 * i)).take 8))
  let kw := List.zipWith (fun k (x : Word) => BitVec.ofNat 64 k + x) shaRounds (shaSchedule 64 w.reverse)
  List.zipWith (fun x y => x + y) hash (kw.foldl shaRound hash)

/-- The padded message. -/
def shaPad (m : List Byte) : List Byte :=
  m ++ [0x80#8] ++ List.replicate ((239 - m.length % 128) % 128) 0 ++ bytesBE 16 (8 * m.length)

/-- SHA-384 of a byte string: 48 bytes. -/
def sha384 (m : List Byte) : List Byte :=
  let p := shaPad m
  (((chunksOf 128 (p.length / 128) p).foldl shaBlock shaInit).take 6).flatMap fun w => bytesBE 8 w.toNat

/-- HMAC-SHA-384. -/
def hmac384 (key m : List Byte) : List Byte :=
  let k := if 128 < key.length then sha384 key else key
  let k := k ++ List.replicate (128 - k.length) 0
  sha384 (k.map (fun b => b ^^^ 0x5C) ++ sha384 (k.map (fun b => b ^^^ 0x36) ++ m))

/-- The blocks of HKDF's expansion. -/
def hkdfBlocks : Nat → Nat → List Byte → List Byte → List Byte → List Byte
  | 0, _, _, _, _ => []
  | n + 1, i, prk, info, t =>
    let t := hmac384 prk (t ++ info ++ [BitVec.ofNat 8 i])
    t ++ hkdfBlocks n (i + 1) prk info t

/-- HKDF-SHA-384 of a secret with an info string, no salt. -/
def hkdf384 (secret info : List Byte) (n : Nat) : List Byte :=
  (hkdfBlocks ((n + 47) / 48) 1 (hmac384 (List.replicate 48 0) secret) info []).take n

/-! ### AES-256 -/

/-- The substitution box. -/
def sbox : List Byte :=
  [0x63, 0x7c, 0x77, 0x7b, 0xf2, 0x6b, 0x6f, 0xc5, 0x30, 0x01, 0x67, 0x2b, 0xfe, 0xd7, 0xab, 0x76,
   0xca, 0x82, 0xc9, 0x7d, 0xfa, 0x59, 0x47, 0xf0, 0xad, 0xd4, 0xa2, 0xaf, 0x9c, 0xa4, 0x72, 0xc0,
   0xb7, 0xfd, 0x93, 0x26, 0x36, 0x3f, 0xf7, 0xcc, 0x34, 0xa5, 0xe5, 0xf1, 0x71, 0xd8, 0x31, 0x15,
   0x04, 0xc7, 0x23, 0xc3, 0x18, 0x96, 0x05, 0x9a, 0x07, 0x12, 0x80, 0xe2, 0xeb, 0x27, 0xb2, 0x75] ++
  [0x09, 0x83, 0x2c, 0x1a, 0x1b, 0x6e, 0x5a, 0xa0, 0x52, 0x3b, 0xd6, 0xb3, 0x29, 0xe3, 0x2f, 0x84,
   0x53, 0xd1, 0x00, 0xed, 0x20, 0xfc, 0xb1, 0x5b, 0x6a, 0xcb, 0xbe, 0x39, 0x4a, 0x4c, 0x58, 0xcf,
   0xd0, 0xef, 0xaa, 0xfb, 0x43, 0x4d, 0x33, 0x85, 0x45, 0xf9, 0x02, 0x7f, 0x50, 0x3c, 0x9f, 0xa8,
   0x51, 0xa3, 0x40, 0x8f, 0x92, 0x9d, 0x38, 0xf5, 0xbc, 0xb6, 0xda, 0x21, 0x10, 0xff, 0xf3, 0xd2] ++
  [0xcd, 0x0c, 0x13, 0xec, 0x5f, 0x97, 0x44, 0x17, 0xc4, 0xa7, 0x7e, 0x3d, 0x64, 0x5d, 0x19, 0x73,
   0x60, 0x81, 0x4f, 0xdc, 0x22, 0x2a, 0x90, 0x88, 0x46, 0xee, 0xb8, 0x14, 0xde, 0x5e, 0x0b, 0xdb,
   0xe0, 0x32, 0x3a, 0x0a, 0x49, 0x06, 0x24, 0x5c, 0xc2, 0xd3, 0xac, 0x62, 0x91, 0x95, 0xe4, 0x79,
   0xe7, 0xc8, 0x37, 0x6d, 0x8d, 0xd5, 0x4e, 0xa9, 0x6c, 0x56, 0xf4, 0xea, 0x65, 0x7a, 0xae, 0x08] ++
  [0xba, 0x78, 0x25, 0x2e, 0x1c, 0xa6, 0xb4, 0xc6, 0xe8, 0xdd, 0x74, 0x1f, 0x4b, 0xbd, 0x8b, 0x8a,
   0x70, 0x3e, 0xb5, 0x66, 0x48, 0x03, 0xf6, 0x0e, 0x61, 0x35, 0x57, 0xb9, 0x86, 0xc1, 0x1d, 0x9e,
   0xe1, 0xf8, 0x98, 0x11, 0x69, 0xd9, 0x8e, 0x94, 0x9b, 0x1e, 0x87, 0xe9, 0xce, 0x55, 0x28, 0xdf,
   0x8c, 0xa1, 0x89, 0x0d, 0xbf, 0xe6, 0x42, 0x68, 0x41, 0x99, 0x2d, 0x0f, 0xb0, 0x54, 0xbb, 0x16]

def subByte (b : Byte) : Byte := sbox.getD b.toNat 0
/-- The inverse box. -/
def unsubByte (b : Byte) : Byte := BitVec.ofNat 8 (sbox.idxOf b)

/-- Multiplication by x in the field of AES. -/
def xtime (b : Byte) : Byte := (b <<< 1) ^^^ (if b.getLsbD 7 then 0x1B else 0)
/-- Multiplication by a constant of four bits. -/
def gmul (n : Nat) (b : Byte) : Byte :=
  let b2 := xtime b
  let b4 := xtime b2
  (if n.testBit 0 then b else 0) ^^^ (if n.testBit 1 then b2 else 0) ^^^ (if n.testBit 2 then b4 else 0) ^^^
    (if n.testBit 3 then xtime b4 else 0)

/-- The further words of the key schedule; the list holds the words newest first, `i` numbers the next. -/
def keyWords : Nat → Nat → Byte → List (List Byte) → List (List Byte)
  | 0, _, _, ws => ws.reverse
  | n + 1, i, rc, ws =>
    let p := ws.getD 0 []
    let t := if i % 8 = 0 then
        (match (p.drop 1 ++ p.take 1).map subByte with
         | b :: bs => (b ^^^ rc) :: bs
         | [] => [])
      else if i % 8 = 4 then p.map subByte else p
    keyWords n (i + 1) (if i % 8 = 0 then xtime rc else rc) (List.zipWith (fun x y => x ^^^ y) (ws.getD 7 []) t :: ws)

/-- The fifteen round keys of a 32-byte key, 16 bytes each. -/
def roundKeys (key : List Byte) : List (List Byte) :=
  let ws := keyWords 52 8 1 (chunksOf 4 8 key).reverse
  (List.range 15).map fun i => ((ws.drop (4 * i)).take 4).flatten

def xorBytes (a b : List Byte) : List Byte := List.zipWith (fun x y => x ^^^ y) a b

/-- Byte (row r, column c) stands at 4 c + r. -/
def shiftRows (s : List Byte) : List Byte := (List.range 16).map fun i => s.getD ((i + 4 * (i % 4)) % 16) 0
def unshiftRows (s : List Byte) : List Byte := (List.range 16).map fun i => s.getD ((i + 12 * (i % 4)) % 16) 0

/-- Each column times a circulant of four constants. -/
def mixWith (ks : List Nat) (s : List Byte) : List Byte :=
  (List.range 16).map fun i =>
    (List.range 4).foldl (fun x j => x ^^^ gmul (ks.getD ((j + 4 - i % 4) % 4) 0) (s.getD (4 * (i / 4) + j) 0)) 0

/-- AES-256 of one block under its round keys. -/
def aesBlock (rk : List (List Byte)) (b : List Byte) : List Byte :=
  let s := (List.range 13).foldl (fun s i =>
    xorBytes (mixWith [2, 3, 1, 1] (shiftRows (s.map subByte))) (rk.getD (i + 1) [])) (xorBytes b (rk.getD 0 []))
  xorBytes (shiftRows (s.map subByte)) (rk.getD 14 [])

/-- The inverse cipher. -/
def aesUnblock (rk : List (List Byte)) (b : List Byte) : List Byte :=
  let s := (unshiftRows (xorBytes b (rk.getD 14 []))).map unsubByte
  let s := (List.range 13).foldl (fun s i =>
    (unshiftRows (mixWith [14, 11, 13, 9] (xorBytes s (rk.getD (13 - i) [])))).map unsubByte) s
  xorBytes s (rk.getD 0 [])

/-! ### GCM -/

/-- Multiplication in the field of GHASH, bit 0 of the field being the most significant. -/
def ghashMul (x y : BitVec 128) : BitVec 128 :=
  ((List.range 128).foldl (fun (acc : BitVec 128 × BitVec 128) i =>
    let (z, v) := acc
    (if x.getMsbD i then z ^^^ v else z,
     if v.getLsbD 0 then (v >>> 1) ^^^ (0xE1#128 <<< 120) else v >>> 1)) (0, y)).1

/-- Zero-pad to whole blocks. -/
def padBlocks (bs : List Byte) : List Byte := bs ++ List.replicate ((16 - bs.length % 16) % 16) 0

def blocksOf (bs : List Byte) : List (List Byte) := chunksOf 16 ((bs.length + 15) / 16) bs

/-- GHASH of additional data and ciphertext. -/
def ghash (h : BitVec 128) (aad ct : List Byte) : List Byte :=
  let bs := blocksOf (padBlocks aad) ++ blocksOf (padBlocks ct) ++
    [bytesBE 8 (8 * aad.length) ++ bytesBE 8 (8 * ct.length)]
  bytesBE 16 (bs.foldl (fun y b => ghashMul (y ^^^ BitVec.ofNat 128 (natBE b)) h) 0).toNat

/-- The counter-mode stream over bytes, from counter block `n` of a 12-byte nonce. -/
def gcmCrypt (rk : List (List Byte)) (nonce bs : List Byte) : List Byte :=
  ((blocksOf bs).mapIdx fun i b => xorBytes b (aesBlock rk (nonce ++ bytesBE 4 (i + 2)))).flatten

/-- The tag of additional data and ciphertext. -/
def gcmTag (rk : List (List Byte)) (nonce aad ct : List Byte) : List Byte :=
  xorBytes (ghash (BitVec.ofNat 128 (natBE (aesBlock rk (List.replicate 16 0)))) aad ct)
    (aesBlock rk (nonce ++ bytesBE 4 1))

/-! ### XTS -/

/-- Multiplication of a tweak by x, byte 0 the lowest. -/
def xtsNext (t : List Byte) : List Byte :=
  let n := natOfBytes t
  bytesOfNat 16 (if 2 ^ 127 ≤ n then (2 * n % 2 ^ 128) ^^^ 0x87 else 2 * n)

/-- One data unit of whole blocks. -/
def xtsBlocks (f : List Byte → List Byte) : List (List Byte) → List Byte → List Byte
  | [], _ => []
  | b :: bs, t => xorBytes (f (xorBytes b t)) t ++ xtsBlocks f bs (xtsNext t)

/-- The tweak after `n` blocks. -/
def xtsTweak : Nat → List Byte → List Byte
  | 0, t => t
  | n + 1, t => xtsTweak n (xtsNext t)

/-- AES-256-XTS encryption of a data unit of 16 bytes or more under a 64-byte key and a 16-byte tweak; a last part of a block
takes its rest from the block before it. -/
def xtsEncrypt (key tweak bs : List Byte) : List Byte :=
  let f := aesBlock (roundKeys (key.take 32))
  let t := aesBlock (roundKeys (key.drop 32)) tweak
  let n := bs.length / 16
  let b := bs.length % 16
  if b = 0 then xtsBlocks f (blocksOf bs) t
  else
    let one := fun (i : Nat) (p : List Byte) => xtsBlocks f [p] (xtsTweak i t)
    let cc := one (n - 1) ((bs.drop (16 * (n - 1))).take 16)
    xtsBlocks f (blocksOf (bs.take (16 * (n - 1)))) t ++ one n (bs.drop (16 * n) ++ cc.drop b) ++ cc.take b

/-- Decryption. -/
def xtsDecrypt (key tweak bs : List Byte) : List Byte :=
  xtsBlocks (aesUnblock (roundKeys (key.take 32))) (blocksOf bs) (aesBlock (roundKeys (key.drop 32)) tweak)

/-! ### ECDSA on brainpoolP384r1 (RFC 5639) -/

def curveP : Nat := 0x8CB91E82A3386D280F5D6F7E50E641DF152F7109ED5456B412B1DA197FB71123ACD3A729901D1A71874700133107EC53
def curveA : Nat := 0x7BC382C63D8C150C3C72080ACE05AFA0C2BEA28E4FB22787139165EFBA91F90F8AA5814A503AD4EB04A8C7DD22CE2826
def curveB : Nat := 0x04A8C7DD22CE28268B39B55416F0447C2FB77DE107DCD2A62E880EA53EEB62D57CB4390295DBC9943AB78696FA504C11
def curveQ : Nat := 0x8CB91E82A3386D280F5D6F7E50E641DF152F7109ED5456B31F166E6CAC0425A7CF3AB6AF6B7FC3103B883202E9046565
def curveG : Nat × Nat :=
  (0x1D1C64F068CF45FFA2A63A81B7C13F6B8847A3E77EF14FE3DB7FCAFE0CBD10E8E826E03436D646AAEF87B2E247D4AF1E,
   0x8ABE1D7520F9C2A45CB1EB8E95CFD55262B70B29FEEC5864E19C054FF99129280E4646217791811142820341263C5315)

/-- `x` to the power `e` modulo `m`, over `n` bits of `e` from the top. -/
def powMod : Nat → Nat → Nat → Nat → Nat
  | 0, _, _, m => 1 % m
  | n + 1, x, e, m =>
    let r := powMod n x (e / 2) m
    if e % 2 = 1 then r * r % m * x % m else r * r % m

/-- The inverse modulo a prime. -/
def invMod (x m : Nat) : Nat := powMod 384 (x % m) (m - 2) m

/-- A point in Jacobian coordinates: x / z² and y / z³ are its affine ones, and z = 0 is the point at infinity. -/
abbrev Jacobian := Nat × Nat × Nat

/-- The double of a point. -/
def doublePoint (a : Jacobian) : Jacobian :=
  let p := curveP
  let (x, y, z) := a
  let yy := y * y % p
  let s := 4 * x * yy % p
  let zz := z * z % p
  let m := (3 * x * x + curveA * (zz * zz % p)) % p
  let w := (m * m + 2 * p - 2 * s) % p
  (w, (m * (s + p - w) + 8 * p - 8 * (yy * yy % p)) % p, 2 * y * z % p)

/-- The sum of a point and an affine one. -/
def addPoint (a : Jacobian) (b : Nat × Nat) : Jacobian :=
  let p := curveP
  let (x, y, z) := a
  if z = 0 then (b.1, b.2, 1)
  else
    let zz := z * z % p
    let h := (b.1 * zz + p - x) % p
    let r := (b.2 * zz % p * z + p - y) % p
    if h = 0 then (if r = 0 then doublePoint a else (1, 1, 0))
    else
      let hh := h * h % p
      let hhh := hh * h % p
      let v := x * hh % p
      let w := (r * r + 3 * p - hhh - 2 * v) % p
      (w, (r * (v + p - w) + p - y * hhh % p) % p, z * h % p)

/-- The sum of `k` times one point and `l` times another, over `n` bits of the factors from the top. -/
def mulPoints : Nat → Nat → Nat × Nat → Nat → Nat × Nat → Jacobian
  | 0, _, _, _, _ => (1, 1, 0)
  | n + 1, k, g, l, q =>
    let d := doublePoint (mulPoints n (k / 2) g (l / 2) q)
    let e := if k % 2 = 1 then addPoint d g else d
    if l % 2 = 1 then addPoint e q else e

/-- The point lies on the curve. -/
def onCurve (x y : Nat) : Bool :=
  decide (x < curveP) && decide (y < curveP) &&
    decide (y * y % curveP = (x * x % curveP * x + curveA * x + curveB) % curveP)

/-- ECDSA verification of a 48-byte digest with a public key and a signature (R319, R320). -/
def ecdsaVerify (digest : Nat) (x y r s : Nat) : Bool :=
  let q := curveQ
  onCurve x y && decide (0 < r) && decide (r < q) && decide (0 < s) && decide (s < q) &&
    (let w := invMod s q
     let (u, _, z) := mulPoints 384 (digest * w % q) curveG (r * w % q) (x, y)
     z != 0 && u * invMod (z * z) curveP % curveP % q == r)

/-- The ECDSA signature r and s of a 48-byte digest with a private number and a nonce (SEC 1). -/
def ecdsaPair (digest d k : Nat) : Nat × Nat :=
  let (u, _, z) := mulPoints 384 k curveG 0 curveG
  let r := u * invMod (z * z) curveP % curveP % curveQ
  (r, invMod k curveQ * ((digest + r * d) % curveQ) % curveQ)

/-- The signature with the first of some nonces that leaves neither part zero. -/
def ecdsaSign (digest d : Nat) (nonce : Nat → Nat) : Nat → Nat → Nat × Nat
  | 0, j => ecdsaPair digest d (nonce j)
  | n + 1, j =>
    let x := ecdsaPair digest d (nonce j)
    if x.1 = 0 ∨ x.2 = 0 then ecdsaSign digest d nonce n (j + 1) else x

end Sys2Proof.Machine
end

