-- ==== Sys2Proof/Config.lean ====
section
/-! DEFINITION. What an implementation fixes and the free values: constants without a body, of which nothing can be
proved but what holds for every value. Each is named in the assumption log. -/

namespace Sys2Proof.Config

/-- A value the manual leaves open, one for each count of the model's own counter `fresh` (DESIGN CHOICE, log entry 2). -/
opaque freeByte : Nat → Byte

/-- The Winnower release as it stands in WREL (R259). -/
opaque wrel : Word

/-- Where the Winnower keeps a value of an image, by function and position: a register, or none for the slot's stack (R259
step 4). A choice that gives two live values one place is not taken. -/
opaque register : List Byte → Nat → Nat → Option Nat

/-- Whether the Winnower takes its own choice of registers for an image, rather than the first that are free. -/
opaque ownRegisters : List Byte → Bool

/-- Whether the Winnower keeps the check of an access that R262 would let it elide, by function and position. -/
opaque keepCheck : List Byte → Nat → Nat → Bool

/-- The native words by which the Winnower sets sp to the slot's stack, of which R202 gives no place; those that write
another register or touch memory are left out. -/
opaque stackWords : List Byte → List (BitVec 32)

/-- The bytes of an SPDM response of which the manual gives no byte, one for each count of `fresh` (R324). -/
opaque spdmBytes : Nat → List Byte

/-- The span that the trusted runtime moves, one for each count of `fresh` (R274). -/
opaque spanBase : Nat → Word
opaque spanLen : Nat → Nat

/-- The address of `wn_retrans` in the image of the trusted runtime (R287). -/
opaque retransAt : Word

/-- What `wn_retrans` leaves in a register that Table 14.2 calls undefined, by count of `fresh` and register. -/
opaque retransReg : Nat → Nat → Word

/-- Bytes of the true random source, one for each count of `fresh` and place (R320). -/
opaque cryptoByte : Nat → Nat → Byte

/-- What the management core's cycle counter and identification registers read: by count of `fresh`, and by register. -/
opaque mgmtCycle : Nat → Word
opaque mgmtId : Nat → Word

/-- The bytes of the boot ROM (R318). -/
opaque romByte : Nat → Byte

/-- D of the service firmware and of the Winnower image, as boot stage 2 measures them (R321). -/
opaque firmwareDigest : BitVec 384
opaque winnowerDigest : BitVec 384

/-- Bytes 240 to 255 of a flit, its CRC-32 and FEC parity, from the 240 before them (R291): the manual names no polynomial and
no code. -/
opaque linkCheck : List Byte → Nat → Byte

/-- The payloads of the OP 13 flits that carry one secured answer, one for each count of `fresh` (R307). -/
opaque securedFlits : Nat → List (List Word)

/-- Whether the gleaners judge that two calls disagree on the team identifier, one for each count of `fresh` (R313). -/
opaque teamsDiffer : Nat → Bool

/-- The port hash of a destination package (R293). -/
opaque portHash : Nat → Nat

/-- The SPDM session secret of a tenant interface's or a link's session, one for each count of `fresh` (R273, R300). -/
opaque sessionSecret : Nat → List Byte

/-- The private number of the device identity key, in key slot 64 (R320). -/
opaque deviceKey : Nat

end Sys2Proof.Config
end

