-- ==== Sys2Proof/Machine/Memory.lean ====
section
/-! DEFINITION. Bytes and tags of memory, the local map, the home map, ownership and the checks of Table 05.2. -/

namespace Sys2Proof.Machine

/-! ### Bytes (canonical local addresses) -/

namespace Mem

/-- What an unlisted address reads as: zero (R143, DESIGN CHOICE, log entry 5). -/
def unlisted : Byte := 0

/-- The listed value of a cell. -/
def lookup : List Host.Cell → Nat → Byte
  | [], _ => unlisted
  | c :: cs, a => if c.1 = a then c.2 else lookup cs a

/-- Write one cell, keeping the addresses strictly rising and no cell equal to what an unlisted address reads as. -/
def put : List Host.Cell → Nat → Byte → List Host.Cell
  | [], a, b => if b = unlisted then [] else [(a, b)]
  | c :: cs, a, b =>
    if c.1 < a then c :: put cs a b
    else if c.1 = a then (if b = unlisted then cs else (a, b) :: cs)
    else if b = unlisted then c :: cs else (a, b) :: c :: cs

/-- Read a byte. -/
def read (m : Mem) (a : Nat) : Byte := lookup m.cells a

/-- Write a byte. -/
def write (m : Mem) (a : Nat) (b : Byte) : Mem := { m with cells := put m.cells a b }

/-- Read `n` bytes. -/
def readBytes (m : Mem) (a n : Nat) : List Byte := (List.range n).map fun k => m.read (a + k)

/-- Write bytes from `a` upward. -/
def writeBytes (m : Mem) : Nat → List Byte → Mem
  | _, [] => m
  | a, b :: bs => writeBytes (m.write a b) (a + 1) bs

/-- The 64-bit word at `a` (MEM64 of R6). -/
def read64 (m : Mem) (a : Nat) : Word := BitVec.ofNat 64 (natOfBytes (m.readBytes a 8))

/-- Write the 64-bit word at `a`. -/
def write64 (m : Mem) (a : Nat) (w : Word) : Mem := m.writeBytes a (bytesOfNat 8 w.toNat)

/-- The full/empty tag of the word that holds `a`, true when full (TAG of R6, R136). -/
def full (m : Mem) (a : Nat) : Bool := !(m.empties.contains (8 * (a / 8)))

/-- Set the tag of the word that holds `a`. -/
def setTag (m : Mem) (a : Nat) (f : Bool) : Mem :=
  if f then { m with empties := removeNat (8 * (a / 8)) m.empties }
  else { m with empties := insertNat (8 * (a / 8)) m.empties }

/-- Set the tags of every word that `n` bytes from `a` touch. -/
def setTags (m : Mem) (a n : Nat) (f : Bool) : Mem := (wordsAt a n).foldl (fun m w => m.setTag w f) m

/-- The word that holds `a` is poisoned (R165). -/
def poisoned (m : Mem) (a : Nat) : Bool := m.poison.contains (8 * (a / 8))

/-- Some word that `n` bytes from `a` touch is poisoned. -/
def anyPoison (m : Mem) (a n : Nat) : Bool := (wordsAt a n).any fun w => m.poison.contains w

/-- Clear the poison of the words that `n` bytes from `a` cover whole (R165). -/
def clearPoison (m : Mem) (a n : Nat) : Mem :=
  { m with poison := m.poison.filter fun w => !(decide (a ≤ w) && decide (w + 8 ≤ a + n)) }

/-- The canonical form of the cells: addresses strictly rising, none equal to what an unlisted address reads as. -/
def cellsWf : List Host.Cell → Bool
  | [] => true
  | [c] => c.2 != unlisted
  | c :: d :: cs => c.2 != unlisted && decide (c.1 < d.1) && cellsWf (d :: cs)

/-- A list of addresses is strictly rising. -/
def rising : List Nat → Bool
  | [] => true
  | [_] => true
  | a :: b :: l => decide (a < b) && rising (b :: l)

/-- The memory is in canonical form: its cells, and its lists of empty, poisoned and scrubbed addresses. -/
def wf (m : Mem) : Bool := cellsWf m.cells && rising m.empties && rising m.poison && rising m.scrubbed

end Mem

/-! ### The local map (R124, R125) -/

/-- A core of the package is enabled: its row is (R26, R331). -/
def coreEnabled (s : State) (c : Nat) : Bool := decide (c < 1024) && s.conf.rowEn.getLsbD (c / 8)

/-- A row is enabled (R331). -/
def rowEnabled (s : State) (r : Nat) : Bool := decide (r < 128) && s.conf.rowEn.getLsbD r

/-- What a local address is (Table 05.1). A window address gives the window, the core and the scratchpad offset. -/
inductive Place where
  | dram
  | window (w core off : Nat)
  | control (off : Nat)
  | carveOut
  | unmapped
  deriving DecidableEq, Repr

/-- The stacked DRAM bank that holds a local address, per die: 16 banks of 2 GiB each (BANKRET gives 16 bits a die; the
spec does not say which addresses a bank holds, DESIGN CHOICE, log entry 4). -/
def bankRetired (s : State) (a : Nat) : Bool :=
  let die := a / 2 ^ 35
  if h : die < 4 then (s.conf.bankret[die]).getLsbD ((a % 2 ^ 35) / 2 ^ 31) else false

/-- Table 05.1, with what the disable list unmaps (R331). -/
def placeOf (s : State) (a : Nat) : Place :=
  if a < 0x2000000000 then (if bankRetired s a then .unmapped else .dram)
  else if a < 0x2100000000 then
    let o := a - 0x2000000000
    let core := (o % 0x20000000) / 0x80000
    if coreEnabled s core then .window (o / 0x20000000) core (o % 0x80000) else .unmapped
  else if a < 0x2200000000 then .control (a - 0x2100000000)
  else if a < 0x8000000000 then .unmapped
  else if a < 0xFE00000000 then (if a < 0x8000000000 + s.conf.modcap then .dram else .unmapped)
  else if a < 0x10000000000 then .carveOut
  else .unmapped

/-- The W0 address of a scratchpad byte, under which its contents are kept (R127). -/
def spAddr (core off : Nat) : Nat := 0x2000000000 + core * 0x80000 + off

/-- The package number of an address (R124). -/
def pkgOf (a : Word) : Nat := fieldNat a 55 40
/-- The local part of an address (R124). -/
def localOf (a : Word) : Nat := fieldNat a 39 0
/-- The address names the issuing package (R124). -/
def isLocal (s : State) (a : Word) : Bool := decide (pkgOf a = s.conf.pkg)
/-- The global address of a local one. -/
def globalOf (s : State) (a : Nat) : Word := BitVec.ofNat 64 (s.conf.pkg * 2 ^ 40 + a)

/-! ### Control-space words -/

/-- The reset value of a control-space word at a byte offset (Reset columns of Tables 04.4, 05.4, 11.5, 13.1). -/
def ctlReset (off : Nat) : Word :=
  if off < 0x10000 then (if off % 16 = 0 then 0x0100000000000000 else 0)
  else if decide (0x2000000 ≤ off) && decide (off < 0x2400000) then
    (if off % 16 = 0 then 0x4000000000000000 else 0)
  else if decide (0x2800000 ≤ off) && decide (off < 0x2820000) then 0x1000000000000000
  else if decide (0x3000000 ≤ off) && decide (off < 0x3004000) && decide (off % 0x100 = 8) then 1
  else 0

/-- The stored word at a control-space byte offset. -/
def ctlGet (s : State) (off : Nat) : Word := Tab.get s.ctl (8 * (off / 8)) (ctlReset (8 * (off / 8)))

/-- Store a control-space word. -/
def ctlSet (s : State) (off : Nat) (w : Word) : State := { s with ctl := Tab.set s.ctl (8 * (off / 8)) w }

/-- Offset of HMAP[n] word 0 and 1 (R133). -/
def hmapOff (n : Nat) (hi : Bool) : Nat := 16 * n + (if hi then 8 else 0)
/-- Offset of WSTAT of a slot (R133). -/
def wstatOff (core slot : Nat) : Nat := 0x10000 + 8 * (8 * core + slot)
/-- Offset of RTAB[t] slot `i` (R232). -/
def rtabOff (t i : Nat) (hi : Bool) : Nat := 0x2000000 + t * 0x10000 + 16 * i + (if hi then 8 else 0)
/-- Offset of HTAB[t][tag] (R106). -/
def htabOff (t tag : Nat) : Nat := 0x2800000 + t * 0x800 + 8 * tag
/-- Offset of word `w` of TENANT[t] (R255). -/
def tenantOff (t w : Nat) : Nat := 0x3000000 + t * 0x100 + 8 * w
/-- Offset of SEAL[n] (R267). -/
def sealOff (n : Nat) : Nat := 0x3100000 + 8 * n
/-- Offset of SEALUSE[n] (R284). -/
def sealUseOff (n : Nat) : Nat := 0x3180000 + 8 * n
/-- Offset of word `w` of IMGREC[n] (R271). -/
def imgrecOff (n w : Nat) : Nat := 0x3200000 + 64 * n + 8 * w

/-- Word `w` of TENANT[t]. -/
def tenantWord (s : State) (t w : Nat) : Word := ctlGet s (tenantOff t w)
/-- Interface state of a TI (Table 13.1): 0 CONFIG_UNLOCKED, 1 CONFIG_LOCKED, 2 RUN, 3 ERROR, 4 DRAINING. -/
def tiState (s : State) (t : Nat) : Nat := fieldNat (tenantWord s t 0) 2 0

/-! ### The home map (R133 to R135) -/

/-- A home-map entry, read from its two words (Tables 05.4, 05.5). -/
structure HEntry where
  n        : Nat
  kind     : Nat
  sealed   : Bool
  cls      : Nat
  owner    : Nat
  base     : Nat
  size     : Nat
  hashed   : Bool
  busy     : Bool
  pool     : Nat
  dieMask  : Nat
  clMask   : Nat
  coreMask : Nat
  deriving DecidableEq, Repr

/-- HMAP[n] as two words give it, when VALID, KIND and SIZE make it an entry (Table 05.4). -/
def hEntryOf (n : Nat) (w0 w1 : Word) : Option HEntry :=
  let sz := fieldNat w0 49 45
  if bitOf w0 63 && decide (fieldNat w0 62 61 ≠ 3) && decide (16 ≤ sz) && decide (sz ≤ 39) &&
      decide (fieldNat w0 23 0 * 0x10000 % 2 ^ sz = 0) then
    some { n := n, kind := fieldNat w0 62 61, sealed := bitOf w0 60, cls := fieldNat w0 59 58,
           owner := fieldNat w0 55 50, base := fieldNat w0 23 0 * 0x10000, size := 2 ^ sz, hashed := bitOf w0 44,
           busy := bitOf w0 43, pool := fieldNat w1 57 48, dieMask := fieldNat w1 35 32,
           clMask := fieldNat w1 31 16, coreMask := fieldNat w1 15 0 }
  else none

/-- HMAP[n]. -/
def hEntry (s : State) (n : Nat) : Option HEntry :=
  hEntryOf n (ctlGet s (hmapOff n false)) (ctlGet s (hmapOff n true))

/-- The members of an entry's group, by core number (R134). -/
def members (s : State) (e : HEntry) : List Nat :=
  if e.hashed then
    (List.range 1024).filter fun c =>
      coreEnabled s c && e.dieMask.testBit (c / 256) && e.clMask.testBit (c / 16 % 16) && e.coreMask.testBit (c % 16)
  else if coreEnabled s (e.coreMask % 1024) then [e.coreMask % 1024] else []

/-- The region covers a local address. -/
def HEntry.covers (e : HEntry) (a : Nat) : Bool := decide (e.base ≤ a) && decide (a < e.base + e.size)

/-- The indices of HMAP entries that have been written; an entry never written is not VALID (Table 05.4). -/
def hIndices (s : State) : List Nat :=
  (s.ctl.filter fun e => decide (e.1 < 0x10000) && decide (e.1 % 16 = 0)).map fun e => e.1 / 16

/-- A range of local addresses takes in part of a retired bank, or of the module DRAM above MODCAP (R331). -/
def overRetired (s : State) (lo n : Nat) : Bool :=
  ((List.range 64).any fun k => bankRetired s (k * 2 ^ 31) && decide (lo < (k + 1) * 2 ^ 31) && decide (k * 2 ^ 31 < lo + n)) ||
    (decide (0x8000000000 + s.conf.modcap < min (lo + n) 0xFE00000000) && decide (lo < 0xFE00000000))

/-- A valid entry has an enabled member and lies over no retired range (R331). VALID of one over a retired range reads as it
was written (DESIGN CHOICE, log entry 4). -/
def HEntry.stands (s : State) (e : HEntry) : Bool := !(members s e).isEmpty && !overRetired s e.base e.size

/-- The valid region that covers a local address (R126 step 4). -/
def regionAt (s : State) (a : Nat) : Option HEntry :=
  ((hIndices s).filterMap (hEntry s)).find? fun e => e.covers a && e.stands s

/-- The home of a line under an entry (R134). -/
def homeIn (s : State) (e : HEntry) (a : Nat) : Nat :=
  if e.hashed then
    let ms := members s e
    let l := a / 64
    ms.getD (((l % 2 ^ 17) ^^^ ((l >>> 17) % 2 ^ 17)) % ms.length) 0
  else e.coreMask % 1024

/-- HOME(a): the core that serialises every change to the word at a local address (R125, R134). -/
def homeOf (s : State) (a : Nat) : Option Nat :=
  match placeOf s a with
  | .window _ c _ => some c
  | .dram => (regionAt s a).map fun e => homeIn s e a
  | _ => none

/-! ### Ownership (R132, R210) -/

/-- A tenant's scratchpad window [SPLO, SPHI) (R132, Table 13.1). -/
def spWindow (s : State) (t : Nat) : Nat × Nat :=
  (fieldNat (tenantWord s t 5) 19 0, fieldNat (tenantWord s t 5) 51 32)

/-- Scratchpad offsets [o, o + n) lie in the tenant's window. -/
def spOwns (s : State) (t o n : Nat) : Bool :=
  let w := spWindow s t
  decide (w.1 ≤ o) && decide (o + n ≤ w.2)

/-! ### Windows (R127 to R130) -/

/-- The E8M0 scale byte's scratchpad offset of a block through W2 to W4 (R127): `o` the element's offset, `w` the
window. -/
def scaleOff (w o : Nat) : Nat := 0x78000 + (if w = 4 then o / 16 else o / 32)

/-- The bytes an access of `n` result bytes consumes or writes through a window (Table 05.3). -/
def windowBytes (w n : Nat) : Nat :=
  if w = 0 then n else if decide (w ≤ 3) then n / 2 else if w = 4 then n / 4 else n

/-! ### The checks of Table 05.2 -/

/-- What an access does, for the checks: whether it writes, its size, and what its own entry restricts. -/
structure Access where
  write     : Bool
  size      : Nat
  align     : Nat
  /-- W1 to W7 are refused (amo, lx.q, vldx, vstx, tagr, tagw, wset). -/
  w0Only    : Bool
  /-- Control space is refused even to a trusted image (R458). -/
  noCtl     : Bool
  /-- Only the issuing package is allowed. -/
  ownPkg    : Bool
  deriving DecidableEq, Repr

/-- Step 6: the tenant owns every byte the access consumes or writes; a trusted image is exempt (R210). -/
def ownsAccess (s : State) (t : Nat) (trusted : Bool) (a : Nat) (acc : Access) : Bool :=
  trusted ||
  match placeOf s a with
  | .window w _ o =>
    if w = 0 then spOwns s t o acc.size
    else if w = 1 then spOwns s t o (windowBytes w acc.size)
    else if w ≤ 4 then
      spOwns s t o (windowBytes w acc.size) &&
      spOwns s t (scaleOff w o) (scaleOff w (o + windowBytes w acc.size - 1) - scaleOff w o + 1)
    else spOwns s t (512 * (o / 512)) 512
  | .dram => match regionAt s a with
    | some e => decide (e.owner = t)
    | none => false
  | .control _ => true
  | _ => false

/-- The alignment rules of the windows, beyond step 2 (R128): sizes b and h are refused through W1 to W7, the offset is
a multiple of the bytes consumed, or of the result count through W5 to W7. -/
def windowAligned (w o : Nat) (acc : Access) : Bool :=
  w == 0 || acc.w0Only ||
  (decide (4 ≤ acc.size) &&
    (if w ≤ 4 then decide (o % windowBytes w acc.size = 0) else decide (o % acc.size = 0)))

/-- Table 05.2, steps 3 to 7, for a local address under a tenant, and the alignment of R128. The answer is the first
failing cause. -/
def checkLocal (s : State) (t : Nat) (trusted : Bool) (a : Nat) (acc : Access) : Option Nat :=
  let p := placeOf s a
  match p with
  | .carveOut => some 0x11
  | .unmapped => some 0x11
  | .control _ => if trusted && !acc.noCtl then none else some 0x11
  | .window w _ _ =>
    if decide (w ≠ 0) && acc.w0Only then some 0x11
    else if decide (2 ≤ w) && acc.write then some 0x12
    else if !(ownsAccess s t trusted a acc) then some 0x04
    else none
  | .dram =>
    match regionAt s a with
    | none => some 0x11
    | some e =>
      if !(ownsAccess s t trusted a acc) then some 0x04
      else if acc.write && e.sealed then some 0x03
      else none

/-- The window and the scratchpad offset of a local address, by the map alone (Table 05.1, R127). -/
def rawWindow (a : Nat) : Option (Nat × Nat) :=
  if decide (0x2000000000 ≤ a) && decide (a < 0x2100000000) then
    some ((a - 0x2000000000) / 0x20000000, (a - 0x2000000000) % 0x80000)
  else none

/-- Step 2: the address is a multiple of the access size; through W1 to W7 the rule of R128 takes its place. -/
def alignedFor (a : Nat) (acc : Access) : Bool :=
  match rawWindow a with
  | some (w, o) => if decide (w = 0) || acc.w0Only then decide (a % acc.align = 0) else windowAligned w o acc
  | none => decide (a % acc.align = 0)

/-- Table 05.2 for an access of the running task to a 64-bit address: steps 1 and 2, the restriction to the issuing
package, and for a local address steps 3 to 7 (a remote target runs those itself, R126). -/
def checkAccess (s : State) (t : Nat) (trusted : Bool) (a : Word) (acc : Access) : Option Nat :=
  if fieldNat a 63 56 ≠ 0 then some 0x11
  else if !(alignedFor (localOf a) acc) then some 0x07
  else if !(isLocal s a) then (if acc.ownPkg then some 0x11 else none)
  else checkLocal s t trusted (localOf a) acc

/-- An access of `n` bytes in mode pl by `lx`, `sx` or a base form. -/
def plainAccess (write : Bool) (n : Nat) : Access := ⟨write, n, n, false, false, false⟩

/-- The region at an address is sealed; its reads enter no signature (R112). -/
def regionSealed (s : State) (a : Nat) : Bool :=
  match placeOf s a with
  | .dram => match regionAt s a with
    | some e => e.sealed
    | none => false
  | _ => false

end Sys2Proof.Machine
end

