-- ==== Sys2Proof/Machine/Tasks.lean ====
section
/-! DEFINITION. The tasks of the machine: the one that executes, the others, and the queues they stand in. A queue is the
tasks of one status; its order is that of the tasks' keys, which rise in order of creation (R86 to R89, R123). -/

namespace Sys2Proof.Machine

/-! ### The task that executes -/

/-- Change the executing task. -/
def modCur (s : State) (f : Task → Task) : State := { s with cur := f s.cur }
/-- Change the executing task's registers. -/
def modCtx (s : State) (f : Ctx → Ctx) : State := { s with cur := { s.cur with ctx := f s.cur.ctx } }
/-- Change the executing task's chunk. -/
def modChunk (s : State) (f : Chunk → Chunk) : State := { s with cur := { s.cur with chunk := f s.cur.chunk } }

/-- A task is there: the slot is not empty. -/
def isTask (t : Task) : Bool := t.status != .vacant

/-- Insert a task by its key. -/
def insertTask (t : Task) : List Task → List Task
  | [] => [t]
  | x :: xs => if t.key < x.key then t :: x :: xs else x :: insertTask t xs

/-- Every task of the machine, oldest first. -/
def allTasks (s : State) : List Task := if isTask s.cur then insertTask s.cur s.tasks else s.tasks

/-- The same change to every task. -/
def mapTasks (s : State) (f : Task → Task) : State :=
  { s with cur := if isTask s.cur then f s.cur else s.cur, tasks := s.tasks.map f }

/-- No task executes: the executing one joins the others. -/
def park (s : State) : State :=
  { s with cur := Task.vacant s.cur.core, tasks := if isTask s.cur then insertTask s.cur s.tasks else s.tasks }

/-- Make the task of a key the executing one. -/
def focus (s : State) (k : Nat) : State :=
  if isTask s.cur && s.cur.key == k then s
  else
    let p := park s
    match p.tasks.find? (fun t => t.key == k) with
    | some t => { p with cur := t, tasks := p.tasks.filter (fun t => t.key != k) }
    | none => p

/-- Perform an operation on the executing task for another task, and return to the one that executes. -/
def onTask (s : State) (k : Nat) (f : State → State) : State :=
  if isTask s.cur && s.cur.key == k then f s
  else
    let t := f (focus s k)
    if isTask s.cur then focus t s.cur.key else { park t with cur := s.cur }

/-- The task of a key. -/
def findTask (s : State) (k : Nat) : Option Task := (allTasks s).find? fun t => t.key == k

/-- Perform an operation for each of several tasks in turn. -/
def onTasks (s : State) (ks : List Nat) (f : State → State) : State := ks.foldl (fun s k => onTask s k f) s

/-! ### Where tasks stand -/

/-- The slot a task is resident in. -/
def Task.slot? (t : Task) : Option Nat :=
  match t.status with
  | .resident n => some n
  | _ => none

/-- The resident tasks of a core. -/
def residents (s : State) (core : Nat) : List Task := (allTasks s).filter fun t => t.core == core && t.slot?.isSome

/-- The task in a thread slot. -/
def taskAt (s : State) (core slot : Nat) : Option Task :=
  (allTasks s).find? fun t => t.core == core && t.slot? == some slot

/-- An entry of its core's run queue: unstarted, or started and yielded (R86). -/
def Task.queued (t : Task) : Bool :=
  match t.status with
  | .unstarted => true
  | .yielded => true
  | _ => false

/-- Entries of a core's run queue (R86). -/
def queueLen (s : State) (core : Nat) : Nat := ((allTasks s).filter fun t => t.core == core && t.queued).length

/-- The run queue holds 64 entries (R86). -/
def queueFull (s : State) (core : Nat) : Bool := decide (64 ≤ queueLen s core)

/-- Thread slots of a core that are free and held for no gang (R96, R97). -/
def freeSlots (s : State) (core : Nat) : List Nat :=
  (List.range 8).filter fun n => (taskAt s core n).isNone

/-- The tenant is pre-empted for tasks of the named class of image: by a service request, by a trusted request for
code-class images (R285), or because its interface is in ERROR or is torn down (R279, R281). -/
def preempted (s : State) (tenant : Nat) (trusted : Bool) : Bool :=
  s.pre.svc.getLsbD tenant || (s.pre.tr.getLsbD tenant && !trusted) || tiState s tenant == 3 || tiState s tenant == 4

/-- A task that must not run while its tenant stays pre-empted. -/
def halts (s : State) (t : Task) : Bool := preempted s t.tenant t.trusted

/-- Task numbers held on a core by a tenant's started tasks and inline children (R85, R420). -/
def numbersHeld (s : State) (core tenant : Nat) : List Nat :=
  (allTasks s).flatMap fun t =>
    if t.started && t.core == core && t.tenant == tenant then
      t.number :: (match t.inline with
        | some i => [i.number]
        | none => [])
    else []

/-- The lowest free task number of a tenant on a core (R85). -/
def freeNumber (s : State) (core tenant : Nat) : Option Nat :=
  (List.range 72).find? fun k => !(numbersHeld s core tenant).contains k

/-- Message buffer entries of a core: messages not yet tasks, and current messages of its tasks (R87, R382). -/
def bufferLen (s : State) (core : Nat) : Nat :=
  (Tab.get s.sched.arrivals core []).length + (s.sched.enWait.filter fun e => e.1 == core).length +
    (((allTasks s).filter fun t => t.core == core).map fun t =>
      (if t.msg.isSome then 1 else 0) + (match t.inline with
        | some i => if i.msg.isSome then 1 else 0
        | none => 0)).sum

/-- A core's row, cluster and die (R5 to R8). -/
def rowOf (core : Nat) : Nat := core / 8
def clusterOf (core : Nat) : Nat := core / 16
def dieOf (core : Nat) : Nat := core / 256

/-- The place of a slot's entry among those that reach a queue in one cycle: the queue's own cores first, in order of core and
slot, then other cores in order of number (R123). A core's own home handler stands as a ninth slot. -/
def sourceRank (own : Bool) (core slot : Nat) : Nat := if own then 16 * (core % 16) + slot else 256 + core

/-- The same for a sender by its name, package and core, and its slot: senders of other packages come after those of this one,
by package and core (DESIGN CHOICE, log entry 59); a queue's own device entries come last. -/
def senderRank (s : State) (core src slot : Nat) : Nat :=
  if src / 1024 ≠ s.conf.pkg then 2048 + src else sourceRank (src % 1024 == core) (src % 1024) slot

/-- A fresh name. -/
def bumpKey (s : State) : State := { s with nextKey := s.nextKey + 1 }

/-- Add a task under the next key. -/
def addTask (s : State) (t : Task) : State :=
  bumpKey { s with tasks := insertTask { t with key := s.nextKey } s.tasks }

end Sys2Proof.Machine
end

