-- ==== Sys2Proof/Machine/Flags.lean ====
section
/-! DEFINITION. The sticky flags (R187, Table 07.1): a set of flags is the eight bits of the table. -/

namespace Sys2Proof.Machine

/-- The flags of Table 07.1. -/
abbrev FlagSet := BitVec 8

namespace FlagSet

def none : FlagSet := 0
/-- NV, invalid. -/
def nv : FlagSet := 0x01
/-- DZ, divide by zero. -/
def dz : FlagSet := 0x02
/-- OF, overflow. -/
def of : FlagSet := 0x04
/-- UF, tiny after rounding and inexact. -/
def uf : FlagSet := 0x08
/-- NX, inexact. -/
def nx : FlagSet := 0x10
/-- FLI, fzi replaced an input. -/
def fli : FlagSet := 0x20
/-- FLO, fzo replaced a result. -/
def flo : FlagSet := 0x40
/-- SAT, a conversion saturated. -/
def sat : FlagSet := 0x80

/-- The flag when a condition holds. -/
def when (c : Bool) (f : FlagSet) : FlagSet := if c then f else none

/-- The union of the flags of several elements (R438). -/
def union (fs : List FlagSet) : FlagSet := fs.foldl (· ||| ·) none

end FlagSet

/-- Raise sticky flags in a task's registers: only the operation that raises a flag sets it, and none clears (R187). -/
def raiseFlags (c : Ctx) (f : FlagSet) : Ctx := { c with flags := c.flags ||| f }

end Sys2Proof.Machine
end

