-- ==== Sys2Proof/Machine/Operands.lean ====
section
/-! DEFINITION. Register operands: general, vector and mask registers with their tags, ain and dep (R69 to R72, R380),
the order of an instruction's readiness, and the advance to the next instruction (R73, R407). -/

namespace Sys2Proof.Machine

/-! ### Reading -/

/-- G[r] as it stands, with g0 zero; g28 and g29 have no stored value (R69). -/
def getG (c : Ctx) (r : Reg) : Word := if r = 0 then 0 else c.g[r.toNat]'(r.isLt)

/-- V[r]. -/
def getV (c : Ctx) (r : Reg) : VWord := c.v[r.toNat]'(r.isLt)

/-- M[r]: m0 reads all ones (R380). -/
def getM (c : Ctx) (r : Reg) : Word :=
  let n := r.toNat % 8
  if n = 0 then BitVec.allOnes 64 else c.m.getD n 0

/-- The next neighbours of a register, modulo 32 (R407). -/
def regPlus (r : Reg) (n : Nat) : Reg := r + BitVec.ofNat 5 n

/-- Words of the current message not yet read (R70, R381). -/
def ainLeft (t : Task) : Nat :=
  match t.msg with
  | some m => if t.ctx.msgDone then 0 else m.words.length - t.ctx.msgPos
  | none => 0

/-- Words of the current message that have arrived and are not yet read (R70). -/
def ainHere (t : Task) : Nat :=
  match t.msg with
  | some m => ainLeft t - m.missing
  | none => 0

/-- Read a source register: g28 pops the current message, g29 reads the length of the send queue (R70). -/
def takeG (t : Task) (r : Reg) : Word × Task :=
  if r = 28 then
    ((match t.msg with
      | some m => m.words.getD t.ctx.msgPos 0
      | none => 0), { t with ctx := { t.ctx with msgPos := t.ctx.msgPos + 1 } })
  else if r = 29 then (BitVec.ofNat 64 t.ctx.sendq.length, t)
  else (getG t.ctx r, t)

/-- The low 32 bits of a policy register as ORD and SCOPE (Table 05.7). -/
def policyOrd (w : Word) : Nat := fieldNat w 9 8
def policyScope (w : Word) : Nat := fieldNat w 11 10

/-! ### Writing -/

/-- G[r] ← v: g0 and g28 discard, g29 pushes (R69, R70). -/
def setG (c : Ctx) (r : Reg) (v : Word) : Ctx :=
  if r = 0 then c
  else if r = 28 then c
  else if r = 29 then { c with sendq := c.sendq ++ [v] }
  else { c with g := c.g.set r.toNat v r.isLt }

/-- V[r] ← v. -/
def setV (c : Ctx) (r : Reg) (v : VWord) : Ctx := { c with v := c.v.set r.toNat v r.isLt }

/-- M[r] ← v, for m1 to m7 (R380). -/
def setM (c : Ctx) (r : Reg) (v : Word) : Ctx :=
  if r.toNat % 8 = 0 then c else { c with m := c.m.set (r.toNat % 8) v (Nat.mod_lt _ (by decide)) }

/-- Values still to arrive into the send queue (R70). -/
def depPending (t : Task) : Nat := (t.inflight.filter fun f => f.dest == .g 29).length

/-- The send queue has room for `n` more words, counting those still to arrive (R70). -/
def depRoom (t : Task) (n : Nat) : Bool := decide (t.ctx.sendq.length + depPending t + n ≤ 8)

/-- A write to this destination finds room: always, but for g29 (R70), where words still to arrive count against a
fixed-latency write too (DESIGN CHOICE, log entry 59). -/
def destRoom (t : Task) (d : Reg) : Bool := d != 29 || depRoom t 1

/-! ### Tags -/

/-- The tag of a general register; g0, g28 and g29 are never empty (R69, R70). -/
def fullG (c : Ctx) (r : Reg) : Bool := r == 0 || r == 28 || r == 29 || c.gFull.getLsbD r.toNat
/-- The tag of a vector register. -/
def fullV (c : Ctx) (r : Reg) : Bool := c.vFull.getLsbD r.toNat

/-- Set or clear bit `n` of a tag word. -/
def putBit (w : BitVec 32) (n : Nat) (b : Bool) : BitVec 32 :=
  if b then w ||| (1#32 <<< n) else w &&& ~~~(1#32 <<< n)

/-- Set the tag of the register a value is to reach. -/
def tagDest (c : Ctx) (d : Dest) (b : Bool) : Ctx :=
  match d with
  | .g r => if r = 0 then c else if r = 28 then c else if r = 29 then c else { c with gFull := putBit c.gFull r.toNat b }
  | .g2 r =>
    let c := { c with gFull := putBit c.gFull r.toNat b }
    { c with gFull := putBit c.gFull (r.toNat + 1) b }
  | .v r => { c with vFull := putBit c.vFull r.toNat b }
  | .drop => c

/-- Write an arriving value: a pair takes the low word and the word above it (R376). -/
def writeDest (c : Ctx) (d : Dest) (v : VWord) : Ctx :=
  match d with
  | .g r => setG c r (v.truncate 64)
  | .g2 r => setG (setG c r (v.truncate 64)) (regPlus r 1) ((v >>> 64).truncate 64)
  | .v r => setV c r v
  | .drop => c

/-- Bytes of a size. -/
def MemSize.bytes : MemSize → Nat
  | .b => 1
  | .h => 2
  | .w => 4
  | .d => 8

/-! ### Readiness (R72, R99, R207) -/

/-- What an instruction needs of the registers: its sources and destinations, and its X bit. -/
structure Needs where
  x  : Bool
  gs : List Reg
  gd : List Reg
  vs : List Reg
  vd : List Reg
  deriving DecidableEq, Repr

/-- Sources and destinations among the general registers. -/
def Needs.g (gs gd : List Reg) : Needs := ⟨false, gs, gd, [], []⟩

/-- What the registers say: issue, stall, or cause 0x05. -/
inductive Readiness where
  | ready | stall | empty5
  deriving DecidableEq, Repr

/-- A held access has been answered: its registers were read when it issued, and its destination's tag marks it until the
instruction ends (R71, R457). -/
def answeredHold (t : Task) : Bool :=
  match t.hold with
  | some (.answer _ _ _) => true
  | _ => false

/-- R72, R70, R207 step 3: an empty source stalls, or with X = 1 raises cause 0x05, and so does a word of the current message
that is still to arrive; an exhausted ain raises it whatever the X bit; an empty destination waits. -/
def readiness (t : Task) (n : Needs) : Readiness :=
  let pops := (n.gs.filter fun r => r == 28).length
  let emptySrc := (n.gs.any fun r => !fullG t.ctx r) || (decide (ainHere t < pops) && decide (pops ≤ ainLeft t))
  let emptyElse := (n.gd.any fun r => !fullG t.ctx r) || (n.vs.any fun r => !fullV t.ctx r) ||
    (n.vd.any fun r => !fullV t.ctx r)
  if answeredHold t then .ready
  else if emptySrc then (if n.x then .empty5 else .stall)
  else if emptyElse then .stall
  else if ainLeft t < pops then .empty5
  else .ready

/-! ### The next instruction -/

/-- The pc and the repetition state after an instruction that does not transfer control (R73, R407). -/
def advance (c : Ctx) : Ctx :=
  match c.rep with
  | none => { c with pc := c.pc + 4 }
  | some r =>
    if r.pos + 1 < r.len then { c with pc := c.pc + 4, rep := some { r with pos := r.pos + 1 } }
    else if r.pass + 1 < r.count then { c with pc := r.base, rep := some { r with pass := r.pass + 1, pos := 0 } }
    else { c with pc := c.pc + 4, rep := none }

/-- One more instruction of the chunk has executed (R110). -/
def countInstr (c : Chunk) : Chunk := { c with instrs := c.instrs + 1 }

/-- A task after an instruction that ends inside its chunk. -/
def Task.retire (t : Task) : Task := { t with ctx := advance t.ctx, chunk := countInstr t.chunk }

/-- The values in flight to g1 reach it, those of earlier chunks also in what an abort restores (R114): an operation that itself
writes g1 waits for them, so that its write is the later one (R72). -/
def landLink (t : Task) : Task :=
  let mine := fun (f : InFlight) => f.dest == .g 1
  let put := fun (c : Ctx) (f : InFlight) => tagDest (writeDest c f.dest f.val) f.dest true
  let fs := t.inflight.filter mine
  { t with ctx := fs.foldl put t.ctx
           chunk := { t.chunk with start := (fs.filter fun f => f.old).foldl put t.chunk.start }
           inflight := t.inflight.filter fun f => !mine f }

/-- A new chunk begins at the task's registers as they stand (R110); values in flight now belong to earlier chunks. -/
def Task.newChunk (t : Task) (time : Nat) : Task :=
  { t with chunk := Chunk.begin t.ctx time false, inflight := t.inflight.map fun f => { f with old := true } }

/-- A task after an operation that stands alone: the next chunk begins at the next instruction (R111). -/
def Task.retireAlone (t : Task) (time : Nat) : Task := Task.newChunk { t with ctx := advance t.ctx } time

/-- A task that gives up the wait of the first instruction of its chunk, which has read its operands and does so again. -/
def Task.unread (t : Task) : Task := { t with hold := none, ctx := { t.ctx with msgPos := t.chunk.start.msgPos } }

/-- The executing task ends its instruction inside its chunk. -/
def retire (s : State) (t : Task) : State := { s with cur := t.retire }
/-- The executing task ends an operation that stands alone. -/
def retireAlone (s : State) (t : Task) : State := { s with cur := t.retireAlone s.time }

end Sys2Proof.Machine
end

