-- ==== Sys2Proof/Machine/Regs.lean ====
section
/-! DEFINITION. What each instruction names among the registers, for the choice of a slot (R99) and for the repetition
buffer (R73, R74, R407). -/

namespace Sys2Proof.Machine

/-- The registers an instruction reads and writes (R72, R99). A step of another unit names none. -/
def instrNeeds : Instr → Needs
  | .add d a b => .g [a, b] [d]
  | .sub d a b => .g [a, b] [d]
  | .addw d a b => .g [a, b] [d]
  | .subw d a b => .g [a, b] [d]
  | .addi d a _ => .g [a] [d]
  | .addiw d a _ => .g [a] [d]
  | .and d a b => .g [a, b] [d]
  | .or d a b => .g [a, b] [d]
  | .xor d a b => .g [a, b] [d]
  | .andi d a _ => .g [a] [d]
  | .ori d a _ => .g [a] [d]
  | .xori d a _ => .g [a] [d]
  | .slt d a b => .g [a, b] [d]
  | .sltu d a b => .g [a, b] [d]
  | .slti d a _ => .g [a] [d]
  | .sltiu d a _ => .g [a] [d]
  | .sll d a b => .g [a, b] [d]
  | .srl d a b => .g [a, b] [d]
  | .sra d a b => .g [a, b] [d]
  | .sllw d a b => .g [a, b] [d]
  | .srlw d a b => .g [a, b] [d]
  | .sraw d a b => .g [a, b] [d]
  | .slli d a _ => .g [a] [d]
  | .srli d a _ => .g [a] [d]
  | .srai d a _ => .g [a] [d]
  | .slliw d a _ => .g [a] [d]
  | .srliw d a _ => .g [a] [d]
  | .sraiw d a _ => .g [a] [d]
  | .mul d a b => .g [a, b] [d]
  | .mulh d a b => .g [a, b] [d]
  | .mulhsu d a b => .g [a, b] [d]
  | .mulhu d a b => .g [a, b] [d]
  | .mulw d a b => .g [a, b] [d]
  | .div d a b => .g [a, b] [d]
  | .divu d a b => .g [a, b] [d]
  | .rem d a b => .g [a, b] [d]
  | .remu d a b => .g [a, b] [d]
  | .divw d a b => .g [a, b] [d]
  | .divuw d a b => .g [a, b] [d]
  | .remw d a b => .g [a, b] [d]
  | .remuw d a b => .g [a, b] [d]
  | .lui d _ => .g [] [d]
  | .auipc d _ => .g [] [d]
  | .jal d _ => .g [] [d]
  | .jalr d a _ => .g [a] [d]
  | .beq a b _ => .g [a, b] []
  | .bne a b _ => .g [a, b] []
  | .blt a b _ => .g [a, b] []
  | .bge a b _ => .g [a, b] []
  | .bltu a b _ => .g [a, b] []
  | .bgeu a b _ => .g [a, b] []
  | .lb d a _ => .g [a] [d]
  | .lh d a _ => .g [a] [d]
  | .lw d a _ => .g [a] [d]
  | .ld d a _ => .g [a] [d]
  | .lbu d a _ => .g [a] [d]
  | .lhu d a _ => .g [a] [d]
  | .lwu d a _ => .g [a] [d]
  | .sb a b _ => .g [a, b] []
  | .sh a b _ => .g [a, b] []
  | .sw a b _ => .g [a, b] []
  | .sd a b _ => .g [a, b] []
  | .lx _ _ _ x d a p => ⟨x, [a, p], [d], [], []⟩
  | .lxQ _ _ x d a p => ⟨x, [a, p], [d, regPlus d 1], [], []⟩
  | .sx _ _ _ x v a p => ⟨x, [v, a, p], [], [], []⟩
  | .amo _ o x d a b => ⟨x, if o = .cas then [a, b, d] else [a, b], [d], [], []⟩
  | .tagr d a => .g [a] [d]
  | .tagw a b => .g [a, b] []
  | .seal h b l => .g [b, l] [h]
  | .unseal h => .g [h] []
  | .fenceC => .g [] []
  | .fenceD => .g [] []
  | .fenceP => .g [] []
  | .fenceS => .g [] []
  | .cwait _ => .g [] []
  | .dwb b l => .g [b, l] []
  | .icinv b l => .g [b, l] []
  | .fbar => .g [] []
  | .bchk a l h => .g [a, l, h] []
  | .spawn d t e => .g [t, e, 4, 10, 11, 12, 13] [d]
  | .spawnOrd d t e => .g [t, e, 4, 10, 11, 12, 13] [d]
  | .spawnRow d t e => .g [t, e, 4, 10, 11, 12, 13] [d]
  | .spawnCl d t e => .g [t, e, 4, 10, 11, 12, 13] [d]
  | .msg d n _ _ => .g [n] [d]
  | .mdone => .g [] []
  | .wset _ _ a b => .g [a, b] []
  | .wait _ _ d t => .g [t] [d]
  | .tend => .g [] []
  | .yield => .g [] []
  | .cmt => .g [] []
  | .gsyncRow => .g [] []
  | .gsyncCl => .g [] []
  | .brk => .g [] []
  | .trap _ => .g [] []
  | .getst d _ => .g [] [d]
  | .tgctl a b => .g [a, b] []
  | .slp t => .g [t] []
  | .rpt _ _ _ => .g [] []
  | .rpart d b => .g [b] [d]
  | .rpst d h => .g [h] [d]
  | .vadd _ _ d a b => ⟨false, [], [], [a, b], [d]⟩
  | .vsub _ _ d a b => ⟨false, [], [], [a, b], [d]⟩
  | .vmul _ _ d a b => ⟨false, [], [], [a, b], [d]⟩
  | .vmin _ _ d a b => ⟨false, [], [], [a, b], [d]⟩
  | .vmax _ _ d a b => ⟨false, [], [], [a, b], [d]⟩
  | .vminu _ _ d a b => ⟨false, [], [], [a, b], [d]⟩
  | .vmaxu _ _ d a b => ⟨false, [], [], [a, b], [d]⟩
  | .vand _ _ d a b => ⟨false, [], [], [a, b], [d]⟩
  | .vor _ _ d a b => ⟨false, [], [], [a, b], [d]⟩
  | .vxor _ _ d a b => ⟨false, [], [], [a, b], [d]⟩
  | .vsll _ _ d a b => ⟨false, [], [], [a, b], [d]⟩
  | .vsrl _ _ d a b => ⟨false, [], [], [a, b], [d]⟩
  | .vsra _ _ d a b => ⟨false, [], [], [a, b], [d]⟩
  | .vfadd _ _ _ _ d a b => ⟨false, [], [], [a, b], [d]⟩
  | .vfsub _ _ _ _ d a b => ⟨false, [], [], [a, b], [d]⟩
  | .vfmul _ _ _ _ d a b => ⟨false, [], [], [a, b], [d]⟩
  | .vfma _ _ _ _ d a b => ⟨false, [], [], [d, a, b], [d]⟩
  | .vfmin _ _ _ _ d a b => ⟨false, [], [], [a, b], [d]⟩
  | .vfmax _ _ _ _ d a b => ⟨false, [], [], [a, b], [d]⟩
  | .vfdiv _ _ _ _ d a b => ⟨false, [], [], [a, b], [d]⟩
  | .vfsqrt _ _ _ _ d a => ⟨false, [], [], [a], [d]⟩
  | .vfcmp _ _ _ _ _ _ a b => ⟨false, [], [], [a, b], []⟩
  | .vld d a => ⟨false, [a], [], [], [d]⟩
  | .vst v a => ⟨false, [a], [], [v], []⟩
  | .vldx d b i => ⟨false, [b], [], [i], [d]⟩
  | .vstx v b i => ⟨false, [b], [], [v, i], []⟩
  | .vperm d s i => ⟨false, [], [], [s, i], [d]⟩
  | .vbcast d s _ => ⟨false, [s], [], [], [d]⟩
  | .vmvVg d s _ => ⟨false, [s], [], [], [d]⟩
  | .vmvGv d s _ => ⟨false, [], [d], [s], []⟩
  | .vsel d a b => ⟨false, [], [], [a, b], [d]⟩
  | .vcmp _ _ _ a b => ⟨false, [], [], [a, b], []⟩
  | .vred _ _ d a => ⟨false, [], [], [a], [d]⟩
  | .vfcvt d a c => ⟨false, [], [], if decide (16 ≤ c.toNat) && decide (c.toNat ≤ 27) then [a, regPlus a 1] else [a], [d]⟩
  | .vfredAddF32 d a => ⟨false, [], [], [a], [d]⟩
  | .vfredAddBf16 d a => ⟨false, [], [], [a], [d]⟩
  | .vfredMaxF32 d a => ⟨false, [], [], [a], [d]⟩
  | .vfredMinF32 d a => ⟨false, [], [], [a], [d]⟩
  | .mand _ _ _ => .g [] []
  | .mor _ _ _ => .g [] []
  | .mxor _ _ _ => .g [] []
  | .mnot _ _ => .g [] []
  | .mpop d _ => .g [] [d]
  | .mfirst d _ => .g [] [d]
  | .sfckey d a k => ⟨false, [], [], if k.toNat % 2 = 0 then [a, regPlus a 1] else [a, regPlus a 1, regPlus a 2], [d]⟩
  | .mldA _ b i => ⟨false, [b], [], [i], []⟩
  | .mldB _ b s => .g [b, s] []
  | .mst _ a s => .g [a, s] []
  | .mzero _ => .g [] []
  | .mma _ _ _ _ k => .g [k] []
  | .cpy _ _ _ y n s e => .g (if y = .zero then [n, e] else [n, s, e]) [n]
  | .cpst d t => .g [t] [d]
  | .laccClr a => .g [a] []
  | .laccAdd a b => .g [a, b] []
  | .laccAddp d a b => .g [d, a, b] []
  | .laccMrg a b => .g [a, b] []
  | .laccRdF32 d a => .g [a] [d]
  | .laccRdF64 d a => .g [a] [d]
  | .nalloc d t => .g [t, 4] [d]
  | .nfree n => .g [n, 4] []
  | .nlink a b => .g [a, b, 4] []
  | .npush a b => .g [a, b, 4] []
  | .nrd d p => .g [p, 4] [d]
  | .nrset k e => .g [k, e] []
  | _ => .g [] []

/-- Add `pass` times the stride to every field that names a g or v register (R73). -/
def renumberInstr (i : Instr) (by' : Nat) : Instr :=
  match i with
  | .add d a b => .add (regPlus d by') (regPlus a by') (regPlus b by')
  | .sub d a b => .sub (regPlus d by') (regPlus a by') (regPlus b by')
  | .addw d a b => .addw (regPlus d by') (regPlus a by') (regPlus b by')
  | .subw d a b => .subw (regPlus d by') (regPlus a by') (regPlus b by')
  | .addi d a i => .addi (regPlus d by') (regPlus a by') i
  | .addiw d a i => .addiw (regPlus d by') (regPlus a by') i
  | .and d a b => .and (regPlus d by') (regPlus a by') (regPlus b by')
  | .or d a b => .or (regPlus d by') (regPlus a by') (regPlus b by')
  | .xor d a b => .xor (regPlus d by') (regPlus a by') (regPlus b by')
  | .andi d a i => .andi (regPlus d by') (regPlus a by') i
  | .ori d a i => .ori (regPlus d by') (regPlus a by') i
  | .xori d a i => .xori (regPlus d by') (regPlus a by') i
  | .slt d a b => .slt (regPlus d by') (regPlus a by') (regPlus b by')
  | .sltu d a b => .sltu (regPlus d by') (regPlus a by') (regPlus b by')
  | .slti d a i => .slti (regPlus d by') (regPlus a by') i
  | .sltiu d a i => .sltiu (regPlus d by') (regPlus a by') i
  | .sll d a b => .sll (regPlus d by') (regPlus a by') (regPlus b by')
  | .srl d a b => .srl (regPlus d by') (regPlus a by') (regPlus b by')
  | .sra d a b => .sra (regPlus d by') (regPlus a by') (regPlus b by')
  | .sllw d a b => .sllw (regPlus d by') (regPlus a by') (regPlus b by')
  | .srlw d a b => .srlw (regPlus d by') (regPlus a by') (regPlus b by')
  | .sraw d a b => .sraw (regPlus d by') (regPlus a by') (regPlus b by')
  | .slli d a s => .slli (regPlus d by') (regPlus a by') s
  | .srli d a s => .srli (regPlus d by') (regPlus a by') s
  | .srai d a s => .srai (regPlus d by') (regPlus a by') s
  | .slliw d a s => .slliw (regPlus d by') (regPlus a by') s
  | .srliw d a s => .srliw (regPlus d by') (regPlus a by') s
  | .sraiw d a s => .sraiw (regPlus d by') (regPlus a by') s
  | .mul d a b => .mul (regPlus d by') (regPlus a by') (regPlus b by')
  | .mulh d a b => .mulh (regPlus d by') (regPlus a by') (regPlus b by')
  | .mulhsu d a b => .mulhsu (regPlus d by') (regPlus a by') (regPlus b by')
  | .mulhu d a b => .mulhu (regPlus d by') (regPlus a by') (regPlus b by')
  | .mulw d a b => .mulw (regPlus d by') (regPlus a by') (regPlus b by')
  | .div d a b => .div (regPlus d by') (regPlus a by') (regPlus b by')
  | .divu d a b => .divu (regPlus d by') (regPlus a by') (regPlus b by')
  | .rem d a b => .rem (regPlus d by') (regPlus a by') (regPlus b by')
  | .remu d a b => .remu (regPlus d by') (regPlus a by') (regPlus b by')
  | .divw d a b => .divw (regPlus d by') (regPlus a by') (regPlus b by')
  | .divuw d a b => .divuw (regPlus d by') (regPlus a by') (regPlus b by')
  | .remw d a b => .remw (regPlus d by') (regPlus a by') (regPlus b by')
  | .remuw d a b => .remuw (regPlus d by') (regPlus a by') (regPlus b by')
  | .lui d i => .lui (regPlus d by') i
  | .auipc d i => .auipc (regPlus d by') i
  | .jal d i => .jal (regPlus d by') i
  | .jalr d a i => .jalr (regPlus d by') (regPlus a by') i
  | .beq a b i => .beq (regPlus a by') (regPlus b by') i
  | .bne a b i => .bne (regPlus a by') (regPlus b by') i
  | .blt a b i => .blt (regPlus a by') (regPlus b by') i
  | .bge a b i => .bge (regPlus a by') (regPlus b by') i
  | .bltu a b i => .bltu (regPlus a by') (regPlus b by') i
  | .bgeu a b i => .bgeu (regPlus a by') (regPlus b by') i
  | .lb d a i => .lb (regPlus d by') (regPlus a by') i
  | .lh d a i => .lh (regPlus d by') (regPlus a by') i
  | .lw d a i => .lw (regPlus d by') (regPlus a by') i
  | .ld d a i => .ld (regPlus d by') (regPlus a by') i
  | .lbu d a i => .lbu (regPlus d by') (regPlus a by') i
  | .lhu d a i => .lhu (regPlus d by') (regPlus a by') i
  | .lwu d a i => .lwu (regPlus d by') (regPlus a by') i
  | .sb a b i => .sb (regPlus a by') (regPlus b by') i
  | .sh a b i => .sh (regPlus a by') (regPlus b by') i
  | .sw a b i => .sw (regPlus a by') (regPlus b by') i
  | .sd a b i => .sd (regPlus a by') (regPlus b by') i
  | .lx z ss ww x d a p => .lx z ss ww x (regPlus d by') (regPlus a by') (regPlus p by')
  | .lxQ ss ww x d a p => .lxQ ss ww x (regPlus d by') (regPlus a by') (regPlus p by')
  | .sx z ss ww x v a p => .sx z ss ww x (regPlus v by') (regPlus a by') (regPlus p by')
  | .amo z o x d a b => .amo z o x (regPlus d by') (regPlus a by') (regPlus b by')
  | .tagr d a => .tagr (regPlus d by') (regPlus a by')
  | .tagw a b => .tagw (regPlus a by') (regPlus b by')
  | .seal h b l => .seal (regPlus h by') (regPlus b by') (regPlus l by')
  | .unseal h => .unseal (regPlus h by')
  | .dwb b l => .dwb (regPlus b by') (regPlus l by')
  | .icinv b l => .icinv (regPlus b by') (regPlus l by')
  | .bchk a l h => .bchk (regPlus a by') (regPlus l by') (regPlus h by')
  | .spawn d t e => .spawn (regPlus d by') (regPlus t by') (regPlus e by')
  | .spawnOrd d t e => .spawnOrd (regPlus d by') (regPlus t by') (regPlus e by')
  | .spawnRow d t e => .spawnRow (regPlus d by') (regPlus t by') (regPlus e by')
  | .spawnCl d t e => .spawnCl (regPlus d by') (regPlus t by') (regPlus e by')
  | .msg d n g c => .msg (regPlus d by') (regPlus n by') g c
  | .wset s c a b => .wset s c (regPlus a by') (regPlus b by')
  | .wait e y d t => .wait e y (regPlus d by') (regPlus t by')
  | .getst d n => .getst (regPlus d by') n
  | .tgctl a b => .tgctl (regPlus a by') (regPlus b by')
  | .slp t => .slp (regPlus t by')
  | .rpart d b => .rpart (regPlus d by') (regPlus b by')
  | .rpst d h => .rpst (regPlus d by') (regPlus h by')
  | .vadd t m d a b => .vadd t m (regPlus d by') (regPlus a by') (regPlus b by')
  | .vsub t m d a b => .vsub t m (regPlus d by') (regPlus a by') (regPlus b by')
  | .vmul t m d a b => .vmul t m (regPlus d by') (regPlus a by') (regPlus b by')
  | .vmin t m d a b => .vmin t m (regPlus d by') (regPlus a by') (regPlus b by')
  | .vmax t m d a b => .vmax t m (regPlus d by') (regPlus a by') (regPlus b by')
  | .vminu t m d a b => .vminu t m (regPlus d by') (regPlus a by') (regPlus b by')
  | .vmaxu t m d a b => .vmaxu t m (regPlus d by') (regPlus a by') (regPlus b by')
  | .vand t m d a b => .vand t m (regPlus d by') (regPlus a by') (regPlus b by')
  | .vor t m d a b => .vor t m (regPlus d by') (regPlus a by') (regPlus b by')
  | .vxor t m d a b => .vxor t m (regPlus d by') (regPlus a by') (regPlus b by')
  | .vsll t m d a b => .vsll t m (regPlus d by') (regPlus a by') (regPlus b by')
  | .vsrl t m d a b => .vsrl t m (regPlus d by') (regPlus a by') (regPlus b by')
  | .vsra t m d a b => .vsra t m (regPlus d by') (regPlus a by') (regPlus b by')
  | .vfadd y z u k d a b => .vfadd y z u k (regPlus d by') (regPlus a by') (regPlus b by')
  | .vfsub y z u k d a b => .vfsub y z u k (regPlus d by') (regPlus a by') (regPlus b by')
  | .vfmul y z u k d a b => .vfmul y z u k (regPlus d by') (regPlus a by') (regPlus b by')
  | .vfma y z u k d a b => .vfma y z u k (regPlus d by') (regPlus a by') (regPlus b by')
  | .vfmin y z u k d a b => .vfmin y z u k (regPlus d by') (regPlus a by') (regPlus b by')
  | .vfmax y z u k d a b => .vfmax y z u k (regPlus d by') (regPlus a by') (regPlus b by')
  | .vfdiv y z u k d a b => .vfdiv y z u k (regPlus d by') (regPlus a by') (regPlus b by')
  | .vfsqrt y z u k d a => .vfsqrt y z u k (regPlus d by') (regPlus a by')
  | .vfcmp c y z u k m a b => .vfcmp c y z u k m (regPlus a by') (regPlus b by')
  | .vld d a => .vld (regPlus d by') (regPlus a by')
  | .vst v a => .vst (regPlus v by') (regPlus a by')
  | .vldx d b i => .vldx (regPlus d by') (regPlus b by') (regPlus i by')
  | .vstx v b i => .vstx (regPlus v by') (regPlus b by') (regPlus i by')
  | .vperm d s i => .vperm (regPlus d by') (regPlus s by') (regPlus i by')
  | .vbcast d s w => .vbcast (regPlus d by') (regPlus s by') w
  | .vmvVg d s n => .vmvVg (regPlus d by') (regPlus s by') n
  | .vmvGv d s n => .vmvGv (regPlus d by') (regPlus s by') n
  | .vsel d a b => .vsel (regPlus d by') (regPlus a by') (regPlus b by')
  | .vcmp c t m a b => .vcmp c t m (regPlus a by') (regPlus b by')
  | .vred o t d a => .vred o t (regPlus d by') (regPlus a by')
  | .vfcvt d a c => .vfcvt (regPlus d by') (regPlus a by') c
  | .vfredAddF32 d a => .vfredAddF32 (regPlus d by') (regPlus a by')
  | .vfredAddBf16 d a => .vfredAddBf16 (regPlus d by') (regPlus a by')
  | .vfredMaxF32 d a => .vfredMaxF32 (regPlus d by') (regPlus a by')
  | .vfredMinF32 d a => .vfredMinF32 (regPlus d by') (regPlus a by')
  | .mpop d a => .mpop (regPlus d by') a
  | .mfirst d a => .mfirst (regPlus d by') a
  | .sfckey d a k => .sfckey (regPlus d by') (regPlus a by') k
  | .mldA k b i => .mldA k (regPlus b by') (regPlus i by')
  | .mldB k b s => .mldB k (regPlus b by') (regPlus s by')
  | .mst t a s => .mst t (regPlus a by') (regPlus s by')
  | .mma t z u f k => .mma t z u f (regPlus k by')
  | .cpy q r c y n s e => .cpy q r c y (regPlus n by') (regPlus s by') (regPlus e by')
  | .cpst d t => .cpst (regPlus d by') (regPlus t by')
  | .laccClr a => .laccClr (regPlus a by')
  | .laccAdd a b => .laccAdd (regPlus a by') (regPlus b by')
  | .laccAddp d a b => .laccAddp (regPlus d by') (regPlus a by') (regPlus b by')
  | .laccMrg a b => .laccMrg (regPlus a by') (regPlus b by')
  | .laccRdF32 d a => .laccRdF32 (regPlus d by') (regPlus a by')
  | .laccRdF64 d a => .laccRdF64 (regPlus d by') (regPlus a by')
  | .nalloc d t => .nalloc (regPlus d by') (regPlus t by')
  | .nfree n => .nfree (regPlus n by')
  | .nlink a b => .nlink (regPlus a by') (regPlus b by')
  | .npush a b => .npush (regPlus a by') (regPlus b by')
  | .nrd d p => .nrd (regPlus d by') (regPlus p by')
  | .nrset k e => .nrset (regPlus k by') (regPlus e by')
  | i => i

/-- Words that may not stand in a repetition body: branches, jumps and every TASK word (R74). -/
def bodyIllegal : Instr → Bool
  | .jal _ _ => true
  | .jalr _ _ _ => true
  | .beq _ _ _ => true
  | .bne _ _ _ => true
  | .blt _ _ _ => true
  | .bge _ _ _ => true
  | .bltu _ _ _ => true
  | .bgeu _ _ _ => true
  | .spawn _ _ _ => true
  | .spawnOrd _ _ _ => true
  | .spawnRow _ _ _ => true
  | .spawnCl _ _ _ => true
  | .msg _ _ _ _ => true
  | .mdone => true
  | .wset _ _ _ _ => true
  | .wait _ _ _ _ => true
  | .tend => true
  | .yield => true
  | .cmt => true
  | .gsyncRow => true
  | .gsyncCl => true
  | .brk => true
  | .trap _ => true
  | .getst _ _ => true
  | .tgctl _ _ => true
  | .slp _ => true
  | .rpt _ _ _ => true
  | .rpart _ _ => true
  | .rpst _ _ => true
  | _ => false

end Sys2Proof.Machine
end

