-- ==== Sys2Proof/Machine/Portable.lean ====
section
/-! DEFINITION. Portable operations and images as admission reads them (R42 to R46, R75 to R80, R219, R258, R266). -/

namespace Sys2Proof.Machine

/-! ### Operations (R75 to R80) -/

/-- A portable operation: a template with its distances, or a structure operation. -/
inductive POp where
  | instr (i : Instr) (a b c : Nat)
  | blk (n : Nat)
  | prm (n : Nat)
  | cnst (v : Int)
  | arg (a : Nat)
  | ret (a : Nat)
  | call (f : Nat)
  deriving DecidableEq, Repr

/-- The operations with an rd-as-source operand (R76). -/
def rdSource : Instr → Bool
  | .amo _ o _ _ _ _ => o == .cas
  | .cpy _ _ _ _ _ _ _ => true
  | .sx _ _ _ _ _ _ _ => true
  | .vst _ _ => true
  | .vstx _ _ _ => true
  | .vfma _ _ _ _ _ _ _ => true
  | .laccAddp _ _ _ => true
  | .sfckey _ _ k => k.toNat % 2 == 1
  | _ => false

/-- Native forms that portable input may not hold (R52, R80). -/
def nativeOnly : Instr → Bool
  | .bchk _ _ _ => true
  | .rpt _ _ _ => true
  | .dwb _ _ => true
  | .icinv _ _ => true
  | .fbar => true
  | .nrset _ _ => true
  | .auipc _ _ => true
  | .jalr _ _ _ => true
  | .lx _ _ _ x _ _ _ => x
  | .lxQ _ _ x _ _ _ => x
  | .sx _ _ _ x _ _ _ => x
  | .amo _ _ x _ _ _ => x
  | _ => false

/-- The operation names a register in rs1, which dA reaches (R76). -/
def takesA : Instr → Bool
  | .lui _ _ => false
  | .jal _ _ => false
  | .fenceC => false
  | .fenceD => false
  | .fenceP => false
  | .fenceS => false
  | .cwait _ => false
  | .mdone => false
  | .tend => false
  | .yield => false
  | .cmt => false
  | .gsyncRow => false
  | .gsyncCl => false
  | .brk => false
  | .trap _ => false
  | .getst _ _ => false
  | .mand _ _ _ => false
  | .mor _ _ _ => false
  | .mxor _ _ _ => false
  | .mnot _ _ => false
  | .mpop _ _ => false
  | .mfirst _ _ => false
  | .mzero _ => false
  | .cpy _ _ _ y _ _ _ => y != .zero
  | _ => true

/-- The operation names a register in rs2, or implies the one after rs1, which dB reaches (R76, R412, R440). -/
def takesB : Instr → Bool
  | .lx _ _ _ _ _ _ _ => true
  | .lxQ _ _ _ _ _ _ => true
  | .sx _ _ _ _ _ _ _ => true
  | .cpy _ _ _ _ _ _ _ => true
  | .sfckey _ _ _ => true
  | .vldx _ _ _ => true
  | .vstx _ _ _ => true
  | .vsel _ _ _ => true
  | .mldA _ _ _ => true
  | .mma _ _ _ _ _ => false
  | .vfsqrt _ _ _ _ _ _ => false
  | .unseal _ => false
  | .msg _ _ _ _ => false
  | .wait _ _ _ _ => false
  | .slp _ => false
  | .rpart _ _ => false
  | .rpst _ _ => false
  | .cpst _ _ => false
  | .vst _ _ => false
  | .nalloc _ _ => false
  | .nfree _ => false
  | .nrd _ _ => false
  | i => let n := instrNeeds i
         decide (2 ≤ n.gs.length + n.vs.length)

/-- Every register field is zero: of the registers an instruction names, those beyond its fields are fixed (R75). -/
def regsZero (i : Instr) : Bool :=
  let n := instrNeeds i
  let z := fun (l : List Reg) => l.all fun r => r == 0
  match i with
  | .lxQ _ _ _ d a p => z [d, a, p]
  | .amo _ _ _ d a b => z [d, a, b]
  | .spawn d t e => z [d, t, e]
  | .spawnOrd d t e => z [d, t, e]
  | .spawnRow d t e => z [d, t, e]
  | .spawnCl d t e => z [d, t, e]
  | .cpy _ _ _ _ n s e => z [n, s, e]
  | .sfckey d a _ => z [d, a]
  | .vfcvt d a _ => z [d, a]
  | .nalloc d t => z [d, t]
  | .nfree n => z [n]
  | .nlink a b => z [a, b]
  | .npush a b => z [a, b]
  | .nrd d p => z [d, p]
  | _ => z n.gs && z n.gd && z n.vs && z n.vd

/-- The template is legal once its register fields are filled (R58 to R67, R80). -/
def templateWf (i : Instr) (a b : Nat) : Bool :=
  match i with
  | .lxQ _ _ _ _ _ _ => true
  | .wset _ c _ _ => (if c = .bag then a == 0 && b == 0 else if c = .diff then true else b == 0)
  | i => i.wf

/-- The operation produces a value (R77). -/
def producesValue (i : Instr) : Bool :=
  let n := instrNeeds i
  match i with
  | .jal _ _ => false
  | _ => !(n.gd.isEmpty && n.vd.isEmpty)

/-- dA and dB take 0 to 2000 or 2046 (R76). -/
def distOk (d : Nat) : Bool := decide (d ≤ 2000) || d == 2046

/-- The rules of dC (R41, R76). -/
def distCOk (i : Instr) (c : Nat) : Bool :=
  if rdSource i then c != 1023
  else c == 0 || (c == 1023 && producesValue i)

/-- A structure operation (Table 03.9). -/
def decodeStructure (f : Fields) (w : Word) : Option POp :=
  let imm := (f.f7 ++ f.b).toNat
  let top := fieldNat w 63 32
  let a := fieldNat w 63 53
  if f.d ≠ 0 ∨ f.a ≠ 0 then none
  else if f.f3 = 0 then (if imm ≤ 16 ∧ top = 0 then some (.blk imm) else none)
  else if f.f3 = 1 then (if imm ≤ 15 ∧ top = 0 then some (.prm imm) else none)
  else if f.f3 = 2 then some (.cnst (signedOf 44 (top * 2 ^ 12 + imm)))
  else if f.f3 = 3 then (if imm = 0 ∧ top = a * 2 ^ 21 ∧ distOk a then some (.arg a) else none)
  else if f.f3 = 4 then (if imm = 0 ∧ top = a * 2 ^ 21 ∧ distOk a then some (.ret a) else none)
  else if f.f3 = 5 then (if top = 0 then some (.call imm) else none)
  else none

/-- A portable operation; none where its encoding is rejected (R75 to R80). -/
def decodePortable (w : Word) : Option POp :=
  let t : BitVec 32 := w.truncate 32
  let f := split t
  let a := fieldNat w 63 53
  let b := fieldNat w 52 42
  let c := fieldNat w 41 32
  if f.op = 0b1110011 then decodeStructure f w
  else
    match decodeRaw t with
    | .error _ => none
    | .ok i =>
      if !nativeOnly i && regsZero i && templateWf i a b && distOk a && distOk b && distCOk i c &&
          (a == 0 || takesA i) && (b == 0 || takesB i) then some (.instr i a b c)
      else none

/-- The operation defines a value (R41, R77, R78). -/
def POp.defines : POp → Bool
  | .instr i _ _ c => producesValue i && (rdSource i || c != 1023)
  | .prm _ => true
  | .cnst _ => true
  | .call _ => true
  | _ => false

/-- The distances by which an operation reaches values. -/
def POp.dists : POp → List Nat
  | .instr i a b c =>
    ([a, b].filter fun d => decide (1 ≤ d) && decide (d ≤ 2000)) ++
      (if rdSource i && decide (1 ≤ c) && decide (c ≤ 1021) then [c] else [])
  | .arg a => if 1 ≤ a ∧ a ≤ 2000 then [a] else []
  | .ret a => if 1 ≤ a ∧ a ≤ 2000 then [a] else []
  | _ => []

/-- The block a branch or `jal` names, by R45; a template outside its form names none. -/
def POp.target : POp → Option (Option Nat)
  | .instr (.jal _ i) _ _ _ => some (if i.getLsbD 19 then none else some i.toNat)
  | .instr (.beq _ _ i) _ _ _ => some (if i.getLsbD 11 then none else some i.toNat)
  | .instr (.bne _ _ i) _ _ _ => some (if i.getLsbD 11 then none else some i.toNat)
  | .instr (.blt _ _ i) _ _ _ => some (if i.getLsbD 11 then none else some i.toNat)
  | .instr (.bge _ _ i) _ _ _ => some (if i.getLsbD 11 then none else some i.toNat)
  | .instr (.bltu _ _ i) _ _ _ => some (if i.getLsbD 11 then none else some i.toNat)
  | .instr (.bgeu _ _ i) _ _ _ => some (if i.getLsbD 11 then none else some i.toNat)
  | _ => none

/-- Control does not go on to the next operation (R44). -/
def POp.ends : POp → Bool
  | .instr (.jal _ _) _ _ _ => true
  | .instr .tend _ _ _ => true
  | .ret _ => true
  | _ => false

/-! ### Functions (R42 to R45, R78, R79, R219) -/

/-- A function as admission checks it. -/
structure PFunc where
  ops    : List POp
  params : Nat
  deriving DecidableEq, Repr

/-- Positions of a function's blocks. -/
def PFunc.blocks (f : PFunc) : List Nat :=
  (f.ops.zipIdx.filterMap fun x => match x.1 with
    | .blk _ => some x.2
    | _ => none)

/-- Operations that control may reach next. -/
def PFunc.next (f : PFunc) (i : Nat) : List Nat :=
  match f.ops[i]? with
  | none => []
  | some op =>
    (if op.ends then [] else [i + 1]) ++
      (match op.target with
       | some (some b) => (f.blocks[b]?).toList
       | _ => [])

/-- Operations reached from `todo` on paths that avoid one of them. -/
def PFunc.reach (f : PFunc) (avoid : Nat) : Nat → List Nat → List Nat → List Nat
  | 0, _, seen => seen
  | _ + 1, [], seen => seen
  | n + 1, x :: xs, seen =>
    if x == avoid || seen.contains x then f.reach avoid n xs seen else f.reach avoid n (f.next x ++ xs) (x :: seen)

/-- The operation at `k` dominates the one at `j` (R44). -/
def PFunc.dominates (f : PFunc) (k j : Nat) : Bool := !(f.reach k (2 * f.ops.length + 2) [0] []).contains j

/-- `arg` operations that stand directly before position `i`. -/
def PFunc.args (f : PFunc) (i : Nat) : Nat :=
  ((f.ops.take i).reverse.takeWhile fun o => match o with
    | .arg _ => true
    | _ => false).length

/-- Parameters of a block. -/
def PFunc.blockParams (f : PFunc) (b : Nat) : Option Nat :=
  (f.blocks[b]?).bind fun p => match f.ops[p]? with
    | some (.blk n) => some n
    | _ => none

/-- Every distance of an operation reaches a value whose definition dominates it (R44, R76). -/
def PFunc.distsOk (f : PFunc) (i : Nat) (op : POp) : Bool :=
  op.dists.all fun d => decide (d ≤ i) && ((f.ops[i - d]?).any fun x => x.defines) && f.dominates (i - d) i

/-- A `prm` stands directly after its `blk` or the `prm` before it, and a `blk` is followed by its `prm`s (R42, R78). -/
def PFunc.blockOk (f : PFunc) (i : Nat) (op : POp) : Bool :=
  match op with
  | .blk n =>
    (i == 0 || ((f.ops[i - 1]?).any fun x => x.ends)) && ((List.range n).all fun k => f.ops[i + 1 + k]? == some (.prm k)) &&
      f.ops[i + 1 + n]? != some (.prm n)
  | .prm k => decide (k + 1 ≤ i) && ((List.range k).all fun j => f.ops[i - k + j]? == some (.prm j)) &&
      ((f.ops[i - k - 1]?).any fun x => match x with
        | .blk n => decide (k < n)
        | _ => false)
  | _ => true

/-- The constant an operand reaches, with its position. -/
def PFunc.constAt (f : PFunc) (i d : Nat) : Option (Nat × Int) :=
  if 1 ≤ d ∧ d ≤ 2000 ∧ d ≤ i then
    match f.ops[i - d]? with
    | some (.cnst v) => some (i - d, v)
    | _ => none
  else none

/-- The entry operand and the arguments of a `spawn` (R219). -/
def spawnOk (fs : List PFunc) (f : PFunc) (rel : Nat → Bool) (i b : Nat) : Bool :=
  decide (4 ≤ f.args i) && ((f.constAt i b).any fun c =>
    !rel c.1 && decide (0 ≤ c.2) && ((fs[c.2.toNat]?).any fun g => g.params == 4))

/-- One operation of a function keeps the rules of its form. `rel` says which positions carry relocations (R282). -/
def opOk (fs : List PFunc) (f : PFunc) (rel : Nat → Bool) (i : Nat) (op : POp) : Bool :=
  f.distsOk i op && f.blockOk i op &&
  (!rel i || (match op with
    | .cnst _ => true
    | _ => false)) &&
  (match op.target with
   | none => true
   | some none => false
   | some (some b) => f.blockParams b == some (f.args i)) &&
  (match op with
   | .call g => (fs[g]?).any fun h => h.params == f.args i
   | .instr (.spawn _ _ _) _ b _ => spawnOk fs f rel i b
   | .instr (.spawnOrd _ _ _) _ b _ => spawnOk fs f rel i b
   | .instr (.spawnRow _ _ _) _ b _ => spawnOk fs f rel i b
   | .instr (.spawnCl _ _ _) _ b _ => spawnOk fs f rel i b
   | _ => true)

/-- The first position of a function that breaks a rule (R42 to R45). -/
def funcError (fs : List PFunc) (f : PFunc) (rel : Nat → Bool) : Option Nat :=
  if f.ops[0]? ≠ some (.blk f.params) ∨ 2048 < f.blocks.length then some 0
  else
    match f.ops.zipIdx.find? fun x => !opOk fs f rel x.2 x.1 with
    | some x => some x.2
    | none => if (f.ops.getLast?).any fun x => x.ends then none else some (f.ops.length - 1)

/-- The mask bit that refuses an operation (Table 13.4). -/
def maskBit : POp → Option Nat
  | .instr i _ _ _ =>
    match i with
    | .mldA _ _ _ => some 0
    | .mldB _ _ _ => some 0
    | .mst _ _ _ => some 0
    | .mzero _ => some 0
    | .mma _ _ _ _ _ => some 0
    | .cpy _ _ sc _ _ _ _ => if sc = .sys then some 1 else none
    | .rpart _ _ => some 2
    | .rpst _ _ => some 2
    | .spawnRow _ _ _ => some 3
    | .spawnCl _ _ _ => some 3
    | .gsyncRow => some 3
    | .gsyncCl => some 3
    | .spawnOrd _ _ _ => some 4
    | .laccClr _ => some 5
    | .laccAdd _ _ => some 5
    | .laccAddp _ _ _ => some 5
    | .laccMrg _ _ => some 5
    | .laccRdF32 _ _ => some 5
    | .laccRdF64 _ _ => some 5
    | .sfckey _ _ _ => some 7
    | .seal _ _ _ => some 8
    | .unseal _ => some 8
    | _ => none
  | _ => none

/-! ### The image (R258) -/

/-- `n` bytes of an image, as a number. -/
def imgNum (b : List Byte) (o n : Nat) : Nat := natOfBytes ((b.drop o).take n)

/-- A range of an image is all zero. -/
def imgZero (b : List Byte) (o n : Nat) : Bool := ((b.drop o).take n).all fun x => x == 0

def nFunc (b : List Byte) : Nat := imgNum b 0x10 2
def nAgent (b : List Byte) : Nat := imgNum b 0x12 2
def nRule (b : List Byte) : Nat := imgNum b 0x14 2
def nHand (b : List Byte) : Nat := imgNum b 0x16 2
def nPool (b : List Byte) : Nat := imgNum b 0x18 2
def nRegion (b : List Byte) : Nat := imgNum b 0x1A 2
def trapFn (b : List Byte) : Nat := imgNum b 0x1C 2
def nReloc (b : List Byte) : Nat := imgNum b 0x20 4
def nNode (b : List Byte) : Nat := imgNum b 0x24 4
def textOff (b : List Byte) : Nat := imgNum b 0x28 8
def textLen (b : List Byte) : Nat := imgNum b 0x30 8
def dataOff (b : List Byte) : Nat := imgNum b 0x38 8
def dataLen (b : List Byte) : Nat := imgNum b 0x40 8
def nameOff (b : List Byte) : Nat := imgNum b 0x48 8
def replayExact (b : List Byte) : Bool := imgNum b 0x06 2 % 2 == 1

def agentTab (b : List Byte) : Nat := 0x80 + 16 * nFunc b
def ruleTab (b : List Byte) : Nat := agentTab b + 8 * nAgent b
def handTab (b : List Byte) : Nat := ruleTab b + 8 * nRule b
def poolTab (b : List Byte) : Nat := handTab b + 8 * nHand b
def regionTab (b : List Byte) : Nat := poolTab b + 16 * nPool b
def nodeTab (b : List Byte) : Nat := regionTab b + 32 * nRegion b
def relocTab (b : List Byte) : Nat := nodeTab b + 32 * nNode b
def tabsEnd (b : List Byte) : Nat := relocTab b + 16 * nReloc b

/-- Functions: first operation, operation count, nparams. -/
def imgFunc (b : List Byte) (i : Nat) : Nat × Nat × Nat :=
  let o := 0x80 + 16 * i
  (imgNum b o 8, imgNum b (o + 8) 4, imgNum b (o + 12) 1)

/-- Rules: type A, type B, function. -/
def imgRule (b : List Byte) (i : Nat) : Nat × Nat × Nat :=
  let o := ruleTab b + 8 * i
  (imgNum b o 2, imgNum b (o + 2) 2, imgNum b (o + 4) 2)

/-- Handlers: tag, priority, function. -/
def imgHand (b : List Byte) (i : Nat) : Nat × Nat × Nat :=
  let o := handTab b + 8 * i
  (imgNum b o 1, imgNum b (o + 1) 1, imgNum b (o + 2) 2)

/-- Pools: log2 of the size, first node, node count. -/
def imgPool (b : List Byte) (i : Nat) : Nat × Nat × Nat :=
  let o := poolTab b + 16 * i
  (imgNum b o 1, imgNum b (o + 4) 4, imgNum b (o + 8) 4)

/-- A homing: hashed, die mask, named core or core mask, cluster mask. -/
structure Homing where
  hashed : Bool
  die    : Nat
  cl     : Nat
  core   : Nat
  deriving DecidableEq, Repr

/-- Word 1 of HMAP for a homing (Table 05.5). -/
def Homing.word (h : Homing) : Nat := if h.hashed then h.die * 2 ^ 32 + h.cl * 2 ^ 16 + h.core else h.core

/-- The masks name something. -/
def Homing.ok (h : Homing) : Bool :=
  if h.hashed then decide (0 < h.die) && decide (h.die < 16) && decide (0 < h.cl) && decide (0 < h.core)
  else decide (h.core < 1024)

/-- `.home`, or a hash over every enabled core (R54, R456). -/
def imgHome (b : List Byte) : Homing :=
  let k := imgNum b 0x50 1
  if k = 1 then ⟨false, 0, 0, imgNum b 0x52 2⟩
  else if k = 2 then ⟨true, imgNum b 0x51 1, imgNum b 0x54 2, imgNum b 0x56 2⟩
  else ⟨true, 15, 0xFFFF, 0xFFFF⟩

/-- Regions: base, log2 of the size, homing. -/
def imgRegion (b : List Byte) (i : Nat) : Nat × Nat × Homing :=
  let o := regionTab b + 32 * i
  (imgNum b o 8, imgNum b (o + 8) 1,
    if imgNum b (o + 9) 1 = 1 then ⟨true, imgNum b (o + 10) 1, imgNum b (o + 14) 2, imgNum b (o + 16) 2⟩
    else ⟨false, 0, 0, imgNum b (o + 12) 2⟩)

/-- Relocations: function or 0xFFFF_FFFF, place, symbol. -/
def imgReloc (b : List Byte) (i : Nat) : Nat × Nat × Nat :=
  let o := relocTab b + 16 * i
  (imgNum b o 4, imgNum b (o + 4) 4, imgNum b (o + 8) 2)

/-- The four words of an initial node. -/
def imgNode (b : List Byte) (i : Nat) : List Word := wordsOfBytes ((b.drop (nodeTab b + 32 * i)).take 32) 4

/-- The operation at an index of the text. -/
def imgOp (b : List Byte) (i : Nat) : Word := BitVec.ofNat 64 (imgNum b (textOff b + 8 * i) 8)

/-- The data section as it stands. -/
def imgData (b : List Byte) : List Byte := (b.drop (dataOff b)).take (dataLen b)

/-- The spans of tables, text, data and name do not overlap and lie within the image (R258). -/
def spansOk (b : List Byte) (name : Nat) : Bool :=
  let ss := [(0, tabsEnd b), (textOff b, textLen b), (dataOff b, dataLen b), (nameOff b, name + 1)]
  ss.all (fun s => decide (s.1 + s.2 ≤ b.length)) &&
    (ss.zipIdx.all fun x => ss.zipIdx.all fun y =>
      x.2 == y.2 || x.1.2 == 0 || y.1.2 == 0 || decide (x.1.1 + x.1.2 ≤ y.1.1) || decide (y.1.1 + y.1.2 ≤ x.1.1))

/-- Header fields keep their limits (Table 13.12). -/
def headerOk (b : List Byte) : Bool :=
  let k := imgNum b 0x50 1
  let name := ((b.drop (nameOff b)).takeWhile fun x => x != 0).length
  decide (128 ≤ b.length) && imgNum b 0 4 == 0x4A385049 && imgNum b 4 2 == 1 && decide (imgNum b 6 2 ≤ 1) &&
  (imgNum b 8 1 == 0xFF || decide (imgNum b 8 1 ≤ 63)) && imgZero b 9 7 && imgZero b 0x1E 2 && imgZero b 0x58 40 &&
  decide (1 ≤ nFunc b) && decide (nFunc b ≤ 4096) && decide (nHand b ≤ 256) && decide (nPool b ≤ 1024) &&
  decide (trapFn b ≤ nFunc b) && textOff b % 8 == 0 && textLen b % 8 == 0 && dataOff b % 64 == 0 &&
  decide (k ≤ 2) && (k == 1 || imgNum b 0x52 2 == 0) &&
  (k == 2 || (imgNum b 0x51 1 == 0 && imgNum b 0x54 2 == 0 && imgNum b 0x56 2 == 0)) && (imgHome b).ok &&
  decide (name ≤ 63) && spansOk b name

/-- Number of parameters of a function; beyond the table, one that no rule asks for. -/
def imgParams (b : List Byte) (f : Nat) : Nat := if f < nFunc b then (imgFunc b f).2.2 else 99

/-- Entries of the tables keep their limits (R54, R202, Table 13.13); a repeated entry is no breach, and a breach has status 2
and no index (DESIGN CHOICE, log entry 59). -/
def tablesOk (b : List Byte) : Bool :=
  let all := fun (n : Nat) (p : Nat → Bool) => (List.range n).all p
  all (nFunc b) (fun i => let f := imgFunc b i
    decide (1 ≤ f.2.1) && decide (f.1 + f.2.1 ≤ textLen b / 8) && decide (f.2.2 ≤ 8) && imgZero b (0x80 + 16 * i + 13) 3) &&
  all (nAgent b) (fun i => let o := agentTab b + 8 * i
    decide (1 ≤ imgNum b o 2) && decide (imgNum b (o + 2) 1 ≤ 2) && imgZero b (o + 3) 5) &&
  all (nRule b) (fun i => let r := imgRule b i
    decide (1 ≤ r.1) && decide (r.1 ≤ r.2.1) && imgParams b r.2.2 == 2 && imgZero b (ruleTab b + 8 * i + 6) 2) &&
  all (nHand b) (fun i => let h := imgHand b i
    decide (h.2.1 ≤ 3) && imgParams b h.2.2 == 0 && imgZero b (handTab b + 8 * i + 4) 4) &&
  (trapFn b == 0 || imgParams b (trapFn b - 1) == 0) &&
  all (nPool b) (fun i => let p := imgPool b i
    decide (16 ≤ p.1) && decide (p.1 ≤ 32) && decide (p.2.1 + p.2.2 ≤ nNode b) && decide (0x40 + 32 * p.2.2 ≤ 2 ^ p.1)) &&
  all (nRegion b) (fun i => let r := imgRegion b i
    decide (16 ≤ r.2.1) && decide (r.2.1 ≤ 39) && decide (r.1 % 2 ^ r.2.1 = 0) && r.2.2.ok &&
      decide (imgNum b (regionTab b + 32 * i + 9) 1 ≤ 1)) &&
  all (nReloc b) (fun i => let r := imgReloc b i
    (r.2.2 == 0xFFFF || decide (r.2.2 < nRegion b)) && imgZero b (relocTab b + 16 * i + 10) 6 &&
      (if r.1 = 0xFFFFFFFF then decide (r.2.1 % 8 = 0) && decide (r.2.1 + 8 ≤ dataLen b)
       else decide (r.1 < nFunc b) && decide (r.2.1 < (imgFunc b r.1).2.1)))

/-- The operations of every function; a function with a rejected operation gives its index in the text. -/
def imgFuncs (b : List Byte) : Except Nat (List PFunc) :=
  (List.range (nFunc b)).mapM fun i =>
    let f := imgFunc b i
    ((List.range f.2.1).mapM fun j => match decodePortable (imgOp b (f.1 + j)) with
      | some op => Except.ok op
      | none => Except.error (f.1 + j)).map fun ops => ⟨ops, f.2.2⟩

/-- Function `i`'s operation `j` carries a relocation. -/
def relocAt (b : List Byte) (i j : Nat) : Bool :=
  (List.range (nReloc b)).any fun k => let r := imgReloc b k
                                       r.1 == i && r.2.1 == j

/-- The index of no operation. -/
def noIndex : Nat := 0xFFFFFFFF

/-- The form of an image's operations: the index of the first that breaks a rule (R42 to R45, R75 to R80, R219). -/
def formError (b : List Byte) : Option Nat :=
  match imgFuncs b with
  | .error i => some i
  | .ok fs =>
    (fs.zipIdx.findSome? fun x => (funcError fs x.1 (relocAt b x.2)).map fun j => (imgFunc b x.2).1 + j)

/-- The first operation that a feature mask refuses (R265, R266). -/
def maskError (b : List Byte) (fmask : Word) : Option Nat :=
  match imgFuncs b with
  | .error _ => none
  | .ok fs =>
    (fs.zipIdx.findSome? fun x => (x.1.ops.zipIdx.find? fun o => (maskBit o.1).any fun k => bitOf fmask k).map fun o =>
      (imgFunc b x.2).1 + o.2)

/-- The initial pair list of a pool: each pair of nodes whose p0 ports name each other, by the lower node (R55). -/
def initialPairs (b : List Byte) (pool : Nat) : List (Nat × Nat) :=
  let p := imgPool b pool
  let p0 := fun (j : Nat) => (imgNode b (p.2.1 + j)).getD 1 0
  let link := fun (a : Nat) => BitVec.ofNat 64 (2 ^ 62 + a)
  (List.range p.2.2).filterMap fun j =>
    let a := 0x40 + 32 * j
    let o := 32 * fieldNat (p0 j) 31 5
    let k := (o - 0x40) / 32
    if a < o ∧ k < p.2.2 ∧ p0 j = link o ∧ p0 k = link a then some (a, o) else none

end Sys2Proof.Machine
end

