-- ==== Sys2Proof/Machine/Flow.lean ====
section
/-! DEFINITION. What admission finds by following values and paths of a portable image: types, the shape of rule routines
and the replay-exact profile (R244, R248, R259 step 2, R404). -/

namespace Sys2Proof.Machine

/-! ### Operands by their distances -/

/-- The value that dA reaches is a vector. -/
def vecA : Instr → Bool
  | .vld _ _ => false
  | .vst _ _ => false
  | .vldx _ _ _ => false
  | .vstx _ _ _ => false
  | .vbcast _ _ _ => false
  | .vmvVg _ _ _ => false
  | .mldA _ _ _ => false
  | i => !(instrNeeds i).vs.isEmpty

/-- The value that dB reaches is a vector. -/
def vecB : Instr → Bool
  | .vldx _ _ _ => true
  | .vstx _ _ _ => true
  | .mldA _ _ _ => true
  | .vst _ _ => false
  | i => !(instrNeeds i).vs.isEmpty

/-- The value that dC reaches is a vector. -/
def vecC : Instr → Bool
  | .vst _ _ => true
  | .vstx _ _ _ => true
  | .vfma _ _ _ _ _ _ _ => true
  | .sfckey _ _ _ => true
  | _ => false

/-- An operand of an operation: its distance, and whether it is a vector. -/
def operands : POp → List (Nat × Bool)
  | .instr i a b c =>
    [(a, vecA i), (b, vecB i)] ++ (if rdSource i then [(if c = 1022 then 2046 else c, vecC i)] else [])
  | _ => []

/-- The result of an operation is a vector. -/
def vecResult : POp → Bool
  | .instr i _ _ _ => !(instrNeeds i).vd.isEmpty
  | _ => false

/-- An access of an operation: at an offset from the value dA reaches, by the size; at the rows of a tile, by the value dB
reaches; or at the eight lanes of the index that dB reaches (R392, R445). -/
inductive Reach where
  | at (off : Int) (size : Nat)
  | rows
  | lanes
  deriving DecidableEq, Repr

/-- The accesses that an instruction of Table 05.2 makes, with the operand that reaches each; `cpy` and the matrix operands are
judged by their engine alone (R290, R385). -/
def accessesOf : Instr → List Reach
  | .lb _ _ k => [.at k.toInt 1]
  | .lbu _ _ k => [.at k.toInt 1]
  | .lh _ _ k => [.at k.toInt 2]
  | .lhu _ _ k => [.at k.toInt 2]
  | .lw _ _ k => [.at k.toInt 4]
  | .lwu _ _ k => [.at k.toInt 4]
  | .ld _ _ k => [.at k.toInt 8]
  | .sb _ _ k => [.at k.toInt 1]
  | .sh _ _ k => [.at k.toInt 2]
  | .sw _ _ k => [.at k.toInt 4]
  | .sd _ _ k => [.at k.toInt 8]
  | .lx z _ _ _ _ _ _ => [.at 0 (MemSize.bytes z)]
  | .lxQ _ _ _ _ _ _ => [.at 0 16]
  | .sx z _ _ _ _ _ _ => [.at 0 (MemSize.bytes z)]
  | .amo z _ _ _ _ _ => [.at 0 (if z = .w then 4 else 8)]
  | .tagr _ _ => [.at 0 8]
  | .tagw _ _ => [.at 0 8]
  | .wset _ c _ _ => if c = .full ∨ c = .empty ∨ c = .diff then [.at 0 8] else []
  | .vld _ _ => [.at 0 64]
  | .vst _ _ => [.at 0 64]
  | .vldx _ _ _ => [.lanes]
  | .vstx _ _ _ => [.lanes]
  | .mst _ _ _ => [.rows]
  | .laccClr _ => [.at 0 80]
  | .laccAdd _ _ => [.at 0 80]
  | .laccAddp _ _ _ => [.at 0 80]
  | .laccMrg _ _ => [.at 0 80]
  | .laccRdF32 _ _ => [.at 0 80]
  | .laccRdF64 _ _ => [.at 0 80]
  | _ => []

/-- The operand of an access, by its place among the sources: dA, and for the source of a merge dB. -/
def accessDists (i : Instr) (a b : Nat) : List (Nat × Reach) :=
  (accessesOf i).map (fun x => (a, x)) ++ (match i with
    | .laccMrg _ _ => [(b, .at 0 80)]
    | _ => [])

/-- The mask registers an instruction writes. -/
def maskWrites : Instr → List Reg
  | .vcmp _ _ m _ _ => [m]
  | .vfcmp _ _ _ _ _ m _ _ => [m]
  | .mand d _ _ => [d]
  | .mor d _ _ => [d]
  | .mxor d _ _ => [d]
  | .mnot d _ => [d]
  | _ => []

/-- The mask registers it reads; m0 is all ones and carries nothing (R49, R69). -/
def maskReads (i : Instr) : List Reg :=
  (match i with
   | .vadd _ m _ _ _ => [m.zeroExtend 5]
   | .vsub _ m _ _ _ => [m.zeroExtend 5]
   | .vmul _ m _ _ _ => [m.zeroExtend 5]
   | .vmin _ m _ _ _ => [m.zeroExtend 5]
   | .vmax _ m _ _ _ => [m.zeroExtend 5]
   | .vminu _ m _ _ _ => [m.zeroExtend 5]
   | .vmaxu _ m _ _ _ => [m.zeroExtend 5]
   | .vand _ m _ _ _ => [m.zeroExtend 5]
   | .vor _ m _ _ _ => [m.zeroExtend 5]
   | .vxor _ m _ _ _ => [m.zeroExtend 5]
   | .vsll _ m _ _ _ => [m.zeroExtend 5]
   | .vsrl _ m _ _ _ => [m.zeroExtend 5]
   | .vsra _ m _ _ _ => [m.zeroExtend 5]
   | .vfadd _ _ _ k _ _ _ => if k then [1] else []
   | .vfsub _ _ _ k _ _ _ => if k then [1] else []
   | .vfmul _ _ _ k _ _ _ => if k then [1] else []
   | .vfma _ _ _ k _ _ _ => if k then [1] else []
   | .vfmin _ _ _ k _ _ _ => if k then [1] else []
   | .vfmax _ _ _ k _ _ _ => if k then [1] else []
   | .vfdiv _ _ _ k _ _ _ => if k then [1] else []
   | .vfsqrt _ _ _ k _ _ => if k then [1] else []
   | .vfcmp _ _ _ _ k _ _ _ => if k then [1] else []
   | .vsel _ _ _ => [1]
   | .mand _ a b => [a, b]
   | .mor _ a b => [a, b]
   | .mxor _ a b => [a, b]
   | .mnot _ a => [a]
   | .mpop _ a => [a]
   | .mfirst _ a => [a]
   | _ => []).filter fun m => m != 0

/-- The operand dA of a load, a store, an atomic or a tag instruction is an address, and dB its policy or its index; a
value is not followed through them into the word that is read (R248). -/
def addressOnly : Instr → Bool
  | .lb _ _ _ => true
  | .lh _ _ _ => true
  | .lw _ _ _ => true
  | .ld _ _ _ => true
  | .lbu _ _ _ => true
  | .lhu _ _ _ => true
  | .lwu _ _ _ => true
  | .lx _ _ _ _ _ _ _ => true
  | .lxQ _ _ _ _ _ _ => true
  | .amo _ _ _ _ _ _ => true
  | .tagr _ _ => true
  | .vld _ _ => true
  | .vldx _ _ _ => true
  | .nrd _ _ => true
  | .rpart _ _ => true
  | .rpst _ _ => true
  | _ => false

/-! ### Values across the image (R248) -/

/-- The number of the value at a position, counted through the functions. -/
def nodeOf (fs : List PFunc) (f i : Nat) : Nat := ((fs.take f).map fun g => g.ops.length).sum + i

/-- The `n` `arg` operations directly before a position: their places in order, with their positions. -/
def argsAt (i n : Nat) : List (Nat × Nat) := (List.range n).map fun k => (k, i - n + k)

/-- The function a `spawn` at `i` enters, through the constant its entry operand reaches (R219). -/
def spawnEntry (f : PFunc) (i : Nat) : POp → Option Nat
  | .instr (.spawn _ _ _) _ b _ => (f.constAt i b).map fun c => c.2.toNat
  | .instr (.spawnOrd _ _ _) _ b _ => (f.constAt i b).map fun c => c.2.toNat
  | .instr (.spawnRow _ _ _) _ b _ => (f.constAt i b).map fun c => c.2.toNat
  | .instr (.spawnCl _ _ _) _ b _ => (f.constAt i b).map fun c => c.2.toNat
  | _ => none

/-- Values that become others as they stand, destination first: arguments into block and function parameters and into a
`spawn`ed child's, and returned values. An `arg` and a `ret` stand for the value they carry. -/
def moveEdges (fs : List PFunc) : List (Nat × Nat) :=
  fs.zipIdx.flatMap fun x =>
    let f := x.1
    f.ops.zipIdx.flatMap fun y =>
      let i := y.2
      let into := fun (n : Nat) (f' base : Nat) =>
        (argsAt i n).map fun a => (nodeOf fs f' (base + 1 + a.1), nodeOf fs x.2 a.2)
      (match y.1 with
       | .call g =>
         into (f.args i) g 0 ++ (match fs[g]? with
           | none => []
           | some h => h.ops.zipIdx.filterMap fun z => match z.1 with
             | .ret _ => some (nodeOf fs x.2 i, nodeOf fs g z.2)
             | _ => none)
       | .arg a => if 1 ≤ a ∧ a ≤ 2000 ∧ a ≤ i then [(nodeOf fs x.2 i, nodeOf fs x.2 (i - a))] else []
       | .ret a => if 1 ≤ a ∧ a ≤ 2000 ∧ a ≤ i then [(nodeOf fs x.2 i, nodeOf fs x.2 (i - a))] else []
       | _ => []) ++
      (match y.1.target with
       | some (some b) => match f.blocks[b]? with
         | some p => into (f.args i) x.2 p
         | none => []
       | _ => []) ++
      (match spawnEntry f i y.1 with
       | some g => into (min 4 (f.args i)) g 0
       | none => [])

/-- Values that results are computed from, destination first. -/
def operandEdges (fs : List PFunc) : List (Nat × Nat) :=
  fs.zipIdx.flatMap fun x =>
    x.1.ops.zipIdx.flatMap fun y =>
      match y.1 with
      | .instr ins _ _ _ =>
        if addressOnly ins then []
        else ((operands y.1).filter fun d => decide (1 ≤ d.1) && decide (d.1 ≤ 2000) && decide (d.1 ≤ y.2)).map fun d =>
          (nodeOf fs x.2 y.2, nodeOf fs x.2 (y.2 - d.1))
      | _ => []

/-- Positions that control may reach from one, through calls and returns. -/
def callNext (fs : List PFunc) (x : Nat × Nat) : List (Nat × Nat) :=
  match fs[x.1]? with
  | none => []
  | some f =>
    match f.ops[x.2]? with
    | some (.call g) => [(g, 0), (x.1, x.2 + 1)]
    | some (.ret _) =>
      fs.zipIdx.flatMap fun y => y.1.ops.zipIdx.filterMap fun z => if z.1 = .call x.1 then some (y.2, z.2 + 1) else none
    | _ => (f.next x.2).map fun q => (x.1, q)

/-- Positions reached by steps of `next`, which `stop` ends. -/
def walkFrom (next : Nat × Nat → List (Nat × Nat)) (stop : Nat × Nat → Bool) :
    Nat → List (Nat × Nat) → List (Nat × Nat) → List (Nat × Nat)
  | 0, _, seen => seen
  | _ + 1, [], seen => seen
  | n + 1, x :: xs, seen =>
    if seen.contains x then walkFrom next stop n xs seen
    else walkFrom next stop n ((if stop x then [] else next x) ++ xs) (x :: seen)

/-- Enough steps for a walk through an image. -/
def walkFuel (fs : List PFunc) : Nat :=
  let size := (fs.map fun g => g.ops.length).sum
  4 * size * size + 4

/-- The operation at a position. -/
def opAt (fs : List PFunc) (x : Nat × Nat) : Option POp := (fs[x.1]?).bind fun f => f.ops[x.2]?

/-- The operation writes a mask register; a comparison under a mask leaves the bits it does not pick. -/
def setsMask (m : Reg) (op : POp) : Bool :=
  match op with
  | .instr (.vfcmp _ _ _ _ k d _ _) _ _ _ => !k && d == m
  | .instr i _ _ _ => (maskWrites i).contains m
  | _ => false

/-- From what writes a mask register to what may read it before it is written again, destination first. -/
def maskEdges (fs : List PFunc) : List (Nat × Nat) :=
  fs.zipIdx.flatMap fun x => x.1.ops.zipIdx.flatMap fun y =>
    match y.1 with
    | .instr ins _ _ _ =>
      (maskWrites ins).flatMap fun m =>
        (walkFrom (callNext fs) (fun p => (opAt fs p).any (setsMask m)) (walkFuel fs) (callNext fs (x.2, y.2)) []).filterMap fun p =>
          match opAt fs p with
          | some (.instr r _ _ _) => if (maskReads r).contains m then some (nodeOf fs p.1 p.2, nodeOf fs x.2 y.2) else none
          | _ => none
    | _ => []

/-- One pass along the edges. -/
def flowPass (es : List (Nat × Nat)) (t : Array Nat) : Array Nat :=
  es.foldl (fun t e => t.modify e.1 fun v => v ||| t.getD e.2 0) t

/-- What reaches every value: passes until nothing changes, at most `n`. -/
def flowFix (es : List (Nat × Nat)) : Nat → Array Nat → Array Nat
  | 0, t => t
  | n + 1, t =>
    let t' := flowPass es t
    if t' == t then t else flowFix es n t'

/-- The marks of every value, from those each operation gives its own result, along edges. -/
def marks (fs : List PFunc) (es : List (Nat × Nat)) (own : Nat → Nat → POp → Nat) : Array Nat :=
  let start := (fs.zipIdx.flatMap fun x => x.1.ops.zipIdx.map fun y => own x.2 y.2 y.1).toArray
  flowFix es (8 * start.size + 1) start

/-- The marks of the value that a distance reaches at a position; `ain` carries the marks given. -/
def marksAt (fs : List PFunc) (m : Array Nat) (ain f i d : Nat) : Nat :=
  if d = 2046 then ain else if 1 ≤ d ∧ d ≤ 2000 ∧ d ≤ i then m.getD (nodeOf fs f (i - d)) 0 else 0

/-- The lowest index of the text among positions that a check refuses. -/
def firstBad (fs : List PFunc) (first : Nat → Nat) (bad : Nat → Nat → POp → Bool) : Option Nat :=
  (fs.zipIdx.flatMap fun x => x.1.ops.zipIdx.filterMap fun y =>
    if bad x.2 y.2 y.1 then some (first x.2 + y.2) else none).min?

/-! ### Types (R259 step 2) -/

/-- Marks of types: 1 a word, 2 a vector. A parameter has the types of the values that reach it. -/
def typeOwn (op : POp) : Nat :=
  match op with
  | .instr _ _ _ _ => if op.defines then (if vecResult op then 2 else 1) else 0
  | .cnst _ => 1
  | .arg a => if a = 2046 then 1 else 0
  | .ret a => if a = 2046 then 1 else 0
  | _ => 0

/-- An operand meets a value of the other type, a vector is pushed to `dep` or passed to a `spawn`, or `ain` stands for a
vector. -/
def typeBad (fs : List PFunc) (m : Array Nat) (f i : Nat) (op : POp) : Bool :=
  ((operands op).any fun d => (marksAt fs m 1 f i d.1) &&& (if d.2 then 1 else 2) != 0) ||
  (match op with
   | .instr ins _ _ c => !rdSource ins && c == 1023 && vecResult op
   | _ => false) ||
  ((fs[f]?).any fun g => decide (4 ≤ i) && match spawnEntry g i op with
    | some _ => (argsAt i 4).any fun a => (m.getD (nodeOf fs f a.2) 0) &&& 2 != 0
    | none => false)

/-- The first operation with an operand of the wrong type. -/
def typeError (fs : List PFunc) (first : Nat → Nat) : Option Nat :=
  let m := marks fs (moveEdges fs) fun _ _ op => typeOwn op
  firstBad fs first (typeBad fs m)

/-! ### The shape of a rule routine (R244) -/

/-- What an operation is to the shape of a rule routine. -/
inductive ShapeOp where
  /-- `lx.d.wf`. -/
  | status
  /-- `sx.d.se`. -/
  | empty
  /-- A net instruction or an access to memory. -/
  | chunk
  | commit
  /-- The `spawn` of a gang. -/
  | spawn
  /-- An operation that would end the rewrite chunk another way. -/
  | barred
  /-- A trap, or `mma`: it would end the chunk, and may stand outside it. -/
  | split
  /-- An operation on registers alone. -/
  | free
  deriving DecidableEq, Repr

/-- The part an instruction takes in a rule routine's shape. -/
def shapeOf : Instr → ShapeOp
  | .lx z m _ _ _ _ _ =>
    match m with
    | .wf => if z = .d then .status else .barred
    | .wfe => .barred
    | .pl => .chunk
    | .rdn => .chunk
  | .lxQ m _ _ _ _ _ =>
    match m with
    | .wf => .barred
    | .wfe => .barred
    | .pl => .chunk
    | .rdn => .chunk
  | .sx z m _ _ _ _ _ =>
    match m with
    | .pl => .chunk
    | .se => if z = .d then .empty else .barred
    | .we => .barred
    | .sf => .barred
  | .lb _ _ _ => .chunk
  | .lh _ _ _ => .chunk
  | .lw _ _ _ => .chunk
  | .ld _ _ _ => .chunk
  | .lbu _ _ _ => .chunk
  | .lhu _ _ _ => .chunk
  | .lwu _ _ _ => .chunk
  | .sb _ _ _ => .chunk
  | .sh _ _ _ => .chunk
  | .sw _ _ _ => .chunk
  | .sd _ _ _ => .chunk
  | .vld _ _ => .chunk
  | .vst _ _ => .chunk
  | .vldx _ _ _ => .chunk
  | .vstx _ _ _ => .chunk
  | .tagr _ _ => .chunk
  | .tagw _ _ => .chunk
  | .nalloc _ _ => .chunk
  | .nfree _ => .chunk
  | .nlink _ _ => .chunk
  | .npush _ _ => .chunk
  | .nrd _ _ => .chunk
  | .laccClr _ => .chunk
  | .laccAdd _ _ => .chunk
  | .laccAddp _ _ _ => .chunk
  | .laccMrg _ _ => .chunk
  | .laccRdF32 _ _ => .chunk
  | .laccRdF64 _ _ => .chunk
  | .mldA _ _ _ => .chunk
  | .mldB _ _ _ => .chunk
  | .mst _ _ _ => .chunk
  | .cmt => .commit
  | .spawn _ _ _ => .barred
  | .spawnOrd _ _ _ => .barred
  | .spawnRow _ _ _ => .spawn
  | .spawnCl _ _ _ => .spawn
  | .amo _ _ _ _ _ _ => .barred
  | .msg _ _ _ _ => .barred
  | .cpy _ _ _ _ _ _ _ => .barred
  | .rpart _ _ => .barred
  | .wait _ _ _ _ => .barred
  | .slp _ => .barred
  | .gsyncRow => .barred
  | .gsyncCl => .barred
  | .seal _ _ _ => .barred
  | .unseal _ => .barred
  | .yield => .barred
  | .brk => .split
  | .trap _ => .split
  | .mma _ _ _ _ _ => .split
  | _ => .free

/-- Phases of a rule routine: 0 status reads, 1 statuses set empty, 2 the rewrite chunk, 3 after its `cmt`. The phase
after an operation; none where the operation cannot stand there. -/
def shapeStep (ph : Nat) (op : POp) : Option Nat :=
  match op with
  | .instr i _ _ _ =>
    match shapeOf i with
    | .status => if ph = 0 then some 0 else none
    | .empty => if ph ≤ 1 then some 1 else none
    | .chunk => if ph ≤ 2 then some 2 else none
    | .commit => if ph ≤ 2 then some 3 else none
    | .spawn => if ph = 3 then some 3 else none
    | .barred => none
    | .split => if ph = 2 then none else some ph
    | .free => some ph
  | _ => some ph

/-- A point of a path: the function, the phase it was entered in, the position and the phase there. -/
structure ShapeAt where
  func  : Nat
  enter : Nat
  pos   : Nat
  phase : Nat
  deriving DecidableEq, Repr

/-- Points that a point leads to, among those seen: through a `call` into the callee, and from its `ret`s back. -/
def shapeNext (fs : List PFunc) (seen : List ShapeAt) (x : ShapeAt) : List ShapeAt :=
  match fs[x.func]? with
  | none => []
  | some f =>
    match f.ops[x.pos]? with
    | none => []
    | some (.call g) =>
      ⟨g, x.phase, 0, x.phase⟩ :: (seen.filter fun y => y.func == g && y.enter == x.phase && (match (fs[g]?).bind fun h => h.ops[y.pos]? with
        | some (.ret _) => true
        | _ => false)).map fun y => { x with pos := x.pos + 1, phase := y.phase }
    | some (.ret _) =>
      (seen.filter fun y => y.phase == x.enter && ((fs[y.func]?).bind fun h => h.ops[y.pos]?) == some (.call x.func)).map fun y =>
        { y with pos := y.pos + 1, phase := x.phase }
    | some op =>
      match shapeStep x.phase op with
      | none => []
      | some p => (f.next x.pos).map fun q => { x with pos := q, phase := p }

/-- Every point a rule routine's paths reach. -/
def shapeWalk (fs : List PFunc) : Nat → List ShapeAt → List ShapeAt → List ShapeAt
  | 0, _, seen => seen
  | _ + 1, [], seen => seen
  | n + 1, x :: xs, seen =>
    if seen.contains x then shapeWalk fs n xs seen
    else shapeWalk fs n (shapeNext fs (x :: seen) x ++ xs) (x :: seen)

/-- The first operation that breaks the shape of R244 on some path of a rule routine. -/
def shapeError (fs : List PFunc) (first : Nat → Nat) (rules : List Nat) : Option Nat :=
  let size := (fs.map fun f => f.ops.length).sum
  (rules.eraseDups.flatMap fun r =>
    (shapeWalk fs (200 * size + 200) [⟨r, 0, 0, 0⟩] []).filterMap fun x =>
      match (fs[x.func]?).bind fun f => f.ops[x.pos]? with
      | some op => if (shapeStep x.phase op).isNone then some (first x.func + x.pos) else none
      | none => none).min?

/-! ### The replay-exact profile (R248) -/

/-- Marks of R248: 1 place and time, 2 the timing of others, 4 an `amo`, 16 a repartition's handle, 32 the result of its
`rpst` or of `wait`, which may flow nowhere (R404, R452), 64 handed on in an order that timing decides. -/
def profileOwn (op : POp) : Nat :=
  (match op with
   | .arg a => if a = 2046 then 64 else 0
   | .ret a => if a = 2046 then 64 else 0
   | .instr ins _ _ _ =>
     match ins with
     | .getst _ n => if [0, 1, 2, 5, 6, 7, 13, 14].contains n.toNat then 1 else 0
     | .wait _ _ _ _ => 34
     | .cpst _ _ => 2
     | .msg _ _ _ _ => 2
     | .spawn _ _ _ => 2
     | .spawnOrd _ _ _ => 2
     | .spawnRow _ _ _ => 2
     | .spawnCl _ _ _ => 2
     | .amo _ _ _ _ _ _ => 4
     | .rpart _ _ => 16
     | .rpst _ _ => 34
     | .lx _ m _ _ _ _ _ => if m = .wf ∨ m = .wfe then 64 else 0
     | .lxQ m _ _ _ _ _ => if m = .wf ∨ m = .wfe then 64 else 0
     | _ => 0
   | _ => 0) |||
  (if (operands op).any fun d => d.1 == 2046 then 64 else 0)

/-! ### Node offsets, addresses and link words (R225, R228, R245, R248) -/

/-- The constant that an operand is computed to be; the fuel bounds the depth. -/
def constOf (f : PFunc) : Nat → Nat → Nat → Option Word
  | 0, _, _ => none
  | n + 1, i, d =>
    if d = 0 then some 0
    else if 2000 < d ∨ i < d then none
    else
      let j := i - d
      match f.ops[j]? with
      | some (.cnst v) => some (BitVec.ofInt 64 v)
      | some (.instr (.addi _ _ k) a _ _) => (constOf f n j a).map fun (x : Word) => x + sext12 k
      | some (.instr (.ori _ _ k) a _ _) => (constOf f n j a).map fun (x : Word) => x ||| sext12 k
      | some (.instr (.slli _ _ k) a _ _) => (constOf f n j a).map fun (x : Word) => x <<< k.toNat
      | some (.instr (.lui _ k) _ _ _) => some ((k ++ 0#12).signExtend 64)
      | some (.instr (.add _ _ _) a b _) =>
        (constOf f n j a).bind fun x => (constOf f n j b).map fun y => x + y
      | some (.instr (.or _ _ _) a b _) =>
        (constOf f n j a).bind fun x => (constOf f n j b).map fun y => x ||| y
      | _ => none

/-- An addition: an address stays one under it. -/
def additive : POp → Bool
  | .instr (.add _ _ _) _ _ _ => true
  | .instr (.addi _ _ _) _ _ _ => true
  | _ => false

/-- The operation puts a link word together: `or` or `add` with a constant of kind 01. -/
def makesLink (f : PFunc) (i : Nat) (op : POp) : Bool :=
  let kind := fun (d : Nat) => (constOf f 16 i d).any fun x => fieldNat x 63 62 == 1
  match op with
  | .instr (.or _ _ _) a b _ => kind a || kind b
  | .instr (.add _ _ _) a b _ => kind a || kind b
  | _ => false

/-- Edges into the operations that `p` picks. -/
def edgesInto (fs : List PFunc) (p : POp → Bool) : List (Nat × Nat) :=
  operandEdges (fs.map fun f => { f with ops := f.ops.map fun o => if p o then o else .blk 0 })

/-- What constants say of how far a value lies from a base: up to eight distances; nine stand for any. -/
abbrev Dists := List Word

def Dists.any' (ds : Dists) : Bool := decide (9 ≤ ds.length)
def Dists.join (x y : Dists) : Dists := (y.foldl (fun l d => if l.contains d then l else l ++ [d]) x).take 9

/-- One pass along edges that add a constant; `red` reduces a distance. -/
def distPass (red : Word → Word) (es : List (Nat × Nat × Word)) (t : Array Dists) : Array Dists :=
  es.foldl (fun t e => t.modify e.1 fun v => Dists.join v ((t.getD e.2.1 []).map fun d => red (d + e.2.2))) t

/-- The distances of every value, from those of the bases: passes until nothing changes, at most `n`. -/
def distFix (red : Word → Word) (es : List (Nat × Nat × Word)) : Nat → Array Dists → Array Dists
  | 0, t => t
  | n + 1, t =>
    let t' := distPass red es t
    if t' == t then t else distFix red es n t'

/-- The distances of every value from the bases that `base` picks. -/
def distances (fs : List PFunc) (red : Word → Word) (es : List (Nat × Nat × Word)) (base : Nat → Nat → POp → Bool) : Array Dists :=
  let start := (fs.zipIdx.flatMap fun x => x.1.ops.zipIdx.map fun y => if base x.2 y.2 y.1 then [(0 : Word)] else []).toArray
  distFix red es (9 * start.size + 1) start

/-- The operand that an operation adds a constant to, with the constant. A base is a multiple of 64 KiB, and `or` adds to it. -/
def addend (f : PFunc) (i : Nat) : POp → Option (Nat × Word)
  | .instr (.addi _ _ k) a _ _ => some (a, sext12 k)
  | .instr (.ori _ _ k) a _ _ => some (a, sext12 k)
  | .instr (.sub _ _ _) a b _ => (constOf f 16 i b).map fun k => (a, -k)
  | .instr (.add _ _ _) a b _ => ((constOf f 16 i b).map fun k => (a, k)).or ((constOf f 16 i a).map fun k => (b, k))
  | .instr (.or _ _ _) a b _ => ((constOf f 16 i b).map fun k => (a, k)).or ((constOf f 16 i a).map fun k => (b, k))
  | _ => none

/-- Edges to the value of an operation from operands by their distances, each with what it adds. -/
def addEdges (fs : List PFunc) (adds : PFunc → Nat → POp → List (Nat × Word)) : List (Nat × Nat × Word) :=
  fs.zipIdx.flatMap fun x => x.1.ops.zipIdx.flatMap fun y =>
    ((adds x.1 y.2 y.1).filter fun d => decide (1 ≤ d.1) && decide (d.1 ≤ 2000) && decide (d.1 ≤ y.2)).map fun d =>
      (nodeOf fs x.2 y.2, nodeOf fs x.2 (y.2 - d.1), d.2)

/-- Values as they stand, and with constants added. -/
def shiftEdges (fs : List PFunc) : List (Nat × Nat × Word) :=
  ((moveEdges fs).map fun e => (e.1, e.2, 0)) ++ addEdges fs fun f i op => (addend f i op).toList

/-- Sums of two values neither of which is constant. -/
def sumEdges (fs : List PFunc) : List (Nat × Nat × Word) :=
  addEdges fs fun f i op => match op with
    | .instr (.add _ _ _) a b _ => if (addend f i op).isSome then [] else [(a, 0), (b, 0)]
    | _ => []

/-- What a load reads: how far from the value that dA reaches, and how many bytes. -/
def loadSpan (i : Instr) : Option (Word × Nat) :=
  match accessesOf i with
  | [.at off n] => if producesValue i then some (BitVec.ofInt 64 off, n) else none
  | _ => none

/-- A load at distances that a table gives reads a byte that `hit` picks, from where it begins and how many bytes it reads. -/
def readsAt (fs : List PFunc) (t : Array Dists) (hit : Word → Nat → Bool) (f i : Nat) (op : POp) : Bool :=
  match op with
  | .instr ins a _ _ =>
    decide (1 ≤ a) && decide (a ≤ 2000) && decide (a ≤ i) &&
      (loadSpan ins).any fun x =>
        let ds := t.getD (nodeOf fs f (i - a)) []
        ds.any' || ds.any fun d => hit (d + x.1) x.2
  | _ => false

/-- The distances of values from the pool base. -/
def poolDists (fs : List PFunc) : Array Dists :=
  distances fs id (shiftEdges fs) fun _ _ op => match op with
    | .instr (.getst _ n) _ _ _ => n.toNat == 12
    | _ => false

/-- The distances of values from an address in a tile descriptor table, modulo a descriptor: read from TDTAB of a pool's header,
and sums from there, where an index counts whole descriptors (R228, R245). -/
def tableDists (fs : List PFunc) : Array Dists :=
  let pools := poolDists fs
  distances fs (fun d => d &&& 31) (shiftEdges fs ++ sumEdges fs) fun f i op =>
    readsAt fs pools (fun x n => decide ((x - 0x28 + BitVec.ofNat 64 (n - 1)).toNat < n + 7)) f i op

/-- The values that are addresses in a tile descriptor table. -/
def tableAddrs (fs : List PFunc) : Array Nat := (tableDists fs).map fun ds => if ds.isEmpty then 0 else 1

/-- The values that are addresses of a pool or of a tile's buffer, sums from there, and link words: those that operations make, and
what `nrd` gives, which may be one. -/
def placeWords (fs : List PFunc) : Array Nat :=
  let tables := tableDists fs
  marks fs (moveEdges fs ++ edgesInto fs additive) fun f i op =>
    let own := match op with
      | .instr (.getst _ n) _ _ _ => n.toNat == 12
      | .instr (.nrd _ _) _ _ _ => true
      | op => readsAt fs tables (fun x n => (List.range n).any fun b => (x.toNat + b) / 8 % 4 == 1) f i op || (match fs[f]? with
        | some g => makesLink g i op
        | none => false)
    if own then 1 else 0

/-- The values that come of node offsets, pool bases and buffer addresses and are neither link words nor addresses. -/
def offsetValues (fs : List PFunc) (rules : List Nat) : Array Nat :=
  let places := placeWords fs
  let free := (operandEdges fs ++ maskEdges fs).filter fun e => places.getD e.1 0 == 0
  marks fs (moveEdges fs ++ free) fun f i op =>
    let own := match op with
      | .prm _ => rules.contains f && (i == 1 || i == 2)
      | .instr (.nalloc _ _) _ _ _ => true
      | .instr ins _ _ _ =>
        places.getD (nodeOf fs f i) 0 == 0 && !addressOnly ins &&
          (operands op).any fun d => marksAt fs places 0 f i d.1 != 0
      | _ => false
    if own then 1 else 0

/-! ### The uses that R248 rejects -/

/-- Which of dA, dB and dC is the data operand of a store, or an operand of an engine command. -/
def dataUse : Instr → Bool × Bool × Bool
  | .sb _ _ _ => (false, true, false)
  | .sh _ _ _ => (false, true, false)
  | .sw _ _ _ => (false, true, false)
  | .sd _ _ _ => (false, true, false)
  | .sx _ _ _ _ _ _ _ => (false, false, true)
  | .vst _ _ => (false, false, true)
  | .vstx _ _ _ => (false, false, true)
  | .amo _ _ _ _ _ _ => (false, true, true)
  | .tagw _ _ => (false, true, false)
  | _ => (false, false, false)

/-- An instruction whose operands an engine takes (R248). -/
def engineUse : Instr → Bool
  | .mldA _ _ _ => true
  | .mldB _ _ _ => true
  | .mst _ _ _ => true
  | .mma _ _ _ _ _ => true
  | .cpy _ _ _ _ _ _ _ => true
  | .cpst _ _ => true
  | .laccClr _ => true
  | .laccAdd _ _ => true
  | .laccAddp _ _ _ => true
  | .laccMrg _ _ => true
  | .laccRdF32 _ _ => true
  | .laccRdF64 _ _ => true
  | .nalloc _ _ => true
  | .nfree _ => true
  | .nlink _ _ => true
  | .npush _ _ => true
  | .nrd _ _ => true
  | .rpart _ _ => true
  | _ => false

/-- A floating-point addition, subtraction, fused multiply-add or `vfred.add` (R248). -/
def floatSum : Instr → Bool
  | .vfadd _ _ _ _ _ _ _ => true
  | .vfsub _ _ _ _ _ _ _ => true
  | .vfma _ _ _ _ _ _ _ => true
  | .vfredAddF32 _ _ => true
  | .vfredAddBf16 _ _ => true
  | _ => false

/-- An operand of an engine command that is no address: a term, a count. -/
def engineData : Instr → Bool × Bool × Bool
  | .laccAdd _ _ => (false, true, false)
  | .laccAddp _ _ _ => (false, true, true)
  | .mldA _ _ _ => (false, true, false)
  | .mldB _ _ _ => (false, true, false)
  | .mst _ _ _ => (false, true, false)
  | .mma _ _ _ _ _ => (true, true, true)
  | .cpy _ _ _ _ _ _ _ => (false, false, true)
  | .cpst _ _ => (true, true, true)
  | .nalloc _ _ => (true, false, false)
  | _ => (false, false, false)

/-- A branch or jump. -/
def branches (op : POp) : Bool := op.target.isSome

/-- Some mark of a set is among others. -/
def hasMark (m set : Nat) : Bool := m &&& set != 0

/-- The operation stores, commands an engine or pushes to `dep`. -/
def storesSome : POp → Bool
  | .instr ins _ _ c =>
    let u := dataUse ins
    u.1 || u.2.1 || u.2.2 || engineUse ins || (!rdSource ins && c == 1023)
  | _ => false

/-- Positions that follow from one: where control goes, the child that a `spawn` makes, and the image's handlers `hs` of a
`msg`. -/
def flowNext (fs : List PFunc) (hs : List Nat) (x : Nat × Nat) : List (Nat × Nat) :=
  callNext fs x ++ (match (fs[x.1]?).bind fun f => (f.ops[x.2]?).map fun op => (f, op) with
    | some (_, .instr (.msg _ _ _ _) _ _ _) => hs.map fun h => (h, 0)
    | some (f, op) => ((spawnEntry f x.2 op).map fun g => (g, 0)).toList
    | none => [])

/-- The branch leads to a store. -/
def leadsToStore (fs : List PFunc) (hs : List Nat) (f i : Nat) : Bool :=
  (walkFrom (flowNext fs hs) (fun _ => false) (walkFuel fs) (flowNext fs hs (f, i)) []).any fun x => (opAt fs x).any storesSome

/-- The operation is a use that R248 rejects, or lets a repartition's handle or status flow where R404 forbids; `o` marks the
values of `offsetValues`, and `masks` the edges through mask registers. -/
def profileBad (fs : List PFunc) (hs : List Nat) (masks : List (Nat × Nat)) (m o : Array Nat) (f i : Nat) (op : POp) : Bool :=
  let at' := marksAt fs m 64 f i
  let off := fun (use : Bool × Bool × Bool) (a b c : Nat) =>
    (use.1 && marksAt fs o 0 f i a != 0) || (use.2.1 && marksAt fs o 0 f i b != 0) || (use.2.2 && marksAt fs o 0 f i c != 0)
  match op with
  | .arg a => hasMark (at' a) (4 + 32)
  | .ret a => hasMark (at' a) (4 + 32)
  | .instr ins a b c =>
    let use := dataUse ins
    let c' := if rdSource ins then (if c = 1022 then 2046 else c) else 0
    let own := nodeOf fs f i
    let all := (masks.filter fun e => e.1 == own).foldl (fun v e => v ||| m.getD e.2 0) (at' a ||| at' b ||| at' c')
    (match ins with
     | .lx _ mo _ _ _ _ _ => mo == .rdn
     | .lxQ mo _ _ _ _ _ => mo == .rdn
     | .tagr _ _ => true
     | _ => false) ||
    ((use.1 && hasMark (at' a) 7) || (use.2.1 && hasMark (at' b) 7) || (use.2.2 && hasMark (at' c') 7)) ||
    off use a b c' || off (engineData ins) a b c' ||
    (engineUse ins && hasMark all 3) ||
    (branches op && hasMark all 2) ||
    (branches op && (hasMark all 5 || off (true, true, false) a b 0) && leadsToStore fs hs f i) ||
    ((producesValue ins || engineUse ins || !(maskWrites ins).isEmpty) && hasMark all 4) ||
    hasMark all 32 ||
    (hasMark all 16 && !(match ins with
      | .rpst _ _ => true
      | _ => false)) ||
    (!rdSource ins && c == 1023 && (hasMark (m.getD own 0) (7 + 16) || o.getD own 0 != 0)) ||
    (floatSum ins && hasMark all 64)
  | _ => false

/-- The first use that the replay-exact profile rejects; `hs` are the handlers' functions. -/
def profileError (fs : List PFunc) (first : Nat → Nat) (rules hs : List Nat) : Option Nat :=
  let masks := maskEdges fs
  let m := marks fs (operandEdges fs ++ masks ++ moveEdges fs) fun _ _ => profileOwn
  firstBad fs first (profileBad fs hs masks m (offsetValues fs rules))

/-! ### Seals that portable code may end (R411) -/

/-- Marks of handles: 1 the result of a `seal` whose length is a `cnst` with bits 41:40 = 00, 2 any other value. Parameters of the
functions that are entered from outside come from elsewhere. -/
def sealOwn (fs : List PFunc) (rel : Nat → Nat → Bool) (outside : List Nat) (f i : Nat) (op : POp) : Nat :=
  match op with
  | .instr (.seal _ _ _) _ l _ =>
    if (fs[f]?).any fun g => (g.constAt i l).any fun c => !rel f c.1 && fieldNat (BitVec.ofInt 64 c.2) 41 40 == 0 then 1 else 2
  | .instr _ _ _ _ => 2
  | .cnst _ => 2
  | .prm k => if i = k + 1 ∧ outside.contains f = true then 2 else 0
  | .arg a => if a = 0 ∨ a = 2046 then 2 else 0
  | .ret a => if a = 0 ∨ a = 2046 then 2 else 0
  | _ => 0

/-- The first `unseal` whose handle may be anything else than such a seal made in the image. -/
def unsealError (fs : List PFunc) (first : Nat → Nat) (rel : Nat → Nat → Bool) (outside : List Nat) : Option Nat :=
  let m := marks fs (moveEdges fs) (sealOwn fs rel outside)
  firstBad fs first fun f i op => match op with
    | .instr (.unseal _) a _ _ => marksAt fs m 2 f i a != 1
    | _ => false

/-! ### For an image -/

/-- The functions of an image's rules. -/
def imgRuleFuncs (b : List Byte) : List Nat := (List.range (nRule b)).map fun i => (imgRule b i).2.2

/-- The functions of its handlers. -/
def imgHandFuncs (b : List Byte) : List Nat := (List.range (nHand b)).map fun i => (imgHand b i).2.2

/-- A check over the functions of an image whose operations all decode. -/
def imgCheck (b : List Byte) (check : List PFunc → (Nat → Nat) → Option Nat) : Option Nat :=
  match imgFuncs b with
  | .error i => some i
  | .ok fs => check fs fun i => (imgFunc b i).1

/-- Types, then `unseal`, then the shape of the rule routines: the index of the first operation refused (R244, R259 step 2,
R411). -/
def flowError (b : List Byte) : Option Nat :=
  let outside := 0 :: imgHandFuncs b ++ imgRuleFuncs b ++ (if trapFn b = 0 then [] else [trapFn b - 1])
  ((imgCheck b typeError).or (imgCheck b fun fs first => unsealError fs first (relocAt b) outside)).or
    (imgCheck b fun fs first => shapeError fs first (imgRuleFuncs b))

/-- The first use that R248 rejects. -/
def replayError (b : List Byte) : Option Nat :=
  imgCheck b fun fs first => profileError fs first (imgRuleFuncs b) (imgHandFuncs b)

end Sys2Proof.Machine
end

