-- ==== Sys2Proof/Machine/Ranges.lean ====
section
/-! DEFINITION. What the Winnower proves of the addresses of an image: folded constants, loops with their trip counts, the
ranges of values, and the accesses whose check it may elide (R262, R264, R266 bit 6, R282). -/

namespace Sys2Proof.Machine

/-! ### Folded constants (R282) -/

/-- A local address with the package's own number. -/
def Folded.global (p : Folded) (a : Nat) : Nat := p.pkg * 2 ^ 40 + a

/-- The address that a relocation's symbol stands for. -/
def Folded.symbol (p : Folded) (k : Nat) : Nat := p.global (if k = 0xFFFF then p.data else p.regions.getD k 0)

/-- The relocation at an operation of a function: its symbol. -/
def relocSymbol (b : List Byte) (i j : Nat) : Option Nat :=
  ((List.range (nReloc b)).find? fun k => (imgReloc b k).1 == i && (imgReloc b k).2.1 == j).map fun k => (imgReloc b k).2.2

/-- A function whose relocated constants are folded. -/
def foldFunc (b : List Byte) (p : Folded) (i : Nat) (f : PFunc) : PFunc :=
  { f with ops := f.ops.mapIdx fun j op => match op, relocSymbol b i j with
      | .cnst v, some k => .cnst (v + p.symbol k)
      | op, _ => op }

/-- The functions of an image, folded. -/
def foldFuncs (b : List Byte) (p : Folded) : List PFunc :=
  match imgFuncs b with
  | .error _ => []
  | .ok fs => fs.mapIdx (foldFunc b p)

/-! ### Edges and what dominates (R44, R262) -/

/-- An edge of control, and whether a branch is taken on it. -/
structure Edge where
  src   : Nat
  dst   : Nat
  taken : Bool
  deriving DecidableEq, Repr

/-- The edges of a function. -/
def PFunc.edges (f : PFunc) : List Edge :=
  f.ops.zipIdx.flatMap fun y =>
    (if y.1.ends then [] else [⟨y.2, y.2 + 1, false⟩]) ++ (match y.1.target with
      | some (some b) => ((f.blocks[b]?).map fun q => (⟨y.2, q, true⟩ : Edge)).toList
      | _ => [])

/-- Positions reached from `todo` along edges. -/
def reachAlong (es : List Edge) : Nat → List Nat → List Nat → List Nat
  | 0, _, seen => seen
  | _ + 1, [], seen => seen
  | n + 1, x :: xs, seen =>
    if seen.contains x then reachAlong es n xs seen
    else reachAlong es n (((es.filter fun e => e.src == x).map fun e => e.dst) ++ xs) (x :: seen)

/-- Every path to a position passes along an edge. -/
def PFunc.edgeDominates (f : PFunc) (e : Edge) (i : Nat) : Bool :=
  !(reachAlong (f.edges.filter (· != e)) (2 * f.ops.length + 2) [0] []).contains i

/-! ### Guards (R262) -/

/-- A guard: a value is at least `lo` and at most `hi`, and is not `ne`. -/
structure Guard where
  val : Nat
  lo  : Nat
  hi  : Nat
  ne  : Option Nat
  deriving DecidableEq, Repr

/-- The largest word. -/
def wordMax : Nat := 2 ^ 64 - 1

/-- The position of the value that a distance reaches. -/
def reached (i d : Nat) : Option Nat := if 1 ≤ d ∧ d ≤ 2000 ∧ d ≤ i then some (i - d) else none

/-- A guard on a value that a distance reaches. -/
def guardOn (i d lo hi : Nat) (ne : Option Nat) : List Guard := ((reached i d).map fun v => ⟨v, lo, hi, ne⟩).toList

/-- What it says that one operand lies below another, unsigned, or does not. -/
def belowGuards (f : PFunc) (i a b : Nat) (holds : Bool) : List Guard :=
  (match constOf f 16 i b with
   | some k => if holds then (if k = 0 then [] else guardOn i a 0 (k.toNat - 1) none) else guardOn i a k.toNat wordMax none
   | none => []) ++
  (match constOf f 16 i a with
   | some k => if holds then (if k.toNat = wordMax then [] else guardOn i b (k.toNat + 1) wordMax none)
      else guardOn i b 0 k.toNat none
   | none => [])

/-- What it says that the result of a comparison is zero, or is not. -/
def resultGuards (f : PFunc) (i d : Nat) (zero : Bool) : List Guard :=
  match reached i d with
  | none => []
  | some j =>
    match f.ops[j]? with
    | some (.instr (.sltu _ _ _) a b _) => belowGuards f j a b (!zero)
    | some (.instr (.sltiu _ _ k) a _ _) =>
      let k := (sext12 k).toNat
      if zero then guardOn j a k wordMax none else if k = 0 then [] else guardOn j a 0 (k - 1) none
    | _ => []

/-- What it says that two operands are equal, or are not. -/
def equalGuards (f : PFunc) (i a b : Nat) (holds : Bool) : List Guard :=
  let one := fun (x y : Nat) => match constOf f 16 i y with
    | some k => guardOn i x (if holds then k.toNat else 0) (if holds then k.toNat else wordMax) (if holds then none else some k.toNat) ++
        (if k = 0 then resultGuards f i x holds else [])
    | none => []
  one a b ++ one b a

/-- The guards that hold on an edge, from the branch it leaves. -/
def edgeGuards (f : PFunc) (e : Edge) : List Guard :=
  match f.ops[e.src]? with
  | some (.instr (.beq _ _ _) a b _) => equalGuards f e.src a b e.taken
  | some (.instr (.bne _ _ _) a b _) => equalGuards f e.src a b (!e.taken)
  | some (.instr (.bltu _ _ _) a b _) => belowGuards f e.src a b e.taken
  | some (.instr (.bgeu _ _ _) a b _) => belowGuards f e.src a b (!e.taken)
  | _ => []

/-- The guards that dominate a position. -/
def guardsAt (f : PFunc) (i : Nat) : List Guard :=
  f.edges.flatMap fun e => match edgeGuards f e with
    | [] => []
    | gs => if f.edgeDominates e i then gs else []

/-- The guards that hold on an edge. -/
def guardsOn (f : PFunc) (e : Edge) : List Guard := guardsAt f e.src ++ edgeGuards f e

/-! ### Ranges -/

/-- A range of values: `lo` to `hi` from zero or from the base of the running task's pool, each with `c0` to `c1` times the size
of a scratchpad window of one core added (R262, Table 05.1). -/
structure VRange where
  pool : Bool
  c0   : Nat
  c1   : Nat
  lo   : Nat
  hi   : Nat
  deriving DecidableEq, Repr

/-- The step from one core's window to the next (Table 05.1). -/
def coreStep : Nat := 0x80000

def VRange.first (r : VRange) : Nat := r.c0 * coreStep + r.lo
def VRange.last (r : VRange) : Nat := r.c1 * coreStep + r.hi

/-- A plain range, where it is one of words. -/
def plainRange (lo hi : Nat) : Option VRange := if lo ≤ hi ∧ hi ≤ wordMax then some ⟨false, 0, 0, lo, hi⟩ else none

/-- A range shifted by a constant. -/
def VRange.shift (r : VRange) (k : Int) : Option VRange :=
  if 0 ≤ (r.lo : Int) + k then
    (let r' : VRange := { r with lo := ((r.lo : Int) + k).toNat, hi := ((r.hi : Int) + k).toNat }
     if r'.last ≤ wordMax then some r' else none)
  else none

/-- The sum of two ranges. -/
def VRange.plus (r q : VRange) : Option VRange :=
  let s : VRange := ⟨r.pool || q.pool, r.c0 + q.c0, r.c1 + q.c1, r.lo + q.lo, r.hi + q.hi⟩
  if (r.pool && q.pool) || decide (wordMax < s.last) then none else some s

/-- A range times a constant; times the window step, it counts cores. -/
def VRange.times (r : VRange) (k : Nat) : Option VRange :=
  if r.pool then none
  else if k = coreStep ∧ r.last ≤ 1023 then some ⟨false, r.first, r.last, 0, 0⟩
  else plainRange (r.first * k) (r.last * k)

/-- A range that holds two. -/
def VRange.join (r q : VRange) : Option VRange :=
  if r.pool == q.pool then
    (if (r.c0, r.c1) = (q.c0, q.c1) then some { r with lo := min r.lo q.lo, hi := max r.hi q.hi }
     else some ⟨r.pool, 0, 0, min r.first q.first, max r.last q.last⟩)
  else none

/-- A range that holds all of a list, when each is known and there is one. -/
def joinAll : List (Option VRange) → Option VRange
  | [] => none
  | [r] => r
  | r :: rs => r.bind fun a => (joinAll rs).bind a.join

/-- A range under the guards of its value. -/
def guarded (gs : List Guard) (v : Nat) (r : Option VRange) : Option VRange :=
  let mine := gs.filter fun g => g.val == v
  let r0 : VRange := r.getD ⟨false, 0, 0, 0, wordMax⟩
  if mine.isEmpty || r0.pool || decide (0 < r0.c1) then r
  else
    let lo := mine.foldl (fun m g => max m g.lo) r0.lo
    let hi := mine.foldl (fun m g => min m g.hi) r0.hi
    let lo := if mine.any fun g => g.ne == some lo then lo + 1 else lo
    let hi := if mine.any (fun g => g.ne == some hi) && decide (0 < hi) then hi - 1 else hi
    if lo = 0 ∧ hi = wordMax then none else plainRange lo hi

/-! ### Loops (R244, R262) -/

/-- The block a `prm` belongs to and its place: the position of the `blk`, and the index. -/
def prmOf (f : PFunc) (v : Nat) : Option (Nat × Nat) :=
  match f.ops[v]? with
  | some (.prm k) => some (v - k - 1, k)
  | _ => none

/-- The values that reach a parameter along the edges into its block: the edge, and where the argument stands. -/
def arrivals (f : PFunc) (blk k : Nat) : List (Edge × Nat) :=
  match f.ops[blk]? with
  | some (.blk n) => (f.edges.filter fun e => e.dst == blk && e.taken).map fun e => (e, e.src - n + k)
  | _ => []

/-- The distance that an `arg` carries. -/
def argDist (f : PFunc) (q : Nat) : Nat :=
  match f.ops[q]? with
  | some (.arg a) => a
  | _ => 2046

/-- How far a value lies from another that it is computed from by adding constants. -/
def traceTo (f : PFunc) (root : Nat) : Nat → Nat → Option Int
  | 0, _ => none
  | n + 1, v =>
    if v = root then some 0
    else
      let go := fun (d : Nat) => (reached v d).bind (traceTo f root n)
      match f.ops[v]? with
      | some (.instr (.addi _ _ k) a _ _) => (go a).map fun x => x + k.toInt
      | some (.instr (.add _ _ _) a b _) =>
        (match constOf f 16 v b, constOf f 16 v a with
         | some k, _ => (go a).map fun x => x + k.toInt
         | none, some k => (go b).map fun x => x + k.toInt
         | none, none => none)
      | some (.instr (.sub _ _ _) a b _) => (constOf f 16 v b).bind fun k => (go a).map fun x => x - k.toInt
      | some (.prm k) =>
        let ins := (arrivals f (v - k - 1) k).filterMap fun x =>
          if reached x.2 (argDist f x.2) = some v then none else some ((reached x.2 (argDist f x.2)).bind (traceTo f root n))
        (match ins with
         | some x :: rest => if rest.all (· == some x) then some x else none
         | _ => none)
      | _ => none

/-- How deep values are followed. -/
def traceFuel : Nat := 24

/-- The edges into a parameter's block on which it comes back changed by a constant, with the constant; and the others. -/
def backEdges (f : PFunc) (v : Nat) : List (Edge × Int) × List (Edge × Nat) :=
  match prmOf f v with
  | none => ([], [])
  | some (blk, k) =>
    (arrivals f blk k).foldl (fun acc x =>
      match (reached x.2 (argDist f x.2)).bind (traceTo f v traceFuel) with
      | some δ => (acc.1 ++ [(x.1, δ)], acc.2)
      | none => (acc.1, acc.2 ++ [x])) ([], [])

/-- A guard of an edge on a value that lies `off` from a parameter. -/
structure BackGuard where
  lo  : Nat
  hi  : Nat
  ne  : Option Nat
  off : Int
  deriving DecidableEq, Repr

/-- The guards of an edge on values that follow a parameter by a small distance. -/
def backGuards (f : PFunc) (v : Nat) (e : Edge) : List BackGuard :=
  ((guardsOn f e).filterMap fun g => (traceTo f v traceFuel g.val).map fun w => ⟨g.lo, g.hi, g.ne, w⟩).filter fun g =>
    decide (g.off.natAbs ≤ 2 ^ 32)

/-- The largest number that bounds a parameter: no sum of it and small distances is beyond a word, so that a guard's value does not
wrap (R262). -/
def boundMax : Nat := 2 ^ 62

/-- The values that an edge with change `δ` does not bring back to a parameter. -/
def backStops (f : PFunc) (v : Nat) (x : Edge × Int) : List Int :=
  (backGuards f v x.1).filterMap fun g => g.ne.map fun k => (k : Int) - g.off + x.2

/-- The least value that no edge brings back to a parameter and that `p` picks. -/
def sharedStop (f : PFunc) (v : Nat) (backs : List (Edge × Int)) (p : Int → Bool) : Option Int :=
  match backs with
  | [] => none
  | x :: xs => ((backStops f v x).filter fun k => p k && xs.all fun y => (backStops f v y).contains k).min?

/-- The most that edges bring back to a parameter that starts in a range: by a guard on each edge that raises it; or by a value that
none brings back, where all edges raise it by the same steps and meet that value. -/
def topOf (f : PFunc) (v : Nat) (init : VRange) (backs : List (Edge × Int)) : Option Nat :=
  let byGuard := fun (x : Edge × Int) =>
    ((backGuards f v x.1).filterMap fun g => if g.hi ≤ boundMax then some ((g.hi : Int) - g.off + x.2).toNat else none).min?
  let steps := fun (δ : Int) => (sharedStop f v backs fun k =>
    (decide ((init.hi : Int) < k) && decide (k ≤ boundMax) && (δ == 1 || (init.lo == init.hi && (k - init.lo) % δ == 0)))).map fun k =>
      (k - δ).toNat
  if boundMax < init.last ∨ backs.any (fun x => decide (2 ^ 32 < x.2.natAbs)) = true then none
  else
    (((backs.filter fun x => decide (0 < x.2)).mapM byGuard).map fun ts => ts.foldl max init.hi).or
      (match backs with
       | [] => none
       | x :: xs => if 0 < x.2 ∧ xs.all (fun y => y.2 == x.2) = true then steps x.2 else none)

/-- The least that edges bring back to a parameter: by a guard on each edge that lowers it, whose value does not fall below
zero; or, one at a time, by a value that no edge brings back. -/
def bottomOf (f : PFunc) (v : Nat) (init : VRange) (backs : List (Edge × Int)) : Option Nat :=
  let byGuard := fun (x : Edge × Int) =>
    ((backGuards f v x.1).filterMap fun g =>
      let b := (g.lo : Int) - g.off + x.2
      if 0 ≤ b then some (b, g.off) else none).foldl (fun m y => some (match m with
        | some z => if z.1 < y.1 then y else z
        | none => y)) (none : Option (Int × Int))
  if boundMax < init.last ∨ backs.any (fun x => decide (2 ^ 32 < x.2.natAbs)) = true then none
  else
    (((backs.filter fun x => decide (x.2 < 0)).mapM byGuard).bind fun bs =>
      let least := bs.foldl (fun m b => min m b.1) (init.lo : Int)
      if bs.all fun b => decide (0 ≤ least + b.2) then some least.toNat else none).or
      (if backs.all fun x => x.2 == -1 then
        (sharedStop f v backs fun k => decide (0 ≤ k) && decide (k < init.lo)).map fun k => (k + 1).toNat
       else none)

/-- The passes that one parameter allows a loop from the range it starts in, until an edge sets it anew. -/
def paramTrips (f : PFunc) (v : Nat) (init : VRange) : Option Nat :=
  let backs := (backEdges f v).1
  match backs with
  | [] => none
  | (_, δ) :: rest =>
    if rest.any (fun x => x.2 != δ) || init.pool || decide (0 < init.c1) then none
    else if 0 < δ then
      (topOf f v init backs).map fun top => if top < init.lo then 1 else 1 + (top - init.lo) / δ.toNat
    else if δ < 0 then
      (bottomOf f v init backs).map fun bottom => 1 + (init.hi - bottom) / (-δ).toNat
    else none

/-! ### The ranges of values (R262) -/

/-- What values are followed through: the functions with their constants folded, those a task may enter otherwise than by
`call`, those that only tasks of rules run, and the size of the image's smallest pool. -/
structure Proving where
  fs    : List PFunc
  roots : List Nat
  rules : List Nat
  pool  : Nat
  deriving DecidableEq, Repr

/-- A mask that an `and` applies. -/
def maskRange (k : Word) : Option VRange := if k.getLsbD 63 then none else plainRange 0 k.toNat

/-- The ranges of `getst` values (Table 21.3). -/
def stateRange (p : Folded) (rule : Bool) (n : Nat) : Option VRange :=
  if n = 0 then plainRange 0 1023
  else if n = 1 then plainRange 0 63
  else if n = 2 then plainRange 0 127
  else if n = 3 then plainRange 0 15
  else if n = 4 then plainRange 0 63
  else if n = 12 then (if rule then some ⟨true, 0, 0, 0, 0⟩ else none)
  else if n = 13 then plainRange p.pkg p.pkg
  else if n = 14 then plainRange 0 255
  else none

/-- The range of a value from those of the values it is computed from (`at`), in function `fi`. -/
def opRange (p : Folded) (c : Proving) (fi : Nat) (f : PFunc) (at' : Nat → Nat → Option VRange) (v : Nat) (op : POp) : Option VRange :=
  let at' := at' v
  match op with
  | .cnst k => let w := (BitVec.ofInt 64 k).toNat
               plainRange w w
  | .instr i a b _ =>
    match i with
    | .lui _ k => let w := ((k ++ 0#12).signExtend 64).toNat
                  plainRange w w
    | .addi _ _ k => (at' a).bind fun r => r.shift k.toInt
    | .add _ _ _ => (at' a).bind fun r => (at' b).bind r.plus
    | .sub _ _ _ => (constOf f 16 v b).bind fun k => (at' a).bind fun r => r.shift (-(k.toNat : Int))
    | .slli _ _ k => (at' a).bind fun r => r.times (2 ^ k.toNat)
    | .mul _ _ _ =>
      (match constOf f 16 v b, constOf f 16 v a with
       | some k, _ => (at' a).bind fun r => r.times k.toNat
       | none, some k => (at' b).bind fun r => r.times k.toNat
       | none, none => none)
    | .srli _ _ k => (match at' a with
      | some r => if r.pool then none else plainRange (r.first / 2 ^ k.toNat) (r.last / 2 ^ k.toNat)
      | none => plainRange 0 (wordMax / 2 ^ k.toNat))
    | .andi _ _ k => maskRange (sext12 k)
    | .and _ _ _ => ((constOf f 16 v b).bind maskRange).or ((constOf f 16 v a).bind maskRange)
    | .remu _ _ _ => (constOf f 16 v b).bind fun k => if k = 0 then none else plainRange 0 (k.toNat - 1)
    | .slt _ _ _ => plainRange 0 1
    | .sltu _ _ _ => plainRange 0 1
    | .slti _ _ _ => plainRange 0 1
    | .sltiu _ _ _ => plainRange 0 1
    | .getst _ n => stateRange p (c.rules.contains fi) n.toNat
    | _ => none
  | _ => none

/-- Where functions are called from: the function, the position of the `call`, and its arguments' first place. -/
def callsTo (fs : List PFunc) (g : Nat) : List (Nat × Nat) :=
  fs.zipIdx.flatMap fun x => x.1.ops.zipIdx.filterMap fun y => if y.1 = .call g then some (x.2, y.2) else none

/-- The range of a loop's parameter: from where it starts, as far as guards or another parameter's passes let it go, which
comes back changed by a constant on every edge on which this one does. -/
def inductRange (f : PFunc) (v : Nat) (init : Nat → Option VRange) : Option VRange :=
  match prmOf f v with
  | none => none
  | some (blk, _) =>
    let backs := (backEdges f v).1
    (init v).bind fun r =>
      let up := (backs.map fun x => x.2).foldl max 0
      let down := (backs.map fun x => x.2).foldl min 0
      if up = 0 ∧ down = 0 then some r
      else
        let n := match f.ops[blk]? with
          | some (.blk n) => n
          | _ => 0
        let with' := fun (u : Nat) => backs.all fun x => (backEdges f u).1.any fun y => y.1 == x.1
        let trips := ((List.range n).filterMap fun k =>
          if with' (blk + 1 + k) then (init (blk + 1 + k)).bind (paramTrips f (blk + 1 + k)) else none).min?
        let plain := !r.pool && decide (r.c1 = 0)
        let top := if plain then topOf f v r backs else none
        let bottom := if plain then bottomOf f v r backs else none
        let hi : Option Nat :=
          if up = 0 then some r.hi
          else (top.map fun h => max r.hi h).or (trips.map fun t => r.hi + up.toNat * (t - 1))
        let lo : Option Nat :=
          if down = 0 then some r.lo
          else (bottom.map fun l => min r.lo l).or
            (trips.bind fun t => if (-down).toNat * (t - 1) ≤ r.lo then some (r.lo - (-down).toNat * (t - 1)) else none)
        hi.bind fun h => lo.bind fun l =>
          let q : VRange := { r with lo := l, hi := h }
          if q.last ≤ wordMax then some q else none

/-- The range of the value at a position of a function: a parameter's holds what reaches it on every edge, and an induction
value's is bounded by its loop (R262). The fuel bounds the depth. -/
def valueRange (p : Folded) (c : Proving) : Nat → Nat → Nat → Option VRange
  | 0, _, _ => none
  | n + 1, fi, v =>
    match c.fs[fi]? with
    | none => none
    | some f =>
      let reach := fun (gs : List Guard) (g i d : Nat) =>
        if d = 0 then plainRange 0 0
        else (reached i d).bind fun w => guarded gs w (valueRange p c n g w)
      match f.ops[v]? with
      | some (.prm k) =>
        if v = k + 1 then
          (if c.roots.contains fi then none
           else
            joinAll ((callsTo c.fs fi).map fun x => match c.fs[x.1]? with
              | none => none
              | some g =>
                let q := x.2 - f.params + k
                reach (guardsAt g x.2) x.1 q (argDist g q)) |>.bind fun r =>
              if (backEdges f v).1.isEmpty && (backEdges f v).2.isEmpty then some r else none)
        else
          inductRange f v fun u => joinAll ((backEdges f u).2.map fun x => reach (guardsOn f x.1) fi x.2 (argDist f x.2))
      | some op => opRange p c fi f (fun i d => reach (guardsAt f i) fi i d) v op
      | none => none

/-- The range of the value that a distance reaches at a position. -/
def operandRange (p : Folded) (c : Proving) (fi i d : Nat) : Option VRange :=
  if d = 0 then plainRange 0 0
  else (c.fs[fi]?).bind fun f => (reached i d).bind fun v => guarded (guardsAt f i) v (valueRange p c traceFuel fi v)

/-! ### Accesses (R126, R128, R262, R263) -/

/-- What proves an access: a range of memory, or a window. -/
inductive Proved where
  | memory (lo hi : Nat)
  | window (w : Nat)
  deriving DecidableEq, Repr

/-- The bytes that an access of `n` at a window's offsets `lo` to `hi` consumes or writes: first and end (R128, R130). -/
def windowSpan (w lo hi n : Nat) : Nat × Nat :=
  if w = 0 then (lo, hi + n)
  else if w ≤ 3 then (lo, hi + n / 2)
  else if w = 4 then (lo, hi + n / 4)
  else (lo / 512 * 512, (hi + n - 1) / 512 * 512 + 512)

/-- A range through a window, of the cores' own scratchpads, inside [SPLO, SPHI) (R262, Table 05.1). -/
def windowProof (p : Folded) (r : VRange) (n : Nat) : Option Proved :=
  let base := p.global 0x2000000000
  if r.pool || decide (r.lo < base) then none
  else
    let x := r.lo - base
    let w := x / 0x20000000
    let core := x % 0x20000000 / coreStep
    let o := x % coreStep
    let bs := windowSpan w o (o + (r.hi - r.lo)) n
    if w < 8 ∧ core + r.c1 ≤ 1023 ∧ o + (r.hi - r.lo) < coreStep ∧ p.splo ≤ bs.1 ∧ bs.2 ≤ p.sphi ∧ bs.2 ≤ coreStep then some (.window w)
    else none

/-- What proves that every byte of a range's accesses of `n` bytes lies in the tenant's memory (R262). No operation reaches
the task block. -/
def rangeProof (b : List Byte) (p : Folded) (c : Proving) (r : VRange) (n : Nat) : Option Proved :=
  if r.pool then (if r.last + n ≤ c.pool then some (.memory 0 0) else none)
  else
    let areas := (p.data, dataLen b) :: (List.range (nRegion b)).map fun i => (p.regions.getD i 0, 2 ^ (imgRegion b i).2.1)
    if areas.any fun a => decide (p.global a.1 ≤ r.first) && decide (r.last + n ≤ p.global a.1 + a.2) then
      some (.memory r.first (r.last + n))
    else windowProof p r n

/-- The proof of one access, its operand at distance `d`. -/
def accessProof (b : List Byte) (p : Folded) (c : Proving) (fi i : Nat) (op : POp) (d : Nat) (x : Reach) : Option Proved :=
  match x with
  | .at off n => (operandRange p c fi i d).bind fun r => (r.shift off).bind fun r => rangeProof b p c r n
  | .rows =>
    (match op, c.fs[fi]? with
     | .instr _ _ s _, some f => (constOf f 16 i s).bind fun k =>
       (operandRange p c fi i d).bind fun r =>
         if r.hi + 127 * k.toNat ≤ wordMax then rangeProof b p c { r with hi := r.hi + 127 * k.toNat } 64 else none
     | _, _ => none)
  | .lanes => none

/-- Functions reached from some by `call` and `spawn`. -/
def funcsFrom (fs : List PFunc) : Nat → List Nat → List Nat → List Nat
  | 0, _, seen => seen
  | _ + 1, [], seen => seen
  | n + 1, g :: gs, seen =>
    if seen.contains g then funcsFrom fs n gs seen
    else
      let out := match fs[g]? with
        | none => []
        | some f => f.ops.zipIdx.filterMap fun y => match y.1 with
          | .call h => some h
          | op => spawnEntry f y.2 op
      funcsFrom fs n (out ++ gs) (g :: seen)

/-- The functions that a `spawn` of the image names. -/
def spawned (fs : List PFunc) : List Nat := fs.flatMap fun f => f.ops.zipIdx.filterMap fun y => spawnEntry f y.2 y.1

/-- How an image's values are followed. -/
def provingOf (b : List Byte) (p : Folded) : Proving :=
  let fs := foldFuncs b p
  let others := 0 :: (List.range (nHand b)).map (fun i => (imgHand b i).2.2) ++ (if trapFn b = 0 then [] else [trapFn b - 1])
  let fuel := (fs.map fun f => f.ops.length).sum + 2 * fs.length + others.length + nRule b + 2
  let elsewhere := funcsFrom fs fuel others []
  { fs := fs
    roots := others ++ imgRuleFuncs b ++ spawned fs
    rules := (List.range fs.length).filter fun g => !elsewhere.contains g
    pool := if nPool b = 0 then 0 else ((List.range (nPool b)).map fun i => 2 ^ (imgPool b i).1).min?.getD 0 }

/-- The first access of an image whose proved range touches W2 to W7 (R266 bit 6). -/
def windowError (b : List Byte) (p : Folded) : Option Nat :=
  let c := provingOf b p
  firstBad c.fs (fun i => (imgFunc b i).1) fun fi i op => match op with
    | .instr ins a d _ => (accessDists ins a d).any fun x => match accessProof b p c fi i op x.1 x.2 with
      | some (.window w) => decide (2 ≤ w)
      | _ => false
    | _ => false

end Sys2Proof.Machine
end

