-- ==== Sys2Proof/Machine/Alloc.lean ====
section
/-! DEFINITION. Where the Winnower keeps the values of a function (R259 step 4): how long each lives, and the registers and
places of the slot's stack that they are given. -/

namespace Sys2Proof.Machine

/-! ### Uses and lives -/

/-- An `arg`. -/
def POp.isArg : POp → Bool
  | .arg _ => true
  | _ => false

/-- An operation that takes the arguments directly before it, and how many (R43, R78, R219). -/
def argCount (f : PFunc) (i : Nat) (op : POp) : Nat :=
  match op with
  | .call _ => f.args i
  | .instr (.spawn _ _ _) _ _ _ => 4
  | .instr (.spawnOrd _ _ _) _ _ _ => 4
  | .instr (.spawnRow _ _ _) _ _ _ => 4
  | .instr (.spawnCl _ _ _) _ _ _ => 4
  | op => if op.target.isSome then f.args i else 0

/-- An operation that spawns a task. -/
def POp.isSpawn : POp → Bool
  | .instr (.spawn _ _ _) _ _ _ => true
  | .instr (.spawnOrd _ _ _) _ _ _ => true
  | .instr (.spawnRow _ _ _) _ _ _ => true
  | .instr (.spawnCl _ _ _) _ _ _ => true
  | _ => false

def POp.isCall : POp → Bool
  | .call _ => true
  | _ => false

/-- The `addi` that defines the word at the higher address of the `lx.q` before it (R63). -/
def isHigh (f : PFunc) (i : Nat) : Bool :=
  match f.ops[i]?, f.ops[i - 1]? with
  | some (.instr (.addi _ _ k) a _ _), some (.instr (.lxQ _ _ _ _ _ _) _ _ _) => decide (1 ≤ i) && k == 0 && a == 1
  | _, _ => false

/-- The value an `arg` hands on: one that stands, or the word of the message that it takes itself. -/
def argValue (f : PFunc) (q : Nat) : Option Nat :=
  if argDist f q = 2046 then (if (f.ops[q]?).any POp.isArg then some q else none) else reached q (argDist f q)

/-- The values that an operation reads; arguments are read where they are taken. -/
def usesAt (f : PFunc) (i : Nat) : List Nat :=
  match f.ops[i]? with
  | none => []
  | some op =>
    (if isHigh f i then [] else
      match op with
      | .ret a => (reached i a).toList
      | op => (operands op).filterMap fun d => reached i d.1) ++
    (let n := argCount f i op
     (List.range n).filterMap fun k => argValue f (i - n + k))

/-- The values of a function: what operations define, and the words of a message that arguments take. -/
def valuesOf (f : PFunc) : List Nat :=
  f.ops.zipIdx.filterMap fun x => if x.1.defines || x.1 == .arg 2046 then some x.2 else none

/-- Where a value comes to be; the parameters of a block come to be with the block. -/
def bornAt (f : PFunc) (v : Nat) : Nat :=
  match f.ops[v]? with
  | some (.prm k) => v - k - 1
  | _ => v

/-- Positions after which a value is still to be read, from those before its reads. -/
def liveWalk (es : List Edge) (born : Nat) : Nat → List Nat → List Nat → List Nat
  | 0, _, seen => seen
  | _ + 1, [], seen => seen
  | n + 1, x :: xs, seen =>
    if seen.contains x then liveWalk es born n xs seen
    else if x = born then liveWalk es born n xs (x :: seen)
    else liveWalk es born n (((es.filter fun e => e.dst == x).map fun e => e.src) ++ xs) (x :: seen)

/-- The positions after which a value is still to be read. -/
def liveAfter (f : PFunc) (v : Nat) : List Nat :=
  let es := f.edges
  let reads := (List.range f.ops.length).filter fun i => (usesAt f i).contains v
  liveWalk es (bornAt f v) (es.length + f.ops.length * f.ops.length + 2)
    (reads.flatMap fun i => (es.filter fun e => e.dst == i).map fun e => e.src) []

/-! ### Places -/

/-- Where a value is kept: a register, or a place on the slot's stack. -/
inductive Loc where
  | reg (r : Nat)
  | slot (n : Nat)
  deriving DecidableEq, Repr

/-- A value with its life. -/
structure Live where
  val  : Nat
  born : Nat
  upTo : List Nat
  vec  : Bool
  deriving DecidableEq, Repr

/-- An operation whose result takes the place of its third operand reads the others first: it keeps its result apart from
them. -/
def keepsApart (f : PFunc) (v w : Nat) : Bool :=
  match f.ops[v]? with
  | some (.instr i a b c) =>
    rdSource i && producesValue i && ((reached v a == some w && reached v c != some w) || (reached v b == some w && reached v c != some w))
  | _ => false

/-- Two values may not share a place. -/
def Live.meets (f : PFunc) (x y : Live) : Bool :=
  x.val != y.val && x.vec == y.vec &&
    (x.upTo.contains y.born || y.upTo.contains x.born || x.born == y.born || keepsApart f x.val y.val || keepsApart f y.val x.val)

/-- A value lives across an operation that `p` picks. -/
def Live.across (f : PFunc) (x : Live) (p : POp → Bool) : Bool :=
  x.upTo.any fun i => i != x.val && (f.ops[i]?).any p

/-- The registers that values take, in order; g5 to g9, g31 and v29 to v31 are the Winnower's own, and a parameter of the
entry block first tries where it arrives (R54). -/
def poolFor (x : Live) : List Nat :=
  let hint := if x.born = 0 ∧ 1 ≤ x.val ∧ x.val ≤ 8 then [9 + x.val] else []
  if x.vec then hint ++ List.range 29
  else hint ++ [18, 19, 20, 21, 22, 23, 24, 25, 26, 27, 30, 14, 15, 16, 17, 10, 11, 12, 13]

/-- The place of one value, beside those given: what `want` says where it is free, else the first register that is, else the
stack. A value that lives across a `call` is kept on the stack, and one that lives across a `spawn` out of g10 to g13. -/
def placeValue (f : PFunc) (want : Nat → Option (Option Nat)) (given : List (Live × Loc)) (x : Live) : Loc :=
  let next := Loc.slot (given.filter fun y => y.1.vec == x.vec && (match y.2 with
    | .slot _ => true
    | .reg _ => false)).length
  if x.across f POp.isCall then next
  else
    let barred := fun (r : Nat) => (given.any fun y => y.2 == .reg r && x.meets f y.1) ||
      (!x.vec && decide (10 ≤ r) && decide (r ≤ 13) && x.across f POp.isSpawn)
    let open' := (poolFor x).filter fun r => !barred r
    match want x.val with
    | some none => next
    | some (some r) => if open'.contains r then .reg r else (open'.head?.map Loc.reg).getD next
    | none => (open'.head?.map Loc.reg).getD next

/-- A function with the places of its values that live. -/
structure Plan where
  f    : PFunc
  vecs : List Bool
  locs : List (Live × Loc)
  deriving DecidableEq, Repr

/-- The plan of a function, whose vectors are marked. -/
def planOf (f : PFunc) (vecs : List Bool) (want : Nat → Option (Option Nat)) : Plan :=
  let lives := ((valuesOf f).map fun v => (⟨v, bornAt f v, liveAfter f v, vecs.getD v false⟩ : Live)).filter fun x => !x.upTo.isEmpty
  ⟨f, vecs, lives.foldl (fun acc x => acc ++ [(x, placeValue f want acc x)]) []⟩

/-- The place of a value. -/
def Plan.loc (pl : Plan) (v : Nat) : Option Loc := (pl.locs.find? fun x => x.1.val == v).map fun x => x.2

/-- How many places of the stack a function's words, or vectors, take. -/
def Plan.slots (pl : Plan) (vec : Bool) : Nat :=
  (pl.locs.filter fun x => x.1.vec == vec && (match x.2 with
    | .slot _ => true
    | .reg _ => false)).length

/-- The plans of an image's functions. -/
def plansOf (b : List Byte) (fs : List PFunc) : List Plan :=
  let m := marks fs (moveEdges fs) fun _ _ op => typeOwn op
  fs.mapIdx fun i f =>
    planOf f ((List.range f.ops.length).map fun v => (m.getD (nodeOf fs i v) 0) &&& 2 != 0)
      fun v => if Config.ownRegisters b then some (Config.register b i v) else none

end Sys2Proof.Machine
end

