-- ==== Sys2Proof/Machine/Emit.lean ====
section
/-! DEFINITION. The native code the Winnower emits for an image (R41 to R43, R54, R63, R73, R76 to R79, R202, R219, R221, R245,
R259 steps 3 and 4, R263, R282): each operation's template with its registers filled, the checks of what is not proved, and
the layout with its location map. -/

namespace Sys2Proof.Machine

/-! ### Native words before they are laid out -/

/-- A place in the text: where a version of a function begins, one of its blocks, or a place within an operation. -/
inductive Label where
  | entry (ver : Nat)
  | block (ver pos : Nat)
  | inner (ver pos n : Nat)
  deriving DecidableEq, Repr

/-- What stands in the text: a word, a place, a jump with its link register, a branch (funct3, sources), the native byte offset of a
place in a register, and a repetition: its `rpt`, its body, and the operation of every word that it executes. -/
inductive Item where
  | word (w : BitVec 32)
  | mark (l : Label)
  | jump (d : Reg) (l : Label)
  | branch (f3 : BitVec 3) (a b : Reg) (l : Label)
  | entry (d : Reg) (l : Label)
  | rep (w : BitVec 32) (body : List (BitVec 32)) (pos : List Nat)
  deriving DecidableEq, Repr

/-- The word of an instruction. -/
def wordOf (i : Instr) : BitVec 32 := (encode i).getD 0

/-- Instructions as they stand. -/
def code (is : List Instr) : List Item := is.map fun i => .word (wordOf i)

/-- A template with its register fields filled (R75). -/
def fillWord (i : Instr) (d a b : Reg) : BitVec 32 :=
  wordOf i ||| (d.zeroExtend 32 <<< 7) ||| (a.zeroExtend 32 <<< 15) ||| (b.zeroExtend 32 <<< 20)

/-- Add a number to a register. -/
def addImm (d a : Reg) (n : Nat) : List Instr :=
  if n ≤ 2047 then (if d = a ∧ n = 0 then [] else [.addi d a (BitVec.ofNat 12 n)])
  else .addi d a 2047 :: List.replicate ((n - 2047) / 2047) (.addi d d 2047) ++ [.addi d d (BitVec.ofNat 12 ((n - 2047) % 2047))]

/-- Lower the stack pointer. -/
def dropImm (n : Nat) : List Instr :=
  List.replicate (n / 1024) (.addi 2 2 (-1024)) ++
    (if n % 1024 = 0 then [] else [.addi 2 2 (BitVec.ofInt 12 (-(n % 1024 : Nat)))])

/-- A constant in a register, by `lui` and `addi` and shifts of twelve bits. -/
def loadConst (d : Reg) : Nat → Word → List Instr
  | 0, _ => []
  | n + 1, v =>
    let lo : BitVec 12 := v.truncate 12
    let up := v - sext12 lo
    let hi : BitVec 20 := (up >>> 12).truncate 20
    if v = sext12 lo then [.addi d 0 lo]
    else
      let tail := if lo = 0 then [] else [Instr.addi d d lo]
      if (hi ++ 0#12).signExtend 64 = up then .lui d hi :: tail
      else loadConst d n (up.sshiftRight 12) ++ .slli d d 12 :: tail

/-- A constant in a register. -/
def constCode (d : Reg) (v : Word) : List Instr := loadConst d 5 v

/-! ### The slot's stack -/

/-- Where a function's stack places begin for vectors. -/
def Plan.vecBase (pl : Plan) : Nat := (8 * (pl.slots false + 1) + 63) / 64 * 64

/-- The place of a value on the stack, from sp: a doubleword behind that of the link, or a line. -/
def Plan.offset (pl : Plan) (vec : Bool) (n : Nat) : Nat := if vec then pl.vecBase + 64 * n else 8 * (n + 1)

/-- Load a doubleword of the stack. -/
def loadStack (d : Reg) (o : Nat) : List Instr :=
  if o ≤ 2047 then [.ld d 2 (BitVec.ofNat 12 o)] else addImm 6 2 o ++ [.ld d 6 0]

/-- Store a doubleword on the stack. -/
def storeStack (r : Reg) (o : Nat) : List Instr :=
  if o ≤ 2047 then [.sd 2 r (BitVec.ofNat 12 o)] else addImm 6 2 o ++ [.sd 6 r 0]

/-- Load a vector of the stack, and store one. -/
def loadLine (d : Reg) (o : Nat) : List Instr := addImm 6 2 o ++ [.vld d 6]
def storeLine (r : Reg) (o : Nat) : List Instr := addImm 6 2 o ++ [.vst r 6]

/-- A vector of zeros. -/
def zeroVec (d : Reg) : Instr := .vxor .i8 0 d d d

/-- A register's number as it stands in a word. -/
def regNo (r : Nat) : Reg := BitVec.ofNat 5 r

/-- Move a value: into a place, from a place or from zero. -/
def Plan.move (pl : Plan) (vec : Bool) (d : Loc) (s : Option Loc) : List Instr :=
  match d, s with
  | .reg r, some (.reg q) => if vec then [.vor .i8 0 (regNo r) (regNo q) (regNo q)] else [.addi (regNo r) (regNo q) 0]
  | .reg r, none => if vec then [zeroVec (regNo r)] else [.addi (regNo r) 0 0]
  | .reg r, some (.slot n) => if vec then loadLine (regNo r) (pl.offset true n) else loadStack (regNo r) (pl.offset false n)
  | .slot n, some (.reg q) => if vec then storeLine (regNo q) (pl.offset true n) else storeStack (regNo q) (pl.offset false n)
  | .slot n, none =>
    if vec then zeroVec 31 :: storeLine 31 (pl.offset true n) else storeStack 0 (pl.offset false n)
  | .slot n, some (.slot m) =>
    if vec then loadLine 31 (pl.offset true m) ++ storeLine 31 (pl.offset true n)
    else loadStack 7 (pl.offset false m) ++ storeStack 7 (pl.offset false n)

/-- Moves that happen together, one after another: a value still to be read is not overwritten, and a ring of moves goes
through the scratch place. -/
def Plan.moves (pl : Plan) (vec : Bool) (scratch : Loc) : Nat → List (Loc × Option Loc) → List Instr
  | 0, _ => []
  | _ + 1, [] => []
  | n + 1, m :: ms =>
    match (m :: ms).find? fun x => (m :: ms).all fun y => y == x || y.2 != some x.1 with
    | some x => pl.move vec x.1 x.2 ++ pl.moves vec scratch n ((m :: ms).erase x)
    | none =>
      pl.move vec scratch (some m.1) ++
        pl.moves vec scratch n ((m :: ms).map fun y => if y.2 = some m.1 then (y.1, some scratch) else y)

/-- Moves of words and of vectors that happen together. -/
def Plan.moveAll (pl : Plan) (ms : List (Bool × Loc × Option Loc)) : List Instr :=
  let of := fun (vec : Bool) => (ms.filter fun m => m.1 == vec && some m.2.1 != m.2.2).map fun m => m.2
  pl.moves false (.reg 5) (2 * ms.length + 2) (of false) ++ pl.moves true (.reg 30) (2 * ms.length + 2) (of true)

/-! ### Operands -/

/-- A word that an operation reads: `zero`, `ain`, a register, or a place of the stack read into a scratch register. -/
def Plan.readG (pl : Plan) (i d : Nat) (scratch : Reg) : List Instr × Reg :=
  if d = 2046 then ([], 28)
  else
    match (reached i d).bind pl.loc with
    | some (.reg r) => ([], regNo r)
    | some (.slot n) => (loadStack scratch (pl.offset false n), scratch)
    | none => ([], 0)

/-- A word that must be in a register before the operation's own read: a word of the message is taken into the scratch
register. -/
def Plan.readFirst (pl : Plan) (i d : Nat) (scratch : Reg) : List Instr × Reg :=
  if d = 2046 then ([.addi scratch 28 0], scratch) else pl.readG i d scratch

/-- A vector that an operation reads. -/
def Plan.readV (pl : Plan) (i d : Nat) (scratch : Reg) : List Instr × Reg :=
  match (reached i d).bind pl.loc with
  | some (.reg r) => ([], regNo r)
  | some (.slot n) => (loadLine scratch (pl.offset true n), scratch)
  | none => ([zeroVec scratch], scratch)

/-- The register an operation writes, and what puts its value in place after it; a value that nothing reads goes to the
scratch register given. -/
def Plan.writeTo (pl : Plan) (i : Nat) (vec : Bool) (idle : Reg) : Reg × List Instr :=
  match pl.loc i with
  | some (.reg r) => (regNo r, [])
  | some (.slot n) => if vec then (31, storeLine 31 (pl.offset true n)) else (7, storeStack 7 (pl.offset false n))
  | none => (idle, [])

/-! ### The inserted checks (R245, R263) -/

/-- What an image is translated under. -/
structure Translating where
  b      : List Byte
  p      : Folded
  c      : Proving
  plans  : List Plan
  tables : List Nat
  /-- Every check stands (R211). -/
  whole  : Bool
  deriving DecidableEq, Repr

/-- The translation of an image with the constants of its place. -/
def translating (b : List Byte) (p : Folded) (whole : Bool) : Translating :=
  let c := provingOf b p
  ⟨b, p, c, plansOf b c.fs, (tableAddrs c.fs).toList, whole⟩

/-- The `bchk`s of a place in g5 and of its last byte, which `last` puts into g6 from g5, against bounds in g7 and g8. -/
def boundChecks (last : List Instr) : List Instr := .bchk 5 7 8 :: last ++ [.bchk 6 7 8]

/-- The checks of an unproved access whose address `first` puts into g5, and the address of its last byte `last` into g6: that
it lies in the tile descriptor table, where it is one of its addresses; a branch on the package bits and one on the
scratchpad alias span, where they are not proved; and the bounds (R245, R263). -/
def checkCode (p : Folded) (ver pos n : Nat) (table far span : Bool) (first last : List Instr) : List Item :=
  let low := fun (r : Reg) => [Instr.slli r r 45, .srli r r 45]
  code first ++
  (if table then code ([.ld 7 4 0x28, .ld 8 4 0x30, .slli 8 8 5, .add 8 8 7] ++ boundChecks last) else []) ++
  (if far then
    code ([.slli 6 5 8, .srli 6 6 48] ++ constCode 7 (BitVec.ofNat 64 p.pkg)) ++ [.branch 1 6 7 (.inner ver pos (2 * n + 1))]
   else []) ++
  (if span then
    code ([.slli 6 5 24, .srli 6 6 (if p.narrow then 54 else 56)] ++ constCode 7 (if p.narrow then 0x80 else 0x20)) ++
    .branch 1 6 7 (.inner ver pos (2 * n)) ::
    code (.addi 6 5 0 :: low 6 ++ constCode 7 (BitVec.ofNat 64 p.splo) ++ constCode 8 (BitVec.ofNat 64 p.sphi) ++ [.bchk 6 7 8] ++
      last ++ low 6 ++ [.bchk 6 7 8]) ++
    [.jump 0 (.inner ver pos (2 * n + 1)), .mark (.inner ver pos (2 * n))]
   else []) ++
  code (constCode 7 (BitVec.ofNat 64 (p.global p.arlo)) ++ constCode 8 (BitVec.ofNat 64 (p.global p.arhi)) ++ boundChecks last) ++
  [.mark (.inner ver pos (2 * n + 1))]

/-- The checks of one access of an operation, whose operand stands in a register; none where the access is proved and the
Winnower elides its check (R262). -/
def accessChecks (tr : Translating) (ver fi i n : Nat) (op : POp) (r idx : Reg) (x : Nat × Reach) : List Item :=
  let elided := !tr.whole && !Config.keepCheck tr.b fi i && (accessProof tr.b tr.p tr.c fi i op x.1 x.2).isSome
  if elided then []
  else
    let range := match x.2 with
      | .at off k => ((operandRange tr.p tr.c fi i x.1).bind fun q => q.shift off).map fun q => (q.first, q.last + k)
      | _ => none
    let range := if (operandRange tr.p tr.c fi i x.1).any fun q => q.pool then none else range
    let far := !(range.any fun q => decide (tr.p.global 0 ≤ q.1) && decide (q.2 ≤ tr.p.global (2 ^ 40)))
    let span := !(range.any fun q => decide (q.2 ≤ tr.p.global 0x2000000000) || decide (tr.p.global 0x2100000000 ≤ q.1))
    let table := x.1 != 0 && decide (x.1 ≤ i) && (match tr.c.fs[fi]? with
      | some _ => tr.tables.getD (nodeOf tr.c.fs fi (i - x.1)) 0 != 0
      | none => false)
    match x.2 with
    | .at off k =>
      checkCode tr.p ver i n table far span [.addi 5 r (BitVec.ofInt 12 off)] [.addi 6 5 (BitVec.ofNat 12 (k - 1))]
    | .rows =>
      checkCode tr.p ver i n table far span [.addi 5 r 0] [.addi 6 0 127, .mul 6 6 idx, .add 6 6 5, .addi 6 6 63]
    | .lanes =>
      (List.range 8).flatMap fun k =>
        checkCode tr.p ver i (8 * n + k) table far span [.vmvGv 5 idx (BitVec.ofNat 5 k), .add 5 5 r] [.addi 6 5 7]

/-! ### Operations -/

/-- How a version of a function is entered: by a task, by `call`, or as the trap routine. -/
inductive Way where
  | task | call | trap
  deriving DecidableEq, Repr

/-- A version of a function. -/
structure Version where
  func : Nat
  way  : Way
  deriving DecidableEq, Repr

/-- The versions an image needs, function by function: for tasks where one may enter it or nothing else does, for calls, and
for traps. -/
def versionsOf (b : List Byte) (c : Proving) : List Version :=
  let called := c.fs.flatMap fun f => f.ops.filterMap fun op => match op with
    | .call g => some g
    | _ => none
  let trap := fun (g : Nat) => trapFn b != 0 && g == trapFn b - 1
  let roots := 0 :: ((List.range (nHand b)).map fun i => (imgHand b i).2.2) ++ imgRuleFuncs b ++ spawned c.fs
  (List.range c.fs.length).flatMap fun g =>
    (if roots.contains g || !(called.contains g || trap g) then [⟨g, .task⟩] else []) ++
    (if called.contains g then [⟨g, .call⟩] else []) ++ (if trap g then [⟨g, .trap⟩] else [])

/-- The number of a version; of one that is not there, the first. -/
def versionNo (vs : List Version) (g : Nat) (w : Way) : Nat := (vs.findIdx? (· == ⟨g, w⟩)).getD 0

/-- A function keeps its link on the stack. -/
def keepsLink (f : PFunc) (w : Way) : Bool := w != .task && f.ops.any POp.isCall

/-- Bytes of the stack that a version takes. -/
def frameOf (pl : Plan) (w : Way) : Nat :=
  if pl.slots true = 0 ∧ pl.slots false = 0 ∧ !keepsLink pl.f w then 0 else pl.vecBase + 64 * pl.slots true

/-- The places of the `n` arguments before a position, in order; none stands for zero. -/
def Plan.argLocs (pl : Plan) (i n : Nat) : List (Option Loc) :=
  (List.range n).map fun k => (argValue pl.f (i - n + k)).bind pl.loc

/-- The moves of arguments into the parameters of a block (R43). -/
def Plan.blockMoves (pl : Plan) (i n blk : Nat) : List Instr :=
  pl.moveAll (((pl.argLocs i n).zipIdx).filterMap fun x => (pl.loc (blk + 1 + x.2)).map fun d =>
    (pl.vecs.getD (blk + 1 + x.2) false, d, x.1))

/-- The moves of arguments to where a function takes its parameters: g10 on, vectors to v10 on (R54, R78, R219). -/
def Plan.callMoves (pl : Plan) (i n : Nat) : List Instr :=
  pl.moveAll (((pl.argLocs i n).zipIdx).map fun x =>
    (((argValue pl.f (i - n + x.2)).any fun v => pl.vecs.getD v false), Loc.reg (10 + x.2), x.1))

/-- The moves of a function's parameters from where they arrive (R54). -/
def Plan.entryMoves (pl : Plan) : List Instr :=
  pl.moveAll ((List.range pl.f.params).filterMap fun k => (pl.loc (1 + k)).map fun d =>
    (pl.vecs.getD (1 + k) false, d, some (Loc.reg (10 + k))))

/-- A conditional branch's funct3 and its block. -/
def branchForm : Instr → Option (BitVec 3)
  | .beq _ _ _ => some 0
  | .bne _ _ _ => some 1
  | .blt _ _ _ => some 4
  | .bge _ _ _ => some 5
  | .bltu _ _ _ => some 6
  | .bgeu _ _ _ => some 7
  | _ => none

/-- An operation whose sources the Winnower places in consecutive registers (R412, R440). -/
def consecutive : Instr → Bool
  | .sfckey _ _ _ => true
  | .vfcvt _ _ k => decide (16 ≤ k.toNat) && decide (k.toNat ≤ 27)
  | _ => false

/-- The operation reads one of its operands from `ain` where it must be taken before the operation itself. -/
def takesEarly (i : Instr) (c : Nat) : Bool := !(accessesOf i).isEmpty || (rdSource i && c == 1022)

/-- The words of an operation that computes, loads, stores or commands: its operands, its checks, its filled template and
its result (R41, R75, R76). -/
def instrCode (tr : Translating) (pl : Plan) (ver fi i : Nat) (ins : Instr) (a b c : Nat) : List Item :=
  let op : POp := .instr ins a b c
  let early := takesEarly ins c
  let readA := if !takesA ins then ([], 0) else if vecA ins then pl.readV i a 29 else if early then
    pl.readFirst i a 9 else pl.readG i a 9
  let readB := if !takesB ins then ([], 0) else if vecB ins then pl.readV i b 30 else if early then
    pl.readFirst i b 31 else pl.readG i b 31
  let checks := (accessDists ins a b).zipIdx.flatMap fun x =>
    accessChecks tr ver fi i x.2 op (if x.2 = 0 then readA.2 else readB.2) readB.2 x.1
  let vec := vecResult op
  if consecutive ins then
    let z := match ins with
      | .sfckey _ _ k => if k.toNat % 2 = 1 then pl.move true (.reg 31) ((reached i c).bind pl.loc) else []
      | _ => []
    let out := pl.writeTo i true 31
    code (pl.move true (.reg 29) ((reached i a).bind pl.loc) ++ pl.move true (.reg 30) ((reached i b).bind pl.loc) ++ z) ++
      .word (fillWord ins out.1 29 0) :: code out.2
  else if rdSource ins then
    let src := if vecC ins then pl.readV i c 31 else if c = 1022 then pl.readFirst i 2046 7 else pl.readG i c 7
    let out := pl.writeTo i vec (if vec then 31 else 7)
    let held := producesValue ins && src.2 != out.1
    let rd := if producesValue ins then out.1 else src.2
    code (readA.1 ++ readB.1) ++ checks ++ code src.1 ++
      code (if held then (if vec then [.vor .i8 0 rd src.2 src.2] else [.addi rd src.2 0]) else []) ++
      .word (fillWord ins rd readA.2 readB.2) :: code (if producesValue ins then out.2 else [])
  else
    let out := if c = 1023 then (29, []) else pl.writeTo i vec (if vec then 31 else 0)
    code (readA.1 ++ readB.1) ++ checks ++
      match ins with
      | .lxQ _ _ _ _ _ _ => .word (fillWord ins 8 readA.2 readB.2) :: code (.addi out.1 8 0 :: out.2)
      | _ => .word (fillWord ins (if producesValue ins then out.1 else 0) readA.2 readB.2) ::
          code (if producesValue ins then out.2 else [])

/-- The words of a `spawn`: its arguments in g10 to g13, and the native offset of the function it names in its rs2 (R219). -/
def spawnCode (vs : List Version) (pl : Plan) (i : Nat) (ins : Instr) (a c g : Nat) : List Item :=
  let target := pl.readG i a 9
  let aside := decide (10 ≤ target.2.toNat) && decide (target.2.toNat ≤ 13)
  let out := if c = 1023 then (29, []) else pl.writeTo i false 0
  code (target.1 ++ (if aside then [.addi 9 target.2 0] else []) ++ pl.callMoves i 4) ++
    .entry 8 (.entry (versionNo vs g .task)) :: .word (fillWord ins out.1 (if aside then 9 else target.2) 8) :: code out.2

/-- The way out of a version that was called: its value in g10 or v10, its link and its stack. -/
def leaveCode (pl : Plan) (w : Way) : List Instr :=
  (if keepsLink pl.f w then loadStack 1 0 else []) ++ addImm 2 2 (frameOf pl w)

/-- The words of one operation of a version; `restore` undoes what a trap routine saved (R202, R204). -/
def opItems (tr : Translating) (vs : List Version) (restore : List Instr) (ver fi i : Nat) (w : Way) (pl : Plan) (op : POp) : List Item :=
  match op with
  | .blk _ => [.mark (.block ver i)]
  | .prm _ => []
  | .cnst v =>
    (match pl.loc i with
     | none => []
     | some _ => let out := pl.writeTo i false 0
                 code (constCode out.1 (BitVec.ofInt 64 v) ++ out.2))
  | .arg a => if a = 2046 then (let out := pl.writeTo i false 0
                                code (.addi out.1 28 0 :: out.2)) else []
  | .ret a =>
    (match w with
     | .task => code ((if a = 2046 then [.addi 0 28 0] else []) ++ [.tend])
     | .call =>
       let vec := (reached i a).any fun v => pl.vecs.getD v false
       code ((if a = 2046 then [.addi 10 28 0] else pl.move vec (.reg 10) ((reached i a).bind pl.loc)) ++ leaveCode pl w ++
         [.jalr 0 1 0])
     | .trap => code ((if a = 2046 then [.addi 0 28 0] else []) ++ leaveCode pl w ++ restore ++ [.jalr 0 1 0]))
  | .call g =>
    let vec := pl.vecs.getD i false
    code (pl.callMoves i (argCount pl.f i op)) ++ .jump 1 (.entry (versionNo vs g .call)) ::
      code (match pl.loc i with
        | some d => pl.move vec d (some (.reg 10))
        | none => [])
  | .instr ins a b c =>
    if isHigh pl.f i then
      (let out := if c = 1023 then (29, []) else pl.writeTo i false 0
       code (.addi out.1 9 0 :: out.2))
    else
      match op.target, spawnEntry pl.f i op with
      | some (some t), _ =>
        (match pl.f.blocks[t]? with
         | none => []
         | some blk =>
           let ms := code (pl.blockMoves i (argCount pl.f i op) blk)
           match branchForm ins with
           | none => ms ++ [.jump 0 (.block ver blk)]
           | some f3 =>
             let x := pl.readG i a 9
             let y := pl.readG i b 31
             code (x.1 ++ y.1) ++
               if ms.isEmpty then [.branch f3 x.2 y.2 (.block ver blk)]
               else .branch (f3 ^^^ 1) x.2 y.2 (.inner ver i 0) :: ms ++ [.jump 0 (.block ver blk), .mark (.inner ver i 0)])
      | _, some g => spawnCode vs pl i ins a c g
      | _, none => instrCode tr pl ver fi i ins a b c

/-- The words of a version's operations. -/
def bodyItems (tr : Translating) (vs : List Version) (restore : List Instr) (ver : Nat) (v : Version) : List (Item × Nat) :=
  match tr.plans[v.func]? with
  | none => []
  | some pl => pl.f.ops.zipIdx.flatMap fun x => (opItems tr vs restore ver v.func x.2 v.way pl x.1).map fun y => (y, x.2)

/-! ### Saving what a trap routine writes (R202) -/

/-- Registers written: words, vectors and masks. -/
structure Writes where
  gs : List Reg
  vs : List Reg
  ms : List Reg
  deriving DecidableEq, Repr

/-- The registers that a piece of text writes. -/
def itemWrites : Item → Writes
  | .word w => (match decodeRaw w with
    | .ok i => ⟨(instrNeeds i).gd, (instrNeeds i).vd, maskWrites i⟩
    | .error _ => ⟨[], [], []⟩)
  | .mark _ => ⟨[], [], []⟩
  | .jump _ _ => ⟨[9], [], []⟩
  | .branch _ _ _ _ => ⟨[9], [], []⟩
  | .entry d _ => ⟨[d], [], []⟩
  | .rep _ _ _ => ⟨[], [], []⟩

/-- All of them; g0, ln, sp, `ain` and `dep` are not saved, and saving masks takes three vectors and a word. -/
def allWrites (is : List Item) : Writes :=
  let ws : List Writes := is.map itemWrites
  let ms := (ws.flatMap fun w => w.ms).eraseDups
  ⟨(((ws.flatMap fun (w : Writes) => w.gs) ++ (if (ws.any fun w => !w.vs.isEmpty || !w.ms.isEmpty) then
    [6] else [])).eraseDups).filter fun r =>
      !([0, 1, 2, 28, 29] : List Nat).contains r.toNat,
    ((ws.flatMap fun (w : Writes) => w.vs) ++ (if ms.isEmpty then [] else [29, 30, 31])).eraseDups, ms⟩

/-- Bytes of the stack for them. -/
def Writes.bytes (w : Writes) : Nat := (8 * w.gs.length + 63) / 64 * 64 + 64 * (w.vs.length + w.ms.length)

/-- Where the lines begin. -/
def Writes.lines (w : Writes) : Nat := (8 * w.gs.length + 63) / 64 * 64

/-- Save them: a mask as the bytes it picks of a vector of ones. -/
def Writes.save (w : Writes) : List Instr :=
  dropImm w.bytes ++ (w.gs.zipIdx.flatMap fun x => storeStack x.1 (8 * x.2)) ++
    (w.vs.zipIdx.flatMap fun x => storeLine x.1 (w.lines + 64 * x.2)) ++
    (if w.ms.isEmpty then [] else [.addi 6 0 (-1), .vbcast 30 6 3]) ++
    (w.ms.zipIdx.flatMap fun x => Instr.vor .i8 (x.1.truncate 3) 29 30 30 :: storeLine 29 (w.lines + 64 * (w.vs.length + x.2)))

/-- Restore them, the words last. -/
def Writes.restore (w : Writes) : List Instr :=
  (if w.ms.isEmpty then [] else [zeroVec 31]) ++
    (w.ms.zipIdx.flatMap fun x => loadLine 29 (w.lines + 64 * (w.vs.length + x.2)) ++ [.vcmp .ne .i8 x.1 29 31]) ++
    (w.vs.zipIdx.flatMap fun x => loadLine x.1 (w.lines + 64 * x.2)) ++
    (w.gs.zipIdx.flatMap fun x => loadStack x.1 (8 * x.2)) ++ addImm 2 2 w.bytes

/-- What a trap routine and all it calls write. -/
def trapWrites (tr : Translating) (vs : List Version) (v : Version) : Writes :=
  let called := funcsFrom tr.c.fs ((tr.c.fs.map fun f => f.ops.length).sum + tr.c.fs.length + 2) [v.func] []
  allWrites ((bodyItems tr vs [] 0 v ++ vs.zipIdx.flatMap fun x =>
    if x.1.way == .call && called.contains x.1.func then bodyItems tr vs [] x.2 x.1 else []).map fun x => x.1)

/-! ### Repetition loops (R73, R259 step 4) -/

/-- A word as pass `n` of a repetition executes it, where it may stand in a body (R73, R74). -/
def passWord (w : BitVec 32) (n : Nat) : Option (BitVec 32) :=
  match decodeRaw w with
  | .error _ => none
  | .ok i => if bodyIllegal i then none else if (renumberInstr i n).wf then encode (renumberInstr i n) else none

/-- How many passes of a body with a stride the words that stand after it make, with the body itself; a pass whose first word
differs in its opcode is none. The fuel bounds the passes. -/
def passesOf (body : List (BitVec 32)) (stride : Nat) : Nat → Nat → List (BitVec 32) → Nat
  | 0, k, _ => k
  | n + 1, k, ws =>
    let next := ws.take body.length
    if (next.head?).any (fun w => (w ^^^ body.headD 0) &&& 0x707F#32 == 0) && next.map some == body.map fun w => passWord w (k * stride) then
      passesOf body stride n (k + 1) (ws.drop body.length)
    else k

/-- The strides of `rpt`. -/
def strides : List (RptStride × Nat) := [(.s1, 1), (.s2, 2), (.s4, 4), (.s8, 8)]

/-- The repetition that saves the most words where some stand: words of its body, passes and stride. -/
def bestLoop (ws : List (BitVec 32)) : Option (Nat × Nat × RptStride) :=
  let all := (List.range 16).flatMap fun l => strides.filterMap fun s =>
    let k := passesOf (ws.take (l + 1)) s.2 63 1 (ws.drop (l + 1))
    if 2 ≤ (k - 1) * (l + 1) then some (l + 1, k, s.1) else none
  all.foldl (fun m x => some (match m with
    | some y => if (y.2.1 - 1) * y.1 < (x.2.1 - 1) * x.1 then x else y
    | none => x)) none

/-- The words that stand together at the beginning of some items. -/
def leadWords (is : List (Item × Nat)) : List (BitVec 32 × Nat) :=
  (is.takeWhile fun x => match x.1 with
    | .word _ => true
    | _ => false).filterMap fun x => match x.1 with
      | .word w => some (w, x.2)
      | _ => none

/-- Words that differ from the ones before them only as a repetition's passes do become one. -/
def formLoops : Nat → List (Item × Nat) → List (Item × Nat)
  | 0, is => is
  | _ + 1, [] => []
  | n + 1, x :: is =>
    let ws := leadWords ((x :: is).take 1024)
    match bestLoop (ws.map fun w => w.1) with
    | none => x :: formLoops n is
    | some (l, k, s) =>
      (.rep (wordOf (.rpt (BitVec.ofNat 6 (k - 1)) (BitVec.ofNat 4 (l - 1)) s)) ((ws.take l).map fun w => w.1)
          ((ws.take (l * k)).map fun w => w.2), x.2) ::
        formLoops n ((x :: is).drop (l * k))

/-! ### Whole versions -/

/-- An instruction that sets sp and touches nothing else. -/
def setsStack (w : BitVec 32) : Bool :=
  match decodeRaw w with
  | .ok i =>
    (instrNeeds i).gd == [2] && (instrNeeds i).vd.isEmpty && (accessesOf i).isEmpty && !(instrNeeds i).gs.contains 28 &&
      (match i with
       | .lui _ _ => true
       | .getst _ _ => true
       | .add _ _ _ => true
       | .sub _ _ _ => true
       | .addi _ _ _ => true
       | .slli _ _ _ => true
       | .or _ _ _ => true
       | .ori _ _ _ => true
       | _ => false)
  | .error _ => false

/-- The image uses the slot's stack. -/
def usesStack (tr : Translating) (vs : List Version) : Bool :=
  vs.any fun v => ((tr.plans[v.func]?).any fun pl => decide (0 < frameOf pl v.way)) ||
    (v.way == .trap && decide (0 < (trapWrites tr vs v).bytes))

/-- A version: the stack where it is used, its parameters, and its operations. -/
def versionItems (tr : Translating) (vs : List Version) (stack : Bool) (ver : Nat) (v : Version) : List (Item × Nat) :=
  match tr.plans[v.func]? with
  | none => []
  | some pl =>
    let ws := if v.way = .trap then trapWrites tr vs v else ⟨[], [], []⟩
    let lead := (match v.way with
      | .task => if stack then ((Config.stackWords tr.b).filter setsStack).map Item.word else []
      | .call => []
      | .trap => code ws.save) ++ code (dropImm (frameOf pl v.way) ++ (if keepsLink pl.f v.way then storeStack 1 0 else []) ++
        pl.entryMoves)
    let all := (Item.mark (.entry ver) :: lead).map (fun x => (x, 0)) ++ bodyItems tr vs ws.restore ver v
    formLoops all.length all

/-! ### Layout -/

/-- Words an item takes; a jump or branch takes more the further it reaches. -/
def Item.size (far : Nat) : Item → Nat
  | .word _ => 1
  | .mark _ => 0
  | .jump _ _ => if far = 0 then 1 else 2
  | .branch _ _ _ _ => far + 1
  | .entry _ _ => 2
  | .rep _ body _ => 1 + body.length

/-- Where each item begins. -/
def placesOf : Nat → List (Item × Nat) → List Nat
  | _, [] => []
  | at', (x, far) :: rest => at' :: placesOf (at' + x.size far) rest

/-- Where a label stands. -/
def labelAt (is : List (Item × Nat)) (ps : List Nat) (l : Label) : Nat :=
  match is.findIdx? fun x => x.1 == .mark l with
  | some k => ps.getD k 0
  | none => 0

/-- The reach that an item needs, from where it stands and where it goes. -/
def Item.need (at' : Nat) (goal : Label → Nat) : Item → Nat
  | .jump _ l => let o := (goal l : Int) - at'
                 if -262144 ≤ o ∧ o < 262144 then 0 else 1
  | .branch _ _ _ l => let o := (goal l : Int) - at'
                       if -1024 ≤ o ∧ o < 1024 then 0 else if -262144 ≤ o - 1 ∧ o - 1 < 262144 then 1 else 2
  | _ => 0

/-- Items with the reach each needs, until none needs more. -/
def settleLayout : Nat → List (Item × Nat) → List (Item × Nat)
  | 0, is => is
  | n + 1, is =>
    let ps := placesOf 0 is
    let next := (is.zip ps).map fun x => (x.1.1, max x.1.2 (x.1.1.need x.2 (labelAt is ps)))
    if next = is then is else settleLayout n next

/-- A jump over any distance, in bytes, through g9. -/
def farJump (d : Reg) (o : Int) : List Instr :=
  let lo : BitVec 12 := BitVec.ofInt 12 o
  [.auipc 9 (BitVec.ofInt 20 ((o - lo.toInt) / 4096)), .jalr d 9 lo]

/-- A branch by its funct3. -/
def branchBy (f3 : BitVec 3) (a b : Reg) (i : BitVec 12) : Instr :=
  if f3 = 0 then .beq a b i else if f3 = 1 then .bne a b i else if f3 = 4 then .blt a b i else if f3 = 5 then .bge a b i
  else if f3 = 6 then .bltu a b i else .bgeu a b i

/-- The words of an item where it stands. -/
def Item.words (at' far : Nat) (goal : Label → Nat) : Item → List (BitVec 32)
  | .word w => [w]
  | .mark _ => []
  | .jump d l =>
    let o := (goal l : Int) - at'
    (if far = 0 then [Instr.jal d (BitVec.ofInt 20 (2 * o))] else farJump d (4 * o)).map wordOf
  | .branch f3 a b l =>
    let o := (goal l : Int) - at'
    (if far = 0 then [branchBy f3 a b (BitVec.ofInt 12 (2 * o))]
     else if far = 1 then [branchBy (f3 ^^^ 1) a b 4, .jal 0 (BitVec.ofInt 20 (2 * (o - 1)))]
     else branchBy (f3 ^^^ 1) a b 6 :: farJump 0 (4 * (o - 1))).map wordOf
  | .entry d l =>
    let v := BitVec.ofNat 64 (4 * goal l)
    let lo : BitVec 12 := v.truncate 12
    [Instr.lui d (((v - sext12 lo) >>> 12).truncate 20), .addi d d lo].map wordOf
  | .rep w body _ => w :: body

/-- The operations that an item's words belong to, from that of the item; and those of the words that it executes. -/
def Item.origins (n pos : Nat) : Item → List Nat
  | .rep _ body ps => ps.headD pos :: ps.take body.length
  | _ => List.replicate n pos
def Item.executes (n pos : Nat) : Item → List Nat
  | .rep _ _ ps => ps.headD pos :: ps
  | _ => List.replicate n pos

/-- Native text: its words, the version and operation that each belongs to, those of every word that it executes with each pass of a
repetition, and where each version begins. -/
structure Native where
  words  : List (BitVec 32)
  origin : List (Nat × Nat)
  passes : List (Nat × Nat)
  starts : List Nat
  vers   : List Version
  deriving DecidableEq, Repr

/-- The native text of an image (R259 steps 3 and 4). -/
def emitImage (tr : Translating) : Native :=
  let vs := versionsOf tr.b tr.c
  let stack := usesStack tr vs
  let all := vs.zipIdx.flatMap fun v => (versionItems tr vs stack v.2 v.1).map fun x => (x.1, v.2, x.2)
  let is := settleLayout (2 * all.length + 1) (all.map fun x => (x.1, 0))
  let ps := placesOf 0 is
  let goal := labelAt is ps
  let out := ((is.zip ps).zip all).map fun x => (x.1.1.1, x.1.1.1.words x.1.2 x.1.1.2 goal, x.2.2)
  ⟨out.flatMap fun x => x.2.1, out.flatMap fun x => (x.1.origins x.2.1.length x.2.2.2).map fun k => (x.2.2.1, k),
    out.flatMap fun x => (x.1.executes x.2.1.length x.2.2.2).map fun k => (x.2.2.1, k),
    (List.range vs.length).map fun k => goal (.entry k), vs⟩

/-- The portable operation index of each native word (R208, R259 step 4). -/
def Native.index (n : Native) (b : List Byte) : List Nat :=
  n.origin.map fun x => ((n.vers[x.1]?).map fun v => (imgFunc b v.func).1).getD 0 + x.2

/-- The native word at which each function begins for a task, and as the trap routine. -/
def Native.entries (n : Native) (funcs : Nat) : List Nat := (List.range funcs).map fun g => n.starts.getD (versionNo n.vers g .task) 0
def Native.trapEntry (n : Native) (g : Nat) : Nat := n.starts.getD (versionNo n.vers g .trap) 0

/-! ### The bounds of a rewrite chunk (R244) -/

/-- A loop of a function: its block and the operations on paths from it back to it. -/
def loopBody (f : PFunc) (blk : Nat) : List Nat :=
  let es := f.edges
  let n := es.length * (f.ops.length + 2) + 2
  let from' := reachAlong es n [blk] []
  let back := (es.filter fun e => e.dst == blk && from'.contains e.src).map fun e => e.src
  if back.isEmpty then []
  else (reachAlong ((es.filter fun e => e.dst != blk).map fun e => ⟨e.dst, e.src, false⟩) n back []).filter from'.contains

/-- An edge into a block enters its loop anew: it does not come from the loop, or no path of the loop leads to it but through
a block that stands before the loop's own on every path, whose passes count beside it. -/
def entersLoop (f : PFunc) (blk : Nat) (e : Edge) : Bool :=
  let from' := fun (avoid : Nat) => (f.reach avoid (2 * f.ops.length + 2) (f.next blk) []).contains e.src
  !from' f.ops.length || f.blocks.any fun b => b != blk && f.dominates b blk && !from' b

/-- The passes of the loop at a block, as the Winnower proves them: by a parameter that only edges from outside the loop set
anew. -/
def loopTrips (p : Folded) (c : Proving) (fi blk : Nat) : Option Nat :=
  match c.fs[fi]? with
  | none => none
  | some f =>
    match f.ops[blk]? with
    | some (.blk n) =>
      ((List.range n).filterMap fun k =>
        let v := blk + 1 + k
        if !((backEdges f v).2.all fun x => entersLoop f blk x.1) then none
        else
        (joinAll ((backEdges f v).2.map fun x =>
          if argDist f x.2 = 0 then plainRange 0 0
          else (reached x.2 (argDist f x.2)).bind fun w => guarded (guardsOn f x.1) w (valueRange p c traceFuel fi w))).bind
          (paramTrips f v)).min?
    | _ => none

/-- How often an operation runs, at most, in one pass of its function; none where a loop's trip count is not proved. -/
def runsOf (p : Folded) (c : Proving) (fi i : Nat) : Option Nat :=
  match c.fs[fi]? with
  | none => none
  | some f => (f.blocks.filter fun blk => (loopBody f blk).contains i).foldl
      (fun acc blk => acc.bind fun n => (loopTrips p c fi blk).map fun t => n * t) (some 1)

/-- A place that a rewrite chunk writes: a node slot, or the line of an address, by the value it is computed from and how far
it lies from there. Places that differ count as lines of their own. -/
structure Spot where
  root : Nat
  node : Bool
  off  : Int
  deriving DecidableEq, Repr

/-- The value that another is computed from by adding constants, and how far it lies from there; a constant of the upper half
changes no reference (R226). -/
def rootOf (f : PFunc) (node : Bool) : Nat → Nat → Nat × Int
  | 0, v => (v, 0)
  | n + 1, v =>
    let go := fun (d : Nat) (k : Int) => match reached v d with
      | some u => let r := rootOf f node n u
                  (r.1, r.2 + k)
      | none => (v, 0)
    let high := fun (k : Word) => node && fieldNat k 31 0 == 0
    match f.ops[v]? with
    | some (.instr (.addi _ _ k) a _ _) => go a k.toInt
    | some (.instr (.add _ _ _) a b _) =>
      (match constOf f 16 v b, constOf f 16 v a with
       | some k, _ => go a (if high k then 0 else k.toInt)
       | none, some k => go b (if high k then 0 else k.toInt)
       | none, none => (v, 0))
    | some (.instr (.or _ _ _) a b _) =>
      (match constOf f 16 v b, constOf f 16 v a with
       | some k, _ => if high k then go a 0 else (v, 0)
       | none, some k => if high k then go b 0 else (v, 0)
       | none, none => (v, 0))
    | _ => (v, 0)

/-- The node slot that a reference names: counted in slots from a node's own offset, the same for the ports of a link that
`nrd` gives, and elsewhere by the reference as it is computed (R224, R226). -/
def nodeSpot (f : PFunc) (rule : Bool) (v : Nat) : Spot :=
  let r := rootOf f true 16 v
  match f.ops[r.1]? with
  | some (.instr (.nalloc _ _) _ _ _) => ⟨r.1, true, r.2 / 32⟩
  | some (.instr (.nrd _ _) _ _ _) => ⟨r.1, true, if 0 ≤ r.2 ∧ r.2 < 30 then 0 else r.2⟩
  | some (.prm k) => ⟨r.1, true, if rule = true ∧ r.1 = k + 1 then r.2 / 32 else r.2⟩
  | _ => ⟨r.1, true, r.2⟩

/-- The places that an operation of a rewrite chunk writes, and further lines that nothing ties; a long accumulator lies in
two lines (R110, R196, R244, R371). -/
def spotsOf (f : PFunc) (rule : Bool) (i : Nat) (op : POp) : List Spot × Nat :=
  let node := fun (d : Nat) => (reached i d).toList.map (nodeSpot f rule)
  let line := fun (d : Nat) (k : Int) => (reached i d).toList.map fun v =>
    let r := rootOf f false 16 v
    (⟨r.1, false, r.2 + k⟩ : Spot)
  match op with
  | .instr ins a b _ =>
    match ins with
    | .nalloc _ _ => ([⟨i, true, 0⟩], 0)
    | .nfree _ => (node a, 0)
    | .nlink _ _ => (node a ++ node b, 0)
    | .sb _ _ k => (line a k.toInt, 0)
    | .sh _ _ k => (line a k.toInt, 0)
    | .sw _ _ k => (line a k.toInt, 0)
    | .sd _ _ k => (line a k.toInt, 0)
    | .sx _ _ _ _ _ _ _ => (line a 0, 0)
    | .tagw _ _ => (line a 0, 0)
    | .vst _ _ => (line a 0, 0)
    | .vstx _ _ _ => ([], 8)
    | .mst _ _ _ => ([], 128)
    | .laccClr _ => (line a 0 ++ line a 64, 0)
    | .laccAdd _ _ => (line a 0 ++ line a 64, 0)
    | .laccAddp _ _ _ => (line a 0 ++ line a 64, 0)
    | .laccMrg _ _ => (line a 0 ++ line a 64, 0)
    | _ => ([], 0)
  | _ => ([], 0)

/-- The positions of a rule routine's rewrite chunk, through its calls: what stands before its `cmt` and is no part of the
status operations. -/
def chunkPoints (fs : List PFunc) (r : Nat) : List ShapeAt :=
  let size := (fs.map fun f => f.ops.length).sum
  (shapeWalk fs (200 * size + 200) [⟨r, 0, 0, 0⟩] []).filter fun x =>
    decide (x.phase ≤ 2) && (match (fs[x.func]?).bind fun f => f.ops[x.pos]? with
      | some (.instr i _ _ _) => shapeOf i != .status && shapeOf i != .empty
      | some _ => true
      | none => false)

/-- The most native words that a path of a function takes, from its words at each position; a loop's words count as often as it
runs. -/
def longestPath (f : PFunc) (weight : Nat → Nat) : Nat :=
  let fwd := f.edges.filter fun e => !((loopBody f e.dst).contains e.src && (loopBody f e.dst).contains e.dst)
  let step := fun (ds : List Nat) => fwd.foldl (fun ds e =>
    let x := ds.getD e.src 0 + weight e.dst
    if ds.getD e.src 0 = 0 then ds else ds.set e.dst (max (ds.getD e.dst 0) x)) ds
  let start := (List.replicate f.ops.length 0).set 0 (weight 0 + 1)
  ((List.range f.ops.length).foldl (fun ds _ => step ds) start).foldl max 0 - 1

/-- The native words of a rewrite chunk along the longest path of a function and what it calls; none where a trip count is not
proved, and the fuel bounds the depth of calls. -/
def chunkWords (tr : Translating) (n : Native) (pts : List ShapeAt) : Nat → Nat → Way → Option Nat
  | 0, _, _ => none
  | k + 1, fi, way =>
    match tr.c.fs[fi]? with
    | none => none
    | some f =>
      let ver := versionNo n.vers fi way
      let here := (pts.filter fun x => x.func == fi).map fun x => x.pos
      let ws := (List.range f.ops.length).mapM fun i =>
        if here.contains i then
          (runsOf tr.p tr.c fi i).bind fun runs =>
            let own := (n.passes.filter fun o => o == (ver, i)).length
            match f.ops[i]? with
            | some (.call g) => (chunkWords tr n pts k g .call).map fun x => runs * (own + x)
            | _ => some (runs * own)
        else some 0
      ws.map fun l => longestPath f fun i => l.getD i 0

/-- The lines that a rewrite chunk writes in a function and what it calls: each place once, or as often as its operation runs; none
where a trip count is not proved, and the fuel bounds the depth of calls. -/
def chunkLines (tr : Translating) (pts : List ShapeAt) : Nat → Nat → Option Nat
  | 0, _ => none
  | k + 1, fi =>
    match tr.c.fs[fi]? with
    | none => none
    | some f =>
      let here := ((pts.filter fun x => x.func == fi).map fun x => x.pos).eraseDups
      let wet := here.filterMap fun i => (f.ops[i]?).bind fun op =>
        let w := spotsOf f (tr.c.rules.contains fi) i op
        if w.1.isEmpty && w.2 == 0 then none else some (i, w)
      let calls : List (Nat × Nat) := here.filterMap fun i => match f.ops[i]? with
        | some (POp.call g) => some (i, g)
        | _ => none
      (wet.mapM fun x => (runsOf tr.p tr.c fi x.1).map fun n => (n, x.2)).bind fun own =>
        (calls.mapM fun x => (runsOf tr.p tr.c fi x.1).bind fun n => (chunkLines tr pts k x.2).map fun l => n * l).map fun below =>
          (((own.filter fun x => x.1 == 1).flatMap fun x => x.2.1).eraseDups).length +
            (own.map fun x => x.1 * (x.2.2 + (if x.1 = 1 then 0 else x.2.1.length))).sum + below.sum

/-- The first rule routine whose rewrite chunk is not proved to keep 512 native words and 64 written lines: the index of its
first operation (R244). -/
def boundError (tr : Translating) (n : Native) : Option Nat :=
  ((imgRuleFuncs tr.b).eraseDups.filter fun r =>
    let pts := chunkPoints tr.c.fs r
    !((chunkWords tr n pts (tr.c.fs.length + 1) r .task).any fun x => decide (x ≤ 512)) ||
      !((chunkLines tr pts (tr.c.fs.length + 1) r).any fun x => decide (x ≤ 64))).map (fun r => (imgFunc tr.b r).1) |>.min?

end Sys2Proof.Machine
end

