-- ==== Sys2Proof/Machine/Crypto.lean ====
section
/-! DEFINITION. The crypto block of the management die: its commands (R319, R320) and its registers (Table 18.2). -/

namespace Sys2Proof.Machine

/-! ### What a command reads and writes -/

def modMgmt (s : State) (f : Mgmt → Mgmt) : State := { s with mgmt := f s.mgmt }
def modCrypto (s : State) (f : Crypto → Crypto) : State := modMgmt s fun m => { m with crypto := f m.crypto }

/-- The range lies in management SRAM (Table 18.1). -/
def inSram (a n : Nat) : Bool := decide (0x08000000 ≤ a) && decide (a + n ≤ 0x08100000)
/-- The range lies in the flash window (Table 18.1). -/
def inFlash (a n : Nat) : Bool := decide (0x20000000 ≤ a) && decide (a + n ≤ 0x24000000)

/-- Bytes of a table from a place; an unlisted one reads zero (DESIGN CHOICE, log entry 5). -/
def tabBytes (t : Tab Byte) (o n : Nat) : List Byte := (List.range n).map fun i => Tab.get t (o + i) 0

/-- Bytes put into a table from a place on. -/
def tabPut (t : Tab Byte) : Nat → List Byte → Tab Byte
  | _, [] => t
  | o, b :: bs => tabPut (Tab.set t o b) (o + 1) bs

/-- Bytes of SRAM or of the flash window. -/
def mgmtBytes (s : State) (a n : Nat) : Option (List Byte) :=
  if inSram a n then some (tabBytes s.mgmt.sram (a - 0x08000000) n)
  else if inFlash a n then some (tabBytes s.mgmt.flash (a - 0x20000000) n)
  else none

/-- Bytes written to SRAM. -/
def sramPut (s : State) (a : Nat) (bs : List Byte) : State :=
  modMgmt s fun m => { m with sram := tabPut m.sram (a - 0x08000000) bs }

/-- A digest as a register holds it, and its bytes. -/
def digOf (bs : List Byte) : BitVec 384 := BitVec.ofNat 384 (natBE bs)
def digBytes (d : BitVec 384) : List Byte := bytesBE 48 d.toNat

/-- `n` bytes of the count of `fresh`, which passes on (R320). -/
def freeBytes (s : State) (n : Nat) : List Byte := (List.range n).map (Config.cryptoByte s.fresh)
def nextFresh (s : State) : State := { s with fresh := s.fresh + 1 }

/-- A key-store slot holds a key; slot 64 is the device identity key, which signs (R320). -/
def slotHeld (s : State) (n : Nat) : Bool := n == 64 || s.mgmt.keys.any fun k => k.1 == n

/-- The signing key of a slot: the device's own in slot 64. -/
def signKey (s : State) (n : Nat) : Option Nat := if n = 64 then some Config.deviceKey else (Tab.get s.mgmt.keys n .empty).sign

def slotSigns (s : State) (n : Nat) : Bool := (signKey s n).isSome

/-- A number from 1 to below the order of the curve's group. -/
def scalarOf (n : Nat) : Nat := n % (curveQ - 1) + 1

/-- The nonces the true random source gives one command. -/
def drawNonce (s : State) (j : Nat) : Nat := scalarOf (natBE ((List.range 48).map fun i => Config.cryptoByte s.fresh (48 * j + i)))

/-! ### The operations (Table 18.3): each answers the state and its error -/

/-- Op 1: DIG ← SHA-384 of LEN bytes at SRC. -/
def opSha (s : State) : State × Nat :=
  let c := s.mgmt.crypto
  if 2 ^ 24 < c.len.toNat then (s, 4)
  else
    match mgmtBytes s c.src.toNat c.len.toNat with
    | none => (s, 4)
    | some bs => (modCrypto s fun c => { c with dig := digOf (sha384 bs) }, 0)

/-- A signature over a digest verifies under the 96-byte key, or the error: 2 or 3. -/
def verifyError (keyhash dig : BitVec 384) (key : List Byte) (sig : BitVec 768) : Nat :=
  let rs := bytesBE 96 sig.toNat
  if digOf (sha384 key) ≠ keyhash then 2
  else if ecdsaVerify dig.toNat (natBE (key.take 48)) (natBE (key.drop 48)) (natBE (rs.take 48)) (natBE (rs.drop 48)) then 0
  else 3

/-- Op 2: the key's hash, then the signature over DIG. -/
def opVerify (s : State) : State × Nat :=
  let c := s.mgmt.crypto
  match mgmtBytes s c.keyaddr.toNat 96 with
  | none => (s, 4)
  | some key => (s, verifyError c.keyhash c.dig key c.sig)

/-- SIG holds r and then s, 48 bytes each. -/
def sigOf (x : Nat × Nat) : BitVec 768 := BitVec.ofNat 768 (x.1 * 2 ^ 384 + x.2)

/-- Op 3: SIG ← the signature of DIG with the key in a slot; the nonce is free, and one that leaves a part zero is drawn again
(R320; DESIGN CHOICE, log entry 66). -/
def opSign (s : State) (slot : Nat) : State × Nat :=
  match signKey s slot with
  | some d =>
    (nextFresh (modCrypto s fun c => { c with sig := sigOf (ecdsaSign c.dig.toNat (scalarOf d) (drawNonce s) 16 0) }), 0)
  | none => (s, 5)

/-- MEASi. -/
def measOf (s : State) (i : Nat) : BitVec 384 := s.mgmt.meas[i % 16]'(Nat.mod_lt _ (by decide))

/-- MEASi ← SHA-384(MEASi ‖ D) (R322, R323). -/
def measExtend (s : State) (i : Nat) (d : BitVec 384) : State :=
  let v := digOf (sha384 (digBytes (measOf s i) ++ digBytes d))
  modMgmt s fun m => { m with meas := m.meas.set (i % 16) v (Nat.mod_lt _ (by decide)) }

/-- Op 4: extend; MEAS0 is closed once the boot ROM has exited. -/
def opExtend (s : State) (i : Nat) : State × Nat :=
  if i % 16 = 0 ∧ s.mgmt.romExit = true then (s, 5) else (measExtend s i s.mgmt.crypto.dig, 0)

/-- A descriptor of ops 5 and 6: destination, length, nonce or tweak, tag address. -/
structure AesDesc where
  dest  : Nat
  len   : Nat
  nonce : List Byte
  tagAt : Nat
  deriving DecidableEq, Repr

/-- The descriptor's fields in the manual's order, 8 bytes each but 16 for the nonce or tweak (DESIGN CHOICE, log entry 66). -/
def aesDesc (d : List Byte) : AesDesc :=
  ⟨natOfBytes (d.take 8), natOfBytes ((d.drop 8).take 8), (d.drop 16).take 16, natOfBytes ((d.drop 32).take 8)⟩

/-- Op 5 encrypts under a 32-byte key with a 12-byte nonce, no additional data, and leaves the tag. -/
def aesGcm (s : State) (k : KeySlot) (d : AesDesc) (bs : List Byte) : State × Nat :=
  if k.image.length ≠ 32 then (s, 5)
  else
    let rk := roundKeys k.image
    let ct := gcmCrypt rk (d.nonce.take 12) bs
    (sramPut (sramPut s d.dest ct) d.tagAt (gcmTag rk (d.nonce.take 12) [] ct), 0)

/-- Op 6 encrypts one data unit under a 64-byte key; a unit shorter than a block has no XTS encryption, and is free. -/
def aesXts (s : State) (k : KeySlot) (d : AesDesc) (bs : List Byte) : State × Nat :=
  if k.code.length ≠ 64 then (s, 5)
  else if bs.length < 16 then (nextFresh (sramPut s d.dest (freeBytes s bs.length)), 0)
  else (sramPut s d.dest (xtsEncrypt k.code d.nonce bs), 0)

/-- Ops 5 and 6: AES on the 64-byte descriptor at SRC, whose input follows it (DESIGN CHOICE, log entry 66). -/
def opAes (s : State) (slot : Nat) (tag : Bool) : State × Nat :=
  let src := s.mgmt.crypto.src.toNat
  match (mgmtBytes s src 64).map aesDesc with
  | none => (s, 4)
  | some d =>
    match mgmtBytes s (src + 64) d.len with
    | none => (s, 4)
    | some bs =>
      let k := Tab.get s.mgmt.keys slot .empty
      if !(decide (d.len ≤ 2 ^ 24) && inSram d.dest d.len && (!tag || inSram d.tagAt 16)) then (s, 4)
      else
        let s := modMgmt s fun m => { m with core := { m.core with resv := none } }
        if tag then aesGcm s k d bs else aesXts s k d bs

/-- Op 7: DIG ← 48 bytes of the true random source. -/
def opRandom (s : State) : State × Nat :=
  (nextFresh (modCrypto s fun c => { c with dig := digOf (freeBytes s 48) }), 0)

/-! ### Commands -/

/-- A write to CMD: ignored while a command runs, which then ends with error 1 instead of 0; else the command starts (R319,
R320). -/
def startCommand (s : State) (op : Nat) (run : State → State × Nat) : State :=
  match s.mgmt.crypto.busy with
  | some c => modCrypto s fun x => { x with busy := some { c with late := true } }
  | none => let r := run s
            modCrypto r.1 fun x => { x with busy := some ⟨op, r.2, false⟩ }

/-- CRYPTO_SHA384 (R320 op 1). -/
def execCryptoSha384 (s : State) : Out := .next (startCommand s 1 opSha)
/-- CRYPTO_ECDSA_VERIFY (R320 op 2). -/
def execCryptoEcdsaVerify (s : State) : Out := .next (startCommand s 2 opVerify)
/-- CRYPTO_ECDSA_SIGN (R320 op 3). -/
def execCryptoEcdsaSign (slot : Nat) (s : State) : Out := .next (startCommand s 3 fun s => opSign s (slot % 128))
/-- CRYPTO_EXTEND (R320 op 4). -/
def execCryptoExtend (index : Nat) (s : State) : Out := .next (startCommand s 4 fun s => opExtend s index)
/-- CRYPTO_AES_GCM (R320 op 5). -/
def execCryptoAesGcm (slot : Nat) (s : State) : Out := .next (startCommand s 5 fun s => opAes s (slot % 128) true)
/-- CRYPTO_AES_XTS (R320 op 6). -/
def execCryptoAesXts (slot : Nat) (s : State) : Out := .next (startCommand s 6 fun s => opAes s (slot % 128) false)
/-- CRYPTO_RANDOM (R320 op 7). -/
def execCryptoRandom (s : State) : Out := .next (startCommand s 7 opRandom)
/-- CRYPTO_INVALID_OP (R320 ops 0 and 8 to 15). -/
def execCryptoInvalidOp (op : BitVec 4) (s : State) : Out := .next (startCommand s op.toNat fun s => (s, 6))

/-- STAT of a command that ends: done or failed, and its error code (Table 18.2, R320). -/
def endStat (c : CryptoCmd) : Word :=
  BitVec.ofNat 64 ((if c.err = 0 then 2 else 3) + 2 ^ 8 * (if c.err = 0 then (if c.late then 1 else 0) else c.err))

/-- A command that firmware has run from its write to CMD to its end leaves STAT (R334). -/
def ran (s : State) (op err : Nat) : State := modCrypto s fun x => { x with stat := endStat ⟨op, err, false⟩ }

/-- CRYPTO_COMMAND_DONE: the running command ends (R319, R334). -/
def execCryptoCommandDone (s : State) : Out :=
  match s.mgmt.crypto.busy with
  | none => .next s
  | some c => .next (modCrypto s fun x => { x with busy := none, stat := endStat c })

/-! ### The registers (Table 18.2) -/

/-- The command a CMD word names. -/
def commandOf (v : Word) (s : State) : State :=
  let op := fieldNat v 3 0
  let i := fieldNat v 11 8
  let slot := fieldNat v 22 16
  startCommand s op fun s =>
    match op with
    | 1 => opSha s
    | 2 => opVerify s
    | 3 => opSign s slot
    | 4 => opExtend s i
    | 5 => opAes s slot true
    | 6 => opAes s slot false
    | 7 => opRandom s
    | _ => (s, 6)

/-- STAT reads busy while a command runs (R334). -/
def statRead (c : Crypto) : Word := if c.busy.isSome then 1 else c.stat

/-- A byte of the crypto block's registers; what no field names, and CMD, reads zero. -/
def cryptoRead (s : State) (o : Nat) : Byte :=
  let c := s.mgmt.crypto
  let at' := fun (bs : List Byte) (base : Nat) => bs.getD (o - base) 0
  if decide (0x8 ≤ o) && decide (o < 0x10) then at' (bytesOfNat 8 (statRead c).toNat) 0x8
  else if decide (0x10 ≤ o) && decide (o < 0x18) then at' (bytesOfNat 8 c.src.toNat) 0x10
  else if decide (0x18 ≤ o) && decide (o < 0x20) then at' (bytesOfNat 8 c.len.toNat) 0x18
  else if decide (0x20 ≤ o) && decide (o < 0x28) then at' (bytesOfNat 8 c.keyaddr.toNat) 0x20
  else if decide (0x40 ≤ o) && decide (o < 0x70) then at' (digBytes c.dig) 0x40
  else if decide (0x80 ≤ o) && decide (o < 0xE0) then at' (bytesBE 96 c.sig.toNat) 0x80
  else if decide (0x100 ≤ o) && decide (o < 0x130) then at' (digBytes c.keyhash) 0x100
  else if decide (0x400 ≤ o) && decide (o < 0x700) then (digBytes (measOf s ((o - 0x400) / 48))).getD ((o - 0x400) % 48) 0
  else 0

/-- One byte of a little-endian word replaced. -/
def putLE (w : Word) (i : Nat) (b : Byte) : Word :=
  BitVec.ofNat 64 (natOfBytes ((bytesOfNat 8 w.toNat).set i b))

/-- One byte stored to a register other than CMD; read-only ones keep theirs. -/
def cryptoPut (c : Crypto) (o : Nat) (b : Byte) : Crypto :=
  if decide (0x10 ≤ o) && decide (o < 0x18) then { c with src := putLE c.src (o - 0x10) b }
  else if decide (0x18 ≤ o) && decide (o < 0x20) then { c with len := putLE c.len (o - 0x18) b }
  else if decide (0x20 ≤ o) && decide (o < 0x28) then { c with keyaddr := putLE c.keyaddr (o - 0x20) b }
  else if decide (0x40 ≤ o) && decide (o < 0x70) then { c with dig := digOf ((digBytes c.dig).set (o - 0x40) b) }
  else if decide (0x80 ≤ o) && decide (o < 0xE0) then
    { c with sig := BitVec.ofNat 768 (natBE ((bytesBE 96 c.sig.toNat).set (o - 0x80) b)) }
  else c

/-- Bytes stored to the crypto block; one that covers CMD starts a command (R319). -/
def cryptoWrite (s : State) (o : Nat) (bs : List Byte) : State :=
  let s1 := modCrypto s fun c => (bs.zipIdx).foldl (fun c x => cryptoPut c (o + x.2) x.1) c
  if o < 8 then commandOf (BitVec.ofNat 64 (natOfBytes (List.replicate o 0 ++ bs))) s1 else s1

end Sys2Proof.Machine
end

