-- ==== Sys2Proof/Machine/Views.lean ====
section
/-! DEFINITION. Control space as it is read: stored words, and the words the device computes (R133, R143, R255, R284,
R329, R330, R458). -/

namespace Sys2Proof.Machine

/-- Number of unscrubbed bits: stacked and module granules (R143). -/
def granules : Nat := 2 ^ 21 + 2 ^ 23

/-- The granule of a DRAM address (R143). -/
def granuleOf (a : Nat) : Nat := if a < 0x2000000000 then a / 0x10000 else 2 ^ 21 + (a - 0x8000000000) / 0x10000

/-- The first address of a granule (R143). -/
def granuleBase (g : Nat) : Nat := if g < 2 ^ 21 then g * 0x10000 else 0x8000000000 + (g - 2 ^ 21) * 0x10000

/-- The granule lies in the tag carve-out (R125, R143). -/
def granuleCarved (g : Nat) : Bool := decide (0xFE00000000 ≤ granuleBase g)

/-- The unscrubbed bit of a granule: set at boot, until its background clear ends (R143, R321). -/
def unscrubbed (s : State) (g : Nat) : Bool :=
  decide (g < granules) && !granuleCarved g && !s.mem.scrubbed.contains g

/-- Lines of DRAM are accessed: the first access to an unscrubbed granule starts its background clear (R143). -/
def reach (s : State) (ls : List Nat) : State :=
  let gs := (ls.filter fun l => decide (64 * l < 0x2000000000) ||
    (decide (0x8000000000 ≤ 64 * l) && decide (64 * l < 0xFE00000000))).map fun l => granuleOf (64 * l)
  { s with mem := { s.mem with clearing := gs.foldl (fun c g => if unscrubbed s g then addNew g c else c) s.mem.clearing } }

/-- 64 unscrubbed bits from granule `g` upward. -/
def unscrubbedWord (s : State) (g : Nat) : Word :=
  (List.range 64).foldl (fun w i => if unscrubbed s (g + i) then w ||| (1#64 <<< i) else w) 0

/-- SEALUSE[n].STARTED (R284): started tasks whose handle names slot n. -/
def sealUse (s : State) (n : Nat) : Nat :=
  ((allTasks s).filter fun t => t.started && t.handle.toNat % 4096 == n).length

/-- The configuration words (R330). -/
def configWord (s : State) (w : Nat) : Word :=
  if w = 0 then s.conf.rowEn.truncate 64
  else if w = 1 then (s.conf.rowEn >>> 64).truncate 64
  else if w = 2 then s.conf.lpen.zeroExtend 64
  else if w = 3 then s.conf.portw.zeroExtend 64
  else if w = 4 then BitVec.ofNat 64 s.conf.modcap
  else if w < 9 then s.conf.bankret.getD (w - 5) 0
  else 0

/-- TENANT[t].PREEMPT as a reader sees it: its own request in bit 0, the acknowledged halt in bit 1 (Table 13.1). -/
def preemptWord (req ack : BitVec 64) (t : Nat) : Word :=
  (if req.getLsbD t then 1 else 0) ||| (if ack.getLsbD t then 2 else 0)

/-- A control-space word as a trusted image reads it. -/
def ctlView (s : State) (off : Nat) : Word :=
  let o := 8 * (off / 8)
  if decide (0x1000000 ≤ o) && decide (o < 0x1000000 + granules / 8) then unscrubbedWord s (8 * (o - 0x1000000))
  else if decide (0x3000000 ≤ o) && decide (o < 0x3004000) && decide (o % 0x100 = 0x50) then
    preemptWord s.pre.tr s.pre.trAck ((o - 0x3000000) / 0x100)
  else if decide (0x3180000 ≤ o) && decide (o < 0x3188000) then BitVec.ofNat 64 (sealUse s ((o - 0x3180000) / 8))
  else if decide (0x4000000 ≤ o) && decide (o < 0x4000000 + 8 * 2276) then
    BitVec.ofNat 64 (Tab.get s.silo ((o - 0x4000000) / 8) 0)
  else if decide (0x5000000 ≤ o) && decide (o < 0x5000048) then configWord s ((o - 0x5000000) / 8)
  else ctlGet s o

/-- `n` bytes of control space from an offset. -/
def ctlBytes (s : State) (off n : Nat) : List Byte :=
  (List.range n).map fun k => BitVec.ofNat 8 ((ctlView s (off + k)).toNat >>> (8 * ((off + k) % 8)))

/-- The 64-bit word at a local address as its home holds it, tag and value: memory or control space (R458). -/
def homeWord (s : State) (a : Nat) : Word :=
  match placeOf s a with
  | .control off => ctlView s off
  | .window _ c o => s.mem.read64 (8 * (spAddr c o / 8))
  | _ => s.mem.read64 (8 * (a / 8))

/-- The canonical address of a byte: a scratchpad byte by its W0 address (R127). -/
def canon (s : State) (a : Nat) : Nat :=
  match placeOf s a with
  | .window _ c o => spAddr c o
  | _ => a

/-- TAG of the word at a local address; control space is always full (R458). -/
def homeTag (s : State) (a : Nat) : Bool :=
  match placeOf s a with
  | .control _ => true
  | _ => s.mem.full (canon s a)

end Sys2Proof.Machine
end

