-- ==== Sys2Proof/Machine/Wire.lean ====
section
/-! DEFINITION. The 256 bytes of a flit (R291, Table 15.1) and how a link encrypts and authenticates them (R299). -/

namespace Sys2Proof.Machine

/-- A field of `w` bits at a bit of a header word. -/
def putField (v w lo : Nat) : Nat := (v % 2 ^ w) * 2 ^ lo

/-- Header word 0 (Table 15.1); the low four bits of `rsv` are its reserved field. -/
def flitWord0 (f : Flit) : Word := BitVec.ofNat 64
  (putField f.dest 16 0 + putField f.src 16 16 + putField f.sinc 8 32 + putField (if f.kgen then 1 else 0) 1 40 +
    putField f.cls 3 41 + putField f.ti 6 44 + putField f.score 10 50 + putField f.rsv.toNat 4 60)

/-- Header word 1; the further bits of `rsv` are its reserved fields [47:45] and [63:56]. -/
def flitWord1 (f : Flit) : Word := BitVec.ofNat 64
  (putField f.dcore 10 0 + putField f.op 6 10 + putField f.reqid 16 16 + putField f.dinc 8 32 +
    putField f.words.length 5 40 + putField (f.rsv.toNat / 16) 3 45 + putField f.status 8 48 +
    putField (f.rsv.toNat / 128) 8 56)

/-- Bytes 0 to 15. -/
def flitHeader (f : Flit) : List Byte := bytesOfWords [flitWord0 f, flitWord1 f]

/-- Bytes 16 to 223 before encryption: 26 words; those past LEN are zero (DESIGN CHOICE, log entry 63). -/
def flitPayload (f : Flit) : List Byte := bytesOfWords ((f.words ++ List.replicate 26 0).take 26)

/-- Every field is as wide as the header makes it, and LEN counts the words. -/
def flitFits (f : Flit) : Bool :=
  decide (f.dest < 2 ^ 16) && decide (f.src < 2 ^ 16) && decide (f.sinc < 2 ^ 8) && decide (f.cls < 2 ^ 3) &&
    decide (f.ti < 2 ^ 6) && decide (f.score < 2 ^ 10) && decide (f.dcore < 2 ^ 10) && decide (f.op < 2 ^ 6) &&
    decide (f.reqid < 2 ^ 16) && decide (f.dinc < 2 ^ 8) && decide (f.status < 2 ^ 8) && decide (f.words.length < 2 ^ 5)

/-- The nonce: the direction's identifier and the bank's flit counter (R299). -/
def flitNonce (dir ctr : Nat) : List Byte := bytesOfNat 4 dir ++ bytesOfNat 8 ctr

/-- Bytes 16 to 223 as they travel. -/
def flitSealed (key : List Byte) (dir ctr : Nat) (f : Flit) : List Byte :=
  gcmCrypt (roundKeys key) (flitNonce dir ctr) (flitPayload f)

/-- Bytes 224 to 239: the tag, the header being the additional authenticated data (R299). -/
def flitTag (key : List Byte) (dir ctr : Nat) (f : Flit) : List Byte :=
  gcmTag (roundKeys key) (flitNonce dir ctr) (flitHeader f) (flitSealed key dir ctr f)

/-- The 256 bytes of a flit on its link. The CRC-32 and the FEC parity are free: the manual names no polynomial and no code
(log entry 63). -/
def flitImage (key : List Byte) (dir ctr : Nat) (f : Flit) : List Byte :=
  let bs := flitHeader f ++ flitSealed key dir ctr f ++ flitTag key dir ctr f
  bs ++ (List.range 16).map (Config.linkCheck bs)

end Sys2Proof.Machine
end

