-- ==== Sys2Proof/Machine/Records.lean ====
section
/-! DEFINITION. The silo, the flits the package sends, its records to host endpoints (R208, R305), the posted-store
counters (R140), and the latches of wait slots (R102). -/

namespace Sys2Proof.Machine

/-! ### The silo (R329) -/

/-- A silo entry rises by one; a counter saturates (R329). -/
def siloBump (s : State) (i : Nat) : State :=
  { s with silo := Tab.set s.silo i (min (Tab.get s.silo i 0 + 1) (2 ^ 64 - 1)) }

/-! ### Flits (R291 to R294) -/

/-- Enabled ports, in order (R293, Table 18.9). -/
def portsOn (s : State) : List Nat :=
  (List.range 16).filter fun p => (s.conf.portw.toNat >>> (2 * p)) % 4 != 0

/-- The port a flit to a package leaves by (R293). -/
def portFor (s : State) (dest : Nat) : Nat :=
  let ps := portsOn s
  ps.getD (Config.portHash dest % ps.length) 0

/-- A link that has never come up. -/
def linkDown : Link := ⟨false, false, 0, 0, 0, 0, none, 0, false, false, []⟩

def linkAt (s : State) (p : Nat) : Link := Tab.get s.fab.links p linkDown
def setLink (s : State) (p : Nat) (l : Link) : State := { s with fab := { s.fab with links := Tab.set s.fab.links p l } }

/-- The key-store slots of a port's two directions (R320; DESIGN CHOICE, log entry 13). -/
def txSlot (p : Nat) : Nat := 65 + 2 * p
def rxSlot (p : Nat) : Nat := 66 + 2 * p

/-- The key of a bank of a link direction, empty where none is loaded (R299). -/
def bankKey (s : State) (slot : Nat) (kgen : Bool) : List Byte :=
  let k := Tab.get s.mgmt.keys slot .empty
  if kgen then k.code else k.image

/-- A flit of this package (Table 15.1), with the incarnation kept for its destination (R297). -/
def mkFlit (s : State) (dest cls ti score dcore op reqid : Nat) (words : List Word) : Flit where
  dest := dest
  src := s.conf.pkg
  sinc := s.conf.incarnation
  kgen := (linkAt s (portFor s dest)).kgen
  cls := cls
  ti := ti
  score := score
  dcore := dcore
  op := op
  reqid := reqid
  dinc := Tab.get s.fab.epInc dest 0
  status := 0
  words := words
  rsv := 0
  port := portFor s dest
  tag := []

/-- Send a flit: it leaves by its port, encrypted under the bank KGEN names, and the bank's counter rises; or it is held, at
2^48 until the rekey, and while its link is down (R297, R299, R301). -/
def sendFlit (s : State) (f : Flit) : State :=
  let l := linkAt s f.port
  let f := { f with kgen := l.kgen }
  let s := if f.op = 9 ∨ f.cls = 4 then s
    else
      let ps := addNew f.dest (Tab.get s.fab.sent f.ti [])
      { s with fab := { s.fab with sent := Tab.set s.fab.sent f.ti ps } }
  let keep := if f.op = 9 then s.fab.epInc else Tab.set s.fab.epInc f.dest (Tab.get s.fab.epInc f.dest 0)
  if !l.up || decide (2 ^ 48 ≤ l.txCtr) then
    { s with fab := { s.fab with links := Tab.set s.fab.links f.port { l with held := l.held ++ [f] }, epInc := keep } }
  else
    let img := flitImage (bankKey s (txSlot f.port) l.kgen) l.txDir l.txCtr f
    { s with fab := { s.fab with egress := s.fab.egress ++ [f], wire := s.fab.wire ++ [(f.port, img)], epInc := keep
                                 links := Tab.set s.fab.links f.port { l with txCtr := l.txCtr + 1 } } }

/-- The request identifiers that a task keeps: of its wait slots armed in other packages, and of a held `wset` (R454). -/
def Task.keptIds (t : Task) : List Nat :=
  ((t.waits.toList ++ (match t.inline with
    | some i => i.waits.toList
    | none => [])).filterMap fun w => w.req) ++ t.lanes.map BitVec.toNat

/-- Request identifiers a core has outstanding (R294). -/
def reqidsOf (s : State) (core : Nat) : List Nat :=
  ((s.fab.outReqs.filter fun r => r.core == core).map fun r => r.reqid) ++
    ((allTasks s).filter fun t => t.core == core).flatMap Task.keptIds

/-- A request identifier the core does not use (R294). -/
def freeReqid (s : State) (core : Nat) : Nat :=
  let used := reqidsOf s core
  ((List.range (used.length + 1)).find? fun n => !used.contains n).getD 0

/-- A posted flit of a core to a package has been answered NACK-WAIT and is not accepted yet, or waits behind such a one: the core
sends no newer one there (R314). -/
def farHeld (s : State) (core dest : Nat) : Bool :=
  s.fab.outReqs.any fun r =>
    r.posted && r.core == core && r.flit.dest == dest && r.flit.cls == 2 && (r.delay != 256 || r.due.isSome)

/-- Send a request or a posted flit and keep it until it is answered; a posted one that must not pass an older one is kept unsent
until that one has been accepted (R294, R295, R314). -/
def sendKept (s : State) (task core tenant dest cls dcore op : Nat) (words : List Word)
    (waits : Option (Nat × Dest × Nat × Bool)) (counted : Bool) (copy : Option Nat) : State :=
  let id := freeReqid s core
  let f := mkFlit s dest cls tenant core dcore op id words
  let wait := cls == 2 && farHeld s core dest
  let r : OutReq :=
    ⟨id, core, tenant, f, waits, task, 256, if wait then some s.time else none, decide (cls ≠ 0), counted, copy⟩
  let s := if wait then s else sendFlit s f
  { s with fab := { s.fab with outReqs := s.fab.outReqs ++ [r] } }

/-- A request or a posted flit of a task, a home or an interface. -/
def sendTracked (s : State) (task core tenant dest cls dcore op : Nat) (words : List Word)
    (waits : Option (Nat × Dest × Nat × Bool)) (counted : Bool) : State :=
  sendKept s task core tenant dest cls dcore op words waits counted none

/-- The same for a copy engine's beat of a command, which no counter counts (R354). -/
def sendEngine (s : State) (core tenant seq dest cls dcore op : Nat) (words : List Word) : State :=
  sendKept s 0 core tenant dest cls dcore op words none false (some seq)

/-- A message of a core to another of the package is held at its sender, which sends no newer posted traffic there (R87). -/
def nearHeld (s : State) (core dst : Nat) : Bool :=
  s.fab.netMsgs.any fun m => m.src == core && m.dst == dst && (m.due.isSome || m.delay != 256)

/-- Requests of a core that await a reply (R294). -/
def requestsOut (s : State) (core : Nat) : Nat :=
  (s.fab.outReqs.filter fun r => r.core == core && !r.posted).length

/-! ### Records to host endpoints (R305) -/

/-- The package of a tenant's host endpoint (Table 13.1). -/
def hostEp (s : State) (t : Nat) : Nat := fieldNat (tenantWord s t 9) 15 0

/-- The envelope word of a record (R305). -/
def envelope (kind n ti launch : Nat) : Word :=
  BitVec.ofNat 64 (kind + 2 ^ 8 * n + 2 ^ 16 * ti + 2 ^ 32 * launch)

/-- Change a launch. -/
def mapLaunch (s : State) (ti n : Nat) (f : Launch → Launch) : State :=
  { s with sched := { s.sched with launches := s.sched.launches.map fun x => if x.ti = ti ∧ x.number = n then f x else x } }

/-- Send one record, an OP 8 flit, to the host endpoint of a tenant; the launch of a fault record awaits its
acknowledgement (R305). -/
def hostRecord (s : State) (kind ti launch : Nat) (body : List Word) : State :=
  let s := if kind = 3 then mapLaunch s ti launch fun x => { x with unacked := x.unacked + 1 } else s
  sendTracked s 0 0 ti (hostEp s ti) 2 0 8 (envelope kind body.length ti launch :: body) none false

/-- The admitted image a tenant's handle names. -/
def imageOf (s : State) (tenant : Nat) (h : BitVec 16) : Option Image :=
  s.sched.images.find? fun i => i.tenant == tenant && i.handle == h

/-- The base of the region of an image handle's seal slot. -/
def textBase (s : State) (h : BitVec 16) : Nat :=
  fieldNat (ctlGet s (hmapOff (h.toNat % 4096) false)) 23 0 * 0x10000

/-- What a fault record says of a task (R208). -/
def Task.name (t : Task) : TaskName := ⟨t.key, t.tenant, t.taskId, t.handle, t.trusted, t.launch, t.ctx.pc, t.ctx.trapMode⟩

/-- The portable operation index of a native pc (R208): 0xFFFF_FFFF for trusted native code. -/
def portIndex (s : State) (t : TaskName) (pc : Word) : Nat :=
  if t.trusted then 0xFFFFFFFF
  else
    match imageOf s t.tenant t.handle with
    | some i => i.index.getD ((localOf pc - textBase s t.handle) / 4) 0xFFFFFFFF
    | none => 0xFFFFFFFF

/-- What a fault record says beside its task (Table 08.2). -/
structure FaultInfo where
  cause    : Nat
  user     : Nat
  fatal    : Bool
  deferred : Bool
  pc       : Word
  detail   : Word
  deriving DecidableEq, Repr

/-- TVEC of the image a handle names (R202, R271). -/
def tvecOf (s : State) (h : BitVec 16) : Word := ctlGet s (imgrecOff (h.toNat % 4096) 0)

/-- Word 0 of a fault record (Table 08.2); `noTrap` where the image has no trap routine. -/
def causeWord (i : FaultInfo) (trapMode noTrap : Bool) : Word :=
  BitVec.ofNat 64 (i.cause + 2 ^ 8 * i.user + (if i.fatal then 2 ^ 16 else 0) + (if trapMode then 2 ^ 17 else 0) +
    (if i.deferred then 2 ^ 18 else 0) + (if noTrap then 2 ^ 19 else 0))

/-- The eight words of a fault record of a task (Table 08.2). -/
def faultBody (s : State) (t : TaskName) (i : FaultInfo) : List Word :=
  [causeWord i t.trapMode (!bitOf (tvecOf s t.handle) 63), t.taskId, i.pc,
   BitVec.ofNat 64 (t.handle.toNat * 2 ^ 48 + portIndex s t i.pc), BitVec.ofNat 64 s.time, i.detail, Config.wrel, 0]

/-! ### Posted-store counters (R140, R141) -/

/-- The counters of a tenant on a core. -/
def countersOf (s : State) (core tenant : Nat) : Counters :=
  Tab.get s.eng.counters (coreTenant core tenant) ⟨0, 0, 0, 0, 0, 0⟩

def setCounters (s : State) (core tenant : Nat) (c : Counters) : State :=
  { s with eng := { s.eng with counters := Tab.set s.eng.counters (coreTenant core tenant) c } }

/-- Outstanding stores of a class. -/
def Counters.out (c : Counters) : WaitClass → Nat
  | .no => 0
  | .near => c.near
  | .die => c.die
  | .far => c.far

/-- Failed stores of a class. -/
def Counters.fails (c : Counters) : WaitClass → Nat
  | .no => 0
  | .near => c.nearF
  | .die => c.dieF
  | .far => c.farF

/-- Change the outstanding stores of a class. -/
def Counters.mapOut (c : Counters) (k : WaitClass) (f : Nat → Nat) : Counters :=
  match k with
  | .no => c
  | .near => { c with near := f c.near }
  | .die => { c with die := f c.die }
  | .far => { c with far := f c.far }

/-- Change the failed stores of a class. -/
def Counters.mapFails (c : Counters) (k : WaitClass) (f : Nat → Nat) : Counters :=
  match k with
  | .no => c
  | .near => { c with nearF := f c.nearF }
  | .die => { c with dieF := f c.dieF }
  | .far => { c with farF := f c.farF }

/-- The class of a destination homed at a core of this package; the own core's slice posts nothing (R140). -/
def classTo (core home : Nat) : WaitClass :=
  if core = home then .no else if clusterOf core = clusterOf home then .near else .die

/-- A store leaves the core. -/
def raiseCounter (s : State) (core tenant : Nat) (k : WaitClass) : State :=
  setCounters s core tenant ((countersOf s core tenant).mapOut k (· + 1))

/-- A store is performed or answered; `failed` when it was STALE or TORN. -/
def lowerCounter (s : State) (core tenant : Nat) (k : WaitClass) (failed : Bool) : State :=
  let c := (countersOf s core tenant).mapOut k (· - 1)
  setCounters s core tenant (if failed then c.mapFails k (· + 1) else c)

/-- A counter at 65,535 stalls the next store that would raise it (R140). -/
def counterFull (s : State) (core tenant : Nat) (k : WaitClass) : Bool :=
  decide (65535 ≤ (countersOf s core tenant).out k)

/-! ### Copy tickets (R148, R351) -/

def engineOf (s : State) (core : Nat) : Engine := Tab.get s.eng.engines core ⟨0, 0, []⟩
def setEngine (s : State) (core : Nat) (e : Engine) : State :=
  { s with eng := { s.eng with engines := Tab.set s.eng.engines core e } }

/-- The record a ticket names, as `cpst` finds it: none is expired or another tenant's (R351). -/
def ticketRec (s : State) (core tenant : Nat) (t : Word) : Option CopyCmd :=
  let e := engineOf s core
  let q := (e.next + 65536 - fieldNat t 15 0) % 65536
  if decide (q = 0) || decide (256 < q) then none
  else (e.cmds.find? fun c => c.seq == fieldNat t 15 0).bind fun c => if c.tenant = tenant then some c else none

/-- For how long the beats of the command that an engine executes have been held (R147). -/
def heldFor (s : State) (e : Engine) : Nat :=
  match e.cmds.findSome? fun c => if c.state = .pending then c.heldAt else none with
  | some h => s.time - h
  | none => 0

/-- The entry of `Preempt.since` for a class of a tenant's copies. -/
def sinceKey (t : Nat) (cls : Bool) : Nat := 2 * t + (if cls then 1 else 0)

/-- For how long pre-emption has stopped the copies of a command's tenant and class (R147, R285). -/
def stoppedFor (s : State) (c : CopyCmd) : Nat :=
  if preempted s c.tenant c.trusted then s.time - Tab.get s.pre.since (sinceKey c.tenant c.trusted) s.time else 0

/-- A stop of the copy `b` delays the copy `c` queued behind it, but not a trusted image's copy of the same tenant where `b` is
a code-class image's: that one goes on, and its promise is not pushed (R147, R285). -/
def delays (b c : CopyCmd) : Bool := !(c.trusted && !b.trusted && c.tenant == b.tenant)

/-- For how long the stop of a command, or of one queued before it that delays it, has lasted: the longest of these. -/
def stoppedAhead (s : State) (cs : List CopyCmd) (c : CopyCmd) : Nat :=
  ((cs.takeWhile fun b => b.seq != c.seq) ++ [c]).foldl (fun d b =>
    if b.state = .pending ∧ delays b c = true then max d (stoppedFor s b) else d) 0

/-- A command's promise now: a hold, or a stop by pre-emption, pushes it, and those of the commands queued behind it, later as
it lasts (R147). -/
def promiseNow (s : State) (core : Nat) (c : CopyCmd) : Nat :=
  c.promise + (if c.state = .pending then heldFor s (engineOf s core) + stoppedAhead s (engineOf s core).cmds c else 0)

/-- A sleeper has found the copy of a ticket unfinished at its promise: the copy completes in no turn of this cycle (R148). -/
def markMissed (s : State) (core : Nat) (t : Word) : State :=
  let e := engineOf s core
  setEngine s core { e with cmds := e.cmds.map fun c => if c.seq = fieldNat t 15 0 then { c with missed := some s.time } else c }

/-! ### The next word of a task (R270) -/

/-- The instruction-cache line that serves a task's pc (R270). -/
def fetchLine (s : State) (t : Task) : Option ICLine :=
  s.eng.icache.find? fun l =>
    l.core == t.core && l.handle == t.handle && l.line == localOf t.ctx.pc / 64 && isLocal s t.ctx.pc

/-- The word at a task's pc, where its core's instruction cache holds it. -/
def fetchWord (s : State) (t : Task) : Option (BitVec 32) :=
  (fetchLine s t).bind fun l => l.words[(localOf t.ctx.pc % 64) / 4]?

/-! ### Wait slots (R102, R453, R454) -/

/-- A pair of the tenant stands in the core's bag or spill list. -/
def bagHolds (s : State) (core tenant : Nat) : Bool :=
  ((Tab.get s.sched.bags core []).any fun b => b.tenant == tenant) ||
    (let p := Tab.get s.sched.spills (coreTenant core tenant) ⟨0, 0⟩
     decide (p.tail < p.head))

/-- The wait class a number names. -/
def waitClassOf (n : Nat) : WaitClass := if n = 1 then .near else if n = 2 then .die else if n = 3 then .far else .no

/-- A condition on the word at a local address holds at its home; none does while the word is poisoned (R166, R454). -/
def wordCond (s : State) (c : WaitCond) (a : Nat) (v : Word) : Bool :=
  !s.mem.poisoned (canon s a) &&
  (match c with
   | .full => homeTag s a
   | .empty => !homeTag s a
   | .diff => homeWord s a != v
   | _ => false)

/-- The condition of an armed wait slot holds now, at the unit that holds its state. A word of another package is observed
there, and its report is a flit (R454). -/
def condHolds (s : State) (t : Task) (w : WaitSlot) : Bool :=
  match w.cond with
  | none => false
  | some .full => isLocal s w.a && wordCond s .full (localOf w.a) w.b
  | some .empty => isLocal s w.a && wordCond s .empty (localOf w.a) w.b
  | some .diff => isLocal s w.a && wordCond s .diff (localOf w.a) w.b
  | some .cnt => (countersOf s t.core t.tenant).out (waitClassOf w.a.toNat) == 0
  | some .bag => bagHolds s t.core t.tenant
  | some .msg => bitOf (ctlGet s (htabOff t.tenant w.a.toNat)) 59
  | some .time => decide (w.a.toNat ≤ s.time)
  | some .ticket =>
    match ticketRec s t.core t.tenant w.a with
    | none => true
    | some c => c.state != .pending

/-- Observe one wait slot. -/
def observeSlot (s : State) (t : Task) (w : WaitSlot) : WaitSlot :=
  { w with seen := w.seen || condHolds s t w }

/-- Every armed condition is evaluated: what is observed true is on its way to its slot (R102). -/
def observe (s : State) : State :=
  mapTasks s fun t => { t with waits := t.waits.map (observeSlot s t),
                               inline := t.inline.map fun i => { i with waits := i.waits.map (observeSlot s t) } }

end Sys2Proof.Machine
end

