-- ==== Sys2Proof/Machine/Chunk.lean ====
section
/-! DEFINITION. Chunks: what a chunk holds, its lines, conflicts and age, aborts, and the writes that other parties commit
(R110 to R119, R152, R153). -/

namespace Sys2Proof.Machine

/-! ### What a chunk has read and will write -/

/-- The bytes a held effect leaves at `a` onward. -/
def overlayStore (a : Nat) (bs : List Byte) (base : Nat) (old : List Byte) : List Byte :=
  old.mapIdx fun i b => if a ≤ base + i ∧ base + i < a + bs.length then bs.getD (base + i - a) b else b

/-- `n` bytes at a canonical address as the chunk sees them: memory under the chunk's own stores (R131). -/
def chunkBytes (s : State) (a n : Nat) : List Byte :=
  s.cur.chunk.log.foldl (fun bs e =>
    match e with
    | .store b xs => overlayStore b xs a bs
    | _ => bs) (s.mem.readBytes a n)

/-- The tag of the word at a canonical address as the chunk sees it (R426). -/
def chunkTag (s : State) (a : Nat) : Bool :=
  s.cur.chunk.log.foldl (fun f e =>
    match e with
    | .tag b x => if b / 8 = a / 8 then x else f
    | _ => f) (s.mem.full a)

/-- `n` bytes of control space as the chunk sees them (R458). -/
def chunkCtl (s : State) (off n : Nat) : List Byte :=
  s.cur.chunk.log.foldl (fun bs e =>
    match e with
    | .ctl b xs => overlayStore b xs off bs
    | _ => bs) (ctlBytes s off n)

/-- Memory with the poison that the chunk's own stores leave: a word they have rewritten whole holds good bytes (R131, R165). -/
def chunkPoison (s : State) : State :=
  { s with mem := s.cur.chunk.log.foldl (fun m e =>
      match e with
      | .store a bs => m.clearPoison a bs.length
      | _ => m) s.mem }

/-- The 64-bit word at a canonical address as the chunk sees it. -/
def chunkWord (s : State) (a : Nat) : Word := BitVec.ofNat 64 (natOfBytes (chunkBytes s a 8))

/-- Hold an effect with the chunk. -/
def Task.hold' (t : Task) (e : Eff) : Task := { t with chunk := { t.chunk with log := t.chunk.log ++ [e] } }

/-- Nothing has executed in the chunk: an irrevocable operation or a trap here needs no commit. -/
def Chunk.fresh (c : Chunk) : Bool :=
  c.instrs == 0 && c.log.isEmpty && c.rlines.isEmpty && c.wlines.isEmpty && !c.due && c.mldA.isNone && c.mldB.isNone

/-! ### Lines (R112, R119) -/

/-- The core whose scratchpad holds a line, when one does. -/
def lineSpCore (l : Nat) : Option Nat :=
  let a := 64 * l
  if decide (0x2000000000 ≤ a) && decide (a < 0x2000000000 + 0x20000000) then some ((a - 0x2000000000) / 0x80000) else none

/-- The line is of the core's own scratchpad: it enters the local signatures (R112). -/
def ownLine (core l : Nat) : Bool := lineSpCore l == some core

/-- The home of a line; the management die, which belongs to no cluster, for control space. -/
def lineHome (s : State) (l : Nat) : Option Nat := homeOf s (64 * l)

/-- The narrowest scope that holds the homes of lines, for a core (R119). -/
def scopeOf (s : State) (core : Nat) (ls : List Nat) : TokenScope :=
  let hs := (ls.filter fun l => !ownLine core l).map (lineHome s)
  if hs.all fun h => (h.map clusterOf) == some (clusterOf core) then .cluster (clusterOf core)
  else if hs.all fun h => (h.map dieOf) == some (dieOf core) then .die (dieOf core)
  else .package

/-- The lines two lists share. -/
def meet (xs ys : List Nat) : Bool := xs.any fun x => ys.contains x

/-- The arbiter level of a scope: the cluster's, the die's, the package's (R119). -/
def scopeLevel : TokenScope → Nat
  | .cluster _ => 0
  | .die _ => 1
  | .package => 2

/-- Two scopes share a core. -/
def scopesMeet : TokenScope → TokenScope → Bool
  | .cluster a, .cluster b => a == b
  | .cluster a, .die d => a / 16 == d
  | .die d, .cluster a => a / 16 == d
  | .die a, .die b => a == b
  | .package, _ => true
  | _, .package => true

/-- A task holds the commit token of a scope, or of a wider one (R115). -/
def holdsToken (s : State) (k : Nat) (sc : TokenScope) : Bool :=
  s.sched.tokens.any fun e => e.2 == k && scopesMeet sc e.1 && decide (scopeLevel sc ≤ scopeLevel e.1)

/-- The token a serial chunk awaits is not held (R115). -/
def awaitsToken (s : State) (t : Task) : Bool :=
  match t.chunk.want with
  | none => false
  | some sc => !holdsToken s t.key sc

/-- The chunk is in serial mode and holds the token of its scope: what R115 promises it holds while it does so (DEDUCED, log
entry 60). -/
def runsSerial (s : State) (t : Task) : Bool := t.chunk.serial && !awaitsToken s t

/-- The token that a chunk asks for as it begins in serial mode: that of the scope it has reached before, at first its cluster's
(R115, R119; DEDUCED, log entry 60). -/
def serialWant (c : Chunk) (core : Nat) : Option TokenScope :=
  if c.serial then some (c.want.getD (.cluster (clusterOf core))) else none

/-- Tokens are released together at commit or abort (R115). -/
def releaseTokens (s : State) (k : Nat) : State :=
  { s with sched := { s.sched with tokens := s.sched.tokens.filter fun e => e.2 != k } }

/-! ### Age and conflicts (R113) -/

/-- `t` is older than `u`: by the time of its chunk's first start, then by core, then by slot (R113). -/
def older (t u : Task) : Bool :=
  decide (t.chunk.age < u.chunk.age) || (t.chunk.age == u.chunk.age &&
    (decide (t.core < u.core) || (t.core == u.core && decide (t.slot?.getD 8 < u.slot?.getD 8))))

/-- A chunk's standing in a conflict: a serial chunk that holds its scope's token stands before one that awaits a token, and that
before any other (R115; DEDUCED, log entry 60). -/
def standing (s : State) (t : Task) : Nat := if !t.chunk.serial then 0 else if awaitsToken s t then 1 else 2

/-- `t` wins a conflict with `u`: by its standing, else by age (R113, R115). -/
def wins (s : State) (t u : Task) : Bool :=
  if standing s t ≠ standing s u then decide (standing s u < standing s t) else older t u

/-- The package lines of a task's chunk: those outside its own core's scratchpad (R112). -/
def pkgLines (t : Task) (ls : List Nat) : List Nat := ls.filter fun l => !ownLine t.core l

/-- A chunk that reads `rs` and writes `ws` conflicts with another running chunk. -/
def conflicts (t u : Task) (rs ws : List Nat) : Bool :=
  t.key != u.key &&
    (meet (pkgLines t ws) (pkgLines u (u.chunk.rlines ++ u.chunk.wlines)) ||
     meet (pkgLines t rs) (pkgLines u u.chunk.wlines))

/-! ### Abort (R114) -/

/-- The registers, tags, masks and repetition state of the chunk's first instruction; values that earlier chunks issued
still arrive. -/
def Task.restored (t : Task) : Task :=
  { t with ctx := t.chunk.start, hold := none, inflight := t.inflight.filter fun f => f.old }

/-- The chunk after an abort: it keeps its age, and after three aborts re-executes in serial mode (R113, R115). -/
def Chunk.aborted (c : Chunk) (core : Nat) : Chunk :=
  let serial := c.serial || decide (3 ≤ c.aborts + 1)
  { Chunk.begin c.start c.age c.first with
    aborts := c.aborts + 1
    serial := serial
    want := serialWant { c with serial := serial } core
    limited := c.limited
    stepwise := c.stepwise }

/-- A crib list gets offsets back at its newest end, which is no use of the list (R240); offsets without a list and without
room for one are left over. -/
def cribGive (ls : List CribList) (tenant pool : Nat) (offs : List Nat) : List CribList × List Nat :=
  if ls.any fun l => l.tenant == tenant && l.pool == pool then
    (ls.map fun l => if l.tenant == tenant && l.pool == pool then { l with offs := offs ++ l.offs } else l, [])
  else (ls, offs)

/-- Return one taken node to the crib, or to the pool's shared free list where its crib list is gone (R114, R229). -/
def poolFree (m : Mem) (base off : Nat) : Mem :=
  let hd := m.read64 base
  let m := (m.write64 (base + off) 0).write64 (base + off + 8) hd
  (m.write64 base (BitVec.ofNat 64 off)).write64 (base + 8) (m.read64 (base + 8) + 1)

/-- The pool base of a tenant's pool number. -/
def poolBase (s : State) (tenant pool : Nat) : Option Nat :=
  (((hIndices s).filterMap (hEntry s)).find? fun e => e.kind == 1 && e.owner == tenant && e.pool == pool).map (·.base)

/-- Silo entry of an abort: first, second, third, serial mode (Table 18.8). -/
def abortEntry (c : Chunk) : Nat := if c.serial then 2211 else 2208 + min c.aborts 2

/-- A member whose chunk has not committed leaves the row barrier, and joins it again when it re-executes (R386, R387). -/
def leaveArray (s : State) (k : Nat) : State :=
  { s with eng := { s.eng with arrays := s.eng.arrays.map fun e =>
      (e.1, { e.2 with parts := e.2.parts.filter fun p => p.key != k || p.committed }) } }

/-- Abort the executing task's chunk: its writes, pushes and frees are discarded, its nodes return to the crib, its
registers are restored (R114). The node of a list that is gone goes to its pool's shared free list, where that is not sealed (R174;
DESIGN CHOICE, log entry 59). The answer's list holds the lines written: that of the silo's count, and pool lines of such nodes. -/
def abortCur (s : State) : State × List Nat :=
  let t := s.cur
  let s := leaveArray (releaseTokens (siloBump s (abortEntry t.chunk)) t.key) t.key
  let give := t.chunk.allocs.foldl (fun (acc : State × List Nat) a =>
    let (s, ls) := acc
    let (cs, left) := cribGive (Tab.get s.sched.cribs t.core []) t.tenant a.1 [a.2]
    let s := { s with sched := { s.sched with cribs := Tab.set s.sched.cribs t.core cs } }
    match left, poolBase s t.tenant a.1 with
    | [], _ => (s, ls)
    | _, none => (s, ls)
    | _, some b =>
      if regionSealed s b then (s, ls) else ({ s with mem := poolFree s.mem b a.2 }, b / 64 :: (b + a.2) / 64 :: ls))
    (s, [(0x2100000000 + 0x4000000 + 8 * abortEntry t.chunk) / 64])
  let (s, ls) := give
  ({ s with cur := { t.restored with chunk := t.chunk.aborted t.core } }, ls)

/-! ### Committed writes (R112, R113, R115) -/

/-- Some serial chunk, not the one of task `k`, has a line among these in its signatures: the home holds the write back
(R115). -/
def serialHolds (s : State) (k : Nat) (ls : List Nat) : Bool :=
  (allTasks s).any fun t => t.key != k && runsSerial s t && meet ls (t.chunk.rlines ++ t.chunk.wlines)

/-- A committed write of lines aborts every running chunk it meets but those in serial mode and that of task `k`. The
fuel bounds the returns of nodes whose own writes meet further chunks. -/
def publishFuel : Nat → State → Nat → List Nat → State
  | 0, s, _, _ => s
  | n + 1, s, k, ls =>
    let victims := (allTasks s).filter fun t =>
      t.key != k && !runsSerial s t && meet ls (t.chunk.rlines ++ t.chunk.wlines)
    let out := victims.foldl (fun (acc : State × List Nat) t =>
      let s' := onTask acc.1 t.key fun s => (abortCur s).1
      (s', (abortCur (focus acc.1 t.key)).2 ++ acc.2)) (s, [])
    if out.2.isEmpty then out.1 else publishFuel n out.1 k out.2

/-- A committed write of lines by another party than task `k`'s chunk (R112, R113). -/
def publish (s : State) (k : Nat) (ls : List Nat) : State := publishFuel (s.tasks.length + 1) s k ls

/-- The executing task's chunk aborts. -/
def abortChunk (s : State) : State :=
  let (s', ls) := abortCur s
  if ls.isEmpty then s' else publish s' s.cur.key ls

/-! ### Entering lines in the signatures (R110, R112, R113, R115) -/

/-- What entering lines comes to. -/
inductive Touch where
  /-- The lines are entered; running chunks that lose the conflict have aborted. -/
  | entered (s : State)
  /-- The executing chunk lost a conflict, or met a node that a loser returned, and has aborted. -/
  | aborted (s : State)
  /-- A 65th line: the chunk commits before the instruction (R110). -/
  | limit
  /-- Serial mode: the token of a wider scope is awaited (R115). -/
  | token (s : State)

/-- Enter lines read and written by the executing instruction. -/
def touch (s : State) (rs ws : List Nat) : Touch :=
  let t := s.cur
  let rs' := rs.foldl (fun l a => addNew a l) t.chunk.rlines
  let ws' := ws.foldl (fun l a => addNew a l) t.chunk.wlines
  let sc := scopeOf s t.core (rs' ++ ws')
  if 64 < (t.chunk.llines.foldl (fun l a => addNew a l) ws').length then .limit
  else if t.chunk.serial && !holdsToken s t.key sc then
    .token (modChunk s fun c => { c with want := some sc })
  else
    let foes := (allTasks s).filter fun u => conflicts t u rs ws
    if foes.any fun u => wins s u t then .aborted (abortChunk s)
    else
      let s := onTasks s (foes.map (·.key)) abortChunk
      if s.cur.chunk.aborts ≠ t.chunk.aborts then .aborted s
      else .entered (reach (modChunk s fun c => { c with rlines := rs', wlines := ws' }) (rs ++ ws))

end Sys2Proof.Machine
end

