-- ==== Sys2Proof/Machine/Fp.lean ====
section
/-! DEFINITION. Number formats and exact arithmetic (R182 to R193): a number is decoded to an exact value, the operation is
exact, and one rounding follows. A result is the bits of its format with the flags it raises. -/

namespace Sys2Proof.Machine

/-- A binary format: exponent and fraction widths (R182). -/
structure Fmt where
  eb : Nat
  mb : Nat
  deriving DecidableEq, Repr

namespace Fmt

def f64 : Fmt := ⟨11, 52⟩
def f32 : Fmt := ⟨8, 23⟩
def bf16 : Fmt := ⟨8, 7⟩

/-- Width in bits. -/
def width (f : Fmt) : Nat := 1 + f.eb + f.mb
def bias (f : Fmt) : Int := 2 ^ (f.eb - 1) - 1
/-- Exponent of the smallest normal number. -/
def emin (f : Fmt) : Int := 1 - f.bias
/-- The exponent field of infinities and NaNs. -/
def emax (f : Fmt) : Nat := 2 ^ f.eb - 1
/-- The sign bit. -/
def signBit (f : Fmt) (neg : Bool) : Nat := if neg then 2 ^ (f.eb + f.mb) else 0
def infBits (f : Fmt) (neg : Bool) : Nat := f.signBit neg + f.emax * 2 ^ f.mb
/-- The canonical quiet NaN (R185). -/
def nanBits (f : Fmt) : Nat := f.emax * 2 ^ f.mb + 2 ^ (f.mb - 1)
/-- The largest finite number. -/
def maxBits (f : Fmt) (neg : Bool) : Nat := f.signBit neg + f.emax * 2 ^ f.mb - 1

end Fmt

/-- An exact value: a finite one is (-1)^neg m 2^e; a zero has m = 0 and keeps its sign. -/
inductive Fv where
  | nan (signalling : Bool)
  | inf (neg : Bool)
  | fin (neg : Bool) (m : Nat) (e : Int)
  deriving DecidableEq, Repr

namespace Fv

def isNan : Fv → Bool
  | .nan _ => true
  | _ => false

def isSnan : Fv → Bool
  | .nan s => s
  | _ => false

def isZero : Fv → Bool
  | .fin _ m _ => m == 0
  | _ => false

def isInf : Fv → Bool
  | .inf _ => true
  | _ => false

def neg? : Fv → Bool
  | .nan _ => false
  | .inf s => s
  | .fin s _ _ => s

/-- The same value with the other sign. -/
def negate : Fv → Fv
  | .nan s => .nan s
  | .inf s => .inf (!s)
  | .fin s m e => .fin (!s) m e

end Fv

/-- The value of the bits of a format (R182). -/
def fpDecode (f : Fmt) (x : Nat) : Fv :=
  let neg := decide (2 ^ (f.eb + f.mb) ≤ x % 2 ^ f.width)
  let ex := x / 2 ^ f.mb % 2 ^ f.eb
  let fr := x % 2 ^ f.mb
  if ex = f.emax then (if fr = 0 then .inf neg else .nan (decide (fr < 2 ^ (f.mb - 1))))
  else if ex = 0 then .fin neg fr (f.emin - f.mb)
  else .fin neg (2 ^ f.mb + fr) (ex - f.bias - f.mb)

/-- Roundings of `vfcvt` by code bits [1:0] (R191). -/
inductive Rounding where
  | rne | rz | ru | rd
  deriving DecidableEq, Repr

/-- The rounding of a conversion code (R191). -/
def roundingOf (c : Nat) : Rounding :=
  if c % 4 = 0 then .rne else if c % 4 = 1 then .rz else if c % 4 = 2 then .ru else .rd

/-- Round m / 2^k to an integer; the second part says that a part was discarded. -/
def roundShift (r : Rounding) (neg : Bool) (m k : Nat) : Nat × Bool :=
  let n := m >>> k
  let rest := m % 2 ^ k
  let up := match r with
    | .rne => decide (2 ^ k < 2 * rest) || (decide (2 ^ k = 2 * rest) && decide (n % 2 = 1))
    | .rz => false
    | .ru => !neg && decide (rest ≠ 0)
    | .rd => neg && decide (rest ≠ 0)
  (if up then n + 1 else n, decide (rest ≠ 0))

/-- The exponent of the leading bit of a non-zero m 2^e. -/
def topExp (m : Nat) (e : Int) : Int := m.log2 + e

/-- Round m 2^e to a multiple of 2^q; the answer is the multiplier. -/
def roundAt (r : Rounding) (neg : Bool) (m : Nat) (e q : Int) : Nat × Bool :=
  if q ≤ e then (m <<< (e - q).toNat, false) else roundShift r neg m (q - e).toNat

/-- Tiny after rounding: rounded as if the exponent were unbounded, the magnitude lies below the smallest normal number
(R187, as IEEE 754-2019 defines it). -/
def tinyAfter (f : Fmt) (r : Rounding) (neg : Bool) (m : Nat) (e : Int) : Bool :=
  let q := topExp m e - f.mb
  let n := (roundAt r neg m e q).1
  decide (topExp n q < f.emin)

/-- Overflow gives an infinity, or the largest finite value under a rounding that does not reach it (R183, R191). -/
def overflowBits (f : Fmt) (r : Rounding) (neg : Bool) : Nat :=
  match r, neg with
  | .rz, _ => f.maxBits neg
  | .ru, true => f.maxBits neg
  | .rd, false => f.maxBits neg
  | _, _ => f.infBits neg

/-- The one rounding: (-1)^neg m 2^e in the format, with NX, UF and OF (R183, R187). -/
def fpRound (f : Fmt) (r : Rounding) (neg : Bool) (m : Nat) (e : Int) : Nat × FlagSet :=
  if m = 0 then (f.signBit neg, .none)
  else
    let q := max (topExp m e - f.mb) (f.emin - f.mb)
    let (n, inexact) := roundAt r neg m e q
    let fl := FlagSet.when inexact .nx ||| FlagSet.when (inexact && tinyAfter f r neg m e) .uf
    if n < 2 ^ f.mb then (f.signBit neg + n, fl)
    else
      let (n, q) := if n = 2 ^ (f.mb + 1) then (2 ^ f.mb, q + 1) else (n, q)
      let ex := q + f.mb + f.bias
      if (f.emax : Int) ≤ ex then (overflowBits f r neg, fl ||| .of ||| .nx)
      else (f.signBit neg + ex.toNat * 2 ^ f.mb + (n - 2 ^ f.mb), fl)

/-- fzi: a subnormal input becomes a zero of its sign (R184). -/
def flushIn (f : Fmt) (z : Bool) (x : Nat) : Nat × FlagSet :=
  let ex := x / 2 ^ f.mb % 2 ^ f.eb
  if z && decide (ex = 0) && decide (x % 2 ^ f.mb ≠ 0) then (x % 2 ^ f.width - x % 2 ^ f.mb, .fli) else (x, .none)

/-- fzo: a non-zero result whose rounded magnitude is subnormal becomes a zero of its sign (R184), with FLO beside the flags of
its rounding; a non-zero exact result that rounds to zero is zero already, and fzo replaces nothing of it (R187; DESIGN CHOICE, log
entry 59). -/
def flushOut (f : Fmt) (u : Bool) (r : Nat × FlagSet) : Nat × FlagSet :=
  let ex := r.1 / 2 ^ f.mb % 2 ^ f.eb
  if u && decide (ex = 0) && decide (r.1 % 2 ^ f.mb ≠ 0) then (r.1 - r.1 % 2 ^ f.mb, r.2 ||| .flo) else r

/-- A value in the format; NaNs are canonical (R185). -/
def fpEncode (f : Fmt) (v : Fv) : Nat × FlagSet :=
  match v with
  | .nan _ => (f.nanBits, .none)
  | .inf s => (f.infBits s, .none)
  | .fin s m e => fpRound f .rne s m e

/-- NV for a signalling NaN among the inputs (R185). -/
def snanFlag (vs : List Fv) : FlagSet := FlagSet.when (vs.any Fv.isSnan) .nv

/-! ### Exact operations -/

/-- The integer of a signed mantissa at exponent `e0`. -/
def alignTo (e0 : Int) (neg : Bool) (m : Nat) (e : Int) : Int :=
  let k : Int := (m <<< (e - e0).toNat : Nat)
  if neg then -k else k

/-- An exact sum; invalid is the absence of a value (R185, R442). -/
def fvAdd (a b : Fv) : Option Fv :=
  match a, b with
  | .nan s, _ => some (.nan s)
  | _, .nan s => some (.nan s)
  | .inf s, .inf t => if s = t then some (.inf s) else none
  | .inf s, _ => some (.inf s)
  | _, .inf s => some (.inf s)
  | .fin s m e, .fin t n g =>
    let e0 := min e g
    let k := alignTo e0 s m e + alignTo e0 t n g
    if k = 0 then some (.fin (s && t && decide (m = 0) && decide (n = 0)) 0 e0)
    else some (.fin (decide (k < 0)) k.natAbs e0)

/-- An exact product. -/
def fvMul (a b : Fv) : Option Fv :=
  match a, b with
  | .nan s, _ => some (.nan s)
  | _, .nan s => some (.nan s)
  | .inf s, .inf t => some (.inf (s != t))
  | .inf s, .fin t n _ => if n = 0 then none else some (.inf (s != t))
  | .fin s m _, .inf t => if m = 0 then none else some (.inf (s != t))
  | .fin s m e, .fin t n g => some (.fin (s != t) (m * n) (e + g))

/-- A quotient with enough bits and one sticky bit below them for a rounding of `p` bits. -/
def fvQuot (p : Nat) (s : Bool) (m : Nat) (e : Int) (n : Nat) (g : Int) : Fv :=
  let k := p + 4 + n.log2
  let q := (m <<< k) / n
  let rest := (m <<< k) % n
  .fin s (2 * q + (if rest = 0 then 0 else 1)) (e - g - k - 1)

/-- The integer square root, bit by bit from bit `i - 1` downward. -/
def isqrtFrom (n : Nat) : Nat → Nat → Nat
  | 0, r => r
  | i + 1, r => if (r + 2 ^ i) * (r + 2 ^ i) ≤ n then isqrtFrom n i (r + 2 ^ i) else isqrtFrom n i r

/-- The integer square root. -/
def isqrt (n : Nat) : Nat := isqrtFrom n (n.log2 / 2 + 1) 0

/-- A square root with enough bits and one sticky bit below them for a rounding of `p` bits. -/
def fvRoot (p : Nat) (m : Nat) (e : Int) : Fv :=
  let (m, e) := if e % 2 = 0 then (m, e) else (2 * m, e - 1)
  let k := p + 4
  let n := m <<< (2 * k)
  let r := isqrt n
  .fin false (2 * r + (if r * r = n then 0 else 1)) (e / 2 - k - 1)

/-! ### Operations of a format -/

/-- Round an exact result, which an invalid operation lacks, and flush it (R183 to R185). -/
def fpFinish (f : Fmt) (u : Bool) (fl : FlagSet) (v : Option Fv) : Nat × FlagSet :=
  match v with
  | none => (f.nanBits, fl ||| .nv)
  | some v =>
    let r := flushOut f u (fpEncode f v)
    (r.1, fl ||| r.2)

/-- Decode two flushed inputs with the flags that come from the inputs alone. -/
def fpInputs (f : Fmt) (z : Bool) (a b : Nat) : Fv × Fv × FlagSet :=
  let (a, fa) := flushIn f z a
  let (b, fb) := flushIn f z b
  let x := fpDecode f a
  let y := fpDecode f b
  (x, y, fa ||| fb ||| snanFlag [x, y])

/-- `vfadd` (R438). -/
def fpAdd (f : Fmt) (z u : Bool) (a b : Nat) : Nat × FlagSet :=
  let (x, y, fl) := fpInputs f z a b
  fpFinish f u fl (fvAdd x y)

/-- `vfsub` (R438). -/
def fpSub (f : Fmt) (z u : Bool) (a b : Nat) : Nat × FlagSet :=
  let (x, y, fl) := fpInputs f z a b
  fpFinish f u fl (fvAdd x y.negate)

/-- `vfmul` (R438). -/
def fpMul (f : Fmt) (z u : Bool) (a b : Nat) : Nat × FlagSet :=
  let (x, y, fl) := fpInputs f z a b
  fpFinish f u fl (fvMul x y)

/-- `vfma`: c + a b with one rounding; 0 times an infinity is invalid even beside a NaN addend (R442). -/
def fpFma (f : Fmt) (z u : Bool) (c a b : Nat) : Nat × FlagSet :=
  let (x, y, fl) := fpInputs f z a b
  let (c, fc) := flushIn f z c
  let w := fpDecode f c
  let fl := fl ||| fc ||| snanFlag [w]
  match fvMul x y with
  | none => (f.nanBits, fl ||| .nv)
  | some p => fpFinish f u fl (fvAdd p w)

/-- `vfdiv` (R185, R441). -/
def fpDiv (f : Fmt) (z u : Bool) (a b : Nat) : Nat × FlagSet :=
  let (x, y, fl) := fpInputs f z a b
  match x, y with
  | .nan _, _ => (f.nanBits, fl)
  | _, .nan _ => (f.nanBits, fl)
  | .inf _, .inf _ => (f.nanBits, fl ||| .nv)
  | .inf s, .fin t _ _ => (f.infBits (s != t), fl)
  | .fin s _ _, .inf t => (f.signBit (s != t), fl)
  | .fin s m e, .fin t n g =>
    if n = 0 then
      if m = 0 then (f.nanBits, fl ||| .nv) else (f.infBits (s != t), fl ||| .dz)
    else if m = 0 then (f.signBit (s != t), fl)
    else fpFinish f u fl (some (fvQuot f.mb (s != t) m e n g))

/-- `vfsqrt` (R185, R441). -/
def fpSqrt (f : Fmt) (z u : Bool) (a : Nat) : Nat × FlagSet :=
  let (a, fa) := flushIn f z a
  let x := fpDecode f a
  let fl := fa ||| snanFlag [x]
  match x with
  | .nan _ => (f.nanBits, fl)
  | .inf s => if s then (f.nanBits, fl ||| .nv) else (f.infBits false, fl)
  | .fin s m e =>
    if m = 0 then (f.signBit s, fl)
    else if s then (f.nanBits, fl ||| .nv)
    else fpFinish f u fl (some (fvRoot f.mb m e))

/-- The order of two values that are no NaN, with -0 equal to +0. -/
def fvLt (a b : Fv) : Bool :=
  match a, b with
  | .nan _, _ => false
  | _, .nan _ => false
  | .inf s, .inf t => s && !t
  | .inf s, _ => s
  | _, .inf t => !t
  | .fin s m e, .fin t n g =>
    let e0 := min e g
    decide (alignTo e0 s m e < alignTo e0 t n g)

/-- minimumNumber order: -0 lies below +0 (R186). -/
def fvBelow (a b : Fv) : Bool := fvLt a b || (!fvLt b a && a.neg? && !b.neg?)

/-- `vfmin` (`lo` = true) and `vfmax`: of the flags they raise only NV, for a signalling NaN (R186, R438). -/
def fpMinMax (f : Fmt) (lo z u : Bool) (a b : Nat) : Nat × FlagSet :=
  let (x, y, _) := fpInputs f z a b
  let pick :=
    if x.isNan then y
    else if y.isNan then x
    else if fvBelow x y = lo then x else y
  ((flushOut f u (fpEncode f pick)).1, snanFlag [x, y])

/-- `vfcmp` (R186, R439): 0 for a NaN but in `un`; NV only for a signalling NaN. -/
def fpCmp (f : Fmt) (c : FCmpOp) (z : Bool) (a b : Nat) : Bool × FlagSet :=
  let (x, y, fl) := fpInputs f z a b
  let nan := x.isNan || y.isNan
  (match c with
   | .un => nan
   | .eq => !nan && !fvLt x y && !fvLt y x
   | .lt => !nan && fvLt x y
   | .le => !nan && !fvLt y x, fl)

/-! ### Conversions (R191, R192) -/

/-- From one binary format to another under a rounding; NaNs become canonical, subnormals convert as themselves. -/
def fpConvert (src dst : Fmt) (r : Rounding) (x : Nat) : Nat × FlagSet :=
  let v := fpDecode src x
  match v with
  | .nan s => (dst.nanBits, FlagSet.when s .nv)
  | .inf s => (dst.infBits s, .none)
  | .fin s m e => fpRound dst r s m e

/-- FP32 to INT32 (R191 codes 8 to 11). -/
def fpToInt (r : Rounding) (x : Nat) : Nat × FlagSet :=
  match fpDecode .f32 x with
  | .nan _ => (0, .nv)
  | .inf s => (if s then 2 ^ 31 else 2 ^ 31 - 1, .nv ||| .sat)
  | .fin s m e =>
    let (n, inexact) := roundAt r s m e 0
    let k : Int := if s then -(n : Int) else n
    if k < -(2 ^ 31) then (2 ^ 31, .nv ||| .sat)
    else if (2 ^ 31 : Int) ≤ k then (2 ^ 31 - 1, .nv ||| .sat)
    else (wrapTo 32 k, FlagSet.when inexact .nx)

/-- INT32 to a binary format (R191 codes 12 to 15 and 30). -/
def fpOfInt (dst : Fmt) (r : Rounding) (x : Nat) : Nat × FlagSet :=
  let k := signedOf 32 x
  fpRound dst r (decide (k < 0)) k.natAbs 0

/-! ### Block element formats (R188, R189) -/

/-- The element formats of blocks. -/
inductive ElemFmt where
  | e4m3 | e5m2 | e2m1
  deriving DecidableEq, Repr

namespace ElemFmt

/-- The layout, which is that of a small binary format but for its specials. -/
def fmt : ElemFmt → Fmt
  | .e4m3 => ⟨4, 3⟩
  | .e5m2 => ⟨5, 2⟩
  | .e2m1 => ⟨2, 1⟩

/-- emax of R192: the exponent of the largest finite value. -/
def emaxOf : ElemFmt → Int
  | .e4m3 => 8
  | .e5m2 => 15
  | .e2m1 => 2

/-- The largest finite code. -/
def maxCode : ElemFmt → Nat
  | .e4m3 => 0x7E
  | .e5m2 => 0x7B
  | .e2m1 => 0x7

end ElemFmt

/-- The value of an element code (Table 07.2). -/
def elemDecode (k : ElemFmt) (x : Nat) : Fv :=
  let f := k.fmt
  let neg := decide (2 ^ (f.eb + f.mb) ≤ x % 2 ^ f.width)
  let ex := x / 2 ^ f.mb % 2 ^ f.eb
  let fr := x % 2 ^ f.mb
  let special := match k with
    | .e4m3 => if ex = 15 ∧ fr = 7 then some (.nan false) else none
    | .e5m2 => if ex = 31 then some (if fr = 0 then .inf neg else .nan false) else none
    | .e2m1 => none
  match special with
  | some v => v
  | none => if ex = 0 then .fin neg fr (f.emin - f.mb) else .fin neg (2 ^ f.mb + fr) (ex - f.bias - f.mb)

/-- An element times its scale, as BF16 (R129): a scale of 0xFF gives the NaN. -/
def elemToBf16 (k : ElemFmt) (x scale : Nat) : Nat :=
  if scale = 255 then Fmt.bf16.nanBits
  else
    match elemDecode k x with
    | .nan _ => Fmt.bf16.nanBits
    | .inf s => Fmt.bf16.infBits s
    | .fin s m e => (fpRound .bf16 .rne s m (e + scale - 127)).1

/-- Round a scaled magnitude to the element grid (R192 step 3): a magnitude beyond the largest finite value,
judged before rounding, saturates and raises SAT and NX (DESIGN CHOICE, log entry 59). -/
def elemRound (k : ElemFmt) (r : Rounding) (neg : Bool) (m : Nat) (e : Int) : Nat × FlagSet :=
  let f := k.fmt
  let sign := f.signBit neg
  if m = 0 then (sign, .none)
  else if fvLt (elemDecode k k.maxCode) (.fin false m e) then (sign + k.maxCode, .sat ||| .nx)
  else
    let q := max (topExp m e - f.mb) (f.emin - f.mb)
    let (n, inexact) := roundAt r neg m e q
    let small := decide (n < 2 ^ f.mb)
    let fl := FlagSet.when inexact .nx ||| FlagSet.when (inexact && small) .uf
    if small then (sign + n, fl)
    else
      let (n, q) := if n = 2 ^ (f.mb + 1) then (2 ^ f.mb, q + 1) else (n, q)
      (sign + (q + f.mb + f.bias).toNat * 2 ^ f.mb + (n - 2 ^ f.mb), fl)

/-- The scale X of a block of finite values (R192 step 2): none when every value is zero. -/
def blockScale (k : ElemFmt) (vs : List Fv) : Option Int :=
  let tops := vs.filterMap fun v => match v with
    | .fin _ m e => if m = 0 then none else some (topExp m e)
    | _ => none
  match tops with
  | [] => none
  | t :: ts => some (max (-127) (min 127 (ts.foldl max t - k.emaxOf)))

/-- A block conversion of 32 FP32 values (R192): the element codes, the scale byte and the flags. -/
def blockConvert (k : ElemFmt) (r : Rounding) (xs : List Nat) : List Nat × Nat × FlagSet :=
  let vs := xs.map (fpDecode .f32)
  let bad := vs.any fun v => v.isNan || (v.isInf && k != .e5m2)
  if bad then (xs.map fun _ => 0, 255, .nv)
  else
    let sc := blockScale k vs
    let x := sc.getD (-127)
    let rs := vs.map fun v => match v with
      | .fin s m e => elemRound k r s m (e - x)
      | .inf s => (k.fmt.infBits s, FlagSet.none)
      | .nan _ => (0, FlagSet.none)
    (rs.map (·.1), (match sc with
      | none => 0
      | some x => (x + 127).toNat), FlagSet.union (rs.map (·.2)))

/-! ### Bit-plane blocks (R130, R190) -/

/-- Element `e` of a 512-byte block read at `p` planes, as an INT8 code: bit k is bit (e mod 8) of byte
(7 - k) 64 + e div 8. -/
def planeElem (p : Nat) (blk : List Byte) (e : Nat) : Nat :=
  (List.range p).foldl (fun v i =>
    let k := 7 - i
    if (blk.getD ((7 - k) * 64 + e / 8) 0).getLsbD (e % 8) then v + 2 ^ k else v) 0

end Sys2Proof.Machine
end

