-- ==== Sys2Proof/Machine/Window.lean ====
section
/-! DEFINITION. The decoding windows of a scratchpad (R127 to R130): what a read through W1 to W7 delivers, what a write
through W1 writes, and which bytes and lines an access consumes. -/

namespace Sys2Proof.Machine

/-- Widen BF16 bytes to FP32 bytes (Table 05.3, W1). -/
def widenBytes : List Byte → List Byte
  | a :: b :: bs => 0 :: 0 :: a :: b :: widenBytes bs
  | _ => []

/-- Round FP32 bytes to BF16 bytes, RNE (Table 05.3, W1). -/
def narrowBytes : List Byte → List Byte
  | a :: b :: c :: d :: bs => bytesOfNat 2 (fpConvert .f32 .bf16 .rne (natOfBytes [a, b, c, d])).1 ++ narrowBytes bs
  | _ => []

/-- The element format of W2 to W4. -/
def windowElem (w : Nat) : ElemFmt := if w = 2 then .e4m3 else if w = 3 then .e5m2 else .e2m1

/-- Planes read through W5 to W7 (Table 05.3). -/
def windowPlanes (w : Nat) : Nat := if w = 5 then 2 else if w = 6 then 4 else 8

/-- `n` result bytes read through window `w` of a core's scratchpad at offset `o`; `rd` reads raw bytes by canonical
address (Table 05.3, R129, R130). Through W5 to W7 a block of the scale area is decoded like one of the elements (DESIGN
CHOICE, log entry 59). -/
def windowRead (rd : Nat → Nat → List Byte) (w core o n : Nat) : List Byte :=
  if w = 0 then rd (spAddr core o) n
  else if w = 1 then widenBytes (rd (spAddr core o) (n / 2))
  else if w ≤ 4 then
    let m := windowBytes w n
    let raw := rd (spAddr core o) m
    let s0 := scaleOff w o
    let scales := rd (spAddr core s0) (scaleOff w (o + m - 1) - s0 + 1)
    (raw.mapIdx fun i b =>
      let sc := (scales.getD (scaleOff w (o + i) - s0) 0).toNat
      if w = 4 then
        bytesOfNat 2 (elemToBf16 .e2m1 (b.toNat % 16) sc) ++ bytesOfNat 2 (elemToBf16 .e2m1 (b.toNat / 16) sc)
      else bytesOfNat 2 (elemToBf16 (windowElem w) b.toNat sc)).flatten
  else
    let blk := rd (spAddr core (512 * (o / 512))) 512
    (List.range n).map fun i => BitVec.ofNat 8 (planeElem (windowPlanes w) blk (o % 512 + i))

/-- The canonical ranges of bytes an access of `n` result bytes consumes or writes (R128). -/
def placeRanges (p : Place) (a n : Nat) : List (Nat × Nat) :=
  match p with
  | .window w c o =>
    if w = 0 then [(spAddr c o, n)]
    else if w = 1 then [(spAddr c o, n / 2)]
    else if w ≤ 4 then
      let m := windowBytes w n
      [(spAddr c o, m), (spAddr c (scaleOff w o), scaleOff w (o + m - 1) - scaleOff w o + 1)]
    else [(spAddr c (512 * (o / 512)), 512)]
  | _ => [(a, n)]

/-- The lines of an access. -/
def accessLines (s : State) (a n : Nat) : List Nat :=
  (placeRanges (placeOf s a) a n).flatMap fun r => linesOf r.1 r.2

/-- The sync modes act on the word: memory, or a scratchpad through W0; elsewhere they act as pl (R128, R458). -/
def syncPlace (p : Place) : Bool :=
  match p with
  | .dram => true
  | .window w _ _ => w == 0
  | _ => false

/-- Some word the access consumes is poisoned (R166). -/
def accessPoison (s : State) (a n : Nat) : Bool :=
  match placeOf s a with
  | .control _ => false
  | p => (placeRanges p a n).any fun r => s.mem.anyPoison r.1 r.2

/-- The bytes of a store would leave part of a poisoned word (R165). -/
def poisonBlocks (m : Mem) (a n : Nat) : Bool :=
  (wordsAt a n).any fun x => m.poison.contains x && !(decide (a ≤ x) && decide (x + 8 ≤ a + n))

/-- `n` result bytes at a local address, through the window or from control space where it lies there; `rd` reads memory
and `rdCtl` control space. -/
def placeRead (s : State) (rd rdCtl : Nat → Nat → List Byte) (a n : Nat) : List Byte :=
  match placeOf s a with
  | .window w c o => windowRead rd w c o n
  | .control off => rdCtl off n
  | _ => rd a n

/-- The bytes and the canonical address that a store of result bytes writes; through W1 it narrows (R128). -/
def placeWrite (s : State) (a : Nat) (bs : List Byte) : Nat × List Byte :=
  match placeOf s a with
  | .window w c o => (spAddr c o, if w = 1 then narrowBytes bs else bs)
  | _ => (a, bs)

/-- HMAP[n] has BUSY = 1, valid or not, and its words name an address (R135). -/
def busyAt (s : State) (n a : Nat) : Bool :=
  let w := ctlGet s (hmapOff n false)
  let b := fieldNat w 23 0 * 0x10000
  bitOf w 43 && decide (b ≤ a) && decide (a < b + 2 ^ fieldNat w 49 45)

/-- The region at an address is being rewritten: the access waits at its lookup (R135). -/
def regionBusy (s : State) (a : Nat) : Bool :=
  match placeOf s a with
  | .dram => (hIndices s).any fun n => busyAt s n a
  | _ => false

/-- An access that passes steps 1 to 3 of Table 05.2 meets BUSY = 1 at its lookup, and waits there (R126, R135). -/
def waitsBusy (s : State) (a : Word) (acc : Access) : Bool :=
  decide (fieldNat a 63 56 = 0) && alignedFor (localOf a) acc && isLocal s a && regionBusy s (localOf a)

/-- The first of several addresses, in order, whose access waits at a BUSY entry or is refused with a cause (R135, R209). -/
def firstStop (s : State) (acc : Access) (cause : Word → Option Nat) (as : List Word) : Option (Option Nat × Word) :=
  as.findSome? fun a => if waitsBusy s a acc then some (none, a) else (cause a).map fun c => (some c, a)

/-- `n` bytes from a local address lie in one tier of DRAM, none of them in a retired bank or beyond what the map holds
(Table 05.1). -/
def dramRange (s : State) (l n : Nat) : Bool :=
  (decide (l + n ≤ 0x2000000000) && (List.range ((l + n - 1) / 2 ^ 31 + 1 - l / 2 ^ 31)).all fun i =>
    !bankRetired s (2 ^ 31 * (l / 2 ^ 31 + i))) ||
  (decide (0x8000000000 ≤ l) && decide (l + n ≤ 0xFE00000000) && decide (l + n ≤ 0x8000000000 + s.conf.modcap))

/-- `n` bytes from a local address are a range that R145 lets an engine of a tenant reach: in one region that the tenant owns,
or in one scratchpad through W0 within the tenant's window. No class of image is exempt (R210, R285). -/
def copyOwned (s : State) (t l n : Nat) : Bool :=
  match placeOf s l with
  | .dram =>
    match regionAt s l with
    | none => false
    | some e => e.owner == t && decide (l + n ≤ e.base + e.size) && dramRange s l n
  | .window w _ o => w == 0 && spOwns s t o n
  | _ => false

end Sys2Proof.Machine
end

