-- ==== Sys2Proof/Machine/Save.lean ====
section
/-! DEFINITION. Stopping a tenant's units and the save area (R214 to R217, Tables 08.4 and 08.5), writes made by the device
outside any chunk, and a tenant interface's entry into ERROR (R279). -/

namespace Sys2Proof.Machine

/-! ### Writes outside any chunk -/

/-- A home has performed an access outside a chunk: it stands after every commit of its cycle (R152). -/
def jobDone (s : State) : State := { s with sched := { s.sched with order := { s.sched.order with job := some s.time } } }

/-- Some word of lines stands in a sealed region. -/
def linesSealed (s : State) (ls : List Nat) : Bool := ls.any fun l => regionSealed s (64 * l)

/-- Bytes written by a home, an engine or the device at a canonical address: a committed write that clears the poison it
covers and aborts the chunks it meets (R112, R113, R165). Tags are set by `tag`, or kept. In a sealed region nothing changes
(R174). -/
def devWrite (s : State) (a : Nat) (bs : List Byte) (tag : Option Bool) : State :=
  if linesSealed s (linesOf a bs.length) then s
  else
    let s := jobDone (reach s (linesOf a bs.length))
    let m := (s.mem.writeBytes a bs).clearPoison a bs.length
    let m := match tag with
      | some f => m.setTags a bs.length f
      | none => m
    observe (publish { s with mem := m } 0 (linesOf a bs.length))

/-- A word written full by a home (mode sf). -/
def devWord (s : State) (a : Nat) (w : Word) : State := devWrite s a (bytesOfNat 8 w.toNat) (some true)

/-- A control-space word changed by the device (R458). -/
def devCtl (s : State) (off : Nat) (w : Word) : State :=
  observe (publish (ctlSet s off w) 0 [(0x2100000000 + off) / 64])

/-- A word of control space that the device computes has changed: running chunks that read it abort, and waits on it are
examined (R458). -/
def ctlChanged (s : State) (off : Nat) : State := observe (publish s 0 [(0x2100000000 + off) / 64])

/-- Count one event in a silo entry, whose word of control space changes (R329, R458). -/
def siloAdd (s : State) (i : Nat) : State := ctlChanged (siloBump s i) (0x4000000 + 8 * i)

/-! ### Fault records (R208) -/

/-- Send a task's fault record and count it in the silo (R208, R329). -/
def faultRecord (s : State) (t : TaskName) (i : FaultInfo) : State :=
  let body := faultBody s t i
  let s := hostRecord s 3 t.tenant ((t.launch.map (·.2)).getD 0) body
  let s := match t.launch with
    | some (ti, n) => if i.fatal then mapLaunch s ti n fun x => { x with fatals := x.fatals + 1 } else s
    | none => s
  let s := if i.cause = 4 then { s with mgmt := { s.mgmt with audits := s.mgmt.audits ++ [body] } } else s
  siloAdd s (2211 + i.cause)

/-- A fault record that names no task: causes 0x0D and 0x0E, and those of a bag entry that no task pushed (R92, R94, R107). -/
def bareFault (s : State) (tenant launch cause : Nat) (detail : Word) : State :=
  let s := hostRecord s 3 tenant launch
    [BitVec.ofNat 64 cause, 0, 0, 0, BitVec.ofNat 64 s.time, detail, Config.wrel, 0]
  siloAdd s (2211 + cause)

/-! ### What a chunk in serial mode holds back (R115) -/

/-- The bytes and tags of a line, in memory or control space. -/
def lineState (s : State) (l : Nat) : List Byte × List Bool :=
  match placeOf s (64 * l) with
  | .control off => (ctlBytes s off 64, [])
  | _ => (s.mem.readBytes (64 * l) 64, (wordsAt (64 * l) 64).map s.mem.full)

/-- No chunk in serial mode, that of task `k` aside, has in its signatures a line that changes between two states (R115). -/
def serialKept (k : Nat) (s s' : State) : Bool :=
  (allTasks s').all fun t =>
    t.key == k || !runsSerial s' t || (t.chunk.rlines ++ t.chunk.wlines).all fun l => lineState s l == lineState s' l

/-- The same for what an answer of a step changes: otherwise nothing happens, and the step comes again later (R115, R153;
DEDUCED, log entry 60). -/
def kept (s : State) (o : Out) : Out :=
  match o with
  | .next s' => if serialKept 0 s s' then .next s' else .next s
  | .fault f => .fault f
  | .refused r => .refused r

/-! ### Elision audits (R211, R212) -/

/-- Add an image to a list that does not name it. -/
def addImage (x : Nat × BitVec 16) (l : List (Nat × BitVec 16)) : List (Nat × BitVec 16) :=
  if l.contains x then l else x :: l

/-- Quarantine of an image after an elision audit (R211): its rule and handler entries are disabled, and the audit is
counted (R212). -/
def quarantine (s : State) (tenant : Nat) (h : BitVec 16) : State :=
  let names := fun (w : Word) => bitOf w 63 && decide (fieldNat w 55 40 = h.toNat)
  let s1 := s.ctl.foldl (fun s' e =>
    if decide (0x2000000 + tenant * 0x10000 ≤ e.1) && decide (e.1 < 0x2000000 + (tenant + 1) * 0x10000) &&
        decide (e.1 % 16 = 0) && names e.2 then devCtl s' e.1 (e.2 &&& ~~~(1#64 <<< 62))
    else if decide (0x2800000 + tenant * 0x800 ≤ e.1) && decide (e.1 < 0x2800000 + (tenant + 1) * 0x800) &&
        names e.2 then devCtl s' e.1 (e.2 &&& ~~~(1#64 <<< 60))
    else s') s
  siloAdd { s1 with sched := { s1.sched with quarantine := addImage (tenant, h) s1.sched.quarantine } } 2234

/-- A task's fault record, and the quarantine of its image where the cause is an elision audit of a tenant's image,
however the record comes about (R208, R211, R212). -/
def reportFault (s : State) (t : TaskName) (i : FaultInfo) : State :=
  let s := faultRecord s t i
  if i.cause = 0x04 && !t.trusted then quarantine s t.tenant t.handle else s

/-! ### The save area (R216) -/

/-- The record of task number `k` of a tenant on a core, when the tenant has a save area. -/
def saveRec (s : State) (tenant core k : Nat) : Option Nat :=
  let b := localOf (tenantWord s tenant 3)
  if b = 0 then none else some (b + core * 0x88000 + k * 4096)

/-- STATE of a task record (Table 08.5). -/
def saveStateWord (t : Task) (code : Nat) : Word :=
  BitVec.ofNat 64 (code + 2 ^ 8 * t.prio + 2 ^ 16 * (t.startTime % 2 ^ 48))

/-- Write STATE of a task's record: 0 free, 1 in the run queue, 2 in the resume list, 3 resident. -/
def saveState (s : State) (t : Task) (code : Nat) : State :=
  match saveRec s t.tenant t.core t.number with
  | none => s
  | some b => devWord s (b + 0xA20) (if code = 0 then 0 else saveStateWord t code)

/-- One wait slot in a record: its operand, and its condition with the latches (DESIGN CHOICE, log entry 9). -/
def waitWords (w : WaitSlot) : List Word :=
  let c := match w.cond with
    | none => 0
    | some .full => 1
    | some .empty => 2
    | some .cnt => 3
    | some .bag => 4
    | some .msg => 5
    | some .time => 6
    | some .ticket => 7
    | some .diff => 8
  [w.a, BitVec.ofNat 64 (c + (if w.sat then 2 ^ 8 else 0))]

/-- REP of a record: pass and position of a repetition, bit 63 set while one is active, and the row that a continued `mst` has
reached (R74, R392, Table 08.5; DESIGN CHOICE, log entry 9). -/
def repWord (c : Ctx) : Word :=
  BitVec.ofNat 64 ((match c.rep with
    | none => 0
    | some r => 2 ^ 63 + r.pass + 2 ^ 8 * r.pos) + 2 ^ 16 * c.mstRow)

/-- The words G to RVALID of a record (Table 08.5). -/
def saveWords (c : Ctx) (ws : List WaitSlot) (h : Option Hold) : List Word :=
  c.g.toList ++
  (c.v.toList.flatMap fun (x : VWord) => (List.range 8).map fun i => (x >>> (64 * i)).truncate 64) ++
  [c.vFull ++ c.gFull] ++ (c.m.toList.drop 1) ++
  [c.pc, repWord c,
   c.flags.zeroExtend 64, c.trapCause, c.trapPc, c.trapIdx, c.tlink, if c.trapMode then 1 else 0] ++
  (ws.flatMap waitWords) ++
  ((List.range 8).map fun i => c.sendq.getD i 0) ++ [BitVec.ofNat 64 c.sendq.length] ++
  (match h with
    | some (.answer none v pair) => [v.truncate 64, if pair then (v >>> 64).truncate 64 else 0, if pair then 3 else 1]
    | _ => [0, 0, 0])

/-- Write a task's record: its registers, STATE, ACCREC and INLINE (Table 08.5). -/
def saveTask (s : State) (t : Task) (code : Nat) (acc : Option Nat) : State :=
  match saveRec s t.tenant t.core t.number with
  | none => s
  | some b =>
    let tail := [saveStateWord t code, (match acc with
      | none => 0
      | some a => BitVec.ofNat 64 (8 + a)), (match t.inline with
      | none => 0
      | some i => BitVec.ofNat 64 (128 + i.number))]
    match t.inline with
    | none => devWrite s b (bytesOfWords (saveWords t.ctx t.waits.toList t.hold ++ tail)) (some true)
    | some i =>
      let s := devWrite s b (bytesOfWords (saveWords i.ctx i.waits.toList none ++ tail)) (some true)
      match saveRec s t.tenant t.core i.number with
      | none => s
      | some d => devWrite s d (bytesOfWords (saveWords t.ctx t.waits.toList t.hold ++ [saveStateWord t code, 0, 0]))
          (some true)

/-- Registers as a record gives them at resume: G, V, tags, masks, pc, flags, trap state and send queue. -/
def loadCtx (s : State) (b : Nat) (c : Ctx) : Ctx :=
  let w := fun (o : Nat) => s.mem.read64 (b + o)
  let n := min 8 (w 0xA00).toNat
  { c with
    g := c.g.mapIdx fun i _ => w (8 * i)
    v := c.v.mapIdx fun i _ => BitVec.ofNat 512 (natOfBytes (s.mem.readBytes (b + 0x100 + 64 * i) 64))
    gFull := (w 0x900).truncate 32
    vFull := ((w 0x900) >>> 32).truncate 32
    m := c.m.mapIdx fun i x => if i = 0 then x else w (0x900 + 8 * i)
    pc := w 0x940
    flags := (w 0x950).truncate 8
    trapCause := w 0x958
    trapPc := w 0x960
    trapIdx := w 0x968
    tlink := w 0x970
    trapMode := bitOf (w 0x978) 0
    sendq := (List.range n).map fun i => w (0x9C0 + 8 * i) }

/-- Accumulator records of a tenant held on a core (R216). -/
def accHeld (s : State) (tenant core : Nat) : List Nat :=
  ((allTasks s).filter fun t => t.tenant == tenant && t.core == core && t.status == .gangHalted).filterMap fun t =>
    (saveRec s tenant core t.number).bind fun b =>
      let w := s.mem.read64 (b + 0xA28)
      if bitOf w 3 then some (fieldNat w 2 0) else none

/-- The bytes of ac0 to ac3 as an accumulator record holds them: 32 KiB (R216). -/
def accBytes (c : Ctx) : List Byte := c.ac.toList.flatMap fun t => t.toList.flatMap fun x => bytesOfNat 4 x.toNat

/-- The accumulators a record holds. -/
def loadAcc (s : State) (b : Nat) (c : Ctx) : Ctx :=
  { c with ac := c.ac.mapIdx fun i t => t.mapIdx fun j _ =>
      BitVec.ofNat 32 (natOfBytes (s.mem.readBytes (b + 0x2000 * i + 4 * j) 4)) }

/-! ### Halting (R214, R215) -/

/-- Withdraw a held access that its home has not performed; an answered one keeps its answer, a remote request stays
outstanding (Table 08.4, R215). -/
def withdraw (s : State) : State :=
  match s.cur.hold with
  | some (.home id) =>
    let d := match s.eng.waiters.find? fun w => w.id == id with
      | some ⟨_, _, _, _, _, .task _ d _ _, _⟩ => d
      | _ => .drop
    { modCur s (fun t => { t with hold := none, lanes := [], ctx := tagDest t.ctx d true }) with
      eng := { s.eng with waiters := s.eng.waiters.filter fun w => w.id != id } }
  | some (.slp _) => modCur s Task.unread
  | some .room => modCur s Task.unread
  | some .writeback => modCur s fun t => { t with hold := none }
  | _ => s

/-- Values in flight reach their registers before these are saved. -/
def drainInflight (s : State) : State :=
  modCur s fun t =>
    { t with ctx := t.inflight.foldl (fun c f => tagDest (writeDest c f.dest f.val) f.dest true) t.ctx, inflight := [] }

/-- A chunk in which nothing has executed leaves its slot: it gives back what commit tokens it holds and asks for that of its
scope again (R115). -/
def leaveToken (s : State) : State :=
  modChunk (releaseTokens s s.cur.key) fun c => { c with want := serialWant c s.cur.core }

/-- The deficit counter of a tenant goes with its last resident slot on the core (R101). -/
def dropDeficit (s : State) (core tenant : Nat) : State :=
  if (residents s core).any fun t => t.tenant == tenant then s
  else { s with sched := { s.sched with deficit := Tab.erase s.sched.deficit (coreTenant core tenant) } }

/-- Halt the executing task, resident in a slot: its uncommitted chunk aborts to its first instruction, its registers go
to the save area, and it waits in the resume list, or with its gang (R89, R97, R214, R216). -/
def haltCur (s : State) : State :=
  let s := leaveArray s s.cur.key
  let s := drainInflight (withdraw (if s.cur.chunk.fresh then leaveToken s else abortChunk s))
  let t := s.cur
  let acc := if t.gang.isSome && t.usedAc then
      (List.range 8).find? fun a => !(accHeld s t.tenant t.core).contains a
    else none
  let s := saveTask s t 2 acc
  let s := match acc, saveRec s t.tenant t.core 0 with
    | some a, some b => devWrite s (b + 0x48000 + a * 0x8000) (accBytes t.ctx) (some true)
    | _, _ => s
  dropDeficit (modCur s fun t => { t with status := if t.gang.isSome then .gangHalted else .resume }) t.core t.tenant

/-- Lines of a task's record in the save area. -/
def saveLines (s : State) (t : Task) : List Nat :=
  match saveRec s t.tenant t.core t.number with
  | none => []
  | some b => linesOf b 4096

/-- Halt every resident task of a tenant that a request or the interface's state covers. Their chunks abort first; a record
that a chunk in serial mode still has in its signatures is written later, and its task issues nothing until then (R115). -/
def haltTenant (s : State) (tenant : Nat) : State :=
  let mine := fun (s : State) => (allTasks s).filter fun t => t.tenant == tenant && t.slot?.isSome && halts s t
  let s := onTasks s ((mine s).map (·.key)) fun s => if s.cur.chunk.fresh then leaveToken s else abortChunk s
  onTasks s (((mine s).filter fun t => !serialHolds s t.key (saveLines s t)).map (·.key)) haltCur

/-! ### ERROR (R279) -/

/-- Set the STATE field of a tenant interface. -/
def setTiState (s : State) (t v : Nat) : State :=
  devCtl s (tenantOff t 0) ((tenantWord s t 0 &&& ~~~7#64) ||| BitVec.ofNat 64 v)

/-- TI_ERROR: a TI in CONFIG_LOCKED or RUN enters ERROR; its tenant is pre-empted and not resumed (R279). -/
def tiError (s : State) (t : Nat) : State :=
  if tiState s t = 1 ∨ tiState s t = 2 then haltTenant (setTiState s t 3) t else s

end Sys2Proof.Machine
end

