-- ==== Sys2Proof/Machine/Crib.lean ====
section
/-! DEFINITION. The crib, a core's store of free node offsets (R239, R240). -/

namespace Sys2Proof.Machine

def cribsOf (s : State) (core : Nat) : List CribList := Tab.get s.sched.cribs core []
def setCribs (s : State) (core : Nat) (c : List CribList) : State :=
  { s with sched := { s.sched with cribs := Tab.set s.sched.cribs core c } }

/-- The list of a (tenant, pool). -/
def cribList (s : State) (core tenant pool : Nat) : Option CribList :=
  (cribsOf s core).find? fun l => l.tenant == tenant && l.pool == pool

/-- Return up to 64 offsets to a pool's shared free list, one home-handler job (R229, R240), linked newest first, so that the oldest
ends at the head; a sealed pool takes none back, and they stay out of use (R174; DESIGN CHOICE, log entry 59). -/
def poolJob (s : State) (base : Nat) (offs : List Nat) : State :=
  if regionSealed s base then s
  else
  let m := offs.foldl (fun m o => poolFree m base o) s.mem
  let ls := base / 64 :: offs.map fun o => (base + o) / 64
  jobDone (observe (publish (reach { s with mem := m } ls) 0 ls))

/-- Return a list's offsets, 64 to a job, to the pool of a number; those of a pool that is gone go with it. -/
def poolReturn (s : State) (tenant pool : Nat) (offs : List Nat) : State :=
  match poolBase s tenant pool with
  | none => s
  | some base => (List.range ((offs.length + 63) / 64)).foldl (fun s i => poolJob s base ((offs.drop (64 * i)).take 64)) s

/-- The least recently used list of a core's crib; of lists last used in the same cycle, the one listed first (R240; DESIGN CHOICE,
log entry 59). -/
def lruList (ls : List CribList) : Option CribList :=
  match ls with
  | [] => none
  | x :: xs => some (xs.foldl (fun b y => if y.last < b.last then y else b) x)

/-- Drop a list from the crib. -/
def dropList (ls : List CribList) (l : CribList) : List CribList :=
  ls.filter fun x => !(x.tenant == l.tenant && x.pool == l.pool)

/-- Make room for the list of a (tenant, pool): with all eight in use, the least recently used goes back to its pool. -/
def cribRoom (s : State) (core tenant pool : Nat) : State :=
  if (cribList s core tenant pool).isSome then s
  else
    let s := if 8 ≤ (cribsOf s core).length then
        match lruList (cribsOf s core) with
        | none => s
        | some l => poolReturn (setCribs s core (dropList (cribsOf s core) l)) l.tenant l.pool l.offs
      else s
    setCribs s core (cribsOf s core ++ [⟨tenant, pool, [], s.time⟩])

/-- Change one list. -/
def cribMap (s : State) (core tenant pool : Nat) (f : CribList → CribList) : State :=
  setCribs s core ((cribsOf s core).map fun l => if l.tenant == tenant && l.pool == pool then f l else l)

/-- Offsets on a core's crib. -/
def cribCount (s : State) (core : Nat) : Nat := ((cribsOf s core).map fun l => l.offs.length).sum

/-- While the crib holds more than 256 offsets, up to 64 of the oldest of the least recently used list that holds any go
back to their pool (R240). -/
def cribTrim : Nat → State → Nat → State
  | 0, s, _ => s
  | n + 1, s, core =>
    let excess := cribCount s core - 256
    if excess = 0 then s
    else
      match lruList ((cribsOf s core).filter fun l => !l.offs.isEmpty) with
      | none => s
      | some l =>
        let k := min excess (min 64 l.offs.length)
        let s := cribMap s core l.tenant l.pool fun x => { x with offs := x.offs.take (x.offs.length - k) }
        cribTrim n (poolReturn s l.tenant l.pool (l.offs.drop (l.offs.length - k))) core

/-- A freed node joins the crib at commit, at the newest end (R240). -/
def cribFree (s : State) (core tenant pool off : Nat) : State :=
  let s := cribRoom s core tenant pool
  let s := cribMap s core tenant pool fun l => { l with offs := off :: l.offs, last := s.time }
  cribTrim 16 s core

/-- Every core's list of a pool goes back to its shared free list: the trusted runtime empties them before it moves or frees
the pool (R240). -/
def cribEmpty (s : State) (tenant pool : Nat) : State :=
  s.sched.cribs.foldl (fun s c =>
    match cribList s c.1 tenant pool with
    | none => s
    | some l => poolReturn (setCribs s c.1 (dropList (cribsOf s c.1) l)) tenant pool l.offs) s

end Sys2Proof.Machine
end

