-- ==== Sys2Proof/Machine/Control.lean ====
section
/-! DEFINITION. Writes to control space and what they do: the home map judged (R133, R135, R256), seals and granules, the
tenant table by access (Table 13.1), and the two pre-emption requests (R285). -/

namespace Sys2Proof.Machine

/-! ### Pre-emption requests (R147, R285) -/

/-- Push the promises of stopped commands, and of those queued behind them that they delay, later by the time for which they stood
stopped; a command behind several is pushed once, by the longest of these times (R147, R285). A stop is no time without progress
(R213). -/
def pushPromises (s : State) (stopped : CopyCmd → Nat) : State :=
  { s with eng := { s.eng with engines := s.eng.engines.map fun e =>
      let ahead := fun (c : CopyCmd) => ((e.2.cmds.takeWhile fun b => b.seq != c.seq) ++ [c]).foldl (fun d b =>
        if b.state = .pending ∧ delays b c = true then max d (stopped b) else d) 0
      (e.1, { e.2 with
        cmds := e.2.cmds.map fun c =>
          if c.state = .pending then { c with promise := c.promise + ahead c, since := c.since + stopped c } else c
        promise := e.2.promise + (match (e.2.cmds.filter fun c => c.state == .pending).getLast? with
          | some c => ahead c
          | none => 0) }) } }

/-- The requests for a tenant change: a class of copies that stops notes the time, and those that go on have their promises
pushed by the time they stood (R147, R285). -/
def setRequests (s : State) (t : Nat) (pre : Preempt) : State :=
  let was := preempted s t
  let now := preempted { s with pre := pre } t
  let stood := fun (cls : Bool) =>
    if was cls && !now cls then s.time - Tab.get s.pre.since (sinceKey t cls) s.time else 0
  let since := [false, true].foldl (fun m cls =>
    if now cls then (if was cls then m else Tab.set m (sinceKey t cls) s.time) else Tab.erase m (sinceKey t cls)) s.pre.since
  pushPromises { s with pre := { pre with since := since } } fun c => if c.tenant = t then stood c.trusted else 0

/-- Set or clear one bit of a set of tenants. -/
def putTenant (w : BitVec 64) (t : Nat) (b : Bool) : BitVec 64 :=
  if b then w ||| (1#64 <<< t) else w &&& ~~~(1#64 <<< t)

/-! ### Moves (R274) -/

/-- The move of a tenant that stands. -/
def moveOf (s : State) (t : Nat) : Option Move := s.moves.find? fun m => m.tenant == t

/-- The trusted request begins a move where none stands; the runtime chooses its span (R274 step 1). -/
def moveBegin (s : State) (t : Nat) : State :=
  if (moveOf s t).isSome then s
  else
    { s with moves := ⟨t, Config.spanBase s.fresh, Config.spanLen s.fresh, s.time, [], false⟩ :: s.moves, fresh := s.fresh + 1 }

/-- REPGEN rises by one: at LOCK, and when an admission or a compaction has completed (R279). -/
def raiseRepgen (s : State) (t : Nat) : State :=
  let w := tenantWord s t 0
  devCtl s (tenantOff t 0) ((w &&& ~~~0xFF0000#64) ||| BitVec.ofNat 64 ((fieldNat w 23 16 + 1) % 256 * 2 ^ 16))

/-- A move is over once the tenant is resumed and no entry of it is disabled; one whose images were retranslated has completed
(R274 step 8, R279). -/
def moveSettle (s : State) (t : Nat) : State :=
  if s.pre.tr.getLsbD t then s
  else
    let gone := fun (m : Move) => m.tenant == t && m.disabled.isEmpty
    let s1 := { s with moves := s.moves.filter fun m => !gone m }
    if tiState s t = 2 && s.moves.any (fun m => gone m && m.moved) then raiseRepgen s1 t else s1

/-- A trusted store has changed EN of an entry of tenant `t`: its move holds it disabled, or no longer (R274). -/
def moveTrack (s : State) (t off : Nat) (was now : Bool) : State :=
  let f := fun (m : Move) =>
    if m.tenant != t then m
    else if was && !now then { m with disabled := addNew off m.disabled }
    else if now then { m with disabled := removeNat off m.disabled }
    else m
  moveSettle { s with moves := s.moves.map f } t

/-- Write the request of one source: setting it halts the tasks it covers, clearing it clears its acknowledgement
(Table 13.1, R214, R285). -/
def writeRequest (s : State) (t : Nat) (src : PreemptSrc) (on : Bool) : State :=
  let s := match src with
    | .service =>
      setRequests s t { s.pre with svc := putTenant s.pre.svc t on, svcAck := putTenant s.pre.svcAck t false }
    | .trusted =>
      setRequests s t { s.pre with tr := putTenant s.pre.tr t on, trAck := putTenant s.pre.trAck t false }
  let s := match src with
    | .service => s
    | .trusted => ctlChanged (if on then moveBegin s t else moveSettle s t) (tenantOff t 10)
  if on then haltTenant s t else s

/-! ### The home map (R133, R135, R256) -/

/-- The regions of the map other than entry `n`. -/
def otherRegions (s : State) (n : Nat) : List HEntry := ((hIndices s).filter (· != n)).filterMap (hEntry s)

/-- Two regions overlap. -/
def HEntry.overlaps (e f : HEntry) : Bool := decide (e.base < f.base + f.size) && decide (f.base < e.base + e.size)

/-- A tenant's arena (Table 13.1). -/
def arena (s : State) (t : Nat) : Nat × Nat := (localOf (tenantWord s t 6), localOf (tenantWord s t 7))

/-- A region lies in its owner's arena; an empty arena holds none (R256). -/
def inArena (s : State) (e : HEntry) : Bool :=
  let a := arena s e.owner
  decide (a.1 < a.2) && decide (a.1 ≤ e.base) && decide (e.base + e.size ≤ a.2)

/-- The reason for refusing an entry (R133). -/
def judgeEntry (s : State) (e : HEntry) : Option Nat :=
  if (otherRegions s e.n).any e.overlaps then some 1
  else if (members s e).isEmpty then some 2
  else if !inArena s e then some 3
  else none

/-- The bits of HMAP words that a trusted store sets (Tables 05.4, 05.5): SEALED and CLASS change at `seal` and `unseal`
alone. -/
def hmapMask (hi : Bool) : Word := if hi then 0x03FF000FFFFFFFFF else 0xE3FFF80000FFFFFF

/-- Set a slot's completion status word (R133). -/
def setWstat (s : State) (core slot : Nat) (reason : Option Nat) : State :=
  devCtl s (wstatOff core slot) (match reason with
    | none => 0
    | some r => BitVec.ofNat 64 (1 + 2 ^ 8 * r))

/-- The region of a revoked text, unsealed: releasing it ends the compaction that revoked it (R275). -/
def revokedText (s : State) (e : HEntry) : Bool :=
  let w := ctlGet s (sealOff e.n)
  bitOf w 62 && !bitOf w 63 && fieldNat w 61 60 == 1

/-- The TI whose regions a change of an entry touches, outside a move and its end (R275, R279). -/
def regionChange (s : State) (old new : Option HEntry) : List Nat :=
  if old.map (fun e => { e with busy := false }) = new.map (fun e => { e with busy := false }) || old.any (revokedText s) then []
  else
    ((match old with
      | some e => [e.owner]
      | none => []) ++ (match new with
      | some e => [e.owner]
      | none => [])).filter fun t => (moveOf s t).isNone

/-- The pool of entry `n`, if a write would move or free it: its crib lists are emptied first (R240). -/
def poolLeaves (s s' : State) (n : Nat) : State :=
  match hEntry s n with
  | some e => if e.kind == 1 && hEntry s' n != some e then cribEmpty s e.owner e.pool else s
  | none => s

/-- An entry that is no longer valid, and is not being rewritten, stands for no data region of admission's (R456). -/
def forgetData (s : State) (n : Nat) : State :=
  let w := ctlGet s (hmapOff n false)
  if bitOf w 63 || bitOf w 43 then s else { s with sched := { s.sched with dataRegs := s.sched.dataRegs.filter (· != n) } }

/-- Write one word of HMAP[n], judge the entry unless BUSY stands, and set the writing slot's status (R133, R135). -/
def hmapStore (s : State) (core slot n : Nat) (hi : Bool) (v : Word) : State :=
  let old := hEntry s n
  let v := (ctlGet s (hmapOff n hi) &&& ~~~hmapMask hi) ||| (v &&& hmapMask hi)
  let s := poolLeaves s (ctlSet s (hmapOff n hi) v) n
  let s1 := ctlSet s (hmapOff n hi) v
  let w0 := ctlGet s1 (hmapOff n false)
  if bitOf w0 43 then (regionChange s old (hEntry s1 n)).foldl tiError (devCtl s1 (hmapOff n hi) v)
  else
    let reason := (hEntry s1 n).bind (judgeEntry s1)
    let s2 := match reason with
      | none => s1
      | some _ => ctlSet s1 (hmapOff n false) (w0 &&& ~~~(1#64 <<< 63))
    let s3 := devCtl s2 (hmapOff n hi) (ctlGet s2 (hmapOff n hi))
    let s4 := (regionChange s old (hEntry s2 n)).foldl tiError s3
    setWstat (forgetData s4 n) core slot reason

/-! ### Granules (R143) -/

/-- Some sealed region meets the granule (R174). -/
def granuleSealed (s : State) (g : Nat) : Bool :=
  ((hIndices s).filterMap (hEntry s)).any fun e =>
    e.sealed && decide (e.base < granuleBase g + 0x10000) && decide (granuleBase g < e.base + e.size)

/-- The lines of a granule. -/
def granuleLines (g : Nat) : List Nat := (List.range 1024).map fun i => granuleBase g / 64 + i

/-- Mark a granule unscrubbed: from here its bytes read zero with full tags until they are written (R143). -/
def markGranule (s : State) (g : Nat) : State :=
  let lo := granuleBase g
  let out := fun a => !(decide (lo ≤ a) && decide (a < lo + 0x10000))
  let m := { s.mem with cells := s.mem.cells.filter fun c => out c.1, empties := s.mem.empties.filter out,
                        poison := s.mem.poison.filter out, scrubbed := removeNat g s.mem.scrubbed
                        clearing := s.mem.clearing.filter (· != g) }
  ctlChanged (publish { s with mem := m } 0 (granuleLines g)) (0x1000000 + g / 8)

/-- A trusted write of ones to unscrubbed bits: each marks its granule, but a sealed granule is refused with status 4 and
the carve-out's bits are ignored (R133, R143, R174). A zero written to a set bit changes nothing and is reported as done
(DESIGN CHOICE, log entry 59). -/
def unscrubbedStore (s : State) (core slot : Nat) (gs : List Nat) : State :=
  let gs := gs.filter fun g => decide (g < granules) && !granuleCarved g
  let s1 := gs.foldl (fun s' g => if granuleSealed s g then s' else markGranule s' g) s
  setWstat s1 core slot (if gs.any (granuleSealed s) then some 4 else none)

/-! ### Control-space stores -/

/-- The low bits of a word. -/
def lowBits (n : Nat) : Word := BitVec.ofNat 64 (2 ^ n - 1)

/-- The field bits a trusted store sets in a word of TENANT[t] (Table 13.1); words of other writers take none, and the fields
are frozen from LOCK_INTERFACE_REQUEST on (R278). -/
def tenantMask (s : State) (t w : Nat) : Word :=
  if tiState s t ≠ 0 then 0
  else if w = 5 then 0x000FFFFF000FFFFF
  else if w = 2 ∨ w = 3 ∨ w = 4 ∨ w = 6 ∨ w = 7 then BitVec.allOnes 64
  else 0

/-- Store bytes at a control-space offset, from a trusted image in a slot (R133, R143, R253, R267, R285, R458). A word that
only the device or another party writes keeps its value. -/
def ctlStore (s : State) (core slot off : Nat) (bs : List Byte) : State :=
  let o := 8 * (off / 8)
  let old := ctlGet s o
  let v := BitVec.ofNat 64 (natOfBytes (overlayStore off bs o (bytesOfNat 8 old.toNat)))
  let put := fun mask => devCtl s o ((old &&& ~~~mask) ||| (v &&& mask))
  if o < 0x10000 then hmapStore s core slot (o / 16) (decide (o % 16 = 8)) v
  else if decide (0x1000000 ≤ o) && decide (o < 0x1000000 + granules / 8) then
    unscrubbedStore s core slot ((List.range (8 * bs.length)).filterMap fun i =>
      if (bs.getD (i / 8) 0).getLsbD (i % 8) then some (8 * (off - 0x1000000) + i) else none)
  else if decide (0x2000000 ≤ o) && decide (o < 0x2400000) then
    if o % 16 = 0 then
      moveTrack (put 0xC3FFFFFFFFFFFFFF) ((o - 0x2000000) / 0x10000) o (bitOf old 62) (bitOf v 62)
    else put 0x00000000FFFFFFFF
  else if decide (0x2800000 ≤ o) && decide (o < 0x2820000) then
    moveTrack (put 0xF0FFFFFFFFFFFFFF) ((o - 0x2800000) / 0x800) o (bitOf old 60) (bitOf v 60)
  else if decide (0x3000000 ≤ o) && decide (o < 0x3004000) then
    let t := (o - 0x3000000) / 0x100
    let w := o % 0x100 / 8
    if w = 10 then (if off % 8 = 0 then writeRequest s t .trusted (bitOf v 0) else s)
    else put (tenantMask s t w)
  else if decide (0x3100000 ≤ o) && decide (o < 0x3108000) then
    setWstat (put 0x4000FFFFFFFFFFFF) core slot none
  else if decide (0x3200000 ≤ o) && decide (o < 0x3240000) then put (BitVec.allOnes 64)
  else s

end Sys2Proof.Machine
end

