-- ==== Sys2Proof/Machine/Messages.lean ====
section
/-! DEFINITION. How tasks come into being (R84), and messages: their arrival, their handler entries and the undelivered
queue (R87, R106 to R109, R382), and their sending (R389). -/

namespace Sys2Proof.Machine

/-! ### New tasks (R84) -/

/-- The seal slot of a handle names a seal of class trusted (R267, R270). -/
def sealTrusted (s : State) (h : BitVec 16) : Bool :=
  let w := ctlGet s (sealOff (h.toNat % 4096))
  bitOf w 63 && decide (fieldNat w 61 60 = 2) && decide (fieldNat w 59 56 = h.toNat / 4096)

/-- The image of a handle is the Winnower's: sealed trusted, its record holding the D that boot measured (R253, R271, R321;
DEDUCED, log entry 48). -/
def sealWinnower (s : State) (h : BitVec 16) : Bool :=
  sealTrusted s h && ((List.range 6).map fun i => ctlGet s (imgrecOff (h.toNat % 4096) (2 + i))) ==
    wordsOfBytes (bytesBE 48 Config.winnowerDigest.toNat) 6

/-- What a new task is made from. -/
structure Birth where
  kind     : TaskKind
  core     : Nat
  tenant   : Nat
  prio     : Nat
  handle   : BitVec 16
  trusted  : Bool
  winnower : Bool
  /-- Byte offset of the entry in the image's text. -/
  entry    : Nat
  pb       : Word
  args     : List Word
  origin   : Word
  owner    : Word
  msg      : Option Msg
  launch   : Option (Nat × Nat)
  rooted   : Bool
  net      : Option Nat
  ord      : Option (Nat × Nat)
  imgd     : Option Word
  /-- Its source's place among the entries of one cycle (R123). -/
  src      : Nat
  deriving DecidableEq, Repr

/-- The registers of a new task: g4 and g10 to g13 as Table 04.1 gives them, the rest zero; g3 is its task block. -/
def entryCtx (pc block pb : Word) (args : List Word) : Ctx :=
  let c := { Ctx.initial with pc := pc }
  let c := setG (setG c 3 block) 4 pb
  setG (setG (setG (setG c 10 (args.getD 0 0)) 11 (args.getD 1 0)) 12 (args.getD 2 0)) 13 (args.getD 3 0)

/-- The address of a native byte offset in the text of a handle. -/
def entryPc (s : State) (h : BitVec 16) (entry : Nat) : Word := globalOf s (textBase s h + entry)

/-- A task not yet started (R84, R86). -/
def unstartedTask (s : State) (b : Birth) : Task :=
  let c := entryCtx (entryPc s b.handle b.entry) 0 b.pb b.args
  { Task.vacant b.core with
    kind := b.kind
    status := .unstarted
    tenant := b.tenant
    prio := b.prio
    handle := b.handle
    trusted := b.trusted
    winnower := b.winnower || sealWinnower s b.handle
    entryPb := b.pb
    origin := b.origin
    owner := b.owner
    msg := b.msg
    launch := b.launch
    rooted := b.rooted
    net := b.net
    ord := b.ord
    imgd := b.imgd
    since := s.time
    src := b.src
    ctx := c
    chunk := Chunk.begin c 0 true }

/-- A task enters its core's run queue. -/
def enqueue (s : State) (b : Birth) : State := addTask s (unstartedTask s b)

/-! ### Handler entries (Table 04.4) -/

def htabWord (s : State) (t tag : Nat) : Word := ctlGet s (htabOff t tag)

/-- The name of a core (R84): package and core. -/
def coreName (s : State) (core : Nat) : Nat := s.conf.pkg * 1024 + core

/-- The message task that a message creates (R84, R107). -/
def messageBirth (s : State) (core : Nat) (m : Msg) : Birth where
  kind := .message
  core := core
  tenant := m.tenant
  prio := fieldNat m.entry 62 61
  handle := BitVec.ofNat 16 (fieldNat m.entry 55 40)
  trusted := sealTrusted s (BitVec.ofNat 16 (fieldNat m.entry 55 40))
  winnower := false
  entry := fieldNat m.entry 39 0
  pb := 0
  args := [BitVec.ofNat 64 m.src, BitVec.ofNat 64 (m.tag * 16 + m.words.length), 0, 0]
  origin := BitVec.ofNat 64 m.src
  owner := 0
  msg := some m
  launch := none
  rooted := false
  net := none
  ord := none
  imgd := none
  src := senderRank s core m.src m.slot

/-! ### The undelivered queue (R108) -/

/-- Write an entry and HEAD, or count the message as lost. -/
def undqWrite (s : State) (m : Msg) (moved : Bool) : State :=
  let u := localOf (tenantWord s m.tenant 11)
  if u = 0 then siloAdd s 2241
  else
    let head := fieldNat (s.mem.read64 u) 31 0
    let tail := fieldNat (s.mem.read64 (u + 8)) 31 0
    if (head + 2 ^ 32 - tail) % 2 ^ 32 = 511 then
      siloAdd (devWord s (u + 16) (s.mem.read64 (u + 16) + 1)) 2241
    else
      let src := m.src % 2 ^ 26 + 2 ^ 26 * m.tag + 2 ^ 34 * m.words.length + (if moved then 2 ^ 38 else 0)
      let ws := [BitVec.ofNat 64 src, BitVec.ofNat 64 m.time] ++ ((List.range 8).map fun i => m.words.getD i 0) ++
        List.replicate 6 0
      let s := devWrite s (u + 128 * (head % 511 + 1)) (bytesOfWords ws) (some true)
      devWord s u (BitVec.ofNat 64 ((head + 1) % 2 ^ 32))

/-! ### Arrival (R87, R107) -/

/-- An arrived message waits in its core's arrival buffer for room in the run queue, or creates its task (R87). -/
def placeMsg (s : State) (core : Nat) (m : Msg) : State :=
  let waiting := Tab.get s.sched.arrivals core []
  if queueFull s core || !waiting.isEmpty then
    { s with sched := { s.sched with arrivals := Tab.set s.sched.arrivals core (waiting ++ [m]) } }
  else enqueue s (messageBirth s core m)

/-- Messages of the arrival buffer create their tasks, oldest first, while the run queue has room (R87). The fuel is the
number of waiting messages. -/
def drainFuel : Nat → State → Nat → State
  | 0, s, _ => s
  | n + 1, s, core =>
    match Tab.get s.sched.arrivals core [] with
    | [] => s
    | m :: ms =>
      if queueFull s core then s
      else
        drainFuel n (enqueue { s with sched := { s.sched with arrivals := Tab.set s.sched.arrivals core ms } }
          (messageBirth s core m)) core

/-- Room in a run queue lets messages of the arrival buffer in. -/
def drainArrivals (s : State) (core : Nat) : State :=
  drainFuel (Tab.get s.sched.arrivals core []).length s core

/-- A message arrives at a core. None: the core accepts no message, since its arrival buffer is full (R87). A message from
elsewhere for a core that is not enabled is lost (DEDUCED, log entry 12). Its last words may still be on their way (R70). -/
def deliverMsg (s : State) (core tenant src slot tag : Nat) (words : List Word) (missing : Nat) : Option State :=
  let s := { s with sched := { s.sched with order := { s.sched.order with msg := some s.time } } }
  let e := htabWord s tenant tag
  let m : Msg := ⟨src, slot, tag, words, tenant, e, s.time, missing⟩
  if !coreEnabled s core then some (siloAdd s 2241)
  else if !bitOf e 63 then
    some (bareFault (undqWrite s m false) tenant 0 0x0E (BitVec.ofNat 64 (tag * 16 + words.length)))
  else if 16 ≤ bufferLen s core then none
  else if bitOf e 60 then some (placeMsg s core m)
  else
    let s := devCtl s (htabOff tenant tag) (e ||| (1#64 <<< 59))
    some { s with sched := { s.sched with enWait := s.sched.enWait ++ [(core, m)] } }

/-- One more word of each message that a core is still receiving arrives (R70). -/
def msgWord (s : State) (core : Nat) : State :=
  let next := fun (m : Msg) => { m with missing := m.missing - 1 }
  let s := mapTasks s fun t =>
    if t.core = core then { t with msg := t.msg.map next
                                   inline := t.inline.map fun i => { i with msg := i.msg.map next } } else t
  { s with sched := { s.sched with
      arrivals := s.sched.arrivals.map fun a => if a.1 = core then (a.1, a.2.map next) else a
      enWait := s.sched.enWait.map fun e => if e.1 = core then (e.1, next e.2) else e } }

/-! ### Sending (R389) -/

/-- The class of a message's destination core; one to the own core counts as near (R140, R389). -/
def msgClass (core dst : Nat) : WaitClass := if clusterOf core = clusterOf dst then .near else .die

/-- Send a message under a tenant's interface; `counted` when it counts in the sender's counters. -/
def sendMsg (s : State) (task core slot tenant dst tag : Nat) (words : List Word) (counted : Bool) : State :=
  let dpkg := dst / 1024
  let dcore := dst % 1024
  if dpkg = s.conf.pkg then
    let m : Msg := ⟨coreName s core, slot, tag, words, tenant, 0, 0, 0⟩
    let s := { s with fab := { s.fab with netMsgs := s.fab.netMsgs ++ [⟨core, dcore, m, 256, none, counted⟩] } }
    if counted then raiseCounter s core tenant (msgClass core dcore) else s
  else
    let w0 := BitVec.ofNat 64 (tag + 2 ^ 8 * words.length)
    let s := sendTracked s task core tenant dpkg 2 dcore 5 (w0 :: words) none counted
    if counted then raiseCounter s core tenant .far else s

/-! ### `tgctl` at commit (R430) -/

/-- One message waiting under EN = 0 becomes a task with the entry as it stands. -/
def releaseWaiting (s : State) (t tag : Nat) : State :=
  let hit := fun (e : Nat × Msg) => e.2.tenant == t && e.2.tag == tag
  let go := s.sched.enWait.filter hit
  let s := { s with sched := { s.sched with enWait := s.sched.enWait.filter fun e => !hit e } }
  go.foldl (fun s e => placeMsg s e.1 { e.2 with entry := htabWord s t tag }) s

/-- Messages whose entry has come to hold EN = 1 create their tasks (R106, R107). -/
def releaseEnabled (s : State) : State :=
  let open' := fun (e : Nat × Msg) => let w := htabWord s e.2.tenant e.2.tag
                                     bitOf w 63 && bitOf w 60
  (s.sched.enWait.filter open').foldl (fun s e => releaseWaiting s e.2.tenant e.2.tag) s

/-- Move every message waiting on a tag to the undelivered queue. -/
def moveWaiting (s : State) (t tag : Nat) : State :=
  let hit := fun (e : Nat × Msg) => e.2.tenant == t && e.2.tag == tag
  let go := s.sched.enWait.filter hit
  let s := { s with sched := { s.sched with enWait := s.sched.enWait.filter fun e => !hit e } }
  go.foldl (fun s e => undqWrite s e.2 true) s

/-- The one update of HTAB[t][tag] with control `c` (R430): PEND is cleared by c[1], and messages waiting on the tag keep
it set while EN stays 0. -/
def tgctlApply (s : State) (t tag : Nat) (c : BitVec 2) : State :=
  let clear := c.getLsbD 1
  let en := c.getLsbD 0
  let s := if clear then moveWaiting s t tag else s
  let e := htabWord s t tag
  let e := if clear then e &&& ~~~(1#64 <<< 59) else e
  let e := if en then e ||| (1#64 <<< 60) else e &&& ~~~(1#64 <<< 60)
  let s := devCtl s (htabOff t tag) e
  if en then releaseWaiting s t tag else s

/-- Bytes stored to control space by a trusted image, with what an enabled handler entry sets going. -/
def ctlWrite (s : State) (core slot off : Nat) (bs : List Byte) : State := releaseEnabled (ctlStore s core slot off bs)

end Sys2Proof.Machine
end

