-- ==== Sys2Proof/Machine/Sync.lean ====
section
/-! DEFINITION. What a home performs (R136, R158, R159): one operation on a word, the accesses that wait there in order of
arrival, the requests and posted flits of other packages (R161, R292, R295, R314), and the examination of those that wait. -/

namespace Sys2Proof.Machine

/-! ### One operation at a home -/

/-- The bytes a home operation touches. -/
def HomeOp.size : HomeOp → Nat
  | .load _ n => n
  | .store _ bs => bs.length
  | .amo _ n _ _ => n
  | .tagr => 8
  | .tagw _ => 8
  | .range _ _ => 8
  | .line n => n
  | .fill bs _ => bs.length
  | .watch _ _ _ => 8
  | .port _ => 8

def HomeOp.writes : HomeOp → Bool
  | .store _ _ => true
  | .amo _ _ _ _ => true
  | .tagw _ => true
  | .fill _ _ => true
  | _ => false

/-- Atomics, tag writes, 16-byte loads and engines reach neither W1 to W7 nor control space, and a wait slot no window (R126,
R454, R458). -/
def HomeOp.bare : HomeOp → Bool
  | .load _ n => n == 16
  | .store _ _ => false
  | _ => true

/-- What a home decides without an access to the word: a range of an engine, and the conditions of wait slots. -/
def HomeOp.passive : HomeOp → Bool
  | .range _ _ => true
  | .watch _ _ _ => true
  | _ => false

/-- The operation as Table 05.2 judges it. -/
def HomeOp.access (o : HomeOp) : Access :=
  ⟨o.writes, o.size, o.size, o.bare, o.bare || decide (16 ≤ o.size), false⟩

/-- The tag condition of Table 05.6; a pl load that waits proceeds as wf, and an amo as wf (R342). -/
def tagReady (s : State) (a : Nat) (o : HomeOp) : Bool :=
  !syncPlace (placeOf s a) ||
  (let full := (wordsAt (canon s a) o.size).all s.mem.full
   match o with
   | .load .rdn _ => true
   | .load _ _ => full
   | .store .we _ => !full
   | .store _ _ => true
   | .amo _ _ _ _ => full
   | _ => true)

/-- The tenant of a copy engine elsewhere owns the range it names and, for a write, the range is not sealed (R145). -/
def rangeGranted (s : State) (tenant a n : Nat) (write : Bool) : Bool :=
  copyOwned s tenant a n && !(write && regionSealed s a)

/-- Poison that keeps a home from an operation: a read of a poisoned word, and a store that would leave part of one (R165,
R166). -/
def jobPoison (s : State) (w : Waiter) : Bool :=
  match w.op with
  | .load _ n => accessPoison s w.addr n
  | .amo _ n _ _ => accessPoison s w.addr n
  | .tagw _ => accessPoison s w.addr 8
  | .line n => accessPoison s w.addr n
  | .store _ bs => poisonBlocks s.mem (placeWrite s w.addr bs).1 (placeWrite s w.addr bs).2.length
  | .fill bs _ => poisonBlocks s.mem (canon s w.addr) bs.length
  | _ => false

/-- The checks of an `nrd` of another package at the pool's home, in R238's order: the region, the reference, the node's AUX; and
the words it reads (R166, R238). -/
def portCause (s : State) (tenant base a : Nat) : Option Nat :=
  match placeOf s base, regionAt s base with
  | .dram, some e =>
    let node := base + 32 * ((a - base) / 32)
    if e.kind ≠ 1 ∨ e.base ≠ base then some 0x11
    else if e.owner ≠ tenant then some 0x04
    else if a < base + 0x40 ∨ base + e.size ≤ a ∨ a % 32 = 0 then some 0x02
    else if s.mem.poisoned node = true then some 0x0C
    else if fieldNat (s.mem.read64 node) 47 40 < a % 32 / 8 - 1 then some 0x02
    else if s.mem.poisoned a = true then some 0x0C
    else none
  | _, _ => some 0x11

/-- What a waiter asks is refused or poisoned: it is answered with a cause (R145, R166, R410, R457). -/
def jobCause (s : State) (w : Waiter) : Option Nat :=
  match w.op with
  | .range n write => if rangeGranted s w.tenant w.addr n write then none else some 0x14
  | .port base => portCause s w.tenant base w.addr
  | _ =>
    match checkLocal s w.tenant w.trusted w.addr w.op.access with
    | some c => some c
    | none => if jobPoison s w then some 0x0C else none

/-- The task whose own chunk a job does not abort, since it waits for the job. -/
def Asker.key : Asker → Nat
  | .task k _ _ _ => k
  | _ => 0

/-- The home can perform the job now: its entry is not being rewritten, no serial chunk holds its line, and its tag
condition holds or it is answered with a cause (R115, R135, R158); an armed condition is reported when it holds (R102). -/
def jobReady (s : State) (w : Waiter) : Bool :=
  match w.op with
  | .watch c v true => wordCond s c w.addr v
  | _ =>
    !regionBusy s w.addr && (w.op.passive || !serialHolds s w.asker.key (accessLines s w.addr w.op.size)) &&
      ((jobCause s w).isSome || tagReady s w.addr w.op)

/-- The new value of an atomic (R342); none writes nothing. -/
def amoNew (o : AmoOp) (n old v e : Nat) : Option Nat :=
  match o with
  | .add => some ((old + v) % 2 ^ (8 * n))
  | .and => some (old &&& v)
  | .or => some (old ||| v)
  | .xor => some (old ^^^ v)
  | .min => some (if signedOf (8 * n) old ≤ signedOf (8 * n) v then old else v)
  | .max => some (if signedOf (8 * n) v ≤ signedOf (8 * n) old then old else v)
  | .minu => some (min old v)
  | .maxu => some (max old v)
  | .swap => some v
  | .cas => if old = e then some v else none

/-- Set the tags of a range outside any chunk. -/
def devTags (s : State) (a n : Nat) (f : Bool) : State :=
  if linesSealed s (linesOf a n) then s
  else
    let s := jobDone (reach s (linesOf a n))
    observe (publish { s with mem := s.mem.setTags a n f } 0 (linesOf a n))

/-- The tag a store mode leaves (Table 05.6). -/
def modeTag : StoreMode → Option Bool
  | .pl => none
  | .we => some true
  | .sf => some true
  | .se => some false

/-- A home answers a read: the access is performed at this time, and it may be the first to its granule (R143, R152). -/
def jobRead (s : State) (a n : Nat) : State := jobDone (reach s (linesOf (canon s a) n))

/-- Each word of `n` bytes from an aligned address takes its tag from a list, its words' order (R146). -/
def devWordTags (s : State) (a : Nat) (tags : List Bool) : State :=
  (tags.zipIdx).foldl (fun s x => devTags s (a + 8 * x.2) 1 x.1) s

/-- A copy engine's part of a line reaches its home: bytes, and its words full or with the tags given, in one step (R146,
R154). -/
def fillLine (s : State) (a : Nat) (bs : List Byte) (tags : List Bool) : State :=
  if tags.isEmpty then devWrite s a bs (some true) else devWordTags (devWrite s a bs none) a tags

/-- The tags of the words that `n` bytes touch, one bit each. -/
def tagBits (m : Mem) (a n : Nat) : Nat := ((wordsAt a n).zipIdx).foldl (fun v x => if m.full x.1 then v + 2 ^ x.2 else v) 0

/-- A store that its home discards for its poisoned word is an event of the silo (R165). -/
def discards (o : HomeOp) (c : Nat) : Bool := o.writes && c == 0x0C && (match o with
  | .amo _ _ _ _ => false
  | _ => true)

/-- Perform a job whose condition holds, as one step: the state after it, the cause it is answered with, and the bytes it
delivers (Table 05.6, R159, R165, R342). -/
def runJob (s : State) (w : Waiter) (slot : Nat × Nat) : State × Option Nat × List Byte :=
  match (match w.op with
    | .watch _ _ true => none
    | _ => jobCause s w) with
  | some c => (if discards w.op c then siloAdd s 2223 else s, some c, [])
  | none =>
    let a := canon s w.addr
    match w.op with
    | .load mode n =>
      let v := placeRead s s.mem.readBytes (ctlBytes s) w.addr n
      (if mode == .wfe && syncPlace (placeOf s w.addr) then devTags s a n false else jobRead s w.addr n, none, v)
    | .store mode bs =>
      match placeOf s w.addr with
      | .control off => (jobDone (ctlWrite s slot.1 slot.2 off bs), none, [])
      | p =>
        let r := placeWrite s w.addr bs
        (devWrite s r.1 r.2 (if syncPlace p then modeTag mode else none), none, [])
    | .amo o n v e =>
      let old := natOfBytes (s.mem.readBytes a n)
      (match amoNew o n old (v.toNat % 2 ^ (8 * n)) (e.toNat % 2 ^ (8 * n)) with
       | some x => devWrite s a (bytesOfNat n x) none
       | none => jobRead s w.addr n, none, bytesOfNat n old)
    | .tagr => (jobRead s w.addr 8, none, bytesOfNat 8 (if homeTag s w.addr then 1 else 0))
    | .tagw f => (devTags s a 1 f, none, [])
    | .range _ _ => (s, none, [])
    | .line n => (jobRead s w.addr n, none, s.mem.readBytes a n ++ [BitVec.ofNat 8 (tagBits s.mem a n)])
    | .fill bs tags => (fillLine s a bs tags, none, [])
    | .port _ => (jobRead s w.addr 8, none, s.mem.readBytes a 8)
    | .watch _ _ _ => (s, none, [])

/-! ### Answers -/

/-- A cause reaches a task at its next chunk boundary; of a task that has ended a fault record goes to the host, with the
deferred bit (R148, R206, R207). -/
def deferTo (s : State) (key tenant cause : Nat) (detail : Word) : State :=
  if (findTask s key).isSome then
    onTask s key fun s => modCur s fun t => { t with deferred := t.deferred ++ [⟨cause, detail⟩] }
  else
    match s.sched.ended.find? fun e => e.key == key with
    | some e => reportFault s e ⟨cause, 0, cause == 0x04, true, e.pc, detail⟩
    | none => bareFault s tenant 0 cause detail

/-- The value a destination receives from the bytes read (R376). -/
def destValue (d : Dest) (size : Nat) (signed : Bool) (bs : List Byte) : VWord :=
  match d with
  | .g2 _ => BitVec.ofNat 512 (natOfBytes bs)
  | .v _ => BitVec.ofNat 512 (natOfBytes bs)
  | _ => (extend size signed (natOfBytes bs)).zeroExtend 512

/-- The destination is a pair of registers. -/
def Dest.pair : Dest → Bool
  | .g2 _ => true
  | _ => false

/-- Answer a request or posted flit of another package (R291, R296). -/
def replyTo (s : State) (f : Flit) (status : Nat) (words : List Word) : State :=
  sendFlit s { mkFlit s f.src 1 f.ti f.dcore f.score 9 f.reqid words with status := status, dinc := f.dinc }

/-- The words of a reply that carries `n` bytes. -/
def replyWords (bs : List Byte) : List Word := wordsOfBytes bs ((bs.length + 7) / 8)

/-- Deliver a job's outcome to who asked for it (R206, R294, R457). The acknowledgement of a posted store is a step of its
own, STORE_ACK (R140). -/
def answer (s : State) (w : Waiter) (cause : Option Nat) (bs : List Byte) : State :=
  match w.asker with
  | .task k d size signed =>
    onTask s k fun s => modCur s fun t =>
      { t with hold := some (.answer cause (destValue d size signed bs) d.pair) }
  | .posted _ tenant _ task =>
    match cause with
    | none => s
    | some c => deferTo s task tenant c (globalOf s w.addr)
  | .remote f =>
    match cause with
    | some c => replyTo s f 4 [BitVec.ofNat 64 c]
    | none =>
      match w.op with
      | .watch c v false =>
        bumpKey { replyTo s f 0 [] with eng := { s.eng with waiters := s.eng.waiters ++
          [{ w with id := s.nextKey, op := .watch c v true }] } }
      | .watch _ _ true => replyTo s f 0 [1]
      | _ => replyTo s f 0 (replyWords bs)

/-! ### Flits of other packages -/

/-- Word 1 of a flit is a copy engine's: it names `n` bytes of one line and, where `tags` is set, their words' tags in a word
after the data; the manual gives engines no other form than the accesses of Table 15.2, none of which is atomic over a part of a
line (R145, R146, R154; DESIGN CHOICE, log entry 62). -/
def engineW1 (n : Nat) (tags : Bool) : Word :=
  BitVec.ofNat 64 (5 + 2 ^ 3 * 3 + 2 ^ 63 + (if tags then 2 ^ 62 else 0) + 2 ^ 32 * n)

/-- The operation a copy engine's flit asks for: a part of a line read or written. -/
def engineOp (f : Flit) : HomeOp :=
  let w1 := f.words.getD 1 0
  let n := fieldNat w1 38 32
  if f.op = 0 then .line n
  else
    let k := (n + 7) / 8
    .fill ((bytesOfWords (f.words.drop 2)).take n)
      (if bitOf w1 62 then (List.range k).map fun i => bitOf (f.words.getD (2 + k) 0) i else [])

/-- The condition a request to arm a wait slot names. -/
def armCond (n : Nat) : WaitCond := if n = 1 then .full else if n = 2 then .empty else .diff

/-- The words that ask another package to arm a wait slot beside the address: bit 62, the condition, and the value it compares
(R454; DESIGN CHOICE, log entry 62). -/
def armWords (c : WaitCond) (v : Word) : List Word :=
  [BitVec.ofNat 64 (2 ^ 62 + (match c with
    | .full => 1
    | .empty => 2
    | _ => 3)), v]

/-- Word 1 of the request of an `nrd`: a load in mode rdn, with bit 62 set and the pool's base in a word after it; Table 15.2 gives
`nrd` no form of its own (R294; DESIGN CHOICE, log entry 62). -/
def portW1 : Word := BitVec.ofNat 64 (3 + 2 ^ 3 * 3 + 2 ^ 62)

/-- The operation an incoming flit asks for (Table 15.2). -/
def flitOp (f : Flit) : HomeOp :=
  let w1 := f.words.getD 1 0
  let sz := fieldNat w1 2 0
  let n := if sz = 5 then 64 else 2 ^ sz
  if decide (f.op ≤ 1) && bitOf w1 63 then engineOp f
  else if f.op == 0 && bitOf w1 62 then .port (localOf (f.words.getD 2 0))
  else if f.op == 3 && decide (3 ≤ f.words.length) then .watch (armCond (fieldNat w1 1 0)) (f.words.getD 2 0) false
  else if f.op == 3 && decide (2 ≤ f.words.length) then .range (fieldNat w1 61 0) (bitOf w1 63)
  else if f.op = 0 then
    .load (match fieldNat w1 4 3 with
      | 0 => .pl
      | 1 => .wf
      | 2 => .wfe
      | _ => .rdn) n
  else if f.op = 1 then
    .store (match fieldNat w1 4 3 with
      | 0 => .pl
      | 1 => .we
      | 2 => .sf
      | _ => .se) ((bytesOfWords (f.words.drop 2)).take n)
  else if f.op = 2 then
    .amo (match fieldNat w1 8 5 with
      | 0 => .add
      | 1 => .and
      | 2 => .or
      | 3 => .xor
      | 4 => .min
      | 5 => .minu
      | 6 => .max
      | 7 => .maxu
      | 8 => .swap
      | _ => .cas) n (f.words.getD 2 0) (f.words.getD 3 0)
  else if f.op = 3 then .tagr
  else if f.op = 4 then .tagw (bitOf w1 0)
  else .load .rdn 8

/-- The class each operation travels under (Table 15.2). -/
def opClass (op : Nat) : Nat :=
  if op = 1 ∨ op = 4 ∨ op = 5 ∨ op = 8 then 2
  else if op = 9 then 1
  else if op = 10 then 3
  else if op = 11 ∨ op = 12 ∨ op = 13 then 4
  else 0

/-- A malformed flit (R292, R296): a reserved field, an unknown OP, an OP under another class, a size or a status the
tables do not give. -/
def malformed (f : Flit) : Bool :=
  f.rsv != 0 || decide (14 ≤ f.op) || decide (f.cls ≠ opClass f.op) || decide (26 < f.words.length) ||
    (decide (f.op ≤ 1) && decide (6 ≤ fieldNat (f.words.getD 1 0) 2 0)) ||
    (f.op == 2 && (decide (fieldNat (f.words.getD 1 0) 2 0 / 2 ≠ 1) || decide (10 ≤ fieldNat (f.words.getD 1 0) 8 5))) ||
    (if f.op = 9 then decide (5 ≤ f.status) else decide (f.status ≠ 0))

/-- The local address an incoming flit names. -/
def flitAddr (f : Flit) : Nat := localOf (f.words.getD 0 0)

/-- The waiter an incoming flit makes. -/
def flitWaiter (s : State) (f : Flit) : Waiter := ⟨s.nextKey, f.ti, false, flitAddr f, flitOp f, .remote f, s.time⟩

/-- The source core of a posted flit, under which it is held (R314). -/
def holdKey (f : Flit) : Nat := f.src * 1024 + f.score

/-- A waiting posted flit of a source core stands in a retry list. -/
def postedWaits (s : State) (k : Nat) : Bool :=
  s.eng.waiters.any fun w => match w.asker with
    | .remote f => f.cls == 2 && holdKey f == k
    | _ => false

/-- Remote waiters homed at a core: its retry list (R295). -/
def retryLen (s : State) (home : Option Nat) : Nat :=
  (s.eng.waiters.filter fun w => (match w.asker with
    | .remote _ => !w.op.passive
    | _ => false) && homeOf s w.addr == home).length

/-- Posted flits of a source core that were answered NACK-WAIT, oldest first: REQID and TI of each (R161, R314). -/
def nackedOf (s : State) (k : Nat) : List (Nat × Nat) := Tab.get s.fab.nacked k []

/-- A posted flit is answered NACK-WAIT and keeps its place among those of its core. -/
def nackPosted (s : State) (f : Flit) : State :=
  let ns := nackedOf s (holdKey f)
  let ns := if ns.any fun n => n.1 == f.reqid then ns else ns ++ [(f.reqid, f.ti)]
  replyTo { s with fab := { s.fab with nacked := Tab.set s.fab.nacked (holdKey f) ns } } f 1 []

/-- A posted flit that was answered NACK-WAIT is accepted. -/
def clearNack (s : State) (f : Flit) : State :=
  let ns := (nackedOf s (holdKey f)).filter fun n => n.1 != f.reqid
  { s with fab := { s.fab with nacked := Tab.set s.fab.nacked (holdKey f) ns } }

/-- The flit answered NACK-WAIT that stands before its core's hold queue: its REQID and its TI. -/
def frontOf (s : State) (k : Nat) : Option (Nat × Nat) := (s.fab.front.find? fun e => e.1 == k).map fun e => e.2

/-- Posted flits answered NACK-WAIT that will not come again, or that are refused for good, stand before no others of their core
(R281, R314): those of a source that `src` picks and of a TI and REQID that `p` picks. -/
def forgetNacks (s : State) (src : Nat → Bool) (p : Nat × Nat → Bool) : State :=
  { s with fab := { s.fab with
      nacked := s.fab.nacked.map fun e => (e.1, if src e.1 then e.2.filter fun n => !p n else e.2)
      front := s.fab.front.filter fun e => !(src e.1 && p e.2) } }

/-- The oldest flit of its core is answered NACK-WAIT: those held stand behind it. -/
def nackFront (s : State) (f : Flit) : State :=
  replyTo { s with fab := { s.fab with front := Tab.set s.fab.front (holdKey f) (f.reqid, f.ti) } } f 1 []

/-- A full retry list, or arrival buffer, answers NACK-WAIT. -/
def nackFlit (s : State) (f : Flit) : State := if f.cls = 2 then nackFront s f else replyTo s f 1 []

/-- Perform an access of another package, or put it in its home's retry list, or answer NACK-WAIT when that is full
(R295). -/
def performAccess (s : State) (f : Flit) : State :=
  let w := flitWaiter s f
  if jobReady s w then
    let (s, c, bs) := runJob s w (0, 0)
    answer s w c bs
  else if w.op.passive || decide (retryLen s (homeOf s w.addr) < 1024) then
    bumpKey { s with eng := { s.eng with waiters := s.eng.waiters ++ [w] } }
  else nackFlit s f

/-- Perform a posted flit of another package: a message, or a store or tag write (R107, R161). -/
def performPosted (s : State) (f : Flit) : State :=
  if f.op = 5 then
    let w0 := f.words.getD 0 0
    match deliverMsg s f.dcore f.ti (f.src * 1024 + f.score) 0 (fieldNat w0 7 0)
        ((f.words.drop 1).take (fieldNat w0 11 8)) 0 with
    | some s => replyTo s f 0 []
    | none => nackFlit s f
  else performAccess s f

/-- A posted flit arrives: it is held behind a waiting flit of its source core, up to 32, or performed; one that stands
behind a flit answered NACK-WAIT waits for that one to be resent (R161, R314). -/
def arrivePosted (s : State) (f : Flit) : State :=
  let k := holdKey f
  let q := Tab.get s.fab.holdQ k []
  let ns := nackedOf s k
  if (frontOf s k).any (fun n => n.1 == f.reqid) = true then
    performPosted { s with fab := { s.fab with front := Tab.erase s.fab.front k } } f
  else if !ns.isEmpty && ns.head?.map (fun n => n.1) != some f.reqid then nackPosted s f
  else if postedWaits s k || !q.isEmpty || (frontOf s k).isSome then
    if q.length < 32 then
      let s := clearNack s f
      { s with fab := { s.fab with holdQ := Tab.set s.fab.holdQ k (q ++ [f]) } }
    else nackPosted s f
  else performPosted (clearNack s f) f

/-! ### The examination of waiters (R158, R314) -/

/-- The core and slot of the task that asks, for the status of a control-space write (R133). -/
def askerSlot (s : State) (k : Asker) : Nat × Nat :=
  let slot := fun (k : Nat) => match findTask s k with
    | some t => (t.core, t.slot?.getD 0)
    | none => (0, 0)
  match k with
  | .task k _ _ _ => slot k
  | .posted _ _ _ k => slot k
  | .remote _ => (0, 0)

/-- The waiter to perform next: a wait slot's condition is observed at every change, and so before the accesses that wait; of these
the oldest whose condition holds (R102, R158). -/
def nextWaiter (s : State) : Option Waiter :=
  match s.eng.waiters.find? fun w => w.op.passive && jobReady s w with
  | some w => some w
  | none => s.eng.waiters.find? (jobReady s)

/-- Perform the next waiter, or else release the oldest held flit that waits behind none. -/
def settleOne (s : State) : Option State :=
  match nextWaiter s with
  | some w =>
    let s := { s with eng := { s.eng with waiters := s.eng.waiters.filter fun x => x.id != w.id } }
    let (s, c, bs) := runJob s w (askerSlot s w.asker)
    some (answer s w c bs)
  | none =>
    match s.fab.holdQ.find? fun e => !e.2.isEmpty && !postedWaits s e.1 && (frontOf s e.1).isNone with
    | some (k, f :: fs) => some (performPosted { s with fab := { s.fab with holdQ := Tab.set s.fab.holdQ k fs } } f)
    | _ => none

/-- Examine until a full pass performs none. -/
def settleFuel : Nat → State → State
  | 0, s => s
  | n + 1, s =>
    match settleOne s with
    | none => s
    | some s => settleFuel n s

/-- The waiters are examined after a change; each leaves its list at most once, and a held flit may become a waiter. -/
def settle (s : State) : State :=
  settleFuel (2 * (s.eng.waiters.length + (s.fab.holdQ.map fun e => e.2.length).sum) + 1) s

end Sys2Proof.Machine
end

