-- ==== Sys2Proof/Machine/NetOps.lean ====
section
/-! DEFINITION. Nets: rules and pairs (R232 to R235), activity counts and completion (R82, R230, R231), bags, spill and
placement (R90 to R94, R236), and the crib (R239, R240). -/

namespace Sys2Proof.Machine

/-! ### Nodes, pairs and rules -/

/-- TYPE of a node header (Table 11.1). -/
def hdrType (h : Word) : Nat := fieldNat h 63 48
/-- AUX of a node header (Table 11.1). -/
def hdrAux (h : Word) : Nat := fieldNat h 47 40

/-- The bag entry of a pair (R235). -/
def bagEntry (pool offA offB : Nat) : Word := BitVec.ofNat 64 (pool * 2 ^ 54 + offB / 32 * 2 ^ 27 + offA / 32)
def entryPool (e : Word) : Nat := fieldNat e 63 54
/-- Offset of node A (R235). -/
def entryA (e : Word) : Nat := 32 * fieldNat e 26 0
/-- Offset of node B (R235). -/
def entryB (e : Word) : Nat := 32 * fieldNat e 53 27

/-- The hash of a key, types in order (R233). -/
def ruleHash (ta tb : Nat) : Nat := ((ta ^^^ (tb * 8)) ^^^ (tb / 512)) % 4096

/-- Word 1 of a key (R232). -/
def ruleKey (ta tb : Nat) : Nat := ta * 2 ^ 16 + tb

/-- The eight slots examined for a key (R233). -/
def ruleSlots (ta tb : Nat) : List Nat := (List.range 8).map fun i => (ruleHash ta tb + i) % 4096

/-- The first VALID entry that matches a key: its word 0 (R233). -/
def findRule (s : State) (t ta tb : Nat) : Option Word :=
  ((ruleSlots ta tb).find? fun i =>
    bitOf (ctlGet s (rtabOff t i false)) 63 && (ctlGet s (rtabOff t i true)).toNat == ruleKey ta tb).map
    fun i => ctlGet s (rtabOff t i false)

/-- The nodes of a pair in the dispatcher's order: node A has the lower type, or the lower offset (R233). -/
def orderPair (s : State) (base a b : Nat) : Nat × Nat :=
  let ta := hdrType (s.mem.read64 (base + a))
  let tb := hdrType (s.mem.read64 (base + b))
  if ta < tb ∨ (ta = tb ∧ a ≤ b) then (a, b) else (b, a)

/-- The rule of a bag entry of a tenant. -/
def entryRule (s : State) (tenant base : Nat) (e : Word) : Option Word :=
  let p := orderPair s base (entryA e) (entryB e)
  findRule s tenant (hdrType (s.mem.read64 (base + p.1))) (hdrType (s.mem.read64 (base + p.2)))

/-- PRIO of a rule (Table 11.5); 0 where the pair has none. -/
def rulePrio (r : Option Word) : Nat :=
  match r with
  | some w => fieldNat w 57 56
  | none => 0

/-! ### Activity (R82, R230, R231) -/

/-- The net descriptor that a pool's header names. -/
def netDesc (s : State) (base : Nat) : Option Nat :=
  let n := s.mem.read64 (base + 0x18)
  if n = 0 then none else some (localOf n)

/-- The launch that a pool's pairs belong to: the latest that names the pool. -/
def netLaunch (s : State) (tenant pool : Nat) : Option (Nat × Nat) :=
  (s.sched.launches.reverse.find? fun l => l.ti == tenant && l.pools.contains pool).map fun l => (l.ti, l.number)

/-- The pool's net belongs to a cancelled launch (R231). -/
def netCancelled (s : State) (tenant pool : Nat) : Bool :=
  s.sched.launches.any fun l => l.ti == tenant && l.nets.contains pool && l.cancelled

/-- A net completes: DONE goes to the completion word, whose home sends the NOTIFY message, and its launch counts it (R82,
R231). -/
def netComplete (s : State) (tenant pool nd : Nat) : State :=
  let cancelled := netCancelled s tenant pool
  let done := s.mem.read64 (nd + 24)
  let v := if cancelled then done ||| (1#64 <<< 63) else done
  let cw := localOf (s.mem.read64 nd)
  let nt := s.mem.read64 (nd + 8)
  let s := devWord s cw v
  let s := if bitOf nt 63 then
      sendMsg s 0 ((homeOf s cw).getD 0) 8 tenant (fieldNat nt 25 0) (fieldNat nt 33 26) [v] false
    else s
  { s with sched := { s.sched with launches := s.sched.launches.map fun l =>
      if l.ti = tenant then { l with nets := l.nets.filter (· != pool) } else l } }

/-- ACT rises by one: a pair of the net is pushed (R82). -/
def actRaise (s : State) (base : Nat) : State :=
  match netDesc s base with
  | none => s
  | some nd => devWord s (nd + 16) (s.mem.read64 (nd + 16) + 1)

/-- ACT of a pool's net falls by one, and DONE rises when a rule task ended; at zero the net completes (R82, R231). -/
def actLower (s : State) (tenant pool : Nat) (ended : Bool) : State :=
  match (poolBase s tenant pool).bind (netDesc s) with
  | none => s
  | some nd =>
    let act := s.mem.read64 (nd + 16) - 1
    let s := devWord s (nd + 16) act
    let s := if ended then devWord s (nd + 24) (s.mem.read64 (nd + 24) + 1) else s
    if act = 0 then netComplete s tenant pool nd else s

/-- The words a home changes as a net's activity changes: its descriptor and its completion word. -/
def netWords (s : State) (base : Nat) : List Nat :=
  match netDesc s base with
  | none => []
  | some nd => [nd, localOf (s.mem.read64 nd)]

/-! ### Bags and spill lists (R90, R235, R236) -/

def bagOf (s : State) (core : Nat) : List BagEntry := Tab.get s.sched.bags core []
def setBag (s : State) (core : Nat) (b : List BagEntry) : State :=
  { s with sched := { s.sched with bags := Tab.set s.sched.bags core b } }

def spillOf (s : State) (core tenant : Nat) : Spill := Tab.get s.sched.spills (coreTenant core tenant) ⟨0, 0⟩
def setSpill (s : State) (core tenant : Nat) (p : Spill) : State :=
  { s with sched := { s.sched with spills := Tab.set s.sched.spills (coreTenant core tenant) p } }

/-- The address of entry `n` of a spill list; none where the tenant has no spill region. -/
def spillAddr (s : State) (core tenant n : Nat) : Option Nat :=
  let b := localOf (tenantWord s tenant 4)
  if b = 0 then none else some (b + core * 0x8000 + 16 * (n % 2048))

/-- Append an entry to a spill list that has room (R236). -/
def spillPut (s : State) (core : Nat) (e : BagEntry) : State :=
  let p := spillOf s core e.tenant
  match spillAddr s core e.tenant p.head with
  | none => s
  | some a =>
    let s := devWrite s a (bytesOfWords [e.entry, BitVec.ofNat 64 (e.tenant + 2 ^ 8 * e.prio)]) (some true)
    setSpill s core e.tenant { p with head := p.head + 1 }

/-- Entries a tenant's spill list on a core has room for (R236). -/
def spillRoom (s : State) (core tenant : Nat) : Nat :=
  match spillAddr s core tenant 0 with
  | none => 0
  | some _ => let p := spillOf s core tenant
              2048 - (p.head - p.tail)

/-- BAG_SPILL: the entries of the tenant a push into a full bag moves out, oldest first: its 64 youngest, or all (R90). -/
def spillSet (b : List BagEntry) (tenant : Nat) : List BagEntry :=
  let mine := b.filter fun e => e.tenant == tenant
  mine.drop (mine.length - 64)

/-- Drop the youngest `n` entries of a tenant from a bag. -/
def dropYoungest (b : List BagEntry) (tenant n : Nat) : List BagEntry :=
  (b.reverse.foldl (fun (acc : Nat × List BagEntry) e =>
    if e.tenant = tenant ∧ 0 < acc.1 then (acc.1 - 1, acc.2) else (acc.1, e :: acc.2)) (n, [])).2

/-- Insert an entry at the young end of a bag; of entries that arrive in one cycle the lower source stands first (R123). -/
def bagInsert : List BagEntry → BagEntry → List BagEntry
  | [], e => [e]
  | x :: xs, e => if x.since == e.since && decide (e.src < x.src) then e :: x :: xs else x :: bagInsert xs e

/-- Push an entry into a core's bag; none when the bag is full and the tenant's spill list has no room (R90). -/
def bagPush (s : State) (core : Nat) (e : BagEntry) : Option State :=
  let b := bagOf s core
  if b.length < 256 then some (setBag s core (bagInsert b e))
  else
    let out := spillSet b e.tenant
    if out.isEmpty then
      if spillRoom s core e.tenant < 1 then none else some (spillPut s core e)
    else if spillRoom s core e.tenant < out.length then none
    else
      let s := out.foldl (fun s x => spillPut s core x) s
      some (setBag s core (bagInsert (dropYoungest b e.tenant out.length) e))

/-! ### Placement (R94) -/

/-- Cores of a cluster that are enabled. -/
def clusterCores (s : State) (cl : Nat) : List Nat :=
  ((List.range 16).map fun i => 16 * cl + i).filter (coreEnabled s)

/-- Summed depth of a cluster's bags. -/
def clusterDepth (s : State) (cl : Nat) : Nat := ((clusterCores s cl).map fun c => (bagOf s c).length).sum

/-- The least element by a measure, the first of equals. -/
def leastBy (f : Nat → Nat) : List Nat → Option Nat
  | [] => none
  | x :: xs => some (xs.foldl (fun b y => if f y < f b then y else b) x)

/-- The greatest element by a measure, the first of equals. -/
def mostBy (f : Nat → Nat) : List Nat → Option Nat
  | [] => none
  | x :: xs => some (xs.foldl (fun b y => if f b < f y then y else b) x)

/-- The bag a pair homed at a core goes to: its own, or one of the least filled cluster of the die (R94). -/
def placeCore (s : State) (home : Nat) : Nat :=
  let cl := clusterOf home
  if clusterDepth s cl ≤ Tab.get s.sched.divert cl 1024 then home
  else
    let cls := ((List.range 16).map fun i => 16 * dieOf home + i).filter fun c => !(clusterCores s c).isEmpty
    match (leastBy (clusterDepth s) cls).bind fun c => leastBy (fun x => (bagOf s x).length) (clusterCores s c) with
    | some c => c
    | none => home

/-- A committed push by a task, or by the start of a launch (R94, R241). The answer's flag says that the pair stayed unpushed
for want of spill room, which raises cause 0x0A (R90). -/
def pushPair (s : State) (who : Option Task) (tenant base : Nat) (launch : Nat) (e : Word) : State × Bool :=
  match homeOf s (base + entryA e) with
  | none =>
    (match who with
     | some t => reportFault s t.name ⟨0x11, 0, false, false, t.ctx.pc, e⟩
     | none => bareFault s tenant launch 0x11 e, false)
  | some h =>
    let c := placeCore s h
    let src := match who with
      | some t => sourceRank (t.core == c) t.core (t.slot?.getD 0)
      | none => 2048
    let be : BagEntry := ⟨e, tenant, rulePrio (entryRule s tenant base e), 0, none, s.time, src⟩
    match bagPush s c be with
    | none => (s, true)
    | some s => (observe (actRaise s base), false)

/-- Take one node of a pool: from FREEHD, or upward from HIGH; a node outside the pool is none (R228, R229, R239). A FREEHD or HIGH
that is no multiple of 32 names a node outside the pool (DESIGN CHOICE, log entry 59). -/
def takeNode (m : Mem) (base size : Nat) : Option (Nat × Mem) :=
  let hd := (m.read64 base).toNat
  if hd ≠ 0 then
    if hd < 0x40 ∨ size < hd + 32 ∨ hd % 32 ≠ 0 then none
    else
      some (hd, (m.write64 base (m.read64 (base + hd + 8))).write64 (base + 8) (m.read64 (base + 8) - 1))
  else
    let high := (m.read64 (base + 0x10)).toNat
    if high < 0x40 ∨ size < high + 32 ∨ high % 32 ≠ 0 then none
    else some (high, m.write64 (base + 0x10) (BitVec.ofNat 64 (high + 32)))

/-- Take up to `n` nodes, in the order taken; where one lies outside the pool, those taken before it stand (R228; DESIGN CHOICE, log
entry 59). -/
def takeNodes : Nat → Mem → Nat → Nat → List Nat × Mem
  | 0, m, _, _ => ([], m)
  | n + 1, m, base, size =>
    match takeNode m base size with
    | none => ([], m)
    | some (o, m) =>
      let r := takeNodes n m base size
      (o :: r.1, r.2)

/-- The refill job at the pool home: up to 64 nodes join the list, the first taken the newest (R239). -/
def cribRefill (s : State) (core tenant pool base size : Nat) : State :=
  let s := cribRoom s core tenant pool
  let (offs, m) := takeNodes 64 s.mem base size
  let s := jobDone (observe (publish (reach { s with mem := m } [base / 64]) 0 [base / 64]))
  let s := cribMap s core tenant pool fun l => { l with offs := offs ++ l.offs, last := s.time }
  cribTrim 16 s core

end Sys2Proof.Machine
end

