-- ==== Sys2Proof/Machine/LongAcc.lean ====
section
/-! DEFINITION. The long accumulator (R196, R197, Table 07.6): 640 bits in two's complement, bit i of weight 2^(i - 320). -/

namespace Sys2Proof.Machine

/-- NaR: word 9 is the sign bit alone, the other words zero (R196). -/
def laccNar : Nat := 2 ^ 639

/-- The accumulator at a canonical address. -/
def laccRead (m : Mem) (a : Nat) : Nat := natOfBytes (m.readBytes a 80)

/-- Write the accumulator; its words become full (R196). -/
def laccWrite (m : Mem) (a v : Nat) : Mem := ((m.writeBytes a (bytesOfNat 80 v)).clearPoison a 80).setTags a 80 true

/-- Add a multiple of 2^-320; NaR absorbs, and a magnitude of 2^319 is out of range (R196, R197). -/
def laccSum (old : Nat) (k : Int) : Nat × FlagSet :=
  let v := signedOf 640 old + k
  if (2 ^ 639 : Int) ≤ v ∨ v ≤ -(2 ^ 639 : Int) then (laccNar, .of) else (wrapTo 640 v, .none)

/-- Add an exact value to an accumulator; a NaN, an infinity or an invalid product sets NaR (R197). -/
def laccAddFv (old : Nat) (v : Option Fv) : Nat × FlagSet :=
  match v with
  | some (.fin s m e) => if old = laccNar then (old, .none) else laccSum old (alignTo (-320) s m e)
  | _ => (laccNar, .nv)

/-- Apply one held operation to memory, with the flags it raises (R197, R198). -/
def laccApply (m : Mem) (o : LaccEff) : Mem × FlagSet :=
  match o with
  | .clr a => (laccWrite m a 0, .none)
  | .add a x =>
    let r := laccAddFv (laccRead m a) (some (fpDecode .f32 x.toNat))
    (laccWrite m a r.1, r.2)
  | .addp a x y =>
    let r := laccAddFv (laccRead m a) (fvMul (fpDecode .f32 x.toNat) (fpDecode .f32 y.toNat))
    (laccWrite m a r.1, r.2)
  | .mrg a b =>
    let src := laccRead m b
    let old := laccRead m a
    let r := if src = laccNar then (laccNar, FlagSet.nv)
      else if old = laccNar then (old, FlagSet.none)
      else laccSum old (signedOf 640 src)
    (laccWrite m a r.1, r.2)

/-- A held operation reads a poisoned word, of which it gets no value (R166): the address. `lacc.clr` writes whole words and
reads none. -/
def laccPoison (m : Mem) (o : LaccEff) : Option Nat :=
  match o with
  | .clr _ => none
  | .add a _ => if m.anyPoison a 80 then some a else none
  | .addp a _ _ => if m.anyPoison a 80 then some a else none
  | .mrg a b => if m.anyPoison a 80 then some a else if m.anyPoison b 80 then some b else none

/-- Memory with the chunk's held stores and accumulator operations applied in program order (R198). -/
def laccView (m : Mem) (log : List Eff) : Mem :=
  log.foldl (fun m e =>
    match e with
    | .store a bs => m.writeBytes a bs
    | .lacc o => (laccApply m o).1
    | _ => m) m

/-- Read an accumulator rounded once to a format (R197). -/
def laccRound (f : Fmt) (v : Nat) : Nat × FlagSet :=
  if v = laccNar then (f.nanBits, .nv)
  else
    let k := signedOf 640 v
    fpRound f .rne (decide (k < 0)) k.natAbs (-320)

end Sys2Proof.Machine
end

