-- ==== Sys2Proof/Machine/Ops.lean ====
section
/-! DEFINITION. The operations every instruction shares: committing a chunk (R110 to R120, R151), ending a task (R428),
taking a trap and returning from one (R202 to R208), and the order in which an instruction meets its registers. -/

namespace Sys2Proof.Machine

/-! ### Commit -/

/-- What the thresher answers. -/
inductive Commit where
  /-- Granted: the writes are published and a new chunk begins. -/
  | done (s : State)
  /-- Refused: the chunk has aborted. -/
  | aborted (s : State)
  /-- Not yet: the baton, a serial chunk's line or a full counter is awaited. -/
  | waits (s : State)

/-- The state in which the thresher leaves the machine. -/
def Commit.state : Commit → State
  | .done s => s
  | .aborted s => s
  | .waits s => s

/-- A task holds the commit baton: every task spawned earlier with ord by the same parent has ended (R118). -/
def batonAt (s : State) (t : Task) : Bool :=
  match t.ord with
  | none => true
  | some (p, i) => !(allTasks s).any fun u => match u.ord with
    | some (q, j) => q == p && decide (j < i)
    | none => false

/-- The executing task holds the commit baton (R118). -/
def hasBaton (s : State) : Bool := batonAt s s.cur

/-- The posted class of a store to a canonical address from the executing task's core (R140). -/
def storeClass (s : State) (a : Nat) : WaitClass :=
  match homeOf s a with
  | some h => classTo s.cur.core h
  | none => .no

/-- A held store or tag write meets a sealed region: the commit is refused (R410). -/
def writesSealed (s : State) (log : List Eff) : Bool :=
  log.any fun e => match e with
    | .store a _ => regionSealed s a
    | .tag a _ => regionSealed s a
    | .free base _ off => regionSealed s (base + off)
    | _ => false

/-- The class a held effect is posted under: control space is homed at the management die, in no core's cluster (R140). -/
def effClass (s : State) (e : Eff) : WaitClass :=
  match e with
  | .store a _ => storeClass s a
  | .tag a _ => storeClass s a
  | .ctl _ _ => .die
  | _ => .no

/-- Some posted-store counter has no room for the chunk's stores (R140), or a message held at the core goes first (R87). -/
def countersBlock (s : State) (log : List Eff) : Bool :=
  ([WaitClass.near, WaitClass.die].any fun k =>
    decide (65535 < (countersOf s s.cur.core s.cur.tenant).out k + (log.filter fun e => effClass s e == k).length)) ||
  log.any fun e => match e with
    | .store a _ => (homeOf s a).any fun h => nearHeld s s.cur.core h
    | .tag a _ => (homeOf s a).any fun h => nearHeld s s.cur.core h
    | _ => false

/-- Other running chunks that the commit's writes meet. -/
def commitFoes (s : State) : List Task :=
  (allTasks s).filter fun u => u.key != s.cur.key &&
    meet s.cur.chunk.wlines (u.chunk.rlines ++ u.chunk.wlines)

/-- The number of the launch a task belongs to, or 0 (R305). -/
def launchNo (t : Task) : Nat :=
  match t.launch with
  | some l => l.2
  | none => 0

/-- A cause the committing task takes at its next chunk boundary. -/
def defer (s : State) (cause : Nat) (detail : Word) : State :=
  modCur s fun t => { t with deferred := t.deferred ++ [⟨cause, detail⟩] }

/-- Publish one held effect (R131, R140, R165, R198, R240, R241, R426, R430, R458). -/
def applyEff (s : State) (e : Eff) : State :=
  let t := s.cur
  match e with
  | .store a bs =>
    let k := storeClass s a
    let s := raiseCounter s t.core t.tenant k
    if poisonBlocks s.mem a bs.length then defer (siloAdd s 2223) 0x0C (globalOf s a)
    else { s with mem := (s.mem.writeBytes a bs).clearPoison a bs.length }
  | .tag a f =>
    let s := raiseCounter s t.core t.tenant (storeClass s a)
    if s.mem.poisoned a then defer (siloAdd s 2223) 0x0C (globalOf s a) else { s with mem := s.mem.setTag a f }
  | .ctl off bs => ctlWrite (raiseCounter s t.core t.tenant .die) t.core (t.slot?.getD 0) off bs
  | .lacc o =>
    match laccPoison s.mem o with
    | some a => defer s 0x0C (globalOf s a)
    | none =>
      let (m, fl) := laccApply s.mem o
      modCtx { s with mem := m } fun c => raiseFlags c fl
  | .push base _ entry =>
    let (s, full) := pushPair s (some t) t.tenant base (launchNo t) entry
    if full then defer s 0x0A 0 else s
  | .free base pool off =>
    let s := { s with mem := (s.mem.writeBytes (base + off) (List.replicate 32 0)).clearPoison (base + off) 32 }
    cribFree s t.core t.tenant pool off
  | .tgctl tag c => tgctlApply s t.tenant tag c

/-- The current message after a commit: its position is committed, and after `mdone` its buffer entry is released (R382). -/
def commitMsg (t : Task) : Task :=
  if t.ctx.msgDone then { t with msg := none, ctx := { t.ctx with msgPos := 0, msgDone := false } } else t

/-- The arbiter that commits a chunk, from the cluster's upward, and its core: the order of commits of one time base
(R119, R120). -/
def commitRank (s : State) : Nat × Nat :=
  (match scopeOf s s.cur.core (s.cur.chunk.rlines ++ s.cur.chunk.wlines) with
   | .cluster _ => 0
   | .die _ => 1
   | .package => 2, s.cur.core)

/-- A commit may be stamped with the running cycle: it follows every commit of the cycle in the order of R120, no home has
performed an access outside a chunk in the cycle (R152), and no message has met the handler table in it where the chunk
writes an entry (R123). Of two chunks of one core that would commit at one level, which R120 leaves without order, the second
takes a later stamp (DESIGN CHOICE, log entry 59). -/
def commitOpen (s : State) : Bool :=
  let o := s.sched.order
  let r := commitRank s
  o.job != some s.time &&
  (match o.commit with
   | none => true
   | some (t, l, c) => t != s.time || decide (l < r.1) || (l == r.1 && decide (c < r.2))) &&
  !(o.msg == some s.time && s.cur.chunk.log.any fun e => match e with
    | .tgctl _ _ => true
    | _ => false)

/-- Effects in the order in which a commit applies them: the priority of a pair is that of the headers as committed, and the
words of a freed node become zero at the commit, after the chunk's stores (R237, R241). -/
def commitOrder (log : List Eff) : List Eff :=
  let frees := log.filter fun e => match e with
    | .free _ _ _ => true
    | _ => false
  let pushes := log.filter fun e => match e with
    | .push _ _ _ => true
    | _ => false
  (log.filter fun e => !frees.contains e && !pushes.contains e) ++ pushes ++ frees

/-- CHUNK_COMMIT: the executing task's chunk commits as it stands, all its effects at one stamp, and a new chunk begins
(R110, R113, R115, R118, R120, R151, R152, R410). A running chunk that has read or written one of its lines aborts, unless it
is the older one or in serial mode. -/
def commitNow (s : State) : Commit :=
  let t := s.cur
  let foes := commitFoes s
  let waits := Commit.waits (modChunk s fun c => { c with due := true })
  if !hasBaton s || !commitOpen s then waits
  else if writesSealed s t.chunk.log then .aborted (abortChunk s)
  else if !t.chunk.serial && foes.any fun u => runsSerial s u && u.core != t.core then waits
  else if foes.any fun u => wins s u t then .aborted (abortChunk s)
  else if countersBlock s t.chunk.log then waits
  else
    let r := commitRank s
    let s := { s with sched := { s.sched with order := { s.sched.order with commit := some (s.time, r) } } }
    let s := onTasks (modChunk s fun c => { c with rlines := [], wlines := [] }) (foes.map (·.key)) abortChunk
    let s := (commitOrder t.chunk.log).foldl applyEff s
    let s := releaseTokens s t.key
    .done (settle (observe (modCur s fun t => (commitMsg t).newChunk s.time)))

/-! ### The end of a task (R428) -/

/-- A gang member has ended; a gang of ended members is gone (R97, R364). -/
def gangEnded (s : State) (t : Task) : State :=
  match t.gang with
  | none => s
  | some (g, pos) =>
    let gs := s.sched.gangs.map fun x =>
      if x.id = g then { x with members := x.members.map fun m => if m.pos = pos then { m with ended := true } else m } else x
    { s with sched := { s.sched with gangs := gs.filter fun x => x.members.any fun m => !m.ended } }

/-- One fault record for each deferred cause still pending when a task ends (R207). -/
def deferredRecords (s : State) (t : Task) : State :=
  t.deferred.foldl (fun s d => reportFault s t.name ⟨d.cause, 0, d.cause == 0x04, true, t.ctx.pc, d.detail⟩) s

/-- Remove instruction-cache lines in every core (R365). -/
def dropLines (s : State) (lo hi : Nat) : State :=
  { s with eng := { s.eng with icache := s.eng.icache.filter fun l => !(decide (lo ≤ l.line) && decide (l.line ≤ hi)) } }

/-- An access, a flit, a copy or a repartition of the task is open: what its fault record would say of it is kept (R148, R206). -/
def stillOpen (s : State) (k : Nat) : Bool :=
  (s.eng.waiters.any fun w => match w.asker with
    | .posted _ _ _ j => j == k
    | _ => false) ||
  (s.eng.gleaner.records.any fun r => r.task == k && decide (r.phase < 5)) ||
  (s.fab.outReqs.any fun r => r.task == k) || (s.eng.arrays.any fun e => e.2.parts.any fun p => p.key == k) ||
    s.eng.engines.any fun e => e.2.cmds.any fun c => c.task == k && c.state == .pending

/-- The executing task ends: its slot is freed, and its net, gang and waiters learn of it (R82, R205, R428). -/
def endTask (s : State) : State :=
  let t := s.cur
  let s := deferredRecords s t
  let s := if stillOpen s t.key then { s with sched := { s.sched with ended := t.name :: s.sched.ended } } else s
  let s := if t.started then saveState s t 0 else s
  let s := t.icinvs.foldl (fun s r => dropLines s r.2.1 r.2.2) s
  let s := releaseTokens { s with cur := Task.vacant t.core } t.key
  let s := gangEnded s t
  let s := dropDeficit s t.core t.tenant
  let s := if t.started then ctlChanged s (sealUseOff (t.handle.toNat % 4096)) else s
  match t.net with
  | none => settle s
  | some pool => settle (actLower s t.tenant pool true)

/-! ### Traps (R202 to R208) -/

/-- TVEC of the running task's image (R202, R271). -/
def tvec (s : State) (t : Task) : Word := tvecOf s t.handle

/-- Causes that Table 08.1 marks fatal. -/
def fatalCause (c : Nat) : Bool := c == 0x01 || c == 0x04 || c == 0x08 || c == 0x0B

/-- A trap of this cause ends the task: its cause is fatal, the image has no trap routine, or it is raised in trap mode
(R205). -/
def trapFatal (s : State) (cause : Nat) : Bool :=
  fatalCause cause || !bitOf (tvec s s.cur) 63 || s.cur.ctx.trapMode

/-- A fatal trap: the chunk aborts, a fault record is sent, and the task ends (R117, R205). -/
def fatalTrap (s : State) (cause user : Nat) (detail : Word) (deferred : Bool) : State :=
  let t := s.cur
  let i : FaultInfo := ⟨cause, user, true, deferred, t.ctx.pc, detail⟩
  let s := if t.chunk.fresh then s else abortChunk s
  endTask (reportFault s t.name i)

/-- TRAP_ENTRY: the registers at the first instruction of the trap routine (R203, R407); ln is written after the values in
flight to it (R72). -/
def trapCtx (s : State) (t : Task) (cause user : Nat) (next : Bool) : Ctx :=
  let c := (landLink t).ctx
  let resume := if next then c.pc + 4 else c.pc
  let c' := { c with
    trapCause := BitVec.ofNat 64 (cause + 2 ^ 8 * user)
    trapPc := c.pc
    trapIdx := BitVec.ofNat 64 (portIndex s t.name c.pc)
    tlink := getG c 1
    trapMode := true
    trapRep := c.rep
    trapRow := c.mstRow
    rep := none
    mstRow := 0
    pc := entryPc s t.handle (fieldNat (tvec s t) 39 0) }
  setG c' 1 (resume ||| 2)

/-- The routine begins, in a new chunk (R203). -/
def enterTrap (s : State) (cause user : Nat) (next : Bool) : State :=
  modCur s fun t => { landLink t with ctx := trapCtx s t cause user next, hold := none }.newChunk s.time

/-- Take a trap: the one operation that every cause of Table 08.1 goes through. `next` resumes after the instruction, as
`trap` and `brk` do; `deferred` delivers a deferred cause. A fatal trap ends the task; otherwise the chunk commits up to
the instruction and the routine begins in a new chunk (R117, R203, R205). -/
def takeTrap (s : State) (cause user : Nat) (detail : Word) (next deferred : Bool) : State :=
  if trapFatal s cause then fatalTrap s cause user detail deferred
  else if s.cur.chunk.fresh then enterTrap (releaseTokens s s.cur.key) cause user next
  else
    match commitNow s with
    | .done s => enterTrap s cause user next
    | .aborted s => s
    | .waits s => s

/-- A cause that a home answers to an access of the chunk: the chunk aborts and re-executes with each access answered before
the next instruction; then, and in serial mode, where no abort is allowed, the trap is taken at the access (R115, R457). -/
def homeCause (s : State) (cause : Nat) (detail : Word) : State :=
  if s.cur.chunk.stepwise || s.cur.chunk.serial then takeTrap s cause 0 detail false false
  else modChunk (abortChunk s) fun c => { c with stepwise := true }

/-- A precise trap that resumes at the instruction, as an outcome. -/
def trap (s : State) (cause : Nat) (detail : Word) : Out := .next (takeTrap s cause 0 detail false false)

/-- TRAP_RETURN: the registers after a `jalr` to `target` in trap mode, whose link goes to `d` (R204, R367, R407). -/
def trapReturnCtx (c : Ctx) (d : Reg) (target : Word) : Ctx :=
  let c' := setG c d (c.pc + 4)
  setG { c' with trapMode := false, pc := target - 2, rep := c.trapRep, mstRow := c.trapRow } 1 c.tlink

/-! ### The order of an instruction -/

/-- Registers first: stall, cause 0x05, or go on (R72, R207). -/
def gate (s : State) (n : Needs) (k : Out) : Out :=
  match readiness s.cur n with
  | .stall => .next s
  | .empty5 => trap s 0x05 0
  | .ready => k

/-- The chunk so far commits, as a step of its own, before an operation that stands alone (R111), and one in serial mode gives
its tokens back (R115); an ord task's operation waits for the baton (R118). -/
def alone (s : State) (k : Out) : Out :=
  if !s.cur.chunk.fresh || s.cur.chunk.serial then .next (commitNow s).state
  else if !hasBaton s then .next s
  else k

/-- End an instruction by writing one general register inside the chunk; dep must have room (R70). -/
def finishG (s : State) (t : Task) (d : Reg) (v : Word) : Out :=
  if destRoom s.cur d then .next (retire s { t with ctx := setG t.ctx d v }) else trap s 0x02 0

/-- End an operation that stands alone by writing one general register. -/
def finishAloneG (s : State) (t : Task) (d : Reg) (v : Word) : Out :=
  .next (retireAlone s { t with ctx := setG t.ctx d v })

/-- An instruction of two general sources and one destination. -/
def opGG (s : State) (d a b : Reg) (f : Word → Word → Word) : Out :=
  gate s (.g [a, b] [d]) <|
    let (x, t) := takeG s.cur a
    let (y, t) := takeG t b
    finishG s t d (f x y)

/-- An instruction of one general source and one destination. -/
def opG (s : State) (d a : Reg) (f : Word → Word) : Out :=
  gate s (.g [a] [d]) <|
    let (x, t) := takeG s.cur a
    finishG s t d (f x)

/-- A limit of R110 is met before the instruction. The first chunk of a rule task aborts instead and re-executes in serial
mode; in serial mode it raises cause 0x0B (R116). -/
def chunkLimit (s : State) : State :=
  let t := s.cur
  if t.kind == .rule && t.chunk.first then
    if t.chunk.serial && t.chunk.limited then takeTrap (abortChunk s) 0x0B 0 t.origin false false
    else
      modChunk (abortChunk s) fun c => { c with serial := true, limited := true, want := serialWant { c with serial := true } t.core }
  else (commitNow s).state

/-- Enter lines in the signatures and go on, or commit, abort or wait (R110, R113, R115). -/
def withLines (s : State) (rs ws : List Nat) (k : State → Out) : Out :=
  match touch s rs ws with
  | .entered s => k s
  | .aborted s => .next s
  | .limit => .next (chunkLimit s)
  | .token s => .next s

end Sys2Proof.Machine
end

