-- ==== Sys2Proof/Machine/Access.lean ====
section
/-! DEFINITION. Loads, stores, atomics and tag accesses of a thread slot, written once for every instruction that makes
them (R126, R131, R136, R139 to R141, R150 to R160, R342, R376, R423, R457). -/

namespace Sys2Proof.Machine

/-! ### What every access shares -/

/-- The registers an instruction has read, over a state whose chunk has moved on. -/
def rebase (s : State) (t : Task) : Task := { s.cur with ctx := t.ctx }

/-- A trap on an access, with its address as DETAIL. -/
def accessTrap (s : State) (c : Nat) (a : Word) : Out := trap s c a

/-- The trap on a store that the own scratchpad discards for its poisoned word; the event is counted as it is taken (R165). -/
def discardTrap (s : State) (a : Word) : Out :=
  let s' := takeTrap s 0x0C 0 a false false
  let taken := s'.cur.key != s.cur.key || (s'.cur.ctx.trapMode && !s.cur.ctx.trapMode)
  .next (if taken then siloAdd s' 2223 else s')

/-- The checks of Table 05.2, then the rest; an access that finds BUSY = 1 waits before steps 4 to 7 (R126, R135). -/
def checked (s : State) (a : Word) (acc : Access) (k : Out) : Out :=
  if waitsBusy s a acc then .next s
  else
    match checkAccess s s.cur.tenant s.cur.trusted a acc with
    | some c => accessTrap s c a
    | none => k

/-- The accesses of one instruction in order: the first that waits or is refused decides, else the instruction goes on
(R135, R209). -/
def unlessStop (s : State) (st : Option (Option Nat × Word)) (k : Out) : Out :=
  match st with
  | some (none, _) => .next s
  | some (some c, a) => accessTrap s c a
  | none => k

/-- Cause 0x13 for a class of stores that has failed: its count is cleared as the trap is taken (R141). -/
def failTrap (s : State) (w : WaitClass) (a : Word) : Out :=
  let t := trap (setCounters s s.cur.core s.cur.tenant ((countersOf s s.cur.core s.cur.tenant).mapFails w fun _ => 0)) 0x13 a
  if trapFatal s 0x13 then t else alone s t

/-- A store of a tenant waits in its core's own slice, where no counter counts it (R140, R424). -/
def sliceStoreWaits (s : State) (core tenant : Nat) : Bool :=
  s.eng.waiters.any fun w =>
    match w.asker with
    | .posted c t cls _ => cls == .no && c == core && t == tenant
    | _ => false

/-- `wait=` of `lx` and `sx`, and `cwait`: wait until the class's counter reads zero, and in class near until no store waits in
the core's own slice (R424; DEDUCED, log entry 71); a failure count is cleared and raises cause 0x13 (R141). -/
def awaitClass (s : State) (w : WaitClass) (a : Word) (k : Out) : Out :=
  let c := countersOf s s.cur.core s.cur.tenant
  if w = .no then k
  else if c.out w ≠ 0 ∨ (w = .near ∧ sliceStoreWaits s s.cur.core s.cur.tenant = true) then .next s
  else if c.fails w ≠ 0 then failTrap s w a
  else k

/-- A store of a task waits in its core's own slice, where no counter counts it (R140, R424). -/
def ownStoreWaits (s : State) (key : Nat) : Bool :=
  s.eng.waiters.any fun w =>
    match w.asker with
    | .posted _ _ c k => c == .no && k == key
    | _ => false

/-- Every earlier access of the slot has been performed (R139). -/
def allPerformed (s : State) : Bool :=
  let c := countersOf s s.cur.core s.cur.tenant
  c.near == 0 && c.die == 0 && c.far == 0 && s.cur.inflight.isEmpty && !ownStoreWaits s s.cur.key

/-- ORD of an access outside a chunk: a release waits for every earlier access (R139, R155). -/
def ordered (s : State) (ord : Nat) (k : Out) : Out := if decide (2 ≤ ord) && !allPerformed s then .next s else k

/-- A value reaches its destination now, or later, with the destination's tag empty until then (R71). -/
def deliverAt (late : Bool) (s : State) (t : Task) (d : Dest) (v : VWord) : State :=
  if late && d != .drop then
    retire s { t with ctx := tagDest t.ctx d false, inflight := t.inflight ++ [⟨d, v, false⟩] }
  else retire s { t with ctx := writeDest t.ctx d v }

/-- A load's value reaches its destination: now, or later where the turn says so (R71). -/
def deliver (s : State) (t : Task) (d : Dest) (v : VWord) : State := deliverAt s.late s t d v

/-- The executing task holds its slot, and the tag of its destination is empty until the answer (R71, R457). -/
def holdFor (s : State) (d : Dest) (h : Hold) : State :=
  modCur s fun t => { t with hold := some h, ctx := tagDest t.ctx d false }

/-- The home has answered: the slot holds no longer, and the tag marks the destination no longer (R457). -/
def unhold (s : State) (d : Dest) : State := modCur s fun t => { t with hold := none, ctx := tagDest t.ctx d true }

/-- An access that held its slot ends with what its home answered (R457). -/
def finishHeld (s : State) (t : Task) (d : Dest) (cause : Option Nat) (v : VWord) (a : Word) : Out :=
  match cause with
  | some c => accessTrap (unhold s d) c a
  | none => .next (retireAlone s { t with hold := none, ctx := tagDest (writeDest t.ctx d v) d true })

/-- The access lies in the core's own scratchpad. -/
def ownScratch (s : State) (a : Nat) : Bool :=
  match placeOf s a with
  | .window _ c _ => c == s.cur.core
  | _ => false

/-- A cause met by a package-local access of the chunk: in the own scratchpad it is taken at issue, elsewhere the home answers
it (R131, R457). -/
def placeCause (s : State) (c : Nat) (a : Word) : Out :=
  if ownScratch s (localOf a) then accessTrap s c a else .next (homeCause s c a)

/-- An access that holds its slot goes on when it has been answered, and waits until then (R105, R457). -/
def held (s : State) (t : Task) (d : Dest) (a : Word) (k : Out) : Out :=
  match s.cur.hold with
  | some (.answer cause v _) => finishHeld s t d cause v a
  | some _ => .next s
  | none => k

/-- The destination of a load: g0 and g28 discard the value after the access (R69, R375). -/
def destOf (d : Reg) : Dest := if d = 0 then .drop else if d = 28 then .drop else .g d

/-- An access made alone at a home of this package: performed at once where it can be, else it waits there with its slot
held (R136, R158, R457). -/
def homeAlone (s : State) (t : Task) (op : HomeOp) (d : Dest) (signed : Bool) (a : Word) : Out :=
  let w : Waiter := ⟨s.nextKey, s.cur.tenant, s.cur.trusted, localOf a, op, .task s.cur.key d op.size signed, s.time⟩
  if jobReady s w then
    match runJob s w (s.cur.core, s.cur.slot?.getD 0) with
    | (_, some c, _) => accessTrap s c a
    | (s1, none, bs) =>
      .next (settle (retireAlone s1 { rebase s1 t with ctx := writeDest t.ctx d (destValue d op.size signed bs) }))
  else
    .next (bumpKey { holdFor s d (.home w.id) with
      eng := { s.eng with waiters := s.eng.waiters ++ [w] } })

/-! ### Requests to another package (R294) -/

/-- The size code of Table 15.2. -/
def sizeCode (n : Nat) : Nat := if n = 64 then 5 else n.log2

def loadModeNum : LoadMode → Nat
  | .pl => 0
  | .wf => 1
  | .wfe => 2
  | .rdn => 3

def storeModeNum : StoreMode → Nat
  | .pl => 0
  | .we => 1
  | .sf => 2
  | .se => 3

/-- The core a request names: the target routes by its own home map, so the address decides (R124). -/
def dcoreOf (a : Word) : Nat := match rawWindow (localOf a) with
  | some _ => (localOf a - 0x2000000000) % 0x20000000 / 0x80000
  | none => 0

/-- A request leaves, and the slot is held until the reply (R294, R457). -/
def requestSent (s : State) (op : Nat) (a : Word) (words : List Word) (d : Dest) (size : Nat) (signed : Bool) : State :=
  let id := freeReqid s s.cur.core
  let s := sendTracked s s.cur.key s.cur.core s.cur.tenant (pkgOf a) 0 (dcoreOf a) op (a :: words)
    (some (s.cur.key, d, size, signed)) false
  holdFor s d (.reply id)

/-- Send a request, once its core has fewer than 256 outstanding (R294). -/
def sendRequest (s : State) (op : Nat) (a : Word) (words : List Word) (d : Dest) (size : Nat) (signed : Bool) : Out :=
  .next (if 256 ≤ requestsOut s s.cur.core then s else requestSent s op a words d size signed)

/-- Send a posted flit, counted as far (R140). -/
def sendPosted (s : State) (op : Nat) (a : Word) (words : List Word) : State :=
  let s := sendTracked s s.cur.key s.cur.core s.cur.tenant (pkgOf a) 2 (dcoreOf a) op (a :: words) none true
  raiseCounter s s.cur.core s.cur.tenant .far

/-- Every word that `n` bytes from `a` touch is full in a copy of its line (R18). -/
def FarCopy.full (f : FarCopy) (a n : Nat) : Bool := (wordsAt a n).all fun w => f.tags.getD ((w - f.addr) / 8) false

/-- The L1's copy of `n` bytes of another package, held for the tenant; one in which a word of them is empty serves no plain load,
which goes to the home (R18, R160, Table 05.6). -/
def farCopy (s : State) (a : Word) (n : Nat) : Option (List Byte) :=
  (s.eng.farCopies.find? fun f => f.core == s.cur.core && f.tenant == s.cur.tenant && decide (f.addr ≤ a.toNat) &&
    decide (a.toNat + n ≤ f.addr + f.bytes.length) && f.full a.toNat n).map fun f => (f.bytes.drop (a.toNat - f.addr)).take n

/-! ### Loads (R136, R376 to R378, R444) -/

/-- What a load asks for. -/
structure LoadReq where
  mode   : LoadMode
  cls    : WaitClass
  size   : Nat
  signed : Bool
  dest   : Dest
  addr   : Word
  ord    : Nat
  scope  : Nat
  deriving DecidableEq, Repr

/-- The load as Table 05.2 judges it: 16 and 64 bytes are refused in control space, 16 through W1 to W7 (R128, R458). -/
def LoadReq.access (r : LoadReq) : Access := ⟨false, r.size, r.size, r.size == 16, decide (16 ≤ r.size), false⟩

/-- A package-local load inside the chunk: its value is that of memory under the chunk's own stores (R131, R378). -/
def chunkLoad (s : State) (t : Task) (r : LoadReq) : Out :=
  let a := localOf r.addr
  let ls := if regionSealed s a then [] else accessLines s a r.size
  withLines s ls [] fun s =>
    if accessPoison (chunkPoison s) a r.size then placeCause s 0x0C r.addr
    else
      let s := reach s (accessLines s a r.size)
      let bs := placeRead s (chunkBytes s) (chunkCtl s) a r.size
      .next (deliver s (rebase s t) r.dest (destValue r.dest r.size r.signed bs))

/-- Every word a load reads is full, as its chunk sees the tags. -/
def loadFull (s : State) (a n : Nat) : Bool :=
  !syncPlace (placeOf s a) || (wordsAt (canon s a) n).all (chunkTag s)

/-- The dep port has room for a load into g29 (R70). -/
def loadRoom (t : Task) (d : Dest) : Bool := d != .g 29 || depRoom t 1

/-- A load, from its checks on. `t` holds the registers after the operands were read. -/
def load (s : State) (t : Task) (r : LoadReq) : Out :=
  let a := localOf r.addr
  checked s r.addr r.access <|
  awaitClass s r.cls r.addr <|
  if !loadRoom s.cur r.dest then trap s 0x02 0
  else if !isLocal s r.addr then
    ordered s r.ord <|
    match (if r.mode == .pl && !(decide (r.ord % 2 = 1) && decide (r.scope = 3)) then farCopy s r.addr r.size else none) with
    | some bs => .next (retireAlone s { t with ctx := writeDest t.ctx r.dest (destValue r.dest r.size r.signed bs) })
    | none =>
      sendRequest s 0 r.addr
        [BitVec.ofNat 64 (sizeCode r.size + 2 ^ 3 * loadModeNum r.mode + 2 ^ 8 * r.ord + 2 ^ 10 * r.scope)] r.dest r.size r.signed
  else if r.mode == .wf || r.mode == .wfe then
    ordered s r.ord <| homeAlone s t (.load r.mode r.size) r.dest r.signed r.addr
  else if r.mode == .pl && !loadFull s a r.size then
    alone s <| ordered s r.ord <| homeAlone s t (.load .pl r.size) r.dest r.signed r.addr
  else chunkLoad s t r

/-- A load that its encoding or its address makes irrevocable ends the chunk before it (R111, R376). -/
def startLoad (s : State) (t : Task) (r : LoadReq) : Out :=
  held s t r.dest r.addr <|
  if r.mode == .wf || r.mode == .wfe || !isLocal s r.addr then alone s (load s t r) else load s t r

/-! ### Stores (R136, R165, R423, R424) -/

/-- What a store asks for. -/
structure StoreReq where
  mode : StoreMode
  cls  : WaitClass
  addr : Word
  data : List Byte
  ord  : Nat
  scope : Nat
  deriving DecidableEq, Repr

def StoreReq.access (r : StoreReq) : Access :=
  ⟨true, r.data.length, r.data.length, false, decide (16 ≤ r.data.length), false⟩

/-- A package-local store in mode pl: held with the chunk (R131, R423). A sub-word store over a poisoned word of the own
scratchpad is found at issue (R131, R165). -/
def chunkStore (s : State) (t : Task) (addr : Word) (bs : List Byte) : Out :=
  let a := localOf addr
  match placeOf s a with
  | .control off =>
    withLines s [] (linesOf a bs.length) fun s => .next (retire s ((rebase s t).hold' (.ctl off bs)))
  | _ =>
    let r := placeWrite s a bs
    withLines s [] (linesOf r.1 r.2.length) fun s =>
      if ownScratch s a && poisonBlocks (chunkPoison s).mem r.1 r.2.length then discardTrap s addr
      else .next (retire s ((rebase s t).hold' (.store r.1 r.2)))

/-- After a store with acquire, no later access is performed before it (R139). -/
def acquireHold (ord : Nat) (k : WaitClass) : Option Hold := if ord % 2 = 1 then some (.performed k) else none

/-- The class of a store to a local address: control space is homed at the management die, in no core's cluster (R140). -/
def homeClass (s : State) (a : Nat) : WaitClass :=
  match placeOf s a with
  | .control _ => .die
  | _ => storeClass s (canon s a)

/-- A store in mode we, sf or se at a home of this package (R424): posted, or in program order in the own scratchpad. -/
def homeStore (s : State) (t : Task) (r : StoreReq) : Out :=
  let a := localOf r.addr
  if ownScratch s a then homeAlone s t (.store r.mode r.data) .drop false r.addr
  else
    let k := homeClass s a
    let w : Waiter := ⟨s.nextKey, s.cur.tenant, s.cur.trusted, a, .store r.mode r.data,
      .posted s.cur.core s.cur.tenant k s.cur.key, s.time⟩
    if counterFull s s.cur.core s.cur.tenant k || ((homeOf s (canon s a)).any fun h => nearHeld s s.cur.core h) then .next s
    else
      let s := raiseCounter s s.cur.core s.cur.tenant k
      let go := fun (s : State) => retireAlone s { rebase s t with hold := acquireHold r.ord k }
      if jobReady s w then
        let (s, c, bs) := runJob s w (s.cur.core, s.cur.slot?.getD 0)
        .next (settle (go (answer s w c bs)))
      else .next (go (bumpKey { s with eng := { s.eng with waiters := s.eng.waiters ++ [w] } }))

/-- A store, from its checks on. -/
def store (s : State) (t : Task) (r : StoreReq) : Out :=
  checked s r.addr r.access <|
  awaitClass s r.cls r.addr <|
  if !isLocal s r.addr then
    ordered s r.ord <|
    if counterFull s s.cur.core s.cur.tenant .far || farHeld s s.cur.core (pkgOf r.addr) then .next s
    else
      let s := sendPosted s 1 r.addr
        (BitVec.ofNat 64 (sizeCode r.data.length + 2 ^ 3 * storeModeNum r.mode + 2 ^ 8 * r.ord + 2 ^ 10 * r.scope) ::
          replyWords r.data)
      .next (retireAlone s { rebase s t with hold := acquireHold r.ord .far })
  else if r.mode == .pl then chunkStore s t r.addr r.data
  else ordered s r.ord <| homeStore s t r

/-- A store whose mode or address makes it irrevocable ends the chunk before it (R111, R423). -/
def startStore (s : State) (t : Task) (r : StoreReq) : Out :=
  held s t .drop r.addr <|
  if r.mode != .pl || !isLocal s r.addr then alone s (store s t r) else store s t r

/-! ### Atomics (R342, R343) -/

/-- An atomic, standing alone: its checks, and one job at the home or an OP 2 request. -/
def atomicAccess (s : State) (t : Task) (op : AmoOp) (n : Nat) (d : Reg) (a v e : Word) : Out :=
  held s t (destOf d) a <|
  checked s a ⟨true, n, n, true, true, false⟩ <|
  if !destRoom s.cur d then trap s 0x02 0
  else if !isLocal s a then
    sendRequest s 2 a [BitVec.ofNat 64 (sizeCode n + 2 ^ 5 * (match op with
      | .add => 0
      | .and => 1
      | .or => 2
      | .xor => 3
      | .min => 4
      | .minu => 5
      | .max => 6
      | .maxu => 7
      | .swap => 8
      | .cas => 9)), v, e] (destOf d) n true
  else homeAlone s t (.amo op n v e) (destOf d) true a

/-! ### Tags (R425, R426) -/

/-- `tagr`: TAG of the word at `a` to a register. -/
def tagRead (s : State) (t : Task) (d : Reg) (a : Word) : Out :=
  held s t (destOf d) a <|
  checked s a ⟨false, 8, 8, true, false, false⟩ <|
  if !destRoom s.cur d then trap s 0x02 0
  else if !isLocal s a then sendRequest s 3 a [] (destOf d) 8 false
  else
    let l := localOf a
    let ls := if regionSealed s l then [] else accessLines s l 8
    withLines s ls [] fun s =>
      let tag := match placeOf s l with
        | .control _ => true
        | _ => chunkTag s (canon s l)
      .next (retire s { rebase s t with ctx := setG t.ctx d (if tag then 1 else 0) })

/-- `tagw`: TAG of the word at `a` becomes bit 0 of a register. -/
def tagStore (s : State) (t : Task) (a : Word) (f : Bool) : Out :=
  checked s a ⟨true, 8, 8, true, true, false⟩ <|
  if !isLocal s a then
    if counterFull s s.cur.core s.cur.tenant .far || farHeld s s.cur.core (pkgOf a) then .next s
    else
      let s := sendPosted s 4 a [if f then 1 else 0]
      .next (retireAlone s (rebase s t))
  else
    let c := canon s (localOf a)
    withLines s [] (linesOf c 8) fun s =>
      if ownScratch s (localOf a) && (chunkPoison s).mem.poisoned c then discardTrap s a
      else .next (retire s ((rebase s t).hold' (.tag c f)))

end Sys2Proof.Machine
end

