-- ==== Sys2Proof/Machine/Tasking.lean ====
section
/-! DEFINITION. The TASK instructions: chunks and ends (R350, R427 to R429), spawns and gangs (R95, R363, R364, R418 to R421),
messages (R381, R388 to R390, R430), waits and sleeps (R102 to R104, R415, R416, R452 to R454), status (R361, R362) and
repetition (R73, R406), with the steps that end a wait. -/

namespace Sys2Proof.Machine

/-! ### `cmt`, `yield`, `tend`, and the commit as a step -/

/-- The executing task with its instruction counted and passed: the chunk's last instruction. -/
def passed (s : State) : State := modCur s Task.retire

/-- `cmt`: the chunk commits with it as its last instruction (R350). -/
def execCmt (s : State) : Out := .next (commitNow (passed s)).state

/-- CHUNK_COMMIT: a chunk that has ended is granted its commit (R151). -/
def execChunkCommit (s : State) : Out := if s.cur.chunk.due then .next (commitNow s).state else .next s

/-- CHUNK_INSTRUCTION_LIMIT: 512 instructions have executed (R110, R116). -/
def execChunkInstructionLimit (s : State) : Out := if 512 ≤ s.cur.chunk.instrs then .next (chunkLimit s) else .next s

/-- The slot of a yielding task is freed; the task stands in its core's run queue (R89, R216). -/
def leaveSlot (s : State) : State :=
  let s := drainInflight s
  let s := saveTask s s.cur 1 none
  settle (modCur s fun t => { t with status := .yielded })

/-- `yield` (R89, R429). -/
def execYield (s : State) : Out :=
  match commitNow (passed s) with
  | .waits _ => .next s
  | .aborted s => .next s
  | .done s1 =>
    if s.cur.gang.isSome || s.cur.inline.isSome || queueFull s1 s.cur.core then .next s1
    else
      let s2 := leaveSlot s1
      .next (dropDeficit s2 s2.cur.core s2.cur.tenant)

/-- The parent's state returns to the slot at its inline child's end: the child's sticky flags are merged, and the trap
state, which the slot never set aside, stands as the child left it (R420). -/
def parentCtx (i : Inline) (c : Ctx) : Ctx :=
  setG { i.ctx with flags := i.ctx.flags ||| c.flags, trapCause := c.trapCause, trapPc := c.trapPc, trapIdx := c.trapIdx
                    tlink := c.tlink, trapMode := c.trapMode, trapRep := c.trapRep, trapRow := c.trapRow } i.d 1

/-- A part of a task stands in a row's matrix operation, whose tile belongs to the task as it runs now. -/
def arrayPart (s : State) (key : Nat) : Bool := s.eng.arrays.any fun e => e.2.parts.any fun p => p.key == key

/-- `tend` (R428). -/
def execTend (s : State) : Out :=
  alone s <|
    match s.cur.inline with
    | none => .next (endTask s)
    | some i =>
      if arrayPart s s.cur.key then .next s
      else
      let s := match saveRec s s.cur.tenant s.cur.core i.number with
        | none => s
        | some b => settle (devWord s (b + 0xA20) 0)
      .next (modCur s fun t =>
        { t with ctx := parentCtx i t.ctx, waits := i.waits, msg := i.msg, inline := none
                 inflight := [] }.newChunk s.time)

/-! ### `spawn` (R418 to R421) -/

/-- The length of the native text of a task's image (TLEN, R271). -/
def textLength (s : State) (t : Task) : Nat := fieldNat (ctlGet s (imgrecOff (t.handle.toNat % 4096) 1)) 39 0

/-- OWNER of a spawned task: the parent's net or launch number, no pool (Table 04.2). -/
def childOwner (t : Task) : Word := t.owner &&& ~~~0x3FF#64

/-- A child of the executing task on a core (R84, R419). -/
def childBirth (s : State) (core : Nat) (e : Word) (ord : Option (Nat × Nat)) : Birth where
  kind := .spawn
  core := core
  tenant := s.cur.tenant
  prio := s.cur.prio
  handle := s.cur.handle
  trusted := s.cur.trusted
  winnower := s.cur.winnower
  entry := e.toNat
  pb := getG s.cur.ctx 4
  args := [getG s.cur.ctx 10, getG s.cur.ctx 11, getG s.cur.ctx 12, getG s.cur.ctx 13]
  origin := s.cur.taskId
  owner := childOwner s.cur
  msg := none
  launch := s.cur.launch
  rooted := s.cur.rooted
  net := none
  ord := ord
  imgd := none
  src := sourceRank (core == s.cur.core) s.cur.core (s.cur.slot?.getD 0)

/-- The child's registers when it runs in its parent's slot: those of R84 with the parent's block; the slot's trap state
stays (R420). -/
def inlineCtx (s : State) (t : Task) (e : Word) : Ctx :=
  let c := t.ctx
  let a := entryCtx (entryPc s t.handle e.toNat) (getG c 3) (getG c 4) [getG c 10, getG c 11, getG c 12, getG c 13]
  let block := globalOf s (localOf (tenantWord s t.tenant 2) + (72 * t.core + t.number) * 128)
  setG { a with trapCause := c.trapCause, trapPc := c.trapPc, trapIdx := c.trapIdx, tlink := c.tlink
                trapMode := c.trapMode, trapRep := c.trapRep, trapRow := c.trapRow } 3 block

/-- Run a child inline: the slot sets the parent's state aside, continuing after the `spawn` (R420). -/
def runInline (s : State) (t : Task) (d : Reg) (e : Word) (number : Nat) : State :=
  let i : Inline := ⟨advance t.ctx, t.waits, d, number, t.msg⟩
  modCur s fun u =>
    { u with ctx := inlineCtx s t e, waits := Vector.replicate 4 ⟨none, 0, 0, false, false, none⟩, msg := none
             inline := some i }.newChunk s.time

/-- The child enters a core's run queue; an ord child takes its place among the parent's (R118, R419). -/
def spawnTo (s : State) (core : Nat) (e : Word) (ord : Bool) : State :=
  let s1 := enqueue s (childBirth s core e (if ord then some (s.cur.key, s.cur.ordNext) else none))
  if ord then modCur s1 fun t => { t with ordNext := t.ordNext + 1 } else s1

/-- `spawn` and `spawn.ord`. -/
def spawnOne (s : State) (ord : Bool) (d t e : Reg) : Out :=
  gate s (.g [t, e, 4, 10, 11, 12, 13] [d]) <|
  alone s <|
    let (x, u) := takeG s.cur t
    let (y, u) := takeG u e
    if y.toNat % 4 ≠ 0 ∨ textLength s s.cur ≤ y.toNat then trap s 0x02 0
    else if 1023 < x.toNat ∨ !coreEnabled s x.toNat then trap s 0x02 0
    else if !destRoom s.cur d then trap s 0x02 0
    else if !queueFull s x.toNat then
      let s1 := spawnTo s x.toNat y ord
      finishAloneG s1 { rebase s1 u with hold := none } d 0
    else
      match (if s.cur.inline.isSome || s.cur.hold = some .room then none else freeNumber s s.cur.core s.cur.tenant) with
      | none => .next { s with cur := { s.cur with hold := some .room } }
      | some k => if s.cur.inflight.isEmpty && !arrayPart s s.cur.key then .next (runInline s u d y k) else .next s

/-- `spawn`. -/
def execSpawn (d t e : Reg) (s : State) : Out := spawnOne s false d t e
/-- `spawn.ord`. -/
def execSpawnOrd (d t e : Reg) (s : State) : Out := spawnOne s true d t e

/-- The gang queue of a cluster holds 32 requests (R95). -/
def gangQueue (s : State) (cl : Nat) : List GangReq := Tab.get s.sched.gangQ cl []

/-- The cluster that holds a gang's target. -/
def gangCluster (cl : Bool) (target : Nat) : Nat := if cl then target else target / 2

/-- A request enters its cluster's queue; of those of one cycle the lower source stands first (R123). -/
def gangInsert : List GangReq → GangReq → List GangReq
  | [], e => [e]
  | x :: xs, e => if x.since == e.since && decide (e.src < x.src) then e :: x :: xs else x :: gangInsert xs e

/-- A gang request of the executing task for a row or a cluster. -/
def gangReq (s : State) (cl : Bool) (target : Nat) (e : Word) : GangReq where
  id := s.nextKey
  tenant := s.cur.tenant
  cl := cl
  target := target
  entry := e
  args := [getG s.cur.ctx 10, getG s.cur.ctx 11, getG s.cur.ctx 12, getG s.cur.ctx 13]
  since := s.time
  src := sourceRank (gangCluster cl target == clusterOf s.cur.core) s.cur.core (s.cur.slot?.getD 0)
  prio := s.cur.prio
  handle := s.cur.handle
  trusted := s.cur.trusted
  winnower := s.cur.winnower
  launch := s.cur.launch
  rooted := s.cur.rooted
  origin := s.cur.taskId
  owner := childOwner s.cur
  pb := getG s.cur.ctx 4

/-- `spawn.row` and `spawn.cl`. -/
def spawnGang (s : State) (cl : Bool) (d t e : Reg) : Out :=
  gate s (.g [t, e, 4, 10, 11, 12, 13] [d]) <|
  alone s <|
    let (x, u) := takeG s.cur t
    let (y, u) := takeG u e
    let n := x.toNat
    let bad := if cl then decide (63 < n) || !rowEnabled s (2 * n) || !rowEnabled s (2 * n + 1)
      else decide (127 < n) || !rowEnabled s n
    let c := if cl then n else n / 2
    if y.toNat % 4 ≠ 0 ∨ textLength s s.cur ≤ y.toNat then trap s 0x02 0
    else if bad then trap s 0x02 0
    else if !destRoom s.cur d then trap s 0x02 0
    else if 32 ≤ (gangQueue s c).length then .next s
    else
      let s1 := bumpKey { s with sched := { s.sched with
        gangQ := Tab.set s.sched.gangQ c (gangInsert (gangQueue s c) (gangReq s cl n y)) } }
      finishAloneG s1 (rebase s1 u) d 2

/-- `spawn.row`. -/
def execSpawnRow (d t e : Reg) (s : State) : Out := spawnGang s false d t e
/-- `spawn.cl`. -/
def execSpawnCl (d t e : Reg) (s : State) : Out := spawnGang s true d t e

/-! ### Barriers (R98, R363, R364) -/

/-- The gang of a task and its place in it. -/
def gangOf (s : State) (t : Task) : Option (Gang × Member) :=
  t.gang.bind fun g => (s.sched.gangs.find? fun x => x.id == g.1).bind fun x =>
    (x.members.find? fun m => m.pos == g.2).map fun m => (x, m)

/-- The row of a member: position 8 r + j lies in row r of its gang's target. -/
def memberRow (m : Member) : Nat := m.pos / 8

/-- Members that a barrier joins with a member (R98). -/
def joined (g : Gang) (m : Member) (cl : Bool) : List Member :=
  if cl then g.members else g.members.filter fun x => memberRow x == memberRow m

/-- The member passes its k-th barrier of a kind: every joined member has reached its own k-th or ended (R364). -/
def passes (g : Gang) (m : Member) (cl : Bool) (k : Nat) : Bool :=
  (joined g m cl).all fun x => x.ended || decide (k ≤ if cl then x.clAt else x.rowAt)

/-- Change a member of a gang. -/
def mapMember (s : State) (g pos : Nat) (f : Member → Member) : State :=
  { s with sched := { s.sched with gangs := s.sched.gangs.map fun x =>
      if x.id = g then { x with members := x.members.map fun m => if m.pos = pos then f m else m } else x } }

/-- A barrier reached, or passed, by a member. -/
def reachBar (cl : Bool) (m : Member) : Member := if cl then { m with clAt := m.clAt + 1 } else { m with rowAt := m.rowAt + 1 }
def passBar (cl : Bool) (m : Member) : Member :=
  if cl then { m with clPast := m.clPast + 1 } else { m with rowPast := m.rowPast + 1 }

/-- A `gsync`: a task outside a gang, or a row-gang member at a cluster barrier, passes at once (R98). -/
def gsync (s : State) (cl : Bool) : Out :=
  alone s <|
    match gangOf s s.cur with
    | none => .next (retireAlone s s.cur)
    | some (g, m) =>
      if cl && !g.cl then .next (retireAlone s s.cur)
      else if s.cur.hold.isSome then .next s
      else
        .next (modCur (mapMember s g.id m.pos (reachBar cl)) fun t => { t with hold := some (.gsync cl) })

/-- `gsync.row`. -/
def execGsyncRow (s : State) : Out := gsync s false
/-- `gsync.cl`. -/
def execGsyncCl (s : State) : Out := gsync s true

/-- GSYNC_PASS: a member whose barrier every joined member has reached goes on (R364). -/
def execGsyncPass (core slot : Nat) (s : State) : Out :=
  match taskAt s core slot with
  | none => .next s
  | some t =>
    match t.hold, gangOf s t with
    | some (.gsync cl), some (g, m) =>
      if passes g m cl (if cl then m.clAt else m.rowAt) then
        .next (onTask (mapMember s g.id m.pos (passBar cl)) t.key fun s =>
          retireAlone s { s.cur with hold := none, since := s.time })
      else .next s
    | _, _ => .next s

/-! ### Messages -/

/-- Older posted traffic to the destination is held at the core (R87, R314). -/
def msgHeld (s : State) (x : Word) : Bool :=
  if x.toNat / 1024 = s.conf.pkg then nearHeld s s.cur.core (x.toNat % 1024) else farHeld s s.cur.core (x.toNat / 1024)

/-- `msg` (R389). -/
def execMsg (d n : Reg) (g : BitVec 8) (c : BitVec 4) (s : State) : Out :=
  gate s (.g [n] [d]) <|
  alone s <|
    let (x, t) := takeG s.cur n
    if 2 ^ 26 ≤ x.toNat then trap s 0x02 0
    else if depPending s.cur ≠ 0 then .next s
    else if s.cur.ctx.sendq.length < c.toNat then trap s 0x02 0
    else if x.toNat / 1024 = s.conf.pkg ∧ !coreEnabled s (x.toNat % 1024) then
      if destRoom s.cur d then finishAloneG s t d 1 else trap s 0x02 0
    else
      let t := { t with ctx := { t.ctx with sendq := t.ctx.sendq.drop c.toNat } }
      let k := if x.toNat / 1024 = s.conf.pkg then msgClass s.cur.core (x.toNat % 1024) else .far
      if !destRoom t d then trap s 0x02 0
      else if counterFull s s.cur.core s.cur.tenant k ∨ msgHeld s x then .next s
      else
        let s1 := sendMsg s s.cur.key s.cur.core (s.cur.slot?.getD 0) s.cur.tenant x.toNat g.toNat (s.cur.ctx.sendq.take c.toNat) true
        finishAloneG s1 (rebase s1 t) d 0

/-- `mdone` (R381, R382). -/
def execMdone (s : State) : Out :=
  .next (retire s (match s.cur.msg with
    | none => s.cur
    | some m => { s.cur with ctx := { s.cur.ctx with msgPos := m.words.length, msgDone := true } }))

/-- `tgctl` (R430). -/
def execTgctl (a b : Reg) (s : State) : Out :=
  gate s (.g [a, b] []) <|
    let (x, t) := takeG s.cur a
    let (y, t) := takeG t b
    if 256 ≤ x.toNat ∨ 4 ≤ y.toNat then trap s 0x02 0
    else if !bitOf (htabWord s s.cur.tenant x.toNat) 63 then trap s 0x02 0
    else .next (retire s (t.hold' (.tgctl x.toNat (y.truncate 2))))

/-! ### Waits (R102, R103, R452 to R454) -/

/-- The operand checks of `wset` that raise cause 0x02 (R454). -/
def wsetBad (c : WaitCond) (x : Word) : Bool :=
  match c with
  | .cnt => decide (x.toNat < 1) || decide (3 < x.toNat)
  | .msg => decide (255 < x.toNat)
  | .ticket => !bitOf x 63
  | _ => false

/-- Conditions on a word of memory. -/
def wsetWord (c : WaitCond) : Bool :=
  match c with
  | .full => true
  | .empty => true
  | .diff => true
  | _ => false

/-- A task with a wait slot armed. -/
def Task.armed (t : Task) (n : BitVec 2) (w : WaitSlot) : Task := { t with waits := t.waits.set n.toNat w n.isLt }

/-- Arm a wait slot; its condition is evaluated once (R102, R454). -/
def arm (s : State) (t : Task) (n : BitVec 2) (w : WaitSlot) : Out := .next (observe (retire s (t.armed n w)))

/-- Arm a wait slot on a word of another package: the request that arms it goes to the word's home, which checks and answers it
before the slot is armed, and reports the condition later, when it has observed it (R294, R454; DESIGN CHOICE, log entry 62). -/
def armRemote (s : State) (t : Task) (n : BitVec 2) (w : WaitSlot) (c : WaitCond) : Out :=
  match s.cur.hold with
  | some (.answer (some k) _ _) => accessTrap (modCur s fun t => { t with hold := none, lanes := [] }) k w.a
  | some (.answer none _ _) =>
    .next (observe (retireAlone s (Task.armed { t with hold := none, lanes := [] } n
      { w with req := s.cur.lanes.head?.map BitVec.toNat })))
  | some _ => .next s
  | none =>
    checked s w.a ⟨false, 8, 8, true, false, false⟩ <|
      .next (if 256 ≤ requestsOut s s.cur.core then s
        else modCur (requestSent s 3 w.a (armWords c w.b) .drop 8 false) fun t =>
          { t with lanes := [BitVec.ofNat 64 (freeReqid s s.cur.core)] })

/-- `wset`. -/
def execWset (n : BitVec 2) (c : WaitCond) (a b : Reg) (s : State) : Out :=
  gate s (.g [a, b] []) <|
    let (x, t) := takeG s.cur a
    let (y, t) := takeG t b
    let w : WaitSlot := ⟨some c, x, y, false, false, none⟩
    if wsetWord c then
      if isLocal s x then checked s x ⟨false, 8, 8, true, false, false⟩ (arm s t n w) else alone s (armRemote s t n w c)
    else if wsetBad c x then trap s 0x02 0
    else arm s t n w

/-- The satisfied bits of the wait slots. -/
def satBits (t : Task) : BitVec 4 :=
  BitVec.ofNat 4 (vecOf 1 (t.waits.toList.map fun w => if w.sat then 1 else 0))

/-- The rule of a `wait` over the enabled slots (R103, R452). -/
def waitMet (t : Task) (e : BitVec 4) (all : Bool) : Bool :=
  let b := satBits t &&& e
  if all then b == e else b != 0

/-- Reference ticks: 17 time-base cycles each (R13, R362). -/
def ticks (s : State) : Nat := s.time / 17

/-- A `wait` returns its bits to its destination (R452). -/
def finishWait (s : State) (t : Task) (d : Reg) (late : Bool) : State :=
  let v := (satBits t).zeroExtend 64 ||| (if late then 0x100#64 else 0)
  retireAlone s { t with hold := none, since := s.time, ctx := setG t.ctx d v }

/-- A deadline has been reached. -/
def deadlinePast (s : State) (l : Option Nat) : Bool :=
  match l with
  | none => false
  | some n => decide (n ≤ ticks s)

/-- `wait`. -/
def execWait (e : BitVec 4) (all : Bool) (d r : Reg) (s : State) : Out :=
  gate s (.g [r] [d]) <|
  alone s <|
    let (x, t) := takeG s.cur r
    let l := if r = 0 then none else some (ticks s + x.toNat)
    if s.cur.hold.isSome then .next s
    else if !destRoom s.cur d then trap s 0x02 0
    else if waitMet t e all then .next (finishWait s t d false)
    else if deadlinePast s l then .next (finishWait s t d true)
    else .next { s with cur := { t with hold := some (.wait e all d l) } }

/-- WAIT_LATCH: the report of an armed condition reaches its slot (R102). That of a word of another package is a reply flit. -/
def latchSlot (s : State) (t : Task) (w : WaitSlot) : WaitSlot := { w with sat := w.sat || w.seen || condHolds s t w }

def execWaitLatch (core slot ws : Nat) (s : State) : Out :=
  match taskAt s core slot with
  | none => .next s
  | some t =>
    .next (onTask s t.key fun s => modCur s fun t =>
      { t with waits := t.waits.mapIdx fun i w => if i = ws then latchSlot s t w else w })

/-- WAIT_RETURN: a waiting slot whose rule is met returns (R103). -/
def execWaitReturn (core slot : Nat) (s : State) : Out :=
  match taskAt s core slot with
  | none => .next s
  | some t =>
    match t.hold with
    | some (.wait e all d _) =>
      if waitMet t e all then .next (onTask s t.key fun s => finishWait s s.cur d false) else .next s
    | _ => .next s

/-- WAIT_TIMEOUT: the deadline is reached with the rule unmet; a rule met in that cycle wins (R103). -/
def execWaitTimeout (core slot : Nat) (s : State) : Out :=
  match taskAt s core slot with
  | none => .next s
  | some t =>
    match t.hold with
    | some (.wait e all d l) =>
      if deadlinePast s l then .next (onTask s t.key fun s => finishWait s s.cur d (!waitMet t e all)) else .next s
    | _ => .next s

/-! ### Sleep (R104, R148, R415, R416) -/

/-- What a sleeper finds: none, sleep on; else whether its copy has missed its promise. -/
def slpWakes (s : State) (t : Task) (x : Word) : Option Bool :=
  if bitOf x 63 then
    match ticketRec s t.core t.tenant x with
    | none => some false
    | some r => if promiseNow s t.core r ≤ s.time then some (r.state == .pending) else none
  else if x.toNat ≤ s.time then some false
  else none

/-- A sleep on `x` ends: cause 0x06 at a missed promise, which resumes at the `slp`, whose operand is still to be read. The engine
updates its commands before the wake of a cycle, so that one found unfinished completes in a later one (R148). -/
def slpEnd (s : State) (t : Task) (x : Word) (missed : Bool) : State :=
  if missed then takeTrap (modCur (markMissed s t.core x) Task.unread) 0x06 0 0 false false
  else retireAlone s { t with hold := none, since := s.time }

/-- `slp`. -/
def execSlp (r : Reg) (s : State) : Out :=
  gate s (.g [r] []) <|
  alone s <|
    let (x, t) := takeG s.cur r
    if s.cur.hold.isSome then .next s
    else if bitOf x 63 && decide (fieldNat x 31 16 ≠ 0) then trap s 0x02 0
    else
      match slpWakes s s.cur x with
      | none => .next { s with cur := { t with hold := some (.slp x) } }
      | some missed => .next (slpEnd s t x missed)

/-- SLP_WAKE: a sleeping slot's time has come. -/
def execSlpWake (core slot : Nat) (s : State) : Out :=
  match taskAt s core slot with
  | none => .next s
  | some t =>
    match t.hold with
    | some (.slp x) =>
      match slpWakes s t x with
      | none => .next s
      | some missed => .next (onTask s t.key fun s => slpEnd s s.cur x missed)
    | _ => .next s

/-! ### Status and repetition -/

/-- The value of a `getst` index (Table 21.3). -/
def statusWord (s : State) (t : Task) (n : Nat) : Word :=
  match n with
  | 0 => BitVec.ofNat 64 t.core
  | 1 => BitVec.ofNat 64 (clusterOf t.core)
  | 2 => BitVec.ofNat 64 (rowOf t.core)
  | 3 => BitVec.ofNat 64 ((t.gang.map (·.2)).getD 0)
  | 4 => BitVec.ofNat 64 t.tenant
  | 5 => BitVec.ofNat 64 s.time
  | 6 => BitVec.ofNat 64 (ticks s)
  | 7 => t.taskId
  | 8 => t.ctx.trapCause
  | 9 => t.ctx.trapPc
  | 10 => t.ctx.trapIdx
  | 11 => t.ctx.flags.zeroExtend 64
  | 12 => t.entryPb
  | 13 => BitVec.ofNat 64 s.conf.pkg
  | _ => BitVec.ofNat 64 s.conf.incarnation

/-- `getst` (R361, R362). -/
def execGetst (d : Reg) (n : BitVec 5) (s : State) : Out :=
  gate s (.g [] [d]) <| finishG s s.cur d (statusWord s s.cur n.toNat)

/-- The stride of a code (R73). -/
def RptStride.value : RptStride → Nat
  | .s1 => 1
  | .s2 => 2
  | .s4 => 4
  | .s8 => 8

/-- `rpt` (R73, R406): the next words become the body. -/
def execRpt (c : BitVec 6) (l : BitVec 4) (k : RptStride) (s : State) : Out :=
  let pc := s.cur.ctx.pc + 4
  .next { s with cur := { s.cur with
    ctx := { s.cur.ctx with pc := pc, rep := some ⟨pc, l.toNat + 1, c.toNat + 1, RptStride.value k, 0, 0⟩ }
    chunk := countInstr s.cur.chunk } }

end Sys2Proof.Machine
end

