-- ==== Sys2Proof/Machine/Matrix.lean ====
section
/-! DEFINITION. The matrix instructions and the row's joint array (R12, R25, R190, R193, R220, R383 to R387, R391 to R393). -/

namespace Sys2Proof.Machine

/-! ### `mld` (R383) -/

/-- K of an `mld` field (R383). -/
def mldK (k : BitVec 5) : Nat := 32 * (k.toNat + 1)

/-- `mld.a`. -/
def execMldA (k : BitVec 5) (b i : Reg) (s : State) : Out :=
  gate s ⟨false, [b], [], [i], []⟩ <|
    let (x, t) := takeG s.cur b
    .next (retire s { t with chunk := { t.chunk with mldA := some ⟨mldK k, x, getV s.cur.ctx i⟩ } })

/-- `mld.b`. -/
def execMldB (k : BitVec 5) (b r : Reg) (s : State) : Out :=
  gate s (.g [b, r] []) <|
    let (x, t) := takeG s.cur b
    let (y, t) := takeG t r
    .next (retire s { t with chunk := { t.chunk with mldB := some ⟨mldK k, x, y⟩ } })

/-! ### Operands (Table 22.3) -/

/-- Half bytes of one element of a format: bf16, e4m3, e5m2, e2m1, int8. -/
def halfBytes (f : Nat) : Nat := if f = 0 then 4 else if f = 3 then 1 else 2

/-- Bytes of an A row, or of a column-major B column, of K elements; a bit-plane block is 512 bytes (R190). -/
def rowBytes (f k : Nat) : Nat := if 5 ≤ f then 512 else k * halfBytes f / 2

/-- B lies row-major: bf16 and int8. -/
def rowMajor (f : Nat) : Bool := f == 0 || f == 4

/-- Operands lie in the core's own element area, with scales: e4m3, e5m2, e2m1. -/
def scaled (f : Nat) : Bool := decide (1 ≤ f) && decide (f ≤ 3)

/-- The multiple that the base of a format must be, for A and B alike (Table 22.3). -/
def baseMultiple (f : Nat) : Nat := if f = 0 ∨ 5 ≤ f then 64 else if f = 3 then 16 else 32

/-- The multiple that the stride must be (Table 22.3). -/
def strideMultiple (f : Nat) : Nat := if f = 0 ∨ f = 1 ∨ f = 2 then 32 else if f = 3 ∨ f = 4 then 16 else 64

/-- Row index in lane `i` of an `mld.a`. -/
def rowIndex (d : DescA) (i : Nat) : Nat := elemAt 32 d.rows i

/-- The address of A row `i` of a member (Table 22.3). -/
def rowAddr (f : Nat) (d : DescA) (i : Nat) : Word := d.base + BitVec.ofNat 64 (rowBytes f d.k * rowIndex d i)

/-- The address of the B line `n`: row k = n of a row-major B, or column c = n. -/
def colAddr (d : DescB) (n : Nat) : Word := d.base + d.stride * BitVec.ofNat 64 n

/-- The bytes that `n` elements of a line supply: of a bit-plane block, those of the planes the format reads (R130, R190). -/
def lineSpans (f n : Nat) (a : Word) : List (Word × Nat) :=
  if 5 ≤ f then (List.range (f - 3)).map fun q => (a + BitVec.ofNat 64 (64 * q), n / 8) else [(a, rowBytes f n)]

/-- Every stretch of bytes this core supplies, in the order it is judged. -/
def operandSpans (f : Nat) (da : DescA) (db : DescB) : List (Word × Nat) :=
  ((List.range 16).flatMap fun i => lineSpans f da.k (rowAddr f da i)) ++
  (if rowMajor f then (List.range db.k).map fun k => (colAddr db k, if f = 0 then 32 else 16)
   else (List.range 16).flatMap fun c => lineSpans f db.k (colAddr db c))

/-- The bytes of an operand that are judged together: every stretch is a multiple of them. -/
def spanUnit (f : Nat) : Nat := if 5 ≤ f then 4 else 16

/-- They as Table 05.2 judges them. -/
def spanAccess (f : Nat) : Access := ⟨false, spanUnit f, 1, true, true, true⟩

/-- The offset of sixteen bytes in the core's own element area through W0, where they lie there. -/
def ownElem (s : State) (a : Word) : Option Nat :=
  match placeOf s (localOf a) with
  | .window 0 c o => if isLocal s a && c == s.cur.core && decide (o + 16 ≤ 0x78000) then some o else none
  | _ => none

/-- One unit of an operand: Table 05.2, with the "must lie" column at its step 3, and then the scales (R126, R384,
R386). -/
def spanCause (s : State) (f : Nat) (a : Word) : Option Nat :=
  if !scaled f then checkAccess s s.cur.tenant s.cur.trusted a (spanAccess f)
  else
    match ownElem s a with
    | none => some 0x11
    | some o =>
      match checkAccess s s.cur.tenant s.cur.trusted a (spanAccess f) with
      | some c => some c
      | none =>
        let so := scaleOff (if f = 3 then 4 else 2) o
        if s.cur.trusted || spOwns s s.cur.tenant so 1 then none else some 0x04

/-- The first check of an `mma` that fails, and its address; or the first address that waits at a BUSY entry (R135). -/
def operandCause (s : State) (f : Nat) (da : DescA) (db : DescB) : Option (Option Nat × Word) :=
  if fieldNat da.base 63 56 ≠ 0 then some (some 0x11, da.base)
  else if fieldNat db.base 63 56 ≠ 0 then some (some 0x11, db.base)
  else if da.base.toNat % baseMultiple f ≠ 0 then some (some 0x07, da.base)
  else if db.base.toNat % baseMultiple f ≠ 0 ∨ db.stride.toNat % strideMultiple f ≠ 0 then some (some 0x07, db.base)
  else
    firstStop s (spanAccess f) (spanCause s f) ((operandSpans f da db).flatMap fun e =>
      (List.range (e.2 / spanUnit f)).map fun i => e.1 + BitVec.ofNat 64 (spanUnit f * i))

/-! ### The row's operation -/

/-- The key of a gang's operation in the row of a core. -/
def arrayKey (gang core : Nat) : Nat := 128 * gang + rowOf core

def arrayOf (s : State) (k : Nat) : ArrayOp := Tab.get s.eng.arrays k ⟨[], false, 0, 0⟩
def setArray (s : State) (k : Nat) (a : ArrayOp) : State :=
  { s with eng := { s.eng with arrays := Tab.set s.eng.arrays k a } }
/-- The operation is over. -/
def dropArray (s : State) (k : Nat) : State :=
  { s with eng := { s.eng with arrays := Tab.erase s.eng.arrays k } }

/-- An `mma` of the task on a tile, or on any, has committed and not ended (R387). -/
def mmaOpen (s : State) (key : Nat) (tile : Option (BitVec 2)) : Bool :=
  s.eng.arrays.any fun e => e.2.parts.any fun p =>
    p.key == key && p.committed && (match tile with
      | none => true
      | some a => p.tile == a)

/-- Members of a row at the barrier or past it agree on K and the format. -/
def partsAgree (ps : List MmaPart) : Bool :=
  match ps with
  | [] => true
  | p :: ps => ps.all fun q => q.k == p.k && q.fmt == p.fmt

/-- A part of the operation belongs to each member of the row that has not ended. -/
def partsComplete (ms : List Member) (ps : List MmaPart) : Bool :=
  ms.all fun m => ps.any fun p => p.key == m.key

/-- A member of the row has ended without a part. -/
def memberGone (ms : List Member) (ps : List MmaPart) : Bool :=
  ms.any fun m => m.ended && !ps.any fun p => p.key == m.key

/-- The operation is given up: a waiting member traps 0x02 precisely, and a member past its commit receives it at its next
chunk boundary (R386). -/
def abandon (s : State) (k : Nat) : State :=
  let ps := (arrayOf s k).parts
  ps.foldl (fun s p =>
    if (findTask s p.key).isNone then s
    else if p.committed then onTask s p.key fun s => defer s 0x02 0
    else onTask s p.key fun s => takeTrap s 0x02 0 0 false false) (dropArray s k)

/-- The member's own part, when its chunk holds one. -/
def partOf (ps : List MmaPart) (key : Nat) : Option MmaPart := ps.find? fun p => p.key == key

/-- A member that the barrier has joined commits its chunk, the `mma` its last instruction, with the registers `t` that hold
after its reads; refused, it joins again (R382, R386). -/
def mmaCommit (s : State) (t : Task) (k : Nat) : State :=
  match commitNow (passed { s with cur := rebase s t }) with
  | .waits _ => s
  | .aborted s => s
  | .done s1 =>
    let a := arrayOf s1 k
    setArray s1 k { a with parts := a.parts.map fun p => if p.key = s.cur.key then { p with committed := true } else p }

/-- At the wired row barrier (R12, R386): the member's part stands, and the barrier is judged. -/
def mmaBarrier (s : State) (t : Task) (k : Nat) (ms : List Member) : State :=
  let a := arrayOf s k
  if memberGone ms a.parts then abandon s k
  else
    match partOf a.parts s.cur.key with
    | none => s
    | some p =>
      if p.met then mmaCommit s t k
      else if !partsComplete ms a.parts then s
      else if !partsAgree a.parts then abandon s k
      else
        mmaCommit (setArray s k { a with parts := a.parts.map fun p => { p with met := true } }) t k

/-- `mma` (R385 to R387). -/
def execMma (t : BitVec 2) (z u : Bool) (f : BitVec 5) (k : Reg) (s : State) : Out :=
  gate s (.g [k] []) <|
    let (x, r) := takeG s.cur k
    match gangOf s s.cur with
    | none => trap s 0x02 0
    | some (g, m) =>
      let key := arrayKey g.id s.cur.core
      let ms := joined g m false
      let a := arrayOf s key
      match s.cur.chunk.mldA, s.cur.chunk.mldB with
      | some da, some db =>
        if x.toNat = 0 ∨ x.toNat % 32 ≠ 0 ∨ 256 < x.toNat then trap s 0x02 0
        else if da.k ≠ x.toNat ∨ db.k ≠ x.toNat then trap s 0x02 0
        else if mmaOpen s s.cur.key none then .next s
        else if (partOf a.parts s.cur.key).isSome then .next (mmaBarrier s r key ms)
        else
          unlessStop s (operandCause s f.toNat da db) <|
            let p : MmaPart := ⟨s.cur.key, s.cur.core, t, z, u, f, x.toNat, da, db, false, false⟩
            .next (mmaBarrier (setArray s key { a with parts := a.parts ++ [p] }) r key ms)
      | _, _ => trap s 0x02 0

/-! ### What a K-block computes (R193) -/

/-- The value of an element code with its block's scale byte, after fzi (R184, R189, R193), which takes an exponent field of 0
in the element's own format for a subnormal; under a scale of 0xFF every element is the NaN, and fzi replaces and flags none (DESIGN
CHOICE, log entry 59). -/
def mmaElem (f : Nat) (z : Bool) (code scale : Nat) : Fv × FlagSet :=
  let small := fun (k : ElemFmt) =>
    if scale = 255 then (Fv.nan false, FlagSet.none)
    else
      let (c, fl) := flushIn k.fmt z code
      ((match elemDecode k c with
        | .fin s m e => .fin s m (e + scale - 127)
        | v => v), fl)
  if f = 0 then
    let (c, fl) := flushIn .bf16 z code
    (fpDecode .bf16 c, fl)
  else if f = 1 then small .e4m3
  else if f = 2 then small .e5m2
  else if f = 3 then small .e2m1
  else
    let v := signedOf 8 code
    (.fin (decide (v < 0)) v.natAbs 0, .none)

/-- S of R193: the exact sum of the products, none for a NaN, with the flags it raises. -/
def mmaSum (f : Nat) (ps : List (Fv × Fv)) : Option Fv × FlagSet :=
  let prods := ps.map fun p => fvMul p.1 p.2
  let nan := ps.any fun p => p.1.isNan || p.2.isNan
  let inv := prods.any Option.isNone
  let infs := prods.filterMap fun p => match p with
    | some (.inf s) => some s
    | _ => none
  let both := infs.contains true && infs.contains false
  let fl := snanFlag (ps.flatMap fun p => [p.1, p.2]) ||| FlagSet.when (inv || both) .nv
  if nan || inv || both then (none, fl)
  else
    match infs with
    | s :: _ => (some (.inf s), fl)
    | [] =>
      let fins := prods.filterMap fun p => match p with
        | some (.fin s m e) => some (s, m, e)
        | _ => none
      let e0 := fins.foldl (fun e x => min e x.2.2) (match fins with
        | x :: _ => x.2.2
        | [] => 0)
      let k := (fins.map fun x => alignTo e0 x.1 x.2.1 x.2.2).sum
      if k = 0 then (some (.fin (decide (f < 4) && fins.all fun x => x.1 && x.2.1 == 0) 0 e0), fl)
      else (some (.fin (decide (k < 0)) k.natAbs e0), fl)

/-- One element of C after one K-block (R193). -/
def mmaStep (f : Nat) (u : Bool) (c : BitVec 32) (ps : List (Fv × Fv)) : BitVec 32 × FlagSet :=
  let (v, fl) := mmaSum f ps
  match v with
  | none => (BitVec.ofNat 32 (Fmt.nanBits .f32), fl)
  | some v =>
    let r := fpFinish .f32 u fl (fvAdd (fpDecode .f32 c.toNat) v)
    (BitVec.ofNat 32 r.1, r.2)

/-! ### Reading operands (R384, R387) -/

/-- The element of an A row, or of a column-major column, that starts at an address: code and scale byte. -/
def lineElem (s : State) (f : Nat) (a : Word) (k : Nat) : Nat × Nat :=
  let b := canon s (localOf a)
  if 5 ≤ f then (planeElem (f - 3) (s.mem.readBytes b 512) k, 127)
  else if f = 0 then (natOfBytes (s.mem.readBytes (b + 2 * k) 2), 127)
  else
    let o := if f = 3 then k / 2 else k
    let x := (s.mem.read (b + o)).toNat
    let code := if f = 3 then (if k % 2 = 0 then x % 16 else x / 16) else x
    match placeOf s (localOf a) with
    | .window _ c w => (code, if f = 4 then 127 else (s.mem.read (spAddr c (scaleOff (if f = 3 then 4 else 2) (w + o)))).toNat)
    | _ => (code, 127)

/-- A element (row `i` of a member, k). -/
def elemA (s : State) (f : Nat) (d : DescA) (i k : Nat) : Nat × Nat := lineElem s f (rowAddr f d i) k

/-- B element (k, c). -/
def elemB (s : State) (f : Nat) (d : DescB) (k c : Nat) : Nat × Nat :=
  if rowMajor f then lineElem s f (colAddr d k) c else lineElem s f (colAddr d c) k

/-- Words a K-block of a member takes from memory; of a bit-plane block, those of the planes the format reads. -/
def blockWords (s : State) (f : Nat) (p : MmaPart) (kb : Nat) : List Nat :=
  let words := fun (a : Word) (o n : Nat) => wordsAt (canon s (localOf a) + o) n
  let line := fun (a : Word) =>
    if 5 ≤ f then (List.range (f - 3)).flatMap fun q => words a (64 * q + 4 * kb) 4
    else
      let o := 32 * kb * halfBytes f / 2
      words a o (16 * halfBytes f) ++ (match scaled f, placeOf s (localOf a) with
        | true, .window _ c w => wordsAt (spAddr c (scaleOff (if f = 3 then 4 else 2) (w + o))) 1
        | _, _ => [])
  ((List.range 16).flatMap fun i => line (rowAddr f p.da i)) ++
  (if rowMajor f then (List.range 32).flatMap fun k => words (colAddr p.db (32 * kb + k)) 0 (if f = 0 then 32 else 16)
   else (List.range 16).flatMap fun c => line (colAddr p.db c))

/-- One K-block of a member's tile: `parts` by position supply the A rows. -/
def tileBlock (s : State) (parts : List MmaPart) (p : MmaPart) (kb : Nat) (old : Tile) : Tile × FlagSet :=
  let f := p.fmt.toNat
  let row := fun (i : Nat) => (List.range 32).map fun k =>
    match parts[i / 16]? with
    | some q => let e := elemA s f q.da (i % 16) (32 * kb + k)
                mmaElem f p.z e.1 e.2
    | none => (.fin false 0 0, .none)
  let col := fun (c : Nat) => (List.range 32).map fun k =>
    let e := elemB s f p.db (32 * kb + k) c
    mmaElem f p.z e.1 e.2
  let as := (List.range 128).map row
  let bs := (List.range 16).map col
  let out := old.mapIdx fun n c =>
    mmaStep f p.u c (((as.getD (n / 16) []).map (·.1)).zip ((bs.getD (n % 16) []).map (·.1)))
  let fl := FlagSet.union ((as ++ bs).flatMap fun l => l.map (·.2)) ||| FlagSet.union (out.toList.map (·.2))
  (out.map (·.1), fl)

/-- A member's tile and flags after a K-block; the array writes outside any chunk, so an abort keeps them (R387). -/
def putBlock (s : State) (p : MmaPart) (r : Tile × FlagSet) : State :=
  let put := fun (c : Ctx) => raiseFlags { c with ac := c.ac.set p.tile.toNat r.1 p.tile.isLt } r.2
  onTask s p.key fun s => modCur s fun t => { t with ctx := put t.ctx, chunk := { t.chunk with start := put t.chunk.start }, usedAc := true }

/-! ### The array's own steps -/

/-- Members sorted by position: A rows 16 j to 16 j + 15 are those of core position j (R220). -/
def insertPart (p : MmaPart) : List MmaPart → List MmaPart
  | [] => [p]
  | q :: qs => if p.core < q.core then p :: q :: qs else q :: insertPart p qs
def byPosition (ps : List MmaPart) : List MmaPart := ps.foldl (fun l p => insertPart p l) []

/-- A member's task stands in its slot: pre-emption pauses the array between K-blocks (R25, R214). -/
def partRuns (s : State) (p : MmaPart) : Bool :=
  match findTask s p.key with
  | none => true
  | some t => t.slot?.isSome && !halts s t

/-- The operations of a row. -/
def rowOps (s : State) (row : Nat) : List (Nat × ArrayOp) := s.eng.arrays.filter fun e => e.1 % 128 == row

/-- The gang of an operation is gone, or a member of its row has ended without a part. -/
def opGone (s : State) (k : Nat) (a : ArrayOp) : Bool :=
  match s.sched.gangs.find? fun g => g.id == k / 128 with
  | none => true
  | some g =>
    match a.parts with
    | [] => false
    | p :: _ =>
      match g.members.find? fun m => m.key == p.key with
      | none => true
      | some m => memberGone (joined g m false) a.parts

/-- MMA_ARRAY_START: once all eight members have committed, the array of the row, free of another tenant's running
operation, starts; an operation a member of which has ended is given up (R12, R386). -/
def execMmaArrayStart (row : Nat) (s : State) : Out :=
  if (rowOps s row).any fun e => e.2.running && e.2.parts.all (partRuns s) then .next s
  else
    match (rowOps s row).find? fun e => !e.2.running && (e.2.parts.all (·.committed)) && !e.2.parts.isEmpty with
    | none => .next s
    | some (k, a) =>
      if opGone s k a then .next (abandon s k)
      else if a.parts.length = 8 then .next (setArray s k { a with running := true, since := s.time })
      else .next s

/-- The members receive cause 0x0C at their next chunk boundary, and the operation is over (R387). -/
def arrayPoisoned (s : State) (k : Nat) (ps : List MmaPart) (a : Nat) : State :=
  ps.foldl (fun s p => if (findTask s p.key).isNone then s else onTask s p.key fun s => defer s 0x0C (globalOf s a))
    (dropArray s k)

/-- MMA_ARRAY_COMPLETE: the running array ends its next K-block in every member's tile, and with the last one the
operation (R25, R193, R387). -/
def execMmaArrayComplete (row : Nat) (s : State) : Out :=
  match (rowOps s row).find? fun e => e.2.running && e.2.parts.all (partRuns s) with
  | none => .next s
  | some (k, a) =>
    let ps := byPosition a.parts
    match (ps.flatMap fun p => blockWords s p.fmt.toNat p a.kb).find? fun w => s.mem.poison.contains w with
    | some w => .next (arrayPoisoned s k ps w)
    | none =>
      let s1 := ps.foldl (fun s' p =>
        match findTask s p.key with
        | none => s'
        | some t => putBlock s' p (tileBlock s ps p a.kb (t.ctx.ac[p.tile.toNat]'(p.tile.isLt)))) s
      let last := decide ((match ps with
        | p :: _ => p.k / 32
        | [] => 0) ≤ a.kb + 1)
      .next (if last then dropArray s1 k else setArray s1 k { a with kb := a.kb + 1, since := s.time })

/-! ### `mst` and `mzero` (R391 to R393) -/

/-- The tile an `mst` or `mzero` names. -/
def tileOf (t : Reg) : BitVec 2 := t.truncate 2

/-- The tile's elements. -/
def getTile (c : Ctx) (t : BitVec 2) : Tile := c.ac[t.toNat]'(t.isLt)

/-- The bytes of row `i` of a tile. -/
def tileRow (c : Ctx) (t : BitVec 2) (i : Nat) : List Byte :=
  (List.range 16).flatMap fun e => bytesOfNat 4 ((getTile c t).getD (16 * i + e) 0).toNat

/-- The address of row `i`. -/
def mstAddr (a st : Word) (i : Nat) : Word := a + st * BitVec.ofNat 64 i

/-- The first of the 128 rows that waits at a BUSY entry or that Table 05.2 refuses. -/
def mstCause (s : State) (a st : Word) : Option (Option Nat × Word) :=
  let acc : Access := ⟨true, 64, 64, true, true, true⟩
  firstStop s acc (fun x => checkAccess s s.cur.tenant s.cur.trusted x acc) ((List.range 128).map (mstAddr a st))

/-- How many rows from row `i` on fit in the chunk's 64 lines (R110, R392). -/
def rowsFit : Nat → List Nat → State → Word → Word → Nat → Nat
  | 0, _, _, _, _, _ => 0
  | n + 1, ls, s, a, st, i =>
    let l := canon s (localOf (mstAddr a st i)) / 64
    let ls := addNew l ls
    if 64 < ls.length then 0 else 1 + rowsFit n ls s a st (i + 1)

/-- Hold the stores of `n` rows from row `i` on. -/
def holdRows (s : State) (t : Task) (tile : BitVec 2) (a st : Word) (i n : Nat) : Task :=
  (List.range n).foldl (fun u j =>
    u.hold' (.store (canon s (localOf (mstAddr a st (i + j)))) (tileRow t.ctx tile (i + j)))) t

/-- `mst` (R392). -/
def execMst (t a st : Reg) (s : State) : Out :=
  gate s (.g [a, st] []) <|
    let (x, u) := takeG s.cur a
    let (y, u) := takeG u st
    unlessStop s (mstCause s x y) <|
      if mmaOpen s s.cur.key (some (tileOf t)) then .next s
      else
        let i := s.cur.ctx.mstRow
        let c := s.cur.chunk
        let n := rowsFit (128 - i) (c.llines.foldl (fun l a => addNew a l) c.wlines) s x y i
        let lines := (List.range n).map fun j => canon s (localOf (mstAddr x y (i + j))) / 64
        if i + n < 128 then
          if c.first && s.cur.kind == .rule then .next (chunkLimit s)
          else
            withLines s [] lines fun s =>
              let v := holdRows s s.cur (tileOf t) x y i n
              .next (commitNow { s with cur := { v with ctx := { v.ctx with mstRow := i + n } } }).state
        else
          withLines s [] lines fun s =>
            let v := holdRows s (rebase s u) (tileOf t) x y i n
            .next (retire s { v with ctx := { v.ctx with mstRow := 0 } })

/-- `mzero` (R393). -/
def execMzero (t : Reg) (s : State) : Out :=
  if mmaOpen s s.cur.key (some (tileOf t)) then .next s
  else
    .next (retire s { s.cur with ctx := { s.cur.ctx with
      ac := s.cur.ctx.ac.set (tileOf t).toNat (Vector.replicate 2048 0) (tileOf t).isLt } })

end Sys2Proof.Machine
end

