-- ==== Sys2Proof/Machine/Copy.lean ====
section
/-! DEFINITION. The copy engine (R144 to R148, R351 to R354) and the engines' watchdogs (R213). -/

namespace Sys2Proof.Machine

/-! ### Acceptance (R145, R353) -/

/-- A range that the issuing core refuses: it lies outside the address space of its package, or in this package and is not the
tenant's (R145). -/
def rangeRefused (s : State) (a : Word) (n : Nat) : Bool :=
  decide (fieldNat a 63 56 ≠ 0) || decide (2 ^ 40 < localOf a + n) ||
    (isLocal s a && !copyOwned s s.cur.tenant (localOf a) n)

/-- The ranges overlap. -/
def rangesMeet (a b : Word) (n : Nat) : Bool := decide (a.toNat < b.toNat + n) && decide (b.toNat < a.toNat + n)

/-- What the acceptance of a copy comes to. -/
inductive CopyJudge where
  /-- The home-map entry of a range is being rewritten: the acceptance waits at its lookup (R135). -/
  | busy
  /-- A cause and its DETAIL. -/
  | refuse (cause : Nat) (detail : Word)
  /-- The package of a range is asked whether the tenant may read it, or write it. -/
  | ask (a : Word) (write : Bool)
  | accept
  deriving DecidableEq, Repr

/-- Go on unless a condition refuses the copy. -/
def CopyJudge.unless (c : Bool) (cause : Nat) (detail : Word) (k : CopyJudge) : CopyJudge :=
  if c then .refuse cause detail else k

/-- Wait while the entry of a range of this package is being rewritten (R135). -/
def CopyJudge.lookup (s : State) (a : Word) (k : CopyJudge) : CopyJudge :=
  if isLocal s a && decide (fieldNat a 63 56 = 0) && regionBusy s (localOf a) then .busy else k

/-- The acceptance checks, in order; of the ranges of other packages the first `got` have been accepted there (R145). DETAIL of
a refused range is its first address, and where both are refused together that of the first (R290). -/
def copyJudge (s : State) (y : CopyKind) (n : Nat) (src dst : Word) (got : Nat) : CopyJudge :=
  let far := fun (a : Word) => !isLocal s a
  let reads := y != .zero
  let before := if reads && far src then 1 else 0
  .unless (decide (2 ^ 32 < n)) 0x14 (if reads then src else dst) <|
  if n = 0 then .accept
  else
    .unless (y == .tags && (decide (src.toNat % 8 ≠ 0) || decide (dst.toNat % 8 ≠ 0) || decide (n % 8 ≠ 0))) 0x07
      (if src.toNat % 8 ≠ 0 then src else dst) <|
    (if reads then CopyJudge.lookup s src else id) <|
    .unless (reads && rangeRefused s src n) 0x14 src <|
    if got < before then .ask src false
    else
      .lookup s dst <|
      .unless (rangeRefused s dst n) 0x14 dst <|
      if far dst && decide (got ≤ before) then .ask dst true
      else
        .unless (!far dst && regionSealed s (localOf dst)) 0x14 dst <|
        .unless (reads && rangesMeet src dst n) 0x14 src .accept

/-- The setup of one end; of a hashed region every member of its group counts as an end (R147; DESIGN CHOICE, log entry 59). -/
def endSetup (s : State) (core : Nat) (a : Word) : Nat :=
  if !isLocal s a then 4096
  else
    let near := fun (cs : List Nat) => if cs.all fun c => clusterOf c == clusterOf core then 64 else 256
    match placeOf s (localOf a) with
    | .window _ c _ => if c = core then 16 else near [c]
    | _ => near (match regionAt s (localOf a) with
      | some e => members s e
      | none => [])

/-- The setup of a copy: that of its farther end (R147). -/
def setupOf (s : State) (core : Nat) (y : CopyKind) (n : Nat) (src dst : Word) : Nat :=
  if n = 0 then 16
  else if y = .zero then endSetup s core dst
  else max (endSetup s core src) (endSetup s core dst)

/-- The promise of a command accepted now (R147). -/
def newPromise (s : State) (before setup n : Nat) : Nat := max s.time before + setup + (n + 63) / 64

/-- The ticket of a command (R147). -/
def ticketOf (seq promise : Nat) : Word := BitVec.ofNat 64 (2 ^ 63 + promise % 2 ^ 31 * 2 ^ 32 + seq)

/-- The records an engine keeps: its pending commands and its last 256 (R148). -/
def keepCmds (next : Nat) (cs : List CopyCmd) : List CopyCmd :=
  cs.filter fun c => c.state == .pending || decide ((next + 65536 - c.seq) % 65536 ≤ 256)

/-- Pending commands of an engine. -/
def pendingCmds (e : Engine) : List CopyCmd := e.cmds.filter fun c => c.state == .pending

/-- What `promiseNow` adds to the promise of a pending command while a hold or a stop lasts (R147). -/
def promiseLag (s : State) (e : Engine) (c : CopyCmd) : Nat := heldFor s e + stoppedAhead s e.cmds c

/-- The engine accepts a command: the ticket is written to the destination (R147, R353). While a hold or a stop lasts, promises are
kept without its time, which `promiseNow` adds. -/
def acceptCopy (s : State) (t : Task) (q r : Bool) (c : Scope) (y : CopyKind) (d : Reg) (n : Nat) (src dst : Word) : State :=
  let core := s.cur.core
  let e := engineOf s core
  let before := e.promise + (match (pendingCmds e).getLast? with
    | some b => promiseLag s e b
    | none => 0)
  let p := newPromise s before (setupOf s core y n src dst) n
  let cmd : CopyCmd := ⟨e.next, s.cur.tenant, s.cur.trusted, s.cur.key, s.cur.taskId, q, r, c, y, n, src, dst, 0, p,
    .pending, 0, none, s.time, [], [], false, 0, none⟩
  let h := promiseLag s e cmd
  let next := (e.next + 1) % 65536
  let s := setEngine s core ⟨next, p - h, keepCmds next (e.cmds ++ [{ cmd with promise := p - h }])⟩
  retireAlone s { rebase s t with hold := none, lanes := [], ctx := setG t.ctx d (ticketOf e.next p) }

/-- The copy of a standing move takes pools along: the trusted runtime empties their crib lists before it (R240, R274 step 2). -/
def emptyMoved (s : State) (y : CopyKind) (n : Nat) (src : Word) : State :=
  if y == .tags && s.cur.trusted && (moveOf s s.cur.tenant).isSome && isLocal s src then
    (((hIndices s).filterMap (hEntry s)).filter fun e => e.kind == 1 && e.owner == s.cur.tenant &&
      decide (e.base < localOf src + n) && decide (localOf src < e.base + e.size)).foldl (fun s e => cribEmpty s e.owner e.pool) s
  else s

/-- The package of a range judges it for the engine: an OP 3 flit that names the range's length beside its address, and bit 63
for a write. The manual gives this request no form (DESIGN CHOICE, log entry 62). -/
def askRange (s : State) (got : List Word) (n : Nat) (a : Word) (write : Bool) : Out :=
  sendRequest (modCur s fun t => { t with lanes := got }) 3 a [BitVec.ofNat 64 (n + if write then 2 ^ 63 else 0)] .drop 8 false

/-- `cpy`. -/
def execCpy (q r : Bool) (c : Scope) (y : CopyKind) (n a b : Reg) (s : State) : Out :=
  gate s (.g (if y = .zero then [n, b] else [n, a, b]) [n]) <|
  alone s <|
    let (src, t) := if y = .zero then (0, s.cur) else takeG s.cur a
    let (dst, t) := takeG t b
    let (len, t) := takeG t n
    let go := fun (got : List Word) =>
      match copyJudge s y len.toNat src dst got.length with
      | .busy => .next s
      | .refuse k d => trap (modCur s fun t => { t with hold := none, lanes := [] }) k d
      | .ask a w => askRange s got len.toNat a w
      | .accept =>
        if !destRoom s.cur n then trap s 0x02 0
        else if 16 ≤ (pendingCmds (engineOf s s.cur.core)).length then .next s
        else .next (acceptCopy (emptyMoved s y len.toNat src) t q r c y n len.toNat src dst)
    match s.cur.hold with
    | some (.answer (some k) _ _) =>
      trap (modCur s fun t => { t with hold := none, lanes := [] }) k
        (if s.cur.lanes.isEmpty && y != .zero && !isLocal s src then src else dst)
    | some (.answer none _ _) => go (s.cur.lanes ++ [0])
    | some _ => .next s
    | none => go []

/-- The state of a command as `cpst` reports it (R148). -/
def copyStateNum : CopyState → Nat
  | .pending => 0
  | .complete => 1
  | .failed => 2

/-- `cpst` (R351). -/
def execCpst (d t : Reg) (s : State) : Out :=
  gate s (.g [t] [d]) <|
    let (x, u) := takeG s.cur t
    if !bitOf x 63 ∨ fieldNat x 31 16 ≠ 0 then trap s 0x02 0
    else
      finishG s u d (match ticketRec s s.cur.core s.cur.tenant x with
        | none => 0x8000000000000003
        | some c => BitVec.ofNat 64 (2 ^ 63 + promiseNow s s.cur.core c % 2 ^ 31 * 2 ^ 32 + copyStateNum c.state))

/-! ### The engine (R146, R353, R354) -/

/-- Change a command of an engine. -/
def mapCmd (s : State) (core seq : Nat) (f : CopyCmd → CopyCmd) : State :=
  let e := engineOf s core
  setEngine s core { e with cmds := e.cmds.map fun c => if c.seq = seq then f c else c }

/-- The first destination address not written. -/
def copyAt (c : CopyCmd) : Word := c.dst + BitVec.ofNat 64 c.done

/-- A cause reaches the issuing task at its next chunk boundary; of one that has ended a fault record goes to the host
(R148). -/
def copyCause (s : State) (c : CopyCmd) (cause : Nat) (detail : Word) : State := deferTo s c.task c.tenant cause detail

/-- The command that stands at the engine's head from now on begins its time without progress (R213). -/
def headBegins (s : State) (core : Nat) : State :=
  match (pendingCmds (engineOf s core)).head? with
  | none => s
  | some c => mapCmd s core c.seq fun c => { c with since := s.time }

/-- Push a command's promise and those queued behind it later (R147). -/
def pushFrom (s : State) (core seq by' : Nat) : State :=
  let e := engineOf s core
  let step := fun (acc : Bool × List CopyCmd) (c : CopyCmd) =>
    let hit := acc.1 || c.seq == seq
    (hit, acc.2 ++ [if hit && c.state == .pending then { c with promise := c.promise + by' } else c])
  setEngine s core { e with cmds := (e.cmds.foldl step (false, [])).2, promise := e.promise + by' }

/-- The first source address that the engine has not read. -/
def askAt (c : CopyCmd) : Word := c.src + BitVec.ofNat 64 (c.done + c.buf.length)

/-- The beat is held: by a home-map entry being rewritten, or by a serial chunk's line (R115, R135, R147). -/
def copyHeld (s : State) (c : CopyCmd) (n : Nat) : Bool :=
  let src := askAt c
  (isLocal s (copyAt c) && (regionBusy s (localOf (copyAt c)) ||
    serialHolds s 0 (linesOf (canon s (localOf (copyAt c))) n))) ||
  (c.kind != .zero && decide (c.buf.length < n) && isLocal s src && regionBusy s (localOf src))

/-- Pre-emption has stopped the engine at a 4 KiB boundary of the destination (R214). -/
def copyStopped (s : State) (c : CopyCmd) : Bool :=
  preempted s c.tenant c.trusted && (c.done == 0 || (copyAt c).toNat % 4096 == 0)

/-- Bytes of the next beat: to the next line of the destination, each line whole (R154, R353). -/
def beatSize (c : CopyCmd) : Nat := min (c.len - c.done) (64 - (copyAt c).toNat % 64)

/-- The command an engine executes: its oldest; but where that one is stopped by a request that halts code-class images alone, the
oldest of its tenant's trusted images goes on (R285). -/
def activeCmd (s : State) (e : Engine) : Option CopyCmd :=
  match (pendingCmds e).head? with
  | none => none
  | some c =>
    if copyStopped s c then
      some (((pendingCmds e).find? fun b => !delays c b && !preempted s b.tenant b.trusted).getD c)
    else some c

/-- A hold of the beats ends: promises are pushed by the time it took, which is no time without progress (R147, R213). -/
def unholdBeat (s : State) (core : Nat) (c : CopyCmd) : State :=
  match c.heldAt with
  | none => s
  | some h => mapCmd (pushFrom s core c.seq (s.time - h)) core c.seq fun c =>
      { c with heldAt := none, since := c.since + (s.time - h) }

/-- A command fails; the bytes it has written stay (R148). -/
def copyFail (s : State) (core : Nat) (c : CopyCmd) (cause : Nat) : State :=
  let s := mapCmd (unholdBeat s core c) core c.seq fun c => { c with state := .failed, cause := cause }
  observe (copyCause (headBegins s core) c cause (copyAt c))

/-- Bytes of the source that the engine reads next: to the end of their line, or of the copy. Each source line is read once, as its
home then holds it (R354). -/
def askSize (c : CopyCmd) : Nat := min (c.len - c.done - c.buf.length) (64 - (askAt c).toNat % 64)

/-- The engine's accesses as Table 05.2 judges them. -/
def engineAccess (write : Bool) (n : Nat) : Access := ⟨write, n, 1, true, true, false⟩

/-- Tags of the words that the `n` bytes of a part of a line touch, from their bits. -/
def tagList (a n v : Nat) : List Bool := (List.range (wordsAt a n).length).map fun i => v.testBit i

/-- Bytes and, of a copy of kind `tags`, their words' tags that the engine has read. -/
def gotSource (s : State) (core : Nat) (c : CopyCmd) (bs : List Byte) (tags : List Bool) : State :=
  mapCmd s core c.seq fun c =>
    { c with buf := c.buf ++ bs, tagBuf := if c.kind == .tags then c.tagBuf ++ tags else [], asked := false }

/-- Read the next source line of a copy at its home in this package (R146, R166, R354): the state after the read, or the cause. -/
def readSource (s : State) (core : Nat) (c : CopyCmd) : State × Option Nat :=
  let a := localOf (askAt c)
  let n := askSize c
  match checkLocal s c.tenant c.trusted a (engineAccess false n) with
  | some k => (s, some k)
  | none =>
    let l := canon s a
    if s.mem.anyPoison l n then (s, some 0x0C)
    else (gotSource (jobRead s a n) core c (s.mem.readBytes l n) ((wordsAt l n).map s.mem.full), none)

/-- The command as its engine holds it now. -/
def cmdNow (s : State) (core : Nat) (c : CopyCmd) : CopyCmd := ((engineOf s core).cmds.find? fun x => x.seq == c.seq).getD c

/-- The posted write of a part of a line to another package: one flit, performed in one step there (R146, R154). -/
def sendPart (s : State) (core : Nat) (c : CopyCmd) (a : Word) (bs : List Byte) (tags : List Bool) : State :=
  sendEngine s core c.tenant c.seq (pkgOf a) 2 (dcoreOf a) 1
    (a :: engineW1 bs.length (c.kind == .tags) :: replyWords bs ++
      (if c.kind == .tags then [BitVec.ofNat 64 ((tags.zipIdx).foldl (fun v x => if x.1 then v + 2 ^ x.2 else v) 0)] else []))

/-- Write a beat at its destination (R146, R165). -/
def beatWrite (s : State) (core : Nat) (c : CopyCmd) (bs : List Byte) (tags : List Bool) : State :=
  let a := copyAt c
  let n := bs.length
  let moved := fun (s : State) (k : Nat) => mapCmd s core c.seq fun c =>
    { c with done := c.done + n, since := s.time, buf := c.buf.drop n, tagBuf := c.tagBuf.drop (n / 8), acks := c.acks + k }
  if isLocal s a then
    match checkLocal s c.tenant c.trusted (localOf a) (engineAccess true n) with
    | some k => copyFail s core c k
    | none =>
      let l := canon s (localOf a)
      if poisonBlocks s.mem l n then copyFail (siloAdd s 2223) core c 0x0C
      else settle (moved (fillLine s l bs tags) 0)
  else if farHeld s core (pkgOf a) then s
  else moved (sendPart s core c a bs tags) 1

/-- One beat of a command: its source read, as many lines as it needs, then its destination written (R353). -/
def copyBeat : Nat → State → Nat → CopyCmd → State
  | 0, s, _, _ => s
  | f + 1, s, core, c =>
    let n := beatSize c
    if c.len ≤ c.done ∨ copyStopped s c then s
    else if copyHeld s c n then
      mapCmd s core c.seq fun c => { c with heldAt := some (c.heldAt.getD s.time) }
    else
      let s := unholdBeat s core c
      let c := cmdNow s core c
      if c.kind == .zero then beatWrite s core c (List.replicate n 0) []
      else if n ≤ c.buf.length then beatWrite s core c (c.buf.take n) (c.tagBuf.take (n / 8))
      else if isLocal s (askAt c) then
        match readSource s core c with
        | (s, some k) => copyFail s core c k
        | (s, none) => copyBeat f s core (cmdNow s core c)
      else if c.asked || decide (256 ≤ requestsOut s core) then s
      else
        mapCmd (sendEngine s core c.tenant c.seq (pkgOf (askAt c)) 0 (dcoreOf (askAt c)) 0
          [askAt c, engineW1 (askSize c) (c.kind == .tags)]) core c.seq fun c => { c with asked := true }

/-- A reply to an engine's request or posted write (R148, R296). -/
def copyReply (s : State) (core seq : Nat) (posted : Bool) (status : Nat) (words : List Word) : State :=
  match (engineOf s core).cmds.find? fun c => c.seq == seq with
  | none => s
  | some c =>
    let s := mapCmd s core seq fun c => if posted then { c with acks := c.acks - 1 } else { c with asked := false }
    if c.state != .pending then s
    else if status = 4 then copyFail s core c (fieldNat (words.getD 0 0) 7 0)
    else if status ≠ 0 then copyFail s core c 0x13
    else if posted then s
    else
      let n := askSize c
      gotSource s core c ((bytesOfWords words).take n)
        (tagList (localOf (askAt c)) n ((bytesOfWords words).getD n 0).toNat)

/-- The last write of a copy is performed and, under a release, so is every earlier posted store of the tenant on the core and
every store of the task that waits in the core's own slice (R139, R146). An engine keeps no copy of its own and reads each
line at its home, so an acquire has nothing to wait for. -/
def copyDone (s : State) (core : Nat) (c : CopyCmd) : Bool :=
  let k := countersOf s core c.tenant
  decide (c.len ≤ c.done) && c.acks == 0 && !(preempted s c.tenant c.trusted && c.len == 0) &&
    (!c.r || (k.near == 0 && k.die == 0 && k.far == 0 && !ownStoreWaits s c.task))

/-- COPY_COMPLETE: the command an engine executes moves its next beat; completes, when its last write has been performed; or
fails with a cause that another package's reply gives (R148, R353). In a cycle in which a sleeper has found it unfinished, the
engine's updates stand before that (R148). -/
def execCopyComplete (core : Nat) (how : CopyStep) (s : State) : Out :=
  match activeCmd s (engineOf s core) with
  | none => .next s
  | some c =>
    if c.missed = some s.time then .next s
    else
    match how with
    | .beat => .next (copyBeat 3 s core c)
    | .finish =>
      if copyDone s core c then
        .next (observe (headBegins (mapCmd (unholdBeat s core c) core c.seq fun c => { c with state := .complete }) core))
      else .next s
    | .fail cause =>
      if !isLocal s c.dst || (c.kind != .zero && !isLocal s c.src) then .next (copyFail s core c cause) else .next s

/-! ### Watchdogs (R213) -/

/-- Cause 0x0C of a watchdog reaches a task; of one that has ended a fault record names the engine's core (R213). -/
def watchdogCause (s : State) (key tenant core : Nat) (detail : Word) : State :=
  deferTo s key tenant 0x0C (if (findTask s key).isSome then detail else BitVec.ofNat 64 core)

/-- The requests that an engine has out no longer reach it: their replies answer nothing. -/
def dropAsked (s : State) (core : Nat) : State :=
  { s with fab := { s.fab with outReqs := s.fab.outReqs.map fun r =>
      if r.core = core ∧ r.copy.isSome ∧ r.posted = false then { r with copy := none } else r } }

/-- The engine is reset: the hung tenant's commands fail, and the others start again from their first byte, with their
tickets and with promises computed anew. -/
def resetEngine (s : State) (core tenant : Nat) : State :=
  let s := dropAsked s core
  let hung := (pendingCmds (engineOf s core)).filter fun c => c.tenant == tenant
  let s := hung.foldl (fun s c =>
    watchdogCause (mapCmd s core c.seq fun c => { c with state := .failed, cause := 0x0C, heldAt := none }) c.task c.tenant core
      (copyAt c)) s
  let e := engineOf s core
  let redo := fun (acc : Nat × List CopyCmd) (c : CopyCmd) =>
    if c.state == .pending then
      let p := newPromise s acc.1 (setupOf s core c.kind c.len c.src c.dst) c.len
      (p, acc.2 ++ [{ c with done := 0, promise := p, heldAt := none, since := s.time, buf := [], tagBuf := []
                             asked := false }])
    else (acc.1, acc.2 ++ [c])
  let out := e.cmds.foldl redo (0, [])
  observe (setEngine s core { e with cmds := out.2, promise := out.1 })

/-- The array is reset: the tiles stay at their last K-block, and the members receive cause 0x0C. -/
def resetArray (s : State) (k tenant : Nat) (a : ArrayOp) : State :=
  a.parts.foldl (fun s p => watchdogCause s p.key tenant p.core 0) (dropArray s k)

/-- A home's job begins no earlier than its access arrived, nor than the last commit or job, one of which made its condition
hold. -/
def jobStart (s : State) (w : Waiter) : Nat :=
  max w.since (max (s.sched.order.job.getD 0) ((s.sched.order.commit.map fun c => c.1).getD 0))

/-- The job a home has in hand for a tenant's access to a word: one that it could have performed. -/
def homeJob (s : State) (core tenant a : Nat) : Option Waiter :=
  s.eng.waiters.find? fun w => w.tenant == tenant && homeOf s w.addr == some core &&
    8 * (canon s w.addr / 8) == 8 * (canon s a / 8) && jobReady s w

/-- The job is given up: its word is poisoned, and who asked for it is answered with cause 0x0C. -/
def resetHome (s : State) (w : Waiter) : State :=
  let s1 := { s with mem := { s.mem with poison := insertNat (8 * (canon s w.addr / 8)) s.mem.poison } }
  answer { s1 with eng := { s1.eng with waiters := s1.eng.waiters.filter fun x => x.id != w.id } } w (some 0x0C) []

/-- The next word of a task, where its core's instruction cache holds it, is a vector instruction (R10). -/
def vectorNext (s : State) (t : Task) : Bool :=
  match fetchWord s t with
  | none => false
  | some w => fieldNat (w.zeroExtend 64) 6 0 == 0x5B

/-- ENGINE_WATCHDOG: the watchdog of a tenant's work in an engine fires after its limit without progress (R213): 1,048,576
cycles without a beat of the command at the engine's head, 262,144 without a K-block, 65,536 without a vector instruction, 4,096
without a job (DEDUCED, log entry 71: a command that stands behind others is not yet the engine's work). -/
def execEngineWatchdog (eng : EngineId) (tenant : Nat) (s : State) : Out :=
  match eng with
  | .copy core =>
    match activeCmd s (engineOf s core) with
    | none => .next s
    | some c =>
      if c.tenant = tenant ∧ c.since + 1048576 ≤ s.time ∧ preempted s c.tenant c.trusted = false ∧ c.heldAt = none then
        .next (siloAdd (resetEngine s core tenant) 2233)
      else .next s
  | .array row =>
    match (rowOps s row).find? fun e => e.2.running && e.2.parts.all (partRuns s) &&
        e.2.parts.any fun p => match findTask s p.key with
          | some t => t.tenant == tenant
          | none => false with
    | none => .next s
    | some (k, a) => if a.since + 262144 ≤ s.time then .next (siloAdd (resetArray s k tenant a) 2233) else .next s
  | .vector core slot =>
    match taskAt s core slot with
    | none => .next s
    | some t =>
      if t.tenant = tenant ∧ vectorNext s t = true ∧ t.hold = none ∧ t.since + 65536 ≤ s.time then
        .next (siloAdd (onTask s t.key fun s => modCur (defer s 0x0C 0) fun t => { t with since := s.time }) 2233)
      else .next s
  | .home core a =>
    match homeJob s core tenant a with
    | none => .next s
    | some w => if jobStart s w + 4096 ≤ s.time then .next (siloAdd (settle (resetHome s w)) 2233) else .next s

end Sys2Proof.Machine
end

