-- ==== Sys2Proof/Machine/Sched.lean ====
section
/-! DEFINITION. The hardware scheduler (R85 to R97): dispatch, the bags, stealing, the placement loop, gangs, commit tokens
(R115), and the clears and acknowledgements that arrive (R140, R143). -/

namespace Sys2Proof.Machine

/-! ### Free slots (R96, R97) -/

/-- The member cores of a gang request or a gang. -/
def memberCores (cl : Bool) (target : Nat) : List Nat :=
  if cl then (List.range 16).map fun i => 16 * target + i else (List.range 8).map fun i => 8 * target + i

/-- Members of a gang that pre-emption has halted. -/
def haltedMembers (s : State) (g : Gang) : List Task :=
  (allTasks s).filter fun t => (t.gang.map (·.1)) == some g.id && t.status == .gangHalted

/-- A halted gang of a tenant that has been resumed. -/
def resumedGang (s : State) (g : Gang) : Bool :=
  let ms := haltedMembers s g
  !ms.isEmpty && ms.all fun t => !halts s t

/-- Free slots of the core are held: for a gang request, or for a resumed gang that is not yet reserved. -/
def slotsHeld (s : State) (core : Nat) : Bool :=
  (s.sched.slotHolds.any fun h => h.1 == core) ||
    s.sched.gangs.any fun g => resumedGang s g && (memberCores g.cl g.target).contains core

/-- The core has a free slot for run-queue work. -/
def slotForQueue (s : State) (core : Nat) : Bool := !(freeSlots s core).isEmpty && !slotsHeld s core

/-! ### Starting a task (R85, R88) -/

/-- The kind field of a task block (Table 04.2). -/
def kindNum : TaskKind → Nat
  | .rule => 0
  | .message => 1
  | .spawn => 2
  | .root => 3

/-- The block of task number `k` of a tenant on a core (R85). -/
def taskBlock (s : State) (tenant core k : Nat) : Nat := localOf (tenantWord s tenant 2) + (72 * core + k) * 128

/-- Tasks dispatched on a core since reset, the one being dispatched left out (Table 04.2; DESIGN CHOICE, log entry 59). -/
def dispatchCount (s : State) (core : Nat) : Nat := Tab.get s.sched.dispatched core 0

/-- The executing task, not started, takes task number `k` in a slot: its number, TASKID and block (R85, Table 04.2). A TBASE of 0
is taken to name no blocks: the task starts and no block is written (DESIGN CHOICE, log entry 59). -/
def firstDispatch (s : State) (slot k : Nat) : State :=
  let t := s.cur
  let n := dispatchCount s t.core
  let id := BitVec.ofNat 64 (t.core * 2 ^ 38 + n % 2 ^ 38)
  let b := taskBlock s t.tenant t.core k
  let c := setG t.ctx 3 (globalOf s b)
  let s1 := modCur { s with sched := { s.sched with dispatched := Tab.set s.sched.dispatched t.core (n + 1) } } fun t =>
    { t with number := k, started := true, startTime := s.time, taskId := id, ctx := c, status := .resident slot, since := s.time
             dispatched := s.nextKey, chunk := Chunk.begin c s.time true }
  let words := [id, BitVec.ofNat 64 (t.prio * 2 ^ 6 + kindNum t.kind), t.origin, t.owner, getG c 10, getG c 11, getG c 12, getG c 13]
  let s2 := if localOf (tenantWord s t.tenant 2) = 0 then s1 else devWrite s1 b (bytesOfWords words) (some true)
  settle (ctlChanged (saveState (bumpKey s2) s2.cur 3) (sealUseOff (t.handle.toNat % 4096)))

/-- The latches made while a task held no slot are there when it has one again (R89, R102, R215). -/
def keepLatches (t : Task) : Task :=
  { t with waits := t.waits.map fun w => { w with sat := w.sat || w.seen } }

/-- The executing task, started before, takes a slot again with the registers its record holds. A yielded task begins a chunk;
a halted one executes its chunk again, which keeps its age, its aborts and its serial mode (R89, R113, R115, R116, R216,
R217). -/
def againDispatch (s : State) (slot : Nat) : State :=
  let s := modCur s keepLatches
  let t := s.cur
  let load := fun (k : Nat) (c : Ctx) => match saveRec s t.tenant t.core k with
    | none => c
    | some b => loadCtx s b c
  let acc := fun (c : Ctx) => match saveRec s t.tenant t.core t.number with
    | none => c
    | some b =>
      let w := s.mem.read64 (b + 0xA28)
      if bitOf w 3 then loadAcc s (b - t.number * 4096 + 0x48000 + fieldNat w 2 0 * 0x8000) c
      else { c with ac := Vector.replicate 4 (Vector.replicate 2048 0) }
  let s1 := modCur s fun t =>
    let u := match t.inline with
      | none => { t with ctx := acc (load t.number t.ctx) }
      | some i => { t with ctx := acc (load i.number t.ctx), inline := some { i with ctx := load t.number i.ctx } }
    let u := { u with status := .resident slot, dispatched := s.nextKey, since := s.time, resumed := true }
    if t.status = .yielded then u.newChunk s.time else { u with chunk := { u.chunk with start := u.ctx } }
  let s2 := match saveRec s t.tenant t.core t.number with
    | none => s1
    | some b => if s.mem.read64 (b + 0xA28) = 0 then s1 else devWord s1 (b + 0xA28) 0
  settle (saveState (bumpKey s2) s2.cur 3)

/-- An entry of the run queue or of a resume list may be dispatched (R85, R88, R89). -/
def dispatchable (s : State) (core : Nat) (t : Task) : Bool :=
  t.core == core && !halts s t &&
    (match t.status with
     | .unstarted => (freeNumber s core t.tenant).isSome
     | .yielded => true
     | .resume => true
     | _ => false)

/-- `t` is dispatched before `u`: priority, then the tenant's deficit and number, then started before unstarted, then the
first started, which its TASKID's count tells of one cycle, or the first enqueued, those of one cycle in the order of their sources
(R88, R123, Table 04.2). -/
def dispatchedBefore (s : State) (t u : Task) : Bool :=
  let a := Tab.get s.sched.deficit (coreTenant t.core t.tenant) 0
  let b := Tab.get s.sched.deficit (coreTenant u.core u.tenant) 0
  if t.prio ≠ u.prio then decide (t.prio < u.prio)
  else if a ≠ b then decide (b < a)
  else if t.tenant ≠ u.tenant then decide (t.tenant < u.tenant)
  else if t.started ≠ u.started then t.started
  else if t.started && t.startTime != u.startTime then decide (t.startTime < u.startTime)
  else if t.started && t.taskId != u.taskId then decide (t.taskId.toNat < u.taskId.toNat)
  else if t.since ≠ u.since then decide (t.since < u.since)
  else if t.src ≠ u.src then decide (t.src < u.src)
  else decide (t.key < u.key)

/-- The entry the dispatcher takes. -/
def dispatchChoice (s : State) (core : Nat) : Option Task :=
  match (allTasks s).filter (dispatchable s core) with
  | [] => none
  | t :: ts => some (ts.foldl (fun b u => if dispatchedBefore s u b then u else b) t)

/-- DISPATCH: the dispatcher starts one entry in a free slot (R88). Of one cycle's events dispatches stand before a cancel,
so after a cancel the dispatcher waits for the next cycle (R122). -/
def execDispatch (core slot : Nat) (s : State) : Out :=
  if !(freeSlots s core).contains slot || slotsHeld s core || !coreEnabled s core || s.sched.order.cancel == some s.time then
    .next s
  else
    match dispatchChoice s core with
    | none => .next s
    | some t =>
      let s1 := onTask s t.key fun s =>
        if s.cur.started then againDispatch s slot
        else match freeNumber s core t.tenant with
          | none => s
          | some k => firstDispatch s slot k
      .next (drainArrivals s1 core)

/-! ### The bag (R91, R92) -/

/-- The rule of an entry is disabled: its pairs stay in their bags (R211). -/
def ruleOff (s : State) (e : BagEntry) : Bool :=
  match poolBase s e.tenant (entryPool e.entry) with
  | none => false
  | some b => match entryRule s e.tenant b e.entry with
    | none => false
    | some w => !bitOf w 62

/-- A pop may take the entry: its tenant is not pre-empted and its rule is enabled (R92, R211). -/
def poppable (s : State) (e : BagEntry) : Bool := !preempted s e.tenant false && !ruleOff s e

/-- Promotion order first, then priority; the oldest is the first in the list (R91). -/
def poppedBefore (a b : BagEntry) : Bool :=
  match a.promoted, b.promoted with
  | some i, some j => decide (i < j)
  | some _, none => true
  | none, some _ => false
  | none, none => decide (a.prio < b.prio)

/-- The place in the bag of the entry a pop takes. -/
def popIndex (s : State) (b : List BagEntry) : Option Nat :=
  ((b.zipIdx).filter fun x => poppable s x.1).foldl (fun best x =>
    match best with
    | none => some x
    | some y => if poppedBefore x.1 y.1 then some x else some y) none |>.map (·.2)

/-- ENTRY_PROMOTION: the entries that stay count one pop; at 3,840 an entry is promoted, entries of one pop in order of age
(R91). -/
def passOver (s : State) (b : List BagEntry) : List BagEntry × Nat :=
  b.foldl (fun acc e =>
    if !poppable s e then (acc.1 ++ [e], acc.2)
    else if 3840 ≤ e.passes + 1 ∧ e.promoted.isNone then
      (acc.1 ++ [{ e with passes := e.passes + 1, promoted := some acc.2 }], acc.2 + 1)
    else (acc.1 ++ [{ e with passes := e.passes + 1 }], acc.2)) ([], s.sched.promoNext)

/-- An entry leaves a bag as a pop. -/
def takeEntry (s : State) (core i : Nat) : State :=
  let p := passOver s ((bagOf s core).eraseIdx i)
  let s := setBag s core p.1
  { s with sched := { s.sched with promoNext := p.2 } }

/-- OWNER of a rule task: the net number and the pool (Table 04.2). -/
def ruleOwner (s : State) (base pool : Nat) : Word :=
  BitVec.ofNat 64 (fieldNat (s.mem.read64 (base + 0x20)) 31 0 * 2 ^ 10 + pool)

/-- The rule task of a popped pair (R84, R92). -/
def ruleBirth (s : State) (core base : Nat) (e : BagEntry) (w : Word) (p : Nat × Nat) : Birth :=
  let h := BitVec.ofNat 16 (fieldNat w 55 40)
  { kind := .rule, core := core, tenant := e.tenant, prio := fieldNat w 57 56, handle := h, trusted := sealTrusted s h
    winnower := false, entry := fieldNat w 39 0, pb := globalOf s base
    args := [BitVec.ofNat 64 p.1, BitVec.ofNat 64 p.2, 0, 0], origin := e.entry
    owner := ruleOwner s base (entryPool e.entry), msg := none, launch := netLaunch s e.tenant (entryPool e.entry)
    rooted := false, net := some (entryPool e.entry), ord := none, imgd := none, src := 2048 }

/-- A pair that creates no task: a fault record, and ACT falls by one (R92, R235). -/
def popFault (s : State) (e : BagEntry) (cause : Nat) : State :=
  let n := match netLaunch s e.tenant (entryPool e.entry) with
    | some l => l.2
    | none => 0
  actLower (bareFault s e.tenant n cause e.entry) e.tenant (entryPool e.entry) false

/-- BAG_POP: the bag's first entry becomes a rule task (R92). -/
def execBagPop (core : Nat) (s : State) : Out :=
  if !coreEnabled s core || !slotForQueue s core || decide (8 ≤ queueLen s core) then .next s
  else
    match popIndex s (bagOf s core) with
    | none => .next s
    | some i =>
      match (bagOf s core)[i]? with
      | none => .next s
      | some e =>
        let s1 := takeEntry s core i
        match poolBase s e.tenant (entryPool e.entry) with
        | none => .next (bareFault s1 e.tenant 0 0x0D e.entry)
        | some base =>
          let hdr := fun (o : Nat) => s.mem.read64 (base + o)
          let s1 := jobRead (jobRead s1 (base + entryA e.entry) 8) (base + entryB e.entry) 8
          if s.mem.poisoned (base + entryA e.entry) || s.mem.poisoned (base + entryB e.entry) then
            .next (settle (popFault s1 e 0x0C))
          else if decide (2 < hdrAux (hdr (entryA e.entry))) || decide (2 < hdrAux (hdr (entryB e.entry))) then
            .next (settle (popFault s1 e 0x0D))
          else
            match entryRule s e.tenant base e.entry with
            | none => .next (settle (popFault s1 e 0x0D))
            | some w => .next (enqueue s1 (ruleBirth s core base e w (orderPair s base (entryA e.entry) (entryB e.entry))))

/-! ### Reload and stealing (R90, R93) -/

/-- Tenants with entries in a core's spill lists, lowest first. -/
def spillTenants (s : State) (core : Nat) : List Nat :=
  (List.range 64).filter fun t => let p := spillOf s core t
                                  decide (p.tail < p.head)

/-- Take the oldest entry of a tenant's spill list (R236). -/
def spillTake (s : State) (core t : Nat) : Option (BagEntry × State) :=
  let p := spillOf s core t
  match spillAddr s core t p.tail with
  | none => none
  | some a =>
    let w := s.mem.read64 (a + 8)
    some (⟨s.mem.read64 a, fieldNat w 5 0, fieldNat w 9 8, 0, none, s.time, 2048⟩,
      jobRead (setSpill s core t { p with tail := p.tail + 1 }) a 16)

/-- Take one entry of each list in turn, until `n` are taken or the lists are empty; a reloaded entry is the youngest of its
bag (DESIGN CHOICE, log entry 59). -/
def reloadFuel : Nat → State → Nat → Nat → List Nat → State
  | 0, s, _, _, _ => s
  | _ + 1, s, _, 0, _ => s
  | f + 1, s, core, n + 1, ts =>
    match ts with
    | [] =>
      match spillTenants s core with
      | [] => s
      | ts => reloadFuel f s core (n + 1) ts
    | t :: ts =>
      let p := spillOf s core t
      match (if p.tail < p.head then spillTake s core t else none) with
      | none => reloadFuel f s core (n + 1) ts
      | some (e, s) => reloadFuel f (setBag s core (bagOf s core ++ [e])) core n ts

/-- BAG_RELOAD: a bag of 192 entries or fewer takes up to 64 spilled entries back (R90). -/
def execBagReload (core : Nat) (s : State) : Out :=
  if 192 < (bagOf s core).length ∨ !coreEnabled s core then .next s
  else .next (observe (reloadFuel 8192 s core 64 (spillTenants s core)))

/-- Move the youngest entries, up to 8, from one bag to another; each counts as a pop of the bag it leaves (R91, R93). -/
def stealFrom (s : State) (thief victim : Nat) : State :=
  let b := bagOf s victim
  let k := min 8 b.length
  let taken := b.drop (b.length - k)
  let s := (List.range k).foldl (fun s _ => takeEntry s victim ((bagOf s victim).length - 1)) s
  observe (setBag s thief ((taken.map fun e =>
    { e with passes := 0, promoted := none, since := s.time, src := sourceRank false victim 0 }).foldl bagInsert (bagOf s thief)))

/-- Depth of a core's bag. -/
def depthOf (s : State) (core : Nat) : Nat := (bagOf s core).length

/-- STEAL: an idle core takes entries of the deepest bag of its cluster, or of the deepest bag of the deepest cluster of its die
(R93; which bag of that cluster: DESIGN CHOICE, log entry 59). -/
def execSteal (core : Nat) (s : State) : Out :=
  if !coreEnabled s core || !slotForQueue s core || decide (0 < queueLen s core) || decide (0 < depthOf s core) then .next s
  else
    match mostBy (depthOf s) (clusterCores s (clusterOf core)) with
    | none => .next s
    | some c =>
      if 8 ≤ depthOf s c then .next (stealFrom s core c)
      else
        let cls := (List.range 16).map fun i => 16 * dieOf core + i
        match (mostBy (clusterDepth s) cls).bind fun cl => mostBy (depthOf s) (clusterCores s cl) with
        | none => .next s
        | some c => .next (stealFrom s core c)

/-- Run-queue entries of each cluster, each for every cycle that passes (R94). -/
def occupy (s : State) (cycles : Nat) : Tab Nat :=
  if cycles = 0 then s.sched.occ
  else
    ((allTasks s).filter Task.queued).foldl (fun o t => Tab.set o (clusterOf t.core) (Tab.get o (clusterOf t.core) 0 + cycles))
      s.sched.occ

/-- The diversion threshold after a loop, of a cluster of `n` cores whose run queues held `sum` entries in all over the cycles
that the loop looks back on: a mean above 8 halves it, a mean below 2 doubles it (R94). -/
def nextDivert (d n cycles sum : Nat) : Nat :=
  if 8 * cycles * n < sum then max 64 (d / 2) else if sum < 2 * cycles * n then min 4096 (2 * d) else d

/-- PLACEMENT_LOOP: every 4,096 cycles the loop takes the mean run-queue occupancy of a cluster's cores over them (R94). The
operand is the sum it reads; a step that names another sum is none of this machine. -/
def execPlacementLoop (cluster occ : Nat) (s : State) : Out :=
  let n := (clusterCores s cluster).length
  let c := s.time - Tab.get s.sched.occFrom cluster 0
  let d := nextDivert (Tab.get s.sched.divert cluster 1024) n c occ
  if n = 0 ∨ c < 4096 ∨ occ ≠ Tab.get s.sched.occ cluster 0 then .next s
  else .next { s with sched := { s.sched with
    divert := Tab.set s.sched.divert cluster d, occ := Tab.erase s.sched.occ cluster
    occFrom := Tab.set s.sched.occFrom cluster s.time } }

/-! ### Gangs (R95 to R97) -/

/-- Halted gangs of a cluster that wait to be reserved again, oldest first. -/
def waitingGangs (s : State) (cluster : Nat) : List Gang :=
  s.sched.gangs.filter fun g => gangCluster g.cl g.target == cluster && resumedGang s g

/-- Every halted member's core has a free slot. -/
def canReseat (s : State) (g : Gang) : Bool := (haltedMembers s g).all fun t => !(freeSlots s t.core).isEmpty

/-- Members take slots again, all of them in one step (R97, R217). -/
def reseat (s : State) (g : Gang) : State :=
  (haltedMembers s g).foldl (fun s t =>
    match freeSlots s t.core with
    | [] => s
    | n :: _ => onTask s t.key fun s => againDispatch s n) s

/-- A request may be reserved: the tenant is not pre-empted; each member core has a free slot not held for another, and a
task number for the tenant; none is a core of a resumed gang, nor of one of the tenant's own that is halted (R85, R96, R97,
R216). -/
def canReserve (s : State) (q : GangReq) : Bool :=
  !preempted s q.tenant q.trusted &&
  (memberCores q.cl q.target).all fun c =>
    !(freeSlots s c).isEmpty && (freeNumber s c q.tenant).isSome &&
    !(s.sched.gangs.any fun g => g.tenant == q.tenant && !(haltedMembers s g).isEmpty &&
      (memberCores g.cl g.target).contains c) &&
    !(s.sched.slotHolds.any fun h => h.1 == c && h.2 != q.id) &&
    !(s.sched.gangs.any fun g => resumedGang s g && (memberCores g.cl g.target).contains c)

/-- The head request of each tenant's list, oldest first (R95, R96). -/
def headRequests (s : State) (cluster : Nat) : List GangReq :=
  (gangQueue s cluster).foldl (fun l q => if l.any fun x => x.tenant == q.tenant then l else l ++ [q]) []

/-- A member of a gang (R84, R96). -/
def memberBirth (q : GangReq) (core : Nat) : Birth :=
  { kind := .spawn, core := core, tenant := q.tenant, prio := q.prio, handle := q.handle, trusted := q.trusted
    winnower := q.winnower, entry := q.entry.toNat, pb := q.pb, args := q.args, origin := q.origin, owner := q.owner
    msg := none, launch := q.launch, rooted := q.rooted, net := none, ord := none, imgd := none, src := 0 }

/-- Start the members of a request directly in their slots (R96). -/
def startGang (s : State) (cluster : Nat) (q : GangReq) : State :=
  let cores := memberCores q.cl q.target
  let step := fun (acc : State × List Member) (x : Nat × Nat) =>
    let (s, ms) := acc
    match freeSlots s x.1, freeNumber s x.1 q.tenant with
    | n :: _, some k =>
      let key := s.nextKey
      let s := enqueue s (memberBirth q x.1)
      (onTask s key fun s => modCur (firstDispatch s n k) fun t => { t with gang := some (q.id, x.2) },
        ms ++ [⟨x.2, key, false, 0, 0, 0, 0⟩])
    | _, _ => (s, ms)
  let (s, ms) := (cores.zipIdx).foldl step (s, [])
  { s with sched := { s.sched with
      gangs := s.sched.gangs ++ [⟨q.id, q.tenant, q.cl, q.target, ms⟩]
      gangQ := Tab.set s.sched.gangQ cluster ((gangQueue s cluster).filter fun x => x.id != q.id)
      slotHolds := s.sched.slotHolds.filter fun h => h.2 != q.id } }

/-- GANG_RESERVE: a resumed gang goes first, then the oldest head request whose member cores each have a free slot (R96,
R97). -/
def execGangReserve (cluster : Nat) (s : State) : Out :=
  match (waitingGangs s cluster).find? (canReseat s) with
  | some g => .next (reseat s g)
  | none =>
    match (headRequests s cluster).find? (canReserve s) with
    | some q => .next (startGang s cluster q)
    | none => .next s

/-- GANG_SLOT_HOLD: the oldest head request has waited 65,536 cycles: free slots on its member cores are held for it
(R96). -/
def execGangSlotHold (cluster : Nat) (s : State) : Out :=
  match headRequests s cluster with
  | [] => .next s
  | q :: _ =>
    if q.since + 65536 ≤ s.time ∧ ¬ (s.sched.slotHolds.any fun h => h.2 == q.id) = true then
      .next { s with sched := { s.sched with
        slotHolds := s.sched.slotHolds ++ (memberCores q.cl q.target).map fun c => (c, q.id) } }
    else .next s

/-! ### Tokens, clears and acknowledgements -/

/-- The token of a scope is free: no task holds it, and no chunk that runs under a token holds one of a scope that shares a core
with it, so that of serial chunks in conflict one alone runs (R115; DEDUCED, log entry 60). -/
def tokenFree (s : State) (scope : TokenScope) : Bool :=
  !s.sched.tokens.any fun e => e.1 == scope ||
    (scopesMeet e.1 scope && (match findTask s e.2 with
      | some t => runsSerial s t
      | none => false))

/-- A task waits for the token of a scope: its chunk is in serial mode, it stands in a slot that issues, and its commit will find
the baton (R115, R118; DEDUCED, log entry 60). -/
def tokenAsker (s : State) (scope : TokenScope) (t : Task) : Bool :=
  t.chunk.want == some scope && t.chunk.serial && awaitsToken s t && t.slot?.isSome && !halts s t && batonAt s t

/-- SERIAL_TOKEN_GRANT: the free token of a scope goes to the oldest serial chunk that waits for it (R115). -/
def execSerialTokenGrant (scope : TokenScope) (s : State) : Out :=
  if !tokenFree s scope then .next s
  else
    match (allTasks s).filter (tokenAsker s scope) with
    | [] => .next s
    | t :: ts =>
      let t := ts.foldl (fun b u => if older u b then u else b) t
      .next { s with sched := { s.sched with tokens := s.sched.tokens ++ [(scope, t.key)] } }

/-- SCRUB_CLEAR_COMPLETE: the background clear of a granule that an access has reached ends, and its bit reads 0 (R143). -/
def execScrubClearComplete (granule : Nat) (s : State) : Out :=
  if s.mem.clearing.contains granule then
    .next (ctlChanged { s with mem := { s.mem with
      clearing := s.mem.clearing.filter (· != granule)
      scrubbed := insertNat granule s.mem.scrubbed } } (0x1000000 + granule / 8))
  else .next s

/-- Posted stores and messages of a class that have not been performed yet. -/
def postedOpen (s : State) (core tenant : Nat) (k : WaitClass) : Nat :=
  (s.eng.waiters.filter fun w => match w.asker with
    | .posted c t cls _ => c == core && t == tenant && cls == k
    | _ => false).length +
  (s.fab.netMsgs.filter fun m => m.counted && m.src == core && m.msg.tenant == tenant && msgClass core m.dst == k).length

/-- STORE_ACK: a home acknowledges a performed store of a core's tenant (R140); a far one is acknowledged by its reply. -/
def execStoreAck (core tenant : Nat) (cls : WaitClass) (s : State) : Out :=
  if (cls = .near ∨ cls = .die) ∧ postedOpen s core tenant cls < (countersOf s core tenant).out cls then
    .next (observe (lowerCounter s core tenant cls false))
  else .next s

end Sys2Proof.Machine
end

