-- ==== Sys2Proof/Machine/Preempt.lean ====
section
/-! DEFINITION. Pre-emption (R214, R285) and the writes to control space as steps of their own (R133, R135, R143, R255, R458). -/

namespace Sys2Proof.Machine

/-! ### Pre-emption -/

/-- A trusted image runs in some slot: it alone makes the trusted request (R285). -/
def trustedRuns (s : State) : Bool := (allTasks s).any fun t => t.trusted && t.slot?.isSome

/-- The request of a source may be written: service firmware writes its own through the window (R254). -/
def mayRequest (s : State) (t : Nat) (src : PreemptSrc) : Bool :=
  decide (t < 64) && (match src with
    | .service => true
    | .trusted => trustedRuns s)

/-- PREEMPT_REQUEST: a write of 1 halts the tasks and units the request covers (R214, R285). -/
def execPreemptRequest (t : Nat) (src : PreemptSrc) (s : State) : Out :=
  if mayRequest s t src then .next (writeRequest s t src true) else .next s

/-- PREEMPT_RELEASE: a write of 0 lifts its source's request; the tasks no request covers may be dispatched again (R285). -/
def execPreemptRelease (t : Nat) (src : PreemptSrc) (s : State) : Out :=
  if mayRequest s t src then .next (writeRequest s t src false) else .next s

/-- The request of a source stands. -/
def requested (s : State) (t : Nat) (src : PreemptSrc) : Bool :=
  match src with
  | .service => s.pre.svc.getLsbD t
  | .trusted => s.pre.tr.getLsbD t

/-- The request covers an image of this class (R285). -/
def covers (src : PreemptSrc) (trusted : Bool) : Bool := src == .service || !trusted

/-- Every task the request covers is halted, and every copy it stops stands at its boundary (R214). -/
def allHalted (s : State) (t : Nat) (src : PreemptSrc) : Bool :=
  !((allTasks s).any fun u => u.tenant == t && u.slot?.isSome && covers src u.trusted) &&
  s.eng.engines.all fun e => (pendingCmds e.2).all fun c => c.tenant != t || !covers src c.trusted || copyStopped s c

/-- PREEMPT bit 1 of a source reads 1: running chunks that read the word abort (R458). -/
def acknowledge (s : State) (t : Nat) (src : PreemptSrc) : State :=
  ctlChanged { s with pre := match src with
    | .service => { s.pre with svcAck := putTenant s.pre.svcAck t true }
    | .trusted => { s.pre with trAck := putTenant s.pre.trAck t true } } (tenantOff t 10)

/-- PREEMPT_HALT_COMPLETE: tasks whose records a serial chunk held back are halted now where it does so no longer; when every
core has acknowledged the halt, PREEMPT bit 1 reads 1 (R115, R214, R285). -/
def execPreemptHaltComplete (t : Nat) (src : PreemptSrc) (s : State) : Out :=
  let u := haltTenant s t
  if decide (64 ≤ t) || !requested s t src then .next s
  else if allHalted u t src then .next (acknowledge u t src)
  else .next u

/-! ### Writes of trusted images -/

/-- The slot runs a trusted image. -/
def trustedAt (s : State) (core slot : Nat) : Bool :=
  match taskAt s core slot with
  | some t => t.trusted
  | none => false

/-- HMAP_WRITE: a trusted write of one word of HMAP[n], judged (R133, R135, R256). -/
def execHmapWrite (core slot n : Nat) (hi : Bool) (v : Word) (s : State) : Out :=
  if trustedAt s core slot && decide (n < 4096) then .next (settle (hmapStore s core slot n hi v)) else .next s

/-- UNSCRUBBED_MARK: a trusted write of 1 marks a granule unscrubbed (R143). -/
def execUnscrubbedMark (core slot granule : Nat) (s : State) : Out :=
  if trustedAt s core slot then .next (settle (unscrubbedStore s core slot [granule])) else .next s

/-- CONTROL_SPACE_WRITE: a trusted write of a control-space word (R458). -/
def execControlSpaceWrite (core slot off : Nat) (v : Word) (s : State) : Out :=
  if trustedAt s core slot && decide (off % 8 = 0) then .next (settle (ctlWrite s core slot off (bytesOfNat 8 v.toNat)))
  else .next s

/-- A tenant's issue weight; 0 is stored as 1 (R255). -/
def setWeight (s : State) (t : Nat) (v : Byte) : State := devCtl s (tenantOff t 1) (if v = 0 then 1 else v.zeroExtend 64)

/-- WEIGHT: a service write of a tenant's issue weight (R255). -/
def execWeight (t : Nat) (v : Byte) (s : State) : Out := if t < 64 then .next (setWeight s t v) else .next s

end Sys2Proof.Machine
end

