-- ==== Sys2Proof/Machine/Interface.lean ====
section
/-! DEFINITION. The fabric interface as a flit arrives: the link's tag and key bank (R299 to R301), malformed flits (R292),
incarnations (R298) and interfaces being torn down (R281). -/

namespace Sys2Proof.Machine

/-- The flit reaches this package over an enabled port whose link is up. -/
def flitArrives (s : State) (f : Flit) : Bool :=
  flitFits f && (portsOn s).contains f.port && (linkAt s f.port).up && f.dest == s.conf.pkg

/-- The counter of the bank that decrypts a flit: one that has not yet been used starts at 0 (R299, R300). -/
def rxCounter (s : State) (f : Flit) : Nat :=
  let l := linkAt s f.port
  if f.kgen = l.rxKgen then l.rxCtr else 0

/-- The tag that a flit of these contents carries under the receiver's keys. -/
def tagDue (s : State) (f : Flit) : List Byte :=
  flitTag (bankKey s (rxSlot f.port) f.kgen) (linkAt s f.port).rxDir (rxCounter s f) f

/-- The GCM tag of an arriving flit verifies; KGEN names a bank that holds a key (R299). -/
def tagVerifies (s : State) (f : Flit) : Bool :=
  !(bankKey s (rxSlot f.port) f.kgen).isEmpty && f.tag == tagDue s f

/-- The flits a link has held leave, under its present key bank (R299). -/
def releaseHeld (s : State) (p : Nat) : State :=
  let l := linkAt s p
  l.held.foldl sendFlit (setLink s p { l with held := [] })

/-- An incarnation announcement has still to leave: until then a reset package accepts no request (R298). -/
def announcing (s : State) : Bool := s.fab.links.any fun e => e.2.held.any fun f => f.op == 11

/-- Flits of other packages that wait here, at their home or held behind another (R295, R314). -/
def waitingFlits (s : State) : List Flit :=
  (s.eng.waiters.filterMap fun w => match w.asker with
    | .remote f => some f
    | _ => none) ++ s.fab.holdQ.flatMap fun e => e.2

/-- TIs with traffic outstanding across a port. -/
def tisAcross (s : State) (p : Nat) : List Nat :=
  (((s.fab.outReqs.filter fun r => r.flit.port == p).map fun r => r.tenant) ++
    ((waitingFlits s).filter fun f => f.port == p).map fun f => f.ti).foldl (fun l t => addNew t l) []

/-- LINK_DOWN: the link goes down, and every TI with traffic outstanding across it enters ERROR (R279, R301). -/
def takeDown (s : State) (p : Nat) : State :=
  let ts := tisAcross s p
  ts.foldl tiError (siloAdd (setLink s p { linkAt s p with up := false, fails := 0 }) 2240)

/-- A flit whose tag fails is dropped and resent by link-level replay; at three consecutive failures the link goes down
(R301). -/
def tagFailed (s : State) (p : Nat) : State :=
  let l := linkAt s p
  if 3 ≤ l.fails + 1 then takeDown s p else setLink s p { l with fails := l.fails + 1 }

/-- A rekey with one more of its two ends done; it is over when both are (R300). -/
def rekeyDone (r : Rekey) : Option Rekey := if r.tx && r.rx then none else some r

/-- A bank of a link direction loses its key, or gets one (R299, R300). -/
def setBank (s : State) (slot : Nat) (kgen : Bool) (key : List Byte) : State :=
  let k := Tab.get s.mgmt.keys slot .empty
  let k := if kgen then { k with code := key } else { k with image := key }
  { s with mgmt := { s.mgmt with keys := Tab.set s.mgmt.keys slot k } }

/-- A flit whose tag verifies: at the first one with the new KGEN the old bank is retired (R299, R300). -/
def tagPassed (s : State) (f : Flit) : State :=
  let l := linkAt s f.port
  if f.kgen = l.rxKgen then setLink s f.port { l with fails := 0, rxCtr := l.rxCtr + 1 }
  else
    setBank (setLink s f.port { l with
      fails := 0, rxCtr := 1, rxKgen := f.kgen
      rekey := (l.rekey.map fun r => { r with rx := true }).bind rekeyDone }) (rxSlot f.port) l.rxKgen []

/-- A flit of this package's incarnation is asked for: every one but replies and announcements, whose sender may be newly reset
and know none (R298; DEDUCED, log entry 24). -/
def stampChecked (f : Flit) : Bool := f.op != 9 && f.op != 11

/-- A flit whose tag verifies and that is well formed: STALE, TORN, or on to its operation (R281, R298). -/
def acceptFlit (s : State) (f : Flit) (k : State → State) : State :=
  if malformed f then siloAdd s 2236
  else if stampChecked f && f.dinc != s.conf.incarnation then replyTo s f 2 []
  else if f.cls ≠ 4 ∧ f.op ≠ 9 ∧ tiState s f.ti = 4 then
    replyTo (forgetNacks s (fun k => k == holdKey f) fun n => n.1 == f.reqid) f 3 []
  else k s

/-- A flit of another package arrives. One that asks for something waits on its link while this package has its incarnation
to announce (R298). -/
def receive (s : State) (f : Flit) (k : State → State) : State :=
  if !flitArrives s f || (announcing s && f.op != 9 && f.cls != 4) then s
  else if !tagVerifies s f then tagFailed s f.port
  else acceptFlit (tagPassed s f) f k

end Sys2Proof.Machine
end

