-- ==== Sys2Proof/Machine/Vector.lean ====
section
/-! DEFINITION. Integer vector operations, moves, permutations, compares and reductions (R432 to R436, R446 to R448, R450,
R451), and the space-filling-curve keys (R199 to R201, R412, R413). -/

namespace Sys2Proof.Machine

/-! ### Elements (R433) -/

/-- Element width in bits. -/
def ElemType.width : ElemType → Nat
  | .i8 => 8
  | .i16 => 16
  | .i32 => 32
  | .i64 => 64

/-- The `n` elements of width `w` of a vector, element 0 first. -/
def vecElems (w n : Nat) (v : VWord) : List Nat := (List.range n).map (elemAt w v)

/-- The vector of elements of width `w`, element 0 first, zeros above. -/
def vecPack (w : Nat) (xs : List Nat) : VWord := BitVec.ofNat 512 (vecOf w xs)

/-- A masked combination of two vectors: an inactive element is zero (R433). -/
def vecMap2 (w : Nat) (m : Word) (f : Nat → Nat → Nat) (x y : VWord) : VWord :=
  vecPack w ((vecElems w (512 / w) x).zipWith f (vecElems w (512 / w) y) |>.mapIdx fun i r => if bitOf m i then r else 0)

/-- An instruction of two vector sources and one vector destination, all of it written (R433). -/
def opVV (s : State) (d a b : Reg) (f : VWord → VWord → VWord) : Out :=
  gate s ⟨false, [], [], [a, b], [d]⟩ <|
    .next (retire s { s.cur with ctx := setV s.cur.ctx d (f (getV s.cur.ctx a) (getV s.cur.ctx b)) })

/-- An instruction of one vector source and one vector destination. -/
def opVU (s : State) (d a : Reg) (f : VWord → VWord) : Out :=
  gate s ⟨false, [], [], [a], [d]⟩ <|
    .next (retire s { s.cur with ctx := setV s.cur.ctx d (f (getV s.cur.ctx a)) })

/-- A masked integer operation (R432, R434, R451). -/
def vecInt (s : State) (t : ElemType) (m : BitVec 3) (d a b : Reg) (f : Nat → Nat → Nat → Nat) : Out :=
  opVV s d a b fun x y => vecMap2 (ElemType.width t) (getM s.cur.ctx (m.zeroExtend 5)) (f (ElemType.width t)) x y

/-- The lesser or greater of two elements, signed. -/
def minS (w x y : Nat) : Nat := if signedOf w x ≤ signedOf w y then x else y
def maxS (w x y : Nat) : Nat := if signedOf w x ≤ signedOf w y then y else x

/-- `vadd` (R434). -/
def execVadd (t : ElemType) (m : BitVec 3) (d a b : Reg) (s : State) : Out :=
  vecInt s t m d a b fun w x y => (x + y) % 2 ^ w
/-- `vsub` (R434). -/
def execVsub (t : ElemType) (m : BitVec 3) (d a b : Reg) (s : State) : Out :=
  vecInt s t m d a b fun w x y => (x + 2 ^ w - y) % 2 ^ w
/-- `vmul` (R434). -/
def execVmul (t : ElemType) (m : BitVec 3) (d a b : Reg) (s : State) : Out :=
  vecInt s t m d a b fun w x y => x * y % 2 ^ w
/-- `vmin` (R434). -/
def execVmin (t : ElemType) (m : BitVec 3) (d a b : Reg) (s : State) : Out := vecInt s t m d a b minS
/-- `vmax` (R434). -/
def execVmax (t : ElemType) (m : BitVec 3) (d a b : Reg) (s : State) : Out := vecInt s t m d a b maxS
/-- `vminu` (R434). -/
def execVminu (t : ElemType) (m : BitVec 3) (d a b : Reg) (s : State) : Out := vecInt s t m d a b fun _ x y => min x y
/-- `vmaxu` (R434). -/
def execVmaxu (t : ElemType) (m : BitVec 3) (d a b : Reg) (s : State) : Out := vecInt s t m d a b fun _ x y => max x y
/-- `vand` (R434). -/
def execVand (t : ElemType) (m : BitVec 3) (d a b : Reg) (s : State) : Out := vecInt s t m d a b fun _ x y => x &&& y
/-- `vor` (R434). -/
def execVor (t : ElemType) (m : BitVec 3) (d a b : Reg) (s : State) : Out := vecInt s t m d a b fun _ x y => x ||| y
/-- `vxor` (R434). -/
def execVxor (t : ElemType) (m : BitVec 3) (d a b : Reg) (s : State) : Out := vecInt s t m d a b fun _ x y => x ^^^ y
/-- `vsll` (R451): the amount is the low log2(w) bits of the element of vs2. -/
def execVsll (t : ElemType) (m : BitVec 3) (d a b : Reg) (s : State) : Out :=
  vecInt s t m d a b fun w x y => x * 2 ^ (y % w) % 2 ^ w
/-- `vsrl` (R451). -/
def execVsrl (t : ElemType) (m : BitVec 3) (d a b : Reg) (s : State) : Out :=
  vecInt s t m d a b fun w x y => x / 2 ^ (y % w)
/-- `vsra` (R451). -/
def execVsra (t : ElemType) (m : BitVec 3) (d a b : Reg) (s : State) : Out :=
  vecInt s t m d a b fun w x y => wrapTo w (signedOf w x / 2 ^ (y % w))

/-! ### Permutations and moves (R435, R446, R447, R450) -/

/-- `vperm`: byte i of the index names a byte of the source, or zero when its bit 7 is set (R447). -/
def execVperm (d a b : Reg) (s : State) : Out :=
  opVV s d a b fun x y => vecPack 8 ((vecElems 8 64 y).map fun k => if 128 ≤ k then 0 else (x.toNat >>> (8 * (k % 64))) % 256)

/-- `vbcast`: the low 2^(w+3) bits of a general register in every element (R435). -/
def execVbcast (d a : Reg) (w : BitVec 5) (s : State) : Out :=
  gate s ⟨false, [a], [], [], [d]⟩ <|
    let (x, t) := takeG s.cur a
    let k := 2 ^ (w.toNat + 3)
    .next (retire s { t with ctx := setV t.ctx d (vecPack k (List.replicate (512 / k) x.toNat)) })

/-- `vmv.vg`: a general register in lane n, zeros elsewhere (R446). -/
def execVmvVg (d a : Reg) (n : BitVec 5) (s : State) : Out :=
  gate s ⟨false, [a], [], [], [d]⟩ <|
    let (x, t) := takeG s.cur a
    .next (retire s { t with ctx := setV t.ctx d (BitVec.ofNat 512 (x.toNat <<< (64 * n.toNat))) })

/-- `vmv.gv`: lane n in a general register (R446). -/
def execVmvGv (d a : Reg) (n : BitVec 5) (s : State) : Out :=
  gate s ⟨false, [], [d], [a], []⟩ <|
    finishG s s.cur d (((getV s.cur.ctx a) >>> (64 * n.toNat)).truncate 64)

/-- `vsel`: 32-bit elements by m1 (R450). -/
def execVsel (d a b : Reg) (s : State) : Out :=
  opVV s d a b fun x y =>
    vecPack 32 ((vecElems 32 16 x).zipWith (fun u v => (u, v)) (vecElems 32 16 y) |>.mapIdx fun i r =>
      if bitOf (getM s.cur.ctx 1) i then r.1 else r.2)

/-! ### Compares and reductions (R436, R448) -/

/-- A mask from truth values, bit i from the i-th, zeros above. -/
def maskOf (bs : List Bool) : Word := BitVec.ofNat 64 (vecOf 1 (bs.map fun b => if b then 1 else 0))

/-- One comparison of `vcmp` (R436). -/
def vecCmp (c : VCmpOp) (w x y : Nat) : Bool :=
  match c with
  | .eq => decide (x = y)
  | .ne => decide (x ≠ y)
  | .lt => decide (signedOf w x < signedOf w y)
  | .ltu => decide (x < y)
  | .le => decide (signedOf w x ≤ signedOf w y)
  | .leu => decide (x ≤ y)

/-- `vcmp` (R436). -/
def execVcmp (c : VCmpOp) (t : ElemType) (m a b : Reg) (s : State) : Out :=
  gate s ⟨false, [], [], [a, b], []⟩ <|
    let w := ElemType.width t
    let r := (vecElems w (512 / w) (getV s.cur.ctx a)).zipWith (vecCmp c w) (vecElems w (512 / w) (getV s.cur.ctx b))
    .next (retire s { s.cur with ctx := setM s.cur.ctx m (maskOf r) })

/-- One combination of `vred` (R448). -/
def redStep (o : RedOp) (w x y : Nat) : Nat :=
  match o with
  | .add => (x + y) % 2 ^ w
  | .min => minS w x y
  | .max => maxS w x y
  | .minu => min x y
  | .maxu => max x y
  | .and => x &&& y
  | .or => x ||| y
  | .xor => x ^^^ y

/-- `vred`: every element combined into element 0 (R448). -/
def execVred (o : RedOp) (t : ElemType) (d a : Reg) (s : State) : Out :=
  opVU s d a fun x =>
    let w := ElemType.width t
    match vecElems w (512 / w) x with
    | [] => 0
    | e :: es => BitVec.ofNat 512 (es.foldl (redStep o w) e)

/-! ### Space-filling-curve keys (R199 to R201) -/

/-- Bit n of each coordinate at bit k n + j of the key. -/
def interleave (cs : List Nat) (width : Nat) : Nat :=
  ((List.range width).map fun n =>
    (cs.mapIdx fun j c => if c.testBit n then 2 ^ (cs.length * n + j) else 0).sum).sum

/-- Morton keys (Table 07.7). -/
def morton2 (x y : Nat) : Nat := interleave [x % 2 ^ 32, y % 2 ^ 32] 32
def morton3 (x y z : Nat) : Nat := interleave [x % 2 ^ 21, y % 2 ^ 21, z % 2 ^ 21] 21

/-- One level of the Hilbert 2D key, s = 2^n (R200). -/
def hilbert2Step (n : Nat) (st : Nat × Nat × Nat) : Nat × Nat × Nat :=
  let (x, y, d) := st
  let s := 2 ^ n
  let rx := x.testBit n
  let ry := y.testBit n
  let d := (d + s * s * ((if rx then 3 else 0) ^^^ (if ry then 1 else 0))) % 2 ^ 64
  if ry then (x, y, d)
  else
    let (x, y) := if rx then ((2 ^ 64 + 2 ^ 32 - 1 - x) % 2 ^ 64, (2 ^ 64 + 2 ^ 32 - 1 - y) % 2 ^ 64) else (x, y)
    (y, x, d)

/-- Levels n - 1 down to 0. -/
def hilbert2From : Nat → Nat × Nat × Nat → Nat × Nat × Nat
  | 0, st => st
  | n + 1, st => hilbert2From n (hilbert2Step n st)

/-- Hilbert 2D key (R200). -/
def hilbert2 (x y : Nat) : Nat := (hilbert2From 32 (x % 2 ^ 32, y % 2 ^ 32, 0)).2.2

/-- One axis of the undo loop of Skilling's transpose, Q = 2^n, axis 0, 1 or 2 (R201). -/
def skillingAxis (n : Nat) (i : Nat) (st : Nat × Nat × Nat) : Nat × Nat × Nat :=
  let (a, b, c) := st
  let p := 2 ^ n - 1
  let xi := if i = 0 then a else if i = 1 then b else c
  if xi.testBit n then (a ^^^ p, b, c)
  else
    let t := (a ^^^ xi) &&& p
    if i = 0 then (a ^^^ t ^^^ t, b, c)
    else if i = 1 then (a ^^^ t, b ^^^ t, c)
    else (a ^^^ t, b, c ^^^ t)

/-- The undo loop for Q = 2^n down to 2. -/
def skillingUndo : Nat → Nat × Nat × Nat → Nat × Nat × Nat
  | 0, st => st
  | n + 1, st => skillingUndo n (skillingAxis (n + 1) 2 (skillingAxis (n + 1) 1 (skillingAxis (n + 1) 0 st)))

/-- The last exclusive-or term, for Q = 2^n down to 2. -/
def skillingTail (c : Nat) : Nat → Nat → Nat
  | 0, t => t
  | n + 1, t => skillingTail c n (if c.testBit (n + 1) then t ^^^ (2 ^ (n + 1) - 1) else t)

/-- Hilbert 3D key (R201). -/
def hilbert3 (x y z : Nat) : Nat :=
  let (a, b, c) := skillingUndo 20 (x % 2 ^ 21, y % 2 ^ 21, z % 2 ^ 21)
  let b := b ^^^ a
  let c := c ^^^ b
  let t := skillingTail c 20 0
  interleave [c ^^^ t, b ^^^ t, a ^^^ t] 21

/-- The key of a kind (Table 07.7). -/
def sfcKey (kind x y z : Nat) : Nat :=
  if kind = 0 then morton2 x y else if kind = 1 then morton3 x y z else if kind = 2 then hilbert2 x y else hilbert3 x y z

/-- The sources of `sfckey`: two vectors, or three for kinds 1 and 3 (R209, R412). -/
def sfcSources (a : Reg) (k : BitVec 5) : List Reg :=
  if k.toNat % 2 = 0 then [a, regPlus a 1] else [a, regPlus a 1, regPlus a 2]

/-- `sfckey` (R412, R413). -/
def execSfckey (d a : Reg) (k : BitVec 5) (s : State) : Out :=
  gate s ⟨false, [], [], sfcSources a k, [d]⟩ <|
    let x := getV s.cur.ctx a
    let y := getV s.cur.ctx (regPlus a 1)
    let z := getV s.cur.ctx (regPlus a 2)
    let keys := (List.range 8).map fun i =>
      sfcKey k.toNat (elemAt 64 x i) (elemAt 64 y i) (elemAt 64 z i)
    .next (retire s { s.cur with ctx := setV s.cur.ctx d (vecPack 64 keys) })

end Sys2Proof.Machine
end

