-- ==== Sys2Proof/Machine/Gleaner.lean ====
section
/-! DEFINITION. The repartition collective (R308 to R313, R316, R317, R401 to R405). The manual leaves the gleaners' own flits
to them (R292): those used here are the model's (DESIGN CHOICE, log entry 11). -/

namespace Sys2Proof.Machine

/-! ### The argument block (Table 15.7) -/

def blkWord (b : List Word) (i : Nat) : Word := b.getD i 0
def blkTeam (b : List Word) : Nat := fieldNat (blkWord b 0) 31 0
def blkP (b : List Word) : Nat := fieldNat (blkWord b 0) 47 32 + 1
def blkRank (b : List Word) : Nat := fieldNat (blkWord b 0) 63 48
def blkCount (b : List Word) : Nat := fieldNat (blkWord b 3) 19 0
def blkSize (b : List Word) : Nat := fieldNat (blkWord b 3) 40 32
def blkKind (b : List Word) : Nat := fieldNat (blkWord b 4) 2 1
def blkWidth (b : List Word) : Nat := fieldNat (blkWord b 4) 8 3
def blkRcap (b : List Word) : Nat := fieldNat (blkWord b 7) 19 0
def blkScap (b : List Word) : Nat := fieldNat (blkWord b 9) 19 0

/-- Axes of a key kind. -/
def blkAxes (b : List Word) : Nat := if blkKind b % 2 = 1 then 3 else 2

/-- Some check of R309 that raises cause 0x02 fails. -/
def blkBad (b : List Word) : Bool :=
  let w := blkWord b
  let n := fun i m => decide ((w i).toNat % m ≠ 0)
  n 1 8 || n 2 16 || n 6 16 || n 8 16 ||
  decide (fieldNat (w 3) 31 20 ≠ 0) || decide (fieldNat (w 3) 63 41 ≠ 0) || decide (fieldNat (w 4) 63 32 ≠ 0) ||
  decide (fieldNat (w 4) 15 9 ≠ 0) || decide (fieldNat (w 5) 63 9 ≠ 0) || decide (fieldNat (w 7) 63 20 ≠ 0) ||
  decide (fieldNat (w 9) 63 20 ≠ 0) || ((b.drop 11).any fun x => x != 0) ||
  decide (blkSize b < 16) || decide (256 < blkSize b) || decide (blkSize b % 16 ≠ 0) || decide (blkP b ≤ blkRank b) ||
  decide (fieldNat (w 4) 31 24 % 8 ≠ 0) || decide (blkSize b < fieldNat (w 4) 31 24 + 8) ||
  decide (fieldNat (w 4) 23 16 % 4 ≠ 0) || decide (blkSize b < fieldNat (w 4) 23 16 + 4 * blkAxes b) ||
  decide (blkWidth b < 1) || decide ((if blkKind b % 2 = 0 then 32 else 21) < blkWidth b) ||
  decide (fieldNat (w 5) 7 0 % 4 ≠ 0) || decide (blkSize b < fieldNat (w 5) 7 0 + 4)

/-- The table, item, receive and spill ranges. -/
def blkRanges (b : List Word) : List (Word × Nat) :=
  [(blkWord b 2, blkCount b * blkSize b), (blkWord b 6, blkRcap b * blkSize b), (blkWord b 8, blkScap b * blkSize b)]

/-- The addresses at which a range is judged: its first, and each 64 KiB boundary inside it. -/
def rangePoints (a : Word) (n : Nat) : List Word :=
  a :: (List.range (n / 0x10000 + 1)).filterMap fun i =>
    let o := 0x10000 * (i + 1) - a.toNat % 0x10000
    if o < n then some (a + BitVec.ofNat 64 o) else none

/-- A range is the tenant's, not sealed, and wholly local (R309); one of length 0 holds nothing to refuse. No class of image is
exempt at the acceptance of an engine (R210). -/
def rangeOwned (s : State) (a : Word) (n : Nat) : Bool :=
  n == 0 || (decide (fieldNat a 63 56 = 0) && decide (localOf a + n ≤ 2 ^ 40) &&
    (rangePoints a n).all fun x =>
      isLocal s x && (checkLocal s s.cur.tenant false (localOf x)
        ⟨true, min (n - (x.toNat - a.toNat)) (0x10000 - x.toNat % 0x10000), 1, true, true, false⟩).isNone)

/-- The canonical form of a range, for overlaps. -/
def rangesOverlap (s : State) (x y : Word × Nat) : Bool :=
  let a := canon s (localOf x.1)
  let b := canon s (localOf y.1)
  decide (0 < x.2) && decide (0 < y.2) && decide (a < b + y.2) && decide (b < a + x.2)

/-- Some check of R309 that raises cause 0x14 fails. -/
def blkRefused (s : State) (b : List Word) : Bool :=
  let rs := blkRanges b
  ((blkWord b 1, 2 * blkP b) :: (blkWord b 10, 8) :: rs).any (fun r => !rangeOwned s r.1 r.2) ||
  (match rs with
   | [x, y, z] => rangesOverlap s x y || rangesOverlap s x z || rangesOverlap s y z
   | _ => false)

/-! ### Keys and items (R310) -/

/-- The bytes of item `i` as they stand. -/
def itemBytes (s : State) (b : List Word) (i : Nat) : List Byte :=
  s.mem.readBytes (canon s (localOf (blkWord b 2)) + blkSize b * i) (blkSize b)

/-- A field of an item. -/
def itemField (bs : List Byte) (o n : Nat) : Nat := natOfBytes ((bs.drop o).take n)

/-- The key of an item (R199 to R201, R310). -/
def itemKey (b : List Word) (bs : List Byte) : Nat :=
  if bitOf (blkWord b 4) 0 then itemField bs (fieldNat (blkWord b 4) 31 24) 8
  else
    let c := fun (i : Nat) => itemField bs (fieldNat (blkWord b 4) 23 16 + 4 * i) 4 % 2 ^ blkWidth b
    sfcKey (blkKind b) (c 0) (c 1) (if blkAxes b = 3 then c 2 else 0)

/-- The weight of an item. -/
def itemWeight (b : List Word) (bs : List Byte) : Nat :=
  if bitOf (blkWord b 5) 8 then 1 else itemField bs (fieldNat (blkWord b 5) 7 0) 4

/-- Insert behind those of a key not above it: a stable sort. -/
def insertItem (x : Nat × List Byte) : List (Nat × List Byte) → List (Nat × List Byte)
  | [] => [x]
  | y :: ys => if x.1 < y.1 then x :: y :: ys else y :: insertItem x ys

/-- The participant's items, sorted by key and then by item index (R310). -/
def sortedItems (s : State) (b : List Word) : List (Nat × List Byte) :=
  ((List.range (blkCount b)).map fun i => let bs := itemBytes s b i
                                          (itemKey b bs, bs)).foldl (fun l x => insertItem x l) []

/-- The pieces of a participant's items. -/
def itemPieces (s : State) (b : List Word) : List GItem :=
  ((sortedItems s b).zipIdx).flatMap fun x =>
    let ws := wordsOfBytes x.1.2 (blkSize b / 8)
    let mk := fun (i : Nat) (ws : List Word) => GItem.mk (blkRank b) x.2 x.1.1 (itemWeight b x.1.2) i ws
    if 16 < ws.length then [mk 0 (ws.take 16), mk 1 (ws.drop 16)] else [mk 0 ws]

/-- The team table (Table 15.7 word 1). -/
def teamTable (s : State) (b : List Word) : List Nat :=
  (List.range (blkP b)).map fun i => natOfBytes (s.mem.readBytes (canon s (localOf (blkWord b 1)) + 2 * i) 2)

/-! ### The gleaners' flits (DESIGN CHOICE, log entry 11) -/

/-- What a participant says of itself: the words that must agree (R313 code 1), then N, RCAP and SCAP. -/
def headOf (b : List Word) : List Word :=
  [BitVec.ofNat 64 (blkTeam b), BitVec.ofNat 64 (blkP b), BitVec.ofNat 64 (blkSize b), blkWord b 4, blkWord b 5,
   BitVec.ofNat 64 (blkCount b), BitVec.ofNat 64 (blkRcap b), BitVec.ofNat 64 (blkScap b)]

/-- The first word of a gleaner's flit: what it carries, the sender's rank and the team; `sendTeam` adds which call it belongs
to. -/
def gWord (ty : Nat) (b : List Word) : Word := BitVec.ofNat 64 (ty + 2 ^ 8 * blkRank b + 2 ^ 32 * blkTeam b)

/-- Pieces of a team table, four entries a word. -/
def tabPieces (tab : List Nat) : List (List Word) :=
  (List.range ((tab.length + 63) / 64)).map fun i =>
    let es := (tab.drop (64 * i)).take 64
    (List.range ((es.length + 3) / 4)).map fun j =>
      BitVec.ofNat 64 (natOfBytes (((es.drop (4 * j)).take 4).flatMap fun e => bytesOfNat 2 e))

/-- Every flit a participant sends each of the others. -/
def participantFlits (b : List Word) (tab : List Nat) (items : List GItem) : List (List Word) :=
  [gWord 0 b :: headOf b] ++
  ((tabPieces tab).zipIdx.map fun x => gWord 2 b :: BitVec.ofNat 64 x.2 :: x.1) ++
  (items.map fun i => gWord 1 b :: BitVec.ofNat 64 i.pos :: BitVec.ofNat 64 i.key :: BitVec.ofNat 64 i.weight ::
    BitVec.ofNat 64 i.piece :: i.words)

/-- A flit's words with the number of the call, modulo 256, between sender and receiver. -/
def callWords (n : Nat) : List Word → List Word
  | [] => []
  | w :: ws => (w ||| BitVec.ofNat 64 (n % 256 * 2 ^ 24)) :: ws

/-- Send words to every other member of a table. -/
def sendTeam (s : State) (r : Repart) (words : List Word) : State :=
  (r.table.zipIdx).foldl (fun s x =>
    if x.2 = blkRank r.block then s
    else sendTracked s 0 r.core r.tenant x.1 3 0 10 (callWords (r.calls.getD x.2 0) words) none false) s

/-! ### Records -/

def mapRepart (s : State) (seq : Nat) (f : Repart → Repart) : State :=
  { s with eng := { s.eng with gleaner := { s.eng.gleaner with
      records := s.eng.gleaner.records.map fun r => if r.seq = seq then f r else r } } }

/-- In progress: its completion word has not been written (R402). -/
def Repart.live (r : Repart) : Bool := decide (r.phase < 5)

/-- A repartition ends in ERROR, and its team learns of it (R313). -/
def repartFails (s : State) (r : Repart) (code : Nat) : State :=
  if r.err.isSome || !r.live then s
  else sendTeam (mapRepart s r.seq fun r => { r with err := some code }) r [gWord 3 r.block, BitVec.ofNat 64 code]

/-- What has arrived from a participant is whole. -/
def rankWhole (r : Repart) (k : Nat) : Bool :=
  match r.heads.find? fun h => h.1 == k with
  | none => false
  | some h =>
    let n := (h.2.getD 5 0).toNat
    let per := if 128 < blkSize r.block then 2 else 1
    decide ((r.items.filter fun i => i.rank == k).length = n * per) &&
    (k == blkRank r.block || decide ((r.tabs.filter fun t => t.1 == k).length = (r.table.length + 63) / 64))

/-- The whole team has called, and everything has arrived (R313). -/
def teamWhole (r : Repart) : Bool := r.err.isNone && (List.range (blkP r.block)).all (rankWhole r)

/-! ### Splitters, owners and residue (R311, R312, R316) -/

/-- The items, by their first pieces. -/
def teamItems (r : Repart) : List GItem := r.items.filter fun i => i.piece == 0

/-- The sum of all weights. -/
def teamWeight (r : Repart) : Nat := ((teamItems r).map fun i => i.weight).sum

/-- cum(k): the weight of all items whose key is at most k. -/
def cumWeight (r : Repart) (k : Nat) : Nat := (((teamItems r).filter fun i => decide (i.key ≤ k)).map fun i => i.weight).sum

/-- Splitter s_j: the smallest 64-bit value whose cumulative weight reaches ceil(j W / P). -/
def splitter (r : Repart) (j : Nat) : Nat :=
  let target := (j * teamWeight r + blkP r.block - 1) / blkP r.block
  if target = 0 then 0
  else
    ((teamItems r).filter fun i => decide (target ≤ cumWeight r i.key)).foldl (fun m i => min m i.key) (2 ^ 64 - 1)

/-- Every splitter. -/
def splitters (r : Repart) : List Nat := (List.range (blkP r.block - 1)).map fun j => splitter r (j + 1)

/-- The rank that owns a key. -/
def ownerOf (ss : List Nat) (key : Nat) : Nat := (ss.filter fun x => decide (x < key)).length

/-- An owner's order: by key, then by sender's rank, then by the sender's sorted position (R312). -/
def ownedBefore (a b : GItem) : Bool :=
  decide (a.key < b.key) || (a.key == b.key && (decide (a.rank < b.rank) || (a.rank == b.rank && decide (a.pos < b.pos))))
def insertOwned (x : GItem) : List GItem → List GItem
  | [] => [x]
  | y :: ys => if ownedBefore x y then x :: y :: ys else y :: insertOwned x ys

/-- The records sent to an owner, in its order. -/
def ownedItems (r : Repart) (ss : List Nat) (k : Nat) : List GItem :=
  ((teamItems r).filter fun i => ownerOf ss i.key == k).foldl (fun l x => insertOwned x l) []

/-- RCAP and SCAP of a participant. -/
def capsOf (r : Repart) (k : Nat) : Nat × Nat :=
  match r.heads.find? fun h => h.1 == k with
  | some h => ((h.2.getD 6 0).toNat, (h.2.getD 7 0).toNat)
  | none => (0, 0)

/-- The participant's own records that their owners do not accept, in key order and then by sorted position. -/
def residueOf (r : Repart) (ss : List Nat) : List GItem :=
  let out := (List.range (blkP r.block)).flatMap fun k =>
    let c := capsOf r k
    ((ownedItems r ss k).drop (c.1 + c.2)).filter fun i => i.rank == blkRank r.block
  out.foldl (fun l x => insertOwned x l) []

/-- The bytes of an item. -/
def pieceBytes (r : Repart) (i : GItem) : List Byte :=
  let more := match r.items.find? fun x => x.rank == i.rank && x.pos == i.pos && x.piece == 1 with
    | some x => x.words
    | none => []
  bytesOfWords (i.words ++ more)

/-- Where item `n` of an area lies. -/
def areaAddr (s : State) (r : Repart) (w n : Nat) : Nat := canon s (localOf (blkWord r.block w)) + blkSize r.block * n

/-- Bytes in the pieces that each write one line, by their number: a piece ends where its line does (R154). -/
def linePieces : Nat → Nat → List Byte → List (Nat × List Byte)
  | 0, _, _ => []
  | n + 1, a, bs =>
    if bs.isEmpty then []
    else
      let k := 64 - a % 64
      (a, bs.take k) :: linePieces n (a + k) (bs.drop k)

/-- The writes that put items in an area from its first slot on. -/
def areaWrites (s : State) (r : Repart) (w : Nat) (l : List GItem) : List (Nat × List Byte) :=
  l.zipIdx.flatMap fun x => linePieces 5 (areaAddr s r w x.2) (pieceBytes r x.1)

/-- What a participant writes as owner: its placements (R312). -/
def placements (s : State) (r : Repart) : List (Nat × List Byte) :=
  let mine := ownedItems r (splitters r) (blkRank r.block)
  areaWrites s r 6 (mine.take (blkRcap r.block)) ++ areaWrites s r 8 ((mine.drop (blkRcap r.block)).take (blkScap r.block))

/-- What it writes as sender: its residue (R312). -/
def residues (s : State) (r : Repart) : List (Nat × List Byte) := areaWrites s r 2 (residueOf r (splitters r))

/-- A participant goes on once its team is whole. -/
def repartRuns (s : State) (seq : Nat) : State :=
  match s.eng.gleaner.records.find? fun r => r.seq == seq with
  | none => s
  | some r => if r.phase = 0 ∧ teamWhole r = true then mapRepart s seq fun r => { r with phase := 1 } else s

/-- The next write of a phase, or the phase after it. A serial chunk that holds the line has the write wait (R115); at a line
sealed since, it is discarded, and the issuing task receives cause 0x03 at its next chunk boundary (R174, R410, R457). -/
def repartWrite (s : State) (r : Repart) (next : Repart → Repart) : State :=
  match r.todo with
  | [] => mapRepart s r.seq next
  | (a, bs) :: ws =>
    let ls := linesOf a bs.length
    let done := fun (s : State) => mapRepart s r.seq fun r => { r with todo := ws }
    if linesSealed s ls then deferTo (done s) r.task r.tenant 0x03 (globalOf s a)
    else if serialHolds s 0 ls then s
    else settle (done (devWrite s a bs (some true)))

/-- A repartition goes on by one step: the keys and the sort, a round of the splitters' search, or a line of the placements or
of the residue (R310 to R312, Table 23.2). A sum of weights that reaches 2^64 moves no record (R316). -/
def repartStep (s : State) (seq : Nat) : State :=
  match s.eng.gleaner.records.find? fun r => r.seq == seq && r.live && r.err.isNone with
  | none => s
  | some r =>
    let goes := mapRepart s seq
    if r.phase = 0 then repartRuns s seq
    else if r.phase = 1 then
      if 2 ^ 64 ≤ teamWeight r then goes fun r => { r with err := some 4 } else goes fun r => { r with phase := 2, round := 0 }
    else if r.phase = 2 then
      if r.round < 63 then goes fun r => { r with round := r.round + 1 }
      else goes fun x => { x with phase := 3, round := 0, todo := placements s r }
    else if r.phase = 3 then repartWrite s r fun x => { x with phase := 4, todo := residues s r }
    else repartWrite s r id

/-! ### What a flit brings -/

/-- A flit of a team reaches its participant's record. -/
def repartTakes (s : State) (r : Repart) (ws : List Word) : State :=
  let w0 := ws.getD 0 0
  let ty := fieldNat w0 7 0
  let k := fieldNat w0 23 8
  if !r.live then s
  else if ty = 3 then mapRepart s r.seq fun r => { r with err := r.err.or (some (ws.getD 1 0).toNat) }
  else if ty = 0 then
    let s := mapRepart s r.seq fun r => { r with heads := r.heads ++ [(k, ws.drop 1)] }
    if ((ws.drop 1).take 5) ≠ (headOf r.block).take 5 then repartFails s r 1 else s
  else if ty = 2 then
    let i := (ws.getD 1 0).toNat
    let s := mapRepart s r.seq fun r => { r with tabs := r.tabs ++ [(k, i)] }
    if (tabPieces r.table)[i]? ≠ some (ws.drop 2) then repartFails s r 1 else s
  else
    let g : GItem := ⟨k, (ws.getD 1 0).toNat, (ws.getD 2 0).toNat, (ws.getD 3 0).toNat, (ws.getD 4 0).toNat, ws.drop 5⟩
    mapRepart s r.seq fun r => { r with items := r.items ++ [g] }

/-- The entry of `Gleaner.calls` for a team and a package. -/
def callKey (team pkg : Nat) : Nat := 65536 * team + pkg

/-- How often this package has called a team whose table names a package. -/
def callsOf (s : State) (team pkg : Nat) : Nat := Tab.get s.eng.gleaner.calls (callKey team pkg) 0

/-- The number of such calls becomes `n`. -/
def setCalls (s : State) (team pkg n : Nat) : State :=
  { s with eng := { s.eng with gleaner := { s.eng.gleaner with
      calls := Tab.set s.eng.gleaner.calls (callKey team pkg) n } } }

/-- Where a flit stands beside the call `n` of its team between its sender and this package: it belongs to it, to a later one, or
to one that is over (R313; DESIGN CHOICE, log entry 11). -/
inductive CallPlace where
  | same | later | over
  deriving DecidableEq, Repr

/-- The call that a flit names, modulo 256. -/
def flitCall (f : Flit) : Nat := fieldNat (f.words.getD 0 0) 31 24

/-- A flit's place beside the call `n`: up to 127 calls ahead it is of a later one. -/
def callPlace (f : Flit) (n : Nat) : CallPlace :=
  let d := (flitCall f + 256 - n % 256) % 256
  if d = 0 then .same else if d < 128 then .later else .over

/-- A participant whose flit disagrees learns of the error though this one's table does not name it (R313). -/
def tellSender (s : State) (seq : Nat) (f : Flit) : State :=
  match s.eng.gleaner.records.find? fun r => r.seq == seq with
  | none => s
  | some r =>
    if r.err.isSome && fieldNat (f.words.getD 0 0) 7 0 != 3 && !r.table.contains f.src then
      setCalls (sendTracked s 0 r.core r.tenant f.src 3 0 10
        (callWords (flitCall f) [gWord 3 r.block, BitVec.ofNat 64 (r.err.getD 0)]) none false) (blkTeam r.block) f.src (flitCall f)
    else s

/-- A flit is taken by the record of its team. -/
def repartFlit (s : State) (r : Repart) (f : Flit) : State := tellSender (repartTakes s r f.words) r.seq f

/-- The live repartition of a team at this package, the one that is no duplicate. -/
def liveTeam (s : State) (team : Nat) : Option Repart :=
  s.eng.gleaner.records.find? fun r => r.live && blkTeam r.block == team && r.err != some 3

/-- A repartition of this package that an opening flit of another team may belong to: its sender holds the same rank of the
table, its parameters agree but for the team identifier, and nothing has come from it. -/
def namesakes (s : State) (f : Flit) : Option Repart :=
  let ws := f.words
  s.eng.gleaner.records.find? fun r =>
    let k := fieldNat (ws.getD 0 0) 23 8
    r.live && r.err.isNone && fieldNat (ws.getD 0 0) 7 0 == 0 && r.table[k]? == some f.src &&
      !(r.heads.any fun h => h.1 == k) && (ws.drop 2).take 4 == ((headOf r.block).drop 1).take 4

/-- The participants disagree on the team identifier, where the gleaners judge it so: the manual does not say how they tell it
from two calls of one team in different orders, so their judgement is free (R313 code 1; log entry 11). -/
def teamsDiffer (s : State) (f : Flit) : Option Repart := if Config.teamsDiffer s.fresh then namesakes s f else none

/-- Both participants end with code 1. -/
def teamError (s : State) (r : Repart) (f : Flit) : State :=
  let w := BitVec.ofNat 64 (3 + 2 ^ 8 * blkRank r.block + 2 ^ 32 * fieldNat (f.words.getD 0 0) 63 32)
  sendTracked (repartFails s r 1) 0 r.core r.tenant f.src 3 0 10 (callWords (flitCall f) [w, 1]) none false

/-- The place of a flit beside a live repartition: by the call between its sender and this package where the table names the
sender; a sender that it does not name disagrees with it while the team is still awaited, and calls later once it is whole. -/
def flitPlace (r : Repart) (f : Flit) : CallPlace :=
  match r.table.idxOf? f.src with
  | some j => callPlace f (r.calls.getD j 0)
  | none => if r.phase = 0 then .same else .later

/-- A flit waits for a call that this package has still to make. -/
def keepEarly (s : State) (f : Flit) : State :=
  { s with eng := { s.eng with gleaner := { s.eng.gleaner with early := s.eng.gleaner.early ++ [f] } } }

/-- GLEANER: a flit of the collective class is taken by its team's record, or waits for this package's own call; one of a call
that is over changes nothing (R311, R313). -/
def execGleaner (f : Flit) (s : State) : Out :=
  if f.op ≠ 10 then .next s
  else
    .next (receive s f fun s =>
      let s := replyTo s f 0 []
      let team := fieldNat (f.words.getD 0 0) 63 32
      match liveTeam s team with
      | none =>
        if callPlace f (callsOf s team f.src) ≠ .later then s
        else
          match teamsDiffer s f with
          | some r => teamError { s with fresh := s.fresh + 1 } r f
          | none => keepEarly { s with fresh := s.fresh + 1 } f
      | some r =>
        match flitPlace r f with
        | .same => repartRuns (repartFlit s r f) r.seq
        | .later => keepEarly s f
        | .over => s)

/-- A participant's package answered STALE, or its TI TORN (R313 code 2). -/
def gleanerLost (s : State) (f : Flit) : State :=
  match liveTeam s (fieldNat (f.words.getD 0 0) 63 32) with
  | none => s
  | some r => if flitPlace r { f with src := f.dest } = .same then repartFails s r 2 else s

/-- A package has reset: the teams it belongs to cannot complete, and its calls are counted anew (R313 code 2). -/
def gleanerReset (s : State) (pkg : Nat) : State :=
  let s := { s with eng := { s.eng with gleaner := { s.eng.gleaner with
    early := s.eng.gleaner.early.filter fun f => f.src != pkg
    calls := s.eng.gleaner.calls.filter fun e => e.1 % 65536 != pkg } } }
  (s.eng.gleaner.records.filter fun r => r.live && r.table.contains pkg).foldl (fun s r => repartFails s r 2) s

/-! ### `rpart` and `rpst` -/

/-- A team table names one package twice (R402). -/
def dupTable (t : List Nat) : Bool := decide (¬ t.Nodup)

/-- The last 64 records, and those before them whose repartition is in progress (R402, R405). -/
def keepRecords (rs : List Repart) : List Repart :=
  (rs.take (rs.length - 64)).filter Repart.live ++ rs.drop (rs.length - 64)

/-- The bytes that the gleaner reads as it accepts: the team table and the items. -/
def blkReads (s : State) (b : List Word) : List (Nat × Nat) :=
  [(canon s (localOf (blkWord b 1)), 2 * blkP b), (canon s (localOf (blkWord b 2)), blkCount b * blkSize b)]

/-- A poisoned word gives the gleaner no value (R166): where one stands in what it reads. -/
def readPoison (s : State) (r : Nat × Nat) : Option Nat :=
  (wordsAt r.1 r.2).find? fun w => decide (0 < r.2) && s.mem.poisoned w

/-- The gleaner accepts a repartition (R402, R403). One that reads a poisoned word ends in ERROR with code 0x0C, and the issuing
task receives cause 0x0C (R166, R457; DESIGN CHOICE, log entry 11). -/
def acceptRepart (s : State) (b : List Word) : State :=
  let bad := (blkReads s b).findSome? (readPoison s)
  let s := jobDone ((blkReads s b).foldl (fun s r => reach s (linesOf r.1 r.2)) s)
  let tab := if ((blkReads s b).head?.bind (readPoison s)).isSome then [] else teamTable s b
  let team := blkTeam b
  let dup := s.eng.gleaner.records.any fun r => r.live && blkTeam r.block == team
  let items := if bad.isSome then [] else itemPieces s b
  let s := if dup then s else tab.eraseDups.foldl (fun s p => setCalls s team p (callsOf s team p + 1)) s
  let g := s.eng.gleaner
  let r : Repart := ⟨g.next, s.cur.tenant, s.cur.core, s.cur.key, b, tab, tab.map (callsOf s team), 0, 0,
    [(blkRank b, headOf b)], [], items, if dup then some 3 else none, []⟩
  let mine := fun (f : Flit) => !dup && fieldNat (f.words.getD 0 0) 63 32 == team && flitPlace r f == .same
  let s := { s with eng := { s.eng with gleaner :=
    { g with next := (g.next + 1) % 65536, records := keepRecords (g.records ++ [r]), early := g.early.filter fun f => !mine f } } }
  let mine := g.early.filter mine
  if dup then s
  else
    match bad with
    | some a => defer (repartFails s r 0x0C) 0x0C (globalOf s a)
    | none =>
      if dupTable tab then repartFails s r 1
      else
        let s := (participantFlits b tab items).foldl (fun s w => sendTeam s r w) s
        mine.foldl (fun s f => match liveTeam s (blkTeam b) with
          | some r => repartFlit s r f
          | none => s) s

/-- `rpart` (R309, R402). -/
def execRpart (d b : Reg) (s : State) : Out :=
  gate s (.g [b] [d]) <|
  alone s <|
    let (x, t) := takeG s.cur b
    if x.toNat % 128 ≠ 0 then trap s 0x07 x
    else
      checked s x ⟨false, 128, 128, true, true, true⟩ <|
      let a := canon s (localOf x)
      let blk := wordsOfBytes (s.mem.readBytes a 128) 16
      if s.mem.anyPoison a 128 then trap s 0x0C x
      else if (blkWord blk 10).toNat % 8 ≠ 0 then trap s 0x07 (blkWord blk 10)
      else if blkBad blk then trap s 0x02 0
      else if blkRefused s blk then trap s 0x14 x
      else if !destRoom s.cur d then trap s 0x02 0
      else if 4 ≤ (s.eng.gleaner.records.filter Repart.live).length then .next s
      else
        let h := BitVec.ofNat 64 (2 ^ 63 + s.eng.gleaner.next * 2 ^ 32 + blkTeam blk)
        let s1 := acceptRepart s blk
        finishAloneG s1 (rebase s1 t) d h

/-- The status of a handle (Table 23.2). -/
def rpstValue (s : State) (h : Word) : Word :=
  let recs := s.eng.gleaner.records
  match (recs.drop (recs.length - 64)).find? fun r => r.seq == fieldNat h 47 32 && blkTeam r.block == fieldNat h 31 0 with
  | none => 7
  | some r => if r.tenant ≠ s.cur.tenant then 7 else BitVec.ofNat 64 (r.round * 2 ^ 8 + r.phase)

/-- `rpst` (R405). -/
def execRpst (d h : Reg) (s : State) : Out :=
  gate s (.g [h] [d]) <|
    let (x, t) := takeG s.cur h
    if !bitOf x 63 ∨ fieldNat x 62 48 ≠ 0 then trap s 0x02 0 else finishG s t d (rpstValue s x)

/-! ### Completion (R313) -/

/-- The completion word of a participant whose writes have been performed (Table 15.8). -/
def completionWord (r : Repart) : Word :=
  let ss := splitters r
  let n := (ownedItems r ss (blkRank r.block)).length
  let recv := min n (blkRcap r.block)
  let spill := min (n - recv) (blkScap r.block)
  let res := (residueOf r ss).length
  BitVec.ofNat 64 ((if 0 < res then 2 else if 0 < spill then 1 else 0) * 2 ^ 62 + recv * 2 ^ 40 + spill * 2 ^ 20 + res)

/-- REPARTITION_COMPLETE: the completion word is written with mode sf once the participant's writes are performed, or with
an error's code (R313, R316). -/
def execRepartitionComplete (seq : Nat) (s : State) : Out :=
  match s.eng.gleaner.records.find? fun r => r.seq == seq && r.live with
  | none => .next s
  | some r =>
    let cw := canon s (localOf (blkWord r.block 10))
    let ends := fun (phase : Nat) (w : Word) =>
      let s1 := mapRepart s seq fun r => { r with phase := phase, round := 0 }
      if linesSealed s [cw / 64] then deferTo s1 r.task r.tenant 0x03 (globalOf s cw) else settle (devWord s1 cw w)
    if serialHolds s 0 [cw / 64] then .next s
    else
      match r.err with
      | some e => .next (ends 6 (BitVec.ofNat 64 (3 * 2 ^ 62 + e)))
      | none => if r.phase = 4 ∧ r.todo = [] then .next (ends 5 (completionWord r)) else .next s

end Sys2Proof.Machine
end

