-- ==== Sys2Proof/Machine/Teardown.lean ====
section
/-! DEFINITION. Cancelling a launch's queued work (R122, R231) and tearing a tenant interface down (R279, R281). -/

namespace Sys2Proof.Machine

/-! ### What a launch has queued (R122, R231) -/

/-- A bag entry is a pair of a launch. -/
def launchPair (s : State) (ti n : Nat) (e : BagEntry) : Bool :=
  e.tenant == ti && netLaunch s ti (entryPool e.entry) == some (ti, n)

/-- An entry of a spill list. -/
def spillEntry (s : State) (core t n : Nat) : Option BagEntry :=
  (spillAddr s core t n).map fun a =>
    let w := s.mem.read64 (a + 8)
    ⟨s.mem.read64 a, fieldNat w 5 0, fieldNat w 9 8, 0, none, 0, 0⟩

/-- The pools that entries belong to. -/
def entryPools (es : List BagEntry) : List Nat := es.map fun e => entryPool e.entry

/-- Take a launch's pairs out of the bags: the state, and their pools. -/
def cancelBags (s : State) (ti n : Nat) : State × List Nat :=
  ({ s with sched := { s.sched with bags := s.sched.bags.map fun b => (b.1, b.2.filter fun e => !launchPair s ti n e) } },
    s.sched.bags.flatMap fun b => entryPools (b.2.filter (launchPair s ti n)))

/-- Take a launch's pairs out of one core's spill list, the rest keeping their order. -/
def cancelSpill (s : State) (core ti n : Nat) : State × List Nat :=
  let p := spillOf s core ti
  let es := (List.range (p.head - p.tail)).filterMap fun i => spillEntry s core ti (p.tail + i)
  let out := es.filter (launchPair s ti n)
  if out.isEmpty then (s, [])
  else
    ((es.filter fun e => !launchPair s ti n e).foldl (fun s e => spillPut s core e) (setSpill s core ti { p with head := p.tail }),
      entryPools out)

/-- The same for every core. -/
def cancelSpills (s : State) (ti n : Nat) : State × List Nat :=
  (s.sched.spills.filter fun e => e.1 % 64 == ti).foldl (fun (acc : State × List Nat) e =>
    let r := cancelSpill acc.1 (e.1 / 64) ti n
    (r.1, acc.2 ++ r.2)) (s, [])

/-- A task of a launch. -/
def ofLaunch (ti n : Nat) (t : Task) : Bool := t.launch == some (ti, n)

/-- Remove tasks. -/
def dropTasks (s : State) (gone : Task → Bool) : State :=
  { s with cur := if isTask s.cur && gone s.cur then Task.vacant s.cur.core else s.cur
           tasks := s.tasks.filter fun t => !gone t }

/-- Requests of gangs of a launch leave the queues, and the slots held for them. -/
def cancelGangs (s : State) (gone : GangReq → Bool) : State :=
  let ids := s.sched.gangQ.flatMap fun q => (q.2.filter gone).map fun g => g.id
  { s with sched := { s.sched with
      gangQ := s.sched.gangQ.map fun q => (q.1, q.2.filter fun g => !gone g)
      slotHolds := s.sched.slotHolds.filter fun h => !ids.contains h.2 } }

/-- What a cancel counts: removed, dispatched in the same cycle, already started (R122). -/
structure CancelCounts where
  removed : Nat
  late    : Nat
  begun   : Nat
  deriving DecidableEq, Repr

/-- Remove a launch's unstarted tasks, pairs and gang requests, lowering ACT for each pair (R122, R231). -/
def cancelWork (s : State) (l : Launch) : State × CancelCounts :=
  let mine := (allTasks s).filter (ofLaunch l.ti l.number)
  let waiting := mine.filter fun t => t.status == .unstarted
  let started := mine.filter fun t => t.started
  let late := started.filter fun t => t.startTime == s.time
  let gang := fun (g : GangReq) => g.launch == some (l.ti, l.number)
  let gangs := (s.sched.gangQ.map fun q => (q.2.filter gang).length).sum
  let s := mapLaunch s l.ti l.number fun x => { x with cancelled := true }
  let s := { s with sched := { s.sched with order := { s.sched.order with cancel := some s.time } } }
  let s := cancelGangs (dropTasks s fun t => ofLaunch l.ti l.number t && t.status == .unstarted) gang
  let (s, a) := cancelBags s l.ti l.number
  let (s, b) := cancelSpills s l.ti l.number
  let nets := a ++ b ++ waiting.filterMap fun t => t.net
  (nets.foldl (fun s p => actLower s l.ti p false) s,
    ⟨waiting.length + gangs + a.length + b.length, late.length,
     started.length - late.length + (mine.filter fun t => t.inline.isSome).length⟩)

/-! ### The end of a torn-down interface (R279, R281) -/

/-- A range of memory is marked unscrubbed: its bytes read zero with full tags until they are written (R143). -/
def clearRange (s : State) (base size : Nat) : State :=
  let out := fun a => !(decide (base ≤ a) && decide (a < base + size))
  let g := granuleOf base
  let m := { s.mem with
    cells := s.mem.cells.filter fun c => out c.1
    empties := s.mem.empties.filter out
    poison := s.mem.poison.filter out
    scrubbed := s.mem.scrubbed.filter fun x => !(decide (g ≤ x) && decide (x < g + size / 0x10000)) }
  let ls := ((allTasks s).flatMap fun t => t.chunk.rlines ++ t.chunk.wlines).filter fun l => !out (64 * l)
  observe (publish { s with mem := m } 0 ls)

/-- The regions of a tenant. -/
def regionsOf (s : State) (t : Nat) : List HEntry :=
  ((hIndices s).filterMap (hEntry s)).filter fun e => e.owner == t

/-- Remove the seal of a region; a code or trusted one is revoked first (R279). -/
def removeSeal (s : State) (e : HEntry) : State :=
  let w := ctlGet s (sealOff e.n)
  if !bitOf w 63 then s
  else
    let w := if fieldNat w 61 60 = 0 then w
      else (w &&& ~~~0xFFFFFFFFFFFF#64) ||| (1#64 <<< 62) ||| BitVec.ofNat 64 (s.time % 2 ^ 48)
    let s := devCtl s (sealOff e.n) (w &&& ~~~(1#64 <<< 63))
    let s := devCtl s (hmapOff e.n false) (ctlGet s (hmapOff e.n false) &&& ~~~(1#64 <<< 60))
    dropLines s (e.base / 64) ((e.base + e.size - 1) / 64)

/-- A region of a torn-down interface: unsealed, its granules marked unscrubbed, its entry invalid (R143, R279). -/
def removeRegion (s : State) (e : HEntry) : State :=
  let s := clearRange (removeSeal s e) e.base e.size
  forgetData (devCtl s (hmapOff e.n false) (ctlGet s (hmapOff e.n false) &&& ~~~(1#64 <<< 63))) e.n

/-- Everything queued or running under a tenant is gone (R281 step 6). -/
def dropTenant (s : State) (t : Nat) : State :=
  let ks := ((allTasks s).filter fun u => u.tenant == t).map fun u => u.key
  let s := ks.foldl (fun s k => releaseTokens s k) s
  let s := cancelGangs (dropTasks s fun u => u.tenant == t) fun g => g.tenant == t
  { s with
    sched := { s.sched with
      deficit := s.sched.deficit.filter fun e => e.1 % 64 != t
      bags := s.sched.bags.map fun b => (b.1, b.2.filter fun e => e.tenant != t)
      spills := s.sched.spills.filter fun e => e.1 % 64 != t
      gangs := s.sched.gangs.filter fun g => g.tenant != t
      arrivals := s.sched.arrivals.map fun a => (a.1, a.2.filter fun m => m.tenant != t)
      enWait := s.sched.enWait.filter fun e => e.2.tenant != t
      launches := s.sched.launches.filter fun l => l.ti != t
      launchQ := s.sched.launchQ.filter fun l => l.ti != t
      images := s.sched.images.filter fun i => i.tenant != t
      quarantine := s.sched.quarantine.filter fun q => q.1 != t
      cribs := s.sched.cribs.map fun c => (c.1, c.2.filter fun l => l.tenant != t) }
    eng := { s.eng with
      engines := s.eng.engines.map fun e => (e.1, { e.2 with cmds := e.2.cmds.filter fun c => c.tenant != t })
      arrays := s.eng.arrays.filter fun e => !e.2.parts.any fun p => ks.contains p.key
      gleaner := { s.eng.gleaner with records := s.eng.gleaner.records.filter fun r => r.tenant != t }
      farCopies := s.eng.farCopies.filter fun f => f.tenant != t
      counters := s.eng.counters.filter fun e => e.1 % 64 != t
      waiters := s.eng.waiters.filter fun w => w.tenant != t || (match w.asker with
        | .remote _ => true
        | _ => false) }
    fab := { s.fab with netMsgs := s.fab.netMsgs.filter fun m => m.msg.tenant != t
                        sent := Tab.erase s.fab.sent t } }

/-- Step 6: the seals, regions and keys of the TI are gone, MEAS is zero, GEN rises, and the TI is in CONFIG_UNLOCKED. -/
def tearFinish (s : State) (t : Nat) : State :=
  let s := (regionsOf s t).foldl removeRegion (dropTenant s t)
  let s := (List.range 6).foldl (fun s i => devCtl s (tenantOff t (12 + i)) 0) s
  let w := tenantWord s t 0
  let gen := (fieldNat w 15 8 + 1) % 256
  let s := devCtl s (tenantOff t 0) ((w &&& ~~~0xFF07#64) ||| BitVec.ofNat 64 (gen * 2 ^ 8))
  { s with mgmt := { s.mgmt with keys := Tab.erase s.mgmt.keys t }
           tears := s.tears.filter fun x => x.tenant != t }

/-- Change the record of a teardown. -/
def mapTear (s : State) (t : Nat) (f : Teardown → Teardown) : State :=
  { s with tears := s.tears.map fun x => if x.tenant = t then f x else x }

/-- TEARDOWN of one TI goes on: with every reply reservation released its fences are sent, and with every fence acknowledged
it ends (R281). -/
def tearAdvance (s : State) (t : Nat) : State :=
  let s := match s.tears.find? fun x => x.tenant == t with
    | none => s
    | some x =>
      if x.fenced || s.fab.outReqs.any fun r => r.tenant == t then s
      else
        let ps := Tab.get s.fab.sent t []
        let s := mapTear s t fun x => { x with fenced := true, fences := ps }
        ps.foldl (fun s p => sendTracked s 0 0 t p 4 0 12 [] none false) s
  match s.tears.find? fun x => x.tenant == t with
  | none => s
  | some x => if x.fenced && x.fences.isEmpty then tearFinish s t else s

/-- Every teardown goes on as far as it can. -/
def tearAll (s : State) : State := (s.tears.map fun x => x.tenant).foldl tearAdvance s

/-- What flits of a TI from the packages that `src` picks wait for here is discarded, answered TORN; those answered NACK-WAIT
stand before no others (R281 steps 1, 2 and 5, R314). -/
def discardFlits (s : State) (src : Nat → Bool) (ti : Nat) : State :=
  let p := fun (f : Flit) => src f.src && f.ti == ti
  let gone := (waitingFlits s).filter p
  let s := { s with
    eng := { s.eng with waiters := s.eng.waiters.filter fun w => match w.asker with
      | .remote f => !p f
      | _ => true }
    fab := { s.fab with holdQ := s.fab.holdQ.map fun e => (e.1, e.2.filter fun f => !p f) } }
  gone.foldl (fun s f => replyTo s f 3 []) (forgetNacks s (fun k => src (k / 1024)) fun n => n.2 == ti)

/-- The teardown of a TI begins (R279, R281). -/
def tearBegin (s : State) (t : Nat) : State :=
  let s := haltTenant (setTiState s t 4) t
  let s := discardFlits s (fun _ => true) t
  settle (tearAdvance { s with tears := s.tears ++ [⟨t, s.time, false, []⟩] } t)

end Sys2Proof.Machine
end

