-- ==== Sys2Proof/Machine/Fabric.lean ====
section
/-! DEFINITION. What the fabric brings: the accesses, messages, launches and cancels of other packages and of hosts (R295,
R302, R306, R314), replies (R296), retries (R295), incarnations (R298) and fences (R281); and messages between the
package's own cores (R87). -/

namespace Sys2Proof.Machine

/-! ### Requests and posted flits at the target (R295, R314) -/

/-- A flit of one operation arrives; whatever the operation, a malformed one is dropped (R292). -/
def takeFlit (s : State) (op : Nat) (f : Flit) (k : State → State) : Out :=
  if f.op = op ∨ malformed f = true then .next (settle (observe (receive s f k))) else .next s

/-- LOAD (R295). -/
def execLoad (f : Flit) (s : State) : Out := takeFlit s 0 f fun s => performAccess s f
/-- STORE (R314). -/
def execStore (f : Flit) (s : State) : Out := takeFlit s 1 f fun s => arrivePosted s f
/-- ATOMIC (R295, R342). -/
def execAtomic (f : Flit) (s : State) : Out := takeFlit s 2 f fun s => performAccess s f
/-- TAG_READ (R295). -/
def execTagRead (f : Flit) (s : State) : Out := takeFlit s 3 f fun s => performAccess s f
/-- TAG_WRITE (R295, R314). -/
def execTagWrite (f : Flit) (s : State) : Out := takeFlit s 4 f fun s => arrivePosted s f

/-! ### Messages (R87, R107) -/

/-- The backoff after one more NACK-WAIT, or its like within the package (R295). -/
def nextDelay (d : Nat) : Nat := min 32768 (2 * d)

/-- Change the oldest message from one core to another. -/
def mapFirstMsg (src dst : Nat) (f : NetMsg → Option NetMsg) : List NetMsg → List NetMsg
  | [] => []
  | m :: ms =>
    if m.src = src ∧ m.dst = dst then (match f m with
      | some x => x :: ms
      | none => ms)
    else m :: mapFirstMsg src dst f ms

/-- The oldest message from one core of the package to another reaches it: accepted, which its counter learns, or held at its
sender (R87, R389). -/
def takeNetMsg (s : State) (src dst : Nat) : State :=
  match s.fab.netMsgs.find? fun m => m.src == src && m.dst == dst with
  | none => s
  | some m =>
    let put := fun (s : State) (f : NetMsg → Option NetMsg) =>
      { s with fab := { s.fab with netMsgs := mapFirstMsg src dst f s.fab.netMsgs } }
    if m.due.isSome then s
    else
      match deliverMsg s dst m.msg.tenant m.msg.src m.msg.slot m.msg.tag m.msg.words m.msg.missing with
      | some s =>
        let s := put s fun _ => none
        if m.counted then lowerCounter s src m.msg.tenant (msgClass src dst) false else s
      | none =>
        let d := nextDelay m.delay
        put s fun m => some { m with delay := d, due := some (s.time + d) }

/-- The last `n` words of the next message from one core to another will arrive after its first (R70). -/
def msgSplit (s : State) (src dst n : Nat) : State :=
  { s with fab := { s.fab with netMsgs := mapFirstMsg src dst (fun m =>
      some { m with msg := { m.msg with missing := min n m.msg.words.length } }) s.fab.netMsgs } }

/-- MESSAGE_ARRIVAL (R107, R108). -/
def execMessageArrival (m : MsgSource) (s : State) : Out :=
  match m with
  | .fabric f => takeFlit s 5 f fun s => arrivePosted s f
  | .inPackage src dst => .next (settle (observe (takeNetMsg s src dst)))

/-- MESSAGE_RESEND: a held message whose backoff has passed is sent again (R87). -/
def execMessageResend (src dst : Nat) (s : State) : Out :=
  let again := fun (m : NetMsg) => some (match m.due with
    | some t => if t ≤ s.time then { m with due := none } else m
    | none => m)
  .next { s with fab := { s.fab with netMsgs := mapFirstMsg src dst again s.fab.netMsgs } }

/-! ### Launches and cancels (R122, R302, R306) -/

/-- The launch record of `n` net descriptors at an address is the tenant's: whole, local, and a multiple of 8 (R302). -/
def recordOwned (s : State) (ti : Nat) (a : Word) (n : Nat) : Bool :=
  isLocal s a && decide (fieldNat a 63 56 = 0) && decide (a.toNat % 8 = 0) &&
    (List.range (8 + n)).all fun i =>
      (checkLocal s ti false (localOf a + 8 * i) ⟨false, 8, 8, true, true, false⟩).isNone

/-- Pool count of a launch record's CTL word. -/
def ctlPools (w : Word) : Nat := fieldNat w 42 32

/-- A launch record's word. -/
def recordWord (s : State) (a : Word) (i : Nat) : Word := homeWord s (localOf a + 8 * i)

/-- LAUNCH: the record is queued for the admission handler, or the launch is refused (R281, R302). -/
def execLaunch (f : Flit) (s : State) : Out :=
  takeFlit s 6 f fun s =>
    let n := fieldNat (f.words.getD 0 0) 31 0
    let a := f.words.getD 1 0
    if tiState s f.ti ≠ 2 then replyTo s f 3 []
    else if !(recordOwned s f.ti a 0 && recordOwned s f.ti a (min 1024 (ctlPools (recordWord s a 0)))) then
      replyTo s f 4 [0x14]
    else
      let s := { s with sched := { s.sched with
        launches := s.sched.launches ++ [⟨f.ti, n, [], [], 0, 0, 0, false, false⟩]
        launchQ := s.sched.launchQ ++ [⟨f.ti, n, a⟩] } }
      replyTo s f 0 []

/-- CANCEL: OK, and the KIND 4 record; an unknown launch number gives counts of zero (R122, R306). -/
def execCancel (f : Flit) (s : State) : Out :=
  takeFlit s 7 f fun s =>
    let n := fieldNat (f.words.getD 0 0) 31 0
    let s := replyTo s f 0 []
    let (s, c) := match s.sched.launches.find? fun l => l.ti == f.ti && l.number == n with
      | none => (s, CancelCounts.mk 0 0 0)
      | some l => cancelWork s l
    hostRecord s 4 f.ti n [BitVec.ofNat 64 c.removed, BitVec.ofNat 64 c.late, BitVec.ofNat 64 c.begun]

/-! ### Replies (R294, R296, R298) -/

/-- The held slot of a task has its answer; the record of one that is not resident keeps it (R215, R216). -/
def answerHeld (s : State) (key reqid : Nat) (h : Hold) : State :=
  onTask s key fun s =>
    if s.cur.hold ≠ some (.reply reqid) then s
    else
      let s := modCur s fun t => { t with hold := some h }
      if s.cur.slot?.isSome then s
      else
        let k := match s.cur.inline with
          | some i => i.number
          | none => s.cur.number
        match saveRec s s.cur.tenant s.cur.core k, h with
        | some b, .answer none v pair =>
          devWrite s (b + 0xA08) (bytesOfWords
            [v.truncate 64, if pair then (v >>> 64).truncate 64 else 0, if pair then 3 else 1]) (some true)
        | _, _ => s

/-- The line that a far plain load of `bs` at `a` brings; the bytes it did not ask for are what their home held (R160): free. -/
def farLine (s : State) (a : Nat) (bs : List Byte) : List Byte :=
  overlayStore a bs (64 * (a / 64)) ((List.range 64).map fun i => Config.freeByte (s.fresh + i))

/-- The tags of that line's words: those of the bytes asked for are full, as the load found them; the others are free (R18). -/
def farTags (s : State) (a n : Nat) : List Bool :=
  (List.range 8).map fun i => (wordsAt a n).contains (64 * (a / 64) + 8 * i) || (Config.freeByte (s.fresh + 64 + i)).getLsbD 0

/-- A copy enters an L1; of the 16 ways of its set the oldest makes room (R11). -/
def insertCopy (fs : List FarCopy) (c : FarCopy) : List FarCopy :=
  let mine := fun (x : FarCopy) => x.core == c.core && x.addr / 64 % 512 == c.addr / 64 % 512
  let fs := fs.filter fun x => !(x.core == c.core && x.tenant == c.tenant && x.addr == c.addr)
  c :: (fs.filter fun x => !mine x) ++ (fs.filter mine).take 15

/-- A far plain load leaves its line in the issuing core's L1; the accesses of R160's list leave none. -/
def installCopy (s : State) (r : OutReq) (bs : List Byte) : State :=
  let w1 := r.flit.words.getD 1 0
  let a := (r.flit.words.getD 0 0).toNat
  if r.flit.op = 0 ∧ fieldNat w1 4 3 = 0 ∧ ¬ (fieldNat w1 9 8 % 2 = 1 ∧ fieldNat w1 11 10 = 3) then
    let c : FarCopy := ⟨r.core, r.tenant, 64 * (a / 64), farLine s a bs, farTags s a bs.length⟩
    { s with eng := { s.eng with farCopies := insertCopy s.eng.farCopies c }
             fresh := s.fresh + 72 }
  else s

/-- The cause of a final status (Table 15.3). -/
def statusCause (status : Nat) (words : List Word) : Option Nat :=
  if status = 0 then none else if status = 4 then some (fieldNat (words.getD 0 0) 7 0) else some 0x13

/-- A request or posted flit has its final answer: its reservation is released, and its core, engine or record learns of it
(R141, R206, R296, R305). -/
def takeAnswer (s : State) (r : OutReq) (status : Nat) (words : List Word) : State :=
  let s := { s with fab := { s.fab with outReqs := s.fab.outReqs.filter fun x =>
    !(x.core == r.core && x.reqid == r.reqid) } }
  let w0 := r.flit.words.getD 0 0
  match r.copy, r.waits with
  | some seq, _ => copyReply s r.core seq r.posted status words
  | none, some (k, d, size, signed) =>
    let bs := (bytesOfWords words).take size
    let s := if status = 0 then installCopy s r bs else s
    answerHeld s k r.reqid (.answer (statusCause status words) (destValue d size signed bs) d.pair)
  | none, none =>
    if r.flit.op = 10 then (if status = 2 ∨ status = 3 then gleanerLost s r.flit else s)
    else if r.flit.op = 12 then mapTear s r.tenant fun x => { x with fences := removeNat r.flit.dest x.fences }
    else if r.flit.op = 8 then
      if fieldNat w0 7 0 = 3 then
        mapLaunch s (fieldNat w0 21 16) (fieldNat w0 63 32) fun x => { x with unacked := x.unacked - 1 }
      else s
    else if !r.posted then s
    else
      let s := if r.counted then lowerCounter s r.core r.tenant .far (decide (status = 2 ∨ status = 3)) else s
      if status = 4 then deferTo s r.task r.tenant (fieldNat (words.getD 0 0) 7 0) w0 else s

/-- Change an outstanding request. -/
def mapReq (s : State) (core reqid : Nat) (f : OutReq → OutReq) : State :=
  { s with fab := { s.fab with outReqs := s.fab.outReqs.map fun r => if r.core = core ∧ r.reqid = reqid then f r else r } }

/-- The outstanding request a reply answers. -/
def replyReq (s : State) (f : Flit) : Option OutReq :=
  s.fab.outReqs.find? fun r => r.core == f.dcore && r.reqid == f.reqid && r.flit.dest == f.src

/-- The reply is to the request as it was sent: it carries the request's DINC, and comes from that incarnation; only STALE
comes from another (R162, R291, R298; DEDUCED, log entry 24). -/
def replyFits (f : Flit) (r : OutReq) : Bool := f.dinc == r.flit.dinc && (f.status == 2 || f.sinc == r.flit.dinc)

/-- The report of a wait slot's condition on a word of another package, which names the request that armed it (R102, R454). -/
def reportTo (s : State) (f : Flit) (t : Task) : Task :=
  let hit := fun (w : WaitSlot) =>
    if w.req = some f.reqid ∧ pkgOf w.a = f.src ∧ f.sinc = Tab.get s.fab.epInc f.src 0 then { w with sat := true } else w
  if t.core = f.dcore then
    { t with waits := t.waits.map hit, inline := t.inline.map fun i => { i with waits := i.waits.map hit } }
  else t

/-- A flit that answers no request is the report of an armed wait slot, or is dropped and counted (R102, R298). -/
def takeReport (s : State) (f : Flit) : State :=
  if (allTasks s).any fun t => reportTo s f t != t then mapTasks s (reportTo s f) else siloAdd s 2237

/-- REPLY: taken by its status; one of another incarnation, or that answers nothing, is dropped and counted (R162, R296,
R298). -/
def execReply (f : Flit) (s : State) : Out :=
  takeFlit s 9 f fun s =>
    match replyReq s f with
    | none => takeReport s f
    | some r =>
      if !replyFits f r then siloAdd s 2237
      else if f.status = 1 then
        let d := nextDelay r.delay
        mapReq s r.core r.reqid fun r => { r with delay := d, due := some (s.time + d) }
      else tearAll (takeAnswer s r f.status f.words)

/-! ### Retries and timeouts (R281, R295, R314) -/

/-- An older posted flit of the same core to the same package still waits for its own retry; for a flit never sent before, one
answered NACK-WAIT that is not accepted yet counts too (R314). -/
def olderWaits (rs : List OutReq) (r : OutReq) : Bool :=
  match rs with
  | [] => false
  | x :: xs =>
    if x.core == r.core && x.reqid == r.reqid then false
    else (x.posted && x.core == r.core && x.flit.dest == r.flit.dest && x.flit.cls == 2 &&
      (x.due.isSome || (r.delay == 256 && x.delay != 256))) || olderWaits xs r

/-- NACK_WAIT_RETRY: sent again with the same REQID once its backoff has passed; posted flits go in their original order
(R295, R314). -/
def execNackWaitRetry (core reqid : Nat) (s : State) : Out :=
  match s.fab.outReqs.find? fun r => r.core == core && r.reqid == reqid with
  | none => .next s
  | some r =>
    match r.due with
    | none => .next s
    | some t =>
      if s.time < t ∨ (r.posted && olderWaits s.fab.outReqs r) = true then .next s
      else .next (sendFlit (mapReq s core reqid fun r => { r with due := none }) r.flit)

/-- REPLY_TIMEOUT: 100 µs, 170,000 cycles, after a teardown began its reply reservations are released (R281). -/
def execReplyTimeout (core reqid : Nat) (s : State) : Out :=
  match s.fab.outReqs.find? fun r => r.core == core && r.reqid == reqid with
  | none => .next s
  | some r =>
    if r.flit.op ≠ 12 ∧ (s.tears.any fun x => x.tenant == r.tenant && decide (x.since + 170000 ≤ s.time)) = true then
      .next (settle (observe (tearAll (takeAnswer s r 3 []))))
    else .next s

/-! ### Incarnations and fences (R281, R298) -/

/-- The held flits of a link after an announcement: what was meant for the package's older incarnation has been answered here
and never leaves; replies, and the announcement that this package owes, stay (R298). -/
def heldAfter (src inc : Nat) (l : Link) : Link :=
  { l with held := (l.held.filter fun f => f.dest != src || f.dinc == inc || f.op == 9 || f.op == 11).map fun f =>
      if f.dest = src ∧ f.op = 11 then { f with dinc := inc } else f }

/-- INCARNATION_ANNOUNCEMENT: the new incarnation is stored, and everything outstanding to that package under an older one
is answered STALE (R298). -/
def execIncarnationAnnouncement (f : Flit) (s : State) : Out :=
  takeFlit s 11 f fun s =>
    let inc := fieldNat (f.words.getD 0 0) 7 0
    let s := { s with fab := { s.fab with
      epInc := Tab.set s.fab.epInc f.src inc
      links := s.fab.links.map fun (e : Nat × Link) => (e.1, heldAfter f.src inc e.2)
      nacked := s.fab.nacked.filter fun e => e.1 / 1024 != f.src
      front := s.fab.front.filter fun e => e.1 / 1024 != f.src } }
    let old := s.fab.outReqs.filter fun r => r.flit.dest == f.src && r.flit.dinc != inc
    tearAll (gleanerReset (old.foldl (fun s r => takeAnswer s r 2 []) s) f.src)

/-- INCARNATION_FENCE: what this package holds for the TI of the sender is discarded, answered TORN, and the fence is
acknowledged (R281). -/
def execIncarnationFence (f : Flit) (s : State) : Out :=
  takeFlit s 12 f fun s => replyTo (discardFlits s (fun p => p == f.src) f.ti) f 0 []

/-! ### Links (R299) -/

/-- REKEY_REQUEST: a flit counter that has reached 2^47 asks for a rekey (R299). -/
def execRekeyRequest (port : Nat) (s : State) : Out :=
  let l := linkAt s port
  if l.up && decide (2 ^ 47 ≤ l.txCtr) && !l.want then .next (setLink s port { l with want := true }) else .next s

/-- The info string of a link's keys (R300). -/
def infoLink : List Byte := [0x6C, 0x6A, 0x38, 0x20, 0x6C, 0x69, 0x6E, 0x6B]

/-- A bank of each direction of a link gets its key, from the present secret of the link's session (R300, R320). -/
def loadLinkKeys (s : State) (port txDir rxDir : Nat) (txBank rxBank : Bool) : State :=
  let sec := Config.sessionSecret s.fresh
  let key := fun (d : Nat) => hkdf384 sec (infoLink ++ [BitVec.ofNat 8 d]) 32
  nextFresh (setBank (setBank s (txSlot port) txBank (key txDir)) (rxSlot port) rxBank (key rxDir))

/-- The banks of KGEN = 1 of a link are empty. -/
def clearIdle (s : State) (port : Nat) : State := setBank (setBank s (txSlot port) true []) (rxSlot port) true []

/-- An OP 13 flit arrives: it waits for the security monitor, which alone it reaches (R307). -/
def mgmtArrives (s : State) (f : Flit) : State :=
  if f.op = 13 ∨ malformed f = true then
    receive s f fun s => if s.mgmt.mbox.monitor then modMgmt s fun m => { m with inbox := m.inbox ++ [f] } else s
  else s

/-- LINK_BRING_UP: from boot stage 3 on, the direction identifiers are assigned, the keys loaded into the banks of KGEN = 0,
whose counters start at zero (R299, R321). -/
def execLinkBringUp (port txDir rxDir : Nat) (s : State) : Out :=
  if decide (3 ≤ s.mgmt.stage) && !s.mgmt.halted && (portsOn s).contains port && !(linkAt s port).up then
    let l := { linkDown with up := true, txDir := txDir, rxDir := rxDir, held := (linkAt s port).held }
    .next (releaseHeld (setLink (clearIdle (loadLinkKeys s port txDir rxDir false false) port) port l) port)
  else .next s

end Sys2Proof.Machine
end

