-- ==== Sys2Proof/Machine/Fence.lean ====
section
/-! DEFINITION. Fences and `cwait` (R156, R355, R360), write-backs and instruction-cache removals (R358, R359, R365), and
seals (R268, R286, R409, R410). -/

namespace Sys2Proof.Machine

/-! ### Fences -/

/-- A fence waits until every earlier load of the slot has been performed, the counters of its classes read zero, and no store
waits in the core's own slice (R424); a class that has failed raises cause 0x13 and its count is cleared (R156, R360). -/
def fence (s : State) (cs : List WaitClass) (after : State → State) : Out :=
  let c := countersOf s s.cur.core s.cur.tenant
  if !s.cur.inflight.isEmpty || (cs.any fun k => c.out k != 0) || sliceStoreWaits s s.cur.core s.cur.tenant then .next s
  else
    match cs.find? fun k => c.fails k != 0 with
    | some k => failTrap s k 0
    | none => let s := after s
              .next (retire s s.cur)

/-- Every L1 copy of another package's lines that the core holds for the tenant is discarded (R156). -/
def dropFarCopies (s : State) : State :=
  { s with eng := { s.eng with farCopies := s.eng.farCopies.filter fun f =>
      !(f.core == s.cur.core && f.tenant == s.cur.tenant) } }

/-- `fence.c`. -/
def execFenceC (s : State) : Out := fence s [.near] id
/-- `fence.d`. -/
def execFenceD (s : State) : Out := fence s [.near, .die] id
/-- `fence.p`. -/
def execFenceP (s : State) : Out := fence s [.near, .die] id
/-- `fence.s`. -/
def execFenceS (s : State) : Out := fence s [.near, .die, .far] dropFarCopies

/-- `cwait n` (R355). -/
def execCwait (n : BitVec 5) (s : State) : Out := awaitClass s (waitClassOf n.toNat) 0 (.next (retire s s.cur))

/-! ### Ranges (R358, R365) -/

/-- Where the checks of steps 3, 4 and 6 of Table 05.2 fail over `n` bytes from a local address, in address order: causes
and addresses. The walk goes from one scratchpad, region or bank to the next; a range of 2^32 bytes meets at most 8,192
scratchpads. -/
def rangeFails (s : State) (t : Nat) (trusted : Bool) : Nat → Nat → Nat → List (Nat × Nat)
  | 0, _, _ => []
  | f + 1, a, n =>
    if n = 0 then []
    else
      match placeOf s a with
      | .window _ _ o =>
        let k := min n (0x80000 - o)
        (if trusted || spOwns s t o k then [] else [(0x04, a)]) ++ rangeFails s t trusted f (a + k) (n - k)
      | .dram =>
        match regionAt s a with
        | none => [(0x11, a)]
        | some e =>
          let k := min n (min (e.base + e.size - a) (2 ^ 31 - a % 2 ^ 31))
          (if trusted || e.owner == t then [] else [(0x04, a)]) ++ rangeFails s t trusted f (a + k) (n - k)
      | .control off =>
        let k := min n (2 ^ 32 - off)
        if trusted then rangeFails s t trusted f (a + k) (n - k) else [(0x11, a)]
      | _ => [(0x11, a)]

/-- The first failing check of a range: a step comes before the later ones, and an address before the higher ones. -/
def rangeCause (s : State) (t : Nat) (trusted : Bool) (a n : Nat) : Option (Nat × Nat) :=
  let fs := rangeFails s t trusted 16384 a n
  match fs.find? fun f => f.1 == 0x11 with
  | some f => some f
  | none => fs.head?

/-- The checks of `dwb` and `icinv` on base `b` and length `n`, then the rest (R358, R365). -/
def rangeChecked (s : State) (b n : Word) (k : Out) : Out :=
  if decide (2 ^ 32 < n.toNat) || decide (2 ^ 64 < b.toNat + n.toNat) then trap s 0x02 0
  else
    let last := BitVec.ofNat 64 (b.toNat + n.toNat - 1)
    if fieldNat b 63 56 ≠ 0 ∨ fieldNat last 63 56 ≠ 0 then trap s 0x11 b
    else if !isLocal s b || !isLocal s last then trap s 0x11 b
    else
      match rangeCause s s.cur.tenant s.cur.trusted (localOf b) n.toNat with
      | some (c, a) => trap s c (globalOf s a)
      | none => k

/-- The slices that home the DRAM lines of `n` bytes from a local address; lines homed in a scratchpad have no DRAM tier
(R358). -/
def rangeHomes (s : State) (a n : Nat) : List Nat :=
  (List.range ((a + n - 1) / 64 - a / 64 + 1)).foldl (fun hs i =>
    let x := 64 * (a / 64 + i)
    match placeOf s x, homeOf s x with
    | .dram, some h => addNew h hs
    | _, _ => hs) []

/-- Write-backs of a tenant in flight from a core's slice (R142). -/
def writebacks (s : State) (core t : Nat) : Nat := Tab.get s.eng.writebacks (coreTenant core t) 0

/-- The count of a slice becomes `n`. -/
def setWritebacks (s : State) (core t n : Nat) : State :=
  let w := Tab.erase s.eng.writebacks (coreTenant core t)
  { s with eng := { s.eng with writebacks := if n = 0 then w else Tab.set w (coreTenant core t) n } }

/-- An L2 slice begins a write-back, or ends one (R142). -/
def writeBack (s : State) (core t : Nat) (start : Bool) : State :=
  setWritebacks s core t (if start then writebacks s core t + 1 else writebacks s core t - 1)

/-- `dwb`: with the near and die counters at zero each home of a named line begins its write-back, and the slot waits until
each of these homes counts none (R142, R358). Memory is held once, so a write-back changes no value. -/
def execDwb (b l : Reg) (s : State) : Out :=
  gate s (.g [b, l] []) <|
    let (x, t) := takeG s.cur b
    let (n, t) := takeG t l
    if n = 0 then .next (retire s t)
    else
      rangeChecked s x n <|
        let c := countersOf s s.cur.core s.cur.tenant
        let hs := rangeHomes s (localOf x) n.toNat
        let open' := hs.any fun h => writebacks s h s.cur.tenant != 0
        if s.cur.hold = some .writeback then (if open' then .next s else .next (retire s { t with hold := none }))
        else if c.near ≠ 0 ∨ c.die ≠ 0 then .next s
        else if hs.isEmpty then .next (retire s t)
        else
          .next (modCur (hs.foldl (fun s h => writeBack s h s.cur.tenant true) s) fun t => { t with hold := some .writeback })

/-- `icinv` (R365): the removals go out, and the slot goes on. -/
def execIcinv (b l : Reg) (s : State) : Out :=
  gate s (.g [b, l] []) <|
    let (x, t) := takeG s.cur b
    let (n, t) := takeG t l
    if n = 0 then .next (retire s t)
    else
      rangeChecked s x n <|
        if 8 ≤ s.cur.icinvs.length then .next s
        else
          let lo := localOf x / 64
          let hi := (localOf x + n.toNat - 1) / 64
          .next (retire s { t with icinvs := t.icinvs ++ [(s.cur.slot?.getD 0, lo, hi)] })

/-- ICINV_COMPLETE: every core has removed the lines of the oldest `icinv` that a task issued from the slot, whether or not the task
still stands there (R359, R365). -/
def execIcinvComplete (core slot : Nat) (s : State) : Out :=
  let mine := fun (r : Nat × Nat × Nat) => r.1 == slot
  match (allTasks s).find? fun t => t.core == core && t.icinvs.any mine with
  | none => .next s
  | some t =>
    match t.icinvs.find? mine with
    | none => .next s
    | some r => .next (onTask (dropLines s r.2.1 r.2.2) t.key fun s => modCur s fun t => { t with icinvs := t.icinvs.erase r })

/-- `fbar` (R359). -/
def execFbar (s : State) : Out := if s.cur.icinvs.isEmpty then .next (retire s s.cur) else .next s

/-! ### Seals (R267, R268, R286, R410) -/

/-- The valid region that a base and a length cover exactly (R268 check 1, R409). -/
def exactRegion (s : State) (b : Word) (len : Nat) : Option HEntry :=
  if fieldNat b 63 56 ≠ 0 ∨ !isLocal s b then none
  else
    ((hIndices s).filterMap (hEntry s)).find? fun e =>
      e.base == localOf b && e.size == len && e.stands s

/-- SEAL[n] after a `seal` of class `c` (Table 13.5). -/
def sealedWord (old : Word) (c owner : Nat) : Word :=
  BitVec.ofNat 64 (2 ^ 63 + c * 2 ^ 60 + (fieldNat old 59 56 + 1) % 16 * 2 ^ 56 + owner * 2 ^ 50 + fieldNat old 47 0)

/-- The seal point: SEAL[n], HMAP[n].SEALED and CLASS change, and stores that wait for the region are examined (R268,
R410). -/
def sealRegion (s : State) (e : HEntry) (c : Nat) : State :=
  let w := sealedWord (ctlGet s (sealOff e.n)) c e.owner
  let h := ctlGet s (hmapOff e.n false)
  let h := (h &&& ~~~(0x1C00000000000000#64)) ||| BitVec.ofNat 64 (2 ^ 60 + c * 2 ^ 58)
  settle (devCtl (devCtl s (sealOff e.n) w) (hmapOff e.n false) h)

/-- `seal` (R268, R409). -/
def execSeal (h b l : Reg) (s : State) : Out :=
  gate s (.g [b, l] [h]) <|
  alone s <|
    let (x, t) := takeG s.cur b
    let (n, t) := takeG t l
    let c := fieldNat n 41 40
    match exactRegion s x (fieldNat n 39 0) with
    | none => trap s 0x02 0
    | some e =>
      if fieldNat n 63 42 ≠ 0 ∨ c = 3 then trap s 0x02 0
      else if e.owner ≠ s.cur.tenant ∧ !s.cur.trusted then trap s 0x02 0
      else if c ≠ 0 ∧ !s.cur.trusted then trap s 0x02 0
      else if e.sealed then trap s 0x03 x
      else if !destRoom s.cur h then trap s 0x02 0
      else
        let s1 := sealRegion s e c
        let v := BitVec.ofNat 64 (fieldNat (ctlGet s1 (sealOff e.n)) 59 56 * 4096 + e.n)
        finishAloneG s1 (rebase s1 t) h v

/-- `unseal` (R268, R286): every copy of the region's lines outside their homes is discarded, those of the instruction
caches among them. -/
def execUnseal (h : Reg) (s : State) : Out :=
  gate s (.g [h] []) <|
  alone s <|
    let (x, t) := takeG s.cur h
    let n := x.toNat % 4096
    let w := ctlGet s (sealOff n)
    let e := hEntryOf n (ctlGet s (hmapOff n false)) (ctlGet s (hmapOff n true))
    if fieldNat x 63 16 ≠ 0 ∨ !bitOf w 63 ∨ fieldNat w 59 56 ≠ fieldNat x 15 12 then trap s 0x02 0
    else if fieldNat w 61 60 ≠ 0 ∧ !s.cur.trusted then trap s 0x02 0
    else if fieldNat w 55 50 ≠ s.cur.tenant ∧ !s.cur.trusted then trap s 0x02 0
    else
      let s1 := devCtl s (sealOff n) (w &&& ~~~(1#64 <<< 63))
      let s1 := devCtl s1 (hmapOff n false) (ctlGet s1 (hmapOff n false) &&& ~~~(1#64 <<< 60))
      let s1 := match e with
        | some e => dropLines s1 (e.base / 64) ((e.base + e.size - 1) / 64)
        | none => s1
      .next (settle (retireAlone s1 (rebase s1 t)))

end Sys2Proof.Machine
end

