-- ==== Sys2Proof/Machine/Admit.lean ====
section
/-! DEFINITION. Admission (R257 to R266, R271, R272, R282, R283, R456), launches from their record to their root task (R83,
R231, R252, R303, R304), and their completion (R305). -/

namespace Sys2Proof.Machine

/-- Why an admission fails: a status of Table 13.3 and the index it reports. -/
abbrev AdmitError := Nat × Nat

/-- Go on with what a step gives, or stop with its failure. -/
def admitting {α β : Type} (x : Except AdmitError α) (k : α → Except AdmitError β) : Except AdmitError β :=
  match x with
  | .error e => .error e
  | .ok a => k a

/-- Fail with a status unless a condition holds. -/
def demand (c : Bool) (status : Nat) : Except AdmitError Unit := if c then .ok () else .error (status, noIndex)

/-! ### Step 1: the envelope (R257, R273) -/

/-- Every byte of a range is readable by the tenant. -/
def rangeReadable (s : State) (t : Nat) (a : Word) (n : Nat) : Bool :=
  isLocal s a && decide (fieldNat a 63 56 = 0) && decide (localOf a + n ≤ 2 ^ 40) &&
    (List.range (n / 8 + 2)).all fun i =>
      let x := 8 * (localOf a / 8) + 8 * i
      decide (localOf a + n ≤ x) || (checkLocal s t false x ⟨false, 8, 8, true, true, false⟩).isNone

/-- The image and code keys of a tenant (R273). -/
def tenantKeys (s : State) (t : Nat) : KeySlot := Tab.get s.mgmt.keys t .empty

/-- The plaintext of an envelope, or status 1. -/
def openEnvelope (s : State) (t : Nat) (a : Word) (ilen : Nat) : Except AdmitError (List Byte) :=
  if !rangeReadable s t a ilen then .error (1, noIndex)
  else
    let e := s.mem.readBytes (canon s (localOf a)) ilen
    let plen := imgNum e 8 8
    let ct := (e.drop 0x20).take plen
    let rk := roundKeys (tenantKeys s t).image
    let nonce := (e.drop 0x10).take 12
    if imgNum e 0 4 ≠ 0x31564E45 ∨ imgNum e 4 4 ≠ 1 ∨ !imgZero e 0x1C 4 ∨ ilen ≠ 48 + plen then .error (1, noIndex)
    else if gcmTag rk nonce (e.take 0x20) ct ≠ e.drop (0x20 + plen) then .error (1, noIndex)
    else .ok (gcmCrypt rk nonce ct)

/-! ### Folded values and failures -/

/-- What the Winnower folds for a tenant: the bounds of its arena and of its scratchpad window, FMASK bit 6, and the places of
the image's data section and regions (R263, R282). -/
def foldedFor (s : State) (t data : Nat) (regions : List Nat) : Folded :=
  { pkg := s.conf.pkg
    arlo := localOf (tenantWord s t 6)
    arhi := localOf (tenantWord s t 7)
    splo := fieldNat (tenantWord s t 5) 19 0
    sphi := fieldNat (tenantWord s t 5) 51 32
    narrow := bitOf (tenantWord s t 8) 6
    data := data
    regions := regions }

/-- An index found is a failure with a status. -/
def failAt (status : Nat) (x : Option Nat) : Except AdmitError Unit :=
  match x with
  | some i => .error (status, i % 2 ^ 32)
  | none => .ok ()

/-! ### Places (R456) -/

/-- Round up to a multiple. -/
def roundUp (a m : Nat) : Nat := (a + m - 1) / m * m

/-- The lowest free base in a tenant's arena for a size (R456). -/
def lowestFree (s : State) (t size : Nat) : Option Nat :=
  let es := (hIndices s).filterMap (hEntry s)
  let ar := arena s t
  let free := fun (c : Nat) => decide (ar.1 ≤ c) && decide (c + size ≤ ar.2) &&
    !overRetired s c size && es.all fun e => decide (e.base + e.size ≤ c) || decide (c + size ≤ e.base)
  ((roundUp ar.1 size :: es.map fun e => roundUp (e.base + e.size) size).filter free).foldl
    (fun m c => some (match m with
      | some x => min x c
      | none => c)) none

/-- The smallest power of two, 2^16 or more, that holds `n` bytes. -/
def regionLog (n : Nat) : Nat := ((List.range 24).find? fun k => decide (n ≤ 2 ^ (16 + k))).getD 24 + 16

/-- HMAP's mirror of a seal slot's class (R267). -/
def hmapClass (w : Word) : Word := BitVec.ofNat 64 (fieldNat w 61 60 * 2 ^ 58)

/-- A new region for a tenant: its home-map index and base, or status 6. -/
def newRegion (s : State) (t log kind pool : Nat) (h : Homing) (base : Option Nat) : Except AdmitError (State × Nat × Nat) :=
  match (List.range 4096).find? fun n => !bitOf (ctlGet s (hmapOff n false)) 63 && !bitOf (ctlGet s (sealOff n)) 63,
      base.or (lowestFree s t (2 ^ log)) with
  | some n, some b =>
    let w0 := BitVec.ofNat 64 (2 ^ 63 + kind * 2 ^ 61 + 2 ^ 56 + t * 2 ^ 50 + log * 2 ^ 45 +
      (if h.hashed then 2 ^ 44 else 0) + b / 0x10000) ||| (hmapClass (ctlGet s (sealOff n)))
    let w1 := BitVec.ofNat 64 (pool * 2 ^ 48 + h.word)
    match hEntryOf n w0 w1 with
    | none => .error (6, noIndex)
    | some e =>
      if (judgeEntry s e).isSome || overRetired s e.base e.size then .error (6, noIndex)
      else
        let s := { s with sched := { s.sched with dataRegs := s.sched.dataRegs.filter (· != n) } }
        .ok (devCtl (devCtl s (hmapOff n true) w1) (hmapOff n false) w0, n, b)
  | _, _ => .error (6, noIndex)

/-- The `.region`s, in order: at their base, or at the lowest free one. -/
def placeRegions (t : Nat) (b : List Byte) : Nat → Nat → State → Except AdmitError (State × List Nat)
  | 0, _, s => .ok (s, [])
  | n + 1, i, s =>
    let r := imgRegion b i
    admitting (newRegion s t r.2.1 0 0 r.2.2 (if r.1 = 0 then none else some r.1)) fun x =>
      admitting (placeRegions t b n (i + 1) x.1) fun y => .ok (y.1, x.2.2 :: y.2)

/-- The pools, in order, each under the tenant's lowest free pool number: their numbers and bases. -/
def placePools (t : Nat) (b : List Byte) : Nat → Nat → State → Except AdmitError (State × List (Nat × Nat))
  | 0, _, s => .ok (s, [])
  | n + 1, i, s =>
    match (List.range 1024).find? fun k => (poolBase s t k).isNone with
    | none => .error (6, noIndex)
    | some k =>
      admitting (newRegion s t (imgPool b i).1 1 k (imgHome b) none) fun x =>
        admitting (placePools t b n (i + 1) x.1) fun y => .ok (y.1, (k, x.2.2) :: y.2)

/-- The text of an image still stands (R275, R456). -/
def textStands (s : State) (i : Image) : Bool :=
  let w := ctlGet s (sealOff (i.handle.toNat % 4096))
  bitOf w 63 && decide (fieldNat w 59 56 = i.handle.toNat / 4096)

/-- The images of a tenant that stand, each in its latest translation. -/
def liveImages (s : State) (t : Nat) : List Image := s.sched.images.filter fun i => i.tenant == t && !i.old && textStands s i

/-- The lowest free multiple of 64 for `n` bytes in a data region. -/
def dataRoom (s : State) (t n : Nat) (e : HEntry) : Option Nat :=
  let used := ((liveImages s t).map fun i => (i.place.data, dataLen i.plain)).filter fun d =>
    decide (e.base ≤ d.1) && decide (d.1 < e.base + e.size) && decide (0 < d.2)
  let free := fun (c : Nat) => decide (e.base ≤ c) && decide (c + n ≤ e.base + e.size) &&
    used.all fun d => decide (d.1 + d.2 ≤ c) || decide (c + n ≤ d.1)
  ((e.base :: used.map fun d => roundUp (d.1 + d.2) 64).filter free).foldl
    (fun m c => some (match m with
      | some x => min x c
      | none => c)) none

/-- Insert by base. -/
def insertRegion (e : HEntry) : List HEntry → List HEntry
  | [] => [e]
  | x :: xs => if e.base < x.base then e :: x :: xs else x :: insertRegion e xs

/-- The data section: in the first data region of the image's homing with room, or in a new one (R283, R456). -/
def placeData (s : State) (t : Nat) (b : List Byte) : Except AdmitError (State × Nat) :=
  let h := imgHome b
  let es := ((regionsOf s t).filter fun e => e.kind == 0 && s.sched.dataRegs.contains e.n && e.hashed == h.hashed &&
    fieldNat (ctlGet s (hmapOff e.n true)) 35 0 == h.word).foldl (fun l e => insertRegion e l) []
  match es.findSome? (dataRoom s t (dataLen b)) with
  | some a => .ok (s, a)
  | none =>
    admitting (newRegion s t (regionLog (dataLen b)) 0 0 h none) fun x =>
      .ok ({ x.1 with sched := { x.1.sched with dataRegs := x.2.1 :: x.1.sched.dataRegs } }, x.2.2)

/-- The regions, the data section and the pools of an image, each at its place (R259, R456). -/
def placeAll (s : State) (t : Nat) (b : List Byte) : Except AdmitError (State × Folded × List (Nat × Nat)) :=
  admitting (placeRegions t b (nRegion b) 0 s) fun r =>
  admitting (placeData r.1 t b) fun d =>
  admitting (placePools t b (nPool b) 0 d.1) fun p => .ok (p.1, foldedFor s t d.2 r.2, p.2)

/-! ### Step 2: what is verified (R259, R260) -/

/-- What step 2 folds to judge the rewrite chunks of an image's rules (R244): its places as step 3 will choose them, or
places of 0 where admission finds no room (DEDUCED, log entry 39). -/
def trialPlace (s : State) (t : Nat) (b : List Byte) : Folded :=
  match placeAll s t b with
  | .ok x => x.2.1
  | .error _ => foldedFor s t 0 []

/-- The first rule of an image whose chunk grows beyond R244. -/
def chunkError (s : State) (t : Nat) (b : List Byte) : Option Nat :=
  let tr := translating b (trialPlace s t b) false
  if nRule b = 0 then none else boundError tr (emitImage tr)

/-- The header, the encoding and form, the dataflow, the rules' shape, the profile and the feature mask. -/
def verifyImage (s : State) (t : Nat) (b : List Byte) : Except AdmitError Unit :=
  let fmask := tenantWord s t 8
  admitting (demand (decide (b.length % 8 = 0) && headerOk b && (imgNum b 8 1 == 0xFF || imgNum b 8 1 == t) && tablesOk b) 2)
    fun _ =>
  admitting (failAt 2 (formError b)) fun _ =>
  admitting (failAt 2 (flowError b)) fun _ =>
  admitting (failAt 2 (chunkError s t b)) fun _ =>
  admitting (if replayExact b then failAt 3 (replayError b) else .ok ()) fun _ =>
  admitting (demand (!(replayExact b && bitOf fmask 9)) 4) fun _ =>
  admitting (failAt 4 (maskError b fmask)) fun _ =>
  if bitOf fmask 6 then failAt 4 (windowError b (foldedFor s t 0 [])) else .ok ()

/-! ### Steps 4 to 6: text -/

/-- Take `n` bytes, zero beyond the end. -/
def fitBytes (n : Nat) (bs : List Byte) : List Byte := (bs ++ List.replicate (n - bs.length) 0).take n

/-- Encrypt text that lies at a local address, line by line (R272). -/
def encryptText (key : List Byte) (a : Nat) (bs : List Byte) : List Byte :=
  ((chunksOf 64 (bs.length / 64) bs).mapIdx fun i l => xtsEncrypt key (bytesOfNat 16 (a + 64 * i)) l).flatten

/-- The native byte offset of a function's entry. -/
def Image.entryOf (i : Image) (f : Nat) : Nat := 4 * i.entries.getD f 0

/-- Bytes of native text. -/
def Native.bytes (n : Native) : List Byte := n.words.flatMap fun w => bytesOfNat 4 w.toNat

/-- Write native text into a region, encrypted, and seal it with class code: the state and the handle (R259 steps 5 and 6,
R272). -/
def placeText (s : State) (t : Nat) (e : HEntry) (text : List Byte) : State × BitVec 16 :=
  let bs := fitBytes (roundUp text.length 64) text
  let s1 := devWrite s e.base (encryptText (tenantKeys s t).code e.base bs) (some true)
  let s2 := sealRegion (dropLines s1 (e.base / 64) ((e.base + e.size - 1) / 64)) e 1
  (s2, BitVec.ofNat 16 (fieldNat (ctlGet s2 (sealOff e.n)) 59 56 * 4096 + e.n))

/-- Write the image record of a seal slot: TVEC, TLEN and D (R202, R271). -/
def writeImgrec (s : State) (k : Nat) (b : List Byte) (n : Native) (d : List Byte) : State :=
  let tvec := if trapFn b = 0 then 0 else BitVec.ofNat 64 (2 ^ 63 + 4 * n.trapEntry (trapFn b - 1))
  (([tvec, BitVec.ofNat 64 (4 * n.words.length)] ++ wordsOfBytes d 6).zipIdx).foldl
    (fun s w => devCtl s (imgrecOff k w.2) w.1) s

/-! ### Step 7: entries and pools (R106, R228, R233, R234, R282) -/

/-- Install one rule: over its key's present entry, one of the same image too (DESIGN CHOICE, log entry 59), or in the first
slot of the eight not in use. -/
def installRule (s : State) (t ta tb : Nat) (w : Word) : Except AdmitError State :=
  let hit := (ruleSlots ta tb).find? fun i =>
    bitOf (ctlGet s (rtabOff t i false)) 63 && (ctlGet s (rtabOff t i true)).toNat == ruleKey ta tb
  match hit with
  | some i => .ok (devCtl s (rtabOff t i false) w)
  | none =>
    match (ruleSlots ta tb).find? fun i => !bitOf (ctlGet s (rtabOff t i false)) 63 with
    | none => .error (5, noIndex)
    | some i => .ok (devCtl (devCtl s (rtabOff t i true) (BitVec.ofNat 64 (ruleKey ta tb))) (rtabOff t i false) w)

/-- Every rule of an image. -/
def installRules (t : Nat) (b : List Byte) (word : Nat → Word) : Nat → Nat → State → Except AdmitError State
  | 0, _, s => .ok s
  | n + 1, i, s =>
    let r := imgRule b i
    admitting (installRule s t r.1 r.2.1 (word r.2.2)) fun s => installRules t b word n (i + 1) s

/-- Every handler entry of an image; PEND stays as it stands. Of two with one tag the later stays (DESIGN CHOICE, log entry
59). -/
def installHandlers (s : State) (t : Nat) (b : List Byte) (word : Nat → Word) : State :=
  (List.range (nHand b)).foldl (fun s i =>
    let h := imgHand b i
    let old := htabWord s t h.1 &&& (1#64 <<< 59)
    devCtl s (htabOff t h.1) (word h.2.2 ||| BitVec.ofNat 64 (h.2.1 * 2 ^ 61 + 2 ^ 60) ||| old)) s

/-- A pool's header and initial nodes: HIGH is the first slot after them, and NETD is the launch record's (R228, R252). -/
def writePool (s : State) (b : List Byte) (k base : Nat) (netd : Word) : State :=
  let p := imgPool b k
  let hdr : List Word := [0, 0, BitVec.ofNat 64 (0x40 + 32 * p.2.2), netd, BitVec.ofNat 64 k, 0, 0, 0]
  devWrite s base (bytesOfWords (hdr ++ (List.range p.2.2).flatMap fun j => imgNode b (p.2.1 + j))) (some true)

/-- The data section with its relocation words patched (R282). -/
def patchedData (b : List Byte) (f : Folded) : List Byte :=
  (List.range (nReloc b)).foldl (fun bs i =>
    let r := imgReloc b i
    if r.1 ≠ 0xFFFFFFFF then bs
    else
      let v := BitVec.ofNat 64 (imgNum bs r.2.1 8 + f.symbol r.2.2)
      bs.take r.2.1 ++ bytesOfNat 8 v.toNat ++ bs.drop (r.2.1 + 8)) (imgData b)

/-! ### The admission of an image (R259) -/

/-- D of an image (R259 step 8). -/
def imageD (b : List Byte) : List Byte := sha384 (b ++ bytesOfNat 8 Config.wrel.toNat)

/-- MEAS of a tenant takes an image's D (R259 step 8). -/
def extendMeas (s : State) (t : Nat) (d : List Byte) : State :=
  let old := bytesOfWords ((List.range 6).map fun i => tenantWord s t (12 + i))
  ((wordsOfBytes (sha384 (old ++ d)) 6).zipIdx).foldl (fun s x => devCtl s (tenantOff t (12 + x.2)) x.1) s

/-- List an image, in place of an earlier one of its tenant under the same handle. -/
def recordImage (s : State) (i : Image) : State :=
  let others := s.sched.images.filter fun x => !(x.tenant == i.tenant && x.handle == i.handle)
  { s with sched := { s.sched with images := i :: others } }

/-- Steps 3 to 8 for a verified image, whose pools take the net descriptors `ds`. A rule's entry takes PRIO 0, since an image
names none (DESIGN CHOICE, log entry 59). -/
def buildImage (s : State) (t : Nat) (b : List Byte) (ds : List Word) : Except AdmitError (State × Image) :=
  admitting (placeAll s t b) fun p =>
  let place := p.2.1
  let n := emitImage (translating b place false)
  let tlen := 4 * n.words.length
  admitting (newRegion p.1 t (regionLog tlen) 0 0 (imgHome b) none) fun x =>
  match hEntry x.1 x.2.1 with
  | none => .error (6, noIndex)
  | some e =>
    let s2 := placeText x.1 t e n.bytes
    let dg := imageD b
    let i : Image :=
      { tenant := t, handle := s2.2, d := BitVec.ofNat 384 (natBE dg), plain := b, place := place, tlen := tlen
        pools := p.2.2.map (·.1), entries := n.entries (nFunc b), index := n.index b, whole := false, old := false }
    let word := fun (f : Nat) => BitVec.ofNat 64 (2 ^ 63 + i.handle.toNat * 2 ^ 40 + i.entryOf f)
    admitting (installRules t b (fun f => word f ||| (1#64 <<< 62)) (nRule b) 0 s2.1) fun s3 =>
    let s4 := releaseEnabled (installHandlers s3 t b word)
    let s5 := p.2.2.zipIdx.foldl (fun s q => writePool s b q.2 q.1.2 (ds.getD q.2 0)) s4
    let s6 := devWrite s5 place.data (patchedData b place) (some true)
    let s7 := raiseRepgen (extendMeas (writeImgrec s6 e.n b n dg) t dg) t
    .ok (recordImage s7 i, i)

/-- Admit an image; a failure installs nothing, and a compaction of the tenant's memory cancels it (R259 to R261). -/
def admitImage (s : State) (t : Nat) (a : Word) (ilen : Nat) (ds : List Word) : Except (AdmitError × List Byte) (State × Image) :=
  if tiState s t ≠ 2 || (moveOf s t).isSome then .error ((7, noIndex), [])
  else
    match openEnvelope s t a ilen with
    | .error e => .error (e, [])
    | .ok b =>
      match verifyImage s t b with
      | .error e => .error (e, b)
      | .ok _ =>
        match buildImage s t b ds with
        | .error e => .error (e, b)
        | .ok x => .ok x

/-! ### The report (R305 KIND 1) -/

/-- The continuation records of an admission report. -/
def moreReports : Nat → State → Nat → Nat → BitVec 16 → List Word → State
  | 0, s, _, _, _, _ => s
  | n + 1, s, t, num, h, ws =>
    if ws.isEmpty then s
    else
      moreReports n (hostRecord s 1 t num (BitVec.ofNat 64 (0xFF + h.toNat * 2 ^ 16) :: ws.take 24)) t num h (ws.drop 24)

/-- ADMISSION_REPORT of an admitted image. -/
def reportAdmitted (s : State) (num : Nat) (i : Image) : State :=
  let d := wordsOfBytes (bytesBE 48 i.d.toNat) 6
  let rs := i.place.regions.map (globalOf s)
  let body := [BitVec.ofNat 64 (i.handle.toNat * 2 ^ 16), Config.wrel] ++ d ++
    [BitVec.ofNat 64 noIndex, globalOf s i.place.data] ++ rs.take 15
  let s := hostRecord s 1 i.tenant num body
  moreReports (rs.length + 1) s i.tenant num i.handle (rs.drop 15)

/-- ADMISSION_REPORT of a failure; status 4 counts as cause 0x15 (R260, R329). -/
def reportRefused (s : State) (t num : Nat) (e : AdmitError) (b : List Byte) : State :=
  let d := if b.isEmpty then List.replicate 6 0 else wordsOfBytes (imageD b) 6
  let s := hostRecord s 1 t num ([BitVec.ofNat 64 e.1, Config.wrel] ++ d ++ [BitVec.ofNat 64 e.2, 0])
  if e.1 = 4 then siloAdd s 2232 else s

/-! ### The launch (R231, R252, R303, R304) -/

/-- A launch runs no task: completion status 2. -/
def refuseLaunch (s : State) (t num : Nat) : State := mapLaunch s t num fun l => { l with begun := true, status := 2 }

/-- NETD of pool `k` of a launch record. -/
def recordNetd (s : State) (a : Word) (k : Nat) : Word := recordWord s a (8 + k)

/-- A net descriptor the launch may name: in this package with its completion word, aligned, and the tenant's (R230, R303). -/
def netdOk (s : State) (t : Nat) (d : Word) : Bool :=
  d == 0 ||
    (decide (d.toNat % 32 = 0) && rangeReadable s t d 32 &&
      (let c := homeWord s (localOf d)
       decide (c.toNat % 8 = 0) && rangeReadable s t c 8))

/-- One net starts: NETD, ACT and DONE, its initial pairs, and completion at once where it has none (R231, R252). -/
def startNet (s : State) (t num : Nat) (i : Image) (k pool : Nat) (d : Word) : State :=
  match poolBase s t pool with
  | none => s
  | some base =>
    let s := devWord (devWord s (base + 0x18) d) (base + 0x20) (BitVec.ofNat 64 k)
    let s := if d = 0 then s else devWord (devWord s (canon s (localOf d) + 16) 0) (canon s (localOf d) + 24) 0
    let s := (initialPairs i.plain k).foldl (fun s x =>
      let e := bagEntry pool x.1 x.2
      let r := pushPair s none t base num e
      if r.2 then bareFault r.1 t num 0x0A e else r.1) s
    match netDesc s base with
    | none => s
    | some nd => if s.mem.read64 (nd + 16) = 0 then netComplete s t pool nd else s

/-- The nets of a launch start. -/
def startNets (s : State) (t num : Nat) (i : Image) (ds : List Word) : State :=
  let named := (i.pools.zip ds).filter fun x => x.2 != 0
  let s := mapLaunch s t num fun l => { l with pools := i.pools, nets := named.map fun x => x.1 }
  ((i.pools.zip ds).zipIdx).foldl (fun s x => startNet s t num i x.2 x.1.1 x.1.2) s

/-- The root task of a launch (R84, R304). -/
def rootBirth (t num : Nat) (ctl : Word) (args : List Word) (handle : BitVec 16) (entry : Nat) (imgd : Option Word) : Birth :=
  { kind := .root, core := fieldNat ctl 13 4, tenant := t, prio := fieldNat ctl 3 2, handle := handle, trusted := false
    winnower := false, entry := entry, pb := 0, args := args, origin := BitVec.ofNat 64 num
    owner := BitVec.ofNat 64 (num * 2 ^ 10), msg := none, launch := some (t, num), rooted := true, net := none
    ord := none, imgd := imgd, src := 2048 }

/-- NETD of every pool of a launch record. -/
def recordNetds (s : State) (a : Word) : List Word := (List.range (ctlPools (recordWord s a 0))).map (recordNetd s a)

/-- The image's pools are not those of the launch record, or function 0 has too many parameters (R303, R304). -/
def launchBad (s : State) (a : Word) (root : Bool) (i : Option Image) : Bool :=
  match i with
  | none => false
  | some i => decide (ctlPools (recordWord s a 0) ≠ i.pools.length) || (root && decide (4 < imgParams i.plain 0))

/-- Start a launch of an image, where it is known. -/
def startLaunch (s : State) (t num : Nat) (a : Word) (handle : BitVec 16) (i : Option Image) (imgd : Option Word) : State :=
  let ctl := recordWord s a 0
  let ds := recordNetds s a
  if launchBad s a true i || !coreEnabled s (fieldNat ctl 13 4) then refuseLaunch s t num
  else
    let args := (List.range 4).map fun k => recordWord s a (3 + k)
    let s := mapLaunch s t num fun l => { l with begun := true }
    let s := match i with
      | none => s
      | some i => startNets s t num i ds
    let entry := match i with
      | none => 0
      | some i => i.entryOf 0
    enqueue s (rootBirth t num ctl args handle entry imgd)

/-- The fields of a launch record that R303 refuses. -/
def recordBad (s : State) (t : Nat) (a : Word) : Bool :=
  let ctl := recordWord s a 0
  decide (fieldNat ctl 1 0 = 3) || decide (fieldNat ctl 15 14 ≠ 0) || decide (fieldNat ctl 63 43 ≠ 0) ||
    decide (1024 < ctlPools ctl) || (fieldNat ctl 1 0 != 2 && recordWord s a 7 != 0) ||
    !recordOwned s t a (min 1024 (ctlPools ctl)) ||
    (List.range (min 1024 (ctlPools ctl))).any fun k => !netdOk s t (recordNetd s a k)

/-- One launch record is taken. -/
def admitRecord (s : State) (r : LaunchReq) : State :=
  let t := r.ti
  let ctl := recordWord s r.addr 0
  let op := fieldNat ctl 1 0
  let gone := s.sched.launches.any fun l => l.ti == t && l.number == r.number && l.cancelled
  if gone then mapLaunch s t r.number fun l => { l with begun := true }
  else if recordBad s t r.addr then refuseLaunch s t r.number
  else if op = 2 then
    if tiState s t ≠ 2 then refuseLaunch s t r.number
    else
      let h := BitVec.ofNat 16 (fieldNat ctl 31 16)
      startLaunch s t r.number r.addr h (imageOf s t h) (some (recordWord s r.addr 7))
  else
    match admitImage s t (recordWord s r.addr 1) (recordWord s r.addr 2).toNat (recordNetds s r.addr) with
    | .error (e, b) => refuseLaunch (reportRefused s t r.number e b) t r.number
    | .ok (s, i) =>
      let s := reportAdmitted s r.number i
      if op = 0 then
        if launchBad s r.addr false (some i) then refuseLaunch s t r.number
        else mapLaunch s t r.number fun l => { l with begun := true }
      else startLaunch s t r.number r.addr i.handle (some i) none

/-- The run queue of a launch's root core has no room for the root task of a record that launches (R86). -/
def rootWaits (s : State) (r : LaunchReq) : Bool :=
  let ctl := recordWord s r.addr 0
  fieldNat ctl 1 0 != 0 && queueFull s (fieldNat ctl 13 4)

/-- ADMISSION: the oldest queued launch record whose tenant the service has not pre-empted, and whose root task finds room, is
taken (R86, R259, R261). -/
def execAdmission (s : State) : Out :=
  match s.sched.launchQ.find? fun r => !(s.pre.svc.getLsbD r.ti) && !rootWaits s r with
  | none => .next s
  | some r => .next (settle (observe (admitRecord { s with sched := { s.sched with launchQ := s.sched.launchQ.erase r } } r)))

/-! ### Completion (R83, R305) -/

/-- A launch has ended: its nets have completed, its root and spawned tasks and their gang requests are gone, and the host
has acknowledged its fault records. -/
def launchOver (s : State) (l : Launch) : Bool :=
  l.begun && l.nets.isEmpty && l.unacked == 0 &&
    !((allTasks s).any fun t => t.rooted && ofLaunch l.ti l.number t) &&
    !(s.sched.gangQ.any fun q => q.2.any fun g => g.rooted && g.launch == some (l.ti, l.number))

/-- LAUNCH_COMPLETION: the completion record (R83, R305 KIND 2). -/
def execLaunchCompletion (ti number : Nat) (s : State) : Out :=
  match s.sched.launches.find? fun l => l.ti == ti && l.number == number with
  | none => .next s
  | some l =>
    if launchOver s l then
      let st := if l.status = 2 then 2 else if l.cancelled then 1 else 0
      let s := { s with sched := { s.sched with launches := s.sched.launches.erase l } }
      .next (hostRecord s 2 ti number [BitVec.ofNat 64 st, BitVec.ofNat 64 l.fatals, BitVec.ofNat 64 s.time])
    else .next s

end Sys2Proof.Machine
end

