-- ==== Sys2Proof/Machine/Alu.lean ====
section
/-! DEFINITION. Integer arithmetic of the general registers (R339, R340, R344 to R346, R356, R357, R374, R394, R414, R417) and
the mask operations (R379, R380). -/

namespace Sys2Proof.Machine

/-! ### Arithmetic -/

/-- The high 64 bits of a product of integers. -/
def highWord (p : Int) : Word := BitVec.ofInt 64 (p / 2 ^ 64)

/-- The low 32 bits. -/
def lo32 (x : Word) : BitVec 32 := x.truncate 32

/-- A 32-bit result, sign-extended (sext32 of R339). -/
def wide (x : BitVec 32) : Word := x.signExtend 64

/-- Quotient and remainder of R357: a zero divisor gives all ones and the dividend. -/
def divS {n : Nat} (x y : BitVec n) : BitVec n := if y = 0 then BitVec.allOnes n else x.sdiv y
def divU {n : Nat} (x y : BitVec n) : BitVec n := if y = 0 then BitVec.allOnes n else x.udiv y
def remS {n : Nat} (x y : BitVec n) : BitVec n := if y = 0 then x else x.srem y
def remU {n : Nat} (x y : BitVec n) : BitVec n := if y = 0 then x else x.umod y

/-- The low bits of a shift amount (R414). -/
def amount6 (y : Word) : Nat := y.toNat % 64
def amount5 (y : Word) : Nat := y.toNat % 32

/-- A truth value as a register holds it (R417). -/
def truth (b : Bool) : Word := if b then 1 else 0

/-- `add` (R339). -/
def execAdd (d a b : Reg) (s : State) : Out := opGG s d a b fun x y => x + y
/-- `sub` (R339). -/
def execSub (d a b : Reg) (s : State) : Out := opGG s d a b fun x y => x - y
/-- `addw` (R339). -/
def execAddw (d a b : Reg) (s : State) : Out := opGG s d a b fun x y => sext32 (x + y)
/-- `subw` (R339). -/
def execSubw (d a b : Reg) (s : State) : Out := opGG s d a b fun x y => sext32 (x - y)
/-- `addi` (R340). -/
def execAddi (d a : Reg) (i : BitVec 12) (s : State) : Out := opG s d a fun x => x + sext12 i
/-- `addiw` (R340). -/
def execAddiw (d a : Reg) (i : BitVec 12) (s : State) : Out := opG s d a fun x => sext32 (x + sext12 i)
/-- `and` (R344). -/
def execAnd (d a b : Reg) (s : State) : Out := opGG s d a b fun x y => x &&& y
/-- `or` (R344). -/
def execOr (d a b : Reg) (s : State) : Out := opGG s d a b fun x y => x ||| y
/-- `xor` (R344). -/
def execXor (d a b : Reg) (s : State) : Out := opGG s d a b fun x y => x ^^^ y
/-- `andi` (R345). -/
def execAndi (d a : Reg) (i : BitVec 12) (s : State) : Out := opG s d a fun x => x &&& sext12 i
/-- `ori` (R345). -/
def execOri (d a : Reg) (i : BitVec 12) (s : State) : Out := opG s d a fun x => x ||| sext12 i
/-- `xori` (R345). -/
def execXori (d a : Reg) (i : BitVec 12) (s : State) : Out := opG s d a fun x => x ^^^ sext12 i
/-- `slt` (R417). -/
def execSlt (d a b : Reg) (s : State) : Out := opGG s d a b fun x y => truth (x.slt y)
/-- `sltu` (R417). -/
def execSltu (d a b : Reg) (s : State) : Out := opGG s d a b fun x y => truth (x.ult y)
/-- `slti` (R417). -/
def execSlti (d a : Reg) (i : BitVec 12) (s : State) : Out := opG s d a fun x => truth (x.slt (sext12 i))
/-- `sltiu` (R417). -/
def execSltiu (d a : Reg) (i : BitVec 12) (s : State) : Out := opG s d a fun x => truth (x.ult (sext12 i))
/-- `sll` (R414). -/
def execSll (d a b : Reg) (s : State) : Out := opGG s d a b fun x y => x <<< amount6 y
/-- `srl` (R414). -/
def execSrl (d a b : Reg) (s : State) : Out := opGG s d a b fun x y => x >>> amount6 y
/-- `sra` (R414). -/
def execSra (d a b : Reg) (s : State) : Out := opGG s d a b fun x y => x.sshiftRight (amount6 y)
/-- `sllw` (R414). -/
def execSllw (d a b : Reg) (s : State) : Out := opGG s d a b fun x y => wide (lo32 x <<< amount5 y)
/-- `srlw` (R414). -/
def execSrlw (d a b : Reg) (s : State) : Out := opGG s d a b fun x y => wide (lo32 x >>> amount5 y)
/-- `sraw` (R414). -/
def execSraw (d a b : Reg) (s : State) : Out := opGG s d a b fun x y => wide ((lo32 x).sshiftRight (amount5 y))
/-- `slli` (R414). -/
def execSlli (d a : Reg) (k : BitVec 6) (s : State) : Out := opG s d a fun x => x <<< k.toNat
/-- `srli` (R414). -/
def execSrli (d a : Reg) (k : BitVec 6) (s : State) : Out := opG s d a fun x => x >>> k.toNat
/-- `srai` (R414). -/
def execSrai (d a : Reg) (k : BitVec 6) (s : State) : Out := opG s d a fun x => x.sshiftRight k.toNat
/-- `slliw` (R414). -/
def execSlliw (d a : Reg) (k : BitVec 5) (s : State) : Out := opG s d a fun x => wide (lo32 x <<< k.toNat)
/-- `srliw` (R414). -/
def execSrliw (d a : Reg) (k : BitVec 5) (s : State) : Out := opG s d a fun x => wide (lo32 x >>> k.toNat)
/-- `sraiw` (R414). -/
def execSraiw (d a : Reg) (k : BitVec 5) (s : State) : Out := opG s d a fun x => wide ((lo32 x).sshiftRight k.toNat)
/-- `mul` (R394). -/
def execMul (d a b : Reg) (s : State) : Out := opGG s d a b fun x y => x * y
/-- `mulh` (R394). -/
def execMulh (d a b : Reg) (s : State) : Out := opGG s d a b fun x y => highWord (x.toInt * y.toInt)
/-- `mulhsu` (R394). -/
def execMulhsu (d a b : Reg) (s : State) : Out := opGG s d a b fun x y => highWord (x.toInt * (y.toNat : Int))
/-- `mulhu` (R394). -/
def execMulhu (d a b : Reg) (s : State) : Out := opGG s d a b fun x y => highWord ((x.toNat : Int) * (y.toNat : Int))
/-- `mulw` (R394). -/
def execMulw (d a b : Reg) (s : State) : Out := opGG s d a b fun x y => sext32 (x * y)
/-- `div` (R356, R357). -/
def execDiv (d a b : Reg) (s : State) : Out := opGG s d a b fun x y => divS x y
/-- `divu` (R356, R357). -/
def execDivu (d a b : Reg) (s : State) : Out := opGG s d a b fun x y => divU x y
/-- `rem` (R356, R357). -/
def execRem (d a b : Reg) (s : State) : Out := opGG s d a b fun x y => remS x y
/-- `remu` (R356, R357). -/
def execRemu (d a b : Reg) (s : State) : Out := opGG s d a b fun x y => remU x y
/-- `divw` (R356, R357). -/
def execDivw (d a b : Reg) (s : State) : Out := opGG s d a b fun x y => wide (divS (lo32 x) (lo32 y))
/-- `divuw` (R356, R357). -/
def execDivuw (d a b : Reg) (s : State) : Out := opGG s d a b fun x y => wide (divU (lo32 x) (lo32 y))
/-- `remw` (R356, R357). -/
def execRemw (d a b : Reg) (s : State) : Out := opGG s d a b fun x y => wide (remS (lo32 x) (lo32 y))
/-- `remuw` (R356, R357). -/
def execRemuw (d a b : Reg) (s : State) : Out := opGG s d a b fun x y => wide (remU (lo32 x) (lo32 y))

/-- sext32(imm20 << 12) of R346 and R374. -/
def upper (i : BitVec 20) : Word := wide (i ++ 0#12)

/-- `lui` (R374). -/
def execLui (d : Reg) (i : BitVec 20) (s : State) : Out := gate s (.g [] [d]) <| finishG s s.cur d (upper i)
/-- `auipc` (R346). -/
def execAuipc (d : Reg) (i : BitVec 20) (s : State) : Out :=
  gate s (.g [] [d]) <| finishG s s.cur d (s.cur.ctx.pc + upper i)

/-! ### Masks (R379, R380) -/

/-- The number of ones. -/
def onesIn (w : Word) : Nat := ((List.range 64).filter fun i => w.getLsbD i).length

/-- The index of the lowest one, or 64. -/
def firstOne (w : Word) : Nat := ((List.range 64).find? fun i => w.getLsbD i).getD 64

/-- An instruction that writes a mask. -/
def opMask (s : State) (d : Reg) (v : Word) : Out :=
  .next (retire s { s.cur with ctx := setM s.cur.ctx d v })

/-- `mand`. -/
def execMand (d a b : Reg) (s : State) : Out := opMask s d (getM s.cur.ctx a &&& getM s.cur.ctx b)
/-- `mor`. -/
def execMor (d a b : Reg) (s : State) : Out := opMask s d (getM s.cur.ctx a ||| getM s.cur.ctx b)
/-- `mxor`. -/
def execMxor (d a b : Reg) (s : State) : Out := opMask s d (getM s.cur.ctx a ^^^ getM s.cur.ctx b)
/-- `mnot`. -/
def execMnot (d a : Reg) (s : State) : Out := opMask s d (~~~getM s.cur.ctx a)
/-- `mpop`. -/
def execMpop (d a : Reg) (s : State) : Out :=
  gate s (.g [] [d]) <| finishG s s.cur d (BitVec.ofNat 64 (onesIn (getM s.cur.ctx a)))
/-- `mfirst`. -/
def execMfirst (d a : Reg) (s : State) : Out :=
  gate s (.g [] [d]) <| finishG s s.cur d (BitVec.ofNat 64 (firstOne (getM s.cur.ctx a)))

end Sys2Proof.Machine
end

