-- ==== Sys2Proof/Machine/Mailbox.lean ====
section
/-! DEFINITION. The SPDM and MCTP mailbox (R326, R335, R336) and the SPDM responder (R324, R325, R337). -/

namespace Sys2Proof.Machine

/-! ### Responses -/

/-- A session of the responder; one that has not spoken yet is empty. -/
def sessionAt (s : State) (i : Nat) : SpdmSession := (s.mgmt.spdm.find? fun x => x.id == i).getD ⟨i, false, false, []⟩

/-- Replace a session. -/
def setSession (s : State) (x : SpdmSession) : State :=
  modMgmt s fun m => { m with spdm := x :: m.spdm.filter fun y => y.id != x.id }

/-- Send a response on a session. -/
def spdmSend (s : State) (i : Nat) (r : SpdmReply) : State :=
  let x := sessionAt s i
  setSession s { x with sent := x.sent ++ [r] }

/-- The four bytes of an ERROR response (R337). -/
def errorBytes (code data : Byte) : List Byte := [0x13, 0x7F, code, data]

/-- ERROR, UnsupportedRequest, with the request's code (R324, Table 19.2). -/
def unsupported (req : List Byte) : SpdmReply := .exact (errorBytes 0x07 (req.getD 1 0))

/-- A named response, its bytes free. -/
def sendNamed (s : State) (i : Nat) (n : SpdmName) : State :=
  nextFresh (spdmSend s i (.named n (Config.spdmBytes s.fresh)))

/-- The extended asymmetric entry of R325. -/
def extAsym : List Byte := [0x04, 0x00, 0x06, 0x00, 0xA7, 0xE5, 0x01, 0x00, 0x01, 0x00]

/-- Some place of a byte string holds another. -/
def hasBytes (needle : List Byte) : List Byte → Bool
  | [] => needle.isEmpty
  | b :: bs => (b :: bs).take needle.length == needle || hasBytes needle bs

/-- ALGORITHMS, or ERROR, UnsupportedRequest, to a requester that offers no matching entry (R325). -/
def algorithmsFor (req : List Byte) : SpdmReply :=
  if hasBytes extAsym req then .algorithms (2 ^ 1) (2 ^ 2) (2 ^ 4) (2 ^ 1) 0 1 extAsym else unsupported req

/-! ### MEASUREMENTS (R324, R337) -/

/-- A measurement block: index, specification, size, value type, value size, value (Table 19.3). -/
def measBlock (s : State) (i : Nat) : List Byte :=
  [BitVec.ofNat 8 i, 0x01, 0x33, 0x00, 0x01, 0x30, 0x00] ++ digBytes (measOf s (i - 1))

/-- The indices Param2 names (Table 19.3). -/
def measIndices (p : Nat) : List Nat := if p = 0 then [] else if p = 0xFF then (List.range 16).map (· + 1) else [p]

/-- The MEASUREMENTS response without its signature (Table 19.3). -/
def measBytes (s : State) (p : Nat) (nonce : List Byte) : List Byte :=
  let is := measIndices p
  [0x13, 0x60, (if p = 0 then 16 else 0), 0, BitVec.ofNat 8 is.length] ++ bytesOfNat 3 (55 * is.length) ++
    is.flatMap (measBlock s) ++ nonce ++ [0, 0]

/-- The first test of Table 19.2 that a request fails: code and data. `signed` admits a request for a signature. -/
def measError (req : List Byte) (signed : Bool) : Option (Byte × Byte) :=
  let p := (req.getD 3 0).toNat
  if req.getD 0 0 ≠ 0x13 then some (0x41, 0)
  else if req.getD 1 0 ≠ 0xE0 then some (0x07, req.getD 1 0)
  else if (req.getD 2 0).getLsbD 0 && !signed then some (0x07, 0xE0)
  else if !(req.getD 2 0).getLsbD 0 && req.length != 4 then some (0x01, 0)
  else if 16 < p ∧ p ≠ 0xFF then some (0x01, 0)
  else none

/-- GET_MEASUREMENTS answered: the nonce is the head of a fresh random DIG; a signature's 96 bytes are free (R324, R337). -/
def measAnswer (s : State) (req : List Byte) (signed : Bool) : State × List Byte :=
  match measError req signed with
  | some e => (s, errorBytes e.1 e.2)
  | none =>
    let s1 := ran (opRandom s).1 7 0
    let bs := measBytes s1 (req.getD 3 0).toNat ((digBytes s1.mgmt.crypto.dig).take 32)
    if (req.getD 2 0).getLsbD 0 then (nextFresh s1, bs ++ freeBytes s1 96) else (s1, bs)

/-! ### The mailbox (R335, R336) -/

def modMbox (s : State) (f : Mailbox → Mailbox) : State := modMgmt s fun m => { m with mbox := f m.mbox }

/-- Bytes leave for the BMC. -/
def mboxSend (s : State) (bs : List Byte) : State := modMbox s fun b => { b with sent := b.sent ++ [bs] }

/-- RXBUF takes a request of a length it can hold, or the mailbox answers ERROR, Busy (R336). -/
def takeRequest (s : State) (bs : List Byte) : State :=
  if s.mgmt.mbox.pend then mboxSend s (errorBytes 0x03 0)
  else if decide (1 ≤ bs.length) && decide (bs.length ≤ 4095) then
    modMbox s fun b => { b with pend := true, rxbuf := bs, rxAt := s.time }
  else s

/-- The mailbox answers these itself, from the boot ROM's responses, until the security monitor starts: GET_VERSION,
GET_CAPABILITIES and NEGOTIATE_ALGORITHMS (R336). -/
def selfAnswer (s : State) (req : List Byte) : Option State :=
  let c := req.getD 1 0
  if s.mgmt.mbox.monitor then none
  else if c = 0x84 then some (sendNamed s 0 .version)
  else if c = 0xE1 then some (sendNamed s 0 .capabilities)
  else if c = 0xE3 then some (spdmSend s 0 (algorithmsFor req))
  else none

/-- An MCTP type 0x05 request reaches the mailbox: while PEND is set it is answered ERROR, Busy, whatever it asks (R336). -/
def mailboxTake (s : State) (bs : List Byte) : State :=
  if s.mgmt.mbox.pend then takeRequest s bs else (selfAnswer s bs).getD (takeRequest s bs)

/-- MAILBOX_REQUEST_ARRIVAL (R336). -/
def execMailboxRequestArrival (bytes : List Byte) (s : State) : Out := .next (mailboxTake s bytes)

/-- MCTP_MESSAGE: SPDM and secured SPDM are passed on, every other type is dropped and counted (R326). -/
def execMctpMessage (ty : Nat) (bytes : List Byte) (s : State) : Out :=
  .next (if ty = 5 then mailboxTake s bytes else if ty = 6 then takeRequest s bytes else siloAdd s 2238)

/-- A write of TXCTL: that many bytes of TXBUF answer the pending request, and PEND is cleared (Table 19.1). -/
def txctlWrite (s : State) (v : Word) : State :=
  let n := fieldNat v 11 0
  if !s.mgmt.mbox.pend || n == 0 then s
  else
    modMbox (mboxSend s (tabBytes s.mgmt.mbox.txbuf 0 n)) fun b => { b with pend := false, rxbuf := [] }

/-- TXCTL (R335). -/
def execTxctl (v : Word) (s : State) : Out := .next (txctlWrite s v)

/-- A byte of the mailbox's registers (Table 19.1); RXSTAT reads 0 in the cycle of the request's last byte (R336). -/
def mboxRead (s : State) (o : Nat) : Byte :=
  let b := s.mgmt.mbox
  if o < 0x8 then
    (bytesOfNat 8 (if b.pend && decide (b.rxAt < s.time) then 1 + b.rxbuf.length * 2 ^ 32 else 0)).getD o 0
  else if decide (0x10 ≤ o) && decide (o < 0x18) then (bytesOfNat 8 b.bootst.toNat).getD (o - 0x10) 0
  else if decide (0x1000 ≤ o) && decide (o < 0x2000) then b.rxbuf.getD (o - 0x1000) 0
  else if decide (0x2000 ≤ o) && decide (o < 0x3000) then Tab.get b.txbuf (o - 0x2000) 0
  else 0

/-- One byte stored to the mailbox other than to TXCTL. -/
def mboxPut (b : Mailbox) (o : Nat) (v : Byte) : Mailbox :=
  if decide (0x10 ≤ o) && decide (o < 0x18) then { b with bootst := putLE b.bootst (o - 0x10) v &&& 0xFFFF }
  else if decide (0x2000 ≤ o) && decide (o < 0x3000) then { b with txbuf := Tab.set b.txbuf (o - 0x2000) v }
  else b

/-- Bytes stored to the mailbox; one that covers TXCTL sends the response. -/
def mboxWrite (s : State) (o : Nat) (bs : List Byte) : State :=
  let s1 := modMbox s fun b => (bs.zipIdx).foldl (fun b x => mboxPut b (o + x.2) x.1) b
  if decide (0x8 ≤ o) && decide (o < 0x10) then txctlWrite s1 (BitVec.ofNat 64 (natOfBytes (List.replicate (o - 8) 0 ++ bs)))
  else s1

/-! ### OP 13 flits (R307) -/

/-- The first waiting flit of a kind, and the state without it. -/
def takeInbox (s : State) (p : Flit → Bool) : Option (Flit × State) :=
  match s.mgmt.inbox.find? p with
  | none => none
  | some f => some (f, modMgmt s fun m => { m with inbox := m.inbox.erase f })

/-- The secured answer leaves for the package that asked, in OP 13 flits whose payloads are free (R307). -/
def answerFlits (s : State) (f : Flit) : State :=
  (Config.securedFlits s.fresh).foldl (fun s ws =>
    sendFlit s (mkFlit s f.src 4 f.ti f.dcore f.score 13 0 (ws.take 26))) (nextFresh s)

/-- A request that came in an OP 13 flit of a kind is served, and answered the same way. -/
def serveFlit (s : State) (p : Flit → Bool) (k : State → State) : State :=
  match takeInbox s p with
  | none => s
  | some (f, s) => answerFlits (k s) f

/-- The session of a secured message: the first four bytes of its payload (PRESUMED, log entry 64). -/
def sessionOf (f : Flit) : Nat := fieldNat (f.words.getD 0 0) 31 0

/-- A request of a session of the fabric (R307). -/
def serveSession (s : State) (i : Nat) (k : State → State) : State := serveFlit s (fun f => sessionOf f == i) k

/-! ### The responder (R324) -/

/-- The pending request has been answered. -/
def clearPend (s : State) : State := modMbox s fun b => { b with pend := false, rxbuf := [] }

/-- The request code of an SPDM message (PRESUMED, log entry 64). -/
def spdmCode (m : SpdmMsg) : Byte := m.bytes.getD 1 0

/-- The codes of the twelve requests that the responders support: GET_DIGESTS, GET_CERTIFICATE, CHALLENGE, GET_VERSION,
GET_MEASUREMENTS, GET_CAPABILITIES, NEGOTIATE_ALGORITHMS, KEY_EXCHANGE, FINISH, HEARTBEAT, KEY_UPDATE and END_SESSION (R324;
PRESUMED, log entry 64). -/
def spdmCodes : List Byte := [0x81, 0x82, 0x83, 0x84, 0xE0, 0xE1, 0xE3, 0xE4, 0xE5, 0xE8, 0xE9, 0xEC]

/-- The pending request of the mailbox is this one, and its responder is there to answer it: the security monitor, or stage 1
at its read of RXSTAT (R324, R336, R338). -/
def pendingIs (s : State) (bs : List Byte) : Bool :=
  s.mgmt.mbox.pend && s.mgmt.mbox.rxbuf == bs && (s.mgmt.mbox.monitor || s.mgmt.poll == some true)

/-- Stage 1 answers the pending request by the tests of Table 19.2, MEASUREMENTS unsigned where it passes all (R337). -/
def stage1Answer (s : State) (m : SpdmMsg) : State :=
  let r := measAnswer s m.bytes false
  let s1 := modMgmt r.1 fun x => { x with poll := some false }
  mboxSend (modMbox (spdmSend s1 0 (.exact r.2)) fun b => { b with txbuf := tabPut b.txbuf 0 r.2 }) r.2

/-- A request of one of some codes that the security monitor answers, or stage 1 before it (R324, R337). -/
def serve (s : State) (m : SpdmMsg) (takes : Byte → Bool) (k : State → State) : Out :=
  let k' := fun s => if s.mgmt.mbox.monitor then k s else stage1Answer s m
  if !takes (spdmCode m) then .next s
  else if m.session = 0 then (if pendingIs s m.bytes then .next (clearPend (k' s)) else .next s)
  else if s.mgmt.mbox.monitor then .next (serveSession s m.session k) else .next s

/-- A request that the mailbox itself answers before the security monitor starts (R336). -/
def serveOwn (s : State) (m : SpdmMsg) (code : Byte) (k : State → State) : Out :=
  if s.mgmt.mbox.monitor then serve s m (· == code) k
  else if m.session = 0 ∧ spdmCode m = code then .next (mailboxTake s m.bytes) else .next s

/-- GET_VERSION (R324). -/
def execGetVersion (m : SpdmMsg) (s : State) : Out := serveOwn s m 0x84 fun s => sendNamed s m.session .version
/-- GET_CAPABILITIES (R324). -/
def execGetCapabilities (m : SpdmMsg) (s : State) : Out := serveOwn s m 0xE1 fun s => sendNamed s m.session .capabilities
/-- NEGOTIATE_ALGORITHMS (R325). -/
def execNegotiateAlgorithms (m : SpdmMsg) (s : State) : Out :=
  serveOwn s m 0xE3 fun s => spdmSend s m.session (algorithmsFor m.bytes)
/-- GET_DIGESTS (R324). -/
def execGetDigests (m : SpdmMsg) (s : State) : Out := serve s m (· == 0x81) fun s => sendNamed s m.session .digests
/-- GET_CERTIFICATE (R324). -/
def execGetCertificate (m : SpdmMsg) (s : State) : Out := serve s m (· == 0x82) fun s => sendNamed s m.session .certificate
/-- CHALLENGE (R324). -/
def execChallenge (m : SpdmMsg) (s : State) : Out := serve s m (· == 0x83) fun s => sendNamed s m.session .challengeAuth

/-- GET_MEASUREMENTS: answered under Table 19.2; the security monitor signs where it is asked to (R324, R337). -/
def execGetMeasurements (m : SpdmMsg) (s : State) : Out :=
  serve s m (· == 0xE0) fun s =>
    let r := measAnswer s m.bytes true
    let s1 := spdmSend r.1 m.session (.exact r.2)
    if m.session = 0 then mboxSend (modMbox s1 fun b => { b with txbuf := tabPut b.txbuf 0 r.2 }) r.2 else s1

/-- KEY_EXCHANGE: the session has its keys (R324). -/
def execKeyExchange (m : SpdmMsg) (s : State) : Out :=
  serve s m (· == 0xE4) fun s => sendNamed (setSession s { sessionAt s m.session with keyed := true }) m.session .keyExchangeRsp
/-- FINISH: a session with its keys is secured (R324). -/
def execFinish (m : SpdmMsg) (s : State) : Out :=
  serve s m (· == 0xE5) fun s =>
    sendNamed (setSession s { sessionAt s m.session with secured := (sessionAt s m.session).keyed }) m.session .finishRsp
/-- HEARTBEAT (R324). -/
def execHeartbeat (m : SpdmMsg) (s : State) : Out := serve s m (· == 0xE8) fun s => sendNamed s m.session .heartbeatAck
/-- END_SESSION: the session is open no longer (R324). -/
def execEndSession (m : SpdmMsg) (s : State) : Out :=
  serve s m (· == 0xEC) fun s =>
    sendNamed (setSession s { sessionAt s m.session with keyed := false, secured := false }) m.session .endSessionAck
/-- SPDM_UNSUPPORTED_REQUEST: every other request is answered ERROR, UnsupportedRequest; before the security monitor runs,
every one but GET_MEASUREMENTS (R324, R337). -/
def execSpdmUnsupportedRequest (m : SpdmMsg) (s : State) : Out :=
  serve s m (fun c => !(if s.mgmt.mbox.monitor then spdmCodes else [0xE0]).contains c) fun s =>
    let s := spdmSend s m.session (unsupported m.bytes)
    if m.session = 0 then mboxSend s (errorBytes 0x07 (m.bytes.getD 1 0)) else s

end Sys2Proof.Machine
end

