-- ==== Sys2Proof/Machine/Boot.lean ====
section
/-! DEFINITION. Boot (R297, R298, R321 to R323, R333, R338) and the events of power, cooling, the silo and the memory's ECC
(R165, R254, R327 to R329). -/

namespace Sys2Proof.Machine

/-! ### A signed image on flash (R322, R333) -/

/-- The header of a signed image at a flash offset. -/
def flashHeader (s : State) (o : Nat) : List Byte := tabBytes s.mgmt.flash o 256

/-- A field of a header. -/
def hdrNum (h : List Byte) (o n : Nat) : Nat := natOfBytes ((h.drop o).take n)

def hdrBlen (h : List Byte) : Nat := hdrNum h 0x08 4
def hdrLoad (h : List Byte) : Nat := hdrNum h 0x10 8
def hdrEntry (h : List Byte) : Nat := hdrNum h 0x18 8

/-- The header is accepted: R322, and for the image that stage 1 loads R333 as well. -/
def bootHeaderOk (h : List Byte) (stage1 : Bool) : Bool :=
  let blen := hdrBlen h
  let load := hdrLoad h
  let entry := hdrEntry h
  decide (hdrNum h 0 4 = 0x38464D49) && decide (hdrNum h 0x0C 4 = 0) && decide (hdrNum h 0xE0 32 = 0) &&
    decide (1 ≤ blen) && decide (blen ≤ 0xFFF00) && decide (load ≤ entry) && decide (entry < load + blen) &&
    (if stage1 then
      decide (load % 8 = 0) && decide (0x08010080 ≤ load) && decide (load < 0x08100000) &&
        decide (load + (blen + 7) / 8 * 8 ≤ 0x08100000) && decide (entry % 2 = 0)
     else decide (0x08000000 ≤ load) && decide (load + blen ≤ 0x08100000))

/-- The body of an image, and D (R322). -/
def flashBody (s : State) (o : Nat) : List Byte := tabBytes s.mgmt.flash (o + 256) (hdrBlen (flashHeader s o))
def flashDigest (s : State) (o : Nat) : BitVec 384 := digOf (sha384 ((flashHeader s o).take 128 ++ flashBody s o))

/-- BOOTST ERR of a stage that loads the image at a flash offset: 0x11 for its header, 0x20 and the crypto error for its
signature, 0 for none (R338). -/
def bootError (s : State) (o : Nat) (stage1 : Bool) : Nat :=
  let h := flashHeader s o
  if !bootHeaderOk h stage1 then 0x11
  else
    let e := verifyError s.mgmt.crypto.keyhash (flashDigest s o) ((h.drop 0x20).take 96)
      (BitVec.ofNat 768 (natBE ((h.drop 0x80).take 96)))
    if e = 0 then 0 else 0x20 + e

/-- The stage halts with its error in the BMC status word (R321, R338). -/
def bootHalt (s : State) (stage err : Nat) : State :=
  modMgmt (modMbox s fun b => { b with bootst := BitVec.ofNat 64 (stage + 2 ^ 8 * err) }) fun m =>
    { m with halted := true, core := { m.core with stopped := true } }

/-- The management core jumps to ENTRY of the image at a flash offset. -/
def bootEnter (s : State) (o : Nat) : State :=
  modMgmt s fun m => { m with core := { m.core with pc := BitVec.ofNat 64 (hdrEntry (flashHeader s o)) } }

/-- The registers that verifying an image leaves: DIG and SIG. -/
def bootRegs (s : State) (o : Nat) : State :=
  modCrypto s fun c => { c with dig := flashDigest s o, sig := BitVec.ofNat 768 (natBE (((flashHeader s o).drop 0x80).take 96)) }

/-! ### The stages (R321) -/

/-- Stage 0: the boot ROM loads stage 1 at 0x0800_0000, verifies and measures it, and closes MEAS0; of an image whose header
fails nothing is loaded (R321, R333; DEDUCED, log entry 46). -/
def bootStage0 (s : State) : State :=
  let e := bootError s 0 false
  if e = 0x11 then bootHalt s 0 e
  else
    let s1 := bootRegs (sramPut s 0x08000000 (flashBody s 0)) 0
    if e ≠ 0 then bootHalt (ran s1 2 (e - 0x20)) 0 e
    else
      bootEnter (modMgmt (ran (measExtend s1 0 (flashDigest s 0)) 4 0) fun m => { m with romExit := true, stage := 1 }) 0

/-- Flash offset of the Damdin image. -/
def damdinAt : Nat := 0x100000

/-- The copies stage 1 makes in SRAM: the header at H, its first half below LOAD, and the body at LOAD (R333). -/
def stage1Copies (s : State) : State :=
  let h := flashHeader s damdinAt
  let n := (hdrBlen h + 7) / 8 * 8
  sramPut (sramPut (sramPut s 0x0800F000 h) (hdrLoad h - 128) (h.take 128)) (hdrLoad h) (tabBytes s.mgmt.flash (damdinAt + 256) n)

/-- SRC, LEN and KEYADDR as stage 1 leaves them (Table 19.6). -/
def stage1Regs (s : State) : State :=
  let h := flashHeader s damdinAt
  modCrypto s fun c =>
    { c with src := BitVec.ofNat 64 (hdrLoad h - 128), len := BitVec.ofNat 64 (hdrBlen h + 128), keyaddr := 0x0800F020 }

/-- Stage 1 up to its read of RXSTAT: Damdin is loaded, verified and measured (R333, R338). -/
def bootStage1 (s : State) : State :=
  let e := bootError s damdinAt true
  let s1 := bootRegs (stage1Regs (stage1Copies s)) damdinAt
  let s2 :=
    if e = 0x11 then bootHalt (sramPut s 0x0800F000 (flashHeader s damdinAt)) 1 e
    else if e ≠ 0 then bootHalt (ran s1 2 (e - 0x20)) 1 e
    else modMbox (ran (measExtend s1 1 (flashDigest s damdinAt)) 4 0) fun b => { b with bootst := 1 }
  modMgmt s2 fun m => { m with poll := some true }

/-- Stage 1 reads RXSTAT once: a request that it sees pending is answered, and one whose last byte enters RXBUF in that cycle
stays for the security monitor (R336, R338). -/
def bootPoll (s : State) : State :=
  let b := s.mgmt.mbox
  if s.mgmt.poll == some true && b.pend && decide (b.rxAt < s.time) then clearPend (stage1Answer s ⟨0, b.rxbuf⟩)
  else modMgmt s fun m => { m with poll := some false }

/-- The end of stage 1: the read of RXSTAT, and the jump to Damdin, unless the stage has failed and loops for ever (R338). -/
def bootStart (s : State) : State :=
  let s1 := bootPoll s
  if s.mgmt.halted then s1
  else modMbox (bootEnter (modMgmt s1 fun m => { m with stage := 2 }) damdinAt) fun b => { b with monitor := true }

/-- Stage 2: the service firmware and the Winnower are measured, the incarnation rises, and `wn_retrans` stands in the trusted
runtime's image (R287, R297, R321, R323). -/
def bootStage2 (s : State) : State :=
  let s1 := measExtend (measExtend s 2 Config.firmwareDigest) 3 Config.winnowerDigest
  modMgmt { s1 with conf := { s1.conf with incarnation := (s1.conf.incarnation + 1) % 256, retrans := some Config.retransAt } }
    fun m => { m with stage := 3 }

/-- The incarnation announcement for one endpoint, an OP 11 flit of the management class; it leaves once its link is up
(R298). -/
def announce (s : State) (ep : Nat) : State :=
  let f := mkFlit s ep 4 0 0 0 11 0 [BitVec.ofNat 64 s.conf.incarnation]
  let l := linkAt s f.port
  setLink s f.port { l with held := l.held ++ [f] }

/-- Stage 3: every granule is marked unscrubbed and the incarnation announced; TIs then accept LOCK_INTERFACE_REQUEST. -/
def bootStage3 (s : State) : State :=
  modMgmt (s.conf.endpoints.foldl announce { s with mem := ⟨[], [], [], [], []⟩ }) fun m => { m with stage := 4 }

/-- The next stage of boot runs; a boot that has halted, or has passed, stays as it is (R321). -/
def bootNext (s : State) : State :=
  if s.mgmt.stage = 1 then (if s.mgmt.poll.isNone then bootStage1 s else bootStart s)
  else if s.mgmt.halted then s
  else if s.mgmt.stage = 2 then bootStage2 s
  else if s.mgmt.stage = 3 then bootStage3 s
  else s

/-! ### The disable list (R331) -/

/-- The channels of module DRAM that are enabled. -/
def channelsOn (c : Conf) : Nat := ((List.range 32).filter fun i => c.lpen.getLsbD i).length

/-- One unit disabled: a row whole, a pair of channels, a port down to a width, a bank. -/
def Conf.without (c : Conf) (u : Disabled) : Conf :=
  match u with
  | .row n => { c with rowEn := c.rowEn &&& ~~~(1#128 <<< n) }
  | .channels k => { c with lpen := c.lpen &&& ~~~(3#32 <<< (2 * k)) }
  | .port p w =>
    let was := c.portw.toNat / 4 ^ p % 4
    { c with portw := (c.portw &&& ~~~(3#32 <<< (2 * p))) ||| (BitVec.ofNat 32 (min was w) <<< (2 * p)) }
  | .bank die n =>
    if h : die < 4 then { c with bankret := c.bankret.set die (c.bankret[die] ||| (1 <<< n &&& 0xFFFF)) h } else c

/-- The configuration after a reset: the disable list is applied, and MODCAP follows the channels. -/
def resetConf (s : State) : Conf :=
  let c := s.mgmt.disable.foldl Conf.without s.conf
  { c with modcap := fullModuleDram * channelsOn c / 32, retrans := none }

/-- The machine as a reset leaves it before stage 0: every table at its Reset column; what the part keeps in fuses, in flash
and in its non-volatile store stays, as the silo does (R297, R319, R329, R330). -/
def resetPackage (s : State) : State :=
  { State.reset with
    conf := resetConf s
    silo := s.silo
    mgmt := { Mgmt.initial with flash := s.mgmt.flash, siloNv := s.mgmt.siloNv, disable := s.mgmt.disable
                                crypto := { Mgmt.initial.crypto with keyhash := s.mgmt.crypto.keyhash } }
    agenda := s.agenda
    fresh := s.fresh
    nextKey := s.nextKey }

/-- POWER_ON_RESET: a power-on or package reset runs boot stage 0; the later stages are turns of their own, between which
requests reach the mailbox (R321, R336). -/
def execPowerOnReset (s : State) : Out := .next (bootStage0 (resetPackage s))

/-- The security monitor puts a unit on the disable list, which the next reset applies (R331). -/
def disableUnit (s : State) (u : Disabled) : State := modMgmt s fun m => { m with disable := m.disable ++ [u] }

/-- A unit counts an event of Table 18.8's entries 0 to 2,207 (R329). -/
def countEvent (s : State) (entry : Nat) : State := if entry < 2208 then siloAdd s entry else s

/-! ### Power and cooling (R327, R328) -/

/-- The module has no power: what was counted since the last flush is lost (R329). -/
def powerOff (s : State) : State := { s with power := false, silo := s.mgmt.siloNv }

/-- The silo goes to the non-volatile store (R329). -/
def flushSilo (s : State) : State := modMgmt s fun m => { m with siloNv := s.silo }

/-- DROOP_CLOCK_STRETCH: timing only (R328). -/
def execDroopClockStretch (cluster : Nat) (s : State) : Out :=
  .next (if cluster < 64 then modMgmt s fun m => { m with stretched := addNew cluster m.stretched } else s)
/-- JUNCTION_STRETCH: timing only (R327). -/
def execJunctionStretch (s : State) : Out := .next (modMgmt s fun m => { m with hot := true })
/-- JUNCTION_SHUTDOWN: logged in the silo, and the module is shut down (R327). -/
def execJunctionShutdown (s : State) : Out := .next (powerOff (flushSilo (siloAdd s 2242)))
/-- SILO_FLUSH (R329). -/
def execSiloFlush (s : State) : Out := .next (flushSilo s)
/-- ORDERLY_SHUTDOWN (R329). -/
def execOrderlyShutdown (s : State) : Out := .next (powerOff (flushSilo s))
/-- POWER_LOSS (R329). -/
def execPowerLoss (s : State) : Out := .next (powerOff s)

/-! ### The service window and the memory's ECC (R165, R254) -/

/-- SERVICE_WINDOW_REFUSAL (R254). -/
def execServiceWindowRefusal (s : State) : Out := .next (siloAdd s 2235)

/-- UNCORRECTABLE_MEMORY_ERROR: the word that holds an address is poisoned (R165). -/
def execUncorrectableMemoryError (addr : Nat) (s : State) : Out :=
  let a := 8 * (canon s addr / 8)
  .next (match placeOf s addr with
    | .dram => { s with mem := { s.mem with poison := insertNat a s.mem.poison } }
    | .window _ _ _ => { s with mem := { s.mem with poison := insertNat a s.mem.poison } }
    | _ => s)

end Sys2Proof.Machine
end

