-- ==== Sys2Proof/Machine/Branch.lean ====
section
/-! DEFINITION. Branches and jumps (R57, R163, R348, R366, R367), `bchk` (R347), `trap`, `brk` (R349, R431) and a word that is
illegal (R59). -/

namespace Sys2Proof.Machine

/-- The task after a control transfer to `target`, inside its chunk. -/
def Task.jumpTo (t : Task) (target : Word) : Task :=
  { t with ctx := { t.ctx with pc := target }, chunk := countInstr t.chunk }

/-- A transfer to `target`: cause 0x07 unless it is a multiple of 4, cause 0x11 in another package, before any effect (R57,
R163). -/
def transfer (s : State) (target : Word) (go : Out) : Out :=
  if target.toNat % 4 ≠ 0 then trap s 0x07 target
  else if pkgOf target ≠ s.conf.pkg then trap s 0x11 target
  else go

/-- The displacement of a branch: imm[12:1], doubled and sign-extended (R57). -/
def branchDisp (i : BitVec 12) : Word := (i ++ 0#1).signExtend 64

/-- The displacement of a `jal`: imm[20:1], doubled and sign-extended (R57). -/
def jalDisp (i : BitVec 20) : Word := (i ++ 0#1).signExtend 64

/-- A conditional branch (R348). -/
def branch (s : State) (a b : Reg) (i : BitVec 12) (taken : Word → Word → Bool) : Out :=
  gate s (.g [a, b] []) <|
    let (x, t) := takeG s.cur a
    let (y, t) := takeG t b
    let target := s.cur.ctx.pc + branchDisp i
    if taken x y then transfer s target (.next { s with cur := t.jumpTo target }) else .next (retire s t)

/-- `beq` (R348). -/
def execBeq (a b : Reg) (i : BitVec 12) (s : State) : Out := branch s a b i fun x y => x == y
/-- `bne` (R348). -/
def execBne (a b : Reg) (i : BitVec 12) (s : State) : Out := branch s a b i fun x y => x != y
/-- `blt` (R348). -/
def execBlt (a b : Reg) (i : BitVec 12) (s : State) : Out := branch s a b i fun x y => x.slt y
/-- `bge` (R348). -/
def execBge (a b : Reg) (i : BitVec 12) (s : State) : Out := branch s a b i fun x y => !x.slt y
/-- `bltu` (R348). -/
def execBltu (a b : Reg) (i : BitVec 12) (s : State) : Out := branch s a b i fun x y => x.ult y
/-- `bgeu` (R348). -/
def execBgeu (a b : Reg) (i : BitVec 12) (s : State) : Out := branch s a b i fun x y => !x.ult y

/-- `jal` (R366). -/
def execJal (d : Reg) (i : BitVec 20) (s : State) : Out :=
  gate s (.g [] [d]) <|
    let pc := s.cur.ctx.pc
    let target := pc + jalDisp i
    transfer s target <|
      if destRoom s.cur d then
        .next { s with cur := { s.cur with ctx := setG s.cur.ctx d (pc + 4) }.jumpTo target }
      else trap s 0x02 0

/-- `jalr` (R367): in trap mode, a target with bits [1:0] = 0b10 is the trap return (R204). -/
def execJalr (d a : Reg) (i : BitVec 12) (s : State) : Out :=
  gate s (.g [a] [d]) <|
    let (x, t) := takeG s.cur a
    let target := (x + sext12 i) &&& ~~~1#64
    if s.cur.ctx.trapMode && decide (target.toNat % 4 = 2) then
      if destRoom s.cur d then
        transfer s (target - 2) <|
        let t := landLink t
        .next { s with cur := { t with ctx := trapReturnCtx t.ctx d target, chunk := countInstr t.chunk } }
      else trap s 0x02 0
    else
      transfer s target <|
        if destRoom s.cur d then .next { s with cur := { t with ctx := setG t.ctx d (t.ctx.pc + 4) }.jumpTo target }
        else trap s 0x02 0

/-- `bchk`: address `a`, bounds `l` and `h`, unsigned (R347). Sources are read in the order rs1, rs2, rd. -/
def execBchk (a l h : Reg) (s : State) : Out :=
  gate s (.g [a, l, h] []) <|
    let (lo, t) := takeG s.cur l
    let (hi, t) := takeG t h
    let (x, t) := takeG t a
    if decide (lo.toNat ≤ x.toNat) && decide (x.toNat < hi.toNat) then .next (retire s t) else trap s 0x02 0

/-- `trap n` (R431). -/
def execTrap (n : BitVec 5) (s : State) : Out := .next (takeTrap s 0x0F n.toNat 0 true false)

/-- `brk` (R349). -/
def execBrk (s : State) : Out := .next (takeTrap s 0x10 0 0 true false)

/-- ILLEGAL_ENCODING: the slot reaches an illegal word (R59). -/
def execIllegalEncoding (s : State) : Out := if s.cur.slot?.isSome then trap s 0x01 0 else .next s

end Sys2Proof.Machine
end

