-- ==== Sys2Proof/Machine/Fetch.lean ====
section
/-! DEFINITION. Fetching an instruction (R57, R163), the fill of an instruction cache (R166, R270, R272, R286, R289). -/

namespace Sys2Proof.Machine

/-! ### Fetch (R57, R163, R270) -/

/-- The instruction of a word at a task's place: in a repetition body its register fields are renumbered and judged
afterwards; none where it is illegal (R59, R73, R74, R407). -/
def issueWord (t : Task) (w : BitVec 32) : Option Instr :=
  match t.ctx.rep with
  | none =>
    match decode w with
    | .ok i => some i
    | .error _ => none
  | some r =>
    match decodeRaw w with
    | .error _ => none
    | .ok i =>
      let i := renumberInstr i (r.pass * r.stride)
      if bodyIllegal i then none else if i.wf then some i else none

/-- The words of a line as memory holds them. -/
def lineWords (m : Mem) (line : Nat) : List (BitVec 32) :=
  (List.range 16).map fun k => BitVec.ofNat 32 (natOfBytes (m.readBytes (64 * line + 4 * k) 4))

/-! ### The fill (R270) -/

/-- The seal of a region lets a task's fill through, or the cause it raises: a revoked seal or the handle's own slot under
another GEN is 0x08, and every other refusal 0x04; of a revoked seal R286 speaks without R270's condition (R270, R286; DEDUCED, log
entry 71). -/
def sealCause (s : State) (t : Task) (e : HEntry) : Option Nat :=
  let w := ctlGet s (sealOff e.n)
  let own := e.n == t.handle.toNat % 4096
  let gen := fieldNat w 59 56
  if bitOf w 62 || (own && gen != t.handle.toNat / 4096) then some 0x08
  else if !e.sealed then some 0x04
  else if e.cls = 1 then (if fieldNat w 55 50 = t.tenant ∧ own = true then none else some 0x04)
  else if e.cls = 2 then (if t.trusted then none else some 0x04)
  else some 0x04

/-- The IMGD word of an op 10 launch against D of the handle's slot, at the root task's first fill (R289). -/
def imgdCause (s : State) (t : Task) : Option Nat :=
  match t.imgd with
  | none => none
  | some d =>
    let n := t.handle.toNat % 4096
    let w := ctlGet s (sealOff n)
    if ctlGet s (imgrecOff n 2) ≠ d ∨ bitOf w 62 = true ∨ fieldNat w 59 56 ≠ t.handle.toNat / 4096 then some 0x08 else none

/-- The cause that a fill at a task's pc raises; it reads the whole line, and a poisoned word anywhere in it counts as fetched
(R166; DESIGN CHOICE, log entry 59). -/
def fillCause (s : State) (t : Task) : Option Nat :=
  let a := localOf t.ctx.pc
  if !isLocal s t.ctx.pc then some 0x11
  else
    match imgdCause s t with
    | some c => some c
    | none =>
      match placeOf s a with
      | .unmapped => some 0x11
      | .carveOut => some 0x11
      | .dram =>
        match regionAt s a with
        | none => some 0x11
        | some e =>
          match sealCause s t e with
          | some c => some c
          | none => if s.mem.anyPoison (64 * (a / 64)) 64 then some 0x0C else none
      | _ => some 0x04

/-- The line as the instruction cache holds it: code-class text decrypted under its tenant's code key (R272). -/
def filledLine (s : State) (t : Task) : ICLine :=
  let l := localOf t.ctx.pc / 64
  let code := match regionAt s (64 * l) with
    | some e => e.cls == 1
    | none => false
  let ws := if code then
      let bs := xtsDecrypt (tenantKeys s t.tenant).code (bytesOfNat 16 (64 * l)) (s.mem.readBytes (64 * l) 64)
      (chunksOf 4 16 bs).map fun b => BitVec.ofNat 32 (natOfBytes b)
    else lineWords s.mem l
  ⟨t.core, l, t.handle, ws⟩

/-- ICACHE_FILL: the running task's next line enters its core's instruction cache, or the fill's cause is taken. A fill that
R289 asks for is made even where the line is held. -/
def execIcacheFill (s : State) : Out :=
  let t := s.cur
  if (fetchWord s t).isSome && t.imgd.isNone then .next s
  else if regionBusy s (localOf t.ctx.pc) then .next s
  else
    match fillCause s t with
    | some c => trap s c t.ctx.pc
    | none =>
      let l := filledLine s t
      let rest := s.eng.icache.filter fun x => !(x.core == l.core && x.line == l.line && x.handle == l.handle)
      .next { modCur s (fun t => { t with imgd := none }) with eng := { s.eng with icache := l :: rest } }

end Sys2Proof.Machine
end

