-- ==== Sys2Proof/Machine/Lacc.lean ====
section
/-! DEFINITION. The long-accumulator instructions (R196 to R198, R369 to R371). -/

namespace Sys2Proof.Machine

/-- The checks of an accumulator address, in the order of R370; a trusted image is exempt from the last (R210). -/
def laccCause (s : State) (a : Word) : Option Nat :=
  if fieldNat a 63 56 ≠ 0 then some 0x11
  else if a.toNat % 16 ≠ 0 then some 0x07
  else
    match placeOf s (localOf a) with
    | .window 0 c o =>
      if !isLocal s a || c != s.cur.core || decide (0x78000 < o + 80) then some 0x11
      else if !s.cur.trusted && !spOwns s s.cur.tenant o 80 then some 0x04
      else none
    | _ => some 0x11

/-- Held operations of a chunk other than reads (R371). -/
def laccCount (c : Chunk) : Nat := (c.log.filter fun e => match e with
  | .lacc _ => true
  | _ => false).length

/-- Hold an operation on the accumulator at `a`: a 65th line or a 33rd operation ends the chunk before it (R371). -/
def holdLacc (s : State) (t : Task) (a : Word) (o : LaccEff) : Out :=
  let c := s.cur.chunk
  let ls := (linesOf (localOf a) 80).foldl (fun l x => addNew x l) c.llines
  if 32 ≤ laccCount c ∨ 64 < (ls.foldl (fun l x => addNew x l) c.wlines).length then .next (chunkLimit s)
  else
    let t := t.hold' (.lacc o)
    .next (retire s { t with chunk := { t.chunk with llines := ls } })

/-- Check an address, then go on. -/
def laccChecked (s : State) (a : Word) (k : Out) : Out :=
  match laccCause s a with
  | some c => trap s c a
  | none => k

/-- `lacc.clr`. -/
def execLaccClr (a : Reg) (s : State) : Out :=
  gate s (.g [a] []) <|
    let (x, t) := takeG s.cur a
    laccChecked s x <| holdLacc s t x (.clr (localOf x))

/-- `lacc.add`: the low 32 bits of the term, as FP32. -/
def execLaccAdd (a b : Reg) (s : State) : Out :=
  gate s (.g [a, b] []) <|
    let (x, t) := takeG s.cur a
    let (y, t) := takeG t b
    laccChecked s x <| holdLacc s t x (.add (localOf x) (y.truncate 32))

/-- `lacc.addp`: `d` names the multiplier, `b` the multiplicand. -/
def execLaccAddp (d a b : Reg) (s : State) : Out :=
  gate s (.g [d, a, b] []) <|
    let (x, t) := takeG s.cur a
    let (y, t) := takeG t b
    let (z, t) := takeG t d
    laccChecked s x <| holdLacc s t x (.addp (localOf x) (z.truncate 32) (y.truncate 32))

/-- `lacc.mrg`: the source is checked after the destination. -/
def execLaccMrg (a b : Reg) (s : State) : Out :=
  gate s (.g [a, b] []) <|
    let (x, t) := takeG s.cur a
    let (y, t) := takeG t b
    laccChecked s x <| laccChecked s y <| holdLacc s t x (.mrg (localOf x) (localOf y))

/-- A read: the committed accumulator under the chunk's own held operations, rounded once (R197, R198). A poisoned word
delivers no value (R166). -/
def laccLoad (s : State) (d a : Reg) (f : Fmt) : Out :=
  gate s (.g [a] [d]) <|
    let (x, t) := takeG s.cur a
    laccChecked s x <|
      if s.mem.anyPoison (localOf x) 80 then trap s 0x0C x
      else if !loadRoom s.cur (destOf d) then trap s 0x02 0
      else
        let r := laccRound f (laccRead (laccView s.mem s.cur.chunk.log) (localOf x))
        .next (deliver s { t with ctx := raiseFlags t.ctx r.2 } (destOf d) (BitVec.ofNat 512 r.1))

/-- `lacc.rd.f32`. -/
def execLaccRdF32 (d a : Reg) (s : State) : Out := laccLoad s d a .f32
/-- `lacc.rd.f64`. -/
def execLaccRdF64 (d a : Reg) (s : State) : Out := laccLoad s d a .f64

end Sys2Proof.Machine
end

