-- ==== Sys2Proof/Machine/LoadStore.lean ====
section
/-! DEFINITION. Loads, stores, atomics and tag instructions (R61, R341 to R343, R372 to R378, R408, R422 to R426, R443 to
R445). -/

namespace Sys2Proof.Machine

/-! ### Base loads and stores: mode pl, policy 0, no wait class (R61) -/

/-- A base load of `n` bytes (R372, R373). -/
def baseLoad (s : State) (d a : Reg) (i : BitVec 12) (n : Nat) (signed : Bool) : Out :=
  gate s (.g [a] [d]) <|
    let (x, t) := takeG s.cur a
    startLoad s t ⟨.pl, .no, n, signed, destOf d, x + sext12 i, 0, 0⟩

/-- A base store of `n` bytes (R408). -/
def baseStore (s : State) (a b : Reg) (i : BitVec 12) (n : Nat) : Out :=
  gate s (.g [a, b] []) <|
    let (x, t) := takeG s.cur a
    let (y, t) := takeG t b
    startStore s t ⟨.pl, .no, x + sext12 i, bytesOfNat n y.toNat, 0, 0⟩

/-- `lb`. -/
def execLb (d a : Reg) (i : BitVec 12) (s : State) : Out := baseLoad s d a i 1 true
/-- `lh`. -/
def execLh (d a : Reg) (i : BitVec 12) (s : State) : Out := baseLoad s d a i 2 true
/-- `lw`. -/
def execLw (d a : Reg) (i : BitVec 12) (s : State) : Out := baseLoad s d a i 4 true
/-- `ld`. -/
def execLd (d a : Reg) (i : BitVec 12) (s : State) : Out := baseLoad s d a i 8 false
/-- `lbu`. -/
def execLbu (d a : Reg) (i : BitVec 12) (s : State) : Out := baseLoad s d a i 1 false
/-- `lhu`. -/
def execLhu (d a : Reg) (i : BitVec 12) (s : State) : Out := baseLoad s d a i 2 false
/-- `lwu`. -/
def execLwu (d a : Reg) (i : BitVec 12) (s : State) : Out := baseLoad s d a i 4 false
/-- `sb`. -/
def execSb (a b : Reg) (i : BitVec 12) (s : State) : Out := baseStore s a b i 1
/-- `sh`. -/
def execSh (a b : Reg) (i : BitVec 12) (s : State) : Out := baseStore s a b i 2
/-- `sw`. -/
def execSw (a b : Reg) (i : BitVec 12) (s : State) : Out := baseStore s a b i 4
/-- `sd`. -/
def execSd (a b : Reg) (i : BitVec 12) (s : State) : Out := baseStore s a b i 8

/-! ### `lx`, `sx` and `amo` -/

/-- `lx` of sizes b to d (R375, R376). -/
def execLx (z : MemSize) (m : LoadMode) (w : WaitClass) (x : Bool) (d a p : Reg) (s : State) : Out :=
  gate s ⟨x, [a, p], [d], [], []⟩ <|
    let (addr, t) := takeG s.cur a
    let (pol, t) := takeG t p
    startLoad s t ⟨m, w, MemSize.bytes z, true, destOf d, addr, policyOrd pol, policyScope pol⟩

/-- `lx.q` (R376, R377). -/
def execLxQ (m : LoadMode) (w : WaitClass) (x : Bool) (d a p : Reg) (s : State) : Out :=
  gate s ⟨x, [a, p], [d, regPlus d 1], [], []⟩ <|
    let (addr, t) := takeG s.cur a
    let (pol, t) := takeG t p
    startLoad s t ⟨m, w, 16, false, .g2 d, addr, policyOrd pol, policyScope pol⟩

/-- `sx` (R422 to R424). -/
def execSx (z : MemSize) (m : StoreMode) (w : WaitClass) (x : Bool) (v a p : Reg) (s : State) : Out :=
  gate s ⟨x, [v, a, p], [], [], []⟩ <|
    let (addr, t) := takeG s.cur a
    let (pol, t) := takeG t p
    let (data, t) := takeG t v
    startStore s t ⟨m, w, addr, bytesOfNat (MemSize.bytes z) data.toNat, policyOrd pol, policyScope pol⟩

/-- `amo` (R341 to R343). -/
def execAmo (z : AmoSize) (o : AmoOp) (x : Bool) (d a b : Reg) (s : State) : Out :=
  gate s ⟨x, if o = .cas then [a, b, d] else [a, b], [d], [], []⟩ <|
  alone s <|
    let (addr, t) := takeG s.cur a
    let (v, t) := takeG t b
    let (e, t) := if o = .cas then takeG t d else (0, t)
    atomicAccess s t o (if z = .w then 4 else 8) d addr v e

/-- `tagr` (R425, R426). -/
def execTagr (d a : Reg) (s : State) : Out :=
  gate s (.g [a] [d]) <|
    let (addr, t) := takeG s.cur a
    if isLocal s addr then tagRead s t d addr else alone s (tagRead s t d addr)

/-- `tagw` (R425, R426). -/
def execTagw (a b : Reg) (s : State) : Out :=
  gate s (.g [a, b] []) <|
    let (addr, t) := takeG s.cur a
    let (v, t) := takeG t b
    if isLocal s addr then tagStore s t addr (bitOf v 0) else alone s (tagStore s t addr (bitOf v 0))

/-! ### Vector loads and stores -/

/-- `vld` (R443, R444). -/
def execVld (d a : Reg) (s : State) : Out :=
  gate s ⟨false, [a], [], [], [d]⟩ <|
    let (addr, t) := takeG s.cur a
    startLoad s t ⟨.pl, .no, 64, false, .v d, addr, 0, 0⟩

/-- `vst` (R443, R444). -/
def execVst (v a : Reg) (s : State) : Out :=
  gate s ⟨false, [a], [], [v], []⟩ <|
    let (addr, t) := takeG s.cur a
    startStore s t ⟨.pl, .no, addr, bytesOfNat 64 (getV s.cur.ctx v).toNat, 0, 0⟩

/-- The 64-bit lane `i` of a vector. -/
def lane64 (v : VWord) (i : Nat) : Word := (v >>> (64 * i)).truncate 64

/-- The eight element addresses of `vldx` and `vstx` (R445). -/
def laneAddrs (base : Word) (idx : VWord) : List Word := (List.range 8).map fun i => base + lane64 idx i

/-- An element access of `vldx` or `vstx`: size 8, W0 or DRAM of the issuing package (R126, R445, R458). -/
def laneAccess (write : Bool) : Access := ⟨write, 8, 8, true, true, true⟩

/-- The first element access that waits at a BUSY entry or fails its checks, in lane order (R135, R209, R445). -/
def laneCause (s : State) (write : Bool) (as : List Word) : Option (Option Nat × Word) :=
  firstStop s (laneAccess write) (fun a => checkAccess s s.cur.tenant s.cur.trusted a (laneAccess write)) as

/-- The value of eight words, lane 0 lowest. -/
def vecOfWords (ws : List Word) : VWord := BitVec.ofNat 512 (natOfBytes (bytesOfWords ws))

/-- Element `k` of a `vldx` is read as a pl load alone at its home, for which the slot holds. -/
def laneAsk (s : State) (d : Reg) (as : List Word) (k : Nat) : State :=
  let w : Waiter := ⟨s.nextKey, s.cur.tenant, s.cur.trusted, localOf (as.getD k 0), .load .pl 8, .task s.cur.key (.v d) 8 false, s.time⟩
  settle (bumpKey { holdFor s (.v d) (.home w.id) with eng := { s.eng with waiters := s.eng.waiters ++ [w] } })

/-- The elements of a `vldx` that waits are read one by one, and the destination is written when the eighth has arrived
(R209, R445, R457). -/
def laneWaits (s : State) (t : Task) (d : Reg) (as : List Word) : Out :=
  let got := s.cur.lanes
  match s.cur.hold with
  | some (.answer (some c) _ _) =>
    accessTrap (modCur (unhold s (.v d)) fun t => { t with lanes := [] }) c (as.getD got.length 0)
  | some (.answer none v _) =>
    let got := got ++ [v.truncate 64]
    if got.length < 8 then .next (laneAsk (modCur s fun t => { t with lanes := got }) d as got.length)
    else
      .next (retireAlone s { t with hold := none, lanes := [], ctx := tagDest (setV t.ctx d (vecOfWords got)) (.v d) true })
  | some _ => .next s
  | none => .next (laneAsk s d as 0)

/-- `vldx` (R445). -/
def execVldx (d b i : Reg) (s : State) : Out :=
  gate s ⟨false, [b], [], [i], [d]⟩ <|
    let (base, t) := takeG s.cur b
    let as := laneAddrs base (getV s.cur.ctx i)
    if s.cur.hold.isSome then laneWaits s t d as
    else
      unlessStop s (laneCause s false as) <|
        let ls := as.map localOf
        if ls.all fun a => loadFull s a 8 then
          withLines s ((ls.filter fun a => !regionSealed s a).flatMap fun a => accessLines s a 8) [] fun s =>
            match ls.find? fun a => accessPoison (chunkPoison s) a 8 with
            | some a => placeCause s 0x0C (globalOf s a)
            | none =>
              let s := reach s (ls.flatMap fun a => accessLines s a 8)
              .next (deliver s (rebase s t) (.v d) (vecOfWords (ls.map fun a => chunkWord s (canon s a))))
        else alone s (laneWaits s t d as)

/-- `vstx` (R445): eight pl stores in ascending lane order. -/
def execVstx (v b i : Reg) (s : State) : Out :=
  gate s ⟨false, [b], [], [v, i], []⟩ <|
    let (base, t) := takeG s.cur b
    let as := laneAddrs base (getV s.cur.ctx i)
    unlessStop s (laneCause s true as) <|
      let ls := as.map localOf
      withLines s [] (ls.flatMap fun a => accessLines s a 8) fun s =>
        let data := getV s.cur.ctx v
        let es := ls.mapIdx fun k a => Eff.store (canon s a) (bytesOfNat 8 (lane64 data k).toNat)
        .next (retire s (es.foldl Task.hold' (rebase s t)))

end Sys2Proof.Machine
end

