-- ==== Sys2Proof/Machine/Rv64.lean ====
section
/-! DEFINITION. What the management core runs beside the instructions of R61: the A, C, Zbb and Zknh extensions that R22 names
(PRESUMED, log entry 65: the RISC-V unprivileged manual). -/

namespace Sys2Proof.Machine

/-! ### Compressed instructions -/

/-- Bits of a halfword. -/
def hbits (h : BitVec 16) (hi lo : Nat) : Nat := (h.toNat >>> lo) % 2 ^ (hi + 1 - lo)
/-- A register field of five bits, and one of three. -/
def hreg (h : BitVec 16) (lo : Nat) : Reg := BitVec.ofNat 5 (hbits h (lo + 4) lo)
def hreg3 (h : BitVec 16) (lo : Nat) : Reg := BitVec.ofNat 5 (8 + hbits h (lo + 2) lo)
/-- The six-bit immediate of bits 12 and 6:2. -/
def himm6 (h : BitVec 16) : BitVec 6 := BitVec.ofNat 6 (32 * hbits h 12 12 + hbits h 6 2)

/-- Quadrant 0: stack addresses, and loads and stores at the eight middle registers. -/
def expand0 (h : BitVec 16) : Option Instr :=
  let d := hreg3 h 2
  let a := hreg3 h 7
  let word := BitVec.ofNat 12 (8 * hbits h 12 10 + 4 * hbits h 6 6 + 64 * hbits h 5 5)
  let dword := BitVec.ofNat 12 (8 * hbits h 12 10 + 64 * hbits h 6 5)
  let sp := BitVec.ofNat 12 (16 * hbits h 12 11 + 64 * hbits h 10 7 + 4 * hbits h 6 6 + 8 * hbits h 5 5)
  match hbits h 15 13 with
  | 0 => if sp = 0 then none else some (.addi d 2 sp)
  | 2 => some (.lw d a word)
  | 3 => some (.ld d a dword)
  | 6 => some (.sw a d word)
  | 7 => some (.sd a d dword)
  | _ => none

/-- The arithmetic of quadrant 1 on the middle registers. -/
def expandArith (h : BitVec 16) : Option Instr :=
  let d := hreg3 h 7
  let b := hreg3 h 2
  match hbits h 11 10, hbits h 12 12, hbits h 6 5 with
  | 0, _, _ => some (.srli d d (himm6 h))
  | 1, _, _ => some (.srai d d (himm6 h))
  | 2, _, _ => some (.andi d d ((himm6 h).signExtend 12))
  | _, 0, 0 => some (.sub d d b)
  | _, 0, 1 => some (.xor d d b)
  | _, 0, 2 => some (.or d d b)
  | _, 0, _ => some (.and d d b)
  | _, _, 0 => some (.subw d d b)
  | _, _, 1 => some (.addw d d b)
  | _, _, _ => none

/-- The displacements of quadrant 1, without their lowest bit. -/
def hjump (h : BitVec 16) : BitVec 20 :=
  (BitVec.ofNat 11 (1024 * hbits h 12 12 + 8 * hbits h 11 11 + 128 * hbits h 10 9 + 512 * hbits h 8 8 + 32 * hbits h 7 7 +
    64 * hbits h 6 6 + hbits h 5 3 + 16 * hbits h 2 2)).signExtend 20
def hbranch (h : BitVec 16) : BitVec 12 :=
  (BitVec.ofNat 8 (128 * hbits h 12 12 + 4 * hbits h 11 10 + 32 * hbits h 6 5 + hbits h 4 3 + 16 * hbits h 2 2)).signExtend 12

/-- Quadrant 1. -/
def expand1 (h : BitVec 16) : Option Instr :=
  let d := hreg h 7
  let i := (himm6 h).signExtend 12
  let sp := (BitVec.ofNat 10 (512 * hbits h 12 12 + 16 * hbits h 6 6 + 64 * hbits h 5 5 + 128 * hbits h 4 3 +
    32 * hbits h 2 2)).signExtend 12
  match hbits h 15 13 with
  | 0 => some (.addi d d i)
  | 1 => if d = 0 then none else some (.addiw d d i)
  | 2 => some (.addi d 0 i)
  | 3 =>
    if himm6 h = 0 then none
    else if d = 2 then some (.addi 2 2 sp)
    else some (.lui d ((himm6 h).signExtend 20))
  | 4 => expandArith h
  | 5 => some (.jal 0 (hjump h))
  | 6 => some (.beq (hreg3 h 7) 0 (hbranch h))
  | _ => some (.bne (hreg3 h 7) 0 (hbranch h))

/-- Quadrant 2; `c.ebreak` is none of them. -/
def expand2 (h : BitVec 16) : Option Instr :=
  let d := hreg h 7
  let b := hreg h 2
  match hbits h 15 13 with
  | 0 => some (.slli d d (himm6 h))
  | 2 =>
    if d = 0 then none else some (.lw d 2 (BitVec.ofNat 12 (32 * hbits h 12 12 + 4 * hbits h 6 4 + 64 * hbits h 3 2)))
  | 3 =>
    if d = 0 then none else some (.ld d 2 (BitVec.ofNat 12 (32 * hbits h 12 12 + 8 * hbits h 6 5 + 64 * hbits h 4 2)))
  | 4 =>
    if hbits h 12 12 = 0 then
      (if b ≠ 0 then some (.add d 0 b) else if d = 0 then none else some (.jalr 0 d 0))
    else if b ≠ 0 then some (.add d d b)
    else if d = 0 then none
    else some (.jalr 1 d 0)
  | 6 => some (.sw 2 b (BitVec.ofNat 12 (4 * hbits h 12 9 + 64 * hbits h 8 7)))
  | 7 => some (.sd 2 b (BitVec.ofNat 12 (8 * hbits h 12 10 + 64 * hbits h 9 7)))
  | _ => none

/-- The instruction of a halfword that is a compressed one. -/
def expand (h : BitVec 16) : Option Instr :=
  match hbits h 1 0 with
  | 0 => expand0 h
  | 1 => expand1 h
  | _ => expand2 h

/-! ### Zbb and Zknh -/

/-- Fields of a word. -/
def wbits (w : BitVec 32) (hi lo : Nat) : Nat := (w.toNat >>> lo) % 2 ^ (hi + 1 - lo)
def wreg (w : BitVec 32) (lo : Nat) : Reg := BitVec.ofNat 5 (wbits w (lo + 4) lo)

/-- Leading and trailing zeros of `n` bits, and their set bits. -/
def clzBits (n x : Nat) : Nat := ((List.range n).find? fun i => x.testBit (n - 1 - i)).getD n
def ctzBits (n x : Nat) : Nat := ((List.range n).find? fun i => x.testBit i).getD n
def popBits (n x : Nat) : Nat := ((List.range n).filter fun i => x.testBit i).length

/-- Each byte of a word through a function, and the bytes in the other order. -/
def mapBytes (f : Byte → Byte) (x : Word) : Word := BitVec.ofNat 64 (natOfBytes ((bytesOfNat 8 x.toNat).map f))
def swapBytes (x : Word) : Word := BitVec.ofNat 64 (natBE (bytesOfNat 8 x.toNat))

/-- Rotations of a word and of its low half, which is sign-extended. -/
def ror64 (x : Word) (n : Nat) : Word := x.rotateRight (n % 64)
def ror32 (x : Word) (n : Nat) : Word := wide ((lo32 x).rotateRight (n % 32))

/-- Three terms of the SHA-2 functions: two rotations and a third, or a shift. -/
def sigma32 (x : Word) (a b c : Nat) (shift : Bool) : Word :=
  let y := lo32 x
  wide (y.rotateRight a ^^^ y.rotateRight b ^^^ (if shift then y >>> c else y.rotateRight c))
def sigma64 (x : Word) (a b c : Nat) (shift : Bool) : Word :=
  x.rotateRight a ^^^ x.rotateRight b ^^^ (if shift then x >>> c else x.rotateRight c)

/-- The unary instructions of OP-IMM, by imm[11:0], with funct3 001. -/
def unaryValue (i : Nat) (x : Word) : Option Word :=
  match i with
  | 0x600 => some (BitVec.ofNat 64 (clzBits 64 x.toNat))
  | 0x601 => some (BitVec.ofNat 64 (ctzBits 64 x.toNat))
  | 0x602 => some (BitVec.ofNat 64 (popBits 64 x.toNat))
  | 0x604 => some ((x.truncate 8).signExtend 64)
  | 0x605 => some ((x.truncate 16).signExtend 64)
  | 0x100 => some (sigma32 x 2 13 22 false)
  | 0x101 => some (sigma32 x 6 11 25 false)
  | 0x102 => some (sigma32 x 7 18 3 true)
  | 0x103 => some (sigma32 x 17 19 10 true)
  | 0x104 => some (sigma64 x 28 34 39 false)
  | 0x105 => some (sigma64 x 14 18 41 false)
  | 0x106 => some (sigma64 x 1 8 7 true)
  | 0x107 => some (sigma64 x 19 61 6 true)
  | _ => none

/-- The instructions of OP-IMM with funct3 101 that R61 lacks. -/
def rotateImm (i : Nat) (x : Word) : Option Word :=
  if i = 0x287 then some (mapBytes (fun b => if b = 0 then 0 else 0xFF) x)
  else if i = 0x6B8 then some (swapBytes x)
  else if i / 64 = 0x18 then some (ror64 x i)
  else none

/-- The register instructions of OP. -/
def binaryValue (f7 f3 : Nat) (x y : Word) : Option Word :=
  match f7, f3 with
  | 0x20, 7 => some (x &&& ~~~y)
  | 0x20, 6 => some (x ||| ~~~y)
  | 0x20, 4 => some (x ^^^ ~~~y)
  | 0x05, 4 => some (if x.slt y then x else y)
  | 0x05, 5 => some (if x.ult y then x else y)
  | 0x05, 6 => some (if x.slt y then y else x)
  | 0x05, 7 => some (if x.ult y then y else x)
  | 0x30, 1 => some (ror64 x (64 - y.toNat % 64))
  | 0x30, 5 => some (ror64 x y.toNat)
  | _, _ => none

/-- The instructions of OP-IMM-32 and OP-32. -/
def halfValue (op f7 f3 b : Nat) (x y : Word) : Option Word :=
  match op, f7, f3 with
  | 0x1B, 0x30, 1 =>
    (match b with
    | 0 => some (BitVec.ofNat 64 (clzBits 32 (lo32 x).toNat))
    | 1 => some (BitVec.ofNat 64 (ctzBits 32 (lo32 x).toNat))
    | 2 => some (BitVec.ofNat 64 (popBits 32 (lo32 x).toNat))
    | _ => none)
  | 0x1B, 0x30, 5 => some (ror32 x b)
  | 0x3B, 0x04, 4 => if b = 0 then some ((x.truncate 16).zeroExtend 64) else none
  | 0x3B, 0x30, 1 => some (ror32 x (32 - y.toNat % 32))
  | 0x3B, 0x30, 5 => some (ror32 x y.toNat)
  | _, _, _ => none

/-- The value of a Zbb or Zknh word. -/
def extValue (w : BitVec 32) (x y : Word) : Option Word :=
  let f3 := wbits w 14 12
  match wbits w 6 0 with
  | 0x13 => if f3 = 1 then unaryValue (wbits w 31 20) x else if f3 = 5 then rotateImm (wbits w 31 20) x else none
  | 0x33 => binaryValue (wbits w 31 25) f3 x y
  | op => halfValue op (wbits w 31 25) f3 (wbits w 24 20) x y

/-! ### A -/

/-- What an atomic operation leaves in memory, at its own width. -/
def rvAmo (w f5 : Nat) (old src : Nat) : Option Nat :=
  let less := decide (signedOf w old < signedOf w src)
  let below := decide (old < src)
  match f5 with
  | 0x01 => some src
  | 0x00 => some ((old + src) % 2 ^ w)
  | 0x04 => some (old ^^^ src)
  | 0x0C => some (old &&& src)
  | 0x08 => some (old ||| src)
  | 0x10 => some (if less then old else src)
  | 0x14 => some (if less then src else old)
  | 0x18 => some (if below then old else src)
  | 0x1C => some (if below then src else old)
  | _ => none

end Sys2Proof.Machine
end

