-- ==== Sys2Proof/Machine/Mcore.lean ====
section
/-! DEFINITION. The management core: its address map (R318), the service window (R254), the RV64I and M instructions of R61
(R332), and the rest of what R22 names: A, C, Zicsr, Zifencei, Zbb and Zknh, with machine and user mode. -/

namespace Sys2Proof.Machine

/-! ### The address map (Table 18.1) -/

/-- What stands at a management-core address. -/
inductive MgmtPlace where
  | rom (o : Nat) | crypto (o : Nat) | mailbox (o : Nat) | sram (o : Nat) | flash (o : Nat) | control (o : Nat)
  deriving DecidableEq, Repr

/-- The place of `n` bytes; none: an access fault. -/
def mgmtPlace (a n : Nat) : Option MgmtPlace :=
  let within := fun lo size => decide (lo ≤ a) && decide (a + n ≤ lo + size)
  if within 0 0x10000 then some (.rom a)
  else if within 0x02000000 0x1000 then some (.crypto (a - 0x02000000))
  else if within 0x03000000 0x10000 then some (.mailbox (a - 0x03000000))
  else if within 0x08000000 0x100000 then some (.sram (a - 0x08000000))
  else if within 0x20000000 0x4000000 then some (.flash (a - 0x20000000))
  else if within 0x40000000 0x10000000 then some (.control (a - 0x40000000))
  else none

/-! ### The service window (R254) -/

/-- What a word of control space is to service firmware: none: the window refuses it. -/
inductive WindowWord where
  | weight (t : Nat) | preempt (t : Nat) | state (t : Nat) | silo
  deriving DecidableEq, Repr

/-- The window's view of an 8-byte word. The manual places no telemetry or fabric-management word (log entry 48). -/
def windowWord (o : Nat) : Option WindowWord :=
  if decide (0x3000000 ≤ o) && decide (o < 0x3004000) then
    let t := (o - 0x3000000) / 0x100
    match o % 0x100 with
    | 0x00 => some (.state t)
    | 0x08 => some (.weight t)
    | 0x50 => some (.preempt t)
    | _ => none
  else if decide (0x4000000 ≤ o) && decide (o < 0x4000000 + 8 * 2276) then some .silo
  else none

/-- A read through the window, of bytes of one word (R254, R285). -/
def serviceRead (s : State) (o n : Nat) : Option (List Byte) :=
  if 8 < o % 8 + n then none
  else
    let bytes := fun (v : Word) => some (((bytesOfNat 8 v.toNat).drop (o % 8)).take n)
    match windowWord (8 * (o / 8)) with
    | some (.state t) => bytes (tenantWord s t 0)
    | some (.preempt t) => bytes (preemptWord s.pre.svc s.pre.svcAck t)
    | some .silo => bytes (ctlView s (8 * (o / 8)))
    | _ => none

/-- A write through the window (R254, R255, R285). -/
def windowWrite (s : State) (o : Nat) (bs : List Byte) : Option State :=
  if 8 < o % 8 + bs.length then none
  else
    match windowWord (8 * (o / 8)), o % 8, bs with
    | some (.weight t), 0, b :: _ => some (setWeight s t b)
    | some (.preempt t), 0, b :: _ => some (settle (observe (writeRequest s t .service (b.getLsbD 0))))
    | some (.weight _), _, _ => some s
    | some (.preempt _), _, _ => some s
    | _, _, _ => none

/-! ### Accesses -/

/-- Bytes read at a privilege; control space is the security monitor's, and service firmware reaches its window (R254, R318). -/
def mgmtRead (s : State) (user : Bool) (a n : Nat) : Option (List Byte) :=
  match mgmtPlace a n with
  | none => none
  | some (.rom o) => some ((List.range n).map fun i => Config.romByte (o + i))
  | some (.crypto o) => some ((List.range n).map fun i => cryptoRead s (o + i))
  | some (.mailbox o) => some ((List.range n).map fun i => mboxRead s (o + i))
  | some (.sram o) => some (tabBytes s.mgmt.sram o n)
  | some (.flash o) => some (tabBytes s.mgmt.flash o n)
  | some (.control o) =>
    if user then serviceRead s o n else if s.mgmt.mbox.monitor then some (ctlBytes s o n) else none

/-- The bits of a word of TENANT[t] that the security monitor writes (Table 13.1): what SET_TI_CONFIG names is frozen from
LOCK_INTERFACE_REQUEST on (R278). WEIGHT and PREEMPT are not its own (R253). -/
def monitorMask (s : State) (t w : Nat) : Word :=
  let free := fun (m : Word) => if tiState s t = 0 then m else 0
  if w = 0 then 0x00FFFF07
  else if w = 8 then free 0x3FF
  else if w = 9 then free 0xFFFF
  else if w = 11 then free 0xFFFFFF0000
  else if 12 ≤ w ∧ w < 18 then BitVec.allOnes 64
  else tenantMask s t w

/-- Bytes the security monitor stores to control space: a word that Table 13.1 and R253 give to another party keeps its
value. -/
def monitorStore (s : State) (o : Nat) (bs : List Byte) : State :=
  let w := 8 * (o / 8)
  if decide (0x3000000 ≤ w) && decide (w < 0x3004000) then
    let old := ctlGet s w
    let new := (bs.zipIdx).foldl (fun v x => putLE v ((o + x.2) % 8) x.1) old
    let mask := monitorMask s ((w - 0x3000000) / 0x100) (w % 0x100 / 8)
    devCtl s w ((old &&& ~~~mask) ||| (new &&& mask))
  else s

/-- Bytes stored at a privilege; the boot ROM and the flash window are not writable. -/
def mgmtWrite (s : State) (user : Bool) (a : Nat) (bs : List Byte) : Option State :=
  match mgmtPlace a bs.length with
  | some (.crypto o) => some (cryptoWrite s o bs)
  | some (.mailbox o) => some (mboxWrite s o bs)
  | some (.sram _) => some (sramPut s a bs)
  | some (.control o) =>
    if user then windowWrite s o bs else if s.mgmt.mbox.monitor then some (monitorStore s o bs) else none
  | _ => none

/-- An access of service firmware to control space that its window refuses (R254). -/
def windowRefuses (user : Bool) (a n : Nat) : Bool :=
  user && (match mgmtPlace a n with
    | some (.control _) => true
    | _ => false)

/-! ### Registers -/

def mgGet (c : MgmtCore) (r : Reg) : Word := if r = 0 then 0 else c.x[r.toNat]'(r.isLt)
def mgSet (c : MgmtCore) (r : Reg) (v : Word) : MgmtCore := if r = 0 then c else { c with x := c.x.set r.toNat v r.isLt }
def modCore (s : State) (f : MgmtCore → MgmtCore) : State := modMgmt s fun m => { m with core := f m.core }

/-! ### Control and status registers, and traps (PRESUMED, log entry 65) -/

/-- The value of a register that nothing has written: mstatus says that both modes are 64 bits wide, misa names RV64IMACU. -/
def csrInit (n : Nat) : Word := if n = 0x300 then 0x200000000 else if n = 0x301 then 0x8000000000101105 else 0

/-- The bits of a register that a write sets; none: there is no such register. -/
def csrMask (n : Nat) : Option Word :=
  match n with
  | 0x300 => some 0x21888
  | 0x301 | 0x344 => some 0
  | 0x304 => some 0x888
  | 0x305 => some 0xFFFFFFFFFFFFFFFD
  | 0x306 | 0x320 => some 0
  | 0x30A => some 1
  | 0x340 | 0x342 | 0x343 | 0xB00 | 0xB02 => some (BitVec.allOnes 64)
  | 0x341 => some 0xFFFFFFFFFFFFFFFE
  | _ => if decide (0xF11 ≤ n) && decide (n ≤ 0xF15) || decide (0xB03 ≤ n) && decide (n ≤ 0xB1F) ||
            decide (0x323 ≤ n) && decide (n ≤ 0x33F) then some 0 else none

def csrGet (c : MgmtCore) (n : Nat) : Word := Tab.get c.csr n (csrInit n)
def csrSet (c : MgmtCore) (n : Nat) (v : Word) : MgmtCore := { c with csr := Tab.set c.csr n v }

/-- A written value with the fields that take only some values: MPP is machine or user. -/
def csrLegal (n : Nat) (v : Word) : Word :=
  if n = 0x300 ∧ fieldNat v 12 11 ≠ 3 then v &&& ~~~0x1800#64 else v

/-- What a register reads: the cycle counter and the identification registers are free, the hart identifier 0. -/
def csrRead (s : State) (n : Nat) : Word :=
  if n = 0xB00 then Config.mgmtCycle s.fresh
  else if n = 0xF11 ∨ n = 0xF12 ∨ n = 0xF13 ∨ n = 0xF15 then Config.mgmtId n
  else csrGet s.mgmt.core n

/-- A trap: the core goes on in machine mode at mtvec. -/
def mgTrap (s : State) (cause : Nat) (tval : Word) : State :=
  modCore s fun c =>
    let st := csrGet c 0x300
    let mpie := if bitOf st 3 then 0x80#64 else 0
    let mpp := if c.user then 0 else 0x1800#64
    let c := csrSet c 0x300 ((st &&& ~~~0x1888#64) ||| mpie ||| mpp)
    let c := csrSet (csrSet (csrSet c 0x341 c.pc) 0x342 (BitVec.ofNat 64 cause)) 0x343 tval
    { c with user := false, pc := csrGet c 0x305 &&& ~~~3#64 }

/-- `mret`: back to the mode and the pc that a trap left. -/
def mgReturn (s : State) : State :=
  modCore s fun c =>
    let st := csrGet c 0x300
    let mie := if bitOf st 7 then 8#64 else 0
    let user := decide (fieldNat st 12 11 = 0)
    let st := (st &&& ~~~0x1888#64) ||| mie ||| 0x80
    { csrSet c 0x300 (if user then st &&& ~~~0x20000#64 else st) with user := user, pc := csrGet c 0x341 }

/-- The privilege of a load or store. -/
def dataUser (c : MgmtCore) : Bool :=
  let st := csrGet c 0x300
  c.user || (bitOf st 17 && decide (fieldNat st 12 11 = 0))

/-- One more instruction has completed. -/
def mgRetire (c : MgmtCore) : MgmtCore := csrSet c 0xB02 (csrGet c 0xB02 + 1)

/-- The core has written a register and goes on with the next instruction, `n` bytes on. -/
def mgNext (s : State) (n : Nat) (d : Reg) (v : Word) : State :=
  modCore s fun c => mgRetire { mgSet c d v with pc := c.pc + BitVec.ofNat 64 n }

/-- An access fault, counted in the silo (R318), or as a refusal of the service window (R254). -/
def mgFault (s : State) (cause a n : Nat) : State :=
  if windowRefuses (dataUser s.mgmt.core && cause != 1) a n then mgTrap (siloAdd s 2235) cause (BitVec.ofNat 64 a)
  else mgTrap (siloAdd (modMgmt s fun m => { m with fault := some a }) 2239) cause (BitVec.ofNat 64 a)

/-! ### Instructions (R61, R332) -/

/-- The result of an instruction that only computes: its destination and its value. -/
def mgValue (c : MgmtCore) (i : Instr) : Option (Reg × Word) :=
  let g := mgGet c
  match i with
  | .add d a b => some (d, g a + g b)
  | .sub d a b => some (d, g a - g b)
  | .addw d a b => some (d, sext32 (g a + g b))
  | .subw d a b => some (d, sext32 (g a - g b))
  | .addi d a i => some (d, g a + sext12 i)
  | .addiw d a i => some (d, sext32 (g a + sext12 i))
  | .and d a b => some (d, g a &&& g b)
  | .or d a b => some (d, g a ||| g b)
  | .xor d a b => some (d, g a ^^^ g b)
  | .andi d a i => some (d, g a &&& sext12 i)
  | .ori d a i => some (d, g a ||| sext12 i)
  | .xori d a i => some (d, g a ^^^ sext12 i)
  | .slt d a b => some (d, truth ((g a).slt (g b)))
  | .sltu d a b => some (d, truth ((g a).ult (g b)))
  | .slti d a i => some (d, truth ((g a).slt (sext12 i)))
  | .sltiu d a i => some (d, truth ((g a).ult (sext12 i)))
  | .sll d a b => some (d, g a <<< amount6 (g b))
  | .srl d a b => some (d, g a >>> amount6 (g b))
  | .sra d a b => some (d, (g a).sshiftRight (amount6 (g b)))
  | .sllw d a b => some (d, wide (lo32 (g a) <<< amount5 (g b)))
  | .srlw d a b => some (d, wide (lo32 (g a) >>> amount5 (g b)))
  | .sraw d a b => some (d, wide ((lo32 (g a)).sshiftRight (amount5 (g b))))
  | .slli d a k => some (d, g a <<< k.toNat)
  | .srli d a k => some (d, g a >>> k.toNat)
  | .srai d a k => some (d, (g a).sshiftRight k.toNat)
  | .slliw d a k => some (d, wide (lo32 (g a) <<< k.toNat))
  | .srliw d a k => some (d, wide (lo32 (g a) >>> k.toNat))
  | .sraiw d a k => some (d, wide ((lo32 (g a)).sshiftRight k.toNat))
  | .mul d a b => some (d, g a * g b)
  | .mulh d a b => some (d, highWord ((g a).toInt * (g b).toInt))
  | .mulhsu d a b => some (d, highWord ((g a).toInt * ((g b).toNat : Int)))
  | .mulhu d a b => some (d, highWord (((g a).toNat : Int) * ((g b).toNat : Int)))
  | .mulw d a b => some (d, sext32 (g a * g b))
  | .div d a b => some (d, divS (g a) (g b))
  | .divu d a b => some (d, divU (g a) (g b))
  | .rem d a b => some (d, remS (g a) (g b))
  | .remu d a b => some (d, remU (g a) (g b))
  | .divw d a b => some (d, wide (divS (lo32 (g a)) (lo32 (g b))))
  | .divuw d a b => some (d, wide (divU (lo32 (g a)) (lo32 (g b))))
  | .remw d a b => some (d, wide (remS (lo32 (g a)) (lo32 (g b))))
  | .remuw d a b => some (d, wide (remU (lo32 (g a)) (lo32 (g b))))
  | .lui d i => some (d, upper i)
  | .auipc d i => some (d, c.pc + upper i)
  | _ => none

/-- The access of a load: destination, address, size, sign. -/
def mgLoad (c : MgmtCore) (i : Instr) : Option (Reg × Word × Nat × Bool) :=
  let at' := fun (a : Reg) (i : BitVec 12) => mgGet c a + sext12 i
  match i with
  | .lb d a i => some (d, at' a i, 1, true)
  | .lh d a i => some (d, at' a i, 2, true)
  | .lw d a i => some (d, at' a i, 4, true)
  | .ld d a i => some (d, at' a i, 8, false)
  | .lbu d a i => some (d, at' a i, 1, false)
  | .lhu d a i => some (d, at' a i, 2, false)
  | .lwu d a i => some (d, at' a i, 4, false)
  | _ => none

/-- The access of a store: address and bytes. -/
def mgStore (c : MgmtCore) (i : Instr) : Option (Word × List Byte) :=
  let of := fun (a b : Reg) (i : BitVec 12) (n : Nat) => some (mgGet c a + sext12 i, bytesOfNat n (mgGet c b).toNat)
  match i with
  | .sb a b i => of a b i 1
  | .sh a b i => of a b i 2
  | .sw a b i => of a b i 4
  | .sd a b i => of a b i 8
  | _ => none

/-- A jump or branch: destination register, return address and the next pc. -/
def mgJump (c : MgmtCore) (len : Nat) (i : Instr) : Option (Reg × Word) :=
  let dest := fun (t : Bool) (i : BitVec 12) => some (0, if t then c.pc + branchDisp i else c.pc + BitVec.ofNat 64 len)
  let g := mgGet c
  match i with
  | .jal d i => some (d, c.pc + jalDisp i)
  | .jalr d a i => some (d, (g a + sext12 i) &&& ~~~1#64)
  | .beq a b i => dest (g a == g b) i
  | .bne a b i => dest (g a != g b) i
  | .blt a b i => dest ((g a).slt (g b)) i
  | .bge a b i => dest (!(g a).slt (g b)) i
  | .bltu a b i => dest ((g a).ult (g b)) i
  | .bgeu a b i => dest (!(g a).ult (g b)) i
  | _ => none

/-- A load of the core. -/
def mgDoLoad (s : State) (len : Nat) (d : Reg) (a n : Nat) (signed : Bool) : State :=
  match mgmtRead s (dataUser s.mgmt.core) a n with
  | none => mgFault s 5 a n
  | some bs => mgNext s len d (extend n signed (natOfBytes bs))

/-- A store of the core. -/
def mgDoStore (s : State) (len a : Nat) (bs : List Byte) : State :=
  match mgmtWrite s (dataUser s.mgmt.core) a bs with
  | none => mgFault s 7 a bs.length
  | some s' => modCore s' fun c => mgRetire { c with pc := c.pc + BitVec.ofNat 64 len }

/-- One instruction of R61, `len` bytes long. -/
def mgExec (s : State) (len : Nat) (w : BitVec 32) (i : Instr) : State :=
  let c := s.mgmt.core
  match mgValue c i, mgLoad c i, mgStore c i, mgJump c len i with
  | some (d, v), _, _, _ => mgNext s len d v
  | _, some (d, a, n, signed), _, _ => mgDoLoad s len d a.toNat n signed
  | _, _, some (a, bs), _ => mgDoStore s len a.toNat bs
  | _, _, _, some (d, pc) => modCore s fun c => mgRetire { mgSet c d (c.pc + BitVec.ofNat 64 len) with pc := pc }
  | _, _, _, _ => mgTrap s 2 (w.zeroExtend 64)

/-! ### The A extension, Zicsr, and what traps -/

/-- The address is misaligned, or not in SRAM, where alone atomics are done: the cause. -/
def atomicCause (a n : Nat) (load : Bool) : Option Nat :=
  if a % n ≠ 0 then some (if load then 4 else 6) else if inSram a n then none else some (if load then 5 else 7)

/-- `lr`, `sc` and the atomic operations. -/
def mgAtomic (s : State) (w : BitVec 32) : State :=
  let c := s.mgmt.core
  let n := if wbits w 14 12 = 2 then 4 else 8
  let f5 := wbits w 31 27
  let d := wreg w 7
  let a := (mgGet c (wreg w 15)).toNat
  let src := (mgGet c (wreg w 20)).toNat % 2 ^ (8 * n)
  let old := natOfBytes (tabBytes s.mgmt.sram (a - 0x08000000) n)
  let known := f5 == 3 || (f5 == 2 && wbits w 24 20 == 0) || (rvAmo (8 * n) f5 old src).isSome
  if !(known && (wbits w 14 12 == 2 || wbits w 14 12 == 3)) then mgTrap s 2 (w.zeroExtend 64)
  else
    match atomicCause a n (f5 == 2) with
    | some e => if e % 2 = 0 then mgTrap s e (BitVec.ofNat 64 a) else mgFault s e a n
    | none =>
      if f5 = 2 then modCore (mgNext s 4 d (extend n true old)) fun c => { c with resv := some a }
      else if f5 = 3 then
        let ok := c.resv == some a
        modCore (mgNext (if ok then sramPut s a (bytesOfNat n src) else s) 4 d (if ok then 0 else 1)) fun c =>
          { c with resv := none }
      else mgNext (sramPut s a (bytesOfNat n ((rvAmo (8 * n) f5 old src).getD 0))) 4 d (extend n true old)

/-- A CSR instruction: the old value goes to the register, and the new one to the CSR. -/
def mgCsr (s : State) (w : BitVec 32) : State :=
  let c := s.mgmt.core
  let n := wbits w 31 20
  let f3 := wbits w 14 12
  let src := if 4 ≤ f3 then BitVec.ofNat 64 (wbits w 19 15) else mgGet c (wreg w 15)
  let writes := f3 % 4 == 1 || wbits w 19 15 != 0
  match csrMask n with
  | none => mgTrap s 2 (w.zeroExtend 64)
  | some mask =>
    if c.user || (writes && decide (0xC00 ≤ n)) then mgTrap s 2 (w.zeroExtend 64)
    else
      let old := csrRead s n
      let new := if f3 % 4 = 1 then src else if f3 % 4 = 2 then old ||| src else old &&& ~~~src
      let s1 := nextFresh (mgNext s 4 (wreg w 7) old)
      if writes then modCore s1 fun c => csrSet c n (csrLegal n ((csrGet c n &&& ~~~mask) ||| (new &&& mask))) else s1

/-- The words of SYSTEM: CSR instructions, `ecall`, `ebreak`, `mret` and `wfi`, which need not wait. -/
def mgSystem (s : State) (w : BitVec 32) : State :=
  let c := s.mgmt.core
  if wbits w 14 12 % 4 ≠ 0 then mgCsr s w
  else if w = 0x00000073 then mgTrap s (if c.user then 8 else 11) 0
  else if w = 0x00100073 then mgTrap s 3 c.pc
  else if w = 0x30200073 ∧ c.user = false then mgReturn s
  else if w = 0x10500073 then mgNext s 4 0 0
  else mgTrap s 2 (w.zeroExtend 64)

/-- A word of four bytes. Accesses are in program order already, so fences only go on (R332, R334). -/
def mgWord (s : State) (w : BitVec 32) : State :=
  let c := s.mgmt.core
  let op := wbits w 6 0
  if op = 0x2F then mgAtomic s w
  else if op = 0x73 then mgSystem s w
  else if op = 0x0F ∧ wbits w 14 12 ≤ 1 then mgNext s 4 0 0
  else
    match extValue w (mgGet c (wreg w 15)) (mgGet c (wreg w 20)) with
    | some v => mgNext s 4 (wreg w 7) v
    | none =>
      match decode w with
      | .ok i => mgExec s 4 w i
      | .error _ => mgTrap s 2 (w.zeroExtend 64)

/-- Two bytes that the core may execute: boot ROM and SRAM (Table 18.1). -/
def mgParcel (s : State) (a : Nat) : Option (BitVec 16) :=
  let half := fun bs => BitVec.ofNat 16 (natOfBytes bs)
  match mgmtPlace a 2 with
  | some (.rom _) => (mgmtRead s false a 2).map half
  | some (.sram _) => (mgmtRead s false a 2).map half
  | _ => none

/-- The management core executes the instruction at its pc. -/
def mgmtStep (s : State) : State :=
  let c := s.mgmt.core
  if c.stopped then s
  else
    let a := c.pc.toNat
    match mgParcel s a with
    | none => mgFault s 1 a 2
    | some h =>
      if hbits h 1 0 ≠ 3 then
        match expand h with
        | some i => mgExec s 2 (h.zeroExtend 32) i
        | none => if h = 0x9002 then mgTrap s 3 c.pc else mgTrap s 2 (h.zeroExtend 64)
      else
        match mgParcel s (a + 2) with
        | none => mgFault s 1 (a + 2) 2
        | some g => mgWord s (g ++ h)

/-- MANAGEMENT_CORE_ACCESS_FAULT: an access to an address outside the map raises an access fault and is counted (R318); the
step names no kind of access, and takes a load (DESIGN CHOICE, log entry 59). -/
def execManagementCoreAccessFault (addr : Nat) (s : State) : Out :=
  .next (if (mgmtPlace addr 1).isSome then s else mgFault s 5 addr 1)

end Sys2Proof.Machine
end

