-- ==== Sys2Proof/Machine/Net.lean ====
section
/-! DEFINITION. The net instructions (R224 to R226, R237 to R243, R395 to R400) and the refill of a crib list. -/

namespace Sys2Proof.Machine

/-! ### The pool and its references (R226, R238) -/

/-- g4 must equal the base of a valid KIND 01 region, which no other tenant owns; the lookup waits while its entry is being
rewritten (R135, R238). -/
def withPool (s : State) (k : HEntry → Out) : Out :=
  let a := getG s.cur.ctx 4
  if fieldNat a 63 56 ≠ 0 ∨ !isLocal s a then trap s 0x11 a
  else if regionBusy s (localOf a) then .next s
  else
    match placeOf s (localOf a), regionAt s (localOf a) with
    | .dram, some e =>
      if e.kind ≠ 1 ∨ e.base ≠ localOf a then trap s 0x11 a
      else if !s.cur.trusted && e.owner != s.cur.tenant then trap s 0x04 a
      else k e
    | _, _ => trap s 0x11 a

/-- The node offset of a reference (R226). -/
def refNode (r : Word) : Nat := 32 * fieldNat r 31 5
/-- The port index of a reference (R226). -/
def refPort (r : Word) : Nat := fieldNat r 1 0
/-- The reference with bits [4:2] and [63:32] cleared (R397). -/
def refWord (r : Word) : Word := BitVec.ofNat 64 (refNode r + refPort r)
/-- The reference names a port word of the pool (R226). -/
def refValid (e : HEntry) (r : Word) : Bool :=
  refPort r != 3 && decide (0x40 ≤ refNode r) && decide (refNode r < e.size)
/-- The address of the port word that a reference names (R226). -/
def refAddr (e : HEntry) (r : Word) : Nat := e.base + refNode r + 8 * (refPort r + 1)
/-- The node's header as the chunk sees it. -/
def refHeader (s : State) (e : HEntry) (r : Word) : Word := chunkWord s (e.base + refNode r)
/-- The line of the node that a reference names. -/
def refLine (e : HEntry) (r : Word) : Nat := (e.base + refNode r) / 64

/-- Lines a net instruction reads; those of a sealed pool enter no signature (R112). -/
def poolLines (e : HEntry) (ls : List Nat) : List Nat := if e.sealed then [] else ls

/-- The headers an instruction reads hold no poisoned word, and neither does the port word it reads; their home answers with
the cause (R166, R457). -/
def poolPoison (s : State) (as : List Nat) (k : Out) : Out :=
  match as.find? fun a => (chunkPoison s).mem.poisoned a with
  | some a => .next (homeCause s 0x0C (globalOf s a))
  | none => k

/-- A port index above the node's AUX (R238). -/
def portBeyond (s : State) (e : HEntry) (r : Word) : Bool := decide (hdrAux (refHeader s e r) < refPort r)

/-! ### `nalloc` and the crib (R239, R395) -/

/-- The offsets on the executing task's crib list for a pool. -/
def cribOffs (s : State) (pool : Nat) : List Nat :=
  match cribList s s.cur.core s.cur.tenant pool with
  | some l => l.offs
  | none => []

/-- The header `nalloc` writes (Table 11.6). -/
def newHeader (t : Word) : Word := BitVec.ofNat 64 (fieldNat t 15 0 * 2 ^ 48 + fieldNat t 17 16 * 2 ^ 40)

/-- Take a node off the crib: its words belong to the chunk (R239). -/
def takeFromCrib (s : State) (t : Task) (d : Reg) (e : HEntry) (o : Nat) (hdr : Word) : State :=
  let s := cribMap s s.cur.core s.cur.tenant e.pool fun l => { l with offs := l.offs.erase o, last := s.time }
  let u := (rebase s t).hold' (.store (e.base + o) (bytesOfNat 8 hdr.toNat ++ List.replicate 24 0))
  retire s { u with hold := none, ctx := setG u.ctx d (BitVec.ofNat 64 o)
                    chunk := { u.chunk with allocs := (e.pool, o) :: u.chunk.allocs } }

/-- `nalloc` (R239, R395). -/
def execNalloc (d t : Reg) (s : State) : Out :=
  gate s (.g [4, t] [d]) <|
  withPool s fun e =>
    let (x, u) := takeG s.cur t
    if fieldNat x 15 0 = 0 ∨ fieldNat x 17 16 = 3 then trap s 0x02 0
    else if e.sealed then trap s 0x03 (getG s.cur.ctx 4)
    else if !destRoom s.cur d then trap s 0x02 0
    else
      match cribOffs s e.pool with
      | o :: _ => withLines s [] [(e.base + o) / 64] fun s => .next (takeFromCrib s u d e o (newHeader x))
      | [] =>
        match s.cur.hold with
        | some (.answer (some c) _ _) => trap (modCur s fun t => { t with hold := none }) c 0
        | some (.refill _) => .next s
        | _ => .next (modCur s fun t => { t with hold := some (.refill e.pool) })

/-- CRIB_REFILL: the refill job of a (tenant, pool) that a slot of the core awaits, at the pool's home; it returns no node
with cause 0x09 (R239). A pool that has been sealed meanwhile gives none, and `nalloc` finds the seal (R174, R238). -/
def execCribRefill (core tenant pool : Nat) (s : State) : Out :=
  match (allTasks s).find? fun t =>
      t.core == core && t.tenant == tenant && t.hold == some (.refill pool) && t.slot?.isSome && !halts s t with
  | none => .next s
  | some t =>
    match regionAt s (localOf (getG t.ctx 4)) with
    | none => .next (onTask s t.key fun s => modCur s fun t => { t with hold := none })
    | some e =>
      if e.sealed then .next (onTask s t.key fun s => modCur s fun t => { t with hold := none })
      else if serialHolds s t.key [e.base / 64] then .next s
      else
        let s1 := cribRefill s core tenant pool e.base e.size
        let got := match cribList s1 core tenant pool with
          | some l => !l.offs.isEmpty
          | none => false
        .next (onTask s1 t.key fun s => modCur s fun t =>
          { t with hold := if t.hold = some (.refill pool) then some (.answer (if got then none else some 0x09) 0 false)
                           else t.hold })

/-! ### `nfree` (R240, R396) -/

/-- The node is already freed in this chunk. -/
def freedHere (s : State) (e : HEntry) (off : Nat) : Bool :=
  s.cur.chunk.log.any fun x => match x with
    | .free b _ o => b == e.base && o == off
    | _ => false

/-- `nfree`. -/
def execNfree (n : Reg) (s : State) : Out :=
  gate s (.g [4, n] []) <|
  withPool s fun e =>
    let (x, t) := takeG s.cur n
    if !refValid e x || refPort x != 0 then trap s 0x02 0
    else
      withLines s (poolLines e [refLine e x]) [refLine e x] fun s =>
        poolPoison s [e.base + refNode x] <|
        if hdrType (refHeader s e x) = 0 ∨ freedHere s e (refNode x) then trap s 0x02 0
        else if e.sealed then trap s 0x03 (getG s.cur.ctx 4)
        else .next (retire s ((rebase s t).hold' (.free e.base e.pool (refNode x))))

/-! ### `nlink` and `npush` (R241, R397, R398) -/

/-- The entry of a pair of references (R235). -/
def pairEntry (e : HEntry) (x y : Word) : Word := bagEntry e.pool (refNode x) (refNode y)

/-- Hold the two port words of a link, and its pair where both ports are principal. -/
def linkPorts (t : Task) (e : HEntry) (x y : Word) : Task :=
  let link := fun (w : Word) => bytesOfNat 8 ((0x4000000000000000#64 ||| refWord w).toNat)
  let t := (t.hold' (.store (refAddr e x) (link y))).hold' (.store (refAddr e y) (link x))
  if refPort x = 0 ∧ refPort y = 0 then t.hold' (.push e.base e.pool (pairEntry e x y)) else t

/-- `nlink`. -/
def execNlink (a b : Reg) (s : State) : Out :=
  gate s (.g [4, a, b] []) <|
  withPool s fun e =>
    let (x, t) := takeG s.cur a
    let (y, t) := takeG t b
    if !refValid e x || !refValid e y then trap s 0x02 0
    else
      withLines s (poolLines e [refLine e x, refLine e y]) [refLine e x, refLine e y] fun s =>
        poolPoison s [e.base + refNode x, e.base + refNode y] <|
        if portBeyond s e x || portBeyond s e y || refWord x == refWord y then trap s 0x02 0
        else if e.sealed then trap s 0x03 (getG s.cur.ctx 4)
        else .next (retire s (linkPorts (rebase s t) e x y))

/-- `npush`. -/
def execNpush (a b : Reg) (s : State) : Out :=
  gate s (.g [4, a, b] []) <|
  withPool s fun e =>
    let (x, t) := takeG s.cur a
    let (y, t) := takeG t b
    if !refValid e x || !refValid e y then trap s 0x02 0
    else
      withLines s (poolLines e [refLine e x, refLine e y]) [] fun s =>
        poolPoison s [e.base + refNode x, e.base + refNode y] <|
        if portBeyond s e x || portBeyond s e y || refNode x == refNode y then trap s 0x02 0
        else .next (retire s ((rebase s t).hold' (.push e.base e.pool (pairEntry e x y))))

/-! ### `nrd` (R242, R399) -/

/-- The DETAIL of the cause with which another package answers an `nrd`. -/
def nrdDetail (cause : Nat) (pool port : Word) : Word := if cause = 0x02 then 0 else if cause = 0x0C then port else pool

/-- `nrd` of a pool of another package is a request, which that package judges; what the reference alone decides is judged here
(R238, R294). -/
def nrdFar (s : State) (t : Task) (d : Reg) (pool x : Word) : Out :=
  let port := pool + BitVec.ofNat 64 (refNode x + 8 * (refPort x + 1))
  match s.cur.hold with
  | some (.answer (some c) _ _) => trap (unhold s (destOf d)) c (nrdDetail c pool port)
  | _ =>
    held s t (destOf d) port <|
    alone s <|
      if refPort x = 3 ∨ refNode x < 0x40 then trap s 0x02 0
      else if !loadRoom s.cur (destOf d) then trap s 0x02 0
      else sendRequest s 0 port [portW1, pool] (destOf d) 8 false

/-- `nrd`: the port word as stored, at once where its home is the issuing core (R242). -/
def execNrd (d p : Reg) (s : State) : Out :=
  gate s (.g [4, p] [d]) <|
  let pool := getG s.cur.ctx 4
  if fieldNat pool 63 56 = 0 ∧ isLocal s pool = false then
    let (x, t) := takeG s.cur p
    nrdFar s t d pool x
  else
  withPool s fun e =>
    let (x, t) := takeG s.cur p
    if !refValid e x then trap s 0x02 0
    else
      withLines s (poolLines e [refLine e x]) [] fun s =>
        poolPoison s [e.base + refNode x, refAddr e x] <|
        if portBeyond s e x then trap s 0x02 0
        else if !loadRoom s.cur (destOf d) then trap s 0x02 0
        else .next (deliverAt (homeOf s (refAddr e x) != some s.cur.core) s (rebase s t) (destOf d) ((chunkWord s (refAddr e x)).zeroExtend 512))

/-! ### `nrset` (R243, R400) -/

/-- The key's types in order. -/
def keyTypes (k : Word) : Nat × Nat :=
  let a := fieldNat k 31 16
  let b := fieldNat k 15 0
  if b < a then (b, a) else (a, b)

/-- A word of the rule table as the chunk sees it. -/
def rtabSeen (s : State) (t i : Nat) (hi : Bool) : Word := BitVec.ofNat 64 (natOfBytes (chunkCtl s (rtabOff t i hi) 8))

/-- The slot `nrset` writes and whether its key is new: the slot that holds the key, else the first without VALID. -/
def rsetSlot (s : State) (t ta tb : Nat) : Option (Nat × Bool) :=
  let is := ruleSlots ta tb
  match is.find? fun i => bitOf (rtabSeen s t i false) 63 && (rtabSeen s t i true).toNat == ruleKey ta tb with
  | some i => some (i, false)
  | none => (is.find? fun i => !bitOf (rtabSeen s t i false) 63).map fun i => (i, true)

/-- The lines of the eight slots of a key. -/
def rsetLines (t ta tb : Nat) : List Nat := (ruleSlots ta tb).map fun i => (0x2100000000 + rtabOff t i false) / 64

/-- `nrset`. -/
def execNrset (k v : Reg) (s : State) : Out :=
  if !s.cur.winnower then trap s 0x01 0
  else
  gate s (.g [k, v] []) <|
    let (x, u) := takeG s.cur k
    let (y, u) := takeG u v
    let t := fieldNat x 37 32
    let (ta, tb) := keyTypes x
    if ta = 0 ∨ tb = 0 then trap s 0x02 0
    else
      match rsetSlot s t ta tb with
      | none => trap s 0x02 0
      | some (i, new) =>
        withLines s (rsetLines t ta tb) [(0x2100000000 + rtabOff t i false) / 64] fun s =>
          let u := rebase s u
          let u := if new then u.hold' (.ctl (rtabOff t i true) (bytesOfNat 8 (ruleKey ta tb))) else u
          .next (retire s (u.hold' (.ctl (rtabOff t i false) (bytesOfNat 8 y.toNat))))

end Sys2Proof.Machine
end

