-- ==== Sys2Proof/Machine/Retrans.lean ====
section
/-! DEFINITION. Retranslation: `wn_retrans` and steps 4 to 6 of a move (R274, R276, R283, R287), and the retranslation of a
quarantined image with no elision at all (R211). -/

namespace Sys2Proof.Machine

/-! ### The span (R274, R287) -/

/-- A span that has moved: its old and new local address and its length. -/
structure Span where
  old : Nat
  new : Nat
  len : Nat
  deriving DecidableEq, Repr

/-- Some byte of a range lies in the old span. -/
def Span.meets (p : Span) (lo hi : Nat) : Bool := decide (lo < p.old + p.len) && decide (p.old < hi)

/-- Some byte of a range lies in the old span or in the new one. -/
def Span.touches (p : Span) (lo hi : Nat) : Bool := p.meets lo hi || (decide (lo < p.new + p.len) && decide (p.new < hi))

/-- Where `n` bytes at an address stand after the move: all of them moved, or where they were. -/
def Span.place (p : Span) (a n : Nat) : Nat := if p.old ≤ a ∧ a + n ≤ p.old + p.len then p.new + (a - p.old) else a

/-- A word that holds an address of the old span, after the move. -/
def Span.word (s : State) (p : Span) (w : Word) : Word :=
  if isLocal s w && decide (fieldNat w 63 56 = 0) then globalOf s (p.place (localOf w) 1) else w

/-! ### Exposed images (R274) -/

/-- An engine command that names memory: no check stands before it, and the engine alone judges its ranges (R290). -/
def engineReach (i : Instr) : Bool := fieldNat ((wordOf i).zeroExtend 64) 6 0 == 0x7B && (accessesOf i).isEmpty

/-- The accesses that one proof covers can reach the span. -/
def proofReaches (s : State) (i : Image) (p : Span) : Option Proved → Bool
  | none => p.meets i.place.arlo i.place.arhi
  | some (.window _) => decide (0x2000000000 < p.old + p.len)
  | some (.memory lo hi) =>
    if hi = 0 then (regionsOf s i.tenant).any fun e => e.kind == 1 && i.pools.contains e.pool && p.touches e.base (e.base + e.size)
    else p.meets (lo - i.place.global 0) (hi - i.place.global 0)

/-- An operation can reach the span. -/
def opReaches (s : State) (i : Image) (c : Proving) (p : Span) (fi j : Nat) (op : POp) : Bool :=
  match op with
  | .instr ins a b _ =>
    (engineReach ins && p.meets i.place.arlo i.place.arhi) || (accessDists ins a b).any fun x =>
      proofReaches s i p (if i.whole then none else accessProof i.plain i.place c fi j op x.1 x.2)
  | _ => false

/-- The places that an image's relocated constants and words name. -/
def imagePlaces (i : Image) : List (Nat × Nat) :=
  (i.place.data, dataLen i.plain) :: i.place.regions.mapIdx fun k a => (a, 2 ^ (imgRegion i.plain k).2.1)

/-- An image is exposed to a move: its proved ranges or its unproved checks can reach the span (R274), or its relocations name
a place in it (R264, R282). -/
def exposed (s : State) (i : Image) (p : Span) : Bool :=
  let c := provingOf i.plain i.place
  (decide (0 < nReloc i.plain) && (imagePlaces i).any fun a => p.meets a.1 (a.1 + a.2)) ||
    c.fs.zipIdx.any fun f => f.1.ops.zipIdx.any fun o => opReaches s i c p f.2 o.2 o.1

/-- The images of a tenant that are exposed to a move. -/
def exposedImages (s : State) (t : Nat) (p : Span) : List Image := (liveImages s t).filter fun i => exposed s i p

/-! ### Step 4: words that hold addresses (R245, R274, R282) -/

/-- Change one word of memory; its tag stays. -/
def changeWord (s : State) (a : Nat) (f : Word → Word) : State :=
  let w := homeWord s a
  if f w = w then s else devWrite s (canon s a) (bytesOfNat 8 (f w).toNat) none

/-- Relocate one word of memory by the address it holds. -/
def relocateWord (p : Span) (s : State) (a : Nat) : State := changeWord s a (p.word s)

/-- A relocation word after its image's symbols have moved to `q`: one that still holds what admission or an earlier move
gave it goes with its symbol, wherever its constant points, and one that the program has changed goes with the address it
holds (DESIGN CHOICE, log entry 68). -/
def relocValue (s : State) (i : Image) (q : Folded) (p : Span) (k : Nat) (w : Word) : Word :=
  let r := imgReloc i.plain k
  let given := fun (f : Folded) => BitVec.ofNat 64 (imgNum (imgData i.plain) r.2.1 8 + f.symbol r.2.2)
  if w = given i.place then given q else p.word s w

/-- Patch the relocation words of an image (R274 step 4, R282). -/
def relocImage (s : State) (i : Image) (q : Folded) (p : Span) : State :=
  ((List.range (nReloc i.plain)).filter fun k => (imgReloc i.plain k).1 == 0xFFFFFFFF).foldl (fun s k =>
    changeWord s (q.data + (imgReloc i.plain k).2.1) (relocValue s i q p k)) s

/-- The pools of a tenant. -/
def poolsOf (s : State) (t : Nat) : List HEntry := (regionsOf s t).filter fun e => e.kind == 1

/-- NETD and TDTAB of a tenant's pools, the address words of a pool header (R227, R228). -/
def headWords (s : State) (t : Nat) : List Nat := (poolsOf s t).flatMap fun e => [e.base + 0x18, e.base + 0x28]

/-- The BUF words of a tenant's tile descriptors (R245). -/
def bufWords (s : State) (t : Nat) : List Nat :=
  (poolsOf s t).flatMap fun e =>
    (List.range (homeWord s (e.base + 0x30)).toNat).map fun k => localOf (homeWord s (e.base + 0x28)) + 32 * k + 8

/-- The g4 words of the save records of a tenant's halted tasks (R216). -/
def g4Words (s : State) (t : Nat) : List Nat :=
  ((allTasks s).filter fun u => u.tenant == t && [.yielded, .resume, .gangHalted].contains u.status).flatMap fun u =>
    (u.number :: (match u.inline with
      | some i => [i.number]
      | none => [])).filterMap fun k => (saveRec s t u.core k).map (· + 0x20)

/-- The pool base of a task of the moved tenant: `getst` 12, and g4 where the task has not started, so that no save record
holds it (R227, R232). -/
def rebasePool (s : State) (t : Nat) (p : Span) (u : Task) : Task :=
  if u.tenant != t || u.trusted then u
  else
    let u := { u with entryPb := p.word s u.entryPb }
    if u.started then u
    else
      let c := setG u.ctx 4 (p.word s (getG u.ctx 4))
      { u with ctx := c, chunk := { u.chunk with start := c } }

/-- Step 4 of a move but for the images' own words: pool headers first, then the descriptors they lead to, g4 in the save
records, and the pool bases of the tasks. -/
def relocNets (s : State) (t : Nat) (p : Span) : State :=
  let s := (headWords s t).foldl (relocateWord p) s
  mapTasks ((bufWords s t ++ g4Words s t).foldl (relocateWord p) s) (rebasePool s t p)

/-! ### Step 5: the new text (R264, R271, R287) -/

/-- What the Winnower folds into an image after a move. -/
def movedPlace (s : State) (i : Image) (p : Span) : Folded :=
  foldedFor s i.tenant (p.place i.place.data (dataLen i.plain))
    (i.place.regions.mapIdx fun k a => p.place a (2 ^ (imgRegion i.plain k).2.1))

/-- The constants folded into an image differ between two placings (R264). -/
def foldChanges (i : Image) (q : Folded) : Bool :=
  { i.place with data := q.data, regions := q.regions } != q || foldFuncs i.plain i.place != foldFuncs i.plain q

/-- The four areas of a TI: word of TENANT[t], KIND, bytes (R85, R108, R216, R236). -/
def tiAreas : List (Nat × Nat × Nat) :=
  [(2, 0, 9 * 2 ^ 20), (3, 0, 1024 * 0x88000), (4, 2, 32 * 2 ^ 20), (11, 0, 0x10000)]

/-- Where the areas that a tenant has been given stand, and their lengths. -/
def areasOf (s : State) (t : Nat) : List (Nat × Nat) :=
  (tiAreas.filter fun w => tenantWord s t w.1 != 0).map fun w => (localOf (tenantWord s t w.1), w.2.2)

/-- A KIND 00 region in which no text, no data section, no `.region` and no area of the tenant stands (R287). -/
def freeText (s : State) (t n : Nat) (p : Option Span) (e : HEntry) : Bool :=
  let live := liveImages s t
  e.kind == 0 && !e.sealed && !e.busy && decide (n ≤ e.size) && !bitOf (ctlGet s (sealOff e.n)) 63 &&
    !s.sched.dataRegs.contains e.n && !((live.flatMap imagePlaces ++ areasOf s t).any fun a =>
      decide (a.1 < e.base + e.size) && decide (e.base < a.1 + max a.2 1)) &&
    !(p.any fun p => p.touches e.base (e.base + e.size))

/-- The region that takes a new text: a free one of the tenant, or one made for it (R287, R456). -/
def textPlace (s : State) (i : Image) (n : Nat) (p : Option Span) : Option (State × HEntry) :=
  match (regionsOf s i.tenant).find? (freeText s i.tenant n p) with
  | some e => some (s, e)
  | none =>
    match newRegion s i.tenant (regionLog n) 0 0 (imgHome i.plain) none with
    | .error _ => none
    | .ok x => (hEntry x.1 x.2.1).map fun e => (x.1, e)

/-- Retranslate an image into a region of its own and seal it with class code, its image record written; none where no region
takes it or the chunk of a rule grows beyond R244. -/
def retranslate (s : State) (i : Image) (q : Folded) (whole : Bool) (p : Option Span) : Option (State × Image) :=
  let tr := translating i.plain q whole
  let n := emitImage tr
  if (boundError tr n).isSome then none
  else
    (textPlace s i (roundUp (4 * n.words.length) 64) p).map fun x =>
      let s1 := placeText x.1 i.tenant x.2 n.bytes
      let j : Image := { i with
        handle := s1.2, place := q, tlen := 4 * n.words.length, entries := n.entries (nFunc i.plain), index := n.index i.plain
        whole := whole }
      (writeImgrec s1.1 x.2.n i.plain n (bytesBE 48 i.d.toNat), j)

/-! ### Step 6: the swap (R106, R234, R274, R276) -/

/-- The place of the same portable function in the new text. -/
def newEntry (i j : Image) (off : Nat) : Nat :=
  match (List.range (nFunc i.plain)).find? fun f => i.entryOf f == off with
  | some f => j.entryOf f
  | none => off

/-- An entry's word with IMAGE and ENTRY of the new text. -/
def swapWord (i j : Image) (w : Word) : Word :=
  (w &&& ~~~0x00FFFFFFFFFFFFFF#64) ||| BitVec.ofNat 64 (j.handle.toNat * 2 ^ 40 + newEntry i j (fieldNat w 39 0))

/-- A control-space offset is that of a word 0 of the tenant's RTAB, or of an entry of its HTAB. -/
def namesImage (t off : Nat) : Bool :=
  (decide (0x2000000 + t * 0x10000 ≤ off) && decide (off < 0x2000000 + (t + 1) * 0x10000) && decide (off % 16 = 0)) ||
    (decide (0x2800000 + t * 0x800 ≤ off) && decide (off < 0x2800000 + (t + 1) * 0x800))

/-- The entries of a tenant's tables that name an image. -/
def entriesOf (s : State) (t : Nat) (h : BitVec 16) : List Nat :=
  (s.ctl.filter fun e => namesImage t e.1 && bitOf e.2 63 && decide (fieldNat e.2 55 40 = h.toNat)).map fun e => e.1

/-- The same address in the new text. -/
def newPc (s : State) (i j : Image) (pc : Word) : Word :=
  globalOf s (textBase s j.handle + newEntry i j (localOf pc - textBase s i.handle))

/-- A task of the old image that has not started goes to the new one (R274 step 6). -/
def repoint (s : State) (i j : Image) (u : Task) : Task :=
  if u.tenant == i.tenant && !u.started && !u.trusted && u.handle == i.handle then
    let c := { u.ctx with pc := newPc s i j u.ctx.pc }
    { u with handle := j.handle, ctx := c, chunk := { u.chunk with start := c } }
  else u

/-- So does a queued gang request. -/
def repointGang (i j : Image) (g : GangReq) : GangReq :=
  if g.tenant == i.tenant && !g.trusted && g.handle == i.handle then
    { g with handle := j.handle, entry := BitVec.ofNat 64 (newEntry i j g.entry.toNat) }
  else g

/-- The new text takes the old one's place, which stays listed for the records of its tasks (R208, R274 step 6). -/
def swapImage (s : State) (i j : Image) : State :=
  let s := (entriesOf s i.tenant i.handle).foldl (fun s off => devCtl s off (swapWord i j (ctlGet s off))) s
  let s := mapTasks s (repoint s i j)
  let aged := s.sched.images.map fun x => if x.tenant == i.tenant && x.handle == i.handle then { x with old := true } else x
  recordImage { s with sched := { s.sched with
      images := aged, gangQ := s.sched.gangQ.map fun q => (q.1, q.2.map (repointGang i j)) } } j

/-- An image whose place changes and whose text does not. -/
def keepText (s : State) (i : Image) (q : Folded) : State := recordImage s { i with place := q }

/-! ### `wn_retrans` (R287) -/

/-- Steps 4 to 6 for some images: the state, and the handle that takes the place of `h`. Where one fails, all do. -/
def retransImages (p : Span) : List Image → BitVec 16 → State → Option (State × BitVec 16)
  | [], h, s => some (s, h)
  | i :: is, h, s =>
    let q := movedPlace s i p
    if q.data % 64 ≠ 0 then none
    else
      let s := relocImage s i q p
      if foldChanges i q then
        match retranslate s i q i.whole (some p) with
        | none => none
        | some x => retransImages p is (if i.handle = h then x.2.handle else h) (swapImage x.1 i x.2)
      else retransImages p is h (keepText s i q)

/-- The images whose retranslation the move of a tenant has completed: REPGEN rises when it ends (R279). -/
def markMoved (s : State) (t : Nat) : State :=
  { s with moves := s.moves.map fun m => if m.tenant == t then { m with moved := true } else m }

/-- Steps 4 to 6 of a move of a tenant; none where they fail, with nothing installed. -/
def retransAll (s : State) (t : Nat) (p : Span) (h : BitVec 16) : Option (State × BitVec 16) :=
  (retransImages p (exposedImages s t p) h s).map fun x =>
    (settle (observe (markMoved (relocNets x.1 t p) t)), x.2)

/-- The registers that Table 14.2 leaves undefined: no number stands for what they hold. -/
def retransRegs (n : Nat) (c : Ctx) : Ctx :=
  (1 :: 30 :: 31 :: (List.range 16).map (12 + ·)).foldl (fun c r => setG c (BitVec.ofNat 5 r) (Config.retransReg n r)) c

/-- `wn_retrans`: g10 the old handle, g11 and g12 the old and new span, g13 its length; it returns to ln with the new handle in
g10 and the status in g11 (R287). -/
def wnRetrans (s : State) : Out :=
  gate s (.g [10, 11, 12, 13, 1] []) <|
    alone s <|
      let c := s.cur.ctx
      let p : Span := ⟨localOf (getG c 11), localOf (getG c 12), (getG c 13).toNat⟩
      let done := if isLocal s (getG c 11) && isLocal s (getG c 12) then
          retransAll s s.cur.tenant p ((getG c 10).truncate 16)
        else none
      let out : State × Word × Word := match done with
        | some x => (x.1, x.2.zeroExtend 64, 0)
        | none => (s, getG c 10, 1)
      .next (modCur { out.1 with fresh := out.1.fresh + 1 } fun t =>
        Task.newChunk { t with ctx := { setG (setG (retransRegs s.fresh t.ctx) 10 out.2.1) 11 out.2.2 with
          pc := getG c 1, rep := none } } s.time)

/-! ### A move starts (R285) -/

/-- A task of a tenant that runs a trusted image: the monitor gives it level 0 and no launch (DESIGN CHOICE, log entry 68). -/
def moveBirth (t core : Nat) (image : BitVec 16) (entry : Nat) (args : List Word) : Birth :=
  { kind := .root, core := core, tenant := t, prio := 0, handle := image, trusted := true, winnower := false, entry := entry
    pb := 0, args := args, origin := 0, owner := 0, msg := none, launch := none, rooted := false, net := none, ord := none
    imgd := none, src := 2048 }

/-- The security monitor, once it runs, starts a move of a tenant as a task of it (R285). -/
def startMove (s : State) (t core : Nat) (image : BitVec 16) (entry : Nat) (args : List Word) : State :=
  if decide (t < 64) && coreEnabled s core && sealTrusted s image && s.mgmt.mbox.monitor && !s.mgmt.halted then
    enqueue s (moveBirth t core image entry args)
  else s

/-! ### A quarantined image (R211) -/

/-- The entries of an image are enabled again, but those that a standing move holds disabled (R211, R274). -/
def enableImage (s : State) (t : Nat) (h : BitVec 16) : State :=
  let held := s.moves.flatMap fun m => if m.tenant == t then m.disabled else []
  releaseEnabled (((entriesOf s t h).filter fun o => !held.contains o).foldl (fun s off =>
    devCtl s off (ctlGet s off ||| (1#64 <<< (if off < 0x2800000 then 62 else 60)))) s)

/-- The Winnower retranslates the first quarantined image of a tenant with no elision at all, seals it, and swaps and
enables its entries; the old text stays sealed for the tasks that run on it (R211). -/
def reseal (s : State) (t : Nat) : State :=
  match s.sched.quarantine.find? fun q => q.1 == t with
  | none => s
  | some q =>
    let rest := { s with sched := { s.sched with quarantine := s.sched.quarantine.filter (· != q) } }
    match (liveImages s t).find? fun i => i.handle == q.2 with
    | none => rest
    | some i =>
      if tiState s t ≠ 2 then s
      else
        match retranslate rest i i.place true none with
        | none => s
        | some x => settle (observe (enableImage (swapImage x.1 i x.2) t x.2.handle))

end Sys2Proof.Machine
end

