-- ==== Sys2Proof/Machine/Tdisp.lean ====
section
/-! DEFINITION. Tenant interfaces: the TDISP requests of the security monitor (R277 to R281), their keys (R273), SET_TI_CONFIG
(R278), lost sessions (R279), the rekey of links (R300), and the move that takes too long (R274). -/

namespace Sys2Proof.Machine

/-- Answer a request for a tenant interface. -/
def tiSend (s : State) (t : Nat) (r : TiReply) : State := modMgmt s fun m => { m with tiSent := m.tiSent ++ [(t, r)] }

/-- A request for tenant interface `t` has come in an OP 13 flit, or from the BMC through the mailbox (R307). -/
def tiAsked (s : State) (t : Nat) : Bool := (s.mgmt.inbox.any fun f => f.ti == t) || s.mgmt.mbox.pend

/-- The request is served and answered the way it came. -/
def tiAnswer (s : State) (t : Nat) (k : State → State) : State :=
  if s.mgmt.inbox.any fun f => f.ti == t then serveFlit s (fun f => f.ti == t) k
  else nextFresh (clearPend (mboxSend (k s) (Config.spdmBytes s.fresh)))

/-- The security monitor serves tenant interface `t`; before it starts nobody answers (R253, R324). -/
def tiServe (s : State) (t : Nat) (k : State → State) : Out :=
  if decide (t < 64) && s.mgmt.mbox.monitor && tiAsked s t then .next (tiAnswer s t k) else .next s

/-! ### The moves of the runtime that are abandoned (R274, R281) -/

/-- An entry of RTAB or HTAB is enabled again. -/
def reenable (s : State) (off : Nat) : State :=
  devCtl s off (ctlGet s off ||| (1#64 <<< (if off < 0x2800000 then 62 else 60)))

/-- A move is abandoned at step 1: its entries are enabled again, the tenant is resumed, and COMPACT-TIMEOUT is reported
(R274, R305 KIND 5). -/
def moveAbandon (s : State) (m : Move) : State :=
  let s1 := releaseEnabled (m.disabled.foldl reenable s)
  let s2 := { s1 with moves := s1.moves.filter fun x => x.tenant != m.tenant }
  hostRecord (writeRequest s2 m.tenant .trusted false) 5 m.tenant 0 [1, m.base]

/-- The time after which a move is abandoned: 100 ms (R13, R274). -/
def moveLimit : Nat := 170000000

/-- A started task runs an image that is exposed to a move (R274 step 1). -/
def moveWaits (s : State) (m : Move) : Bool :=
  let p : Span := ⟨localOf m.base, localOf m.base, m.len⟩
  (exposedImages s m.tenant p).any fun i =>
    (allTasks s).any fun u => u.tenant == m.tenant && u.started && !u.trusted && u.handle == i.handle

/-- COMPACT_TIMEOUT: a move whose exposed images still have a started task 100 ms after it began is abandoned (R274). -/
def execCompactTimeout (s : State) : Out :=
  let late := fun (m : Move) => decide (m.since + moveLimit ≤ s.time) && moveWaits s m
  match s.moves.find? late with
  | none => .next s
  | some m => .next (settle (observe (moveAbandon s m)))

/-! ### Requests that change nothing (R277, R280) -/

/-- GET_TDISP_VERSION (R277). -/
def execGetTdispVersion (t : Nat) (s : State) : Out := tiServe s t fun s => tiSend s t .version
/-- GET_TDISP_CAPABILITIES (R277). -/
def execGetTdispCapabilities (t : Nat) (s : State) : Out := tiServe s t fun s => tiSend s t .capabilities
/-- GET_DEVICE_INTERFACE_STATE (R277). -/
def execGetDeviceInterfaceState (t : Nat) (s : State) : Out := tiServe s t fun s => tiSend s t (.state (tiState s t))
/-- TDISP_UNSUPPORTED_REQUEST: TDISP ERROR, UNSUPPORTED_REQUEST (R277). -/
def execTdispUnsupportedRequest (t : Nat) (s : State) : Out := tiServe s t fun s => tiSend s t .unsupportedRequest

/-- The interface report: REPGEN, the regions, and D and handle of every admitted image (R280). -/
def tiReport (s : State) (t : Nat) : TiReply :=
  .report (fieldNat (tenantWord s t 0) 23 16)
    ((regionsOf s t).map fun e => ⟨e.base, e.size, e.kind, if e.sealed then some e.cls else none⟩)
    ((liveImages s t).map fun i => (i.d, i.handle))

/-- GET_DEVICE_INTERFACE_REPORT: of a locked or running interface; in every other state TDISP ERROR,
INVALID_INTERFACE_STATE (R279, R280). -/
def execGetDeviceInterfaceReport (t : Nat) (s : State) : Out :=
  tiServe s t fun s =>
    tiSend s t (if tiState s t = 1 ∨ tiState s t = 2 then tiReport s t else .invalidInterfaceState)

/-! ### LOCK_INTERFACE_REQUEST (R273, R278, R279) -/

/-- Info strings of R273 and R300. -/
def infoImage : List Byte := [0x6C, 0x6A, 0x38, 0x20, 0x69, 0x6D, 0x61, 0x67, 0x65]
def infoCode : List Byte := [0x6C, 0x6A, 0x38, 0x20, 0x63, 0x6F, 0x64, 0x65]

/-- The image and code keys of a tenant from its session's secret: 32 bytes for AES-256-GCM, 64 for AES-256-XTS (R272,
R273). -/
def deriveKeys (s : State) (t : Nat) : State :=
  let sec := Config.sessionSecret s.fresh
  let k : KeySlot := ⟨hkdf384 sec (infoImage ++ [BitVec.ofNat 8 t]) 32, hkdf384 sec (infoCode ++ [BitVec.ofNat 8 t]) 64, none⟩
  nextFresh (modMgmt s fun m => { m with keys := Tab.set m.keys t k })

/-- The largest region that begins at `a` and holds no more than `n` bytes: log2 of its size (Table 05.4). -/
def pieceLog (a n : Nat) : Nat :=
  (((List.range 24).map fun k => 39 - k).find? fun k => decide (a % 2 ^ k = 0) && decide (2 ^ k ≤ n)).getD 16

/-- Regions of one kind that cover an area exactly; the fuel bounds their number. -/
def coverArea (t kind : Nat) : Nat → Nat → Nat → State → Except AdmitError State
  | 0, _, _, s => .ok s
  | f + 1, a, n, s =>
    if n = 0 then .ok s
    else
      let k := pieceLog a n
      admitting (newRegion s t k kind 0 ⟨true, 15, 0xFFFF, 0xFFFF⟩ (some a)) fun x =>
        coverArea t kind f (a + 2 ^ k) (n - 2 ^ k) x.1

/-- An area of a TI is not given: UNDQ = 0 (R108). -/
def noArea (s : State) (t : Nat) (a : Nat × Nat × Nat) : Bool := a.1 == 11 && tenantWord s t 11 == 0

/-- The regions of a TI's areas (R278). -/
def createAreas (s : State) (t : Nat) : Except AdmitError State :=
  (tiAreas.filter fun a => !noArea s t a).foldl (fun x a =>
    admitting x fun s => coverArea t a.2.1 64 (localOf (tenantWord s t a.1)) a.2.2 s) (.ok s)

/-- LOCK_INTERFACE_REQUEST (R278, R279). TIs accept it once boot stage 3 is done (R321). -/
def execLockInterfaceRequest (t : Nat) (s : State) : Out :=
  tiServe s t fun s =>
    if tiState s t ≠ 0 then tiSend s t .invalidInterfaceState
    else if s.mgmt.stage < 4 ∨ (arena s t).2 ≤ (arena s t).1 then tiSend s t .invalidRequest
    else
      match createAreas s t with
      | .error _ => tiSend s t .invalidRequest
      | .ok s1 => tiSend (raiseRepgen (setTiState (deriveKeys s1 t) t 1) t) t .locked

/-! ### START and STOP (R279, R281) -/

/-- START_INTERFACE_REQUEST (R279). -/
def execStartInterfaceRequest (t : Nat) (s : State) : Out :=
  tiServe s t fun s =>
    if tiState s t = 1 then tiSend (setTiState s t 2) t .started else tiSend s t .invalidInterfaceState

/-- The admissions of a TI that wait are abandoned with status 7, and its moves with COMPACT-TIMEOUT (R261, R281). -/
def abandonQueued (s : State) (t : Nat) : State :=
  let mine := fun (r : LaunchReq) => r.ti == t && decide (fieldNat (recordWord s r.addr 0) 1 0 < 2)
  let s1 := (s.sched.launchQ.filter mine).foldl
    (fun s r => refuseLaunch (reportRefused s t r.number (7, noIndex) []) t r.number)
    { s with sched := { s.sched with launchQ := s.sched.launchQ.filter fun r => !mine r } }
  match moveOf s1 t with
  | none => s1
  | some m => moveAbandon s1 m

/-- STOP_INTERFACE_REQUEST: the teardown of the TI begins (R279, R281); one that drains already goes on. -/
def execStopInterfaceRequest (t : Nat) (s : State) : Out :=
  tiServe s t fun s =>
    if tiState s t = 0 then tiSend s t .invalidInterfaceState
    else if tiState s t = 4 then tiSend s t .stopped
    else tearBegin (abandonQueued (tiSend s t .stopped) t) t

/-- SPDM_SESSION_LOSS: a locked or running TI enters ERROR (R279). -/
def execSpdmSessionLoss (t : Nat) (s : State) : Out := .next (if t < 64 then tiError s t else s)

/-! ### SET_TI_CONFIG (R278) -/

/-- Two byte ranges share a byte. -/
def meets (a b : Nat × Nat) : Bool :=
  decide (a.1 < a.2) && decide (b.1 < b.2) && decide (a.1 < b.2) && decide (b.1 < a.2)

/-- A configuration's four areas, UNDQ = 0 left out: first byte, end, alignment (Table 13.1). -/
def configAreas (c : TiConfig) : List ((Nat × Nat) × Nat) :=
  let area := fun (w : Word) (n al : Nat) => ((w.toNat, w.toNat + n), al)
  [area c.tbase (9 * 2 ^ 20) 0x100000, area c.save (1024 * 0x88000) 0x10000, area c.spill (32 * 2 ^ 20) 0x10000] ++
    (if c.undq = 0 then [] else [area c.undq 0x10000 0x10000])

/-- No two of the areas overlap. -/
def areasApart : List ((Nat × Nat) × Nat) → Bool
  | [] => true
  | a :: as => (as.all fun b => !meets a.1 b.1) && areasApart as

/-- A reserved bit of a configuration is set (Tables 13.1, 13.15, 13.4). -/
def configReserved (c : TiConfig) : Bool :=
  fieldNat c.op 63 14 != 0 || fieldNat c.op 7 0 != 1 ||
    [c.arlo, c.arhi, c.tbase, c.save, c.spill, c.undq].any (fun w => decide (2 ^ 40 ≤ w.toNat)) ||
    fieldNat c.spwin 31 20 != 0 || fieldNat c.spwin 63 52 != 0 || fieldNat c.hostep 63 16 != 0 || fieldNat c.fmask 63 10 != 0

/-- The scratchpad window of a configuration. -/
def configWindow (c : TiConfig) : Nat × Nat := (fieldNat c.spwin 19 0, fieldNat c.spwin 51 32)

/-- What the security monitor answers to a configuration: 0, or the first of its checks that fails (R278). -/
def configError (s : State) (t : Nat) (c : TiConfig) : Nat :=
  let others := (List.range 64).filter (· != t)
  let ar := (c.arlo.toNat, c.arhi.toNat)
  let w := configWindow c
  let areas := configAreas c
  if tiState s t ≠ 0 then 1
  else if configReserved c then 4
  else if c.arlo.toNat % 0x10000 ≠ 0 ∨ c.arhi.toNat % 0x10000 ≠ 0 ∨ (areas.any fun a => a.1.1 % a.2 != 0) = true then 2
  else if ar.2 ≤ ar.1 then 5
  else if (others.any fun u => meets ar (arena s u)) || decide (0x80000 < w.2) ||
      (others.any fun u => meets w (spWindow s u)) ||
      (areas.any fun a => decide (a.1.1 < ar.1) || decide (ar.2 < a.1.2)) || !areasApart areas then 3
  else 0

/-- The fields of a configuration in TENANT[t] (Tables 13.1, 13.15). -/
def configWords (c : TiConfig) : List (Nat × Word) :=
  [(6, c.arlo), (7, c.arhi), (5, c.spwin), (2, c.tbase), (3, c.save), (4, c.spill), (11, c.undq), (9, c.hostep), (8, c.fmask)]

/-- SET_TI_CONFIG: the fields are written where every check passes; the answer's payload word 0 says which did not (R278). -/
def execSetTiConfig (c : TiConfig) (s : State) : Out :=
  let t := fieldNat c.op 13 8
  tiServe s t fun s =>
    let e := configError s t c
    let s1 := if e = 0 then (configWords c).foldl (fun s x => devCtl s (tenantOff t x.1) x.2) s else s
    tiSend s1 t (.vendor (BitVec.ofNat 64 e))

/-! ### KEY_UPDATE (R300, R324) -/

/-- The session of a link (DESIGN CHOICE, log entry 70). -/
def linkSession (port : Nat) : Nat := 1 + port

/-- A rekey of a link that is up and has none in progress begins: the new keys stand in the idle banks, and the acknowledgement
confirms it (R300 step 1). -/
def rekeyBegin (s : State) (port : Nat) : State :=
  let l := linkAt s port
  if (portsOn s).contains port && l.up && l.rekey.isNone then
    setLink (loadLinkKeys s port l.txDir l.rxDir (!l.kgen) (!l.rxKgen)) port { l with rekey := some ⟨false, false⟩ }
  else s

/-- The other end has confirmed: the transmitter goes on under the other KGEN with a counter that starts at 0, and what was
held leaves (R299, R300 step 2). -/
def rekeyTurn (s : State) (port : Nat) : State :=
  let l := linkAt s port
  match l.rekey with
  | some ⟨false, rx⟩ =>
    releaseHeld (setLink (setBank s (txSlot port) l.kgen []) port
      { l with kgen := !l.kgen, txCtr := 0, want := false, rekey := rekeyDone ⟨true, rx⟩ }) port
  | _ => s

/-- The request is the confirmation of a key that both ends have: its operation is VerifyNewKey (PRESUMED, log entry 64). -/
def verifiesKey (m : SpdmMsg) : Bool := m.bytes.getD 2 0 == 3

/-- KEY_UPDATE on the session of a link begins its rekey, or confirms it; on any session it is acknowledged (R300, R324). -/
def execKeyUpdate (m : SpdmMsg) (port : Nat) (s : State) : Out :=
  serve s m (· == 0xE9) fun s =>
    let s := if m.session ≠ linkSession port then s else if verifiesKey m then rekeyTurn s port else rekeyBegin s port
    sendNamed s m.session .keyUpdateAck

end Sys2Proof.Machine
end

