-- ==== Sys2Proof/Machine/VFloat.lean ====
section
/-! DEFINITION. Floating-point vector operations, conversions and reductions (R183 to R195, R437 to R442, R449). -/

namespace Sys2Proof.Machine

/-- The format of an element. -/
def FFmt.fmt : FFmt → Fmt
  | .bf16 => .bf16
  | .f32 => .f32
  | .f64 => .f64

/-- Elements of a format in a vector. -/
def FFmt.elems (y : FFmt) (v : VWord) : List Nat := vecElems (FFmt.fmt y).width (512 / (FFmt.fmt y).width) v

/-- The mask a form selects: m0 or m1 (R437). -/
def fpMask (c : Ctx) (k : Bool) : Word := if k then getM c 1 else getM c 0

/-- Results with their flags, where the mask is 1; an inactive element takes the value given for it and raises no flag
(R433, R438). -/
def fpVec (w : Nat) (m : Word) (rs : List (Nat × FlagSet)) (idle : Nat → Nat) : VWord × FlagSet :=
  (vecPack w (rs.mapIdx fun i r => if bitOf m i then r.1 else idle i),
   FlagSet.union (rs.mapIdx fun i r => if bitOf m i then r.2 else FlagSet.none))

/-- Write a vector and raise flags. -/
def finishFp (s : State) (d : Reg) (r : VWord × FlagSet) : Out :=
  .next (retire s { s.cur with ctx := raiseFlags (setV s.cur.ctx d r.1) r.2 })

/-- A floating-point operation of two sources (R438, R441). -/
def fpOp2 (s : State) (y : FFmt) (k : Bool) (d a b : Reg) (f : Fmt → Nat → Nat → Nat × FlagSet) : Out :=
  gate s ⟨false, [], [], [a, b], [d]⟩ <|
    let rs := (FFmt.elems y (getV s.cur.ctx a)).zipWith (f (FFmt.fmt y)) (FFmt.elems y (getV s.cur.ctx b))
    finishFp s d (fpVec (FFmt.fmt y).width (fpMask s.cur.ctx k) rs fun _ => 0)

/-- `vfadd`. -/
def execVfadd (y : FFmt) (z u k : Bool) (d a b : Reg) (s : State) : Out := fpOp2 s y k d a b fun f x w => fpAdd f z u x w
/-- `vfsub`. -/
def execVfsub (y : FFmt) (z u k : Bool) (d a b : Reg) (s : State) : Out := fpOp2 s y k d a b fun f x w => fpSub f z u x w
/-- `vfmul`. -/
def execVfmul (y : FFmt) (z u k : Bool) (d a b : Reg) (s : State) : Out := fpOp2 s y k d a b fun f x w => fpMul f z u x w
/-- `vfmin`. -/
def execVfmin (y : FFmt) (z u k : Bool) (d a b : Reg) (s : State) : Out :=
  fpOp2 s y k d a b fun f x w => fpMinMax f true z u x w
/-- `vfmax`. -/
def execVfmax (y : FFmt) (z u k : Bool) (d a b : Reg) (s : State) : Out :=
  fpOp2 s y k d a b fun f x w => fpMinMax f false z u x w
/-- `vfdiv`. -/
def execVfdiv (y : FFmt) (z u k : Bool) (d a b : Reg) (s : State) : Out := fpOp2 s y k d a b fun f x w => fpDiv f z u x w

/-- `vfsqrt` (R441). -/
def execVfsqrt (y : FFmt) (z u k : Bool) (d a : Reg) (s : State) : Out :=
  gate s ⟨false, [], [], [a], [d]⟩ <|
    let rs := (FFmt.elems y (getV s.cur.ctx a)).map (fpSqrt (FFmt.fmt y) z u)
    finishFp s d (fpVec (FFmt.fmt y).width (fpMask s.cur.ctx k) rs fun _ => 0)

/-- `vfma`: vd + vs1 × vs2; an inactive element keeps its addend (R442). -/
def execVfma (y : FFmt) (z u k : Bool) (d a b : Reg) (s : State) : Out :=
  gate s ⟨false, [], [], [d, a, b], [d]⟩ <|
    let cs := FFmt.elems y (getV s.cur.ctx d)
    let ps := (FFmt.elems y (getV s.cur.ctx a)).zipWith (fun x w => (x, w)) (FFmt.elems y (getV s.cur.ctx b))
    let rs := cs.zipWith (fun c (p : Nat × Nat) => fpFma (FFmt.fmt y) z u c p.1 p.2) ps
    finishFp s d (fpVec (FFmt.fmt y).width (fpMask s.cur.ctx k) rs fun i => cs.getD i 0)

/-- `vfcmp`: the f bit is ignored (R439). -/
def execVfcmp (c : FCmpOp) (y : FFmt) (z _u k : Bool) (m a b : Reg) (s : State) : Out :=
  gate s ⟨false, [], [], [a, b], []⟩ <|
    let rs := (FFmt.elems y (getV s.cur.ctx a)).zipWith (fpCmp (FFmt.fmt y) c z) (FFmt.elems y (getV s.cur.ctx b))
    let w := fpMask s.cur.ctx k
    let bits := maskOf (rs.mapIdx fun i r => bitOf w i && r.1)
    let fl := FlagSet.union (rs.mapIdx fun i r => if bitOf w i then r.2 else FlagSet.none)
    .next (retire s { s.cur with ctx := raiseFlags (setM s.cur.ctx m bits) fl })

/-! ### Conversions (R191, R192, R440) -/

/-- Results of width `w` in the low lanes, zeros above, with their flags. -/
def cvtLanes (w : Nat) (rs : List (Nat × FlagSet)) : VWord × FlagSet :=
  (vecPack w (rs.map (·.1)), FlagSet.union (rs.map (·.2)))

/-- The element format of a block conversion code. -/
def blockFmt (c : Nat) : ElemFmt := if c < 20 then .e4m3 else if c < 24 then .e5m2 else .e2m1

/-- A block conversion: element codes from byte 0, the scale in byte 63 (Table 07.3). -/
def cvtBlock (c : Nat) (x y : VWord) : VWord × FlagSet :=
  let k := blockFmt c
  let (es, sc, fl) := blockConvert k (roundingOf c) (vecElems 32 16 x ++ vecElems 32 16 y)
  (BitVec.ofNat 512 (vecOf (if k = .e2m1 then 4 else 8) es + sc * 2 ^ 504), fl)

/-- `vfcvt` by code (Table 07.3). -/
def cvt (c : Nat) (x y : VWord) : VWord × FlagSet :=
  let r := roundingOf c
  if c < 4 then cvtLanes 16 ((vecElems 32 16 x).map (fpConvert .f32 .bf16 r))
  else if c < 8 then cvtLanes 32 ((vecElems 64 8 x).map (fpConvert .f64 .f32 r))
  else if c < 12 then cvtLanes 32 ((vecElems 32 16 x).map (fpToInt r))
  else if c < 16 then cvtLanes 32 ((vecElems 32 16 x).map (fpOfInt .f32 r))
  else if c < 28 then cvtBlock c x y
  else if c = 28 then cvtLanes 32 ((vecElems 16 16 x).map (fpConvert .bf16 .f32 .rne))
  else if c = 29 then cvtLanes 64 ((vecElems 32 8 x).map (fpConvert .f32 .f64 .rne))
  else cvtLanes 64 ((vecElems 32 8 x).map (fpOfInt .f64 .rne))

/-- The sources of `vfcvt`: two vectors for the block conversions (R209, R440). -/
def cvtSources (a : Reg) (c : BitVec 5) : List Reg :=
  if decide (16 ≤ c.toNat) && decide (c.toNat ≤ 27) then [a, regPlus a 1] else [a]

/-- `vfcvt` (R440). -/
def execVfcvt (d a : Reg) (c : BitVec 5) (s : State) : Out :=
  gate s ⟨false, [], [], cvtSources a c, [d]⟩ <|
    finishFp s d (cvt c.toNat (getV s.cur.ctx a) (getV s.cur.ctx (regPlus a 1)))

/-! ### Reductions in the fixed tree (R195, R449) -/

/-- One level of the tree: adjacent values are combined, flags gathered. -/
def redLevel (f : Nat → Nat → Nat × FlagSet) : List Nat → List Nat × FlagSet
  | x :: y :: xs =>
    let r := f x y
    let rest := redLevel f xs
    (r.1 :: rest.1, r.2 ||| rest.2)
  | xs => (xs, .none)

/-- `n` levels of the tree. -/
def redTree (f : Nat → Nat → Nat × FlagSet) : Nat → List Nat × FlagSet → List Nat × FlagSet
  | 0, r => r
  | n + 1, r =>
    let l := redLevel f r.1
    redTree f n (l.1, r.2 ||| l.2)

/-- A reduction of lanes to FP32 lane 0. -/
def fpReduce (s : State) (d a : Reg) (n : Nat) (lanes : VWord → List Nat) (f : Nat → Nat → Nat × FlagSet) : Out :=
  gate s ⟨false, [], [], [a], [d]⟩ <|
    let r := redTree f n (lanes (getV s.cur.ctx a), .none)
    finishFp s d (BitVec.ofNat 512 (r.1.headD 0), r.2)

/-- `vfred.add.f32`. -/
def execVfredAddF32 (d a : Reg) (s : State) : Out :=
  fpReduce s d a 4 (vecElems 32 16) fun x y => fpAdd .f32 false false x y
/-- `vfred.add.bf16`: 32 lanes, widened exactly. -/
def execVfredAddBf16 (d a : Reg) (s : State) : Out :=
  fpReduce s d a 5 (fun v => (vecElems 16 32 v).map (· * 2 ^ 16)) fun x y => fpAdd .f32 false false x y
/-- `vfred.max.f32`. -/
def execVfredMaxF32 (d a : Reg) (s : State) : Out :=
  fpReduce s d a 4 (vecElems 32 16) fun x y => fpMinMax .f32 false false false x y
/-- `vfred.min.f32`. -/
def execVfredMinF32 (d a : Reg) (s : State) : Out :=
  fpReduce s d a 4 (vecElems 32 16) fun x y => fpMinMax .f32 true false false x y

end Sys2Proof.Machine
end

