-- ==== Sys2Proof/Machine/Dispatch.lean ====
section
/-! DEFINITION. The meaning of every instruction: one arm per constructor. -/

namespace Sys2Proof.Machine

def exec (i : Instr) (s : State) : Host.Outcome State Fault Refusal :=
  match i with
  | .add d a b => Sys2Proof.Machine.execAdd d a b s
  | .sub d a b => Sys2Proof.Machine.execSub d a b s
  | .addw d a b => Sys2Proof.Machine.execAddw d a b s
  | .subw d a b => Sys2Proof.Machine.execSubw d a b s
  | .addi d a iv => Sys2Proof.Machine.execAddi d a iv s
  | .addiw d a iv => Sys2Proof.Machine.execAddiw d a iv s
  | .and d a b => Sys2Proof.Machine.execAnd d a b s
  | .or d a b => Sys2Proof.Machine.execOr d a b s
  | .xor d a b => Sys2Proof.Machine.execXor d a b s
  | .andi d a iv => Sys2Proof.Machine.execAndi d a iv s
  | .ori d a iv => Sys2Proof.Machine.execOri d a iv s
  | .xori d a iv => Sys2Proof.Machine.execXori d a iv s
  | .slt d a b => Sys2Proof.Machine.execSlt d a b s
  | .sltu d a b => Sys2Proof.Machine.execSltu d a b s
  | .slti d a iv => Sys2Proof.Machine.execSlti d a iv s
  | .sltiu d a iv => Sys2Proof.Machine.execSltiu d a iv s
  | .sll d a b => Sys2Proof.Machine.execSll d a b s
  | .srl d a b => Sys2Proof.Machine.execSrl d a b s
  | .sra d a b => Sys2Proof.Machine.execSra d a b s
  | .sllw d a b => Sys2Proof.Machine.execSllw d a b s
  | .srlw d a b => Sys2Proof.Machine.execSrlw d a b s
  | .sraw d a b => Sys2Proof.Machine.execSraw d a b s
  | .slli d a sv => Sys2Proof.Machine.execSlli d a sv s
  | .srli d a sv => Sys2Proof.Machine.execSrli d a sv s
  | .srai d a sv => Sys2Proof.Machine.execSrai d a sv s
  | .slliw d a sv => Sys2Proof.Machine.execSlliw d a sv s
  | .srliw d a sv => Sys2Proof.Machine.execSrliw d a sv s
  | .sraiw d a sv => Sys2Proof.Machine.execSraiw d a sv s
  | .mul d a b => Sys2Proof.Machine.execMul d a b s
  | .mulh d a b => Sys2Proof.Machine.execMulh d a b s
  | .mulhsu d a b => Sys2Proof.Machine.execMulhsu d a b s
  | .mulhu d a b => Sys2Proof.Machine.execMulhu d a b s
  | .mulw d a b => Sys2Proof.Machine.execMulw d a b s
  | .div d a b => Sys2Proof.Machine.execDiv d a b s
  | .divu d a b => Sys2Proof.Machine.execDivu d a b s
  | .rem d a b => Sys2Proof.Machine.execRem d a b s
  | .remu d a b => Sys2Proof.Machine.execRemu d a b s
  | .divw d a b => Sys2Proof.Machine.execDivw d a b s
  | .divuw d a b => Sys2Proof.Machine.execDivuw d a b s
  | .remw d a b => Sys2Proof.Machine.execRemw d a b s
  | .remuw d a b => Sys2Proof.Machine.execRemuw d a b s
  | .lui d iv => Sys2Proof.Machine.execLui d iv s
  | .auipc d iv => Sys2Proof.Machine.execAuipc d iv s
  | .jal d iv => Sys2Proof.Machine.execJal d iv s
  | .jalr d a iv => Sys2Proof.Machine.execJalr d a iv s
  | .beq a b iv => Sys2Proof.Machine.execBeq a b iv s
  | .bne a b iv => Sys2Proof.Machine.execBne a b iv s
  | .blt a b iv => Sys2Proof.Machine.execBlt a b iv s
  | .bge a b iv => Sys2Proof.Machine.execBge a b iv s
  | .bltu a b iv => Sys2Proof.Machine.execBltu a b iv s
  | .bgeu a b iv => Sys2Proof.Machine.execBgeu a b iv s
  | .lb d a iv => Sys2Proof.Machine.execLb d a iv s
  | .lh d a iv => Sys2Proof.Machine.execLh d a iv s
  | .lw d a iv => Sys2Proof.Machine.execLw d a iv s
  | .ld d a iv => Sys2Proof.Machine.execLd d a iv s
  | .lbu d a iv => Sys2Proof.Machine.execLbu d a iv s
  | .lhu d a iv => Sys2Proof.Machine.execLhu d a iv s
  | .lwu d a iv => Sys2Proof.Machine.execLwu d a iv s
  | .sb a b iv => Sys2Proof.Machine.execSb a b iv s
  | .sh a b iv => Sys2Proof.Machine.execSh a b iv s
  | .sw a b iv => Sys2Proof.Machine.execSw a b iv s
  | .sd a b iv => Sys2Proof.Machine.execSd a b iv s
  | .lx z ss ww x d a p => Sys2Proof.Machine.execLx z ss ww x d a p s
  | .lxQ ss ww x d a p => Sys2Proof.Machine.execLxQ ss ww x d a p s
  | .sx z ss ww x v a p => Sys2Proof.Machine.execSx z ss ww x v a p s
  | .amo z o x d a b => Sys2Proof.Machine.execAmo z o x d a b s
  | .tagr d a => Sys2Proof.Machine.execTagr d a s
  | .tagw a b => Sys2Proof.Machine.execTagw a b s
  | .seal h b l => Sys2Proof.Machine.execSeal h b l s
  | .unseal h => Sys2Proof.Machine.execUnseal h s
  | .fenceC => Sys2Proof.Machine.execFenceC s
  | .fenceD => Sys2Proof.Machine.execFenceD s
  | .fenceP => Sys2Proof.Machine.execFenceP s
  | .fenceS => Sys2Proof.Machine.execFenceS s
  | .cwait n => Sys2Proof.Machine.execCwait n s
  | .dwb b l => Sys2Proof.Machine.execDwb b l s
  | .icinv b l => Sys2Proof.Machine.execIcinv b l s
  | .fbar => Sys2Proof.Machine.execFbar s
  | .bchk a l h => Sys2Proof.Machine.execBchk a l h s
  | .spawn d t e => Sys2Proof.Machine.execSpawn d t e s
  | .spawnOrd d t e => Sys2Proof.Machine.execSpawnOrd d t e s
  | .spawnRow d t e => Sys2Proof.Machine.execSpawnRow d t e s
  | .spawnCl d t e => Sys2Proof.Machine.execSpawnCl d t e s
  | .msg d n g c => Sys2Proof.Machine.execMsg d n g c s
  | .mdone => Sys2Proof.Machine.execMdone s
  | .wset sv c a b => Sys2Proof.Machine.execWset sv c a b s
  | .wait e y d t => Sys2Proof.Machine.execWait e y d t s
  | .tend => Sys2Proof.Machine.execTend s
  | .yield => Sys2Proof.Machine.execYield s
  | .cmt => Sys2Proof.Machine.execCmt s
  | .gsyncRow => Sys2Proof.Machine.execGsyncRow s
  | .gsyncCl => Sys2Proof.Machine.execGsyncCl s
  | .brk => Sys2Proof.Machine.execBrk s
  | .trap n => Sys2Proof.Machine.execTrap n s
  | .getst d n => Sys2Proof.Machine.execGetst d n s
  | .tgctl a b => Sys2Proof.Machine.execTgctl a b s
  | .slp t => Sys2Proof.Machine.execSlp t s
  | .rpt c l sv => Sys2Proof.Machine.execRpt c l sv s
  | .rpart d b => Sys2Proof.Machine.execRpart d b s
  | .rpst d h => Sys2Proof.Machine.execRpst d h s
  | .vadd t m d a b => Sys2Proof.Machine.execVadd t m d a b s
  | .vsub t m d a b => Sys2Proof.Machine.execVsub t m d a b s
  | .vmul t m d a b => Sys2Proof.Machine.execVmul t m d a b s
  | .vmin t m d a b => Sys2Proof.Machine.execVmin t m d a b s
  | .vmax t m d a b => Sys2Proof.Machine.execVmax t m d a b s
  | .vminu t m d a b => Sys2Proof.Machine.execVminu t m d a b s
  | .vmaxu t m d a b => Sys2Proof.Machine.execVmaxu t m d a b s
  | .vand t m d a b => Sys2Proof.Machine.execVand t m d a b s
  | .vor t m d a b => Sys2Proof.Machine.execVor t m d a b s
  | .vxor t m d a b => Sys2Proof.Machine.execVxor t m d a b s
  | .vsll t m d a b => Sys2Proof.Machine.execVsll t m d a b s
  | .vsrl t m d a b => Sys2Proof.Machine.execVsrl t m d a b s
  | .vsra t m d a b => Sys2Proof.Machine.execVsra t m d a b s
  | .vfadd y z u k d a b => Sys2Proof.Machine.execVfadd y z u k d a b s
  | .vfsub y z u k d a b => Sys2Proof.Machine.execVfsub y z u k d a b s
  | .vfmul y z u k d a b => Sys2Proof.Machine.execVfmul y z u k d a b s
  | .vfma y z u k d a b => Sys2Proof.Machine.execVfma y z u k d a b s
  | .vfmin y z u k d a b => Sys2Proof.Machine.execVfmin y z u k d a b s
  | .vfmax y z u k d a b => Sys2Proof.Machine.execVfmax y z u k d a b s
  | .vfdiv y z u k d a b => Sys2Proof.Machine.execVfdiv y z u k d a b s
  | .vfsqrt y z u k d a => Sys2Proof.Machine.execVfsqrt y z u k d a s
  | .vfcmp c y z u k m a b => Sys2Proof.Machine.execVfcmp c y z u k m a b s
  | .vld d a => Sys2Proof.Machine.execVld d a s
  | .vst v a => Sys2Proof.Machine.execVst v a s
  | .vldx d b iv => Sys2Proof.Machine.execVldx d b iv s
  | .vstx v b iv => Sys2Proof.Machine.execVstx v b iv s
  | .vperm d sv iv => Sys2Proof.Machine.execVperm d sv iv s
  | .vbcast d sv w => Sys2Proof.Machine.execVbcast d sv w s
  | .vmvVg d sv n => Sys2Proof.Machine.execVmvVg d sv n s
  | .vmvGv d sv n => Sys2Proof.Machine.execVmvGv d sv n s
  | .vsel d a b => Sys2Proof.Machine.execVsel d a b s
  | .vcmp c t m a b => Sys2Proof.Machine.execVcmp c t m a b s
  | .vred o t d a => Sys2Proof.Machine.execVred o t d a s
  | .vfcvt d a c => Sys2Proof.Machine.execVfcvt d a c s
  | .vfredAddF32 d a => Sys2Proof.Machine.execVfredAddF32 d a s
  | .vfredAddBf16 d a => Sys2Proof.Machine.execVfredAddBf16 d a s
  | .vfredMaxF32 d a => Sys2Proof.Machine.execVfredMaxF32 d a s
  | .vfredMinF32 d a => Sys2Proof.Machine.execVfredMinF32 d a s
  | .mand d a b => Sys2Proof.Machine.execMand d a b s
  | .mor d a b => Sys2Proof.Machine.execMor d a b s
  | .mxor d a b => Sys2Proof.Machine.execMxor d a b s
  | .mnot d a => Sys2Proof.Machine.execMnot d a s
  | .mpop d a => Sys2Proof.Machine.execMpop d a s
  | .mfirst d a => Sys2Proof.Machine.execMfirst d a s
  | .sfckey d a k => Sys2Proof.Machine.execSfckey d a k s
  | .mldA k b iv => Sys2Proof.Machine.execMldA k b iv s
  | .mldB k b sv => Sys2Proof.Machine.execMldB k b sv s
  | .mst t a sv => Sys2Proof.Machine.execMst t a sv s
  | .mzero t => Sys2Proof.Machine.execMzero t s
  | .mma t z u f k => Sys2Proof.Machine.execMma t z u f k s
  | .cpy q r c y n sv e => Sys2Proof.Machine.execCpy q r c y n sv e s
  | .cpst d t => Sys2Proof.Machine.execCpst d t s
  | .laccClr a => Sys2Proof.Machine.execLaccClr a s
  | .laccAdd a b => Sys2Proof.Machine.execLaccAdd a b s
  | .laccAddp d a b => Sys2Proof.Machine.execLaccAddp d a b s
  | .laccMrg a b => Sys2Proof.Machine.execLaccMrg a b s
  | .laccRdF32 d a => Sys2Proof.Machine.execLaccRdF32 d a s
  | .laccRdF64 d a => Sys2Proof.Machine.execLaccRdF64 d a s
  | .nalloc d t => Sys2Proof.Machine.execNalloc d t s
  | .nfree n => Sys2Proof.Machine.execNfree n s
  | .nlink a b => Sys2Proof.Machine.execNlink a b s
  | .npush a b => Sys2Proof.Machine.execNpush a b s
  | .nrd d p => Sys2Proof.Machine.execNrd d p s
  | .nrset k e => Sys2Proof.Machine.execNrset k e s
  | .chunkInstructionLimit => Sys2Proof.Machine.execChunkInstructionLimit s
  | .chunkCommit => Sys2Proof.Machine.execChunkCommit s
  | .serialTokenGrant scope => Sys2Proof.Machine.execSerialTokenGrant scope s
  | .bagReload core => Sys2Proof.Machine.execBagReload core s
  | .dispatch core slot => Sys2Proof.Machine.execDispatch core slot s
  | .bagPop core => Sys2Proof.Machine.execBagPop core s
  | .steal core => Sys2Proof.Machine.execSteal core s
  | .placementLoop cluster occ => Sys2Proof.Machine.execPlacementLoop cluster occ s
  | .gangReserve cluster => Sys2Proof.Machine.execGangReserve cluster s
  | .gangSlotHold cluster => Sys2Proof.Machine.execGangSlotHold cluster s
  | .gsyncPass core slot => Sys2Proof.Machine.execGsyncPass core slot s
  | .waitLatch core slot ws => Sys2Proof.Machine.execWaitLatch core slot ws s
  | .waitReturn core slot => Sys2Proof.Machine.execWaitReturn core slot s
  | .waitTimeout core slot => Sys2Proof.Machine.execWaitTimeout core slot s
  | .slpWake core slot => Sys2Proof.Machine.execSlpWake core slot s
  | .copyComplete core how => Sys2Proof.Machine.execCopyComplete core how s
  | .engineWatchdog eng tenant => Sys2Proof.Machine.execEngineWatchdog eng tenant s
  | .mmaArrayStart row => Sys2Proof.Machine.execMmaArrayStart row s
  | .mmaArrayComplete row => Sys2Proof.Machine.execMmaArrayComplete row s
  | .cribRefill core tenant pool => Sys2Proof.Machine.execCribRefill core tenant pool s
  | .icinvComplete core slot => Sys2Proof.Machine.execIcinvComplete core slot s
  | .icacheFill => Sys2Proof.Machine.execIcacheFill s
  | .scrubClearComplete granule => Sys2Proof.Machine.execScrubClearComplete granule s
  | .storeAck core tenant cls => Sys2Proof.Machine.execStoreAck core tenant cls s
  | .launchCompletion ti number => Sys2Proof.Machine.execLaunchCompletion ti number s
  | .messageArrival m => Sys2Proof.Machine.execMessageArrival m s
  | .messageResend src dst => Sys2Proof.Machine.execMessageResend src dst s
  | .repartitionComplete seq => Sys2Proof.Machine.execRepartitionComplete seq s
  | .gleaner f => Sys2Proof.Machine.execGleaner f s
  | .preemptRequest t src => Sys2Proof.Machine.execPreemptRequest t src s
  | .preemptRelease t src => Sys2Proof.Machine.execPreemptRelease t src s
  | .preemptHaltComplete t src => Sys2Proof.Machine.execPreemptHaltComplete t src s
  | .hmapWrite core slot n hi v => Sys2Proof.Machine.execHmapWrite core slot n hi v s
  | .unscrubbedMark core slot granule => Sys2Proof.Machine.execUnscrubbedMark core slot granule s
  | .weight t v => Sys2Proof.Machine.execWeight t v s
  | .controlSpaceWrite core slot off v => Sys2Proof.Machine.execControlSpaceWrite core slot off v s
  | .load f => Sys2Proof.Machine.execLoad f s
  | .store f => Sys2Proof.Machine.execStore f s
  | .atomic f => Sys2Proof.Machine.execAtomic f s
  | .tagRead f => Sys2Proof.Machine.execTagRead f s
  | .tagWrite f => Sys2Proof.Machine.execTagWrite f s
  | .launch f => Sys2Proof.Machine.execLaunch f s
  | .admission => Sys2Proof.Machine.execAdmission s
  | .cancel f => Sys2Proof.Machine.execCancel f s
  | .reply f => Sys2Proof.Machine.execReply f s
  | .nackWaitRetry core reqid => Sys2Proof.Machine.execNackWaitRetry core reqid s
  | .replyTimeout core reqid => Sys2Proof.Machine.execReplyTimeout core reqid s
  | .incarnationAnnouncement f => Sys2Proof.Machine.execIncarnationAnnouncement f s
  | .incarnationFence f => Sys2Proof.Machine.execIncarnationFence f s
  | .rekeyRequest port => Sys2Proof.Machine.execRekeyRequest port s
  | .getVersion m => Sys2Proof.Machine.execGetVersion m s
  | .getCapabilities m => Sys2Proof.Machine.execGetCapabilities m s
  | .negotiateAlgorithms m => Sys2Proof.Machine.execNegotiateAlgorithms m s
  | .getDigests m => Sys2Proof.Machine.execGetDigests m s
  | .getCertificate m => Sys2Proof.Machine.execGetCertificate m s
  | .challenge m => Sys2Proof.Machine.execChallenge m s
  | .getMeasurements m => Sys2Proof.Machine.execGetMeasurements m s
  | .keyExchange m => Sys2Proof.Machine.execKeyExchange m s
  | .finish m => Sys2Proof.Machine.execFinish m s
  | .keyUpdate m port => Sys2Proof.Machine.execKeyUpdate m port s
  | .heartbeat m => Sys2Proof.Machine.execHeartbeat m s
  | .endSession m => Sys2Proof.Machine.execEndSession m s
  | .spdmUnsupportedRequest m => Sys2Proof.Machine.execSpdmUnsupportedRequest m s
  | .getTdispVersion t => Sys2Proof.Machine.execGetTdispVersion t s
  | .getTdispCapabilities t => Sys2Proof.Machine.execGetTdispCapabilities t s
  | .lockInterfaceRequest t => Sys2Proof.Machine.execLockInterfaceRequest t s
  | .getDeviceInterfaceReport t => Sys2Proof.Machine.execGetDeviceInterfaceReport t s
  | .getDeviceInterfaceState t => Sys2Proof.Machine.execGetDeviceInterfaceState t s
  | .startInterfaceRequest t => Sys2Proof.Machine.execStartInterfaceRequest t s
  | .stopInterfaceRequest t => Sys2Proof.Machine.execStopInterfaceRequest t s
  | .tdispUnsupportedRequest t => Sys2Proof.Machine.execTdispUnsupportedRequest t s
  | .setTiConfig c => Sys2Proof.Machine.execSetTiConfig c s
  | .compactTimeout => Sys2Proof.Machine.execCompactTimeout s
  | .cryptoSha384 => Sys2Proof.Machine.execCryptoSha384 s
  | .cryptoEcdsaVerify => Sys2Proof.Machine.execCryptoEcdsaVerify s
  | .cryptoEcdsaSign slot => Sys2Proof.Machine.execCryptoEcdsaSign slot s
  | .cryptoExtend index => Sys2Proof.Machine.execCryptoExtend index s
  | .cryptoAesGcm slot => Sys2Proof.Machine.execCryptoAesGcm slot s
  | .cryptoAesXts slot => Sys2Proof.Machine.execCryptoAesXts slot s
  | .cryptoRandom => Sys2Proof.Machine.execCryptoRandom s
  | .cryptoInvalidOp op => Sys2Proof.Machine.execCryptoInvalidOp op s
  | .cryptoCommandDone => Sys2Proof.Machine.execCryptoCommandDone s
  | .txctl v => Sys2Proof.Machine.execTxctl v s
  | .mailboxRequestArrival bytes => Sys2Proof.Machine.execMailboxRequestArrival bytes s
  | .mctpMessage ty bytes => Sys2Proof.Machine.execMctpMessage ty bytes s
  | .powerOnReset => Sys2Proof.Machine.execPowerOnReset s
  | .droopClockStretch cluster => Sys2Proof.Machine.execDroopClockStretch cluster s
  | .junctionStretch => Sys2Proof.Machine.execJunctionStretch s
  | .junctionShutdown => Sys2Proof.Machine.execJunctionShutdown s
  | .siloFlush => Sys2Proof.Machine.execSiloFlush s
  | .illegalEncoding => Sys2Proof.Machine.execIllegalEncoding s
  | .serviceWindowRefusal => Sys2Proof.Machine.execServiceWindowRefusal s
  | .managementCoreAccessFault addr => Sys2Proof.Machine.execManagementCoreAccessFault addr s
  | .uncorrectableMemoryError addr => Sys2Proof.Machine.execUncorrectableMemoryError addr s
  | .powerLoss => Sys2Proof.Machine.execPowerLoss s
  | .orderlyShutdown => Sys2Proof.Machine.execOrderlyShutdown s
  | .linkBringUp port txDir rxDir => Sys2Proof.Machine.execLinkBringUp port txDir rxDir s
  | .spdmSessionLoss t => Sys2Proof.Machine.execSpdmSessionLoss t s

end Sys2Proof.Machine
end

