-- ==== Sys2Proof/Machine/Issue.lean ====
section
/-! DEFINITION. How a core chooses a slot and issues from it (R99 to R101), and the turns that are no instruction: a value in
flight arrives, a signature reports a false conflict, an L1 drops a copy. -/

namespace Sys2Proof.Machine

/-! ### One issue -/

/-- The deferred cause taken at a chunk boundary: the lowest code, in order of arrival (R207). -/
def lowestDeferred (ds : List Deferred) : Option Deferred :=
  match ds with
  | [] => none
  | d :: ds => some (ds.foldl (fun b x => if x.cause < b.cause then x else b) d)

/-- Take a deferred cause at a chunk boundary (R207). -/
def takeDeferred (s : State) (d : Deferred) : State :=
  takeTrap (modCur s fun t => { t with deferred := t.deferred.erase d }) d.cause 0 d.detail false true

/-- A resumed task's pc lies outside every image it may fetch (R216). -/
def pcOutside (s : State) (t : Task) : Bool :=
  match fillCause s { t with imgd := none } with
  | none => false
  | some c => c != 0x0C

/-- What a task does when it issues. -/
inductive Next where
  /-- A commit that is due. -/
  | commit
  /-- It waits: for a commit token (R115), or for the home-map entry of its pc (R135). -/
  | waits
  /-- A resumed task whose pc lies outside its images (R216). -/
  | badPc
  /-- A deferred cause at a chunk boundary (R207). -/
  | deferred (d : Deferred)
  /-- 512 instructions have executed (R110). -/
  | limit
  | fill
  | illegal
  /-- `wn_retrans` of the trusted runtime's image (R287). -/
  | retrans
  /-- Its next instruction; `engine`: a vector instruction or an engine command (R10). -/
  | run (i : Instr) (engine : Bool)
  deriving DecidableEq, Repr

/-- A vector instruction or an engine command: VEC or XE (R10, R60). -/
def engineWord (w : BitVec 32) : Bool := fieldNat (w.zeroExtend 64) 6 0 == 0x5B || fieldNat (w.zeroExtend 64) 6 0 == 0x7B

/-- What a task issues next (R99, R110, R115, R207, R216). -/
def nextOf (s : State) (t : Task) : Next :=
  if t.chunk.due then .commit
  else if awaitsToken s t || (t.resumed && regionBusy s (localOf t.ctx.pc)) then .waits
  else if t.resumed && pcOutside s t then .badPc
  else
    match (if t.chunk.fresh && !t.ctx.trapMode && t.hold.isNone then lowestDeferred t.deferred else none) with
    | some d => .deferred d
    | none =>
      if 512 ≤ t.chunk.instrs then .limit
      else
        match (if t.imgd.isSome then none else fetchWord s t) with
        | none => .fill
        | some w =>
          if t.trusted && s.conf.retrans == some t.ctx.pc then .retrans
          else
            match issueWord t w with
            | none => .illegal
            | some i => .run i (engineWord w)

/-- The task has issued since it was resumed. -/
def settled (s : State) : State := if s.cur.resumed then modCur s fun t => { t with resumed := false } else s

/-- The executing task issues. -/
def issueCur (s : State) : Out :=
  match nextOf s s.cur with
  | .commit => exec .chunkCommit s
  | .waits => .next s
  | .badPc => trap (settled s) 0x08 s.cur.ctx.pc
  | .deferred d => .next (takeDeferred (settled s) d)
  | .limit => exec .chunkInstructionLimit s
  | .fill => exec .icacheFill (settled s)
  | .illegal => exec .illegalEncoding (settled s)
  | .retrans => wnRetrans (settled s)
  | .run i _ => exec i (settled s)

/-- The issue port it takes: none for a step that is no instruction, else whether it is the vector and engine port (R10). -/
def Next.port : Next → Option Bool
  | .run _ e => some e
  | .illegal => some false
  | _ => none

/-! ### The choice of a slot (R99, R100) -/

/-- A held slot can go on: its home has answered, or the store it waits for has been performed (R105, R139, R457). -/
def holdReady (s : State) (t : Task) : Bool :=
  match t.hold with
  | none => true
  | some (.answer _ _ _) => true
  | some (.performed k) => (countersOf s t.core t.tenant).out k == 0 && (k != .no || !ownStoreWaits s t.key)
  | some .writeback => true
  | some .room => true
  | some _ => false

/-- The registers of the next instruction let it issue: none is empty, or an empty one raises cause 0x05 (R72, R99). -/
def regsReady (s : State) (t : Task) : Bool :=
  match (fetchWord s t).bind (issueWord t) with
  | none => true
  | some i => readiness t (instrNeeds i) != .stall

/-- The deficit counter of a tenant on a core (R100, R101). -/
def deficitOf (s : State) (core tenant : Nat) : Int := Tab.get s.sched.deficit (coreTenant core tenant) 0

/-- `t` is chosen before `u`: its tenant has the larger deficit, then the lower number, then the slot first dispatched
(R100). -/
def chosenBefore (s : State) (t u : Task) : Bool :=
  let a := deficitOf s t.core t.tenant
  let b := deficitOf s u.core u.tenant
  decide (b < a) || (decide (a = b) &&
    (decide (t.tenant < u.tenant) || (t.tenant == u.tenant && decide (t.dispatched < u.dispatched))))

/-- Insert by the order of choice. -/
def insertChoice (s : State) (t : Task) : List Task → List Task
  | [] => [t]
  | u :: us => if chosenBefore s t u then t :: u :: us else u :: insertChoice s t us

/-- The ready slots of a core in the order of choice; a task that is being halted issues nothing (R214). -/
def candidates (s : State) (core : Nat) : List Task :=
  ((residents s core).filter fun t => holdReady s t && regsReady s t && !halts s t).foldl (fun l t => insertChoice s t l) []

/-- Tenants with a resident slot on a core. -/
def residentTenants (s : State) (core : Nat) : List Nat :=
  (residents s core).foldl (fun l t => if l.contains t.tenant then l else t.tenant :: l) []

/-- TENANT[t].WEIGHT (R100). -/
def weightOf (s : State) (t : Nat) : Nat := fieldNat (tenantWord s t 1) 7 0

/-- A counter keeps within -8 and +8, in units of 2^-16 (R100). -/
def clampDeficit (d : Int) : Int := max (-(8 * 65536)) (min (8 * 65536) d)

/-- A tenant's deficit counter after a change (R100). -/
def setDeficit (d : Tab Int) (core t : Nat) (v : Int) : Tab Int := Tab.set d (coreTenant core t) (clampDeficit v)

/-- The tenant of an issue is charged 1, where it still has a resident slot on the core (R100, R101). -/
def chargeOne (s : State) (core tenant : Nat) : State :=
  if (residentTenants s core).contains tenant then
    { s with sched := { s.sched with deficit := setDeficit s.sched.deficit core tenant (deficitOf s core tenant - 65536) } }
  else s

/-- Charge a cycle's issue: the chosen tenant's deficit falls by 1, then every resident tenant's rises by its share (R100). -/
def charge (s : State) (core tenant : Nat) : State :=
  let ts := residentTenants s core
  let sum := (ts.map (weightOf s)).sum
  let s := chargeOne s core tenant
  { s with sched := { s.sched with deficit := ts.foldl (fun d t =>
      setDeficit d core t (Tab.get d (coreTenant core t) 0 + ((weightOf s t * 65536 / sum : Nat) : Int))) s.sched.deficit } }

/-- What an instruction that is not stalled changes of its task. -/
def progressed (a b : Task) : Bool :=
  a.key != b.key || a.status != b.status || a.imgd != b.imgd || a.ctx.pc != b.ctx.pc || a.ctx.rep != b.ctx.rep ||
    a.ctx.mstRow != b.ctx.mstRow || a.hold != b.hold || a.deferred.length != b.deferred.length ||
    a.chunk.instrs != b.chunk.instrs || a.chunk.aborts != b.chunk.aborts || a.chunk.log.length != b.chunk.log.length ||
    a.chunk.rlines.length != b.chunk.rlines.length || a.chunk.wlines.length != b.chunk.wlines.length ||
    a.ctx.trapMode != b.ctx.trapMode || a.inline.isSome != b.inline.isSome || a.chunk.due != b.chunk.due ||
    a.chunk.want != b.chunk.want || a.chunk.limited != b.chunk.limited ||
    a.chunk.stepwise != b.chunk.stepwise || a.resumed != b.resumed

/-- The store that the issuing slot waited for has been performed: its hold ends (R139). -/
def dropPerformed (s : State) : State :=
  match s.cur.hold with
  | some (.performed _) => modCur s fun t => { t with hold := none }
  | _ => s

/-! ### The two issue ports (R10, R99, R100) -/

/-- What the core has issued in the running cycle; at its first issue, its ready slots in the order of choice. -/
def portsNow (s : State) (core : Nat) : Ports :=
  match s.sched.ports.find? fun e => e.1 == core && e.2.time == s.time with
  | some e => e.2
  | none => ⟨s.time, (candidates s core).map fun t => t.key, false, false, none⟩

/-- The port that an issue takes has been used in the cycle. -/
def Ports.taken (p : Ports) : Option Bool → Bool
  | none => false
  | some e => if e then p.engine else p.scalar

/-- The port is used; the first of the cycle's tasks is the chosen one. -/
def Ports.use (p : Ports) (key : Nat) (e : Bool) : Ports :=
  { p with scalar := p.scalar || !e, engine := p.engine || e, chosen := some (p.chosen.getD key) }

/-- The slots that may issue: those ready at the cycle's first issue that are ready now, the chosen one first, then in the order
of choice (R99). -/
def portOrder (s : State) (core : Nat) (p : Ports) : List Task :=
  let ks := match p.chosen with
    | none => p.order
    | some k => k :: p.order.filter (· != k)
  ks.filterMap fun k => (candidates s core).find? fun t => t.key == k

/-- A task of the core has issued: its port is used. The cycle's first issue is charged in full, and that of the second port 1, the
chosen slot's own as well (R99, R100; DEDUCED, log entry 61). -/
def issued (s : State) (core : Nat) (t : Task) (p : Ports) (port : Option Bool) : State :=
  match port with
  | none => s
  | some e =>
    let s := if p.chosen = none then charge s core t.tenant else chargeOne s core t.tenant
    onTask { s with sched := { s.sched with ports := Tab.set s.sched.ports core (p.use t.key e) } } t.key fun s =>
      modCur s fun t => { t with since := s.time }

/-- Issue from the first slot in the order of choice whose resources and port are free (R99); a slot that would stall, or whose
line is only being filled, takes no port and is charged nothing. A slot stalls too while what its step changes stands in the
signatures of another chunk in serial mode (R115; DEDUCED, log entry 60). -/
def issueFrom (s : State) (core : Nat) (p : Ports) : List Task → Out
  | [] => .next s
  | t :: ts =>
    let s0 := dropPerformed (focus s t.key)
    let port := (nextOf s0 s0.cur).port
    if p.taken port then issueFrom s core p ts
    else
      match issueCur s0 with
      | .next s' =>
        if serialKept t.key s0 s' &&
            (progressed s0.cur s'.cur || s'.eng.arrays != s0.eng.arrays || s'.eng.icache != s0.eng.icache) then
          .next (issued s' core t p port)
        else issueFrom s core p ts
      | .fault f => .fault f
      | .refused r => .refused r

/-- A core issues. The compute dies leave reset at boot stage 3 (R321). -/
def issue (s : State) (core : Nat) : Out :=
  if 3 ≤ s.mgmt.stage then issueFrom s core (portsNow s core) (portOrder s core (portsNow s core)) else .next s

/-! ### Turns of other kinds -/

/-- The oldest value in flight to a task arrives, its register full again; one issued by an earlier chunk survives an abort
(R71, R114). Values in flight to one task arrive first in, first out: R71 names no order (DESIGN CHOICE, log entry 59). -/
def arriveCur (s : State) : State :=
  match s.cur.inflight with
  | [] => s
  | f :: fs =>
    modCur s fun t =>
      { t with ctx := tagDest (writeDest t.ctx f.dest f.val) f.dest true
               chunk := if f.old then
                   { t.chunk with start := tagDest (writeDest t.chunk.start f.dest f.val) f.dest true }
                 else t.chunk
               inflight := fs
               since := s.time }

/-- A value arrives at the task of a slot. -/
def arrive (s : State) (core slot : Nat) : State :=
  match taskAt s core slot with
  | none => s
  | some t => onTask s t.key arriveCur

/-- A signature reports an intersection that does not exist: the chunk of a slot aborts if another running chunk beats it, or
if the intersection is with a write made in the cycle outside any chunk, whatever the chunk's age (R113). -/
def falseConflict (s : State) (core slot : Nat) : State :=
  match taskAt s core slot with
  | none => s
  | some t =>
    if !runsSerial s t && !t.chunk.fresh &&
        (s.sched.order.job == some s.time ||
          (allTasks s).any fun u => u.key != t.key && u.slot?.isSome && !u.chunk.fresh && wins s u t) then
      onTask s t.key abortChunk
    else s

/-- An L1 drops its oldest copy of another package's bytes (R160). -/
def evict (s : State) (core : Nat) : State :=
  match s.eng.farCopies.find? fun f => f.core == core with
  | none => s
  | some f => { s with eng := { s.eng with farCopies := s.eng.farCopies.erase f } }

/-- An instruction cache drops its copies of a line (R164). -/
def icEvict (s : State) (core line : Nat) : State :=
  { s with eng := { s.eng with icache := s.eng.icache.filter fun l => !(l.core == core && l.line == line) } }

/-- The turn to come: the agenda's first, or one cycle and an issue by the core that issued last (DESIGN CHOICE, log entry
1). -/
def nextTurn (s : State) : Turn :=
  match s.agenda with
  | [] => ⟨1, .issue s.cur.core false⟩
  | t :: _ => t

/-- The turn begins: its cycles pass, and the run queues hold their entries in each of them (R94). -/
def beginTurn (s : State) (t : Turn) : State :=
  { s with agenda := s.agenda.tail, time := s.time + t.cycles
           sched := { s.sched with occ := occupy s t.cycles }
           late := match t.actor with
             | .issue _ l => l
             | _ => false }

/-- Steps that a slot takes when it issues; no turn of their own runs them. -/
def slotStep (i : Instr) : Bool :=
  i == .chunkInstructionLimit || i == .chunkCommit || i == .icacheFill || i == .illegalEncoding

/-- A module without power takes no turn but the one that brings it back (R321, R327, R329). -/
def takesTurn (s : State) (a : Actor) : Bool := s.power || a == .unit .powerOnReset

/-- The waiters are examined after a unit's step, whatever it changed (R158). -/
def examined (o : Out) : Out :=
  match o with
  | .next s => .next (settle s)
  | .fault f => .fault f
  | .refused r => .refused r

/-- A unit's step; it is put off while a chunk in serial mode has a line in its signatures that the step would change (R115;
DEDUCED, log entry 60). -/
def unitTurn (s : State) (i : Instr) : Out := kept s (examined (exec i s))

/-- What the turn does. -/
def runTurn (s : State) (a : Actor) : Out :=
  match a with
  | .reseal t => kept s (.next (settle (reseal s t)))
  | .boot => kept s (.next (settle (bootNext s)))
  | .disable u => .next (disableUnit s u)
  | .count n => .next (countEvent s n)
  | .moveTask t core image entry args => kept s (.next (settle (startMove s t core image entry args)))
  | .unit i => if i.hasWord || slotStep i then .next s else unitTurn s i
  | .issue core _ => issue s core
  | .msgWord core => .next (msgWord s core)
  | .mgmtFlit f => kept s (.next (settle (observe (mgmtArrives s f))))
  | .msgSplit src dst n => .next (msgSplit s src dst n)
  | .writeBack core tenant start => .next (writeBack s core tenant start)
  | .arrive core slot => .next (arrive s core slot)
  | .falseConflict core slot => .next (falseConflict s core slot)
  | .mgmtCore => kept s (.next (settle (mgmtStep s)))
  | .glean seq => kept s (.next (settle (repartStep s seq)))
  | .evict core => .next (evict s core)
  | .icEvict core line => .next (icEvict s core line)

/-! ### Placing an instruction where the next step fetches (the host's probe) -/

/-- A task that runs trusted native code in slot 0 of core 0, as the probe needs one (DESIGN CHOICE, log entry 10). -/
def probeTask (s : State) : Task :=
  let c := { Ctx.initial with pc := globalOf s 0 }
  { Task.vacant 0 with
    key := s.nextKey
    status := .resident 0
    started := true
    trusted := true
    ctx := c
    chunk := Chunk.begin c s.time true }

/-- Bytes placed at the executing task's pc, in memory and in its core's instruction cache, with the machine past boot and
the core to issue next. -/
def placeWord (s : State) (bs : List Byte) : State :=
  let t := if s.cur.slot?.isSome then s.cur else probeTask s
  let a := localOf t.ctx.pc
  let m := s.mem.writeBytes a bs
  let l : ICLine := ⟨t.core, a / 64, t.handle, lineWords m (a / 64)⟩
  { s with cur := { t with hold := none, deferred := [], chunk := Chunk.begin t.ctx s.time t.chunk.first }
           mem := m
           nextKey := s.nextKey + 1
           agenda := []
           mgmt := { s.mgmt with stage := 4 }
           eng := { s.eng with icache := l :: s.eng.icache } }

end Sys2Proof.Machine
end

