-- ==== Sys2Proof/Machine/Step.lean ====
section
/-! DEFINITION. One step of the machine: the next turn of the agenda. -/

namespace Sys2Proof.Machine

/-- One step: the turn to come begins and its unit or core acts. A module without power takes none but its
power-on (R321, R327, R329). -/
def step (s : State) : Host.Outcome State Fault Refusal :=
  if takesTurn s (nextTurn s).actor then runTurn (beginTurn s (nextTurn s)) (nextTurn s).actor else .fault .noPower

/-- The state whose next step fetches and runs the instruction of a table word. -/
def State.withFetchWord (s : State) (nbits w : Nat) : State := placeWord s (tableBytes nbits w)

end Sys2Proof.Machine
end

