-- ==== Sys2Proof/Safety.lean ====
section
/-! DEFINITION. What counts as a safe run, and the conditions and frames in which the claims are stated. -/

namespace Sys2Proof.Machine

/-! ### Runs -/

/-- The machine goes on: its step answers a next state. -/
def Runs (s : State) : Prop := ∃ t, step s = .next t

/-- What holds of every state the machine reaches in one step from a state of which it holds. -/
def Invariant (inv : State → Prop) : Prop := ∀ s t, inv s → step s = .next t → inv t

/-! ### Operands (R69, R70, R72) -/

/-- The value of an instruction's first source, and the task once it is read. -/
def arg1 (s : State) (a : Reg) : Word := (takeG s.cur a).1
def read1 (s : State) (a : Reg) : Task := (takeG s.cur a).2
/-- The value of its second source, and the task once both are read. -/
def arg2 (s : State) (a b : Reg) : Word := (takeG (read1 s a) b).1
def read2 (s : State) (a b : Reg) : Task := (takeG (read1 s a) b).2
/-- The value of its third source, and the task once all three are read. -/
def arg3 (s : State) (a b c : Reg) : Word := (takeG (read2 s a b) c).1
def read3 (s : State) (a b c : Reg) : Task := (takeG (read2 s a b) c).2

/-- The general registers an instruction names let it issue. -/
abbrev Ready (s : State) (gs gd : List Reg) : Prop := readiness s.cur (.g gs gd) = .ready

/-- The registers of an instruction that also names vector registers let it issue. -/
abbrev ReadyV (s : State) (gs gd vs vd : List Reg) : Prop := readiness s.cur ⟨false, gs, gd, vs, vd⟩ = .ready

/-- The chunk has just begun and not in serial mode, the commit baton is held and no access holds the slot: an irrevocable
operation can be performed at once (R111, R115, R118). -/
abbrev Alone (s : State) : Prop :=
  s.cur.chunk.fresh = true ∧ s.cur.chunk.serial = false ∧ hasBaton s = true ∧ s.cur.hold = none

/-- The machine after an instruction that ends inside its chunk with the value `v` written to G[d]; `t` is the task once
the sources are read. -/
def wrote (s : State) (t : Task) (d : Reg) (v : Word) : State := retire s { t with ctx := setG t.ctx d v }

/-- The same with V[d]. -/
def wroteV (s : State) (t : Task) (d : Reg) (v : VWord) : State := retire s { t with ctx := setV t.ctx d v }

/-- The same with M[d]. -/
def wroteM (s : State) (t : Task) (d : Reg) (v : Word) : State := retire s { t with ctx := setM t.ctx d v }

/-! ### Vectors (R433, R438) -/

/-- Element `i` of width `w` of a vector register: bits [w i + w - 1 : w i]. -/
def el (w : Nat) (v : VWord) (i : Nat) : BitVec w := v.extractLsb' (w * i) w

/-- A bit of a mask register; m0 is all ones. -/
def mBit (s : State) (m : BitVec 3) (i : Nat) : Bool :=
  if m = 0 then true else (s.cur.ctx.m[m.toNat]'(m.isLt)).getLsbD i

/-- The sticky flags are those before and those of the results of the active elements among the first `n`. -/
def FlagsFrom (s t : State) (n : Nat) (act : Nat → Bool) (fl : Nat → FlagSet) : Prop :=
  ∀ j : Nat, t.cur.ctx.flags.getLsbD j = true ↔
    s.cur.ctx.flags.getLsbD j = true ∨ ∃ i, i < n ∧ act i = true ∧ (fl i).getLsbD j = true

/-! ### Changes of control space (R458) -/

/-- No running chunk has entered the line of a control-space word, so that a change of it aborts none. -/
abbrev Unseen (s : State) (off : Nat) : Prop :=
  ∀ u ∈ allTasks s, (0x2100000000 + off) / 64 ∉ u.chunk.rlines ++ u.chunk.wlines

/-- Of the executing task at most what its wait slots have observed changes. -/
abbrev OnlySlots (s t : State) : Prop := t.cur = { s.cur with waits := t.cur.waits, inline := t.cur.inline }

/-! ### Accesses (R126, R131, R136) -/

/-- A package-local access of a slot that no access holds passes the checks of Table 05.2, its region is not being
rewritten, and its lines enter the signatures, which leaves the machine at `u` (R110, R112, R113). -/
def InChunk (s u : State) (a : Word) (acc : Access) (rs ws : List Nat) : Prop :=
  s.cur.hold = none ∧ isLocal s a = true ∧ checkAccess s s.cur.tenant s.cur.trusted a acc = none ∧
  regionBusy s (localOf a) = false ∧ touch s rs ws = .entered u

/-- An access that stands alone passes the same checks. -/
abbrev AtHome (s : State) (a : Word) (acc : Access) : Prop :=
  Alone s ∧ isLocal s a = true ∧ checkAccess s s.cur.tenant s.cur.trusted a acc = none ∧ regionBusy s (localOf a) = false

/-- An access to another package that stands alone passes the checks the issuing core makes. -/
abbrev AtOther (s : State) (a : Word) (acc : Access) : Prop :=
  Alone s ∧ isLocal s a = false ∧ checkAccess s s.cur.tenant s.cur.trusted a acc = none

/-- The wait class an `lx` or `sx` names has nothing outstanding and no failure (R141); a store that waits in the core's own
slice is outstanding in class near (R424). -/
abbrev ClassDone (s : State) (w : WaitClass) : Prop :=
  w = .no ∨ (countersOf s s.cur.core s.cur.tenant).out w = 0 ∧ (countersOf s s.cur.core s.cur.tenant).fails w = 0 ∧
    (w = .near → sliceStoreWaits s s.cur.core s.cur.tenant = false)

/-- The order a policy asks for is met: it is no release, or every earlier access of the slot has been performed (R139). -/
abbrev OrderMet (s : State) (ord : Nat) : Prop := ord < 2 ∨ allPerformed s = true

/-- The home may perform an access of task `k` (0 for a posted store): no other task's serial chunk holds its line, and
nothing it reads is poisoned (R115, R165). -/
abbrev HomeFree (s : State) (k : Nat) (a : Word) (n : Nat) : Prop :=
  serialHolds s k (accessLines s (localOf a) n) = false ∧ accessPoison s (localOf a) n = false

/-- The lines a load enters: none where the region is sealed (R112). -/
def loadLines (s : State) (a : Word) (n : Nat) : List Nat :=
  if regionSealed s (localOf a) then [] else accessLines s (localOf a) n

/-- The machine once a load inside the chunk has reached its lines: the first access to a granule starts its clear (R143). -/
def loadReached (u : State) (a : Word) (n : Nat) : State := reach u (accessLines u (localOf a) n)

/-- The `n` bytes a load inside the chunk sees: memory, window or control space under the chunk's own stores (R131). -/
def seenBytes (s : State) (a : Word) (n : Nat) : List Byte := placeRead s (chunkBytes s) (chunkCtl s) (localOf a) n

/-- A value reaches G[d] at once, or where it is late is in flight with the register's tag empty (R71). -/
def arrivedAt (late : Bool) (u : State) (t : Task) (d : Reg) (v : Word) : State :=
  if late = true ∧ d ≠ 0 ∧ d ≠ 28 then
    retire u { t with ctx := tagDest t.ctx (.g d) false, inflight := t.inflight ++ [⟨.g d, v.zeroExtend 512, false⟩] }
  else wrote u t d v

/-- The value of a load, which the turn may make late. -/
abbrev arrived (u : State) (t : Task) (d : Reg) (v : Word) : State := arrivedAt u.late u t d v

/-! ### Frames -/

/-- Nothing of the machine changes but the executing task, so that every byte of memory reads as before. -/
def OnlyTask (s t : State) : Prop := t = { s with cur := t.cur } ∧ ∀ a, t.mem.read a = s.mem.read a

/-- Of the executing task nothing changes but its registers and its count of instructions; among its registers, the pc and
the repetition state move on, the message position by the reads of g28, and otherwise only the files named change. -/
def OnlyFiles (s t : State) (pops : Nat) (files : Ctx → Ctx → Ctx) : Prop :=
  t.cur = { s.cur with ctx := t.cur.ctx, chunk := { s.cur.chunk with instrs := s.cur.chunk.instrs + 1 } } ∧
  t.cur.ctx = files { s.cur.ctx with pc := t.cur.ctx.pc, rep := t.cur.ctx.rep, msgPos := s.cur.ctx.msgPos + pops } t.cur.ctx

/-- The frame of an instruction that writes G[d]: every other general register reads as before, g0 and g28 keep the file as
it was, and only g29 changes the send queue. -/
def FrameG (s t : State) (d : Reg) (srcs : List Reg) : Prop :=
  OnlyTask s t ∧
  OnlyFiles s t (srcs.filter fun r => r == 28).length (fun c c' => { c with g := c'.g, sendq := c'.sendq }) ∧
  (∀ r, r ≠ d → getG t.cur.ctx r = getG s.cur.ctx r) ∧
  (d = 0 ∨ d = 28 ∨ d = 29 → t.cur.ctx.g = s.cur.ctx.g) ∧
  (d ≠ 29 → t.cur.ctx.sendq = s.cur.ctx.sendq)

/-- The frame of an instruction that writes V[d] and may raise sticky flags. -/
def FrameV (s t : State) (d : Reg) : Prop :=
  OnlyTask s t ∧ OnlyFiles s t 0 (fun c c' => { c with v := c'.v, flags := c'.flags }) ∧
  (∀ r, r ≠ d → getV t.cur.ctx r = getV s.cur.ctx r)

/-- The frame of an instruction that writes M[d]: a mask register is named by the low three bits of a register field. -/
def FrameM (s t : State) (d : Reg) : Prop :=
  OnlyTask s t ∧ OnlyFiles s t 0 (fun c c' => { c with m := c'.m }) ∧
  (∀ r, r.toNat % 8 ≠ d.toNat % 8 → getM t.cur.ctx r = getM s.cur.ctx r)

end Sys2Proof.Machine
end

