-- ==== Sys2Proof/Certificates/Slice0/Obligations.lean ====
section
/-! DEFINITION. The statements for the provers. -/

open Sys2Proof Sys2Proof.Machine

/-! ### Integer arithmetic of the general registers -/

/-- The register forms of OP and OP-32 (R339, R344, R394, R414, R417): where the registers are ready and the destination
finds room, each writes its result. Products are those of the operands extended to 128 bits; a shift is a product with, or a
floor quotient by, a power of two. -/
def registerArithmeticClaim : Prop :=
  ∀ (s : State) (d a b : Reg), Ready s [a, b] [d] → destRoom s.cur d = true →
    let x := arg1 s a
    let y := arg2 s a b
    let gives := fun (i : Instr) (v : Word) => exec i s = .next (wrote s (read2 s a b) d v)
    let low : Word → BitVec 32 := fun w => w.truncate 32
    gives (.add d a b) (x + y) ∧ gives (.sub d a b) (x - y) ∧
    gives (.addw d a b) ((low x + low y).signExtend 64) ∧ gives (.subw d a b) ((low x - low y).signExtend 64) ∧
    gives (.and d a b) (x &&& y) ∧ gives (.or d a b) (x ||| y) ∧ gives (.xor d a b) (x ^^^ y) ∧
    gives (.slt d a b) (if x.toInt < y.toInt then 1 else 0) ∧ gives (.sltu d a b) (if x.toNat < y.toNat then 1 else 0) ∧
    gives (.sll d a b) (BitVec.ofNat 64 (x.toNat * 2 ^ (y.toNat % 64))) ∧
    gives (.srl d a b) (BitVec.ofNat 64 (x.toNat / 2 ^ (y.toNat % 64))) ∧
    gives (.sra d a b) (BitVec.ofInt 64 (x.toInt / 2 ^ (y.toNat % 64))) ∧
    gives (.sllw d a b) ((BitVec.ofNat 32 ((low x).toNat * 2 ^ (y.toNat % 32))).signExtend 64) ∧
    gives (.srlw d a b) ((BitVec.ofNat 32 ((low x).toNat / 2 ^ (y.toNat % 32))).signExtend 64) ∧
    gives (.sraw d a b) ((BitVec.ofInt 32 ((low x).toInt / 2 ^ (y.toNat % 32))).signExtend 64) ∧
    gives (.mul d a b) (BitVec.ofNat 64 (x.toNat * y.toNat)) ∧
    gives (.mulh d a b) ((x.signExtend 128 * y.signExtend 128).extractLsb' 64 64) ∧
    gives (.mulhsu d a b) ((x.signExtend 128 * y.zeroExtend 128).extractLsb' 64 64) ∧
    gives (.mulhu d a b) ((x.zeroExtend 128 * y.zeroExtend 128).extractLsb' 64 64) ∧
    gives (.mulw d a b) ((low x * low y).signExtend 64)

/-- The division group (R356, R357): quotients round towards zero, remainders take the sign of the dividend; a zero divisor
gives all ones and the dividend, and the most negative dividend by −1 gives itself and 0. -/
def divisionClaim : Prop :=
  ∀ (s : State) (d a b : Reg), Ready s [a, b] [d] → destRoom s.cur d = true →
    let x := arg1 s a
    let y := arg2 s a b
    let p : BitVec 32 := x.truncate 32
    let q : BitVec 32 := y.truncate 32
    let gives := fun (i : Instr) (v : Word) => exec i s = .next (wrote s (read2 s a b) d v)
    gives (.div d a b) (if y.toInt = 0 then BitVec.ofInt 64 (-1) else BitVec.ofInt 64 (x.toInt.tdiv y.toInt)) ∧
    gives (.rem d a b) (if y.toInt = 0 then x else BitVec.ofInt 64 (x.toInt.tmod y.toInt)) ∧
    gives (.divu d a b) (if y.toNat = 0 then BitVec.ofNat 64 (2 ^ 64 - 1) else BitVec.ofNat 64 (x.toNat / y.toNat)) ∧
    gives (.remu d a b) (if y.toNat = 0 then x else BitVec.ofNat 64 (x.toNat % y.toNat)) ∧
    gives (.divw d a b)
      ((if q.toInt = 0 then BitVec.ofInt 32 (-1) else BitVec.ofInt 32 (p.toInt.tdiv q.toInt)).signExtend 64) ∧
    gives (.remw d a b) ((if q.toInt = 0 then p else BitVec.ofInt 32 (p.toInt.tmod q.toInt)).signExtend 64) ∧
    gives (.divuw d a b)
      ((if q.toNat = 0 then BitVec.ofNat 32 (2 ^ 32 - 1) else BitVec.ofNat 32 (p.toNat / q.toNat)).signExtend 64) ∧
    gives (.remuw d a b) ((if q.toNat = 0 then p else BitVec.ofNat 32 (p.toNat % q.toNat)).signExtend 64)

/-- The register forms of arithmetic and the division group together. -/
def Obligations.RegisterArithmetic : Prop := registerArithmeticClaim ∧ divisionClaim

/-- The immediate forms (R340, R345, R346, R374, R414, R417): a twelve-bit immediate is sign-extended to 64 bits. -/
def Obligations.ImmediateArithmetic : Prop :=
  (∀ (s : State) (d a : Reg) (i : BitVec 12) (k : BitVec 6) (h : BitVec 5), Ready s [a] [d] → destRoom s.cur d = true →
    let x := arg1 s a
    let low : Word → BitVec 32 := fun w => w.truncate 32
    let m : Word := BitVec.ofInt 64 i.toInt
    let gives := fun (j : Instr) (v : Word) => exec j s = .next (wrote s (read1 s a) d v)
    gives (.addi d a i) (x + m) ∧ gives (.addiw d a i) ((low (x + m)).signExtend 64) ∧
    gives (.andi d a i) (x &&& m) ∧ gives (.ori d a i) (x ||| m) ∧ gives (.xori d a i) (x ^^^ m) ∧
    gives (.slti d a i) (if x.toInt < i.toInt then 1 else 0) ∧
    gives (.sltiu d a i) (if x.toNat < m.toNat then 1 else 0) ∧
    gives (.slli d a k) (BitVec.ofNat 64 (x.toNat * 2 ^ k.toNat)) ∧
    gives (.srli d a k) (BitVec.ofNat 64 (x.toNat / 2 ^ k.toNat)) ∧
    gives (.srai d a k) (BitVec.ofInt 64 (x.toInt / 2 ^ k.toNat)) ∧
    gives (.slliw d a h) ((BitVec.ofNat 32 ((low x).toNat * 2 ^ h.toNat)).signExtend 64) ∧
    gives (.srliw d a h) ((BitVec.ofNat 32 ((low x).toNat / 2 ^ h.toNat)).signExtend 64) ∧
    gives (.sraiw d a h) ((BitVec.ofInt 32 ((low x).toInt / 2 ^ h.toNat)).signExtend 64)) ∧
  (∀ (s : State) (d : Reg) (i : BitVec 20), Ready s [] [d] → destRoom s.cur d = true →
    exec (.lui d i) s = .next (wrote s s.cur d (BitVec.ofInt 64 (i.toInt * 2 ^ 12))) ∧
    exec (.auipc d i) s = .next (wrote s s.cur d (s.cur.ctx.pc + BitVec.ofInt 64 (i.toInt * 2 ^ 12))))

/-- The frame of scalar arithmetic, the division group, `lui` and `auipc`: whatever they write goes to G[d] alone, and where
d is g0 or g28 nothing is written, where it is g29 the send queue alone grows (R69, R70). -/
def Obligations.ArithmeticFrame : Prop :=
  ∀ (s : State) (d a b : Reg) (i : BitVec 12) (u : BitVec 20) (k : BitVec 6) (h : BitVec 5), destRoom s.cur d = true →
    (Ready s [a, b] [d] → ∀ j ∈ [Instr.add d a b, .sub d a b, .addw d a b, .subw d a b, .and d a b, .or d a b, .xor d a b,
        .slt d a b, .sltu d a b, .sll d a b, .srl d a b, .sra d a b, .sllw d a b, .srlw d a b, .sraw d a b, .mul d a b,
        .mulh d a b, .mulhsu d a b, .mulhu d a b, .mulw d a b, .div d a b, .divu d a b, .rem d a b, .remu d a b,
        .divw d a b, .divuw d a b, .remw d a b, .remuw d a b],
      ∃ t, exec j s = .next t ∧ FrameG s t d [a, b]) ∧
    (Ready s [a] [d] → ∀ j ∈ [Instr.addi d a i, .addiw d a i, .andi d a i, .ori d a i, .xori d a i, .slti d a i,
        .sltiu d a i, .slli d a k, .srli d a k, .srai d a k, .slliw d a h, .srliw d a h, .sraiw d a h],
      ∃ t, exec j s = .next t ∧ FrameG s t d [a]) ∧
    (Ready s [] [d] → ∀ j ∈ [Instr.lui d u, .auipc d u], ∃ t, exec j s = .next t ∧ FrameG s t d [])

/-! ### Register operands, readiness and the next instruction -/

/-- The special registers (R69, R70): g0 reads zero; a read of g28 takes the next word of the current message; a read of g29
gives the length of the send queue; any other register reads as last written. Writes to g0 and g28 are discarded and a write
to g29 pushes one word. -/
def registerOperandsClaim : Prop :=
  ∀ (s : State) (r : Reg) (v : Word) (m : Msg) (k : Nat) (h : k < m.words.length),
    takeG s.cur 0 = (0, s.cur) ∧
    (s.cur.msg = some m → s.cur.ctx.msgPos = k →
      takeG s.cur 28 = (m.words[k], { s.cur with ctx := { s.cur.ctx with msgPos := k + 1 } })) ∧
    (s.cur.ctx.sendq.length ≤ 8 → (takeG s.cur 29).1.toNat = s.cur.ctx.sendq.length ∧ (takeG s.cur 29).2 = s.cur) ∧
    (r ≠ 0 → r ≠ 28 → r ≠ 29 → takeG { s.cur with ctx := setG s.cur.ctx r v } r =
      (v, { s.cur with ctx := setG s.cur.ctx r v })) ∧
    setG s.cur.ctx 0 v = s.cur.ctx ∧ setG s.cur.ctx 28 v = s.cur.ctx ∧
    setG s.cur.ctx 29 v = { s.cur.ctx with sendq := s.cur.ctx.sendq ++ [v] } ∧
    (∀ q : Reg, q ≠ r → getG (setG s.cur.ctx r v) q = getG s.cur.ctx q)

/-- When the registers let an instruction issue (R70, R72): every register it names is full, and a word of the current message
has arrived for each read of g28. An empty source stalls the slot, unless the instruction has X = 1: then it raises cause
0x05, and so does a read of a word still to arrive; an empty destination alone stalls; a message without a word left raises
cause 0x05 whatever the X bit. -/
def readinessClaim : Prop :=
  ∀ (t : Task) (n : Needs), answeredHold t = false →
    let pops := (n.gs.filter fun r => r == 28).length
    (readiness t n = .ready ↔
      (∀ r ∈ n.gs ++ n.gd, fullG t.ctx r = true) ∧ (∀ r ∈ n.vs ++ n.vd, fullV t.ctx r = true) ∧ pops ≤ ainHere t) ∧
    ((∃ r ∈ n.gs, fullG t.ctx r = false) → readiness t n = if n.x then .empty5 else .stall) ∧
    (ainHere t < pops → pops ≤ ainLeft t → readiness t n = if n.x then .empty5 else .stall) ∧
    ((∀ r ∈ n.gs, fullG t.ctx r = true) → ¬(ainHere t < pops ∧ pops ≤ ainLeft t) →
      ((∃ r ∈ n.gd, fullG t.ctx r = false) ∨ (∃ r ∈ n.vs ++ n.vd, fullV t.ctx r = false)) → readiness t n = .stall) ∧
    ((∀ r ∈ n.gs ++ n.gd, fullG t.ctx r = true) → (∀ r ∈ n.vs ++ n.vd, fullV t.ctx r = true) →
      ainLeft t < pops → readiness t n = .empty5)

/-- Where the registers do not let it issue (R70, R72, R207): an instruction with an empty register leaves the machine as it
is, one that reads an exhausted message takes the trap of cause 0x05, and one that finds the send queue full takes that of
cause 0x02 before any effect. Shown of `add`, `lx`, `amo` and `vadd`. -/
def operandStopsClaim : Prop :=
  ∀ (s : State) (d a b p : Reg) (z : MemSize) (m : LoadMode) (w : WaitClass) (x : Bool) (e : ElemType) (k : BitVec 3)
    (o : AmoOp) (y : AmoSize), s.cur.hold = none →
    (readiness s.cur (.g [a, b] [d]) = .stall → exec (.add d a b) s = .next s) ∧
    (readiness s.cur (.g [a, b] [d]) = .empty5 → exec (.add d a b) s = .next (takeTrap s 0x05 0 0 false false)) ∧
    (Ready s [a, b] [29] → 8 ≤ s.cur.ctx.sendq.length →
      exec (.add 29 a b) s = .next (takeTrap s 0x02 0 0 false false)) ∧
    (fullG s.cur.ctx a = false → exec (.lx z m w x d a p) s =
      .next (if x then takeTrap s 0x05 0 0 false false else s)) ∧
    (fullG s.cur.ctx b = false → exec (.amo y o x d a b) s =
      .next (if x then takeTrap s 0x05 0 0 false false else s)) ∧
    (fullV s.cur.ctx a = false → exec (.vadd e k d a b) s = .next s)

/-- The operand rules together: special registers, readiness, and where an instruction does not issue. The model's own
choices here are those of log entries 8 and 59. -/
def Obligations.OperandRules : Prop := registerOperandsClaim ∧ readinessClaim ∧ operandStopsClaim

/-- The repetition buffer (R73, R407): from the first instruction of its body a repetition executes count × len instructions
that do not transfer control, then goes on after the body; in pass k the fields that name registers are renumbered by
k × stride modulo 32. -/
def Obligations.Repetition : Prop :=
  (∀ (c : Ctx) (base : Word) (len count stride : Nat), 1 ≤ len → 1 ≤ count →
    advance^[count * len] { c with pc := base, rep := some ⟨base, len, count, stride, 0, 0⟩ } =
      { c with pc := base + 4 * BitVec.ofNat 64 len, rep := none }) ∧
  (∀ (c : Ctx), c.rep = none → advance c = { c with pc := c.pc + 4 }) ∧
  (∀ (t : Task) (r : Rep) (w : BitVec 32) (d a b : Reg), t.ctx.rep = some r → decode w = .ok (.add d a b) →
    issueWord t w = some (.add (d + BitVec.ofNat 5 (r.pass * r.stride)) (a + BitVec.ofNat 5 (r.pass * r.stride))
      (b + BitVec.ofNat 5 (r.pass * r.stride)))) ∧
  (∀ (t : Task) (r : Rep) (w : BitVec 32) (e : ElemType) (k : BitVec 3) (d a b : Reg), t.ctx.rep = some r →
    decode w = .ok (.vadd e k d a b) →
    issueWord t w = some (.vadd e k (d + BitVec.ofNat 5 (r.pass * r.stride)) (a + BitVec.ofNat 5 (r.pass * r.stride))
      (b + BitVec.ofNat 5 (r.pass * r.stride))))

/-! ### Control transfers and traps -/

/-- The branches (R57, R163, R348): taken, they go on at PC + imm; a target that is no multiple of 4 raises cause 0x07 and
one in another package cause 0x11, at the branch; not taken, they never trap on their target. -/
def branchesClaim : Prop :=
  ∀ (s : State) (a b : Reg) (i : BitVec 12), Ready s [a, b] [] →
    let x := arg1 s a
    let y := arg2 s a b
    let target := s.cur.ctx.pc + BitVec.ofInt 64 (2 * i.toInt)
    let taken := fun (j : Instr) (c : Prop) =>
      (¬c → exec j s = .next (retire s (read2 s a b))) ∧
      (c → target.toNat % 4 = 0 → pkgOf target = s.conf.pkg → exec j s = .next { s with cur := { read2 s a b with
        ctx := { (read2 s a b).ctx with pc := target }, chunk := countInstr s.cur.chunk } }) ∧
      (c → target.toNat % 4 ≠ 0 → exec j s = .next (takeTrap s 0x07 0 target false false)) ∧
      (c → target.toNat % 4 = 0 → pkgOf target ≠ s.conf.pkg → exec j s = .next (takeTrap s 0x11 0 target false false))
    taken (.beq a b i) (x = y) ∧ taken (.bne a b i) (x ≠ y) ∧
    taken (.blt a b i) (x.toInt < y.toInt) ∧ taken (.bge a b i) (x.toInt ≥ y.toInt) ∧
    taken (.bltu a b i) (x.toNat < y.toNat) ∧ taken (.bgeu a b i) (x.toNat ≥ y.toNat)

/-- `jal` and `jalr` (R57, R163, R204, R366, R367): the link is PC + 4; `jalr` clears bit 0 of its target; the two causes are
raised at the jump with the link unwritten; and in trap mode a target with bits [1:0] = 0b10 is the trap return, which
restores ln from the trap link and resumes at the target minus 2, or raises cause 0x11 where that lies in another package. -/
def Obligations.Jumps : Prop :=
  ∀ (s : State) (d a : Reg) (i : BitVec 20) (k : BitVec 12), destRoom s.cur d = true →
    let pc := s.cur.ctx.pc
    let jump := fun (t : Task) (target : Word) => { s with cur := { t with
      ctx := { setG t.ctx d (pc + 4) with pc := target }, chunk := countInstr s.cur.chunk } }
    (Ready s [] [d] →
      let target := pc + BitVec.ofInt 64 (2 * i.toInt)
      (target.toNat % 4 = 0 → pkgOf target = s.conf.pkg → exec (.jal d i) s = .next (jump s.cur target)) ∧
      (target.toNat % 4 ≠ 0 → exec (.jal d i) s = .next (takeTrap s 0x07 0 target false false)) ∧
      (target.toNat % 4 = 0 → pkgOf target ≠ s.conf.pkg →
        exec (.jal d i) s = .next (takeTrap s 0x11 0 target false false))) ∧
    (Ready s [a] [d] →
      let sum := arg1 s a + BitVec.ofInt 64 k.toInt
      let target := BitVec.ofNat 64 (2 * (sum.toNat / 2))
      (target.toNat % 4 = 0 → pkgOf target = s.conf.pkg → exec (.jalr d a k) s = .next (jump (read1 s a) target)) ∧
      (target.toNat % 4 = 2 → s.cur.ctx.trapMode = false →
        exec (.jalr d a k) s = .next (takeTrap s 0x07 0 target false false)) ∧
      (target.toNat % 4 = 0 → pkgOf target ≠ s.conf.pkg →
        exec (.jalr d a k) s = .next (takeTrap s 0x11 0 target false false)) ∧
      (target.toNat % 4 = 2 → s.cur.ctx.trapMode = true → pkgOf (target - 2) ≠ s.conf.pkg →
        exec (.jalr d a k) s = .next (takeTrap s 0x11 0 (target - 2) false false)) ∧
      (target.toNat % 4 = 2 → s.cur.ctx.trapMode = true → pkgOf (target - 2) = s.conf.pkg → ∃ t, exec (.jalr d a k) s = .next t ∧
        t.cur.ctx.pc = target - 2 ∧ getG t.cur.ctx 1 = s.cur.ctx.tlink ∧ t.cur.ctx.trapMode = false ∧
        t.cur.ctx.rep = s.cur.ctx.trapRep ∧ (d ≠ 0 → d ≠ 1 → d ≠ 28 → d ≠ 29 → getG t.cur.ctx d = pc + 4) ∧
        (∀ r : Reg, r ≠ d → r ≠ 1 → getG t.cur.ctx r = getG s.cur.ctx r) ∧ OnlyTask s t))

/-- `trap` and `brk` enter the trap routine (R202, R203, R349, R431): where the image has one, the task is not in trap mode
and the chunk has just begun, which gives up its tokens of serial mode (log entry 60), or commits as `c`, the next state has
the cause and user code in index 8, the PC in index 9, the operation index in index 10, ln in the trap link (with what was in
flight to it, R72), the address of the next instruction with bit 1 set in ln, the trap-mode bit set, the repetition suspended,
and continues at the trap vector in a new chunk. Everything else is as the commit left it. The model's own choices here are
those of log entry 60. -/
def Obligations.TrapEntry : Prop :=
  ∀ (s c : State) (n : BitVec 5), bitOf (tvec s s.cur) 63 = true → s.cur.ctx.trapMode = false →
    (s.cur.chunk.fresh = true ∧ c = releaseTokens s s.cur.key ∨ s.cur.chunk.fresh = false ∧ commitNow s = .done c) →
    let enters := fun (i : Instr) (cause : Word) => ∃ t, exec i s = .next t ∧
      t.cur.ctx.trapCause = cause ∧ t.cur.ctx.trapPc = c.cur.ctx.pc ∧
      t.cur.ctx.trapIdx = BitVec.ofNat 64 (portIndex c c.cur.name c.cur.ctx.pc) ∧
      t.cur.ctx.tlink = getG (landLink c.cur).ctx 1 ∧ ((∀ f ∈ c.cur.inflight, f.dest ≠ .g 1) → t.cur.ctx.tlink = getG c.cur.ctx 1) ∧
      getG t.cur.ctx 1 = (c.cur.ctx.pc + 4) ||| 2 ∧ t.cur.ctx.trapMode = true ∧
      t.cur.ctx.trapRep = c.cur.ctx.rep ∧ t.cur.ctx.rep = none ∧
      t.cur.ctx.pc = entryPc c c.cur.handle (fieldNat (tvec c c.cur) 39 0) ∧
      t.cur.chunk = Chunk.begin t.cur.ctx c.time false ∧
      (∀ r : Reg, r ≠ 1 → getG t.cur.ctx r = getG c.cur.ctx r) ∧ t.cur.ctx.v = c.cur.ctx.v ∧ t.cur.ctx.m = c.cur.ctx.m ∧
      t.cur.ctx.flags = c.cur.ctx.flags ∧ (∀ f ∈ t.cur.inflight, f.dest ≠ .g 1) ∧ OnlyTask c t
    enters (.trap n) (BitVec.ofNat 64 (0x0F + 2 ^ 8 * n.toNat)) ∧ enters .brk 0x10

/-- A fatal trap (R59, R205, R208): a cause that Table 08.1 marks fatal, an image with no trap routine, or a trap in trap
mode aborts the chunk, sends the fault record, and ends the task. An illegal word takes cause 0x01, always fatal. -/
def fatalTrapsClaim : Prop :=
  ∀ (s : State) (n : BitVec 5),
    let ends := fun (cause user : Nat) (detail : Word) =>
      let u := if s.cur.chunk.fresh then s else abortChunk s
      endTask (reportFault u s.cur.name ⟨cause, user, true, false, s.cur.ctx.pc, detail⟩)
    (s.cur.slot?.isSome = true → exec .illegalEncoding s = .next (ends 0x01 0 0)) ∧
    (bitOf (tvec s s.cur) 63 = false ∨ s.cur.ctx.trapMode = true →
      exec (.trap n) s = .next (ends 0x0F n.toNat 0) ∧ exec .brk s = .next (ends 0x10 0 0)) ∧
    (∀ c : Nat, trapFatal s c = true ↔
      c ∈ [0x01, 0x04, 0x08, 0x0B] ∨ bitOf (tvec s s.cur) 63 = false ∨ s.cur.ctx.trapMode = true)

/-- The fault record (R208, Table 08.2), word by word, as an OP 8 flit to the tenant's host endpoint with its envelope
(R305); the silo counts the cause at 2211 plus its number (R329), which aborts the chunks that have read that word (R458). -/
def faultRecordsClaim : Prop :=
  ∀ (s : State) (t : TaskName) (i : FaultInfo), 1 ≤ i.cause → i.cause < 2 ^ 5 → i.user < 32 → i.cause ≠ 4 →
    let r := faultRecord s t i
    (∃ f, r.fab.outReqs.getLast? = some f ∧ f.flit.op = 8 ∧ f.flit.cls = 2 ∧ f.flit.ti = t.tenant ∧
      f.flit.dest = hostEp s t.tenant ∧ f.flit.words.length = 9 ∧
      ∃ e c p, f.flit.words = [e, c, t.taskId, i.pc, p, BitVec.ofNat 64 s.time, i.detail, Config.wrel, 0] ∧
        fieldNat c 7 0 = i.cause ∧ fieldNat c 12 8 = i.user ∧ bitOf c 16 = i.fatal ∧ bitOf c 17 = t.trapMode ∧
        bitOf c 18 = i.deferred ∧ bitOf c 19 = !bitOf (tvecOf s t.handle) 63 ∧
        p = BitVec.ofNat 64 (t.handle.toNat * 2 ^ 48 + portIndex s t i.pc) ∧ fieldNat e 7 0 = 3) ∧
    (Tab.get s.silo (2211 + i.cause) 0 < 2 ^ 64 - 1 →
      Tab.get r.silo (2211 + i.cause) 0 = Tab.get s.silo (2211 + i.cause) 0 + 1) ∧
    (Unseen s (0x4000000 + 8 * (2211 + i.cause)) → OnlySlots s r ∧ r.mem = s.mem)

/-- Fatal traps and the records they send together. The model's own choices here are those of log entry 2. -/
def Obligations.FatalTraps : Prop := fatalTrapsClaim ∧ faultRecordsClaim

/-! ### Loads and stores -/

/-- The base loads and the `lx` modes that stay in the chunk (R61, R71, R131, R372, R373, R375, R376): the address is the
base plus the sign-extended immediate; the bytes are those of memory under the chunk's own stores; `lx` sign-extends. -/
def loadsInChunkClaim : Prop :=
  ∀ (s u : State) (d a p : Reg) (i : BitVec 12) (m : LoadMode) (w : WaitClass) (x : Bool), destRoom s.cur d = true →
    let base := arg1 s a + BitVec.ofInt 64 i.toInt
    let reads := fun (addr : Word) (n : Nat) => InChunk s u addr (plainAccess false n) (loadLines s addr n) [] ∧
      accessPoison (chunkPoison u) (localOf addr) n = false
    let gives := fun (j : Instr) (t : Task) (addr : Word) (n : Nat) (v : Word) =>
      exec j s = .next (arrived (loadReached u addr n) (rebase u t) d v)
    let v := fun (addr : Word) (n : Nat) => natOfBytes (seenBytes (loadReached u addr n) addr n)
    (Ready s [a] [d] →
      (reads base 1 → loadFull s (localOf base) 1 = true →
        gives (.lb d a i) (read1 s a) base 1 ((BitVec.ofNat 8 (v base 1)).signExtend 64) ∧
        gives (.lbu d a i) (read1 s a) base 1 ((BitVec.ofNat 8 (v base 1)).zeroExtend 64)) ∧
      (reads base 2 → loadFull s (localOf base) 2 = true →
        gives (.lh d a i) (read1 s a) base 2 ((BitVec.ofNat 16 (v base 2)).signExtend 64) ∧
        gives (.lhu d a i) (read1 s a) base 2 ((BitVec.ofNat 16 (v base 2)).zeroExtend 64)) ∧
      (reads base 4 → loadFull s (localOf base) 4 = true →
        gives (.lw d a i) (read1 s a) base 4 ((BitVec.ofNat 32 (v base 4)).signExtend 64) ∧
        gives (.lwu d a i) (read1 s a) base 4 ((BitVec.ofNat 32 (v base 4)).zeroExtend 64)) ∧
      (reads base 8 → loadFull s (localOf base) 8 = true → gives (.ld d a i) (read1 s a) base 8 (BitVec.ofNat 64 (v base 8)))) ∧
    (readiness s.cur ⟨x, [a, p], [d], [], []⟩ = .ready → m = .pl ∨ m = .rdn → ClassDone s w →
      let addr := arg1 s a
      let full := fun n => m = .pl → loadFull s (localOf addr) n = true
      (reads addr 1 → full 1 → gives (.lx .b m w x d a p) (read2 s a p) addr 1 ((BitVec.ofNat 8 (v addr 1)).signExtend 64)) ∧
      (reads addr 2 → full 2 → gives (.lx .h m w x d a p) (read2 s a p) addr 2 ((BitVec.ofNat 16 (v addr 2)).signExtend 64)) ∧
      (reads addr 4 → full 4 → gives (.lx .w m w x d a p) (read2 s a p) addr 4 ((BitVec.ofNat 32 (v addr 4)).signExtend 64)) ∧
      (reads addr 8 → full 8 → gives (.lx .d m w x d a p) (read2 s a p) addr 8 (BitVec.ofNat 64 (v addr 8))))

/-- The wide loads in the chunk (R209, R376, R377, R443, R444, R445): `lx.q` writes the low word and the word above it, `vld`
64 bytes, and `vldx` eight words at base plus index, element 0 from lane 0, where the values arrive at once. -/
def wideLoadsInChunkClaim : Prop :=
  ∀ (s u : State) (d a p : Reg) (m : LoadMode) (w : WaitClass) (x : Bool), u.late = false →
    (readiness s.cur ⟨x, [a, p], [d, d + 1], [], []⟩ = .ready → (Instr.lxQ m w x d a p).WellFormed → m = .pl ∨ m = .rdn →
      ClassDone s w →
      InChunk s u (arg1 s a) ⟨false, 16, 16, true, true, false⟩ (loadLines s (arg1 s a) 16) [] →
      accessPoison (chunkPoison u) (localOf (arg1 s a)) 16 = false → (m = .pl → loadFull s (localOf (arg1 s a)) 16 = true) →
      let r := loadReached u (arg1 s a) 16
      let n := natOfBytes (seenBytes r (arg1 s a) 16)
      exec (.lxQ m w x d a p) s = .next (retire r { rebase u (read2 s a p) with
        ctx := setG (setG (read2 s a p).ctx d (BitVec.ofNat 64 n)) (d + 1) (BitVec.ofNat 64 (n / 2 ^ 64)) })) ∧
    (ReadyV s [a] [] [] [d] → InChunk s u (arg1 s a) ⟨false, 64, 64, false, true, false⟩ (loadLines s (arg1 s a) 64) [] →
      accessPoison (chunkPoison u) (localOf (arg1 s a)) 64 = false → loadFull s (localOf (arg1 s a)) 64 = true →
      let r := loadReached u (arg1 s a) 64
      exec (.vld d a) s = .next (wroteV r (rebase u (read1 s a)) d (BitVec.ofNat 512 (natOfBytes (seenBytes r (arg1 s a) 64))))) ∧
    (ReadyV s [a] [] [p] [d] → s.cur.hold = none → s.cur.lanes = [] →
      let as := (List.range 8).map fun k => arg1 s a + (getV s.cur.ctx p).extractLsb' (64 * k) 64
      let ls := as.map localOf
      (∀ b ∈ as, checkAccess s s.cur.tenant s.cur.trusted b ⟨false, 8, 8, true, true, true⟩ = none) →
      (∀ b ∈ ls, regionBusy s b = false ∧ loadFull s b 8 = true) →
      touch s ((ls.filter fun b => !regionSealed s b).flatMap fun b => accessLines s b 8) [] = .entered u →
      (∀ b ∈ ls, accessPoison (chunkPoison u) b 8 = false) →
      ∃ t, exec (.vldx d a p) s = .next t ∧ OnlyTask (reach u (ls.flatMap fun b => accessLines u b 8)) t ∧
        (∀ k, (h : k < 8) → (getV t.cur.ctx d).extractLsb' (64 * k) 64 = chunkWord u (canon u (localOf (as.getD k 0)))) ∧
        (∀ q, q ≠ d → getV t.cur.ctx q = getV u.cur.ctx q))

/-- The loads that stay in the chunk, narrow and wide. The model's own choices here are those of log entry 54. -/
def Obligations.LoadsInChunk : Prop := loadsInChunkClaim ∧ wideLoadsInChunkClaim

/-- `lx` and `lx.q` in modes wf and wfe at a home of this package (R136, R158, R376, R377): alone, they deliver the bytes of
a full word, and wfe sets every word empty in the same step; where a word is empty they wait at the home with the slot
held and the tag of each destination empty. -/
def Obligations.LoadsAtHome : Prop :=
  ∀ (s : State) (d a p : Reg) (z : MemSize) (m : LoadMode) (w : WaitClass) (x : Bool), destRoom s.cur d = true →
    m = .wf ∨ m = .wfe → ClassDone s w → OrderMet s (fieldNat (arg2 s a p) 9 8) →
    let addr := arg1 s a
    let l := localOf addr
    let tags := fun (n : Nat) => if m = .wfe ∧ syncPlace (placeOf s l) = true then devTags s (canon s l) n false else jobRead s l n
    let bytes := fun (n : Nat) => natOfBytes (placeRead s s.mem.readBytes (ctlBytes s) l n)
    let full := fun (n : Nat) => syncPlace (placeOf s l) = true → ∀ q ∈ wordsAt (canon s l) n, s.mem.full q = true
    let waits := fun (j : Instr) (n : Nat) (e : Dest) (g : Bool) => exec j s = .next (bumpKey { s with
      cur := { s.cur with hold := some (.home s.nextKey), ctx := tagDest s.cur.ctx e false }
      eng := { s.eng with waiters := s.eng.waiters ++
        [⟨s.nextKey, s.cur.tenant, s.cur.trusted, l, .load m n, .task s.cur.key e n g, s.time⟩] } })
    (readiness s.cur ⟨x, [a, p], [d], [], []⟩ = .ready →
      let n := MemSize.bytes z
      AtHome s addr (plainAccess false n) → HomeFree s s.cur.key addr n →
      (full n → ∃ v : Word, v.toInt = ((BitVec.ofNat (8 * n) (bytes n)).toInt) ∧
        exec (.lx z m w x d a p) s = .next (settle (retireAlone (tags n) { rebase (tags n) (read2 s a p) with
          ctx := setG (read2 s a p).ctx d v }))) ∧
      (¬full n → waits (.lx z m w x d a p) n (destOf d) true)) ∧
    (readiness s.cur ⟨x, [a, p], [d, d + 1], [], []⟩ = .ready → (Instr.lxQ m w x d a p).WellFormed →
      AtHome s addr ⟨false, 16, 16, true, true, false⟩ → HomeFree s s.cur.key addr 16 →
      (full 16 → exec (.lxQ m w x d a p) s = .next (settle (retireAlone (tags 16) { rebase (tags 16) (read2 s a p) with
          ctx := setG (setG (read2 s a p).ctx d (BitVec.ofNat 64 (bytes 16))) (d + 1)
            (BitVec.ofNat 64 (bytes 16 / 2 ^ 64)) }))) ∧
      (¬full 16 → waits (.lxQ m w x d a p) 16 (.g2 d) false))

/-- The stores that stay in the chunk (R61, R131, R408, R422, R423, R443): the low bytes of the data register, or the 64 bytes
of V, are held with the chunk at the address that `placeWrite` gives; `vstx` holds eight words in lane order. -/
def storesInChunkClaim : Prop :=
  ∀ (s u : State) (a b p : Reg) (i : BitVec 12) (w : WaitClass) (x : Bool),
    let base := arg1 s a + BitVec.ofInt 64 i.toInt
    let writes := fun (addr : Word) (bs : List Byte) =>
      let r := placeWrite s (localOf addr) bs
      (∀ o, placeOf s (localOf addr) ≠ .control o) ∧
      InChunk s u addr ⟨true, bs.length, bs.length, false, decide (16 ≤ bs.length), false⟩ [] (linesOf r.1 r.2.length) ∧
      (ownScratch u (localOf addr) && poisonBlocks (chunkPoison u).mem r.1 r.2.length) = false
    let holds := fun (j : Instr) (t : Task) (addr : Word) (bs : List Byte) =>
      exec j s = .next (retire u { rebase u t with chunk := { u.cur.chunk with
        log := u.cur.chunk.log ++ [.store (placeWrite s (localOf addr) bs).1 (placeWrite s (localOf addr) bs).2] } })
    (Ready s [a, b] [] →
      let data := fun n => bytesOfNat n (arg2 s a b).toNat
      (writes base (data 1) → holds (.sb a b i) (read2 s a b) base (data 1)) ∧
      (writes base (data 2) → holds (.sh a b i) (read2 s a b) base (data 2)) ∧
      (writes base (data 4) → holds (.sw a b i) (read2 s a b) base (data 4)) ∧
      (writes base (data 8) → holds (.sd a b i) (read2 s a b) base (data 8))) ∧
    (∀ z : MemSize, readiness s.cur ⟨x, [b, a, p], [], [], []⟩ = .ready → ClassDone s w →
      let data := bytesOfNat (MemSize.bytes z) (arg3 s a p b).toNat
      writes (arg1 s a) data → holds (.sx z .pl w x b a p) (read3 s a p b) (arg1 s a) data) ∧
    (ReadyV s [a] [] [b] [] →
      let data := bytesOfNat 64 (getV s.cur.ctx b).toNat
      writes (arg1 s a) data → holds (.vst b a) (read1 s a) (arg1 s a) data) ∧
    (ReadyV s [a] [] [b, p] [] →
      let as := (List.range 8).map fun k => arg1 s a + (getV s.cur.ctx p).extractLsb' (64 * k) 64
      let ls := as.map localOf
      (∀ q ∈ as, checkAccess s s.cur.tenant s.cur.trusted q ⟨true, 8, 8, true, true, true⟩ = none) →
      (∀ q ∈ ls, regionBusy s q = false) → touch s [] (ls.flatMap fun q => accessLines s q 8) = .entered u →
      exec (.vstx b a p) s = .next (retire u { rebase u (read1 s a) with chunk := { u.cur.chunk with
        log := u.cur.chunk.log ++ (List.range 8).map fun k => .store (canon u (ls.getD k 0))
          (bytesOfNat 8 ((getV u.cur.ctx b).extractLsb' (64 * k) 64).toNat) } }))

/-- The frame of those stores and what the chunk reads back (R131): memory itself is unchanged until the commit, every
general, vector and mask register and flag reads as before, and the chunk reads the stored bytes at the address stored to
and every other byte as before. -/
def storeFrameClaim : Prop :=
  ∀ (s u : State) (a b : Reg) (i : BitVec 12), Ready s [a, b] [] →
    let addr := arg1 s a + BitVec.ofInt 64 i.toInt
    (∀ o, placeOf s (localOf addr) ≠ .control o) →
    ∀ n ∈ [1, 2, 4, 8], ∀ j ∈ [Instr.sb a b i, .sh a b i, .sw a b i, .sd a b i],
      (j = .sb a b i ↔ n = 1) → (j = .sh a b i ↔ n = 2) → (j = .sw a b i ↔ n = 4) → (j = .sd a b i ↔ n = 8) →
      let r := placeWrite s (localOf addr) (bytesOfNat n (arg2 s a b).toNat)
      InChunk s u addr (plainAccess true n) [] (linesOf r.1 r.2.length) →
      (ownScratch u (localOf addr) && poisonBlocks (chunkPoison u).mem r.1 r.2.length) = false →
      ∃ t, exec j s = .next t ∧ OnlyTask u t ∧
        (∀ k, k < r.2.length → chunkBytes t (r.1 + k) 1 = [r.2.getD k 0]) ∧
        (∀ q, (q < r.1 ∨ r.1 + r.2.length ≤ q) → chunkBytes t q 1 = chunkBytes u q 1) ∧
        (∀ q, getG t.cur.ctx q = getG s.cur.ctx q) ∧ t.cur.ctx.v = s.cur.ctx.v ∧ t.cur.ctx.m = s.cur.ctx.m ∧
        t.cur.ctx.flags = s.cur.ctx.flags ∧ t.cur.ctx.sendq = s.cur.ctx.sendq ∧ t.cur.ctx.ac = s.cur.ctx.ac

/-- The stores that stay in the chunk, and their frame. -/
def Obligations.StoresInChunk : Prop := storesInChunkClaim ∧ storeFrameClaim

/-- `sx` in modes we, sf and se at a home of this package other than the own scratchpad (R136, R140, R424): where the
home can perform it the bytes are written, we and sf leave every word full and se leaves every word empty, the class's
counter rises, and the slot goes on; a store in mode we that finds a word full waits at the home with the slot free to
go on. The model's own choices here are those of log entry 53. -/
def Obligations.StoresAtHome : Prop :=
  ∀ (s : State) (v a p : Reg) (z : MemSize) (m : StoreMode) (w : WaitClass) (x : Bool),
    readiness s.cur ⟨x, [v, a, p], [], [], []⟩ = .ready → m ≠ .pl → ClassDone s w →
    OrderMet s (fieldNat (arg2 s a p) 9 8) →
    let n := MemSize.bytes z
    let addr := arg1 s a
    let l := localOf addr
    let bs := bytesOfNat n (arg3 s a p v).toNat
    let k := storeClass s (canon s l)
    let hold := if fieldNat (arg2 s a p) 9 8 % 2 = 1 then some (Hold.performed k) else none
    AtHome s addr (plainAccess true n) → ownScratch s l = false → syncPlace (placeOf s l) = true →
    counterFull s s.cur.core s.cur.tenant k = false →
    ((homeOf s (canon s l)).any fun h => nearHeld s s.cur.core h) = false →
    let r := raiseCounter s s.cur.core s.cur.tenant k
    (HomeFree s 0 addr n → (m = .we → ∀ q ∈ wordsAt (canon s l) n, s.mem.full q = false) →
      exec (.sx z m w x v a p) s = .next (settle
        (let u := devWrite r (canon s l) bs (some (m != .se))
         retireAlone u { rebase u (read3 s a p v) with hold := hold }))) ∧
    (HomeFree s 0 addr n → m = .we → (∀ q ∈ wordsAt (canon s l) n, s.mem.full q = true) →
      exec (.sx z m w x v a p) s = .next
        (let u := bumpKey { r with eng := { r.eng with waiters := r.eng.waiters ++ [⟨s.nextKey, s.cur.tenant, s.cur.trusted,
          l, .store m bs, .posted s.cur.core s.cur.tenant k s.cur.key, s.time⟩] } }
         retireAlone u { rebase u (read3 s a p v) with hold := hold }))

/-- The new value of an atomic of `w` bits, by its operation (R342); a `cas` that fails writes nothing. -/
def amoResult {w : Nat} (o : AmoOp) (old v e : BitVec w) : Option (BitVec w) :=
  match o with
  | .add => some (old + v)
  | .and => some (old &&& v)
  | .or => some (old ||| v)
  | .xor => some (old ^^^ v)
  | .min => some (if old.toInt ≤ v.toInt then old else v)
  | .max => some (if old.toInt ≤ v.toInt then v else old)
  | .minu => some (if old.toNat ≤ v.toNat then old else v)
  | .maxu => some (if old.toNat ≤ v.toNat then v else old)
  | .swap => some v
  | .cas => if old = e then some v else none

/-- `amo` at a home of this package (R341, R342, R343): alone, on a full word, the destination receives the old value,
sign-extended, and the word the new one, its tag staying full; on an empty word it waits at the home. -/
def atomicsClaim : Prop :=
  ∀ (s : State) (d a b : Reg) (o : AmoOp) (z : AmoSize) (x : Bool),
    readiness s.cur ⟨x, if o = .cas then [a, b, d] else [a, b], [d], [], []⟩ = .ready → destRoom s.cur d = true →
    let n := if z = .w then 4 else 8
    let addr := arg1 s a
    let l := localOf addr
    let t := if o = .cas then read3 s a b d else read2 s a b
    let e : Word := if o = .cas then arg3 s a b d else 0
    AtHome s addr ⟨true, n, n, true, true, false⟩ → HomeFree s s.cur.key addr n →
    let c := canon s l
    let full := ∀ q ∈ wordsAt c n, s.mem.full q = true
    (full → z = .d → exec (.amo z o x d a b) s =
      let old := s.mem.read64 c
      let u := match amoResult o old (arg2 s a b) e with
        | some y => devWrite s c (bytesOfNat 8 y.toNat) none
        | none => jobRead s l 8
      .next (settle (retireAlone u { rebase u t with ctx := setG t.ctx d old }))) ∧
    (full → z = .w → exec (.amo z o x d a b) s =
      let old : BitVec 32 := BitVec.ofNat 32 (natOfBytes (s.mem.readBytes c 4))
      let u := match amoResult o old ((arg2 s a b).truncate 32) (e.truncate 32) with
        | some y => devWrite s c (bytesOfNat 4 y.toNat) none
        | none => jobRead s l 4
      .next (settle (retireAlone u { rebase u t with ctx := setG t.ctx d (old.signExtend 64) }))) ∧
    (¬full → exec (.amo z o x d a b) s = .next (bumpKey { s with
      cur := { s.cur with hold := some (.home s.nextKey), ctx := tagDest s.cur.ctx (destOf d) false }
      eng := { s.eng with waiters := s.eng.waiters ++ [⟨s.nextKey, s.cur.tenant, s.cur.trusted, l, .amo o n (arg2 s a b) e,
        .task s.cur.key (destOf d) n true, s.time⟩] } }))

/-- `tagr` and `tagw` in the chunk (R136, R425, R426): `tagr` writes 1 for a full word and 0 for an empty one, as the chunk
sees it; `tagw` holds the change, and the chunk then sees that tag and every other as before. -/
def tagsClaim : Prop :=
  ∀ (s u : State) (d a b : Reg),
    let l := localOf (arg1 s a)
    (Ready s [a] [d] → destRoom s.cur d = true → (∀ o, placeOf u l ≠ .control o) →
      InChunk s u (arg1 s a) ⟨false, 8, 8, true, false, false⟩ (loadLines s (arg1 s a) 8) [] →
      exec (.tagr d a) s = .next (wrote u (rebase u (read1 s a)) d (if chunkTag u (canon u l) then 1 else 0))) ∧
    (Ready s [a, b] [] → InChunk s u (arg1 s a) ⟨true, 8, 8, true, true, false⟩ [] (linesOf (canon s l) 8) →
      (ownScratch u l && (chunkPoison u).mem.poisoned (canon s l)) = false →
      ∃ t, exec (.tagw a b) s = .next t ∧ OnlyTask u t ∧ chunkTag t (canon s l) = (arg2 s a b).getLsbD 0 ∧
        (∀ q, q / 8 ≠ canon s l / 8 → chunkTag t q = chunkTag u q) ∧
        (∀ r, getG t.cur.ctx r = getG s.cur.ctx r) ∧ (∀ q, t.mem.full q = u.mem.full q))

/-- Atomics and the tag instructions together. The model's own choices here are those of log entry 54. -/
def Obligations.Atomics : Prop := atomicsClaim ∧ tagsClaim

/-- Accesses to another package (R126, R140, R294, R376, R424, R426, Table 15.2): alone, `lx`, `lx.q`, `amo` and `tagr` send
one request of their OP and hold the slot until its reply, the destination's tag empty; `sx` and `tagw` send one posted
flit, which raises the far counter, and the slot goes on. -/
def remoteAccessesClaim : Prop :=
  ∀ (s : State) (d a b p : Reg) (z : MemSize) (y : AmoSize) (o : AmoOp) (m : LoadMode) (q : StoreMode) (w : WaitClass)
    (x : Bool), destRoom s.cur d = true → requestsOut s s.cur.core < 256 → ClassDone s w →
    let addr := arg1 s a
    let asks := fun (i : Instr) (op n : Nat) (e : Dest) (g : Bool) (rest : List Word → Prop) => ∃ t r, exec i s = .next t ∧
      t.fab.outReqs = s.fab.outReqs ++ [r] ∧ r.flit.op = op ∧ r.flit.cls = 0 ∧ r.flit.dest = pkgOf addr ∧
      r.flit.ti = s.cur.tenant ∧ r.flit.score = s.cur.core ∧ r.waits = some (s.cur.key, e, n, g) ∧ r.posted = false ∧
      r.reqid ∉ reqidsOf s s.cur.core ∧ t.mem = s.mem ∧
      t.cur = { s.cur with hold := some (.reply r.reqid), ctx := tagDest s.cur.ctx e false } ∧
      (∃ ws, r.flit.words = addr :: ws ∧ rest ws)
    let posts := fun (i : Instr) (op : Nat) (u : Task) (h : Option Hold) (rest : List Word → Prop) => ∃ t r, exec i s = .next t ∧
      t.fab.outReqs = s.fab.outReqs ++ [r] ∧ r.flit.op = op ∧ r.flit.cls = 2 ∧ r.flit.dest = pkgOf addr ∧
      r.flit.ti = s.cur.tenant ∧ r.posted = true ∧ r.counted = true ∧ t.mem = s.mem ∧
      countersOf t s.cur.core s.cur.tenant = { countersOf s s.cur.core s.cur.tenant with
        far := (countersOf s s.cur.core s.cur.tenant).far + 1 } ∧
      t.cur = { u.retireAlone s.time with hold := h } ∧ (∃ ws, r.flit.words = addr :: ws ∧ rest ws)
    let goes := counterFull s s.cur.core s.cur.tenant .far = false ∧ farHeld s s.cur.core (pkgOf addr) = false
    let n := MemSize.bytes z
    (readiness s.cur ⟨x, [a, p], [d], [], []⟩ = .ready → AtOther s addr (plainAccess false n) →
      (m = .pl → farCopy s addr n = none) → OrderMet s (fieldNat (arg2 s a p) 9 8) →
      asks (.lx z m w x d a p) 0 n (destOf d) true fun ws => ∃ c, ws = [c] ∧ 2 ^ fieldNat c 2 0 = n ∧
        fieldNat c 4 3 = (if m = .pl then 0 else if m = .wf then 1 else if m = .wfe then 2 else 3) ∧
        fieldNat c 9 8 = fieldNat (arg2 s a p) 9 8 ∧ fieldNat c 11 10 = fieldNat (arg2 s a p) 11 10) ∧
    (readiness s.cur ⟨x, [a, p], [d, d + 1], [], []⟩ = .ready → (Instr.lxQ m w x d a p).WellFormed →
      (m = .pl → farCopy s addr 16 = none) → AtOther s addr ⟨false, 16, 16, true, true, false⟩ →
        OrderMet s (fieldNat (arg2 s a p) 9 8) →
      asks (.lxQ m w x d a p) 0 16 (.g2 d) false fun ws => ∃ c, ws = [c] ∧ fieldNat c 2 0 = 4) ∧
    (readiness s.cur ⟨x, if o = .cas then [a, b, d] else [a, b], [d], [], []⟩ = .ready →
      let k := if y = .w then 4 else 8
      AtOther s addr ⟨true, k, k, true, true, false⟩ →
      asks (.amo y o x d a b) 2 k (destOf d) true fun ws => ∃ c e, ws = [c, arg2 s a b, e] ∧ 2 ^ fieldNat c 2 0 = k ∧
        (o = .cas → e = arg3 s a b d)) ∧
    (Ready s [a] [d] → AtOther s addr ⟨false, 8, 8, true, false, false⟩ →
      asks (.tagr d a) 3 8 (destOf d) false fun ws => ws = []) ∧
    (readiness s.cur ⟨x, [b, a, p], [], [], []⟩ = .ready → AtOther s addr (plainAccess true n) → goes →
      OrderMet s (fieldNat (arg2 s a p) 9 8) →
      posts (.sx z q w x b a p) 1 (read3 s a p b)
        (if fieldNat (arg2 s a p) 9 8 % 2 = 1 then some (.performed .far) else none) fun ws =>
        ∃ c e, ws = [c, e] ∧ 2 ^ fieldNat c 2 0 = n ∧
          fieldNat c 4 3 = (if q = .pl then 0 else if q = .we then 1 else if q = .sf then 2 else 3) ∧
          e.toNat = (arg3 s a p b).toNat % 2 ^ (8 * n)) ∧
    (Ready s [a, b] [] → AtOther s addr ⟨true, 8, 8, true, true, false⟩ → goes →
      posts (.tagw a b) 4 (read2 s a b) none fun ws => ws = [if (arg2 s a b).getLsbD 0 then 1 else 0])

/-- What a held access ends with (R71, R105, R457): once its home or target has answered, the instruction takes the cause with
the address as DETAIL, or writes the value, its tag full, and goes on in a new chunk; until then it holds its slot. -/
def heldAccessesClaim : Prop :=
  ∀ (s : State) (d a p : Reg) (z : MemSize) (m : LoadMode) (w : WaitClass) (x : Bool) (v : VWord) (g : Bool) (c k : Nat),
    let i := Instr.lx z m w x d a p
    let u := { s with cur := { s.cur with hold := none, ctx := tagDest s.cur.ctx (destOf d) true } }
    (s.cur.hold = some (.answer none v g) → exec i s = .next { s with cur := ({ read2 s a p with
      hold := none, ctx := tagDest (setG (read2 s a p).ctx d (v.truncate 64)) (.g d) true } : Task).retireAlone s.time }) ∧
    (s.cur.hold = some (.answer (some c) v g) → exec i s = .next (takeTrap u c 0 (arg1 s a) false false)) ∧
    (s.cur.hold = some (.home k) ∨ s.cur.hold = some (.reply k) → readiness s.cur ⟨x, [a, p], [d], [], []⟩ ≠ .empty5 →
      exec i s = .next s)

/-- Accesses to another package, and what a held access ends with. The model's own choices here are those of log entry
7. -/
def Obligations.RemoteAccesses : Prop := remoteAccessesClaim ∧ heldAccessesClaim

/-- The causes of an access (R126, Table 05.2, R209): an access the checks refuse takes its cause before any effect,
with the address as DETAIL. Bits [63:56] other than zero give 0x11 first, then a misaligned address 0x07; a local
address nothing maps 0x11; a byte the tenant does not own 0x04; a store to a sealed region 0x03. The model's own choices
here are those of log entry 8. -/
def Obligations.AccessCauses : Prop :=
  (∀ (s : State) (d a : Reg) (i : BitVec 12) (c : Nat), Ready s [a] [d] → s.cur.hold = none →
    let addr := arg1 s a + BitVec.ofInt 64 i.toInt
    isLocal s addr = true → regionBusy s (localOf addr) = false →
    checkAccess s s.cur.tenant s.cur.trusted addr (plainAccess false 8) = some c →
    exec (.ld d a i) s = .next (takeTrap s c 0 addr false false)) ∧
  (∀ (s : State) (a b : Reg) (i : BitVec 12) (c : Nat), Ready s [a, b] [] → s.cur.hold = none →
    let addr := arg1 s a + BitVec.ofInt 64 i.toInt
    isLocal s addr = true → regionBusy s (localOf addr) = false →
    checkAccess s s.cur.tenant s.cur.trusted addr (plainAccess true 8) = some c →
    exec (.sd a b i) s = .next (takeTrap s c 0 addr false false)) ∧
  (∀ (s : State) (t : Nat) (tr wr : Bool) (a : Word) (e : HEntry),
    let check := checkAccess s t tr a (plainAccess wr 8)
    let l := localOf a
    (fieldNat a 63 56 ≠ 0 → check = some 0x11) ∧
    (fieldNat a 63 56 = 0 → l % 8 ≠ 0 → l < 0x2000000000 → check = some 0x07) ∧
    (fieldNat a 63 56 = 0 → l % 8 = 0 → l < 0x2000000000 → isLocal s a = true → bankRetired s l = false →
      (regionAt s l = none → check = some 0x11) ∧
      (regionAt s l = some e → tr = false → e.owner ≠ t → check = some 0x04) ∧
      (regionAt s l = some e → (tr = true ∨ e.owner = t) → check = if wr && e.sealed then some 0x03 else none)) ∧
    (fieldNat a 63 56 = 0 → l % 8 = 0 → isLocal s a = true → 0x2100000000 ≤ l → l < 0x2200000000 →
      check = if tr then none else some 0x11) ∧
    (fieldNat a 63 56 = 0 → l % 8 = 0 → isLocal s a = true → 0x2200000000 ≤ l → l < 0x8000000000 → check = some 0x11))

/-! ### Ordering, ranges and seals -/

/-- The fences and `cwait` (R141, R156, R355, R360, R424): each waits for the counters of its classes, a store that waits in
the core's own slice standing in class near, and a fence for the slot's values in flight; `fence.s` also discards the core's
L1 copies of other packages' lines held for the tenant; a class that has failed raises cause 0x13 with its count cleared. -/
def fencesClaim : Prop :=
  ∀ (s : State),
    let c := countersOf s s.cur.core s.cur.tenant
    let slice := sliceStoreWaits s s.cur.core s.cur.tenant = true
    let done := fun (k : WaitClass) => c.out k = 0 ∧ c.fails k = 0 ∧ (k = .near → ¬slice)
    let classes : Instr → List WaitClass := fun i =>
      if i = .fenceC then [.near] else if i = .fenceS then [.near, .die, .far] else [.near, .die]
    (∀ i ∈ [Instr.fenceC, .fenceD, .fenceP], s.cur.inflight = [] → (∀ k ∈ classes i, done k) →
      exec i s = .next (retire s s.cur)) ∧
    (s.cur.inflight = [] → (∀ k ∈ classes .fenceS, done k) → ∃ t, exec .fenceS s = .next t ∧
      t = { s with cur := s.cur.retire, eng := { s.eng with farCopies := t.eng.farCopies } } ∧
      ∀ f, f ∈ t.eng.farCopies ↔ f ∈ s.eng.farCopies ∧ ¬(f.core = s.cur.core ∧ f.tenant = s.cur.tenant)) ∧
    (∀ i ∈ [Instr.fenceC, .fenceD, .fenceP, .fenceS],
      (s.cur.inflight ≠ [] ∨ slice ∨ ∃ k ∈ classes i, c.out k ≠ 0) → exec i s = .next s) ∧
    (∀ (n : BitVec 5) (k : WaitClass), (n = 1 ∧ k = .near) ∨ (n = 2 ∧ k = .die) ∨ (n = 3 ∧ k = .far) →
      (done k → exec (.cwait n) s = .next (retire s s.cur)) ∧
      (c.out k ≠ 0 ∨ k = .near ∧ slice → exec (.cwait n) s = .next s) ∧
      (c.out k = 0 → ¬(k = .near ∧ slice) → c.fails k ≠ 0 → Alone s → trapFatal s 0x13 = false → exec (.cwait n) s =
        .next (enterTrap (setCounters s s.cur.core s.cur.tenant (c.mapFails k fun _ => 0)) 0x13 0 false)))

/-- `dwb`, `icinv`, `fbar` and the end of an `icinv` (R142, R358, R359, R365): a length of 0 does nothing; a range of more than
2^32 bytes raises 0x02; `dwb` waits for the near and die classes, begins the write-back of the slices that home its lines,
holds the slot and goes on when none of them counts one; `icinv` notes its lines, which leave every instruction cache when it
completes, its task in the slot or not; `fbar` waits until the slot's `icinv`s have completed. -/
def rangesClaim : Prop :=
  (∀ (s : State) (b l : Reg), Ready s [b, l] [] →
    let x := arg1 s b
    let n := arg2 s b l
    let t := read2 s b l
    let last := BitVec.ofNat 64 (x.toNat + n.toNat - 1)
    let fine := n.toNat ≤ 2 ^ 32 ∧ x.toNat + n.toNat ≤ 2 ^ 64 ∧ fieldNat x 63 56 = 0 ∧ fieldNat last 63 56 = 0 ∧
      isLocal s x = true ∧ isLocal s last = true ∧ rangeCause s s.cur.tenant s.cur.trusted (localOf x) n.toNat = none
    (n = 0 → exec (.dwb b l) s = .next (retire s t) ∧ exec (.icinv b l) s = .next (retire s t)) ∧
    (2 ^ 32 < n.toNat → ∀ i ∈ [Instr.dwb b l, .icinv b l], exec i s = .next (takeTrap s 0x02 0 0 false false)) ∧
    (n ≠ 0 → fine →
      let hs := rangeHomes s (localOf x) n.toNat
      let c := countersOf s s.cur.core s.cur.tenant
      (s.cur.hold = none → c.near ≠ 0 ∨ c.die ≠ 0 → exec (.dwb b l) s = .next s) ∧
      (s.cur.hold = none → c.near = 0 → c.die = 0 → hs = [] → exec (.dwb b l) s = .next (retire s t)) ∧
      (s.cur.hold = none → c.near = 0 → c.die = 0 → hs ≠ [] → ∃ u, exec (.dwb b l) s = .next u ∧
        u = { s with cur := { s.cur with hold := some .writeback }, eng := { s.eng with writebacks := u.eng.writebacks } } ∧
        ∀ h ∈ hs, writebacks u h s.cur.tenant ≠ 0) ∧
      (s.cur.hold = some .writeback → (∀ h ∈ hs, writebacks s h s.cur.tenant = 0) →
        exec (.dwb b l) s = .next (retire s { t with hold := none })) ∧
      (s.cur.hold = some .writeback → (∃ h ∈ hs, writebacks s h s.cur.tenant ≠ 0) → exec (.dwb b l) s = .next s)) ∧
    (n ≠ 0 → fine → s.cur.icinvs.length < 8 → exec (.icinv b l) s = .next (retire s { t with
      icinvs := s.cur.icinvs ++ [(s.cur.slot?.getD 0, localOf x / 64, (localOf x + n.toNat - 1) / 64)] }))) ∧
  (∀ (s : State), (s.cur.icinvs = [] → exec .fbar s = .next (retire s s.cur)) ∧
    (s.cur.icinvs ≠ [] → exec .fbar s = .next s)) ∧
  (∀ (s : State) (core slot : Nat) (t : Task) (lo hi : Nat) (rs : List (Nat × Nat × Nat)),
    ((allTasks s).find? fun u => u.core == core && u.icinvs.any fun r => r.1 == slot) = some t → t.icinvs = (slot, lo, hi) :: rs →
    let u := { s with eng := { s.eng with icache := s.eng.icache.filter fun l => !(decide (lo ≤ l.line) && decide (l.line ≤ hi)) } }
    exec (.icinvComplete core slot) s = .next (onTask u t.key fun v => modCur v fun t =>
      { t with icinvs := t.icinvs.erase (slot, lo, hi) }))

/-- Fences, ranges and instruction-cache invalidation together. The model's own choices here are those of log entry 17.
-/
def Obligations.FencesAndRanges : Prop := fencesClaim ∧ rangesClaim

/-- `bchk` (R347): it reads its bounds and its address and goes on where low ≤ address < high, unsigned; otherwise it raises
cause 0x02. -/
def boundsCheckClaim : Prop :=
  ∀ (s : State) (a l h : Reg), Ready s [a, l, h] [] →
    let low := arg1 s l
    let high := arg2 s l h
    let x := arg3 s l h a
    (low.toNat ≤ x.toNat ∧ x.toNat < high.toNat → exec (.bchk a l h) s = .next (retire s (read3 s l h a))) ∧
    (¬(low.toNat ≤ x.toNat ∧ x.toNat < high.toNat) → exec (.bchk a l h) s = .next (takeTrap s 0x02 0 0 false false))

/-- Branches and the bounds check together. -/
def Obligations.BranchesAndBounds : Prop := branchesClaim ∧ boundsCheckClaim

/-- `seal` and `unseal` (R267, R268, R286, R409): sealing a whole unsealed region of the tenant sets SEAL[n] VALID with
the class, the owner and GEN one higher, sets HMAP[n].SEALED and CLASS, and gives the handle; sealing a sealed region
raises 0x03. `unseal` of a live handle clears VALID and SEALED. The model's own choices here are those of log entry 16.
-/
def Obligations.Seals : Prop :=
  ∀ (s : State) (h b l : Reg) (e : HEntry), Alone s →
    (Ready s [b, l] [h] → destRoom s.cur h = true → exactRegion s (arg1 s b) (fieldNat (arg2 s b l) 39 0) = some e →
      let c := fieldNat (arg2 s b l) 41 40
      fieldNat (arg2 s b l) 63 42 = 0 → c ≠ 3 → (s.cur.trusted = true ∨ e.owner = s.cur.tenant ∧ c = 0) →
      (e.sealed = true → exec (.seal h b l) s = .next (takeTrap s 0x03 0 (arg1 s b) false false)) ∧
      (e.sealed = false → e.owner < 64 → e.n < 4096 → ∃ u v w : State, exec (.seal h b l) s = .next w ∧ u = settle v ∧
        (let handle := BitVec.ofNat 64 (fieldNat (ctlGet u (sealOff e.n)) 59 56 * 4096 + e.n)
         w = retireAlone u { u.cur with ctx := setG (read2 s b l).ctx h handle }) ∧
        (let x := ctlGet v (sealOff e.n)
         bitOf x 63 = true ∧ bitOf x 62 = false ∧ fieldNat x 61 60 = c ∧ fieldNat x 55 50 = e.owner ∧
         fieldNat x 59 56 = (fieldNat (ctlGet s (sealOff e.n)) 59 56 + 1) % 16 ∧
         fieldNat x 47 0 = fieldNat (ctlGet s (sealOff e.n)) 47 0) ∧
        (let x := ctlGet v (hmapOff e.n false)
         bitOf x 60 = true ∧ fieldNat x 59 58 = c ∧ fieldNat x 57 0 = fieldNat (ctlGet s (hmapOff e.n false)) 57 0))) ∧
    (Ready s [h] [] →
      let x := arg1 s h
      let n := x.toNat % 4096
      let w := ctlGet s (sealOff n)
      let live := fieldNat x 63 16 = 0 ∧ bitOf w 63 = true ∧ fieldNat w 59 56 = fieldNat x 15 12
      (¬live → exec (.unseal h) s = .next (takeTrap s 0x02 0 0 false false)) ∧
      (live → s.cur.trusted = true ∨ fieldNat w 61 60 = 0 ∧ fieldNat w 55 50 = s.cur.tenant →
        ∃ v : State, exec (.unseal h) s = .next (settle (retireAlone v { v.cur with ctx := (read1 s h).ctx })) ∧
          bitOf (ctlGet v (sealOff n)) 63 = false ∧ bitOf (ctlGet v (hmapOff n false)) 60 = false ∧
          (∀ o, 8 * (o / 8) ≠ sealOff n → 8 * (o / 8) ≠ hmapOff n false → ctlGet v o = ctlGet s o)))

/-! ### Chunks and tasks -/

/-- Nothing waits at a home or in a hold queue, so that no waiter is examined (R158). -/
abbrev Quiet (s : State) : Prop := s.eng.waiters = [] ∧ s.fab.holdQ = []

/-- The executing chunk may commit as it stands: it holds the baton, stands next in the order of its cycle, meets no other
running chunk, writes no sealed region and finds its counters with room (R113, R115, R118, R120, R140, R410). -/
abbrev MayCommit (s : State) : Prop :=
  hasBaton s = true ∧ commitOpen s = true ∧ writesSealed s s.cur.chunk.log = false ∧ commitFoes s = [] ∧
    countersBlock s s.cur.chunk.log = false

/-- A commit publishes the chunk's held stores (R110, R118, R131, R151): `cmt`, with itself as the last instruction, and the
commit of a chunk that has ended leave the stored bytes in memory, every other byte as it was, the tags as they were, and a
new chunk that begins at the registers as they stand. A chunk without the baton, or whose turn in the order of its cycle has
passed (R120, R152), waits. The model's own choices here are those of log entries 53 and 55. -/
def Obligations.Commits : Prop :=
  ∀ (s : State) (a : Nat) (bs : List Byte), s.mem.wf = true → s.cur.chunk.log = [.store a bs] → Quiet s →
    poisonBlocks s.mem a bs.length = false → s.cur.ctx.msgDone = false →
    ∀ i ∈ [Instr.cmt, .chunkCommit], (i = .chunkCommit → s.cur.chunk.due = true) →
      let u := if i = .cmt then { s with cur := s.cur.retire } else s
      (MayCommit u → ∃ t, exec i s = .next t ∧
        (∀ k, k < bs.length → t.mem.read (a + k) = bs.getD k 0) ∧
        (∀ q, (q < a ∨ a + bs.length ≤ q) → t.mem.read q = s.mem.read q) ∧
        (∀ q, t.mem.full q = s.mem.full q) ∧
        t.cur.ctx = u.cur.ctx ∧ t.cur.chunk = Chunk.begin u.cur.ctx s.time false ∧ t.ctl = s.ctl ∧ t.conf = s.conf) ∧
      (hasBaton u = false ∨ commitOpen u = false →
        ∃ t, exec i s = .next t ∧ t.mem = s.mem ∧ t.cur.ctx = u.cur.ctx ∧ t.cur.chunk.due = true)

/-- The limits and the token of a chunk (R110, R115, R116): at 512 instructions the chunk commits as it stands, but the first
chunk of a rule task aborts to its start and re-executes in serial mode; a free commit token goes to a serial chunk that
waits for it, none of the others that wait being older. -/
def chunkLimitsClaim : Prop :=
  ∀ (s : State), 512 ≤ s.cur.chunk.instrs →
    ((s.cur.kind ≠ .rule ∨ s.cur.chunk.first = false) → exec .chunkInstructionLimit s = .next (commitNow s).state) ∧
    (s.cur.kind = .rule → s.cur.chunk.first = true → s.cur.chunk.serial = false → s.cur.chunk.want = none →
      s.cur.chunk.allocs = [] → Unseen s (0x4000000 + 8 * abortEntry s.cur.chunk) →
      ∃ t, exec .chunkInstructionLimit s = .next t ∧ t.cur.ctx = s.cur.chunk.start ∧ t.cur.chunk.serial = true ∧
        t.cur.chunk.limited = true ∧ t.cur.chunk.want = some (.cluster (clusterOf s.cur.core)) ∧
        t.cur.chunk.log = [] ∧ t.cur.chunk.instrs = 0 ∧ t.mem = s.mem ∧ t.ctl = s.ctl)

/-- SERIAL_TOKEN_GRANT (R113, R115): a token that no running serial chunk's scope meets goes to one of the chunks in slots that
wait for it, none of them older. -/
def tokenGrantClaim : Prop :=
  ∀ (s : State) (scope : TokenScope),
    (∀ e ∈ s.sched.tokens, e.1 ≠ scope ∧
      (scopesMeet e.1 scope = true → ∀ t, findTask s e.2 = some t → t.chunk.serial = false ∨ awaitsToken s t = true)) →
    let asks := fun (u : Task) => u.chunk.want = some scope ∧ u.chunk.serial = true ∧ awaitsToken s u = true ∧
      u.slot?.isSome = true ∧ halts s u = false ∧ batonAt s u = true
    (∃ u ∈ allTasks s, asks u) →
    ∃ u ∈ allTasks s, asks u ∧ (∀ v ∈ allTasks s, asks v → older v u = false) ∧
      exec (.serialTokenGrant scope) s =
        .next { s with sched := { s.sched with tokens := s.sched.tokens ++ [(scope, u.key)] } }

/-- The limits of a chunk and the grant of commit tokens together. The model's own choices here are those of log entries 20
and 60. -/
def Obligations.ChunkLimits : Prop := chunkLimitsClaim ∧ tokenGrantClaim

/-- The ends of a task and of a slot (R89, R420, R428, R429): `tend` of a task that runs no child inline ends it; with an
inline child it gives the slot back to the parent, whose destination receives 1; where that names g0 or g28 nothing is
written, where it names g29 the word joins the queue of `dep`; `yield` commits and the task stands in its core's run queue, or
goes on where the queue is full or it is a gang member. The model's own choices here are those of log entries 7 and 15. -/
def Obligations.TaskEnds : Prop :=
  ∀ (s : State),
    (Alone s → s.cur.inline = none → exec .tend s = .next (endTask s)) ∧
    (∀ i : Inline, Alone s → s.cur.inline = some i → arrayPart s s.cur.key = false →
      saveRec s s.cur.tenant s.cur.core i.number = none →
      ∃ t, exec .tend s = .next t ∧ (i.d ≠ 0 → i.d ≠ 28 → i.d ≠ 29 → getG t.cur.ctx i.d = 1) ∧
        t.cur.ctx.sendq = (if i.d = 29 then i.ctx.sendq ++ [1] else i.ctx.sendq) ∧ t.cur.ctx.pc = i.ctx.pc ∧ t.cur.inline = none ∧
        t.cur.waits = i.waits ∧ t.cur.msg = i.msg ∧ t.cur.ctx.flags = i.ctx.flags ||| s.cur.ctx.flags ∧
        (∀ r, r ≠ i.d → getG t.cur.ctx r = getG i.ctx r) ∧ OnlyTask s t) ∧
    (∀ c : State, commitNow { s with cur := s.cur.retire } = .done c →
      (Quiet c → s.cur.gang = none → s.cur.inline = none → queueFull c s.cur.core = false →
        saveRec c c.cur.tenant c.cur.core c.cur.number = none →
        ∃ t, exec .yield s = .next t ∧ t.cur.status = .yielded ∧ t.cur.inflight = [] ∧ t.cur.key = c.cur.key ∧ t.mem = c.mem) ∧
      (s.cur.gang ≠ none ∨ s.cur.inline ≠ none ∨ queueFull c s.cur.core = true → exec .yield s = .next c)) ∧
    (∀ (t : State), s.cur.deferred = [] → s.cur.icinvs = [] → s.cur.gang = none → s.cur.net = none →
      saveRec s s.cur.tenant s.cur.core s.cur.number = none → Quiet s → t = endTask s →
      (∀ u ∈ s.tasks, (0x2100000000 + sealUseOff (s.cur.handle.toNat % 4096)) / 64 ∉ u.chunk.rlines ++ u.chunk.wlines) →
      t.cur = Task.vacant s.cur.core ∧ t.mem = s.mem ∧ t.ctl = s.ctl ∧ t.fab = s.fab ∧
      t.tasks.map (fun u => (u.key, u.status, u.ctx, u.chunk)) = s.tasks.map fun u => (u.key, u.status, u.ctx, u.chunk))

/-- `spawn` and `spawn.ord` (R84, R118, R418, R419): the child enters the run queue of the named core with the parent's
tenant, priority and image, its entry as pc, the parent's g4 and g10 to g13, and all other registers zero; an ord child takes
the next place among the parent's; the destination receives 0. -/
def spawnsClaim : Prop :=
  ∀ (s : State) (d t e : Reg), Alone s → Ready s [t, e, 4, 10, 11, 12, 13] [d] → destRoom s.cur d = true →
    let core := (arg1 s t).toNat
    let y := arg2 s t e
    y.toNat % 4 = 0 → y.toNat < textLength s s.cur → coreEnabled s core = true → queueFull s core = false →
    ∀ i ∈ [Instr.spawn d t e, .spawnOrd d t e], ∃ u c, exec i s = .next u ∧
      u.cur = ({ s.cur with ctx := setG (read2 s t e).ctx d 0,
                            ordNext := s.cur.ordNext + (if i = .spawnOrd d t e then 1 else 0) } : Task).retireAlone s.time ∧
      u.tasks = insertTask c s.tasks ∧ c.key = s.nextKey ∧ u.nextKey = s.nextKey + 1 ∧ u.mem = s.mem ∧
      c.kind = .spawn ∧ c.status = .unstarted ∧ c.core = core ∧ c.tenant = s.cur.tenant ∧ c.prio = s.cur.prio ∧
      c.handle = s.cur.handle ∧ c.trusted = s.cur.trusted ∧ c.launch = s.cur.launch ∧ c.origin = s.cur.taskId ∧
      c.ord = (if i = .spawnOrd d t e then some (s.cur.key, s.cur.ordNext) else none) ∧
      c.ctx.pc = entryPc s s.cur.handle y.toNat ∧
      (∀ r : Reg, getG c.ctx r = if r ∈ [4, 10, 11, 12, 13] then getG s.cur.ctx r else 0) ∧
      c.ctx.v = Vector.replicate 32 0 ∧ c.ctx.gFull = BitVec.allOnes 32 ∧ c.ctx.flags = 0

/-- `spawn.row` and `spawn.cl` (R95, R123, R421): the request joins the gang queue of the cluster that holds its target, at
its end or before requests of the same cycle, and the destination receives 2; where the queue holds 32 the slot waits. -/
def gangSpawnsClaim : Prop :=
  ∀ (s : State) (d t e : Reg), Alone s → Ready s [t, e, 4, 10, 11, 12, 13] [d] → destRoom s.cur d = true →
    let n := (arg1 s t).toNat
    let y := arg2 s t e
    y.toNat % 4 = 0 → y.toNat < textLength s s.cur →
    ∀ cl : Bool, (if cl then n < 64 ∧ rowEnabled s (2 * n) = true ∧ rowEnabled s (2 * n + 1) = true
        else n < 128 ∧ rowEnabled s n = true) →
      let i := if cl then Instr.spawnCl d t e else Instr.spawnRow d t e
      let c := if cl then n else n / 2
      let q := Tab.get s.sched.gangQ c []
      (q.length < 32 → ∃ u r l₁ l₂, exec i s = .next u ∧ q = l₁ ++ l₂ ∧ Tab.get u.sched.gangQ c [] = l₁ ++ r :: l₂ ∧
        ((∀ x ∈ q, x.since ≠ s.time) → l₂ = []) ∧ r.id = s.nextKey ∧ r.cl = cl ∧
        r.target = n ∧ r.entry = y ∧ r.tenant = s.cur.tenant ∧ r.handle = s.cur.handle ∧ r.since = s.time ∧
        r.args = [getG s.cur.ctx 10, getG s.cur.ctx 11, getG s.cur.ctx 12, getG s.cur.ctx 13] ∧
        u.cur = ({ s.cur with ctx := setG (read2 s t e).ctx d 2 } : Task).retireAlone s.time ∧ u.mem = s.mem) ∧
      (32 ≤ q.length → exec i s = .next s)

/-- Single and gang spawns together. The model's own choices here are those of log entry 15. -/
def Obligations.Spawns : Prop := spawnsClaim ∧ gangSpawnsClaim

/-- The barriers (R98, R363, R364): a task outside a gang passes at once, as does a row-gang member at a cluster
barrier; a member reaches its next barrier and waits; it passes when every joined member has reached its own or ended.
The model's own choices here are those of log entry 7. -/
def Obligations.Barriers : Prop :=
  (∀ (s : State), Alone s →
    (gangOf s s.cur = none → ∀ i ∈ [Instr.gsyncRow, .gsyncCl], exec i s = .next (retireAlone s s.cur)) ∧
    (∀ g m, gangOf s s.cur = some (g, m) →
      (exec .gsyncRow s = .next (modCur (mapMember s g.id m.pos fun x => { x with rowAt := x.rowAt + 1 })
        fun t => { t with hold := some (.gsync false) })) ∧
      (g.cl = false → exec .gsyncCl s = .next (retireAlone s s.cur)) ∧
      (g.cl = true → exec .gsyncCl s = .next (modCur (mapMember s g.id m.pos fun x => { x with clAt := x.clAt + 1 })
        fun t => { t with hold := some (.gsync true) })))) ∧
  (∀ (s : State) (core slot : Nat) (t : Task) (g : Gang) (m : Member) (cl : Bool), taskAt s core slot = some t →
    t.hold = some (.gsync cl) → gangOf s t = some (g, m) →
    let arrived := fun (x : Member) => x.ended = true ∨ (if cl then m.clAt ≤ x.clAt else m.rowAt ≤ x.rowAt)
    let joins := fun (x : Member) => x ∈ g.members ∧ (cl = true ∨ x.pos / 8 = m.pos / 8)
    ((∀ x, joins x → arrived x) → exec (.gsyncPass core slot) s = .next (onTask
      (mapMember s g.id m.pos fun x => if cl then { x with clPast := x.clPast + 1 } else { x with rowPast := x.rowPast + 1 })
      t.key fun v => retireAlone v { v.cur with hold := none, since := v.time })) ∧
    ((∃ x, joins x ∧ ¬arrived x) → exec (.gsyncPass core slot) s = .next s))

/-! ### Messages, waits and status -/

/-- `msg` and `mdone` (R87, R381, R382, R388, R389): a name of 2^26 or more, or a count above the words queued, raises 0x02;
a core of this package that is not there gives 1 and keeps the queue; otherwise the first words of the queue go out with the
route tag, inside the package or as an OP 5 flit, the destination receives 0, and the words leave the queue. After `mdone`
the current message has no word left. -/
def Obligations.Messages : Prop :=
  (∀ (s : State) (d n : Reg) (g : BitVec 8) (c : BitVec 4), Ready s [n] [d] → Alone s → depPending s.cur = 0 →
    let x := (arg1 s n).toNat
    let q := s.cur.ctx.sendq
    let i := Instr.msg d n g c
    let t := read1 s n
    (2 ^ 26 ≤ x ∨ q.length < c.toNat → exec i s = .next (takeTrap s 0x02 0 0 false false)) ∧
    (x < 2 ^ 26 → c.toNat ≤ q.length → x / 1024 = s.conf.pkg → coreEnabled s (x % 1024) = false → destRoom s.cur d = true →
      exec i s = .next (retireAlone s { t with ctx := setG t.ctx d 1 })) ∧
    (x < 2 ^ 26 → c.toNat ≤ q.length → d ≠ 29 → msgHeld s (arg1 s n) = false →
      let sent := fun (u : State) => u.cur = ({ t with ctx := setG { t.ctx with sendq := q.drop c.toNat } d 0 } : Task).retireAlone s.time
      let counts := fun (u : State) (k : WaitClass) => countersOf u s.cur.core s.cur.tenant =
        (countersOf s s.cur.core s.cur.tenant).mapOut k (· + 1)
      (x / 1024 = s.conf.pkg → coreEnabled s (x % 1024) = true →
        let k := if s.cur.core / 16 = x % 1024 / 16 then WaitClass.near else .die
        counterFull s s.cur.core s.cur.tenant k = false → ∃ u, exec i s = .next u ∧ sent u ∧ counts u k ∧
          u.fab.netMsgs = s.fab.netMsgs ++ [⟨s.cur.core, x % 1024,
            ⟨s.conf.pkg * 1024 + s.cur.core, s.cur.slot?.getD 0, g.toNat, q.take c.toNat, s.cur.tenant, 0, 0, 0⟩, 256, none, true⟩] ∧ u.mem = s.mem) ∧
      (x / 1024 ≠ s.conf.pkg → counterFull s s.cur.core s.cur.tenant .far = false → ∃ u r, exec i s = .next u ∧ sent u ∧
        counts u .far ∧ u.fab.outReqs = s.fab.outReqs ++ [r] ∧ r.flit.op = 5 ∧ r.flit.cls = 2 ∧ r.flit.dest = x / 1024 ∧
        r.flit.dcore = x % 1024 ∧ r.flit.words = BitVec.ofNat 64 (g.toNat + 2 ^ 8 * c.toNat) :: q.take c.toNat ∧
        u.mem = s.mem))) ∧
  (∀ (s : State), exec .mdone s = .next (retire s (match s.cur.msg with
      | none => s.cur
      | some m => { s.cur with ctx := { s.cur.ctx with msgPos := m.words.length, msgDone := true } })) ∧
    ∀ t, exec .mdone s = .next t → ainLeft t.cur = 0)

/-- `wset` (R102, R453, R454): a slot takes its condition and operands, unsatisfied, and the condition is evaluated once; a
condition on memory is checked as a read of a word, and one on a word of another package arms there by an OP 3 request, whose
identifier the slot keeps for the report, and here once that is answered; a class outside 1 to 3, a tag above 255 and a word
that is no ticket raise 0x02. -/
def waitSlotsClaim : Prop :=
  ∀ (s : State) (n : BitVec 2) (c : WaitCond) (a b : Reg), Ready s [a, b] [] →
    let x := arg1 s a
    let y := arg2 s a b
    let t := read2 s a b
    let i := Instr.wset n c a b
    let arms := exec i s = .next (observe (retire s { t with waits := t.waits.set n.toNat ⟨some c, x, y, false, false, none⟩ n.isLt }))
    let traps := exec i s = .next (takeTrap s 0x02 0 0 false false)
    let word := c = .full ∨ c = .empty ∨ c = .diff
    (word → isLocal s x = true → regionBusy s (localOf x) = false →
      checkAccess s s.cur.tenant s.cur.trusted x ⟨false, 8, 8, true, false, false⟩ = none → arms) ∧
    (word → isLocal s x = false → Alone s → requestsOut s s.cur.core < 256 →
      checkAccess s s.cur.tenant s.cur.trusted x ⟨false, 8, 8, true, false, false⟩ = none → ∃ u r, exec i s = .next u ∧
        u.fab.outReqs = s.fab.outReqs ++ [r] ∧ r.flit.op = 3 ∧ r.flit.dest = pkgOf x ∧ r.flit.words.head? = some x ∧
        u.cur = { s.cur with hold := some (.reply r.reqid), lanes := [BitVec.ofNat 64 r.reqid] } ∧ u.mem = s.mem) ∧
    (word → isLocal s x = false → s.cur.chunk.fresh = true → s.cur.chunk.serial = false → hasBaton s = true →
      ∀ (v : VWord) (g : Bool) (k : Word), s.cur.hold = some (.answer none v g) → s.cur.lanes = [k] →
      exec i s = .next (observe (retireAlone s { t with
        hold := none, lanes := [], waits := t.waits.set n.toNat ⟨some c, x, y, false, false, some k.toNat⟩ n.isLt }))) ∧
    (c = .bag ∨ c = .time → arms) ∧
    (c = .cnt → if 1 ≤ x.toNat ∧ x.toNat ≤ 3 then arms else traps) ∧
    (c = .msg → if x.toNat ≤ 255 then arms else traps) ∧
    (c = .ticket → if bitOf x 63 = true then arms else traps)

/-- `wait` and the steps that end it (R103, R452): the destination receives the enabled slots' satisfied bits, with bit 8 where
the deadline came first; a rule not met holds the slot, with a deadline where a register was named; a rule met at the
deadline wins. -/
def Obligations.Waits : Prop :=
  (∀ (s : State) (e : BitVec 4) (all : Bool) (d r : Reg), Ready s [r] [d] → Alone s → destRoom s.cur d = true →
    let t := read1 s r
    let l := if r = 0 then none else some (s.time / 17 + (arg1 s r).toNat)
    let bits := satBits t
    let met := if all then ∀ k, k < 4 → e.getLsbD k = true → bits.getLsbD k = true
      else ∃ k, k < 4 ∧ e.getLsbD k = true ∧ bits.getLsbD k = true
    (met → exec (.wait e all d r) s =
      .next (retireAlone s { t with hold := none, since := s.time, ctx := setG t.ctx d (bits.zeroExtend 64) })) ∧
    (¬met → r ≠ 0 → (arg1 s r).toNat = 0 → exec (.wait e all d r) s =
      .next (retireAlone s { t with hold := none, since := s.time, ctx := setG t.ctx d (bits.zeroExtend 64 ||| 0x100) })) ∧
    (¬met → (r = 0 ∨ (arg1 s r).toNat ≠ 0) →
      exec (.wait e all d r) s = .next { s with cur := { t with hold := some (.wait e all d l) } })) ∧
  (∀ (s : State) (core slot : Nat) (t : Task) (e : BitVec 4) (all : Bool) (d : Reg) (l : Option Nat),
    taskAt s core slot = some t → t.hold = some (.wait e all d l) →
    let met := if all then satBits t &&& e = e else satBits t &&& e ≠ 0
    let ends := fun (late : Bool) => onTask s t.key fun v => retireAlone v { v.cur with
      hold := none, since := v.time, ctx := setG v.cur.ctx d ((satBits v.cur).zeroExtend 64 ||| if late then 0x100 else 0) }
    (met → exec (.waitReturn core slot) s = .next (ends false)) ∧
    (¬met → exec (.waitReturn core slot) s = .next s) ∧
    (∀ n, l = some n → n ≤ s.time / 17 → (met → exec (.waitTimeout core slot) s = .next (ends false)) ∧
      (¬met → exec (.waitTimeout core slot) s = .next (ends true))) ∧
    (∀ n, l = some n → s.time / 17 < n → exec (.waitTimeout core slot) s = .next s))

/-- WAIT_LATCH (R102): an armed slot of a task whose condition has been observed, or holds now, becomes satisfied; the task's
other slots keep their latches. -/
def latchesClaim : Prop :=
  ∀ (s : State) (slot ws : Nat) (h : ws < 4), s.cur.status = .resident slot → taskAt s s.cur.core slot = some s.cur →
    ∃ t, exec (.waitLatch s.cur.core slot ws) s = .next t ∧ OnlyTask s t ∧
      (∀ k, (hk : k < 4) → k ≠ ws → t.cur.waits[k] = s.cur.waits[k]) ∧
      (t.cur.waits[ws].sat = true ↔ s.cur.waits[ws].sat = true ∨ s.cur.waits[ws].seen = true ∨
        condHolds s s.cur s.cur.waits[ws] = true) ∧
      (s.cur.waits[ws].cond = none → condHolds s s.cur s.cur.waits[ws] = false) ∧
      t.cur.waits[ws].a = s.cur.waits[ws].a ∧ t.cur.waits[ws].cond = s.cur.waits[ws].cond

/-- Wait slots and their latches together. The model's own choices here are those of log entry 62 (the request that arms a
condition on a word of another package, and its report). -/
def Obligations.WaitSlots : Prop := waitSlotsClaim ∧ latchesClaim

/-- `slp` and SLP_WAKE (R104, R148, R415, R416): a sleep until a time of the time base that has come, or on a ticket whose
record is gone, goes on at once; a ticket at its promise goes on, or takes cause 0x06, which resumes at the `slp` with its
operand unread, where its copy is still pending, which then completes in a later cycle (markMissed); otherwise the slot
sleeps, its operand read (R70). -/
def Obligations.Sleeps : Prop :=
  (∀ (s : State) (r : Reg), Ready s [r] [] → Alone s →
    let x := arg1 s r
    let done := retireAlone s { read1 s r with hold := none, since := s.time }
    (bitOf x 63 = false → x.toNat ≤ s.time → exec (.slp r) s = .next done) ∧
    (bitOf x 63 = false → s.time < x.toNat → exec (.slp r) s = .next { s with cur := { read1 s r with hold := some (.slp x) } }) ∧
    (bitOf x 63 = true → fieldNat x 31 16 ≠ 0 → exec (.slp r) s = .next (takeTrap s 0x02 0 0 false false)) ∧
    (bitOf x 63 = true → fieldNat x 31 16 = 0 → ticketRec s s.cur.core s.cur.tenant x = none →
      exec (.slp r) s = .next done) ∧
    (∀ c, bitOf x 63 = true → fieldNat x 31 16 = 0 → ticketRec s s.cur.core s.cur.tenant x = some c →
      (promiseNow s s.cur.core c ≤ s.time → c.state ≠ .pending → exec (.slp r) s = .next done) ∧
      (promiseNow s s.cur.core c ≤ s.time → c.state = .pending → exec (.slp r) s =
        .next (takeTrap (modCur (markMissed s s.cur.core x) Task.unread) 0x06 0 0 false false)) ∧
      (s.time < promiseNow s s.cur.core c → exec (.slp r) s = .next { s with cur := { read1 s r with hold := some (.slp x) } }))) ∧
  (∀ (s : State) (core slot : Nat) (t : Task) (x : Word), taskAt s core slot = some t → t.hold = some (.slp x) →
    bitOf x 63 = false →
    (x.toNat ≤ s.time → exec (.slpWake core slot) s = .next (onTask s t.key fun v =>
      retireAlone v { v.cur with hold := none, since := v.time })) ∧
    (s.time < x.toNat → exec (.slpWake core slot) s = .next s))

/-- `getst`, `tgctl` and `rpt` (R73, R361, R362, R406, R430, Table 21.3): the words of the status table; `tgctl` holds its
update with the chunk and refuses a tag above 255, a control above 3 and an entry that is not VALID; `rpt` makes the next
len words a body. -/
def Obligations.StatusAndRepetition : Prop :=
  ∀ (s : State),
    (∀ (d : Reg) (n : BitVec 5), Ready s [] [d] → destRoom s.cur d = true →
      let t := s.cur
      let w : Nat → Word := BitVec.ofNat 64
      let value := [w t.core, w (t.core / 16), w (t.core / 8), w ((t.gang.map (·.2)).getD 0), w t.tenant, w s.time,
        w (s.time / 17), t.taskId, t.ctx.trapCause, t.ctx.trapPc, t.ctx.trapIdx, t.ctx.flags.zeroExtend 64, t.entryPb,
        w s.conf.pkg, w s.conf.incarnation]
      (Instr.getst d n).WellFormed → exec (.getst d n) s = .next (wrote s t d (value.getD n.toNat 0))) ∧
    (∀ (a b : Reg), Ready s [a, b] [] →
      let x := (arg1 s a).toNat
      let y := (arg2 s a b).toNat
      (x < 256 → y < 4 → bitOf (htabWord s s.cur.tenant x) 63 = true → exec (.tgctl a b) s = .next (retire s
        { read2 s a b with chunk := { s.cur.chunk with log := s.cur.chunk.log ++ [.tgctl x (BitVec.ofNat 2 y)] } })) ∧
      (256 ≤ x ∨ 4 ≤ y ∨ bitOf (htabWord s s.cur.tenant x) 63 = false →
        exec (.tgctl a b) s = .next (takeTrap s 0x02 0 0 false false))) ∧
    (∀ (c : BitVec 6) (l : BitVec 4) (k : RptStride), exec (.rpt c l k) s = .next { s with cur := { s.cur with
      ctx := { s.cur.ctx with pc := s.cur.ctx.pc + 4, rep := some ⟨s.cur.ctx.pc + 4, l.toNat + 1, c.toNat + 1,
        (match k with
          | .s1 => 1
          | .s2 => 2
          | .s4 => 4
          | .s8 => 8), 0, 0⟩ }
      chunk := countInstr s.cur.chunk } })

/-! ### Vectors and masks -/

/-- The integer vector operations (R432, R433, R434, R451): every element of the destination is the operation on the elements of
the sources where the mask bit is 1 and zero where it is 0; a shift takes the low log2(w) bits of its amount; no flag changes.
Everything but V[d] is kept. -/
def Obligations.VectorInteger : Prop :=
  ∀ (s : State) (e : ElemType) (m : BitVec 3) (d a b : Reg), ReadyV s [] [] [a, b] [d] →
    let w := match e with
      | .i8 => 8
      | .i16 => 16
      | .i32 => 32
      | .i64 => 64
    let ops : List (Instr × (BitVec w → BitVec w → BitVec w)) :=
      [(.vadd e m d a b, fun x y => x + y), (.vsub e m d a b, fun x y => x - y), (.vmul e m d a b, fun x y => x * y),
       (.vmin e m d a b, fun x y => if x.toInt ≤ y.toInt then x else y),
       (.vmax e m d a b, fun x y => if x.toInt ≤ y.toInt then y else x),
       (.vminu e m d a b, fun x y => if x.toNat ≤ y.toNat then x else y),
       (.vmaxu e m d a b, fun x y => if x.toNat ≤ y.toNat then y else x),
       (.vand e m d a b, fun x y => x &&& y), (.vor e m d a b, fun x y => x ||| y), (.vxor e m d a b, fun x y => x ^^^ y),
       (.vsll e m d a b, fun x y => x <<< (y.toNat % w)), (.vsrl e m d a b, fun x y => x >>> (y.toNat % w)),
       (.vsra e m d a b, fun x y => x.sshiftRight (y.toNat % w))]
    ∀ p ∈ ops, ∃ t, exec p.1 s = .next t ∧ FrameV s t d ∧ t.cur.ctx.flags = s.cur.ctx.flags ∧
      ∀ i, i < 512 / w → el w (getV t.cur.ctx d) i =
        if mBit s m i then p.2 (el w (getV s.cur.ctx a) i) (el w (getV s.cur.ctx b) i) else 0

/-- The permutations and moves (R435, R446, R447, R450): `vperm` by bytes, an index with bit 7 set giving zero; `vbcast` the low
2^(w+3) bits in every element; `vmv.vg` a word in lane n and zeros elsewhere; `vmv.gv` lane n; `vsel` by the bits of m1. -/
def vectorMovesClaim : Prop :=
  ∀ (s : State) (d a b : Reg) (n : BitVec 5),
    (ReadyV s [] [] [a, b] [d] →
      (∃ t, exec (.vperm d a b) s = .next t ∧ FrameV s t d ∧ ∀ i, i < 64 → el 8 (getV t.cur.ctx d) i =
        let k := el 8 (getV s.cur.ctx b) i
        if k.getLsbD 7 then 0 else el 8 (getV s.cur.ctx a) (k.toNat % 64)) ∧
      (∃ t, exec (.vsel d a b) s = .next t ∧ FrameV s t d ∧ ∀ i, i < 16 → el 32 (getV t.cur.ctx d) i =
        if (s.cur.ctx.m[1]).getLsbD i then el 32 (getV s.cur.ctx a) i else el 32 (getV s.cur.ctx b) i)) ∧
    (ReadyV s [a] [] [] [d] →
      ((Instr.vbcast d a n).WellFormed → ∃ t, exec (.vbcast d a n) s = .next t ∧ OnlyTask s t ∧
        (∀ r, r ≠ d → getV t.cur.ctx r = getV s.cur.ctx r) ∧ (∀ r, getG t.cur.ctx r = getG s.cur.ctx r) ∧
        (let w := 2 ^ (n.toNat + 3)
         ∀ i, i < 512 / w → (el w (getV t.cur.ctx d) i).toNat = (arg1 s a).toNat % 2 ^ w)) ∧
      ((Instr.vmvVg d a n).WellFormed → ∃ t, exec (.vmvVg d a n) s = .next t ∧ OnlyTask s t ∧
        (∀ r, r ≠ d → getV t.cur.ctx r = getV s.cur.ctx r) ∧ (∀ r, getG t.cur.ctx r = getG s.cur.ctx r) ∧
        ∀ i, i < 8 → el 64 (getV t.cur.ctx d) i = if i = n.toNat then arg1 s a else 0)) ∧
    (ReadyV s [] [d] [a] [] → destRoom s.cur d = true → (Instr.vmvGv d a n).WellFormed →
      exec (.vmvGv d a n) s = .next (wrote s s.cur d (el 64 (getV s.cur.ctx a) n.toNat)))

/-- The compares and integer reductions (R436, R448): bit i of the mask is the comparison of elements i and the bits from the
element count up are zero; a reduction leaves the combination of every element in element 0 and zeros elsewhere. -/
def Obligations.VectorComparesAndReductions : Prop :=
  ∀ (s : State) (e : ElemType) (m d a b : Reg) (o : VCmpOp) (q : RedOp),
    let w := match e with
      | .i8 => 8
      | .i16 => 16
      | .i32 => 32
      | .i64 => 64
    let x := fun i => el w (getV s.cur.ctx a) i
    let y := fun i => el w (getV s.cur.ctx b) i
    (ReadyV s [] [] [a, b] [] → (Instr.vcmp o e m a b).WellFormed → ∃ t, exec (.vcmp o e m a b) s = .next t ∧ FrameM s t m ∧
      (∀ i, i < 512 / w → ((getM t.cur.ctx m).getLsbD i = true ↔ match o with
        | .eq => x i = y i
        | .ne => x i ≠ y i
        | .lt => (x i).toInt < (y i).toInt
        | .ltu => (x i).toNat < (y i).toNat
        | .le => (x i).toInt ≤ (y i).toInt
        | .leu => (x i).toNat ≤ (y i).toNat)) ∧
      (∀ i, 512 / w ≤ i → (getM t.cur.ctx m).getLsbD i = false)) ∧
    (ReadyV s [] [] [a] [d] → ∃ t, exec (.vred q e d a) s = .next t ∧ FrameV s t d ∧
      (∀ i, 0 < i → i < 512 / w → el w (getV t.cur.ctx d) i = 0) ∧
      let r := el w (getV t.cur.ctx d) 0
      let all := fun (p : Nat → Prop) => ∀ i, i < 512 / w → p i
      let some' := ∃ i, i < 512 / w ∧ x i = r
      match q with
      | .add => r = BitVec.ofNat w (((List.range (512 / w)).map fun i => (x i).toNat).sum)
      | .min => all (fun i => r.toInt ≤ (x i).toInt) ∧ some'
      | .max => all (fun i => (x i).toInt ≤ r.toInt) ∧ some'
      | .minu => all (fun i => r.toNat ≤ (x i).toNat) ∧ some'
      | .maxu => all (fun i => (x i).toNat ≤ r.toNat) ∧ some'
      | .and => ∀ j, j < w → (r.getLsbD j = true ↔ all fun i => (x i).getLsbD j = true)
      | .or => ∀ j, j < w → (r.getLsbD j = true ↔ ∃ i, i < 512 / w ∧ (x i).getLsbD j = true)
      | .xor => r = (List.range (512 / w)).foldl (fun z i => z ^^^ x i) 0)

/-- The floating-point vector operations (R433, R437, R438, R439, R441, R442): element by element under m0 or m1, with the
flags of the active elements raised and none cleared; an inactive element is zero, or the addend of `vfma`; `vfcmp` writes a
mask. The operations on one element are those of `fpAdd` to `fpCmp`. The model's own choices here are those of log entries
19 and 59. -/
def Obligations.VectorFloat : Prop :=
  ∀ (s : State) (y : FFmt) (z u k : Bool) (d a b m : Reg) (c : FCmpOp),
    let f := FFmt.fmt y
    let w := match y with
      | .bf16 => 16
      | .f32 => 32
      | .f64 => 64
    let act := fun i => mBit s (if k then 1 else 0) i
    let x := fun (r : Reg) i => (el w (getV s.cur.ctx r) i).toNat
    let gives := fun (j : Instr) (r : Nat → Nat × FlagSet) (idle : Nat → BitVec w) => ∃ t, exec j s = .next t ∧ FrameV s t d ∧
      (∀ i, i < 512 / w → el w (getV t.cur.ctx d) i = if act i then BitVec.ofNat w (r i).1 else idle i) ∧
      FlagsFrom s t (512 / w) act fun i => (r i).2
    (ReadyV s [] [] [a, b] [d] →
      gives (.vfadd y z u k d a b) (fun i => fpAdd f z u (x a i) (x b i)) (fun _ => 0) ∧
      gives (.vfsub y z u k d a b) (fun i => fpSub f z u (x a i) (x b i)) (fun _ => 0) ∧
      gives (.vfmul y z u k d a b) (fun i => fpMul f z u (x a i) (x b i)) (fun _ => 0) ∧
      gives (.vfmin y z u k d a b) (fun i => fpMinMax f true z u (x a i) (x b i)) (fun _ => 0) ∧
      gives (.vfmax y z u k d a b) (fun i => fpMinMax f false z u (x a i) (x b i)) (fun _ => 0) ∧
      gives (.vfdiv y z u k d a b) (fun i => fpDiv f z u (x a i) (x b i)) (fun _ => 0)) ∧
    (ReadyV s [] [] [a] [d] → gives (.vfsqrt y z u k d a) (fun i => fpSqrt f z u (x a i)) (fun _ => 0)) ∧
    (ReadyV s [] [] [d, a, b] [d] → gives (.vfma y z u k d a b) (fun i => fpFma f z u (x d i) (x a i) (x b i))
      (fun i => el w (getV s.cur.ctx d) i)) ∧
    (ReadyV s [] [] [a, b] [] → (Instr.vfcmp c y z u k m a b).WellFormed → ∃ t, exec (.vfcmp c y z u k m a b) s = .next t ∧
      OnlyTask s t ∧ (∀ r : Reg, r.toNat % 8 ≠ m.toNat % 8 → getM t.cur.ctx r = getM s.cur.ctx r) ∧ t.cur.ctx.v = s.cur.ctx.v ∧
      t.cur.ctx.g = s.cur.ctx.g ∧
      (∀ i, (getM t.cur.ctx m).getLsbD i = true ↔ i < 512 / w ∧ act i = true ∧ (fpCmp f c z (x a i) (x b i)).1 = true) ∧
      FlagsFrom s t (512 / w) act fun i => (fpCmp f c z (x a i) (x b i)).2)

/-- The value of the bits of a format as a rational number, where it is finite (R182). -/
def finiteValue (f : Fmt) (x : Nat) : Option ℚ :=
  match fpDecode f x with
  | .fin neg m e => some ((if neg then -1 else 1) * m * (2 : ℚ) ^ e)
  | _ => none

/-- Rounding to nearest (R183, R187): where `fpRound` gives a finite number, no finite number of the format lies nearer to the
exact value, and NX is raised exactly where the two differ. -/
def Obligations.RoundingIsNearest : Prop :=
  ∀ f ∈ [Fmt.bf16, Fmt.f32, Fmt.f64], ∀ (neg : Bool) (m : Nat) (e : Int) (r : ℚ),
    let exact : ℚ := (if neg then -1 else 1) * m * (2 : ℚ) ^ e
    finiteValue f (fpRound f .rne neg m e).1 = some r →
    (∀ x q, finiteValue f x = some q → |exact - r| ≤ |exact - q|) ∧
    (((fpRound f .rne neg m e).2).getLsbD 4 = true ↔ r ≠ exact)

/-- A reduction in the fixed tree (R195): node i of a level combines nodes 2 i and 2 i + 1 of the level below. -/
def treeOf (f : Nat → Nat → Nat × FlagSet) (leaf : Nat → Nat) : Nat → Nat → Nat
  | 0, i => leaf i
  | n + 1, i => (f (treeOf f leaf n (2 * i)) (treeOf f leaf n (2 * i + 1))).1

/-- Conversions and floating-point reductions (R191, R195, R440, R449): `vfcvt` converts each lane by its code, in the
rounding that the code's low bits name, to the low lanes of the destination with zeros above, a block with its elements from
byte 0 and its scale in byte 63; a reduction is the fixed tree over its lanes in FP32. The model's own choices here are
those of log entries 19 and 59. -/
def Obligations.ConversionsAndTrees : Prop :=
  ∀ (s : State) (d a : Reg) (c : BitVec 5), ReadyV s [] [] (cvtSources a c) [d] →
    let x := fun (w i : Nat) => (el w (getV s.cur.ctx a) i).toNat
    let k := c.toNat
    let r : Rounding := if k % 4 = 0 then .rne else if k % 4 = 1 then .rz else if k % 4 = 2 then .ru else .rd
    let lanes := fun (w n : Nat) (g : Nat → Nat × FlagSet) => ∃ t, exec (.vfcvt d a c) s = .next t ∧ FrameV s t d ∧
      (∀ i, i < 512 / w → el w (getV t.cur.ctx d) i = if i < n then BitVec.ofNat w (g i).1 else 0) ∧
      FlagsFrom s t n (fun _ => true) fun i => (g i).2
    let tree := fun (j : Instr) (n : Nat) (leaf : Nat → Nat) (f : Nat → Nat → Nat × FlagSet) =>
      ∃ t, exec j s = .next t ∧ FrameV s t d ∧
        (getV t.cur.ctx d) = BitVec.ofNat 512 (treeOf f leaf n 0)
    (k < 4 → lanes 16 16 fun i => fpConvert .f32 .bf16 r (x 32 i)) ∧
    (4 ≤ k → k < 8 → lanes 32 8 fun i => fpConvert .f64 .f32 r (x 64 i)) ∧
    (8 ≤ k → k < 12 → lanes 32 16 fun i => fpToInt r (x 32 i)) ∧
    (12 ≤ k → k < 16 → lanes 32 16 fun i => fpOfInt .f32 r (x 32 i)) ∧
    (16 ≤ k → k < 28 → ∃ t, exec (.vfcvt d a c) s = .next t ∧ FrameV s t d ∧
      ∃ es sc fl, blockConvert (blockFmt k) r ((List.range 16).map (x 32) ++
          (List.range 16).map fun i => (el 32 (getV s.cur.ctx (a + 1)) i).toNat) = (es, sc, fl) ∧
        (∀ i, i < 32 → let w := if blockFmt k = .e2m1 then 4 else 8
          (el w (getV t.cur.ctx d) i).toNat = es.getD i 0 % 2 ^ w) ∧ (el 8 (getV t.cur.ctx d) 63).toNat = sc % 256 ∧
            t.cur.ctx.flags = s.cur.ctx.flags ||| fl) ∧
    (k = 28 → lanes 32 16 fun i => fpConvert .bf16 .f32 .rne (x 16 i)) ∧
    (k = 29 → lanes 64 8 fun i => fpConvert .f32 .f64 .rne (x 32 i)) ∧
    (k = 30 → lanes 64 8 fun i => fpOfInt .f64 .rne (x 32 i)) ∧
    (k < 16 →
      tree (.vfredAddF32 d a) 4 (x 32) (fpAdd .f32 false false) ∧
      tree (.vfredAddBf16 d a) 5 (fun i => x 16 i * 2 ^ 16) (fpAdd .f32 false false) ∧
      tree (.vfredMaxF32 d a) 4 (x 32) (fpMinMax .f32 false false false) ∧
      tree (.vfredMinF32 d a) 4 (x 32) (fpMinMax .f32 true false false))

/-- The mask operations (R379, R380): bitwise on the 64 bits of the masks, m0 reading as all ones; `mpop` counts the ones and
`mfirst` gives the lowest, or 64. -/
def masksClaim : Prop :=
  ∀ (s : State) (d a b : Reg),
    let bit := fun (r : Reg) i => mBit s (r.truncate 3) i
    let gives := fun (j : Instr) (f : Nat → Bool) => j.WellFormed → ∃ t, exec j s = .next t ∧ FrameM s t d ∧
      ∀ i, i < 64 → (getM t.cur.ctx d).getLsbD i = f i
    gives (.mand d a b) (fun i => bit a i && bit b i) ∧ gives (.mor d a b) (fun i => bit a i || bit b i) ∧
    gives (.mxor d a b) (fun i => bit a i ^^ bit b i) ∧ gives (.mnot d a) (fun i => !bit a i) ∧
    (Ready s [] [d] → destRoom s.cur d = true → (Instr.mpop d a).WellFormed →
      exec (.mpop d a) s = .next (wrote s s.cur d (BitVec.ofNat 64 ((List.range 64).countP (bit a)))) ∧
      (∀ n, n ≤ 64 → (∀ i, i < n → bit a i = false) → (n < 64 → bit a n = true) →
        exec (.mfirst d a) s = .next (wrote s s.cur d (BitVec.ofNat 64 n))))

/-- `sfckey` (R199, R200, R201, R412, R413): eight keys from the 64-bit lanes of two or three registers; bit n of each
coordinate stands at bit k n + j of a Morton key. -/
def curveKeysClaim : Prop :=
  (∀ (s : State) (d a : Reg) (k : BitVec 5), (Instr.sfckey d a k).WellFormed → ReadyV s [] [] (sfcSources a k) [d] →
    ∃ t, exec (.sfckey d a k) s = .next t ∧ FrameV s t d ∧ t.cur.ctx.flags = s.cur.ctx.flags ∧
      ∀ i, i < 8 → el 64 (getV t.cur.ctx d) i = BitVec.ofNat 64 (sfcKey k.toNat (el 64 (getV s.cur.ctx a) i).toNat
        (el 64 (getV s.cur.ctx (a + 1)) i).toNat (el 64 (getV s.cur.ctx (a + 2)) i).toNat)) ∧
  (∀ (x y z n : Nat),
    (n < 32 → (sfcKey 0 x y z).testBit (2 * n) = x.testBit n ∧ (sfcKey 0 x y z).testBit (2 * n + 1) = y.testBit n) ∧
    (n < 21 → (sfcKey 1 x y z).testBit (3 * n) = x.testBit n ∧ (sfcKey 1 x y z).testBit (3 * n + 1) = y.testBit n ∧
      (sfcKey 1 x y z).testBit (3 * n + 2) = z.testBit n) ∧
    sfcKey 0 x y z < 2 ^ 64 ∧ sfcKey 1 x y z < 2 ^ 63)

/-- Moves, permutations, mask operations and curve keys together. -/
def Obligations.VectorMoves : Prop := vectorMovesClaim ∧ masksClaim ∧ curveKeysClaim

/-! ### Matrices -/

/-- The matrix instructions of one member (R383, R386, R387, R392, R393): `mld.a` and `mld.b` record operands with the chunk;
`mzero` clears a tile; `mma` joins the row's barrier and, the last of its row and in agreement with it, commits its chunk as
its last instruction; `mst` holds the rows that fit in the chunk, and commits them where rows remain. -/
def matricesClaim : Prop :=
  ∀ (s : State) (k : BitVec 5) (b i : Reg) (n : BitVec 2) (z u : Bool) (f : BitVec 5),
    (ReadyV s [b] [] [i] [] → exec (.mldA k b i) s = .next (retire s { read1 s b with chunk := { s.cur.chunk with
      mldA := some ⟨32 * (k.toNat + 1), arg1 s b, getV s.cur.ctx i⟩ } })) ∧
    (Ready s [b, i] [] → exec (.mldB k b i) s = .next (retire s { read2 s b i with chunk := { s.cur.chunk with
      mldB := some ⟨32 * (k.toNat + 1), arg1 s b, arg2 s b i⟩ } })) ∧
    (mmaOpen s s.cur.key (some n) = false → ∃ t, exec (.mzero (n.zeroExtend 5)) s = .next t ∧ OnlyTask s t ∧
      t.cur.ctx.ac[n.toNat]'(n.isLt) = Vector.replicate 2048 0 ∧
      (∀ m : Fin 4, m.val ≠ n.toNat → t.cur.ctx.ac[m] = s.cur.ctx.ac[m]) ∧ t.cur.ctx.g = s.cur.ctx.g ∧
      t.cur.ctx.v = s.cur.ctx.v ∧ t.cur.ctx.m = s.cur.ctx.m ∧ t.cur.ctx.flags = s.cur.ctx.flags) ∧
    (∀ (g : Gang) (m : Member) (da : DescA) (db : DescB), Ready s [i] [] → gangOf s s.cur = some (g, m) →
      s.cur.chunk.mldA = some da → s.cur.chunk.mldB = some db →
      let x := (arg1 s i).toNat
      let key := arrayKey g.id s.cur.core
      let ms := joined g m false
      let ps := (arrayOf s key).parts
      let me : MmaPart := ⟨s.cur.key, s.cur.core, n, z, u, f, x, da, db, false, false⟩
      x ≠ 0 → x % 32 = 0 → x ≤ 256 → da.k = x → db.k = x → mmaOpen s s.cur.key none = false →
      partOf ps s.cur.key = none → operandCause s f.toNat da db = none → memberGone ms (ps ++ [me]) = false →
      let joins := setArray s key { arrayOf s key with parts := ps ++ [me] }
      let all := setArray joins key { arrayOf s key with parts := (ps ++ [me]).map fun p => { p with met := true } }
      (partsComplete ms (ps ++ [me]) = false → exec (.mma n z u f i) s = .next joins) ∧
      (partsComplete ms (ps ++ [me]) = true → partsAgree (ps ++ [me]) = true →
        ∀ c, commitNow { all with cur := (rebase all (read1 s i)).retire } = .done c →
          exec (.mma n z u f i) s = .next (setArray c key
          { arrayOf c key with parts := (arrayOf c key).parts.map fun p =>
            if p.key = s.cur.key then { p with committed := true } else p }))) ∧
    (∀ w : State, Ready s [b, i] [] → mstCause s (arg1 s b) (arg2 s b i) = none →
      mmaOpen s s.cur.key (some n) = false → s.cur.ctx.mstRow < 128 →
      let row := s.cur.ctx.mstRow
      let at' := fun j => arg1 s b + arg2 s b i * BitVec.ofNat 64 j
      let fit := rowsFit (128 - row) (s.cur.chunk.llines.foldl (fun l a => addNew a l) s.cur.chunk.wlines) s (arg1 s b) (arg2 s b i) row
      touch s [] ((List.range fit).map fun j => canon s (localOf (at' (row + j))) / 64) = .entered w →
      let stores := (List.range fit).map fun j => Eff.store (canon w (localOf (at' (row + j)))) (tileRow w.cur.ctx n (row + j))
      (row + fit = 128 → w.cur.ctx = s.cur.ctx → ∃ t, exec (.mst (n.zeroExtend 5) b i) s = .next t ∧ OnlyTask w t ∧
        t.cur.chunk.log = w.cur.chunk.log ++ stores ∧ t.cur.ctx.mstRow = 0 ∧ t.cur.ctx.ac = s.cur.ctx.ac) ∧
      (row + fit < 128 → s.cur.kind ≠ .rule ∨ s.cur.chunk.first = false →
        exec (.mst (n.zeroExtend 5) b i) s = .next (commitNow { w with
        cur := { w.cur with chunk := { w.cur.chunk with log := w.cur.chunk.log ++ stores },
                            ctx := { w.cur.ctx with mstRow := row + fit } } }).state))

/-- The row's joint array (R12, R25, R387): it starts once all eight parts are committed, and ends a K-block in every member's
tile at a time; with the last block the operation is over. -/
def jointArrayClaim : Prop :=
  ∀ (s : State) (row key : Nat) (a : ArrayOp), rowOps s row = [(key, a)] →
    (a.running = false → a.parts.length = 8 → (∀ p ∈ a.parts, p.committed = true) → opGone s key a = false →
      exec (.mmaArrayStart row) s = .next (setArray s key { a with running := true, since := s.time })) ∧
    (a.running = true → (∀ p ∈ a.parts, partRuns s p = true) → a.parts ≠ [] →
      (∀ p ∈ a.parts, ∀ q ∈ blockWords s p.fmt.toNat p a.kb, q ∉ s.mem.poison) →
      ((∀ p ∈ a.parts, p.k = 32 * (a.kb + 1)) → ∃ t, exec (.mmaArrayComplete row) s = .next t ∧
        t.eng.arrays = Tab.erase s.eng.arrays key ∧ t.mem = s.mem) ∧
      (∀ p, a.parts = [p] → p.key = s.cur.key → findTask s p.key = some s.cur → isTask s.cur = true →
        32 * (a.kb + 2) ≤ p.k → ∃ t, exec (.mmaArrayComplete row) s = .next t ∧
        t.cur.ctx.ac[p.tile.toNat]'(p.tile.isLt) = (tileBlock s [p] p a.kb (s.cur.ctx.ac[p.tile.toNat]'(p.tile.isLt))).1 ∧
        t.cur.ctx.flags = s.cur.ctx.flags ||| (tileBlock s [p] p a.kb (s.cur.ctx.ac[p.tile.toNat]'(p.tile.isLt))).2 ∧
        t.cur.chunk.start.ac[p.tile.toNat]'(p.tile.isLt) = t.cur.ctx.ac[p.tile.toNat]'(p.tile.isLt) ∧
        arrayOf t key = { a with kb := a.kb + 1, since := s.time }))

/-- The matrix instructions and the joint array together. The model's own choices here are those of log entries 58 and 59.
-/
def Obligations.Matrices : Prop := matricesClaim ∧ jointArrayClaim

/-! ### Copies, accumulators and nets -/

/-- `cpy`, `cpst`, COPY_COMPLETE and the watchdog of a copy engine (R145, R147, R148, R213, R351, R352, R353): an accepted
command takes the next sequence and the promise max(now, the one before) + setup + beats of 64 bytes, and its ticket goes to
the length register; a full engine stalls the slot, as a range whose entry is being rewritten does; `cpst` gives the promise
and the state; a command whose last write is performed completes, under a release once the tenant's earlier posted stores are
performed; a beat reads each source line once and writes a line of its destination whole; a range of another package is judged
there first; an engine, a vector unit or a home whose work has not progressed for its limit is reset. The model's own choices
here are those of log entries 27, 59, 62 and 71. -/
def Obligations.Copies : Prop :=
  (∀ (s : State) (q r : Bool) (c : Scope) (y : CopyKind) (n a b : Reg), Alone s → s.cur.lanes = [] →
    Ready s (if y = .zero then [n, b] else [n, a, b]) [n] →
    let z := decide (y = .zero)
    let src : Word := if z then 0 else arg1 s a
    let dst := if z then arg1 s b else arg2 s a b
    let len := (if z then arg2 s b n else arg3 s a b n).toNat
    let t := if z then read2 s b n else read3 s a b n
    let w := emptyMoved s y len src
    let e := engineOf w s.cur.core
    let before := e.promise + ((pendingCmds e).getLast?.map (promiseLag w e)).getD 0
    let p := max w.time before + setupOf w s.cur.core y len src dst + (len + 63) / 64
    let i := Instr.cpy q r c y n a b
    (2 ^ 32 < len → exec i s = .next (takeTrap s 0x14 0 (if z then dst else src) false false)) ∧
    (copyJudge s y len src dst 0 = .busy → exec i s = .next s) ∧
    (∀ k x, copyJudge s y len src dst 0 = .refuse k x → exec i s = .next (takeTrap s k 0 x false false)) ∧
    (∀ x w, copyJudge s y len src dst 0 = .ask x w → requestsOut s s.cur.core < 256 → ∃ u m, exec i s = .next u ∧
      u.fab.outReqs = s.fab.outReqs ++ [m] ∧ m.flit.op = 3 ∧ m.flit.dest = pkgOf x ∧
      m.flit.words = [x, BitVec.ofNat 64 (len + if w then 2 ^ 63 else 0)] ∧ u.cur = { s.cur with hold := some (.reply m.reqid) } ∧
      u.mem = s.mem ∧ u.eng = s.eng) ∧
    (copyJudge s y len src dst 0 = .accept → destRoom s.cur n = true → 16 ≤ (pendingCmds (engineOf s s.cur.core)).length →
      exec i s = .next s) ∧
    (copyJudge s y len src dst 0 = .accept → destRoom s.cur n = true → (pendingCmds (engineOf s s.cur.core)).length < 16 →
      e.next < 2 ^ 16 → ∃ u m k, exec i s = .next u ∧
      u.cur = ({ w.cur with ctx := setG t.ctx n k, hold := none, lanes := [] } : Task).retireAlone w.time ∧
      bitOf k 63 = true ∧ fieldNat k 62 32 = p % 2 ^ 31 ∧ fieldNat k 31 16 = 0 ∧ fieldNat k 15 0 = e.next ∧
      (engineOf u s.cur.core).cmds.getLast? = some m ∧ (engineOf u s.cur.core).next = (e.next + 1) % 65536 ∧
      (engineOf u s.cur.core).promise = p - promiseLag w e m ∧ m.promise = p - promiseLag w e m ∧ m.seq = e.next ∧
      m.tenant = w.cur.tenant ∧ m.kind = y ∧ m.len = len ∧ m.src = src ∧ m.dst = dst ∧ m.done = 0 ∧ m.since = w.time ∧
      m.state = .pending ∧ u.mem = w.mem ∧ (y ≠ .tags ∨ s.cur.trusted = false ∨ moveOf s s.cur.tenant = none → w = s)) ∧
    setupOf s s.cur.core y 0 src dst = 16 ∧ (0 < len → isLocal s dst = false → setupOf s s.cur.core y len src dst = 4096)) ∧
  (∀ (s : State) (d t : Reg), Ready s [t] [d] → destRoom s.cur d = true →
    let x := arg1 s t
    let fine := bitOf x 63 = true ∧ fieldNat x 31 16 = 0
    (¬fine → exec (.cpst d t) s = .next (takeTrap s 0x02 0 0 false false)) ∧
    (fine → ticketRec s s.cur.core s.cur.tenant x = none →
      exec (.cpst d t) s = .next (wrote s (read1 s t) d 0x8000000000000003)) ∧
    (∀ m, fine → ticketRec s s.cur.core s.cur.tenant x = some m → ∃ v, exec (.cpst d t) s = .next (wrote s (read1 s t) d v) ∧
      bitOf v 63 = true ∧ fieldNat v 62 32 = promiseNow s s.cur.core m % 2 ^ 31 ∧ fieldNat v 31 2 = 0 ∧
      fieldNat v 1 0 = (match m.state with
        | .pending => 0
        | .complete => 1
        | .failed => 2))) ∧
  (∀ (s : State) (core : Nat) (h : CopyStep), activeCmd s (engineOf s core) = none → exec (.copyComplete core h) s = .next s) ∧
  (∀ (s : State) (core : Nat) (m : CopyCmd), activeCmd s (engineOf s core) = some m → m.missed ≠ some s.time →
    let k := countersOf s core m.tenant
    (m.len ≤ m.done → m.acks = 0 → (preempted s m.tenant m.trusted = true → m.len ≠ 0) →
      (m.r = true → k.near = 0 ∧ k.die = 0 ∧ k.far = 0 ∧ ownStoreWaits s m.task = false) →
        ∃ t, exec (.copyComplete core .finish) s = .next t ∧
      (∀ x ∈ (engineOf t core).cmds, x.seq = m.seq → x.state = .complete) ∧ t.mem = s.mem) ∧
    (m.done < m.len ∨ m.acks ≠ 0 ∨ (m.r = true ∧ (k.near + k.die + k.far ≠ 0 ∨ ownStoreWaits s m.task = true)) →
      exec (.copyComplete core .finish) s = .next s) ∧
    (∀ k, isLocal s m.dst = false → ∃ t, exec (.copyComplete core (.fail k)) s = .next t ∧
      ∀ x ∈ (engineOf t core).cmds, x.seq = m.seq → x.state = .failed ∧ x.cause = k) ∧
    (m.done < m.len → isLocal s (copyAt m) = true → copyStopped s m = false → m.heldAt = none → cmdNow s core m = m →
      let n := min (m.len - m.done) (64 - (copyAt m).toNat % 64)
      let from' := m.src + BitVec.ofNat 64 (m.done + m.buf.length)
      let r := min (m.len - m.done - m.buf.length) (64 - from'.toNat % 64)
      let f := canon s (localOf from')
      let got : CopyCmd := { m with
        buf := m.buf ++ s.mem.readBytes f r, asked := false,
        tagBuf := if m.kind = .tags then m.tagBuf ++ (wordsAt f r).map s.mem.full else [] }
      ∀ (d : State) (c : CopyCmd) (bs : List Byte) (tags : List Bool),
      (c = m ∧ d = s ∧ (m.kind = .zero ∧ bs = List.replicate n 0 ∧ tags = [] ∨
          m.kind ≠ .zero ∧ n ≤ m.buf.length ∧ bs = m.buf.take n ∧ tags = m.tagBuf.take (n / 8)) ∨
        c = got ∧ m.kind ≠ .zero ∧ m.buf.length < n ∧ n ≤ m.buf.length + r ∧ isLocal s from' = true ∧
          checkLocal s m.tenant m.trusted (localOf from') ⟨false, r, 1, true, true, false⟩ = none ∧
          s.mem.anyPoison f r = false ∧ d = mapCmd (jobRead s (localOf from') r) core m.seq (fun x => { x with
            buf := x.buf ++ s.mem.readBytes f r, asked := false,
            tagBuf := if x.kind = .tags then x.tagBuf ++ (wordsAt f r).map s.mem.full else [] }) ∧
          bs = got.buf.take n ∧ tags = got.tagBuf.take (n / 8)) →
      copyHeld s m n = false → copyHeld d c n = false →
      checkLocal d m.tenant m.trusted (localOf (copyAt m)) ⟨true, bs.length, 1, true, true, false⟩ = none →
      let l := canon d (localOf (copyAt m))
      poisonBlocks d.mem l bs.length = false →
      exec (.copyComplete core .beat) s = .next (settle (mapCmd (fillLine d l bs tags) core m.seq fun x => { x with
        done := x.done + bs.length, since := (fillLine d l bs tags).time, buf := x.buf.drop bs.length,
        tagBuf := x.tagBuf.drop (bs.length / 8), acks := x.acks + 0 })))) ∧
  (∀ (s : State) (core : Nat) (m : CopyCmd) (h : CopyStep), activeCmd s (engineOf s core) = some m → m.missed = some s.time →
    exec (.copyComplete core h) s = .next s) ∧
  (∀ (s : State) (core tenant : Nat) (m : CopyCmd), activeCmd s (engineOf s core) = some m →
    (m.tenant ≠ tenant → exec (.engineWatchdog (.copy core) tenant) s = .next s) ∧
    (m.tenant = tenant → m.since + 1048576 ≤ s.time → preempted s m.tenant m.trusted = false → m.heldAt = none →
      ∃ t, exec (.engineWatchdog (.copy core) tenant) s = .next t ∧
      (∀ x ∈ (engineOf t core).cmds, x.tenant = tenant → x.state ≠ .pending) ∧
      (∀ x ∈ (engineOf t core).cmds, x.state = .pending → x.done = 0 ∧ x.since = s.time) ∧
      ((engineOf t core).cmds.map fun x => x.seq) = (engineOf s core).cmds.map fun x => x.seq) ∧
    (s.time < m.since + 1048576 ∨ m.heldAt ≠ none → exec (.engineWatchdog (.copy core) tenant) s = .next s)) ∧
  (∀ (s : State) (core slot a tenant : Nat),
    (∀ t, taskAt s core slot = some t → t.tenant = tenant → vectorNext s t = true → t.hold = none →
      (t.since + 65536 ≤ s.time → exec (.engineWatchdog (.vector core slot) tenant) s = .next (siloAdd
        (onTask s t.key fun v => modCur (defer v 0x0C 0) fun t => { t with since := v.time }) 2233)) ∧
      (s.time < t.since + 65536 → exec (.engineWatchdog (.vector core slot) tenant) s = .next s)) ∧
    (homeJob s core tenant a = none → exec (.engineWatchdog (.home core a) tenant) s = .next s) ∧
    (∀ w, homeJob s core tenant a = some w → s.eng.waiters = [w] → s.fab.holdQ = [] → jobStart s w + 4096 ≤ s.time →
      Unseen s (0x4000000 + 8 * 2233) →
      ∃ t, exec (.engineWatchdog (.home core a) tenant) s = .next t ∧ t.eng.waiters = [] ∧
        8 * (canon s a / 8) ∈ t.mem.poison ∧ t.mem.cells = s.mem.cells))

/-- The real number that an accumulator holds (R196): bit i of its two's complement has weight 2^(i − 320). -/
def accValue (x : Nat) : ℚ := 
  (if 2 ^ 639 ≤ x % 2 ^ 640 then ((x % 2 ^ 640 : ℕ) : ℚ) - 2 ^ 640 else ((x % 2 ^ 640 : ℕ) : ℚ)) / 2 ^ 320

/-- The long accumulators (R196, R197, R198, R369, R370, R371): a write is held with the chunk, and applied it adds
exactly, NaR absorbing and a magnitude of 2^319 giving NaR; a read gives the accumulator under the chunk's own
operations, rounded once. The model's own choices here are those of log entry 18. -/
def Obligations.LongAccumulators : Prop :=
  (∀ (s : State) (d a b : Reg),
    let x := arg1 s a
    let l := localOf x
    let room := laccCount s.cur.chunk < 32 ∧ (s.cur.chunk.wlines ++ s.cur.chunk.llines).length < 62
    let holds := fun (i : Instr) (t : Task) (o : LaccEff) => ∃ u, exec i s = .next u ∧ OnlyTask s u ∧
      u.cur.chunk.log = s.cur.chunk.log ++ [.lacc o] ∧ u.cur.ctx = t.retire.ctx ∧
      (∀ k, k ∈ u.cur.chunk.llines ↔ k ∈ s.cur.chunk.llines ∨ k ∈ linesOf l 80)
    (Ready s [a] [] → laccCause s x = none → room → holds (.laccClr a) (read1 s a) (.clr l)) ∧
    (Ready s [a, b] [] → laccCause s x = none → room →
      holds (.laccAdd a b) (read2 s a b) (.add l ((arg2 s a b).truncate 32)) ∧
      (laccCause s (arg2 s a b) = none → holds (.laccMrg a b) (read2 s a b) (.mrg l (localOf (arg2 s a b))))) ∧
    (Ready s [d, a, b] [] → laccCause s x = none → room →
      holds (.laccAddp d a b) (read3 s a b d) (.addp l ((arg3 s a b d).truncate 32) ((arg2 s a b).truncate 32))) ∧
    (Ready s [a] [] → ∀ k, laccCause s x = some k → exec (.laccClr a) s = .next (takeTrap s k 0 x false false)) ∧
    (Ready s [a] [d] → laccCause s x = none → destRoom s.cur d = true → s.mem.anyPoison l 80 = false →
      let v := laccRead (laccView s.mem s.cur.chunk.log) l
      let gives := fun (i : Instr) (f : Fmt) => exec i s = .next (arrived s { read1 s a with
        ctx := raiseFlags (read1 s a).ctx (laccRound f v).2 } d (BitVec.ofNat 64 (laccRound f v).1))
      gives (.laccRdF32 d a) .f32 ∧ gives (.laccRdF64 d a) .f64)) ∧
  (∀ (m : Mem) (a b : Nat) (x y : BitVec 32), m.wf = true → laccRead m a ≠ laccNar →
    let old := accValue (laccRead m a)
    let adds := fun (o : LaccEff) (v : ℚ) =>
      let new := laccRead (laccApply m o).1 a
      (|old + v| < 2 ^ 319 → new ≠ laccNar ∧ accValue new = old + v ∧ (laccApply m o).2 = 0) ∧
      (2 ^ 319 ≤ |old + v| → new = laccNar)
    laccRead (laccApply m (.clr a)).1 a = 0 ∧
    (∀ v, finiteValue .f32 x.toNat = some v → adds (.add a x) v) ∧
    (∀ v w, finiteValue .f32 x.toNat = some v → finiteValue .f32 y.toNat = some w → adds (.addp a x y) (v * w)) ∧
    (finiteValue .f32 x.toNat = none → laccRead (laccApply m (.add a x)).1 a = laccNar) ∧
    (laccRead m b ≠ laccNar → adds (.mrg a b) (accValue (laccRead m b))) ∧
    (laccRead m b = laccNar → laccRead (laccApply m (.mrg a b)).1 a = laccNar)) ∧
  (∀ (m : Mem) (a : Nat) (x : BitVec 32) (v : ℚ), m.wf = true → laccRead m a = laccNar → finiteValue .f32 x.toNat = some v →
    laccRead (laccApply m (.add a x)).1 a = laccNar ∧ (laccApply m (.add a x)).2 = 0)

/-- g4 holds the base of a net pool the executing task may use, its home-map entry at rest (R238). -/
abbrev PoolAt (s : State) (e : HEntry) : Prop :=
  let a := getG s.cur.ctx 4
  fieldNat a 63 56 = 0 ∧ isLocal s a = true ∧ placeOf s (localOf a) = .dram ∧ regionAt s (localOf a) = some e ∧ e.kind = 1 ∧
  e.base = localOf a ∧ (s.cur.trusted = true ∨ e.owner = s.cur.tenant) ∧ e.busy = false

/-- The net instructions and the crib (R226, R238, R239, R240, R241, R242, R243, R395 to R400): `nalloc` takes the newest
offset of the crib list and writes the node; `nfree`, `nlink` and `npush` hold their effects with the chunk; `nrd` gives the
port word, at once where it is homed at the issuing core, and by a request where the pool is another package's (R294); `nrset`
writes a rule in the first slot that holds its key, or else in the first that is free. The model's own choices here are those
of log entries 30, 59 and 62. -/
def Obligations.Nets : Prop :=
  (∀ (s u : State) (e : HEntry) (d a b : Reg), PoolAt s e → e.sealed = false →
    let node := fun (r : Word) => 32 * fieldNat r 31 5
    let port := fun (r : Word) => fieldNat r 1 0
    let valid := fun (r : Word) => port r ≠ 3 ∧ 0x40 ≤ node r ∧ node r < e.size
    let header := fun (r : Word) => chunkWord u (e.base + node r)
    let clean := fun (r : Word) => (chunkPoison u).mem.poisoned (e.base + node r) = false
    let line := fun (r : Word) => (e.base + node r) / 64
    let slot := fun (r : Word) => e.base + node r + 8 * (port r + 1)
    let link := fun (r : Word) => bytesOfNat 8 (2 ^ 62 + node r + port r)
    let push := fun (x y : Word) => Eff.push e.base e.pool (bagEntry e.pool (node x) (node y))
    let holds := fun (i : Instr) (t : Task) (es : List Eff) => exec i s = .next (retire u { rebase u t with
      chunk := { u.cur.chunk with log := u.cur.chunk.log ++ es } })
    (Ready s [4, a] [d] → ∀ (o : Nat) (os : List Nat), fieldNat (arg1 s a) 15 0 ≠ 0 → fieldNat (arg1 s a) 17 16 ≠ 3 →
      destRoom s.cur d = true → cribOffs s e.pool = o :: os → touch s [] [(e.base + o) / 64] = .entered u →
      ∃ (t : State) (h : Word), exec (.nalloc d a) s = .next t ∧ fieldNat h 63 48 = fieldNat (arg1 s a) 15 0 ∧
        fieldNat h 47 40 = fieldNat (arg1 s a) 17 16 ∧ fieldNat h 39 0 = 0 ∧
        t.cur.chunk.log = u.cur.chunk.log ++ [.store (e.base + o) (bytesOfNat 8 h.toNat ++ List.replicate 24 0)] ∧
        t.cur.chunk.allocs = (e.pool, o) :: u.cur.chunk.allocs ∧ cribOffs t e.pool = (cribOffs u e.pool).erase o ∧
        (d ≠ 0 → d ≠ 28 → d ≠ 29 → getG t.cur.ctx d = BitVec.ofNat 64 o) ∧ t.mem = u.mem) ∧
    (Ready s [4, a] [d] → fieldNat (arg1 s a) 15 0 = 0 ∨ fieldNat (arg1 s a) 17 16 = 3 →
      exec (.nalloc d a) s = .next (takeTrap s 0x02 0 0 false false)) ∧
    (Ready s [4, a] [] → let x := arg1 s a
      valid x → port x = 0 → touch s [line x] [line x] = .entered u → clean x → fieldNat (header x) 63 48 ≠ 0 →
      freedHere u e (node x) = false → holds (.nfree a) (read1 s a) [.free e.base e.pool (node x)]) ∧
    (Ready s [4, a, b] [] → let x := arg1 s a
      let y := arg2 s a b
      valid x → valid y → clean x → clean y → port x ≤ fieldNat (header x) 47 40 → port y ≤ fieldNat (header y) 47 40 →
      (touch s [line x, line y] [line x, line y] = .entered u → (node x ≠ node y ∨ port x ≠ port y) →
        holds (.nlink a b) (read2 s a b) ([.store (slot x) (link y), .store (slot y) (link x)] ++
          if port x = 0 ∧ port y = 0 then [push x y] else [])) ∧
      (touch s [line x, line y] [] = .entered u → node x ≠ node y → holds (.npush a b) (read2 s a b) [push x y])) ∧
    (Ready s [4, a] [d] → let x := arg1 s a
      valid x → touch s [line x] [] = .entered u → clean x → (chunkPoison u).mem.poisoned (slot x) = false →
      port x ≤ fieldNat (header x) 47 40 → destRoom s.cur d = true →
      exec (.nrd d a) s = .next (arrivedAt (homeOf u (slot x) != some u.cur.core) u (rebase u (read1 s a)) d
        (chunkWord u (slot x))))) ∧
  (∀ (s : State) (d p : Reg), Ready s [4, p] [d] → Alone s → destRoom s.cur d = true → requestsOut s s.cur.core < 256 →
    let pool := getG s.cur.ctx 4
    let x := arg1 s p
    let node := 32 * fieldNat x 31 5
    let port := pool + BitVec.ofNat 64 (node + 8 * (fieldNat x 1 0 + 1))
    fieldNat pool 63 56 = 0 → isLocal s pool = false →
    (fieldNat x 1 0 = 3 ∨ node < 0x40 → exec (.nrd d p) s = .next (takeTrap s 0x02 0 0 false false)) ∧
    (fieldNat x 1 0 ≠ 3 → 0x40 ≤ node → ∃ t r, exec (.nrd d p) s = .next t ∧ t.fab.outReqs = s.fab.outReqs ++ [r] ∧
      r.flit.op = 0 ∧ r.flit.cls = 0 ∧ r.flit.dest = pkgOf port ∧ r.flit.words = [port, portW1, pool] ∧
      r.waits = some (s.cur.key, destOf d, 8, false) ∧ t.mem = s.mem ∧
      t.cur = { s.cur with hold := some (.reply r.reqid), ctx := tagDest s.cur.ctx (destOf d) false })) ∧
  (∀ (s : State) (k v : Reg), s.cur.winnower = false → exec (.nrset k v) s = .next (takeTrap s 0x01 0 0 false false)) ∧
  (∀ (s : State) (k v : Reg), Ready s [k, v] [] →
    let x := arg1 s k
    let t := fieldNat x 37 32
    let ta := (keyTypes x).1
    let tb := (keyTypes x).2
    (s.cur.winnower = true → ta = 0 ∨ tb = 0 → exec (.nrset k v) s = .next (takeTrap s 0x02 0 0 false false)) ∧
    (∀ (u : State) (n : Nat), s.cur.winnower = true → ta ≠ 0 → tb ≠ 0 → n < 8 →
      let i := (ruleHash ta tb + n) % 4096
      let key := fun (j : Nat) => bitOf (rtabSeen s t j false) 63 = true ∧ (rtabSeen s t j true).toNat = ruleKey ta tb
      let old := key i ∧ ∀ m, m < n → ¬key ((ruleHash ta tb + m) % 4096)
      let new := (∀ m, m < 8 → ¬key ((ruleHash ta tb + m) % 4096)) ∧ bitOf (rtabSeen s t i false) 63 = false ∧
        ∀ m, m < n → bitOf (rtabSeen s t ((ruleHash ta tb + m) % 4096) false) 63 = true
      old ∨ new → touch s (rsetLines t ta tb) [(0x2100000000 + rtabOff t i false) / 64] = .entered u →
      ∃ w, exec (.nrset k v) s = .next w ∧ OnlyTask u w ∧ rtabSeen w t i false = arg2 s k v ∧
        (rtabSeen w t i true).toNat = ruleKey ta tb)) ∧
  (∀ (s : State) (pool : Nat) (e : HEntry) (l : CribList), s.cur.hold = some (.refill pool) → isTask s.cur = true →
    (allTasks s).find? (fun t => t.core == s.cur.core && t.tenant == s.cur.tenant && t.hold == some (.refill pool) &&
      t.slot?.isSome && !halts s t) = some s.cur →
    regionAt s (localOf (getG s.cur.ctx 4)) = some e → e.sealed = false → (cribsOf s s.cur.core).filter (fun l => l.tenant == s.cur.tenant && l.pool == pool) = [l] →
    l.offs = [] → cribCount s s.cur.core ≤ 192 → (∀ t ∈ allTasks s, meet [e.base / 64] (t.chunk.rlines ++ t.chunk.wlines) = false) →
    ∃ t, exec (.cribRefill s.cur.core s.cur.tenant pool) s = .next t ∧
      t.mem = { (takeNodes 64 s.mem e.base e.size).2 with clearing := t.mem.clearing } ∧
      cribOffs t pool = (takeNodes 64 s.mem e.base e.size).1 ∧
      t.cur.hold = some (.answer (if (takeNodes 64 s.mem e.base e.size).1 = [] then some 0x09 else none) 0 false)) ∧
  (∀ (s : State) (base pool off : Nat) (l : CribList), s.mem.wf = true →
    (cribsOf s s.cur.core).filter (fun l => l.tenant == s.cur.tenant && l.pool == pool) = [l] → cribCount s s.cur.core < 256 →
    let t := applyEff s (.free base pool off)
    cribOffs t pool = off :: l.offs ∧ (∀ k, k < 32 → t.mem.read (base + off + k) = 0) ∧
    (∀ q, (q < base + off ∨ base + off + 32 ≤ q) → t.mem.read q = s.mem.read q))

/-! ### The scheduler -/

/-- The bags (R90, R91, R92, R93, R94, R236): a pop takes a promoted entry first, then the best priority, then the
oldest, and its rule's task enters the run queue, or a fault record tells of a pair without a rule; an idle core steals
the youngest of the deepest bag; a bag takes spilled entries back; every 4,096 cycles the placement threshold halves
where the run queues held more than 8 entries a core over them and doubles where they held fewer than 2. The model's
own choices here are those of log entries 25 and 59. -/
def Obligations.Bags : Prop :=
  (∀ (s : State) (core i base : Nat) (e : BagEntry) (w : Word), coreEnabled s core = true → slotForQueue s core = true →
    queueLen s core < 8 → popIndex s (bagOf s core) = some i → (bagOf s core)[i]? = some e →
    poolBase s e.tenant (entryPool e.entry) = some base →
    let a := entryA e.entry
    let b := entryB e.entry
    s.mem.poisoned (base + a) = false → s.mem.poisoned (base + b) = false →
    hdrAux (s.mem.read64 (base + a)) ≤ 2 → hdrAux (s.mem.read64 (base + b)) ≤ 2 →
    (∀ f ∈ bagOf s core, poppable s f = true → e.promoted.isNone = true → f.promoted.isNone = true ∧ e.prio ≤ f.prio) ∧
    (∀ (j : Nat) (f : BagEntry), j < i → (bagOf s core)[j]? = some f → poppable s f = true → e.promoted.isNone = true →
      e.prio < f.prio) ∧
    (entryRule s e.tenant base e.entry = some w → ∃ (t : State) (u : Task), exec (.bagPop core) s = .next t ∧
      t.tasks = insertTask u s.tasks ∧ u.key = s.nextKey ∧ u.kind = .rule ∧ u.status = .unstarted ∧ u.core = core ∧
      u.tenant = e.tenant ∧ u.prio = fieldNat w 57 56 ∧ u.handle.toNat = fieldNat w 55 40 ∧ u.origin = e.entry ∧
      u.net = some (entryPool e.entry) ∧ u.ctx.pc = entryPc s u.handle (fieldNat w 39 0) ∧ getG u.ctx 4 = globalOf s base ∧
      (getG u.ctx 10, getG u.ctx 11) = (BitVec.ofNat 64 (orderPair s base a b).1, BitVec.ofNat 64 (orderPair s base a b).2) ∧
      (bagOf t core).map (fun f => f.entry) = ((bagOf s core).eraseIdx i).map (fun f => f.entry) ∧ t.cur = s.cur ∧
      t.mem = { s.mem with clearing := t.mem.clearing }) ∧
    (entryRule s e.tenant base e.entry = none → netDesc s base = none → Quiet s →
      Unseen s (0x4000000 + 8 * (2211 + 0x0D)) → ∃ t r, exec (.bagPop core) s = .next t ∧
      t.fab.outReqs = s.fab.outReqs ++ [r] ∧ r.flit.op = 8 ∧ r.flit.words.getD 1 0 = 0x0D ∧ r.flit.words.getD 6 0 = e.entry ∧
      t.tasks.map Task.key = s.tasks.map Task.key ∧ (bagOf t core).length + 1 = (bagOf s core).length)) ∧
  (∀ (s : State) (core c : Nat), coreEnabled s core = true → slotForQueue s core = true → queueLen s core = 0 →
    bagOf s core = [] → mostBy (depthOf s) (clusterCores s (clusterOf core)) = some c → 8 ≤ (bagOf s c).length →
    ∃ t, exec (.steal core) s = .next t ∧ t.mem = s.mem ∧
      bagOf t core = ((bagOf s c).drop ((bagOf s c).length - 8)).map (fun e =>
        { e with passes := 0, promoted := none, since := s.time, src := sourceRank false c 0 }) ∧
      (bagOf t c).map (fun f => f.entry) = ((bagOf s c).take ((bagOf s c).length - 8)).map fun f => f.entry) ∧
  (∀ (s : State) (core tenant a : Nat), coreEnabled s core = true → (bagOf s core).length ≤ 192 →
    spillTenants s core = [tenant] → (spillOf s core tenant).tail + 1 = (spillOf s core tenant).head →
    spillAddr s core tenant (spillOf s core tenant).tail = some a → ∃ t e, exec (.bagReload core) s = .next t ∧
      bagOf t core = bagOf s core ++ [e] ∧ e.entry = s.mem.read64 a ∧ e.tenant = fieldNat (s.mem.read64 (a + 8)) 5 0 ∧
      e.prio = fieldNat (s.mem.read64 (a + 8)) 9 8 ∧ (spillOf t core tenant).tail = (spillOf s core tenant).head ∧
      t.mem = { s.mem with clearing := t.mem.clearing }) ∧
  (∀ (s : State) (cluster occ : Nat),
    let c := s.time - Tab.get s.sched.occFrom cluster 0
    let d := Tab.get s.sched.divert cluster 1024
    let n := (clusterCores s cluster).length
    (clusterCores s cluster ≠ [] → 4096 ≤ c → occ = Tab.get s.sched.occ cluster 0 →
      ∃ t, exec (.placementLoop cluster occ) s = .next t ∧ t = { s with sched := { s.sched with
          divert := t.sched.divert, occ := t.sched.occ, occFrom := t.sched.occFrom } } ∧
        Tab.get t.sched.divert cluster 1024 = (if 8 * c * n < occ then max 64 (d / 2) else if occ < 2 * c * n
          then min 4096 (2 * d) else d) ∧ Tab.get t.sched.occ cluster 0 = 0 ∧ Tab.get t.sched.occFrom cluster 0 = s.time) ∧
    (c < 4096 ∨ occ ≠ Tab.get s.sched.occ cluster 0 → exec (.placementLoop cluster occ) s = .next s))

/-- Dispatch (R85, R88, R89, R96, R97): the entry of the best priority takes a free slot, a new task with its number, TASKID
and task block, one started before with the registers its record holds; a gang that can be reserved starts in one step and
its request leaves the queue; a request that has waited 65,536 cycles holds the free slots of its cores. The model's own
choices here are those of log entries 26 and 59. -/
def Obligations.Dispatching : Prop :=
  (∀ (s : State) (core slot : Nat) (c : Task), slot ∈ freeSlots s core → slotsHeld s core = false → coreEnabled s core = true →
    s.sched.order.cancel ≠ some s.time → dispatchChoice s core = some c →
    (∀ u ∈ allTasks s, dispatchable s core u = true → c.prio ≤ u.prio) ∧
    exec (.dispatch core slot) s = .next (drainArrivals (onTask s c.key fun v =>
      if v.cur.started then againDispatch v slot else match freeNumber v core c.tenant with
        | none => v
        | some k => firstDispatch v slot k) core) ∧
    (∀ k, c = s.cur → c.started = false → freeNumber s core c.tenant = some k →
      exec (.dispatch core slot) s = .next (drainArrivals (firstDispatch s slot k) core)) ∧
    (c = s.cur → c.started = true → exec (.dispatch core slot) s = .next (drainArrivals (againDispatch s slot) core))) ∧
  (∀ (s : State) (slot k : Nat), (∀ u ∈ s.tasks, u.key ≠ s.cur.key) → Quiet s → dispatchCount s s.cur.core < 2 ^ 38 →
    (firstDispatch s slot k).cur.status = .resident slot ∧ (firstDispatch s slot k).cur.started = true ∧
    (firstDispatch s slot k).cur.number = k ∧
    (firstDispatch s slot k).cur.taskId = BitVec.ofNat 64 (s.cur.core * 2 ^ 38 + dispatchCount s s.cur.core) ∧
    (firstDispatch s slot k).cur.startTime = s.time ∧
    (firstDispatch s slot k).cur.ctx = setG s.cur.ctx 3 (globalOf s (taskBlock s s.cur.tenant s.cur.core k)) ∧
    dispatchCount (firstDispatch s slot k) s.cur.core = dispatchCount s s.cur.core + 1) ∧
  (∀ (s : State) (slot : Nat), Quiet s → s.cur.inline = none → saveRec s s.cur.tenant s.cur.core s.cur.number = none →
    (againDispatch s slot).cur.status = .resident slot ∧ (againDispatch s slot).cur.ctx = s.cur.ctx ∧
    (againDispatch s slot).cur.taskId = s.cur.taskId ∧
    (∀ k, (h : k < 4) → (againDispatch s slot).cur.waits[k].sat = (s.cur.waits[k].sat || s.cur.waits[k].seen))) ∧
  (∀ (s : State) (cluster : Nat) (q : GangReq) (qs : List GangReq), headRequests s cluster = q :: qs →
    ((waitingGangs s cluster).find? (canReseat s) = none → canReserve s q = true →
      exec (.gangReserve cluster) s = .next (startGang s cluster q) ∧
      (∃ g ∈ (startGang s cluster q).sched.gangs, g.id = q.id ∧ g.cl = q.cl ∧ g.target = q.target ∧
        g.tenant = q.tenant) ∧
      (∀ x ∈ gangQueue (startGang s cluster q) cluster, x.id ≠ q.id)) ∧
    (q.since + 65536 ≤ s.time → (∀ h ∈ s.sched.slotHolds, h.2 ≠ q.id) → exec (.gangSlotHold cluster) s =
      .next { s with sched := { s.sched with slotHolds := s.sched.slotHolds ++
        (if q.cl then (List.range 16).map fun i => (16 * q.target + i, q.id)
         else (List.range 8).map fun i => (8 * q.target + i, q.id)) } }) ∧
    (s.time < q.since + 65536 → exec (.gangSlotHold cluster) s = .next s))

/-- Messages inside the package (R87, R106, R107, R108): the oldest between two cores, at an enabled handler entry,
creates a message task with the entry's handle, priority and address, and its sender's counter falls; under EN = 0 it
sets PEND and waits; at an entry that is not VALID it goes to the undelivered queue; a full arrival buffer holds it at
its sender with twice the delay, and it is sent again when that has passed. The model's own choices here are those of
log entry 56. -/
def Obligations.MessageArrivals : Prop :=
  ∀ (s : State) (src dst : Nat) (m : NetMsg) (ms : List NetMsg), s.fab.netMsgs = m :: ms → m.src = src → m.dst = dst →
    let e := htabWord s m.msg.tenant m.msg.tag
    let i := Instr.messageArrival (.inPackage src dst)
    let k := { m.msg with entry := e, time := s.time }
    let s' := { s with sched := { s.sched with order := { s.sched.order with msg := some s.time } } }
    let gone := fun (v : State) => let w := { v with fab := { v.fab with netMsgs := ms } }
      settle (observe (if m.counted then lowerCounter w src m.msg.tenant (msgClass src dst) false else w))
    (m.due = none → coreEnabled s dst = true →
      (bitOf e 63 = false → exec i s = .next (gone (bareFault (undqWrite s' k false) m.msg.tenant 0 0x0E
        (BitVec.ofNat 64 (m.msg.tag * 16 + m.msg.words.length))))) ∧
      (bitOf e 63 = true → bufferLen s dst < 16 → bitOf e 60 = true → queueFull s dst = false →
        Tab.get s.sched.arrivals dst [] = [] → ∃ t, exec i s = .next (gone { s' with
          nextKey := s.nextKey + 1, tasks := insertTask t s.tasks }) ∧ t.key = s.nextKey ∧ t.kind = .message ∧ t.core = dst ∧
          t.status = .unstarted ∧ t.tenant = m.msg.tenant ∧ t.prio = fieldNat e 62 61 ∧ t.handle.toNat = fieldNat e 55 40 ∧
          t.ctx.pc = entryPc s t.handle (fieldNat e 39 0) ∧ t.msg = some k ∧ getG t.ctx 10 = BitVec.ofNat 64 m.msg.src ∧
          getG t.ctx 11 = BitVec.ofNat 64 (m.msg.tag * 16 + m.msg.words.length)) ∧
      (bitOf e 63 = true → bufferLen s dst < 16 → bitOf e 60 = false →
        exec i s = .next (gone (let v := devCtl s' (htabOff m.msg.tenant m.msg.tag) (e ||| (1#64 <<< 59))
          { v with sched := { v.sched with enWait := v.sched.enWait ++ [(dst, k)] } }))) ∧
      (bitOf e 63 = true → 16 ≤ bufferLen s dst → exec i s = .next (settle (observe { s with fab := { s.fab with netMsgs :=
        { m with delay := min 32768 (2 * m.delay), due := some (s.time + min 32768 (2 * m.delay)) } :: ms } })))) ∧
    (∀ n, m.due = some n → (n ≤ s.time → exec (.messageResend src dst) s =
        .next { s with fab := { s.fab with netMsgs := { m with due := none } :: ms } }) ∧
      (s.time < n → exec (.messageResend src dst) s = .next s))

/-- Instruction-cache fills (R164, R270, R272, R286): the line at the pc enters its core's cache, and the word then fetched
is that of memory where the region is not of class code; a refused fill takes its cause with the pc as DETAIL: a region that
is not sealed 0x04, a revoked seal 0x08, an address nothing maps 0x11. -/
def fillsClaim : Prop :=
  ∀ (s : State), fetchWord s s.cur = none → regionBusy s (localOf s.cur.ctx.pc) = false →
    let l := localOf s.cur.ctx.pc
    (fillCause s s.cur = none → ∃ t, exec .icacheFill s = .next t ∧ t.cur = { s.cur with imgd := none } ∧ t.mem = s.mem ∧
      t.ctl = s.ctl ∧ (fetchWord t t.cur).isSome = true ∧
      ((∀ e, regionAt s (64 * (l / 64)) = some e → e.cls ≠ 1) →
        fetchWord t t.cur = some (BitVec.ofNat 32 (natOfBytes (s.mem.readBytes (4 * (l / 4)) 4))))) ∧
    (∀ c, fillCause s s.cur = some c → exec .icacheFill s = .next (takeTrap s c 0 s.cur.ctx.pc false false)) ∧
    (isLocal s s.cur.ctx.pc = false → fillCause s s.cur = some 0x11) ∧
    (isLocal s s.cur.ctx.pc = true → s.cur.imgd = none → placeOf s l = .dram →
      (regionAt s l = none → fillCause s s.cur = some 0x11) ∧
      (∀ e, regionAt s l = some e → bitOf (ctlGet s (sealOff e.n)) 62 = true → fillCause s s.cur = some 0x08) ∧
      (∀ e, regionAt s l = some e → bitOf (ctlGet s (sealOff e.n)) 62 = false → e.n ≠ s.cur.handle.toNat % 4096 →
        e.sealed = false → fillCause s s.cur = some 0x04))

/-- Clears, acknowledgements and completions (R83, R140, R143, R305): the background clear of a granule that an access has
reached ends and changes no byte; a home acknowledges a store and its class's counter falls; a launch that is over sends its
KIND 2 record and is gone. -/
def completionsClaim : Prop :=
  (∀ (s : State) (g : Nat), g ∉ s.mem.clearing → exec (.scrubClearComplete g) s = .next s) ∧
  (∀ (s : State) (g : Nat), g ∈ s.mem.clearing →
    (∀ t ∈ allTasks s, (0x2101000000 + g / 8) / 64 ∉ t.chunk.rlines ++ t.chunk.wlines) →
      ∃ t, exec (.scrubClearComplete g) s = .next t ∧ unscrubbed t g = false ∧ g ∉ t.mem.clearing ∧
    (∀ q, q ≠ g → unscrubbed t q = unscrubbed s q) ∧ (∀ a, t.mem.read a = s.mem.read a) ∧ t.ctl = s.ctl) ∧
  (∀ (s : State) (core tenant : Nat) (k : WaitClass), k = .near ∨ k = .die →
    postedOpen s core tenant k < (countersOf s core tenant).out k → ∃ t, exec (.storeAck core tenant k) s = .next t ∧
      countersOf t core tenant = (countersOf s core tenant).mapOut k (· - 1) ∧ t.mem = s.mem ∧ t.fab = s.fab) ∧
  (∀ (s : State) (ti n : Nat) (l : Launch), s.sched.launches.find? (fun x => x.ti == ti && x.number == n) = some l →
    l.begun = true → l.nets = [] → l.unacked = 0 → (∀ t ∈ allTasks s, t.rooted = true → ofLaunch ti n t = false) →
    (∀ q ∈ s.sched.gangQ, ∀ g ∈ q.2, g.launch ≠ some (ti, n)) → ∃ t r, exec (.launchCompletion ti n) s = .next t ∧
      t.sched.launches = s.sched.launches.erase l ∧ t.fab.outReqs = s.fab.outReqs ++ [r] ∧ r.flit.op = 8 ∧
      r.flit.dest = hostEp s ti ∧ r.flit.ti = ti ∧ r.flit.words = [envelope 2 3 ti n,
        BitVec.ofNat 64 (if l.status = 2 then 2 else if l.cancelled then 1 else 0), BitVec.ofNat 64 l.fatals,
        BitVec.ofNat 64 s.time] ∧ t.mem = s.mem)

/-- Cache fills, clears, acknowledgements and completions together. The model's own choices here are those of log entry
21. -/
def Obligations.FillsAndCompletions : Prop := fillsClaim ∧ completionsClaim

/-! ### The repartition collective -/

/-- `rpart`, `rpst`, GLEANER and REPARTITION_COMPLETE (R309 to R313, R316, R402 to R405, Table 15.8, Table 23.2): an
accepted call gets a handle with its sequence and team; `rpst` gives round and phase; splitter j is the smallest key
whose cumulative weight reaches ⌈j W / P⌉; an owner holds its records by key, sender's rank and position; only the receive
and spill slots of placed records and the item slots of the residue are written, a line at a time; the completion
word counts the received, the spilled and the residue, or carries the error; a flit of the gleaners is taken by the live
record of its team and call, kept for a call still to come, or dropped as of one that is over. The model's own choices here are
those of log entries 11 (the gleaners' flits, and poisoned items), 27, 28 and 29. -/
def Obligations.Repartitions : Prop :=
  (∀ (s : State) (d b : Reg), Alone s → Ready s [b] [d] → destRoom s.cur d = true →
    let x := arg1 s b
    let a := canon s (localOf x)
    let blk := wordsOfBytes (s.mem.readBytes a 128) 16
    let live := (s.eng.gleaner.records.filter Repart.live).length
    let next := s.eng.gleaner.next
    (x.toNat % 128 ≠ 0 → exec (.rpart d b) s = .next (takeTrap s 0x07 0 x false false)) ∧
    (x.toNat % 128 = 0 → checkAccess s s.cur.tenant s.cur.trusted x ⟨false, 128, 128, true, true, true⟩ = none →
      regionBusy s (localOf x) = false → s.mem.anyPoison a 128 = false → (blkWord blk 10).toNat % 8 = 0 →
      (blkBad blk = true → exec (.rpart d b) s = .next (takeTrap s 0x02 0 0 false false)) ∧
      (blkBad blk = false → blkRefused s blk = true → exec (.rpart d b) s = .next (takeTrap s 0x14 0 x false false)) ∧
      (blkBad blk = false → blkRefused s blk = false → 4 ≤ live → exec (.rpart d b) s = .next s) ∧
      (blkBad blk = false → blkRefused s blk = false → live < 4 → next < 2 ^ 16 → ∃ t h r, exec (.rpart d b) s = .next t ∧
        ((∀ q ∈ blkReads s blk, readPoison s q = none) →
          t.cur = ({ read1 s b with ctx := setG (read1 s b).ctx d h } : Task).retireAlone s.time) ∧
        (∀ w, (blkReads s blk).findSome? (readPoison s) = some w → r.err.isSome = true) ∧ bitOf h 63 = true ∧
        fieldNat h 62 48 = 0 ∧ fieldNat h 47 32 = next ∧ fieldNat h 31 0 = fieldNat (blkWord blk 0) 31 0 ∧
        r ∈ t.eng.gleaner.records ∧ r.seq = next ∧ r.tenant = s.cur.tenant ∧ r.core = s.cur.core ∧ r.block = blk ∧
        r.task = s.cur.key ∧ r.phase = 0 ∧ t.eng.gleaner.next = (next + 1) % 65536 ∧
        t.mem = { s.mem with clearing := t.mem.clearing }))) ∧
  (∀ (s : State) (d h : Reg), Ready s [h] [d] → destRoom s.cur d = true →
    let x := arg1 s h
    let last := s.eng.gleaner.records.drop (s.eng.gleaner.records.length - 64)
    let record := last.find? fun r => r.seq == fieldNat x 47 32 && blkTeam r.block == fieldNat x 31 0
    let gives := fun (v : Word) => exec (.rpst d h) s = .next (wrote s (read1 s h) d v)
    (bitOf x 63 = false ∨ fieldNat x 62 48 ≠ 0 → exec (.rpst d h) s = .next (takeTrap s 0x02 0 0 false false)) ∧
    (bitOf x 63 = true → fieldNat x 62 48 = 0 →
      (record = none → gives 7) ∧
      (∀ r, record = some r → r.tenant ≠ s.cur.tenant → gives 7) ∧
      (∀ r, record = some r → r.tenant = s.cur.tenant → gives (BitVec.ofNat 64 (r.round * 2 ^ 8 + r.phase))))) ∧
  (∀ (r : Repart) (j : Nat), (∀ i ∈ teamItems r, i.key < 2 ^ 64) → 1 ≤ j → j < blkP r.block → 0 < teamWeight r →
    let reaches := fun (k : Nat) => j * teamWeight r ≤ cumWeight r k * blkP r.block
    reaches (splitter r j) ∧ ∀ k, k < splitter r j → ¬reaches k) ∧
  (∀ (r : Repart) (ss : List Nat) (k : Nat),
    (∀ i, i ∈ ownedItems r ss k ↔ i ∈ teamItems r ∧ (ss.filter fun x => decide (x < i.key)).length = k) ∧
    (ownedItems r ss k).Pairwise fun a b => ownedBefore b a = false) ∧
  (∀ (s : State) (r : Repart) (seq : Nat), s.eng.gleaner.records.find? (fun x => x.seq == seq) = some r → r.seq = seq →
    let cw := canon s (localOf (blkWord r.block 10))
    serialHolds s 0 [cw / 64] = false → linesSealed s [cw / 64] = false →
    (r.err = none → r.phase = 4 → r.todo = [] → exec (.repartitionComplete seq) s = .next (settle (devWord
      (mapRepart s seq fun x => { x with phase := 5, round := 0 }) cw (completionWord r)))) ∧
    (∀ e, r.err = some e → r.phase < 5 → exec (.repartitionComplete seq) s = .next (settle (devWord
      (mapRepart s seq fun x => { x with phase := 6, round := 0 }) cw (BitVec.ofNat 64 (3 * 2 ^ 62 + e)))))) ∧
  (∀ (s : State) (r : Repart) (w : Nat × List Byte), (∀ i ∈ teamItems r, (pieceBytes r i).length = blkSize r.block) →
    blkSize r.block ≤ 256 →
    let n := (ownedItems r (splitters r) (blkRank r.block)).length
    let within := fun (area slots : Nat) => ∃ k, k < slots ∧ areaAddr s r area k ≤ w.1 ∧
      w.1 + w.2.length ≤ areaAddr s r area k + blkSize r.block ∧ w.1 / 64 = (w.1 + w.2.length - 1) / 64
    (w ∈ placements s r → within 6 (min n (blkRcap r.block)) ∨ within 8 (min (n - blkRcap r.block) (blkScap r.block))) ∧
    (w ∈ residues s r → within 2 (residueOf r (splitters r)).length)) ∧
  (∀ r : Repart,
    let n := (ownedItems r (splitters r) (blkRank r.block)).length
    let res := (residueOf r (splitters r)).length
    let w := completionWord r
    res < 2 ^ 20 → fieldNat w 59 40 = min n (blkRcap r.block) ∧ fieldNat w 39 20 = min (n - blkRcap r.block) (blkScap r.block) ∧
      fieldNat w 19 0 = res ∧
      fieldNat w 63 62 = (if 0 < res then 2 else if 0 < min (n - blkRcap r.block) (blkScap r.block) then 1 else 0)) ∧
  (∀ (s : State) (f : Flit), f.op = 10 → flitArrives s f = true → tagVerifies s f = true → malformed f = false →
    announcing s = false → f.dinc = s.conf.incarnation → tiState s f.ti ≠ 4 →
    let v := replyTo (tagPassed s f) f 0 []
    let team := fieldNat (f.words.getD 0 0) 63 32
    let kept := fun (v : State) => { v with eng := { v.eng with
      gleaner := { v.eng.gleaner with early := v.eng.gleaner.early ++ [f] } } }
    (liveTeam v team = none → callPlace f (callsOf v team f.src) = .later → namesakes v f = none →
      exec (.gleaner f) s = .next (kept { v with fresh := v.fresh + 1 })) ∧
    (liveTeam v team = none → callPlace f (callsOf v team f.src) ≠ .later → exec (.gleaner f) s = .next v) ∧
    (∀ r, liveTeam v team = some r →
      (flitPlace r f = .same → exec (.gleaner f) s = .next (repartRuns (repartFlit v r f) r.seq)) ∧
      (flitPlace r f = .later → exec (.gleaner f) s = .next (kept v)) ∧
      (flitPlace r f = .over → exec (.gleaner f) s = .next v)))

/-! ### Pre-emption and control space -/

/-- Pre-emption (R89, R214, R285): a request sets its source's bit and halts a task it covers at the first instruction of
its chunk; a release clears the bit and its acknowledgement and halts nothing; once every covered task is halted the halt is
acknowledged, and until then it goes on. A trusted request is written only while a trusted image runs. The model's own
choices here are those of log entry 44. -/
def Obligations.Preemption : Prop :=
  ∀ (s : State) (n : Nat), n < 64 →
    exec (.preemptRequest n .service) s = .next (writeRequest s n .service true) ∧
    exec (.preemptRelease n .service) s = .next (writeRequest s n .service false) ∧
    ((∃ u ∈ allTasks s, u.trusted = true ∧ u.slot?.isSome = true) →
      exec (.preemptRequest n .trusted) s = .next (writeRequest s n .trusted true) ∧
      exec (.preemptRelease n .trusted) s = .next (writeRequest s n .trusted false)) ∧
    ((∀ u ∈ allTasks s, u.trusted = true → u.slot? = none) → exec (.preemptRequest n .trusted) s = .next s) ∧
    (let v := writeRequest s n .service false
     v.pre.svc.getLsbD n = false ∧ v.pre.svcAck.getLsbD n = false ∧ v.pre.tr = s.pre.tr ∧ v.cur = s.cur ∧ v.tasks = s.tasks ∧
     v.mem = s.mem ∧ ∀ m, m ≠ n → v.pre.svc.getLsbD m = s.pre.svc.getLsbD m) ∧
    ((∀ u ∈ allTasks s, u.tenant = n → u.slot? = none) →
      let v := writeRequest s n .service true
      v.pre.svc.getLsbD n = true ∧ v.pre.svcAck.getLsbD n = false ∧ v.cur = s.cur ∧ v.tasks = s.tasks ∧ v.mem = s.mem) ∧
    (s.tasks = [] → s.cur.tenant = n → s.cur.slot?.isSome = true → s.cur.gang = none → s.cur.hold = none → s.cur.inflight = [] →
      saveRec s n s.cur.core s.cur.number = none → s.cur.inline = none →
      let v := writeRequest s n .service true
      v.cur.status = .resume ∧ v.cur.key = s.cur.key ∧
      (s.cur.chunk.fresh = false → v.cur.ctx = s.cur.chunk.start) ∧ (s.cur.chunk.fresh = true → v.cur.ctx = s.cur.ctx)) ∧
    (∀ src : PreemptSrc, (match src with
        | .service => s.pre.svc.getLsbD n
        | .trusted => s.pre.tr.getLsbD n) = true → s.eng.engines = [] →
      let covered := fun (u : Task) => u.tenant = n ∧ u.slot?.isSome = true ∧ (src = .trusted → u.trusted = false)
      ((∀ u ∈ allTasks s, ¬covered u ∧ (u.tenant = n → u.slot?.isSome = true → halts s u = false)) →
        (∀ u ∈ allTasks s, (0x2100000000 + tenantOff n 10) / 64 ∉ u.chunk.rlines ++ u.chunk.wlines) →
        ∃ p, exec (.preemptHaltComplete n src) s = .next (observe { s with pre := p }) ∧
        p.svc = s.pre.svc ∧ p.tr = s.pre.tr ∧ (match src with
          | .service => p.svcAck.getLsbD n
          | .trusted => p.trAck.getLsbD n) = true) ∧
      ((∃ u ∈ allTasks (haltTenant s n), covered u) → exec (.preemptHaltComplete n src) s = .next (haltTenant s n)))

/-- Writes of control space (R133, R135, R143, R255, R256, R458): a trusted write of a home-map word sets its writable bits
and is judged: an overlap is refused with reason 1, a group without an enabled core with 2, a region outside its owner's
arena with 3, the entry losing VALID and the slot's status word saying so; a granule marked unscrubbed reads zero and full;
an issue weight of 0 is stored as 1; words that only the device writes keep their values, a trusted write to one being dropped
(log entry 40); an image of another class writes nothing. The model's own choices here are those of log entry 40. -/
def Obligations.ControlSpace : Prop :=
  (∀ (s : State) (core slot : Nat) (t : Task), taskAt s core slot = some t →
    (t.trusted = false → ∀ n hi v g o, exec (.hmapWrite core slot n hi v) s = .next s ∧
      exec (.unscrubbedMark core slot g) s = .next s ∧ exec (.controlSpaceWrite core slot o v) s = .next s) ∧
    (t.trusted = true → core < 1024 → slot < 8 →
      (∀ (n : Nat) (hi : Bool) (v : Word), n < 4096 →
        let u := hmapStore s core slot n hi v
        let mask : Word := if hi then 0x03FF000FFFFFFFFF else 0xE3FFF80000FFFFFF
        let w := (ctlGet s (hmapOff n hi) &&& ~~~mask) ||| (v &&& mask)
        let x := ctlSet s (hmapOff n hi) w
        exec (.hmapWrite core slot n hi v) s = .next (settle u) ∧
        (bitOf (ctlGet x (hmapOff n false)) 43 = true → ctlGet u (hmapOff n hi) = w) ∧
        (bitOf (ctlGet x (hmapOff n false)) 43 = false →
          (∀ e r, hEntry x n = some e → judgeEntry x e = some r →
            bitOf (ctlGet u (hmapOff n false)) 63 = false ∧ ctlGet u (wstatOff core slot) = BitVec.ofNat 64 (1 + 2 ^ 8 * r)) ∧
          (∀ e, hEntry x n = some e → judgeEntry x e = none →
            ctlGet u (hmapOff n hi) = w ∧ ctlGet u (wstatOff core slot) = 0))) ∧
      (∀ g, g < granules → granuleCarved g = false → granuleSealed s g = false → s.mem.wf = true →
        (∀ k ∈ allTasks s, k.chunk.rlines = [] ∧ k.chunk.wlines = []) →
        let u := unscrubbedStore s core slot [g]
        exec (.unscrubbedMark core slot g) s = .next (settle u) ∧ unscrubbed u g = true ∧
        (∀ a, granuleBase g ≤ a → a < granuleBase g + 0x10000 → u.mem.read a = 0 ∧ u.mem.full a = true) ∧
        (∀ a, (a < granuleBase g ∨ granuleBase g + 0x10000 ≤ a) → u.mem.read a = s.mem.read a ∧ u.mem.full a = s.mem.full a)) ∧
      (∀ (o : Nat) (v : Word), o % 8 = 0 → s.sched.enWait = [] →
        (0x3200000 ≤ o → o < 0x3240000 → exec (.controlSpaceWrite core slot o v) s = .next (settle (devCtl s o v))) ∧
        (0x4000000 ≤ o → exec (.controlSpaceWrite core slot o v) s = .next (settle s))))) ∧
  (∀ (s : State) (e f : HEntry),
    (f ∈ otherRegions s e.n → e.overlaps f = true → judgeEntry s e = some 1) ∧
    ((∀ g ∈ otherRegions s e.n, e.overlaps g = false) →
      (members s e = [] → judgeEntry s e = some 2) ∧
      (members s e ≠ [] → inArena s e = false → judgeEntry s e = some 3) ∧
      (members s e ≠ [] → inArena s e = true → judgeEntry s e = none))) ∧
  (∀ (s : State) (n : Nat) (v : Byte), n < 64 → ∃ t, exec (.weight n v) s = .next t ∧
    (tenantWord t n 1).toNat = max 1 v.toNat ∧ (∀ o, 8 * (o / 8) ≠ tenantOff n 1 → ctlGet t o = ctlGet s o)) ∧
  (∀ (s : State) (o : Nat) (v : Word), ctlGet (devCtl s o v) o = v ∧ ∀ p, p / 8 ≠ o / 8 → ctlGet (devCtl s o v) p = ctlGet s p)

/-! ### The fabric -/

/-- A flit reaches this package, its tag verifies, and no announcement of this package's own is still to leave (R298, R301). -/
abbrev Enters (s : State) (f : Flit) : Prop := flitArrives s f = true ∧ tagVerifies s f = true ∧ announcing s = false

/-- A flit of an operation reaches this package and passes the interface's checks (R281, R292, R298, R301). -/
abbrev Comes (s : State) (f : Flit) (op : Nat) : Prop :=
  f.op = op ∧ Enters s f ∧ malformed f = false ∧ f.dinc = s.conf.incarnation ∧ tiState s f.ti ≠ 4

/-- No posted flit of the source core waits here (R161, R314). -/
abbrev Clear (s : State) (f : Flit) : Prop :=
  Tab.get s.fab.nacked (holdKey f) [] = [] ∧ Tab.get s.fab.holdQ (holdKey f) [] = [] ∧ frontOf s (holdKey f) = none ∧
  postedWaits s (holdKey f) = false

/-- What another package asks for (R107, R161, R292, R295, R296, R298, R314, Tables 15.2, 15.3): a load, a store, an
atomic and a tag access act on this package's memory as its own do and are answered OK with their bytes; an access the
checks refuse is answered FAULT with its cause; a flit for another incarnation is answered STALE, one for an interface
being torn down TORN, and a malformed one is dropped and counted; a copy engine's part of a line is read and written in one
step. The model's own choices here are those of log entries 49 and 62 (the form of an engine's flits). -/
def Obligations.RemoteService : Prop :=
  (∀ (s : State) (f : Flit),
    let v := tagPassed s f
    let p := clearNack v f
    let a := flitAddr f
    let ends := fun (i : Instr) (t : State) => exec i s = .next (settle (observe t))
    let size := 2 ^ fieldNat (f.words.getD 1 0) 2 0
    let mode := fieldNat (f.words.getD 1 0) 4 3
    let plain := bitOf (f.words.getD 1 0) 63 = false ∧ bitOf (f.words.getD 1 0) 62 = false
    let part := fieldNat (f.words.getD 1 0) 38 32
    let fine := fun (t : State) (acc : Access) => checkLocal t f.ti false a acc = none ∧ regionBusy t a = false ∧
      serialHolds t 0 (accessLines t a acc.size) = false ∧ placeOf t a = .dram
    (Comes s f 0 → plain → size ≤ 8 → fine v (plainAccess false size) → accessPoison v a size = false →
      (mode ≠ 3 → ∀ q ∈ wordsAt a size, v.mem.full q = true) →
      ends (.load f) (replyTo (if mode = 2 then devTags v a size false else jobRead v a size) f 0
        [BitVec.ofNat 64 (natOfBytes (v.mem.readBytes a size))])) ∧
    (Comes s f 1 → Clear s f → plain → size ≤ 8 → 2 < f.words.length → fine p (plainAccess true size) →
      poisonBlocks p.mem a size = false →
      (mode = 1 → ∀ q ∈ wordsAt a size, p.mem.full q = false) →
      ends (.store f) (replyTo (devWrite p a (bytesOfNat size (f.words.getD 2 0).toNat)
        (if mode = 0 then none else some (decide (mode ≠ 3)))) f 0 [])) ∧
    (Comes s f 0 → bitOf (f.words.getD 1 0) 63 = true → fine v ⟨false, part, part, true, true, false⟩ →
      accessPoison v a part = false → ends (.load f) (replyTo (jobRead v a part) f 0
        (replyWords (v.mem.readBytes a part ++ [BitVec.ofNat 8 (tagBits v.mem a part)])))) ∧
    (Comes s f 1 → Clear s f → bitOf (f.words.getD 1 0) 63 = true → bitOf (f.words.getD 1 0) 62 = false →
      let bs := (bytesOfWords (f.words.drop 2)).take part
      fine p ⟨true, bs.length, bs.length, true, true, false⟩ → poisonBlocks p.mem a bs.length = false →
      ends (.store f) (replyTo (devWrite p a bs (some true)) f 0 [])) ∧
    (∀ o : AmoOp, Comes s f 2 → fieldNat (f.words.getD 1 0) 8 5 = (match o with
        | .add => 0
        | .and => 1
        | .or => 2
        | .xor => 3
        | .min => 4
        | .minu => 5
        | .max => 6
        | .maxu => 7
        | .swap => 8
        | .cas => 9) → size = 8 → fine v ⟨true, 8, 8, true, true, false⟩ →
      accessPoison v a 8 = false → v.mem.full a = true → a % 8 = 0 →
      ends (.atomic f) (replyTo (match amoResult o (v.mem.read64 a) (f.words.getD 2 0) (f.words.getD 3 0) with
        | some x => devWrite v a (bytesOfNat 8 x.toNat) none
        | none => jobRead v a 8) f 0 [v.mem.read64 a])) ∧
    (Comes s f 3 → f.words.length < 2 → fine v ⟨false, 8, 8, true, true, false⟩ →
      ends (.tagRead f) (replyTo (jobRead v a 8) f 0 [if v.mem.full a then 1 else 0])) ∧
    (Comes s f 4 → Clear s f → fine p ⟨true, 8, 8, true, true, false⟩ → p.mem.poisoned a = false → a % 8 = 0 →
      ends (.tagWrite f) (replyTo (devTags p a 1 (bitOf (f.words.getD 1 0) 0)) f 0 [])) ∧
    (∀ c, Comes s f 0 → plain → size ≤ 8 → regionBusy v a = false → serialHolds v 0 (accessLines v a size) = false →
      checkLocal v f.ti false a (plainAccess false size) = some c → ends (.load f) (replyTo v f 4 [BitVec.ofNat 64 c])) ∧
    (∀ t, Comes s f 5 → Clear s f → deliverMsg p f.dcore f.ti (f.src * 1024 + f.score) 0 (fieldNat (f.words.getD 0 0) 7 0)
        ((f.words.drop 1).take (fieldNat (f.words.getD 0 0) 11 8)) 0 = some t →
      ends (.messageArrival (.fabric f)) (replyTo t f 0 [])) ∧
    (Enters s f → malformed f = false → f.op = 0 →
      (f.dinc ≠ s.conf.incarnation → ends (.load f) (replyTo v f 2 [])) ∧
      (f.dinc = s.conf.incarnation → tiState s f.ti = 4 → ends (.load f) (replyTo v f 3 []))) ∧
    (Enters s f → malformed f = true → ends (.store f) (siloAdd v 2236)) ∧
    (flitArrives s f = true → announcing s = true → f.op = 0 → f.cls = 0 → ends (.load f) s) ∧
    (flitArrives s f = true → announcing s = false → tagVerifies s f = false → f.op = 0 → ends (.load f) (tagFailed s f.port)) ∧
    (flitArrives s f = false → f.op = 0 → ends (.load f) s)) ∧
  (∀ (s : State) (f : Flit) (status : Nat) (ws : List Word),
    let t := replyTo s f status ws
    let p := portFor s f.src
    ∃ g, g.op = 9 ∧ g.cls = 1 ∧ g.dest = f.src ∧ g.src = s.conf.pkg ∧ g.ti = f.ti ∧ g.dcore = f.score ∧ g.reqid = f.reqid ∧
      g.status = status ∧ g.words = ws ∧ g.dinc = f.dinc ∧ t.mem = s.mem ∧ t.cur = s.cur ∧
      (if (linkAt s p).up = true ∧ (linkAt s p).txCtr < 2 ^ 48 then t.fab.egress = s.fab.egress ++ [g] ∧
        (linkAt t p).txCtr = (linkAt s p).txCtr + 1
       else t.fab.egress = s.fab.egress ∧ (linkAt t p).held = (linkAt s p).held ++ [g]))

/-- Launches, admission and cancels (R84, R86, R122, R259, R260, R261, R281, R302, R303, R304, R305, R306): a launch to a TI
in RUN whose record is the tenant's is queued and answered OK; admission takes the oldest record whose tenant is not
pre-empted by the service and whose root core has room: a reserved field ends the launch with status 2, an image that fails
is reported, an admitted one is reported and, where its record's pools are its own, started, and the root task gets the
record's core, priority and arguments; admission of a tenant outside RUN, or while a move of that tenant stands, ends with status
7 before any other failure (the standing move log entry 68, the order log entry 39); a cancel is answered OK and its counts go
to the host in a KIND 4 record. The model's own choices here are those of log entries 35, 39, 57 and 68. -/
def Obligations.Launches : Prop :=
  (∀ (s : State) (f : Flit), Comes s f 6 →
    let v := tagPassed s f
    let n := fieldNat (f.words.getD 0 0) 31 0
    let a := f.words.getD 1 0
    let ends := fun (t : State) => exec (.launch f) s = .next (settle (observe t))
    let owned := recordOwned v f.ti a 0 = true ∧ recordOwned v f.ti a (min 1024 (fieldNat (recordWord v a 0) 42 32)) = true
    (tiState s f.ti ≠ 2 → ends (replyTo v f 3 [])) ∧
    (tiState s f.ti = 2 → ¬owned → ends (replyTo v f 4 [0x14])) ∧
    (tiState s f.ti = 2 → owned → ends (replyTo { v with sched := { v.sched with
      launches := v.sched.launches ++ [⟨f.ti, n, [], [], 0, 0, 0, false, false⟩]
      launchQ := v.sched.launchQ ++ [⟨f.ti, n, a⟩] } } f 0 []))) ∧
  (∀ (s : State) (r : LaunchReq), s.sched.launchQ.find? (fun x => !(s.pre.svc.getLsbD x.ti) && !rootWaits s x) = some r →
    let v := { s with sched := { s.sched with launchQ := s.sched.launchQ.erase r } }
    let ctl := recordWord v r.addr 0
    let admits := admitImage v r.ti (recordWord v r.addr 1) (recordWord v r.addr 2).toNat (recordNetds v r.addr)
    let begun := fun (t : State) => mapLaunch t r.ti r.number fun l => { l with begun := true }
    let refused := fun (t : State) => mapLaunch t r.ti r.number fun l => { l with begun := true, status := 2 }
    let ends := fun (t : State) => exec .admission s = .next (settle (observe t))
    ((∃ l ∈ s.sched.launches, l.ti = r.ti ∧ l.number = r.number ∧ l.cancelled = true) → ends (begun v)) ∧
    ((∀ l ∈ s.sched.launches, l.ti = r.ti → l.number = r.number → l.cancelled = false) →
      (fieldNat ctl 1 0 = 3 ∨ fieldNat ctl 15 14 ≠ 0 ∨ fieldNat ctl 63 43 ≠ 0 → ends (refused v)) ∧
      (recordBad v r.ti r.addr = false →
        (∀ e b, fieldNat ctl 1 0 ≠ 2 → admits = .error (e, b) → ends (refused (reportRefused v r.ti r.number e b))) ∧
        (∀ u i, fieldNat ctl 1 0 = 0 → admits = .ok (u, i) →
          let w := reportAdmitted u r.number i
          ends (if fieldNat (recordWord w r.addr 0) 42 32 = i.pools.length then begun w else refused w)) ∧
        (∀ u i, fieldNat ctl 1 0 = 1 → admits = .ok (u, i) →
          ends (startLaunch (reportAdmitted u r.number i) r.ti r.number r.addr i.handle (some i) none)) ∧
        (fieldNat ctl 1 0 = 2 → tiState s r.ti = 2 → imageOf v r.ti (BitVec.ofNat 16 (fieldNat ctl 31 16)) = none →
          coreEnabled s (fieldNat ctl 13 4) = true → ∃ t u, ends t ∧ t.tasks = insertTask u s.tasks ∧ u.key = s.nextKey ∧
            u.kind = .root ∧ u.status = .unstarted ∧ u.core = fieldNat ctl 13 4 ∧ u.prio = fieldNat ctl 3 2 ∧ u.tenant = r.ti ∧
            u.trusted = false ∧ u.handle = BitVec.ofNat 16 (fieldNat ctl 31 16) ∧ u.launch = some (r.ti, r.number) ∧
            u.imgd = some (recordWord v r.addr 7) ∧
            (∀ k, k < 4 → getG u.ctx (BitVec.ofNat 5 (10 + k)) = recordWord v r.addr (3 + k)) ∧ t.mem = s.mem)))) ∧
  (∀ (s : State) (t n : Nat) (a : Word) (ds : List Word), tiState s t ≠ 2 ∨ (moveOf s t).isSome = true →
    admitImage s t a n ds = .error ((7, noIndex), [])) ∧
  (∀ (s : State) (f : Flit), Comes s f 7 →
    let v := replyTo (tagPassed s f) f 0 []
    let n := fieldNat (f.words.getD 0 0) 31 0
    let ends := fun (t : State) => exec (.cancel f) s = .next (settle (observe t))
    (v.sched.launches.find? (fun l => l.ti == f.ti && l.number == n) = none → ends (hostRecord v 4 f.ti n [0, 0, 0])) ∧
    (∀ l, v.sched.launches.find? (fun l => l.ti == f.ti && l.number == n) = some l →
      ends (hostRecord (cancelWork v l).1 4 f.ti n [BitVec.ofNat 64 (cancelWork v l).2.removed,
        BitVec.ofNat 64 (cancelWork v l).2.late, BitVec.ofNat 64 (cancelWork v l).2.begun]) ∧
      (l.nets = [] → v.sched.bags = [] → v.sched.spills = [] → (∀ t ∈ allTasks v, t.net = none) →
        (∀ t, t ∈ (cancelWork v l).1.tasks ↔ t ∈ v.tasks ∧ ¬(t.status = .unstarted ∧ t.launch = some (l.ti, l.number))) ∧
        (∀ q ∈ (cancelWork v l).1.sched.gangQ, ∀ g ∈ q.2, g.launch ≠ some (l.ti, l.number)) ∧
        (∀ x ∈ (cancelWork v l).1.sched.launches, x.ti = l.ti → x.number = l.number → x.cancelled = true)))) ∧
  (∀ (s : State) (kind ti n : Nat) (body : List Word), ∃ r, (hostRecord s kind ti n body).fab.outReqs = s.fab.outReqs ++ [r] ∧
    r.flit.op = 8 ∧ r.flit.cls = 2 ∧ r.flit.dest = hostEp s ti ∧ r.flit.ti = ti ∧
    r.flit.words = BitVec.ofNat 64 (kind + 2 ^ 8 * body.length + 2 ^ 16 * ti + 2 ^ 32 * n) :: body)

/-- Replies, retries and incarnations (R281, R294, R295, R296, R298): an OK reply gives the held slot its bytes, a FAULT its
cause, STALE and TORN cause 0x13; NACK-WAIT doubles the delay, to 32,768 at most, and the request is sent again when it has
passed; a reply to another incarnation's request, or of another incarnation, or to nothing outstanding, is dropped and
counted, unless it reports the condition of a wait slot that its request armed (log entry 62); an announcement answers STALE
what is outstanding under an older incarnation; a fence discards what this package holds for the TI and is acknowledged. The
model's own choices here are those of log entries 24 and 36. -/
def Obligations.Replies : Prop :=
  (∀ (s : State) (f : Flit), f.op = 9 → flitArrives s f = true → tagVerifies s f = true → malformed f = false →
    let v := tagPassed s f
    let ends := fun (t : State) => exec (.reply f) s = .next (settle (observe t))
    (replyReq s f = none → (∀ u ∈ allTasks v, reportTo v f u = u) → ends (siloAdd v 2237)) ∧
    (replyReq s f = none → (∃ u ∈ allTasks v, reportTo v f u ≠ u) → ends (mapTasks v (reportTo v f))) ∧
    (∀ r, replyReq s f = some r →
      (f.dinc ≠ r.flit.dinc ∨ f.status ≠ 2 ∧ f.sinc ≠ r.flit.dinc → ends (siloAdd v 2237)) ∧
      (f.status = 1 → f.dinc = r.flit.dinc → f.sinc = r.flit.dinc → ends (mapReq v r.core r.reqid fun x =>
        { x with delay := min 32768 (2 * r.delay), due := some (s.time + min 32768 (2 * r.delay)) })) ∧
      (∀ d n g, f.status ≠ 1 → f.dinc = r.flit.dinc → (f.status ≠ 2 → f.sinc = r.flit.dinc) → s.tears = [] → r.copy = none →
        isTask s.cur = true →
        r.waits = some (s.cur.key, d, n, g) → s.cur.hold = some (.reply r.reqid) → s.cur.slot?.isSome = true →
        ∃ t, ends t ∧ (∀ x ∈ t.fab.outReqs, ¬(x.core = r.core ∧ x.reqid = r.reqid)) ∧ t.mem = s.mem ∧
          t.cur = { s.cur with hold := some (.answer (if f.status = 0 then none
              else if f.status = 4 then some (fieldNat (f.words.getD 0 0) 7 0) else some 0x13)
            (destValue d n g ((bytesOfWords f.words).take n)) d.pair) }))) ∧
  (∀ (s : State) (core id : Nat) (r : OutReq), s.fab.outReqs.find? (fun x => x.core == core && x.reqid == id) = some r →
    (∀ n, r.due = some n → n ≤ s.time → r.posted = false ∨ olderWaits s.fab.outReqs r = false → exec (.nackWaitRetry core id) s =
      .next (sendFlit (mapReq s core id fun x => { x with due := none }) r.flit)) ∧
    (∀ n, r.due = some n → s.time < n → exec (.nackWaitRetry core id) s = .next s) ∧
    (r.flit.op ≠ 12 → (∃ x ∈ s.tears, x.tenant = r.tenant ∧ x.since + 170000 ≤ s.time) →
      exec (.replyTimeout core id) s = .next (settle (observe (tearAll (takeAnswer s r 3 []))))) ∧
    ((∀ x ∈ s.tears, x.tenant ≠ r.tenant) → exec (.replyTimeout core id) s = .next s)) ∧
  (∀ (s : State) (f : Flit), f.op = 11 → flitArrives s f = true → tagVerifies s f = true → malformed f = false → s.tears = [] →
    s.eng.gleaner.records = [] →
    let inc := fieldNat (f.words.getD 0 0) 7 0
    ((∀ r ∈ s.fab.outReqs, r.flit.dest ≠ f.src) → ∃ t, exec (.incarnationAnnouncement f) s = .next (settle (observe t)) ∧
      Tab.get t.fab.epInc f.src 0 = inc ∧ t.fab.outReqs = s.fab.outReqs ∧ t.mem = s.mem) ∧
    (∀ r d n g, s.fab.outReqs = [r] → r.flit.dest = f.src → r.flit.dinc ≠ inc → r.copy = none → isTask s.cur = true →
      r.waits = some (s.cur.key, d, n, g) → s.cur.hold = some (.reply r.reqid) → s.cur.slot?.isSome = true →
      ∃ t, exec (.incarnationAnnouncement f) s = .next (settle (observe t)) ∧ Tab.get t.fab.epInc f.src 0 = inc ∧
        t.fab.outReqs = [] ∧ t.cur = { s.cur with hold := some (.answer (some 0x13) (destValue d n g []) d.pair) } ∧
        t.mem = s.mem)) ∧
  (∀ (s : State) (f : Flit), f.op = 12 → flitArrives s f = true → tagVerifies s f = true → malformed f = false →
    f.dinc = s.conf.incarnation → ∃ t,
    exec (.incarnationFence f) s = .next (settle (observe (replyTo t f 0 []))) ∧
    t = discardFlits (tagPassed s f) (fun p => p == f.src) f.ti ∧
    (∀ w ∈ t.eng.waiters, ∀ g, w.asker = .remote g → ¬(g.src = f.src ∧ g.ti = f.ti)) ∧
    (∀ e ∈ t.fab.holdQ, ∀ g ∈ e.2, ¬(g.src = f.src ∧ g.ti = f.ti)))

/-! ### Links, attestation and tenant interfaces -/

/-- Links and their keys (R279, R291, R299, R300, R301, R320): bring-up of an enabled port that is down, once stage 3 of boot
has begun, assigns the directions, loads the two keys and starts both counters at 0; a flit leaves as its header, its payload
under AES-256-GCM with the direction and the counter as nonce, its tag over both and 16 bytes of checks, and the counter
rises; a transmit counter at 2^47 asks for a rekey; KEY_UPDATE on the link's session puts the new keys in the idle banks, and
its confirmation goes on under the other KGEN with a counter at 0; the first verified flit under the other KGEN retires the
old receive bank; a third failed tag in a row takes the link down. The model's own choices here are those of log entries 13,
37, 45, 63, 64 and 70. -/
def Obligations.Links : Prop :=
  (∀ (s : State) (p x y : Nat), s.mgmt.stage < 3 ∨ s.mgmt.halted = true → exec (.linkBringUp p x y) s = .next s) ∧
  (∀ (s : State) (p x y : Nat), 3 ≤ s.mgmt.stage → s.mgmt.halted = false → p ∈ portsOn s → (linkAt s p).up = false →
    (linkAt s p).held = [] → ∃ t, exec (.linkBringUp p x y) s = .next t ∧
      linkAt t p = ⟨true, false, 0, 0, x, y, none, 0, false, false, []⟩ ∧
      (∀ q, q ≠ p → linkAt t q = linkAt s q) ∧ t.fab.egress = s.fab.egress ∧ t.cur = s.cur ∧ t.mem = s.mem ∧
      (let key := fun (d : Nat) => hkdf384 (Config.sessionSecret s.fresh) ([0x6C, 0x6A, 0x38, 0x20, 0x6C, 0x69, 0x6E, 0x6B] ++
          [BitVec.ofNat 8 d]) 32
       bankKey t (65 + 2 * p) false = key x ∧ bankKey t (66 + 2 * p) false = key y ∧
       bankKey t (65 + 2 * p) true = [] ∧ bankKey t (66 + 2 * p) true = [])) ∧
  (∀ (s : State) (f : Flit),
    let l := linkAt s f.port
    let g := { f with kgen := l.kgen }
    let rk := roundKeys (bankKey s (65 + 2 * f.port) l.kgen)
    let nonce := bytesOfNat 4 l.txDir ++ bytesOfNat 8 l.txCtr
    let ct := gcmCrypt rk nonce (bytesOfWords ((f.words ++ List.replicate 26 0).take 26))
    l.up = true → l.txCtr < 2 ^ 48 → ∃ check : List Byte, check.length = 16 ∧
      (sendFlit s f).fab.wire = s.fab.wire ++
        [(f.port, flitHeader g ++ ct ++ gcmTag rk nonce (flitHeader g) ct ++ check)] ∧
      linkAt (sendFlit s f) f.port = { l with txCtr := l.txCtr + 1 }) ∧
  (∀ (s : State) (p : Nat),
    ((linkAt s p).up = true → 2 ^ 47 ≤ (linkAt s p).txCtr → (linkAt s p).want = false →
      exec (.rekeyRequest p) s = .next (setLink s p { linkAt s p with want := true })) ∧
    ((linkAt s p).txCtr < 2 ^ 47 → exec (.rekeyRequest p) s = .next s)) ∧
  (∀ (s : State) (p : Nat) (m : SpdmMsg) (f : Flit), s.mgmt.mbox.monitor = true → m.session = 1 + p →
    m.bytes.getD 1 0 = 0xE9 → s.mgmt.inbox.find? (fun f => sessionOf f == 1 + p) = some f → p ∈ portsOn s → (linkAt s p).up = true →
    let l := linkAt s p
    let key := fun (d : Nat) => hkdf384 (Config.sessionSecret s.fresh) ([0x6C, 0x6A, 0x38, 0x20, 0x6C, 0x69, 0x6E, 0x6B] ++
      [BitVec.ofNat 8 d]) 32
    let acked := fun (t : State) => exec (.keyUpdate m p) s = .next t ∧ t.mem = s.mem ∧ t.mgmt.inbox = s.mgmt.inbox.erase f ∧
      ∃ bs, (sessionAt t m.session).sent = (sessionAt s m.session).sent ++ [.named .keyUpdateAck bs]
    (m.bytes.getD 2 0 ≠ 3 → l.rekey = none → ∃ t, acked t ∧ (linkAt t p).kgen = l.kgen ∧ (linkAt t p).rekey = some ⟨false, false⟩ ∧
      bankKey t (65 + 2 * p) (!l.kgen) = key l.txDir ∧ bankKey t (66 + 2 * p) (!l.rxKgen) = key l.rxDir ∧
      bankKey t (65 + 2 * p) l.kgen = bankKey s (65 + 2 * p) l.kgen ∧
      bankKey t (66 + 2 * p) l.rxKgen = bankKey s (66 + 2 * p) l.rxKgen ∧
      (portFor s f.src ≠ p → linkAt t p = { l with rekey := some ⟨false, false⟩ })) ∧
    (∀ b, m.bytes.getD 2 0 = 3 → l.rekey = some ⟨false, b⟩ → ∃ t, acked t ∧ (linkAt t p).kgen = !l.kgen ∧
      (linkAt t p).rekey = (if b then none else some ⟨true, false⟩) ∧ (linkAt t p).want = false ∧
      bankKey t (65 + 2 * p) l.kgen = [] ∧ bankKey t (65 + 2 * p) (!l.kgen) = bankKey s (65 + 2 * p) (!l.kgen) ∧
      (portFor s f.src ≠ p → l.held = [] → (linkAt t p).txCtr = 0))) ∧
  (∀ (s : State) (f : Flit), f.kgen ≠ (linkAt s f.port).rxKgen →
    let t := tagPassed s f
    (linkAt t f.port).rxKgen = f.kgen ∧ (linkAt t f.port).rxCtr = 1 ∧ bankKey t (66 + 2 * f.port) (!f.kgen) = [] ∧
    bankKey t (66 + 2 * f.port) f.kgen = bankKey s (66 + 2 * f.port) f.kgen) ∧
  (∀ (s : State) (f : Flit), flitArrives s f = true → announcing s = false → tagVerifies s f = false → f.op = 0 →
    malformed f = false → Quiet s →
    ((linkAt s f.port).fails < 2 → ∃ t, exec (.load f) s = .next t ∧
      linkAt t f.port = { linkAt s f.port with fails := (linkAt s f.port).fails + 1 } ∧ t.mem = s.mem) ∧
    (2 ≤ (linkAt s f.port).fails → s.fab.outReqs = [] → Unseen s (0x4000000 + 8 * 2240) → ∃ t, exec (.load f) s = .next t ∧
      (linkAt t f.port).up = false ∧ t.mem = s.mem))

/-- The MEASUREMENTS response without a signature (R337, Table 19.3): the block of every index that Param2 names, ascending. -/
def measurementsOf (s : State) (p : Nat) (nonce : List Byte) : List Byte :=
  let is := if p = 0 then [] else if p = 0xFF then (List.range 16).map (· + 1) else [p]
  [0x13, 0x60, (if p = 0 then 16 else 0), 0, BitVec.ofNat 8 is.length] ++ bytesOfNat 3 (55 * is.length) ++
    (is.flatMap fun k => [BitVec.ofNat 8 k, 0x01, 0x33, 0x00, 0x01, 0x30, 0x00] ++
      bytesBE 48 (s.mgmt.meas[(k - 1) % 16]'(Nat.mod_lt _ (by decide))).toNat) ++ nonce ++ [0, 0]

/-- The SPDM responder and the MCTP mailbox (R324, R325, R326, R335, R336, R338, Table 19.1): a session's request, which an
OP 13 flit has brought (R307), is answered with its named response by the security monitor; GET_MEASUREMENTS with the
measurement blocks its Param2 names, or with the error of the first test that fails; ALGORITHMS to a requester that offers
the extended entry; every other request with ERROR, UnsupportedRequest; before the monitor starts the mailbox itself answers
GET_VERSION, and stage 1 the others by Table 19.2; a request that arrives while PEND is set is answered Busy. The model's own
choices here are those of log entries 42 and 64 (the request codes). -/
def Obligations.Attestation : Prop :=
  (∀ (s : State) (m : SpdmMsg), s.mgmt.mbox.monitor = true → m.session ≠ 0 → (∀ f ∈ s.mgmt.inbox, sessionOf f ≠ m.session) →
    exec (.getVersion m) s = .next s ∧ exec (.getDigests m) s = .next s ∧ exec (.getMeasurements m) s = .next s) ∧
  (∀ (s : State) (m : SpdmMsg) (f : Flit), s.mgmt.mbox.monitor = true → m.session ≠ 0 →
    s.mgmt.inbox.find? (fun f => sessionOf f == m.session) = some f →
    let i := m.session
    let code := m.bytes.getD 1 0
    let answers := fun (j : Instr) (n : SpdmName) (also : State → Prop) => ∃ t bs, exec j s = .next t ∧
      t.mgmt.inbox = s.mgmt.inbox.erase f ∧ (sessionAt t i).sent = (sessionAt s i).sent ++ [.named n bs] ∧ t.cur = s.cur ∧
      t.mem = s.mem ∧ also t
    let any := fun (_ : State) => True
    (code = 0x84 → answers (.getVersion m) .version any) ∧ (code = 0xE1 → answers (.getCapabilities m) .capabilities any) ∧
    (code = 0x81 → answers (.getDigests m) .digests any) ∧ (code = 0x82 → answers (.getCertificate m) .certificate any) ∧
    (code = 0x83 → answers (.challenge m) .challengeAuth any) ∧ (code = 0xE8 → answers (.heartbeat m) .heartbeatAck any) ∧
    (code = 0xE4 → answers (.keyExchange m) .keyExchangeRsp fun t => (sessionAt t i).keyed = true) ∧
    (code = 0xE5 → answers (.finish m) .finishRsp fun t => (sessionAt t i).secured = (sessionAt s i).keyed) ∧
    (code = 0xEC → answers (.endSession m) .endSessionAck fun t =>
      (sessionAt t i).keyed = false ∧ (sessionAt t i).secured = false) ∧
    (code = 0xE3 → ∃ t, exec (.negotiateAlgorithms m) s = .next t ∧ (sessionAt t i).sent = (sessionAt s i).sent ++
      [if hasBytes [0x04, 0x00, 0x06, 0x00, 0xA7, 0xE5, 0x01, 0x00, 0x01, 0x00] m.bytes
        then .algorithms 2 4 16 2 0 1 [0x04, 0x00, 0x06, 0x00, 0xA7, 0xE5, 0x01, 0x00, 0x01, 0x00]
        else .exact [0x13, 0x7F, 0x07, m.bytes.getD 1 0]]) ∧
    (code ∉ spdmCodes → ∃ t, exec (.spdmUnsupportedRequest m) s = .next t ∧ (sessionAt t i).sent = (sessionAt s i).sent ++
      [.exact [0x13, 0x7F, 0x07, m.bytes.getD 1 0]] ∧ t.mem = s.mem) ∧
    (∀ c d, code = 0xE0 → measError m.bytes true = some (c, d) → ∃ t, exec (.getMeasurements m) s = .next t ∧
      (sessionAt t i).sent = (sessionAt s i).sent ++ [.exact [0x13, 0x7F, c, d]]) ∧
    (measError m.bytes true = none → (m.bytes.getD 2 0).getLsbD 0 = true → ∃ t bs, exec (.getMeasurements m) s = .next t ∧
      (sessionAt t i).sent = (sessionAt s i).sent ++ [.exact bs] ∧ bs.take 2 = [0x13, 0x60]) ∧
    (measError m.bytes true = none → (m.bytes.getD 2 0).getLsbD 0 = false → ∃ t, exec (.getMeasurements m) s = .next t ∧
      (sessionAt t i).sent = (sessionAt s i).sent ++
        [.exact (measurementsOf s (m.bytes.getD 3 0).toNat ((bytesBE 48 t.mgmt.crypto.dig.toNat).take 32))])) ∧
  (∀ (s : State) (m : SpdmMsg) (p : Nat),
    (∀ x ∈ [(Instr.getVersion m, (0x84 : Byte)), (.getCapabilities m, 0xE1), (.negotiateAlgorithms m, 0xE3), (.getDigests m, 0x81),
        (.getCertificate m, 0x82), (.challenge m, 0x83), (.getMeasurements m, 0xE0), (.keyExchange m, 0xE4), (.finish m, 0xE5),
        (.heartbeat m, 0xE8), (.keyUpdate m p, 0xE9), (.endSession m, 0xEC)],
      m.bytes.getD 1 0 ≠ x.2 → exec x.1 s = .next s) ∧
    (s.mgmt.mbox.monitor = true → m.bytes.getD 1 0 ∈ spdmCodes → exec (.spdmUnsupportedRequest m) s = .next s) ∧
    (s.mgmt.mbox.monitor = false → s.mgmt.mbox.pend = false → m.session = 0 → m.bytes.getD 1 0 = 0x84 →
      exec (.mailboxRequestArrival m.bytes) s = exec (.getVersion m) s ∧ ∃ t bs, exec (.getVersion m) s = .next t ∧
        (sessionAt t 0).sent = (sessionAt s 0).sent ++ [.named .version bs] ∧ t.mgmt.mbox = s.mgmt.mbox ∧ t.mem = s.mem) ∧
    (s.mgmt.mbox.monitor = false → s.mgmt.poll = some true → s.mgmt.mbox.pend = true → m.session = 0 →
      s.mgmt.mbox.rxbuf = m.bytes →
      ∀ x ∈ [(Instr.getDigests m, (0x81 : Byte)), (.getCertificate m, 0x82), (.challenge m, 0x83), (.keyExchange m, 0xE4),
        (.finish m, 0xE5), (.heartbeat m, 0xE8), (.keyUpdate m p, 0xE9), (.endSession m, 0xEC)],
      m.bytes.getD 1 0 = x.2 → ∃ t, exec x.1 s = .next t ∧ t.mgmt.mbox.pend = false ∧ t.mgmt.poll = some false ∧
        ∀ c d, measError m.bytes false = some (c, d) →
          t.mgmt.mbox.sent = s.mgmt.mbox.sent ++ [[0x13, 0x7F, c, d]])) ∧
  (∀ (q : List Byte) (b : Bool),
    (q.getD 0 0 ≠ 0x13 → measError q b = some (0x41, 0)) ∧
    (q.getD 0 0 = 0x13 → q.getD 1 0 ≠ 0xE0 → measError q b = some (0x07, q.getD 1 0)) ∧
    (q.getD 0 0 = 0x13 → q.getD 1 0 = 0xE0 → (q.getD 2 0).getLsbD 0 = true → measError q false = some (0x07, 0xE0)) ∧
    (q.getD 0 0 = 0x13 → q.getD 1 0 = 0xE0 → (q.getD 2 0).getLsbD 0 = false → q.length ≠ 4 → measError q b = some (0x01, 0)) ∧
    (q.getD 0 0 = 0x13 → q.getD 1 0 = 0xE0 → (q.getD 2 0).getLsbD 0 = false → q.length = 4 →
      measError q b = if 16 < (q.getD 3 0).toNat ∧ (q.getD 3 0).toNat ≠ 0xFF then some (0x01, 0) else none)) ∧
  (∀ (s : State) (bs : List Byte), s.mgmt.mbox.pend = true → ∃ t d, exec (.mailboxRequestArrival bs) s = .next t ∧
      t.mgmt.mbox = { s.mgmt.mbox with sent := s.mgmt.mbox.sent ++ [[0x13, 0x7F, 0x03, d]] }) ∧
  (∀ (s : State) (bs : List Byte), s.mgmt.mbox.monitor = true →
    (s.mgmt.mbox.pend = true → ∃ t d, exec (.mailboxRequestArrival bs) s = .next t ∧
      t.mgmt.mbox = { s.mgmt.mbox with sent := s.mgmt.mbox.sent ++ [[0x13, 0x7F, 0x03, d]] }) ∧
    (s.mgmt.mbox.pend = false → 1 ≤ bs.length → bs.length ≤ 4095 →
      (∃ t, exec (.mailboxRequestArrival bs) s = .next t ∧
        t.mgmt.mbox = { s.mgmt.mbox with pend := true, rxbuf := bs, rxAt := s.time } ∧ t.cur = s.cur ∧ t.mem = s.mem) ∧
      exec (.mctpMessage 5 bs) s = exec (.mailboxRequestArrival bs) s) ∧
    (∀ ty, ty ≠ 5 → ty ≠ 6 → exec (.mctpMessage ty bs) s = .next (siloAdd s 2238))) ∧
  (∀ (s : State) (v : Word),
    let n := fieldNat v 11 0
    (s.mgmt.mbox.pend = true → n ≠ 0 → ∃ t, exec (.txctl v) s = .next t ∧ t.mgmt.mbox = { s.mgmt.mbox with
      pend := false, rxbuf := [], sent := s.mgmt.mbox.sent ++ [(List.range n).map fun k => Tab.get s.mgmt.mbox.txbuf k 0] }) ∧
    (s.mgmt.mbox.pend = false → exec (.txctl v) s = .next s))

/-- Stage 1's answer to the pending request (R337, Tables 19.2 and 19.3): at stage 1's read of RXSTAT, the request that it
finds pending in the mailbox is answered with ERROR and the code and data of the first test of Table 19.2 that it fails, and
one that passes every test with MEASUREMENTS: the blocks of the indices that Param2 names in ascending order, and a fresh
result of op 7 as nonce. -/
def Obligations.StageOneAnswers : Prop :=
  (∀ (s : State) (m : SpdmMsg), s.mgmt.mbox.monitor = false → s.mgmt.poll = some true → m.session = 0 →
    s.mgmt.mbox.pend = true → s.mgmt.mbox.rxbuf = m.bytes →
      ∃ t, exec (if m.bytes.getD 1 0 = 0xE0 then .getMeasurements m else .spdmUnsupportedRequest m) s = .next t ∧
        t.mgmt.mbox.pend = false ∧ t.mgmt.poll = some false ∧
        let sends := fun (bs : List Byte) => (sessionAt t 0).sent = (sessionAt s 0).sent ++ [.exact bs] ∧
          t.mgmt.mbox.sent = s.mgmt.mbox.sent ++ [bs]
        (∀ c d, measError m.bytes false = some (c, d) → sends [0x13, 0x7F, c, d]) ∧
        (measError m.bytes false = none → sends
          (measurementsOf s (m.bytes.getD 3 0).toNat ((bytesBE 48 t.mgmt.crypto.dig.toNat).take 32)))) ∧
  (∀ q : List Byte,
    let first := measError q false
    (q.getD 0 0 ≠ 0x13 → first = some (0x41, 0)) ∧
    (q.getD 0 0 = 0x13 → q.getD 1 0 ≠ 0xE0 → first = some (0x07, q.getD 1 0)) ∧
    (q.getD 0 0 = 0x13 → q.getD 1 0 = 0xE0 → (q.getD 2 0).getLsbD 0 = true → first = some (0x07, 0xE0)) ∧
    (q.getD 0 0 = 0x13 → q.getD 1 0 = 0xE0 → (q.getD 2 0).getLsbD 0 = false → q.length ≠ 4 → first = some (0x01, 0)) ∧
    (q.getD 0 0 = 0x13 → q.getD 1 0 = 0xE0 → (q.getD 2 0).getLsbD 0 = false → q.length = 4 →
      first = if (q.getD 3 0).toNat ≤ 16 ∨ (q.getD 3 0).toNat = 0xFF then none else some (0x01, 0)))

/-- Tenant interfaces (R253, R277 to R281, Table 13.3): each TDISP request is answered once the security monitor runs;
LOCK takes CONFIG_UNLOCKED to CONFIG_LOCKED, START that to RUN, STOP begins the teardown; a request in a state that does
not allow it is answered INVALID_INTERFACE_STATE and changes no state; a configuration is checked in the order state,
reserved, alignment, bounds, overlap, and written whole or not at all; a lost session takes a locked or running
interface to ERROR; a STOP in DRAINING is answered and changes no word, and a STOP that begins the teardown first abandons the
tenant's queued admissions (log entry 36). The model's own choices here are those of log entries 36, 43 and 44. -/
def Obligations.Interfaces : Prop :=
  (∀ (s : State) (t : Nat), (∀ f ∈ s.mgmt.inbox, f.ti ≠ t) → s.mgmt.mbox.pend = false →
    exec (.getTdispVersion t) s = .next s ∧ exec (.startInterfaceRequest t) s = .next s) ∧
  (∀ (s : State) (t : Nat), t < 64 → s.mgmt.mbox.monitor = true →
    (∃ f ∈ s.mgmt.inbox, f.ti = t) ∨ s.mgmt.mbox.pend = true →
    let st := tiState s t
    let s₁ := match takeInbox s (fun f => f.ti == t) with
      | some x => x.2
      | none => s
    let answers := fun (i : Instr) (r : TiReply) => ∃ v, exec i s = .next v ∧ v.mgmt.tiSent = s.mgmt.tiSent ++ [(t, r)] ∧
      v.ctl = s.ctl ∧ v.cur = s.cur ∧ v.tasks = s.tasks ∧ v.mem = s.mem
    answers (.getTdispVersion t) .version ∧ answers (.getTdispCapabilities t) .capabilities ∧
    answers (.getDeviceInterfaceState t) (.state st) ∧ answers (.tdispUnsupportedRequest t) .unsupportedRequest ∧
    (st = 1 ∨ st = 2 → answers (.getDeviceInterfaceReport t) (.report (fieldNat (tenantWord s t 0) 23 16)
      ((regionsOf s t).map fun e => ⟨e.base, e.size, e.kind, if e.sealed then some e.cls else none⟩)
      ((s.sched.images.filter fun i => i.tenant == t && !i.old && textStands s i).map fun i => (i.d, i.handle)))) ∧
    (st ≠ 1 → st ≠ 2 → answers (.getDeviceInterfaceReport t) .invalidInterfaceState) ∧
    (st ≠ 0 → answers (.lockInterfaceRequest t) .invalidInterfaceState) ∧
    (st = 0 → s.mgmt.stage < 4 ∨ (arena s t).2 ≤ (arena s t).1 → answers (.lockInterfaceRequest t) .invalidRequest) ∧
    (∀ u, st = 0 → s.mgmt.stage = 4 → (arena s t).1 < (arena s t).2 → createAreas s₁ t = .ok u → ∃ v,
      exec (.lockInterfaceRequest t) s = .next v ∧ v.mgmt.tiSent = u.mgmt.tiSent ++ [(t, .locked)] ∧ tiState v t = 1 ∧
      fieldNat (tenantWord v t 0) 23 16 = (fieldNat (tenantWord u t 0) 23 16 + 1) % 256) ∧
    (∀ e, st = 0 → s.mgmt.stage = 4 → (arena s t).1 < (arena s t).2 → createAreas s₁ t = .error e →
      answers (.lockInterfaceRequest t) .invalidRequest) ∧
    (st = 1 → ∃ v, exec (.startInterfaceRequest t) s = .next v ∧ v.mgmt.tiSent = s.mgmt.tiSent ++ [(t, .started)] ∧
      tiState v t = 2 ∧ (∀ o, o / 8 ≠ tenantOff t 0 / 8 → ctlGet v o = ctlGet s o)) ∧
    (st ≠ 1 → answers (.startInterfaceRequest t) .invalidInterfaceState) ∧
    (st = 0 → answers (.stopInterfaceRequest t) .invalidInterfaceState) ∧
    (st = 4 → answers (.stopInterfaceRequest t) .stopped) ∧
    (st = 1 ∨ st = 2 ∨ st = 3 → exec (.stopInterfaceRequest t) s =
      .next (tiAnswer s t fun x => tearBegin (abandonQueued (tiSend x t .stopped) t) t))) ∧
  (∀ (s : State) (t : Nat), t < 64 → (∀ u ∈ allTasks s, u.tenant ≠ t) →
    (tiState s t = 1 ∨ tiState s t = 2 → ∃ v, exec (.spdmSessionLoss t) s = .next v ∧ tiState v t = 3 ∧
      (∀ o, o / 8 ≠ tenantOff t 0 / 8 → ctlGet v o = ctlGet s o)) ∧
    (tiState s t ≠ 1 → tiState s t ≠ 2 → exec (.spdmSessionLoss t) s = .next s)) ∧
  (∀ (s : State) (c : TiConfig), s.mgmt.mbox.monitor = true →
    (∃ f ∈ s.mgmt.inbox, f.ti = fieldNat c.op 13 8) ∨ s.mgmt.mbox.pend = true →
    let t := fieldNat c.op 13 8
    let e := configError s t c
    ∃ v, exec (.setTiConfig c) s = .next v ∧ v.mgmt.tiSent = s.mgmt.tiSent ++ [(t, .vendor (BitVec.ofNat 64 e))] ∧
      (e ≠ 0 → v.ctl = s.ctl) ∧
      (e = 0 → tenantWord v t 6 = c.arlo ∧ tenantWord v t 7 = c.arhi ∧ tenantWord v t 5 = c.spwin ∧ tenantWord v t 2 = c.tbase ∧
        tenantWord v t 3 = c.save ∧ tenantWord v t 4 = c.spill ∧ tenantWord v t 11 = c.undq ∧ tenantWord v t 9 = c.hostep ∧
        tenantWord v t 8 = c.fmask) ∧
      (tiState s t ≠ 0 → e = 1) ∧ (tiState s t = 0 → fieldNat c.op 63 14 ≠ 0 → e = 4) ∧
      (tiState s t = 0 → configReserved c = false → c.arlo.toNat % 0x10000 ≠ 0 → e = 2) ∧
      (tiState s t = 0 → configReserved c = false → c.arlo.toNat % 0x10000 = 0 → c.arhi.toNat % 0x10000 = 0 →
        (∀ a ∈ configAreas c, a.1.1 % a.2 = 0) → c.arhi.toNat ≤ c.arlo.toNat → e = 5)) ∧
  (∀ (s : State) (m : Move), s.moves.find? (fun m => decide (m.since + 170000000 ≤ s.time) && moveWaits s m) = some m →
    exec .compactTimeout s = .next (settle (observe (moveAbandon s m))) ∧
    ∃ r, (moveAbandon s m).fab.outReqs.getLast? = some r ∧ r.flit.op = 8 ∧ r.flit.ti = m.tenant ∧
      r.flit.words = [envelope 5 2 m.tenant 0, 1, m.base])

/-! ### The management die -/

/-- The crypto block (R319, R320, R322, R334, Tables 18.2, 18.3): a command starts where none runs, its effect and error as
its operation gives them, and STAT says done or failed when it ends; a CMD write while one runs is ignored and that one ends
with error 1; SHA-384 of a range in SRAM or flash, error 4 for any other; verify gives 2 for a key whose hash is not
KEYHASH; sign 5 for a slot that cannot; extend 5 for MEAS0 once the boot ROM has exited; ops 5 and 6 write the ciphertext,
op 5 its tag; other codes 6. The model's own choices here are those of log entries 6, 41 and 66. -/
def Obligations.CryptoBlock : Prop :=
  (∀ s : State, s.mgmt.crypto.busy = none →
    let c := s.mgmt.crypto
    let starts := fun (i : Instr) (op err : Nat) (after : Crypto → Prop) => ∃ t, exec i s = .next t ∧
      t.mgmt.crypto.busy = some ⟨op, err, false⟩ ∧ t.mem = s.mem ∧ t.cur = s.cur ∧ t.ctl = s.ctl ∧ after t.mgmt.crypto
    let keeps := fun (x : Crypto) => x.dig = c.dig ∧ x.sig = c.sig
    (∀ bs, c.len.toNat ≤ 2 ^ 24 → mgmtBytes s c.src.toNat c.len.toNat = some bs →
      starts .cryptoSha384 1 0 fun x => x.dig = digOf (sha384 bs) ∧ x.sig = c.sig) ∧
    (2 ^ 24 < c.len.toNat ∨ mgmtBytes s c.src.toNat c.len.toNat = none → starts .cryptoSha384 1 4 keeps) ∧
    (∀ key, mgmtBytes s c.keyaddr.toNat 96 = some key →
      (digOf (sha384 key) ≠ c.keyhash → starts .cryptoEcdsaVerify 2 2 keeps) ∧
      (digOf (sha384 key) = c.keyhash →
        let rs := bytesBE 96 c.sig.toNat
        starts .cryptoEcdsaVerify 2 (if ecdsaVerify c.dig.toNat (natBE (key.take 48)) (natBE (key.drop 48)) (natBE (rs.take 48))
          (natBE (rs.drop 48)) then 0 else 3) keeps)) ∧
    let signs := fun (n : Nat) => if n % 128 = 64 then some Config.deviceKey else (Tab.get s.mgmt.keys (n % 128) .empty).sign
    (∀ n d, signs n = some d → starts (.cryptoEcdsaSign n) 3 0 fun x => x.dig = c.dig ∧ ∃ k, 1 ≤ k ∧ k < curveQ ∧
      let rs := ecdsaPair c.dig.toNat (d % (curveQ - 1) + 1) k
      x.sig = BitVec.ofNat 768 (rs.1 * 2 ^ 384 + rs.2)) ∧
    (∀ n, signs n = none → starts (.cryptoEcdsaSign n) 3 5 keeps) ∧
    (∀ i, i < 16 → i ≠ 0 ∨ s.mgmt.romExit = false → ∃ t, exec (.cryptoExtend i) s = .next t ∧
      t.mgmt.crypto.busy = some ⟨4, 0, false⟩ ∧
      measOf t i = digOf (sha384 (bytesBE 48 (measOf s i).toNat ++ bytesBE 48 c.dig.toNat)) ∧
      ∀ j, j < 16 → j ≠ i → measOf t j = measOf s j) ∧
    (s.mgmt.romExit = true → starts (.cryptoExtend 0) 4 5 keeps) ∧
    (∀ d n bs, mgmtBytes s c.src.toNat 64 = some d →
      let dest := natOfBytes (d.take 8)
      let len := natOfBytes ((d.drop 8).take 8)
      let nonce := (d.drop 16).take 16
      let tagAt := natOfBytes ((d.drop 32).take 8)
      let k := Tab.get s.mgmt.keys (n % 128) .empty
      let leaves := fun (i : Instr) (u : State) => ∃ t, exec i s = .next t ∧ t.mgmt.sram = u.mgmt.sram
      mgmtBytes s (c.src.toNat + 64) len = some bs → len ≤ 2 ^ 24 → inSram dest len = true →
      (k.code.length = 64 → 16 ≤ bs.length → starts (.cryptoAesXts n) 6 0 keeps ∧
        leaves (.cryptoAesXts n) (sramPut s dest (xtsEncrypt k.code nonce bs))) ∧
      (k.code.length ≠ 64 → starts (.cryptoAesXts n) 6 5 keeps) ∧
      (inSram tagAt 16 = true →
        let rk := roundKeys k.image
        let ct := gcmCrypt rk (nonce.take 12) bs
        (k.image.length = 32 → starts (.cryptoAesGcm n) 5 0 keeps ∧
          leaves (.cryptoAesGcm n) (sramPut (sramPut s dest ct) tagAt (gcmTag rk (nonce.take 12) [] ct))) ∧
        (k.image.length ≠ 32 → starts (.cryptoAesGcm n) 5 5 keeps))) ∧
    (∀ n, mgmtBytes s c.src.toNat 64 = none → starts (.cryptoAesGcm n) 5 4 keeps ∧ starts (.cryptoAesXts n) 6 4 keeps) ∧
    starts .cryptoRandom 7 0 (fun x => x.sig = c.sig) ∧
    (∀ op : BitVec 4, starts (.cryptoInvalidOp op) op.toNat 6 keeps) ∧
    exec .cryptoCommandDone s = .next s) ∧
  (∀ (s : State) (b : CryptoCmd), s.mgmt.crypto.busy = some b →
    (∃ t, exec .cryptoCommandDone s = .next t ∧ t.mgmt.crypto.busy = none ∧
      t.mgmt.crypto.stat = BitVec.ofNat 64 ((if b.err = 0 then 2 else 3) +
        2 ^ 8 * (if b.err = 0 then if b.late then 1 else 0 else b.err)) ∧
      t.mgmt.crypto.dig = s.mgmt.crypto.dig ∧ t.mem = s.mem) ∧
    (∀ i ∈ [Instr.cryptoSha384, .cryptoEcdsaVerify, .cryptoRandom], ∃ t, exec i s = .next t ∧
      t.mgmt.crypto = { s.mgmt.crypto with busy := some { b with late := true } }))

/-- Power, cooling and boot (R165, R254, R297, R318, R321, R322, R323, R327, R328, R329, R331, R336, R338): a reset applies the
disable list and runs stage 0; each stage halts with its error in the boot status word, or measures the next image and goes on:
stage 1 answers the request it finds pending, stage 2 raises the incarnation, stage 3 leaves every granule unscrubbed; the silo
survives in its non-volatile store; a shutdown flushes it first; an
error of the memory's ECC poisons the word; an access of the management core to an address outside its map is kept, counted,
and traps. The model's own choices here are those of log entries 46, 47, 59 and 65. -/
def Obligations.PowerAndBoot : Prop :=
  (∀ s : State,
    let r := resetPackage s
    let e := bootError r 0 false
    ∃ t, exec .powerOnReset s = .next t ∧ t.conf = resetConf s ∧ t.silo = s.silo ∧ t.power = true ∧ t.time = 0 ∧
      t.mgmt.mbox.monitor = false ∧ (∀ n, tenantWord t n 0 = ctlReset (tenantOff n 0)) ∧
      (e ≠ 0 → t.mgmt.halted = true ∧ t.mgmt.mbox.bootst = BitVec.ofNat 64 (2 ^ 8 * e) ∧ t.mgmt.stage = 0 ∧
        t.mgmt.core.stopped = true) ∧
      (e = 0 → t.mgmt.halted = false ∧ t.mgmt.stage = 1 ∧ t.mgmt.romExit = true ∧
        t.mgmt.core.pc = BitVec.ofNat 64 (hdrEntry (flashHeader r 0)) ∧
        measOf t 0 = digOf (sha384 (bytesBE 48 0 ++ bytesBE 48 (flashDigest r 0).toNat)))) ∧
  (∀ s : State, s.mgmt.stage = 1 → s.mgmt.poll = none → s.mgmt.halted = false →
    let f := bootError s damdinAt true
    let t := bootNext s
    t.mgmt.stage = 1 ∧ t.mgmt.poll = some true ∧ t.mgmt.mbox.monitor = s.mgmt.mbox.monitor ∧
    (f ≠ 0 → t.mgmt.halted = true ∧ t.mgmt.mbox.bootst = BitVec.ofNat 64 (1 + 2 ^ 8 * f) ∧ t.mgmt.meas = s.mgmt.meas) ∧
    (f = 0 → t.mgmt.halted = false ∧ t.mgmt.mbox.bootst = 1 ∧
      measOf t 1 = digOf (sha384 (bytesBE 48 (measOf s 1).toNat ++ bytesBE 48 (flashDigest s damdinAt).toNat)))) ∧
  (∀ s : State, s.mgmt.stage = 1 → s.mgmt.poll.isSome = true →
    let b := s.mgmt.mbox
    let t := bootNext s
    t.mgmt.poll = some false ∧
    (s.mgmt.halted = true → t.mgmt.stage = 1 ∧ t.mgmt.mbox.monitor = b.monitor) ∧
    (s.mgmt.halted = false → t.mgmt.stage = 2 ∧ t.mgmt.mbox.monitor = true ∧
      t.mgmt.core.pc = BitVec.ofNat 64 (hdrEntry (flashHeader s damdinAt))) ∧
    (s.mgmt.poll = some true → b.pend = true → b.rxAt < s.time → t.mgmt.mbox.pend = false ∧
      (∀ c d, measError b.rxbuf false = some (c, d) → t.mgmt.mbox.sent = b.sent ++ [[0x13, 0x7F, c, d]]) ∧
      (measError b.rxbuf false = none → t.mgmt.mbox.sent = b.sent ++
        [measurementsOf s (b.rxbuf.getD 3 0).toNat ((bytesBE 48 t.mgmt.crypto.dig.toNat).take 32)])) ∧
    (s.mgmt.poll = some false ∨ b.pend = false ∨ s.time ≤ b.rxAt →
      t.mgmt.mbox.sent = b.sent ∧ t.mgmt.mbox.pend = b.pend ∧ t.mgmt.mbox.rxbuf = b.rxbuf)) ∧
  (∀ s : State, s.mgmt.halted = false →
    let t := bootNext s
    (s.mgmt.stage = 2 → t.mgmt.stage = 3 ∧ t.conf.incarnation = (s.conf.incarnation + 1) % 256 ∧ t.conf.pkg = s.conf.pkg ∧
      t.mem = s.mem) ∧
    (s.mgmt.stage = 3 → t.mgmt.stage = 4 ∧ t.mem.scrubbed = [] ∧ t.mem.empties = [] ∧ (∀ a, t.mem.read a = 0) ∧
      t.conf = s.conf)) ∧
  (∀ (s : State) (c : Nat), s.power = true → nextTurn s = ⟨c, .boot⟩ →
    let b := beginTurn s ⟨c, .boot⟩
    serialKept 0 b (settle (bootNext b)) = true → step s = .next (settle (bootNext b))) ∧
  (∀ s : State,
    let c := resetConf s
    c.modcap = fullModuleDram * channelsOn c / 32 ∧
    (s.mgmt.disable = [] → c = { s.conf with modcap := c.modcap, retrans := none }) ∧
    (∀ n, n < 128 → Disabled.row n ∈ s.mgmt.disable → c.rowEn.getLsbD n = false) ∧
    (∀ k, k < 16 → Disabled.channels k ∈ s.mgmt.disable → c.lpen.getLsbD (2 * k) = false ∧ c.lpen.getLsbD (2 * k + 1) = false)) ∧
  (∀ (s : State) (c : Nat),
    (c < 64 → ∃ t, exec (.droopClockStretch c) s = .next t ∧ (∀ k, k ∈ t.mgmt.stretched ↔ k = c ∨ k ∈ s.mgmt.stretched) ∧
      t.time = s.time ∧ t.cur = s.cur ∧ t.mem = s.mem) ∧
    exec .junctionStretch s = .next { s with mgmt := { s.mgmt with hot := true } } ∧
    exec .siloFlush s = .next { s with mgmt := { s.mgmt with siloNv := s.silo } } ∧
    (∃ t, exec .orderlyShutdown s = .next t ∧ t.power = false ∧ t.mgmt.siloNv = s.silo ∧ t.silo = s.silo) ∧
    (∃ t, exec .powerLoss s = .next t ∧ t.power = false ∧ t.silo = s.mgmt.siloNv ∧ t.mgmt.siloNv = s.mgmt.siloNv) ∧
    (Tab.get s.silo 2242 0 < 2 ^ 64 - 1 → ∃ t, exec .junctionShutdown s = .next t ∧ t.power = false ∧
      Tab.get t.mgmt.siloNv 2242 0 = Tab.get s.silo 2242 0 + 1) ∧
    (Tab.get s.silo 2235 0 < 2 ^ 64 - 1 → ∃ t, exec .serviceWindowRefusal s = .next t ∧
      Tab.get t.silo 2235 0 = Tab.get s.silo 2235 0 + 1 ∧
      (Unseen s (0x4000000 + 8 * 2235) → OnlySlots s t ∧ t.mem = s.mem ∧ t.ctl = s.ctl)) ∧
    (∀ i, s.power = false → nextTurn s = i → i.actor ≠ .unit .powerOnReset → step s = .fault .noPower)) ∧
  (∀ (s : State) (a : Nat), mgmtPlace a 1 = none → ∃ t, exec (.managementCoreAccessFault a) s = .next t ∧
    t.mgmt.fault = some a ∧ csrGet t.mgmt.core 0x341 = s.mgmt.core.pc ∧ csrGet t.mgmt.core 0x342 = 5 ∧
    csrGet t.mgmt.core 0x343 = BitVec.ofNat 64 a ∧ t.mgmt.core.user = false ∧
    (Unseen s (0x4000000 + 8 * 2239) → t.mem = s.mem) ∧
    (Tab.get s.silo 2239 0 < 2 ^ 64 - 1 → Tab.get t.silo 2239 0 = Tab.get s.silo 2239 0 + 1)) ∧
  (∀ (s : State) (a : Nat), placeOf s a = .dram ∨ (∃ w c o, placeOf s a = .window w c o) →
    ∃ t, exec (.uncorrectableMemoryError a) s = .next t ∧ t = { s with mem := t.mem } ∧
      (∀ q, q ∈ t.mem.poison ↔ q = 8 * (canon s a / 8) ∨ q ∈ s.mem.poison) ∧ (∀ q, t.mem.read q = s.mem.read q) ∧
      (∀ q, t.mem.full q = s.mem.full q))

/-! ### Encodings, steps and reset -/

/-- Decoding and encoding agree (R58 to R67): every well-formed instruction that has a word decodes from it, and every word that
decodes is the word of the instruction it decodes to, which is well-formed. -/
def Obligations.DecodeEncode : Prop :=
  (∀ (i : Instr) (w : BitVec 32), i.WellFormed → encode i = some w → decode w = .ok i) ∧
  (∀ (i : Instr) (w : BitVec 32), decode w = .ok i → i.WellFormed ∧ encode i = some w)

/-- Words that the manual writes out decode to the instructions it gives them (R339, R340, R341, R348, R349, R352, R357, R368, R373,
R394, R395, `slli` and `srai` of R414 in spec/23, and `trap 1` of R431 in spec/24). -/
def Obligations.DecodeWords : Prop :=
  decode 0x00D60633 = .ok (.add 12 12 13) ∧ decode 0x00850513 = .ok (.addi 10 10 8) ∧
  decode 0x027302B3 = .ok (.mul 5 6 7) ∧ decode 0x027342B3 = .ok (.div 5 6 7) ∧
  decode 0x00899993 = .ok (.slli 19 19 8) ∧ decode 0x43F2D293 = .ok (.srai 5 5 63) ∧
  decode 0x00053683 = .ok (.ld 13 10 0) ∧ decode 0xFE0598E3 = .ok (.bne 11 0 (BitVec.ofInt 12 (-8))) ∧
  decode 0x00008067 = .ok (.jalr 0 1 0) ∧ decode 0x80B5360B = .ok (.amo .d .add false 12 10 11) ∧
  decode 0x1000502B = .ok .brk ∧ decode 0x1210502B = .ok (.trap 1) ∧
  decode 0x60B5167B = .ok (.cpy false true .pkg .plain 12 10 11) ∧ decode 0x0006C67B = .ok (.nalloc 12 13)

/-- A step runs the decoded instruction (R10, R57, R99, R100): where the turn is a core's and its first slot in the order of
choice has no chunk end, token, deferred cause or limit before it, and the word at its pc decodes, outside a repetition, to
`i`, the step is `exec i` at the state in which that task executes; an instruction that is not stalled takes its issue port
for the cycle and is charged: the first of a cycle by 1 with every tenant's share, the second by 1; a port that has been used
issues nothing more in its cycle. A step of another unit is its own operation, after which the waiters are examined. A slot, and
a unit, is put off where its step would change a line of another's serial chunk (R115). The model's own choices here are those
of log entries 1, 60 and 61. -/
def Obligations.StepRuns : Prop :=
  (∀ (s u : State) (core c : Nat) (late : Bool) (t : Task) (ts : List Task) (w : BitVec 32) (i : Instr), s.power = true →
    nextTurn s = ⟨c, .issue core late⟩ → 3 ≤ s.mgmt.stage →
    let b := beginTurn s ⟨c, .issue core late⟩
    let f := dropPerformed (focus b t.key)
    let p := portsNow b core
    let engine := fieldNat (w.zeroExtend 64) 6 0 == 0x5B || fieldNat (w.zeroExtend 64) 6 0 == 0x7B
    let used := if engine then p.engine else p.scalar
    portOrder b core p = t :: ts → f.cur.chunk.due = false → f.cur.chunk.want = none → f.cur.deferred = [] →
    f.cur.chunk.instrs < 512 → f.cur.imgd = none → f.cur.resumed = false → f.cur.ctx.rep = none →
    (f.cur.trusted = true → f.conf.retrans ≠ some f.cur.ctx.pc) → fetchWord f f.cur = some w → decode w = .ok i →
    exec i f = .next u →
    (used = true → ts = [] → step s = .next b) ∧
    (used = false →
      let moves := progressed f.cur u.cur = true ∨ u.eng.arrays ≠ f.eng.arrays ∨ u.eng.icache ≠ f.eng.icache
      let keeps := ∀ x ∈ allTasks u, x.key ≠ t.key → runsSerial u x = true → ∀ l ∈ x.chunk.rlines ++ x.chunk.wlines,
        lineState f l = lineState u l
      (moves → keeps →
        let v := if p.chosen = none then charge u core t.tenant else chargeOne u core t.tenant
        let ports := { p with scalar := p.scalar || !engine, engine := p.engine || engine
                              chosen := some (p.chosen.getD t.key) }
        step s = .next (onTask { v with sched := { v.sched with ports := Tab.set v.sched.ports core ports } } t.key fun x =>
          modCur x fun y => { y with since := x.time })) ∧
      (¬moves ∨ ¬keeps → ts = [] → step s = .next b))) ∧
  (∀ (b : State) (core : Nat), (∀ e ∈ b.sched.ports, e.1 = core → e.2.time ≠ b.time) →
    portsNow b core = ⟨b.time, (candidates b core).map fun t => t.key, false, false, none⟩) ∧
  (∀ (s t : State) (c : Nat) (i : Instr), s.power = true → nextTurn s = ⟨c, .unit i⟩ → i.hasWord = false →
    i ≠ .chunkInstructionLimit → i ≠ .chunkCommit → i ≠ .icacheFill → i ≠ .illegalEncoding →
    let b := beginTurn s ⟨c, .unit i⟩
    exec i b = .next t →
    let r := settle t
    let keeps := ∀ u ∈ allTasks r, u.key ≠ 0 → runsSerial r u = true → ∀ l ∈ u.chunk.rlines ++ u.chunk.wlines,
      lineState b l = lineState r l
    (keeps → step s = .next r) ∧ (¬keeps → step s = .next b)) ∧
  (∀ (s : State) (t : Turn), (beginTurn s t).time = s.time + t.cycles ∧ (beginTurn s t).agenda = s.agenda.tail ∧
    (beginTurn s t).cur = s.cur ∧ (beginTurn s t).mem = s.mem ∧ (beginTurn s t).ctl = s.ctl)

/-- Ordinary data never end a run: every instruction and every step of the other units answers a next state in every state, and
so does the machine while it has power. The model's own property; the manual names no stop. -/
def Obligations.Progress : Prop :=
  (∀ (i : Instr) (s : State), ∃ t, exec i s = .next t) ∧ (∀ s : State, s.power = true → Runs s)

/-- Memory keeps its canonical form: addresses strictly rising, no listed byte equal to what an unlisted one reads as. -/
def Obligations.MemoryInvariant : Prop := Invariant fun s => s.mem.wf = true

/-- The state after reset has memory in its canonical form, which reads zero with every tag full, no task, every tenant
interface in CONFIG_UNLOCKED, no home-map entry valid, no request for pre-emption and an empty silo; the crypto block's STAT
and the measurements read 0, and the management core starts at address 0. What the manual gives no reset value reads the
model's own (log entries 3 to 6). -/
def Obligations.ResetState : Prop :=
  let s := State.reset
  s.mem.wf = true ∧ (∀ a, s.mem.read a = 0 ∧ s.mem.full a = true ∧ s.mem.poisoned a = false) ∧ allTasks s = [] ∧
  (∀ t, t < 64 → tiState s t = 0) ∧ (∀ n, n < 4096 → hEntry s n = none) ∧ s.pre.svc = 0 ∧ s.pre.tr = 0 ∧
  (∀ n, Tab.get s.silo n 0 = 0) ∧ s.mgmt.crypto.stat = 0 ∧ (∀ i, i < 16 → measOf s i = 0) ∧ s.mgmt.core.pc = 0 ∧
  s.mgmt.stage = 0 ∧ s.time = 0 ∧ s.power = true
end

