-- ==== Sys2Proof/Laws/Encoding.lean ====
section
/-! SUPPORT. A word and its six fields determine each other (R57). -/

namespace Sys2Proof

theorem split_join (f : Fields) : split (join f) = f := by
  rcases f with ⟨f7, b, a, f3, d, op⟩
  simp only [split, join, Fields.mk.injEq]
  refine ⟨?_, ?_, ?_, ?_, ?_, ?_⟩ <;>
    (apply BitVec.eq_of_getLsbD_eq; intro k hk
     simp only [BitVec.getLsbD_append, BitVec.getLsbD_extractLsb']
     interval_cases k <;> simp)

theorem join_split (w : BitVec 32) : join (split w) = w := by
  apply BitVec.eq_of_getLsbD_eq; intro k hk
  simp only [split, join, BitVec.getLsbD_append, BitVec.getLsbD_extractLsb']
  interval_cases k <;> simp

end Sys2Proof
end

