-- ==== Sys2Proof/Laws/Exec.lean ====
section
/-! SUPPORT. The meaning each instruction has: one lemma per arm of `exec`. -/

namespace Sys2Proof.Machine

variable (s : State)

@[simp] theorem exec_add (d a b) : exec (.add d a b) s = execAdd d a b s := rfl
@[simp] theorem exec_sub (d a b) : exec (.sub d a b) s = execSub d a b s := rfl
@[simp] theorem exec_addw (d a b) : exec (.addw d a b) s = execAddw d a b s := rfl
@[simp] theorem exec_subw (d a b) : exec (.subw d a b) s = execSubw d a b s := rfl
@[simp] theorem exec_addi (d a iv) : exec (.addi d a iv) s = execAddi d a iv s := rfl
@[simp] theorem exec_addiw (d a iv) : exec (.addiw d a iv) s = execAddiw d a iv s := rfl
@[simp] theorem exec_and (d a b) : exec (.and d a b) s = execAnd d a b s := rfl
@[simp] theorem exec_or (d a b) : exec (.or d a b) s = execOr d a b s := rfl
@[simp] theorem exec_xor (d a b) : exec (.xor d a b) s = execXor d a b s := rfl
@[simp] theorem exec_andi (d a iv) : exec (.andi d a iv) s = execAndi d a iv s := rfl
@[simp] theorem exec_ori (d a iv) : exec (.ori d a iv) s = execOri d a iv s := rfl
@[simp] theorem exec_xori (d a iv) : exec (.xori d a iv) s = execXori d a iv s := rfl
@[simp] theorem exec_slt (d a b) : exec (.slt d a b) s = execSlt d a b s := rfl
@[simp] theorem exec_sltu (d a b) : exec (.sltu d a b) s = execSltu d a b s := rfl
@[simp] theorem exec_slti (d a iv) : exec (.slti d a iv) s = execSlti d a iv s := rfl
@[simp] theorem exec_sltiu (d a iv) : exec (.sltiu d a iv) s = execSltiu d a iv s := rfl
@[simp] theorem exec_sll (d a b) : exec (.sll d a b) s = execSll d a b s := rfl
@[simp] theorem exec_srl (d a b) : exec (.srl d a b) s = execSrl d a b s := rfl
@[simp] theorem exec_sra (d a b) : exec (.sra d a b) s = execSra d a b s := rfl
@[simp] theorem exec_sllw (d a b) : exec (.sllw d a b) s = execSllw d a b s := rfl
@[simp] theorem exec_srlw (d a b) : exec (.srlw d a b) s = execSrlw d a b s := rfl
@[simp] theorem exec_sraw (d a b) : exec (.sraw d a b) s = execSraw d a b s := rfl
@[simp] theorem exec_slli (d a sv) : exec (.slli d a sv) s = execSlli d a sv s := rfl
@[simp] theorem exec_srli (d a sv) : exec (.srli d a sv) s = execSrli d a sv s := rfl
@[simp] theorem exec_srai (d a sv) : exec (.srai d a sv) s = execSrai d a sv s := rfl
@[simp] theorem exec_slliw (d a sv) : exec (.slliw d a sv) s = execSlliw d a sv s := rfl
@[simp] theorem exec_srliw (d a sv) : exec (.srliw d a sv) s = execSrliw d a sv s := rfl
@[simp] theorem exec_sraiw (d a sv) : exec (.sraiw d a sv) s = execSraiw d a sv s := rfl
@[simp] theorem exec_mul (d a b) : exec (.mul d a b) s = execMul d a b s := rfl
@[simp] theorem exec_mulh (d a b) : exec (.mulh d a b) s = execMulh d a b s := rfl
@[simp] theorem exec_mulhsu (d a b) : exec (.mulhsu d a b) s = execMulhsu d a b s := rfl
@[simp] theorem exec_mulhu (d a b) : exec (.mulhu d a b) s = execMulhu d a b s := rfl
@[simp] theorem exec_mulw (d a b) : exec (.mulw d a b) s = execMulw d a b s := rfl
@[simp] theorem exec_div (d a b) : exec (.div d a b) s = execDiv d a b s := rfl
@[simp] theorem exec_divu (d a b) : exec (.divu d a b) s = execDivu d a b s := rfl
@[simp] theorem exec_rem (d a b) : exec (.rem d a b) s = execRem d a b s := rfl
@[simp] theorem exec_remu (d a b) : exec (.remu d a b) s = execRemu d a b s := rfl
@[simp] theorem exec_divw (d a b) : exec (.divw d a b) s = execDivw d a b s := rfl
@[simp] theorem exec_divuw (d a b) : exec (.divuw d a b) s = execDivuw d a b s := rfl
@[simp] theorem exec_remw (d a b) : exec (.remw d a b) s = execRemw d a b s := rfl
@[simp] theorem exec_remuw (d a b) : exec (.remuw d a b) s = execRemuw d a b s := rfl
@[simp] theorem exec_lui (d iv) : exec (.lui d iv) s = execLui d iv s := rfl
@[simp] theorem exec_auipc (d iv) : exec (.auipc d iv) s = execAuipc d iv s := rfl
@[simp] theorem exec_jal (d iv) : exec (.jal d iv) s = execJal d iv s := rfl
@[simp] theorem exec_jalr (d a iv) : exec (.jalr d a iv) s = execJalr d a iv s := rfl
@[simp] theorem exec_beq (a b iv) : exec (.beq a b iv) s = execBeq a b iv s := rfl
@[simp] theorem exec_bne (a b iv) : exec (.bne a b iv) s = execBne a b iv s := rfl
@[simp] theorem exec_blt (a b iv) : exec (.blt a b iv) s = execBlt a b iv s := rfl
@[simp] theorem exec_bge (a b iv) : exec (.bge a b iv) s = execBge a b iv s := rfl
@[simp] theorem exec_bltu (a b iv) : exec (.bltu a b iv) s = execBltu a b iv s := rfl
@[simp] theorem exec_bgeu (a b iv) : exec (.bgeu a b iv) s = execBgeu a b iv s := rfl
@[simp] theorem exec_lb (d a iv) : exec (.lb d a iv) s = execLb d a iv s := rfl
@[simp] theorem exec_lh (d a iv) : exec (.lh d a iv) s = execLh d a iv s := rfl
@[simp] theorem exec_lw (d a iv) : exec (.lw d a iv) s = execLw d a iv s := rfl
@[simp] theorem exec_ld (d a iv) : exec (.ld d a iv) s = execLd d a iv s := rfl
@[simp] theorem exec_lbu (d a iv) : exec (.lbu d a iv) s = execLbu d a iv s := rfl
@[simp] theorem exec_lhu (d a iv) : exec (.lhu d a iv) s = execLhu d a iv s := rfl
@[simp] theorem exec_lwu (d a iv) : exec (.lwu d a iv) s = execLwu d a iv s := rfl
@[simp] theorem exec_sb (a b iv) : exec (.sb a b iv) s = execSb a b iv s := rfl
@[simp] theorem exec_sh (a b iv) : exec (.sh a b iv) s = execSh a b iv s := rfl
@[simp] theorem exec_sw (a b iv) : exec (.sw a b iv) s = execSw a b iv s := rfl
@[simp] theorem exec_sd (a b iv) : exec (.sd a b iv) s = execSd a b iv s := rfl
@[simp] theorem exec_lx (z ss ww x d a p) : exec (.lx z ss ww x d a p) s = execLx z ss ww x d a p s := rfl
@[simp] theorem exec_lxQ (ss ww x d a p) : exec (.lxQ ss ww x d a p) s = execLxQ ss ww x d a p s := rfl
@[simp] theorem exec_sx (z ss ww x v a p) : exec (.sx z ss ww x v a p) s = execSx z ss ww x v a p s := rfl
@[simp] theorem exec_amo (z o x d a b) : exec (.amo z o x d a b) s = execAmo z o x d a b s := rfl
@[simp] theorem exec_tagr (d a) : exec (.tagr d a) s = execTagr d a s := rfl
@[simp] theorem exec_tagw (a b) : exec (.tagw a b) s = execTagw a b s := rfl
@[simp] theorem exec_seal (h b l) : exec (.seal h b l) s = execSeal h b l s := rfl
@[simp] theorem exec_unseal (h) : exec (.unseal h) s = execUnseal h s := rfl
@[simp] theorem exec_fenceC : exec .fenceC s = execFenceC s := rfl
@[simp] theorem exec_fenceD : exec .fenceD s = execFenceD s := rfl
@[simp] theorem exec_fenceP : exec .fenceP s = execFenceP s := rfl
@[simp] theorem exec_fenceS : exec .fenceS s = execFenceS s := rfl
@[simp] theorem exec_cwait (n) : exec (.cwait n) s = execCwait n s := rfl
@[simp] theorem exec_dwb (b l) : exec (.dwb b l) s = execDwb b l s := rfl
@[simp] theorem exec_icinv (b l) : exec (.icinv b l) s = execIcinv b l s := rfl
@[simp] theorem exec_fbar : exec .fbar s = execFbar s := rfl
@[simp] theorem exec_bchk (a l h) : exec (.bchk a l h) s = execBchk a l h s := rfl
@[simp] theorem exec_spawn (d t e) : exec (.spawn d t e) s = execSpawn d t e s := rfl
@[simp] theorem exec_spawnOrd (d t e) : exec (.spawnOrd d t e) s = execSpawnOrd d t e s := rfl
@[simp] theorem exec_spawnRow (d t e) : exec (.spawnRow d t e) s = execSpawnRow d t e s := rfl
@[simp] theorem exec_spawnCl (d t e) : exec (.spawnCl d t e) s = execSpawnCl d t e s := rfl
@[simp] theorem exec_msg (d n g c) : exec (.msg d n g c) s = execMsg d n g c s := rfl
@[simp] theorem exec_mdone : exec .mdone s = execMdone s := rfl
@[simp] theorem exec_wset (sv c a b) : exec (.wset sv c a b) s = execWset sv c a b s := rfl
@[simp] theorem exec_wait (e y d t) : exec (.wait e y d t) s = execWait e y d t s := rfl
@[simp] theorem exec_tend : exec .tend s = execTend s := rfl
@[simp] theorem exec_yield : exec .yield s = execYield s := rfl
@[simp] theorem exec_cmt : exec .cmt s = execCmt s := rfl
@[simp] theorem exec_gsyncRow : exec .gsyncRow s = execGsyncRow s := rfl
@[simp] theorem exec_gsyncCl : exec .gsyncCl s = execGsyncCl s := rfl
@[simp] theorem exec_brk : exec .brk s = execBrk s := rfl
@[simp] theorem exec_trap (n) : exec (.trap n) s = execTrap n s := rfl
@[simp] theorem exec_getst (d n) : exec (.getst d n) s = execGetst d n s := rfl
@[simp] theorem exec_tgctl (a b) : exec (.tgctl a b) s = execTgctl a b s := rfl
@[simp] theorem exec_slp (t) : exec (.slp t) s = execSlp t s := rfl
@[simp] theorem exec_rpt (c l sv) : exec (.rpt c l sv) s = execRpt c l sv s := rfl
@[simp] theorem exec_rpart (d b) : exec (.rpart d b) s = execRpart d b s := rfl
@[simp] theorem exec_rpst (d h) : exec (.rpst d h) s = execRpst d h s := rfl
@[simp] theorem exec_vadd (t m d a b) : exec (.vadd t m d a b) s = execVadd t m d a b s := rfl
@[simp] theorem exec_vsub (t m d a b) : exec (.vsub t m d a b) s = execVsub t m d a b s := rfl
@[simp] theorem exec_vmul (t m d a b) : exec (.vmul t m d a b) s = execVmul t m d a b s := rfl
@[simp] theorem exec_vmin (t m d a b) : exec (.vmin t m d a b) s = execVmin t m d a b s := rfl
@[simp] theorem exec_vmax (t m d a b) : exec (.vmax t m d a b) s = execVmax t m d a b s := rfl
@[simp] theorem exec_vminu (t m d a b) : exec (.vminu t m d a b) s = execVminu t m d a b s := rfl
@[simp] theorem exec_vmaxu (t m d a b) : exec (.vmaxu t m d a b) s = execVmaxu t m d a b s := rfl
@[simp] theorem exec_vand (t m d a b) : exec (.vand t m d a b) s = execVand t m d a b s := rfl
@[simp] theorem exec_vor (t m d a b) : exec (.vor t m d a b) s = execVor t m d a b s := rfl
@[simp] theorem exec_vxor (t m d a b) : exec (.vxor t m d a b) s = execVxor t m d a b s := rfl
@[simp] theorem exec_vsll (t m d a b) : exec (.vsll t m d a b) s = execVsll t m d a b s := rfl
@[simp] theorem exec_vsrl (t m d a b) : exec (.vsrl t m d a b) s = execVsrl t m d a b s := rfl
@[simp] theorem exec_vsra (t m d a b) : exec (.vsra t m d a b) s = execVsra t m d a b s := rfl
@[simp] theorem exec_vfadd (y z u k d a b) : exec (.vfadd y z u k d a b) s = execVfadd y z u k d a b s := rfl
@[simp] theorem exec_vfsub (y z u k d a b) : exec (.vfsub y z u k d a b) s = execVfsub y z u k d a b s := rfl
@[simp] theorem exec_vfmul (y z u k d a b) : exec (.vfmul y z u k d a b) s = execVfmul y z u k d a b s := rfl
@[simp] theorem exec_vfma (y z u k d a b) : exec (.vfma y z u k d a b) s = execVfma y z u k d a b s := rfl
@[simp] theorem exec_vfmin (y z u k d a b) : exec (.vfmin y z u k d a b) s = execVfmin y z u k d a b s := rfl
@[simp] theorem exec_vfmax (y z u k d a b) : exec (.vfmax y z u k d a b) s = execVfmax y z u k d a b s := rfl
@[simp] theorem exec_vfdiv (y z u k d a b) : exec (.vfdiv y z u k d a b) s = execVfdiv y z u k d a b s := rfl
@[simp] theorem exec_vfsqrt (y z u k d a) : exec (.vfsqrt y z u k d a) s = execVfsqrt y z u k d a s := rfl
@[simp] theorem exec_vfcmp (c y z u k m a b) : exec (.vfcmp c y z u k m a b) s = execVfcmp c y z u k m a b s := rfl
@[simp] theorem exec_vld (d a) : exec (.vld d a) s = execVld d a s := rfl
@[simp] theorem exec_vst (v a) : exec (.vst v a) s = execVst v a s := rfl
@[simp] theorem exec_vldx (d b iv) : exec (.vldx d b iv) s = execVldx d b iv s := rfl
@[simp] theorem exec_vstx (v b iv) : exec (.vstx v b iv) s = execVstx v b iv s := rfl
@[simp] theorem exec_vperm (d sv iv) : exec (.vperm d sv iv) s = execVperm d sv iv s := rfl
@[simp] theorem exec_vbcast (d sv w) : exec (.vbcast d sv w) s = execVbcast d sv w s := rfl
@[simp] theorem exec_vmvVg (d sv n) : exec (.vmvVg d sv n) s = execVmvVg d sv n s := rfl
@[simp] theorem exec_vmvGv (d sv n) : exec (.vmvGv d sv n) s = execVmvGv d sv n s := rfl
@[simp] theorem exec_vsel (d a b) : exec (.vsel d a b) s = execVsel d a b s := rfl
@[simp] theorem exec_vcmp (c t m a b) : exec (.vcmp c t m a b) s = execVcmp c t m a b s := rfl
@[simp] theorem exec_vred (o t d a) : exec (.vred o t d a) s = execVred o t d a s := rfl
@[simp] theorem exec_vfcvt (d a c) : exec (.vfcvt d a c) s = execVfcvt d a c s := rfl
@[simp] theorem exec_vfredAddF32 (d a) : exec (.vfredAddF32 d a) s = execVfredAddF32 d a s := rfl
@[simp] theorem exec_vfredAddBf16 (d a) : exec (.vfredAddBf16 d a) s = execVfredAddBf16 d a s := rfl
@[simp] theorem exec_vfredMaxF32 (d a) : exec (.vfredMaxF32 d a) s = execVfredMaxF32 d a s := rfl
@[simp] theorem exec_vfredMinF32 (d a) : exec (.vfredMinF32 d a) s = execVfredMinF32 d a s := rfl
@[simp] theorem exec_mand (d a b) : exec (.mand d a b) s = execMand d a b s := rfl
@[simp] theorem exec_mor (d a b) : exec (.mor d a b) s = execMor d a b s := rfl
@[simp] theorem exec_mxor (d a b) : exec (.mxor d a b) s = execMxor d a b s := rfl
@[simp] theorem exec_mnot (d a) : exec (.mnot d a) s = execMnot d a s := rfl
@[simp] theorem exec_mpop (d a) : exec (.mpop d a) s = execMpop d a s := rfl
@[simp] theorem exec_mfirst (d a) : exec (.mfirst d a) s = execMfirst d a s := rfl
@[simp] theorem exec_sfckey (d a k) : exec (.sfckey d a k) s = execSfckey d a k s := rfl
@[simp] theorem exec_mldA (k b iv) : exec (.mldA k b iv) s = execMldA k b iv s := rfl
@[simp] theorem exec_mldB (k b sv) : exec (.mldB k b sv) s = execMldB k b sv s := rfl
@[simp] theorem exec_mst (t a sv) : exec (.mst t a sv) s = execMst t a sv s := rfl
@[simp] theorem exec_mzero (t) : exec (.mzero t) s = execMzero t s := rfl
@[simp] theorem exec_mma (t z u f k) : exec (.mma t z u f k) s = execMma t z u f k s := rfl
@[simp] theorem exec_cpy (q r c y n sv e) : exec (.cpy q r c y n sv e) s = execCpy q r c y n sv e s := rfl
@[simp] theorem exec_cpst (d t) : exec (.cpst d t) s = execCpst d t s := rfl
@[simp] theorem exec_laccClr (a) : exec (.laccClr a) s = execLaccClr a s := rfl
@[simp] theorem exec_laccAdd (a b) : exec (.laccAdd a b) s = execLaccAdd a b s := rfl
@[simp] theorem exec_laccAddp (d a b) : exec (.laccAddp d a b) s = execLaccAddp d a b s := rfl
@[simp] theorem exec_laccMrg (a b) : exec (.laccMrg a b) s = execLaccMrg a b s := rfl
@[simp] theorem exec_laccRdF32 (d a) : exec (.laccRdF32 d a) s = execLaccRdF32 d a s := rfl
@[simp] theorem exec_laccRdF64 (d a) : exec (.laccRdF64 d a) s = execLaccRdF64 d a s := rfl
@[simp] theorem exec_nalloc (d t) : exec (.nalloc d t) s = execNalloc d t s := rfl
@[simp] theorem exec_nfree (n) : exec (.nfree n) s = execNfree n s := rfl
@[simp] theorem exec_nlink (a b) : exec (.nlink a b) s = execNlink a b s := rfl
@[simp] theorem exec_npush (a b) : exec (.npush a b) s = execNpush a b s := rfl
@[simp] theorem exec_nrd (d p) : exec (.nrd d p) s = execNrd d p s := rfl
@[simp] theorem exec_nrset (k e) : exec (.nrset k e) s = execNrset k e s := rfl
@[simp] theorem exec_chunkInstructionLimit : exec .chunkInstructionLimit s = execChunkInstructionLimit s := rfl
@[simp] theorem exec_chunkCommit : exec .chunkCommit s = execChunkCommit s := rfl
@[simp] theorem exec_serialTokenGrant (scope) : exec (.serialTokenGrant scope) s = execSerialTokenGrant scope s := rfl
@[simp] theorem exec_bagReload (core) : exec (.bagReload core) s = execBagReload core s := rfl
@[simp] theorem exec_dispatch (core slot) : exec (.dispatch core slot) s = execDispatch core slot s := rfl
@[simp] theorem exec_bagPop (core) : exec (.bagPop core) s = execBagPop core s := rfl
@[simp] theorem exec_steal (core) : exec (.steal core) s = execSteal core s := rfl
@[simp] theorem exec_placementLoop (cluster occ) : exec (.placementLoop cluster occ) s = execPlacementLoop cluster occ s := rfl
@[simp] theorem exec_gangReserve (cluster) : exec (.gangReserve cluster) s = execGangReserve cluster s := rfl
@[simp] theorem exec_gangSlotHold (cluster) : exec (.gangSlotHold cluster) s = execGangSlotHold cluster s := rfl
@[simp] theorem exec_gsyncPass (core slot) : exec (.gsyncPass core slot) s = execGsyncPass core slot s := rfl
@[simp] theorem exec_waitLatch (core slot ws) : exec (.waitLatch core slot ws) s = execWaitLatch core slot ws s := rfl
@[simp] theorem exec_waitReturn (core slot) : exec (.waitReturn core slot) s = execWaitReturn core slot s := rfl
@[simp] theorem exec_waitTimeout (core slot) : exec (.waitTimeout core slot) s = execWaitTimeout core slot s := rfl
@[simp] theorem exec_slpWake (core slot) : exec (.slpWake core slot) s = execSlpWake core slot s := rfl
@[simp] theorem exec_copyComplete (core how) : exec (.copyComplete core how) s = execCopyComplete core how s := rfl
@[simp] theorem exec_engineWatchdog (eng tenant) : exec (.engineWatchdog eng tenant) s = execEngineWatchdog eng tenant s := rfl
@[simp] theorem exec_mmaArrayStart (row) : exec (.mmaArrayStart row) s = execMmaArrayStart row s := rfl
@[simp] theorem exec_mmaArrayComplete (row) : exec (.mmaArrayComplete row) s = execMmaArrayComplete row s := rfl
@[simp] theorem exec_cribRefill (core tenant pool) : exec (.cribRefill core tenant pool) s = execCribRefill core tenant pool s := rfl
@[simp] theorem exec_icinvComplete (core slot) : exec (.icinvComplete core slot) s = execIcinvComplete core slot s := rfl
@[simp] theorem exec_icacheFill : exec .icacheFill s = execIcacheFill s := rfl
@[simp] theorem exec_scrubClearComplete (granule) : exec (.scrubClearComplete granule) s = execScrubClearComplete granule s := rfl
@[simp] theorem exec_storeAck (core tenant cls) : exec (.storeAck core tenant cls) s = execStoreAck core tenant cls s := rfl
@[simp] theorem exec_launchCompletion (ti number) : exec (.launchCompletion ti number) s = execLaunchCompletion ti number s := rfl
@[simp] theorem exec_messageArrival (m) : exec (.messageArrival m) s = execMessageArrival m s := rfl
@[simp] theorem exec_messageResend (src dst) : exec (.messageResend src dst) s = execMessageResend src dst s := rfl
@[simp] theorem exec_repartitionComplete (seq) : exec (.repartitionComplete seq) s = execRepartitionComplete seq s := rfl
@[simp] theorem exec_gleaner (f) : exec (.gleaner f) s = execGleaner f s := rfl
@[simp] theorem exec_preemptRequest (t src) : exec (.preemptRequest t src) s = execPreemptRequest t src s := rfl
@[simp] theorem exec_preemptRelease (t src) : exec (.preemptRelease t src) s = execPreemptRelease t src s := rfl
@[simp] theorem exec_preemptHaltComplete (t src) : exec (.preemptHaltComplete t src) s = execPreemptHaltComplete t src s := rfl
@[simp] theorem exec_hmapWrite (core slot n hi v) : exec (.hmapWrite core slot n hi v) s = execHmapWrite core slot n hi v s := rfl
@[simp] theorem exec_unscrubbedMark (core slot granule) : exec (.unscrubbedMark core slot granule) s = execUnscrubbedMark core slot granule s := rfl
@[simp] theorem exec_weight (t v) : exec (.weight t v) s = execWeight t v s := rfl
@[simp] theorem exec_controlSpaceWrite (core slot off v) : exec (.controlSpaceWrite core slot off v) s = execControlSpaceWrite core slot off v s := rfl
@[simp] theorem exec_load (f) : exec (.load f) s = execLoad f s := rfl
@[simp] theorem exec_store (f) : exec (.store f) s = execStore f s := rfl
@[simp] theorem exec_atomic (f) : exec (.atomic f) s = execAtomic f s := rfl
@[simp] theorem exec_tagRead (f) : exec (.tagRead f) s = execTagRead f s := rfl
@[simp] theorem exec_tagWrite (f) : exec (.tagWrite f) s = execTagWrite f s := rfl
@[simp] theorem exec_launch (f) : exec (.launch f) s = execLaunch f s := rfl
@[simp] theorem exec_admission : exec .admission s = execAdmission s := rfl
@[simp] theorem exec_cancel (f) : exec (.cancel f) s = execCancel f s := rfl
@[simp] theorem exec_reply (f) : exec (.reply f) s = execReply f s := rfl
@[simp] theorem exec_nackWaitRetry (core reqid) : exec (.nackWaitRetry core reqid) s = execNackWaitRetry core reqid s := rfl
@[simp] theorem exec_replyTimeout (core reqid) : exec (.replyTimeout core reqid) s = execReplyTimeout core reqid s := rfl
@[simp] theorem exec_incarnationAnnouncement (f) : exec (.incarnationAnnouncement f) s = execIncarnationAnnouncement f s := rfl
@[simp] theorem exec_incarnationFence (f) : exec (.incarnationFence f) s = execIncarnationFence f s := rfl
@[simp] theorem exec_rekeyRequest (port) : exec (.rekeyRequest port) s = execRekeyRequest port s := rfl
@[simp] theorem exec_getVersion (m) : exec (.getVersion m) s = execGetVersion m s := rfl
@[simp] theorem exec_getCapabilities (m) : exec (.getCapabilities m) s = execGetCapabilities m s := rfl
@[simp] theorem exec_negotiateAlgorithms (m) : exec (.negotiateAlgorithms m) s = execNegotiateAlgorithms m s := rfl
@[simp] theorem exec_getDigests (m) : exec (.getDigests m) s = execGetDigests m s := rfl
@[simp] theorem exec_getCertificate (m) : exec (.getCertificate m) s = execGetCertificate m s := rfl
@[simp] theorem exec_challenge (m) : exec (.challenge m) s = execChallenge m s := rfl
@[simp] theorem exec_getMeasurements (m) : exec (.getMeasurements m) s = execGetMeasurements m s := rfl
@[simp] theorem exec_keyExchange (m) : exec (.keyExchange m) s = execKeyExchange m s := rfl
@[simp] theorem exec_finish (m) : exec (.finish m) s = execFinish m s := rfl
@[simp] theorem exec_keyUpdate (m port) : exec (.keyUpdate m port) s = execKeyUpdate m port s := rfl
@[simp] theorem exec_heartbeat (m) : exec (.heartbeat m) s = execHeartbeat m s := rfl
@[simp] theorem exec_endSession (m) : exec (.endSession m) s = execEndSession m s := rfl
@[simp] theorem exec_spdmUnsupportedRequest (m) : exec (.spdmUnsupportedRequest m) s = execSpdmUnsupportedRequest m s := rfl
@[simp] theorem exec_getTdispVersion (t) : exec (.getTdispVersion t) s = execGetTdispVersion t s := rfl
@[simp] theorem exec_getTdispCapabilities (t) : exec (.getTdispCapabilities t) s = execGetTdispCapabilities t s := rfl
@[simp] theorem exec_lockInterfaceRequest (t) : exec (.lockInterfaceRequest t) s = execLockInterfaceRequest t s := rfl
@[simp] theorem exec_getDeviceInterfaceReport (t) : exec (.getDeviceInterfaceReport t) s = execGetDeviceInterfaceReport t s := rfl
@[simp] theorem exec_getDeviceInterfaceState (t) : exec (.getDeviceInterfaceState t) s = execGetDeviceInterfaceState t s := rfl
@[simp] theorem exec_startInterfaceRequest (t) : exec (.startInterfaceRequest t) s = execStartInterfaceRequest t s := rfl
@[simp] theorem exec_stopInterfaceRequest (t) : exec (.stopInterfaceRequest t) s = execStopInterfaceRequest t s := rfl
@[simp] theorem exec_tdispUnsupportedRequest (t) : exec (.tdispUnsupportedRequest t) s = execTdispUnsupportedRequest t s := rfl
@[simp] theorem exec_setTiConfig (c) : exec (.setTiConfig c) s = execSetTiConfig c s := rfl
@[simp] theorem exec_compactTimeout : exec .compactTimeout s = execCompactTimeout s := rfl
@[simp] theorem exec_cryptoSha384 : exec .cryptoSha384 s = execCryptoSha384 s := rfl
@[simp] theorem exec_cryptoEcdsaVerify : exec .cryptoEcdsaVerify s = execCryptoEcdsaVerify s := rfl
@[simp] theorem exec_cryptoEcdsaSign (slot) : exec (.cryptoEcdsaSign slot) s = execCryptoEcdsaSign slot s := rfl
@[simp] theorem exec_cryptoExtend (index) : exec (.cryptoExtend index) s = execCryptoExtend index s := rfl
@[simp] theorem exec_cryptoAesGcm (slot) : exec (.cryptoAesGcm slot) s = execCryptoAesGcm slot s := rfl
@[simp] theorem exec_cryptoAesXts (slot) : exec (.cryptoAesXts slot) s = execCryptoAesXts slot s := rfl
@[simp] theorem exec_cryptoRandom : exec .cryptoRandom s = execCryptoRandom s := rfl
@[simp] theorem exec_cryptoInvalidOp (op) : exec (.cryptoInvalidOp op) s = execCryptoInvalidOp op s := rfl
@[simp] theorem exec_cryptoCommandDone : exec .cryptoCommandDone s = execCryptoCommandDone s := rfl
@[simp] theorem exec_txctl (v) : exec (.txctl v) s = execTxctl v s := rfl
@[simp] theorem exec_mailboxRequestArrival (bytes) : exec (.mailboxRequestArrival bytes) s = execMailboxRequestArrival bytes s := rfl
@[simp] theorem exec_mctpMessage (ty bytes) : exec (.mctpMessage ty bytes) s = execMctpMessage ty bytes s := rfl
@[simp] theorem exec_powerOnReset : exec .powerOnReset s = execPowerOnReset s := rfl
@[simp] theorem exec_droopClockStretch (cluster) : exec (.droopClockStretch cluster) s = execDroopClockStretch cluster s := rfl
@[simp] theorem exec_junctionStretch : exec .junctionStretch s = execJunctionStretch s := rfl
@[simp] theorem exec_junctionShutdown : exec .junctionShutdown s = execJunctionShutdown s := rfl
@[simp] theorem exec_siloFlush : exec .siloFlush s = execSiloFlush s := rfl
@[simp] theorem exec_illegalEncoding : exec .illegalEncoding s = execIllegalEncoding s := rfl
@[simp] theorem exec_serviceWindowRefusal : exec .serviceWindowRefusal s = execServiceWindowRefusal s := rfl
@[simp] theorem exec_managementCoreAccessFault (addr) : exec (.managementCoreAccessFault addr) s = execManagementCoreAccessFault addr s := rfl
@[simp] theorem exec_uncorrectableMemoryError (addr) : exec (.uncorrectableMemoryError addr) s = execUncorrectableMemoryError addr s := rfl
@[simp] theorem exec_powerLoss : exec .powerLoss s = execPowerLoss s := rfl
@[simp] theorem exec_orderlyShutdown : exec .orderlyShutdown s = execOrderlyShutdown s := rfl
@[simp] theorem exec_linkBringUp (port txDir rxDir) : exec (.linkBringUp port txDir rxDir) s = execLinkBringUp port txDir rxDir s := rfl
@[simp] theorem exec_spdmSessionLoss (t) : exec (.spdmSessionLoss t) s = execSpdmSessionLoss t s := rfl

end Sys2Proof.Machine
end

