-- ==== Sys2Proof/Laws/Memory.lean ====
section
/-! SUPPORT. Memory: a read after a write, and the canonical form that every operation of memory keeps. -/

namespace Sys2Proof.Machine

/-! ### Cells -/

/-- Every address of the list is greater than `a`. -/
theorem cellsWf_cons {c : Host.Cell} {cs : List Host.Cell} :
    Mem.cellsWf (c :: cs) = true ↔
      c.2 ≠ Mem.unlisted ∧ (∀ d ∈ cs.head?, c.1 < d.1) ∧ Mem.cellsWf cs = true := by
  cases cs with
  | nil => simp [Mem.cellsWf]
  | cons d ds => simp [Mem.cellsWf, and_assoc]

theorem cellsWf_tail {c : Host.Cell} {cs : List Host.Cell} (h : Mem.cellsWf (c :: cs) = true) :
    Mem.cellsWf cs = true := (cellsWf_cons.1 h).2.2

/-- The addresses after a cell are greater than its own. -/
theorem cellsWf_lt {c : Host.Cell} {cs : List Host.Cell} (h : Mem.cellsWf (c :: cs) = true) :
    ∀ d ∈ cs, c.1 < d.1 := by
  induction cs generalizing c with
  | nil => simp
  | cons e es ih =>
    obtain ⟨-, hlt, hw⟩ := cellsWf_cons.1 h
    have h1 : c.1 < e.1 := by simpa using hlt
    intro d hd
    rcases List.mem_cons.1 hd with rfl | hd
    · exact h1
    · exact lt_trans h1 (ih hw d hd)

/-- A canonical list and a smaller first cell make a canonical list. -/
theorem cellsWf_of {c : Host.Cell} {cs : List Host.Cell} (h0 : c.2 ≠ Mem.unlisted) (hl : ∀ d ∈ cs, c.1 < d.1)
    (hw : Mem.cellsWf cs = true) : Mem.cellsWf (c :: cs) = true :=
  cellsWf_cons.2 ⟨h0, fun d hd => hl d (List.mem_of_mem_head? hd), hw⟩

/-- The cells that `put` leaves are those there were and the one written. -/
theorem Mem.mem_put {cs : List Host.Cell} {a : Nat} {b : Byte} {d : Host.Cell} (h : d ∈ Mem.put cs a b) :
    d ∈ cs ∨ d = (a, b) := by
  induction cs with
  | nil => unfold Mem.put at h; split at h <;> simp_all
  | cons c cs ih =>
    simp only [Mem.put] at h
    split at h
    · rcases List.mem_cons.1 h with rfl | h
      · simp
      · rcases ih h with h | h <;> simp [h]
    · split at h
      · split at h <;> simp_all
        tauto
      · split at h <;> simp_all
        tauto

/-- Writing a cell keeps the canonical form. -/
theorem Mem.put_wf {cs : List Host.Cell} (h : Mem.cellsWf cs = true) (a : Nat) (b : Byte) :
    Mem.cellsWf (Mem.put cs a b) = true := by
  induction cs with
  | nil => unfold Mem.put; split <;> simp_all [Mem.cellsWf]
  | cons c cs ih =>
    have hw := cellsWf_tail h
    have hc := (cellsWf_cons.1 h).1
    have hlt := cellsWf_lt h
    simp only [Mem.put]
    split
    · refine cellsWf_of hc (fun d hd => ?_) (ih hw)
      rcases Mem.mem_put hd with hd | rfl
      · exact hlt d hd
      · assumption
    · split
      · split
        · exact hw
        · refine cellsWf_of ‹_› (fun d hd => ?_) hw
          have := hlt d hd
          simp_all
      · split
        · exact h
        · refine cellsWf_of ‹_› (fun d hd => ?_) h
          rcases List.mem_cons.1 hd with rfl | hd
          · simp only; omega
          · have := hlt d hd
            simp only; omega

/-- Dropping cells keeps the canonical form. -/
theorem cellsWf_filter {cs : List Host.Cell} (h : Mem.cellsWf cs = true) (p : Host.Cell → Bool) :
    Mem.cellsWf (cs.filter p) = true := by
  induction cs with
  | nil => simpa using h
  | cons c cs ih =>
    simp only [List.filter_cons]
    split
    · exact cellsWf_of (cellsWf_cons.1 h).1 (fun d hd => cellsWf_lt h d (List.mem_filter.1 hd).1) (ih (cellsWf_tail h))
    · exact ih (cellsWf_tail h)

/-- An address below every cell reads as an unlisted one. -/
theorem Mem.lookup_below {cs : List Host.Cell} {a : Nat} (h : ∀ d ∈ cs, a < d.1) : Mem.lookup cs a = Mem.unlisted := by
  induction cs with
  | nil => rfl
  | cons c cs ih =>
    have := h c (by simp)
    simp only [Mem.lookup]
    rw [if_neg (by omega), ih fun d hd => h d (by simp [hd])]

/-- A read after a write of the same byte gives the byte written. -/
theorem Mem.lookup_put_same {cs : List Host.Cell} (h : Mem.cellsWf cs = true) (a : Nat) (b : Byte) :
    Mem.lookup (Mem.put cs a b) a = b := by
  induction cs with
  | nil => unfold Mem.put; split <;> simp_all [Mem.lookup]
  | cons c cs ih =>
    have hlt := cellsWf_lt h
    simp only [Mem.put]
    split
    · rw [Mem.lookup, if_neg (by omega), ih (cellsWf_tail h)]
    · split
      · split
        · subst b
          exact Mem.lookup_below fun d hd => by have := hlt d hd; omega
        · simp [Mem.lookup]
      · split
        · subst b
          refine Mem.lookup_below fun d hd => ?_
          rcases List.mem_cons.1 hd with rfl | hd
          · omega
          · have := hlt d hd; omega
        · simp [Mem.lookup]

/-- A write leaves every other byte alone. -/
theorem Mem.lookup_put_other (cs : List Host.Cell) {a x : Nat} (b : Byte) (hx : x ≠ a) :
    Mem.lookup (Mem.put cs a b) x = Mem.lookup cs x := by
  induction cs with
  | nil => unfold Mem.put; split <;> simp [Mem.lookup]; intro h; exact absurd h.symm hx
  | cons c cs ih =>
    simp only [Mem.put]
    split
    · simp only [Mem.lookup, ih]
    · split
      · split
        · rw [Mem.lookup, if_neg (by omega)]
        · simp only [Mem.lookup]
          rw [if_neg (Ne.symm hx), if_neg (by omega)]
      · split
        · rfl
        · rw [Mem.lookup, if_neg (Ne.symm hx)]

/-! ### Lists of addresses -/

theorem rising_cons {a : Nat} {l : List Nat} :
    Mem.rising (a :: l) = true ↔ (∀ b ∈ l.head?, a < b) ∧ Mem.rising l = true := by
  cases l with
  | nil => simp [Mem.rising]
  | cons b l => simp [Mem.rising]

theorem rising_lt {a : Nat} {l : List Nat} (h : Mem.rising (a :: l) = true) : ∀ b ∈ l, a < b := by
  induction l generalizing a with
  | nil => simp
  | cons c l ih =>
    obtain ⟨h1, h2⟩ := rising_cons.1 h
    have h1 : a < c := by simpa using h1
    intro b hb
    rcases List.mem_cons.1 hb with rfl | hb
    · exact h1
    · exact lt_trans h1 (ih h2 b hb)

theorem rising_of {a : Nat} {l : List Nat} (hl : ∀ b ∈ l, a < b) (h : Mem.rising l = true) :
    Mem.rising (a :: l) = true := rising_cons.2 ⟨fun b hb => hl b (List.mem_of_mem_head? hb), h⟩

theorem rising_filter {l : List Nat} (h : Mem.rising l = true) (p : Nat → Bool) : Mem.rising (l.filter p) = true := by
  induction l with
  | nil => simpa using h
  | cons a l ih =>
    simp only [List.filter_cons]
    split
    · exact rising_of (fun b hb => rising_lt h b (List.mem_filter.1 hb).1) (ih (rising_cons.1 h).2)
    · exact ih (rising_cons.1 h).2

theorem mem_insertNat {a b : Nat} {l : List Nat} : b ∈ insertNat a l ↔ b = a ∨ b ∈ l := by
  induction l with
  | nil => simp [insertNat]
  | cons x xs ih =>
    simp only [insertNat]
    split
    · simp
    · split
      · subst_vars; simp
      · simp only [List.mem_cons, ih]; tauto

theorem rising_insertNat {l : List Nat} (h : Mem.rising l = true) (a : Nat) : Mem.rising (insertNat a l) = true := by
  induction l with
  | nil => rfl
  | cons x xs ih =>
    have hlt := rising_lt h
    simp only [insertNat]
    split
    · refine rising_of (fun b hb => ?_) h
      rcases List.mem_cons.1 hb with rfl | hb
      · assumption
      · have := hlt b hb; omega
    · split
      · exact h
      · refine rising_of (fun b hb => ?_) (ih (rising_cons.1 h).2)
        rcases mem_insertNat.1 hb with rfl | hb
        · omega
        · exact hlt b hb

theorem rising_removeNat {l : List Nat} (h : Mem.rising l = true) (a : Nat) : Mem.rising (removeNat a l) = true :=
  rising_filter h _

/-! ### The operations of memory keep the canonical form -/

theorem Mem.wf_iff (m : Mem) : m.wf = true ↔ Mem.cellsWf m.cells = true ∧ Mem.rising m.empties = true ∧
    Mem.rising m.poison = true ∧ Mem.rising m.scrubbed = true := by
  simp [Mem.wf, and_assoc]

theorem Mem.write_wf {m : Mem} (h : m.wf = true) (a : Nat) (b : Byte) : (m.write a b).wf = true := by
  rw [Mem.wf_iff] at h ⊢
  exact ⟨Mem.put_wf h.1 a b, h.2⟩

theorem Mem.writeBytes_wf {m : Mem} (h : m.wf = true) (a : Nat) (bs : List Byte) : (m.writeBytes a bs).wf = true := by
  induction bs generalizing m a with
  | nil => simpa [Mem.writeBytes] using h
  | cons b bs ih => exact ih (Mem.write_wf h a b) (a + 1)

theorem Mem.write64_wf {m : Mem} (h : m.wf = true) (a : Nat) (w : Word) : (m.write64 a w).wf = true :=
  Mem.writeBytes_wf h a _

theorem Mem.setTag_wf {m : Mem} (h : m.wf = true) (a : Nat) (f : Bool) : (m.setTag a f).wf = true := by
  rw [Mem.wf_iff] at h
  unfold Mem.setTag
  split <;> rw [Mem.wf_iff]
  · exact ⟨h.1, rising_removeNat h.2.1 _, h.2.2⟩
  · exact ⟨h.1, rising_insertNat h.2.1 _, h.2.2⟩

theorem Mem.setTags_wf {m : Mem} (h : m.wf = true) (a n : Nat) (f : Bool) : (m.setTags a n f).wf = true := by
  unfold Mem.setTags
  induction wordsAt a n generalizing m with
  | nil => simpa using h
  | cons w ws ih => exact ih (Mem.setTag_wf h w f)

theorem Mem.clearPoison_wf {m : Mem} (h : m.wf = true) (a n : Nat) : (m.clearPoison a n).wf = true := by
  rw [Mem.wf_iff] at h ⊢
  exact ⟨h.1, h.2.1, rising_filter h.2.2.1 _, h.2.2.2⟩

theorem laccWrite_wf {m : Mem} (h : m.wf = true) (a v : Nat) : (laccWrite m a v).wf = true :=
  Mem.setTags_wf (Mem.clearPoison_wf (Mem.writeBytes_wf h a _) a 80) a 80 true

theorem laccApply_wf {m : Mem} (h : m.wf = true) (o : LaccEff) : (laccApply m o).1.wf = true := by
  cases o <;> exact laccWrite_wf h _ _

theorem poolFree_wf {m : Mem} (h : m.wf = true) (base off : Nat) : (poolFree m base off).wf = true :=
  Mem.write64_wf (Mem.write64_wf (Mem.write64_wf (Mem.write64_wf h _ _) _ _) _ _) _ _

/-! ### A read after a write -/

theorem Mem.read_write_same {m : Mem} (h : m.wf = true) (a : Nat) (b : Byte) : (m.write a b).read a = b :=
  Mem.lookup_put_same ((Mem.wf_iff m).1 h).1 a b

theorem Mem.read_write_other (m : Mem) {a x : Nat} (b : Byte) (hx : x ≠ a) : (m.write a b).read x = m.read x :=
  Mem.lookup_put_other m.cells b hx

/-- Bytes written from `a` upward leave every byte outside them as it was. -/
theorem Mem.read_writeBytes_other (m : Mem) (a x : Nat) (bs : List Byte) (hx : x < a ∨ a + bs.length ≤ x) :
    (m.writeBytes a bs).read x = m.read x := by
  induction bs generalizing m a with
  | nil => rfl
  | cons b bs ih =>
    simp only [List.length_cons] at hx
    rw [Mem.writeBytes, ih _ _ (by omega), Mem.read_write_other _ _ (by omega)]

/-- Bytes written from `a` upward read as written. -/
theorem Mem.read_writeBytes_same {m : Mem} (h : m.wf = true) (a i : Nat) (bs : List Byte) (hi : i < bs.length) :
    (m.writeBytes a bs).read (a + i) = bs[i] := by
  induction bs generalizing m a i with
  | nil => simp at hi
  | cons b bs ih =>
    rw [Mem.writeBytes]
    cases i with
    | zero =>
      show ((m.write a b).writeBytes (a + 1) bs).read a = b
      rw [Mem.read_writeBytes_other _ _ _ _ (by omega), Mem.read_write_same h]
    | succ i =>
      have := ih (Mem.write_wf h a b) (a + 1) i (by simpa using hi)
      rw [show a + (i + 1) = a + 1 + i by omega, this]; rfl

end Sys2Proof.Machine
end

