-- ==== Sys2Proof/Laws/State.lean ====
section
/-! SUPPORT. What each update of the state leaves in each field: one lemma per field per update, true by `rfl`. -/

namespace Sys2Proof.Machine

/-! ### `modCur` -/

@[simp] theorem modCur_conf (s : State) (f : Task → Task) : (modCur s f).conf = s.conf := rfl
@[simp] theorem modCur_time (s : State) (f : Task → Task) : (modCur s f).time = s.time := rfl
@[simp] theorem modCur_power (s : State) (f : Task → Task) : (modCur s f).power = s.power := rfl
@[simp] theorem modCur_mem (s : State) (f : Task → Task) : (modCur s f).mem = s.mem := rfl
@[simp] theorem modCur_ctl (s : State) (f : Task → Task) : (modCur s f).ctl = s.ctl := rfl
@[simp] theorem modCur_pre (s : State) (f : Task → Task) : (modCur s f).pre = s.pre := rfl
@[simp] theorem modCur_silo (s : State) (f : Task → Task) : (modCur s f).silo = s.silo := rfl
@[simp] theorem modCur_mgmt (s : State) (f : Task → Task) : (modCur s f).mgmt = s.mgmt := rfl
@[simp] theorem modCur_fab (s : State) (f : Task → Task) : (modCur s f).fab = s.fab := rfl
@[simp] theorem modCur_sched (s : State) (f : Task → Task) : (modCur s f).sched = s.sched := rfl
@[simp] theorem modCur_eng (s : State) (f : Task → Task) : (modCur s f).eng = s.eng := rfl
@[simp] theorem modCur_moves (s : State) (f : Task → Task) : (modCur s f).moves = s.moves := rfl
@[simp] theorem modCur_tears (s : State) (f : Task → Task) : (modCur s f).tears = s.tears := rfl
@[simp] theorem modCur_cur (s : State) (f : Task → Task) : (modCur s f).cur = f s.cur := rfl
@[simp] theorem modCur_tasks (s : State) (f : Task → Task) : (modCur s f).tasks = s.tasks := rfl
@[simp] theorem modCur_agenda (s : State) (f : Task → Task) : (modCur s f).agenda = s.agenda := rfl
@[simp] theorem modCur_late (s : State) (f : Task → Task) : (modCur s f).late = s.late := rfl
@[simp] theorem modCur_fresh (s : State) (f : Task → Task) : (modCur s f).fresh = s.fresh := rfl
@[simp] theorem modCur_nextKey (s : State) (f : Task → Task) : (modCur s f).nextKey = s.nextKey := rfl

/-! ### `modCtx` -/

@[simp] theorem modCtx_conf (s : State) (f : Ctx → Ctx) : (modCtx s f).conf = s.conf := rfl
@[simp] theorem modCtx_time (s : State) (f : Ctx → Ctx) : (modCtx s f).time = s.time := rfl
@[simp] theorem modCtx_power (s : State) (f : Ctx → Ctx) : (modCtx s f).power = s.power := rfl
@[simp] theorem modCtx_mem (s : State) (f : Ctx → Ctx) : (modCtx s f).mem = s.mem := rfl
@[simp] theorem modCtx_ctl (s : State) (f : Ctx → Ctx) : (modCtx s f).ctl = s.ctl := rfl
@[simp] theorem modCtx_pre (s : State) (f : Ctx → Ctx) : (modCtx s f).pre = s.pre := rfl
@[simp] theorem modCtx_silo (s : State) (f : Ctx → Ctx) : (modCtx s f).silo = s.silo := rfl
@[simp] theorem modCtx_mgmt (s : State) (f : Ctx → Ctx) : (modCtx s f).mgmt = s.mgmt := rfl
@[simp] theorem modCtx_fab (s : State) (f : Ctx → Ctx) : (modCtx s f).fab = s.fab := rfl
@[simp] theorem modCtx_sched (s : State) (f : Ctx → Ctx) : (modCtx s f).sched = s.sched := rfl
@[simp] theorem modCtx_eng (s : State) (f : Ctx → Ctx) : (modCtx s f).eng = s.eng := rfl
@[simp] theorem modCtx_moves (s : State) (f : Ctx → Ctx) : (modCtx s f).moves = s.moves := rfl
@[simp] theorem modCtx_tears (s : State) (f : Ctx → Ctx) : (modCtx s f).tears = s.tears := rfl
@[simp] theorem modCtx_cur (s : State) (f : Ctx → Ctx) : (modCtx s f).cur = { s.cur with ctx := f s.cur.ctx } := rfl
@[simp] theorem modCtx_tasks (s : State) (f : Ctx → Ctx) : (modCtx s f).tasks = s.tasks := rfl
@[simp] theorem modCtx_agenda (s : State) (f : Ctx → Ctx) : (modCtx s f).agenda = s.agenda := rfl
@[simp] theorem modCtx_late (s : State) (f : Ctx → Ctx) : (modCtx s f).late = s.late := rfl
@[simp] theorem modCtx_fresh (s : State) (f : Ctx → Ctx) : (modCtx s f).fresh = s.fresh := rfl
@[simp] theorem modCtx_nextKey (s : State) (f : Ctx → Ctx) : (modCtx s f).nextKey = s.nextKey := rfl

/-! ### `modChunk` -/

@[simp] theorem modChunk_conf (s : State) (f : Chunk → Chunk) : (modChunk s f).conf = s.conf := rfl
@[simp] theorem modChunk_time (s : State) (f : Chunk → Chunk) : (modChunk s f).time = s.time := rfl
@[simp] theorem modChunk_power (s : State) (f : Chunk → Chunk) : (modChunk s f).power = s.power := rfl
@[simp] theorem modChunk_mem (s : State) (f : Chunk → Chunk) : (modChunk s f).mem = s.mem := rfl
@[simp] theorem modChunk_ctl (s : State) (f : Chunk → Chunk) : (modChunk s f).ctl = s.ctl := rfl
@[simp] theorem modChunk_pre (s : State) (f : Chunk → Chunk) : (modChunk s f).pre = s.pre := rfl
@[simp] theorem modChunk_silo (s : State) (f : Chunk → Chunk) : (modChunk s f).silo = s.silo := rfl
@[simp] theorem modChunk_mgmt (s : State) (f : Chunk → Chunk) : (modChunk s f).mgmt = s.mgmt := rfl
@[simp] theorem modChunk_fab (s : State) (f : Chunk → Chunk) : (modChunk s f).fab = s.fab := rfl
@[simp] theorem modChunk_sched (s : State) (f : Chunk → Chunk) : (modChunk s f).sched = s.sched := rfl
@[simp] theorem modChunk_eng (s : State) (f : Chunk → Chunk) : (modChunk s f).eng = s.eng := rfl
@[simp] theorem modChunk_moves (s : State) (f : Chunk → Chunk) : (modChunk s f).moves = s.moves := rfl
@[simp] theorem modChunk_tears (s : State) (f : Chunk → Chunk) : (modChunk s f).tears = s.tears := rfl
@[simp] theorem modChunk_cur (s : State) (f : Chunk → Chunk) : (modChunk s f).cur = { s.cur with chunk := f s.cur.chunk } := rfl
@[simp] theorem modChunk_tasks (s : State) (f : Chunk → Chunk) : (modChunk s f).tasks = s.tasks := rfl
@[simp] theorem modChunk_agenda (s : State) (f : Chunk → Chunk) : (modChunk s f).agenda = s.agenda := rfl
@[simp] theorem modChunk_late (s : State) (f : Chunk → Chunk) : (modChunk s f).late = s.late := rfl
@[simp] theorem modChunk_fresh (s : State) (f : Chunk → Chunk) : (modChunk s f).fresh = s.fresh := rfl
@[simp] theorem modChunk_nextKey (s : State) (f : Chunk → Chunk) : (modChunk s f).nextKey = s.nextKey := rfl

/-! ### `bumpKey` -/

@[simp] theorem bumpKey_conf (s : State) : (bumpKey s).conf = s.conf := rfl
@[simp] theorem bumpKey_time (s : State) : (bumpKey s).time = s.time := rfl
@[simp] theorem bumpKey_power (s : State) : (bumpKey s).power = s.power := rfl
@[simp] theorem bumpKey_mem (s : State) : (bumpKey s).mem = s.mem := rfl
@[simp] theorem bumpKey_ctl (s : State) : (bumpKey s).ctl = s.ctl := rfl
@[simp] theorem bumpKey_pre (s : State) : (bumpKey s).pre = s.pre := rfl
@[simp] theorem bumpKey_silo (s : State) : (bumpKey s).silo = s.silo := rfl
@[simp] theorem bumpKey_mgmt (s : State) : (bumpKey s).mgmt = s.mgmt := rfl
@[simp] theorem bumpKey_fab (s : State) : (bumpKey s).fab = s.fab := rfl
@[simp] theorem bumpKey_sched (s : State) : (bumpKey s).sched = s.sched := rfl
@[simp] theorem bumpKey_eng (s : State) : (bumpKey s).eng = s.eng := rfl
@[simp] theorem bumpKey_moves (s : State) : (bumpKey s).moves = s.moves := rfl
@[simp] theorem bumpKey_tears (s : State) : (bumpKey s).tears = s.tears := rfl
@[simp] theorem bumpKey_cur (s : State) : (bumpKey s).cur = s.cur := rfl
@[simp] theorem bumpKey_tasks (s : State) : (bumpKey s).tasks = s.tasks := rfl
@[simp] theorem bumpKey_agenda (s : State) : (bumpKey s).agenda = s.agenda := rfl
@[simp] theorem bumpKey_late (s : State) : (bumpKey s).late = s.late := rfl
@[simp] theorem bumpKey_fresh (s : State) : (bumpKey s).fresh = s.fresh := rfl
@[simp] theorem bumpKey_nextKey (s : State) : (bumpKey s).nextKey = s.nextKey + 1 := rfl

/-! ### `retire` -/

@[simp] theorem retire_conf (s : State) (t : Task) : (retire s t).conf = s.conf := rfl
@[simp] theorem retire_time (s : State) (t : Task) : (retire s t).time = s.time := rfl
@[simp] theorem retire_power (s : State) (t : Task) : (retire s t).power = s.power := rfl
@[simp] theorem retire_mem (s : State) (t : Task) : (retire s t).mem = s.mem := rfl
@[simp] theorem retire_ctl (s : State) (t : Task) : (retire s t).ctl = s.ctl := rfl
@[simp] theorem retire_pre (s : State) (t : Task) : (retire s t).pre = s.pre := rfl
@[simp] theorem retire_silo (s : State) (t : Task) : (retire s t).silo = s.silo := rfl
@[simp] theorem retire_mgmt (s : State) (t : Task) : (retire s t).mgmt = s.mgmt := rfl
@[simp] theorem retire_fab (s : State) (t : Task) : (retire s t).fab = s.fab := rfl
@[simp] theorem retire_sched (s : State) (t : Task) : (retire s t).sched = s.sched := rfl
@[simp] theorem retire_eng (s : State) (t : Task) : (retire s t).eng = s.eng := rfl
@[simp] theorem retire_moves (s : State) (t : Task) : (retire s t).moves = s.moves := rfl
@[simp] theorem retire_tears (s : State) (t : Task) : (retire s t).tears = s.tears := rfl
@[simp] theorem retire_cur (s : State) (t : Task) : (retire s t).cur = t.retire := rfl
@[simp] theorem retire_tasks (s : State) (t : Task) : (retire s t).tasks = s.tasks := rfl
@[simp] theorem retire_agenda (s : State) (t : Task) : (retire s t).agenda = s.agenda := rfl
@[simp] theorem retire_late (s : State) (t : Task) : (retire s t).late = s.late := rfl
@[simp] theorem retire_fresh (s : State) (t : Task) : (retire s t).fresh = s.fresh := rfl
@[simp] theorem retire_nextKey (s : State) (t : Task) : (retire s t).nextKey = s.nextKey := rfl

/-! ### `retireAlone` -/

@[simp] theorem retireAlone_conf (s : State) (t : Task) : (retireAlone s t).conf = s.conf := rfl
@[simp] theorem retireAlone_time (s : State) (t : Task) : (retireAlone s t).time = s.time := rfl
@[simp] theorem retireAlone_power (s : State) (t : Task) : (retireAlone s t).power = s.power := rfl
@[simp] theorem retireAlone_mem (s : State) (t : Task) : (retireAlone s t).mem = s.mem := rfl
@[simp] theorem retireAlone_ctl (s : State) (t : Task) : (retireAlone s t).ctl = s.ctl := rfl
@[simp] theorem retireAlone_pre (s : State) (t : Task) : (retireAlone s t).pre = s.pre := rfl
@[simp] theorem retireAlone_silo (s : State) (t : Task) : (retireAlone s t).silo = s.silo := rfl
@[simp] theorem retireAlone_mgmt (s : State) (t : Task) : (retireAlone s t).mgmt = s.mgmt := rfl
@[simp] theorem retireAlone_fab (s : State) (t : Task) : (retireAlone s t).fab = s.fab := rfl
@[simp] theorem retireAlone_sched (s : State) (t : Task) : (retireAlone s t).sched = s.sched := rfl
@[simp] theorem retireAlone_eng (s : State) (t : Task) : (retireAlone s t).eng = s.eng := rfl
@[simp] theorem retireAlone_moves (s : State) (t : Task) : (retireAlone s t).moves = s.moves := rfl
@[simp] theorem retireAlone_tears (s : State) (t : Task) : (retireAlone s t).tears = s.tears := rfl
@[simp] theorem retireAlone_cur (s : State) (t : Task) : (retireAlone s t).cur = t.retireAlone s.time := rfl
@[simp] theorem retireAlone_tasks (s : State) (t : Task) : (retireAlone s t).tasks = s.tasks := rfl
@[simp] theorem retireAlone_agenda (s : State) (t : Task) : (retireAlone s t).agenda = s.agenda := rfl
@[simp] theorem retireAlone_late (s : State) (t : Task) : (retireAlone s t).late = s.late := rfl
@[simp] theorem retireAlone_fresh (s : State) (t : Task) : (retireAlone s t).fresh = s.fresh := rfl
@[simp] theorem retireAlone_nextKey (s : State) (t : Task) : (retireAlone s t).nextKey = s.nextKey := rfl

/-! ### `ctlSet` -/

@[simp] theorem ctlSet_conf (s : State) (o : Nat) (w : Word) : (ctlSet s o w).conf = s.conf := rfl
@[simp] theorem ctlSet_time (s : State) (o : Nat) (w : Word) : (ctlSet s o w).time = s.time := rfl
@[simp] theorem ctlSet_power (s : State) (o : Nat) (w : Word) : (ctlSet s o w).power = s.power := rfl
@[simp] theorem ctlSet_mem (s : State) (o : Nat) (w : Word) : (ctlSet s o w).mem = s.mem := rfl
@[simp] theorem ctlSet_ctl (s : State) (o : Nat) (w : Word) : (ctlSet s o w).ctl = Tab.set s.ctl (8 * (o / 8)) w := rfl
@[simp] theorem ctlSet_pre (s : State) (o : Nat) (w : Word) : (ctlSet s o w).pre = s.pre := rfl
@[simp] theorem ctlSet_silo (s : State) (o : Nat) (w : Word) : (ctlSet s o w).silo = s.silo := rfl
@[simp] theorem ctlSet_mgmt (s : State) (o : Nat) (w : Word) : (ctlSet s o w).mgmt = s.mgmt := rfl
@[simp] theorem ctlSet_fab (s : State) (o : Nat) (w : Word) : (ctlSet s o w).fab = s.fab := rfl
@[simp] theorem ctlSet_sched (s : State) (o : Nat) (w : Word) : (ctlSet s o w).sched = s.sched := rfl
@[simp] theorem ctlSet_eng (s : State) (o : Nat) (w : Word) : (ctlSet s o w).eng = s.eng := rfl
@[simp] theorem ctlSet_moves (s : State) (o : Nat) (w : Word) : (ctlSet s o w).moves = s.moves := rfl
@[simp] theorem ctlSet_tears (s : State) (o : Nat) (w : Word) : (ctlSet s o w).tears = s.tears := rfl
@[simp] theorem ctlSet_cur (s : State) (o : Nat) (w : Word) : (ctlSet s o w).cur = s.cur := rfl
@[simp] theorem ctlSet_tasks (s : State) (o : Nat) (w : Word) : (ctlSet s o w).tasks = s.tasks := rfl
@[simp] theorem ctlSet_agenda (s : State) (o : Nat) (w : Word) : (ctlSet s o w).agenda = s.agenda := rfl
@[simp] theorem ctlSet_late (s : State) (o : Nat) (w : Word) : (ctlSet s o w).late = s.late := rfl
@[simp] theorem ctlSet_fresh (s : State) (o : Nat) (w : Word) : (ctlSet s o w).fresh = s.fresh := rfl
@[simp] theorem ctlSet_nextKey (s : State) (o : Nat) (w : Word) : (ctlSet s o w).nextKey = s.nextKey := rfl

/-! ### `siloBump` -/

@[simp] theorem siloBump_conf (s : State) (i : Nat) : (siloBump s i).conf = s.conf := rfl
@[simp] theorem siloBump_time (s : State) (i : Nat) : (siloBump s i).time = s.time := rfl
@[simp] theorem siloBump_power (s : State) (i : Nat) : (siloBump s i).power = s.power := rfl
@[simp] theorem siloBump_mem (s : State) (i : Nat) : (siloBump s i).mem = s.mem := rfl
@[simp] theorem siloBump_ctl (s : State) (i : Nat) : (siloBump s i).ctl = s.ctl := rfl
@[simp] theorem siloBump_pre (s : State) (i : Nat) : (siloBump s i).pre = s.pre := rfl
@[simp] theorem siloBump_silo (s : State) (i : Nat) : (siloBump s i).silo = Tab.set s.silo i (min (Tab.get s.silo i 0 + 1) (2 ^ 64 - 1)) := rfl
@[simp] theorem siloBump_mgmt (s : State) (i : Nat) : (siloBump s i).mgmt = s.mgmt := rfl
@[simp] theorem siloBump_fab (s : State) (i : Nat) : (siloBump s i).fab = s.fab := rfl
@[simp] theorem siloBump_sched (s : State) (i : Nat) : (siloBump s i).sched = s.sched := rfl
@[simp] theorem siloBump_eng (s : State) (i : Nat) : (siloBump s i).eng = s.eng := rfl
@[simp] theorem siloBump_moves (s : State) (i : Nat) : (siloBump s i).moves = s.moves := rfl
@[simp] theorem siloBump_tears (s : State) (i : Nat) : (siloBump s i).tears = s.tears := rfl
@[simp] theorem siloBump_cur (s : State) (i : Nat) : (siloBump s i).cur = s.cur := rfl
@[simp] theorem siloBump_tasks (s : State) (i : Nat) : (siloBump s i).tasks = s.tasks := rfl
@[simp] theorem siloBump_agenda (s : State) (i : Nat) : (siloBump s i).agenda = s.agenda := rfl
@[simp] theorem siloBump_late (s : State) (i : Nat) : (siloBump s i).late = s.late := rfl
@[simp] theorem siloBump_fresh (s : State) (i : Nat) : (siloBump s i).fresh = s.fresh := rfl
@[simp] theorem siloBump_nextKey (s : State) (i : Nat) : (siloBump s i).nextKey = s.nextKey := rfl

/-! ### `setCounters` -/

@[simp] theorem setCounters_conf (s : State) (k t : Nat) (c : Counters) : (setCounters s k t c).conf = s.conf := rfl
@[simp] theorem setCounters_time (s : State) (k t : Nat) (c : Counters) : (setCounters s k t c).time = s.time := rfl
@[simp] theorem setCounters_power (s : State) (k t : Nat) (c : Counters) : (setCounters s k t c).power = s.power := rfl
@[simp] theorem setCounters_mem (s : State) (k t : Nat) (c : Counters) : (setCounters s k t c).mem = s.mem := rfl
@[simp] theorem setCounters_ctl (s : State) (k t : Nat) (c : Counters) : (setCounters s k t c).ctl = s.ctl := rfl
@[simp] theorem setCounters_pre (s : State) (k t : Nat) (c : Counters) : (setCounters s k t c).pre = s.pre := rfl
@[simp] theorem setCounters_silo (s : State) (k t : Nat) (c : Counters) : (setCounters s k t c).silo = s.silo := rfl
@[simp] theorem setCounters_mgmt (s : State) (k t : Nat) (c : Counters) : (setCounters s k t c).mgmt = s.mgmt := rfl
@[simp] theorem setCounters_fab (s : State) (k t : Nat) (c : Counters) : (setCounters s k t c).fab = s.fab := rfl
@[simp] theorem setCounters_sched (s : State) (k t : Nat) (c : Counters) : (setCounters s k t c).sched = s.sched := rfl
@[simp] theorem setCounters_eng (s : State) (k t : Nat) (c : Counters) : (setCounters s k t c).eng = { s.eng with counters := Tab.set s.eng.counters (coreTenant k t) c } := rfl
@[simp] theorem setCounters_moves (s : State) (k t : Nat) (c : Counters) : (setCounters s k t c).moves = s.moves := rfl
@[simp] theorem setCounters_tears (s : State) (k t : Nat) (c : Counters) : (setCounters s k t c).tears = s.tears := rfl
@[simp] theorem setCounters_cur (s : State) (k t : Nat) (c : Counters) : (setCounters s k t c).cur = s.cur := rfl
@[simp] theorem setCounters_tasks (s : State) (k t : Nat) (c : Counters) : (setCounters s k t c).tasks = s.tasks := rfl
@[simp] theorem setCounters_agenda (s : State) (k t : Nat) (c : Counters) : (setCounters s k t c).agenda = s.agenda := rfl
@[simp] theorem setCounters_late (s : State) (k t : Nat) (c : Counters) : (setCounters s k t c).late = s.late := rfl
@[simp] theorem setCounters_fresh (s : State) (k t : Nat) (c : Counters) : (setCounters s k t c).fresh = s.fresh := rfl
@[simp] theorem setCounters_nextKey (s : State) (k t : Nat) (c : Counters) : (setCounters s k t c).nextKey = s.nextKey := rfl

/-! ### `setEngine` -/

@[simp] theorem setEngine_conf (s : State) (k : Nat) (e : Engine) : (setEngine s k e).conf = s.conf := rfl
@[simp] theorem setEngine_time (s : State) (k : Nat) (e : Engine) : (setEngine s k e).time = s.time := rfl
@[simp] theorem setEngine_power (s : State) (k : Nat) (e : Engine) : (setEngine s k e).power = s.power := rfl
@[simp] theorem setEngine_mem (s : State) (k : Nat) (e : Engine) : (setEngine s k e).mem = s.mem := rfl
@[simp] theorem setEngine_ctl (s : State) (k : Nat) (e : Engine) : (setEngine s k e).ctl = s.ctl := rfl
@[simp] theorem setEngine_pre (s : State) (k : Nat) (e : Engine) : (setEngine s k e).pre = s.pre := rfl
@[simp] theorem setEngine_silo (s : State) (k : Nat) (e : Engine) : (setEngine s k e).silo = s.silo := rfl
@[simp] theorem setEngine_mgmt (s : State) (k : Nat) (e : Engine) : (setEngine s k e).mgmt = s.mgmt := rfl
@[simp] theorem setEngine_fab (s : State) (k : Nat) (e : Engine) : (setEngine s k e).fab = s.fab := rfl
@[simp] theorem setEngine_sched (s : State) (k : Nat) (e : Engine) : (setEngine s k e).sched = s.sched := rfl
@[simp] theorem setEngine_eng (s : State) (k : Nat) (e : Engine) : (setEngine s k e).eng = { s.eng with engines := Tab.set s.eng.engines k e } := rfl
@[simp] theorem setEngine_moves (s : State) (k : Nat) (e : Engine) : (setEngine s k e).moves = s.moves := rfl
@[simp] theorem setEngine_tears (s : State) (k : Nat) (e : Engine) : (setEngine s k e).tears = s.tears := rfl
@[simp] theorem setEngine_cur (s : State) (k : Nat) (e : Engine) : (setEngine s k e).cur = s.cur := rfl
@[simp] theorem setEngine_tasks (s : State) (k : Nat) (e : Engine) : (setEngine s k e).tasks = s.tasks := rfl
@[simp] theorem setEngine_agenda (s : State) (k : Nat) (e : Engine) : (setEngine s k e).agenda = s.agenda := rfl
@[simp] theorem setEngine_late (s : State) (k : Nat) (e : Engine) : (setEngine s k e).late = s.late := rfl
@[simp] theorem setEngine_fresh (s : State) (k : Nat) (e : Engine) : (setEngine s k e).fresh = s.fresh := rfl
@[simp] theorem setEngine_nextKey (s : State) (k : Nat) (e : Engine) : (setEngine s k e).nextKey = s.nextKey := rfl

/-! ### `setBag` -/

@[simp] theorem setBag_conf (s : State) (k : Nat) (b : List BagEntry) : (setBag s k b).conf = s.conf := rfl
@[simp] theorem setBag_time (s : State) (k : Nat) (b : List BagEntry) : (setBag s k b).time = s.time := rfl
@[simp] theorem setBag_power (s : State) (k : Nat) (b : List BagEntry) : (setBag s k b).power = s.power := rfl
@[simp] theorem setBag_mem (s : State) (k : Nat) (b : List BagEntry) : (setBag s k b).mem = s.mem := rfl
@[simp] theorem setBag_ctl (s : State) (k : Nat) (b : List BagEntry) : (setBag s k b).ctl = s.ctl := rfl
@[simp] theorem setBag_pre (s : State) (k : Nat) (b : List BagEntry) : (setBag s k b).pre = s.pre := rfl
@[simp] theorem setBag_silo (s : State) (k : Nat) (b : List BagEntry) : (setBag s k b).silo = s.silo := rfl
@[simp] theorem setBag_mgmt (s : State) (k : Nat) (b : List BagEntry) : (setBag s k b).mgmt = s.mgmt := rfl
@[simp] theorem setBag_fab (s : State) (k : Nat) (b : List BagEntry) : (setBag s k b).fab = s.fab := rfl
@[simp] theorem setBag_sched (s : State) (k : Nat) (b : List BagEntry) : (setBag s k b).sched = { s.sched with bags := Tab.set s.sched.bags k b } := rfl
@[simp] theorem setBag_eng (s : State) (k : Nat) (b : List BagEntry) : (setBag s k b).eng = s.eng := rfl
@[simp] theorem setBag_moves (s : State) (k : Nat) (b : List BagEntry) : (setBag s k b).moves = s.moves := rfl
@[simp] theorem setBag_tears (s : State) (k : Nat) (b : List BagEntry) : (setBag s k b).tears = s.tears := rfl
@[simp] theorem setBag_cur (s : State) (k : Nat) (b : List BagEntry) : (setBag s k b).cur = s.cur := rfl
@[simp] theorem setBag_tasks (s : State) (k : Nat) (b : List BagEntry) : (setBag s k b).tasks = s.tasks := rfl
@[simp] theorem setBag_agenda (s : State) (k : Nat) (b : List BagEntry) : (setBag s k b).agenda = s.agenda := rfl
@[simp] theorem setBag_late (s : State) (k : Nat) (b : List BagEntry) : (setBag s k b).late = s.late := rfl
@[simp] theorem setBag_fresh (s : State) (k : Nat) (b : List BagEntry) : (setBag s k b).fresh = s.fresh := rfl
@[simp] theorem setBag_nextKey (s : State) (k : Nat) (b : List BagEntry) : (setBag s k b).nextKey = s.nextKey := rfl

/-! ### `setCribs` -/

@[simp] theorem setCribs_conf (s : State) (k : Nat) (c : List CribList) : (setCribs s k c).conf = s.conf := rfl
@[simp] theorem setCribs_time (s : State) (k : Nat) (c : List CribList) : (setCribs s k c).time = s.time := rfl
@[simp] theorem setCribs_power (s : State) (k : Nat) (c : List CribList) : (setCribs s k c).power = s.power := rfl
@[simp] theorem setCribs_mem (s : State) (k : Nat) (c : List CribList) : (setCribs s k c).mem = s.mem := rfl
@[simp] theorem setCribs_ctl (s : State) (k : Nat) (c : List CribList) : (setCribs s k c).ctl = s.ctl := rfl
@[simp] theorem setCribs_pre (s : State) (k : Nat) (c : List CribList) : (setCribs s k c).pre = s.pre := rfl
@[simp] theorem setCribs_silo (s : State) (k : Nat) (c : List CribList) : (setCribs s k c).silo = s.silo := rfl
@[simp] theorem setCribs_mgmt (s : State) (k : Nat) (c : List CribList) : (setCribs s k c).mgmt = s.mgmt := rfl
@[simp] theorem setCribs_fab (s : State) (k : Nat) (c : List CribList) : (setCribs s k c).fab = s.fab := rfl
@[simp] theorem setCribs_sched (s : State) (k : Nat) (c : List CribList) : (setCribs s k c).sched = { s.sched with cribs := Tab.set s.sched.cribs k c } := rfl
@[simp] theorem setCribs_eng (s : State) (k : Nat) (c : List CribList) : (setCribs s k c).eng = s.eng := rfl
@[simp] theorem setCribs_moves (s : State) (k : Nat) (c : List CribList) : (setCribs s k c).moves = s.moves := rfl
@[simp] theorem setCribs_tears (s : State) (k : Nat) (c : List CribList) : (setCribs s k c).tears = s.tears := rfl
@[simp] theorem setCribs_cur (s : State) (k : Nat) (c : List CribList) : (setCribs s k c).cur = s.cur := rfl
@[simp] theorem setCribs_tasks (s : State) (k : Nat) (c : List CribList) : (setCribs s k c).tasks = s.tasks := rfl
@[simp] theorem setCribs_agenda (s : State) (k : Nat) (c : List CribList) : (setCribs s k c).agenda = s.agenda := rfl
@[simp] theorem setCribs_late (s : State) (k : Nat) (c : List CribList) : (setCribs s k c).late = s.late := rfl
@[simp] theorem setCribs_fresh (s : State) (k : Nat) (c : List CribList) : (setCribs s k c).fresh = s.fresh := rfl
@[simp] theorem setCribs_nextKey (s : State) (k : Nat) (c : List CribList) : (setCribs s k c).nextKey = s.nextKey := rfl

/-! ### Registers -/

@[simp] theorem setG_pc (c : Ctx) (r : Reg) (v : Word) : (setG c r v).pc = c.pc := by
  unfold setG; split_ifs <;> rfl
@[simp] theorem setG_gFull (c : Ctx) (r : Reg) (v : Word) : (setG c r v).gFull = c.gFull := by
  unfold setG; split_ifs <;> rfl
@[simp] theorem setG_v (c : Ctx) (r : Reg) (v : Word) : (setG c r v).v = c.v := by
  unfold setG; split_ifs <;> rfl
@[simp] theorem setG_vFull (c : Ctx) (r : Reg) (v : Word) : (setG c r v).vFull = c.vFull := by
  unfold setG; split_ifs <;> rfl
@[simp] theorem setG_m (c : Ctx) (r : Reg) (v : Word) : (setG c r v).m = c.m := by
  unfold setG; split_ifs <;> rfl
@[simp] theorem setG_ac (c : Ctx) (r : Reg) (v : Word) : (setG c r v).ac = c.ac := by
  unfold setG; split_ifs <;> rfl
@[simp] theorem setG_rep (c : Ctx) (r : Reg) (v : Word) : (setG c r v).rep = c.rep := by
  unfold setG; split_ifs <;> rfl
@[simp] theorem setG_mstRow (c : Ctx) (r : Reg) (v : Word) : (setG c r v).mstRow = c.mstRow := by
  unfold setG; split_ifs <;> rfl
@[simp] theorem setG_flags (c : Ctx) (r : Reg) (v : Word) : (setG c r v).flags = c.flags := by
  unfold setG; split_ifs <;> rfl
@[simp] theorem setG_trapCause (c : Ctx) (r : Reg) (v : Word) : (setG c r v).trapCause = c.trapCause := by
  unfold setG; split_ifs <;> rfl
@[simp] theorem setG_trapPc (c : Ctx) (r : Reg) (v : Word) : (setG c r v).trapPc = c.trapPc := by
  unfold setG; split_ifs <;> rfl
@[simp] theorem setG_trapIdx (c : Ctx) (r : Reg) (v : Word) : (setG c r v).trapIdx = c.trapIdx := by
  unfold setG; split_ifs <;> rfl
@[simp] theorem setG_tlink (c : Ctx) (r : Reg) (v : Word) : (setG c r v).tlink = c.tlink := by
  unfold setG; split_ifs <;> rfl
@[simp] theorem setG_trapMode (c : Ctx) (r : Reg) (v : Word) : (setG c r v).trapMode = c.trapMode := by
  unfold setG; split_ifs <;> rfl
@[simp] theorem setG_trapRep (c : Ctx) (r : Reg) (v : Word) : (setG c r v).trapRep = c.trapRep := by
  unfold setG; split_ifs <;> rfl
@[simp] theorem setG_trapRow (c : Ctx) (r : Reg) (v : Word) : (setG c r v).trapRow = c.trapRow := by
  unfold setG; split_ifs <;> rfl
@[simp] theorem setG_msgPos (c : Ctx) (r : Reg) (v : Word) : (setG c r v).msgPos = c.msgPos := by
  unfold setG; split_ifs <;> rfl
@[simp] theorem setG_msgDone (c : Ctx) (r : Reg) (v : Word) : (setG c r v).msgDone = c.msgDone := by
  unfold setG; split_ifs <;> rfl
@[simp] theorem setV_pc (c : Ctx) (r : Reg) (v : VWord) : (setV c r v).pc = c.pc := rfl
@[simp] theorem setV_g (c : Ctx) (r : Reg) (v : VWord) : (setV c r v).g = c.g := rfl
@[simp] theorem setV_gFull (c : Ctx) (r : Reg) (v : VWord) : (setV c r v).gFull = c.gFull := rfl
@[simp] theorem setV_vFull (c : Ctx) (r : Reg) (v : VWord) : (setV c r v).vFull = c.vFull := rfl
@[simp] theorem setV_m (c : Ctx) (r : Reg) (v : VWord) : (setV c r v).m = c.m := rfl
@[simp] theorem setV_ac (c : Ctx) (r : Reg) (v : VWord) : (setV c r v).ac = c.ac := rfl
@[simp] theorem setV_rep (c : Ctx) (r : Reg) (v : VWord) : (setV c r v).rep = c.rep := rfl
@[simp] theorem setV_mstRow (c : Ctx) (r : Reg) (v : VWord) : (setV c r v).mstRow = c.mstRow := rfl
@[simp] theorem setV_flags (c : Ctx) (r : Reg) (v : VWord) : (setV c r v).flags = c.flags := rfl
@[simp] theorem setV_sendq (c : Ctx) (r : Reg) (v : VWord) : (setV c r v).sendq = c.sendq := rfl
@[simp] theorem setV_trapCause (c : Ctx) (r : Reg) (v : VWord) : (setV c r v).trapCause = c.trapCause := rfl
@[simp] theorem setV_trapPc (c : Ctx) (r : Reg) (v : VWord) : (setV c r v).trapPc = c.trapPc := rfl
@[simp] theorem setV_trapIdx (c : Ctx) (r : Reg) (v : VWord) : (setV c r v).trapIdx = c.trapIdx := rfl
@[simp] theorem setV_tlink (c : Ctx) (r : Reg) (v : VWord) : (setV c r v).tlink = c.tlink := rfl
@[simp] theorem setV_trapMode (c : Ctx) (r : Reg) (v : VWord) : (setV c r v).trapMode = c.trapMode := rfl
@[simp] theorem setV_trapRep (c : Ctx) (r : Reg) (v : VWord) : (setV c r v).trapRep = c.trapRep := rfl
@[simp] theorem setV_trapRow (c : Ctx) (r : Reg) (v : VWord) : (setV c r v).trapRow = c.trapRow := rfl
@[simp] theorem setV_msgPos (c : Ctx) (r : Reg) (v : VWord) : (setV c r v).msgPos = c.msgPos := rfl
@[simp] theorem setV_msgDone (c : Ctx) (r : Reg) (v : VWord) : (setV c r v).msgDone = c.msgDone := rfl
@[simp] theorem setM_pc (c : Ctx) (r : Reg) (v : Word) : (setM c r v).pc = c.pc := by
  unfold setM; split <;> rfl
@[simp] theorem setM_g (c : Ctx) (r : Reg) (v : Word) : (setM c r v).g = c.g := by
  unfold setM; split <;> rfl
@[simp] theorem setM_gFull (c : Ctx) (r : Reg) (v : Word) : (setM c r v).gFull = c.gFull := by
  unfold setM; split <;> rfl
@[simp] theorem setM_v (c : Ctx) (r : Reg) (v : Word) : (setM c r v).v = c.v := by
  unfold setM; split <;> rfl
@[simp] theorem setM_vFull (c : Ctx) (r : Reg) (v : Word) : (setM c r v).vFull = c.vFull := by
  unfold setM; split <;> rfl
@[simp] theorem setM_ac (c : Ctx) (r : Reg) (v : Word) : (setM c r v).ac = c.ac := by
  unfold setM; split <;> rfl
@[simp] theorem setM_rep (c : Ctx) (r : Reg) (v : Word) : (setM c r v).rep = c.rep := by
  unfold setM; split <;> rfl
@[simp] theorem setM_mstRow (c : Ctx) (r : Reg) (v : Word) : (setM c r v).mstRow = c.mstRow := by
  unfold setM; split <;> rfl
@[simp] theorem setM_flags (c : Ctx) (r : Reg) (v : Word) : (setM c r v).flags = c.flags := by
  unfold setM; split <;> rfl
@[simp] theorem setM_sendq (c : Ctx) (r : Reg) (v : Word) : (setM c r v).sendq = c.sendq := by
  unfold setM; split <;> rfl
@[simp] theorem setM_trapCause (c : Ctx) (r : Reg) (v : Word) : (setM c r v).trapCause = c.trapCause := by
  unfold setM; split <;> rfl
@[simp] theorem setM_trapPc (c : Ctx) (r : Reg) (v : Word) : (setM c r v).trapPc = c.trapPc := by
  unfold setM; split <;> rfl
@[simp] theorem setM_trapIdx (c : Ctx) (r : Reg) (v : Word) : (setM c r v).trapIdx = c.trapIdx := by
  unfold setM; split <;> rfl
@[simp] theorem setM_tlink (c : Ctx) (r : Reg) (v : Word) : (setM c r v).tlink = c.tlink := by
  unfold setM; split <;> rfl
@[simp] theorem setM_trapMode (c : Ctx) (r : Reg) (v : Word) : (setM c r v).trapMode = c.trapMode := by
  unfold setM; split <;> rfl
@[simp] theorem setM_trapRep (c : Ctx) (r : Reg) (v : Word) : (setM c r v).trapRep = c.trapRep := by
  unfold setM; split <;> rfl
@[simp] theorem setM_trapRow (c : Ctx) (r : Reg) (v : Word) : (setM c r v).trapRow = c.trapRow := by
  unfold setM; split <;> rfl
@[simp] theorem setM_msgPos (c : Ctx) (r : Reg) (v : Word) : (setM c r v).msgPos = c.msgPos := by
  unfold setM; split <;> rfl
@[simp] theorem setM_msgDone (c : Ctx) (r : Reg) (v : Word) : (setM c r v).msgDone = c.msgDone := by
  unfold setM; split <;> rfl
@[simp] theorem advance_g (c : Ctx) : (advance c).g = c.g := by
  unfold advance; split
  · rfl
  · split_ifs <;> rfl
@[simp] theorem advance_gFull (c : Ctx) : (advance c).gFull = c.gFull := by
  unfold advance; split
  · rfl
  · split_ifs <;> rfl
@[simp] theorem advance_v (c : Ctx) : (advance c).v = c.v := by
  unfold advance; split
  · rfl
  · split_ifs <;> rfl
@[simp] theorem advance_vFull (c : Ctx) : (advance c).vFull = c.vFull := by
  unfold advance; split
  · rfl
  · split_ifs <;> rfl
@[simp] theorem advance_m (c : Ctx) : (advance c).m = c.m := by
  unfold advance; split
  · rfl
  · split_ifs <;> rfl
@[simp] theorem advance_ac (c : Ctx) : (advance c).ac = c.ac := by
  unfold advance; split
  · rfl
  · split_ifs <;> rfl
@[simp] theorem advance_mstRow (c : Ctx) : (advance c).mstRow = c.mstRow := by
  unfold advance; split
  · rfl
  · split_ifs <;> rfl
@[simp] theorem advance_flags (c : Ctx) : (advance c).flags = c.flags := by
  unfold advance; split
  · rfl
  · split_ifs <;> rfl
@[simp] theorem advance_sendq (c : Ctx) : (advance c).sendq = c.sendq := by
  unfold advance; split
  · rfl
  · split_ifs <;> rfl
@[simp] theorem advance_trapCause (c : Ctx) : (advance c).trapCause = c.trapCause := by
  unfold advance; split
  · rfl
  · split_ifs <;> rfl
@[simp] theorem advance_trapPc (c : Ctx) : (advance c).trapPc = c.trapPc := by
  unfold advance; split
  · rfl
  · split_ifs <;> rfl
@[simp] theorem advance_trapIdx (c : Ctx) : (advance c).trapIdx = c.trapIdx := by
  unfold advance; split
  · rfl
  · split_ifs <;> rfl
@[simp] theorem advance_tlink (c : Ctx) : (advance c).tlink = c.tlink := by
  unfold advance; split
  · rfl
  · split_ifs <;> rfl
@[simp] theorem advance_trapMode (c : Ctx) : (advance c).trapMode = c.trapMode := by
  unfold advance; split
  · rfl
  · split_ifs <;> rfl
@[simp] theorem advance_trapRep (c : Ctx) : (advance c).trapRep = c.trapRep := by
  unfold advance; split
  · rfl
  · split_ifs <;> rfl
@[simp] theorem advance_trapRow (c : Ctx) : (advance c).trapRow = c.trapRow := by
  unfold advance; split
  · rfl
  · split_ifs <;> rfl
@[simp] theorem advance_msgPos (c : Ctx) : (advance c).msgPos = c.msgPos := by
  unfold advance; split
  · rfl
  · split_ifs <;> rfl
@[simp] theorem advance_msgDone (c : Ctx) : (advance c).msgDone = c.msgDone := by
  unfold advance; split
  · rfl
  · split_ifs <;> rfl
@[simp] theorem raiseFlags_pc (c : Ctx) (f : FlagSet) : (raiseFlags c f).pc = c.pc := rfl
@[simp] theorem raiseFlags_g (c : Ctx) (f : FlagSet) : (raiseFlags c f).g = c.g := rfl
@[simp] theorem raiseFlags_gFull (c : Ctx) (f : FlagSet) : (raiseFlags c f).gFull = c.gFull := rfl
@[simp] theorem raiseFlags_v (c : Ctx) (f : FlagSet) : (raiseFlags c f).v = c.v := rfl
@[simp] theorem raiseFlags_vFull (c : Ctx) (f : FlagSet) : (raiseFlags c f).vFull = c.vFull := rfl
@[simp] theorem raiseFlags_m (c : Ctx) (f : FlagSet) : (raiseFlags c f).m = c.m := rfl
@[simp] theorem raiseFlags_ac (c : Ctx) (f : FlagSet) : (raiseFlags c f).ac = c.ac := rfl
@[simp] theorem raiseFlags_rep (c : Ctx) (f : FlagSet) : (raiseFlags c f).rep = c.rep := rfl
@[simp] theorem raiseFlags_mstRow (c : Ctx) (f : FlagSet) : (raiseFlags c f).mstRow = c.mstRow := rfl
@[simp] theorem raiseFlags_sendq (c : Ctx) (f : FlagSet) : (raiseFlags c f).sendq = c.sendq := rfl
@[simp] theorem raiseFlags_trapCause (c : Ctx) (f : FlagSet) : (raiseFlags c f).trapCause = c.trapCause := rfl
@[simp] theorem raiseFlags_trapPc (c : Ctx) (f : FlagSet) : (raiseFlags c f).trapPc = c.trapPc := rfl
@[simp] theorem raiseFlags_trapIdx (c : Ctx) (f : FlagSet) : (raiseFlags c f).trapIdx = c.trapIdx := rfl
@[simp] theorem raiseFlags_tlink (c : Ctx) (f : FlagSet) : (raiseFlags c f).tlink = c.tlink := rfl
@[simp] theorem raiseFlags_trapMode (c : Ctx) (f : FlagSet) : (raiseFlags c f).trapMode = c.trapMode := rfl
@[simp] theorem raiseFlags_trapRep (c : Ctx) (f : FlagSet) : (raiseFlags c f).trapRep = c.trapRep := rfl
@[simp] theorem raiseFlags_trapRow (c : Ctx) (f : FlagSet) : (raiseFlags c f).trapRow = c.trapRow := rfl
@[simp] theorem raiseFlags_msgPos (c : Ctx) (f : FlagSet) : (raiseFlags c f).msgPos = c.msgPos := rfl
@[simp] theorem raiseFlags_msgDone (c : Ctx) (f : FlagSet) : (raiseFlags c f).msgDone = c.msgDone := rfl

end Sys2Proof.Machine
end

