-- ==== Sys2Proof/Laws/Ops.lean ====
section
/-! SUPPORT. What each shared operation can do, said once: registers, readiness, the order of an instruction, traps, and the
stages of an access. -/

namespace Sys2Proof.Machine

/-! ### Registers -/

theorem getG_zero (c : Ctx) : getG c 0 = 0 := rfl

theorem getG_of_ne {c : Ctx} {r : Reg} (h : r ≠ 0) : getG c r = c.g[r.toNat]'(r.isLt) := if_neg h

/-- A register written with a plain number reads as written. -/
theorem getG_setG_same (c : Ctx) {d : Reg} (v : Word) (h0 : d ≠ 0) (h1 : d ≠ 28) (h2 : d ≠ 29) :
    getG (setG c d v) d = v := by
  unfold getG setG; rw [if_neg h0, if_neg h0, if_neg h1, if_neg h2]; exact Vector.getElem_set_self _

/-- Every other register reads as before. -/
theorem getG_setG_other (c : Ctx) {d r : Reg} (v : Word) (h : r ≠ d) : getG (setG c d v) r = getG c r := by
  unfold getG setG
  split_ifs <;> try rfl
  have : d.toNat ≠ r.toNat := fun e => h (BitVec.eq_of_toNat_eq e).symm
  simp [this]

theorem setG_zero (c : Ctx) (v : Word) : setG c 0 v = c := rfl
theorem setG_ain (c : Ctx) (v : Word) : setG c 28 v = c := rfl
theorem setG_dep (c : Ctx) (v : Word) : setG c 29 v = { c with sendq := c.sendq ++ [v] } := rfl

/-- A source that is neither ain nor dep reads its register and changes nothing. -/
theorem takeG_plain (t : Task) {r : Reg} (h1 : r ≠ 28) (h2 : r ≠ 29) : takeG t r = (getG t.ctx r, t) := by
  unfold takeG; rw [if_neg h1, if_neg h2]

/-! ### Readiness -/

/-- A task with no answered access issues an instruction when no tag it names is empty and words of the message have arrived
for every read of ain (R70, R72). -/
theorem readiness_ready_iff (t : Task) (n : Needs) (h : answeredHold t = false) : readiness t n = .ready ↔
    (∀ r ∈ n.gs, fullG t.ctx r = true) ∧ (∀ r ∈ n.gd, fullG t.ctx r = true) ∧ (∀ r ∈ n.vs, fullV t.ctx r = true) ∧
    (∀ r ∈ n.vd, fullV t.ctx r = true) ∧ (n.gs.filter fun r => r == 28).length ≤ ainHere t := by
  have hle : ainHere t ≤ ainLeft t := by unfold ainHere; split <;> omega
  unfold readiness
  simp only [h, Bool.false_eq_true, if_false]
  split
  · rename_i hs
    simp only [Bool.or_eq_true, List.any_eq_true, Bool.not_eq_true', Bool.and_eq_true, decide_eq_true_eq] at hs
    constructor
    · intro e; split at e <;> cases e
    · rintro ⟨h1, -, -, -, h5⟩
      rcases hs with ⟨r, hr, e⟩ | ⟨e, -⟩
      · simp [h1 r hr] at e
      · omega
  · split
    · rename_i hs
      simp only [Bool.or_eq_true, List.any_eq_true, Bool.not_eq_true'] at hs
      simp only [reduceCtorEq, false_iff]
      rintro ⟨-, h1, h2, h3, -⟩
      rcases hs with (⟨r, hr, e⟩ | ⟨r, hr, e⟩) | ⟨r, hr, e⟩
      · simp [h1 r hr] at e
      · simp [h2 r hr] at e
      · simp [h3 r hr] at e
    · rename_i h1 h2
      simp only [Bool.or_eq_true, List.any_eq_true, Bool.not_eq_true', Bool.and_eq_true, decide_eq_true_eq, not_or, not_exists,
        not_and, Bool.not_eq_false] at h1 h2
      split
      · simp only [reduceCtorEq, false_iff]
        rintro ⟨-, -, -, -, h5⟩
        omega
      · simp only [true_iff]
        refine ⟨fun r hr => h1.1 r hr, fun r hr => h2.1.1 r hr, fun r hr => h2.1.2 r hr, fun r hr => h2.2 r hr, ?_⟩
        have := h1.2
        omega

/-- An answered access reads its registers as they were when it issued (R457). -/
theorem readiness_answered {t : Task} (h : answeredHold t = true) (n : Needs) : readiness t n = .ready := by
  simp [readiness, h]

theorem gate_ready {s : State} {n : Needs} (h : readiness s.cur n = .ready) (k : Out) : gate s n k = k := by
  simp [gate, h]

theorem gate_stall {s : State} {n : Needs} (h : readiness s.cur n = .stall) (k : Out) : gate s n k = .next s := by
  simp [gate, h]

theorem gate_empty {s : State} {n : Needs} (h : readiness s.cur n = .empty5) (k : Out) : gate s n k = trap s 0x05 0 := by
  simp [gate, h]

/-! ### The order of an instruction -/

theorem alone_fresh {s : State} (h : s.cur.chunk.fresh = true) (hs : s.cur.chunk.serial = false) (hb : hasBaton s = true)
    (k : Out) : alone s k = k := by simp [alone, h, hs, hb]

/-- The chunk so far commits first, and one in serial mode gives its tokens back (R111, R115). -/
theorem alone_commits {s : State} (h : s.cur.chunk.fresh = false ∨ s.cur.chunk.serial = true) (k : Out) :
    alone s k = .next (commitNow s).state := by rcases h with h | h <;> simp [alone, h]

theorem finishG_room {s : State} {d : Reg} (h : destRoom s.cur d = true) (t : Task) (v : Word) :
    finishG s t d v = .next (retire s { t with ctx := setG t.ctx d v }) := by simp [finishG, h]

theorem finishG_full {s : State} {d : Reg} (h : destRoom s.cur d = false) (t : Task) (v : Word) :
    finishG s t d v = trap s 0x02 0 := by simp [finishG, h]

/-- Only a write of dep can want for room. -/
theorem destRoom_plain (t : Task) {d : Reg} (h : d ≠ 29) : destRoom t d = true := by
  unfold destRoom; rw [bne_iff_ne.2 h]; rfl

/-- Two sources and a destination: the result reaches the destination and the next instruction follows. -/
theorem opGG_next {s : State} {d a b : Reg} {f : Word → Word → Word} (h : readiness s.cur (.g [a, b] [d]) = .ready)
    (hd : destRoom s.cur d = true) :
    opGG s d a b f = .next (retire s { (takeG (takeG s.cur a).2 b).2 with
      ctx := setG (takeG (takeG s.cur a).2 b).2.ctx d (f (takeG s.cur a).1 (takeG (takeG s.cur a).2 b).1) }) := by
  simp [opGG, gate_ready h, finishG_room hd]

/-- One source and a destination. -/
theorem opG_next {s : State} {d a : Reg} {f : Word → Word} (h : readiness s.cur (.g [a] [d]) = .ready)
    (hd : destRoom s.cur d = true) :
    opG s d a f = .next (retire s { (takeG s.cur a).2 with
      ctx := setG (takeG s.cur a).2.ctx d (f (takeG s.cur a).1) }) := by
  simp [opG, gate_ready h, finishG_room hd]

/-! ### Traps -/

theorem takeTrap_fatal {s : State} {c : Nat} (h : trapFatal s c = true) (u : Nat) (x : Word) (n e : Bool) :
    takeTrap s c u x n e = fatalTrap s c u x e := by simp [takeTrap, h]

theorem takeTrap_fresh {s : State} {c : Nat} (h : trapFatal s c = false) (hf : s.cur.chunk.fresh = true) (u : Nat)
    (x : Word) (n e : Bool) : takeTrap s c u x n e = enterTrap (releaseTokens s s.cur.key) c u n := by simp [takeTrap, h, hf]

theorem takeTrap_done {s s' : State} {c : Nat} (h : trapFatal s c = false) (hf : s.cur.chunk.fresh = false)
    (hc : commitNow s = .done s') (u : Nat) (x : Word) (n e : Bool) :
    takeTrap s c u x n e = enterTrap s' c u n := by simp [takeTrap, h, hf, hc]

/-! ### Accesses -/

theorem checked_ok {s : State} {a : Word} {acc : Access} (h : checkAccess s s.cur.tenant s.cur.trusted a acc = none)
    (hb : waitsBusy s a acc = false) (k : Out) : checked s a acc k = k := by
  simp [checked, h, hb]

/-- No entry at rest holds an access back. -/
theorem waitsBusy_free {s : State} {a : Word} (h : regionBusy s (localOf a) = false) (acc : Access) :
    waitsBusy s a acc = false := by simp [waitsBusy, h]

theorem checked_cause {s : State} {a : Word} {acc : Access} {c : Nat}
    (h : checkAccess s s.cur.tenant s.cur.trusted a acc = some c) (hb : waitsBusy s a acc = false) (k : Out) :
    checked s a acc k = accessTrap s c a := by
  simp [checked, h, hb]

theorem awaitClass_no (s : State) (a : Word) (k : Out) : awaitClass s .no a k = k := by simp [awaitClass]

theorem held_none {s : State} (h : s.cur.hold = none) (t : Task) (d : Dest) (a : Word) (k : Out) : held s t d a k = k := by
  simp [held, h]

theorem withLines_entered {s s' : State} {rs ws : List Nat} (h : touch s rs ws = .entered s') (k : State → Out) :
    withLines s rs ws k = k s' := by simp [withLines, h]

end Sys2Proof.Machine
end

