-- ==== Sys2Proof/Laws/PerInstr.lean ====
section
/-! SUPPORT. The family RoundTrip: the fields the encoder gives an instruction decode to that instruction, one lemma per
constructor of `Instr`. -/

namespace Sys2Proof.Laws.RoundTrip

open Sys2Proof

/-- The fields the encoder gives `i`, if it has a word, decode to `i` (R57 to R67). -/
def Statement (i : Instr) : Prop :=
  ∀ f, encodeFields i = some f → decodeFields f = .ok i

theorem ofFields (i : Instr) (f : Fields) (h : encodeFields i = some f) (k : decodeFields f = .ok i) : Statement i := by
  intro g hg; rw [h] at hg; cases hg; exact k

theorem noWord (i : Instr) (h : encodeFields i = none) : Statement i := by
  intro g hg; rw [h] at hg; cases hg

/-! ### Fields put together again -/

theorem immI_fieldsI (i a f3 d op) : immI (fieldsI i a f3 d op) = i := by
  apply BitVec.eq_of_getLsbD_eq; intro k hk
  simp only [immI, fieldsI, BitVec.getLsbD_append, BitVec.getLsbD_extractLsb']
  interval_cases k <;> simp

theorem immS_fields (i : BitVec 12) (b a f3 op) : immS ⟨i.extractLsb' 5 7, b, a, f3, i.extractLsb' 0 5, op⟩ = i := by
  apply BitVec.eq_of_getLsbD_eq; intro k hk
  simp only [immS, BitVec.getLsbD_append, BitVec.getLsbD_extractLsb']
  interval_cases k <;> simp

theorem immB_fields (i : BitVec 12) (b a f3 op) : immB ⟨immBf7 i, b, a, f3, immBd i, op⟩ = i := by
  apply BitVec.eq_of_getLsbD_eq; intro k hk
  simp only [immB, immBf7, immBd, BitVec.getLsbD_append, BitVec.getLsbD_extractLsb']
  interval_cases k <;> simp

theorem immU_fieldsU (u d op) : immU (fieldsU u d op) = u := by
  apply BitVec.eq_of_getLsbD_eq; intro k hk
  simp only [immU, fieldsU, BitVec.getLsbD_append, BitVec.getLsbD_extractLsb']
  interval_cases k <;> simp

theorem immJ_fieldsU (i d op) : immJ (fieldsU (immJu i) d op) = i := by
  unfold immJ; rw [immU_fieldsU]
  apply BitVec.eq_of_getLsbD_eq; intro k hk
  simp only [immJu, BitVec.getLsbD_append, BitVec.getLsbD_extractLsb']
  interval_cases k <;> simp

theorem shamt_join (c : BitVec 6) (s : BitVec 6) :
    (c ++ s.extractLsb' 5 1 : BitVec 7).extractLsb' 0 1 ++ s.extractLsb' 0 5 = s := by
  apply BitVec.eq_of_getLsbD_eq; intro k hk
  simp only [BitVec.getLsbD_append, BitVec.getLsbD_extractLsb']
  interval_cases k <;> simp

theorem shamt_hi (c : BitVec 6) (s : BitVec 1) : (c ++ s : BitVec 7).extractLsb' 1 6 = c := by
  apply BitVec.eq_of_getLsbD_eq; intro k hk
  simp only [BitVec.getLsbD_append, BitVec.getLsbD_extractLsb']
  interval_cases k <;> simp

theorem msg_tag (g : BitVec 8) (c : BitVec 4) : (g ++ c : BitVec 12).extractLsb' 4 8 = g := by
  apply BitVec.eq_of_getLsbD_eq; intro k hk
  simp only [BitVec.getLsbD_append, BitVec.getLsbD_extractLsb']
  interval_cases k <;> simp

theorem msg_count (g : BitVec 8) (c : BitVec 4) : (g ++ c : BitVec 12).extractLsb' 0 4 = c := by
  apply BitVec.eq_of_getLsbD_eq; intro k hk
  simp only [BitVec.getLsbD_append, BitVec.getLsbD_extractLsb']
  interval_cases k <;> simp

theorem rpt_count (c : BitVec 6) (l : BitVec 4) (s : BitVec 2) : (c ++ (l ++ s) : BitVec 12).extractLsb' 6 6 = c := by
  apply BitVec.eq_of_getLsbD_eq; intro k hk
  simp only [BitVec.getLsbD_append, BitVec.getLsbD_extractLsb']
  interval_cases k <;> simp

theorem rpt_len (c : BitVec 6) (l : BitVec 4) (s : BitVec 2) : (c ++ (l ++ s) : BitVec 12).extractLsb' 2 4 = l := by
  apply BitVec.eq_of_getLsbD_eq; intro k hk
  simp only [BitVec.getLsbD_append, BitVec.getLsbD_extractLsb']
  interval_cases k <;> simp

theorem rpt_stride (c : BitVec 6) (l : BitVec 4) (s : BitVec 2) : (c ++ (l ++ s) : BitVec 12).extractLsb' 0 2 = s := by
  apply BitVec.eq_of_getLsbD_eq; intro k hk
  simp only [BitVec.getLsbD_append, BitVec.getLsbD_extractLsb']
  interval_cases k <;> simp

theorem vec_m (o : BitVec 4) (m : BitVec 3) : (o ++ m).extractLsb' 0 3 = m := by
  apply BitVec.eq_of_getLsbD_eq; intro k hk
  simp only [BitVec.getLsbD_append, BitVec.getLsbD_extractLsb']
  interval_cases k <;> simp

theorem vec_o (o : BitVec 4) (m : BitVec 3) : (o ++ m).extractLsb' 3 4 = o := by
  apply BitVec.eq_of_getLsbD_eq; intro k hk
  simp only [BitVec.getLsbD_append, BitVec.getLsbD_extractLsb']
  interval_cases k <;> simp

theorem vec_int (o : BitVec 4) (t : ElemType) (m : BitVec 3) (b a d) :
    decodeFields ⟨o ++ m, b, a, 0#1 ++ t.code, d, 0x5B⟩ = decVInt ⟨o ++ m, b, a, 0#1 ++ t.code, d, 0x5B⟩ := by
  cases t <;> rfl

theorem vec_bit (o : BitVec 4) (m : BitVec 3) (n : Nat) (h : n < 3) : f7bit (o ++ m) n = m.getLsbD n := by
  simp only [f7bit, BitVec.getLsbD_append, h, if_true]

theorem vec_fp (y : FFmt) (o : BitVec 4) (m : BitVec 3) (b a d) :
    decodeFields ⟨o ++ m, b, a, y.code, d, 0x5B⟩ =
      (let z := m.getLsbD 2
       let u := m.getLsbD 1
       let k := m.getLsbD 0
       if o = 0 then .ok (.vfadd y z u k d a b) else if o = 1 then .ok (.vfsub y z u k d a b)
       else if o = 2 then .ok (.vfmul y z u k d a b) else if o = 3 then .ok (.vfma y z u k d a b)
       else if o = 4 then .ok (.vfmin y z u k d a b) else if o = 5 then .ok (.vfmax y z u k d a b)
       else if o = 6 then .ok (.vfdiv y z u k d a b)
       else if o = 7 then onlyIf (b = 0) (.vfsqrt y z u k d a)
       else if o = 8 then .ok (.vfcmp .eq y z u k d a b) else if o = 9 then .ok (.vfcmp .lt y z u k d a b)
       else if o = 10 then .ok (.vfcmp .le y z u k d a b) else if o = 11 then .ok (.vfcmp .un y z u k d a b)
       else .error .opcode) := by
  have h : decodeFields ⟨o ++ m, b, a, y.code, d, 0x5B⟩ = decVFp y ⟨o ++ m, b, a, y.code, d, 0x5B⟩ := by
    cases y <;> rfl
  rw [h]; simp only [decVFp]; rw [vec_o, vec_bit _ _ _ (by decide), vec_bit _ _ _ (by decide), vec_bit _ _ _ (by decide)]

/-! ### A property of every value of a small field -/

theorem bits2 (P : BitVec 2 → Prop) (h0 : P 0) (h1 : P 1) (h2 : P 2) (h3 : P 3) : ∀ m, P m := by
  intro m
  have : m = 0 ∨ m = 1 ∨ m = 2 ∨ m = 3 := by decide +revert
  rcases this with h | h | h | h <;> subst h <;> assumption

theorem bits3 (P : BitVec 3 → Prop) (h0 : P 0) (h1 : P 1) (h2 : P 2) (h3 : P 3) (h4 : P 4) (h5 : P 5) (h6 : P 6)
    (h7 : P 7) : ∀ m, P m := by
  intro m
  have : m = 0 ∨ m = 1 ∨ m = 2 ∨ m = 3 ∨ m = 4 ∨ m = 5 ∨ m = 6 ∨ m = 7 := by decide +revert
  rcases this with h | h | h | h | h | h | h | h <;> subst h <;> assumption

theorem bits4 (P : BitVec 4 → Prop) (h0 : P 0) (h1 : P 1) (h2 : P 2) (h3 : P 3) (h4 : P 4) (h5 : P 5) (h6 : P 6)
    (h7 : P 7) (h8 : P 8) (h9 : P 9) (h10 : P 10) (h11 : P 11) (h12 : P 12) (h13 : P 13) (h14 : P 14) (h15 : P 15) :
    ∀ m, P m := by
  intro m
  have : m = 0 ∨ m = 1 ∨ m = 2 ∨ m = 3 ∨ m = 4 ∨ m = 5 ∨ m = 6 ∨ m = 7 ∨ m = 8 ∨ m = 9 ∨ m = 10 ∨ m = 11 ∨ m = 12 ∨
      m = 13 ∨ m = 14 ∨ m = 15 := by decide +revert
  rcases this with h | h | h | h | h | h | h | h | h | h | h | h | h | h | h | h <;> subst h <;> assumption

/-! ### One lemma per constructor -/

theorem add (d : Reg) (a : Reg) (b : Reg) : Statement (.add d a b) := ofFields _ _ rfl rfl
theorem sub (d : Reg) (a : Reg) (b : Reg) : Statement (.sub d a b) := ofFields _ _ rfl rfl
theorem addw (d : Reg) (a : Reg) (b : Reg) : Statement (.addw d a b) := ofFields _ _ rfl rfl
theorem subw (d : Reg) (a : Reg) (b : Reg) : Statement (.subw d a b) := ofFields _ _ rfl rfl
theorem addi (d : Reg) (a : Reg) (i : BitVec 12) : Statement (.addi d a i) :=
  ofFields _ _ rfl (congrArg (fun x => Except.ok (Instr.addi d a x)) (immI_fieldsI ..))
theorem addiw (d : Reg) (a : Reg) (i : BitVec 12) : Statement (.addiw d a i) :=
  ofFields _ _ rfl (congrArg (fun x => Except.ok (Instr.addiw d a x)) (immI_fieldsI ..))
theorem and (d : Reg) (a : Reg) (b : Reg) : Statement (.and d a b) := ofFields _ _ rfl rfl
theorem or (d : Reg) (a : Reg) (b : Reg) : Statement (.or d a b) := ofFields _ _ rfl rfl
theorem xor (d : Reg) (a : Reg) (b : Reg) : Statement (.xor d a b) := ofFields _ _ rfl rfl
theorem andi (d : Reg) (a : Reg) (i : BitVec 12) : Statement (.andi d a i) :=
  ofFields _ _ rfl (congrArg (fun x => Except.ok (Instr.andi d a x)) (immI_fieldsI ..))
theorem ori (d : Reg) (a : Reg) (i : BitVec 12) : Statement (.ori d a i) :=
  ofFields _ _ rfl (congrArg (fun x => Except.ok (Instr.ori d a x)) (immI_fieldsI ..))
theorem xori (d : Reg) (a : Reg) (i : BitVec 12) : Statement (.xori d a i) :=
  ofFields _ _ rfl (congrArg (fun x => Except.ok (Instr.xori d a x)) (immI_fieldsI ..))
theorem slt (d : Reg) (a : Reg) (b : Reg) : Statement (.slt d a b) := ofFields _ _ rfl rfl
theorem sltu (d : Reg) (a : Reg) (b : Reg) : Statement (.sltu d a b) := ofFields _ _ rfl rfl
theorem slti (d : Reg) (a : Reg) (i : BitVec 12) : Statement (.slti d a i) :=
  ofFields _ _ rfl (congrArg (fun x => Except.ok (Instr.slti d a x)) (immI_fieldsI ..))
theorem sltiu (d : Reg) (a : Reg) (i : BitVec 12) : Statement (.sltiu d a i) :=
  ofFields _ _ rfl (congrArg (fun x => Except.ok (Instr.sltiu d a x)) (immI_fieldsI ..))
theorem sll (d : Reg) (a : Reg) (b : Reg) : Statement (.sll d a b) := ofFields _ _ rfl rfl
theorem srl (d : Reg) (a : Reg) (b : Reg) : Statement (.srl d a b) := ofFields _ _ rfl rfl
theorem sra (d : Reg) (a : Reg) (b : Reg) : Statement (.sra d a b) := ofFields _ _ rfl rfl
theorem sllw (d : Reg) (a : Reg) (b : Reg) : Statement (.sllw d a b) := ofFields _ _ rfl rfl
theorem srlw (d : Reg) (a : Reg) (b : Reg) : Statement (.srlw d a b) := ofFields _ _ rfl rfl
theorem sraw (d : Reg) (a : Reg) (b : Reg) : Statement (.sraw d a b) := ofFields _ _ rfl rfl
theorem slli (d : Reg) (a : Reg) (s : BitVec 6) : Statement (.slli d a s) :=
  ofFields _ _ rfl (by
    simp [decodeFields, decOpImm, shamt_hi, shamt_join])
theorem srli (d : Reg) (a : Reg) (s : BitVec 6) : Statement (.srli d a s) :=
  ofFields _ _ rfl (by
    simp [decodeFields, decOpImm, shamt_hi, shamt_join])
theorem srai (d : Reg) (a : Reg) (s : BitVec 6) : Statement (.srai d a s) :=
  ofFields _ _ rfl (by
    simp [decodeFields, decOpImm, shamt_hi, shamt_join])
theorem slliw (d : Reg) (a : Reg) (s : BitVec 5) : Statement (.slliw d a s) := ofFields _ _ rfl rfl
theorem srliw (d : Reg) (a : Reg) (s : BitVec 5) : Statement (.srliw d a s) := ofFields _ _ rfl rfl
theorem sraiw (d : Reg) (a : Reg) (s : BitVec 5) : Statement (.sraiw d a s) := ofFields _ _ rfl rfl
theorem mul (d : Reg) (a : Reg) (b : Reg) : Statement (.mul d a b) := ofFields _ _ rfl rfl
theorem mulh (d : Reg) (a : Reg) (b : Reg) : Statement (.mulh d a b) := ofFields _ _ rfl rfl
theorem mulhsu (d : Reg) (a : Reg) (b : Reg) : Statement (.mulhsu d a b) := ofFields _ _ rfl rfl
theorem mulhu (d : Reg) (a : Reg) (b : Reg) : Statement (.mulhu d a b) := ofFields _ _ rfl rfl
theorem mulw (d : Reg) (a : Reg) (b : Reg) : Statement (.mulw d a b) := ofFields _ _ rfl rfl
theorem div (d : Reg) (a : Reg) (b : Reg) : Statement (.div d a b) := ofFields _ _ rfl rfl
theorem divu (d : Reg) (a : Reg) (b : Reg) : Statement (.divu d a b) := ofFields _ _ rfl rfl
theorem rem (d : Reg) (a : Reg) (b : Reg) : Statement (.rem d a b) := ofFields _ _ rfl rfl
theorem remu (d : Reg) (a : Reg) (b : Reg) : Statement (.remu d a b) := ofFields _ _ rfl rfl
theorem divw (d : Reg) (a : Reg) (b : Reg) : Statement (.divw d a b) := ofFields _ _ rfl rfl
theorem divuw (d : Reg) (a : Reg) (b : Reg) : Statement (.divuw d a b) := ofFields _ _ rfl rfl
theorem remw (d : Reg) (a : Reg) (b : Reg) : Statement (.remw d a b) := ofFields _ _ rfl rfl
theorem remuw (d : Reg) (a : Reg) (b : Reg) : Statement (.remuw d a b) := ofFields _ _ rfl rfl
theorem lui (d : Reg) (i : BitVec 20) : Statement (.lui d i) :=
  ofFields _ _ rfl (congrArg (fun x => Except.ok (Instr.lui d x)) (immU_fieldsU ..))
theorem auipc (d : Reg) (i : BitVec 20) : Statement (.auipc d i) :=
  ofFields _ _ rfl (congrArg (fun x => Except.ok (Instr.auipc d x)) (immU_fieldsU ..))
theorem jal (d : Reg) (i : BitVec 20) : Statement (.jal d i) :=
  ofFields _ _ rfl (congrArg (fun x => Except.ok (Instr.jal d x)) (immJ_fieldsU ..))
theorem jalr (d : Reg) (a : Reg) (i : BitVec 12) : Statement (.jalr d a i) :=
  ofFields _ _ rfl (congrArg (fun x => Except.ok (Instr.jalr d a x)) (immI_fieldsI ..))
theorem beq (a : Reg) (b : Reg) (i : BitVec 12) : Statement (.beq a b i) :=
  ofFields _ _ rfl (congrArg (fun x => Except.ok (Instr.beq a b x)) (immB_fields ..))
theorem bne (a : Reg) (b : Reg) (i : BitVec 12) : Statement (.bne a b i) :=
  ofFields _ _ rfl (congrArg (fun x => Except.ok (Instr.bne a b x)) (immB_fields ..))
theorem blt (a : Reg) (b : Reg) (i : BitVec 12) : Statement (.blt a b i) :=
  ofFields _ _ rfl (congrArg (fun x => Except.ok (Instr.blt a b x)) (immB_fields ..))
theorem bge (a : Reg) (b : Reg) (i : BitVec 12) : Statement (.bge a b i) :=
  ofFields _ _ rfl (congrArg (fun x => Except.ok (Instr.bge a b x)) (immB_fields ..))
theorem bltu (a : Reg) (b : Reg) (i : BitVec 12) : Statement (.bltu a b i) :=
  ofFields _ _ rfl (congrArg (fun x => Except.ok (Instr.bltu a b x)) (immB_fields ..))
theorem bgeu (a : Reg) (b : Reg) (i : BitVec 12) : Statement (.bgeu a b i) :=
  ofFields _ _ rfl (congrArg (fun x => Except.ok (Instr.bgeu a b x)) (immB_fields ..))
theorem lb (d : Reg) (a : Reg) (i : BitVec 12) : Statement (.lb d a i) :=
  ofFields _ _ rfl (congrArg (fun x => Except.ok (Instr.lb d a x)) (immI_fieldsI ..))
theorem lh (d : Reg) (a : Reg) (i : BitVec 12) : Statement (.lh d a i) :=
  ofFields _ _ rfl (congrArg (fun x => Except.ok (Instr.lh d a x)) (immI_fieldsI ..))
theorem lw (d : Reg) (a : Reg) (i : BitVec 12) : Statement (.lw d a i) :=
  ofFields _ _ rfl (congrArg (fun x => Except.ok (Instr.lw d a x)) (immI_fieldsI ..))
theorem ld (d : Reg) (a : Reg) (i : BitVec 12) : Statement (.ld d a i) :=
  ofFields _ _ rfl (congrArg (fun x => Except.ok (Instr.ld d a x)) (immI_fieldsI ..))
theorem lbu (d : Reg) (a : Reg) (i : BitVec 12) : Statement (.lbu d a i) :=
  ofFields _ _ rfl (congrArg (fun x => Except.ok (Instr.lbu d a x)) (immI_fieldsI ..))
theorem lhu (d : Reg) (a : Reg) (i : BitVec 12) : Statement (.lhu d a i) :=
  ofFields _ _ rfl (congrArg (fun x => Except.ok (Instr.lhu d a x)) (immI_fieldsI ..))
theorem lwu (d : Reg) (a : Reg) (i : BitVec 12) : Statement (.lwu d a i) :=
  ofFields _ _ rfl (congrArg (fun x => Except.ok (Instr.lwu d a x)) (immI_fieldsI ..))
theorem sb (a : Reg) (b : Reg) (i : BitVec 12) : Statement (.sb a b i) :=
  ofFields _ _ rfl (congrArg (fun x => Except.ok (Instr.sb a b x)) (immS_fields ..))
theorem sh (a : Reg) (b : Reg) (i : BitVec 12) : Statement (.sh a b i) :=
  ofFields _ _ rfl (congrArg (fun x => Except.ok (Instr.sh a b x)) (immS_fields ..))
theorem sw (a : Reg) (b : Reg) (i : BitVec 12) : Statement (.sw a b i) :=
  ofFields _ _ rfl (congrArg (fun x => Except.ok (Instr.sw a b x)) (immS_fields ..))
theorem sd (a : Reg) (b : Reg) (i : BitVec 12) : Statement (.sd a b i) :=
  ofFields _ _ rfl (congrArg (fun x => Except.ok (Instr.sd a b x)) (immS_fields ..))
theorem lx (z : MemSize) (ss : LoadMode) (ww : WaitClass) (x : Bool) (d : Reg) (a : Reg) (p : Reg) : Statement (.lx z ss ww x d a p) := by
  cases z <;> cases ss <;> cases ww <;> cases x <;> exact ofFields _ _ rfl (by simp [decodeFields, decMemx]; rfl)
theorem lxQ (ss : LoadMode) (ww : WaitClass) (x : Bool) (d : Reg) (a : Reg) (p : Reg) : Statement (.lxQ ss ww x d a p) := by
  cases ss <;> cases ww <;> cases x <;> exact ofFields _ _ rfl (by simp [decodeFields, decMemx]; rfl)
theorem sx (z : MemSize) (ss : StoreMode) (ww : WaitClass) (x : Bool) (v : Reg) (a : Reg) (p : Reg) : Statement (.sx z ss ww x v a p) := by
  cases z <;> cases ss <;> cases ww <;> cases x <;> exact ofFields _ _ rfl (by simp [decodeFields, decMemx]; rfl)
theorem amo (z : AmoSize) (o : AmoOp) (x : Bool) (d : Reg) (a : Reg) (b : Reg) : Statement (.amo z o x d a b) := by
  cases z <;> cases o <;> cases x <;> exact ofFields _ _ rfl (by simp [decodeFields, decMemx]; rfl)
theorem tagr (d : Reg) (a : Reg) : Statement (.tagr d a) := ofFields _ _ rfl rfl
theorem tagw (a : Reg) (b : Reg) : Statement (.tagw a b) := ofFields _ _ rfl rfl
theorem fenceC : Statement .fenceC := ofFields _ _ rfl rfl
theorem fenceD : Statement .fenceD := ofFields _ _ rfl rfl
theorem fenceP : Statement .fenceP := ofFields _ _ rfl rfl
theorem fenceS : Statement .fenceS := ofFields _ _ rfl rfl
theorem cwait (n : BitVec 5) : Statement (.cwait n) := ofFields _ _ rfl rfl
theorem dwb (b : Reg) (l : Reg) : Statement (.dwb b l) := ofFields _ _ rfl rfl
theorem icinv (b : Reg) (l : Reg) : Statement (.icinv b l) := ofFields _ _ rfl rfl
theorem fbar : Statement .fbar := ofFields _ _ rfl rfl
theorem bchk (a : Reg) (l : Reg) (h : Reg) : Statement (.bchk a l h) := ofFields _ _ rfl rfl
theorem spawn (d : Reg) (t : Reg) (e : Reg) : Statement (.spawn d t e) := ofFields _ _ rfl rfl
theorem spawnOrd (d : Reg) (t : Reg) (e : Reg) : Statement (.spawnOrd d t e) := ofFields _ _ rfl rfl
theorem spawnRow (d : Reg) (t : Reg) (e : Reg) : Statement (.spawnRow d t e) := ofFields _ _ rfl rfl
theorem spawnCl (d : Reg) (t : Reg) (e : Reg) : Statement (.spawnCl d t e) := ofFields _ _ rfl rfl
theorem msg (d : Reg) (n : Reg) (g : BitVec 8) (c : BitVec 4) : Statement (.msg d n g c) :=
  ofFields _ _ rfl (by
    show Except.ok (Instr.msg d n ((immI (fieldsI (g ++ c) n 1 d 0x2B)).extractLsb' 4 8) _) = _
    rw [immI_fieldsI, msg_tag, msg_count])
theorem mdone : Statement .mdone := ofFields _ _ rfl rfl
theorem wset (s : BitVec 2) (c : WaitCond) (a : Reg) (b : Reg) : Statement (.wset s c a b) := by
  revert s; cases c <;> exact bits2 _ (ofFields _ _ rfl (by simp [decodeFields, decTask]; rfl)) (ofFields _ _ rfl (by simp [decodeFields, decTask]; rfl)) (ofFields _ _ rfl (by simp [decodeFields, decTask]; rfl)) (ofFields _ _ rfl (by simp [decodeFields, decTask]; rfl))
theorem wait (e : BitVec 4) (y : Bool) (d : Reg) (t : Reg) : Statement (.wait e y d t) := by
  revert e; cases y <;> exact bits4 _ (ofFields _ _ rfl (by simp [decodeFields, decTask]; rfl)) (ofFields _ _ rfl (by simp [decodeFields, decTask]; rfl)) (ofFields _ _ rfl (by simp [decodeFields, decTask]; rfl)) (ofFields _ _ rfl (by simp [decodeFields, decTask]; rfl)) (ofFields _ _ rfl (by simp [decodeFields, decTask]; rfl)) (ofFields _ _ rfl (by simp [decodeFields, decTask]; rfl)) (ofFields _ _ rfl (by simp [decodeFields, decTask]; rfl)) (ofFields _ _ rfl (by simp [decodeFields, decTask]; rfl)) (ofFields _ _ rfl (by simp [decodeFields, decTask]; rfl)) (ofFields _ _ rfl (by simp [decodeFields, decTask]; rfl)) (ofFields _ _ rfl (by simp [decodeFields, decTask]; rfl)) (ofFields _ _ rfl (by simp [decodeFields, decTask]; rfl)) (ofFields _ _ rfl (by simp [decodeFields, decTask]; rfl)) (ofFields _ _ rfl (by simp [decodeFields, decTask]; rfl)) (ofFields _ _ rfl (by simp [decodeFields, decTask]; rfl)) (ofFields _ _ rfl (by simp [decodeFields, decTask]; rfl))
theorem tend : Statement .tend := ofFields _ _ rfl rfl
theorem yield : Statement .yield := ofFields _ _ rfl rfl
theorem cmt : Statement .cmt := ofFields _ _ rfl rfl
theorem gsyncRow : Statement .gsyncRow := ofFields _ _ rfl rfl
theorem gsyncCl : Statement .gsyncCl := ofFields _ _ rfl rfl
theorem brk : Statement .brk := ofFields _ _ rfl rfl
theorem trap (n : BitVec 5) : Statement (.trap n) := ofFields _ _ rfl rfl
theorem getst (d : Reg) (n : BitVec 5) : Statement (.getst d n) := ofFields _ _ rfl rfl
theorem tgctl (a : Reg) (b : Reg) : Statement (.tgctl a b) := ofFields _ _ rfl rfl
theorem slp (t : Reg) : Statement (.slp t) := ofFields _ _ rfl rfl
theorem rpt (c : BitVec 6) (l : BitVec 4) (s : RptStride) : Statement (.rpt c l s) :=
  ofFields _ _ rfl (by
    show Except.ok (Instr.rpt ((immI (fieldsI (c ++ (l ++ s.code)) 0 6 0 0x2B)).extractLsb' 6 6) _ _) = _
    rw [immI_fieldsI, rpt_count, rpt_len, rpt_stride]; cases s <;> rfl)
theorem rpart (d : Reg) (b : Reg) : Statement (.rpart d b) := ofFields _ _ rfl rfl
theorem rpst (d : Reg) (h : Reg) : Statement (.rpst d h) := ofFields _ _ rfl rfl
theorem vadd (t : ElemType) (m : BitVec 3) (d : Reg) (a : Reg) (b : Reg) : Statement (.vadd t m d a b) :=
  ofFields _ _ rfl (by rw [vec_int]; simp only [decVInt]; rw [vec_m, vec_o]; cases t <;> rfl)
theorem vsub (t : ElemType) (m : BitVec 3) (d : Reg) (a : Reg) (b : Reg) : Statement (.vsub t m d a b) :=
  ofFields _ _ rfl (by rw [vec_int]; simp only [decVInt]; rw [vec_m, vec_o]; cases t <;> rfl)
theorem vmul (t : ElemType) (m : BitVec 3) (d : Reg) (a : Reg) (b : Reg) : Statement (.vmul t m d a b) :=
  ofFields _ _ rfl (by rw [vec_int]; simp only [decVInt]; rw [vec_m, vec_o]; cases t <;> rfl)
theorem vmin (t : ElemType) (m : BitVec 3) (d : Reg) (a : Reg) (b : Reg) : Statement (.vmin t m d a b) :=
  ofFields _ _ rfl (by rw [vec_int]; simp only [decVInt]; rw [vec_m, vec_o]; cases t <;> rfl)
theorem vmax (t : ElemType) (m : BitVec 3) (d : Reg) (a : Reg) (b : Reg) : Statement (.vmax t m d a b) :=
  ofFields _ _ rfl (by rw [vec_int]; simp only [decVInt]; rw [vec_m, vec_o]; cases t <;> rfl)
theorem vminu (t : ElemType) (m : BitVec 3) (d : Reg) (a : Reg) (b : Reg) : Statement (.vminu t m d a b) :=
  ofFields _ _ rfl (by rw [vec_int]; simp only [decVInt]; rw [vec_m, vec_o]; cases t <;> rfl)
theorem vmaxu (t : ElemType) (m : BitVec 3) (d : Reg) (a : Reg) (b : Reg) : Statement (.vmaxu t m d a b) :=
  ofFields _ _ rfl (by rw [vec_int]; simp only [decVInt]; rw [vec_m, vec_o]; cases t <;> rfl)
theorem vand (t : ElemType) (m : BitVec 3) (d : Reg) (a : Reg) (b : Reg) : Statement (.vand t m d a b) :=
  ofFields _ _ rfl (by rw [vec_int]; simp only [decVInt]; rw [vec_m, vec_o]; cases t <;> rfl)
theorem vor (t : ElemType) (m : BitVec 3) (d : Reg) (a : Reg) (b : Reg) : Statement (.vor t m d a b) :=
  ofFields _ _ rfl (by rw [vec_int]; simp only [decVInt]; rw [vec_m, vec_o]; cases t <;> rfl)
theorem vxor (t : ElemType) (m : BitVec 3) (d : Reg) (a : Reg) (b : Reg) : Statement (.vxor t m d a b) :=
  ofFields _ _ rfl (by rw [vec_int]; simp only [decVInt]; rw [vec_m, vec_o]; cases t <;> rfl)
theorem vsll (t : ElemType) (m : BitVec 3) (d : Reg) (a : Reg) (b : Reg) : Statement (.vsll t m d a b) :=
  ofFields _ _ rfl (by rw [vec_int]; simp only [decVInt]; rw [vec_m, vec_o]; cases t <;> rfl)
theorem vsrl (t : ElemType) (m : BitVec 3) (d : Reg) (a : Reg) (b : Reg) : Statement (.vsrl t m d a b) :=
  ofFields _ _ rfl (by rw [vec_int]; simp only [decVInt]; rw [vec_m, vec_o]; cases t <;> rfl)
theorem vsra (t : ElemType) (m : BitVec 3) (d : Reg) (a : Reg) (b : Reg) : Statement (.vsra t m d a b) :=
  ofFields _ _ rfl (by rw [vec_int]; simp only [decVInt]; rw [vec_m, vec_o]; cases t <;> rfl)
theorem vfadd (y : FFmt) (z : Bool) (u : Bool) (k : Bool) (d : Reg) (a : Reg) (b : Reg) : Statement (.vfadd y z u k d a b) := by
  intro f h; cases h; exact (vec_fp ..).trans (by cases z <;> cases u <;> cases k <;> rfl)
theorem vfsub (y : FFmt) (z : Bool) (u : Bool) (k : Bool) (d : Reg) (a : Reg) (b : Reg) : Statement (.vfsub y z u k d a b) := by
  intro f h; cases h; exact (vec_fp ..).trans (by cases z <;> cases u <;> cases k <;> rfl)
theorem vfmul (y : FFmt) (z : Bool) (u : Bool) (k : Bool) (d : Reg) (a : Reg) (b : Reg) : Statement (.vfmul y z u k d a b) := by
  intro f h; cases h; exact (vec_fp ..).trans (by cases z <;> cases u <;> cases k <;> rfl)
theorem vfma (y : FFmt) (z : Bool) (u : Bool) (k : Bool) (d : Reg) (a : Reg) (b : Reg) : Statement (.vfma y z u k d a b) := by
  intro f h; cases h; exact (vec_fp ..).trans (by cases z <;> cases u <;> cases k <;> rfl)
theorem vfmin (y : FFmt) (z : Bool) (u : Bool) (k : Bool) (d : Reg) (a : Reg) (b : Reg) : Statement (.vfmin y z u k d a b) := by
  intro f h; cases h; exact (vec_fp ..).trans (by cases z <;> cases u <;> cases k <;> rfl)
theorem vfmax (y : FFmt) (z : Bool) (u : Bool) (k : Bool) (d : Reg) (a : Reg) (b : Reg) : Statement (.vfmax y z u k d a b) := by
  intro f h; cases h; exact (vec_fp ..).trans (by cases z <;> cases u <;> cases k <;> rfl)
theorem vfdiv (y : FFmt) (z : Bool) (u : Bool) (k : Bool) (d : Reg) (a : Reg) (b : Reg) : Statement (.vfdiv y z u k d a b) := by
  intro f h; cases h; exact (vec_fp ..).trans (by cases z <;> cases u <;> cases k <;> rfl)
theorem vfsqrt (y : FFmt) (z : Bool) (u : Bool) (k : Bool) (d : Reg) (a : Reg) : Statement (.vfsqrt y z u k d a) := by
  intro f h; cases h; exact (vec_fp ..).trans (by cases z <;> cases u <;> cases k <;> rfl)
theorem vfcmp (c : FCmpOp) (y : FFmt) (z : Bool) (u : Bool) (k : Bool) (d : Reg) (a : Reg) (b : Reg) : Statement (.vfcmp c y z u k d a b) := by
  intro f h; cases h; cases c <;> exact (vec_fp ..).trans (by cases z <;> cases u <;> cases k <;> rfl)
theorem vld (d : Reg) (a : Reg) : Statement (.vld d a) := by
  exact ofFields _ _ rfl (by simp [decodeFields, decVec, decVSpec, onlyIf])
theorem vst (v : Reg) (a : Reg) : Statement (.vst v a) := by
  exact ofFields _ _ rfl (by simp [decodeFields, decVec, decVSpec, onlyIf])
theorem vldx (d : Reg) (b : Reg) (i : Reg) : Statement (.vldx d b i) := by
  exact ofFields _ _ rfl (by simp [decodeFields, decVec, decVSpec, onlyIf])
theorem vstx (v : Reg) (b : Reg) (i : Reg) : Statement (.vstx v b i) := by
  exact ofFields _ _ rfl (by simp [decodeFields, decVec, decVSpec, onlyIf])
theorem vperm (d : Reg) (s : Reg) (i : Reg) : Statement (.vperm d s i) := by
  exact ofFields _ _ rfl (by simp [decodeFields, decVec, decVSpec, onlyIf])
theorem vbcast (d : Reg) (s : Reg) (w : BitVec 5) : Statement (.vbcast d s w) := by
  exact ofFields _ _ rfl (by simp [decodeFields, decVec, decVSpec, onlyIf])
theorem vmvVg (d : Reg) (s : Reg) (n : BitVec 5) : Statement (.vmvVg d s n) := by
  exact ofFields _ _ rfl (by simp [decodeFields, decVec, decVSpec, onlyIf])
theorem vmvGv (d : Reg) (s : Reg) (n : BitVec 5) : Statement (.vmvGv d s n) := by
  exact ofFields _ _ rfl (by simp [decodeFields, decVec, decVSpec, onlyIf])
theorem vsel (d : Reg) (a : Reg) (b : Reg) : Statement (.vsel d a b) := by
  exact ofFields _ _ rfl (by simp [decodeFields, decVec, decVSpec, onlyIf])
theorem vcmp (c : VCmpOp) (t : ElemType) (m : Reg) (a : Reg) (b : Reg) : Statement (.vcmp c t m a b) := by
  cases c <;> cases t <;> exact ofFields _ _ rfl (by simp [decodeFields, decVec, decVSpec, onlyIf]; rfl)
theorem vred (o : RedOp) (t : ElemType) (d : Reg) (a : Reg) : Statement (.vred o t d a) := by
  cases o <;> cases t <;> exact ofFields _ _ rfl (by simp [decodeFields, decVec, decVSpec, onlyIf]; rfl)
theorem vfcvt (d : Reg) (a : Reg) (c : BitVec 5) : Statement (.vfcvt d a c) := by
  exact ofFields _ _ rfl (by simp [decodeFields, decVec, decVSpec, onlyIf])
theorem vfredAddF32 (d : Reg) (a : Reg) : Statement (.vfredAddF32 d a) := by
  exact ofFields _ _ rfl (by simp [decodeFields, decVec, decVSpec, onlyIf])
theorem vfredAddBf16 (d : Reg) (a : Reg) : Statement (.vfredAddBf16 d a) := by
  exact ofFields _ _ rfl (by simp [decodeFields, decVec, decVSpec, onlyIf])
theorem vfredMaxF32 (d : Reg) (a : Reg) : Statement (.vfredMaxF32 d a) := by
  exact ofFields _ _ rfl (by simp [decodeFields, decVec, decVSpec, onlyIf])
theorem vfredMinF32 (d : Reg) (a : Reg) : Statement (.vfredMinF32 d a) := by
  exact ofFields _ _ rfl (by simp [decodeFields, decVec, decVSpec, onlyIf])
theorem mand (d : Reg) (a : Reg) (b : Reg) : Statement (.mand d a b) := by
  exact ofFields _ _ rfl (by simp [decodeFields, decVec, decVSpec, onlyIf])
theorem mor (d : Reg) (a : Reg) (b : Reg) : Statement (.mor d a b) := by
  exact ofFields _ _ rfl (by simp [decodeFields, decVec, decVSpec, onlyIf])
theorem mxor (d : Reg) (a : Reg) (b : Reg) : Statement (.mxor d a b) := by
  exact ofFields _ _ rfl (by simp [decodeFields, decVec, decVSpec, onlyIf])
theorem mnot (d : Reg) (a : Reg) : Statement (.mnot d a) := by
  exact ofFields _ _ rfl (by simp [decodeFields, decVec, decVSpec, onlyIf])
theorem mpop (d : Reg) (a : Reg) : Statement (.mpop d a) := by
  exact ofFields _ _ rfl (by simp [decodeFields, decVec, decVSpec, onlyIf])
theorem mfirst (d : Reg) (a : Reg) : Statement (.mfirst d a) := by
  exact ofFields _ _ rfl (by simp [decodeFields, decVec, decVSpec, onlyIf])
theorem sfckey (d : Reg) (a : Reg) (k : BitVec 5) : Statement (.sfckey d a k) := by
  exact ofFields _ _ rfl (by simp [decodeFields, decVec, decVSpec, onlyIf])
theorem mldA (k : BitVec 5) (b : Reg) (i : Reg) : Statement (.mldA k b i) := ofFields _ _ rfl (by simp [decodeFields, decXe, onlyIf])
theorem mldB (k : BitVec 5) (b : Reg) (s : Reg) : Statement (.mldB k b s) := ofFields _ _ rfl (by simp [decodeFields, decXe, onlyIf])
theorem mst (t : Reg) (a : Reg) (s : Reg) : Statement (.mst t a s) := ofFields _ _ rfl (by simp [decodeFields, decXe, onlyIf])
theorem mzero (t : Reg) : Statement (.mzero t) := ofFields _ _ rfl (by simp [decodeFields, decXe, onlyIf])
theorem mma (t : BitVec 2) (z : Bool) (u : Bool) (f : BitVec 5) (k : Reg) : Statement (.mma t z u f k) := by
  revert t; cases z <;> cases u <;> exact bits2 _ (ofFields _ _ rfl (by simp [decodeFields, decXe]; rfl)) (ofFields _ _ rfl (by simp [decodeFields, decXe]; rfl)) (ofFields _ _ rfl (by simp [decodeFields, decXe]; rfl)) (ofFields _ _ rfl (by simp [decodeFields, decXe]; rfl))
theorem cpy (q : Bool) (r : Bool) (c : Scope) (y : CopyKind) (n : Reg) (s : Reg) (e : Reg) : Statement (.cpy q r c y n s e) := by
  cases q <;> cases r <;> cases c <;> cases y <;> exact ofFields _ _ rfl (by simp [decodeFields, decXe]; rfl)
theorem cpst (d : Reg) (t : Reg) : Statement (.cpst d t) := ofFields _ _ rfl (by simp [decodeFields, decXe, onlyIf])
theorem laccClr (a : Reg) : Statement (.laccClr a) := ofFields _ _ rfl (by simp [decodeFields, decXe, onlyIf])
theorem laccAdd (a : Reg) (b : Reg) : Statement (.laccAdd a b) := ofFields _ _ rfl (by simp [decodeFields, decXe, onlyIf])
theorem laccAddp (d : Reg) (a : Reg) (b : Reg) : Statement (.laccAddp d a b) := ofFields _ _ rfl (by simp [decodeFields, decXe, onlyIf])
theorem laccMrg (a : Reg) (b : Reg) : Statement (.laccMrg a b) := ofFields _ _ rfl (by simp [decodeFields, decXe, onlyIf])
theorem laccRdF32 (d : Reg) (a : Reg) : Statement (.laccRdF32 d a) := ofFields _ _ rfl (by simp [decodeFields, decXe, onlyIf])
theorem laccRdF64 (d : Reg) (a : Reg) : Statement (.laccRdF64 d a) := ofFields _ _ rfl (by simp [decodeFields, decXe, onlyIf])
theorem nalloc (d : Reg) (t : Reg) : Statement (.nalloc d t) := ofFields _ _ rfl (by simp [decodeFields, decXe, onlyIf])
theorem nfree (n : Reg) : Statement (.nfree n) := ofFields _ _ rfl (by simp [decodeFields, decXe, onlyIf])
theorem nlink (a : Reg) (b : Reg) : Statement (.nlink a b) := ofFields _ _ rfl (by simp [decodeFields, decXe, onlyIf])
theorem npush (a : Reg) (b : Reg) : Statement (.npush a b) := ofFields _ _ rfl (by simp [decodeFields, decXe, onlyIf])
theorem nrd (d : Reg) (p : Reg) : Statement (.nrd d p) := ofFields _ _ rfl (by simp [decodeFields, decXe, onlyIf])
theorem nrset (k : Reg) (e : Reg) : Statement (.nrset k e) := ofFields _ _ rfl (by simp [decodeFields, decXe, onlyIf])
theorem chunkInstructionLimit : Statement .chunkInstructionLimit := noWord _ rfl
theorem chunkCommit : Statement .chunkCommit := noWord _ rfl
theorem serialTokenGrant (scope : TokenScope) : Statement (.serialTokenGrant scope) := noWord _ rfl
theorem bagReload (core : Nat) : Statement (.bagReload core) := noWord _ rfl
theorem dispatch (core : Nat) (slot : Nat) : Statement (.dispatch core slot) := noWord _ rfl
theorem bagPop (core : Nat) : Statement (.bagPop core) := noWord _ rfl
theorem steal (core : Nat) : Statement (.steal core) := noWord _ rfl
theorem placementLoop (cluster : Nat) (occ : Nat) : Statement (.placementLoop cluster occ) := noWord _ rfl
theorem gangReserve (cluster : Nat) : Statement (.gangReserve cluster) := noWord _ rfl
theorem gangSlotHold (cluster : Nat) : Statement (.gangSlotHold cluster) := noWord _ rfl
theorem gsyncPass (core : Nat) (slot : Nat) : Statement (.gsyncPass core slot) := noWord _ rfl
theorem waitLatch (core : Nat) (slot : Nat) (ws : Nat) : Statement (.waitLatch core slot ws) := noWord _ rfl
theorem waitReturn (core : Nat) (slot : Nat) : Statement (.waitReturn core slot) := noWord _ rfl
theorem waitTimeout (core : Nat) (slot : Nat) : Statement (.waitTimeout core slot) := noWord _ rfl
theorem slpWake (core : Nat) (slot : Nat) : Statement (.slpWake core slot) := noWord _ rfl
theorem copyComplete (core : Nat) (how : CopyStep) : Statement (.copyComplete core how) := noWord _ rfl
theorem engineWatchdog (eng : EngineId) (tenant : Nat) : Statement (.engineWatchdog eng tenant) := noWord _ rfl
theorem mmaArrayStart (row : Nat) : Statement (.mmaArrayStart row) := noWord _ rfl
theorem mmaArrayComplete (row : Nat) : Statement (.mmaArrayComplete row) := noWord _ rfl
theorem cribRefill (core : Nat) (tenant : Nat) (pool : Nat) : Statement (.cribRefill core tenant pool) := noWord _ rfl
theorem icinvComplete (core : Nat) (slot : Nat) : Statement (.icinvComplete core slot) := noWord _ rfl
theorem icacheFill : Statement .icacheFill := noWord _ rfl
theorem scrubClearComplete (granule : Nat) : Statement (.scrubClearComplete granule) := noWord _ rfl
theorem storeAck (core : Nat) (tenant : Nat) (cls : WaitClass) : Statement (.storeAck core tenant cls) := noWord _ rfl
theorem launchCompletion (ti : Nat) (number : Nat) : Statement (.launchCompletion ti number) := noWord _ rfl
theorem messageArrival (m : MsgSource) : Statement (.messageArrival m) := noWord _ rfl
theorem messageResend (src : Nat) (dst : Nat) : Statement (.messageResend src dst) := noWord _ rfl
theorem repartitionComplete (seq : Nat) : Statement (.repartitionComplete seq) := noWord _ rfl
theorem gleaner (f : Flit) : Statement (.gleaner f) := noWord _ rfl
theorem preemptRequest (t : Nat) (src : PreemptSrc) : Statement (.preemptRequest t src) := noWord _ rfl
theorem preemptRelease (t : Nat) (src : PreemptSrc) : Statement (.preemptRelease t src) := noWord _ rfl
theorem preemptHaltComplete (t : Nat) (src : PreemptSrc) : Statement (.preemptHaltComplete t src) := noWord _ rfl
theorem hmapWrite (core : Nat) (slot : Nat) (n : Nat) (hi : Bool) (v : Word) : Statement (.hmapWrite core slot n hi v) := noWord _ rfl
theorem unscrubbedMark (core : Nat) (slot : Nat) (granule : Nat) : Statement (.unscrubbedMark core slot granule) := noWord _ rfl
theorem weight (t : Nat) (v : Byte) : Statement (.weight t v) := noWord _ rfl
theorem controlSpaceWrite (core : Nat) (slot : Nat) (off : Nat) (v : Word) : Statement (.controlSpaceWrite core slot off v) := noWord _ rfl
theorem load (f : Flit) : Statement (.load f) := noWord _ rfl
theorem store (f : Flit) : Statement (.store f) := noWord _ rfl
theorem atomic (f : Flit) : Statement (.atomic f) := noWord _ rfl
theorem tagRead (f : Flit) : Statement (.tagRead f) := noWord _ rfl
theorem tagWrite (f : Flit) : Statement (.tagWrite f) := noWord _ rfl
theorem launch (f : Flit) : Statement (.launch f) := noWord _ rfl
theorem admission : Statement .admission := noWord _ rfl
theorem cancel (f : Flit) : Statement (.cancel f) := noWord _ rfl
theorem reply (f : Flit) : Statement (.reply f) := noWord _ rfl
theorem nackWaitRetry (core : Nat) (reqid : Nat) : Statement (.nackWaitRetry core reqid) := noWord _ rfl
theorem replyTimeout (core : Nat) (reqid : Nat) : Statement (.replyTimeout core reqid) := noWord _ rfl
theorem incarnationAnnouncement (f : Flit) : Statement (.incarnationAnnouncement f) := noWord _ rfl
theorem incarnationFence (f : Flit) : Statement (.incarnationFence f) := noWord _ rfl
theorem rekeyRequest (port : Nat) : Statement (.rekeyRequest port) := noWord _ rfl
theorem getVersion (m : SpdmMsg) : Statement (.getVersion m) := noWord _ rfl
theorem getCapabilities (m : SpdmMsg) : Statement (.getCapabilities m) := noWord _ rfl
theorem negotiateAlgorithms (m : SpdmMsg) : Statement (.negotiateAlgorithms m) := noWord _ rfl
theorem getDigests (m : SpdmMsg) : Statement (.getDigests m) := noWord _ rfl
theorem getCertificate (m : SpdmMsg) : Statement (.getCertificate m) := noWord _ rfl
theorem challenge (m : SpdmMsg) : Statement (.challenge m) := noWord _ rfl
theorem getMeasurements (m : SpdmMsg) : Statement (.getMeasurements m) := noWord _ rfl
theorem keyExchange (m : SpdmMsg) : Statement (.keyExchange m) := noWord _ rfl
theorem finish (m : SpdmMsg) : Statement (.finish m) := noWord _ rfl
theorem keyUpdate (m : SpdmMsg) (port : Nat) : Statement (.keyUpdate m port) := noWord _ rfl
theorem heartbeat (m : SpdmMsg) : Statement (.heartbeat m) := noWord _ rfl
theorem endSession (m : SpdmMsg) : Statement (.endSession m) := noWord _ rfl
theorem spdmUnsupportedRequest (m : SpdmMsg) : Statement (.spdmUnsupportedRequest m) := noWord _ rfl
theorem getTdispVersion (t : Nat) : Statement (.getTdispVersion t) := noWord _ rfl
theorem getTdispCapabilities (t : Nat) : Statement (.getTdispCapabilities t) := noWord _ rfl
theorem lockInterfaceRequest (t : Nat) : Statement (.lockInterfaceRequest t) := noWord _ rfl
theorem getDeviceInterfaceReport (t : Nat) : Statement (.getDeviceInterfaceReport t) := noWord _ rfl
theorem getDeviceInterfaceState (t : Nat) : Statement (.getDeviceInterfaceState t) := noWord _ rfl
theorem startInterfaceRequest (t : Nat) : Statement (.startInterfaceRequest t) := noWord _ rfl
theorem stopInterfaceRequest (t : Nat) : Statement (.stopInterfaceRequest t) := noWord _ rfl
theorem tdispUnsupportedRequest (t : Nat) : Statement (.tdispUnsupportedRequest t) := noWord _ rfl
theorem setTiConfig (c : TiConfig) : Statement (.setTiConfig c) := noWord _ rfl
theorem compactTimeout : Statement .compactTimeout := noWord _ rfl
theorem cryptoSha384 : Statement .cryptoSha384 := noWord _ rfl
theorem cryptoEcdsaVerify : Statement .cryptoEcdsaVerify := noWord _ rfl
theorem cryptoEcdsaSign (slot : Nat) : Statement (.cryptoEcdsaSign slot) := noWord _ rfl
theorem cryptoExtend (index : Nat) : Statement (.cryptoExtend index) := noWord _ rfl
theorem cryptoAesGcm (slot : Nat) : Statement (.cryptoAesGcm slot) := noWord _ rfl
theorem cryptoAesXts (slot : Nat) : Statement (.cryptoAesXts slot) := noWord _ rfl
theorem cryptoRandom : Statement .cryptoRandom := noWord _ rfl
theorem cryptoInvalidOp (op : BitVec 4) : Statement (.cryptoInvalidOp op) := noWord _ rfl
theorem cryptoCommandDone : Statement .cryptoCommandDone := noWord _ rfl
theorem txctl (v : Word) : Statement (.txctl v) := noWord _ rfl
theorem mailboxRequestArrival (bytes : List Byte) : Statement (.mailboxRequestArrival bytes) := noWord _ rfl
theorem mctpMessage (ty : Nat) (bytes : List Byte) : Statement (.mctpMessage ty bytes) := noWord _ rfl
theorem powerOnReset : Statement .powerOnReset := noWord _ rfl
theorem droopClockStretch (cluster : Nat) : Statement (.droopClockStretch cluster) := noWord _ rfl
theorem junctionStretch : Statement .junctionStretch := noWord _ rfl
theorem junctionShutdown : Statement .junctionShutdown := noWord _ rfl
theorem siloFlush : Statement .siloFlush := noWord _ rfl
theorem illegalEncoding : Statement .illegalEncoding := noWord _ rfl
theorem serviceWindowRefusal : Statement .serviceWindowRefusal := noWord _ rfl
theorem managementCoreAccessFault (addr : Nat) : Statement (.managementCoreAccessFault addr) := noWord _ rfl
theorem uncorrectableMemoryError (addr : Nat) : Statement (.uncorrectableMemoryError addr) := noWord _ rfl
theorem powerLoss : Statement .powerLoss := noWord _ rfl
theorem orderlyShutdown : Statement .orderlyShutdown := noWord _ rfl
theorem linkBringUp (port : Nat) (txDir : Nat) (rxDir : Nat) : Statement (.linkBringUp port txDir rxDir) := noWord _ rfl
theorem spdmSessionLoss (t : Nat) : Statement (.spdmSessionLoss t) := noWord _ rfl

end Sys2Proof.Laws.RoundTrip

theorem Sys2Proof.Laws.RoundTrip.seal (h : Sys2Proof.Reg) (b : Sys2Proof.Reg) (l : Sys2Proof.Reg) : Sys2Proof.Laws.RoundTrip.Statement (Sys2Proof.Instr.seal h b l) := Sys2Proof.Laws.RoundTrip.ofFields _ _ rfl rfl
theorem Sys2Proof.Laws.RoundTrip.unseal (h : Sys2Proof.Reg) : Sys2Proof.Laws.RoundTrip.Statement (Sys2Proof.Instr.unseal h) := Sys2Proof.Laws.RoundTrip.ofFields _ _ rfl rfl
end

