-- ==== Sys2Proof/Tests/Slice0.lean ====
section
/-! SUPPORT. Tests: words of the manual and what they decode to, terms that are no instructions, single instructions by
hand, and for every statement a state that meets its hypotheses. -/

namespace Sys2Proof.Tests

open Sys2Proof Sys2Proof.Machine

set_option Elab.async false

/-! ### States the tests start from -/

/-- Word 0 of a home-map entry of 64 KiB that core 0 homes. -/
def entry0 (base owner kind : Nat) : Word :=
  BitVec.ofNat 64 (2 ^ 63 + kind * 2 ^ 61 + owner * 2 ^ 50 + 16 * 2 ^ 45 + base / 0x10000)

/-- Registers with the listed values. -/
def regs (vs : List (Nat × Nat)) : Vector Word 32 :=
  Vector.ofFn fun i => BitVec.ofNat 64 (((vs.find? fun v => v.1 == i.val).map (·.2)).getD 0)

/-- A task of tenant 0 in slot 0 of core 0. -/
def task0 (c : Ctx) : Task :=
  { Task.vacant 0 with
    key := 1, kind := .spawn, status := .resident 0, started := true, ctx := c, chunk := Chunk.begin c 0 false }

/-- A running module: tenant 0 owns 64 KiB at 0x10000 (HMAP[5]), and its task has the listed registers. -/
def mod0 (vs : List (Nat × Nat)) : State :=
  let c := { Ctx.initial with pc := 0x10000, g := regs vs }
  { State.reset with
    ctl := [(hmapOff 5 false, entry0 0x10000 0 0)]
    mgmt := { Mgmt.initial with stage := 4, romExit := true }
    cur := task0 c, nextKey := 2, time := 100 }

/-- The same with more control-space words. -/
def mod1 (vs : List (Nat × Nat)) (ws : List (Nat × Word)) : State := { mod0 vs with ctl := (mod0 vs).ctl ++ ws }

/-- Change the executing task. -/
def withCur (s : State) (f : Task → Task) : State := { s with cur := f s.cur }

/-- The same with its chunk under way. -/
def inChunk (s : State) : State := withCur s fun t => { t with chunk := { t.chunk with instrs := 1 } }

/-- The state an instruction answers. -/
def after (i : Instr) (s : State) : State :=
  match exec i s with
  | .next t => t
  | _ => s

/-- What entering lines leaves. -/
def entered (t : Touch) (s : State) : State :=
  match t with
  | .entered u => u
  | _ => s
def isEntered (t : Touch) : Bool :=
  match t with
  | .entered _ => true
  | _ => false
theorem entered_eq {t : Touch} {s : State} (h : isEntered t = true) : t = .entered (entered t s) := by
  cases t <;> simp_all [isEntered, entered]

/-! ### Hypotheses that can be met -/

theorem test_hyp_RegisterArithmetic : Ready (mod0 []) [10, 29] [29] ∧ destRoom (mod0 []).cur 29 = true := by decide +kernel

theorem test_hyp_ImmediateArithmetic : Ready (mod0 []) [31] [0] ∧ Ready (mod0 []) [] [1] ∧ destRoom (mod0 []).cur 0 = true := by
  decide +kernel

theorem test_hyp_ArithmeticFrame : Ready (mod0 []) [1, 2] [29] ∧ Ready (mod0 []) [1] [29] ∧ Ready (mod0 []) [] [29] ∧
    destRoom (mod0 []).cur 29 = true := by decide +kernel

/-- A message of one word. -/
def msg1 : Msg := ⟨7, 0, 3, [42], 0, 0, 0, 0⟩

theorem test_hyp_OperandRules_message : let s := withCur (mod0 []) fun t => { t with msg := some msg1 }
    s.cur.msg = some msg1 ∧ s.cur.ctx.msgPos < msg1.words.length ∧ s.cur.ctx.sendq.length ≤ 8 := by decide +kernel

/-- Its word is still to arrive. -/
theorem test_hyp_OperandRules_arriving : let s := withCur (mod0 []) fun t => { t with msg := some { msg1 with missing := 1 } }
    ainHere s.cur < 1 ∧ 1 ≤ ainLeft s.cur ∧ answeredHold s.cur = false := by decide +kernel

/-- One register and one vector register are empty. -/
def empties : State := withCur (mod0 []) fun t => { t with ctx := { t.ctx with gFull := ~~~(2#32), vFull := ~~~(4#32) } }

theorem test_hyp_OperandRules_stall : readiness empties.cur (.g [1, 3] [2]) = .stall ∧
    readiness empties.cur (.g [28, 3] [2]) = .empty5 ∧ fullG empties.cur.ctx 1 = false ∧ fullV empties.cur.ctx 2 = false ∧
    ainLeft empties.cur < 1 := by decide +kernel

theorem test_hyp_OperandRules_room :
    let s := withCur (mod0 []) fun t => { t with ctx := { t.ctx with sendq := [1, 2, 3, 4, 5, 6, 7, 8] } }
    Ready s [1, 2] [29] ∧ 8 ≤ s.cur.ctx.sendq.length := by decide +kernel

theorem test_hyp_Repetition : ((withCur (mod0 []) fun t => { t with ctx := { t.ctx with
      rep := some ⟨0x10000, 1, 2, 8, 1, 0⟩ } }).cur.ctx.rep).isSome = true ∧ decode 0x00D60633 = .ok (.add 12 12 13) ∧
    decode 0x0010245B = .ok (.vadd .i32 0 8 0 1) := by decide +kernel

theorem test_hyp_Jumps : Ready (mod0 [(1, 0x10008)]) [1] [0] ∧ Ready (mod0 []) [] [1] ∧ destRoom (mod0 []).cur 0 = true := by
  decide +kernel

/-- The targets that the clauses tell apart, at their bounds. -/
theorem test_hyp_Jumps_targets : (0x10000#64 + BitVec.ofInt 64 (2 * 1)).toNat % 4 = 2 ∧
    (0x10000#64 + BitVec.ofInt 64 (2 * 2)).toNat % 4 = 0 ∧ pkgOf (0x10000#64 + BitVec.ofInt 64 (2 * 2)) = (mod0 []).conf.pkg ∧
    pkgOf 0x10000000000 ≠ (mod0 []).conf.pkg := by decide +kernel

/-- The trap return, to this package and to another one. -/
theorem test_hyp_Jumps_return : let s := fun (a : Nat) => withCur (mod0 [(1, a)]) fun t => { t with ctx := { t.ctx with trapMode := true } }
    Ready (s 0x10006) [1] [0] ∧ (arg1 (s 0x10006) 1).toNat % 4 = 2 ∧ pkgOf (arg1 (s 0x10006) 1 - 2) = (mod0 []).conf.pkg ∧
    (arg1 (s 0x10000000002) 1).toNat % 4 = 2 ∧ pkgOf (arg1 (s 0x10000000002) 1 - 2) ≠ (mod0 []).conf.pkg := by decide +kernel

/-- An image whose trap routine stands at byte 0x40 of its text. -/
def withTrap (vs : List (Nat × Nat)) : State := mod1 vs [(imgrecOff 0 0, 0x8000000000000040)]

theorem test_hyp_TrapEntry_fresh : bitOf (tvec (withTrap []) (withTrap []).cur) 63 = true ∧
    (withTrap []).cur.ctx.trapMode = false ∧ (withTrap []).cur.chunk.fresh = true := by decide +kernel

/-- The state a commit leaves. -/
def isDone (r : Commit) : Bool :=
  match r with
  | .done _ => true
  | _ => false

theorem test_hyp_TrapEntry_commits : (inChunk (withTrap [])).cur.chunk.fresh = false ∧
    isDone (commitNow (inChunk (withTrap []))) = true := by decide +kernel

/-- Tenant 0's save records stand at 0x11000, and a serial chunk of core 1 has read a line of the first. -/
def recorded : State := { mod1 [] [(tenantOff 0 3, 0x11000)] with
  tasks := [{ task0 Ctx.initial with key := 3, core := 1, tenant := 1, chunk := { Chunk.begin Ctx.initial 0 false with
    serial := true, rlines := [0x440] } }] }

theorem test_hyp_FatalTraps : (mod0 []).cur.slot?.isSome = true ∧ bitOf (tvec (mod0 []) (mod0 []).cur) 63 = false ∧
    (withCur (withTrap []) fun t => { t with ctx := { t.ctx with trapMode := true } }).cur.ctx.trapMode = true ∧
    Unseen recorded (0x4000000 + 8 * (2211 + 31)) ∧ Tab.get (mod0 []).silo (2211 + 1) 0 < 2 ^ 64 - 1 := by
  decide +kernel

/-- An access of the tenant's own memory passes its checks and enters its lines. -/
def inside (s : State) (a : Word) (acc : Access) (rs ws : List Nat) : Prop :=
  InChunk s (entered (touch s rs ws) s) a acc rs ws

theorem inside_of {s : State} {a : Word} {acc : Access} {rs ws : List Nat} (h : s.cur.hold = none ∧ isLocal s a = true ∧
    checkAccess s s.cur.tenant s.cur.trusted a acc = none ∧ regionBusy s (localOf a) = false ∧ isEntered (touch s rs ws) = true) :
    inside s a acc rs ws := ⟨h.1, h.2.1, h.2.2.1, h.2.2.2.1, entered_eq h.2.2.2.2⟩

theorem test_hyp_LoadsInChunk : inside (mod0 []) 0x1FFF8 (plainAccess false 8) (loadLines (mod0 []) 0x1FFF8 8) [] :=
  inside_of (by decide +kernel)

theorem test_hyp_LoadsInChunk_rest : accessPoison (chunkPoison (entered (touch (mod0 []) (loadLines (mod0 []) 0x1FFF8 8) []) (mod0 [])))
      (localOf 0x1FFF8) 8 = false ∧ loadFull (mod0 []) (localOf 0x1FFF8) 8 = true ∧ Ready (mod0 []) [1] [2] ∧
    readiness (mod0 []).cur ⟨true, [1, 2], [3], [], []⟩ = .ready ∧ ClassDone (mod0 []) .near := by decide +kernel

theorem test_hyp_WideLoadsInChunk_lxq : inside (mod0 []) 0x1FFF0 ⟨false, 16, 16, true, true, false⟩
    (loadLines (mod0 []) 0x1FFF0 16) [] := inside_of (by decide +kernel)

theorem test_hyp_WideLoadsInChunk_vld : inside (mod0 []) 0x1FFC0 ⟨false, 64, 64, false, true, false⟩
    (loadLines (mod0 []) 0x1FFC0 64) [] := inside_of (by decide +kernel)

theorem test_hyp_WideLoadsInChunk_rest : (Instr.lxQ .pl .no false 30 1 2).WellFormed ∧ (mod0 []).late = false ∧
    readiness (mod0 []).cur ⟨false, [1, 2], [30, 31], [], []⟩ = .ready ∧ ReadyV (mod0 []) [1] [] [] [31] := by decide +kernel

theorem all_of {α : Type} {l : List α} {p : α → Prop} [DecidablePred p] (h : (l.all fun a => decide (p a)) = true) :
    ∀ a ∈ l, p a := by simpa using h

/-- The last word of the region is at g1, and V[0] is zero: eight addresses of it. -/
def lastWord : State := mod0 [(1, 0x1FFF8)]

theorem test_hyp_WideLoadsInChunk_addresses : (List.range 8).map (fun k => arg1 lastWord 1 +
    (getV lastWord.cur.ctx 0).extractLsb' (64 * k) 64) = List.replicate 8 0x1FFF8 := by decide +kernel

theorem test_hyp_WideLoadsInChunk_checks : ∀ b ∈ List.replicate 8 (0x1FFF8 : Word),
    checkAccess lastWord lastWord.cur.tenant lastWord.cur.trusted b ⟨false, 8, 8, true, true, true⟩ = none :=
  all_of (by decide +kernel)

theorem test_hyp_WideLoadsInChunk_vldx : ReadyV lastWord [1] [] [0] [2] ∧ lastWord.cur.hold = none ∧ lastWord.cur.lanes = [] ∧
    (∀ b ∈ List.replicate 8 0x1FFF8, regionBusy lastWord b = false ∧ loadFull lastWord b 8 = true) ∧
    isEntered (touch lastWord (((List.replicate 8 0x1FFF8).filter fun b => !regionSealed lastWord b).flatMap fun b =>
      accessLines lastWord b 8) []) = true := by decide +kernel

theorem test_hyp_LoadsAtHome : AtHome (mod0 []) 0x1FFF8 (plainAccess false 8) ∧ HomeFree (mod0 []) 1 0x1FFF8 8 ∧
    OrderMet (mod0 []) 3 ∧ destRoom (mod0 []).cur 3 = true ∧
    (∀ q ∈ wordsAt (canon (mod0 []) 0x1FFF8) 8, (mod0 []).mem.full q = true) := by decide +kernel

/-- The word at 0x10000 is empty. -/
def emptyWord : State := { mod0 [] with mem := ⟨[], [0x10000], [], [], []⟩ }

theorem test_hyp_LoadsAtHome_waits : AtHome emptyWord 0x10000 (plainAccess false 8) ∧ HomeFree emptyWord 1 0x10000 8 ∧
    syncPlace (placeOf emptyWord 0x10000) = true ∧ emptyWord.mem.full 0x10000 = false := by decide +kernel

theorem test_hyp_LoadsAtHome_lxq : AtHome (mod0 []) 0x1FFF0 ⟨false, 16, 16, true, true, false⟩ ∧
    HomeFree (mod0 []) 1 0x1FFF0 16 := by decide +kernel

theorem test_hyp_StoresInChunk : inside (mod0 []) 0x1FFF8 (plainAccess true 8) []
    (linesOf (placeWrite (mod0 []) 0x1FFF8 (bytesOfNat 8 0)).1 (placeWrite (mod0 []) 0x1FFF8 (bytesOfNat 8 0)).2.length) :=
  inside_of (by decide +kernel)

theorem test_hyp_StoresInChunk_rest : Ready (mod0 []) [1, 2] [] ∧ placeOf (mod0 []) 0x1FFF8 = .dram ∧
    ownScratch (mod0 []) 0x1FFF8 = false := by decide +kernel

theorem test_hyp_StoresInChunk_checks : ∀ b ∈ List.replicate 8 (0x1FFF8 : Word),
    checkAccess lastWord lastWord.cur.tenant lastWord.cur.trusted b ⟨true, 8, 8, true, true, true⟩ = none :=
  all_of (by decide +kernel)

theorem test_hyp_StoresInChunk_vstx : ReadyV lastWord [1] [] [3, 0] [] ∧
    isEntered (touch lastWord [] ((List.replicate 8 0x1FFF8).flatMap fun q => accessLines lastWord q 8)) = true := by
  decide +kernel

theorem test_hyp_StoresAtHome : let s := mod0 []
    readiness s.cur ⟨false, [3, 1, 2], [], [], []⟩ = .ready ∧ AtHome s 0x1FFF8 (plainAccess true 8) ∧ ownScratch s 0x1FFF8 = false ∧
    syncPlace (placeOf s 0x1FFF8) = true ∧ counterFull s 0 0 (storeClass s 0x1FFF8) = false ∧
    ((homeOf s (canon s 0x1FFF8)).any fun h => nearHeld s s.cur.core h) = false ∧ HomeFree s 0 0x1FFF8 8 ∧
    (∀ q ∈ wordsAt (canon s 0x1FFF8) 8, s.mem.full q = true) := by decide +kernel

theorem test_hyp_StoresAtHome_we : AtHome emptyWord 0x10000 (plainAccess true 8) ∧ HomeFree emptyWord 0 0x10000 8 ∧
    (∀ q ∈ wordsAt (canon emptyWord 0x10000) 8, emptyWord.mem.full q = false) := by decide +kernel

theorem test_hyp_Atomics : AtHome (mod0 []) 0x1FFFC ⟨true, 4, 4, true, true, false⟩ ∧ HomeFree (mod0 []) 1 0x1FFFC 4 ∧
    readiness (mod0 []).cur ⟨true, [1, 2, 3], [3], [], []⟩ = .ready ∧ destRoom (mod0 []).cur 3 = true := by decide +kernel

theorem test_hyp_Atomics_empty : AtHome emptyWord 0x10000 ⟨true, 8, 8, true, true, false⟩ ∧ HomeFree emptyWord 1 0x10000 8 ∧
    ¬∀ q ∈ wordsAt (canon emptyWord 0x10000) 8, emptyWord.mem.full q = true := by decide +kernel

theorem test_hyp_Atomics_tagr : inside (mod0 []) 0x1FFF8 ⟨false, 8, 8, true, false, false⟩ (loadLines (mod0 []) 0x1FFF8 8) [] :=
  inside_of (by decide +kernel)

theorem test_hyp_Atomics_tagw : inside (mod0 []) 0x1FFF8 ⟨true, 8, 8, true, true, false⟩ [] (linesOf (canon (mod0 []) 0x1FFF8) 8) :=
  inside_of (by decide +kernel)

theorem test_hyp_RemoteAccesses : let s := mod0 []
    AtOther s 0x10000000038 (plainAccess false 8) ∧ AtOther s 0x10000000030 ⟨false, 16, 16, true, true, false⟩ ∧
    AtOther s 0x10000000038 ⟨true, 8, 8, true, true, false⟩ ∧ AtOther s 0x10000000038 ⟨false, 8, 8, true, false, false⟩ ∧
    farCopy s 0x10000000038 8 = none ∧ requestsOut s 0 < 256 ∧ ClassDone s .far ∧ OrderMet s 2 ∧
    counterFull s 0 0 .far = false ∧ farHeld s 0 (pkgOf 0x10000000038) = false := by decide +kernel

/-- The slot of the task is held. -/
def held (h : Hold) : State := withCur (mod0 []) fun t => { t with hold := some h }

theorem test_hyp_RemoteAccesses_held : readiness (held (.answer none 0 false)).cur ⟨false, [1, 2], [3], [], []⟩ = .ready ∧
    (held (.answer (some 4) 0 false)).cur.hold = some (.answer (some 4) 0 false) ∧ (held (.reply 0)).cur.hold = some (.reply 0) := by
  decide +kernel

/-- HMAP[5] with another owner, or sealed. -/
def owned3 : State := { mod0 [] with ctl := [(hmapOff 5 false, entry0 0x10000 3 0)] }
def sealed5 : State := { mod0 [] with ctl := [(hmapOff 5 false, entry0 0x10000 0 0 ||| (1#64 <<< 60))] }

theorem test_hyp_AccessCauses : Ready (mod0 []) [1] [2] ∧ (mod0 []).cur.hold = none ∧
    checkAccess (mod0 []) 0 false 0x20000 (plainAccess false 8) = some 0x11 ∧
    checkAccess (mod0 []) 0 false 0x10001 (plainAccess false 8) = some 0x07 ∧
    checkAccess (mod0 []) 0 false 0x0100000000010000 (plainAccess false 8) = some 0x11 ∧
    checkAccess owned3 0 false 0x10000 (plainAccess false 8) = some 0x04 ∧
    checkAccess sealed5 0 false 0x10000 (plainAccess true 8) = some 0x03 ∧
    ([0x20000, 0x10001, 0x10000].all fun a : Word => isLocal (mod0 []) a && !(regionBusy (mod0 []) (localOf a))) = true ∧
    regionBusy owned3 0x10000 = false ∧ regionBusy sealed5 0x10000 = false := by decide +kernel

theorem test_hyp_AccessCauses_bounds : let s := mod0 []
    regionAt s 0xFFF8 = none ∧ (regionAt s 0x1FFF8).isSome = true ∧ bankRetired s 0x1FFFFFFFF8 = false ∧
    checkAccess s 0 true 0x2100000000 (plainAccess false 8) = none ∧ checkAccess s 0 true 0x21FFFFFFF8 (plainAccess false 8) = none ∧
    checkAccess s 0 true 0x2200000000 (plainAccess false 8) = some 0x11 ∧
    checkAccess s 0 true 0x7FFFFFFFF8 (plainAccess false 8) = some 0x11 := by decide +kernel

/-- Posted stores outstanding, and failed ones, of tenant 0 on core 0. -/
def posted (c : Counters) : State := { withTrap [] with eng := { Eng.initial with counters := [(coreTenant 0 0, c)] } }

theorem test_hyp_FencesAndRanges : (mod0 []).cur.inflight = [] ∧ (countersOf (mod0 []) 0 0).out .far = 0 ∧
    (countersOf (mod0 []) 0 0).fails .far = 0 ∧ (countersOf (posted ⟨1, 0, 0, 0, 0, 0⟩) 0 0).out .near ≠ 0 ∧
    (countersOf (posted ⟨0, 0, 0, 0, 0, 1⟩) 0 0).out .far = 0 ∧ (countersOf (posted ⟨0, 0, 0, 0, 0, 1⟩) 0 0).fails .far ≠ 0 ∧
    Alone (posted ⟨0, 0, 0, 0, 0, 1⟩) ∧ trapFatal (posted ⟨0, 0, 0, 0, 0, 1⟩) 0x13 = false ∧
    sliceStoreWaits (mod0 []) 0 0 = false := by decide +kernel

/-- A store waits in the core's own slice. -/
theorem test_hyp_FencesAndRanges_slice : let s := { mod0 [] with eng := { (mod0 []).eng with
      waiters := [⟨3, 0, false, 0x10000, .store .we (bytesOfNat 8 1), .posted 0 0 .no 1, 0⟩] } }
    sliceStoreWaits s 0 0 = true ∧ s.cur.inflight = [] ∧ (countersOf s 0 0).out .near = 0 ∧ ownStoreWaits s 1 = true := by
  decide +kernel

theorem test_hyp_FencesAndRanges_range : let s := mod0 [(1, 0x1FFFF), (2, 1)]
    Ready s [1, 2] [] ∧ arg2 s 1 2 = 1 ∧ isLocal s 0x1FFFF = true ∧ rangeCause s 0 false 0x1FFFF 1 = none ∧
    s.cur.hold = none ∧ rangeHomes s (localOf 0x1FFFF) 1 ≠ [] ∧ rangeHomes s 0x2000000000 1 = [] ∧ (countersOf s 0 0).near = 0 ∧
    (countersOf s 0 0).die = 0 ∧ (countersOf (posted ⟨1, 0, 0, 0, 0, 0⟩) 0 0).near ≠ 0 ∧ fieldNat (0x1FFFF : Word) 63 56 = 0 ∧
    (∀ h ∈ rangeHomes s 0x1FFFF 1, writebacks s h 0 = 0) ∧ s.cur.icinvs.length < 8 ∧ arg2 s 1 3 = 0 ∧
    2 ^ 32 < (arg2 (mod0 [(2, 0x100000001)]) 1 2).toNat := by decide +kernel

/-- The home of the last line counts a write-back, and the `dwb` that began it holds its slot. -/
theorem test_hyp_FencesAndRanges_writeback : let s := held .writeback
    let t := { s with eng := { s.eng with writebacks := (rangeHomes s 0x1FFFF 1).map fun h => (coreTenant h 0, 1) } }
    s.cur.hold = some .writeback ∧ (∀ h ∈ rangeHomes s 0x1FFFF 1, writebacks s h 0 = 0) ∧
    (∃ h ∈ rangeHomes t 0x1FFFF 1, writebacks t h 0 ≠ 0) := by decide +kernel

/-- One `icinv` not completed. -/
def invalidating : State := withCur (mod0 []) fun t => { t with icinvs := [(0, 0x400, 0x400)] }

theorem test_hyp_FencesAndRanges_icinv : invalidating.cur.icinvs ≠ [] ∧
    ((allTasks invalidating).find? fun u => u.core == 0 && u.icinvs.any fun r => r.1 == 0).map (fun t => t.icinvs) =
      some [(0, 0x400, 0x400)] := by decide +kernel

theorem test_hyp_BranchesAndBounds : Ready (mod0 []) [1, 2] [] ∧ Ready (mod0 []) [1, 2, 3] [] ∧
    (let s := mod0 [(1, 5), (2, 5), (3, 6)]; (arg1 s 2).toNat ≤ (arg3 s 2 3 1).toNat ∧ (arg3 s 2 3 1).toNat < (arg2 s 2 3).toNat) ∧
    (let s := mod0 [(1, 6), (2, 5), (3, 6)]; ¬(arg3 s 2 3 1).toNat < (arg2 s 2 3).toNat) := by decide +kernel

theorem test_hyp_Seals : let s := mod0 [(1, 0x10000), (2, 0x10000)]
    Alone s ∧ Ready s [1, 2] [3] ∧ destRoom s.cur 3 = true ∧
    (exactRegion s (arg1 s 1) (fieldNat (arg2 s 1 2) 39 0)).map (fun e => (e.n, e.owner, e.sealed)) = some (5, 0, false) ∧
    (exactRegion sealed5 0x10000 0x10000).map (fun e => e.sealed) = some true ∧
    fieldNat (arg2 s 1 2) 63 42 = 0 ∧ fieldNat (arg2 s 1 2) 41 40 = 0 := by decide +kernel

/-- HMAP[5] sealed by tenant 0 with GEN 15, and the handle of that seal in g1. -/
def liveSeal : State := mod1 [(1, 0xF005)] [(sealOff 5, 0x8F00000000000000)]

theorem test_hyp_Seals_unseal : Alone liveSeal ∧ Ready liveSeal [1] [] ∧ fieldNat (arg1 liveSeal 1) 63 16 = 0 ∧
    bitOf (ctlGet liveSeal (sealOff 5)) 63 = true ∧ fieldNat (ctlGet liveSeal (sealOff 5)) 59 56 = fieldNat (arg1 liveSeal 1) 15 12 ∧
    fieldNat (ctlGet liveSeal (sealOff 5)) 61 60 = 0 ∧ fieldNat (ctlGet liveSeal (sealOff 5)) 55 50 = 0 := by decide +kernel

/-- A chunk that holds a store to the region's last bytes. -/
def storing : State := withCur (mod0 []) fun t => { t with chunk := { t.chunk with
  instrs := 1, log := [.store 0x1FFFE [1, 2]], wlines := [0x7FF] } }

theorem test_hyp_Commits : storing.mem.wf = true ∧ Quiet storing ∧ poisonBlocks storing.mem 0x1FFFE 2 = false ∧
    storing.cur.ctx.msgDone = false ∧ MayCommit { storing with cur := storing.cur.retire } ∧
    MayCommit (withCur storing fun t => { t with chunk := { t.chunk with due := true } }) := by decide +kernel

theorem test_hyp_Commits_waits : hasBaton { storing with
    cur := { storing.cur with ord := some (9, 1) },
    tasks := [{ storing.cur with key := 3, ord := some (9, 0), status := .resident 1 }] } = false ∧
    commitOpen { storing with sched := { storing.sched with order := ⟨none, some 100, none, none⟩ } } = false ∧
    commitOpen { storing with sched := { storing.sched with order := ⟨some (100, 9, 0), none, none, none⟩ } } = false ∧
    commitOpen { storing with sched := { storing.sched with order := ⟨some (99, 9, 0), some 99, none, none⟩ } } = true := by decide +kernel

/-- A chunk at its limit: of a spawned task, or the first of a rule task. -/
def atLimit (k : TaskKind) (first : Bool) : State := withCur (mod0 []) fun t => { t with
  kind := k, chunk := { t.chunk with instrs := 512, first := first } }

theorem test_hyp_ChunkLimits : 512 ≤ (atLimit .spawn true).cur.chunk.instrs ∧ (atLimit .spawn true).cur.kind ≠ .rule ∧
    (atLimit .rule false).cur.chunk.first = false ∧ (atLimit .rule true).cur.chunk.first = true ∧
    (atLimit .rule true).cur.chunk.serial = false ∧ (atLimit .rule true).cur.chunk.allocs = [] ∧
    (atLimit .rule true).cur.chunk.want = none ∧
    Unseen (atLimit .rule true) (0x4000000 + 8 * abortEntry (atLimit .rule true).cur.chunk) := by decide +kernel

/-- A task in serial mode that waits for its cluster's token. -/
def serialTask : State := withCur (mod0 []) fun t => { t with chunk := { t.chunk with serial := true, want := some (.cluster 0) } }

theorem test_hyp_ChunkLimits_token : serialTask.sched.tokens = [] ∧
    ((allTasks serialTask).any fun u => u.chunk.want == some (.cluster 0) && u.chunk.serial && awaitsToken serialTask u &&
      u.slot?.isSome && !halts serialTask u && batonAt serialTask u) = true := by decide +kernel

/-- The holder of cluster 0's token waits for that of die 0, which the cluster's token meets. -/
theorem test_hyp_ChunkLimits_wider : let t := { serialTask.cur with chunk := { serialTask.cur.chunk with want := some (.die 0) } }
    let s := { serialTask with cur := t, sched := { serialTask.sched with tokens := [(.cluster 0, 1)] } }
    scopesMeet (.cluster 0) (.die 0) = true ∧ (findTask s 1).map (fun u => u.chunk.want) = some (some (.die 0)) ∧
    awaitsToken s t = true ∧ t.slot?.isSome = true ∧
    halts s t = false ∧ batonAt s t = true := by decide +kernel

/-- A child that runs inline; its parent's destination is g5. -/
def inlinedTo (d : Reg) : State := withCur (mod0 []) fun t => { t with inline := some ⟨t.ctx, t.waits, d, 1, none⟩ }
abbrev inlined : State := inlinedTo 5

theorem test_hyp_TaskEnds : Alone (mod0 []) ∧ (mod0 []).cur.inline = none ∧ Alone inlined ∧
    inlined.cur.inline.map (fun i => i.d) = some 5 ∧ Alone (inlinedTo 29) ∧ (inlinedTo 29).cur.inline.map (fun i => i.d) = some 29 ∧ arrayPart inlined 1 = false ∧ saveRec inlined 0 0 1 = none ∧
    Quiet (mod0 []) ∧ (mod0 []).cur.deferred = [] ∧ (mod0 []).cur.icinvs = [] ∧ (mod0 []).cur.gang = none ∧ (mod0 []).cur.net = none ∧
    saveRec (mod0 []) 0 0 0 = none ∧ (mod0 []).tasks = [] := by decide +kernel

theorem test_hyp_TaskEnds_yield : isDone (commitNow { mod0 [] with cur := (mod0 []).cur.retire }) = true ∧
    queueFull (mod0 []) 0 = false ∧ isDone (commitNow { inlined with cur := inlined.cur.retire }) = true := by decide +kernel

/-- An image whose text is 256 bytes; the target in g1 and the entry in g2. -/
def spawning (target : Nat) : State := mod1 [(1, target), (2, 0xFC)] [(imgrecOff 0 1, 0x100)]

theorem test_hyp_Spawns : let s := spawning 1023
    Alone s ∧ Ready s [1, 2, 4, 10, 11, 12, 13] [3] ∧ destRoom s.cur 3 = true ∧ (arg2 s 1 2).toNat % 4 = 0 ∧
    (arg2 s 1 2).toNat < textLength s s.cur ∧ coreEnabled s (arg1 s 1).toNat = true ∧ queueFull s (arg1 s 1).toNat = false := by
  decide +kernel

theorem test_hyp_Spawns_gang : let s := spawning 63
    rowEnabled s (2 * (arg1 s 1).toNat) = true ∧ rowEnabled s (2 * (arg1 s 1).toNat + 1) = true ∧
    rowEnabled (spawning 127) 127 = true ∧ (Tab.get s.sched.gangQ 63 []).length < 32 := by decide +kernel

/-- The first member of a row gang, and of a cluster gang. -/
def inGang (cl : Bool) (h : Option Hold) (ended : Bool) : State :=
  let s := withCur (mod0 []) fun t => { t with gang := some (9, 0), hold := h }
  { s with sched := { s.sched with gangs := [⟨9, 0, cl, 0, [⟨0, 1, false, 1, 0, 0, 0⟩, ⟨1, 3, ended, 0, 0, 0, 0⟩]⟩] } }

theorem test_hyp_Barriers : Alone (mod0 []) ∧ gangOf (mod0 []) (mod0 []).cur = none ∧ Alone (inGang true none false) ∧
    (gangOf (inGang true none false) (inGang true none false).cur).map (fun g => g.1.cl) = some true ∧
    (gangOf (inGang false none false) (inGang false none false).cur).map (fun g => g.1.cl) = some false := by decide +kernel

theorem test_hyp_Barriers_pass : let s := inGang false (some (.gsync false)) true
    (taskAt s 0 0).map (fun t => t.hold) = some (some (.gsync false)) ∧
    (gangOf s s.cur).map (fun g => g.1.members.all fun x => x.ended || decide (g.2.rowAt ≤ x.rowAt)) = some true ∧
    (gangOf (inGang false none false) s.cur).map (fun g => g.1.members.all fun x => x.ended || decide (g.2.rowAt ≤ x.rowAt)) =
      some false := by decide +kernel

/-- Two words queued; the name of a core in g1. -/
def sending (n : Nat) : State := withCur (mod0 [(1, n)]) fun t => { t with ctx := { t.ctx with sendq := [1, 2] } }

theorem test_hyp_Messages : let s := sending 1023
    Ready s [1] [2] ∧ Alone s ∧ depPending s.cur = 0 ∧ (arg1 s 1).toNat < 2 ^ 26 ∧ s.cur.ctx.sendq.length < 3 ∧
    coreEnabled s ((arg1 s 1).toNat % 1024) = true ∧ msgHeld s (arg1 s 1) = false ∧
    counterFull s 0 0 .die = false ∧ counterFull s 0 0 .near = false ∧ s.cur.core / 16 ≠ 1023 / 16 ∧ s.cur.core / 16 = 15 / 16 ∧ counterFull s 0 0 .far = false ∧ destRoom s.cur 2 = true ∧
    2 ^ 26 ≤ (arg1 (sending (2 ^ 26)) 1).toNat ∧ (arg1 (sending (2 ^ 26 - 1)) 1).toNat / 1024 ≠ s.conf.pkg ∧
    msgHeld (sending (2 ^ 26 - 1)) (arg1 (sending (2 ^ 26 - 1)) 1) = false := by decide +kernel

theorem test_hyp_Messages_none : let s := { sending 8 with conf := { (sending 8).conf with rowEn := 1 } }
    coreEnabled s ((arg1 s 1).toNat % 1024) = false ∧ (arg1 s 1).toNat / 1024 = s.conf.pkg := by decide +kernel

theorem test_hyp_WaitSlots : let s := mod0 [(1, 0x1FFF8), (2, 3), (3, 4), (4, 255), (5, 256)]
    Ready s [1, 2] [] ∧ isLocal s (arg1 s 1) = true ∧ regionBusy s (localOf (arg1 s 1)) = false ∧
    checkAccess s s.cur.tenant s.cur.trusted (arg1 s 1) ⟨false, 8, 8, true, false, false⟩ = none ∧ (arg1 s 2).toNat = 3 ∧
    ¬(arg1 s 3).toNat ≤ 3 ∧ (arg1 s 4).toNat ≤ 255 ∧ ¬(arg1 s 5).toNat ≤ 255 ∧ bitOf (arg1 s 5) 63 = false ∧
    isLocal s 0x10000000038 = false ∧ checkAccess s 0 false 0x10000000038 ⟨false, 8, 8, true, false, false⟩ = none ∧ Alone s ∧
    requestsOut s 0 < 256 := by
  decide +kernel

/-- The request that arms a condition on a word of another package has been answered. -/
theorem test_hyp_WaitSlots_armed : let s := withCur (held (.answer none 0 false)) fun t => { t with lanes := [0] }
    Ready s [1, 2] [] ∧ s.cur.hold = some (.answer none 0 false) ∧ s.cur.lanes = [0] ∧ s.cur.chunk.fresh = true ∧
    s.cur.chunk.serial = false ∧ hasBaton s = true := by decide +kernel

/-- Wait slot 0 is armed on a bag; `sat` says whether it is satisfied. -/
def waiting (sat : Bool) (h : Option Hold) : State := withCur (mod0 [(1, 1)]) fun t => { t with
  hold := h, waits := t.waits.set 0 ⟨some .bag, 0, 0, false, sat, none⟩ }

theorem test_hyp_Waits : Ready (waiting true none) [1] [2] ∧ Alone (waiting true none) ∧ destRoom (waiting true none).cur 2 = true ∧
    satBits (waiting true none).cur = 1 ∧ satBits (waiting false none).cur = 0 ∧ (arg1 (waiting false none) 1).toNat ≠ 0 ∧
    (arg1 (waiting false none) 3).toNat = 0 ∧
    (taskAt (waiting false (some (.wait 1 false 2 (some 5)))) 0 0).map (fun t => t.hold) = some (some (.wait 1 false 2 (some 5))) ∧
    5 ≤ (waiting false none).time / 17 ∧ (waiting false none).time / 17 < 6 := by decide +kernel

theorem test_hyp_WaitSlots_latch : (mod0 []).cur.status = .resident 0 ∧
    (taskAt (mod0 []) (mod0 []).cur.core 0).map (fun t => t.key) = some (mod0 []).cur.key := by decide +kernel

/-- A copy command of tenant 0 on core 0, and its ticket in g1. -/
def copying (st : CopyState) (promise : Nat) : State :=
  let s := mod0 [(1, 0x8000000000000000)]
  { s with eng := { s.eng with engines := [(0, ⟨1, promise, [⟨0, 0, false, 1, 0, false, false, .core, .plain, 64, 0x10000, 0x10040, 0,
    promise, st, 0, none, 0, [], [], false, 0, none⟩]⟩)] } }

theorem test_hyp_Sleeps : let s := mod0 [(1, 100), (2, 101), (3, 0x8000000000010000), (4, 0x8000000000000007)]
    Ready s [1] [] ∧ Alone s ∧ bitOf (arg1 s 1) 63 = false ∧ (arg1 s 1).toNat ≤ s.time ∧ s.time < (arg1 s 2).toNat ∧
    bitOf (arg1 s 3) 63 = true ∧ fieldNat (arg1 s 3) 31 16 ≠ 0 ∧ ticketRec s 0 0 (arg1 s 4) = none := by decide +kernel

theorem test_hyp_Sleeps_ticket : (ticketRec (copying .complete 100) 0 0 (arg1 (copying .complete 100) 1)).map
      (fun c => (c.state, decide (promiseNow (copying .complete 100) 0 c ≤ 100))) = some (.complete, true) ∧
    (ticketRec (copying .pending 100) 0 0 (arg1 (copying .pending 100) 1)).map (fun c => c.state) = some .pending ∧
    (ticketRec (copying .pending 101) 0 0 (arg1 (copying .pending 101) 1)).map
      (fun c => decide (100 < promiseNow (copying .pending 101) 0 c)) = some true := by decide +kernel

theorem test_hyp_Sleeps_wake : (taskAt (held (.slp 100)) 0 0).map (fun t => t.hold) = some (some (.slp 100)) ∧
    (100#64).toNat ≤ (held (.slp 100)).time ∧ (held (.slp 101)).time < (101#64).toNat := by decide +kernel

theorem test_hyp_StatusAndRepetition : let s := mod1 [(1, 255), (2, 3), (3, 256), (4, 4)] [(htabOff 0 255, 0x8000000000000000)]
    Ready s [] [2] ∧ (Instr.getst 2 14).WellFormed ∧ Ready s [1, 2] [] ∧ (arg1 s 1).toNat < 256 ∧ (arg2 s 1 2).toNat < 4 ∧
    bitOf (htabWord s s.cur.tenant (arg1 s 1).toNat) 63 = true ∧ 256 ≤ (arg1 s 3).toNat ∧ 4 ≤ (arg2 s 1 4).toNat := by
  decide +kernel

/-- Three vector registers and a mask. -/
theorem test_hyp_Vectors : ReadyV (mod0 []) [] [] [1, 2] [3] ∧ ReadyV (mod0 []) [] [] [1, 2] [] ∧ ReadyV (mod0 []) [] [] [1] [3] ∧
    ReadyV (mod0 []) [] [] [3, 1, 2] [3] ∧ ReadyV (mod0 []) [1] [] [] [3] ∧ ReadyV (mod0 []) [] [3] [1] [] ∧
    (Instr.vcmp .lt .i8 7 1 2).WellFormed ∧ (Instr.vfcmp .un .f64 false false false 1 2 3).WellFormed ∧
    (Instr.vbcast 3 1 3).WellFormed ∧ (Instr.vmvVg 3 1 7).WellFormed ∧ (Instr.vmvGv 3 1 7).WellFormed := by decide +kernel

theorem test_hyp_ConversionsAndTrees : ReadyV (mod0 []) [] [] (cvtSources 30 27) [3] ∧ ReadyV (mod0 []) [] [] (cvtSources 31 15) [3] := by
  decide +kernel

theorem test_hyp_VectorMoves_masks : (Instr.mand 7 0 7).WellFormed ∧ (Instr.mnot 1 7).WellFormed ∧ (Instr.mpop 3 7).WellFormed ∧
    Ready (mod0 []) [] [3] := by decide +kernel

theorem test_hyp_VectorMoves_keys : (Instr.sfckey 3 30 2).WellFormed ∧ ReadyV (mod0 []) [] [] (sfcSources 30 2) [3] ∧
    (Instr.sfckey 3 29 3).WellFormed ∧ ReadyV (mod0 []) [] [] (sfcSources 29 3) [3] := by decide +kernel

theorem test_hyp_RoundingIsNearest : fpRound .f32 .rne false 3 (-1) = (0x3FC00000, 0) := by decide +kernel

/-- K = 32 int8 operands at 0x10000, recorded in the chunk of the first member of the row gang. -/
def opA : DescA := ⟨32, 0x10000, 0⟩
def opB : DescB := ⟨32, 0x10000, 16⟩
def multiplying : State := withCur (inGang false none false) fun t => { t with
  ctx := { t.ctx with g := regs [(1, 32), (2, 0x10000), (3, 64)] }, chunk := { t.chunk with mldA := some opA, mldB := some opB } }
/-- A member's part of the row's operation. -/
def part0 (committed : Bool) : MmaPart := ⟨1, 0, 2, false, false, 4, 32, opA, opB, committed, committed⟩

theorem test_hyp_Matrices : let s := multiplying
    ReadyV s [1] [] [2] [] ∧ Ready s [1, 2] [] ∧ Ready s [1] [] ∧ (arg1 s 1).toNat = 32 ∧ mmaOpen s s.cur.key none = false ∧
    (gangOf s s.cur).map (fun g => partsComplete (joined g.1 g.2 false) [part0 false]) = some false ∧
    partOf (arrayOf s (arrayKey 9 0)).parts s.cur.key = none ∧ operandCause s 4 opA opB = none ∧
    (gangOf s s.cur).map (fun g => memberGone (joined g.1 g.2 false) [part0 false]) = some false := by decide +kernel

/-- The other member's part has joined already: this one completes the row. -/
def lastMember : State := setArray multiplying (arrayKey 9 0) ⟨[{ part0 false with key := 3, core := 1 }], false, 0, 0⟩

theorem test_hyp_Matrices_last : let s := lastMember
    let ps := [{ part0 false with key := 3, core := 1 }, part0 false]
    (gangOf s s.cur).map (fun g => partsComplete (joined g.1 g.2 false) ps) = some true ∧ partsAgree ps = true ∧
    isDone (commitNow (let all := setArray s (arrayKey 9 0) { arrayOf s (arrayKey 9 0) with
        parts := ps.map fun p => { p with met := true } }
      { all with cur := (rebase all (read1 s 1)).retire })) = true := by decide +kernel

theorem test_hyp_Matrices_mst : let s := multiplying
    Ready s [2, 3] [] ∧ mstCause s (arg1 s 2) (arg2 s 2 3) = none ∧
    (∀ j, j < 128 → regionBusy s (localOf (arg1 s 2 + arg2 s 2 3 * BitVec.ofNat 64 j)) = false) ∧ s.cur.ctx.mstRow < 128 ∧
    rowsFit 128 (s.cur.chunk.llines.foldl (fun l a => addNew a l) s.cur.chunk.wlines) s (arg1 s 2) (arg2 s 2 3) 0 = 64 ∧
    s.cur.kind ≠ .rule ∧ isEntered (touch s [] ((List.range 64).map fun j =>
      canon s (localOf (arg1 s 2 + arg2 s 2 3 * BitVec.ofNat 64 j)) / 64)) = true := by decide +kernel

/-- The same with the last rows alone left. -/
theorem test_hyp_Matrices_mstEnd : let s := withCur multiplying fun t => { t with ctx := { t.ctx with mstRow := 64 } }
    s.cur.ctx.mstRow + rowsFit 64 [] s (arg1 s 2) (arg2 s 2 3) 64 = 128 := by decide +kernel

/-- A running operation of one part at K-block `kb`. -/
def array1 (running : Bool) (ps : List MmaPart) : State := setArray multiplying (arrayKey 9 0) ⟨ps, running, 0, 0⟩

theorem test_hyp_Matrices_start : let ps := (List.range 8).map fun k => { part0 true with key := 1 + 2 * (k % 2) }
    rowOps (array1 false ps) 0 = [(arrayKey 9 0, ⟨ps, false, 0, 0⟩)] ∧ ps.length = 8 ∧ (∀ p ∈ ps, p.committed = true) ∧
    opGone (array1 false ps) (arrayKey 9 0) ⟨ps, false, 0, 0⟩ = false := by decide +kernel

theorem test_hyp_Matrices_block : let s := array1 true [{ part0 true with k := 64 }]
    rowOps s 0 = [(arrayKey 9 0, ⟨[{ part0 true with k := 64 }], true, 0, 0⟩)] ∧ partRuns s { part0 true with k := 64 } = true ∧
    partRuns s (part0 true) = true ∧ s.mem.poison = [] ∧ (part0 true).k = 32 * (0 + 1) ∧ (part0 true).key = s.cur.key ∧
    (findTask s (part0 true).key).map (fun t => t.key) = some s.cur.key ∧ s.tasks = [] ∧ isTask s.cur = true := by decide +kernel

/-- A copy of 64 bytes inside the region. -/
theorem test_hyp_Copies : let s := mod0 [(1, 64), (2, 0x10000), (3, 0x1FFC0), (4, 0x100000001)]
    Alone s ∧ s.cur.lanes = [] ∧ Ready s [1, 2, 3] [1] ∧ Ready s [1, 3] [1] ∧
    copyJudge s .plain 64 (arg1 s 2) (arg2 s 2 3) 0 = .accept ∧ copyJudge s .zero 64 0 (arg2 s 2 3) 0 = .accept ∧
    copyJudge s .plain 64 0x10000000000 (arg2 s 2 3) 0 = .ask 0x10000000000 false ∧ requestsOut s 0 < 256 ∧ destRoom s.cur 1 = true ∧ (pendingCmds (engineOf s 0)).length < 16 ∧
    (engineOf s 0).next < 2 ^ 16 ∧ 2 ^ 32 < (arg3 s 2 3 4).toNat ∧ copyJudge s .plain 65 (arg1 s 2) (arg2 s 2 3) 0 = .refuse 0x14 (arg2 s 2 3) ∧
    isLocal s 0x10000000000 = false ∧ moveOf s 0 = none ∧
    copyJudge { s with ctl := [(hmapOff 5 false, entry0 0x10000 0 0 ||| (1#64 <<< 43))] } .plain 64 (arg1 s 2) (arg2 s 2 3) 0 =
      .busy := by
  decide +kernel

theorem test_hyp_Copies_full : let s := { mod0 [] with eng := { (mod0 []).eng with engines :=
      [(0, ⟨16, 0, List.replicate 16 ⟨0, 0, false, 1, 0, false, false, .core, .plain, 64, 0x10000, 0x10040, 0, 0, .pending, 0, none, 0,
        [], [], false, 0, none⟩⟩)] } }
    16 ≤ (pendingCmds (engineOf s 0)).length := by decide +kernel

/-- A copy under a release waits for the tenant's posted stores. -/
theorem test_hyp_Copies_release : let s := copying .pending 200
    let t := { s with eng := { s.eng with
      counters := [(coreTenant 0 0, ⟨1, 0, 0, 0, 0, 0⟩)]
      engines := s.eng.engines.map fun e => (e.1, { e.2 with cmds := e.2.cmds.map fun c => { c with r := true, heldAt := some 3 } }) } }
    (activeCmd t (engineOf t 0)).map (fun m => (m.r, m.heldAt, m.missed)) = some (true, some 3, none) ∧
    (countersOf t 0 0).near ≠ 0 ∧
    (activeCmd { s with time := 5 } { engineOf s 0 with cmds := (engineOf s 0).cmds.map fun c => { c with missed := some 5 } }).map
      (fun m => m.missed) = some (some 5) ∧
    activeCmd (mod0 []) (engineOf (mod0 []) 0) = none := by decide +kernel

theorem test_hyp_Copies_status : let s := copying .pending 200
    Ready s [1] [2] ∧ bitOf (arg1 s 1) 63 = true ∧ fieldNat (arg1 s 1) 31 16 = 0 ∧ (ticketRec s 0 0 (arg1 s 1)).isSome = true ∧
    ticketRec (mod0 []) 0 0 (arg1 s 1) = none ∧ bitOf (arg1 (mod0 []) 1) 63 = false := by decide +kernel

/-- The first beat reads a line and writes it; or the bytes of the beat stand in the buffer. -/
theorem test_hyp_Copies_beat : (activeCmd (copying .pending 200) (engineOf (copying .pending 200) 0)).map (fun m =>
      let s := copying .pending 200
      let d := mapCmd (jobRead s (localOf m.src) 64) 0 m.seq fun x => { x with buf := x.buf ++ s.mem.readBytes 0x10000 64 }
      let c := { m with buf := s.mem.readBytes 0x10000 64 }
      decide (m.done < m.len) && isLocal s (copyAt m) && !(copyStopped s m) && m.heldAt.isNone && m.missed.isNone &&
      decide (cmdNow s 0 m = m) && decide (copyAt m = 0x10040) && isLocal s m.src &&
      (checkLocal s m.tenant m.trusted (localOf m.src) ⟨false, 64, 1, true, true, false⟩).isNone &&
      !(s.mem.anyPoison (canon s (localOf m.src)) 64) && !(copyHeld s m 64) && !(copyHeld d c 64) && !(copyHeld s c 64) &&
      (checkLocal d m.tenant m.trusted (localOf (copyAt m)) ⟨true, 64, 1, true, true, false⟩).isNone &&
      !(poisonBlocks d.mem (canon d (localOf (copyAt m))) 64) && decide (64 ≤ c.buf.length)) = some true := by decide +kernel

/-- The copy has moved its last byte; or it writes to another package. -/
def copied (dst : Word) (done : Nat) : State :=
  let s := copying .pending 200
  { s with eng := { s.eng with engines := s.eng.engines.map fun e => (e.1, { e.2 with cmds := e.2.cmds.map fun c =>
    { c with dst := dst, done := done } }) } }

theorem test_hyp_Copies_finish : (activeCmd (copied 0x10040 64) (engineOf (copied 0x10040 64) 0)).map (fun m =>
      decide (m.len ≤ m.done) && m.acks == 0 && !(preempted (copied 0x10040 64) m.tenant m.trusted) && !m.r && m.missed.isNone) =
        some true ∧
    (activeCmd (copied 0x10000000040 0) (engineOf (copied 0x10000000040 0) 0)).map (fun m => isLocal (copied 0 0) m.dst) = some false := by
  decide +kernel

theorem test_hyp_Copies_watchdog : let s := { copying .pending 200 with time := 1048576 }
    (activeCmd s (engineOf s 0)).map (fun m => decide (m.since + 1048576 ≤ s.time) && m.tenant == 0 &&
      m.heldAt.isNone && !(preempted s m.tenant m.trusted)) = some true ∧
    (activeCmd s (engineOf s 0)).map (fun m => decide (s.time - 1 < m.since + 1048576)) = some true ∧
    homeJob s 0 0 0x1FFF8 = none := by decide +kernel

/-- A vector instruction at the pc, and an access that waits at its home. -/
theorem test_hyp_Copies_watchdog_units : let s := { mod0 [] with time := 65536, eng := { (mod0 []).eng with
      icache := [⟨0, 0x400, 0, List.replicate 16 0x0010245B⟩]
      waiters := [⟨3, 0, false, 0x1FFF8, .load .wf 8, .task 9 (.g 5) 8 true, 0⟩] } }
    (taskAt s 0 0).map (fun t => (t.tenant, vectorNext s t, t.hold, t.since)) = some (0, true, none, 0) ∧
    (homeOf s 0x1FFF8).map (fun h => (homeJob s h 0 0x1FFF8).map fun w => decide (s.eng.waiters = [w] ∧ jobStart s w + 4096 ≤ s.time)) =
      some (some true) ∧ s.fab.holdQ = [] ∧ Unseen s (0x4000000 + 8 * 2233) := by decide +kernel

/-- Tenant 0 owns the scratchpads up to 0x8000 (word 5 of TENANT[0]). -/
def padded : State := mod1 [(1, 0x2000000000), (2, 0x2000000050), (3, 0x3F800000), (4, 0x2000000008)] [(tenantOff 0 5, 0x800000000000)]

theorem test_hyp_LongAccumulators : let s := padded
    Ready s [1] [] ∧ Ready s [1, 3] [] ∧ Ready s [1, 3, 3] [] ∧ laccCause s (arg1 s 1) = none ∧ laccCause s (arg2 s 1 2) = none ∧
    laccCount s.cur.chunk < 32 ∧ (s.cur.chunk.wlines ++ s.cur.chunk.llines).length < 62 ∧ laccCause s (arg1 s 4) = some 0x07 ∧
    Ready s [1] [5] ∧ destRoom s.cur 5 = true ∧ s.mem.anyPoison (localOf (arg1 s 1)) 80 = false := by decide +kernel

/-- Tenant 0 also owns pool 3 at 0x20000 (HMAP[6]): g4 holds its base, nodes 0x40 of type 5 and 0x60 of type 6 have two auxiliary
ports, and the crib of core 0 holds `os` of it. -/
def pooled (vs : List (Nat × Nat)) (os : List Nat) (ws : List (Nat × Word)) : State :=
  let s := mod1 ((4, 0x20000) :: vs) ([(hmapOff 6 false, entry0 0x20000 0 1), (hmapOff 6 true, 0x0003000000000000)] ++ ws)
  { s with
    mem := (s.mem.write64 0x20040 0x0005020000000000).write64 0x20060 0x0006020000000000
    sched := { s.sched with cribs := [(0, [⟨0, 3, os, 0⟩])] } }

theorem test_hyp_Nets : let s := pooled [(1, 0x20005), (2, 0x40), (3, 0x60), (5, 0x42), (6, 0xFFC0)] [0x80] []
    PoolAt s ((regionAt s 0x20000).getD ⟨0, 0, true, 0, 0, 0, 0, false, false, 0, 0, 0, 0⟩) ∧
    (regionAt s 0x20000).map (fun e => e.sealed) = some false ∧ Ready s [4, 1] [7] ∧ Ready s [4, 2, 3] [] ∧
    fieldNat (arg1 s 1) 15 0 ≠ 0 ∧ fieldNat (arg1 s 1) 17 16 ≠ 3 ∧ destRoom s.cur 7 = true ∧ cribOffs s 3 = [0x80] ∧
    isEntered (touch s [] [0x20080 / 64]) = true ∧ fieldNat (arg1 s 2) 15 0 ≠ 0 ∧ fieldNat (arg1 s 31) 15 0 = 0 ∧
    fieldNat (arg1 s 2) 1 0 = 0 ∧ fieldNat (arg1 s 5) 1 0 = 2 ∧ 32 * fieldNat (arg1 s 6) 31 5 < 0x10000 ∧
    fieldNat (chunkWord s 0x20040) 63 48 ≠ 0 ∧ fieldNat (chunkWord s 0x20040) 47 40 = 2 ∧ (chunkPoison s).mem.poison = [] ∧
    isEntered (touch s [0x20040 / 64, 0x20060 / 64] [0x20040 / 64, 0x20060 / 64]) = true := by decide +kernel

/-- A pool of another package, and a port of it. -/
theorem test_hyp_Nets_far : let s := mod0 [(4, 0x10000000000), (1, 0x42), (2, 0x22), (3, 0x43)]
    Ready s [4, 1] [7] ∧ Alone s ∧ destRoom s.cur 7 = true ∧ requestsOut s 0 < 256 ∧ fieldNat (getG s.cur.ctx 4) 63 56 = 0 ∧
    isLocal s (getG s.cur.ctx 4) = false ∧ fieldNat (arg1 s 1) 1 0 ≠ 3 ∧ 0x40 ≤ 32 * fieldNat (arg1 s 1) 31 5 ∧
    32 * fieldNat (arg1 s 2) 31 5 < 0x40 ∧ fieldNat (arg1 s 3) 1 0 = 3 := by decide +kernel

/-- The Winnower's task, with the key of types 6 and 5 in g1; the first examined slot holds another key, or this one. -/
def winnowing (ws : List (Nat × Word)) : State := withCur (mod1 [(1, 0x60005), (2, 9)] ws) fun t => { t with winnower := true }

theorem test_hyp_Nets_nrset : let s := winnowing []
    let old := winnowing [(rtabOff 0 (ruleHash 5 6) false, 0x8000000000000000), (rtabOff 0 (ruleHash 5 6) true, 0x50006)]
    let next := winnowing [(rtabOff 0 (ruleHash 5 6) false, 0x8000000000000000), (rtabOff 0 (ruleHash 5 6) true, 0x50007)]
    Ready s [1, 2] [] ∧ s.cur.winnower = true ∧ (mod0 []).cur.winnower = false ∧ keyTypes (arg1 s 1) = (5, 6) ∧
    (keyTypes (arg1 s 2)).1 = 0 ∧ (∀ m, m < 8 → bitOf (rtabSeen s 0 ((ruleHash 5 6 + m) % 4096) false) 63 = false) ∧
    bitOf (rtabSeen old 0 (ruleHash 5 6) false) 63 = true ∧ (rtabSeen old 0 (ruleHash 5 6) true).toNat = ruleKey 5 6 ∧
    (rtabSeen next 0 (ruleHash 5 6) true).toNat ≠ ruleKey 5 6 ∧ bitOf (rtabSeen next 0 (ruleHash 5 6 + 1) false) 63 = false ∧
    isEntered (touch s (rsetLines 0 5 6) [(0x2100000000 + rtabOff 0 (ruleHash 5 6) false) / 64]) = true := by decide +kernel

theorem test_hyp_Nets_refill : let s := withCur (pooled [] [] []) fun t => { t with hold := some (.refill 3) }
    s.cur.hold = some (.refill 3) ∧ isTask s.cur = true ∧ ((allTasks s).find? (fun t => t.core == s.cur.core && t.tenant == s.cur.tenant && t.hold == some (.refill 3) &&
      t.slot?.isSome && !halts s t)).map (fun t => t.key) = some s.cur.key ∧ s.tasks = [] ∧
    (regionAt s (localOf (getG s.cur.ctx 4))).map (fun e => e.sealed) = some false ∧
    (cribsOf s 0).filter (fun l => l.tenant == 0 && l.pool == 3) = [⟨0, 3, [], 0⟩] ∧ cribCount s 0 ≤ 192 ∧
    (∀ t ∈ allTasks s, meet [0x20000 / 64] (t.chunk.rlines ++ t.chunk.wlines) = false) := by decide +kernel

theorem test_hyp_Nets_free : let s := pooled [] [0x80] []
    s.mem.wf = true ∧ (cribsOf s 0).filter (fun l => l.tenant == 0 && l.pool == 3) = [⟨0, 3, [0x80], 0⟩] ∧
    cribCount s 0 < 256 := by decide +kernel

/-- Pairs in the bag of a core, and the rule of types 5 and 6. -/
def bagged (core n : Nat) (rule : Bool) : State :=
  let s := pooled [] [] (if rule then [(rtabOff 0 (ruleHash 5 6) false, 0xC000000000000100), (rtabOff 0 (ruleHash 5 6) true, 0x50006)]
    else [])
  { s with sched := { s.sched with bags := [(core, List.replicate n ⟨bagEntry 3 0x40 0x60, 0, 0, 0, none, 0, 0⟩)] } }

theorem test_hyp_Bags_pop : let s := bagged 0 1 true
    coreEnabled s 0 = true ∧ slotForQueue s 0 = true ∧ queueLen s 0 < 8 ∧ popIndex s (bagOf s 0) = some 0 ∧
    poolBase s 0 3 = some 0x20000 ∧ s.mem.poison = [] ∧ hdrAux (s.mem.read64 0x20040) ≤ 2 ∧ hdrAux (s.mem.read64 0x20060) ≤ 2 ∧
    (entryRule s 0 0x20000 (bagEntry 3 0x40 0x60)).isSome = true ∧
    entryRule (bagged 0 1 false) 0 0x20000 (bagEntry 3 0x40 0x60) = none ∧ netDesc s 0x20000 = none ∧ Quiet s ∧
    Unseen s (0x4000000 + 8 * (2211 + 0x0D)) := by decide +kernel

theorem test_hyp_Bags_steal : let s := bagged 1 8 true
    coreEnabled s 2 = true ∧ slotForQueue s 2 = true ∧ queueLen s 2 = 0 ∧ bagOf s 2 = [] ∧
    mostBy (depthOf s) (clusterCores s (clusterOf 2)) = some 1 ∧ 8 ≤ (bagOf s 1).length := by decide +kernel

theorem test_hyp_Bags_reload : let s := { mod1 [] [(tenantOff 0 4, 0x10000)] with sched := { (mod0 []).sched with
      spills := [(coreTenant 0 0, ⟨2048, 2047⟩)] } }
    coreEnabled s 0 = true ∧ (bagOf s 0).length ≤ 192 ∧ spillTenants s 0 = [0] ∧ (spillOf s 0 0).tail + 1 = (spillOf s 0 0).head ∧
    spillAddr s 0 0 2047 = some 0x17FF0 ∧ clusterCores s 0 ≠ [] ∧
    4096 ≤ ({ s with time := 4096 } : State).time - Tab.get s.sched.occFrom 0 0 ∧ Tab.get s.sched.occ 0 0 = 0 ∧ s.time < 4096 := by
  decide +kernel

/-- An unstarted task of core 0 of the best priority. -/
def queued (started : Bool) : State := withCur (mod0 []) fun t => { t with
  status := if started then .yielded else .unstarted, started := started }

theorem test_hyp_Dispatching : let s := queued false
    3 ∈ freeSlots s 0 ∧ slotsHeld s 0 = false ∧ coreEnabled s 0 = true ∧ (dispatchChoice s 0).map (fun c => c.key) = some s.cur.key ∧
    s.cur.started = false ∧ s.sched.order.cancel ≠ some s.time ∧ Quiet s ∧ s.tasks = [] ∧ freeNumber s 0 0 = some 0 ∧ dispatchCount s 0 < 2 ^ 38 ∧ s.cur.inline = none ∧
    saveRec s 0 0 s.cur.number = none ∧ (dispatchChoice (queued true) 0).map (fun c => c.started) = some true := by decide +kernel

/-- A request of a gang of row 1 that waits since time 0. -/
def requested (time : Nat) : State := { mod0 [] with
  time := time, sched := { (mod0 []).sched with
    gangQ := [(0, [⟨9, 0, false, 1, 0x10000, [], 0, 0, 1, 0, false, false, none, false, 0, 0, 0⟩])] } }

theorem test_hyp_Dispatching_gang : (headRequests (requested 65536) 0).map (fun q => (q.id, decide (q.since + 65536 ≤ 65536))) =
      [(9, true)] ∧ waitingGangs (requested 0) 0 = [] ∧ (headRequests (requested 0) 0).map (canReserve (requested 0)) = [true] ∧
    (requested 65536).sched.slotHolds = [] ∧ (requested 65535).time < 0 + 65536 := by decide +kernel

/-- A message of core 0 to core 1 on the network, its handler's entry, and the messages core 1 buffers. -/
def sent (entry : Word) (n : Nat) (due : Option Nat) : State :=
  let s := mod1 [] [(htabOff 0 3, entry)]
  { s with fab := { s.fab with netMsgs := [⟨0, 1, msg1, 16, due, true⟩] }, sched := { s.sched with
    enWait := List.replicate n (1, msg1) } }

theorem test_hyp_MessageArrivals : let s := sent 0x9000000000000100 15 none
    (s.fab.netMsgs.map fun m => (m.src, m.dst, m.due)) = [(0, 1, none)] ∧ coreEnabled s 1 = true ∧
    bitOf (htabWord s 0 3) 63 = true ∧ bitOf (htabWord s 0 3) 60 = true ∧ bufferLen s 1 < 16 ∧ queueFull s 1 = false ∧
    Tab.get s.sched.arrivals 1 [] = [] ∧ bitOf (htabWord (sent 0 0 none) 0 3) 63 = false ∧
    bitOf (htabWord (sent 0x8000000000000100 0 none) 0 3) 60 = false ∧ 16 ≤ bufferLen (sent 0x9000000000000100 16 none) 1 := by
  decide +kernel

theorem test_hyp_MessageArrivals_resend : (sent 0 0 (some 100)).fab.netMsgs.map (fun m => m.due) = [some 100] ∧
    100 ≤ (sent 0 0 (some 100)).time ∧ (sent 0 0 (some 101)).time < 101 := by decide +kernel

/-- The region is a sealed text of class code, or its seal is revoked. -/
def text (w : Word) : State :=
  let s := { mod0 [] with ctl := [(hmapOff 5 false, entry0 0x10000 0 0 ||| 0x1400000000000000), (sealOff 5, w)] }
  withCur s fun t => { t with handle := 0x5 }

theorem test_hyp_FillsAndCompletions_fill : let s := text 0x8000000000000000
    fetchWord s s.cur = none ∧ regionBusy s (localOf s.cur.ctx.pc) = false ∧ fillCause s s.cur = none ∧
    fillCause (mod0 []) (mod0 []).cur = some 0x04 ∧ s.cur.imgd = none ∧ placeOf s (localOf s.cur.ctx.pc) = .dram ∧
    bitOf (ctlGet (text 0xC000000000000000) (sealOff 5)) 62 = true ∧
    regionAt { mod0 [] with ctl := [] } (localOf s.cur.ctx.pc) = none := by decide +kernel

/-- A region of class trusted, whose text is not encrypted. -/
theorem test_hyp_FillsAndCompletions_trusted : let s := withCur { mod0 [] with
      ctl := [(hmapOff 5 false, entry0 0x10000 0 0 ||| 0x1800000000000000)] } fun t => { t with handle := 5, trusted := true }
    fillCause s s.cur = none ∧ (regionAt s (64 * (0x10000 / 64))).map (fun e => e.cls) = some 2 := by decide +kernel

theorem test_hyp_FillsAndCompletions_done : (let s := { mod0 [] with mem := ⟨[], [], [], [], [2 ^ 21 - 1]⟩ }
      2 ^ 21 - 1 ∈ s.mem.clearing ∧ 0 ∉ s.mem.clearing ∧
      ∀ t ∈ allTasks s, (0x2101000000 + (2 ^ 21 - 1) / 8) / 64 ∉ t.chunk.rlines ++ t.chunk.wlines) ∧
    postedOpen (posted ⟨1, 0, 0, 0, 0, 0⟩) 0 0 .near < (countersOf (posted ⟨1, 0, 0, 0, 0, 0⟩) 0 0).out .near ∧
    (let s := { mod0 [] with sched := { (mod0 []).sched with launches := [⟨0, 5, [], [], 0, 0, 0, true, false⟩] } }
     (s.sched.launches.find? (fun x => x.ti == 0 && x.number == 5)).map (fun l => (l.begun, l.nets, l.unacked)) =
        some (true, [], 0) ∧ (∀ t ∈ allTasks s, t.rooted = true → ofLaunch 0 5 t = false) ∧ s.sched.gangQ = [] ∧
      (∀ q ∈ s.sched.gangQ, ∀ g ∈ q.2, g.launch ≠ some (0, 5))) := by decide +kernel

/-- The words of a call's block: team 7, one rank, no items, keys of 64 bits and unit weights; word 3 and word 1 vary. -/
def block (table w3 : Word) : List Word :=
  [7, table, 0x12000, w3, 0x101, 0x100, 0x13000, 0, 0x14000, 0, 0x15000, 0, 0, 0, 0, 0]
def calling (table w3 : Word) : State :=
  let s := mod0 [(1, 0x10000), (3, 0x10008)]
  { s with mem := s.mem.writeBytes 0x10000 (bytesOfWords (block table w3)) }

theorem test_hyp_Repartitions : let s := calling 0x11000 0x1000000000
    let words := fun (u : State) => wordsOfBytes (u.mem.readBytes 0x10000 128) 16
    Alone s ∧ Ready s [1] [2] ∧ destRoom s.cur 2 = true ∧ (arg1 s 1).toNat % 128 = 0 ∧ (arg1 s 3).toNat % 128 ≠ 0 ∧
    checkAccess s s.cur.tenant s.cur.trusted (arg1 s 1) ⟨false, 128, 128, true, true, true⟩ = none ∧
    s.mem.anyPoison 0x10000 128 = false ∧ (blkWord (words s) 10).toNat % 8 = 0 ∧ blkBad (words s) = false ∧
    blkRefused s (words s) = false ∧ s.eng.gleaner.next < 2 ^ 16 ∧ s.eng.gleaner.records = [] ∧
    (∀ q ∈ blkReads s (words s), readPoison s q = none) ∧
    (let p : State := { s with mem := { s.mem with poison := [0x11000] } }
     ((blkReads p (words p)).findSome? (readPoison p)).isSome = true ∧ p.mem.anyPoison 0x10000 128 = false) ∧
    blkBad (words (calling 0x11000 0)) = true ∧ blkRefused s (words (calling 0x20000 0x1000000000)) = true := by decide +kernel

/-- The particles of chapter 17 by package: x, y and weight (its table of particles). -/
def manualItems : List GItem :=
  let ps := fun (rank : Nat) (l : List (Nat × Nat × Nat)) => l.mapIdx fun i p => GItem.mk rank i (hilbert2 p.1 p.2.1) p.2.2 0 [0, 0]
  ps 0 [(4, 4, 1), (1, 0, 3), (6, 1, 3), (3, 7, 1), (5, 7, 1), (2, 3, 2)] ++
  ps 1 [(0, 1, 2), (7, 5, 1), (4, 0, 2), (0, 7, 1), (6, 6, 1), (3, 1, 1)] ++
  ps 2 [(5, 5, 1), (1, 3, 1), (7, 3, 1), (2, 4, 2), (7, 7, 1), (4, 3, 1)] ++
  ps 3 [(5, 2, 1), (3, 5, 2), (5, 1, 2), (0, 4, 3), (4, 6, 1), (6, 5, 1)]

/-- The repartition of chapter 17 at package 2: four ranks, RCAP 7 and SCAP 1. -/
def manualTeam : Repart :=
  let blk : List Word := [0x2000300000017, 0, 0, 0x1000000006, 0x1c, 8, 0, 7, 0, 1, 0]
  ⟨0, 4, 0, 1, blk, [0, 1, 2, 3], [], 3, 0, (List.range 4).map fun k => (k, headOf blk), [], manualItems, none, []⟩

/-- The splitters and package 2's completion word as chapter 17 gives them. -/
theorem test_splitters : splitters manualTeam = [12, 29, 46] := by decide +kernel
theorem test_completionWord : completionWord manualTeam = 0x4000070000100000 := by decide +kernel

/-- A call the gleaner has accepted, of two ranks and with two items. -/
def accepted (phase : Nat) (err : Option Nat) : Repart :=
  ⟨0, 0, 0, 1, 0x100000007 :: (block 0x11000 0x1000000000).tail, [], [], phase, 2, [], [],
    [⟨0, 0, 5, 1, 0, [5, 1]⟩, ⟨1, 0, 0xFFFFFFFFFFFFFFFF, 1, 0, [6, 1]⟩], err, []⟩
def collecting (phase : Nat) (err : Option Nat) : State :=
  let s := mod0 [(1, 0x8000000000000007), (2, 7)]
  { s with eng := { s.eng with gleaner := ⟨1, [accepted phase err], [], []⟩ } }

theorem test_hyp_Repartitions_status : let s := collecting 4 none
    Ready s [1] [3] ∧ bitOf (arg1 s 1) 63 = true ∧ fieldNat (arg1 s 1) 62 48 = 0 ∧ bitOf (arg1 s 2) 63 = false ∧
    (s.eng.gleaner.records.find? (fun r => r.seq == fieldNat (arg1 s 1) 47 32 && blkTeam r.block == fieldNat (arg1 s 1) 31 0)).map
      (fun r => r.tenant) = some 0 ∧ (mod0 []).eng.gleaner.records = [] := by decide +kernel

theorem test_hyp_Repartitions_split : let r := accepted 4 none
    (∀ i ∈ teamItems r, i.key < 2 ^ 64) ∧ (∀ i ∈ teamItems r, (pieceBytes r i).length = blkSize r.block) ∧
    blkSize r.block ≤ 256 ∧ (placements (collecting 4 none) { r with block := r.block.set 7 1 }).length = 1 ∧ 1 < blkP r.block ∧ 0 < teamWeight r ∧ (residueOf r (splitters r)).length < 2 ^ 20 ∧
    serialHolds (collecting 4 none) 0 [0x15000 / 64] = false ∧ linesSealed (collecting 4 none) [0x15000 / 64] = false ∧ (accepted 3 (some 2)).phase < 5 ∧
    (accepted 4 none).todo = [] := by decide +kernel

/-- A port that is enabled and up, and a flit that comes over it for this package. -/
def linked (vs : List (Nat × Nat)) (ws : List (Nat × Word)) : State :=
  let s := mod1 vs ((tenantOff 0 0, 2) :: ws)
  setLink { s with
    conf := { s.conf with portw := 1 }
    mgmt := { s.mgmt with keys := [(rxSlot 0, ⟨List.replicate 32 1, [], none⟩)] } } 0 { linkDown with up := true }
def flit (s : State) (op : Nat) (words : List Word) : Flit :=
  let f : Flit := ⟨s.conf.pkg, 1, 0, false, opClass op, 0, 0, 0, op, 0, s.conf.incarnation, 0, words, 0, 0, []⟩
  { f with tag := tagDue s f }

/-- Its tag verifies: the bank it names holds a key. -/
theorem verifies {s : State} {op : Nat} {ws : List Word} (h : (bankKey s (rxSlot 0) false).isEmpty = false) :
    tagVerifies s (flit s op ws) = true := by
  have : tagDue s (flit s op ws) = (flit s op ws).tag := by simp only [flit, tagDue, flitTag, flitHeader, flitWord0, flitWord1, flitSealed, flitPayload]; rfl
  rw [tagVerifies, this]
  simpa [flit] using h

/-- It comes for this package. -/
theorem comes {s : State} {op : Nat} {ws : List Word} (h : (bankKey s (rxSlot 0) false).isEmpty = false ∧
    flitArrives s (flit s op ws) = true ∧ announcing s = false ∧ malformed (flit s op ws) = false ∧
    tiState s (flit s op ws).ti ≠ 4) : Comes s (flit s op ws) op :=
  ⟨rfl, ⟨h.2.1, verifies h.1, h.2.2.1⟩, h.2.2.2.1, rfl, h.2.2.2.2⟩

theorem test_hyp_Repartitions_flit : let s := linked [] []
    let f := flit s 10 [0x701000000]
    let g := flit s 10 [0x700000000]
    flitArrives s f = true ∧ malformed f = false ∧ announcing s = false ∧ tiState s f.ti ≠ 4 ∧ liveTeam s 7 = none ∧
    callPlace f (callsOf s 7 f.src) = .later ∧ namesakes s f = none ∧ callPlace g (callsOf s 7 g.src) = .same ∧
    flitArrives s g = true ∧ malformed g = false ∧
    (liveTeam (collecting 1 none) 7).isSome = true := by decide +kernel

/-- Where a flit of package 1 stands beside the third call of a live record with it. -/
theorem test_hyp_Repartitions_place : let r : Repart := { accepted 1 none with table := [0, 1], calls := [3, 3] }
    let f := fun (n : Nat) => flit (linked [] []) 10 [BitVec.ofNat 64 (0x700000000 + 0x1000000 * n)]
    flitPlace r (f 3) = .same ∧ flitPlace r (f 4) = .later ∧ flitPlace r (f 130) = .later ∧ flitPlace r (f 131) = .over ∧
    flitPlace r (f 2) = .over := by decide +kernel

/-- A request of tenant 5 for pre-emption, and a trusted task on core 1. -/
def trusting : State := { mod0 [] with tasks := [{ task0 Ctx.initial with key := 3, core := 1, trusted := true }] }

theorem test_hyp_Preemption : let s := mod0 []
    (∃ u ∈ allTasks trusting, u.trusted = true ∧ u.slot?.isSome = true) ∧
    (∀ u ∈ allTasks s, u.trusted = true → u.slot? = none) ∧ (∀ u ∈ allTasks s, u.tenant = 63 → u.slot? = none) ∧
    s.tasks = [] ∧ s.cur.tenant = 0 ∧ s.cur.slot?.isSome = true ∧ s.cur.gang = none ∧ s.cur.hold = none ∧ s.cur.inflight = [] ∧
    saveRec s 0 s.cur.core s.cur.number = none ∧ s.cur.inline = none ∧ s.cur.chunk.fresh = true ∧
    (inChunk s).cur.chunk.fresh = false := by decide +kernel

theorem test_hyp_Preemption_halt : let s := { mod0 [] with pre := ⟨1 <<< 63, 1, 0, 0, []⟩ }
    s.pre.svc.getLsbD 63 = true ∧ s.pre.tr.getLsbD 0 = true ∧ s.eng.engines = [] ∧
    (∀ u ∈ allTasks s, ¬(u.tenant = 63 ∧ u.slot?.isSome = true)) ∧
    (∀ u ∈ allTasks s, u.tenant = 63 → u.slot?.isSome = true → halts s u = false) ∧
    (∀ u ∈ allTasks s, (0x2100000000 + tenantOff 63 10) / 64 ∉ u.chunk.rlines ++ u.chunk.wlines) := by decide +kernel

/-- A serial chunk still has a line of the task's record in its signatures. -/
theorem test_hyp_Preemption_halting : let s := { recorded with pre := ⟨1, 0, 0, 0, []⟩ }
    s.pre.svc.getLsbD 0 = true ∧ s.eng.engines = [] ∧
    (∃ u ∈ allTasks (haltTenant s 0), u.tenant = 0 ∧ u.slot?.isSome = true) := by decide +kernel

/-- The task is of the trusted class; HMAP[7] would cover the same bytes; tenant 0's arena is 0x10000 to 0x40000. -/
def writing (n : Nat) : State := withCur (mod1 [] [(hmapOff n false, entry0 0x30000 0 0), (tenantOff 0 6, 0x10000),
  (tenantOff 0 7, 0x40000)]) fun t => { t with trusted := true }

theorem test_hyp_ControlSpace : let s := writing 7
    (taskAt s 0 0).map (fun t => t.trusted) = some true ∧ (taskAt (mod0 []) 0 0).map (fun t => t.trusted) = some false ∧
    bitOf (ctlGet s (hmapOff 7 false)) 43 = false ∧ (hEntry s 7).isSome = true ∧ (hEntry s 7).bind (judgeEntry s) = none ∧
    (hEntry s 7).map (inArena s) = some true ∧ (hEntry s 7).map (fun e => (members s e).isEmpty) = some false ∧
    ((hEntry s 7).map fun e => (otherRegions s 7).all fun g => !e.overlaps g) = some true ∧
    (let r := mod1 [] [(hmapOff 7 false, entry0 0x10000 0 0)]
     (hEntry r 7).bind (judgeEntry r) = some 1) := by decide +kernel

theorem test_hyp_ControlSpace_refused : let s := mod1 [] [(hmapOff 7 false, entry0 0x30000 0 0)]
    let r := { writing 7 with conf := { (writing 7).conf with rowEn := 0 } }
    (hEntry s 7).bind (judgeEntry s) = some 3 ∧ (hEntry r 7).bind (judgeEntry r) = some 2 ∧
    bitOf (ctlGet (mod1 [] [(hmapOff 7 false, 1 <<< 43)]) (hmapOff 7 false)) 43 = true := by decide +kernel

theorem test_hyp_ControlSpace_mark : let s := mod0 []
    100 < granules ∧ granuleCarved 100 = false ∧ granuleSealed s 100 = false ∧ s.mem.wf = true ∧ granuleSealed s 1 = false ∧
    granuleBase 1 = 0x10000 ∧ s.sched.enWait = [] ∧ (∀ k ∈ allTasks s, k.chunk.rlines = [] ∧ k.chunk.wlines = []) ∧
    0x4000000 % 8 = 0 ∧ 0x3200000 % 8 = 0 ∧ 0x323FFF8 % 8 = 0 := by decide +kernel

/-- What a flit asks for passes the home's checks. -/
def serves (t : State) (a : Nat) (acc : Access) : Bool := (checkLocal t 0 false a acc).isNone && !(regionBusy t a) &&
  !(serialHolds t 0 (accessLines t a acc.size)) && placeOf t a == .dram

theorem test_hyp_RemoteService_comes : let s := linked [] []
    Comes s (flit s 0 [0x1FFF8, 3]) 0 ∧ Comes s (flit s 1 [0x1FFF8, 3, 9]) 1 ∧ Comes s (flit s 2 [0x1FFF8, 0x123, 9, 0]) 2 ∧
    Comes s (flit s 3 [0x1FFF8]) 3 ∧ Comes s (flit s 4 [0x1FFF8, 0]) 4 ∧ Comes s (flit s 5 [0x103, 42]) 5 :=
  ⟨comes (by decide +kernel), comes (by decide +kernel), comes (by decide +kernel), comes (by decide +kernel),
    comes (by decide +kernel), comes (by decide +kernel)⟩

theorem test_hyp_RemoteService : let s := linked [] []
    let w := flit s 1 [0x1FFF8, 3, 9]
    let m := flit s 2 [0x1FFF8, 0x123, 9, 0]
    Clear s w ∧ Clear s (flit s 4 [0x1FFF8, 0]) ∧ serves s 0x1FFF8 (plainAccess false 8) = true ∧
    serves s 0x1FFF8 (plainAccess true 8) = true ∧ serves s 0x1FFF8 ⟨true, 8, 8, true, true, false⟩ = true ∧
    accessPoison s 0x1FFF8 8 = false ∧ poisonBlocks s.mem 0x1FFF8 8 = false ∧ s.mem.full 0x1FFF8 = true ∧
    ([3, 0x123].all fun x : Word => !(bitOf x 63) && !(bitOf x 62)) = true ∧
    fieldNat (m.words.getD 1 0) 8 5 = 9 ∧ checkLocal s 0 false 0x20000 (plainAccess false 8) = some 0x11 := by decide +kernel

/-- A copy engine reads, and writes, eight bytes of a line. -/
theorem test_hyp_RemoteService_engine_comes : let s := linked [] []
    Comes s (flit s 0 [0x1FFF8, engineW1 8 false]) 0 ∧ Comes s (flit s 1 [0x1FFF8, engineW1 8 false, 9]) 1 :=
  ⟨comes (by decide +kernel), comes (by decide +kernel)⟩
theorem test_hyp_RemoteService_engine : let s := linked [] []
    let f := flit s 1 [0x1FFF8, engineW1 8 false, 9]
    Clear s f ∧ bitOf (engineW1 8 false) 63 = true ∧ bitOf (engineW1 8 false) 62 = false ∧ fieldNat (engineW1 8 false) 38 32 = 8 ∧
    ((bytesOfWords (f.words.drop 2)).take 8).length = 8 ∧ serves s 0x1FFF8 ⟨false, 8, 8, true, true, false⟩ = true ∧
    serves s 0x1FFF8 ⟨true, 8, 8, true, true, false⟩ = true := by decide +kernel

theorem test_hyp_RemoteService_other : let s := linked [] [(htabOff 0 3, 0x9000000000000100)]
    let m := flit s 5 [0x103, 42]
    let t := { linked [] [] with ctl := [(tenantOff 0 0, 4)] }
    Clear s m ∧ (deliverMsg s 0 0 1024 0 3 [42] 0).isSome = true ∧ tiState t 0 = 4 ∧
    { flit s 0 [] with dinc := 1 }.dinc ≠ s.conf.incarnation ∧ malformed (flit s 1 [0, 6]) = true ∧
    flitArrives (mod0 []) (flit s 0 []) = false ∧ (linkAt s 0).txCtr < 2 ^ 48 := by decide +kernel

/-- A launch record at 0x10000: its words, and a request for it. -/
def launching (ws : List Word) (st : Word) : State :=
  let s := { linked [] [] with mem := (mod0 []).mem.writeBytes 0x10000 (bytesOfWords ws) }
  { s with ctl := (hmapOff 5 false, entry0 0x10000 0 0) :: (tenantOff 0 0, st) :: []
           sched := { s.sched with launchQ := [⟨0, 5, 0x10000⟩], launches := [⟨0, 5, [], [], 0, 0, 0, false, false⟩] } }

theorem test_hyp_Launches_comes : let s := launching [] 2
    Comes s (flit s 6 [5, 0x10000]) 6 ∧ Comes s (flit s 7 [5]) 7 := ⟨comes (by decide +kernel), comes (by decide +kernel)⟩

theorem test_hyp_Launches : let s := launching [] 2
    tiState s 0 = 2 ∧ tiState (launching [] 1) 0 ≠ 2 ∧
    recordOwned s 0 0x10000 0 = true ∧ recordOwned s 0 0x1FFC8 0 = false ∧ recordOwned s 0 0x1FFC0 0 = true ∧
    s.sched.launchQ.find? (fun x => !(s.pre.svc.getLsbD x.ti) && !rootWaits s x) = some ⟨0, 5, 0x10000⟩ ∧
    s.sched.launches.find? (fun l => l.ti == 0 && l.number == 5) = some ⟨0, 5, [], [], 0, 0, 0, false, false⟩ ∧
    s.sched.launches.find? (fun l => l.ti == 0 && l.number == 6) = none ∧ s.sched.bags = [] ∧ s.sched.spills = [] ∧
    (∀ t ∈ allTasks s, t.net = none) := by decide +kernel

theorem test_hyp_Launches_record : let s := launching [2] 2
    (∀ l ∈ s.sched.launches, l.ti = 0 → l.number = 5 → l.cancelled = false) ∧ recordBad s 0 0x10000 = false ∧
    fieldNat (recordWord s 0x10000 0) 1 0 = 2 ∧ imageOf s 0 (BitVec.ofNat 16 (fieldNat (recordWord s 0x10000 0) 31 16)) = none ∧
    coreEnabled s (fieldNat (recordWord s 0x10000 0) 13 4) = true ∧
    fieldNat (recordWord (launching [3] 2) 0x10000 0) 1 0 = 3 ∧ recordBad (launching [0] 2) 0 0x10000 = false := by decide +kernel

/-- An image that cannot be admitted. -/
def refusedImage : Bool := match admitImage (launching [0] 2) 0 0 0 [] with
  | .error _ => true
  | .ok _ => false

theorem test_hyp_Launches_image : refusedImage = true := by decide +kernel

/-- The task's slot is held for the reply to request 0 of core 0. -/
def asking (delay : Nat) (due : Option Nat) : State :=
  let s := withCur (linked [] []) fun t => { t with hold := some (.reply 0) }
  let f : Flit := ⟨1, s.conf.pkg, 0, false, 0, 0, 0, 0, 0, 0, 0, 0, [0x10000000000, 3], 0, 0, []⟩
  { s with fab := { s.fab with outReqs := [⟨0, 0, 0, f, some (1, .g 5, 8, false), 1, delay, due, false, false, none⟩] } }

theorem test_hyp_Replies_comes : let s := asking 16 none
    tagVerifies s (flit s 9 [42]) = true ∧ tagVerifies s (flit s 11 [1]) = true ∧ tagVerifies s (flit s 12 []) = true :=
  ⟨verifies (by decide +kernel), verifies (by decide +kernel), verifies (by decide +kernel)⟩

theorem test_hyp_Replies : let s := asking 16 none
    let f := flit s 9 [42]
    flitArrives s f = true ∧ malformed f = false ∧ (replyReq s f).map (fun r => (r.core, r.reqid, r.flit.dinc)) = some (0, 0, f.sinc) ∧
    ((replyReq s f).all fun r => r.copy.isNone && r.waits == some (s.cur.key, .g 5, 8, false)) = true ∧ s.tears = [] ∧ isTask s.cur = true ∧
    s.cur.hold = some (.reply 0) ∧ s.cur.slot?.isSome = true ∧ replyReq (linked [] []) f = none ∧
    malformed { f with status := 4 } = false ∧
    { f with sinc := 1 }.sinc ≠ 0 ∧ ((replyReq s f).all fun r => r.flit.dinc == f.dinc) = true := by decide +kernel

/-- The flit reports the condition that wait slot 0 armed at another package by request 5. -/
theorem test_hyp_Replies_report : let s := asking 16 none
    let w := withCur s fun t => { t with waits := t.waits.set 0 ⟨some .full, 0x10000000038, 0, false, false, some 5⟩ }
    let f := { flit s 9 [] with reqid := 5 }
    replyReq s f = none ∧ s.tasks = [] ∧ replyReq w f = none ∧
    (reportTo w f w.cur).waits[0].sat ≠ w.cur.waits[0].sat := by decide +kernel
theorem test_hyp_Replies_unreported (s : State) : reportTo s { flit s 9 [] with dcore := s.cur.core + 1 } s.cur = s.cur :=
  if_neg (by show ¬s.cur.core = s.cur.core + 1; omega)

theorem test_hyp_Replies_retry : let s := asking 16 (some 100)
    (s.fab.outReqs.find? fun x => x.core == 0 && x.reqid == 0).map (fun r => (r.due, r.posted)) = some (some 100, false) ∧
    100 ≤ s.time ∧ (asking 16 (some 101)).time < 101 ∧
    (∃ x ∈ ({ s with time := 170000, tears := [⟨0, 0, true, []⟩] } : State).tears, x.tenant = 0 ∧ x.since + 170000 ≤ 170000) ∧
    (∀ x ∈ s.tears, x.tenant ≠ 0) := by decide +kernel

theorem test_hyp_Replies_announcement : let s := asking 16 none
    let f := flit s 11 [1]
    flitArrives s f = true ∧ malformed f = false ∧ s.eng.gleaner.records = [] ∧ s.tears = [] ∧
    (s.fab.outReqs.map fun r => (r.flit.dest == f.src, r.flit.dinc)) = [(true, 0)] ∧ fieldNat (f.words.getD 0 0) 7 0 = 1 ∧
    (∀ r ∈ (linked [] []).fab.outReqs, r.flit.dest ≠ f.src) ∧ malformed (flit s 12 []) = false := by decide +kernel

theorem test_hyp_Links : let s := linked [] []
    let d := setLink s 0 linkDown
    let h := setLink s 0 { linkAt s 0 with txCtr := 2 ^ 47 }
    0 ∈ portsOn s ∧ (linkAt d 0).up = false ∧ (linkAt d 0).held = [] ∧ (linkAt s 0).up = true ∧ (linkAt s 0).rekey = none ∧
    2 ^ 47 ≤ (linkAt h 0).txCtr ∧ (linkAt h 0).want = false ∧ (linkAt s 0).txCtr < 2 ^ 47 ∧
    malformed (flit s 0 [0, 3]) = false ∧ announcing s = false ∧ flitArrives s (flit s 0 [0, 3]) = true ∧
    tagVerifies { s with mgmt := { s.mgmt with keys := [] } } (flit s 0 [0, 3]) = false ∧
    { flit s 0 [] with kgen := true }.kgen ≠ (linkAt s 0).rxKgen ∧
    (linkAt s 0).fails < 2 ∧ 2 ≤ (linkAt (setLink s 0 { linkAt s 0 with fails := 2 }) 0).fails ∧ s.fab.outReqs = [] ∧ Quiet s ∧
    3 ≤ s.mgmt.stage ∧ s.mgmt.halted = false ∧ State.reset.mgmt.stage < 3 ∧ Unseen s (0x4000000 + 8 * 2240) := by
  decide +kernel

/-- A KEY_UPDATE of link `p`'s session that a flit has brought; ports 0 and 1 are enabled. -/
def updating (p : Nat) (k : Option Rekey) : State :=
  let s := setLink (linked [] []) p { linkDown with up := true, rekey := k }
  { s with
    conf := { s.conf with portw := 5 }
    mgmt := { s.mgmt with mbox := { s.mgmt.mbox with monitor := true }, inbox := [flit (linked [] []) 13 [BitVec.ofNat 64 (1 + p), 0]] } }

/-- What the statement asks of a KEY_UPDATE of link `p`. -/
def updates (p : Nat) (k : Option Rekey) : Bool :=
  let s := updating p k
  s.mgmt.mbox.monitor && (s.mgmt.inbox.find? fun f => sessionOf f == 1 + p).isSome && (portsOn s).contains p && (linkAt s p).up &&
    (linkAt s p).held.isEmpty && (linkAt s p).rekey == k && (s.mgmt.inbox.map fun f => f.src) == [1]

theorem test_hyp_Links_update : updates 0 none = true ∧ updates 0 (some ⟨false, true⟩) = true ∧
    (⟨1, [0x13, 0xE9, 1]⟩ : SpdmMsg).bytes.getD 1 0 = 0xE9 ∧ (⟨1, [0x13, 0xE9, 1]⟩ : SpdmMsg).bytes.getD 2 0 ≠ 3 ∧ (⟨1, [0x13, 0xE9, 3]⟩ : SpdmMsg).bytes.getD 2 0 = 3 := by decide +kernel

/-- The port by which the answer leaves is that of one of the two links, and so not that of the other. -/
theorem test_hyp_Links_other (k : Option Rekey) : updates 0 none = true ∧ updates 1 none = true ∧
    (portFor (updating 0 k) 1 ≠ 0 ∨ portFor (updating 1 k) 1 ≠ 1) := by
  refine ⟨by decide +kernel, by decide +kernel, ?_⟩
  have : portFor (updating 1 k) 1 = portFor (updating 0 k) 1 := rfl
  omega

/-- The security monitor runs, or stage 1 answers: `bs` is the pending request. -/
def mailing (monitor : Bool) (bs : List Byte) : State :=
  let s := mod0 []
  { s with mgmt := { s.mgmt with
      stage := if monitor then 2 else 1
      poll := some (!monitor)
      mbox := { s.mgmt.mbox with monitor := monitor, pend := !bs.isEmpty, rxbuf := bs } } }

theorem test_hyp_Attestation : (mailing true []).mgmt.mbox.monitor = true ∧ (⟨1, []⟩ : SpdmMsg).session ≠ 0 ∧
    (∀ f ∈ (mailing true []).mgmt.inbox, sessionOf f ≠ 1) ∧ (updating 0 none).mgmt.mbox.monitor = true ∧
    ((updating 0 none).mgmt.inbox.find? fun f => sessionOf f == 1).isSome = true ∧
    measError [0x13, 0xE0, 0, 0xFF] true = none ∧ measError [0x13, 0xE0, 1, 16] true = none ∧
    measError [0x13, 0xE0, 0, 17] true = some (0x01, 0) ∧ (mailing true []).mgmt.mbox.pend = false ∧
    (∀ c ∈ [0x81, 0x82, 0x83, 0x84, 0xE1, 0xE3, 0xE4, 0xE5, 0xE8, 0xE9, 0xEC],
      (⟨1, [0x13, c, 0, 0]⟩ : SpdmMsg).bytes.getD 1 0 = c ∧ c ∈ spdmCodes) ∧ (0xFF : Byte) ∉ spdmCodes ∧
    (mailing false []).mgmt.mbox.monitor = false ∧ (mailing false []).mgmt.mbox.pend = false ∧
    (mailing false [0x13, 0x81]).mgmt.poll = some true ∧ (mailing false [0x13, 0x81]).mgmt.mbox.pend = true ∧
    (mailing false [0x13, 0x81]).mgmt.mbox.rxbuf = (⟨0, [0x13, 0x81]⟩ : SpdmMsg).bytes ∧
    measError [0x13, 0x81] false = some (0x07, 0x81) ∧
    (mailing true [1]).mgmt.mbox.pend = true ∧ fieldNat (4095 : Word) 11 0 ≠ 0 ∧
    (List.replicate 4095 (0 : Byte)).length ≤ 4095 := by decide +kernel

theorem test_hyp_StageOneAnswers : (∀ p ∈ [0, 16, 0xFF],
    let s := mailing false [0x13, 0xE0, 0, p]
    s.mgmt.mbox.monitor = false ∧ s.mgmt.mbox.pend = true ∧ s.mgmt.mbox.rxbuf = (⟨0, [0x13, 0xE0, 0, p]⟩ : SpdmMsg).bytes ∧
    s.mgmt.poll = some true ∧ measError [0x13, 0xE0, 0, p] false = none) ∧
    (let s := mailing false [0x13, 0x84]
     s.mgmt.mbox.monitor = false ∧ s.mgmt.mbox.pend = true ∧ s.mgmt.mbox.rxbuf = (⟨0, [0x13, 0x84]⟩ : SpdmMsg).bytes ∧
     s.mgmt.poll = some true) ∧
    measError [0x12, 0xE0, 0, 0] false = some (0x41, 0) ∧ measError [0x13, 0x84] false = some (0x07, 0x84) ∧
    measError [0x13, 0xE0, 1, 0] false = some (0x07, 0xE0) ∧ measError [0x13, 0xE0, 0] false = some (0x01, 0) ∧
    measError [0x13, 0xE0, 0, 17] false = some (0x01, 0) := by decide +kernel

/-- Tenant 63's interface in a state, with an arena at 0x100000000 of 1 GiB. -/
def interface (st : Word) : State :=
  let s := { State.reset with ctl := [(tenantOff 63 0, st), (tenantOff 63 6, 0x100000000), (tenantOff 63 7, 0x140000000),
    (tenantOff 63 2, 0x100000000), (tenantOff 63 3, 0x101000000), (tenantOff 63 4, 0x124000000)] }
  { s with mgmt := { s.mgmt with stage := 4, mbox := { s.mgmt.mbox with monitor := true, pend := true } } }

theorem test_hyp_Interfaces : let s := interface 0
    s.mgmt.mbox.monitor = true ∧ s.mgmt.stage = 4 ∧ tiState s 63 = 0 ∧ (arena s 63).1 < (arena s 63).2 ∧
    (arena s 62).2 ≤ (arena s 62).1 ∧ tiState (interface 1) 63 = 1 ∧ tiState (interface 2) 63 = 2 ∧ tiState (interface 3) 63 = 3 ∧
    tiState (interface 4) 63 = 4 ∧ (∀ u ∈ allTasks s, u.tenant ≠ 63) ∧ s.mgmt.mbox.pend = true ∧
    State.reset.mgmt.mbox.pend = false ∧ State.reset.mgmt.inbox = [] ∧ (∃ f ∈ (updating 0 none).mgmt.inbox, f.ti = 0) := by
  decide +kernel

/-- What creating a tenant's areas comes to. -/
def areasMade (s : State) : Bool := match createAreas s 63 with
  | .ok _ => true
  | .error _ => false

theorem test_hyp_Interfaces_areas : areasMade (interface 0) = true ∧
    areasMade { interface 0 with ctl := (tenantOff 63 2, 1) :: (interface 0).ctl } = false := by decide +kernel

/-- A configuration of tenant 1. -/
def config (op hi base : Word) : TiConfig := ⟨op, 0x100000000, hi, 0x8000000000000, base, 0x101000000, 0x124000000, 0, 1, 0x3FF⟩

theorem test_hyp_Interfaces_config : let s := interface 0
    configError s 1 (config 0x101 0x140000000 0x130000000) = 3 ∧ configError State.reset 1 (config 0x101 0x140000000 0x130000000) = 0 ∧
    configError s 1 (config 0x4101 0x140000000 0x130000000) = 4 ∧ configError State.reset 1 (config 0x101 0x140000000 0x130000008) = 2 ∧
    configError State.reset 1 (config 0x101 0x100000000 0x130000000) = 5 ∧ fieldNat (config 0x101 0 0).op 13 8 = 1 ∧
    configReserved (config 0x101 0x140000000 0x130000000) = false ∧ fieldNat (config 0x4101 0 0).op 63 14 ≠ 0 ∧
    (∀ a ∈ configAreas (config 0x101 0x140000000 0x130000000), a.1.1 % a.2 = 0) := by decide +kernel

/-- A task runs an image whose data section stands in the span of a move that began at time 0. -/
def moving : State :=
  let s := mod1 [] [(sealOff 6, 0x8000000000000000)]
  withCur { s with
    time := 170000000, moves := [⟨0, 0x20000, 0x1000, 0, [], false⟩]
    sched := { s.sched with images := [⟨0, 6, 0, tabBytes [(0x20, 1)] 0 0x100, ⟨0, 0x10000, 0x40000, 0, 0, false, 0x20040, []⟩, 4, [],
      [], [], false, false⟩] } } fun t => { t with handle := 6 }

theorem test_hyp_Interfaces_move : (moving.moves.find? fun m => decide (m.since + 170000000 ≤ moving.time) && moveWaits moving m) =
    some ⟨0, 0x20000, 0x1000, 0, [], false⟩ := by decide +kernel

/-- The crypto block with its SRC, LEN and KEYADDR. -/
def crypto (src len key : Word) (kh : BitVec 384) : State :=
  let s := State.reset
  { s with mgmt := { s.mgmt with crypto := { s.mgmt.crypto with src := src, len := len, keyaddr := key, keyhash := kh } } }

theorem test_hyp_CryptoBlock : let s := crypto 0x080FFFC0 64 0x080FFFA0 0
    s.mgmt.crypto.busy = none ∧ (mgmtBytes s 0x080FFFC0 64).isSome = true ∧ (mgmtBytes s 0x080FFFA0 96).isSome = true ∧
    mgmtBytes s 0x080FFFC1 64 = none ∧ 2 ^ 24 < (0x1000001 : Word).toNat ∧ digOf (sha384 (List.replicate 96 0)) ≠ 0 ∧
    mgmtBytes s 0x080FFFA0 96 = some (List.replicate 96 0) ∧ (Tab.get s.mgmt.keys (0 % 128) .empty).sign = none ∧
    s.mgmt.romExit = false ∧ (mod0 []).mgmt.romExit = true ∧ slotHeld s 64 = true ∧
    ({ s with mgmt := { s.mgmt with crypto := { s.mgmt.crypto with busy := some ⟨1, 0, false⟩ } } } : State).mgmt.crypto.busy =
      some ⟨1, 0, false⟩ := by decide +kernel

/-- The slot of the device's own key signs. -/
theorem test_hyp_CryptoBlock_sign : (if 64 % 128 = 64 then some Config.deviceKey else none) = some Config.deviceKey := rfl

/-- The digest of "abc" (FIPS 180-4, of which the manual names the hash), and the block of FIPS 197 under its 256-bit key. -/
theorem test_sha384 : digOf (sha384 [0x61, 0x62, 0x63]) =
    0xcb00753f45a35e8bb5a03d699ac65007272c32ab0eded1631a8b605a43ff5bed8086072ba1e7cc2358baeca134c825a7 := by decide +kernel
theorem test_aes : aesBlock (roundKeys ((List.range 32).map fun i => BitVec.ofNat 8 i)) ((List.range 16).map fun i => BitVec.ofNat 8 (17 * i)) =
    bytesBE 16 0x8ea2b7ca516745bfeafc49904b496089 := by decide +kernel

theorem test_hyp_CryptoBlock_key : let s := crypto 0 0 0x08000000 (digOf (sha384 (List.replicate 96 0)))
    mgmtBytes s 0x08000000 96 = some (List.replicate 96 0) ∧ digOf (sha384 (List.replicate 96 0)) = s.mgmt.crypto.keyhash := by
  decide +kernel

/-- A descriptor of an AES command and 16 bytes of input after it; the keys of slot 0 have `n` and `m` bytes. -/
def ciphering (n m : Nat) : State :=
  let s := crypto 0x08000000 0 0 0
  { s with mgmt := { s.mgmt with
      keys := [(0, ⟨List.replicate n 1, List.replicate m 2, none⟩)]
      sram := tabPut [] 0 (bytesOfWords [0x08001000, 16, 0, 0, 0x08002000, 0, 0, 0, 5, 6]) } }

theorem test_hyp_CryptoBlock_aes : let s := ciphering 32 64
    (mgmtBytes s 0x08000000 64).map (fun d => (inSram (natOfBytes (d.take 8)) (natOfBytes ((d.drop 8).take 8)),
      natOfBytes ((d.drop 8).take 8), inSram (natOfBytes ((d.drop 32).take 8)) 16)) = some (true, 16, true) ∧
    (mgmtBytes s (0x08000000 + 64) 16).map List.length = some 16 ∧
    (Tab.get s.mgmt.keys (128 % 128) .empty).image.length = 32 ∧
    (Tab.get s.mgmt.keys (128 % 128) .empty).code.length = 64 ∧
    (Tab.get (ciphering 31 63).mgmt.keys 0 .empty).image.length ≠ 32 ∧
    (Tab.get (ciphering 31 63).mgmt.keys 0 .empty).code.length ≠ 64 ∧ mgmtBytes s 0x080FFFFF 64 = none := by
  decide +kernel

theorem test_hyp_PowerAndBoot : bootError (resetPackage State.reset) 0 false ≠ 0 ∧ State.reset.power = true ∧
    mgmtPlace 0x10000 1 = none ∧ mgmtPlace 0xFFFF 1 ≠ none ∧ placeOf (mod0 []) 0x1FFF8 = .dram ∧
    placeOf (mod0 []) 0x2000000000 = .window 0 0 0 ∧ Tab.get (mod0 []).silo 2242 0 < 2 ^ 64 - 1 ∧
    Tab.get (mod0 []).silo 2235 0 < 2 ^ 64 - 1 ∧ Tab.get (mod0 []).silo 2239 0 < 2 ^ 64 - 1 ∧
    Unseen (mod0 []) (0x4000000 + 8 * 2235) ∧ Unseen (mod0 []) (0x4000000 + 8 * 2239) ∧ State.reset.mgmt.disable = [] := by
  decide +kernel

/-- The boot at a stage, with what stage 1 has done, and a turn of it to come. -/
def booting (stage : Nat) (poll : Option Bool) (halted : Bool) : State :=
  let s := mailing false [0x13, 0xE0, 0, 1]
  { s with agenda := [⟨1, .boot⟩], mgmt := { s.mgmt with stage := stage, poll := poll, halted := halted } }

theorem test_hyp_PowerAndBoot_turns : let s := booting 1 (some true) false
    s.mgmt.poll.isSome = true ∧ s.mgmt.mbox.pend = true ∧ s.mgmt.mbox.rxAt < s.time ∧ measError s.mgmt.mbox.rxbuf false = none ∧
    measError (mailing false [0x13, 0x84]).mgmt.mbox.rxbuf false = some (0x07, 0x84) ∧
    (booting 1 (some true) true).mgmt.halted = true ∧ (booting 1 (some false) true).mgmt.poll = some false ∧
    (booting 2 (some false) false).mgmt.stage = 2 ∧ (booting 3 (some false) false).mgmt.stage = 3 ∧ s.power = true ∧
    nextTurn s = ⟨1, .boot⟩ ∧ allTasks (settle (bootNext (beginTurn s ⟨1, .boot⟩))) ≠ [] ∧
    serialKept 0 (beginTurn s ⟨1, .boot⟩) (settle (bootNext (beginTurn s ⟨1, .boot⟩))) = true := by decide +kernel

/-- A row and a pair of channels are on the disable list. -/
theorem test_hyp_PowerAndBoot_disabled : let s := disableUnit (disableUnit State.reset (.row 127)) (.channels 15)
    Disabled.row 127 ∈ s.mgmt.disable ∧ Disabled.channels 15 ∈ s.mgmt.disable ∧ (resetConf s).rowEn.getLsbD 127 = false ∧
    (resetConf s).lpen.getLsbD 30 = false ∧ (resetConf s).lpen.getLsbD 31 = false := by decide +kernel

theorem test_hyp_DecodeEncode : (Instr.add 31 0 31).WellFormed ∧ encode (.add 31 0 31) = some 0x01F00FB3 ∧
    decode 0x01F00FB3 = .ok (.add 31 0 31) := by decide +kernel

/-- The module's core 0 issues `add` from a line its instruction cache holds. -/
def issuing : State := { mod0 [(12, 5), (13, 2)] with
  agenda := [⟨1, .issue 0 false⟩], eng := { (mod0 []).eng with icache := [⟨0, 0x400, 0, List.replicate 16 0x00D60633⟩] } }

theorem test_hyp_StepRuns : let b := beginTurn issuing ⟨1, .issue 0 false⟩
    let f := dropPerformed (focus b 1)
    issuing.power = true ∧ nextTurn issuing = ⟨1, .issue 0 false⟩ ∧ 3 ≤ issuing.mgmt.stage ∧
    (portOrder b 0 (portsNow b 0)).map (fun t => t.key) = [1] ∧ (portsNow b 0).scalar = false ∧ (portsNow b 0).chosen = none ∧
    b.sched.ports = [] ∧ f.cur.resumed = false ∧ f.conf.retrans = none ∧ f.cur.chunk.due = false ∧ f.cur.chunk.want = none ∧ f.cur.deferred = [] ∧
    f.cur.chunk.instrs < 512 ∧ f.cur.imgd = none ∧ f.cur.ctx.rep = none ∧ fetchWord f f.cur = some 0x00D60633 ∧
    decode 0x00D60633 = .ok (.add 12 12 13) ∧
    progressed f.cur (after (.add 12 12 13) f).cur = true ∧ (after (.add 12 12 13) f).tasks = [] := by decide +kernel

/-- The same in a cycle in which the core has used its scalar port, and one in which a task waits on an empty register. -/
theorem test_hyp_StepRuns_used : let s := { issuing with agenda := [⟨0, .issue 0 false⟩], sched := { issuing.sched with
      ports := [(0, ⟨100, [1], true, false, some 1⟩)] } }
    let b := beginTurn s ⟨0, .issue 0 false⟩
    (portOrder b 0 (portsNow b 0)).map (fun t => t.key) = [1] ∧ (portsNow b 0).scalar = true ∧
    (let f := dropPerformed (focus (beginTurn (withCur issuing fun t => { t with ctx := { t.ctx with gFull := 1#32 } })
        ⟨1, .issue 0 false⟩) 1)
     progressed f.cur (after (.add 12 12 13) f).cur = false ∧ (after (.add 12 12 13) f).eng.arrays = f.eng.arrays) := by decide +kernel

/-- A serial chunk, in a state in which it holds its token or in one in which it waits for it, has read a line that a unit's
store would change. -/
theorem test_hyp_StepRuns_serial : let s := mod0 []
    let b := { withCur s fun t => { t with chunk := { t.chunk with serial := true, want := some (.cluster 0), rlines := [0x400] } } with
      sched := { s.sched with tokens := [(.cluster 0, 1)] } }
    let t := devWrite b 0x10000 [1] none
    (∃ u ∈ allTasks t, u.key ≠ 0 ∧ runsSerial t u = true ∧
      ∃ l ∈ u.chunk.rlines ++ u.chunk.wlines, lineState b l ≠ lineState t l) ∧
    (∀ u ∈ allTasks serialTask, runsSerial serialTask u = false) ∧ (allTasks serialTask).length = 1 := by
  decide +kernel

theorem test_hyp_StepRuns_unit : let s := { mod0 [] with agenda := [⟨1, .unit .siloFlush⟩] }
    nextTurn s = ⟨1, .unit .siloFlush⟩ ∧ Instr.siloFlush.hasWord = false := by decide +kernel

theorem test_hyp_Progress : State.reset.power = true := rfl

/-- The step that `issuing` takes, by its first register and its memory. -/
def stepped (s : State) : Option (Word × Bool) := match step s with
  | .next t => some (t.cur.ctx.g[12], t.mem.wf)
  | _ => none

theorem test_hyp_MemoryInvariant : issuing.mem.wf = true ∧ stepped issuing = some (7, true) := by decide +kernel

/-- Two images of four bytes, signed with the key 1: headers and bodies, as little-endian numbers. -/
def firstImage : Nat :=
  0x1300000000000000000000000000000000000000000000000000000000000000004c4c97f812bd6f7b168088dbcf92f3a15b32b5a1624743f2bfd71826beb23eb118510cced481932fb36964d1e1507d431eafd447e2b287efaa46d63634e026e8e810bd0cfeca7fdbe34ff17ee7a347886b3fc1b7813aa6a2ff45cf68f0641c1d15533c2641038242118191772146460e282991f94f059ce16458ecfe290bb76252d5cf958eebb15ca4c2f920751dbe8a1eafd447e2b287efaa46d63634e026e8e810bd0cfeca7fdbe34ff17ee7a347886b3fc1b7813aa6a2ff45cf68f0641c1d0000000008000000000000000800000000000000000000040000000038464d49
def secondImage : Nat :=
  0x130000000000000000000000000000000000000000000000000000000000000000b07d543a12f851a30466b37517938f95d2f4d626df6e251aa8e9ae3ab192424efe85d98d1a05028e41e66c44073c1a541eafd447e2b287efaa46d63634e026e8e810bd0cfeca7fdbe34ff17ee7a347886b3fc1b7813aa6a2ff45cf68f0641c1d15533c2641038242118191772146460e282991f94f059ce16458ecfe290bb76252d5cf958eebb15ca4c2f920751dbe8a1eafd447e2b287efaa46d63634e026e8e810bd0cfeca7fdbe34ff17ee7a347886b3fc1b7813aa6a2ff45cf68f0641c1d0000000008010080000000000801008000000000000000040000000038464d49

/-- Bytes where they stand in flash. -/
def placed (n : Nat) (bs : List Byte) : Tab Byte := bs.zipIdx.map fun x => (n + x.2, x.1)

theorem placed_at (n : Nat) (bs : List Byte) (k : Nat) (h : k < bs.length) :
    (placed n bs).find? (fun e => e.1 == n + k) = some (n + k, bs[k]) := by
  have : ∀ (bs : List Byte) (i k : Nat) (h : k < bs.length),
      ((bs.zipIdx i).map fun x => (n + x.2, x.1)).find? (fun e => e.1 == n + (i + k)) = some (n + (i + k), bs[k]) := by
    intro bs
    induction bs with
    | nil => intro i k h; simp at h
    | cons b bs ih =>
      intro i k h
      cases k with
      | zero => simp
      | succ k =>
        have := ih (i + 1) k (by simpa using h)
        rw [show i + 1 + k = i + (k + 1) by omega] at this
        simpa [List.zipIdx_cons] using this
  simpa [placed] using this bs 0 k h

theorem placed_before (n : Nat) (bs : List Byte) (k : Nat) (h : n + bs.length ≤ k) :
    (placed n bs).find? (fun e => e.1 == k) = none := by
  simp only [placed, List.find?_eq_none, List.mem_map, Prod.exists]
  rintro x ⟨b, i, hb, rfl⟩
  have := List.snd_lt_of_mem_zipIdx hb
  simp; omega

/-- Bytes placed in flash read back. -/
theorem placed_read (n o m : Nat) (bs : List Byte) (t : Tab Byte) (h : o + m ≤ bs.length) :
    tabBytes (placed n bs ++ t) (n + o) m = (bs.drop o).take m := by
  apply List.ext_getElem
  · simp [tabBytes]; omega
  · intro i h1 h2
    have hi : i < m := by simpa [tabBytes] using h1
    simp [tabBytes, Tab.get, List.find?_append, Nat.add_assoc, placed_at n bs (o + i) (by omega)]

theorem placed_skip (n a m : Nat) (bs : List Byte) (t : Tab Byte) (h : n + bs.length ≤ a) :
    tabBytes (placed n bs ++ t) a m = tabBytes t a m := by
  apply List.map_congr_left
  intro i _
  simp [Tab.get, List.find?_append, placed_before n bs (a + i) (by omega)]

theorem length_bytesOfNat (n v : Nat) : (bytesOfNat n v).length = n := by
  induction n generalizing v with
  | zero => rfl
  | succ n ih => simp [bytesOfNat, ih]

/-- Flash with two images signed with the key whose hash KEYHASH holds; the second one may be missing. -/
def signed (second : Bool) : State :=
  let s := State.reset
  { s with mgmt := { s.mgmt with
      crypto := { s.mgmt.crypto with keyhash := 0xe7621064df002f3dfc4ebfbb2d516984793dc57441010755c7981c139d3e89ab3bc2dfe550d90bf4d6629ada61cb86c3 }
      flash := placed 0 (bytesOfNat 260 firstImage) ++ if second then placed damdinAt (bytesOfNat 260 secondImage) ++ [] else [] } }

/-- An image whose header and signature pass. -/
theorem boots {s : State} {o : Nat} {second : Bool} {i : List Byte} {d : BitVec 384}
    (hf : ∀ n m, n + m ≤ 260 → tabBytes s.mgmt.flash (o + n) m = (i.drop n).take m)
    (hh : bootHeaderOk (i.take 256) second = true ∧ hdrBlen (i.take 256) = 4)
    (hk : digOf (sha384 (((i.take 256).drop 0x20).take 96)) = s.mgmt.crypto.keyhash)
    (hd : digOf (sha384 ((i.take 256).take 128 ++ (i.drop 256).take 4)) = d)
    (hv : verifyError (digOf (sha384 (((i.take 256).drop 0x20).take 96))) d (((i.take 256).drop 0x20).take 96)
      (BitVec.ofNat 768 (natBE (((i.take 256).drop 0x80).take 96))) = 0) : bootError s o second = 0 := by
  have h1 : flashHeader s o = i.take 256 := by simpa [flashHeader] using hf 0 256 (by decide)
  have h2 : flashBody s o = (i.drop 256).take 4 := by
    rw [flashBody, h1, hh.2]; exact hf 256 4 (by decide)
  have h3 : flashDigest s o = d := by rw [flashDigest, h1, h2, hd]
  rw [bootError, h1, h3, ← hk, hv, hh.1]; rfl

theorem stage0_keeps (s : State) : (bootStage0 s).mgmt.flash = s.mgmt.flash ∧
    (bootStage0 s).mgmt.crypto.keyhash = s.mgmt.crypto.keyhash := by
  unfold bootStage0
  simp only
  split
  · simp only [bootHalt, modMbox, modMgmt, and_self]
  · split
    · simp only [bootHalt, ran, bootRegs, sramPut, modCrypto, modMbox, modMgmt, and_self]
    · simp only [bootEnter, ran, measExtend, bootRegs, sramPut, modCrypto, modMgmt, and_self]

theorem test_hyp_PowerAndBoot_key : digOf (sha384 (((((bytesOfNat 260 firstImage).take 256).drop 0x20).take 96))) =
    0xe7621064df002f3dfc4ebfbb2d516984793dc57441010755c7981c139d3e89ab3bc2dfe550d90bf4d6629ada61cb86c3 := by decide +kernel

theorem test_hyp_PowerAndBoot_digest0 : digOf (sha384 (((bytesOfNat 260 firstImage).take 256).take 128 ++
    ((bytesOfNat 260 firstImage).drop 256).take 4)) =
    0xb31a0a740bcd90db9c4ab6d16731538c3e267fe0947bde8f35d9ead140fc471a8907694b1031fc7bc7703c3399c70293 := by decide +kernel

theorem test_hyp_PowerAndBoot_digest1 : digOf (sha384 (((bytesOfNat 260 secondImage).take 256).take 128 ++
    ((bytesOfNat 260 secondImage).drop 256).take 4)) =
    0x36fdd716db9da041eb5bca98d6184692c5faeec9bbbd99c43ea5a3e11a19e3e9ad68b2e33edd1f59b3ca452ff27fce92 := by decide +kernel

theorem sameKey : (((bytesOfNat 260 secondImage).take 256).drop 0x20).take 96 =
    (((bytesOfNat 260 firstImage).take 256).drop 0x20).take 96 := by decide +kernel

theorem test_hyp_PowerAndBoot_stage0 (b : Bool) : bootError (resetPackage (signed b)) 0 false = 0 :=
  boots (i := bytesOfNat 260 firstImage) (fun n m h => placed_read 0 n m _ _ (by rw [length_bytesOfNat]; exact h)) (by decide +kernel)
    test_hyp_PowerAndBoot_key test_hyp_PowerAndBoot_digest0 (by
      rw [test_hyp_PowerAndBoot_key, verifyError, test_hyp_PowerAndBoot_key, if_neg (by simp)]; decide +kernel)

/-- Stage 0 passes to stage 1. -/
theorem test_hyp_PowerAndBoot_passes (b : Bool) : let s := bootStage0 (resetPackage (signed b))
    s.mgmt.stage = 1 ∧ s.mgmt.poll = none ∧ s.mgmt.halted = false := by
  unfold bootStage0
  rw [test_hyp_PowerAndBoot_stage0 b]
  exact ⟨rfl, rfl, rfl⟩

theorem test_hyp_PowerAndBoot_stage1 : bootError (bootStage0 (resetPackage (signed true))) damdinAt true = 0 :=
  boots (i := bytesOfNat 260 secondImage)
    (fun n m h => by
      rw [(stage0_keeps _).1]
      exact (placed_skip 0 _ m _ _ (by rw [length_bytesOfNat, damdinAt]; omega)).trans (placed_read damdinAt n m _ _ (by rw [length_bytesOfNat]; exact h)))
    (by decide +kernel) (by rw [sameKey, test_hyp_PowerAndBoot_key, (stage0_keeps _).2]; rfl) test_hyp_PowerAndBoot_digest1 (by
      rw [sameKey, test_hyp_PowerAndBoot_key, verifyError, test_hyp_PowerAndBoot_key, if_neg (by simp)]; decide +kernel)

/-- A second image that is missing stops stage 1. -/
theorem test_hyp_PowerAndBoot_missing : bootHeaderOk [] true = false := by decide +kernel

/-! ### Words of the manual, and the instructions they are -/

theorem test_word_add : decode 0x00D60633 = .ok (.add 12 12 13) := by decide +kernel
theorem test_word_addi : decode 0x00850513 = .ok (.addi 10 10 8) := by decide +kernel
theorem test_word_sltiu : decode 0x01163293 = .ok (.sltiu 5 12 17) := by decide +kernel
theorem test_word_slli : decode 0x00899993 = .ok (.slli 19 19 8) := by decide +kernel
theorem test_word_srai : decode 0x43F2D293 = .ok (.srai 5 5 63) := by decide +kernel
theorem test_word_mul : decode 0x027302B3 = .ok (.mul 5 6 7) := by decide +kernel
theorem test_word_div : decode 0x027342B3 = .ok (.div 5 6 7) := by decide +kernel
theorem test_word_lui : decode 0x02000A37 = .ok (.lui 20 0x02000) := by decide +kernel
theorem test_word_auipc : decode 0x00001297 = .ok (.auipc 5 1) := by decide +kernel
theorem test_word_jal : decode 0x0000006F = .ok (.jal 0 0) := by decide +kernel
theorem test_word_jal_link : decode 0x010000EF = .ok (.jal 1 8) := by decide +kernel
theorem test_word_jalr : decode 0x00008067 = .ok (.jalr 0 1 0) := by decide +kernel
theorem test_word_bne : decode 0xFE0598E3 = .ok (.bne 11 0 (BitVec.ofInt 12 (-8))) := by decide +kernel
theorem test_word_ld : decode 0x00053683 = .ok (.ld 13 10 0) := by decide +kernel
theorem test_word_bchk : (decode 0x1862F90B).toOption.bind encode = some 0x1862F90B := by decide +kernel
theorem test_word_amo : decode 0x80B5360B = .ok (.amo .d .add false 12 10 11) := by decide +kernel
theorem test_word_brk : decode 0x1000502B = .ok .brk := by decide +kernel
theorem test_word_trap : decode 0x1210502B = .ok (.trap 1) := by decide +kernel
theorem test_word_tend : decode 0x0000502B = .ok .tend := by decide +kernel
theorem test_word_yield : decode 0x0200502B = .ok .yield := by decide +kernel
theorem test_word_cpy : decode 0x60B5167B = .ok (.cpy false true .pkg .plain 12 10 11) := by decide +kernel
theorem test_word_nalloc : decode 0x0006C67B = .ok (.nalloc 12 13) := by decide +kernel
theorem test_word_vadd : decode 0x0010245B = .ok (.vadd .i32 0 8 0 1) := by decide +kernel
theorem test_word_lx : decode 0x0005368B = .ok (.lx .d .pl .no false 13 10 0) := by decide +kernel
theorem test_word_lxq : decode 0x0005470B = .ok (.lxQ .pl .no false 14 10 0) := by decide +kernel
theorem test_word_lx_policy : decode 0x2C55360B = .ok (.lx .d .wfe .far false 12 10 5) := by decide +kernel
theorem test_word_bounds : decode 0x1862F90B = .ok (.bchk 18 5 6) := by decide +kernel
theorem test_word_rpart : decode 0x0002F92B = .ok (.rpart 18 5) := by decide +kernel
theorem test_word_rpt : decode 0x0C00602B = .ok (.rpt 3 0 .s1) := by decide +kernel
theorem test_word_rpt_stride : decode 0x1C90602B = .ok (.rpt 7 2 .s2) := by decide +kernel
theorem test_word_vbcast : decode 0x0A25725B = .ok (.vbcast 4 10 2) := by decide +kernel
theorem test_word_vcmp : decode 0x541070DB = .ok (.vcmp .lt .i32 1 0 1) := by decide +kernel
theorem test_word_vld : decode 0x000571DB = .ok (.vld 3 10) := by decide +kernel
theorem test_word_vst : decode 0x0205F05B = .ok (.vst 0 11) := by decide +kernel
theorem test_word_vldx : decode 0x0475735B = .ok (.vldx 6 10 7) := by decide +kernel
theorem test_word_vsel : decode 0x1062F25B = .ok (.vsel 4 5 6) := by decide +kernel
theorem test_word_vsll : decode 0xA05231DB = .ok (.vsll .i64 0 3 4 5) := by decide +kernel

/-- Words that R57 to R60 call illegal: a compressed form, a reserved opcode, an unused field that is set, a mask above 7. -/
theorem test_word_illegal : (decode 0x00000000).toOption = none ∧ (decode 0x0000000F).toOption = none ∧
    (decode 0x0000506B).toOption = none ∧ (decode 0x0010502B).toOption = none ∧ (decode 0x5410745B).toOption = none := by
  decide +kernel

/-! ### Terms that are no instructions -/

theorem test_wf_lxq : (Instr.lxQ .pl .no false 3 1 2).wf = false ∧ (Instr.lxQ .pl .no false 0 1 2).wf = false ∧
    (Instr.lxQ .pl .no false 28 1 2).wf = false := by decide
theorem test_wf_cwait : (Instr.cwait 0).wf = false ∧ (Instr.cwait 4).wf = false := by decide
theorem test_wf_msg : ¬Instr.WellFormed (.msg 1 2 3 9) := by decide
theorem test_wf_wset : (Instr.wset 0 .bag 1 0).wf = false ∧ (Instr.wset 0 .bag 0 1).wf = false ∧
    (Instr.wset 0 .full 1 1).wf = false := by decide
theorem test_wf_wait : (Instr.wait 0 false 1 2).wf = false := by decide
theorem test_wf_getst : (Instr.getst 1 15).wf = false := by decide
theorem test_wf_compare : (Instr.vcmp .lt .i8 0 1 2).wf = false ∧ (Instr.vcmp .lt .i8 8 1 2).wf = false ∧
    (Instr.vfcmp .eq .f32 false false false 0 1 2).wf = false := by decide
theorem test_wf_lanes : (Instr.vbcast 1 2 4).wf = false ∧ (Instr.vmvVg 1 2 8).wf = false ∧ (Instr.vmvGv 1 2 8).wf = false := by
  decide
theorem test_wf_vfcvt : (Instr.vfcvt 1 2 31).wf = false ∧ (Instr.vfcvt 1 31 16).wf = false ∧ (Instr.vfcvt 1 31 15).wf = true := by
  decide
theorem test_wf_masks : (Instr.mand 0 1 2).wf = false ∧ (Instr.mor 1 8 2).wf = false ∧ (Instr.mxor 1 2 8).wf = false ∧
    (Instr.mnot 0 1).wf = false ∧ (Instr.mpop 1 8).wf = false ∧ (Instr.mfirst 1 8).wf = false := by decide
theorem test_wf_sfckey : (Instr.sfckey 1 2 4).wf = false ∧ (Instr.sfckey 1 31 0).wf = false ∧ (Instr.sfckey 1 30 1).wf = false := by
  decide
theorem test_wf_matrix : (Instr.mldA 8 1 2).wf = false ∧ (Instr.mldB 8 1 2).wf = false ∧ (Instr.mst 4 1 2).wf = false ∧
    (Instr.mzero 4).wf = false ∧ (Instr.mma 0 false false 12 1).wf = false := by decide

/-! ### One instruction each, by hand from its entry -/

/-- What an instruction leaves in g3 (`vs` are the registers before). -/
def g3 (i : Instr) (vs : List (Nat × Nat)) : Word := (after i (mod0 vs)).cur.ctx.g[3]

/-- `addw` copies bit 31 into the upper half. -/
theorem test_addw : g3 (.addw 3 1 2) [(1, 0x7FFFFFFF), (2, 1)] = 0xFFFFFFFF80000000 := by decide +kernel
theorem test_sub_wraps : g3 (.sub 3 1 1) [(1, 5)] = 0 ∧ g3 (.sub 3 0 1) [(1, 1)] = 0xFFFFFFFFFFFFFFFF := by decide +kernel
theorem test_slt : g3 (.slt 3 1 2) [(1, 2 ^ 63), (2, 0)] = 1 ∧ g3 (.sltu 3 1 2) [(1, 2 ^ 63), (2, 0)] = 0 := by decide +kernel
theorem test_sra : g3 (.sra 3 1 2) [(1, 2 ^ 63), (2, 127)] = 0xFFFFFFFFFFFFFFFF := by decide +kernel
theorem test_mulh : g3 (.mulh 3 1 1) [(1, 2 ^ 64 - 1)] = 0 ∧ g3 (.mulhu 3 1 1) [(1, 2 ^ 64 - 1)] = 0xFFFFFFFFFFFFFFFE := by
  decide +kernel
/-- Division by zero and the overflow of the most negative number. -/
theorem test_div : g3 (.div 3 1 2) [(1, 7)] = 0xFFFFFFFFFFFFFFFF ∧ g3 (.div 3 1 2) [(1, 2 ^ 63), (2, 2 ^ 64 - 1)] = 0x8000000000000000 := by
  decide +kernel
theorem test_rem : g3 (.rem 3 1 2) [(1, 7)] = 7 ∧ g3 (.rem 3 1 2) [(1, 2 ^ 64 - 7), (2, 3)] = 0xFFFFFFFFFFFFFFFF := by decide +kernel
/-- g0 discards what is written to it. -/
theorem test_g0 : (after (.addi 0 1 5) (mod0 [(1, 1)])).cur.ctx.g[0] = 0 ∧ (after (.addi 0 1 5) (mod0 [])).cur.ctx.pc = 0x10004 := by
  decide +kernel
theorem test_jal : g3 (.jal 3 8) [] = 0x10004 ∧ (after (.jal 3 8) (mod0 [])).cur.ctx.pc = 0x10010 := by decide +kernel
theorem test_bne : (after (.bne 1 2 (BitVec.ofInt 12 (-8))) (mod0 [(1, 1)])).cur.ctx.pc = 0xFFF0 ∧
    (after (.bne 1 2 (BitVec.ofInt 12 (-8))) (mod0 [])).cur.ctx.pc = 0x10004 := by decide +kernel
/-- A byte of all ones is loaded with and without its sign. -/
theorem test_lb : let s := { mod0 [(1, 0x10008)] with mem := (mod0 []).mem.write 0x10008 0xFF }
    (after (.lb 3 1 0) s).cur.ctx.g[3] = 0xFFFFFFFFFFFFFFFF ∧ (after (.lbu 3 1 0) s).cur.ctx.g[3] = 0xFF := by decide +kernel
/-- Vector addition wraps in each lane and leaves the others alone. -/
theorem test_vadd : let s := withCur (mod0 []) fun t => { t with ctx := { t.ctx with v := t.ctx.v.set 1 0x1FF } }
    (after (.vadd .i8 0 3 1 1) s).cur.ctx.v[3] = 0x2FE := by decide +kernel
/-- `brk` enters the image's trap routine with its own address saved and cause 0x10 (Table 08.1). -/
theorem test_brk : let t := after .brk (withTrap [])
    t.cur.ctx.pc = 0x40 ∧ t.cur.ctx.trapPc = 0x10000 ∧ t.cur.ctx.trapCause = 0x10 ∧ t.cur.ctx.trapMode = true := by decide +kernel

end Sys2Proof.Tests
end

section
/-! PROOFS. What `wait` and `slp` share: an operation that stands alone and may issue at once. -/

namespace Sys2Proof.Machine

/-- An instruction whose registers let it issue, and which may stand alone at once, is its own operation (R72, R111). -/
theorem gate_alone_of_ready {s : State} {gs gd : List Reg} (hr : Ready s gs gd) (ha : Alone s) (k : Out) :
    gate s (.g gs gd) (alone s k) = k := by
  obtain ⟨hfresh, hserial, hbaton, -⟩ := ha
  rw [gate_ready hr, alone_fresh hfresh hserial hbaton]

theorem takeG_cur (s : State) (r : Reg) : takeG s.cur r = (arg1 s r, read1 s r) := rfl

/-- Reading a source may move the message position and changes nothing else of the task. -/
theorem read1_eq (s : State) (r : Reg) : read1 s r = { s.cur with ctx := (read1 s r).ctx } := by
  unfold read1 takeG; split_ifs <;> rfl

@[simp] theorem read1_core (s : State) (r : Reg) : (read1 s r).core = s.cur.core := by rw [read1_eq]

end Sys2Proof.Machine
end

section
/-! PROOFS. `wait`: the rule over its enabled slots, its deadline, and the steps that end it (R103, R452). -/

namespace Sys2Proof.Machine

/-! ### The rule, bit by bit -/

theorem and_eq_right_iff_getLsbD {w : Nat} {b e : BitVec w} :
    b &&& e = e ↔ ∀ k, k < w → e.getLsbD k = true → b.getLsbD k = true := by
  constructor
  · intro h k _ he
    rw [← h, BitVec.getLsbD_and, Bool.and_eq_true] at he
    exact he.1
  · intro h
    refine BitVec.eq_of_getLsbD_eq fun k hk => ?_
    rw [BitVec.getLsbD_and, Bool.and_eq_right_iff_imp]
    exact h k hk

theorem and_ne_zero_iff_getLsbD {w : Nat} {b e : BitVec w} :
    b &&& e ≠ 0 ↔ ∃ k, k < w ∧ e.getLsbD k = true ∧ b.getLsbD k = true := by
  constructor
  · contrapose!
    intro h
    refine BitVec.eq_of_getLsbD_eq fun k hk => ?_
    by_cases he : e.getLsbD k = true
    · simp [Bool.eq_false_of_not_eq_true (h k hk he)]
    · simp [he]
  · rintro ⟨k, _, he, hb⟩ h
    simpa [he, hb] using congrArg (·.getLsbD k) h

theorem waitMet_iff (t : Task) (e : BitVec 4) (all : Bool) :
    waitMet t e all = true ↔ if all then satBits t &&& e = e else satBits t &&& e ≠ 0 := by
  cases all <;> simp [waitMet]

/-- The rule by slots: every enabled slot is satisfied, or some enabled slot is. -/
theorem waitMet_iff_getLsbD (t : Task) (e : BitVec 4) (all : Bool) :
    waitMet t e all = true ↔ if all then ∀ k, k < 4 → e.getLsbD k = true → (satBits t).getLsbD k = true
      else ∃ k, k < 4 ∧ e.getLsbD k = true ∧ (satBits t).getLsbD k = true := by
  rw [waitMet_iff, and_eq_right_iff_getLsbD, and_ne_zero_iff_getLsbD]

/-! ### The deadline -/

/-- The deadline a `wait` takes from its timeout operand: none where it names g0 (R103). -/
def waitDeadline (s : State) (r : Reg) : Option Nat := if r = 0 then none else some (ticks s + (arg1 s r).toNat)

@[simp] theorem deadlinePast_some (s : State) (n : Nat) : deadlinePast s (some n) = decide (n ≤ s.time / 17) := rfl

/-- The deadline has come at issue where a register names it and holds 0. -/
theorem deadlinePast_waitDeadline_iff (s : State) (r : Reg) :
    deadlinePast s (waitDeadline s r) = true ↔ r ≠ 0 ∧ (arg1 s r).toNat = 0 := by
  by_cases h : r = 0
  · simp [waitDeadline, deadlinePast, h]
  · rw [waitDeadline, if_neg h, deadlinePast_some, ticks, decide_eq_true_eq, and_iff_right h]
    omega

/-! ### What a `wait` returns -/

/-- Bit 8 is clear where the rule was met. -/
theorem finishWait_met (s : State) (t : Task) (d : Reg) : finishWait s t d false =
    retireAlone s { t with hold := none, since := s.time, ctx := setG t.ctx d ((satBits t).zeroExtend 64) } := by
  simp [finishWait]

/-! ### The steps -/

/-- A `wait` that issues returns for its rule, or for a deadline that has come, or holds its slot. -/
theorem exec_wait_ready {s : State} {e : BitVec 4} {all : Bool} {d r : Reg} (hr : Ready s [r] [d]) (ha : Alone s)
    (hd : destRoom s.cur d = true) : exec (.wait e all d r) s = .next (
      if waitMet (read1 s r) e all then finishWait s (read1 s r) d false
      else if deadlinePast s (waitDeadline s r) then finishWait s (read1 s r) d true
      else { s with cur := { read1 s r with hold := some (.wait e all d (waitDeadline s r)) } }) := by
  rw [exec_wait, execWait, gate_alone_of_ready hr ha, takeG_cur]
  obtain ⟨-, -, -, hhold⟩ := ha
  simp only
  rw [if_neg (by simp [hhold]), if_neg (by simp [hd]), ← waitDeadline]
  split_ifs <;> rfl

/-- WAIT_RETURN ends a wait exactly where its rule is met. -/
theorem exec_waitReturn_holding {s : State} {core slot : Nat} {t : Task} {e : BitVec 4} {all : Bool} {d : Reg} {l : Option Nat}
    (ht : taskAt s core slot = some t) (hh : t.hold = some (.wait e all d l)) : exec (.waitReturn core slot) s = .next (
      if waitMet t e all then onTask s t.key fun v => finishWait v v.cur d false else s) := by
  simp only [exec_waitReturn, execWaitReturn, ht, hh]
  split_ifs <;> rfl

/-- WAIT_TIMEOUT ends a wait exactly where its deadline has come, late where its rule is not met. -/
theorem exec_waitTimeout_holding {s : State} {core slot : Nat} {t : Task} {e : BitVec 4} {all : Bool} {d : Reg} {l : Option Nat}
    (ht : taskAt s core slot = some t) (hh : t.hold = some (.wait e all d l)) : exec (.waitTimeout core slot) s = .next (
      if deadlinePast s l then onTask s t.key fun v => finishWait v v.cur d (!waitMet t e all) else s) := by
  simp only [exec_waitTimeout, execWaitTimeout, ht, hh]
  split_ifs <;> rfl

/-- Settles O25: the model's rule, deadline and result are those of R103 bit by bit, and each step is a case of them. -/
theorem waits : Obligations.Waits := by
  unfold Obligations.Waits
  refine ⟨?issues, ?ends⟩
  case issues =>
    intro s e all d r hr ha hd
    simp only [← waitMet_iff_getLsbD, exec_wait_ready hr ha hd]
    have hl := deadlinePast_waitDeadline_iff s r
    refine ⟨fun hmet => ?_, fun hmet h0 hx => ?_, fun hmet hnow => ?_⟩
    · rw [if_pos hmet, finishWait_met]
    · rw [if_neg hmet, if_pos (hl.2 ⟨h0, hx⟩)]; rfl
    · rw [if_neg hmet, if_neg (by rw [hl]; tauto)]; rfl
  case ends =>
    intro s core slot t e all d l ht hh
    simp only [← waitMet_iff, exec_waitReturn_holding ht hh, exec_waitTimeout_holding ht hh]
    refine ⟨fun hmet => ?_, fun hmet => ?_, fun n hn hpast => ⟨fun hmet => ?_, fun hmet => ?_⟩, fun n hn hahead => ?_⟩
    · rw [if_pos hmet]; rfl
    · rw [if_neg hmet]
    · rw [hn, if_pos (by simpa using hpast), hmet]; rfl
    · rw [hn, if_pos (by simpa using hpast), Bool.not_eq_true _ |>.mp hmet]; rfl
    · rw [hn, if_neg (by simpa using hahead)]

end Sys2Proof.Machine
end

section
/-! PROOFS. `slp` and SLP_WAKE: what a sleeper finds of a time and of a ticket, and how its sleep ends (R104, R148, R415,
R416). -/

namespace Sys2Proof.Machine

/-! ### What a sleeper finds -/

/-- A word with bit 63 clear is a time of the time base (R415). -/
theorem slpWakes_time {s : State} {x : Word} (h : bitOf x 63 = false) (t : Task) :
    slpWakes s t x = if x.toNat ≤ s.time then some false else none := by
  simp [slpWakes, h]

theorem slpWakes_gone {s : State} {t : Task} {x : Word} (h : bitOf x 63 = true)
    (hc : ticketRec s t.core t.tenant x = none) : slpWakes s t x = some false := by
  simp [slpWakes, h, hc]

/-- A ticket wakes at its promise, and misses it where its copy is still pending (R148). -/
theorem slpWakes_ticket {s : State} {t : Task} {x : Word} {c : CopyCmd} (h : bitOf x 63 = true)
    (hc : ticketRec s t.core t.tenant x = some c) :
    slpWakes s t x = if promiseNow s t.core c ≤ s.time then some (c.state == .pending) else none := by
  simp [slpWakes, h, hc]

/-! ### The steps -/

/-- The outcome of a `slp` that issues, by what it finds. -/
def slpOutcome (s : State) (r : Reg) : Option Bool → State
  | none => { s with cur := { read1 s r with hold := some (.slp (arg1 s r)) } }
  | some missed => slpEnd s (read1 s r) (arg1 s r) missed

theorem slpOutcome_kept (s : State) (r : Reg) : slpOutcome s r (some false) =
    retireAlone s { read1 s r with hold := none, since := s.time } := rfl

theorem slpOutcome_missed (s : State) (r : Reg) : slpOutcome s r (some true) =
    takeTrap (modCur (markMissed s s.cur.core (arg1 s r)) Task.unread) 0x06 0 0 false false := by
  simp [slpOutcome, slpEnd]

/-- A `slp` that issues on a time or on a well-formed ticket goes on, traps or sleeps by what it finds. -/
theorem exec_slp_ready {s : State} {r : Reg} (hr : Ready s [r] []) (ha : Alone s)
    (hx : bitOf (arg1 s r) 63 = true → fieldNat (arg1 s r) 31 16 = 0) :
    exec (.slp r) s = .next (slpOutcome s r (slpWakes s s.cur (arg1 s r))) := by
  rw [exec_slp, execSlp, gate_alone_of_ready hr ha, takeG_cur]
  obtain ⟨-, -, -, hhold⟩ := ha
  simp only
  rw [if_neg (by simp [hhold]), if_neg (by simpa using hx)]
  cases slpWakes s s.cur (arg1 s r) <;> rfl

/-- A ticket word with bits [31:16] set raises cause 0x02. -/
theorem exec_slp_malformed {s : State} {r : Reg} (hr : Ready s [r] []) (ha : Alone s) (h63 : bitOf (arg1 s r) 63 = true)
    (hx : fieldNat (arg1 s r) 31 16 ≠ 0) : exec (.slp r) s = .next (takeTrap s 0x02 0 0 false false) := by
  rw [exec_slp, execSlp, gate_alone_of_ready hr ha, takeG_cur]
  obtain ⟨-, -, -, hhold⟩ := ha
  simp only
  rw [if_neg (by simp [hhold]), if_pos (by simp [h63, hx]), trap]

/-- SLP_WAKE ends the sleep of a slot where its time or its promise has come. -/
theorem exec_slpWake_sleeping {s : State} {core slot : Nat} {t : Task} {x : Word} (ht : taskAt s core slot = some t)
    (hh : t.hold = some (.slp x)) : exec (.slpWake core slot) s = .next (
      (slpWakes s t x).elim s fun missed => onTask s t.key fun v => slpEnd v v.cur x missed) := by
  simp only [exec_slpWake, execSlpWake, ht, hh]
  cases slpWakes s t x <;> rfl

/-- Settles O27: a step of a sleep is what the sleeper finds, and that is read off the operand's kind and the time. -/
theorem sleeps : Obligations.Sleeps := by
  unfold Obligations.Sleeps
  refine ⟨?issues, ?wakes⟩
  case issues =>
    intro s r hr ha
    refine ⟨fun h63 hle => ?_, fun h63 hlt => ?_, exec_slp_malformed hr ha, fun h63 hz hc => ?_, fun c h63 hz hc =>
      ⟨fun hle hst => ?_, fun hle hst => ?_, fun hlt => ?_⟩⟩
    · rw [exec_slp_ready hr ha (by simp [h63]), slpWakes_time h63, if_pos hle, slpOutcome_kept]
    · rw [exec_slp_ready hr ha (by simp [h63]), slpWakes_time h63, if_neg (not_le.2 hlt), slpOutcome]
    · rw [exec_slp_ready hr ha fun _ => hz, slpWakes_gone h63 hc, slpOutcome_kept]
    · rw [exec_slp_ready hr ha fun _ => hz, slpWakes_ticket h63 hc, if_pos hle, beq_false_of_ne hst, slpOutcome_kept]
    · rw [exec_slp_ready hr ha fun _ => hz, slpWakes_ticket h63 hc, if_pos hle, hst, beq_self_eq_true, slpOutcome_missed]
    · rw [exec_slp_ready hr ha fun _ => hz, slpWakes_ticket h63 hc, if_neg (not_le.2 hlt), slpOutcome]
  case wakes =>
    intro s core slot t x ht hh h63
    refine ⟨fun hle => ?_, fun hlt => ?_⟩
    · rw [exec_slpWake_sleeping ht hh, slpWakes_time h63, if_pos hle]; rfl
    · rw [exec_slpWake_sleeping ht hh, slpWakes_time h63, if_neg (not_le.2 hlt)]; rfl

end Sys2Proof.Machine
end

section
/-! PROOFS. The SPDM responder before the security monitor starts: its sessions, the tests of Table 19.2, the MEASUREMENTS
response of Table 19.3, and stage 1's answer to the pending request (R336, R337, R338). -/

namespace Sys2Proof.Machine

/-! ### What an update leaves of the management die -/

@[simp] theorem modMgmt_mgmt (s : State) (f : Mgmt → Mgmt) : (modMgmt s f).mgmt = f s.mgmt := rfl
@[simp] theorem modMbox_mgmt (s : State) (f : Mailbox → Mailbox) :
    (modMbox s f).mgmt = { s.mgmt with mbox := f s.mgmt.mbox } := rfl
@[simp] theorem modCrypto_mgmt (s : State) (f : Crypto → Crypto) :
    (modCrypto s f).mgmt = { s.mgmt with crypto := f s.mgmt.crypto } := rfl
@[simp] theorem nextFresh_mgmt (s : State) : (nextFresh s).mgmt = s.mgmt := rfl

/-- The draw of a nonce: op 7 run to its end leaves DIG and STAT. -/
theorem ran_opRandom_mgmt (s : State) : (ran (opRandom s).1 7 0).mgmt = { s.mgmt with crypto :=
    { s.mgmt.crypto with dig := digOf (freeBytes s 48), stat := endStat ⟨7, 0, false⟩ } } := by
  simp only [ran, opRandom, modCrypto_mgmt, nextFresh_mgmt]

/-! ### Sessions -/

@[simp] theorem sessionAt_id (s : State) (i : Nat) : (sessionAt s i).id = i := by
  unfold sessionAt
  cases h : s.mgmt.spdm.find? fun x => x.id == i with
  | none => rfl
  | some x => simpa using List.find?_some h

theorem sessionAt_setSession_same (s : State) (x : SpdmSession) : sessionAt (setSession s x) x.id = x := by
  simp [sessionAt, setSession, modMgmt]

theorem sessionAt_spdmSend_same (s : State) (i : Nat) (r : SpdmReply) :
    sessionAt (spdmSend s i r) i = { sessionAt s i with sent := (sessionAt s i).sent ++ [r] } := by
  have h := sessionAt_setSession_same s { sessionAt s i with sent := (sessionAt s i).sent ++ [r] }
  rwa [show SpdmSession.id _ = i from sessionAt_id s i] at h

@[simp] theorem sessionAt_modMbox (s : State) (f : Mailbox → Mailbox) (i : Nat) :
    sessionAt (modMbox s f) i = sessionAt s i := rfl

/-! ### The tests of Table 19.2, in their order -/

section tests
variable {q : List Byte}

theorem measError_version (signed : Bool) (h0 : q.getD 0 0 ≠ 0x13) : measError q signed = some (0x41, 0) := if_pos h0

theorem measError_code (signed : Bool) (h0 : q.getD 0 0 = 0x13) (h1 : q.getD 1 0 ≠ 0xE0) :
    measError q signed = some (0x07, q.getD 1 0) := by
  rw [measError, if_neg (not_not.2 h0), if_pos h1]

/-- Stage 1 signs nothing: a request for a signature fails the third test. -/
theorem measError_signature (h0 : q.getD 0 0 = 0x13) (h1 : q.getD 1 0 = 0xE0) (h2 : (q.getD 2 0).getLsbD 0 = true) :
    measError q false = some (0x07, 0xE0) := by
  rw [measError, if_neg (not_not.2 h0), if_neg (not_not.2 h1), if_pos (by simp only [h2, Bool.not_false, Bool.and_self])]

theorem measError_length (signed : Bool) (h0 : q.getD 0 0 = 0x13) (h1 : q.getD 1 0 = 0xE0)
    (h2 : (q.getD 2 0).getLsbD 0 = false) (hlen : q.length ≠ 4) : measError q signed = some (0x01, 0) := by
  rw [measError, if_neg (not_not.2 h0), if_neg (not_not.2 h1), h2]
  simp [hlen]

/-- The last test refuses exactly the values of Param2 that are neither a block's index, nor 0, nor 0xFF. -/
theorem measError_param2 (signed : Bool) (h0 : q.getD 0 0 = 0x13) (h1 : q.getD 1 0 = 0xE0)
    (h2 : (q.getD 2 0).getLsbD 0 = false) (hlen : q.length = 4) : measError q signed =
      if (q.getD 3 0).toNat ≤ 16 ∨ (q.getD 3 0).toNat = 0xFF then none else some (0x01, 0) := by
  have hp : (16 < (q.getD 3 0).toNat ∧ (q.getD 3 0).toNat ≠ 0xFF) ↔
      ¬((q.getD 3 0).toNat ≤ 16 ∨ (q.getD 3 0).toNat = 0xFF) := by omega
  rw [measError, if_neg (not_not.2 h0), if_neg (not_not.2 h1), h2]
  simp only [hlen, hp, ite_not, Bool.false_and, Bool.false_eq_true, if_false, bne_self_eq_false, Bool.and_false]

/-- A request that passes stage 1's tests asks for no signature. -/
theorem no_signature_of_measError_none (h : measError q false = none) : (q.getD 2 0).getLsbD 0 = false := by
  by_contra h2
  by_cases h0 : q.getD 0 0 = 0x13
  · by_cases h1 : q.getD 1 0 = 0xE0
    · simp [measError_signature h0 h1 (by simpa using h2)] at h
    · simp [measError_code false h0 h1] at h
  · simp [measError_version false h0] at h

end tests

/-! ### The answer to GET_MEASUREMENTS -/

theorem measBytes_eq_measurementsOf (s : State) (p : Nat) (nonce : List Byte) :
    measBytes s p nonce = measurementsOf s p nonce := rfl

/-- The response shows the measurements and nothing else of the state. -/
theorem measurementsOf_congr {s t : State} (h : s.mgmt.meas = t.mgmt.meas) (p : Nat) (nonce : List Byte) :
    measurementsOf s p nonce = measurementsOf t p nonce := by
  simp only [measurementsOf, h]

theorem measAnswer_of_error {req : List Byte} {signed : Bool} {c d : Byte} (s : State) (h : measError req signed = some (c, d)) :
    measAnswer s req signed = (s, errorBytes c d) := by
  simp only [measAnswer, h]

/-- The nonce is the head of what op 7 leaves in DIG (R320, Table 19.3). -/
theorem measAnswer_of_pass {req : List Byte} (s : State) (h : measError req false = none) :
    measAnswer s req false = (ran (opRandom s).1 7 0,
      measurementsOf s (req.getD 3 0).toNat ((digBytes (digOf (freeBytes s 48))).take 32)) := by
  have h2 := no_signature_of_measError_none h
  have hmeas : (ran (opRandom s).1 7 0).mgmt.meas = s.mgmt.meas := by rw [ran_opRandom_mgmt]
  simp only [measAnswer, h, h2, measBytes_eq_measurementsOf, measurementsOf_congr hmeas, ran_opRandom_mgmt,
    Bool.false_eq_true, if_false]

/-- Of the management die, an answer changes the registers of the crypto block alone. -/
theorem measAnswer_mgmt (s : State) (req : List Byte) (signed : Bool) : (measAnswer s req signed).1.mgmt =
    { s.mgmt with crypto := (measAnswer s req signed).1.mgmt.crypto } := by
  unfold measAnswer
  split
  · rfl
  · split_ifs <;> simp only [nextFresh_mgmt, ran_opRandom_mgmt]

/-! ### Stage 1's answer -/

theorem pendingIs_of_poll {s : State} {bs : List Byte} (hpend : s.mgmt.mbox.pend = true) (hbuf : s.mgmt.mbox.rxbuf = bs)
    (hpoll : s.mgmt.poll = some true) : pendingIs s bs = true := by
  simp [pendingIs, hpend, hbuf, hpoll]

/-- Before the monitor starts, a pending request of a served code gets stage 1's answer. -/
theorem serve_stage1 {s : State} {m : SpdmMsg} {takes : Byte → Bool} (k : State → State) (hmon : s.mgmt.mbox.monitor = false)
    (hsess : m.session = 0) (hpend : pendingIs s m.bytes = true) (htakes : takes (spdmCode m) = true) :
    serve s m takes k = .next (clearPend (stage1Answer s m)) := by
  simp [serve, hmon, hsess, hpend, htakes]

/-- Whatever its code, the pending request gets stage 1's answer: GET_MEASUREMENTS and every other request share it. -/
theorem exec_stage1 {s : State} {m : SpdmMsg} (hmon : s.mgmt.mbox.monitor = false) (hsess : m.session = 0)
    (hpend : pendingIs s m.bytes = true) :
    exec (if m.bytes.getD 1 0 = 0xE0 then .getMeasurements m else .spdmUnsupportedRequest m) s =
      .next (clearPend (stage1Answer s m)) := by
  split_ifs with hcode
  · rw [exec_getMeasurements, execGetMeasurements, serve_stage1 _ hmon hsess hpend]
    exact beq_iff_eq.2 hcode
  · rw [exec_spdmUnsupportedRequest, execSpdmUnsupportedRequest, serve_stage1 _ hmon hsess hpend]
    simpa [hmon, spdmCode] using hcode

theorem clearPend_stage1Answer_pend (s : State) (m : SpdmMsg) : (clearPend (stage1Answer s m)).mgmt.mbox.pend = false := rfl

theorem clearPend_stage1Answer_poll (s : State) (m : SpdmMsg) : (clearPend (stage1Answer s m)).mgmt.poll = some false := rfl

theorem clearPend_stage1Answer_crypto (s : State) (m : SpdmMsg) :
    (clearPend (stage1Answer s m)).mgmt.crypto = (measAnswer s m.bytes false).1.mgmt.crypto := by
  simp only [clearPend, stage1Answer, mboxSend, spdmSend, setSession, modMbox_mgmt, modMgmt_mgmt]

/-- The mailbox sends the answer's bytes. -/
theorem clearPend_stage1Answer_mbox_sent (s : State) (m : SpdmMsg) : (clearPend (stage1Answer s m)).mgmt.mbox.sent =
    s.mgmt.mbox.sent ++ [(measAnswer s m.bytes false).2] := by
  have h : (measAnswer s m.bytes false).1.mgmt.mbox = s.mgmt.mbox := by rw [measAnswer_mgmt]
  simp only [clearPend, stage1Answer, mboxSend, spdmSend, setSession, modMbox_mgmt, modMgmt_mgmt, h]

/-- The mailbox's session records them as its response. -/
theorem clearPend_stage1Answer_session_sent (s : State) (m : SpdmMsg) : (sessionAt (clearPend (stage1Answer s m)) 0).sent =
    (sessionAt s 0).sent ++ [.exact (measAnswer s m.bytes false).2] := by
  have h : (measAnswer s m.bytes false).1.mgmt.spdm = s.mgmt.spdm := by rw [measAnswer_mgmt]
  simp only [clearPend, stage1Answer, mboxSend, sessionAt_modMbox, sessionAt_spdmSend_same]
  simp only [sessionAt, modMgmt, h]

/-- Settles O51: stage 1 sends what `measAnswer` says, which is the error of the first failed test or the measurements. -/
theorem stageOneAnswers : Obligations.StageOneAnswers := by
  unfold Obligations.StageOneAnswers
  refine ⟨?answers, ?tests⟩
  case answers =>
    intro s m hmon hpoll hsess hpend hbuf
    refine ⟨_, exec_stage1 hmon hsess (pendingIs_of_poll hpend hbuf hpoll), clearPend_stage1Answer_pend s m,
      clearPend_stage1Answer_poll s m, fun c d herr => ?_, fun hpass => ?_⟩
    · rw [clearPend_stage1Answer_session_sent, clearPend_stage1Answer_mbox_sent, measAnswer_of_error s herr]
      exact ⟨rfl, rfl⟩
    · rw [clearPend_stage1Answer_session_sent, clearPend_stage1Answer_mbox_sent, clearPend_stage1Answer_crypto,
        measAnswer_of_pass s hpass, ran_opRandom_mgmt]
      exact ⟨rfl, rfl⟩
  case tests =>
    intro q
    exact ⟨measError_version false, measError_code false, measError_signature, measError_length false, measError_param2 false⟩

end Sys2Proof.Machine
end

section
/-! PROOFS. The decoder and the encoder agree: what the encoder gives decodes back, and what a decoder of one major opcode
accepts is what the encoder gives back (R57 to R67). -/

namespace Sys2Proof

/-! ### Codes of the small operand types -/

theorem AmoOp.code_of_ofCode {c : BitVec 4} : ∀ {o}, AmoOp.ofCode c = some o → o.code = c := by decide +revert
theorem VCmpOp.code_of_ofCode {c : BitVec 3} : ∀ {o}, VCmpOp.ofCode c = some o → o.code = c := by decide +revert
theorem CopyKind.code_of_ofCode {c : BitVec 3} : ∀ {o}, CopyKind.ofCode c = some o → o.code = c := by decide +revert
theorem WaitCond.code_of_ofCode {c : BitVec 5} : ∀ {o}, WaitCond.ofCode c = some o → o.code = c := by decide +revert

/-! ### A field is put together from its parts -/

theorem eq_seven_of_ne {x : BitVec 3} (h0 : ¬x = 0) (h1 : ¬x = 1) (h2 : ¬x = 2) (h3 : ¬x = 3) (h4 : ¬x = 4) (h5 : ¬x = 5)
    (h6 : ¬x = 6) : x = 7 := by bv_omega

theorem elemType_code {x : BitVec 3} (h4 : ¬x = 4) (h5 : ¬x = 5) (h6 : ¬x = 6) (h7 : ¬x = 7) :
    0#1 ++ (ElemType.ofCode (x.extractLsb' 0 2)).code = x := by decide +revert

theorem memSizeOf_code {x : BitVec 3} (h : x.toNat ≤ 4) (h4 : ¬x = 4) : (memSizeOf x).code = x := by decide +revert

theorem join_shamt (f7 : BitVec 7) (b : BitVec 5) :
    f7.extractLsb' 1 6 ++ (f7.extractLsb' 0 1 ++ b : BitVec 6).extractLsb' 5 1 = f7 ∧
      (f7.extractLsb' 0 1 ++ b : BitVec 6).extractLsb' 0 5 = b := by
  constructor <;>
    (apply BitVec.eq_of_getLsbD_eq; intro k hk
     simp only [BitVec.getLsbD_append, BitVec.getLsbD_extractLsb']
     interval_cases k <;> simp)

theorem fieldsI_immI (f : Fields) : fieldsI (immI f) f.a f.f3 f.d f.op = f := by
  rcases f with ⟨f7, b, a, f3, d, op⟩
  simp only [fieldsI, immI, Fields.mk.injEq, and_true]
  constructor <;>
    (apply BitVec.eq_of_getLsbD_eq; intro k hk
     simp only [BitVec.getLsbD_append, BitVec.getLsbD_extractLsb']
     interval_cases k <;> simp)

theorem immS_parts (f7 b a f3 d op) :
    (immS ⟨f7, b, a, f3, d, op⟩).extractLsb' 5 7 = f7 ∧ (immS ⟨f7, b, a, f3, d, op⟩).extractLsb' 0 5 = d := by
  constructor <;>
    (apply BitVec.eq_of_getLsbD_eq; intro k hk
     simp only [immS, BitVec.getLsbD_append, BitVec.getLsbD_extractLsb']
     interval_cases k <;> simp)

theorem immB_parts (f7 b a f3 d op) :
    immBf7 (immB ⟨f7, b, a, f3, d, op⟩) = f7 ∧ immBd (immB ⟨f7, b, a, f3, d, op⟩) = d := by
  constructor <;>
    (apply BitVec.eq_of_getLsbD_eq; intro k hk
     simp only [immB, immBf7, immBd, BitVec.getLsbD_append, BitVec.getLsbD_extractLsb']
     interval_cases k <;> simp)

theorem fieldsU_immU (f : Fields) : fieldsU (immU f) f.d f.op = f := by
  rcases f with ⟨f7, b, a, f3, d, op⟩
  simp only [fieldsU, immU, Fields.mk.injEq, and_true]
  refine ⟨?_, ?_, ?_, ?_⟩ <;>
    (apply BitVec.eq_of_getLsbD_eq; intro k hk
     simp only [BitVec.getLsbD_append, BitVec.getLsbD_extractLsb']
     interval_cases k <;> simp)

theorem immJu_immJ (f : Fields) : immJu (immJ f) = immU f := by
  generalize hu : immU f = u
  rw [immJ, hu]
  apply BitVec.eq_of_getLsbD_eq; intro k hk
  simp only [immJu, BitVec.getLsbD_append, BitVec.getLsbD_extractLsb']
  interval_cases k <;> simp

/-! ### What a decoder accepts -/

/-- Where a decoder accepts the fields `f`, they are those the encoder gives the instruction (R57 to R67). -/
def Spells (f : Fields) (r : Except Reject Instr) : Prop := ∀ i, r = .ok i → encodeFields i = some f

theorem Spells.ok {f : Fields} {i : Instr} (h : encodeFields i = some f) : Spells f (.ok i) := by
  rintro _ ⟨⟩; exact h

theorem Spells.error {f : Fields} {r : Reject} : Spells f (.error r) := by rintro _ ⟨⟩

theorem Spells.onlyIf {f : Fields} {c : Bool} {i : Instr} (h : c = true → encodeFields i = some f) :
    Spells f (onlyIf c i) := by
  cases c
  · exact .error
  · exact .ok (h rfl)

theorem Spells.ite {f : Fields} {p : Prop} [Decidable p] {x y : Except Reject Instr} (hx : p → Spells f x)
    (hy : ¬p → Spells f y) : Spells f (if p then x else y) := by
  split_ifs with h
  · exact hx h
  · exact hy h

theorem encodes_of_eq {i : Instr} {f g : Fields} (h : encodeFields i = some g) (e : g = f) : encodeFields i = some f := by
  rw [h, e]

/-- The encoder puts a field together from parts: their join is the field. -/
theorem encodes_join {i : Instr} {f7 g7 : BitVec 7} {b a f3 d op} (h : encodeFields i = some ⟨g7, b, a, f3, d, op⟩)
    (e : g7 = f7) : encodeFields i = some ⟨f7, b, a, f3, d, op⟩ := by rw [h, e]

theorem encodes_join_funct3 {i : Instr} {f7 g7 : BitVec 7} {f3 g3 : BitVec 3} {b a d op}
    (h : encodeFields i = some ⟨g7, b, a, g3, d, op⟩) (e7 : g7 = f7) (e3 : g3 = f3) :
    encodeFields i = some ⟨f7, b, a, f3, d, op⟩ := by rw [h, e7, e3]

theorem decOp_spells (f7 b a f3 d) : Spells ⟨f7, b, a, f3, d, 0x33⟩ (decOp ⟨f7, b, a, f3, d, 0x33⟩) := by
  refine .ite ?_ fun _ => .ite ?_ fun _ => .ite ?_ fun _ => .error
  · rintro ⟨⟩
    refine .ite ?_ fun h0 => .ite ?_ fun h1 => .ite ?_ fun h2 => .ite ?_ fun h3 => .ite ?_ fun h4 => .ite ?_ fun h5 =>
      .ite ?_ fun h6 => ?_
    case refine_8 => cases eq_seven_of_ne h0 h1 h2 h3 h4 h5 h6; exact .ok rfl
    all_goals rintro ⟨⟩; exact .ok rfl
  · rintro ⟨⟩
    refine .ite ?_ fun h0 => .ite ?_ fun h1 => .error
    all_goals rintro ⟨⟩; exact .ok rfl
  · rintro ⟨⟩
    refine .ite ?_ fun h0 => .ite ?_ fun h1 => .ite ?_ fun h2 => .ite ?_ fun h3 => .ite ?_ fun h4 => .ite ?_ fun h5 =>
      .ite ?_ fun h6 => ?_
    case refine_8 => cases eq_seven_of_ne h0 h1 h2 h3 h4 h5 h6; exact .ok rfl
    all_goals rintro ⟨⟩; exact .ok rfl

theorem decOp32_spells (f7 b a f3 d) : Spells ⟨f7, b, a, f3, d, 0x3B⟩ (decOp32 ⟨f7, b, a, f3, d, 0x3B⟩) := by
  refine .ite ?_ fun _ => .ite ?_ fun _ => .ite ?_ fun _ => .error
  · rintro ⟨⟩
    refine .ite ?_ fun _ => .ite ?_ fun _ => .ite ?_ fun _ => .error
    all_goals rintro ⟨⟩; exact .ok rfl
  · rintro ⟨⟩
    refine .ite ?_ fun _ => .ite ?_ fun _ => .error
    all_goals rintro ⟨⟩; exact .ok rfl
  · rintro ⟨⟩
    refine .ite ?_ fun _ => .ite ?_ fun _ => .ite ?_ fun _ => .ite ?_ fun _ => .ite ?_ fun _ => .error
    all_goals rintro ⟨⟩; exact .ok rfl

/-- The fields of an I-type word are put together from its immediate. -/
theorem encodes_immI {i : Instr} {f : Fields} (h : encodeFields i = some (fieldsI (immI f) f.a f.f3 f.d f.op)) :
    encodeFields i = some f := by rw [h, fieldsI_immI]

theorem encodes_shamt {i : Instr} {c : BitVec 6} {f7 : BitVec 7} {b a f3 d op} (hc : f7.extractLsb' 1 6 = c)
    (h : encodeFields i = some ⟨c ++ (f7.extractLsb' 0 1 ++ b : BitVec 6).extractLsb' 5 1,
      (f7.extractLsb' 0 1 ++ b : BitVec 6).extractLsb' 0 5, a, f3, d, op⟩) :
    encodeFields i = some ⟨f7, b, a, f3, d, op⟩ := by
  rw [h, ← hc, (join_shamt f7 b).1, (join_shamt f7 b).2]

theorem encodes_immS {i : Instr} {f7 b a f3 d op} (h : encodeFields i = some ⟨(immS ⟨f7, b, a, f3, d, op⟩).extractLsb' 5 7, b, a,
    f3, (immS ⟨f7, b, a, f3, d, op⟩).extractLsb' 0 5, op⟩) : encodeFields i = some ⟨f7, b, a, f3, d, op⟩ := by
  rw [h, (immS_parts ..).1, (immS_parts ..).2]

theorem encodes_immB {i : Instr} {f7 b a f3 d op} (h : encodeFields i = some ⟨immBf7 (immB ⟨f7, b, a, f3, d, op⟩), b, a,
    f3, immBd (immB ⟨f7, b, a, f3, d, op⟩), op⟩) : encodeFields i = some ⟨f7, b, a, f3, d, op⟩ := by
  rw [h, (immB_parts ..).1, (immB_parts ..).2]

theorem decOpImm_spells (f7 b a f3 d) : Spells ⟨f7, b, a, f3, d, 0x13⟩ (decOpImm ⟨f7, b, a, f3, d, 0x13⟩) := by
  refine .ite ?_ fun h0 => .ite ?left fun h1 => .ite ?_ fun h2 => .ite ?_ fun h3 => .ite ?_ fun h4 => .ite ?right fun h5 =>
    .ite ?_ fun h6 => ?last
  case left =>
    rintro ⟨⟩
    exact .ite (fun hc => .ok (encodes_shamt hc rfl)) fun _ => .error
  case right =>
    rintro ⟨⟩
    exact .ite (fun hc => .ok (encodes_shamt hc rfl)) fun _ => .ite (fun hc => .ok (encodes_shamt hc rfl)) fun _ => .error
  case last => cases eq_seven_of_ne h0 h1 h2 h3 h4 h5 h6; exact .ok (encodes_immI rfl)
  all_goals rintro ⟨⟩; exact .ok (encodes_immI rfl)

theorem decOpImm32_spells (f7 b a f3 d) : Spells ⟨f7, b, a, f3, d, 0x1B⟩ (decOpImm32 ⟨f7, b, a, f3, d, 0x1B⟩) := by
  refine .ite ?_ fun _ => .ite ?_ fun _ => .ite ?_ fun _ => .error
  · rintro ⟨⟩; exact .ok (encodes_immI rfl)
  · rintro ⟨⟩; exact .ite (by rintro ⟨⟩; exact .ok rfl) fun _ => .error
  · rintro ⟨⟩
    refine .ite ?_ fun _ => .ite ?_ fun _ => .error
    all_goals rintro ⟨⟩; exact .ok rfl

theorem decLoad_spells (f7 b a f3 d) : Spells ⟨f7, b, a, f3, d, 0x03⟩ (decLoad ⟨f7, b, a, f3, d, 0x03⟩) := by
  refine .ite ?_ fun _ => .ite ?_ fun _ => .ite ?_ fun _ => .ite ?_ fun _ => .ite ?_ fun _ => .ite ?_ fun _ =>
    .ite ?_ fun _ => .error
  all_goals rintro ⟨⟩; exact .ok (encodes_immI rfl)

theorem decStore_spells (f7 b a f3 d) : Spells ⟨f7, b, a, f3, d, 0x23⟩ (decStore ⟨f7, b, a, f3, d, 0x23⟩) := by
  refine .ite ?_ fun _ => .ite ?_ fun _ => .ite ?_ fun _ => .ite ?_ fun _ => .error
  all_goals rintro ⟨⟩; exact .ok (encodes_immS rfl)

theorem decBranch_spells (f7 b a f3 d) : Spells ⟨f7, b, a, f3, d, 0x63⟩ (decBranch ⟨f7, b, a, f3, d, 0x63⟩) := by
  refine .ite ?_ fun _ => .ite ?_ fun _ => .ite ?_ fun _ => .ite ?_ fun _ => .ite ?_ fun _ => .ite ?_ fun _ => .error
  all_goals rintro ⟨⟩; exact .ok (encodes_immB rfl)

/-! ### MEMX and TASK -/

theorem join_lx {f7 : BitVec 7} {k : BitVec 2} (h : f7.extractLsb' 5 2 = k) : k ++ ((LoadMode.ofCode (f7.extractLsb' 3 2)).code ++
    ((WaitClass.ofCode (f7.extractLsb' 1 2)).code ++ bit1 (f7bit f7 0))) = f7 := by subst h; decide +revert

theorem join_sx {f7 : BitVec 7} {k : BitVec 2} (h : f7.extractLsb' 5 2 = k) : k ++ ((StoreMode.ofCode (f7.extractLsb' 3 2)).code ++
    ((WaitClass.ofCode (f7.extractLsb' 1 2)).code ++ bit1 (f7bit f7 0))) = f7 := by subst h; decide +revert

theorem join_amo {f7 : BitVec 7} {k : BitVec 2} (h : f7.extractLsb' 5 2 = k) {o : AmoOp}
    (ho : AmoOp.ofCode (f7.extractLsb' 1 4) = some o) : k ++ (o.code ++ bit1 (f7bit f7 0)) = f7 := by
  rw [AmoOp.code_of_ofCode ho, ← h]; decide +revert

theorem decMemx_access_spells (f7 b a f3 d) (h : f3.toNat ≤ 4) :
    Spells ⟨f7, b, a, f3, d, 0x0B⟩ (decMemx ⟨f7, b, a, f3, d, 0x0B⟩) := by
  refine .ite (fun _ => .ite (fun hk => .ite ?lxQ fun h4 =>
      .ok (encodes_join_funct3 rfl (join_lx hk) (memSizeOf_code h h4)))
    fun _ => .ite (fun hk => .ite (fun _ => .error) fun h4 => .ok (encodes_join_funct3 rfl (join_sx hk) (memSizeOf_code h h4)))
    fun _ => .ite (fun hk => ?amo) fun _ => .error) fun hn => absurd h hn
  case lxQ => rintro ⟨⟩; exact .ok (encodes_join rfl (join_lx hk))
  case amo =>
    split
    next => exact .error
    next o ho =>
      refine .ite ?_ fun _ => .ite ?_ fun _ => .error
      all_goals rintro ⟨⟩; exact .ok (encodes_join rfl (join_amo hk ho))

theorem decMemx_other_spells (f7 b a f3 d) (h : ¬f3.toNat ≤ 4) :
    Spells ⟨f7, b, a, f3, d, 0x0B⟩ (decMemx ⟨f7, b, a, f3, d, 0x0B⟩) := by
  refine .ite (absurd · h) fun _ => .ite ?tags fun h5 => .ite ?seals fun h6 => ?fences
  case tags =>
    rintro ⟨⟩
    refine .ite ?_ fun _ => .ite ?_ fun _ => .error
    all_goals rintro ⟨⟩; refine .onlyIf fun hz => ?_; cases of_decide_eq_true hz; rfl
  case seals =>
    rintro ⟨⟩
    refine .ite ?_ fun _ => .ite ?_ fun _ => .error
    · rintro ⟨⟩; exact .ok rfl
    · rintro ⟨⟩
      refine .onlyIf fun hz => ?_
      obtain ⟨rfl, rfl⟩ : d = 0 ∧ b = 0 := by simpa using hz
      rfl
  case fences =>
    obtain rfl : f3 = 7 := by bv_omega
    have unused : ∀ i, encodeFields i = some ⟨f7, 0, 0, 7, 0, 0x0B⟩ →
        Spells ⟨f7, b, a, 7, d, 0x0B⟩ (onlyIf (d = 0 && a = 0 && b = 0) i) := fun i hi => .onlyIf fun hz => by
      obtain ⟨⟨rfl, rfl⟩, rfl⟩ : (d = 0 ∧ a = 0) ∧ b = 0 := by simpa using hz
      exact hi
    refine .ite ?_ fun _ => .ite ?_ fun _ => .ite ?_ fun _ => .ite ?_ fun _ => .ite ?cwait fun _ => .ite ?dwb fun _ =>
      .ite ?icinv fun _ => .ite ?_ fun _ => .ite ?bchk fun _ => .error
    case cwait =>
      rintro ⟨⟩
      refine .onlyIf fun hz => ?_
      obtain ⟨rfl, rfl⟩ : d = 0 ∧ a = 0 := by simpa using hz
      rfl
    case dwb => rintro ⟨⟩; refine .onlyIf fun hz => ?_; cases of_decide_eq_true hz; rfl
    case icinv => rintro ⟨⟩; refine .onlyIf fun hz => ?_; cases of_decide_eq_true hz; rfl
    case bchk => rintro ⟨⟩; exact .ok rfl
    all_goals rintro ⟨⟩; exact unused _ rfl

theorem decMemx_spells (f7 b a f3 d) : Spells ⟨f7, b, a, f3, d, 0x0B⟩ (decMemx ⟨f7, b, a, f3, d, 0x0B⟩) :=
  (em (f3.toNat ≤ 4)).elim (decMemx_access_spells f7 b a f3 d) (decMemx_other_spells f7 b a f3 d)

theorem join_msg (x : BitVec 12) : x.extractLsb' 4 8 ++ x.extractLsb' 0 4 = x := by
  apply BitVec.eq_of_getLsbD_eq; intro k hk
  simp only [BitVec.getLsbD_append, BitVec.getLsbD_extractLsb']
  interval_cases k <;> simp

theorem RptStride.code_ofCode (c : BitVec 2) : (RptStride.ofCode c).code = c := by decide +revert

theorem join_rpt (x : BitVec 12) :
    x.extractLsb' 6 6 ++ (x.extractLsb' 2 4 ++ (RptStride.ofCode (x.extractLsb' 0 2)).code) = x := by
  rw [RptStride.code_ofCode]
  apply BitVec.eq_of_getLsbD_eq; intro k hk
  simp only [BitVec.getLsbD_append, BitVec.getLsbD_extractLsb']
  interval_cases k <;> simp

theorem join_wset {f7 : BitVec 7} {c : WaitCond} (hc : WaitCond.ofCode (f7.extractLsb' 0 5) = some c) :
    f7.extractLsb' 5 2 ++ c.code = f7 := by rw [WaitCond.code_of_ofCode hc]; decide +revert

theorem join_wait {f7 : BitVec 7} (h : f7.extractLsb' 1 2 = 0) : f7.extractLsb' 3 4 ++ (0#2 ++ bit1 (f7bit f7 0)) = f7 := by
  decide +revert

/-- TASK funct3 101. -/
theorem decTask_five_spells (f7 b a d) : Spells ⟨f7, b, a, 5, d, 0x2B⟩ (decTask ⟨f7, b, a, 5, d, 0x2B⟩) := by
  have unused : ∀ i, encodeFields i = some ⟨f7, 0, 0, 5, 0, 0x2B⟩ →
      Spells ⟨f7, b, a, 5, d, 0x2B⟩ (onlyIf (d = 0 && a = 0 && b = 0) i) := fun i hi => .onlyIf fun hz => by
    obtain ⟨⟨rfl, rfl⟩, rfl⟩ : (d = 0 ∧ a = 0) ∧ b = 0 := by simpa using hz
    exact hi
  show Spells _ (if f7 = 0 then _ else _)
  refine .ite ?_ fun _ => .ite ?_ fun _ => .ite ?_ fun _ => .ite ?_ fun _ => .ite ?_ fun _ => .ite ?_ fun _ =>
    .ite ?trap fun _ => .ite ?getst fun _ => .ite ?tgctl fun _ => .ite ?slp fun _ => .error
  case trap =>
    rintro ⟨⟩
    refine .onlyIf fun hz => ?_
    obtain ⟨rfl, rfl⟩ : d = 0 ∧ a = 0 := by simpa using hz
    rfl
  case slp =>
    rintro ⟨⟩
    refine .onlyIf fun hz => ?_
    obtain ⟨rfl, rfl⟩ : d = 0 ∧ b = 0 := by simpa using hz
    rfl
  case getst => rintro ⟨⟩; refine .onlyIf fun hz => ?_; cases of_decide_eq_true hz; rfl
  case tgctl => rintro ⟨⟩; refine .onlyIf fun hz => ?_; cases of_decide_eq_true hz; rfl
  all_goals rintro ⟨⟩; exact unused _ rfl

theorem decTask_spells (f7 b a f3 d) : Spells ⟨f7, b, a, f3, d, 0x2B⟩ (decTask ⟨f7, b, a, f3, d, 0x2B⟩) := by
  by_cases h5 : f3 = 5
  · subst h5; exact decTask_five_spells f7 b a d
  refine .ite ?spawns fun h0 => .ite ?msg fun h1 => .ite ?mdone fun h2 => .ite ?wset fun h3 => .ite ?wait fun h4 =>
    .ite (absurd · h5) fun _ => .ite ?rpt fun h6 => ?rparts
  case spawns =>
    rintro ⟨⟩
    refine .ite ?_ fun _ => .ite ?_ fun _ => .ite ?_ fun _ => .ite ?_ fun _ => .error
    all_goals rintro ⟨⟩; exact .ok rfl
  case msg =>
    rintro ⟨⟩
    refine .ok (encodes_of_eq rfl ?_)
    rw [join_msg]
    exact fieldsI_immI ⟨f7, b, a, 1, d, 0x2B⟩
  case mdone =>
    rintro ⟨⟩
    refine .ite ?_ fun _ => .error
    rintro ⟨⟩
    refine .onlyIf fun hz => ?_
    obtain ⟨⟨rfl, rfl⟩, rfl⟩ : (d = 0 ∧ a = 0) ∧ b = 0 := by simpa using hz
    rfl
  case wset =>
    rintro ⟨⟩
    split
    next => exact .error
    next c hc =>
      refine .onlyIf fun hz => ?_
      cases of_decide_eq_true hz
      exact encodes_join rfl (join_wset hc)
  case wait =>
    rintro ⟨⟩
    refine .ite (fun hw => .onlyIf fun hz => ?_) fun _ => .error
    cases of_decide_eq_true hz
    exact encodes_join rfl (join_wait hw)
  case rpt =>
    rintro ⟨⟩
    refine .onlyIf fun hz => ?_
    obtain ⟨rfl, rfl⟩ : d = 0 ∧ a = 0 := by simpa using hz
    refine encodes_of_eq rfl ?_
    rw [join_rpt]
    exact fieldsI_immI ⟨f7, b, 0, 6, 0, 0x2B⟩
  case rparts =>
    cases eq_seven_of_ne h0 h1 h2 h3 h4 h5 h6
    refine .ite ?_ fun _ => .ite ?_ fun _ => .error
    all_goals rintro ⟨⟩; refine .onlyIf fun hz => ?_; cases of_decide_eq_true hz; rfl

/-! ### VEC and XE -/

theorem join_vint {f7 : BitVec 7} {o : BitVec 4} (h : f7.extractLsb' 3 4 = o) : o ++ f7.extractLsb' 0 3 = f7 := by
  subst h; decide +revert

theorem join_vfp {f7 : BitVec 7} {o : BitVec 4} (h : f7.extractLsb' 3 4 = o) :
    o ++ (bit1 (f7bit f7 2) ++ (bit1 (f7bit f7 1) ++ bit1 (f7bit f7 0))) = f7 := by subst h; decide +revert

theorem join_vcmp {f7 : BitVec 7} {k : BitVec 2} (h : f7.extractLsb' 5 2 = k) {c : VCmpOp}
    (hc : VCmpOp.ofCode (f7.extractLsb' 2 3) = some c) : k ++ (c.code ++ (ElemType.ofCode (f7.extractLsb' 0 2)).code) = f7 := by
  rw [VCmpOp.code_of_ofCode hc, ← h]; decide +revert

theorem join_vred {f7 : BitVec 7} {k : BitVec 2} (h : f7.extractLsb' 5 2 = k) :
    k ++ ((RedOp.ofCode (f7.extractLsb' 2 3)).code ++ (ElemType.ofCode (f7.extractLsb' 0 2)).code) = f7 := by
  subst h; decide +revert

theorem decVInt_spells (f7 b a f3 d) (h4 : ¬f3 = 4) (h5 : ¬f3 = 5) (h6 : ¬f3 = 6) (h7 : ¬f3 = 7) :
    Spells ⟨f7, b, a, f3, d, 0x5B⟩ (decVInt ⟨f7, b, a, f3, d, 0x5B⟩) := by
  refine .ite ?_ fun _ => .ite ?_ fun _ => .ite ?_ fun _ => .ite ?_ fun _ => .ite ?_ fun _ => .ite ?_ fun _ =>
    .ite ?_ fun _ => .ite ?_ fun _ => .ite ?_ fun _ => .ite ?_ fun _ => .ite ?_ fun _ => .ite ?_ fun _ =>
    .ite ?_ fun _ => .error
  all_goals intro ho; exact .ok (encodes_join_funct3 rfl (join_vint ho) (elemType_code h4 h5 h6 h7))

theorem decVFp_spells (y : FFmt) (f7 b a d) : Spells ⟨f7, b, a, y.code, d, 0x5B⟩ (decVFp y ⟨f7, b, a, y.code, d, 0x5B⟩) := by
  refine .ite ?_ fun _ => .ite ?_ fun _ => .ite ?_ fun _ => .ite ?_ fun _ => .ite ?_ fun _ => .ite ?_ fun _ =>
    .ite ?_ fun _ => .ite ?sqrt fun _ => .ite ?_ fun _ => .ite ?_ fun _ => .ite ?_ fun _ => .ite ?_ fun _ => .error
  case sqrt =>
    intro ho
    refine .onlyIf fun hz => ?_
    cases of_decide_eq_true hz
    exact encodes_join rfl (join_vfp ho)
  all_goals intro ho; exact .ok (encodes_join rfl (join_vfp ho))

theorem decVSpec_spells (f7 b a d) : Spells ⟨f7, b, a, 7, d, 0x5B⟩ (decVSpec ⟨f7, b, a, 7, d, 0x5B⟩) := by
  refine .ite (fun hk => ?vcmp) fun _ => .ite (fun hk => .onlyIf fun hz => ?vred) fun _ => ?rest
  case vcmp =>
    split
    next => exact .error
    next c hc => exact .ok (encodes_join rfl (join_vcmp hk hc))
  case vred =>
    cases of_decide_eq_true hz
    exact encodes_join rfl (join_vred hk)
  have unused : ∀ i, encodeFields i = some ⟨f7, 0, a, 7, d, 0x5B⟩ → Spells ⟨f7, b, a, 7, d, 0x5B⟩ (onlyIf (b = 0) i) :=
    fun i hi => .onlyIf fun hz => by cases of_decide_eq_true hz; exact hi
  refine .ite ?vld fun _ => .ite ?vst fun _ => .ite ?_ fun _ => .ite ?_ fun _ => .ite ?_ fun _ => .ite ?_ fun _ =>
    .ite ?_ fun _ => .ite ?_ fun _ => .ite ?_ fun _ => .ite ?_ fun _ => .ite ?addF32 fun _ => .ite ?addBf16 fun _ =>
    .ite ?maxF32 fun _ => .ite ?minF32 fun _ => .ite ?_ fun _ => .ite ?_ fun _ => .ite ?_ fun _ => .ite ?mnot fun _ =>
    .ite ?mpop fun _ => .ite ?mfirst fun _ => .ite ?_ fun _ => .error
  case vld | vst | addF32 | addBf16 | maxF32 | minF32 | mnot | mpop | mfirst => rintro ⟨⟩; exact unused _ rfl
  all_goals rintro ⟨⟩; exact .ok rfl

theorem decVec_spells (f7 b a f3 d) : Spells ⟨f7, b, a, f3, d, 0x5B⟩ (decVec ⟨f7, b, a, f3, d, 0x5B⟩) := by
  refine .ite ?_ fun h4 => .ite ?_ fun h5 => .ite ?_ fun h6 => .ite ?_ fun h7 => decVInt_spells f7 b a f3 d h4 h5 h6 h7
  · rintro ⟨⟩; exact decVFp_spells .bf16 f7 b a d
  · rintro ⟨⟩; exact decVFp_spells .f32 f7 b a d
  · rintro ⟨⟩; exact decVFp_spells .f64 f7 b a d
  · rintro ⟨⟩; exact decVSpec_spells f7 b a d

theorem join_mma {f7 : BitVec 7} (h : f7.extractLsb' 5 2 = 2 ∧ f7bit f7 0 = false) :
    2#2 ++ (f7.extractLsb' 3 2 ++ (bit1 (f7bit f7 2) ++ (bit1 (f7bit f7 1) ++ 0#1))) = f7 := by decide +revert

theorem join_cpy {f7 : BitVec 7} {y : CopyKind} (hy : CopyKind.ofCode (f7.extractLsb' 0 3) = some y) :
    bit1 (f7bit f7 6) ++ (bit1 (f7bit f7 5) ++ ((Scope.ofCode (f7.extractLsb' 3 2)).code ++ y.code)) = f7 := by
  rw [CopyKind.code_of_ofCode hy]; decide +revert

theorem decXe_spells (f7 b a f3 d) : Spells ⟨f7, b, a, f3, d, 0x7B⟩ (decXe ⟨f7, b, a, f3, d, 0x7B⟩) := by
  have onlyB : ∀ i, encodeFields i = some ⟨f7, 0, a, f3, d, 0x7B⟩ → Spells ⟨f7, b, a, f3, d, 0x7B⟩ (onlyIf (b = 0) i) :=
    fun i hi => .onlyIf fun hz => by cases of_decide_eq_true hz; exact hi
  have onlyD : ∀ i, encodeFields i = some ⟨f7, b, a, f3, 0, 0x7B⟩ → Spells ⟨f7, b, a, f3, d, 0x7B⟩ (onlyIf (d = 0) i) :=
    fun i hi => .onlyIf fun hz => by cases of_decide_eq_true hz; exact hi
  have onlyDB : ∀ i, encodeFields i = some ⟨f7, 0, a, f3, 0, 0x7B⟩ →
      Spells ⟨f7, b, a, f3, d, 0x7B⟩ (onlyIf (d = 0 && b = 0) i) := fun i hi => .onlyIf fun hz => by
    obtain ⟨rfl, rfl⟩ : d = 0 ∧ b = 0 := by simpa using hz
    exact hi
  refine .ite ?matrix fun _ => .ite ?cpy fun _ => .ite ?cpst fun _ => .ite ?lacc fun _ => .ite ?net fun _ => .error
  case matrix =>
    rintro ⟨⟩
    refine .ite ?_ fun _ => .ite ?_ fun _ => .ite ?_ fun _ => .ite ?mzero fun _ => .ite ?mma fun _ => .error
    case mzero =>
      rintro ⟨⟩
      refine .onlyIf fun hz => ?_
      obtain ⟨rfl, rfl⟩ : a = 0 ∧ b = 0 := by simpa using hz
      rfl
    case mma =>
      refine fun hk => .onlyIf fun hz => ?_
      cases of_decide_eq_true hz
      exact encodes_join rfl (join_mma (by simpa using hk))
    all_goals rintro ⟨⟩; exact .ok rfl
  case cpy =>
    rintro ⟨⟩
    split
    next => exact .error
    next y hy => exact .ok (encodes_join rfl (join_cpy hy))
  case cpst =>
    rintro ⟨⟩
    refine .ite ?_ fun _ => .error
    rintro ⟨⟩; exact onlyB _ rfl
  case lacc =>
    rintro ⟨⟩
    refine .ite ?_ fun _ => .ite ?_ fun _ => .ite ?_ fun _ => .ite ?_ fun _ => .ite ?_ fun _ => .ite ?_ fun _ => .error
    · rintro ⟨⟩; exact onlyDB _ rfl
    · rintro ⟨⟩; exact onlyD _ rfl
    · rintro ⟨⟩; exact .ok rfl
    · rintro ⟨⟩; exact onlyD _ rfl
    · rintro ⟨⟩; exact onlyB _ rfl
    · rintro ⟨⟩; exact onlyB _ rfl
  case net =>
    rintro ⟨⟩
    refine .ite ?_ fun _ => .ite ?_ fun _ => .ite ?_ fun _ => .ite ?_ fun _ => .ite ?_ fun _ => .ite ?_ fun _ => .error
    · rintro ⟨⟩; exact onlyB _ rfl
    · rintro ⟨⟩; exact onlyDB _ rfl
    · rintro ⟨⟩; exact onlyD _ rfl
    · rintro ⟨⟩; exact onlyD _ rfl
    · rintro ⟨⟩; exact onlyB _ rfl
    · rintro ⟨⟩; exact onlyD _ rfl

/-! ### Both directions -/

theorem decodeFields_spells (f : Fields) : Spells f (decodeFields f) := by
  rcases f with ⟨f7, b, a, f3, d, op⟩
  refine .ite ?_ fun _ => .ite ?_ fun _ => .ite ?_ fun _ => .ite ?_ fun _ => .ite ?_ fun _ => .ite ?_ fun _ =>
    .ite ?_ fun _ => .ite ?_ fun _ => .ite ?_ fun _ => .ite ?_ fun _ => .ite ?_ fun _ => .ite ?_ fun _ => .ite ?_ fun _ =>
    .ite ?_ fun _ => .ite ?_ fun _ => .error
  · rintro ⟨⟩; exact decOp_spells f7 b a f3 d
  · rintro ⟨⟩; exact decOp32_spells f7 b a f3 d
  · rintro ⟨⟩; exact decOpImm_spells f7 b a f3 d
  · rintro ⟨⟩; exact decOpImm32_spells f7 b a f3 d
  · rintro ⟨⟩; exact decLoad_spells f7 b a f3 d
  · rintro ⟨⟩; exact decStore_spells f7 b a f3 d
  · rintro ⟨⟩; exact decBranch_spells f7 b a f3 d
  · rintro ⟨⟩; exact .ok (encodes_of_eq rfl (fieldsU_immU ⟨f7, b, a, f3, d, 0x37⟩))
  · rintro ⟨⟩; exact .ok (encodes_of_eq rfl (fieldsU_immU ⟨f7, b, a, f3, d, 0x17⟩))
  · rintro ⟨⟩
    refine .ok (encodes_of_eq rfl ?_)
    rw [immJu_immJ]
    exact fieldsU_immU ⟨f7, b, a, f3, d, 0x6F⟩
  · rintro ⟨⟩
    refine .ite ?_ fun _ => .error
    rintro ⟨⟩
    exact .ok (encodes_immI rfl)
  · rintro ⟨⟩; exact decMemx_spells f7 b a f3 d
  · rintro ⟨⟩; exact decTask_spells f7 b a f3 d
  · rintro ⟨⟩; exact decVec_spells f7 b a f3 d
  · rintro ⟨⟩; exact decXe_spells f7 b a f3 d

/-- `seal` and `unseal`, whose names are Lean's own words and cannot name a case of a tactic. -/
def sealing : Instr → Bool
  | .seal .. | .unseal .. => true
  | _ => false

theorem statement_of_sealing : ∀ {i : Instr}, sealing i = true → Laws.RoundTrip.Statement i
  | .seal h b l, _ => Laws.RoundTrip.seal h b l
  | .unseal h, _ => Laws.RoundTrip.unseal h

theorem statement_of_sealing_or_noWord {i : Instr} (h : (sealing i || (encodeFields i).isNone) = true) :
    Laws.RoundTrip.Statement i :=
  (Bool.or_eq_true_iff.mp h).elim statement_of_sealing fun hn => Laws.RoundTrip.noWord i (Option.isNone_iff_eq_none.mp hn)

/-- What the encoder gives an instruction decodes to it, before the ranges of R58 are judged. -/
theorem decodeFields_of_encodeFields (i : Instr) : Laws.RoundTrip.Statement i := by
  cases i with
  | add d a b => exact Laws.RoundTrip.add d a b
  | sub d a b => exact Laws.RoundTrip.sub d a b
  | addw d a b => exact Laws.RoundTrip.addw d a b
  | subw d a b => exact Laws.RoundTrip.subw d a b
  | addi d a i => exact Laws.RoundTrip.addi d a i
  | addiw d a i => exact Laws.RoundTrip.addiw d a i
  | and d a b => exact Laws.RoundTrip.and d a b
  | or d a b => exact Laws.RoundTrip.or d a b
  | xor d a b => exact Laws.RoundTrip.xor d a b
  | andi d a i => exact Laws.RoundTrip.andi d a i
  | ori d a i => exact Laws.RoundTrip.ori d a i
  | xori d a i => exact Laws.RoundTrip.xori d a i
  | slt d a b => exact Laws.RoundTrip.slt d a b
  | sltu d a b => exact Laws.RoundTrip.sltu d a b
  | slti d a i => exact Laws.RoundTrip.slti d a i
  | sltiu d a i => exact Laws.RoundTrip.sltiu d a i
  | sll d a b => exact Laws.RoundTrip.sll d a b
  | srl d a b => exact Laws.RoundTrip.srl d a b
  | sra d a b => exact Laws.RoundTrip.sra d a b
  | sllw d a b => exact Laws.RoundTrip.sllw d a b
  | srlw d a b => exact Laws.RoundTrip.srlw d a b
  | sraw d a b => exact Laws.RoundTrip.sraw d a b
  | slli d a s => exact Laws.RoundTrip.slli d a s
  | srli d a s => exact Laws.RoundTrip.srli d a s
  | srai d a s => exact Laws.RoundTrip.srai d a s
  | slliw d a s => exact Laws.RoundTrip.slliw d a s
  | srliw d a s => exact Laws.RoundTrip.srliw d a s
  | sraiw d a s => exact Laws.RoundTrip.sraiw d a s
  | mul d a b => exact Laws.RoundTrip.mul d a b
  | mulh d a b => exact Laws.RoundTrip.mulh d a b
  | mulhsu d a b => exact Laws.RoundTrip.mulhsu d a b
  | mulhu d a b => exact Laws.RoundTrip.mulhu d a b
  | mulw d a b => exact Laws.RoundTrip.mulw d a b
  | div d a b => exact Laws.RoundTrip.div d a b
  | divu d a b => exact Laws.RoundTrip.divu d a b
  | rem d a b => exact Laws.RoundTrip.rem d a b
  | remu d a b => exact Laws.RoundTrip.remu d a b
  | divw d a b => exact Laws.RoundTrip.divw d a b
  | divuw d a b => exact Laws.RoundTrip.divuw d a b
  | remw d a b => exact Laws.RoundTrip.remw d a b
  | remuw d a b => exact Laws.RoundTrip.remuw d a b
  | lui d i => exact Laws.RoundTrip.lui d i
  | auipc d i => exact Laws.RoundTrip.auipc d i
  | jal d i => exact Laws.RoundTrip.jal d i
  | jalr d a i => exact Laws.RoundTrip.jalr d a i
  | beq a b i => exact Laws.RoundTrip.beq a b i
  | bne a b i => exact Laws.RoundTrip.bne a b i
  | blt a b i => exact Laws.RoundTrip.blt a b i
  | bge a b i => exact Laws.RoundTrip.bge a b i
  | bltu a b i => exact Laws.RoundTrip.bltu a b i
  | bgeu a b i => exact Laws.RoundTrip.bgeu a b i
  | lb d a i => exact Laws.RoundTrip.lb d a i
  | lh d a i => exact Laws.RoundTrip.lh d a i
  | lw d a i => exact Laws.RoundTrip.lw d a i
  | ld d a i => exact Laws.RoundTrip.ld d a i
  | lbu d a i => exact Laws.RoundTrip.lbu d a i
  | lhu d a i => exact Laws.RoundTrip.lhu d a i
  | lwu d a i => exact Laws.RoundTrip.lwu d a i
  | sb a b i => exact Laws.RoundTrip.sb a b i
  | sh a b i => exact Laws.RoundTrip.sh a b i
  | sw a b i => exact Laws.RoundTrip.sw a b i
  | sd a b i => exact Laws.RoundTrip.sd a b i
  | lx z ss ww x d a p => exact Laws.RoundTrip.lx z ss ww x d a p
  | lxQ ss ww x d a p => exact Laws.RoundTrip.lxQ ss ww x d a p
  | sx z ss ww x v a p => exact Laws.RoundTrip.sx z ss ww x v a p
  | amo z o x d a b => exact Laws.RoundTrip.amo z o x d a b
  | tagr d a => exact Laws.RoundTrip.tagr d a
  | tagw a b => exact Laws.RoundTrip.tagw a b
  | fenceC => exact Laws.RoundTrip.fenceC
  | fenceD => exact Laws.RoundTrip.fenceD
  | fenceP => exact Laws.RoundTrip.fenceP
  | fenceS => exact Laws.RoundTrip.fenceS
  | cwait n => exact Laws.RoundTrip.cwait n
  | dwb b l => exact Laws.RoundTrip.dwb b l
  | icinv b l => exact Laws.RoundTrip.icinv b l
  | fbar => exact Laws.RoundTrip.fbar
  | bchk a l h => exact Laws.RoundTrip.bchk a l h
  | spawn d t e => exact Laws.RoundTrip.spawn d t e
  | spawnOrd d t e => exact Laws.RoundTrip.spawnOrd d t e
  | spawnRow d t e => exact Laws.RoundTrip.spawnRow d t e
  | spawnCl d t e => exact Laws.RoundTrip.spawnCl d t e
  | msg d n g c => exact Laws.RoundTrip.msg d n g c
  | mdone => exact Laws.RoundTrip.mdone
  | wset s c a b => exact Laws.RoundTrip.wset s c a b
  | wait e y d t => exact Laws.RoundTrip.wait e y d t
  | tend => exact Laws.RoundTrip.tend
  | yield => exact Laws.RoundTrip.yield
  | cmt => exact Laws.RoundTrip.cmt
  | gsyncRow => exact Laws.RoundTrip.gsyncRow
  | gsyncCl => exact Laws.RoundTrip.gsyncCl
  | brk => exact Laws.RoundTrip.brk
  | trap n => exact Laws.RoundTrip.trap n
  | getst d n => exact Laws.RoundTrip.getst d n
  | tgctl a b => exact Laws.RoundTrip.tgctl a b
  | slp t => exact Laws.RoundTrip.slp t
  | rpt c l s => exact Laws.RoundTrip.rpt c l s
  | rpart d b => exact Laws.RoundTrip.rpart d b
  | rpst d h => exact Laws.RoundTrip.rpst d h
  | vadd t m d a b => exact Laws.RoundTrip.vadd t m d a b
  | vsub t m d a b => exact Laws.RoundTrip.vsub t m d a b
  | vmul t m d a b => exact Laws.RoundTrip.vmul t m d a b
  | vmin t m d a b => exact Laws.RoundTrip.vmin t m d a b
  | vmax t m d a b => exact Laws.RoundTrip.vmax t m d a b
  | vminu t m d a b => exact Laws.RoundTrip.vminu t m d a b
  | vmaxu t m d a b => exact Laws.RoundTrip.vmaxu t m d a b
  | vand t m d a b => exact Laws.RoundTrip.vand t m d a b
  | vor t m d a b => exact Laws.RoundTrip.vor t m d a b
  | vxor t m d a b => exact Laws.RoundTrip.vxor t m d a b
  | vsll t m d a b => exact Laws.RoundTrip.vsll t m d a b
  | vsrl t m d a b => exact Laws.RoundTrip.vsrl t m d a b
  | vsra t m d a b => exact Laws.RoundTrip.vsra t m d a b
  | vfadd y z u k d a b => exact Laws.RoundTrip.vfadd y z u k d a b
  | vfsub y z u k d a b => exact Laws.RoundTrip.vfsub y z u k d a b
  | vfmul y z u k d a b => exact Laws.RoundTrip.vfmul y z u k d a b
  | vfma y z u k d a b => exact Laws.RoundTrip.vfma y z u k d a b
  | vfmin y z u k d a b => exact Laws.RoundTrip.vfmin y z u k d a b
  | vfmax y z u k d a b => exact Laws.RoundTrip.vfmax y z u k d a b
  | vfdiv y z u k d a b => exact Laws.RoundTrip.vfdiv y z u k d a b
  | vfsqrt y z u k d a => exact Laws.RoundTrip.vfsqrt y z u k d a
  | vfcmp c y z u k m a b => exact Laws.RoundTrip.vfcmp c y z u k m a b
  | vld d a => exact Laws.RoundTrip.vld d a
  | vst v a => exact Laws.RoundTrip.vst v a
  | vldx d b i => exact Laws.RoundTrip.vldx d b i
  | vstx v b i => exact Laws.RoundTrip.vstx v b i
  | vperm d s i => exact Laws.RoundTrip.vperm d s i
  | vbcast d s w => exact Laws.RoundTrip.vbcast d s w
  | vmvVg d s n => exact Laws.RoundTrip.vmvVg d s n
  | vmvGv d s n => exact Laws.RoundTrip.vmvGv d s n
  | vsel d a b => exact Laws.RoundTrip.vsel d a b
  | vcmp c t m a b => exact Laws.RoundTrip.vcmp c t m a b
  | vred o t d a => exact Laws.RoundTrip.vred o t d a
  | vfcvt d a c => exact Laws.RoundTrip.vfcvt d a c
  | vfredAddF32 d a => exact Laws.RoundTrip.vfredAddF32 d a
  | vfredAddBf16 d a => exact Laws.RoundTrip.vfredAddBf16 d a
  | vfredMaxF32 d a => exact Laws.RoundTrip.vfredMaxF32 d a
  | vfredMinF32 d a => exact Laws.RoundTrip.vfredMinF32 d a
  | mand d a b => exact Laws.RoundTrip.mand d a b
  | mor d a b => exact Laws.RoundTrip.mor d a b
  | mxor d a b => exact Laws.RoundTrip.mxor d a b
  | mnot d a => exact Laws.RoundTrip.mnot d a
  | mpop d a => exact Laws.RoundTrip.mpop d a
  | mfirst d a => exact Laws.RoundTrip.mfirst d a
  | sfckey d a k => exact Laws.RoundTrip.sfckey d a k
  | mldA k b i => exact Laws.RoundTrip.mldA k b i
  | mldB k b s => exact Laws.RoundTrip.mldB k b s
  | mst t a s => exact Laws.RoundTrip.mst t a s
  | mzero t => exact Laws.RoundTrip.mzero t
  | mma t z u f k => exact Laws.RoundTrip.mma t z u f k
  | cpy q r c y n s e => exact Laws.RoundTrip.cpy q r c y n s e
  | cpst d t => exact Laws.RoundTrip.cpst d t
  | laccClr a => exact Laws.RoundTrip.laccClr a
  | laccAdd a b => exact Laws.RoundTrip.laccAdd a b
  | laccAddp d a b => exact Laws.RoundTrip.laccAddp d a b
  | laccMrg a b => exact Laws.RoundTrip.laccMrg a b
  | laccRdF32 d a => exact Laws.RoundTrip.laccRdF32 d a
  | laccRdF64 d a => exact Laws.RoundTrip.laccRdF64 d a
  | nalloc d t => exact Laws.RoundTrip.nalloc d t
  | nfree n => exact Laws.RoundTrip.nfree n
  | nlink a b => exact Laws.RoundTrip.nlink a b
  | npush a b => exact Laws.RoundTrip.npush a b
  | nrd d p => exact Laws.RoundTrip.nrd d p
  | nrset k e => exact Laws.RoundTrip.nrset k e
  | _ => exact statement_of_sealing_or_noWord rfl

theorem decode_ok_iff {i : Instr} {w : BitVec 32} : decode w = .ok i ↔ decodeFields (split w) = .ok i ∧ i.WellFormed := by
  unfold decode decodeRaw
  cases decodeFields (split w) with
  | error r => simp
  | ok j =>
    simp only [Except.ok.injEq]
    split_ifs with hj
    · refine ⟨?_, ?_⟩
      · rintro ⟨⟩; exact ⟨rfl, hj⟩
      · rintro ⟨rfl, -⟩; rfl
    · refine ⟨nofun, ?_⟩
      rintro ⟨rfl, hw⟩; exact absurd hw hj

theorem encode_eq_some_iff {i : Instr} {w : BitVec 32} : encode i = some w ↔ encodeFields i = some (split w) := by
  simp only [encode, Option.map_eq_some_iff]
  constructor
  · rintro ⟨f, hf, rfl⟩; rw [hf, split_join]
  · intro h; exact ⟨_, h, join_split w⟩

/-- Settles O55: the encoder's fields decode back constructor by constructor, and every decoder accepts only what the encoder
gives back. -/
theorem decodeEncode : Obligations.DecodeEncode := by
  unfold Obligations.DecodeEncode
  refine ⟨fun i w hwf hi => ?_, fun i w hw => ?_⟩
  · exact decode_ok_iff.2 ⟨decodeFields_of_encodeFields i _ (encode_eq_some_iff.1 hi), hwf⟩
  · obtain ⟨hf, hwf⟩ := decode_ok_iff.1 hw
    exact ⟨hwf, encode_eq_some_iff.2 (decodeFields_spells _ i hf)⟩

/-- Settles O56: each word of the manual decodes as written, a computation on closed words. -/
theorem decodeWords : Obligations.DecodeWords := by
  unfold Obligations.DecodeWords
  exact ⟨rfl, rfl, rfl, rfl, rfl, rfl, rfl, rfl, rfl, rfl, rfl, rfl, rfl, rfl⟩

end Sys2Proof
end

section
/-! PROOFS. Registers, once for all instructions: what a read takes from the message, what the advance and a write leave of a
context, and the frames of an instruction that writes one register (R69, R70, R73). -/

namespace Sys2Proof.Machine

/-! ### Reading -/

/-- A task after `n` more words of its message have been read (R70). -/
def popped (t : Task) (n : Nat) : Task := { t with ctx := { t.ctx with msgPos := t.ctx.msgPos + n } }

@[simp] theorem popped_ctx_g (t : Task) (n : Nat) : (popped t n).ctx.g = t.ctx.g := rfl
@[simp] theorem popped_ctx_sendq (t : Task) (n : Nat) : (popped t n).ctx.sendq = t.ctx.sendq := rfl

theorem popped_zero (t : Task) : popped t 0 = t := rfl

theorem popped_popped (t : Task) (m n : Nat) : popped (popped t m) n = popped t (m + n) := by
  simp only [popped, Nat.add_assoc]

/-- The words of the message that reads of these registers take. -/
abbrev popsOf (rs : List Reg) : Nat := (rs.filter fun r => r == 28).length

theorem popsOf_cons (r : Reg) (rs : List Reg) : popsOf (r :: rs) = popsOf [r] + popsOf rs := by
  simp only [popsOf, List.filter_cons]; split_ifs <;> simp [Nat.add_comm]

/-- A read takes one word of the message where it names ain, and changes nothing else (R70). -/
theorem takeG_snd (t : Task) (r : Reg) : (takeG t r).2 = popped t (popsOf [r]) := by
  by_cases h : r = 28
  · subst h; rfl
  · have hp : popsOf [r] = 0 := by simp only [popsOf, List.filter_cons, beq_eq_false_iff_ne.2 h]; rfl
    rw [hp, popped_zero, takeG, if_neg h]
    split_ifs <;> rfl

theorem read1_eq_popped (s : State) (a : Reg) : read1 s a = popped s.cur (popsOf [a]) := takeG_snd _ _

theorem read2_eq_popped (s : State) (a b : Reg) : read2 s a b = popped s.cur (popsOf [a, b]) := by
  rw [read2, takeG_snd, read1_eq_popped, popped_popped, popsOf_cons a [b]]

theorem read3_eq_popped (s : State) (a b c : Reg) : read3 s a b c = popped s.cur (popsOf [a, b, c]) := by
  rw [read3, takeG_snd, read2_eq_popped, popped_popped, popsOf_cons a [b, c], popsOf_cons a [b], popsOf_cons b [c],
    Nat.add_assoc]

/-! ### Contexts -/

/-- The advance changes the pc and the repetition state alone (R73, R407). -/
theorem advance_eq (c : Ctx) : advance c = { c with pc := (advance c).pc, rep := (advance c).rep } := by
  unfold advance; split
  · rfl
  · split_ifs <;> rfl

/-- A write of a general register changes the file and the send queue alone (R69, R70). -/
theorem setG_eq (c : Ctx) (d : Reg) (v : Word) :
    setG c d v = { c with g := (setG c d v).g, sendq := (setG c d v).sendq } := by
  unfold setG; split_ifs <;> rfl

theorem setM_eq (c : Ctx) (d : Reg) (v : Word) : setM c d v = { c with m := (setM c d v).m } := by
  unfold setM; split_ifs <;> rfl

theorem getG_congr {c c' : Ctx} (h : c'.g = c.g) (r : Reg) : getG c' r = getG c r := by simp only [getG, h]

theorem getV_congr {c c' : Ctx} (h : c'.v = c.v) (r : Reg) : getV c' r = getV c r := by simp only [getV, h]

theorem getM_congr {c c' : Ctx} (h : c'.m = c.m) (r : Reg) : getM c' r = getM c r := by simp only [getM, h]

@[simp] theorem getG_advance (c : Ctx) (r : Reg) : getG (advance c) r = getG c r := getG_congr (advance_g c) r
@[simp] theorem getV_advance (c : Ctx) (r : Reg) : getV (advance c) r = getV c r := getV_congr (advance_v c) r
@[simp] theorem getM_advance (c : Ctx) (r : Reg) : getM (advance c) r = getM c r := getM_congr (advance_m c) r

theorem setG_g_of_special (c : Ctx) {d : Reg} (v : Word) (h : d = 0 ∨ d = 28 ∨ d = 29) : (setG c d v).g = c.g := by
  rcases h with rfl | rfl | rfl <;> rfl

theorem setG_sendq (c : Ctx) {d : Reg} (v : Word) (h : d ≠ 29) : (setG c d v).sendq = c.sendq := by
  unfold setG; split_ifs <;> rfl

theorem getV_setV_same (c : Ctx) (d : Reg) (v : VWord) : getV (setV c d v) d = v := Vector.getElem_set_self _

theorem getV_setV_other (c : Ctx) {d r : Reg} (v : VWord) (h : r ≠ d) : getV (setV c d v) r = getV c r := by
  have : d.toNat ≠ r.toNat := fun e => h (BitVec.eq_of_toNat_eq e).symm
  simp [getV, setV, this]

theorem getM_setM_same (c : Ctx) {d : Reg} (v : Word) (h : d.toNat % 8 ≠ 0) : getM (setM c d v) d = v := by
  simp only [getM, setM, if_neg h]
  simp [Vector.getD, Nat.mod_lt]

theorem getM_setM_other (c : Ctx) {d r : Reg} (v : Word) (h : r.toNat % 8 ≠ d.toNat % 8) : getM (setM c d v) r = getM c r := by
  by_cases hd : d.toNat % 8 = 0
  · rw [setM, if_pos hd]
  · simp only [getM, setM, if_neg hd]
    split_ifs with hr
    · rfl
    · simp [Vector.getD, Nat.mod_lt, h.symm]

/-! ### Frames -/

/-- The task that has retired an instruction is the one that issued it but for its registers and its count. -/
theorem onlyFiles_retire (s : State) (c : Ctx) (pops : Nat) (files : Ctx → Ctx → Ctx)
    (h : advance c = files { s.cur.ctx with pc := (advance c).pc, rep := (advance c).rep, msgPos := s.cur.ctx.msgPos + pops }
      (advance c)) : OnlyFiles s (retire s { s.cur with ctx := c }) pops files := ⟨rfl, h⟩

theorem onlyTask_retire (s : State) (t : Task) : OnlyTask s (retire s t) := ⟨rfl, fun _ => rfl⟩

/-- The frame of a general register written once the sources are read. -/
theorem frameG_wrote (s : State) (d : Reg) (v : Word) (srcs : List Reg) :
    FrameG s (wrote s (popped s.cur (popsOf srcs)) d v) d srcs := by
  refine ⟨onlyTask_retire _ _, onlyFiles_retire _ _ _ _ ?files, fun r hr => ?others, fun hd => ?special, fun hd => ?queue⟩
  case files => rw [advance_eq, setG_eq]; rfl
  case others => exact (getG_advance _ r).trans (getG_setG_other _ v hr)
  case special => exact (advance_g _).trans (setG_g_of_special _ v hd)
  case queue => exact (advance_sendq _).trans (setG_sendq _ v hd)

/-- The frame of a vector register written, with flags raised or not. -/
theorem frameV_retire (s : State) (d : Reg) (v : VWord) (fl : FlagSet) :
    FrameV s (retire s { s.cur with ctx := raiseFlags (setV s.cur.ctx d v) fl }) d := by
  refine ⟨onlyTask_retire _ _, onlyFiles_retire _ _ _ _ ?files, fun r hr => ?others⟩
  case files => rw [advance_eq]; rfl
  case others => exact (getV_advance _ r).trans (getV_setV_other _ v hr)

theorem raiseFlags_none (c : Ctx) : raiseFlags c FlagSet.none = c := by
  simp [raiseFlags, FlagSet.none]

theorem frameV_wroteV (s : State) (d : Reg) (v : VWord) : FrameV s (wroteV s s.cur d v) d := by
  have h := frameV_retire s d v FlagSet.none
  rwa [raiseFlags_none] at h

/-- The frame of a mask register written. -/
theorem frameM_wroteM (s : State) (d : Reg) (v : Word) : FrameM s (wroteM s s.cur d v) d := by
  refine ⟨onlyTask_retire _ _, onlyFiles_retire _ _ _ _ ?files, fun r hr => ?others⟩
  case files => rw [advance_eq, setM_eq]; rfl
  case others => exact (getM_advance _ r).trans (getM_setM_other _ v hr)

end Sys2Proof.Machine
end

section
/-! PROOFS. Scalar arithmetic: its results in the words of the manual (R339, R344, R356, R357, R394, R414, R417), and its frame
(R69, R70). -/

namespace Sys2Proof.Machine

/-! ### The shape of an arithmetic instruction -/

section
variable {s : State} {d a b : Reg} {i : Instr} {v : Word}

/-- Two ready sources and a destination with room: the instruction writes its result. -/
theorem exec_opGG {f : Word → Word → Word} (h : Ready s [a, b] [d]) (hd : destRoom s.cur d = true)
    (hi : exec i s = opGG s d a b f) (hv : f (arg1 s a) (arg2 s a b) = v) : exec i s = .next (wrote s (read2 s a b) d v) := by
  rw [hi, opGG_next h hd, ← hv]; rfl

theorem exec_opG {f : Word → Word} (h : Ready s [a] [d]) (hd : destRoom s.cur d = true) (hi : exec i s = opG s d a f)
    (hv : f (arg1 s a) = v) : exec i s = .next (wrote s (read1 s a) d v) := by
  rw [hi, opG_next h hd, ← hv]; rfl

theorem exec_opUpper {u : Word} (h : Ready s [] [d]) (hd : destRoom s.cur d = true)
    (hi : exec i s = gate s (.g [] [d]) (finishG s s.cur d u)) (hv : u = v) : exec i s = .next (wrote s s.cur d v) := by
  rw [hi, gate_ready h, finishG_room hd, ← hv]; rfl

end

/-! ### Shifts -/

theorem shiftLeft_eq_ofNat_mul {n : Nat} (x : BitVec n) (k : Nat) : x <<< k = BitVec.ofNat n (x.toNat * 2 ^ k) := by
  apply BitVec.eq_of_toNat_eq
  rw [BitVec.toNat_shiftLeft, BitVec.toNat_ofNat, Nat.shiftLeft_eq]

theorem shiftRight_eq_ofNat_div {n : Nat} (x : BitVec n) (k : Nat) : x >>> k = BitVec.ofNat n (x.toNat / 2 ^ k) := by
  apply BitVec.eq_of_toNat_eq
  rw [BitVec.toNat_ushiftRight, BitVec.toNat_ofNat, Nat.shiftRight_eq_div_pow,
    Nat.mod_eq_of_lt (lt_of_le_of_lt (Nat.div_le_self _ _) x.isLt)]

theorem sshiftRight_eq_ofInt_div {n : Nat} (x : BitVec n) (k : Nat) : x.sshiftRight k = BitVec.ofInt n (x.toInt / 2 ^ k) := by
  rw [BitVec.sshiftRight, Int.shiftRight_eq_div_pow, Nat.cast_pow]; rfl

/-! ### Truth values and 32-bit results -/

theorem truth_slt (x y : Word) : truth (x.slt y) = if x.toInt < y.toInt then 1 else 0 := by
  simp [truth, BitVec.slt]

theorem truth_ult (x y : Word) : truth (x.ult y) = if x.toNat < y.toNat then 1 else 0 := by
  simp [truth, BitVec.ult]

theorem sext32_add (x y : Word) : sext32 (x + y) = ((x.truncate 32 + y.truncate 32 : BitVec 32)).signExtend 64 := by
  rw [sext32]; congr 1; exact BitVec.setWidth_add x y (by decide)

theorem sext32_sub (x y : Word) : sext32 (x - y) = ((x.truncate 32 - y.truncate 32 : BitVec 32)).signExtend 64 := by
  rw [sext32]; congr 1
  simp only [BitVec.truncate_eq_setWidth, BitVec.sub_eq_add_neg, BitVec.setWidth_add _ _ (show 32 ≤ 64 by decide),
    BitVec.setWidth_neg_of_le (show 32 ≤ 64 by decide)]

theorem sext32_mul (x y : Word) : sext32 (x * y) = ((x.truncate 32 * y.truncate 32 : BitVec 32)).signExtend 64 := by
  rw [sext32]; congr 1; exact BitVec.setWidth_mul x y (by decide)

/-! ### Products -/

theorem mul_eq_ofNat (x y : Word) : x * y = BitVec.ofNat 64 (x.toNat * y.toNat) := by
  apply BitVec.eq_of_toNat_eq; simp

/-- The high word of an integer is bits 127 to 64 of its 128-bit two's complement form. -/
theorem highWord_eq_extract (p : Int) : highWord p = (BitVec.ofInt 128 p).extractLsb' 64 64 := by
  apply BitVec.eq_of_toNat_eq
  simp only [highWord, BitVec.toNat_ofInt, BitVec.extractLsb'_toNat, Nat.shiftRight_eq_div_pow]
  omega

theorem ofInt_toInt_signExtend (x : Word) : BitVec.ofInt 128 x.toInt = x.signExtend 128 := rfl

theorem ofInt_toNat_zeroExtend (x : Word) : BitVec.ofInt 128 (x.toNat : Int) = x.zeroExtend 128 := by
  apply BitVec.eq_of_toNat_eq
  simp

theorem highWord_mul (p q : Int) :
    highWord (p * q) = (BitVec.ofInt 128 p * BitVec.ofInt 128 q).extractLsb' 64 64 := by
  rw [highWord_eq_extract, BitVec.ofInt_mul]

/-! ### The division group -/

theorem eq_zero_iff_toInt {n : Nat} (y : BitVec n) : y = 0 ↔ y.toInt = 0 := by
  rw [← BitVec.toInt_inj, BitVec.ofNat_eq_ofNat, BitVec.toInt_zero]

theorem eq_zero_iff_toNat {n : Nat} (y : BitVec n) : y = 0 ↔ y.toNat = 0 := by
  rw [← BitVec.toNat_inj, BitVec.ofNat_eq_ofNat, BitVec.toNat_zero]

theorem divS_eq {n : Nat} (x y : BitVec n) :
    divS x y = if y.toInt = 0 then BitVec.ofInt n (-1) else BitVec.ofInt n (x.toInt.tdiv y.toInt) := by
  simp only [divS, eq_zero_iff_toInt]
  split_ifs
  · rw [← BitVec.neg_one_eq_allOnes, BitVec.ofInt_neg]; rfl
  · apply BitVec.eq_of_toInt_eq
    rw [BitVec.toInt_sdiv, BitVec.toInt_ofInt]

theorem remS_eq {n : Nat} (x y : BitVec n) :
    remS x y = if y.toInt = 0 then x else BitVec.ofInt n (x.toInt.tmod y.toInt) := by
  simp only [remS, eq_zero_iff_toInt]
  split_ifs
  · rfl
  · rw [← BitVec.toInt_srem, BitVec.ofInt_toInt]

theorem divU_eq {n : Nat} (x y : BitVec n) :
    divU x y = if y.toNat = 0 then BitVec.ofNat n (2 ^ n - 1) else BitVec.ofNat n (x.toNat / y.toNat) := by
  simp only [divU, eq_zero_iff_toNat]
  split_ifs
  · apply BitVec.eq_of_toNat_eq; simp
  · apply BitVec.eq_of_toNat_eq
    rw [BitVec.udiv_eq, BitVec.toNat_udiv, BitVec.toNat_ofNat,
      Nat.mod_eq_of_lt (lt_of_le_of_lt (Nat.div_le_self _ _) x.isLt)]

theorem remU_eq {n : Nat} (x y : BitVec n) :
    remU x y = if y.toNat = 0 then x else BitVec.ofNat n (x.toNat % y.toNat) := by
  simp only [remU, eq_zero_iff_toNat]
  split_ifs
  · rfl
  · apply BitVec.eq_of_toNat_eq
    rw [BitVec.umod_eq, BitVec.toNat_umod, BitVec.toNat_ofNat,
      Nat.mod_eq_of_lt (lt_of_le_of_lt (Nat.mod_le _ _) x.isLt)]

/-! ### The register forms -/

theorem registerArithmetic_holds : registerArithmeticClaim := by
  intro s d a b h hd
  refine ⟨exec_opGG h hd (exec_add ..) rfl,
    exec_opGG h hd (exec_sub ..) rfl,
    exec_opGG h hd (exec_addw ..) (sext32_add ..),
    exec_opGG h hd (exec_subw ..) (sext32_sub ..),
    exec_opGG h hd (exec_and ..) rfl,
    exec_opGG h hd (exec_or ..) rfl,
    exec_opGG h hd (exec_xor ..) rfl,
    exec_opGG h hd (exec_slt ..) (truth_slt ..),
    exec_opGG h hd (exec_sltu ..) (truth_ult ..),
    exec_opGG h hd (exec_sll ..) (shiftLeft_eq_ofNat_mul ..),
    exec_opGG h hd (exec_srl ..) (shiftRight_eq_ofNat_div ..),
    exec_opGG h hd (exec_sra ..) (sshiftRight_eq_ofInt_div ..),
    exec_opGG h hd (exec_sllw ..) (congrArg wide (shiftLeft_eq_ofNat_mul ..)),
    exec_opGG h hd (exec_srlw ..) (congrArg wide (shiftRight_eq_ofNat_div ..)),
    exec_opGG h hd (exec_sraw ..) (congrArg wide (sshiftRight_eq_ofInt_div ..)),
    exec_opGG h hd (exec_mul ..) (mul_eq_ofNat ..),
    exec_opGG h hd (exec_mulh ..) (highWord_mul ..),
    exec_opGG h hd (exec_mulhsu ..) ?_,
    exec_opGG h hd (exec_mulhu ..) ?_,
    exec_opGG h hd (exec_mulw ..) (sext32_mul ..)⟩
  · rw [highWord_mul, ofInt_toNat_zeroExtend]; rfl
  · rw [highWord_mul, ofInt_toNat_zeroExtend, ofInt_toNat_zeroExtend]

theorem division_holds : divisionClaim := by
  intro s d a b h hd
  exact ⟨exec_opGG h hd (exec_div ..) (divS_eq ..),
    exec_opGG h hd (exec_rem ..) (remS_eq ..),
    exec_opGG h hd (exec_divu ..) (divU_eq ..),
    exec_opGG h hd (exec_remu ..) (remU_eq ..),
    exec_opGG h hd (exec_divw ..) (congrArg wide (divS_eq ..)),
    exec_opGG h hd (exec_remw ..) (congrArg wide (remS_eq ..)),
    exec_opGG h hd (exec_divuw ..) (congrArg wide (divU_eq ..)),
    exec_opGG h hd (exec_remuw ..) (congrArg wide (remU_eq ..))⟩

/-- Settles O1: every register form writes the result of its operation, which is the manual's arithmetic. -/
theorem registerArithmetic : Obligations.RegisterArithmetic := ⟨registerArithmetic_holds, division_holds⟩

/-! ### The immediate forms -/

theorem toInt_sext12 (i : BitVec 12) : (sext12 i).toInt = i.toInt := BitVec.toInt_signExtend_of_le (by decide)

/-- The immediate of `lui` and `auipc` is imm20 × 2^12, sign-extended. -/
theorem upper_eq (i : BitVec 20) : upper i = BitVec.ofInt 64 (i.toInt * 2 ^ 12) := by
  have h : (i ++ 0#12).toInt = i.toInt * 2 ^ 12 := by
    rw [BitVec.toInt_append_zero, mul_comm]
  rw [upper, wide, BitVec.signExtend, h]

/-- Settles O2: the same operations on the sign-extended immediate. -/
theorem immediateArithmetic : Obligations.ImmediateArithmetic := by
  refine ⟨fun s d a i k h hr hd => ?_, fun s d i hr hd => ?_⟩
  · refine ⟨exec_opG hr hd (exec_addi ..) rfl,
      exec_opG hr hd (exec_addiw ..) rfl,
      exec_opG hr hd (exec_andi ..) rfl,
      exec_opG hr hd (exec_ori ..) rfl,
      exec_opG hr hd (exec_xori ..) rfl,
      exec_opG hr hd (exec_slti ..) ?_,
      exec_opG hr hd (exec_sltiu ..) (truth_ult ..),
      exec_opG hr hd (exec_slli ..) (shiftLeft_eq_ofNat_mul ..),
      exec_opG hr hd (exec_srli ..) (shiftRight_eq_ofNat_div ..),
      exec_opG hr hd (exec_srai ..) (sshiftRight_eq_ofInt_div ..),
      exec_opG hr hd (exec_slliw ..) (congrArg wide (shiftLeft_eq_ofNat_mul ..)),
      exec_opG hr hd (exec_srliw ..) (congrArg wide (shiftRight_eq_ofNat_div ..)),
      exec_opG hr hd (exec_sraiw ..) (congrArg wide (sshiftRight_eq_ofInt_div ..))⟩
    rw [truth_slt, toInt_sext12]
  · exact ⟨exec_opUpper hr hd (exec_lui ..) (upper_eq i), exec_opUpper hr hd (exec_auipc ..) (congrArg _ (upper_eq i))⟩

/-! ### The frame -/

/-- What a register form writes once its sources are read leaves the frame. -/
theorem exec_opGG_frame {s : State} {d a b : Reg} {i : Instr} (h : Ready s [a, b] [d]) (hd : destRoom s.cur d = true)
    (hi : ∃ f, exec i s = opGG s d a b f) : ∃ t, exec i s = .next t ∧ FrameG s t d [a, b] := by
  obtain ⟨f, hi⟩ := hi
  refine ⟨_, exec_opGG h hd hi rfl, ?_⟩
  rw [read2_eq_popped]
  exact frameG_wrote s d _ [a, b]

theorem exec_opG_frame {s : State} {d a : Reg} {i : Instr} (h : Ready s [a] [d]) (hd : destRoom s.cur d = true)
    (hi : ∃ f, exec i s = opG s d a f) : ∃ t, exec i s = .next t ∧ FrameG s t d [a] := by
  obtain ⟨f, hi⟩ := hi
  refine ⟨_, exec_opG h hd hi rfl, ?_⟩
  rw [read1_eq_popped]
  exact frameG_wrote s d _ [a]

theorem exec_opUpper_frame {s : State} {d : Reg} {i : Instr} (h : Ready s [] [d]) (hd : destRoom s.cur d = true)
    (hi : ∃ u, exec i s = gate s (.g [] [d]) (finishG s s.cur d u)) : ∃ t, exec i s = .next t ∧ FrameG s t d [] := by
  obtain ⟨u, hi⟩ := hi
  exact ⟨_, exec_opUpper h hd hi rfl, frameG_wrote s d u []⟩

/-- Settles O3: every form is an operation of two sources, of one or of none, and each of these has the frame. -/
theorem arithmeticFrame : Obligations.ArithmeticFrame := by
  intro s d a b i u k h hd
  refine ⟨fun hr j hj => exec_opGG_frame hr hd ?two, fun hr j hj => exec_opG_frame hr hd ?one,
    fun hr j hj => exec_opUpper_frame hr hd ?none⟩
  case two =>
    revert j
    simp only [List.forall_mem_cons, List.not_mem_nil, false_imp_iff, implies_true, and_true]
    exact ⟨⟨_, exec_add ..⟩, ⟨_, exec_sub ..⟩, ⟨_, exec_addw ..⟩, ⟨_, exec_subw ..⟩, ⟨_, exec_and ..⟩, ⟨_, exec_or ..⟩, ⟨_,
      exec_xor ..⟩, ⟨_, exec_slt ..⟩, ⟨_, exec_sltu ..⟩, ⟨_, exec_sll ..⟩, ⟨_, exec_srl ..⟩, ⟨_, exec_sra ..⟩, ⟨_, exec_sllw
      ..⟩, ⟨_, exec_srlw ..⟩, ⟨_, exec_sraw ..⟩, ⟨_, exec_mul ..⟩, ⟨_, exec_mulh ..⟩, ⟨_, exec_mulhsu ..⟩, ⟨_, exec_mulhu ..⟩,
      ⟨_, exec_mulw ..⟩, ⟨_, exec_div ..⟩, ⟨_, exec_divu ..⟩, ⟨_, exec_rem ..⟩, ⟨_, exec_remu ..⟩, ⟨_, exec_divw ..⟩, ⟨_,
      exec_divuw ..⟩, ⟨_, exec_remw ..⟩, ⟨_, exec_remuw ..⟩⟩
  case one =>
    revert j
    simp only [List.forall_mem_cons, List.not_mem_nil, false_imp_iff, implies_true, and_true]
    exact ⟨⟨_, exec_addi ..⟩, ⟨_, exec_addiw ..⟩, ⟨_, exec_andi ..⟩, ⟨_, exec_ori ..⟩, ⟨_, exec_xori ..⟩, ⟨_, exec_slti ..⟩, ⟨_,
      exec_sltiu ..⟩, ⟨_, exec_slli ..⟩, ⟨_, exec_srli ..⟩, ⟨_, exec_srai ..⟩, ⟨_, exec_slliw ..⟩, ⟨_, exec_srliw ..⟩, ⟨_,
      exec_sraiw ..⟩⟩
  case none =>
    revert j
    simp only [List.forall_mem_cons, List.not_mem_nil, false_imp_iff, implies_true, and_true]
    exact ⟨⟨_, exec_lui ..⟩, ⟨_, exec_auipc ..⟩⟩

end Sys2Proof.Machine
end

section
/-! PROOFS. The operand rules: special registers, when the registers let an instruction issue, and where they stop it (R69, R70,
R72, R207). -/

namespace Sys2Proof.Machine

/-! ### The special registers -/

theorem takeG_ain_eq {t : Task} {m : Msg} (hm : t.msg = some m) (h : t.ctx.msgPos < m.words.length) :
    takeG t 28 = (m.words[t.ctx.msgPos], popped t 1) := by
  simp only [takeG, if_true, hm, popped, List.getD_eq_getElem _ _ h]

theorem takeG_dep (t : Task) : takeG t 29 = (BitVec.ofNat 64 t.ctx.sendq.length, t) := rfl

theorem registerOperands_holds : registerOperandsClaim := by
  intro s r v m k h
  refine ⟨rfl, fun hm hk => ?ain, fun hq => ?dep, fun h0 h1 h2 => ?plain, setG_zero _ _, setG_ain _ _, setG_dep _ _,
    fun q hq => getG_setG_other _ v hq⟩
  case ain => subst hk; exact takeG_ain_eq hm h
  case dep =>
    refine ⟨?_, rfl⟩
    rw [takeG_dep, BitVec.toNat_ofNat, Nat.mod_eq_of_lt (by omega)]
  case plain => rw [takeG_plain _ h1 h2, getG_setG_same _ v h0 h1 h2]

/-! ### Readiness -/

/-- A source is empty, or a word of the message is still to arrive: stall, or cause 0x05 under X = 1. -/
theorem readiness_emptySource {t : Task} {n : Needs} (ha : answeredHold t = false)
    (h : (∃ r ∈ n.gs, fullG t.ctx r = false) ∨ ainHere t < popsOf n.gs ∧ popsOf n.gs ≤ ainLeft t) :
    readiness t n = if n.x then .empty5 else .stall := by
  have hs : ((n.gs.any fun r => !fullG t.ctx r) || (decide (ainHere t < popsOf n.gs) && decide (popsOf n.gs ≤ ainLeft t))) =
      true := by
    simpa [List.any_eq_true] using h
  rw [readiness, if_neg (by simp [ha]), if_pos hs]

theorem readiness_sourcesFull {t : Task} {n : Needs} (ha : answeredHold t = false) (hg : ∀ r ∈ n.gs, fullG t.ctx r = true)
    (hw : ¬(ainHere t < popsOf n.gs ∧ popsOf n.gs ≤ ainLeft t)) : readiness t n =
      if (n.gd.any fun r => !fullG t.ctx r) || (n.vs.any fun r => !fullV t.ctx r) || (n.vd.any fun r => !fullV t.ctx r)
      then .stall else if ainLeft t < popsOf n.gs then .empty5 else .ready := by
  have hs : ((n.gs.any fun r => !fullG t.ctx r) || (decide (ainHere t < popsOf n.gs) && decide (popsOf n.gs ≤ ainLeft t))) =
      false := by
    rw [Bool.or_eq_false_iff]
    exact ⟨by simpa [List.any_eq_false] using hg, by simpa using hw⟩
  rw [readiness, if_neg (by simp [ha]), if_neg (by rw [hs]; decide)]

theorem ainHere_le_ainLeft (t : Task) : ainHere t ≤ ainLeft t := by unfold ainHere; split <;> omega

theorem readiness_holds : readinessClaim := by
  intro t n ha
  refine ⟨?ready, fun h => readiness_emptySource ha (.inl h), fun h1 h2 => readiness_emptySource ha (.inr ⟨h1, h2⟩),
    fun hg hw he => ?stall, fun hg hv hl => ?exhausted⟩
  case ready =>
    rw [readiness_ready_iff t n ha]
    simp only [List.mem_append]
    constructor
    · rintro ⟨h1, h2, h3, h4, h5⟩
      exact ⟨fun r hr => hr.elim (h1 r) (h2 r), fun r hr => hr.elim (h3 r) (h4 r), h5⟩
    · rintro ⟨h1, h2, h3⟩
      exact ⟨fun r hr => h1 r (.inl hr), fun r hr => h1 r (.inr hr), fun r hr => h2 r (.inl hr), fun r hr => h2 r (.inr hr), h3⟩
  case stall =>
    rw [readiness_sourcesFull ha hg hw, if_pos]
    simp only [List.mem_append] at he
    simp only [Bool.or_eq_true, List.any_eq_true, Bool.not_eq_true']
    rcases he with he | ⟨r, hr | hr, hf⟩
    · exact .inl (.inl he)
    · exact .inl (.inr ⟨r, hr, hf⟩)
    · exact .inr ⟨r, hr, hf⟩
  case exhausted =>
    simp only [List.mem_append] at hg hv
    rw [readiness_sourcesFull ha (fun r hr => hg r (.inl hr)) (fun h => absurd h.2 (not_le.2 hl)), if_neg, if_pos hl]
    simp only [Bool.or_eq_true, List.any_eq_true, Bool.not_eq_true', not_or, not_exists, not_and, Bool.not_eq_false]
    exact ⟨⟨fun r hr => hg r (.inr hr), fun r hr => hv r (.inl hr)⟩, fun r hr => hv r (.inr hr)⟩

/-! ### Where an instruction does not issue -/

/-- An instruction whose first act is to meet its registers, with an empty source among them. -/
theorem gate_emptySource {s : State} {n : Needs} (ha : answeredHold s.cur = false) (h : ∃ r ∈ n.gs, fullG s.cur.ctx r = false)
    (k : Out) : gate s n k = .next (if n.x then takeTrap s 0x05 0 0 false false else s) := by
  have hr := readiness_emptySource ha (.inl h)
  cases hx : n.x <;> simp only [hx, if_true, Bool.false_eq_true, if_false] at hr ⊢
  · exact gate_stall hr k
  · exact gate_empty hr k

theorem gate_emptyVector {s : State} {n : Needs} (ha : answeredHold s.cur = false) (hg : n.gs = [])
    (h : ∃ r ∈ n.vs, fullV s.cur.ctx r = false) (k : Out) : gate s n k = .next s := by
  refine gate_stall ?_ k
  obtain ⟨r, hr, hf⟩ := h
  exact (readiness_holds s.cur n ha).2.2.2.1 (by simp [hg]) (by simp [hg]) (.inr ⟨r, List.mem_append_left _ hr, hf⟩)

theorem answeredHold_none {t : Task} (h : t.hold = none) : answeredHold t = false := by simp [answeredHold, h]

theorem destRoom_full {t : Task} (h : 8 ≤ t.ctx.sendq.length) : destRoom t 29 = false := by
  simp only [destRoom, depRoom, Bool.or_eq_false_iff, decide_eq_false_iff_not]
  exact ⟨rfl, by omega⟩

theorem operandStops_holds : operandStopsClaim := by
  intro s d a b p z m w x e k o y hh
  have ha := answeredHold_none hh
  refine ⟨fun hr => gate_stall hr _, fun hr => gate_empty hr _, fun hr hq => ?room, fun hf => ?lx, fun hf => ?amo, fun hf => ?vadd⟩
  case room =>
    rw [exec_add, execAdd, opGG, gate_ready hr]
    exact finishG_full (destRoom_full hq) _ _
  case lx => exact gate_emptySource (n := ⟨x, [a, p], [d], [], []⟩) ha ⟨a, by simp, hf⟩ _
  case amo =>
    refine gate_emptySource (n := ⟨x, if o = .cas then [a, b, d] else [a, b], [d], [], []⟩) ha ⟨b, ?_, hf⟩ _
    by_cases ho : o = .cas <;> simp [ho]
  case vadd => exact gate_emptyVector (n := ⟨false, [], [], [a, b], [d]⟩) ha rfl ⟨a, by simp, hf⟩ _

/-- Settles O4: the special registers read and write as R69 and R70 say, and an instruction meets its registers first. -/
theorem operandRules : Obligations.OperandRules := ⟨registerOperands_holds, readiness_holds, operandStops_holds⟩

end Sys2Proof.Machine
end

section
/-! PROOFS. The repetition buffer: its passes, and the renumbering of its body (R73, R407). -/

namespace Sys2Proof.Machine

/-! ### Passes -/

/-- A context at instruction `pos` of pass `pass` of a repetition. -/
def inBody (c : Ctx) (base : Word) (len count stride pass pos : Nat) : Ctx :=
  { c with pc := base + 4 * BitVec.ofNat 64 pos, rep := some ⟨base, len, count, stride, pass, pos⟩ }

/-- A context that goes on after the body. -/
def afterBody (c : Ctx) (base : Word) (len : Nat) : Ctx := { c with pc := base + 4 * BitVec.ofNat 64 len, rep := none }

theorem pc_succ (base : Word) (pos : Nat) : base + 4 * BitVec.ofNat 64 pos + 4 = base + 4 * BitVec.ofNat 64 (pos + 1) := by
  rw [BitVec.ofNat_add, BitVec.mul_add, BitVec.add_assoc]; rfl

section
variable (c : Ctx) (base : Word) {len count : Nat} (stride : Nat) {pass pos : Nat}

theorem advance_inBody (h : pos + 1 < len) :
    advance (inBody c base len count stride pass pos) = inBody c base len count stride pass (pos + 1) := by
  simp only [advance, inBody, if_pos h, pc_succ]

/-- The last instruction of a pass that is not the last leads back to the first of the body. -/
theorem advance_endPass (h : pos + 1 = len) (hp : pass + 1 < count) :
    advance (inBody c base len count stride pass pos) = inBody c base len count stride (pass + 1) 0 := by
  simp only [advance, inBody, if_neg h.not_lt, if_pos hp, BitVec.ofNat_eq_ofNat, BitVec.mul_zero, BitVec.add_zero]

theorem advance_endBody (h : pos + 1 = len) (hp : pass + 1 = count) :
    advance (inBody c base len count stride pass pos) = afterBody c base len := by
  subst h hp
  simp only [advance, inBody, afterBody, lt_self_iff_false, if_false, pc_succ]

theorem advance_iterate_inBody (k : Nat) (h : k < len) :
    advance^[k] (inBody c base len count stride pass 0) = inBody c base len count stride pass k := by
  induction k with
  | zero => rfl
  | succ k ih => rw [Function.iterate_succ_apply', ih (by omega), advance_inBody c base stride h]

theorem advance_iterate_pass (h : 1 ≤ len) : advance^[len] (inBody c base len count stride pass 0) =
    advance (inBody c base len count stride pass (len - 1)) := by
  obtain ⟨k, rfl⟩ : ∃ k, len = k + 1 := ⟨len - 1, by omega⟩
  rw [Function.iterate_succ_apply', advance_iterate_inBody c base stride k (by omega), Nat.add_sub_cancel]

/-- From the first instruction of a pass, the passes that remain execute and the repetition goes on after its body. -/
theorem advance_iterate_passes (h : 1 ≤ len) (n : Nat) (hn : pass + n = count) (h1 : 1 ≤ n) :
    advance^[n * len] (inBody c base len count stride pass 0) = afterBody c base len := by
  induction n, h1 using Nat.le_induction generalizing pass with
  | base =>
    rw [Nat.one_mul, advance_iterate_pass c base stride h, advance_endBody c base stride (by omega) hn]
  | succ n h1 ih =>
    rw [Nat.add_mul, Nat.one_mul, Function.iterate_add_apply, advance_iterate_pass c base stride h,
      advance_endPass c base stride (by omega) (by omega), ih (by omega)]

end

/-! ### Renumbering -/

/-- In a repetition an instruction issues renumbered, unless the renumbered one is illegal. -/
theorem issueWord_inBody {t : Task} {r : Rep} {w : BitVec 32} {i j : Instr} (hr : t.ctx.rep = some r) (hw : decode w = .ok i)
    (hi : renumberInstr i (r.pass * r.stride) = j) (hb : bodyIllegal j = false) (hj : j.WellFormed) :
    issueWord t w = some j := by
  obtain ⟨hd, -⟩ := decode_ok_iff.1 hw
  simp only [issueWord, hr, decodeRaw, hd, hi, hb, if_pos hj, Bool.false_eq_true, if_false]

/-- Settles O5: pass by pass the body executes whole, and its register fields move by the stride. -/
theorem repetition : Obligations.Repetition := by
  unfold Obligations.Repetition
  refine ⟨fun c base len count stride hl hc => ?_, fun c hc => ?_, fun t r w d a b hr hw => ?_, fun t r w e k d a b hr hw => ?_⟩
  · have h := advance_iterate_passes c base stride (pass := 0) hl count (Nat.zero_add _) hc
    simpa only [inBody, afterBody, BitVec.ofNat_eq_ofNat, BitVec.mul_zero, BitVec.add_zero] using h
  · simp only [advance, hc]
  · exact issueWord_inBody hr hw rfl rfl rfl
  · exact issueWord_inBody hr hw rfl rfl rfl

end Sys2Proof.Machine
end

section
/-! PROOFS. Control transfers: branches, the bounds check, jumps, and the trap return (R57, R163, R204, R347, R348, R366, R367). -/

namespace Sys2Proof.Machine

/-! ### Transfers -/

section
variable {s : State} {target : Word}

theorem transfer_goes (h4 : target.toNat % 4 = 0) (hp : pkgOf target = s.conf.pkg) (go : Out) : transfer s target go = go := by
  rw [transfer, if_neg (by simp [h4]), if_neg (by simp [hp])]

theorem transfer_misaligned (h4 : target.toNat % 4 ≠ 0) (go : Out) :
    transfer s target go = .next (takeTrap s 0x07 0 target false false) := by
  rw [transfer, if_pos h4, trap]

theorem transfer_foreign (h4 : target.toNat % 4 = 0) (hp : pkgOf target ≠ s.conf.pkg) (go : Out) :
    transfer s target go = .next (takeTrap s 0x11 0 target false false) := by
  rw [transfer, if_neg (by simp [h4]), if_pos hp, trap]

end

theorem append_zero_signExtend {n : Nat} (i : BitVec n) : (i ++ 0#1).signExtend 64 = BitVec.ofInt 64 (2 * i.toInt) := by
  rw [BitVec.signExtend, BitVec.toInt_append_zero]; rfl

/-- A branch whose condition is `c`: what it does in each case. -/
theorem exec_branch {s : State} {a b : Reg} {i : BitVec 12} {j : Instr} {f : Word → Word → Bool} {c : Prop}
    (hr : Ready s [a, b] []) (hj : exec j s = branch s a b i f) (hc : f (arg1 s a) (arg2 s a b) = true ↔ c) :
    let target := s.cur.ctx.pc + BitVec.ofInt 64 (2 * i.toInt)
    (¬c → exec j s = .next (retire s (read2 s a b))) ∧
    (c → target.toNat % 4 = 0 → pkgOf target = s.conf.pkg → exec j s = .next { s with cur := { read2 s a b with
      ctx := { (read2 s a b).ctx with pc := target }, chunk := countInstr s.cur.chunk } }) ∧
    (c → target.toNat % 4 ≠ 0 → exec j s = .next (takeTrap s 0x07 0 target false false)) ∧
    (c → target.toNat % 4 = 0 → pkgOf target ≠ s.conf.pkg → exec j s = .next (takeTrap s 0x11 0 target false false)) := by
  intro target
  have h : exec j s = if f (arg1 s a) (arg2 s a b) then transfer s target (.next { s with cur := (read2 s a b).jumpTo target })
      else .next (retire s (read2 s a b)) := by
    rw [hj, branch, gate_ready hr, branchDisp, append_zero_signExtend]; rfl
  rw [h]
  refine ⟨fun hn => ?_, fun hy h4 hp => ?_, fun hy h4 => ?_, fun hy h4 hp => ?_⟩
  · rw [if_neg (mt hc.1 hn)]
  · rw [if_pos (hc.2 hy), transfer_goes h4 hp, read2_eq_popped]; rfl
  · rw [if_pos (hc.2 hy), transfer_misaligned h4]
  · rw [if_pos (hc.2 hy), transfer_foreign h4 hp]

theorem branches_hold : branchesClaim := by
  intro s a b i hr
  refine ⟨exec_branch hr (exec_beq ..) ?_, exec_branch hr (exec_bne ..) ?_, exec_branch hr (exec_blt ..) ?_,
    exec_branch hr (exec_bge ..) ?_, exec_branch hr (exec_bltu ..) ?_, exec_branch hr (exec_bgeu ..) ?_⟩
  · exact beq_iff_eq
  · exact bne_iff_ne
  · exact BitVec.slt_iff_toInt_lt
  · simp [BitVec.slt]
  · exact BitVec.ult_iff_lt
  · simp [BitVec.ult]

theorem boundsCheck_holds : boundsCheckClaim := by
  intro s a l h hr
  have hx : exec (.bchk a l h) s = if decide ((arg1 s l).toNat ≤ (arg3 s l h a).toNat) &&
      decide ((arg3 s l h a).toNat < (arg2 s l h).toNat) then .next (retire s (read3 s l h a)) else trap s 0x02 0 := by
    rw [exec_bchk, execBchk, gate_ready hr]; rfl
  refine ⟨fun hb => ?_, fun hb => ?_⟩
  · rw [hx, if_pos (by simpa using hb)]
  · rw [hx, if_neg (by simpa using hb), trap]

/-- Settles O17: a branch decides by its condition and then transfers; `bchk` compares. -/
theorem branchesAndBounds : Obligations.BranchesAndBounds := ⟨branches_hold, boundsCheck_holds⟩

/-! ### Values in flight to the link register -/

/-- A context that differs from another in G[1] and its tag alone. -/
def OnlyLink (c c' : Ctx) : Prop := c' = { c with g := c'.g, gFull := c'.gFull } ∧
  ∀ r : Reg, r ≠ 1 → getG c' r = getG c r

theorem OnlyLink.refl (c : Ctx) : OnlyLink c c := ⟨rfl, fun _ _ => rfl⟩

theorem OnlyLink.trans {c c' c'' : Ctx} (h : OnlyLink c c') (h' : OnlyLink c' c'') : OnlyLink c c'' := by
  refine ⟨?_, fun r hr => (h'.2 r hr).trans (h.2 r hr)⟩
  rw [h'.1, h.1]

/-- A value in flight to g1 that reaches it. -/
theorem OnlyLink.land (c : Ctx) (v : VWord) : OnlyLink c (tagDest (writeDest c (.g 1) v) (.g 1) true) :=
  ⟨rfl, fun _ hr => getG_setG_other c (v.truncate 64) hr⟩

theorem landLink_onlyLink (t : Task) : OnlyLink t.ctx (landLink t).ctx := by
  have step : ∀ (fs : List InFlight) (c : Ctx), (∀ f ∈ fs, f.dest = .g 1) →
      OnlyLink c (fs.foldl (fun c f => tagDest (writeDest c f.dest f.val) f.dest true) c) := by
    intro fs
    induction fs with
    | nil => exact fun c _ => .refl c
    | cons f fs ih =>
      intro c hf
      obtain ⟨h1, h2⟩ := List.forall_mem_cons.1 hf
      refine .trans ?_ (ih _ h2)
      simp only [h1]; exact .land c f.val
  exact step _ _ fun f hf => by simpa using (List.mem_filter.1 hf).2

/-- After the values in flight to g1 have reached it, none is. -/
theorem landLink_inflight (t : Task) : ∀ f ∈ (landLink t).inflight, f.dest ≠ .g 1 := by
  intro f hf
  simpa using (List.mem_filter.1 hf).2

theorem landLink_of_none {t : Task} (h : ∀ f ∈ t.inflight, f.dest ≠ .g 1) : (landLink t).ctx = t.ctx := by
  have hf : (t.inflight.filter fun f => f.dest == .g 1) = [] := by simpa [List.filter_eq_nil_iff] using h
  simp only [landLink, hf, List.foldl_nil]

section
variable (t : Task)
@[simp] theorem landLink_ctx_pc : (landLink t).ctx.pc = t.ctx.pc := by rw [(landLink_onlyLink t).1]
@[simp] theorem landLink_ctx_rep : (landLink t).ctx.rep = t.ctx.rep := by rw [(landLink_onlyLink t).1]
@[simp] theorem landLink_ctx_tlink : (landLink t).ctx.tlink = t.ctx.tlink := by rw [(landLink_onlyLink t).1]
@[simp] theorem landLink_ctx_trapRep : (landLink t).ctx.trapRep = t.ctx.trapRep := by rw [(landLink_onlyLink t).1]
@[simp] theorem landLink_ctx_v : (landLink t).ctx.v = t.ctx.v := by rw [(landLink_onlyLink t).1]
@[simp] theorem landLink_ctx_m : (landLink t).ctx.m = t.ctx.m := by rw [(landLink_onlyLink t).1]
@[simp] theorem landLink_ctx_flags : (landLink t).ctx.flags = t.ctx.flags := by rw [(landLink_onlyLink t).1]
theorem getG_landLink {r : Reg} (h : r ≠ 1) : getG (landLink t).ctx r = getG t.ctx r := (landLink_onlyLink t).2 r h
end

/-! ### Jumps -/

/-- Bit 0 of a target is cleared. -/
theorem and_not_one (x : Word) : x &&& ~~~1#64 = BitVec.ofNat 64 (2 * (x.toNat / 2)) := by
  have h : x &&& ~~~1#64 = (x >>> 1) <<< 1 := by
    apply BitVec.eq_of_getLsbD_eq; intro k hk
    rcases k with _ | k
    · simp
    · have h1 : (1#64).getLsbD (k + 1) = false := by simp [BitVec.getLsbD_one]
      rw [BitVec.getLsbD_and, BitVec.getLsbD_not, h1]
      simp [hk, Nat.add_comm]
  rw [h, shiftLeft_eq_ofNat_mul, BitVec.toNat_ushiftRight, Nat.shiftRight_eq_div_pow, Nat.mul_comm]; rfl

/-- `jal` that issues transfers to its target and links. -/
theorem exec_jal_ready {s : State} {d : Reg} (i : BitVec 20) (hd : destRoom s.cur d = true) (hr : Ready s [] [d]) :
    let target := s.cur.ctx.pc + BitVec.ofInt 64 (2 * i.toInt)
    exec (.jal d i) s = transfer s target
      (.next { s with cur := Task.jumpTo { s.cur with ctx := setG s.cur.ctx d (s.cur.ctx.pc + 4) } target }) := by
  intro target
  rw [exec_jal, execJal, gate_ready hr]
  simp only [hd, if_true, jalDisp, append_zero_signExtend]; rfl

/-- The target of a `jalr`. -/
def jalrTarget (s : State) (a : Reg) (k : BitVec 12) : Word :=
  BitVec.ofNat 64 (2 * ((arg1 s a + BitVec.ofInt 64 k.toInt).toNat / 2))

/-- `jalr` that issues, other than as the trap return, transfers to its target and links. -/
theorem exec_jalr_ready {s : State} {d a : Reg} (k : BitVec 12) (hd : destRoom s.cur d = true) (hr : Ready s [a] [d])
    (hm : s.cur.ctx.trapMode = false ∨ (jalrTarget s a k).toNat % 4 ≠ 2) :
    exec (.jalr d a k) s = transfer s (jalrTarget s a k) (.next { s with
      cur := Task.jumpTo { read1 s a with ctx := setG (read1 s a).ctx d ((read1 s a).ctx.pc + 4) } (jalrTarget s a k) }) := by
  rw [exec_jalr, execJalr, gate_ready hr, takeG_cur]
  simp only [and_not_one]
  rw [if_neg, if_pos hd]
  · rfl
  · rw [Bool.and_eq_true, decide_eq_true_eq]
    rintro ⟨h1, h2⟩
    rcases hm with h | h
    · rw [h] at h1; cases h1
    · exact h h2

/-- `jalr` in trap mode to a target with bits [1:0] = 0b10 is the trap return (R204). -/
theorem exec_jalr_return {s : State} {d a : Reg} (k : BitVec 12) (hd : destRoom s.cur d = true) (hr : Ready s [a] [d])
    (hm : s.cur.ctx.trapMode = true) (h2 : (jalrTarget s a k).toNat % 4 = 2) :
    exec (.jalr d a k) s = transfer s (jalrTarget s a k - 2) (.next { s with cur := { landLink (read1 s a) with
      ctx := trapReturnCtx (landLink (read1 s a)).ctx d (jalrTarget s a k)
      chunk := countInstr (landLink (read1 s a)).chunk } }) := by
  rw [exec_jalr, execJalr, gate_ready hr, takeG_cur]
  simp only [and_not_one]
  rw [if_pos, if_pos hd]
  · rfl
  · rw [Bool.and_eq_true, decide_eq_true_eq]; exact ⟨hm, h2⟩

/-! ### The trap return -/

section
variable (c : Ctx) (d : Reg) (target : Word)

theorem getG_trapReturnCtx_link : getG (trapReturnCtx c d target) 1 = c.tlink := by
  refine (getG_setG_same _ _ (by decide) (by decide) (by decide)).trans rfl

theorem getG_trapReturnCtx_same (h0 : d ≠ 0) (h1 : d ≠ 1) (h28 : d ≠ 28) (h29 : d ≠ 29) :
    getG (trapReturnCtx c d target) d = c.pc + 4 :=
  (getG_setG_other _ _ h1).trans (getG_setG_same c _ h0 h28 h29)

theorem getG_trapReturnCtx_other {r : Reg} (h : r ≠ d) (h1 : r ≠ 1) : getG (trapReturnCtx c d target) r = getG c r :=
  (getG_setG_other _ _ h1).trans (getG_setG_other c _ h)

theorem trapReturnCtx_trapMode : (trapReturnCtx c d target).trapMode = false := rfl
theorem trapReturnCtx_rep : (trapReturnCtx c d target).rep = c.trapRep := rfl
theorem trapReturnCtx_pc : (trapReturnCtx c d target).pc = target - 2 := rfl
end

/-- Two below a target that is 2 modulo 4 is a multiple of 4. -/
theorem sub_two_mod_four {x : Word} (h : x.toNat % 4 = 2) : (x - 2).toNat % 4 = 0 := by bv_omega

/-- Settles O6: a jump is a transfer that links; the trap return is a transfer to two below the target. -/
theorem jumps : Obligations.Jumps := by
  intro s d a i k hd
  refine ⟨fun hr => ?jal, fun hr => ?jalr⟩
  case jal =>
    simp only [exec_jal_ready i hd hr]
    exact ⟨fun h4 hp => transfer_goes h4 hp _, fun h4 => transfer_misaligned h4 _, fun h4 hp => transfer_foreign h4 hp _⟩
  case jalr =>
    intro sum target
    have hnot : target.toNat % 4 = 0 → target.toNat % 4 ≠ 2 := by omega
    refine ⟨fun h4 hp => ?goes, fun h2 hm => ?misaligned, fun h4 hp => ?foreign, fun h2 hm hp => ?returnForeign,
      fun h2 hm hp => ?returns⟩
    case goes =>
      rw [exec_jalr_ready k hd hr (.inr (hnot h4)), read1_eq_popped]
      exact transfer_goes h4 hp _
    case misaligned =>
      rw [exec_jalr_ready k hd hr (.inl hm)]
      exact transfer_misaligned (h2.trans_ne (by decide)) _
    case foreign =>
      rw [exec_jalr_ready k hd hr (.inr (hnot h4))]
      exact transfer_foreign h4 hp _
    case returnForeign =>
      rw [exec_jalr_return k hd hr hm h2]
      exact transfer_foreign (sub_two_mod_four h2) hp _
    case returns =>
      refine ⟨_, (exec_jalr_return k hd hr hm h2).trans (transfer_goes (sub_two_mod_four h2) hp _), ?_⟩
      have hpop : (read1 s a).ctx.g = s.cur.ctx.g := by rw [read1_eq_popped]; rfl
      refine ⟨rfl, ?_, rfl, ?_, fun h0 h1 h28 h29 => ?_, fun r hrd hr1 => ?_, rfl, fun _ => rfl⟩
      · rw [getG_trapReturnCtx_link, landLink_ctx_tlink, read1_eq_popped]; rfl
      · rw [trapReturnCtx_rep, landLink_ctx_trapRep, read1_eq_popped]; rfl
      · rw [getG_trapReturnCtx_same _ _ _ h0 h1 h28 h29, landLink_ctx_pc, read1_eq_popped]; rfl
      · rw [getG_trapReturnCtx_other _ _ _ hrd hr1, getG_landLink _ hr1, getG_congr hpop]

/-! ### Trap entry -/

theorem trapFatal_eq_false {s : State} {c : Nat} (hv : bitOf (tvec s s.cur) 63 = true) (hm : s.cur.ctx.trapMode = false)
    (hc : fatalCause c = false) : trapFatal s c = false := by simp [trapFatal, hv, hm, hc]

/-- A trap that is not fatal enters the routine where the chunk has just begun, or has committed. -/
theorem takeTrap_enters {s c : State} {cause : Nat} (hf : trapFatal s cause = false)
    (hc : s.cur.chunk.fresh = true ∧ c = releaseTokens s s.cur.key ∨ s.cur.chunk.fresh = false ∧ commitNow s = .done c)
    (u : Nat) (x : Word) (n e : Bool) : takeTrap s cause u x n e = enterTrap c cause u n := by
  rcases hc with ⟨h, rfl⟩ | ⟨h, hd⟩
  · exact takeTrap_fresh hf h u x n e
  · exact takeTrap_done hf h hd u x n e

/-- What the routine finds: the trap state, ln, the suspended repetition and a new chunk, and everything else as `c` left it. -/
def TrapEntered (c t : State) (cause : Word) : Prop :=
  t.cur.ctx.trapCause = cause ∧ t.cur.ctx.trapPc = c.cur.ctx.pc ∧
  t.cur.ctx.trapIdx = BitVec.ofNat 64 (portIndex c c.cur.name c.cur.ctx.pc) ∧
  t.cur.ctx.tlink = getG (landLink c.cur).ctx 1 ∧ ((∀ f ∈ c.cur.inflight, f.dest ≠ .g 1) → t.cur.ctx.tlink = getG c.cur.ctx 1) ∧
  getG t.cur.ctx 1 = (c.cur.ctx.pc + 4) ||| 2 ∧ t.cur.ctx.trapMode = true ∧
  t.cur.ctx.trapRep = c.cur.ctx.rep ∧ t.cur.ctx.rep = none ∧
  t.cur.ctx.pc = entryPc c c.cur.handle (fieldNat (tvec c c.cur) 39 0) ∧
  t.cur.chunk = Chunk.begin t.cur.ctx c.time false ∧
  (∀ r : Reg, r ≠ 1 → getG t.cur.ctx r = getG c.cur.ctx r) ∧ t.cur.ctx.v = c.cur.ctx.v ∧ t.cur.ctx.m = c.cur.ctx.m ∧
  t.cur.ctx.flags = c.cur.ctx.flags ∧ (∀ f ∈ t.cur.inflight, f.dest ≠ .g 1) ∧ OnlyTask c t

theorem onlyTask_modCur (s : State) (f : Task → Task) : OnlyTask s (modCur s f) := ⟨rfl, fun _ => rfl⟩

theorem enterTrap_ctx (c : State) (cause user : Nat) (n : Bool) :
    (enterTrap c cause user n).cur.ctx = trapCtx c c.cur cause user n := rfl

theorem enterTrap_chunk (c : State) (cause user : Nat) (n : Bool) :
    (enterTrap c cause user n).cur.chunk = Chunk.begin (trapCtx c c.cur cause user n) c.time false := rfl

theorem getG_trapCtx_link (c : State) (t : Task) (cause user : Nat) :
    getG (trapCtx c t cause user true) 1 = (t.ctx.pc + 4) ||| 2 := by
  refine (getG_setG_same _ _ (by decide) (by decide) (by decide)).trans ?_
  rw [if_pos rfl, landLink_ctx_pc]

/-- Of the general registers the entry writes ln, over what had landed in it. -/
theorem trapCtx_eq_setG (c : State) (t : Task) (cause user : Nat) (n : Bool) :
    ∃ c' v, trapCtx c t cause user n = setG c' 1 v ∧ c'.g = (landLink t).ctx.g := ⟨_, _, rfl, rfl⟩

theorem getG_trapCtx_other (c : State) (t : Task) (cause user : Nat) (n : Bool) {r : Reg} (h : r ≠ 1) :
    getG (trapCtx c t cause user n) r = getG t.ctx r := by
  obtain ⟨c', v, hc, hg⟩ := trapCtx_eq_setG c t cause user n
  rw [hc, getG_setG_other _ _ h, getG_congr hg, getG_landLink t h]

theorem enterTrap_entered (c : State) (cause user : Nat) :
    TrapEntered c (enterTrap c cause user true) (BitVec.ofNat 64 (cause + 2 ^ 8 * user)) := by
  unfold TrapEntered
  rw [enterTrap_ctx, enterTrap_chunk]
  refine ⟨setG_trapCause .., (setG_trapPc ..).trans (landLink_ctx_pc _), (setG_trapIdx ..).trans ?index, setG_tlink ..,
    fun h => (setG_tlink ..).trans ?link, getG_trapCtx_link .., setG_trapMode .., (setG_trapRep ..).trans (landLink_ctx_rep _),
    setG_rep .., setG_pc .., rfl, fun r hr => getG_trapCtx_other _ _ _ _ _ hr, (setG_v ..).trans (landLink_ctx_v _),
    (setG_m ..).trans (landLink_ctx_m _), (setG_flags ..).trans (landLink_ctx_flags _), fun f hf => ?inflight,
    onlyTask_modCur ..⟩
  case index => exact congrArg (fun x => BitVec.ofNat 64 (portIndex c c.cur.name x)) (landLink_ctx_pc _)
  case link => exact congrArg (getG · 1) (landLink_of_none h)
  case inflight =>
    obtain ⟨g, hg, rfl⟩ := List.mem_map.1 hf
    exact landLink_inflight c.cur g hg

/-- Settles O7: both take one trap, which is not fatal here, and the registers of its entry are those of `trapCtx`. -/
theorem trapEntry : Obligations.TrapEntry := by
  intro s c n hv hm hc
  have enters : ∀ cause user, fatalCause cause = false → takeTrap s cause user 0 true false = enterTrap c cause user true :=
    fun cause user hf => takeTrap_enters (trapFatal_eq_false hv hm hf) hc user 0 true false
  refine ⟨⟨_, ?_, enterTrap_entered c 0x0F n.toNat⟩, ⟨_, ?_, enterTrap_entered c 0x10 0⟩⟩
  · rw [exec_trap, execTrap, enters _ _ rfl]
  · rw [exec_brk, execBrk, enters _ _ rfl]

end Sys2Proof.Machine
end

section
/-! PROOFS. What the shared operations on other tasks leave unchanged: sparse tables, the list of tasks, aborts and the writes
that other parties commit, the observation of wait slots, and a record's count in the silo (R102, R114, R115, R329, R458). -/

namespace Sys2Proof.Machine

/-! ### Sparse tables -/

theorem Tab.get_set_same {α : Type} (t : Tab α) (k : Nat) (v d : α) : Tab.get (Tab.set t k v) k d = v := by
  induction t with
  | nil => simp [Tab.set, Tab.get]
  | cons e es ih =>
    unfold Tab.set
    split_ifs with h
    · simp [Tab.get]
    · simpa [Tab.get, h] using ih

theorem Tab.get_set_other {α : Type} (t : Tab α) {k j : Nat} (v d : α) (h : j ≠ k) :
    Tab.get (Tab.set t k v) j d = Tab.get t j d := by
  induction t with
  | nil => simp [Tab.set, Tab.get, h.symm]
  | cons e es ih =>
    unfold Tab.set
    split_ifs with he
    · subst he; simp [Tab.get, h.symm]
    · by_cases hj : e.1 = j
      · simp [Tab.get, hj]
      · simpa [Tab.get, hj] using ih

/-! ### The list of tasks -/

theorem mem_insertTask {t u : Task} {l : List Task} : u ∈ insertTask t l ↔ u = t ∨ u ∈ l := by
  induction l with
  | nil => simp [insertTask]
  | cons x xs ih =>
    simp only [insertTask]
    split_ifs
    · simp
    · simp only [List.mem_cons, ih]; tauto

theorem mem_allTasks {s : State} {u : Task} : u ∈ allTasks s ↔ isTask s.cur = true ∧ u = s.cur ∨ u ∈ s.tasks := by
  unfold allTasks
  split_ifs with h <;> simp [mem_insertTask, h]

/-- The tasks of a machine depend on nothing else of it. -/
theorem allTasks_congr {s s' : State} (hc : s'.cur = s.cur) (ht : s'.tasks = s.tasks) : allTasks s' = allTasks s := by
  simp only [allTasks, hc, ht]

/-! ### Changes of the tasks alone -/

/-- At most the tasks differ. -/
def OnlyTasks (s t : State) : Prop := t = { s with cur := t.cur, tasks := t.tasks }

theorem OnlyTasks.refl (s : State) : OnlyTasks s s := rfl

theorem OnlyTasks.trans {s t u : State} (h : OnlyTasks s t) (h' : OnlyTasks t u) : OnlyTasks s u := by
  unfold OnlyTasks at *; rw [h', h]

theorem park_onlyTasks (s : State) : OnlyTasks s (park s) := rfl

theorem focus_onlyTasks (s : State) (k : Nat) : OnlyTasks s (focus s k) := by
  unfold focus
  split_ifs
  · rfl
  · dsimp only; split <;> rfl

theorem mapTasks_onlyTasks (s : State) (f : Task → Task) : OnlyTasks s (mapTasks s f) := rfl

theorem observe_onlyTasks (s : State) : OnlyTasks s (observe s) := rfl

/-- A relation of machines that a change of tasks satisfies, and that an operation on any executing task satisfies, is satisfied
by that operation on another task. -/
theorem onTask_rel {R : State → State → Prop} (htrans : ∀ {s t u}, R s t → R t u → R s u)
    (htasks : ∀ {s t}, OnlyTasks s t → R s t) {f : State → State} (hf : ∀ s, R s (f s)) (s : State) (k : Nat) :
    R s (onTask s k f) := by
  unfold onTask
  split_ifs
  · exact hf s
  · exact htrans (htrans (htasks (focus_onlyTasks s k)) (hf _)) (htasks (focus_onlyTasks _ _))
  · exact htrans (htrans (htasks (focus_onlyTasks s k)) (hf _)) (htasks rfl)

theorem onTasks_rel {R : State → State → Prop} (htrans : ∀ {s t u}, R s t → R t u → R s u)
    (htasks : ∀ {s t}, OnlyTasks s t → R s t) {f : State → State} (hf : ∀ s, R s (f s)) (s : State) (ks : List Nat) :
    R s (onTasks s ks f) := by
  unfold onTasks
  induction ks generalizing s with
  | nil => exact htasks (.refl s)
  | cons k ks ih => exact htrans (onTask_rel (R := R) htrans htasks hf s k) (ih _)

/-! ### Aborts and committed writes -/

/-- What aborts of chunks leave of the machine: beside the tasks only their counts in the silo, commit tokens, crib lists, parts
of joint arrays and freed nodes change (R114, R115, R240). -/
structure OnlyAborts (s t : State) : Prop where
  eq : t = { s with silo := t.silo, sched := { s.sched with tokens := t.sched.tokens, cribs := t.sched.cribs }
                    eng := { s.eng with arrays := t.eng.arrays }, mem := t.mem, cur := t.cur, tasks := t.tasks }
  silo : ∀ i, 2211 < i → Tab.get t.silo i 0 = Tab.get s.silo i 0
  wf : s.mem.wf = true → t.mem.wf = true

theorem OnlyTasks.onlyAborts {s t : State} (h : OnlyTasks s t) : OnlyAborts s t := by
  rw [h]; exact ⟨rfl, fun _ _ => rfl, id⟩

theorem OnlyAborts.refl (s : State) : OnlyAborts s s := ⟨rfl, fun _ _ => rfl, id⟩

theorem OnlyAborts.trans {s t u : State} (h : OnlyAborts s t) (h' : OnlyAborts t u) : OnlyAborts s u := by
  refine ⟨?_, fun i hi => (h'.silo i hi).trans (h.silo i hi), fun hw => h'.wf (h.wf hw)⟩
  rw [h'.eq, h.eq]

section
variable {s t : State} (h : OnlyAborts s t)
include h
theorem OnlyAborts.conf : t.conf = s.conf := by rw [h.eq]
theorem OnlyAborts.time : t.time = s.time := by rw [h.eq]
theorem OnlyAborts.power : t.power = s.power := by rw [h.eq]
theorem OnlyAborts.ctl : t.ctl = s.ctl := by rw [h.eq]
theorem OnlyAborts.pre : t.pre = s.pre := by rw [h.eq]
theorem OnlyAborts.mgmt : t.mgmt = s.mgmt := by rw [h.eq]
theorem OnlyAborts.fab : t.fab = s.fab := by rw [h.eq]
theorem OnlyAborts.moves : t.moves = s.moves := by rw [h.eq]
theorem OnlyAborts.tears : t.tears = s.tears := by rw [h.eq]
theorem OnlyAborts.agenda : t.agenda = s.agenda := by rw [h.eq]
theorem OnlyAborts.late : t.late = s.late := by rw [h.eq]
theorem OnlyAborts.fresh : t.fresh = s.fresh := by rw [h.eq]
theorem OnlyAborts.nextKey : t.nextKey = s.nextKey := by rw [h.eq]
end

theorem abortEntry_le (c : Chunk) : abortEntry c ≤ 2211 := by
  unfold abortEntry; split_ifs <;> omega

theorem foldl_onlyAborts {α β : Type} {F : State × β → α → State × β} (hF : ∀ acc a, OnlyAborts acc.1 (F acc a).1)
    (l : List α) (acc : State × β) : OnlyAborts acc.1 (l.foldl F acc).1 := by
  induction l generalizing acc with
  | nil => exact .refl _
  | cons a l ih => exact (hF acc a).trans (ih _)

theorem abortCur_onlyAborts (s : State) : OnlyAborts s (abortCur s).1 := by
  unfold abortCur
  dsimp only
  refine .trans (t := leaveArray (releaseTokens (siloBump s (abortEntry s.cur.chunk)) s.cur.key) s.cur.key) ?start
    (.trans (foldl_onlyAborts ?give _ (_, _)) ⟨rfl, fun _ _ => rfl, id⟩)
  case start =>
    refine ⟨rfl, fun i hi => ?_, id⟩
    have := abortEntry_le s.cur.chunk
    exact Tab.get_set_other _ _ _ (by omega)
  case give =>
    intro acc a
    split
    · exact ⟨rfl, fun _ _ => rfl, id⟩
    · exact ⟨rfl, fun _ _ => rfl, id⟩
    · split_ifs
      · exact ⟨rfl, fun _ _ => rfl, id⟩
      · exact ⟨rfl, fun _ _ => rfl, fun h => poolFree_wf h _ _⟩

theorem publishFuel_onlyAborts (n : Nat) (s : State) (k : Nat) (ls : List Nat) : OnlyAborts s (publishFuel n s k ls) := by
  induction n generalizing s ls with
  | zero => exact .refl s
  | succ n ih =>
    have hv : ∀ (acc : State × List Nat) (t : Task), OnlyAborts acc.1 (onTask acc.1 t.key fun s => (abortCur s).1) :=
      fun acc t => onTask_rel (R := OnlyAborts) .trans OnlyTasks.onlyAborts (f := fun s => (abortCur s).1) abortCur_onlyAborts _ _
    unfold publishFuel
    dsimp only
    split_ifs
    · exact foldl_onlyAborts (by exact hv) _ (s, [])
    · exact .trans (foldl_onlyAborts (by exact hv) _ (s, [])) (ih _ _)

/-- A committed write only aborts chunks. -/
theorem publish_onlyAborts (s : State) (k : Nat) (ls : List Nat) : OnlyAborts s (publish s k ls) :=
  publishFuel_onlyAborts _ s k ls

theorem abortChunk_onlyAborts (s : State) : OnlyAborts s (abortChunk s) := by
  unfold abortChunk
  dsimp only
  split_ifs
  · exact abortCur_onlyAborts s
  · exact (abortCur_onlyAborts s).trans (publish_onlyAborts _ _ _)

theorem ctlChanged_onlyAborts (s : State) (off : Nat) : OnlyAborts s (ctlChanged s off) :=
  (publish_onlyAborts s 0 _).trans (observe_onlyTasks _).onlyAborts

theorem siloAdd_onlyAborts (s : State) (i : Nat) : OnlyAborts (siloBump s i) (siloAdd s i) := ctlChanged_onlyAborts _ _

/-! ### A write that meets no chunk -/

/-- A write of lines that no running chunk has entered aborts none. -/
theorem publish_of_unmet {s : State} (k : Nat) {ls : List Nat}
    (h : ∀ u ∈ allTasks s, ∀ l ∈ ls, l ∉ u.chunk.rlines ++ u.chunk.wlines) : publish s k ls = s := by
  have hv : ((allTasks s).filter fun t => t.key != k && !runsSerial s t && meet ls (t.chunk.rlines ++ t.chunk.wlines)) = [] := by
    refine List.filter_eq_nil_iff.2 fun u hu hm => ?_
    simp only [Bool.and_eq_true, meet, List.any_eq_true, List.contains_iff_mem] at hm
    obtain ⟨-, l, hl, hm⟩ := hm
    exact h u hu l hl hm
  unfold publish publishFuel
  simp only [hv, List.foldl_nil, List.isEmpty_nil, if_true]

theorem publish_of_unseen {s : State} (k : Nat) {off : Nat} (h : Unseen s off) :
    publish s k [(0x2100000000 + off) / 64] = s :=
  publish_of_unmet k fun u hu l hl => by rw [List.mem_singleton.1 hl]; exact h u hu

/-- A change of a word of control space that no chunk has read wakes waiters alone. -/
theorem ctlChanged_of_unseen {s : State} {off : Nat} (h : Unseen s off) : ctlChanged s off = observe s := by
  rw [ctlChanged, publish_of_unseen 0 h]

theorem onlySlots_of_eq {s t : State} {w : Vector WaitSlot 4} {i : Option Inline}
    (h : t.cur = { s.cur with waits := w, inline := i }) : OnlySlots s t := by
  unfold OnlySlots; rw [h]

/-- The observation changes of a task at most its wait slots. -/
theorem observe_onlySlots (s : State) : OnlySlots s (observe s) := by
  by_cases h : isTask s.cur = true
  · exact onlySlots_of_eq (if_pos h)
  · exact onlySlots_of_eq ((if_neg h).trans rfl)

end Sys2Proof.Machine
end

section
/-! PROOFS. Fault records and fatal traps (R59, R205, R208, R305, R329). -/

namespace Sys2Proof.Machine

/-! ### Flits that leave -/

/-- A flit that leaves, or is held at its link, changes the fabric interface alone. -/
theorem sendFlit_eq (s : State) (f : Flit) : ∃ fab, sendFlit s f = { s with fab := fab } ∧ fab.outReqs = s.fab.outReqs := by
  unfold sendFlit
  dsimp only
  split_ifs <;> exact ⟨_, rfl, rfl⟩

/-- A tracked request joins those that await an answer, and changes the fabric interface alone. -/
theorem sendTracked_eq (s : State) (task core tenant dest cls dcore op : Nat) (words : List Word)
    (waits : Option (Nat × Dest × Nat × Bool)) (counted : Bool) :
    ∃ fab r, sendTracked s task core tenant dest cls dcore op words waits counted = { s with fab := fab } ∧
      fab.outReqs = s.fab.outReqs ++ [r] ∧ r.flit = mkFlit s dest cls tenant core dcore op (freeReqid s core) words := by
  unfold sendTracked sendKept
  dsimp only
  split_ifs
  · exact ⟨_, _, rfl, rfl, rfl⟩
  · obtain ⟨fab, hs, hr⟩ := sendFlit_eq s (mkFlit s dest cls tenant core dcore op (freeReqid s core) words)
    rw [hs]
    exact ⟨_, _, rfl, congrArg (· ++ [_]) hr, rfl⟩

/-- A fault record leaves as an OP 8 flit to the tenant's host endpoint, under its envelope (R305). -/
theorem hostRecord_fault_eq (s : State) (ti launch : Nat) (body : List Word) :
    ∃ fab ls r, hostRecord s 3 ti launch body = { s with fab := fab, sched := { s.sched with launches := ls } } ∧
      fab.outReqs = s.fab.outReqs ++ [r] ∧ r.flit.op = 8 ∧ r.flit.cls = 2 ∧ r.flit.ti = ti ∧ r.flit.dest = hostEp s ti ∧
      r.flit.words = envelope 3 body.length ti launch :: body := by
  unfold hostRecord
  rw [if_pos rfl]
  obtain ⟨fab, r, hs, hr, hf⟩ := sendTracked_eq (mapLaunch s ti launch fun x => { x with unacked := x.unacked + 1 }) 0 0 ti
    (hostEp s ti) 2 0 8 (envelope 3 body.length ti launch :: body) none false
  refine ⟨fab, _, r, hs, hr, ?_⟩
  rw [hf]
  exact ⟨rfl, rfl, rfl, rfl, rfl⟩

/-- A fault record of a cause other than the elision audit's: what has changed when its count in the silo rises. -/
theorem faultRecord_eq (s : State) (t : TaskName) {i : FaultInfo} (h4 : i.cause ≠ 4) :
    ∃ fab ls r, faultRecord s t i = siloAdd { s with fab := fab, sched := { s.sched with launches := ls } } (2211 + i.cause) ∧
      fab.outReqs = s.fab.outReqs ++ [r] ∧ r.flit.op = 8 ∧ r.flit.cls = 2 ∧ r.flit.ti = t.tenant ∧
      r.flit.dest = hostEp s t.tenant ∧
      r.flit.words = envelope 3 8 t.tenant ((t.launch.map (·.2)).getD 0) :: faultBody s t i := by
  obtain ⟨fab, ls, r, hs, hr⟩ := hostRecord_fault_eq s t.tenant ((t.launch.map (·.2)).getD 0) (faultBody s t i)
  unfold faultRecord
  dsimp only
  rw [hs, if_neg h4]
  split
  · split_ifs
    · exact ⟨fab, _, r, rfl, hr⟩
    · exact ⟨fab, _, r, rfl, hr⟩
  · exact ⟨fab, _, r, rfl, hr⟩

/-! ### The words of a record (Table 08.2) -/

theorem bitOf_eq_decide (w : Word) (n : Nat) : bitOf w n = decide (w.toNat / 2 ^ n % 2 = 1) := by
  rw [bitOf, BitVec.getLsbD, Nat.testBit_eq_decide_div_mod_eq]

theorem fieldNat_eq (w : Word) (hi lo : Nat) : fieldNat w hi lo = w.toNat / 2 ^ lo % 2 ^ (hi + 1 - lo) := by
  rw [fieldNat, Nat.shiftRight_eq_div_pow]

/-- The fields of word 0 of a fault record. -/
theorem causeWord_fields {i : FaultInfo} (hc : i.cause < 2 ^ 5) (hu : i.user < 32) (m n : Bool) :
    let c := causeWord i m n
    fieldNat c 7 0 = i.cause ∧ fieldNat c 12 8 = i.user ∧ bitOf c 16 = i.fatal ∧ bitOf c 17 = m ∧ bitOf c 18 = i.deferred ∧
      bitOf c 19 = n := by
  simp only [bitOf_eq_decide, fieldNat_eq, causeWord, BitVec.toNat_ofNat]
  cases i.fatal <;> cases i.deferred <;> cases m <;> cases n <;> simp only [Bool.false_eq_true, if_true, if_false,
    decide_eq_true_eq, decide_eq_false_iff_not] <;> omega

theorem envelope_kind (n ti launch : Nat) : fieldNat (envelope 3 n ti launch) 7 0 = 3 := by
  simp only [fieldNat_eq, envelope, BitVec.toNat_ofNat]; omega

theorem faultRecords_hold : faultRecordsClaim := by
  intro s t i h1 h5 hu h4
  obtain ⟨fab, ls, f, hr, hq, hop, hcls, hti, hdest, hwords⟩ := faultRecord_eq s t h4
  dsimp only
  rw [hr]
  have ha := siloAdd_onlyAborts { s with fab := fab, sched := { s.sched with launches := ls } } (2211 + i.cause)
  refine ⟨⟨f, ?last, hop, hcls, hti, hdest, by rw [hwords]; rfl, _, _, _, hwords, ?words⟩, fun hlt => ?count, fun hun => ?unseen⟩
  case last => rw [ha.fab]; simp [hq]
  case words =>
    obtain ⟨hcause, huser, hfatal, hmode, hdef, hno⟩ := causeWord_fields h5 hu t.trapMode (!bitOf (tvecOf s t.handle) 63)
    exact ⟨hcause, huser, hfatal, hmode, hdef, hno, rfl, envelope_kind ..⟩
  case count =>
    rw [ha.silo _ (by omega), siloBump_silo, Tab.get_set_same]
    exact min_eq_left (Nat.succ_le_iff.2 hlt)
  case unseen =>
    have hun' : Unseen (siloBump { s with fab := fab, sched := { s.sched with launches := ls } } (2211 + i.cause))
        (0x4000000 + 8 * (2211 + i.cause)) := hun
    rw [siloAdd, ctlChanged_of_unseen hun']
    exact ⟨(observe_onlySlots _ :), rfl⟩

/-! ### Fatal traps -/

theorem trapFatal_iff (s : State) (c : Nat) : trapFatal s c = true ↔
    c ∈ [0x01, 0x04, 0x08, 0x0B] ∨ bitOf (tvec s s.cur) 63 = false ∨ s.cur.ctx.trapMode = true := by
  simp [trapFatal, fatalCause, or_assoc]

theorem fatalTraps_hold : fatalTrapsClaim := by
  intro s n
  refine ⟨fun hs => ?illegal, fun h => ?routine, trapFatal_iff s⟩
  case illegal =>
    rw [exec_illegalEncoding, execIllegalEncoding, if_pos hs, trap, takeTrap_fatal ((trapFatal_iff s 1).2 (.inl (by simp)))]
    rfl
  case routine =>
    have hf : ∀ c, trapFatal s c = true := fun c => (trapFatal_iff s c).2 (.inr h)
    rw [exec_trap, execTrap, exec_brk, execBrk, takeTrap_fatal (hf _), takeTrap_fatal (hf _)]
    exact ⟨rfl, rfl⟩

/-- Settles O8: a fatal trap is `fatalTrap`, and its record is one flit and one count. -/
theorem fatalTraps : Obligations.FatalTraps := ⟨fatalTraps_hold, faultRecords_hold⟩

end Sys2Proof.Machine
end

section
/-! PROOFS. Memory stays canonical: the layer under O58 and O59. Every operation of the model is given one lemma, `_memOk` where
it gives a state and `_yields` where it gives an outcome, and the lemma of an operation is made of those of its parts. -/
namespace Sys2Proof.Machine
variable {φ : Prop} {m : Mem} {s : State}

/-- Memory is canonical under the condition `φ`: with `True` what O59 keeps, with `False` nothing, which leaves of `Yields` what
O58 says. -/
structure MemOk (φ : Prop) (m : Mem) : Prop where
  wf : φ → m.wf = true

/-- An outcome is a next state, and its memory is canonical under `φ`. -/
def Yields (φ : Prop) (o : Out) : Prop := ∃ t, o = .next t ∧ MemOk φ t.mem

@[simp] theorem yields_next {t : State} : Yields φ (.next t) ↔ MemOk φ t.mem :=
  ⟨fun ⟨_, e, h⟩ => by cases e; exact h, fun h => ⟨t, rfl, h⟩⟩

theorem MemOk.write {a : Nat} {b : Byte} (h : MemOk φ m) : MemOk φ (m.write a b) := ⟨fun hp => Mem.write_wf (h.wf hp) a b⟩
theorem MemOk.writeBytes {a : Nat} {bs : List Byte} (h : MemOk φ m) : MemOk φ (m.writeBytes a bs) :=
  ⟨fun hp => Mem.writeBytes_wf (h.wf hp) a bs⟩
theorem MemOk.write64 {a : Nat} {w : Word} (h : MemOk φ m) : MemOk φ (m.write64 a w) := ⟨fun hp => Mem.write64_wf (h.wf hp) a w⟩
theorem MemOk.setTag {a : Nat} {f : Bool} (h : MemOk φ m) : MemOk φ (m.setTag a f) := ⟨fun hp => Mem.setTag_wf (h.wf hp) a f⟩
theorem MemOk.setTags {a n : Nat} {f : Bool} (h : MemOk φ m) : MemOk φ (m.setTags a n f) :=
  ⟨fun hp => Mem.setTags_wf (h.wf hp) a n f⟩
theorem MemOk.clearPoison {a n : Nat} (h : MemOk φ m) : MemOk φ (m.clearPoison a n) := ⟨fun hp => Mem.clearPoison_wf (h.wf hp) a n⟩
theorem MemOk.laccApply {o : LaccEff} (h : MemOk φ m) : MemOk φ (laccApply m o).1 := ⟨fun hp => laccApply_wf (h.wf hp) o⟩
theorem MemOk.poolFree {b o : Nat} (h : MemOk φ m) : MemOk φ (poolFree m b o) := ⟨fun hp => poolFree_wf (h.wf hp) b o⟩

/-- One more word is poisoned. -/
theorem MemOk.poison {a : Nat} (h : MemOk φ m) : MemOk φ { m with poison := insertNat a m.poison } := by
  refine ⟨fun hp => ?_⟩
  obtain ⟨hc, he, hq, hs⟩ := (Mem.wf_iff _).1 (h.wf hp)
  exact (Mem.wf_iff _).2 ⟨hc, he, rising_insertNat hq a, hs⟩

/-- Cells, tags, poison and scrubbed granules may be picked out of a memory. -/
theorem MemOk.filter {c : Host.Cell → Bool} {e q g : Nat → Bool} {l : List Nat} (h : MemOk φ m) :
    MemOk φ ⟨m.cells.filter c, m.empties.filter e, m.poison.filter q, m.scrubbed.filter g, l⟩ := by
  refine ⟨fun hp => ?_⟩
  obtain ⟨hc, he, hq, hs⟩ := (Mem.wf_iff _).1 (h.wf hp)
  exact (Mem.wf_iff _).2 ⟨cellsWf_filter hc c, rising_filter he e, rising_filter hq q, rising_filter hs g⟩

/-- One more granule is scrubbed, whatever granules are to be cleared. -/
theorem MemOk.scrub {a : Nat} {l : List Nat} (h : MemOk φ m) :
    MemOk φ ⟨m.cells, m.empties, m.poison, insertNat a m.scrubbed, l⟩ := by
  refine ⟨fun hp => ?_⟩
  obtain ⟨hc, he, hq, hs⟩ := (Mem.wf_iff _).1 (h.wf hp)
  exact (Mem.wf_iff _).2 ⟨hc, he, hq, rising_insertNat hs a⟩

theorem MemOk.takeNode {base size : Nat} (h : MemOk φ m) : ∀ x ∈ takeNode m base size, MemOk φ x.2 := by
  unfold Machine.takeNode
  dsimp only
  split_ifs <;> simp [h, MemOk.write64]

theorem MemOk.takeNodes {n base size : Nat} (h : MemOk φ m) : MemOk φ (takeNodes n m base size).2 := by
  induction n generalizing m with
  | zero => exact h
  | succ n ih =>
    unfold Machine.takeNodes
    split
    · exact h
    next o m' e => exact ih (h.takeNode _ e)

theorem foldl_memOk {α : Type} {F : State → α → State} (hF : ∀ {s a}, MemOk φ s.mem → MemOk φ (F s a).mem)
    {l : List α} (hs : MemOk φ s.mem) : MemOk φ (l.foldl F s).mem := by
  induction l generalizing s with
  | nil => exact hs
  | cons a l ih => exact ih (hF hs)

theorem foldl_fst_memOk {α β : Type} {F : State × β → α → State × β} {x : State × β}
    (hF : ∀ {x a}, MemOk φ x.1.mem → MemOk φ (F x a).1.mem) {l : List α} (hx : MemOk φ x.1.mem) : MemOk φ (l.foldl F x).1.mem := by
  induction l generalizing x with
  | nil => exact hx
  | cons a l ih => exact ih (hF hx)

theorem foldl_mem_memOk {α : Type} {F : Mem → α → Mem} (hF : ∀ {m a}, MemOk φ m → MemOk φ (F m a))
    {l : List α} (h : MemOk φ m) : MemOk φ (l.foldl F m) := by
  induction l generalizing m with
  | nil => exact h
  | cons a l ih => exact ih (hF h)

theorem ite_memOk {c : Prop} [Decidable c] {t : State} (hs : MemOk φ s.mem) (ht : MemOk φ t.mem) :
    MemOk φ (if c then s else t).mem := by split_ifs <;> assumption

theorem ite_fst_memOk {α : Type} {c : Prop} [Decidable c] {x y : State × α} (hx : MemOk φ x.1.mem) (hy : MemOk φ y.1.mem) :
    MemOk φ (if c then x else y).1.mem := by split_ifs <;> assumption

theorem ite_yields {c : Prop} [Decidable c] {o o' : Out} (h : Yields φ o) (h' : Yields φ o') :
    Yields φ (if c then o else o') := by split_ifs <;> assumption

theorem OnlyAborts.memOk {t : State} (h : OnlyAborts s t) (hs : MemOk φ s.mem) : MemOk φ t.mem := ⟨fun hp => h.wf (hs.wf hp)⟩
end Sys2Proof.Machine
end

section
/-! PROOFS. Memory stays canonical: the shared operations of the state, messages, chunks and commits. -/
namespace Sys2Proof.Machine
variable {φ : Prop} {s : State}

theorem reset_memOk : MemOk φ State.reset.mem := ⟨fun _ => rfl⟩

theorem ctlSet_memOk {off : Nat} {w : Word} (hs : MemOk φ s.mem) : MemOk φ (ctlSet s off w).mem := hs

theorem modCur_memOk {f : Task → Task} (hs : MemOk φ s.mem) : MemOk φ (modCur s f).mem := hs

theorem modCtx_memOk {f : Ctx → Ctx} (hs : MemOk φ s.mem) : MemOk φ (modCtx s f).mem := hs

theorem modChunk_memOk {f : Chunk → Chunk} (hs : MemOk φ s.mem) : MemOk φ (modChunk s f).mem := hs

theorem mapTasks_memOk {f : Task → Task} (hs : MemOk φ s.mem) : MemOk φ (mapTasks s f).mem := hs

theorem park_memOk (hs : MemOk φ s.mem) : MemOk φ (park s).mem := hs

theorem focus_memOk {k : Nat} (hs : MemOk φ s.mem) : MemOk φ (focus s k).mem := by
  unfold focus
  dsimp only
  (repeat' split)
  · exact hs
  · exact park_memOk hs
  · exact park_memOk hs

theorem onTask_memOk {f : State → State} {k : Nat} (hs : MemOk φ s.mem) (hf : ∀ {s}, MemOk φ s.mem → MemOk φ (f s).mem) :
    MemOk φ (onTask s k f).mem := by
  unfold onTask
  split_ifs
  · exact hf hs
  · exact focus_memOk (hf (focus_memOk hs))
  · exact hf (focus_memOk hs)

theorem onTasks_memOk {f : State → State} {ks : List Nat} (hs : MemOk φ s.mem) (hf : ∀ {s}, MemOk φ s.mem → MemOk φ (f s).mem) :
    MemOk φ (onTasks s ks f).mem :=
  foldl_memOk (fun h => onTask_memOk h hf) hs

theorem bumpKey_memOk (hs : MemOk φ s.mem) : MemOk φ (bumpKey s).mem := hs

theorem addTask_memOk {t : Task} (hs : MemOk φ s.mem) : MemOk φ (addTask s t).mem := bumpKey_memOk hs

theorem retire_memOk {t : Task} (hs : MemOk φ s.mem) : MemOk φ (retire s t).mem := hs

theorem retireAlone_memOk {t : Task} (hs : MemOk φ s.mem) : MemOk φ (retireAlone s t).mem := hs

theorem modMgmt_memOk {f : Mgmt → Mgmt} (hs : MemOk φ s.mem) : MemOk φ (modMgmt s f).mem := hs

theorem modCrypto_memOk {f : Crypto → Crypto} (hs : MemOk φ s.mem) : MemOk φ (modCrypto s f).mem := modMgmt_memOk hs

theorem sramPut_memOk {a : Nat} {bs : List Byte} (hs : MemOk φ s.mem) : MemOk φ (sramPut s a bs).mem := modMgmt_memOk hs

theorem nextFresh_memOk (hs : MemOk φ s.mem) : MemOk φ (nextFresh s).mem := hs

theorem opSha_memOk (hs : MemOk φ s.mem) : MemOk φ (opSha s).1.mem := by
  unfold opSha
  dsimp only
  (repeat' split)
  · exact hs
  · exact hs
  · exact modCrypto_memOk hs

theorem opVerify_memOk (hs : MemOk φ s.mem) : MemOk φ (opVerify s).1.mem := by
  unfold opVerify
  dsimp only
  split <;> exact hs

theorem opSign_memOk {slot : Nat} (hs : MemOk φ s.mem) : MemOk φ (opSign s slot).1.mem := by
  unfold opSign
  split
  · exact nextFresh_memOk (modCrypto_memOk hs)
  · exact hs

theorem measExtend_memOk {i : Nat} {d : BitVec 384} (hs : MemOk φ s.mem) : MemOk φ (measExtend s i d).mem := modMgmt_memOk hs

theorem opExtend_memOk {i : Nat} (hs : MemOk φ s.mem) : MemOk φ (opExtend s i).1.mem := ite_fst_memOk hs (measExtend_memOk hs)

theorem aesGcm_memOk {k : KeySlot} {d : AesDesc} {bs : List Byte} (hs : MemOk φ s.mem) :
    MemOk φ (aesGcm s k d bs).1.mem :=
  ite_fst_memOk hs (sramPut_memOk (sramPut_memOk hs))

theorem aesXts_memOk {k : KeySlot} {d : AesDesc} {bs : List Byte} (hs : MemOk φ s.mem) :
    MemOk φ (aesXts s k d bs).1.mem :=
  ite_fst_memOk hs (ite_fst_memOk (nextFresh_memOk (sramPut_memOk hs)) (sramPut_memOk hs))

theorem opAes_memOk {slot : Nat} {tag : Bool} (hs : MemOk φ s.mem) : MemOk φ (opAes s slot tag).1.mem := by
  unfold opAes
  dsimp only
  (repeat' split)
  · exact hs
  · exact hs
  · exact hs
  · exact aesGcm_memOk (modMgmt_memOk hs)
  · exact aesXts_memOk (modMgmt_memOk hs)

theorem opRandom_memOk (hs : MemOk φ s.mem) : MemOk φ (opRandom s).1.mem := nextFresh_memOk (modCrypto_memOk hs)

theorem startCommand_memOk {run : State → State × Nat} {op : Nat} 
    (hs : MemOk φ s.mem) (hrun : ∀ {s}, MemOk φ s.mem → MemOk φ (run s).1.mem) : MemOk φ (startCommand s op run).mem := by
  unfold startCommand
  split
  · exact modCrypto_memOk hs
  · exact modCrypto_memOk (hrun hs)

theorem execCryptoSha384_yields (hs : MemOk φ s.mem) : Yields φ (execCryptoSha384 s) :=
  yields_next.2 (startCommand_memOk hs opSha_memOk)

theorem execCryptoEcdsaVerify_yields (hs : MemOk φ s.mem) : Yields φ (execCryptoEcdsaVerify s) :=
  yields_next.2 (startCommand_memOk hs opVerify_memOk)

theorem execCryptoEcdsaSign_yields {slot : Nat} (hs : MemOk φ s.mem) : Yields φ (execCryptoEcdsaSign slot s) :=
  yields_next.2 (startCommand_memOk hs opSign_memOk)

theorem execCryptoExtend_yields {index : Nat} (hs : MemOk φ s.mem) : Yields φ (execCryptoExtend index s) :=
  yields_next.2 (startCommand_memOk hs opExtend_memOk)

theorem execCryptoAesGcm_yields {slot : Nat} (hs : MemOk φ s.mem) : Yields φ (execCryptoAesGcm slot s) :=
  yields_next.2 (startCommand_memOk hs opAes_memOk)

theorem execCryptoAesXts_yields {slot : Nat} (hs : MemOk φ s.mem) : Yields φ (execCryptoAesXts slot s) :=
  yields_next.2 (startCommand_memOk hs opAes_memOk)

theorem execCryptoRandom_yields (hs : MemOk φ s.mem) : Yields φ (execCryptoRandom s) :=
  yields_next.2 (startCommand_memOk hs opRandom_memOk)

theorem execCryptoInvalidOp_yields {op : BitVec 4} (hs : MemOk φ s.mem) : Yields φ (execCryptoInvalidOp op s) :=
  yields_next.2 (startCommand_memOk hs id)

theorem ran_memOk {op err : Nat} (hs : MemOk φ s.mem) : MemOk φ (ran s op err).mem := modCrypto_memOk hs

theorem execCryptoCommandDone_yields (hs : MemOk φ s.mem) : Yields φ (execCryptoCommandDone s) := by
  unfold execCryptoCommandDone
  split
  · exact yields_next.2 hs
  · exact yields_next.2 (modCrypto_memOk hs)

theorem commandOf_memOk {v : Word} (hs : MemOk φ s.mem) : MemOk φ (commandOf v s).mem := by
  unfold commandOf
  refine startCommand_memOk hs (fun {s} h => ?_)
  split
  · exact opSha_memOk h
  · exact opVerify_memOk h
  · exact opSign_memOk h
  · exact opExtend_memOk h
  · exact opAes_memOk h
  · exact opAes_memOk h
  · exact opRandom_memOk h
  · exact h

theorem cryptoWrite_memOk {o : Nat} {bs : List Byte} (hs : MemOk φ s.mem) :
    MemOk φ (cryptoWrite s o bs).mem :=
  ite_memOk (commandOf_memOk (modCrypto_memOk hs)) (modCrypto_memOk hs)

theorem reach_memOk {ls : List Nat} (hs : MemOk φ s.mem) : MemOk φ (reach s ls).mem := ⟨hs.wf⟩

theorem siloBump_memOk {i : Nat} (hs : MemOk φ s.mem) : MemOk φ (siloBump s i).mem := hs

theorem setLink_memOk {p : Nat} {l : Link} (hs : MemOk φ s.mem) : MemOk φ (setLink s p l).mem := hs

theorem sendFlit_memOk {f : Flit} (hs : MemOk φ s.mem) :
    MemOk φ (sendFlit s f).mem :=
  ite_memOk (ite_memOk hs hs) (ite_memOk hs hs)

theorem sendKept_memOk {task core tenant dest cls dcore op : Nat} {words : List Word} {waits : Option (Nat × Dest × Nat × Bool)}
    {counted : Bool} {copy : Option Nat} (hs : MemOk φ s.mem) :
    MemOk φ (sendKept s task core tenant dest cls dcore op words waits counted copy).mem :=
  ite_memOk hs (sendFlit_memOk hs)

theorem sendTracked_memOk {task core tenant dest cls dcore op : Nat} {words : List Word} {waits : Option (Nat × Dest × Nat ×
    Bool)} {counted : Bool} (hs : MemOk φ s.mem) :
    MemOk φ (sendTracked s task core tenant dest cls dcore op words waits counted).mem :=
  sendKept_memOk hs

theorem sendEngine_memOk {core tenant seq dest cls dcore op : Nat} {words : List Word} (hs : MemOk φ s.mem) :
    MemOk φ (sendEngine s core tenant seq dest cls dcore op words).mem :=
  sendKept_memOk hs

theorem mapLaunch_memOk {ti n : Nat} {f : Launch → Launch} (hs : MemOk φ s.mem) : MemOk φ (mapLaunch s ti n f).mem := hs

theorem hostRecord_memOk {kind ti launch : Nat} {body : List Word} (hs : MemOk φ s.mem) :
    MemOk φ (hostRecord s kind ti launch body).mem :=
  sendTracked_memOk (ite_memOk (mapLaunch_memOk hs) hs)

theorem setCounters_memOk {core tenant : Nat} {c : Counters} (hs : MemOk φ s.mem) :
    MemOk φ (setCounters s core tenant c).mem :=
  hs

theorem raiseCounter_memOk {core tenant : Nat} {k : WaitClass} (hs : MemOk φ s.mem) :
    MemOk φ (raiseCounter s core tenant k).mem :=
  setCounters_memOk hs

theorem lowerCounter_memOk {core tenant : Nat} {k : WaitClass} {failed : Bool} (hs : MemOk φ s.mem) :
    MemOk φ (lowerCounter s core tenant k failed).mem :=
  setCounters_memOk hs

theorem setEngine_memOk {core : Nat} {e : Engine} (hs : MemOk φ s.mem) : MemOk φ (setEngine s core e).mem := hs

theorem markMissed_memOk {core : Nat} {t : Word} (hs : MemOk φ s.mem) : MemOk φ (markMissed s core t).mem := setEngine_memOk hs

theorem observe_memOk (hs : MemOk φ s.mem) : MemOk φ (observe s).mem := mapTasks_memOk hs

theorem chunkPoison_memOk (hs : MemOk φ s.mem) : MemOk φ (chunkPoison s).mem := by
  refine foldl_mem_memOk (fun {m e} h => ?_) hs
  split
  · exact MemOk.clearPoison h
  · exact h

theorem releaseTokens_memOk {k : Nat} (hs : MemOk φ s.mem) : MemOk φ (releaseTokens s k).mem := hs

theorem leaveArray_memOk {k : Nat} (hs : MemOk φ s.mem) : MemOk φ (leaveArray s k).mem := hs

theorem abortCur_memOk (hs : MemOk φ s.mem) : MemOk φ (abortCur s).1.mem := (abortCur_onlyAborts s).memOk hs

theorem publish_memOk {k : Nat} {ls : List Nat} (hs : MemOk φ s.mem) : MemOk φ (publish s k ls).mem :=
  (publish_onlyAborts s k ls).memOk hs

theorem abortChunk_memOk (hs : MemOk φ s.mem) : MemOk φ (abortChunk s).mem := (abortChunk_onlyAborts s).memOk hs

theorem touch_memOk {rs ws : List Nat} (hs : MemOk φ s.mem) : touch s rs ws = .limit ∨ ∃ t, MemOk φ t.mem ∧
    (touch s rs ws = .entered t ∨ touch s rs ws = .aborted t ∨ touch s rs ws = .token t) := by
  unfold touch
  dsimp only
  split_ifs
  · exact .inl rfl
  · exact .inr ⟨_, modChunk_memOk hs, .inr (.inr rfl)⟩
  · exact .inr ⟨_, abortChunk_memOk hs, .inr (.inl rfl)⟩
  · exact .inr ⟨_, onTasks_memOk hs abortChunk_memOk, .inr (.inl rfl)⟩
  · exact .inr ⟨_, reach_memOk (modChunk_memOk (onTasks_memOk hs abortChunk_memOk)), .inl rfl⟩

theorem jobDone_memOk (hs : MemOk φ s.mem) : MemOk φ (jobDone s).mem := hs

theorem devWrite_memOk {a : Nat} {bs : List Byte} {tag : Option Bool} (hs : MemOk φ s.mem) :
    MemOk φ (devWrite s a bs tag).mem := by
  unfold devWrite
  split_ifs
  · exact hs
  · cases tag
    · exact observe_memOk (publish_memOk (MemOk.clearPoison (MemOk.writeBytes (jobDone_memOk (reach_memOk hs)))))
    · exact observe_memOk (publish_memOk (MemOk.setTags (MemOk.clearPoison (MemOk.writeBytes (jobDone_memOk (reach_memOk hs))))))

theorem devWord_memOk {a : Nat} {w : Word} (hs : MemOk φ s.mem) : MemOk φ (devWord s a w).mem := devWrite_memOk hs

theorem devCtl_memOk {off : Nat} {w : Word} (hs : MemOk φ s.mem) :
    MemOk φ (devCtl s off w).mem :=
  observe_memOk (publish_memOk (ctlSet_memOk hs))

theorem ctlChanged_memOk {off : Nat} (hs : MemOk φ s.mem) : MemOk φ (ctlChanged s off).mem := observe_memOk (publish_memOk hs)

theorem siloAdd_memOk {i : Nat} (hs : MemOk φ s.mem) : MemOk φ (siloAdd s i).mem := ctlChanged_memOk (siloBump_memOk hs)

theorem faultRecord_memOk {t : TaskName} {i : FaultInfo} (hs : MemOk φ s.mem) : MemOk φ (faultRecord s t i).mem := by
  have hr := hostRecord_memOk (kind := 3) (ti := t.tenant) (launch := (t.launch.map (·.2)).getD 0) (body := faultBody s t i) hs
  unfold faultRecord
  dsimp only
  refine siloAdd_memOk (ite_memOk ?_ ?_) <;> split
  · exact ite_memOk (mapLaunch_memOk hr) hr
  · exact hr
  · exact ite_memOk (mapLaunch_memOk hr) hr
  · exact hr

theorem bareFault_memOk {tenant launch cause : Nat} {detail : Word} (hs : MemOk φ s.mem) :
    MemOk φ (bareFault s tenant launch cause detail).mem :=
  siloAdd_memOk (hostRecord_memOk hs)

theorem kept_yields {o : Out} (hs : MemOk φ s.mem) (ho : Yields φ o) : Yields φ (kept s o) := by
  obtain ⟨t, rfl, ht⟩ := ho
  unfold kept
  dsimp only
  split_ifs
  · exact yields_next.2 ht
  · exact yields_next.2 hs

theorem quarantine_memOk {tenant : Nat} {h : BitVec 16} (hs : MemOk φ s.mem) : MemOk φ (quarantine s tenant h).mem := by
  refine siloAdd_memOk (foldl_memOk (fun {s e} h => ?_) hs)
  split_ifs
  · exact devCtl_memOk h
  · exact devCtl_memOk h
  · exact h

theorem reportFault_memOk {t : TaskName} {i : FaultInfo} (hs : MemOk φ s.mem) :
    MemOk φ (reportFault s t i).mem :=
  ite_memOk (quarantine_memOk (faultRecord_memOk hs)) (faultRecord_memOk hs)

theorem saveState_memOk {t : Task} {code : Nat} (hs : MemOk φ s.mem) : MemOk φ (saveState s t code).mem := by
  unfold saveState
  split
  · exact hs
  · exact devWord_memOk hs

theorem saveTask_memOk {t : Task} {code : Nat} {acc : Option Nat} (hs : MemOk φ s.mem) : MemOk φ (saveTask s t code acc).mem := by
  unfold saveTask
  dsimp only
  (repeat' split)
  · exact hs
  · exact devWrite_memOk hs
  · exact devWrite_memOk hs
  · exact devWrite_memOk hs
  · exact devWrite_memOk hs
  · exact devWrite_memOk hs
  · exact devWrite_memOk hs
  · exact devWrite_memOk hs
  · exact devWrite_memOk hs
  · exact devWrite_memOk (devWrite_memOk hs)
  · exact devWrite_memOk (devWrite_memOk hs)
  · exact devWrite_memOk (devWrite_memOk hs)
  · exact devWrite_memOk (devWrite_memOk hs)

theorem withdraw_memOk (hs : MemOk φ s.mem) : MemOk φ (withdraw s).mem := by
  unfold withdraw
  rcases s.cur.hold with _ | x
  · exact hs
  · cases x <;> exact hs

theorem drainInflight_memOk (hs : MemOk φ s.mem) : MemOk φ (drainInflight s).mem := modCur_memOk hs

theorem leaveToken_memOk (hs : MemOk φ s.mem) : MemOk φ (leaveToken s).mem := modChunk_memOk (releaseTokens_memOk hs)

theorem dropDeficit_memOk {core tenant : Nat} (hs : MemOk φ s.mem) : MemOk φ (dropDeficit s core tenant).mem := ite_memOk hs hs

theorem haltCur_memOk (hs : MemOk φ s.mem) : MemOk φ (haltCur s).mem := by
  unfold haltCur
  dsimp only
  refine dropDeficit_memOk (modCur_memOk ?_)
  split
  · refine devWrite_memOk (saveTask_memOk (drainInflight_memOk (withdraw_memOk ?_)))
    split_ifs
    · exact leaveToken_memOk (leaveArray_memOk hs)
    · exact abortChunk_memOk (leaveArray_memOk hs)
  · refine saveTask_memOk (drainInflight_memOk (withdraw_memOk ?_))
    split_ifs
    · exact leaveToken_memOk (leaveArray_memOk hs)
    · exact abortChunk_memOk (leaveArray_memOk hs)

theorem haltTenant_memOk {tenant : Nat} (hs : MemOk φ s.mem) : MemOk φ (haltTenant s tenant).mem := by
  refine onTasks_memOk (onTasks_memOk hs (fun {s} h => ?_)) haltCur_memOk
  split_ifs
  · exact leaveToken_memOk h
  · exact abortChunk_memOk h

theorem setTiState_memOk {t v : Nat} (hs : MemOk φ s.mem) : MemOk φ (setTiState s t v).mem := devCtl_memOk hs

theorem tiError_memOk {t : Nat} (hs : MemOk φ s.mem) :
    MemOk φ (tiError s t).mem :=
  ite_memOk (haltTenant_memOk (setTiState_memOk hs)) hs

theorem setCribs_memOk {core : Nat} {c : List CribList} (hs : MemOk φ s.mem) : MemOk φ (setCribs s core c).mem := hs

theorem poolJob_memOk {base : Nat} {offs : List Nat} (hs : MemOk φ s.mem) : MemOk φ (poolJob s base offs).mem := by
  unfold poolJob
  split_ifs
  · exact hs
  · exact jobDone_memOk (observe_memOk (publish_memOk (reach_memOk (foldl_mem_memOk MemOk.poolFree hs))))

theorem poolReturn_memOk {tenant pool : Nat} {offs : List Nat} (hs : MemOk φ s.mem) :
    MemOk φ (poolReturn s tenant pool offs).mem := by
  unfold poolReturn
  split
  · exact hs
  · exact foldl_memOk poolJob_memOk hs

theorem cribRoom_memOk {core tenant pool : Nat} (hs : MemOk φ s.mem) : MemOk φ (cribRoom s core tenant pool).mem := by
  unfold cribRoom
  split_ifs
  · exact hs
  · refine setCribs_memOk ?_
    split
    · exact hs
    · exact poolReturn_memOk (setCribs_memOk hs)
  · exact setCribs_memOk hs

theorem cribMap_memOk {core tenant pool : Nat} {f : CribList → CribList} (hs : MemOk φ s.mem) :
    MemOk φ (cribMap s core tenant pool f).mem :=
  setCribs_memOk hs

theorem cribTrim_memOk {n core : Nat} (hs : MemOk φ s.mem) : MemOk φ (cribTrim n s core).mem := by
  induction n generalizing s with
  | zero => exact hs
  | succ n ih =>
    unfold cribTrim
    dsimp only
    split_ifs
    · exact hs
    · split
      · exact hs
      · exact ih (poolReturn_memOk (cribMap_memOk hs))

theorem cribFree_memOk {core tenant pool off : Nat} (hs : MemOk φ s.mem) :
    MemOk φ (cribFree s core tenant pool off).mem :=
  cribTrim_memOk (cribMap_memOk (cribRoom_memOk hs))

theorem cribEmpty_memOk {tenant pool : Nat} (hs : MemOk φ s.mem) : MemOk φ (cribEmpty s tenant pool).mem := by
  refine foldl_memOk (fun {s c} h => ?_) hs
  split
  · exact h
  · exact poolReturn_memOk (setCribs_memOk h)

theorem pushPromises_memOk {stopped : CopyCmd → Nat} (hs : MemOk φ s.mem) : MemOk φ (pushPromises s stopped).mem := hs

theorem setRequests_memOk {t : Nat} {pre : Preempt} (hs : MemOk φ s.mem) :
    MemOk φ (setRequests s t pre).mem :=
  pushPromises_memOk hs

theorem moveBegin_memOk {t : Nat} (hs : MemOk φ s.mem) : MemOk φ (moveBegin s t).mem := ite_memOk hs hs

theorem raiseRepgen_memOk {t : Nat} (hs : MemOk φ s.mem) : MemOk φ (raiseRepgen s t).mem := devCtl_memOk hs

theorem moveSettle_memOk {t : Nat} (hs : MemOk φ s.mem) :
    MemOk φ (moveSettle s t).mem :=
  ite_memOk hs (ite_memOk (raiseRepgen_memOk hs) hs)

theorem moveTrack_memOk {t off : Nat} {was now : Bool} (hs : MemOk φ s.mem) :
    MemOk φ (moveTrack s t off was now).mem :=
  moveSettle_memOk hs

theorem writeRequest_memOk {t : Nat} {src : PreemptSrc} {on : Bool} (hs : MemOk φ s.mem) :
    MemOk φ (writeRequest s t src on).mem := by
  unfold writeRequest
  cases src <;> cases on
  · exact ite_memOk (haltTenant_memOk (setRequests_memOk hs)) (setRequests_memOk hs)
  · exact ite_memOk (haltTenant_memOk (setRequests_memOk hs)) (setRequests_memOk hs)
  · exact ite_memOk (haltTenant_memOk (ctlChanged_memOk (ite_memOk (moveBegin_memOk (setRequests_memOk hs)) (moveSettle_memOk
      (setRequests_memOk hs))))) (ctlChanged_memOk (ite_memOk (moveBegin_memOk (setRequests_memOk hs)) (moveSettle_memOk
      (setRequests_memOk hs))))
  · exact ite_memOk (haltTenant_memOk (ctlChanged_memOk (ite_memOk (moveBegin_memOk (setRequests_memOk hs)) (moveSettle_memOk
      (setRequests_memOk hs))))) (ctlChanged_memOk (ite_memOk (moveBegin_memOk (setRequests_memOk hs)) (moveSettle_memOk
      (setRequests_memOk hs))))

theorem setWstat_memOk {core slot : Nat} {reason : Option Nat} (hs : MemOk φ s.mem) :
    MemOk φ (setWstat s core slot reason).mem :=
  devCtl_memOk hs

theorem poolLeaves_memOk {s' : State} {n : Nat} (hs : MemOk φ s.mem) : MemOk φ (poolLeaves s s' n).mem := by
  unfold poolLeaves
  split
  · split_ifs
    · exact cribEmpty_memOk hs
    · exact hs
  · exact hs

theorem forgetData_memOk {n : Nat} (hs : MemOk φ s.mem) : MemOk φ (forgetData s n).mem := ite_memOk hs hs

theorem hmapStore_memOk {core slot n : Nat} {hi : Bool} {v : Word} (hs : MemOk φ s.mem) :
    MemOk φ (hmapStore s core slot n hi v).mem := by
  have errors : ∀ {s : State} {l : List Nat}, MemOk φ s.mem → MemOk φ (l.foldl tiError s).mem :=
    fun h => foldl_memOk tiError_memOk h
  unfold hmapStore
  dsimp only
  split_ifs
  · exact errors (by exact devCtl_memOk (ctlSet_memOk (poolLeaves_memOk hs)))
  · refine setWstat_memOk (forgetData_memOk (errors ?_))
    split
    · exact devCtl_memOk (ctlSet_memOk (poolLeaves_memOk hs))
    · exact devCtl_memOk (ctlSet_memOk (ctlSet_memOk (poolLeaves_memOk hs)))

theorem markGranule_memOk {g : Nat} (hs : MemOk φ s.mem) : MemOk φ (markGranule s g).mem := by
  refine ctlChanged_memOk (publish_memOk ⟨fun hp => (Mem.wf_iff _).2 ?_⟩)
  obtain ⟨hc, he, hq, hs⟩ := (Mem.wf_iff _).1 (hs.wf hp)
  exact ⟨cellsWf_filter hc _, rising_filter he _, rising_filter hq _, rising_removeNat hs _⟩

theorem unscrubbedStore_memOk {core slot : Nat} {gs : List Nat} (hs : MemOk φ s.mem) :
    MemOk φ (unscrubbedStore s core slot gs).mem := by
  refine setWstat_memOk (foldl_memOk (fun {s' g} h => ?_) hs)
  split_ifs
  · exact h
  · exact markGranule_memOk h

theorem ctlStore_memOk {core slot off : Nat} {bs : List Byte} (hs : MemOk φ s.mem) :
    MemOk φ (ctlStore s core slot off bs).mem := by
  unfold ctlStore
  dsimp only
  split_ifs
  · exact hmapStore_memOk hs
  · exact unscrubbedStore_memOk hs
  · exact moveTrack_memOk (devCtl_memOk hs)
  · exact devCtl_memOk hs
  · exact moveTrack_memOk (devCtl_memOk hs)
  · exact writeRequest_memOk hs
  · exact hs
  · exact devCtl_memOk hs
  · exact setWstat_memOk (devCtl_memOk hs)
  · exact devCtl_memOk hs
  · exact hs

theorem enqueue_memOk {b : Birth} (hs : MemOk φ s.mem) : MemOk φ (enqueue s b).mem := addTask_memOk hs

theorem undqWrite_memOk {m : Msg} {moved : Bool} (hs : MemOk φ s.mem) :
    MemOk φ (undqWrite s m moved).mem :=
  ite_memOk (siloAdd_memOk hs) (ite_memOk (siloAdd_memOk (devWord_memOk hs)) (devWord_memOk (devWrite_memOk hs)))

theorem placeMsg_memOk {core : Nat} {m : Msg} (hs : MemOk φ s.mem) :
    MemOk φ (placeMsg s core m).mem :=
  ite_memOk hs (enqueue_memOk hs)

theorem drainFuel_memOk {n core : Nat} (hs : MemOk φ s.mem) : MemOk φ (drainFuel n s core).mem := by
  induction n generalizing s with
  | zero => exact hs
  | succ n ih =>
    unfold drainFuel
    split
    · exact hs
    · split_ifs
      · exact hs
      · exact ih (enqueue_memOk hs)

theorem drainArrivals_memOk {core : Nat} (hs : MemOk φ s.mem) : MemOk φ (drainArrivals s core).mem := drainFuel_memOk hs

theorem deliverMsg_memOk {core tenant src slot tag : Nat} {words : List Word} {missing : Nat} (hs : MemOk φ s.mem) :
    ∀ t ∈ deliverMsg s core tenant src slot tag words missing, MemOk φ t.mem := by
  unfold deliverMsg
  dsimp only
  split_ifs
  · rintro _ ⟨⟩; exact siloAdd_memOk hs
  · rintro _ ⟨⟩; exact bareFault_memOk (undqWrite_memOk hs)
  · rintro _ ⟨⟩
  · rintro _ ⟨⟩; exact placeMsg_memOk hs
  · rintro _ ⟨⟩; exact devCtl_memOk hs

theorem msgWord_memOk {core : Nat} (hs : MemOk φ s.mem) : MemOk φ (msgWord s core).mem := by
  unfold msgWord
  dsimp only
  exact mapTasks_memOk hs

theorem sendMsg_memOk {task core slot tenant dst tag : Nat} {words : List Word} {counted : Bool} (hs : MemOk φ s.mem) :
    MemOk φ (sendMsg s task core slot tenant dst tag words counted).mem :=
  ite_memOk (ite_memOk (raiseCounter_memOk hs) hs) (ite_memOk (raiseCounter_memOk (sendTracked_memOk hs)) (sendTracked_memOk hs))

theorem releaseWaiting_memOk {t tag : Nat} (hs : MemOk φ s.mem) : MemOk φ (releaseWaiting s t tag).mem :=
  foldl_memOk placeMsg_memOk hs

theorem releaseEnabled_memOk (hs : MemOk φ s.mem) : MemOk φ (releaseEnabled s).mem :=
  foldl_memOk releaseWaiting_memOk hs

theorem moveWaiting_memOk {t tag : Nat} (hs : MemOk φ s.mem) : MemOk φ (moveWaiting s t tag).mem :=
  foldl_memOk undqWrite_memOk hs

theorem tgctlApply_memOk {t tag : Nat} {c : BitVec 2} (hs : MemOk φ s.mem) : MemOk φ (tgctlApply s t tag c).mem := by
  unfold tgctlApply
  dsimp only
  split_ifs
  · exact releaseWaiting_memOk (devCtl_memOk (moveWaiting_memOk hs))
  · exact releaseWaiting_memOk (devCtl_memOk hs)
  · exact devCtl_memOk (moveWaiting_memOk hs)
  · exact devCtl_memOk hs

theorem ctlWrite_memOk {core slot off : Nat} {bs : List Byte} (hs : MemOk φ s.mem) :
    MemOk φ (ctlWrite s core slot off bs).mem :=
  releaseEnabled_memOk (ctlStore_memOk hs)

theorem devTags_memOk {a n : Nat} {f : Bool} (hs : MemOk φ s.mem) : MemOk φ (devTags s a n f).mem := by
  unfold devTags
  split_ifs
  · exact hs
  · exact observe_memOk (publish_memOk (MemOk.setTags (jobDone_memOk (reach_memOk hs))))

theorem jobRead_memOk {a n : Nat} (hs : MemOk φ s.mem) : MemOk φ (jobRead s a n).mem := jobDone_memOk (reach_memOk hs)

theorem devWordTags_memOk {a : Nat} {tags : List Bool} (hs : MemOk φ s.mem) : MemOk φ (devWordTags s a tags).mem :=
  foldl_memOk devTags_memOk hs

theorem fillLine_memOk {a : Nat} {bs : List Byte} {tags : List Bool} (hs : MemOk φ s.mem) :
    MemOk φ (fillLine s a bs tags).mem :=
  ite_memOk (devWrite_memOk hs) (devWordTags_memOk (devWrite_memOk hs))

theorem runJob_memOk {w : Waiter} {slot : Nat × Nat} (hs : MemOk φ s.mem) : MemOk φ (runJob s w slot).1.mem := by
  unfold runJob
  split
  · dsimp only; split_ifs
    · exact siloAdd_memOk hs
    · exact hs
  · dsimp only
    cases w.op <;> dsimp only
    case load =>
      split_ifs
      · exact devTags_memOk hs
      · exact jobRead_memOk hs
    case store =>
      split
      · exact jobDone_memOk (ctlWrite_memOk hs)
      · exact devWrite_memOk hs
    case amo =>
      split
      · exact devWrite_memOk hs
      · exact jobRead_memOk hs
    · exact jobRead_memOk hs
    · exact devTags_memOk hs
    · exact hs
    · exact jobRead_memOk hs
    · exact fillLine_memOk hs
    · exact hs
    · exact jobRead_memOk hs

theorem deferTo_memOk {key tenant cause : Nat} {detail : Word} (hs : MemOk φ s.mem) :
    MemOk φ (deferTo s key tenant cause detail).mem := by
  unfold deferTo
  split_ifs
  · exact onTask_memOk hs modCur_memOk
  · split
    · exact reportFault_memOk hs
    · exact bareFault_memOk hs

theorem replyTo_memOk {f : Flit} {status : Nat} {words : List Word} (hs : MemOk φ s.mem) :
    MemOk φ (replyTo s f status words).mem :=
  sendFlit_memOk hs

theorem answer_memOk {w : Waiter} {cause : Option Nat} {bs : List Byte} (hs : MemOk φ s.mem) :
    MemOk φ (answer s w cause bs).mem := by
  unfold answer
  split
  · exact onTask_memOk hs modCur_memOk
  · cases cause
    · exact hs
    · exact deferTo_memOk hs
  · cases cause
    · dsimp only; split
      · exact bumpKey_memOk (replyTo_memOk hs)
      · exact replyTo_memOk hs
      · exact replyTo_memOk hs
    · exact replyTo_memOk hs

theorem nackPosted_memOk {f : Flit} (hs : MemOk φ s.mem) : MemOk φ (nackPosted s f).mem := replyTo_memOk hs

theorem clearNack_memOk {f : Flit} (hs : MemOk φ s.mem) : MemOk φ (clearNack s f).mem := hs

theorem forgetNacks_memOk {src : Nat → Bool} {p : Nat × Nat → Bool} (hs : MemOk φ s.mem) : MemOk φ (forgetNacks s src p).mem := hs

theorem nackFront_memOk {f : Flit} (hs : MemOk φ s.mem) : MemOk φ (nackFront s f).mem := replyTo_memOk hs

theorem nackFlit_memOk {f : Flit} (hs : MemOk φ s.mem) :
    MemOk φ (nackFlit s f).mem :=
  ite_memOk (nackFront_memOk hs) (replyTo_memOk hs)

theorem performAccess_memOk {f : Flit} (hs : MemOk φ s.mem) : MemOk φ (performAccess s f).mem := by
  unfold performAccess
  dsimp only
  split
  · exact answer_memOk (runJob_memOk hs)
  · exact ite_memOk (bumpKey_memOk hs) (nackFlit_memOk hs)

theorem performPosted_memOk {f : Flit} (hs : MemOk φ s.mem) : MemOk φ (performPosted s f).mem := by
  unfold performPosted
  split_ifs
  · dsimp only
    split
    next t e => exact replyTo_memOk (deliverMsg_memOk hs t e)
    · exact nackFlit_memOk hs
  · exact performAccess_memOk hs

theorem arrivePosted_memOk {f : Flit} (hs : MemOk φ s.mem) : MemOk φ (arrivePosted s f).mem := by
  unfold arrivePosted
  dsimp only
  split_ifs
  · exact performPosted_memOk hs
  · exact nackPosted_memOk hs
  · exact clearNack_memOk (f := f) hs
  · exact nackPosted_memOk hs
  · exact performPosted_memOk (clearNack_memOk hs)

theorem settleOne_memOk (hs : MemOk φ s.mem) : ∀ t ∈ settleOne s, MemOk φ t.mem := by
  unfold settleOne
  split
  · rintro _ ⟨⟩; exact answer_memOk (runJob_memOk hs)
  · split
    · rintro _ ⟨⟩; exact performPosted_memOk hs
    · rintro _ ⟨⟩

theorem settleFuel_memOk {n : Nat} (hs : MemOk φ s.mem) : MemOk φ (settleFuel n s).mem := by
  induction n generalizing s with
  | zero => exact hs
  | succ n ih =>
    unfold settleFuel
    split
    · exact hs
    next t e => exact ih (settleOne_memOk hs t e)

theorem settle_memOk (hs : MemOk φ s.mem) : MemOk φ (settle s).mem := settleFuel_memOk hs

end Sys2Proof.Machine
end

section
/-! PROOFS. Memory stays canonical: traps, ends of tasks and the gates of an instruction. -/
namespace Sys2Proof.Machine
variable {φ : Prop} {s : State}

theorem netComplete_memOk {tenant pool nd : Nat} (hs : MemOk φ s.mem) :
    MemOk φ (netComplete s tenant pool nd).mem :=
  ite_memOk (sendMsg_memOk (devWord_memOk hs)) (devWord_memOk hs)

theorem actRaise_memOk {base : Nat} (hs : MemOk φ s.mem) : MemOk φ (actRaise s base).mem := by
  unfold actRaise
  split
  · exact hs
  · exact devWord_memOk hs

theorem actLower_memOk {tenant pool : Nat} {ended : Bool} (hs : MemOk φ s.mem) :
    MemOk φ (actLower s tenant pool ended).mem := by
  unfold actLower
  split
  · exact hs
  · cases ended <;> dsimp only <;> split_ifs
    · exact netComplete_memOk (devWord_memOk (devWord_memOk hs))
    · exact netComplete_memOk (devWord_memOk hs)
    · exact devWord_memOk (devWord_memOk hs)
    · exact devWord_memOk hs
    · exact netComplete_memOk (devWord_memOk (devWord_memOk hs))
    · exact netComplete_memOk (devWord_memOk hs)
    · exact devWord_memOk (devWord_memOk hs)
    · exact devWord_memOk hs

theorem setBag_memOk {core : Nat} {b : List BagEntry} (hs : MemOk φ s.mem) : MemOk φ (setBag s core b).mem := hs

theorem setSpill_memOk {core tenant : Nat} {p : Spill} (hs : MemOk φ s.mem) : MemOk φ (setSpill s core tenant p).mem := hs

theorem spillPut_memOk {core : Nat} {e : BagEntry} (hs : MemOk φ s.mem) : MemOk φ (spillPut s core e).mem := by
  unfold spillPut
  dsimp only
  split
  · exact hs
  · exact setSpill_memOk (devWrite_memOk hs)

theorem bagPush_memOk {core : Nat} {e : BagEntry} (hs : MemOk φ s.mem) : ∀ t ∈ bagPush s core e, MemOk φ t.mem := by
  unfold bagPush
  dsimp only
  split_ifs
  · rintro _ ⟨⟩; exact setBag_memOk hs
  · rintro _ ⟨⟩
  · rintro _ ⟨⟩; exact spillPut_memOk hs
  · rintro _ ⟨⟩
  · rintro _ ⟨⟩; exact setBag_memOk (foldl_memOk spillPut_memOk hs)

theorem pushPair_memOk {who : Option Task} {tenant base launch : Nat} {e : Word} (hs : MemOk φ s.mem) :
    MemOk φ (pushPair s who tenant base launch e).1.mem := by
  unfold pushPair
  split
  · cases who
    · exact bareFault_memOk hs
    · exact reportFault_memOk hs
  · dsimp only
    split
    · exact hs
    next t e => exact observe_memOk (actRaise_memOk (bagPush_memOk hs t e))

theorem cribRefill_memOk {core tenant pool base size : Nat} (hs : MemOk φ s.mem) :
    MemOk φ (cribRefill s core tenant pool base size).mem := by
  have hm := (cribRoom_memOk (core := core) (tenant := tenant) (pool := pool) hs).takeNodes (n := 64) (base := base) (size :=
    size)
  unfold cribRefill
  dsimp only
  revert hm
  generalize takeNodes 64 (cribRoom s core tenant pool).mem base size = r
  intro hm
  exact cribTrim_memOk (cribMap_memOk (jobDone_memOk (observe_memOk (publish_memOk (reach_memOk hm)))))

theorem defer_memOk {cause : Nat} {detail : Word} (hs : MemOk φ s.mem) : MemOk φ (defer s cause detail).mem := modCur_memOk hs

theorem applyEff_memOk {e : Eff} (hs : MemOk φ s.mem) : MemOk φ (applyEff s e).mem := by
  cases e <;> simp only [applyEff]
  case store =>
    split_ifs
    · exact defer_memOk (siloAdd_memOk (raiseCounter_memOk hs))
    · exact MemOk.clearPoison (MemOk.writeBytes (raiseCounter_memOk hs))
  case tag =>
    split_ifs
    · exact defer_memOk (siloAdd_memOk (raiseCounter_memOk hs))
    · exact MemOk.setTag (raiseCounter_memOk hs)
  case lacc =>
    split
    · exact defer_memOk hs
    · exact modCtx_memOk (MemOk.laccApply hs)
  case push =>
    split_ifs
    · exact defer_memOk (pushPair_memOk hs)
    · exact pushPair_memOk hs
  · exact ctlWrite_memOk (raiseCounter_memOk hs)
  · exact cribFree_memOk (MemOk.clearPoison (MemOk.writeBytes hs))
  · exact tgctlApply_memOk hs

theorem commitNow_memOk (hs : MemOk φ s.mem) : MemOk φ (commitNow s).state.mem := by
  unfold commitNow
  dsimp only
  split_ifs <;> simp only [Commit.state]
  · exact modChunk_memOk hs
  · exact abortChunk_memOk hs
  · exact modChunk_memOk hs
  · exact abortChunk_memOk hs
  · exact modChunk_memOk hs
  · exact settle_memOk (observe_memOk (modCur_memOk (releaseTokens_memOk
      (foldl_memOk applyEff_memOk (onTasks_memOk hs abortChunk_memOk)))))

theorem gangEnded_memOk {t : Task} (hs : MemOk φ s.mem) : MemOk φ (gangEnded s t).mem := by
  unfold gangEnded
  split <;> exact hs

theorem deferredRecords_memOk {t : Task} (hs : MemOk φ s.mem) : MemOk φ (deferredRecords s t).mem :=
  foldl_memOk reportFault_memOk hs

theorem dropLines_memOk {lo hi : Nat} (hs : MemOk φ s.mem) : MemOk φ (dropLines s lo hi).mem := hs

theorem endTask_memOk (hs : MemOk φ s.mem) : MemOk φ (endTask s).mem := by
  unfold endTask
  dsimp only
  split
  · exact settle_memOk (ite_memOk (ctlChanged_memOk (dropDeficit_memOk (gangEnded_memOk (releaseTokens_memOk (foldl_memOk
      dropLines_memOk (ite_memOk (saveState_memOk (ite_memOk (deferredRecords_memOk hs) (deferredRecords_memOk hs))) (ite_memOk
      (deferredRecords_memOk hs) (deferredRecords_memOk hs)))))))) (dropDeficit_memOk (gangEnded_memOk (releaseTokens_memOk
      (foldl_memOk dropLines_memOk (ite_memOk (saveState_memOk (ite_memOk (deferredRecords_memOk hs) (deferredRecords_memOk hs)))
      (ite_memOk (deferredRecords_memOk hs) (deferredRecords_memOk hs))))))))
  · exact settle_memOk (actLower_memOk (ite_memOk (ctlChanged_memOk (dropDeficit_memOk (gangEnded_memOk (releaseTokens_memOk
      (foldl_memOk dropLines_memOk (ite_memOk (saveState_memOk (ite_memOk (deferredRecords_memOk hs) (deferredRecords_memOk hs)))
      (ite_memOk (deferredRecords_memOk hs) (deferredRecords_memOk hs)))))))) (dropDeficit_memOk (gangEnded_memOk
      (releaseTokens_memOk (foldl_memOk dropLines_memOk (ite_memOk (saveState_memOk (ite_memOk (deferredRecords_memOk hs)
      (deferredRecords_memOk hs))) (ite_memOk (deferredRecords_memOk hs) (deferredRecords_memOk hs)))))))))

theorem fatalTrap_memOk {cause user : Nat} {detail : Word} {deferred : Bool} (hs : MemOk φ s.mem) :
    MemOk φ (fatalTrap s cause user detail deferred).mem := by
  unfold fatalTrap
  dsimp only
  split_ifs
  · exact endTask_memOk (reportFault_memOk hs)
  · exact endTask_memOk (reportFault_memOk (abortChunk_memOk hs))

theorem enterTrap_memOk {cause user : Nat} {next : Bool} (hs : MemOk φ s.mem) :
    MemOk φ (enterTrap s cause user next).mem := modCur_memOk hs

theorem takeTrap_memOk {cause user : Nat} {detail : Word} {next deferred : Bool} (hs : MemOk φ s.mem) :
    MemOk φ (takeTrap s cause user detail next deferred).mem := by
  have hc := commitNow_memOk hs
  unfold takeTrap
  split_ifs
  · exact fatalTrap_memOk hs
  · exact enterTrap_memOk (releaseTokens_memOk hs)
  · split
    next e => rw [e] at hc; exact enterTrap_memOk hc
    next e => rw [e] at hc; exact hc
    next e => rw [e] at hc; exact hc

theorem homeCause_memOk {cause : Nat} {detail : Word} (hs : MemOk φ s.mem) :
    MemOk φ (homeCause s cause detail).mem :=
  ite_memOk (takeTrap_memOk hs) (modChunk_memOk (abortChunk_memOk hs))

theorem trap_yields {cause : Nat} {detail : Word} (hs : MemOk φ s.mem) :
    Yields φ (trap s cause detail) :=
  yields_next.2 (takeTrap_memOk hs)

theorem gate_yields {k : Out} {n : Needs} (hs : MemOk φ s.mem) (hk : Yields φ k) : Yields φ (gate s n k) := by
  unfold gate
  split
  · exact yields_next.2 hs
  · exact trap_yields hs
  · exact hk

theorem alone_yields {k : Out} (hs : MemOk φ s.mem) (hk : Yields φ k) : Yields φ (alone s k) :=
  ite_yields (yields_next.2 (commitNow_memOk hs)) (ite_yields (yields_next.2 hs) hk)

theorem finishG_yields {t : Task} {d : Reg} {v : Word} (hs : MemOk φ s.mem) :
    Yields φ (finishG s t d v) :=
  ite_yields (yields_next.2 (retire_memOk hs)) (trap_yields hs)

theorem finishAloneG_yields {t : Task} {d : Reg} {v : Word} (hs : MemOk φ s.mem) :
    Yields φ (finishAloneG s t d v) :=
  yields_next.2 (retireAlone_memOk hs)

theorem opGG_yields {d a b : Reg} {f : Word → Word → Word} (hs : MemOk φ s.mem) :
    Yields φ (opGG s d a b f) :=
  gate_yields hs (finishG_yields hs)

theorem opG_yields {d a : Reg} {f : Word → Word} (hs : MemOk φ s.mem) :
    Yields φ (opG s d a f) :=
  gate_yields hs (finishG_yields hs)

theorem chunkLimit_memOk (hs : MemOk φ s.mem) : MemOk φ (chunkLimit s).mem := by
  unfold chunkLimit
  dsimp only
  split_ifs
  · exact takeTrap_memOk (abortChunk_memOk hs)
  · exact modChunk_memOk (abortChunk_memOk hs)
  · exact commitNow_memOk hs

theorem withLines_yields {k : State → Out} {rs ws : List Nat} (hs : MemOk φ s.mem)
    (hk : ∀ {s}, MemOk φ s.mem → Yields φ (k s)) : Yields φ (withLines s rs ws k) := by
  unfold withLines
  rcases touch_memOk (rs := rs) (ws := ws) hs with e | ⟨t, ht, e | e | e⟩ <;> rw [e]
  · exact yields_next.2 (chunkLimit_memOk hs)
  · exact hk ht
  · exact yields_next.2 ht
  · exact yields_next.2 ht

end Sys2Proof.Machine
end

section
/-! PROOFS. Memory stays canonical: accesses, spawns, messages, vectors and matrices. -/
namespace Sys2Proof.Machine
variable {φ : Prop} {s : State}

theorem accessTrap_yields {c : Nat} {a : Word} (hs : MemOk φ s.mem) : Yields φ (accessTrap s c a) := trap_yields hs

theorem discardTrap_yields {a : Word} (hs : MemOk φ s.mem) :
    Yields φ (discardTrap s a) :=
  yields_next.2 (ite_memOk (siloAdd_memOk (takeTrap_memOk hs)) (takeTrap_memOk hs))

theorem checked_yields {k : Out} {a : Word} {acc : Access} (hs : MemOk φ s.mem) (hk : Yields φ k) :
    Yields φ (checked s a acc k) := by
  unfold checked
  (repeat' split)
  · exact yields_next.2 hs
  · exact accessTrap_yields hs
  · exact hk

theorem unlessStop_yields {k : Out} {st : Option (Option Nat × Word)} (hs : MemOk φ s.mem) (hk : Yields φ k) :
    Yields φ (unlessStop s st k) := by
  unfold unlessStop
  split
  · exact yields_next.2 hs
  · exact accessTrap_yields hs
  · exact hk

theorem failTrap_yields {w : WaitClass} {a : Word} (hs : MemOk φ s.mem) :
    Yields φ (failTrap s w a) :=
  ite_yields (trap_yields (setCounters_memOk hs)) (alone_yields hs (trap_yields (setCounters_memOk hs)))

theorem awaitClass_yields {k : Out} {w : WaitClass} {a : Word} (hs : MemOk φ s.mem) (hk : Yields φ k) :
    Yields φ (awaitClass s w a k) :=
  ite_yields hk (ite_yields (yields_next.2 hs) (ite_yields (failTrap_yields hs) hk))

theorem ordered_yields {k : Out} {ord : Nat} (hs : MemOk φ s.mem) (hk : Yields φ k) :
    Yields φ (ordered s ord k) :=
  ite_yields (yields_next.2 hs) hk

theorem deliverAt_memOk {late : Bool} {t : Task} {d : Dest} {v : VWord} (hs : MemOk φ s.mem) :
    MemOk φ (deliverAt late s t d v).mem :=
  ite_memOk (retire_memOk hs) (retire_memOk hs)

theorem deliver_memOk {t : Task} {d : Dest} {v : VWord} (hs : MemOk φ s.mem) : MemOk φ (deliver s t d v).mem := deliverAt_memOk hs

theorem holdFor_memOk {d : Dest} {h : Hold} (hs : MemOk φ s.mem) : MemOk φ (holdFor s d h).mem := modCur_memOk hs

theorem unhold_memOk {d : Dest} (hs : MemOk φ s.mem) : MemOk φ (unhold s d).mem := modCur_memOk hs

theorem finishHeld_yields {t : Task} {d : Dest} {cause : Option Nat} {v : VWord} {a : Word} (hs : MemOk φ s.mem) :
    Yields φ (finishHeld s t d cause v a) := by
  unfold finishHeld
  split
  · exact accessTrap_yields (unhold_memOk hs)
  · exact yields_next.2 (retireAlone_memOk hs)

theorem placeCause_yields {c : Nat} {a : Word} (hs : MemOk φ s.mem) :
    Yields φ (placeCause s c a) :=
  ite_yields (accessTrap_yields hs) (yields_next.2 (homeCause_memOk hs))

theorem held_yields {k : Out} {t : Task} {d : Dest} {a : Word} (hs : MemOk φ s.mem) (hk : Yields φ k) :
    Yields φ (held s t d a k) := by
  unfold held
  split
  · exact finishHeld_yields hs
  · exact yields_next.2 hs
  · exact hk

theorem homeAlone_yields {t : Task} {op : HomeOp} {d : Dest} {signed : Bool} {a : Word} (hs : MemOk φ s.mem) :
    Yields φ (homeAlone s t op d signed a) := by
  unfold homeAlone
  dsimp only
  split_ifs
  · split
    · exact accessTrap_yields hs
    next e =>
      have h := runJob_memOk (w := ⟨s.nextKey, s.cur.tenant, s.cur.trusted, localOf a, op, .task s.cur.key d op.size signed,
        s.time⟩)
        (slot := (s.cur.core, s.cur.slot?.getD 0)) hs
      rw [e] at h
      exact yields_next.2 (settle_memOk (retireAlone_memOk h))
  · exact yields_next.2 (bumpKey_memOk hs)

theorem requestSent_memOk {op : Nat} {a : Word} {words : List Word} {d : Dest} {size : Nat} {signed : Bool} (hs : MemOk φ s.mem) :
    MemOk φ (requestSent s op a words d size signed).mem :=
  holdFor_memOk (sendTracked_memOk hs)

theorem sendRequest_yields {op : Nat} {a : Word} {words : List Word} {d : Dest} {size : Nat} {signed : Bool} (hs : MemOk φ s.mem)
    :
    Yields φ (sendRequest s op a words d size signed) :=
  yields_next.2 (ite_memOk hs (requestSent_memOk hs))

theorem sendPosted_memOk {op : Nat} {a : Word} {words : List Word} (hs : MemOk φ s.mem) :
    MemOk φ (sendPosted s op a words).mem :=
  raiseCounter_memOk (sendTracked_memOk hs)

theorem chunkLoad_yields {t : Task} {r : LoadReq} (hs : MemOk φ s.mem) :
    Yields φ (chunkLoad s t r) :=
  withLines_yields hs (fun h => ite_yields (placeCause_yields h) (yields_next.2 (deliver_memOk (reach_memOk h))))

theorem load_yields {t : Task} {r : LoadReq} (hs : MemOk φ s.mem) : Yields φ (load s t r) := by
  unfold load
  (repeat' split)
  · exact checked_yields hs (awaitClass_yields hs (trap_yields hs))
  · exact checked_yields hs (awaitClass_yields hs (ordered_yields hs (yields_next.2 (retireAlone_memOk hs))))
  · exact checked_yields hs (awaitClass_yields hs (ordered_yields hs (sendRequest_yields hs)))
  · exact checked_yields hs (awaitClass_yields hs (ordered_yields hs (homeAlone_yields hs)))
  · exact checked_yields hs (awaitClass_yields hs (ite_yields (alone_yields hs (ordered_yields hs (homeAlone_yields hs)))
      (chunkLoad_yields hs)))

theorem startLoad_yields {t : Task} {r : LoadReq} (hs : MemOk φ s.mem) :
    Yields φ (startLoad s t r) :=
  held_yields hs (ite_yields (alone_yields hs (load_yields hs)) (load_yields hs))

theorem chunkStore_yields {t : Task} {addr : Word} {bs : List Byte} (hs : MemOk φ s.mem) : Yields φ (chunkStore s t addr bs) := by
  unfold chunkStore
  dsimp only
  split
  · exact withLines_yields hs (fun h => yields_next.2 (retire_memOk h))
  · exact withLines_yields hs (fun h => ite_yields (discardTrap_yields h) (yields_next.2 (retire_memOk h)))

theorem homeStore_yields {t : Task} {r : StoreReq} (hs : MemOk φ s.mem) : Yields φ (homeStore s t r) := by
  unfold homeStore
  dsimp only
  split_ifs
  · exact homeAlone_yields hs
  · exact yields_next.2 hs
  · exact yields_next.2 (settle_memOk (retireAlone_memOk (answer_memOk (runJob_memOk (raiseCounter_memOk hs)))))
  · exact yields_next.2 hs

theorem store_yields {t : Task} {r : StoreReq} (hs : MemOk φ s.mem) :
    Yields φ (store s t r) :=
  checked_yields hs (awaitClass_yields hs (ite_yields (ordered_yields hs (ite_yields (yields_next.2 hs) (yields_next.2
    (retireAlone_memOk (sendPosted_memOk hs))))) (ite_yields (chunkStore_yields hs) (ordered_yields hs (homeStore_yields hs)))))

theorem startStore_yields {t : Task} {r : StoreReq} (hs : MemOk φ s.mem) :
    Yields φ (startStore s t r) :=
  held_yields hs (ite_yields (alone_yields hs (store_yields hs)) (store_yields hs))

theorem atomicAccess_yields {t : Task} {op : AmoOp} {n : Nat} {d : Reg} {a v e : Word} (hs : MemOk φ s.mem) :
    Yields φ (atomicAccess s t op n d a v e) :=
  held_yields hs (checked_yields hs (ite_yields (trap_yields hs) (ite_yields (sendRequest_yields hs) (homeAlone_yields hs))))

theorem tagRead_yields {t : Task} {d : Reg} {a : Word} (hs : MemOk φ s.mem) :
    Yields φ (tagRead s t d a) :=
  held_yields hs (checked_yields hs (ite_yields (trap_yields hs) (ite_yields (sendRequest_yields hs) (withLines_yields hs (fun h
    => yields_next.2 (retire_memOk h))))))

theorem tagStore_yields {t : Task} {a : Word} {f : Bool} (hs : MemOk φ s.mem) :
    Yields φ (tagStore s t a f) :=
  checked_yields hs (ite_yields (ite_yields (yields_next.2 hs) (yields_next.2 (retireAlone_memOk (sendPosted_memOk hs))))
    (withLines_yields hs (fun h => ite_yields (discardTrap_yields h) (yields_next.2 (retire_memOk h)))))

theorem passed_memOk (hs : MemOk φ s.mem) : MemOk φ (passed s).mem := modCur_memOk hs

theorem execCmt_yields (hs : MemOk φ s.mem) : Yields φ (execCmt s) := yields_next.2 (commitNow_memOk (passed_memOk hs))

theorem execChunkCommit_yields (hs : MemOk φ s.mem) :
    Yields φ (execChunkCommit s) :=
  ite_yields (yields_next.2 (commitNow_memOk hs)) (yields_next.2 hs)

theorem execChunkInstructionLimit_yields (hs : MemOk φ s.mem) :
    Yields φ (execChunkInstructionLimit s) :=
  ite_yields (yields_next.2 (chunkLimit_memOk hs)) (yields_next.2 hs)

theorem leaveSlot_memOk (hs : MemOk φ s.mem) :
    MemOk φ (leaveSlot s).mem :=
  settle_memOk (modCur_memOk (saveTask_memOk (drainInflight_memOk hs)))

theorem execYield_yields (hs : MemOk φ s.mem) : Yields φ (execYield s) := by
  have h := commitNow_memOk (passed_memOk hs)
  unfold execYield
  rcases e : commitNow (passed s) with t | t | t <;> rw [e] at h
  · exact ite_yields (yields_next.2 h) (yields_next.2 (dropDeficit_memOk (leaveSlot_memOk h)))
  · exact yields_next.2 h
  · exact yields_next.2 hs

theorem execTend_yields (hs : MemOk φ s.mem) : Yields φ (execTend s) := by
  unfold execTend
  (repeat' split)
  · exact alone_yields hs (yields_next.2 (endTask_memOk hs))
  · exact alone_yields hs (yields_next.2 hs)
  · exact alone_yields hs (yields_next.2 (modCur_memOk hs))
  · exact alone_yields hs (yields_next.2 (modCur_memOk (settle_memOk (devWord_memOk hs))))

theorem runInline_memOk {t : Task} {d : Reg} {e : Word} {number : Nat} (hs : MemOk φ s.mem) :
    MemOk φ (runInline s t d e number).mem :=
  modCur_memOk hs

theorem spawnTo_memOk {core : Nat} {e : Word} {ord : Bool} (hs : MemOk φ s.mem) :
    MemOk φ (spawnTo s core e ord).mem :=
  ite_memOk (modCur_memOk (enqueue_memOk hs)) (enqueue_memOk hs)

theorem spawnOne_yields {ord : Bool} {d t e : Reg} (hs : MemOk φ s.mem) : Yields φ (spawnOne s ord d t e) := by
  unfold spawnOne
  (repeat' split)
  · exact gate_yields hs (alone_yields hs (trap_yields hs))
  · exact gate_yields hs (alone_yields hs (trap_yields hs))
  · exact gate_yields hs (alone_yields hs (trap_yields hs))
  · exact gate_yields hs (alone_yields hs (finishAloneG_yields (spawnTo_memOk hs)))
  · exact gate_yields hs (alone_yields hs (yields_next.2 hs))
  · exact gate_yields hs (alone_yields hs (yields_next.2 (runInline_memOk hs)))
  · exact gate_yields hs (alone_yields hs (yields_next.2 hs))

theorem execSpawn_yields {d t e : Reg} (hs : MemOk φ s.mem) : Yields φ (execSpawn d t e s) := spawnOne_yields hs

theorem execSpawnOrd_yields {d t e : Reg} (hs : MemOk φ s.mem) : Yields φ (execSpawnOrd d t e s) := spawnOne_yields hs

theorem spawnGang_yields {cl : Bool} {d t e : Reg} (hs : MemOk φ s.mem) :
    Yields φ (spawnGang s cl d t e) :=
  gate_yields hs (alone_yields hs (ite_yields (trap_yields hs) (ite_yields (trap_yields hs) (ite_yields (trap_yields hs)
    (ite_yields (yields_next.2 hs) (finishAloneG_yields (bumpKey_memOk hs)))))))

theorem execSpawnRow_yields {d t e : Reg} (hs : MemOk φ s.mem) : Yields φ (execSpawnRow d t e s) := spawnGang_yields hs

theorem execSpawnCl_yields {d t e : Reg} (hs : MemOk φ s.mem) : Yields φ (execSpawnCl d t e s) := spawnGang_yields hs

theorem mapMember_memOk {g pos : Nat} {f : Member → Member} (hs : MemOk φ s.mem) : MemOk φ (mapMember s g pos f).mem := hs

theorem gsync_yields {cl : Bool} (hs : MemOk φ s.mem) : Yields φ (gsync s cl) := by
  unfold gsync
  split
  · exact alone_yields hs (yields_next.2 (retireAlone_memOk hs))
  · exact alone_yields hs (ite_yields (yields_next.2 (retireAlone_memOk hs)) (ite_yields (yields_next.2 hs) (yields_next.2
      (modCur_memOk (mapMember_memOk hs)))))

theorem execGsyncRow_yields (hs : MemOk φ s.mem) : Yields φ (execGsyncRow s) := gsync_yields hs

theorem execGsyncCl_yields (hs : MemOk φ s.mem) : Yields φ (execGsyncCl s) := gsync_yields hs

theorem execGsyncPass_yields {core slot : Nat} (hs : MemOk φ s.mem) : Yields φ (execGsyncPass core slot s) := by
  unfold execGsyncPass
  (repeat' split)
  · exact yields_next.2 hs
  · exact yields_next.2 (onTask_memOk (mapMember_memOk hs) retireAlone_memOk)
  · exact yields_next.2 hs
  · exact yields_next.2 (onTask_memOk (mapMember_memOk hs) retireAlone_memOk)
  · exact yields_next.2 hs
  · exact yields_next.2 hs

theorem execMsg_yields {d n : Reg} {g : BitVec 8} {c : BitVec 4} (hs : MemOk φ s.mem) :
    Yields φ (execMsg d n g c s) :=
  gate_yields hs (alone_yields hs (ite_yields (trap_yields hs) (ite_yields (yields_next.2 hs) (ite_yields (trap_yields hs)
    (ite_yields (ite_yields (finishAloneG_yields hs) (trap_yields hs)) (ite_yields (trap_yields hs) (ite_yields (yields_next.2 hs)
    (finishAloneG_yields (sendMsg_memOk hs)))))))))

theorem execMdone_yields (hs : MemOk φ s.mem) : Yields φ (execMdone s) := yields_next.2 (retire_memOk hs)

theorem execTgctl_yields {a b : Reg} (hs : MemOk φ s.mem) :
    Yields φ (execTgctl a b s) :=
  gate_yields hs (ite_yields (trap_yields hs) (ite_yields (trap_yields hs) (yields_next.2 (retire_memOk hs))))

theorem armHere_yields {t : Task} {n : BitVec 2} {w : WaitSlot} (hs : MemOk φ s.mem) :
    Yields φ (arm s t n w) :=
  yields_next.2 (observe_memOk (retire_memOk hs))

theorem armRemote_yields {t : Task} {n : BitVec 2} {w : WaitSlot} {c : WaitCond} (hs : MemOk φ s.mem) :
    Yields φ (armRemote s t n w c) := by
  unfold armRemote
  split
  · exact accessTrap_yields (modCur_memOk hs)
  · exact yields_next.2 (observe_memOk (retireAlone_memOk hs))
  · exact yields_next.2 hs
  · exact checked_yields hs (yields_next.2 (ite_memOk hs (modCur_memOk (requestSent_memOk hs))))

theorem execWset_yields {n : BitVec 2} {c : WaitCond} {a b : Reg} (hs : MemOk φ s.mem) :
    Yields φ (execWset n c a b s) :=
  gate_yields hs (ite_yields (ite_yields (checked_yields hs (armHere_yields hs)) (alone_yields hs (armRemote_yields hs))) (ite_yields
    (trap_yields hs) (armHere_yields hs)))

theorem finishWait_memOk {t : Task} {d : Reg} {late : Bool} (hs : MemOk φ s.mem) :
    MemOk φ (finishWait s t d late).mem :=
  retireAlone_memOk hs

theorem execWait_yields {e : BitVec 4} {all : Bool} {d r : Reg} (hs : MemOk φ s.mem) :
    Yields φ (execWait e all d r s) :=
  gate_yields hs (alone_yields hs (ite_yields (yields_next.2 hs) (ite_yields (trap_yields hs) (ite_yields (yields_next.2
    (finishWait_memOk hs)) (ite_yields (yields_next.2 (finishWait_memOk hs)) (yields_next.2 hs))))))

theorem execWaitLatch_yields {core slot ws : Nat} (hs : MemOk φ s.mem) : Yields φ (execWaitLatch core slot ws s) := by
  unfold execWaitLatch
  split
  · exact yields_next.2 hs
  · exact yields_next.2 (onTask_memOk hs modCur_memOk)

theorem execWaitReturn_yields {core slot : Nat} (hs : MemOk φ s.mem) : Yields φ (execWaitReturn core slot s) := by
  unfold execWaitReturn
  (repeat' split)
  · exact yields_next.2 hs
  · exact yields_next.2 (onTask_memOk hs finishWait_memOk)
  · exact yields_next.2 hs
  · exact yields_next.2 hs

theorem execWaitTimeout_yields {core slot : Nat} (hs : MemOk φ s.mem) : Yields φ (execWaitTimeout core slot s) := by
  unfold execWaitTimeout
  (repeat' split)
  · exact yields_next.2 hs
  · exact yields_next.2 (onTask_memOk hs finishWait_memOk)
  · exact yields_next.2 hs
  · exact yields_next.2 hs

theorem slpEnd_memOk {t : Task} {x : Word} {missed : Bool} (hs : MemOk φ s.mem) :
    MemOk φ (slpEnd s t x missed).mem :=
  ite_memOk (takeTrap_memOk (modCur_memOk (markMissed_memOk hs))) (retireAlone_memOk hs)

theorem execSlp_yields {r : Reg} (hs : MemOk φ s.mem) : Yields φ (execSlp r s) := by
  unfold execSlp
  (repeat' split)
  · exact gate_yields hs (alone_yields hs (yields_next.2 hs))
  · exact gate_yields hs (alone_yields hs (trap_yields hs))
  · exact gate_yields hs (alone_yields hs (yields_next.2 hs))
  · exact gate_yields hs (alone_yields hs (yields_next.2 (slpEnd_memOk hs)))

theorem execSlpWake_yields {core slot : Nat} (hs : MemOk φ s.mem) : Yields φ (execSlpWake core slot s) := by
  unfold execSlpWake
  (repeat' split)
  · exact yields_next.2 hs
  · exact yields_next.2 hs
  · exact yields_next.2 (onTask_memOk hs slpEnd_memOk)
  · exact yields_next.2 hs

theorem execGetst_yields {d : Reg} {n : BitVec 5} (hs : MemOk φ s.mem) :
    Yields φ (execGetst d n s) :=
  gate_yields hs (finishG_yields hs)

theorem execRpt_yields {c : BitVec 6} {l : BitVec 4} {k : RptStride} (hs : MemOk φ s.mem) :
    Yields φ (execRpt c l k s) :=
  yields_next.2 hs

theorem execMldA_yields {k : BitVec 5} {b i : Reg} (hs : MemOk φ s.mem) :
    Yields φ (execMldA k b i s) :=
  gate_yields hs (yields_next.2 (retire_memOk hs))

theorem execMldB_yields {k : BitVec 5} {b r : Reg} (hs : MemOk φ s.mem) :
    Yields φ (execMldB k b r s) :=
  gate_yields hs (yields_next.2 (retire_memOk hs))

theorem setArray_memOk {k : Nat} {a : ArrayOp} (hs : MemOk φ s.mem) : MemOk φ (setArray s k a).mem := hs

theorem dropArray_memOk {k : Nat} (hs : MemOk φ s.mem) : MemOk φ (dropArray s k).mem := hs

theorem abandon_memOk {k : Nat} (hs : MemOk φ s.mem) :
    MemOk φ (abandon s k).mem :=
  foldl_memOk (fun h => ite_memOk h (ite_memOk (onTask_memOk h defer_memOk) (onTask_memOk h takeTrap_memOk))) (dropArray_memOk hs)

theorem mmaCommit_memOk {t : Task} {k : Nat} (hs : MemOk φ s.mem) : MemOk φ (mmaCommit s t k).mem := by
  have h := commitNow_memOk (passed_memOk (s := { s with cur := rebase s t }) hs)
  unfold mmaCommit
  rcases e : commitNow (passed { s with cur := rebase s t }) with u | u | u <;> rw [e] at h
  · exact setArray_memOk h
  · exact h
  · exact hs

theorem mmaBarrier_memOk {t : Task} {k : Nat} {ms : List Member} (hs : MemOk φ s.mem) : MemOk φ (mmaBarrier s t k ms).mem := by
  unfold mmaBarrier
  dsimp only
  (repeat' split)
  · exact abandon_memOk hs
  · exact hs
  · exact mmaCommit_memOk hs
  · exact hs
  · exact abandon_memOk hs
  · exact mmaCommit_memOk (setArray_memOk hs)

theorem execMma_yields {t : BitVec 2} {z u : Bool} {f : BitVec 5} {k : Reg} (hs : MemOk φ s.mem) :
    Yields φ (execMma t z u f k s) := by
  unfold execMma
  (repeat' split)
  · exact gate_yields hs (trap_yields hs)
  · exact gate_yields hs (trap_yields hs)
  · exact gate_yields hs (trap_yields hs)
  · exact gate_yields hs (yields_next.2 hs)
  · exact gate_yields hs (ite_yields (yields_next.2 (mmaBarrier_memOk hs)) (unlessStop_yields hs (yields_next.2 (mmaBarrier_memOk
      (setArray_memOk hs)))))
  · exact gate_yields hs (trap_yields hs)

theorem putBlock_memOk {p : MmaPart} {r : Tile × FlagSet} (hs : MemOk φ s.mem) :
    MemOk φ (putBlock s p r).mem :=
  onTask_memOk hs modCur_memOk

theorem execMmaArrayStart_yields {row : Nat} (hs : MemOk φ s.mem) : Yields φ (execMmaArrayStart row s) := by
  unfold execMmaArrayStart
  (repeat' split)
  · exact yields_next.2 hs
  · exact yields_next.2 hs
  · exact yields_next.2 (abandon_memOk hs)
  · exact yields_next.2 (setArray_memOk hs)
  · exact yields_next.2 hs

theorem arrayPoisoned_memOk {k : Nat} {ps : List MmaPart} {a : Nat} (hs : MemOk φ s.mem) :
    MemOk φ (arrayPoisoned s k ps a).mem :=
  foldl_memOk (fun h => ite_memOk h (onTask_memOk h defer_memOk)) (dropArray_memOk hs)

theorem execMmaArrayComplete_yields {row : Nat} (hs : MemOk φ s.mem) : Yields φ (execMmaArrayComplete row s) := by
  have blocks : ∀ {u : State} {F : MmaPart → Tile × FlagSet} {ps : List MmaPart}, MemOk φ u.mem →
      MemOk φ (ps.foldl (fun s' p => match findTask s p.key with
        | none => s'
        | some t => putBlock s' p (F p)) u).mem := by
    intro u F ps hu
    refine foldl_memOk (fun h => ?_) hu
    split
    · exact h
    · exact putBlock_memOk h
  unfold execMmaArrayComplete
  split
  · exact yields_next.2 hs
  · dsimp only
    split
    · exact yields_next.2 (arrayPoisoned_memOk hs)
    · refine yields_next.2 (ite_memOk (dropArray_memOk (foldl_memOk (fun h => ?_) hs)) (setArray_memOk (foldl_memOk (fun h => ?_)
        hs))) <;>
        split
      · exact h
      · exact putBlock_memOk h
      · exact h
      · exact putBlock_memOk h

theorem execMst_yields {t a st : Reg} (hs : MemOk φ s.mem) :
    Yields φ (execMst t a st s) :=
  gate_yields hs (unlessStop_yields hs (ite_yields (yields_next.2 hs) (ite_yields (ite_yields (yields_next.2 (chunkLimit_memOk
    hs)) (withLines_yields hs (fun h => yields_next.2 (commitNow_memOk h)))) (withLines_yields hs (fun h => yields_next.2
    (retire_memOk h))))))

theorem execMzero_yields {t : Reg} (hs : MemOk φ s.mem) :
    Yields φ (execMzero t s) :=
  ite_yields (yields_next.2 hs) (yields_next.2 (retire_memOk hs))

theorem acceptCopy_memOk {t : Task} {q r : Bool} {c : Scope} {y : CopyKind} {d : Reg} {n : Nat} {src dst : Word} (hs : MemOk φ
    s.mem) :
    MemOk φ (acceptCopy s t q r c y d n src dst).mem :=
  retireAlone_memOk (setEngine_memOk hs)

theorem emptyMoved_memOk {y : CopyKind} {n : Nat} {src : Word} (hs : MemOk φ s.mem) :
    MemOk φ (emptyMoved s y n src).mem :=
  ite_memOk (foldl_memOk cribEmpty_memOk hs) hs

theorem askRange_yields {got : List Word} {n : Nat} {a : Word} {write : Bool} (hs : MemOk φ s.mem) :
    Yields φ (askRange s got n a write) :=
  sendRequest_yields (modCur_memOk hs)

theorem execCpy_yields {q r : Bool} {c : Scope} {y : CopyKind} {n a b : Reg} (hs : MemOk φ s.mem) :
    Yields φ (execCpy q r c y n a b s) := by
  unfold execCpy
  dsimp only
  (repeat' split)
  · exact gate_yields hs (alone_yields hs (trap_yields (modCur_memOk hs)))
  · exact gate_yields hs (alone_yields hs (trap_yields (modCur_memOk hs)))
  · exact gate_yields hs (alone_yields hs (yields_next.2 hs))
  · exact gate_yields hs (alone_yields hs (trap_yields (modCur_memOk hs)))
  · exact gate_yields hs (alone_yields hs (askRange_yields hs))
  · exact gate_yields hs (alone_yields hs (trap_yields hs))
  · exact gate_yields hs (alone_yields hs (yields_next.2 hs))
  · exact gate_yields hs (alone_yields hs (yields_next.2 (acceptCopy_memOk (emptyMoved_memOk hs))))
  · exact gate_yields hs (alone_yields hs (yields_next.2 hs))
  · exact gate_yields hs (alone_yields hs (yields_next.2 hs))
  · exact gate_yields hs (alone_yields hs (trap_yields (modCur_memOk hs)))
  · exact gate_yields hs (alone_yields hs (askRange_yields hs))
  · exact gate_yields hs (alone_yields hs (trap_yields hs))
  · exact gate_yields hs (alone_yields hs (yields_next.2 hs))
  · exact gate_yields hs (alone_yields hs (yields_next.2 (acceptCopy_memOk (emptyMoved_memOk hs))))
  · exact gate_yields hs (alone_yields hs (trap_yields (modCur_memOk hs)))
  · exact gate_yields hs (alone_yields hs (trap_yields (modCur_memOk hs)))
  · exact gate_yields hs (alone_yields hs (yields_next.2 hs))
  · exact gate_yields hs (alone_yields hs (trap_yields (modCur_memOk hs)))
  · exact gate_yields hs (alone_yields hs (askRange_yields hs))
  · exact gate_yields hs (alone_yields hs (trap_yields hs))
  · exact gate_yields hs (alone_yields hs (yields_next.2 hs))
  · exact gate_yields hs (alone_yields hs (yields_next.2 (acceptCopy_memOk (emptyMoved_memOk hs))))
  · exact gate_yields hs (alone_yields hs (yields_next.2 hs))
  · exact gate_yields hs (alone_yields hs (yields_next.2 hs))
  · exact gate_yields hs (alone_yields hs (trap_yields (modCur_memOk hs)))
  · exact gate_yields hs (alone_yields hs (askRange_yields hs))
  · exact gate_yields hs (alone_yields hs (trap_yields hs))
  · exact gate_yields hs (alone_yields hs (yields_next.2 hs))
  · exact gate_yields hs (alone_yields hs (yields_next.2 (acceptCopy_memOk (emptyMoved_memOk hs))))

theorem execCpst_yields {d t : Reg} (hs : MemOk φ s.mem) :
    Yields φ (execCpst d t s) :=
  gate_yields hs (ite_yields (trap_yields hs) (finishG_yields hs))

theorem mapCmd_memOk {core seq : Nat} {f : CopyCmd → CopyCmd} (hs : MemOk φ s.mem) :
    MemOk φ (mapCmd s core seq f).mem :=
  setEngine_memOk hs

theorem copyCause_memOk {c : CopyCmd} {cause : Nat} {detail : Word} (hs : MemOk φ s.mem) :
    MemOk φ (copyCause s c cause detail).mem :=
  deferTo_memOk hs

theorem headBegins_memOk {core : Nat} (hs : MemOk φ s.mem) : MemOk φ (headBegins s core).mem := by
  unfold headBegins
  split
  · exact hs
  · exact mapCmd_memOk hs

theorem pushFrom_memOk {core seq by' : Nat} (hs : MemOk φ s.mem) : MemOk φ (pushFrom s core seq by').mem := setEngine_memOk hs

theorem unholdBeat_memOk {core : Nat} {c : CopyCmd} (hs : MemOk φ s.mem) : MemOk φ (unholdBeat s core c).mem := by
  unfold unholdBeat
  split
  · exact hs
  · exact mapCmd_memOk (pushFrom_memOk hs)

theorem copyFail_memOk {core : Nat} {c : CopyCmd} {cause : Nat} (hs : MemOk φ s.mem) :
    MemOk φ (copyFail s core c cause).mem :=
  observe_memOk (copyCause_memOk (headBegins_memOk (mapCmd_memOk (unholdBeat_memOk hs))))

theorem gotSource_memOk {core : Nat} {c : CopyCmd} {bs : List Byte} {tags : List Bool} (hs : MemOk φ s.mem) :
    MemOk φ (gotSource s core c bs tags).mem :=
  mapCmd_memOk hs

theorem readSource_memOk {core : Nat} {c : CopyCmd} (hs : MemOk φ s.mem) : MemOk φ (readSource s core c).1.mem := by
  unfold readSource
  dsimp only
  split
  · exact hs
  · exact ite_fst_memOk hs (gotSource_memOk (jobRead_memOk hs))

theorem sendPart_memOk {core : Nat} {c : CopyCmd} {a : Word} {bs : List Byte} {tags : List Bool} (hs : MemOk φ s.mem) :
    MemOk φ (sendPart s core c a bs tags).mem :=
  sendEngine_memOk hs

theorem beatWrite_memOk {core : Nat} {c : CopyCmd} {bs : List Byte} {tags : List Bool} (hs : MemOk φ s.mem) :
    MemOk φ (beatWrite s core c bs tags).mem := by
  unfold beatWrite
  dsimp only
  (repeat' split)
  · exact copyFail_memOk hs
  · exact copyFail_memOk (siloAdd_memOk hs)
  · exact settle_memOk (mapCmd_memOk (fillLine_memOk hs))
  · exact hs
  · exact mapCmd_memOk (sendPart_memOk hs)

theorem copyBeat_memOk {n core : Nat} {c : CopyCmd} (hs : MemOk φ s.mem) : MemOk φ (copyBeat n s core c).mem := by
  induction n generalizing s c with
  | zero => exact hs
  | succ n ih =>
    have hu := unholdBeat_memOk (core := core) (c := c) hs
    unfold copyBeat
    dsimp only
    split_ifs
    · exact hs
    · exact mapCmd_memOk hs
    · exact beatWrite_memOk hu
    · exact beatWrite_memOk hu
    · split
      next e =>
        have h := readSource_memOk (core := core) (c := cmdNow (unholdBeat s core c) core c) hu
        rw [e] at h
        exact copyFail_memOk h
      next e =>
        have h := readSource_memOk (core := core) (c := cmdNow (unholdBeat s core c) core c) hu
        rw [e] at h
        exact ih h
    · exact hu
    · exact mapCmd_memOk (sendEngine_memOk hu)

theorem copyReply_memOk {core seq : Nat} {posted : Bool} {status : Nat} {words : List Word} (hs : MemOk φ s.mem) :
    MemOk φ (copyReply s core seq posted status words).mem := by
  unfold copyReply
  split
  · exact hs
  · exact ite_memOk (mapCmd_memOk hs) (ite_memOk (copyFail_memOk (mapCmd_memOk hs)) (ite_memOk (copyFail_memOk (mapCmd_memOk hs))
      (ite_memOk (mapCmd_memOk hs) (gotSource_memOk (mapCmd_memOk hs)))))

theorem execCopyComplete_yields {core : Nat} {how : CopyStep} (hs : MemOk φ s.mem) : Yields φ (execCopyComplete core how s) := by
  unfold execCopyComplete
  (repeat' split)
  · exact yields_next.2 hs
  · exact yields_next.2 hs
  · exact yields_next.2 (copyBeat_memOk hs)
  · exact yields_next.2 (observe_memOk (headBegins_memOk (mapCmd_memOk (unholdBeat_memOk hs))))
  · exact yields_next.2 hs
  · exact yields_next.2 (copyFail_memOk hs)
  · exact yields_next.2 hs

theorem watchdogCause_memOk {key tenant core : Nat} {detail : Word} (hs : MemOk φ s.mem) :
    MemOk φ (watchdogCause s key tenant core detail).mem :=
  deferTo_memOk hs

theorem dropAsked_memOk {core : Nat} (hs : MemOk φ s.mem) : MemOk φ (dropAsked s core).mem := hs

theorem resetEngine_memOk {core tenant : Nat} (hs : MemOk φ s.mem) :
    MemOk φ (resetEngine s core tenant).mem :=
  observe_memOk (setEngine_memOk (foldl_memOk (fun h => watchdogCause_memOk (mapCmd_memOk h)) (dropAsked_memOk hs)))

theorem resetArray_memOk {k tenant : Nat} {a : ArrayOp} (hs : MemOk φ s.mem) :
    MemOk φ (resetArray s k tenant a).mem :=
  foldl_memOk watchdogCause_memOk (dropArray_memOk hs)

theorem resetHome_memOk {w : Waiter} (hs : MemOk φ s.mem) : MemOk φ (resetHome s w).mem := answer_memOk (MemOk.poison hs)

theorem execEngineWatchdog_yields {eng : EngineId} {tenant : Nat} (hs : MemOk φ s.mem) :
    Yields φ (execEngineWatchdog eng tenant s) := by
  unfold execEngineWatchdog
  (repeat' split)
  · exact yields_next.2 hs
  · exact yields_next.2 (siloAdd_memOk (resetEngine_memOk hs))
  · exact yields_next.2 hs
  · exact yields_next.2 hs
  · exact yields_next.2 (siloAdd_memOk (resetArray_memOk hs))
  · exact yields_next.2 hs
  · exact yields_next.2 hs
  · exact yields_next.2 (siloAdd_memOk (onTask_memOk hs (fun h => modCur_memOk (defer_memOk h))))
  · exact yields_next.2 hs
  · exact yields_next.2 hs
  · exact yields_next.2 (siloAdd_memOk (settle_memOk (resetHome_memOk hs)))
  · exact yields_next.2 hs

end Sys2Proof.Machine
end

section
/-! PROOFS. Memory stays canonical: dispatch, launches, replies, links and repartitions. -/
namespace Sys2Proof.Machine
variable {φ : Prop} {s : State}

theorem firstDispatch_memOk {slot k : Nat} (hs : MemOk φ s.mem) :
    MemOk φ (firstDispatch s slot k).mem :=
  settle_memOk (ctlChanged_memOk (saveState_memOk (bumpKey_memOk (ite_memOk (modCur_memOk hs) (devWrite_memOk (modCur_memOk
    hs))))))

theorem againDispatch_memOk {slot : Nat} (hs : MemOk φ s.mem) : MemOk φ (againDispatch s slot).mem := by
  unfold againDispatch
  dsimp only
  split
  · exact settle_memOk (saveState_memOk (bumpKey_memOk (modCur_memOk (modCur_memOk hs))))
  · exact settle_memOk (saveState_memOk (bumpKey_memOk (ite_memOk (modCur_memOk (modCur_memOk hs)) (devWord_memOk (modCur_memOk
      (modCur_memOk hs))))))

theorem execDispatch_yields {core slot : Nat} (hs : MemOk φ s.mem) : Yields φ (execDispatch core slot s) := by
  unfold execDispatch
  split_ifs
  · exact yields_next.2 hs
  · split
    · exact yields_next.2 hs
    next t _ =>
      refine yields_next.2 (drainArrivals_memOk (onTask_memOk hs fun {s} h => ?_))
      split_ifs
      · exact againDispatch_memOk h
      · split
        · exact h
        · exact firstDispatch_memOk h

theorem takeEntry_memOk {core i : Nat} (hs : MemOk φ s.mem) : MemOk φ (takeEntry s core i).mem := by
  unfold takeEntry
  dsimp only
  exact setBag_memOk hs

theorem popFault_memOk {e : BagEntry} {cause : Nat} (hs : MemOk φ s.mem) :
    MemOk φ (popFault s e cause).mem :=
  actLower_memOk (bareFault_memOk hs)

theorem execBagPop_yields {core : Nat} (hs : MemOk φ s.mem) : Yields φ (execBagPop core s) := by
  unfold execBagPop
  (repeat' split)
  · exact yields_next.2 hs
  · exact yields_next.2 hs
  · exact yields_next.2 hs
  · exact yields_next.2 (bareFault_memOk (takeEntry_memOk hs))
  · exact yields_next.2 (settle_memOk (popFault_memOk (jobRead_memOk (jobRead_memOk (takeEntry_memOk hs)))))
  · exact ite_yields (yields_next.2 (settle_memOk (popFault_memOk (jobRead_memOk (jobRead_memOk (takeEntry_memOk hs))))))
      (yields_next.2 (settle_memOk (popFault_memOk (jobRead_memOk (jobRead_memOk (takeEntry_memOk hs))))))
  · exact ite_yields (yields_next.2 (settle_memOk (popFault_memOk (jobRead_memOk (jobRead_memOk (takeEntry_memOk hs))))))
      (yields_next.2 (enqueue_memOk (jobRead_memOk (jobRead_memOk (takeEntry_memOk hs)))))

theorem spillTake_memOk {core t : Nat} (hs : MemOk φ s.mem) : ∀ x ∈ spillTake s core t, MemOk φ x.2.mem := by
  unfold spillTake
  dsimp only
  split
  · rintro _ ⟨⟩
  · rintro _ ⟨⟩; exact jobRead_memOk hs

theorem reloadFuel_memOk {f core n : Nat} {ts : List Nat} (hs : MemOk φ s.mem) : MemOk φ (reloadFuel f s core n ts).mem := by
  induction f generalizing s n ts with
  | zero => exact hs
  | succ f ih =>
    cases n with
    | zero => exact hs
    | succ n =>
      unfold reloadFuel
      split
      · split
        · exact hs
        · exact ih hs
      next t ts =>
        dsimp only
        split
        · exact ih hs
        next e u h =>
          split_ifs at h
          exact ih (setBag_memOk (spillTake_memOk hs (e, u) h))

theorem execBagReload_yields {core : Nat} (hs : MemOk φ s.mem) : Yields φ (execBagReload core s) :=
  ite_yields (yields_next.2 hs) (yields_next.2 (observe_memOk (reloadFuel_memOk hs)))

theorem stealFrom_memOk {thief victim : Nat} (hs : MemOk φ s.mem) :
    MemOk φ (stealFrom s thief victim).mem :=
  observe_memOk (setBag_memOk (foldl_memOk takeEntry_memOk hs))

theorem execSteal_yields {core : Nat} (hs : MemOk φ s.mem) : Yields φ (execSteal core s) := by
  unfold execSteal
  dsimp only
  (repeat' split)
  · exact yields_next.2 hs
  · exact yields_next.2 hs
  · exact yields_next.2 (stealFrom_memOk hs)
  · exact yields_next.2 hs
  · exact yields_next.2 (stealFrom_memOk hs)

theorem execPlacementLoop_yields {cluster occ : Nat} (hs : MemOk φ s.mem) :
    Yields φ (execPlacementLoop cluster occ s) :=
  ite_yields (yields_next.2 hs) (yields_next.2 hs)

theorem reseat_memOk {g : Gang} (hs : MemOk φ s.mem) : MemOk φ (reseat s g).mem := by
  refine foldl_memOk (fun {s t} h => ?_) hs
  split
  · exact h
  · exact onTask_memOk h againDispatch_memOk

/-- One member of a gang begins in its slot. -/
theorem startMember_memOk {key slot k : Nat} {b : Birth} {f : Task → Task} (hs : MemOk φ s.mem) :
    MemOk φ (onTask (enqueue s b) key fun s => modCur (firstDispatch s slot k) f).mem :=
  onTask_memOk (enqueue_memOk hs) fun h => modCur_memOk (firstDispatch_memOk h)

theorem startGang_memOk {cluster : Nat} {q : GangReq} (hs : MemOk φ s.mem) : MemOk φ (startGang s cluster q).mem := by
  unfold startGang
  extract_lets cores step
  refine foldl_fst_memOk (F := step) (x := (s, [])) (fun {x a} h => ?_) hs
  obtain ⟨s, ms⟩ := x
  simp only [step]
  split
  · exact startMember_memOk h
  · exact h

theorem execGangReserve_yields {cluster : Nat} (hs : MemOk φ s.mem) : Yields φ (execGangReserve cluster s) := by
  unfold execGangReserve
  split
  · exact yields_next.2 (reseat_memOk hs)
  · split
    · exact yields_next.2 (startGang_memOk hs)
    · exact yields_next.2 hs

theorem execGangSlotHold_yields {cluster : Nat} (hs : MemOk φ s.mem) : Yields φ (execGangSlotHold cluster s) := by
  unfold execGangSlotHold
  split
  · exact yields_next.2 hs
  · exact ite_yields (yields_next.2 hs) (yields_next.2 hs)

theorem execSerialTokenGrant_yields {scope : TokenScope} (hs : MemOk φ s.mem) : Yields φ (execSerialTokenGrant scope s) := by
  unfold execSerialTokenGrant
  (repeat' split) <;> exact yields_next.2 hs

theorem execScrubClearComplete_yields {granule : Nat} (hs : MemOk φ s.mem) : Yields φ (execScrubClearComplete granule s) :=
  ite_yields (yields_next.2 (ctlChanged_memOk hs.scrub)) (yields_next.2 hs)

theorem execStoreAck_yields {core tenant : Nat} {cls : WaitClass} (hs : MemOk φ s.mem) :
    Yields φ (execStoreAck core tenant cls s) :=
  ite_yields (yields_next.2 (observe_memOk (lowerCounter_memOk hs))) (yields_next.2 hs)

theorem execPreemptRequest_yields {t : Nat} {src : PreemptSrc} (hs : MemOk φ s.mem) :
    Yields φ (execPreemptRequest t src s) :=
  ite_yields (yields_next.2 (writeRequest_memOk hs)) (yields_next.2 hs)

theorem execPreemptRelease_yields {t : Nat} {src : PreemptSrc} (hs : MemOk φ s.mem) :
    Yields φ (execPreemptRelease t src s) :=
  ite_yields (yields_next.2 (writeRequest_memOk hs)) (yields_next.2 hs)

theorem acknowledge_memOk {t : Nat} {src : PreemptSrc} (hs : MemOk φ s.mem) :
    MemOk φ (acknowledge s t src).mem :=
  ctlChanged_memOk hs

theorem execPreemptHaltComplete_yields {t : Nat} {src : PreemptSrc} (hs : MemOk φ s.mem) :
    Yields φ (execPreemptHaltComplete t src s) :=
  ite_yields (yields_next.2 hs) (ite_yields (yields_next.2 (acknowledge_memOk (haltTenant_memOk hs))) (yields_next.2
    (haltTenant_memOk hs)))

theorem execHmapWrite_yields {core slot n : Nat} {hi : Bool} {v : Word} (hs : MemOk φ s.mem) :
    Yields φ (execHmapWrite core slot n hi v s) :=
  ite_yields (yields_next.2 (settle_memOk (hmapStore_memOk hs))) (yields_next.2 hs)

theorem execUnscrubbedMark_yields {core slot granule : Nat} (hs : MemOk φ s.mem) :
    Yields φ (execUnscrubbedMark core slot granule s) :=
  ite_yields (yields_next.2 (settle_memOk (unscrubbedStore_memOk hs))) (yields_next.2 hs)

theorem execControlSpaceWrite_yields {core slot off : Nat} {v : Word} (hs : MemOk φ s.mem) :
    Yields φ (execControlSpaceWrite core slot off v s) :=
  ite_yields (yields_next.2 (settle_memOk (ctlWrite_memOk hs))) (yields_next.2 hs)

theorem setWeight_memOk {t : Nat} {v : Byte} (hs : MemOk φ s.mem) : MemOk φ (setWeight s t v).mem := devCtl_memOk hs

theorem execWeight_yields {t : Nat} {v : Byte} (hs : MemOk φ s.mem) :
    Yields φ (execWeight t v s) :=
  ite_yields (yields_next.2 (setWeight_memOk hs)) (yields_next.2 hs)

theorem releaseHeld_memOk {p : Nat} (hs : MemOk φ s.mem) :
    MemOk φ (releaseHeld s p).mem :=
  foldl_memOk sendFlit_memOk (setLink_memOk hs)

theorem takeDown_memOk {p : Nat} (hs : MemOk φ s.mem) :
    MemOk φ (takeDown s p).mem :=
  foldl_memOk tiError_memOk (siloAdd_memOk (setLink_memOk hs))

theorem tagFailed_memOk {p : Nat} (hs : MemOk φ s.mem) :
    MemOk φ (tagFailed s p).mem :=
  ite_memOk (takeDown_memOk hs) (setLink_memOk hs)

theorem setBank_memOk {slot : Nat} {kgen : Bool} {key : List Byte} (hs : MemOk φ s.mem) :
    MemOk φ (setBank s slot kgen key).mem :=
  hs

theorem tagPassed_memOk {f : Flit} (hs : MemOk φ s.mem) :
    MemOk φ (tagPassed s f).mem :=
  ite_memOk (setLink_memOk hs) (setBank_memOk (setLink_memOk hs))

theorem acceptFlit_memOk {k : State → State} {f : Flit} (hs : MemOk φ s.mem) (hk : ∀ {s}, MemOk φ s.mem → MemOk φ (k s).mem) :
    MemOk φ (acceptFlit s f k).mem :=
  ite_memOk (siloAdd_memOk hs) (ite_memOk (replyTo_memOk hs) (ite_memOk (replyTo_memOk (forgetNacks_memOk hs)) (hk hs)))

theorem receive_memOk {k : State → State} {f : Flit} (hs : MemOk φ s.mem) (hk : ∀ {s}, MemOk φ s.mem → MemOk φ (k s).mem) :
    MemOk φ (receive s f k).mem :=
  ite_memOk hs (ite_memOk (tagFailed_memOk hs) (acceptFlit_memOk (tagPassed_memOk hs) hk))

theorem opVV_yields {d a b : Reg} {f : VWord → VWord → VWord} (hs : MemOk φ s.mem) :
    Yields φ (opVV s d a b f) :=
  gate_yields hs (yields_next.2 (retire_memOk hs))

theorem opVU_yields {d a : Reg} {f : VWord → VWord} (hs : MemOk φ s.mem) :
    Yields φ (opVU s d a f) :=
  gate_yields hs (yields_next.2 (retire_memOk hs))

theorem vecInt_yields {t : ElemType} {m : BitVec 3} {d a b : Reg} {f : Nat → Nat → Nat → Nat} (hs : MemOk φ s.mem) :
    Yields φ (vecInt s t m d a b f) :=
  opVV_yields hs

theorem execVadd_yields {t : ElemType} {m : BitVec 3} {d a b : Reg} (hs : MemOk φ s.mem) :
    Yields φ (execVadd t m d a b s) :=
  vecInt_yields hs

theorem execVsub_yields {t : ElemType} {m : BitVec 3} {d a b : Reg} (hs : MemOk φ s.mem) :
    Yields φ (execVsub t m d a b s) :=
  vecInt_yields hs

theorem execVmul_yields {t : ElemType} {m : BitVec 3} {d a b : Reg} (hs : MemOk φ s.mem) :
    Yields φ (execVmul t m d a b s) :=
  vecInt_yields hs

theorem execVmin_yields {t : ElemType} {m : BitVec 3} {d a b : Reg} (hs : MemOk φ s.mem) :
    Yields φ (execVmin t m d a b s) :=
  vecInt_yields hs

theorem execVmax_yields {t : ElemType} {m : BitVec 3} {d a b : Reg} (hs : MemOk φ s.mem) :
    Yields φ (execVmax t m d a b s) :=
  vecInt_yields hs

theorem execVminu_yields {t : ElemType} {m : BitVec 3} {d a b : Reg} (hs : MemOk φ s.mem) :
    Yields φ (execVminu t m d a b s) :=
  vecInt_yields hs

theorem execVmaxu_yields {t : ElemType} {m : BitVec 3} {d a b : Reg} (hs : MemOk φ s.mem) :
    Yields φ (execVmaxu t m d a b s) :=
  vecInt_yields hs

theorem execVand_yields {t : ElemType} {m : BitVec 3} {d a b : Reg} (hs : MemOk φ s.mem) :
    Yields φ (execVand t m d a b s) :=
  vecInt_yields hs

theorem execVor_yields {t : ElemType} {m : BitVec 3} {d a b : Reg} (hs : MemOk φ s.mem) :
    Yields φ (execVor t m d a b s) :=
  vecInt_yields hs

theorem execVxor_yields {t : ElemType} {m : BitVec 3} {d a b : Reg} (hs : MemOk φ s.mem) :
    Yields φ (execVxor t m d a b s) :=
  vecInt_yields hs

theorem execVsll_yields {t : ElemType} {m : BitVec 3} {d a b : Reg} (hs : MemOk φ s.mem) :
    Yields φ (execVsll t m d a b s) :=
  vecInt_yields hs

theorem execVsrl_yields {t : ElemType} {m : BitVec 3} {d a b : Reg} (hs : MemOk φ s.mem) :
    Yields φ (execVsrl t m d a b s) :=
  vecInt_yields hs

theorem execVsra_yields {t : ElemType} {m : BitVec 3} {d a b : Reg} (hs : MemOk φ s.mem) :
    Yields φ (execVsra t m d a b s) :=
  vecInt_yields hs

theorem execVperm_yields {d a b : Reg} (hs : MemOk φ s.mem) : Yields φ (execVperm d a b s) := opVV_yields hs

theorem execVbcast_yields {d a : Reg} {w : BitVec 5} (hs : MemOk φ s.mem) :
    Yields φ (execVbcast d a w s) :=
  gate_yields hs (yields_next.2 (retire_memOk hs))

theorem execVmvVg_yields {d a : Reg} {n : BitVec 5} (hs : MemOk φ s.mem) :
    Yields φ (execVmvVg d a n s) :=
  gate_yields hs (yields_next.2 (retire_memOk hs))

theorem execVmvGv_yields {d a : Reg} {n : BitVec 5} (hs : MemOk φ s.mem) :
    Yields φ (execVmvGv d a n s) :=
  gate_yields hs (finishG_yields hs)

theorem execVsel_yields {d a b : Reg} (hs : MemOk φ s.mem) : Yields φ (execVsel d a b s) := opVV_yields hs

theorem execVcmp_yields {c : VCmpOp} {t : ElemType} {m a b : Reg} (hs : MemOk φ s.mem) :
    Yields φ (execVcmp c t m a b s) :=
  gate_yields hs (yields_next.2 (retire_memOk hs))

theorem execVred_yields {o : RedOp} {t : ElemType} {d a : Reg} (hs : MemOk φ s.mem) :
    Yields φ (execVred o t d a s) :=
  opVU_yields hs

theorem execSfckey_yields {d a : Reg} {k : BitVec 5} (hs : MemOk φ s.mem) :
    Yields φ (execSfckey d a k s) :=
  gate_yields hs (yields_next.2 (retire_memOk hs))

theorem sendTeam_memOk {r : Repart} {words : List Word} (hs : MemOk φ s.mem) :
    MemOk φ (sendTeam s r words).mem :=
  foldl_memOk (fun h => ite_memOk h (sendTracked_memOk h)) hs

theorem mapRepart_memOk {seq : Nat} {f : Repart → Repart} (hs : MemOk φ s.mem) : MemOk φ (mapRepart s seq f).mem := hs

theorem repartFails_memOk {r : Repart} {code : Nat} (hs : MemOk φ s.mem) :
    MemOk φ (repartFails s r code).mem :=
  ite_memOk hs (sendTeam_memOk (mapRepart_memOk hs))

theorem repartRuns_memOk {seq : Nat} (hs : MemOk φ s.mem) : MemOk φ (repartRuns s seq).mem := by
  unfold repartRuns
  split
  · exact hs
  · exact ite_memOk (mapRepart_memOk hs) hs

theorem repartWrite_memOk {r : Repart} {next : Repart → Repart} (hs : MemOk φ s.mem) : MemOk φ (repartWrite s r next).mem := by
  unfold repartWrite
  split
  · exact mapRepart_memOk hs
  · exact ite_memOk (deferTo_memOk (mapRepart_memOk hs)) (ite_memOk hs (settle_memOk (mapRepart_memOk (devWrite_memOk hs))))

theorem repartStep_memOk {seq : Nat} (hs : MemOk φ s.mem) : MemOk φ (repartStep s seq).mem := by
  unfold repartStep
  split
  · exact hs
  · exact ite_memOk (repartRuns_memOk hs) (ite_memOk (ite_memOk (mapRepart_memOk hs) (mapRepart_memOk hs)) (ite_memOk (ite_memOk
      (mapRepart_memOk hs) (mapRepart_memOk hs)) (ite_memOk (repartWrite_memOk hs) (repartWrite_memOk hs))))

theorem repartTakes_memOk {r : Repart} {ws : List Word} (hs : MemOk φ s.mem) :
    MemOk φ (repartTakes s r ws).mem :=
  ite_memOk hs (ite_memOk (mapRepart_memOk hs) (ite_memOk (ite_memOk (repartFails_memOk (mapRepart_memOk hs)) (mapRepart_memOk
    hs)) (ite_memOk (ite_memOk (repartFails_memOk (mapRepart_memOk hs)) (mapRepart_memOk hs)) (mapRepart_memOk hs))))

theorem setCalls_memOk {team pkg n : Nat} (hs : MemOk φ s.mem) : MemOk φ (setCalls s team pkg n).mem := hs

theorem tellSender_memOk {seq : Nat} {f : Flit} (hs : MemOk φ s.mem) : MemOk φ (tellSender s seq f).mem := by
  unfold tellSender
  split
  · exact hs
  · exact ite_memOk (setCalls_memOk (sendTracked_memOk hs)) hs

theorem repartFlit_memOk {r : Repart} {f : Flit} (hs : MemOk φ s.mem) :
    MemOk φ (repartFlit s r f).mem :=
  tellSender_memOk (repartTakes_memOk hs)

theorem teamError_memOk {r : Repart} {f : Flit} (hs : MemOk φ s.mem) :
    MemOk φ (teamError s r f).mem :=
  sendTracked_memOk (repartFails_memOk hs)

theorem keepEarly_memOk {f : Flit} (hs : MemOk φ s.mem) : MemOk φ (keepEarly s f).mem := hs

theorem execGleaner_yields {f : Flit} (hs : MemOk φ s.mem) : Yields φ (execGleaner f s) := by
  unfold execGleaner
  split_ifs
  · exact yields_next.2 hs
  · refine yields_next.2 (receive_memOk hs fun {s} h => ?_)
    have hr := replyTo_memOk (f := f) (status := 0) (words := []) h
    dsimp only
    split
    · split_ifs
      · exact hr
      · split
        · exact teamError_memOk hr
        · exact keepEarly_memOk hr
    · split
      · exact repartRuns_memOk (repartFlit_memOk hr)
      · exact keepEarly_memOk hr
      · exact hr

theorem gleanerLost_memOk {f : Flit} (hs : MemOk φ s.mem) : MemOk φ (gleanerLost s f).mem := by
  unfold gleanerLost
  split
  · exact hs
  · exact ite_memOk (repartFails_memOk hs) hs

theorem gleanerReset_memOk {pkg : Nat} (hs : MemOk φ s.mem) : MemOk φ (gleanerReset s pkg).mem := foldl_memOk repartFails_memOk hs

theorem acceptRepart_memOk {b : List Word} (hs : MemOk φ s.mem) : MemOk φ (acceptRepart s b).mem := by
  have hr := jobDone_memOk (foldl_memOk (F := fun s r => reach s (linesOf r.1 r.2)) (l := blkReads s b) reach_memOk hs)
  unfold acceptRepart
  dsimp only
  refine ite_memOk (ite_memOk hr (foldl_memOk setCalls_memOk hr)) ?_
  split
  · exact defer_memOk (repartFails_memOk (ite_memOk hr (foldl_memOk setCalls_memOk hr)))
  · refine ite_memOk (repartFails_memOk (ite_memOk hr (foldl_memOk setCalls_memOk hr))) (foldl_memOk (fun {s f} h => ?_)
      (foldl_memOk sendTeam_memOk (ite_memOk hr (foldl_memOk setCalls_memOk hr))))
    split
    · exact repartFlit_memOk h
    · exact h

theorem execRpart_yields {d b : Reg} (hs : MemOk φ s.mem) :
    Yields φ (execRpart d b s) :=
  gate_yields hs (alone_yields hs (ite_yields (trap_yields hs) (checked_yields hs (ite_yields (trap_yields hs) (ite_yields
    (trap_yields hs) (ite_yields (trap_yields hs) (ite_yields (trap_yields hs) (ite_yields (trap_yields hs) (ite_yields
    (yields_next.2 hs) (finishAloneG_yields (acceptRepart_memOk hs)))))))))))

theorem execRpst_yields {d h : Reg} (hs : MemOk φ s.mem) :
    Yields φ (execRpst d h s) :=
  gate_yields hs (ite_yields (trap_yields hs) (finishG_yields hs))

theorem execRepartitionComplete_yields {seq : Nat} (hs : MemOk φ s.mem) : Yields φ (execRepartitionComplete seq s) := by
  unfold execRepartitionComplete
  (repeat' split)
  · exact yields_next.2 hs
  · exact ite_yields (yields_next.2 hs) (yields_next.2 (ite_memOk (deferTo_memOk (mapRepart_memOk hs)) (settle_memOk
      (devWord_memOk (mapRepart_memOk hs)))))
  · exact ite_yields (yields_next.2 hs) (yields_next.2 (ite_memOk (deferTo_memOk (mapRepart_memOk hs)) (settle_memOk
      (devWord_memOk (mapRepart_memOk hs)))))
  · exact ite_yields (yields_next.2 hs) (yields_next.2 hs)

theorem cancelBags_memOk {ti n : Nat} (hs : MemOk φ s.mem) : MemOk φ (cancelBags s ti n).1.mem := hs

theorem cancelSpill_memOk {core ti n : Nat} (hs : MemOk φ s.mem) : MemOk φ (cancelSpill s core ti n).1.mem := by
  unfold cancelSpill
  dsimp only
  split
  · exact hs
  · exact foldl_memOk spillPut_memOk (setSpill_memOk hs)

theorem cancelSpills_memOk {ti n : Nat} (hs : MemOk φ s.mem) : MemOk φ (cancelSpills s ti n).1.mem := by
  unfold cancelSpills
  refine foldl_fst_memOk (fun {x a} h => ?_) hs
  exact cancelSpill_memOk h

theorem dropTasks_memOk {gone : Task → Bool} (hs : MemOk φ s.mem) : MemOk φ (dropTasks s gone).mem := hs

theorem cancelGangs_memOk {gone : GangReq → Bool} (hs : MemOk φ s.mem) : MemOk φ (cancelGangs s gone).mem := hs

theorem cancelWork_memOk {l : Launch} (hs : MemOk φ s.mem) : MemOk φ (cancelWork s l).1.mem := by
  unfold cancelWork
  extract_lets _ _ _ _ _ _ s1
  have h1 : MemOk φ s1.mem := mapLaunch_memOk hs
  exact foldl_memOk actLower_memOk (cancelSpills_memOk (cancelBags_memOk (cancelGangs_memOk (dropTasks_memOk h1))))

theorem clearRange_memOk {base size : Nat} (hs : MemOk φ s.mem) : MemOk φ (clearRange s base size).mem :=
  observe_memOk (publish_memOk hs.filter)

theorem removeSeal_memOk {e : HEntry} (hs : MemOk φ s.mem) :
    MemOk φ (removeSeal s e).mem :=
  ite_memOk hs (dropLines_memOk (devCtl_memOk (devCtl_memOk hs)))

theorem removeRegion_memOk {e : HEntry} (hs : MemOk φ s.mem) :
    MemOk φ (removeRegion s e).mem :=
  forgetData_memOk (devCtl_memOk (clearRange_memOk (removeSeal_memOk hs)))

theorem dropTenant_memOk {t : Nat} (hs : MemOk φ s.mem) : MemOk φ (dropTenant s t).mem := by
  unfold dropTenant
  dsimp only
  exact cancelGangs_memOk (dropTasks_memOk (foldl_memOk releaseTokens_memOk hs))

theorem tearFinish_memOk {t : Nat} (hs : MemOk φ s.mem) : MemOk φ (tearFinish s t).mem := by
  unfold tearFinish
  dsimp only
  exact devCtl_memOk (foldl_memOk devCtl_memOk (foldl_memOk removeRegion_memOk (dropTenant_memOk hs)))

theorem mapTear_memOk {t : Nat} {f : Teardown → Teardown} (hs : MemOk φ s.mem) : MemOk φ (mapTear s t f).mem := hs

theorem tearAdvance_memOk {t : Nat} (hs : MemOk φ s.mem) : MemOk φ (tearAdvance s t).mem := by
  unfold tearAdvance
  dsimp only
  (repeat' split)
  · exact hs
  · exact hs
  · exact foldl_memOk sendTracked_memOk (mapTear_memOk hs)
  · exact tearFinish_memOk hs
  · exact tearFinish_memOk hs
  · exact tearFinish_memOk (foldl_memOk sendTracked_memOk (mapTear_memOk hs))
  · exact hs
  · exact hs
  · exact foldl_memOk sendTracked_memOk (mapTear_memOk hs)

theorem tearAll_memOk (hs : MemOk φ s.mem) : MemOk φ (tearAll s).mem := foldl_memOk tearAdvance_memOk hs

theorem discardFlits_memOk {src : Nat → Bool} {ti : Nat} (hs : MemOk φ s.mem) :
    MemOk φ (discardFlits s src ti).mem :=
  foldl_memOk replyTo_memOk (forgetNacks_memOk hs)

theorem tearBegin_memOk {t : Nat} (hs : MemOk φ s.mem) : MemOk φ (tearBegin s t).mem := by
  unfold tearBegin
  refine settle_memOk (tearAdvance_memOk ?_)
  generalize e : discardFlits _ _ t = u
  have h1 : MemOk φ u.mem := e ▸ discardFlits_memOk (haltTenant_memOk (setTiState_memOk hs))
  exact h1

theorem takeFlit_yields {k : State → State} {op : Nat} {f : Flit} (hs : MemOk φ s.mem) (hk : ∀ {s}, MemOk φ s.mem → MemOk φ (k
    s).mem) :
    Yields φ (takeFlit s op f k) :=
  ite_yields (yields_next.2 (settle_memOk (observe_memOk (receive_memOk hs hk)))) (yields_next.2 hs)

theorem execLoad_yields {f : Flit} (hs : MemOk φ s.mem) : Yields φ (execLoad f s) := takeFlit_yields hs performAccess_memOk

theorem execStore_yields {f : Flit} (hs : MemOk φ s.mem) : Yields φ (execStore f s) := takeFlit_yields hs arrivePosted_memOk

theorem execAtomic_yields {f : Flit} (hs : MemOk φ s.mem) : Yields φ (execAtomic f s) := takeFlit_yields hs performAccess_memOk

theorem execTagRead_yields {f : Flit} (hs : MemOk φ s.mem) : Yields φ (execTagRead f s) := takeFlit_yields hs performAccess_memOk

theorem execTagWrite_yields {f : Flit} (hs : MemOk φ s.mem) : Yields φ (execTagWrite f s) := takeFlit_yields hs arrivePosted_memOk

theorem takeNetMsg_memOk {src dst : Nat} (hs : MemOk φ s.mem) : MemOk φ (takeNetMsg s src dst).mem := by
  unfold takeNetMsg
  split
  · exact hs
  · dsimp only
    split_ifs
    · exact hs
    · split
      next e =>
        have h := deliverMsg_memOk hs _ e
        exact lowerCounter_memOk h
      · exact hs
    · split
      next e =>
        have h := deliverMsg_memOk hs _ e
        exact h
      · exact hs

theorem msgSplit_memOk {src dst n : Nat} (hs : MemOk φ s.mem) : MemOk φ (msgSplit s src dst n).mem := hs

theorem execMessageArrival_yields {m : MsgSource} (hs : MemOk φ s.mem) : Yields φ (execMessageArrival m s) := by
  cases m with
  | fabric f => exact takeFlit_yields hs arrivePosted_memOk
  | inPackage src dst => exact yields_next.2 (settle_memOk (observe_memOk (takeNetMsg_memOk hs)))

theorem execMessageResend_yields {src dst : Nat} (hs : MemOk φ s.mem) : Yields φ (execMessageResend src dst s) := yields_next.2 hs

theorem execLaunch_yields {f : Flit} (hs : MemOk φ s.mem) :
    Yields φ (execLaunch f s) :=
  takeFlit_yields hs (fun h => ite_memOk (replyTo_memOk h) (ite_memOk (replyTo_memOk h) (replyTo_memOk h)))

theorem execCancel_yields {f : Flit} (hs : MemOk φ s.mem) : Yields φ (execCancel f s) := by
  refine takeFlit_yields hs fun {s} h => ?_
  have hr := replyTo_memOk (f := f) (status := 0) (words := []) h
  dsimp only
  split
  · exact hostRecord_memOk hr
  · exact hostRecord_memOk (cancelWork_memOk hr)

theorem answerHeld_memOk {key reqid : Nat} {h : Hold} (hs : MemOk φ s.mem) : MemOk φ (answerHeld s key reqid h).mem := by
  refine onTask_memOk hs fun {s} hs => ?_
  split_ifs
  · exact hs
  · dsimp only
    split_ifs
    · exact hs
    · split
      · exact devWrite_memOk (modCur_memOk hs)
      · exact modCur_memOk hs

theorem installCopy_memOk {r : OutReq} {bs : List Byte} (hs : MemOk φ s.mem) : MemOk φ (installCopy s r bs).mem := ite_memOk hs hs

theorem takeAnswer_memOk {r : OutReq} {status : Nat} {words : List Word} (hs : MemOk φ s.mem) :
    MemOk φ (takeAnswer s r status words).mem := by
  unfold takeAnswer
  split
  · exact copyReply_memOk hs
  · exact answerHeld_memOk (ite_memOk (installCopy_memOk hs) hs)
  · exact ite_memOk (ite_memOk (gleanerLost_memOk hs) hs) (ite_memOk (mapTear_memOk hs) (ite_memOk (ite_memOk (mapLaunch_memOk hs)
      hs) (ite_memOk hs (ite_memOk (deferTo_memOk (ite_memOk (lowerCounter_memOk hs) hs)) (ite_memOk (lowerCounter_memOk hs)
      hs)))))

theorem mapReq_memOk {core reqid : Nat} {f : OutReq → OutReq} (hs : MemOk φ s.mem) : MemOk φ (mapReq s core reqid f).mem := hs

theorem takeReport_memOk {f : Flit} (hs : MemOk φ s.mem) :
    MemOk φ (takeReport s f).mem :=
  ite_memOk (mapTasks_memOk hs) (siloAdd_memOk hs)

theorem execReply_yields {f : Flit} (hs : MemOk φ s.mem) : Yields φ (execReply f s) := by
  refine takeFlit_yields hs fun {s} h => ?_
  split
  · exact takeReport_memOk h
  · exact ite_memOk (siloAdd_memOk h) (ite_memOk (mapReq_memOk h) (tearAll_memOk (takeAnswer_memOk h)))

theorem execNackWaitRetry_yields {core reqid : Nat} (hs : MemOk φ s.mem) : Yields φ (execNackWaitRetry core reqid s) := by
  unfold execNackWaitRetry
  (repeat' split)
  · exact yields_next.2 hs
  · exact yields_next.2 hs
  · exact yields_next.2 hs
  · exact yields_next.2 (sendFlit_memOk (mapReq_memOk hs))

theorem execReplyTimeout_yields {core reqid : Nat} (hs : MemOk φ s.mem) : Yields φ (execReplyTimeout core reqid s) := by
  unfold execReplyTimeout
  split
  · exact yields_next.2 hs
  · exact ite_yields (yields_next.2 (settle_memOk (observe_memOk (tearAll_memOk (takeAnswer_memOk hs))))) (yields_next.2 hs)

theorem execIncarnationAnnouncement_yields {f : Flit} (hs : MemOk φ s.mem) :
    Yields φ (execIncarnationAnnouncement f s) :=
  takeFlit_yields hs (fun h => tearAll_memOk (gleanerReset_memOk (foldl_memOk takeAnswer_memOk h)))

theorem execIncarnationFence_yields {f : Flit} (hs : MemOk φ s.mem) :
    Yields φ (execIncarnationFence f s) :=
  takeFlit_yields hs (fun h => replyTo_memOk (discardFlits_memOk h))

theorem execRekeyRequest_yields {port : Nat} (hs : MemOk φ s.mem) :
    Yields φ (execRekeyRequest port s) :=
  ite_yields (yields_next.2 (setLink_memOk hs)) (yields_next.2 hs)

theorem loadLinkKeys_memOk {port txDir rxDir : Nat} {txBank rxBank : Bool} (hs : MemOk φ s.mem) :
    MemOk φ (loadLinkKeys s port txDir rxDir txBank rxBank).mem :=
  nextFresh_memOk (setBank_memOk (setBank_memOk hs))

theorem clearIdle_memOk {port : Nat} (hs : MemOk φ s.mem) : MemOk φ (clearIdle s port).mem := setBank_memOk (setBank_memOk hs)

theorem mgmtArrives_memOk {f : Flit} (hs : MemOk φ s.mem) :
    MemOk φ (mgmtArrives s f).mem :=
  ite_memOk (receive_memOk hs (fun h => ite_memOk (modMgmt_memOk h) h)) hs

theorem execLinkBringUp_yields {port txDir rxDir : Nat} (hs : MemOk φ s.mem) :
    Yields φ (execLinkBringUp port txDir rxDir s) :=
  ite_yields (yields_next.2 (releaseHeld_memOk (setLink_memOk (clearIdle_memOk (loadLinkKeys_memOk hs))))) (yields_next.2 hs)

theorem fence_yields {after : State → State} {cs : List WaitClass} (hs : MemOk φ s.mem) (hafter : ∀ {s}, MemOk φ s.mem → MemOk φ
    (after s).mem) :
    Yields φ (fence s cs after) := by
  unfold fence
  dsimp only
  (repeat' split)
  · exact yields_next.2 hs
  · exact failTrap_yields hs
  · exact yields_next.2 (retire_memOk (hafter hs))

theorem dropFarCopies_memOk (hs : MemOk φ s.mem) : MemOk φ (dropFarCopies s).mem := hs

theorem execFenceC_yields (hs : MemOk φ s.mem) : Yields φ (execFenceC s) := fence_yields hs id

theorem execFenceD_yields (hs : MemOk φ s.mem) : Yields φ (execFenceD s) := fence_yields hs id

theorem execFenceP_yields (hs : MemOk φ s.mem) : Yields φ (execFenceP s) := fence_yields hs id

theorem execFenceS_yields (hs : MemOk φ s.mem) : Yields φ (execFenceS s) := fence_yields hs dropFarCopies_memOk

theorem execCwait_yields {n : BitVec 5} (hs : MemOk φ s.mem) :
    Yields φ (execCwait n s) :=
  awaitClass_yields hs (yields_next.2 (retire_memOk hs))

theorem rangeChecked_yields {k : Out} {b n : Word} (hs : MemOk φ s.mem) (hk : Yields φ k) : Yields φ (rangeChecked s b n k) := by
  unfold rangeChecked
  (repeat' split)
  · exact trap_yields hs
  · exact ite_yields (trap_yields hs) (ite_yields (trap_yields hs) (trap_yields hs))
  · exact ite_yields (trap_yields hs) (ite_yields (trap_yields hs) hk)

theorem setWritebacks_memOk {core t n : Nat} (hs : MemOk φ s.mem) : MemOk φ (setWritebacks s core t n).mem := hs

theorem writeBack_memOk {core t : Nat} {start : Bool} (hs : MemOk φ s.mem) :
    MemOk φ (writeBack s core t start).mem :=
  setWritebacks_memOk hs

theorem execDwb_yields {b l : Reg} (hs : MemOk φ s.mem) :
    Yields φ (execDwb b l s) :=
  gate_yields hs (ite_yields (yields_next.2 (retire_memOk hs)) (rangeChecked_yields hs (ite_yields (ite_yields (yields_next.2 hs)
    (yields_next.2 (retire_memOk hs))) (ite_yields (yields_next.2 hs) (ite_yields (yields_next.2 (retire_memOk hs)) (yields_next.2
    (modCur_memOk (foldl_memOk writeBack_memOk hs))))))))

theorem execIcinv_yields {b l : Reg} (hs : MemOk φ s.mem) :
    Yields φ (execIcinv b l s) :=
  gate_yields hs (ite_yields (yields_next.2 (retire_memOk hs)) (rangeChecked_yields hs (ite_yields (yields_next.2 hs)
    (yields_next.2 (retire_memOk hs)))))

theorem execIcinvComplete_yields {core slot : Nat} (hs : MemOk φ s.mem) : Yields φ (execIcinvComplete core slot s) := by
  unfold execIcinvComplete
  dsimp only
  (repeat' split)
  · exact yields_next.2 hs
  · exact yields_next.2 hs
  · exact yields_next.2 (onTask_memOk (dropLines_memOk hs) modCur_memOk)

theorem execFbar_yields (hs : MemOk φ s.mem) :
    Yields φ (execFbar s) :=
  ite_yields (yields_next.2 (retire_memOk hs)) (yields_next.2 hs)

theorem sealRegion_memOk {e : HEntry} {c : Nat} (hs : MemOk φ s.mem) :
    MemOk φ (sealRegion s e c).mem :=
  settle_memOk (devCtl_memOk (devCtl_memOk hs))

theorem execSeal_yields {h b l : Reg} (hs : MemOk φ s.mem) : Yields φ (execSeal h b l s) := by
  unfold execSeal
  dsimp only
  split
  · exact gate_yields hs (alone_yields hs (trap_yields hs))
  · exact gate_yields hs (alone_yields hs (ite_yields (trap_yields hs) (ite_yields (trap_yields hs) (ite_yields (trap_yields hs)
      (ite_yields (trap_yields hs) (ite_yields (trap_yields hs) (finishAloneG_yields (sealRegion_memOk hs))))))))

theorem execUnseal_yields {h : Reg} (hs : MemOk φ s.mem) : Yields φ (execUnseal h s) := by
  unfold execUnseal
  dsimp only
  (repeat' split)
  · exact gate_yields hs (alone_yields hs (trap_yields hs))
  · exact gate_yields hs (alone_yields hs (trap_yields hs))
  · exact gate_yields hs (alone_yields hs (trap_yields hs))
  · exact gate_yields hs (alone_yields hs (yields_next.2 (settle_memOk (retireAlone_memOk (dropLines_memOk (devCtl_memOk
      (devCtl_memOk hs)))))))
  · exact gate_yields hs (alone_yields hs (yields_next.2 (settle_memOk (retireAlone_memOk (devCtl_memOk (devCtl_memOk hs))))))

theorem admitting_eq_ok {α β : Type} {x : Except AdmitError α} {k : α → Except AdmitError β} {r : β} :
    admitting x k = .ok r ↔ ∃ a, x = .ok a ∧ k a = .ok r := by
  cases x <;> simp [admitting]

/- `hEntryOf` is made opaque: the words it is given hold sums with 2^63, which the kernel must not evaluate. -/
theorem newRegion_memOk {t log kind pool : Nat} {h : Homing} {base : Option Nat} {r : State × Nat × Nat} (hs : MemOk φ s.mem)
    (e : newRegion s t log kind pool h base = .ok r) : MemOk φ r.1.mem := by
  unfold newRegion at e
  obtain ⟨entryOf, hentry⟩ : ∃ f, hEntryOf = f := ⟨_, rfl⟩
  rw [hentry] at e
  split at e
  · extract_lets w0 w1 at e
    split at e
    · cases e
    split at e
    · cases e
    · rw [← Except.ok.inj e]
      exact devCtl_memOk (devCtl_memOk hs)
  · cases e

theorem placeRegions_memOk {t n i : Nat} {b : List Byte} {r : State × List Nat} (hs : MemOk φ s.mem)
    (e : placeRegions t b n i s = .ok r) : MemOk φ r.1.mem := by
  induction n generalizing s i r with
  | zero => cases e; exact hs
  | succ n ih =>
    rw [placeRegions, admitting_eq_ok] at e
    obtain ⟨x, hx, e⟩ := e
    obtain ⟨y, hy, e⟩ := admitting_eq_ok.1 e
    rw [← Except.ok.inj e]
    exact ih (r := y) (newRegion_memOk hs hx) hy

theorem placePools_succ (t : Nat) (b : List Byte) (n i : Nat) (s : State) :
    placePools t b (n + 1) i s =
      match (List.range 1024).find? fun k => (poolBase s t k).isNone with
      | none => .error (6, noIndex)
      | some k =>
        admitting (newRegion s t (imgPool b i).1 1 k (imgHome b) none) fun x =>
          admitting (placePools t b n (i + 1) x.1) fun y => .ok (y.1, (k, x.2.2) :: y.2) := by
  set_option maxRecDepth 4096 in rfl

theorem placePools_memOk {t n i : Nat} {b : List Byte} {r : State × List (Nat × Nat)} (hs : MemOk φ s.mem)
    (e : placePools t b n i s = .ok r) : MemOk φ r.1.mem := by
  induction n generalizing s i r with
  | zero => cases e; exact hs
  | succ n ih =>
    rw [placePools_succ] at e
    split at e
    · cases e
    · obtain ⟨x, hx, e⟩ := admitting_eq_ok.1 e
      obtain ⟨y, hy, e⟩ := admitting_eq_ok.1 e
      rw [← Except.ok.inj e]
      exact ih (r := y) (newRegion_memOk hs hx) hy

theorem placeData_memOk {t : Nat} {b : List Byte} {r : State × Nat} (hs : MemOk φ s.mem)
    (e : placeData s t b = .ok r) : MemOk φ r.1.mem := by
  unfold placeData at e
  dsimp only at e
  split at e
  · cases e; exact hs
  · rw [admitting_eq_ok] at e
    obtain ⟨x, hx, e⟩ := e
    cases e
    exact newRegion_memOk hs hx

theorem placeAll_memOk {t : Nat} {b : List Byte} {r : State × Folded × List (Nat × Nat)} (hs : MemOk φ s.mem)
    (e : placeAll s t b = .ok r) : MemOk φ r.1.mem := by
  rw [placeAll, admitting_eq_ok] at e
  obtain ⟨x, hx, e⟩ := e
  rw [admitting_eq_ok] at e
  obtain ⟨d, hd, e⟩ := e
  rw [admitting_eq_ok] at e
  obtain ⟨p, hp, e⟩ := e
  cases e
  exact placePools_memOk (placeData_memOk (placeRegions_memOk hs hx) hd) hp

theorem placeText_memOk {t : Nat} {e : HEntry} {text : List Byte} (hs : MemOk φ s.mem) :
    MemOk φ (placeText s t e text).1.mem :=
  sealRegion_memOk (dropLines_memOk (devWrite_memOk hs))

theorem writeImgrec_memOk {k : Nat} {b : List Byte} {n : Native} {d : List Byte} (hs : MemOk φ s.mem) :
    MemOk φ (writeImgrec s k b n d).mem :=
  foldl_memOk devCtl_memOk hs

theorem installRule_memOk {t ta tb : Nat} {w : Word} {r : State} (hs : MemOk φ s.mem) (e : installRule s t ta tb w = .ok r) :
    MemOk φ r.mem := by
  unfold installRule at e
  dsimp only at e
  split at e
  · cases e; exact devCtl_memOk hs
  · split at e
    · cases e
    · cases e; exact devCtl_memOk (devCtl_memOk hs)

theorem installRules_memOk {t n i : Nat} {b : List Byte} {word : Nat → Word} {r : State} (hs : MemOk φ s.mem)
    (e : installRules t b word n i s = .ok r) : MemOk φ r.mem := by
  induction n generalizing s i with
  | zero => cases e; exact hs
  | succ n ih =>
    rw [installRules, admitting_eq_ok] at e
    obtain ⟨x, hx, e⟩ := e
    exact ih (installRule_memOk hs hx) e

theorem installHandlers_memOk {t : Nat} {b : List Byte} {word : Nat → Word} (hs : MemOk φ s.mem) :
    MemOk φ (installHandlers s t b word).mem :=
  foldl_memOk devCtl_memOk hs

theorem writePool_memOk {b : List Byte} {k base : Nat} {netd : Word} (hs : MemOk φ s.mem) :
    MemOk φ (writePool s b k base netd).mem :=
  devWrite_memOk hs

theorem extendMeas_memOk {t : Nat} {d : List Byte} (hs : MemOk φ s.mem) :
    MemOk φ (extendMeas s t d).mem :=
  foldl_memOk devCtl_memOk hs

theorem recordImage_memOk {i : Image} (hs : MemOk φ s.mem) : MemOk φ (recordImage s i).mem := hs

theorem buildImage_memOk {t : Nat} {b : List Byte} {ds : List Word} {r : State × Image} (hs : MemOk φ s.mem)
    (e : buildImage s t b ds = .ok r) : MemOk φ r.1.mem := by
  rw [buildImage, admitting_eq_ok] at e
  obtain ⟨p, hp, e⟩ := e
  rw [admitting_eq_ok] at e
  obtain ⟨x, hx, e⟩ := e
  have hx := newRegion_memOk (placeAll_memOk hs hp) hx
  split at e
  · cases e
  · rw [admitting_eq_ok] at e
    obtain ⟨u, hu, e⟩ := e
    have hu := installRules_memOk (placeText_memOk hx) hu
    rw [← Except.ok.inj e]
    exact recordImage_memOk (raiseRepgen_memOk (extendMeas_memOk (writeImgrec_memOk (devWrite_memOk
      (foldl_memOk writePool_memOk (releaseEnabled_memOk (installHandlers_memOk hu)))))))

theorem admitImage_memOk {t ilen : Nat} {a : Word} {ds : List Word} {r : State × Image} (hs : MemOk φ s.mem)
    (e : admitImage s t a ilen ds = .ok r) : MemOk φ r.1.mem := by
  unfold admitImage at e
  split_ifs at e
  split at e
  · cases e
  · split at e
    · cases e
    · split at e
      · cases e
      next hb => cases e; exact buildImage_memOk hs hb

theorem moreReports_memOk {n t num : Nat} {h : BitVec 16} {ws : List Word} (hs : MemOk φ s.mem) :
    MemOk φ (moreReports n s t num h ws).mem := by
  induction n generalizing s ws with
  | zero => exact hs
  | succ n ih => exact ite_memOk hs (ih (hostRecord_memOk hs))

theorem reportAdmitted_memOk {num : Nat} {i : Image} (hs : MemOk φ s.mem) :
    MemOk φ (reportAdmitted s num i).mem :=
  moreReports_memOk (hostRecord_memOk hs)

theorem reportRefused_memOk {t num : Nat} {e : AdmitError} {b : List Byte} (hs : MemOk φ s.mem) :
    MemOk φ (reportRefused s t num e b).mem :=
  ite_memOk (siloAdd_memOk (hostRecord_memOk hs)) (hostRecord_memOk hs)

theorem refuseLaunch_memOk {t num : Nat} (hs : MemOk φ s.mem) : MemOk φ (refuseLaunch s t num).mem := mapLaunch_memOk hs

/-- One initial pair of a net goes to the bags. -/
theorem pushEntry_memOk {t base num : Nat} {e : Word} (hs : MemOk φ s.mem) :
    MemOk φ (let r := pushPair s none t base num e
      if r.2 then bareFault r.1 t num 0x0A e else r.1).mem :=
  ite_memOk (bareFault_memOk (pushPair_memOk hs)) (pushPair_memOk hs)

theorem startNet_memOk {t num k pool : Nat} {i : Image} {d : Word} (hs : MemOk φ s.mem) :
    MemOk φ (startNet s t num i k pool d).mem := by
  unfold startNet
  split
  · exact hs
  · extract_lets s1 s2 s3
    have h1 : MemOk φ s1.mem := devWord_memOk (devWord_memOk hs)
    have h2 : MemOk φ s2.mem := ite_memOk h1 (devWord_memOk (devWord_memOk h1))
    have h3 : MemOk φ s3.mem := foldl_memOk (fun h => pushEntry_memOk h) h2
    clear_value s3
    split
    · exact h3
    · exact ite_memOk (netComplete_memOk h3) h3

theorem startNets_memOk {t num : Nat} {i : Image} {ds : List Word} (hs : MemOk φ s.mem) :
    MemOk φ (startNets s t num i ds).mem :=
  foldl_memOk startNet_memOk (mapLaunch_memOk hs)

theorem startLaunch_memOk {t num : Nat} {a : Word} {handle : BitVec 16} {i : Option Image} {imgd : Option Word} (hs : MemOk φ
    s.mem) :
    MemOk φ (startLaunch s t num a handle i imgd).mem := by
  unfold startLaunch
  split
  · exact ite_memOk (refuseLaunch_memOk hs) (enqueue_memOk (mapLaunch_memOk hs))
  · exact ite_memOk (refuseLaunch_memOk hs) (enqueue_memOk (startNets_memOk (mapLaunch_memOk hs)))

theorem admitRecord_memOk {r : LaunchReq} (hs : MemOk φ s.mem) : MemOk φ (admitRecord s r).mem := by
  unfold admitRecord
  dsimp only
  refine ite_memOk (mapLaunch_memOk hs) (ite_memOk (refuseLaunch_memOk hs) (ite_memOk
    (ite_memOk (refuseLaunch_memOk hs) (startLaunch_memOk hs)) ?_))
  split
  · exact refuseLaunch_memOk (reportRefused_memOk hs)
  next u i e =>
    have h : MemOk φ (reportAdmitted u r.number i).mem := reportAdmitted_memOk (admitImage_memOk (r := (u, i)) hs e)
    exact ite_memOk (ite_memOk (refuseLaunch_memOk h) (mapLaunch_memOk h)) (startLaunch_memOk h)

theorem execAdmission_yields (hs : MemOk φ s.mem) : Yields φ (execAdmission s) := by
  unfold execAdmission
  split
  · exact yields_next.2 hs
  · exact yields_next.2 (settle_memOk (observe_memOk (admitRecord_memOk hs)))

theorem execLaunchCompletion_yields {ti number : Nat} (hs : MemOk φ s.mem) : Yields φ (execLaunchCompletion ti number s) := by
  unfold execLaunchCompletion
  split
  · exact yields_next.2 hs
  · exact ite_yields (yields_next.2 (hostRecord_memOk hs)) (yields_next.2 hs)

end Sys2Proof.Machine
end

section
/-! PROOFS. Memory stays canonical: attestation, boot, the crypto block, loads, nets and moves. -/
namespace Sys2Proof.Machine
variable {φ : Prop} {s : State}

theorem execAdd_yields {d a b : Reg} (hs : MemOk φ s.mem) : Yields φ (execAdd d a b s) := opGG_yields hs

theorem execSub_yields {d a b : Reg} (hs : MemOk φ s.mem) : Yields φ (execSub d a b s) := opGG_yields hs

theorem execAddw_yields {d a b : Reg} (hs : MemOk φ s.mem) : Yields φ (execAddw d a b s) := opGG_yields hs

theorem execSubw_yields {d a b : Reg} (hs : MemOk φ s.mem) : Yields φ (execSubw d a b s) := opGG_yields hs

theorem execAddi_yields {d a : Reg} {i : BitVec 12} (hs : MemOk φ s.mem) : Yields φ (execAddi d a i s) := opG_yields hs

theorem execAddiw_yields {d a : Reg} {i : BitVec 12} (hs : MemOk φ s.mem) : Yields φ (execAddiw d a i s) := opG_yields hs

theorem execAnd_yields {d a b : Reg} (hs : MemOk φ s.mem) : Yields φ (execAnd d a b s) := opGG_yields hs

theorem execOr_yields {d a b : Reg} (hs : MemOk φ s.mem) : Yields φ (execOr d a b s) := opGG_yields hs

theorem execXor_yields {d a b : Reg} (hs : MemOk φ s.mem) : Yields φ (execXor d a b s) := opGG_yields hs

theorem execAndi_yields {d a : Reg} {i : BitVec 12} (hs : MemOk φ s.mem) : Yields φ (execAndi d a i s) := opG_yields hs

theorem execOri_yields {d a : Reg} {i : BitVec 12} (hs : MemOk φ s.mem) : Yields φ (execOri d a i s) := opG_yields hs

theorem execXori_yields {d a : Reg} {i : BitVec 12} (hs : MemOk φ s.mem) : Yields φ (execXori d a i s) := opG_yields hs

theorem execSlt_yields {d a b : Reg} (hs : MemOk φ s.mem) : Yields φ (execSlt d a b s) := opGG_yields hs

theorem execSltu_yields {d a b : Reg} (hs : MemOk φ s.mem) : Yields φ (execSltu d a b s) := opGG_yields hs

theorem execSlti_yields {d a : Reg} {i : BitVec 12} (hs : MemOk φ s.mem) : Yields φ (execSlti d a i s) := opG_yields hs

theorem execSltiu_yields {d a : Reg} {i : BitVec 12} (hs : MemOk φ s.mem) : Yields φ (execSltiu d a i s) := opG_yields hs

theorem execSll_yields {d a b : Reg} (hs : MemOk φ s.mem) : Yields φ (execSll d a b s) := opGG_yields hs

theorem execSrl_yields {d a b : Reg} (hs : MemOk φ s.mem) : Yields φ (execSrl d a b s) := opGG_yields hs

theorem execSra_yields {d a b : Reg} (hs : MemOk φ s.mem) : Yields φ (execSra d a b s) := opGG_yields hs

theorem execSllw_yields {d a b : Reg} (hs : MemOk φ s.mem) : Yields φ (execSllw d a b s) := opGG_yields hs

theorem execSrlw_yields {d a b : Reg} (hs : MemOk φ s.mem) : Yields φ (execSrlw d a b s) := opGG_yields hs

theorem execSraw_yields {d a b : Reg} (hs : MemOk φ s.mem) : Yields φ (execSraw d a b s) := opGG_yields hs

theorem execSlli_yields {d a : Reg} {k : BitVec 6} (hs : MemOk φ s.mem) : Yields φ (execSlli d a k s) := opG_yields hs

theorem execSrli_yields {d a : Reg} {k : BitVec 6} (hs : MemOk φ s.mem) : Yields φ (execSrli d a k s) := opG_yields hs

theorem execSrai_yields {d a : Reg} {k : BitVec 6} (hs : MemOk φ s.mem) : Yields φ (execSrai d a k s) := opG_yields hs

theorem execSlliw_yields {d a : Reg} {k : BitVec 5} (hs : MemOk φ s.mem) : Yields φ (execSlliw d a k s) := opG_yields hs

theorem execSrliw_yields {d a : Reg} {k : BitVec 5} (hs : MemOk φ s.mem) : Yields φ (execSrliw d a k s) := opG_yields hs

theorem execSraiw_yields {d a : Reg} {k : BitVec 5} (hs : MemOk φ s.mem) : Yields φ (execSraiw d a k s) := opG_yields hs

theorem execMul_yields {d a b : Reg} (hs : MemOk φ s.mem) : Yields φ (execMul d a b s) := opGG_yields hs

theorem execMulh_yields {d a b : Reg} (hs : MemOk φ s.mem) : Yields φ (execMulh d a b s) := opGG_yields hs

theorem execMulhsu_yields {d a b : Reg} (hs : MemOk φ s.mem) : Yields φ (execMulhsu d a b s) := opGG_yields hs

theorem execMulhu_yields {d a b : Reg} (hs : MemOk φ s.mem) : Yields φ (execMulhu d a b s) := opGG_yields hs

theorem execMulw_yields {d a b : Reg} (hs : MemOk φ s.mem) : Yields φ (execMulw d a b s) := opGG_yields hs

theorem execDiv_yields {d a b : Reg} (hs : MemOk φ s.mem) : Yields φ (execDiv d a b s) := opGG_yields hs

theorem execDivu_yields {d a b : Reg} (hs : MemOk φ s.mem) : Yields φ (execDivu d a b s) := opGG_yields hs

theorem execRem_yields {d a b : Reg} (hs : MemOk φ s.mem) : Yields φ (execRem d a b s) := opGG_yields hs

theorem execRemu_yields {d a b : Reg} (hs : MemOk φ s.mem) : Yields φ (execRemu d a b s) := opGG_yields hs

theorem execDivw_yields {d a b : Reg} (hs : MemOk φ s.mem) : Yields φ (execDivw d a b s) := opGG_yields hs

theorem execDivuw_yields {d a b : Reg} (hs : MemOk φ s.mem) : Yields φ (execDivuw d a b s) := opGG_yields hs

theorem execRemw_yields {d a b : Reg} (hs : MemOk φ s.mem) : Yields φ (execRemw d a b s) := opGG_yields hs

theorem execRemuw_yields {d a b : Reg} (hs : MemOk φ s.mem) : Yields φ (execRemuw d a b s) := opGG_yields hs

theorem execLui_yields {d : Reg} {i : BitVec 20} (hs : MemOk φ s.mem) :
    Yields φ (execLui d i s) :=
  gate_yields hs (finishG_yields hs)

theorem execAuipc_yields {d : Reg} {i : BitVec 20} (hs : MemOk φ s.mem) :
    Yields φ (execAuipc d i s) :=
  gate_yields hs (finishG_yields hs)

theorem opMask_yields {d : Reg} {v : Word} (hs : MemOk φ s.mem) : Yields φ (opMask s d v) := yields_next.2 (retire_memOk hs)

theorem execMand_yields {d a b : Reg} (hs : MemOk φ s.mem) : Yields φ (execMand d a b s) := opMask_yields hs

theorem execMor_yields {d a b : Reg} (hs : MemOk φ s.mem) : Yields φ (execMor d a b s) := opMask_yields hs

theorem execMxor_yields {d a b : Reg} (hs : MemOk φ s.mem) : Yields φ (execMxor d a b s) := opMask_yields hs

theorem execMnot_yields {d a : Reg} (hs : MemOk φ s.mem) : Yields φ (execMnot d a s) := opMask_yields hs

theorem execMpop_yields {d a : Reg} (hs : MemOk φ s.mem) : Yields φ (execMpop d a s) := gate_yields hs (finishG_yields hs)

theorem execMfirst_yields {d a : Reg} (hs : MemOk φ s.mem) : Yields φ (execMfirst d a s) := gate_yields hs (finishG_yields hs)

theorem setSession_memOk {x : SpdmSession} (hs : MemOk φ s.mem) : MemOk φ (setSession s x).mem := modMgmt_memOk hs

theorem spdmSend_memOk {i : Nat} {r : SpdmReply} (hs : MemOk φ s.mem) : MemOk φ (spdmSend s i r).mem := setSession_memOk hs

theorem sendNamed_memOk {i : Nat} {n : SpdmName} (hs : MemOk φ s.mem) :
    MemOk φ (sendNamed s i n).mem :=
  nextFresh_memOk (spdmSend_memOk hs)

theorem measAnswer_memOk {req : List Byte} {signed : Bool} (hs : MemOk φ s.mem) : MemOk φ (measAnswer s req signed).1.mem := by
  unfold measAnswer
  dsimp only
  split
  · exact hs
  · exact ite_fst_memOk (nextFresh_memOk (ran_memOk (opRandom_memOk hs))) (ran_memOk (opRandom_memOk hs))

theorem modMbox_memOk {f : Mailbox → Mailbox} (hs : MemOk φ s.mem) : MemOk φ (modMbox s f).mem := modMgmt_memOk hs

theorem mboxSend_memOk {bs : List Byte} (hs : MemOk φ s.mem) : MemOk φ (mboxSend s bs).mem := modMbox_memOk hs

theorem takeRequest_memOk {bs : List Byte} (hs : MemOk φ s.mem) :
    MemOk φ (takeRequest s bs).mem :=
  ite_memOk (mboxSend_memOk hs) (ite_memOk (modMbox_memOk hs) hs)

theorem selfAnswer_memOk {req : List Byte} {r : State} (hs : MemOk φ s.mem) (e : selfAnswer s req = some r) : MemOk φ r.mem := by
  unfold selfAnswer at e
  extract_lets c at e
  split_ifs at e
  · exact Option.some.inj e ▸ sendNamed_memOk hs
  · exact Option.some.inj e ▸ sendNamed_memOk hs
  · exact Option.some.inj e ▸ spdmSend_memOk hs

theorem mailboxTake_memOk {bs : List Byte} (hs : MemOk φ s.mem) : MemOk φ (mailboxTake s bs).mem := by
  refine ite_memOk (takeRequest_memOk hs) ?_
  cases e : selfAnswer s bs with
  | none => exact takeRequest_memOk hs
  | some r => exact selfAnswer_memOk hs e

theorem execMailboxRequestArrival_yields {bytes : List Byte} (hs : MemOk φ s.mem) :
    Yields φ (execMailboxRequestArrival bytes s) :=
  yields_next.2 (mailboxTake_memOk hs)

theorem execMctpMessage_yields {ty : Nat} {bytes : List Byte} (hs : MemOk φ s.mem) :
    Yields φ (execMctpMessage ty bytes s) :=
  yields_next.2 (ite_memOk (mailboxTake_memOk hs) (ite_memOk (takeRequest_memOk hs) (siloAdd_memOk hs)))

theorem txctlWrite_memOk {v : Word} (hs : MemOk φ s.mem) :
    MemOk φ (txctlWrite s v).mem :=
  ite_memOk hs (modMbox_memOk (mboxSend_memOk hs))

theorem execTxctl_yields {v : Word} (hs : MemOk φ s.mem) : Yields φ (execTxctl v s) := yields_next.2 (txctlWrite_memOk hs)

theorem mboxWrite_memOk {o : Nat} {bs : List Byte} (hs : MemOk φ s.mem) :
    MemOk φ (mboxWrite s o bs).mem :=
  ite_memOk (txctlWrite_memOk (modMbox_memOk hs)) (modMbox_memOk hs)

theorem takeInbox_memOk {p : Flit → Bool} {r : Flit × State} (hs : MemOk φ s.mem) (e : takeInbox s p = some r) :
    MemOk φ r.2.mem := by
  unfold takeInbox at e
  split at e
  · cases e
  · rw [← Option.some.inj e]
    exact modMgmt_memOk hs

theorem answerFlits_memOk {f : Flit} (hs : MemOk φ s.mem) :
    MemOk φ (answerFlits s f).mem :=
  foldl_memOk sendFlit_memOk (nextFresh_memOk hs)

theorem serveFlit_memOk {p : Flit → Bool} {k : State → State} (hs : MemOk φ s.mem) (hk : ∀ {s}, MemOk φ s.mem → MemOk φ (k s).mem)
    :
    MemOk φ (serveFlit s p k).mem := by
  unfold serveFlit
  split
  · exact hs
  next f t e => exact answerFlits_memOk (hk (takeInbox_memOk hs e))

theorem serveSession_memOk {k : State → State} {i : Nat} (hs : MemOk φ s.mem) (hk : ∀ {s}, MemOk φ s.mem → MemOk φ (k s).mem) :
    MemOk φ (serveSession s i k).mem :=
  serveFlit_memOk hs hk

theorem clearPend_memOk (hs : MemOk φ s.mem) : MemOk φ (clearPend s).mem := modMbox_memOk hs

theorem stage1Answer_memOk {m : SpdmMsg} (hs : MemOk φ s.mem) :
    MemOk φ (stage1Answer s m).mem :=
  mboxSend_memOk (modMbox_memOk (spdmSend_memOk (modMgmt_memOk (measAnswer_memOk hs))))

theorem serve_yields {k : State → State} {m : SpdmMsg} {takes : Byte → Bool} (hs : MemOk φ s.mem) (hk : ∀ {s}, MemOk φ s.mem →
    MemOk φ (k s).mem) :
    Yields φ (serve s m takes k) :=
  ite_yields (yields_next.2 hs) (ite_yields (ite_yields (yields_next.2 (clearPend_memOk (ite_memOk (hk hs) (stage1Answer_memOk
    hs)))) (yields_next.2 hs)) (ite_yields (yields_next.2 (serveSession_memOk hs hk)) (yields_next.2 hs)))

theorem serveOwn_yields {k : State → State} {m : SpdmMsg} {code : Byte} (hs : MemOk φ s.mem) (hk : ∀ {s}, MemOk φ s.mem → MemOk φ
    (k s).mem) :
    Yields φ (serveOwn s m code k) :=
  ite_yields (serve_yields hs hk) (ite_yields (yields_next.2 (mailboxTake_memOk hs)) (yields_next.2 hs))

theorem execGetVersion_yields {m : SpdmMsg} (hs : MemOk φ s.mem) :
    Yields φ (execGetVersion m s) :=
  serveOwn_yields hs sendNamed_memOk

theorem execGetCapabilities_yields {m : SpdmMsg} (hs : MemOk φ s.mem) :
    Yields φ (execGetCapabilities m s) :=
  serveOwn_yields hs sendNamed_memOk

theorem execNegotiateAlgorithms_yields {m : SpdmMsg} (hs : MemOk φ s.mem) :
    Yields φ (execNegotiateAlgorithms m s) :=
  serveOwn_yields hs spdmSend_memOk

theorem execGetDigests_yields {m : SpdmMsg} (hs : MemOk φ s.mem) :
    Yields φ (execGetDigests m s) :=
  serve_yields hs sendNamed_memOk

theorem execGetCertificate_yields {m : SpdmMsg} (hs : MemOk φ s.mem) :
    Yields φ (execGetCertificate m s) :=
  serve_yields hs sendNamed_memOk

theorem execChallenge_yields {m : SpdmMsg} (hs : MemOk φ s.mem) : Yields φ (execChallenge m s) := serve_yields hs sendNamed_memOk

theorem execGetMeasurements_yields {m : SpdmMsg} (hs : MemOk φ s.mem) :
    Yields φ (execGetMeasurements m s) :=
  serve_yields hs (fun h => ite_memOk (mboxSend_memOk (modMbox_memOk (spdmSend_memOk (measAnswer_memOk h)))) (spdmSend_memOk
    (measAnswer_memOk h)))

theorem execKeyExchange_yields {m : SpdmMsg} (hs : MemOk φ s.mem) :
    Yields φ (execKeyExchange m s) :=
  serve_yields hs (fun h => sendNamed_memOk (setSession_memOk h))

theorem execFinish_yields {m : SpdmMsg} (hs : MemOk φ s.mem) :
    Yields φ (execFinish m s) :=
  serve_yields hs (fun h => sendNamed_memOk (setSession_memOk h))

theorem execHeartbeat_yields {m : SpdmMsg} (hs : MemOk φ s.mem) : Yields φ (execHeartbeat m s) := serve_yields hs sendNamed_memOk

theorem execEndSession_yields {m : SpdmMsg} (hs : MemOk φ s.mem) :
    Yields φ (execEndSession m s) :=
  serve_yields hs (fun h => sendNamed_memOk (setSession_memOk h))

theorem execSpdmUnsupportedRequest_yields {m : SpdmMsg} (hs : MemOk φ s.mem) :
    Yields φ (execSpdmUnsupportedRequest m s) :=
  serve_yields hs (fun h => ite_memOk (mboxSend_memOk (spdmSend_memOk h)) (spdmSend_memOk h))

theorem bootHalt_memOk {stage err : Nat} (hs : MemOk φ s.mem) :
    MemOk φ (bootHalt s stage err).mem :=
  modMgmt_memOk (modMbox_memOk hs)

theorem bootEnter_memOk {o : Nat} (hs : MemOk φ s.mem) : MemOk φ (bootEnter s o).mem := modMgmt_memOk hs

theorem bootRegs_memOk {o : Nat} (hs : MemOk φ s.mem) : MemOk φ (bootRegs s o).mem := modCrypto_memOk hs

theorem bootStage0_memOk (hs : MemOk φ s.mem) :
    MemOk φ (bootStage0 s).mem :=
  ite_memOk (bootHalt_memOk hs) (ite_memOk (bootHalt_memOk (ran_memOk (bootRegs_memOk (sramPut_memOk hs)))) (bootEnter_memOk
    (modMgmt_memOk (ran_memOk (measExtend_memOk (bootRegs_memOk (sramPut_memOk hs)))))))

theorem stage1Copies_memOk (hs : MemOk φ s.mem) : MemOk φ (stage1Copies s).mem := sramPut_memOk (sramPut_memOk (sramPut_memOk hs))

theorem stage1Regs_memOk (hs : MemOk φ s.mem) : MemOk φ (stage1Regs s).mem := modCrypto_memOk hs

theorem bootStage1_memOk (hs : MemOk φ s.mem) :
    MemOk φ (bootStage1 s).mem :=
  modMgmt_memOk (ite_memOk (bootHalt_memOk (sramPut_memOk hs)) (ite_memOk (bootHalt_memOk (ran_memOk (bootRegs_memOk
    (stage1Regs_memOk (stage1Copies_memOk hs))))) (modMbox_memOk (ran_memOk (measExtend_memOk (bootRegs_memOk (stage1Regs_memOk
    (stage1Copies_memOk hs))))))))

theorem bootPoll_memOk (hs : MemOk φ s.mem) :
    MemOk φ (bootPoll s).mem :=
  ite_memOk (clearPend_memOk (stage1Answer_memOk hs)) (modMgmt_memOk hs)

theorem bootStart_memOk (hs : MemOk φ s.mem) :
    MemOk φ (bootStart s).mem :=
  ite_memOk (bootPoll_memOk hs) (modMbox_memOk (bootEnter_memOk (modMgmt_memOk (bootPoll_memOk hs))))

theorem bootStage2_memOk (hs : MemOk φ s.mem) : MemOk φ (bootStage2 s).mem := by
  unfold bootStage2
  extract_lets s1
  have h1 : MemOk φ s1.mem := measExtend_memOk (measExtend_memOk hs)
  exact modMgmt_memOk h1

theorem announce_memOk {ep : Nat} (hs : MemOk φ s.mem) : MemOk φ (announce s ep).mem := setLink_memOk hs

theorem bootStage3_memOk : MemOk φ (bootStage3 s).mem :=
  modMgmt_memOk (foldl_memOk announce_memOk ⟨fun _ => rfl⟩)

theorem bootNext_memOk (hs : MemOk φ s.mem) :
    MemOk φ (bootNext s).mem :=
  ite_memOk (ite_memOk (bootStage1_memOk hs) (bootStart_memOk hs)) (ite_memOk hs (ite_memOk (bootStage2_memOk hs) (ite_memOk
    bootStage3_memOk hs)))

theorem resetPackage_memOk : MemOk φ (resetPackage s).mem := ⟨fun _ => rfl⟩

theorem execPowerOnReset_yields :
    Yields φ (execPowerOnReset s) :=
  yields_next.2 (bootStage0_memOk resetPackage_memOk)

theorem disableUnit_memOk {u : Disabled} (hs : MemOk φ s.mem) : MemOk φ (disableUnit s u).mem := modMgmt_memOk hs

theorem countEvent_memOk {entry : Nat} (hs : MemOk φ s.mem) : MemOk φ (countEvent s entry).mem := ite_memOk (siloAdd_memOk hs) hs

theorem powerOff_memOk (hs : MemOk φ s.mem) : MemOk φ (powerOff s).mem := hs

theorem flushSilo_memOk (hs : MemOk φ s.mem) : MemOk φ (flushSilo s).mem := modMgmt_memOk hs

theorem execDroopClockStretch_yields {cluster : Nat} (hs : MemOk φ s.mem) :
    Yields φ (execDroopClockStretch cluster s) :=
  yields_next.2 (ite_memOk (modMgmt_memOk hs) hs)

theorem execJunctionStretch_yields (hs : MemOk φ s.mem) : Yields φ (execJunctionStretch s) := yields_next.2 (modMgmt_memOk hs)

theorem execJunctionShutdown_yields (hs : MemOk φ s.mem) :
    Yields φ (execJunctionShutdown s) :=
  yields_next.2 (powerOff_memOk (flushSilo_memOk (siloAdd_memOk hs)))

theorem execSiloFlush_yields (hs : MemOk φ s.mem) : Yields φ (execSiloFlush s) := yields_next.2 (flushSilo_memOk hs)

theorem execOrderlyShutdown_yields (hs : MemOk φ s.mem) :
    Yields φ (execOrderlyShutdown s) :=
  yields_next.2 (powerOff_memOk (flushSilo_memOk hs))

theorem execPowerLoss_yields (hs : MemOk φ s.mem) : Yields φ (execPowerLoss s) := yields_next.2 (powerOff_memOk hs)

theorem execServiceWindowRefusal_yields (hs : MemOk φ s.mem) :
    Yields φ (execServiceWindowRefusal s) :=
  yields_next.2 (siloAdd_memOk hs)

theorem execUncorrectableMemoryError_yields {addr : Nat} (hs : MemOk φ s.mem) :
    Yields φ (execUncorrectableMemoryError addr s) := by
  unfold execUncorrectableMemoryError
  split
  · exact yields_next.2 (MemOk.poison hs)
  · exact yields_next.2 (MemOk.poison hs)
  · exact yields_next.2 hs

theorem transfer_yields {go : Out} {target : Word} (hs : MemOk φ s.mem) (hgo : Yields φ go) :
    Yields φ (transfer s target go) :=
  ite_yields (trap_yields hs) (ite_yields (trap_yields hs) hgo)

theorem branch_yields {a b : Reg} {i : BitVec 12} {taken : Word → Word → Bool} (hs : MemOk φ s.mem) :
    Yields φ (branch s a b i taken) :=
  gate_yields hs (ite_yields (transfer_yields hs (yields_next.2 hs)) (yields_next.2 (retire_memOk hs)))

theorem execBeq_yields {a b : Reg} {i : BitVec 12} (hs : MemOk φ s.mem) : Yields φ (execBeq a b i s) := branch_yields hs

theorem execBne_yields {a b : Reg} {i : BitVec 12} (hs : MemOk φ s.mem) : Yields φ (execBne a b i s) := branch_yields hs

theorem execBlt_yields {a b : Reg} {i : BitVec 12} (hs : MemOk φ s.mem) : Yields φ (execBlt a b i s) := branch_yields hs

theorem execBge_yields {a b : Reg} {i : BitVec 12} (hs : MemOk φ s.mem) : Yields φ (execBge a b i s) := branch_yields hs

theorem execBltu_yields {a b : Reg} {i : BitVec 12} (hs : MemOk φ s.mem) : Yields φ (execBltu a b i s) := branch_yields hs

theorem execBgeu_yields {a b : Reg} {i : BitVec 12} (hs : MemOk φ s.mem) : Yields φ (execBgeu a b i s) := branch_yields hs

theorem execJal_yields {d : Reg} {i : BitVec 20} (hs : MemOk φ s.mem) :
    Yields φ (execJal d i s) :=
  gate_yields hs (transfer_yields hs (ite_yields (yields_next.2 hs) (trap_yields hs)))

theorem execJalr_yields {d a : Reg} {i : BitVec 12} (hs : MemOk φ s.mem) :
    Yields φ (execJalr d a i s) :=
  gate_yields hs (ite_yields (ite_yields (transfer_yields hs (yields_next.2 hs)) (trap_yields hs)) (transfer_yields hs (ite_yields
    (yields_next.2 hs) (trap_yields hs))))

theorem execBchk_yields {a l h : Reg} (hs : MemOk φ s.mem) :
    Yields φ (execBchk a l h s) :=
  gate_yields hs (ite_yields (yields_next.2 (retire_memOk hs)) (trap_yields hs))

theorem execTrap_yields {n : BitVec 5} (hs : MemOk φ s.mem) : Yields φ (execTrap n s) := yields_next.2 (takeTrap_memOk hs)

theorem execBrk_yields (hs : MemOk φ s.mem) : Yields φ (execBrk s) := yields_next.2 (takeTrap_memOk hs)

theorem execIllegalEncoding_yields (hs : MemOk φ s.mem) :
    Yields φ (execIllegalEncoding s) :=
  ite_yields (trap_yields hs) (yields_next.2 hs)

theorem execIcacheFill_yields (hs : MemOk φ s.mem) : Yields φ (execIcacheFill s) := by
  refine ite_yields (yields_next.2 hs) (ite_yields (yields_next.2 hs) ?_)
  split
  · exact trap_yields hs
  · exact yields_next.2 hs

theorem holdLacc_yields {t : Task} {a : Word} {o : LaccEff} (hs : MemOk φ s.mem) :
    Yields φ (holdLacc s t a o) :=
  ite_yields (yields_next.2 (chunkLimit_memOk hs)) (yields_next.2 (retire_memOk hs))

theorem laccChecked_yields {k : Out} {a : Word} (hs : MemOk φ s.mem) (hk : Yields φ k) : Yields φ (laccChecked s a k) := by
  unfold laccChecked
  split
  · exact trap_yields hs
  · exact hk

theorem execLaccClr_yields {a : Reg} (hs : MemOk φ s.mem) :
    Yields φ (execLaccClr a s) :=
  gate_yields hs (laccChecked_yields hs (holdLacc_yields hs))

theorem execLaccAdd_yields {a b : Reg} (hs : MemOk φ s.mem) :
    Yields φ (execLaccAdd a b s) :=
  gate_yields hs (laccChecked_yields hs (holdLacc_yields hs))

theorem execLaccAddp_yields {d a b : Reg} (hs : MemOk φ s.mem) :
    Yields φ (execLaccAddp d a b s) :=
  gate_yields hs (laccChecked_yields hs (holdLacc_yields hs))

theorem execLaccMrg_yields {a b : Reg} (hs : MemOk φ s.mem) :
    Yields φ (execLaccMrg a b s) :=
  gate_yields hs (laccChecked_yields hs (laccChecked_yields hs (holdLacc_yields hs)))

theorem laccLoad_yields {d a : Reg} {f : Fmt} (hs : MemOk φ s.mem) :
    Yields φ (laccLoad s d a f) :=
  gate_yields hs (laccChecked_yields hs (ite_yields (trap_yields hs) (ite_yields (trap_yields hs) (yields_next.2 (deliver_memOk
    hs)))))

theorem execLaccRdF32_yields {d a : Reg} (hs : MemOk φ s.mem) : Yields φ (execLaccRdF32 d a s) := laccLoad_yields hs

theorem execLaccRdF64_yields {d a : Reg} (hs : MemOk φ s.mem) : Yields φ (execLaccRdF64 d a s) := laccLoad_yields hs

theorem baseLoad_yields {d a : Reg} {i : BitVec 12} {n : Nat} {signed : Bool} (hs : MemOk φ s.mem) :
    Yields φ (baseLoad s d a i n signed) :=
  gate_yields hs (startLoad_yields hs)

theorem baseStore_yields {a b : Reg} {i : BitVec 12} {n : Nat} (hs : MemOk φ s.mem) :
    Yields φ (baseStore s a b i n) :=
  gate_yields hs (startStore_yields hs)

theorem execLb_yields {d a : Reg} {i : BitVec 12} (hs : MemOk φ s.mem) : Yields φ (execLb d a i s) := baseLoad_yields hs

theorem execLh_yields {d a : Reg} {i : BitVec 12} (hs : MemOk φ s.mem) : Yields φ (execLh d a i s) := baseLoad_yields hs

theorem execLw_yields {d a : Reg} {i : BitVec 12} (hs : MemOk φ s.mem) : Yields φ (execLw d a i s) := baseLoad_yields hs

theorem execLd_yields {d a : Reg} {i : BitVec 12} (hs : MemOk φ s.mem) : Yields φ (execLd d a i s) := baseLoad_yields hs

theorem execLbu_yields {d a : Reg} {i : BitVec 12} (hs : MemOk φ s.mem) : Yields φ (execLbu d a i s) := baseLoad_yields hs

theorem execLhu_yields {d a : Reg} {i : BitVec 12} (hs : MemOk φ s.mem) : Yields φ (execLhu d a i s) := baseLoad_yields hs

theorem execLwu_yields {d a : Reg} {i : BitVec 12} (hs : MemOk φ s.mem) : Yields φ (execLwu d a i s) := baseLoad_yields hs

theorem execSb_yields {a b : Reg} {i : BitVec 12} (hs : MemOk φ s.mem) : Yields φ (execSb a b i s) := baseStore_yields hs

theorem execSh_yields {a b : Reg} {i : BitVec 12} (hs : MemOk φ s.mem) : Yields φ (execSh a b i s) := baseStore_yields hs

theorem execSw_yields {a b : Reg} {i : BitVec 12} (hs : MemOk φ s.mem) : Yields φ (execSw a b i s) := baseStore_yields hs

theorem execSd_yields {a b : Reg} {i : BitVec 12} (hs : MemOk φ s.mem) : Yields φ (execSd a b i s) := baseStore_yields hs

theorem execLx_yields {z : MemSize} {m : LoadMode} {w : WaitClass} {x : Bool} {d a p : Reg} (hs : MemOk φ s.mem) :
    Yields φ (execLx z m w x d a p s) :=
  gate_yields hs (startLoad_yields hs)

theorem execLxQ_yields {m : LoadMode} {w : WaitClass} {x : Bool} {d a p : Reg} (hs : MemOk φ s.mem) :
    Yields φ (execLxQ m w x d a p s) :=
  gate_yields hs (startLoad_yields hs)

theorem execSx_yields {z : MemSize} {m : StoreMode} {w : WaitClass} {x : Bool} {v a p : Reg} (hs : MemOk φ s.mem) :
    Yields φ (execSx z m w x v a p s) :=
  gate_yields hs (startStore_yields hs)

theorem execAmo_yields {z : AmoSize} {o : AmoOp} {x : Bool} {d a b : Reg} (hs : MemOk φ s.mem) :
    Yields φ (execAmo z o x d a b s) :=
  gate_yields hs (alone_yields hs (atomicAccess_yields hs))

theorem execTagr_yields {d a : Reg} (hs : MemOk φ s.mem) :
    Yields φ (execTagr d a s) :=
  gate_yields hs (ite_yields (tagRead_yields hs) (alone_yields hs (tagRead_yields hs)))

theorem execTagw_yields {a b : Reg} (hs : MemOk φ s.mem) :
    Yields φ (execTagw a b s) :=
  gate_yields hs (ite_yields (tagStore_yields hs) (alone_yields hs (tagStore_yields hs)))

theorem execVld_yields {d a : Reg} (hs : MemOk φ s.mem) : Yields φ (execVld d a s) := gate_yields hs (startLoad_yields hs)

theorem execVst_yields {v a : Reg} (hs : MemOk φ s.mem) : Yields φ (execVst v a s) := gate_yields hs (startStore_yields hs)

theorem laneAsk_memOk {d : Reg} {as : List Word} {k : Nat} (hs : MemOk φ s.mem) : MemOk φ (laneAsk s d as k).mem := by
  unfold laneAsk
  extract_lets w
  have h1 : MemOk φ (holdFor s (.v d) (.home w.id)).mem := holdFor_memOk hs
  exact settle_memOk (bumpKey_memOk h1)

theorem laneWaits_yields {t : Task} {d : Reg} {as : List Word} (hs : MemOk φ s.mem) : Yields φ (laneWaits s t d as) := by
  unfold laneWaits
  split
  · exact accessTrap_yields (modCur_memOk (unhold_memOk hs))
  · exact ite_yields (yields_next.2 (laneAsk_memOk (modCur_memOk hs))) (yields_next.2 (retireAlone_memOk hs))
  · exact yields_next.2 hs
  · exact yields_next.2 (laneAsk_memOk hs)

theorem execVldx_yields {d b i : Reg} (hs : MemOk φ s.mem) : Yields φ (execVldx d b i s) := by
  unfold execVldx
  refine gate_yields hs (ite_yields (laneWaits_yields hs) (unlessStop_yields hs (ite_yields ?_ (alone_yields hs (laneWaits_yields
    hs)))))
  refine withLines_yields hs fun {s} h => ?_
  split
  · exact placeCause_yields h
  · exact yields_next.2 (deliver_memOk (reach_memOk h))

theorem execVstx_yields {v b i : Reg} (hs : MemOk φ s.mem) :
    Yields φ (execVstx v b i s) :=
  gate_yields hs (unlessStop_yields hs (withLines_yields hs (fun h => yields_next.2 (retire_memOk h))))

theorem windowWrite_memOk {o : Nat} {bs : List Byte} {r : State} (hs : MemOk φ s.mem) (e : windowWrite s o bs = some r) :
    MemOk φ r.mem := by
  unfold windowWrite at e
  split at e
  · cases e
  split at e
  · exact Option.some.inj e ▸ setWeight_memOk hs
  · exact Option.some.inj e ▸ settle_memOk (observe_memOk (writeRequest_memOk hs))
  · exact Option.some.inj e ▸ hs
  · exact Option.some.inj e ▸ hs
  · cases e

theorem monitorStore_memOk {o : Nat} {bs : List Byte} (hs : MemOk φ s.mem) :
    MemOk φ (monitorStore s o bs).mem :=
  ite_memOk (devCtl_memOk hs) hs

theorem mgmtWrite_memOk {user : Bool} {a : Nat} {bs : List Byte} {r : State} (hs : MemOk φ s.mem) (e : mgmtWrite s user a bs =
    some r) :
    MemOk φ r.mem := by
  unfold mgmtWrite at e
  split at e
  · exact Option.some.inj e ▸ cryptoWrite_memOk hs
  · exact Option.some.inj e ▸ mboxWrite_memOk hs
  · exact Option.some.inj e ▸ sramPut_memOk hs
  · split_ifs at e
    · exact windowWrite_memOk hs e
    · exact Option.some.inj e ▸ monitorStore_memOk hs
  · cases e

theorem modCore_memOk {f : MgmtCore → MgmtCore} (hs : MemOk φ s.mem) : MemOk φ (modCore s f).mem := modMgmt_memOk hs

theorem mgTrap_memOk {cause : Nat} {tval : Word} (hs : MemOk φ s.mem) : MemOk φ (mgTrap s cause tval).mem := modCore_memOk hs

theorem mgReturn_memOk (hs : MemOk φ s.mem) : MemOk φ (mgReturn s).mem := modCore_memOk hs

theorem mgNext_memOk {n : Nat} {d : Reg} {v : Word} (hs : MemOk φ s.mem) : MemOk φ (mgNext s n d v).mem := modCore_memOk hs

theorem mgFault_memOk {cause a n : Nat} (hs : MemOk φ s.mem) :
    MemOk φ (mgFault s cause a n).mem :=
  ite_memOk (mgTrap_memOk (siloAdd_memOk hs)) (mgTrap_memOk (siloAdd_memOk (modMgmt_memOk hs)))

theorem mgDoLoad_memOk {len : Nat} {d : Reg} {a n : Nat} {signed : Bool} (hs : MemOk φ s.mem) :
    MemOk φ (mgDoLoad s len d a n signed).mem := by
  unfold mgDoLoad
  split
  · exact mgFault_memOk hs
  · exact mgNext_memOk hs

theorem mgDoStore_memOk {len a : Nat} {bs : List Byte} (hs : MemOk φ s.mem) : MemOk φ (mgDoStore s len a bs).mem := by
  unfold mgDoStore
  split
  · exact mgFault_memOk hs
  next r e => exact modCore_memOk (mgmtWrite_memOk hs e)

theorem mgExec_memOk {len : Nat} {w : BitVec 32} {i : Instr} (hs : MemOk φ s.mem) : MemOk φ (mgExec s len w i).mem := by
  unfold mgExec
  dsimp only
  split
  · exact mgNext_memOk hs
  · exact mgDoLoad_memOk hs
  · exact mgDoStore_memOk hs
  · exact modCore_memOk hs
  · exact mgTrap_memOk hs

theorem mgAtomic_memOk {w : BitVec 32} (hs : MemOk φ s.mem) : MemOk φ (mgAtomic s w).mem := by
  unfold mgAtomic
  dsimp only
  (repeat' split)
  · exact mgTrap_memOk hs
  · exact mgTrap_memOk hs
  · exact mgFault_memOk hs
  · exact modCore_memOk (mgNext_memOk hs)
  · exact modCore_memOk (mgNext_memOk (sramPut_memOk hs))
  · exact modCore_memOk (mgNext_memOk hs)
  · exact mgNext_memOk (sramPut_memOk hs)
  · exact mgTrap_memOk hs
  · exact mgTrap_memOk hs
  · exact mgFault_memOk hs
  · exact modCore_memOk (mgNext_memOk hs)
  · exact modCore_memOk (mgNext_memOk (sramPut_memOk hs))
  · exact modCore_memOk (mgNext_memOk hs)
  · exact mgNext_memOk (sramPut_memOk hs)

theorem mgCsr_memOk {w : BitVec 32} (hs : MemOk φ s.mem) : MemOk φ (mgCsr s w).mem := by
  unfold mgCsr
  dsimp only
  split
  · exact mgTrap_memOk hs
  · exact ite_memOk (mgTrap_memOk hs) (ite_memOk (modCore_memOk (nextFresh_memOk (mgNext_memOk hs))) (nextFresh_memOk
      (mgNext_memOk hs)))

theorem mgSystem_memOk {w : BitVec 32} (hs : MemOk φ s.mem) :
    MemOk φ (mgSystem s w).mem :=
  ite_memOk (mgCsr_memOk hs) (ite_memOk (mgTrap_memOk hs) (ite_memOk (mgTrap_memOk hs) (ite_memOk (mgReturn_memOk hs) (ite_memOk
    (mgNext_memOk hs) (mgTrap_memOk hs)))))

theorem mgWord_memOk {w : BitVec 32} (hs : MemOk φ s.mem) : MemOk φ (mgWord s w).mem := by
  unfold mgWord
  dsimp only
  (repeat' split)
  · exact mgAtomic_memOk hs
  · exact mgSystem_memOk hs
  · exact mgNext_memOk hs
  · exact mgNext_memOk hs
  · exact mgExec_memOk hs
  · exact mgTrap_memOk hs

theorem mgmtStep_memOk (hs : MemOk φ s.mem) : MemOk φ (mgmtStep s).mem := by
  unfold mgmtStep
  dsimp only
  (repeat' split)
  · exact hs
  · exact mgFault_memOk hs
  · exact mgExec_memOk hs
  · exact mgTrap_memOk hs
  · exact mgTrap_memOk hs
  · exact mgFault_memOk hs
  · exact mgWord_memOk hs

theorem execManagementCoreAccessFault_yields {addr : Nat} (hs : MemOk φ s.mem) :
    Yields φ (execManagementCoreAccessFault addr s) :=
  yields_next.2 (ite_memOk hs (mgFault_memOk hs))

theorem withPool_yields {k : HEntry → Out} (hs : MemOk φ s.mem) (hk : ∀ e, Yields φ (k e)) : Yields φ (withPool s k) := by
  refine ite_yields (trap_yields hs) (ite_yields (yields_next.2 hs) ?_)
  split
  · exact ite_yields (trap_yields hs) (ite_yields (trap_yields hs) (hk _))
  · exact trap_yields hs

theorem poolPoison_yields {k : Out} {as : List Nat} (hs : MemOk φ s.mem) (hk : Yields φ k) : Yields φ (poolPoison s as k) := by
  unfold poolPoison
  split
  · exact yields_next.2 (homeCause_memOk hs)
  · exact hk

theorem takeFromCrib_memOk {t : Task} {d : Reg} {e : HEntry} {o : Nat} {hdr : Word} (hs : MemOk φ s.mem) :
    MemOk φ (takeFromCrib s t d e o hdr).mem :=
  retire_memOk (cribMap_memOk hs)

theorem execNalloc_yields {d t : Reg} (hs : MemOk φ s.mem) : Yields φ (execNalloc d t s) := by
  refine gate_yields hs (withPool_yields hs fun e => ite_yields (trap_yields hs) (ite_yields (trap_yields hs) (ite_yields
    (trap_yields hs) ?_)))
  split
  · exact withLines_yields hs fun h => yields_next.2 (takeFromCrib_memOk h)
  · split
    · exact trap_yields (modCur_memOk hs)
    · exact yields_next.2 hs
    · exact yields_next.2 (modCur_memOk hs)

theorem execCribRefill_yields {core tenant pool : Nat} (hs : MemOk φ s.mem) : Yields φ (execCribRefill core tenant pool s) := by
  unfold execCribRefill
  (repeat' split)
  · exact yields_next.2 hs
  · exact yields_next.2 (onTask_memOk hs modCur_memOk)
  · exact yields_next.2 (onTask_memOk hs modCur_memOk)
  · exact yields_next.2 hs
  · exact yields_next.2 (onTask_memOk (cribRefill_memOk hs) modCur_memOk)

theorem execNfree_yields {n : Reg} (hs : MemOk φ s.mem) : Yields φ (execNfree n s) := by
  refine gate_yields hs (withPool_yields hs fun e => ite_yields (trap_yields hs) (withLines_yields hs fun h => ?_))
  exact poolPoison_yields h (ite_yields (trap_yields h) (ite_yields (trap_yields h) (yields_next.2 (retire_memOk h))))

theorem execNlink_yields {a b : Reg} (hs : MemOk φ s.mem) : Yields φ (execNlink a b s) := by
  refine gate_yields hs (withPool_yields hs fun e => ite_yields (trap_yields hs) (withLines_yields hs fun h => ?_))
  exact poolPoison_yields h (ite_yields (trap_yields h) (ite_yields (trap_yields h) (yields_next.2 (retire_memOk h))))

theorem execNpush_yields {a b : Reg} (hs : MemOk φ s.mem) : Yields φ (execNpush a b s) := by
  refine gate_yields hs (withPool_yields hs fun e => ite_yields (trap_yields hs) (withLines_yields hs fun h => ?_))
  exact poolPoison_yields h (ite_yields (trap_yields h) (yields_next.2 (retire_memOk h)))

theorem nrdFar_yields {t : Task} {d : Reg} {pool x : Word} (hs : MemOk φ s.mem) : Yields φ (nrdFar s t d pool x) := by
  unfold nrdFar
  split
  · exact trap_yields (unhold_memOk hs)
  · exact held_yields hs (alone_yields hs (ite_yields (trap_yields hs) (ite_yields (trap_yields hs) (sendRequest_yields hs))))

theorem execNrd_yields {d p : Reg} (hs : MemOk φ s.mem) : Yields φ (execNrd d p s) := by
  refine gate_yields hs (ite_yields (nrdFar_yields hs) (withPool_yields hs fun e => ite_yields (trap_yields hs) (withLines_yields
    hs fun h => ?_)))
  exact poolPoison_yields h (ite_yields (trap_yields h) (ite_yields (trap_yields h) (yields_next.2 (deliverAt_memOk h))))

theorem execNrset_yields {k v : Reg} (hs : MemOk φ s.mem) : Yields φ (execNrset k v s) := by
  unfold execNrset
  dsimp only
  (repeat' split)
  · exact trap_yields hs
  · exact gate_yields hs (trap_yields hs)
  · exact gate_yields hs (trap_yields hs)
  · exact gate_yields hs (withLines_yields hs (fun h => yields_next.2 (retire_memOk h)))
  · exact gate_yields hs (withLines_yields hs (fun h => yields_next.2 (retire_memOk h)))

theorem changeWord_memOk {a : Nat} {f : Word → Word} (hs : MemOk φ s.mem) :
    MemOk φ (changeWord s a f).mem :=
  ite_memOk hs (devWrite_memOk hs)

theorem relocateWord_memOk {p : Span} {a : Nat} (hs : MemOk φ s.mem) : MemOk φ (relocateWord p s a).mem := changeWord_memOk hs

theorem relocImage_memOk {i : Image} {q : Folded} {p : Span} (hs : MemOk φ s.mem) :
    MemOk φ (relocImage s i q p).mem :=
  foldl_memOk changeWord_memOk hs

theorem relocNets_memOk {t : Nat} {p : Span} (hs : MemOk φ s.mem) :
    MemOk φ (relocNets s t p).mem :=
  mapTasks_memOk (foldl_memOk relocateWord_memOk (foldl_memOk relocateWord_memOk hs))

theorem textPlace_memOk {i : Image} {n : Nat} {p : Option Span} {r : State × HEntry} (hs : MemOk φ s.mem)
    (e : textPlace s i n p = some r) : MemOk φ r.1.mem := by
  unfold textPlace at e
  split at e
  · rw [← Option.some.inj e]
    exact hs
  · split at e
    · cases e
    next x hx =>
      obtain ⟨y, _, rfl⟩ := Option.map_eq_some_iff.1 e
      exact newRegion_memOk hs hx

theorem retranslate_memOk {i : Image} {q : Folded} {whole : Bool} {p : Option Span} {r : State × Image} (hs : MemOk φ s.mem)
    (e : retranslate s i q whole p = some r) : MemOk φ r.1.mem := by
  unfold retranslate at e
  extract_lets tr n at e
  split at e
  · cases e
  · obtain ⟨x, hx, rfl⟩ := Option.map_eq_some_iff.1 e
    exact writeImgrec_memOk (placeText_memOk (textPlace_memOk hs hx))

theorem swapImage_memOk {i j : Image} (hs : MemOk φ s.mem) : MemOk φ (swapImage s i j).mem := by
  unfold swapImage
  extract_lets s1 s2 aged
  have h1 : MemOk φ s1.mem := foldl_memOk devCtl_memOk hs
  have h2 : MemOk φ s2.mem := mapTasks_memOk h1
  exact recordImage_memOk h2

theorem keepText_memOk {i : Image} {q : Folded} (hs : MemOk φ s.mem) : MemOk φ (keepText s i q).mem := recordImage_memOk hs

theorem retransImages_memOk {p : Span} {is : List Image} {h : BitVec 16} {r : State × BitVec 16} (hs : MemOk φ s.mem)
    (e : retransImages p is h s = some r) : MemOk φ r.1.mem := by
  induction is generalizing h s with
  | nil =>
    rw [← Option.some.inj e]
    exact hs
  | cons i is ih =>
    unfold retransImages at e
    extract_lets q s1 at e
    have h1 : MemOk φ s1.mem := relocImage_memOk hs
    split at e
    · cases e
    split at e
    · split at e
      · cases e
      next x hx => exact ih (swapImage_memOk (retranslate_memOk h1 hx)) e
    · exact ih (keepText_memOk h1) e

theorem markMoved_memOk {t : Nat} (hs : MemOk φ s.mem) : MemOk φ (markMoved s t).mem := hs

/-- The images are laid out again: what is left of the move. -/
theorem moveDone_memOk {t : Nat} {p : Span} (hs : MemOk φ s.mem) :
    MemOk φ (settle (observe (markMoved (relocNets s t p) t))).mem :=
  settle_memOk (observe_memOk (markMoved_memOk (relocNets_memOk hs)))

theorem retransAll_memOk {t : Nat} {p : Span} {h : BitVec 16} {r : State × BitVec 16} (hs : MemOk φ s.mem)
    (e : retransAll s t p h = some r) : MemOk φ r.1.mem := by
  unfold retransAll at e
  cases hx : retransImages p (exposedImages s t p) h s with
  | none => rw [hx] at e; cases e
  | some x =>
    rw [hx, Option.map_some] at e
    rw [← Option.some.inj e]
    dsimp only
    exact moveDone_memOk (retransImages_memOk hs hx)

theorem wnRetrans_yields (hs : MemOk φ s.mem) : Yields φ (wnRetrans s) := by
  unfold wnRetrans
  refine gate_yields hs (alone_yields hs ?_)
  extract_lets c p done out
  have hdone : ∀ x, done = some x → MemOk φ x.1.mem := fun x e => by
    simp only [done] at e
    split_ifs at e
    exact retransAll_memOk hs e
  have hout : MemOk φ out.1.mem := by
    clear_value done
    simp only [out]
    cases done with
    | none => exact hs
    | some x => exact hdone x rfl
  clear_value out
  exact yields_next.2 hout

theorem startMove_memOk {t core : Nat} {image : BitVec 16} {entry : Nat} {args : List Word} (hs : MemOk φ s.mem) :
    MemOk φ (startMove s t core image entry args).mem :=
  ite_memOk (enqueue_memOk hs) hs

theorem enableImage_memOk {t : Nat} {h : BitVec 16} (hs : MemOk φ s.mem) :
    MemOk φ (enableImage s t h).mem :=
  releaseEnabled_memOk (foldl_memOk devCtl_memOk hs)

theorem reseal_memOk {t : Nat} (hs : MemOk φ s.mem) : MemOk φ (reseal s t).mem := by
  unfold reseal
  split
  · exact hs
  · extract_lets _ rest
    have hrest : MemOk φ rest.mem := hs
    split
    · exact hrest
    · refine ite_memOk hs ?_
      split
      · exact hs
      next x e => exact settle_memOk (observe_memOk (enableImage_memOk (swapImage_memOk (retranslate_memOk hrest e))))

theorem tiSend_memOk {t : Nat} {r : TiReply} (hs : MemOk φ s.mem) : MemOk φ (tiSend s t r).mem := modMgmt_memOk hs

theorem tiAnswer_memOk {k : State → State} {t : Nat} (hs : MemOk φ s.mem) (hk : ∀ {s}, MemOk φ s.mem → MemOk φ (k s).mem) :
    MemOk φ (tiAnswer s t k).mem :=
  ite_memOk (serveFlit_memOk hs hk) (nextFresh_memOk (clearPend_memOk (mboxSend_memOk (hk hs))))

theorem tiServe_yields {k : State → State} {t : Nat} (hs : MemOk φ s.mem) (hk : ∀ {s}, MemOk φ s.mem → MemOk φ (k s).mem) :
    Yields φ (tiServe s t k) :=
  ite_yields (yields_next.2 (tiAnswer_memOk hs hk)) (yields_next.2 hs)

theorem reenable_memOk {off : Nat} (hs : MemOk φ s.mem) : MemOk φ (reenable s off).mem := devCtl_memOk hs

theorem moveAbandon_memOk {m : Move} (hs : MemOk φ s.mem) :
    MemOk φ (moveAbandon s m).mem :=
  hostRecord_memOk (writeRequest_memOk (releaseEnabled_memOk (foldl_memOk reenable_memOk hs)))

theorem execCompactTimeout_yields (hs : MemOk φ s.mem) : Yields φ (execCompactTimeout s) := by
  unfold execCompactTimeout
  dsimp only
  split
  · exact yields_next.2 hs
  · exact yields_next.2 (settle_memOk (observe_memOk (moveAbandon_memOk hs)))

theorem execGetTdispVersion_yields {t : Nat} (hs : MemOk φ s.mem) :
    Yields φ (execGetTdispVersion t s) :=
  tiServe_yields hs tiSend_memOk

theorem execGetTdispCapabilities_yields {t : Nat} (hs : MemOk φ s.mem) :
    Yields φ (execGetTdispCapabilities t s) :=
  tiServe_yields hs tiSend_memOk

theorem execGetDeviceInterfaceState_yields {t : Nat} (hs : MemOk φ s.mem) :
    Yields φ (execGetDeviceInterfaceState t s) :=
  tiServe_yields hs tiSend_memOk

theorem execTdispUnsupportedRequest_yields {t : Nat} (hs : MemOk φ s.mem) :
    Yields φ (execTdispUnsupportedRequest t s) :=
  tiServe_yields hs tiSend_memOk

theorem execGetDeviceInterfaceReport_yields {t : Nat} (hs : MemOk φ s.mem) :
    Yields φ (execGetDeviceInterfaceReport t s) :=
  tiServe_yields hs tiSend_memOk

theorem deriveKeys_memOk {t : Nat} (hs : MemOk φ s.mem) : MemOk φ (deriveKeys s t).mem := nextFresh_memOk (modMgmt_memOk hs)

theorem coverArea_memOk {t kind f a n : Nat} {r : State} (hs : MemOk φ s.mem) (e : coverArea t kind f a n s = .ok r) :
    MemOk φ r.mem := by
  induction f generalizing a n s with
  | zero =>
    rw [← Except.ok.inj e]
    exact hs
  | succ f ih =>
    unfold coverArea at e
    split at e
    · rw [← Except.ok.inj e]
      exact hs
    · obtain ⟨x, hx, e⟩ := admitting_eq_ok.1 e
      exact ih (newRegion_memOk hs hx) e

/-- A fold of steps that may be refused keeps what each of them keeps. -/
theorem foldl_admitting_memOk {α : Type} {F : State → α → Except AdmitError State}
    (hF : ∀ {s a r}, MemOk φ s.mem → F s a = .ok r → MemOk φ r.mem) {l : List α} {x : Except AdmitError State} {r : State}
    (hx : ∀ {s}, x = .ok s → MemOk φ s.mem) (e : l.foldl (fun x a => admitting x fun s => F s a) x = .ok r) : MemOk φ r.mem := by
  induction l generalizing x with
  | nil => exact hx e
  | cons a l ih =>
    refine ih (fun {s} h => ?_) e
    obtain ⟨y, hy, h⟩ := admitting_eq_ok.1 h
    exact hF (hx hy) h

theorem createAreas_memOk {t : Nat} {r : State} (hs : MemOk φ s.mem) (e : createAreas s t = .ok r) : MemOk φ r.mem :=
  foldl_admitting_memOk (fun h e => coverArea_memOk h e) (fun h => Except.ok.inj h ▸ hs) e

theorem execLockInterfaceRequest_yields {t : Nat} (hs : MemOk φ s.mem) : Yields φ (execLockInterfaceRequest t s) := by
  refine tiServe_yields hs fun {s} h => ite_memOk (tiSend_memOk h) (ite_memOk (tiSend_memOk h) ?_)
  split
  · exact tiSend_memOk h
  next r e => exact tiSend_memOk (raiseRepgen_memOk (setTiState_memOk (deriveKeys_memOk (createAreas_memOk h e))))

theorem execStartInterfaceRequest_yields {t : Nat} (hs : MemOk φ s.mem) :
    Yields φ (execStartInterfaceRequest t s) :=
  tiServe_yields hs (fun h => ite_memOk (tiSend_memOk (setTiState_memOk h)) (tiSend_memOk h))

theorem abandonQueued_memOk {t : Nat} (hs : MemOk φ s.mem) : MemOk φ (abandonQueued s t).mem := by
  unfold abandonQueued
  dsimp only
  split
  · exact foldl_memOk (fun h => refuseLaunch_memOk (reportRefused_memOk h)) hs
  · exact moveAbandon_memOk (foldl_memOk (fun h => refuseLaunch_memOk (reportRefused_memOk h)) hs)

theorem execStopInterfaceRequest_yields {t : Nat} (hs : MemOk φ s.mem) :
    Yields φ (execStopInterfaceRequest t s) :=
  tiServe_yields hs (fun h => ite_memOk (tiSend_memOk h) (ite_memOk (tiSend_memOk h) (tearBegin_memOk (abandonQueued_memOk
    (tiSend_memOk h)))))

theorem execSpdmSessionLoss_yields {t : Nat} (hs : MemOk φ s.mem) :
    Yields φ (execSpdmSessionLoss t s) :=
  yields_next.2 (ite_memOk (tiError_memOk hs) hs)

theorem execSetTiConfig_yields {c : TiConfig} (hs : MemOk φ s.mem) :
    Yields φ (execSetTiConfig c s) :=
  tiServe_yields hs (fun h => tiSend_memOk (ite_memOk (foldl_memOk devCtl_memOk h) h))

theorem rekeyBegin_memOk {port : Nat} (hs : MemOk φ s.mem) :
    MemOk φ (rekeyBegin s port).mem :=
  ite_memOk (setLink_memOk (loadLinkKeys_memOk hs)) hs

theorem rekeyTurn_memOk {port : Nat} (hs : MemOk φ s.mem) : MemOk φ (rekeyTurn s port).mem := by
  unfold rekeyTurn
  dsimp only
  split
  · exact releaseHeld_memOk (setLink_memOk (setBank_memOk hs))
  · exact hs

theorem execKeyUpdate_yields {m : SpdmMsg} {port : Nat} (hs : MemOk φ s.mem) :
    Yields φ (execKeyUpdate m port s) :=
  serve_yields hs (fun h => sendNamed_memOk (ite_memOk h (ite_memOk (rekeyTurn_memOk h) (rekeyBegin_memOk h))))

theorem finishFp_yields {d : Reg} {r : VWord × FlagSet} (hs : MemOk φ s.mem) :
    Yields φ (finishFp s d r) :=
  yields_next.2 (retire_memOk hs)

theorem fpOp2_yields {y : FFmt} {k : Bool} {d a b : Reg} {f : Fmt → Nat → Nat → Nat × FlagSet} (hs : MemOk φ s.mem) :
    Yields φ (fpOp2 s y k d a b f) :=
  gate_yields hs (finishFp_yields hs)

theorem execVfadd_yields {y : FFmt} {z u k : Bool} {d a b : Reg} (hs : MemOk φ s.mem) :
    Yields φ (execVfadd y z u k d a b s) :=
  fpOp2_yields hs

theorem execVfsub_yields {y : FFmt} {z u k : Bool} {d a b : Reg} (hs : MemOk φ s.mem) :
    Yields φ (execVfsub y z u k d a b s) :=
  fpOp2_yields hs

theorem execVfmul_yields {y : FFmt} {z u k : Bool} {d a b : Reg} (hs : MemOk φ s.mem) :
    Yields φ (execVfmul y z u k d a b s) :=
  fpOp2_yields hs

theorem execVfmin_yields {y : FFmt} {z u k : Bool} {d a b : Reg} (hs : MemOk φ s.mem) :
    Yields φ (execVfmin y z u k d a b s) :=
  fpOp2_yields hs

theorem execVfmax_yields {y : FFmt} {z u k : Bool} {d a b : Reg} (hs : MemOk φ s.mem) :
    Yields φ (execVfmax y z u k d a b s) :=
  fpOp2_yields hs

theorem execVfdiv_yields {y : FFmt} {z u k : Bool} {d a b : Reg} (hs : MemOk φ s.mem) :
    Yields φ (execVfdiv y z u k d a b s) :=
  fpOp2_yields hs

theorem execVfsqrt_yields {y : FFmt} {z u k : Bool} {d a : Reg} (hs : MemOk φ s.mem) :
    Yields φ (execVfsqrt y z u k d a s) :=
  gate_yields hs (finishFp_yields hs)

theorem execVfma_yields {y : FFmt} {z u k : Bool} {d a b : Reg} (hs : MemOk φ s.mem) :
    Yields φ (execVfma y z u k d a b s) :=
  gate_yields hs (finishFp_yields hs)

theorem execVfcmp_yields {c : FCmpOp} {y : FFmt} {z _u k : Bool} {m a b : Reg} (hs : MemOk φ s.mem) :
    Yields φ (execVfcmp c y z _u k m a b s) :=
  gate_yields hs (yields_next.2 (retire_memOk hs))

theorem execVfcvt_yields {d a : Reg} {c : BitVec 5} (hs : MemOk φ s.mem) :
    Yields φ (execVfcvt d a c s) :=
  gate_yields hs (finishFp_yields hs)

theorem fpReduce_yields {d a : Reg} {n : Nat} {lanes : VWord → List Nat} {f : Nat → Nat → Nat × FlagSet} (hs : MemOk φ s.mem) :
    Yields φ (fpReduce s d a n lanes f) :=
  gate_yields hs (finishFp_yields hs)

theorem execVfredAddF32_yields {d a : Reg} (hs : MemOk φ s.mem) : Yields φ (execVfredAddF32 d a s) := fpReduce_yields hs

theorem execVfredAddBf16_yields {d a : Reg} (hs : MemOk φ s.mem) : Yields φ (execVfredAddBf16 d a s) := fpReduce_yields hs

theorem execVfredMaxF32_yields {d a : Reg} (hs : MemOk φ s.mem) : Yields φ (execVfredMaxF32 d a s) := fpReduce_yields hs

theorem execVfredMinF32_yields {d a : Reg} (hs : MemOk φ s.mem) : Yields φ (execVfredMinF32 d a s) := fpReduce_yields hs

end Sys2Proof.Machine
end

section
/-! PROOFS. Memory stays canonical: every instruction, unit and step (O58, O59). -/
namespace Sys2Proof.Machine
variable {φ : Prop} {s : State}

theorem exec_yields {i : Instr} (hs : MemOk φ s.mem) : Yields φ (exec i s) := by
  unfold exec
  split
  · exact execAdd_yields hs
  · exact execSub_yields hs
  · exact execAddw_yields hs
  · exact execSubw_yields hs
  · exact execAddi_yields hs
  · exact execAddiw_yields hs
  · exact execAnd_yields hs
  · exact execOr_yields hs
  · exact execXor_yields hs
  · exact execAndi_yields hs
  · exact execOri_yields hs
  · exact execXori_yields hs
  · exact execSlt_yields hs
  · exact execSltu_yields hs
  · exact execSlti_yields hs
  · exact execSltiu_yields hs
  · exact execSll_yields hs
  · exact execSrl_yields hs
  · exact execSra_yields hs
  · exact execSllw_yields hs
  · exact execSrlw_yields hs
  · exact execSraw_yields hs
  · exact execSlli_yields hs
  · exact execSrli_yields hs
  · exact execSrai_yields hs
  · exact execSlliw_yields hs
  · exact execSrliw_yields hs
  · exact execSraiw_yields hs
  · exact execMul_yields hs
  · exact execMulh_yields hs
  · exact execMulhsu_yields hs
  · exact execMulhu_yields hs
  · exact execMulw_yields hs
  · exact execDiv_yields hs
  · exact execDivu_yields hs
  · exact execRem_yields hs
  · exact execRemu_yields hs
  · exact execDivw_yields hs
  · exact execDivuw_yields hs
  · exact execRemw_yields hs
  · exact execRemuw_yields hs
  · exact execLui_yields hs
  · exact execAuipc_yields hs
  · exact execJal_yields hs
  · exact execJalr_yields hs
  · exact execBeq_yields hs
  · exact execBne_yields hs
  · exact execBlt_yields hs
  · exact execBge_yields hs
  · exact execBltu_yields hs
  · exact execBgeu_yields hs
  · exact execLb_yields hs
  · exact execLh_yields hs
  · exact execLw_yields hs
  · exact execLd_yields hs
  · exact execLbu_yields hs
  · exact execLhu_yields hs
  · exact execLwu_yields hs
  · exact execSb_yields hs
  · exact execSh_yields hs
  · exact execSw_yields hs
  · exact execSd_yields hs
  · exact execLx_yields hs
  · exact execLxQ_yields hs
  · exact execSx_yields hs
  · exact execAmo_yields hs
  · exact execTagr_yields hs
  · exact execTagw_yields hs
  · exact execSeal_yields hs
  · exact execUnseal_yields hs
  · exact execFenceC_yields hs
  · exact execFenceD_yields hs
  · exact execFenceP_yields hs
  · exact execFenceS_yields hs
  · exact execCwait_yields hs
  · exact execDwb_yields hs
  · exact execIcinv_yields hs
  · exact execFbar_yields hs
  · exact execBchk_yields hs
  · exact execSpawn_yields hs
  · exact execSpawnOrd_yields hs
  · exact execSpawnRow_yields hs
  · exact execSpawnCl_yields hs
  · exact execMsg_yields hs
  · exact execMdone_yields hs
  · exact execWset_yields hs
  · exact execWait_yields hs
  · exact execTend_yields hs
  · exact execYield_yields hs
  · exact execCmt_yields hs
  · exact execGsyncRow_yields hs
  · exact execGsyncCl_yields hs
  · exact execBrk_yields hs
  · exact execTrap_yields hs
  · exact execGetst_yields hs
  · exact execTgctl_yields hs
  · exact execSlp_yields hs
  · exact execRpt_yields hs
  · exact execRpart_yields hs
  · exact execRpst_yields hs
  · exact execVadd_yields hs
  · exact execVsub_yields hs
  · exact execVmul_yields hs
  · exact execVmin_yields hs
  · exact execVmax_yields hs
  · exact execVminu_yields hs
  · exact execVmaxu_yields hs
  · exact execVand_yields hs
  · exact execVor_yields hs
  · exact execVxor_yields hs
  · exact execVsll_yields hs
  · exact execVsrl_yields hs
  · exact execVsra_yields hs
  · exact execVfadd_yields hs
  · exact execVfsub_yields hs
  · exact execVfmul_yields hs
  · exact execVfma_yields hs
  · exact execVfmin_yields hs
  · exact execVfmax_yields hs
  · exact execVfdiv_yields hs
  · exact execVfsqrt_yields hs
  · exact execVfcmp_yields hs
  · exact execVld_yields hs
  · exact execVst_yields hs
  · exact execVldx_yields hs
  · exact execVstx_yields hs
  · exact execVperm_yields hs
  · exact execVbcast_yields hs
  · exact execVmvVg_yields hs
  · exact execVmvGv_yields hs
  · exact execVsel_yields hs
  · exact execVcmp_yields hs
  · exact execVred_yields hs
  · exact execVfcvt_yields hs
  · exact execVfredAddF32_yields hs
  · exact execVfredAddBf16_yields hs
  · exact execVfredMaxF32_yields hs
  · exact execVfredMinF32_yields hs
  · exact execMand_yields hs
  · exact execMor_yields hs
  · exact execMxor_yields hs
  · exact execMnot_yields hs
  · exact execMpop_yields hs
  · exact execMfirst_yields hs
  · exact execSfckey_yields hs
  · exact execMldA_yields hs
  · exact execMldB_yields hs
  · exact execMst_yields hs
  · exact execMzero_yields hs
  · exact execMma_yields hs
  · exact execCpy_yields hs
  · exact execCpst_yields hs
  · exact execLaccClr_yields hs
  · exact execLaccAdd_yields hs
  · exact execLaccAddp_yields hs
  · exact execLaccMrg_yields hs
  · exact execLaccRdF32_yields hs
  · exact execLaccRdF64_yields hs
  · exact execNalloc_yields hs
  · exact execNfree_yields hs
  · exact execNlink_yields hs
  · exact execNpush_yields hs
  · exact execNrd_yields hs
  · exact execNrset_yields hs
  · exact execChunkInstructionLimit_yields hs
  · exact execChunkCommit_yields hs
  · exact execSerialTokenGrant_yields hs
  · exact execBagReload_yields hs
  · exact execDispatch_yields hs
  · exact execBagPop_yields hs
  · exact execSteal_yields hs
  · exact execPlacementLoop_yields hs
  · exact execGangReserve_yields hs
  · exact execGangSlotHold_yields hs
  · exact execGsyncPass_yields hs
  · exact execWaitLatch_yields hs
  · exact execWaitReturn_yields hs
  · exact execWaitTimeout_yields hs
  · exact execSlpWake_yields hs
  · exact execCopyComplete_yields hs
  · exact execEngineWatchdog_yields hs
  · exact execMmaArrayStart_yields hs
  · exact execMmaArrayComplete_yields hs
  · exact execCribRefill_yields hs
  · exact execIcinvComplete_yields hs
  · exact execIcacheFill_yields hs
  · exact execScrubClearComplete_yields hs
  · exact execStoreAck_yields hs
  · exact execLaunchCompletion_yields hs
  · exact execMessageArrival_yields hs
  · exact execMessageResend_yields hs
  · exact execRepartitionComplete_yields hs
  · exact execGleaner_yields hs
  · exact execPreemptRequest_yields hs
  · exact execPreemptRelease_yields hs
  · exact execPreemptHaltComplete_yields hs
  · exact execHmapWrite_yields hs
  · exact execUnscrubbedMark_yields hs
  · exact execWeight_yields hs
  · exact execControlSpaceWrite_yields hs
  · exact execLoad_yields hs
  · exact execStore_yields hs
  · exact execAtomic_yields hs
  · exact execTagRead_yields hs
  · exact execTagWrite_yields hs
  · exact execLaunch_yields hs
  · exact execAdmission_yields hs
  · exact execCancel_yields hs
  · exact execReply_yields hs
  · exact execNackWaitRetry_yields hs
  · exact execReplyTimeout_yields hs
  · exact execIncarnationAnnouncement_yields hs
  · exact execIncarnationFence_yields hs
  · exact execRekeyRequest_yields hs
  · exact execGetVersion_yields hs
  · exact execGetCapabilities_yields hs
  · exact execNegotiateAlgorithms_yields hs
  · exact execGetDigests_yields hs
  · exact execGetCertificate_yields hs
  · exact execChallenge_yields hs
  · exact execGetMeasurements_yields hs
  · exact execKeyExchange_yields hs
  · exact execFinish_yields hs
  · exact execKeyUpdate_yields hs
  · exact execHeartbeat_yields hs
  · exact execEndSession_yields hs
  · exact execSpdmUnsupportedRequest_yields hs
  · exact execGetTdispVersion_yields hs
  · exact execGetTdispCapabilities_yields hs
  · exact execLockInterfaceRequest_yields hs
  · exact execGetDeviceInterfaceReport_yields hs
  · exact execGetDeviceInterfaceState_yields hs
  · exact execStartInterfaceRequest_yields hs
  · exact execStopInterfaceRequest_yields hs
  · exact execTdispUnsupportedRequest_yields hs
  · exact execSetTiConfig_yields hs
  · exact execCompactTimeout_yields hs
  · exact execCryptoSha384_yields hs
  · exact execCryptoEcdsaVerify_yields hs
  · exact execCryptoEcdsaSign_yields hs
  · exact execCryptoExtend_yields hs
  · exact execCryptoAesGcm_yields hs
  · exact execCryptoAesXts_yields hs
  · exact execCryptoRandom_yields hs
  · exact execCryptoInvalidOp_yields hs
  · exact execCryptoCommandDone_yields hs
  · exact execTxctl_yields hs
  · exact execMailboxRequestArrival_yields hs
  · exact execMctpMessage_yields hs
  · exact execPowerOnReset_yields
  · exact execDroopClockStretch_yields hs
  · exact execJunctionStretch_yields hs
  · exact execJunctionShutdown_yields hs
  · exact execSiloFlush_yields hs
  · exact execIllegalEncoding_yields hs
  · exact execServiceWindowRefusal_yields hs
  · exact execManagementCoreAccessFault_yields hs
  · exact execUncorrectableMemoryError_yields hs
  · exact execPowerLoss_yields hs
  · exact execOrderlyShutdown_yields hs
  · exact execLinkBringUp_yields hs
  · exact execSpdmSessionLoss_yields hs

theorem takeDeferred_memOk {d : Deferred} (hs : MemOk φ s.mem) :
    MemOk φ (takeDeferred s d).mem :=
  takeTrap_memOk (modCur_memOk hs)

theorem settled_memOk (hs : MemOk φ s.mem) : MemOk φ (settled s).mem := ite_memOk (modCur_memOk hs) hs

theorem issueCur_yields (hs : MemOk φ s.mem) : Yields φ (issueCur s) := by
  unfold issueCur
  split
  · exact exec_yields hs
  · exact yields_next.2 hs
  · exact trap_yields (settled_memOk hs)
  · exact yields_next.2 (takeDeferred_memOk (settled_memOk hs))
  · exact exec_yields hs
  · exact exec_yields (settled_memOk hs)
  · exact exec_yields (settled_memOk hs)
  · exact wnRetrans_yields (settled_memOk hs)
  · exact exec_yields (settled_memOk hs)

theorem chargeOne_memOk {core tenant : Nat} (hs : MemOk φ s.mem) : MemOk φ (chargeOne s core tenant).mem := ite_memOk hs hs

theorem charge_memOk {core tenant : Nat} (hs : MemOk φ s.mem) : MemOk φ (charge s core tenant).mem := chargeOne_memOk hs

theorem dropPerformed_memOk (hs : MemOk φ s.mem) : MemOk φ (dropPerformed s).mem := by
  unfold dropPerformed
  split
  · exact modCur_memOk hs
  · exact hs

theorem issued_memOk {core : Nat} {t : Task} {p : Ports} {port : Option Bool} (hs : MemOk φ s.mem) :
    MemOk φ (issued s core t p port).mem := by
  unfold issued
  split
  · exact hs
  · exact onTask_memOk (ite_memOk (charge_memOk hs) (chargeOne_memOk hs)) modCur_memOk

theorem issueFrom_yields {core : Nat} {p : Ports} {ts : List Task} (hs : MemOk φ s.mem) : Yields φ (issueFrom s core p ts) := by
  induction ts with
  | nil => exact yields_next.2 hs
  | cons t ts ih =>
    obtain ⟨s', hs', h⟩ := issueCur_yields (dropPerformed_memOk (focus_memOk (k := t.key) hs))
    simp only [issueFrom, hs']
    exact ite_yields ih (ite_yields (yields_next.2 (issued_memOk h)) ih)

theorem issue_yields {core : Nat} (hs : MemOk φ s.mem) :
    Yields φ (issue s core) :=
  ite_yields (issueFrom_yields hs) (yields_next.2 hs)

theorem arriveCur_memOk (hs : MemOk φ s.mem) : MemOk φ (arriveCur s).mem := by
  unfold arriveCur
  split
  · exact hs
  · exact modCur_memOk hs

theorem arrive_memOk {core slot : Nat} (hs : MemOk φ s.mem) : MemOk φ (arrive s core slot).mem := by
  unfold arrive
  split
  · exact hs
  · exact onTask_memOk hs arriveCur_memOk

theorem falseConflict_memOk {core slot : Nat} (hs : MemOk φ s.mem) : MemOk φ (falseConflict s core slot).mem := by
  unfold falseConflict
  split
  · exact hs
  · exact ite_memOk (onTask_memOk hs abortChunk_memOk) hs

theorem evict_memOk {core : Nat} (hs : MemOk φ s.mem) : MemOk φ (evict s core).mem := by
  unfold evict
  split <;> exact hs

theorem icEvict_memOk {core line : Nat} (hs : MemOk φ s.mem) : MemOk φ (icEvict s core line).mem := hs

theorem beginTurn_memOk {t : Turn} (hs : MemOk φ s.mem) : MemOk φ (beginTurn s t).mem := hs

theorem examined_yields {o : Out} (ho : Yields φ o) : Yields φ (examined o) := by
  obtain ⟨t, rfl, ht⟩ := ho
  exact yields_next.2 (settle_memOk ht)

theorem unitTurn_yields {i : Instr} (hs : MemOk φ s.mem) :
    Yields φ (unitTurn s i) :=
  kept_yields hs (examined_yields (exec_yields hs))

theorem runTurn_yields {a : Actor} (hs : MemOk φ s.mem) : Yields φ (runTurn s a) := by
  unfold runTurn
  split
  · exact kept_yields hs (yields_next.2 (settle_memOk (reseal_memOk hs)))
  · exact kept_yields hs (yields_next.2 (settle_memOk (bootNext_memOk hs)))
  · exact yields_next.2 (disableUnit_memOk hs)
  · exact yields_next.2 (countEvent_memOk hs)
  · exact kept_yields hs (yields_next.2 (settle_memOk (startMove_memOk hs)))
  · exact ite_yields (yields_next.2 hs) (unitTurn_yields hs)
  · exact issue_yields hs
  · exact yields_next.2 (msgWord_memOk hs)
  · exact kept_yields hs (yields_next.2 (settle_memOk (observe_memOk (mgmtArrives_memOk hs))))
  · exact yields_next.2 (msgSplit_memOk hs)
  · exact yields_next.2 (writeBack_memOk hs)
  · exact yields_next.2 (arrive_memOk hs)
  · exact yields_next.2 (falseConflict_memOk hs)
  · exact kept_yields hs (yields_next.2 (settle_memOk (mgmtStep_memOk hs)))
  · exact kept_yields hs (yields_next.2 (settle_memOk (repartStep_memOk hs)))
  · exact yields_next.2 (evict_memOk hs)
  · exact yields_next.2 (icEvict_memOk hs)

theorem step_eq (s : State) :
    step s = if takesTurn s (nextTurn s).actor then runTurn (beginTurn s (nextTurn s)) (nextTurn s).actor else .fault .noPower :=
      rfl

theorem step_yields (hs : MemOk φ s.mem) (hp : takesTurn s (nextTurn s).actor = true) : Yields φ (step s) := by
  rw [step_eq, if_pos hp]
  exact runTurn_yields (beginTurn_memOk hs)

/-- Settles O58: the invariant of memory with an empty condition, which says of each unit and instruction that it answers. -/
theorem progress : Obligations.Progress := by
  have yields (i : Instr) (s : State) : Yields False (exec i s) := exec_yields ⟨False.elim⟩
  have runs (s : State) (hp : s.power = true) : Yields False (step s) := step_yields ⟨False.elim⟩ (by simp [takesTurn, hp])
  exact ⟨fun i s => (yields i s).imp fun _ h => h.1, fun s hp => (runs s hp).imp fun _ h => h.1⟩

/-- Settles O59: every operation of the model keeps memory in canonical form, and a step is made of those. -/
theorem memoryInvariant : Obligations.MemoryInvariant := by
  intro s t hs e
  by_cases hp : takesTurn s (nextTurn s).actor = true
  · obtain ⟨u, hu, h⟩ := step_yields (φ := True) ⟨fun _ => hs⟩ hp
    rw [e] at hu
    cases hu
    exact h.wf trivial
  · rw [step_eq, if_neg hp] at e
    cases e

end Sys2Proof.Machine
end

section
/-! PROOFS. The state after reset (O60). -/
namespace Sys2Proof.Machine

theorem ctlGet_reset (off : Nat) : ctlGet State.reset off = ctlReset (8 * (off / 8)) := rfl

/-- Word 0 of a tenant interface is none of those with a reset value of its own. -/
theorem ctlReset_tenantOff (t : Nat) (ht : t < 64) : ctlReset (8 * (tenantOff t 0 / 8)) = 0 := by
  unfold ctlReset tenantOff
  simp only [Bool.and_eq_true, decide_eq_true_eq]
  rw [if_neg (by omega), if_neg (by omega), if_neg (by omega), if_neg (by omega)]

theorem ctlReset_hmapOff (n : Nat) (hn : n < 4096) : ctlReset (8 * (hmapOff n false / 8)) = 0x0100000000000000 := by
  unfold ctlReset hmapOff
  simp only [Bool.false_eq_true, if_false]
  rw [if_pos (by omega), if_pos (by omega)]

/-- A home-map entry without VALID is no entry. -/
theorem hEntryOf_eq_none {w0 : Word} (h : bitOf w0 63 = false) (n : Nat) (w1 : Word) : hEntryOf n w0 w1 = none := by
  simp [hEntryOf, h]

/-- Settles O60: each field at its reset value. -/
theorem resetState : Obligations.ResetState := by
  refine ⟨rfl, fun a => ⟨rfl, rfl, rfl⟩, rfl, fun t ht => ?_, fun n hn => ?_, rfl, rfl, fun n => rfl, rfl, fun i hi => ?_, rfl,
    rfl, rfl, rfl⟩
  · show fieldNat (ctlGet State.reset (tenantOff t 0)) 2 0 = 0
    rw [ctlGet_reset, ctlReset_tenantOff t ht]
    rfl
  · exact hEntryOf_eq_none (by rw [ctlGet_reset, ctlReset_hmapOff n hn]; rfl) n _
  · exact Vector.getElem_replicate ..
end Sys2Proof.Machine
end

section
/-! PROOFS. Bytes and words: a number split into bytes and put together again. -/

namespace Sys2Proof.Machine

@[simp] theorem length_bytesOfNat (n v : Nat) : (bytesOfNat n v).length = n := by
  induction n generalizing v with
  | zero => rfl
  | succ n ih => simp [bytesOfNat, ih]

/-- The bytes of a number followed by others. -/
theorem natOfBytes_bytesOfNat_append (n v : Nat) (bs : List Byte) :
    natOfBytes (bytesOfNat n v ++ bs) = v % 2 ^ (8 * n) + 2 ^ (8 * n) * natOfBytes bs := by
  induction n generalizing v with
  | zero => simp [bytesOfNat, Nat.mod_one]
  | succ n ih =>
    have hp : 2 ^ (8 * (n + 1)) = 256 * 2 ^ (8 * n) := by rw [Nat.mul_succ, pow_add]; ring
    simp only [bytesOfNat, List.cons_append, natOfBytes, BitVec.toNat_ofNat, ih]
    rw [hp, Nat.mod_mul]
    ring

theorem natOfBytes_bytesOfNat (n v : Nat) : natOfBytes (bytesOfNat n v) = v % 2 ^ (8 * n) := by
  simpa [natOfBytes] using natOfBytes_bytesOfNat_append n v []

theorem natOfBytes_bytesOfWords_cons (w : Word) (ws : List Word) :
    natOfBytes (bytesOfWords (w :: ws)) = w.toNat + 2 ^ 64 * natOfBytes (bytesOfWords ws) := by
  show natOfBytes (bytesOfNat 8 w.toNat ++ bytesOfWords ws) = _
  rw [natOfBytes_bytesOfNat_append, Nat.mod_eq_of_lt w.isLt]

/-- Word `k` of a list of words, from the number of its bytes. -/
theorem natOfBytes_bytesOfWords_div (ws : List Word) (k : Nat) :
    BitVec.ofNat 64 (natOfBytes (bytesOfWords ws) / 2 ^ (64 * k)) = ws.getD k 0 := by
  induction ws generalizing k with
  | nil => simp [bytesOfWords, natOfBytes]
  | cons w ws ih =>
    rw [natOfBytes_bytesOfWords_cons]
    have hw := w.isLt
    cases k with
    | zero =>
      apply BitVec.eq_of_toNat_eq
      simp
      omega
    | succ k =>
      have hp : 2 ^ (64 * (k + 1)) = 2 ^ 64 * 2 ^ (64 * k) := by rw [Nat.mul_succ, pow_add, Nat.mul_comm]
      have hq : (w.toNat + 2 ^ 64 * natOfBytes (bytesOfWords ws)) / 2 ^ 64 = natOfBytes (bytesOfWords ws) := by omega
      rw [List.getD_cons_succ, ← ih, hp, ← Nat.div_div_eq_div_mul, hq]

theorem extractLsb'_ofNat (w N i n : Nat) (h : i + n ≤ w) : (BitVec.ofNat w N).extractLsb' i n = BitVec.ofNat n (N / 2 ^ i) := by
  apply BitVec.eq_of_getLsbD_eq
  intro j hj
  simp only [BitVec.getLsbD_extractLsb', BitVec.getLsbD_ofNat, hj, decide_true, Bool.true_and, Nat.testBit_div_two_pow]
  rw [decide_eq_true (by omega), Bool.true_and, Nat.add_comm]

/-- Lane `k` of eight words. -/
theorem vecOfWords_lane (ws : List Word) {k : Nat} (h : k < 8) : (vecOfWords ws).extractLsb' (64 * k) 64 = ws.getD k 0 := by
  rw [vecOfWords, extractLsb'_ofNat _ _ _ _ (by omega), natOfBytes_bytesOfWords_div]

theorem lane64_eq (v : VWord) (i : Nat) : lane64 v i = v.extractLsb' (64 * i) 64 := by
  apply BitVec.eq_of_toNat_eq
  simp [lane64]

end Sys2Proof.Machine
end

section
/-! PROOFS. The loads that stay in the chunk (R61, R71, R131, R209, R372 to R378, R443 to R445). -/

namespace Sys2Proof.Machine

/-! ### The stages of an access -/

theorem awaitClass_done {s : State} {w : WaitClass} (h : ClassDone s w) (a : Word) (k : Out) : awaitClass s w a k = k := by
  unfold awaitClass
  rcases h with rfl | ⟨hout, hfails, hslice⟩
  · exact if_pos rfl
  · by_cases hn : w = .no
    · exact if_pos hn
    · dsimp only
      rw [if_neg hn, if_neg (by simp only [hout]; intro h; rcases h with h | ⟨hw, h⟩; exacts [h rfl, by simp [hslice hw] at h]),
        if_neg (by simp [hfails])]

theorem checked_inChunk {s u : State} {a : Word} {acc : Access} {rs ws : List Nat} (h : InChunk s u a acc rs ws) (k : Out) :
    checked s a acc k = k := by
  obtain ⟨-, -, hc, hb, -⟩ := h
  exact checked_ok hc (waitsBusy_free hb acc) k

/-- A load whose access passes its stages reads the chunk. -/
theorem startLoad_inChunk {s u : State} {t : Task} {r : LoadReq}
    (h : InChunk s u r.addr r.access (loadLines s r.addr r.size) []) (hm : r.mode = .pl ∨ r.mode = .rdn)
    (hw : ClassDone s r.cls) (hroom : loadRoom s.cur r.dest = true)
    (hfull : r.mode = .pl → loadFull s (localOf r.addr) r.size = true)
    (hp : accessPoison (chunkPoison u) (localOf r.addr) r.size = false) :
    startLoad s t r = .next (deliver (loadReached u r.addr r.size) (rebase u t) r.dest
      (destValue r.dest r.size r.signed (seenBytes (loadReached u r.addr r.size) r.addr r.size))) := by
  have hchecked := checked_inChunk h
  obtain ⟨hhold, hlocal, -, -, htouch⟩ := h
  unfold loadLines at htouch
  have hchunk : chunkLoad s t r = .next (deliver (loadReached u r.addr r.size) (rebase u t) r.dest
      (destValue r.dest r.size r.signed (seenBytes (loadReached u r.addr r.size) r.addr r.size))) := by
    unfold chunkLoad
    dsimp only
    rw [withLines_entered htouch, if_neg (by simp [hp])]
    rfl
  have hload : load s t r = chunkLoad s t r := by
    unfold load
    dsimp only
    rw [hchecked, awaitClass_done hw]
    rcases hm with hm | hm <;> simp_all
  unfold startLoad
  rw [held_none hhold, if_neg (by rcases hm with hm | hm <;> simp [hm, hlocal]), hload, hchunk]

/-! ### The value of a load -/

theorem extend_signed {n : Nat} (h1 : 1 ≤ n) (v : Nat) : extend n true v = (BitVec.ofNat (8 * n) v).signExtend 64 := by
  have heven : 2 ^ (8 * n) = 2 * 2 ^ (8 * n - 1) := by rw [← pow_succ']; congr 1; omega
  show _ = BitVec.ofInt 64 (BitVec.ofNat (8 * n) v).toInt
  rw [BitVec.toInt_eq_toNat_cond, BitVec.toNat_ofNat]
  unfold extend
  simp only [Bool.true_and, decide_eq_true_eq]
  split_ifs with hx hy hy
  · omega
  · push_cast; rfl
  · exact (BitVec.ofInt_natCast ..).symm
  · omega

theorem extend_unsigned {n : Nat} (h8 : n ≤ 8) (v : Nat) : extend n false v = (BitVec.ofNat (8 * n) v).zeroExtend 64 := by
  apply BitVec.eq_of_toNat_eq
  have : 2 ^ (8 * n) ≤ 2 ^ 64 := Nat.pow_le_pow_right (by decide) (by omega)
  simp [extend]

theorem destValue_destOf (d : Reg) (n : Nat) (g : Bool) (bs : List Byte) :
    destValue (destOf d) n g bs = (extend n g (natOfBytes bs)).zeroExtend 512 := by
  unfold destOf
  split_ifs <;> rfl

theorem destOf_cases (d : Reg) : (d = 0 ∨ d = 28) ∧ destOf d = .drop ∨ (d ≠ 0 ∧ d ≠ 28) ∧ destOf d = .g d := by
  unfold destOf
  split_ifs with h0 h28
  · exact .inl ⟨.inl h0, rfl⟩
  · exact .inl ⟨.inr h28, rfl⟩
  · exact .inr ⟨⟨h0, h28⟩, rfl⟩

theorem loadRoom_destOf {t : Task} {d : Reg} (h : destRoom t d = true) : loadRoom t (destOf d) = true := by
  rcases destOf_cases d with ⟨-, e⟩ | ⟨-, e⟩
  · rw [e]; rfl
  · rw [e]
    by_cases h29 : d = 29
    · subst h29; exact h
    · exact Bool.or_eq_true_iff.2 (.inl (bne_iff_ne.2 fun e => h29 (by injection e)))

theorem writeDest_destOf (c : Ctx) (d : Reg) (v : Word) : writeDest c (destOf d) (v.zeroExtend 512) = setG c d v := by
  have hv : (v.zeroExtend 512).truncate 64 = v := by apply BitVec.eq_of_toNat_eq; simp
  rcases destOf_cases d with ⟨rfl | rfl, e⟩ | ⟨-, e⟩
  · rfl
  · rfl
  · rw [e]; exact congrArg (setG c d) hv

theorem deliverAt_destOf (late : Bool) (u : State) (t : Task) (d : Reg) (v : Word) :
    deliverAt late u t (destOf d) (v.zeroExtend 512) = arrivedAt late u t d v := by
  unfold deliverAt arrivedAt wrote
  rw [writeDest_destOf]
  rcases destOf_cases d with ⟨hd, e⟩ | ⟨⟨h0, h28⟩, e⟩
  · rw [e, if_neg (by simp), if_neg (by tauto)]
  · cases late
    · rw [if_neg (by simp), if_neg (by simp)]
    · rw [e, if_pos (by rfl), if_pos ⟨rfl, h0, h28⟩]

theorem loadReq_access_plain {m : LoadMode} {w : WaitClass} {n : Nat} {g : Bool} {e : Dest} {a : Word} {ord scope : Nat} (hn : n < 16) :
    (LoadReq.mk m w n g e a ord scope).access = plainAccess false n := by
  simp only [LoadReq.access, plainAccess]
  congr 1
  · exact beq_eq_false_iff_ne.2 (by omega)
  · exact decide_eq_false (by omega)

/-- The load of a register of up to eight bytes: its extended value arrives. -/
theorem startLoad_arrives {s u : State} {t : Task} {d : Reg} {m : LoadMode} {w : WaitClass} {n ord scope : Nat} {g : Bool} {addr v : Word}
    (h16 : n < 16) (h : InChunk s u addr (plainAccess false n) (loadLines s addr n) [])
    (hp : accessPoison (chunkPoison u) (localOf addr) n = false) (hm : m = .pl ∨ m = .rdn) (hw : ClassDone s w)
    (hd : destRoom s.cur d = true) (hfull : m = .pl → loadFull s (localOf addr) n = true)
    (hv : extend n g (natOfBytes (seenBytes (loadReached u addr n) addr n)) = v) :
    startLoad s t ⟨m, w, n, g, destOf d, addr, ord, scope⟩ = .next (arrived (loadReached u addr n) (rebase u t) d v) := by
  rw [startLoad_inChunk (by rw [loadReq_access_plain h16]; exact h) hm hw (loadRoom_destOf hd) hfull hp, destValue_destOf, hv, deliver, deliverAt_destOf]

theorem baseLoad_ready {s : State} {d a : Reg} {i : BitVec 12} (hr : Ready s [a] [d]) (n : Nat) (g : Bool) :
    baseLoad s d a i n g =
      startLoad s (read1 s a) ⟨.pl, .no, n, g, destOf d, arg1 s a + BitVec.ofInt 64 i.toInt, 0, 0⟩ := gate_ready hr _

theorem execLx_ready {s : State} {z : MemSize} {m : LoadMode} {w : WaitClass} {x : Bool} {d a p : Reg}
    (hr : readiness s.cur ⟨x, [a, p], [d], [], []⟩ = .ready) :
    execLx z m w x d a p s = startLoad s (read2 s a p)
      ⟨m, w, MemSize.bytes z, true, destOf d, arg1 s a, policyOrd (arg2 s a p), policyScope (arg2 s a p)⟩ := gate_ready hr _

theorem memSize_lt (z : MemSize) : MemSize.bytes z < 16 := by cases z <;> decide

theorem loadsInChunk_holds : loadsInChunkClaim := by
  intro s u d a p i m w x hd
  refine ⟨fun hr => ?_, fun hr hm hw => ?_⟩
  · have step (n : Nat) (g : Bool) (v : Word) (h16 : n < 16) (addr : Word) (ha : addr = arg1 s a + BitVec.ofInt 64 i.toInt)
        (h : InChunk s u addr (plainAccess false n) (loadLines s addr n) [])
        (hp : accessPoison (chunkPoison u) (localOf addr) n = false) (hf : loadFull s (localOf addr) n = true)
        (hv : extend n g (natOfBytes (seenBytes (loadReached u addr n) addr n)) = v) :
        baseLoad s d a i n g = .next (arrived (loadReached u addr n) (rebase u (read1 s a)) d v) := by
      rw [baseLoad_ready hr, ← ha]
      exact startLoad_arrives h16 h hp (.inl rfl) (.inl rfl) hd (fun _ => hf) hv
    exact ⟨fun h hf => ⟨step 1 true _ (by decide) _ rfl h.1 h.2 hf (extend_signed (by decide) _),
        step 1 false _ (by decide) _ rfl h.1 h.2 hf (extend_unsigned (by decide) _)⟩,
      fun h hf => ⟨step 2 true _ (by decide) _ rfl h.1 h.2 hf (extend_signed (by decide) _),
        step 2 false _ (by decide) _ rfl h.1 h.2 hf (extend_unsigned (by decide) _)⟩,
      fun h hf => ⟨step 4 true _ (by decide) _ rfl h.1 h.2 hf (extend_signed (by decide) _),
        step 4 false _ (by decide) _ rfl h.1 h.2 hf (extend_unsigned (by decide) _)⟩,
      fun h hf => step 8 false _ (by decide) _ rfl h.1 h.2 hf ((extend_unsigned (by decide) _).trans (BitVec.setWidth_eq _))⟩
  · have step (z : MemSize) (v addr : Word) (ha : addr = arg1 s a)
        (h : InChunk s u addr (plainAccess false (MemSize.bytes z)) (loadLines s addr (MemSize.bytes z)) [])
        (hp : accessPoison (chunkPoison u) (localOf addr) (MemSize.bytes z) = false)
        (hf : m = .pl → loadFull s (localOf addr) (MemSize.bytes z) = true)
        (hv : extend (MemSize.bytes z) true
          (natOfBytes (seenBytes (loadReached u addr (MemSize.bytes z)) addr (MemSize.bytes z))) = v) :
        execLx z m w x d a p s = .next (arrived (loadReached u addr (MemSize.bytes z)) (rebase u (read2 s a p)) d v) := by
      rw [execLx_ready hr, ← ha]
      exact startLoad_arrives (memSize_lt z) h hp hm hw hd hf hv
    exact ⟨fun h hf => step .b _ _ rfl h.1 h.2 hf (extend_signed (by decide) _),
      fun h hf => step .h _ _ rfl h.1 h.2 hf (extend_signed (by decide) _),
      fun h hf => step .w _ _ rfl h.1 h.2 hf (extend_signed (by decide) _),
      fun h hf => step .d _ _ rfl h.1 h.2 hf ((extend_signed (by decide) _).trans (BitVec.signExtend_eq _))⟩

/-! ### Wide loads -/

theorem deliver_now {u : State} (h : u.late = false) (t : Task) (e : Dest) (v : VWord) :
    deliver u t e v = retire u { t with ctx := writeDest t.ctx e v } := by
  simp [deliver, deliverAt, h]

/-- The two words of a pair of registers. -/
theorem writeDest_pair (c : Ctx) (d : Reg) (n : Nat) :
    writeDest c (.g2 d) (BitVec.ofNat 512 n) = setG (setG c d (BitVec.ofNat 64 n)) (d + 1) (BitVec.ofNat 64 (n / 2 ^ 64)) := by
  have hlow : (BitVec.ofNat 512 n).truncate 64 = BitVec.ofNat 64 n := by apply BitVec.eq_of_toNat_eq; simp
  have hhigh : ((BitVec.ofNat 512 n) >>> 64).truncate 64 = BitVec.ofNat 64 (n / 2 ^ 64) := by
    apply BitVec.eq_of_toNat_eq; simp [Nat.shiftRight_eq_div_pow]; omega
  show setG (setG c d _) (d + 1) _ = _
  rw [hlow, hhigh]

/-! ### A state in which `vldx` does not keep the vector registers of the state its lines are entered in (O9)

The third part of `wideLoadsInChunkClaim` compares the vector registers at the end with those of `u`, the state in which the lines
are entered. Entering them may abort another chunk, for which the executing task is laid aside and looked up again by its key. In
a state in which a second task bears the same key, it is that task that stands in `u`; the instruction goes on with the registers
of its own. -/

def twinTask : Task := { Task.vacant 0 with key := 1, status := .resident 0, trusted := true }

/-- Two tasks of key 1, one with V[2] = 1, and a younger chunk that has written the line at G[1]. -/
def twinState : State := { State.reset with
  cur := { twinTask with ctx := { Ctx.initial with g := Ctx.initial.g.set 1 0x2000080000 } }
  tasks := [{ twinTask with ctx := { Ctx.initial with v := Ctx.initial.v.set 2 1 } },
    { twinTask with key := 2, chunk := { Chunk.begin Ctx.initial 1 true with wlines := [0x2000080000 / 64] } }] }

def twinAddrs : List Word := (List.range 8).map fun k => arg1 twinState 1 + (getV twinState.cur.ctx 3).extractLsb' (64 * k) 64

def twinLines : List Nat :=
  ((twinAddrs.map localOf).filter fun b => !regionSealed twinState b).flatMap fun b => accessLines twinState b 8

def twinEntered : State :=
  match touch twinState twinLines [] with
  | .entered u => u
  | _ => twinState

theorem twin_touch : touch twinState twinLines [] = .entered twinEntered := by
  have h : (match touch twinState twinLines [] with | .entered _ => true | _ => false) = true := by decide +kernel
  unfold twinEntered
  split at h
  next u e => rw [e]
  · cases h

theorem twin_addrs : twinAddrs = List.replicate 8 0x2000080000 := by decide +kernel

/-- V[2] is 1 in the task that stands in `u`, and 0 once the instruction has ended. -/
theorem twin_registers : getV twinEntered.cur.ctx 2 = 1 ∧
    (match exec (.vldx 5 1 3) twinState with | .next t => getV t.cur.ctx 2 | _ => 1) = 0 := by decide +kernel

/-- Refutes O9: in a state in which two tasks bear one key, `vldx` ends with a vector register that differs from that of the
task in the slot as its lines were entered. -/
theorem not_loadsInChunk : ¬ Obligations.LoadsInChunk := by
  rintro ⟨-, h⟩
  obtain ⟨-, -, h⟩ := h twinState twinEntered 5 1 3 .pl .no false (by decide +kernel)
  have haddr (b : Word) (hb : b ∈ twinAddrs) : b = 0x2000080000 := by rw [twin_addrs] at hb; exact List.eq_of_mem_replicate hb
  have hlocal (b : Nat) (hb : b ∈ twinAddrs.map localOf) : b = 0x2000080000 := by
    obtain ⟨w, hw, rfl⟩ := List.mem_map.1 hb
    rw [haddr w hw]; rfl
  obtain ⟨t, ht, -, -, hkept⟩ := h (by decide +kernel) rfl rfl (fun b hb => by rw [haddr b hb]; decide +kernel)
    (fun b hb => by rw [hlocal b hb]; decide +kernel) twin_touch (fun b hb => by rw [hlocal b hb]; decide +kernel)
  obtain ⟨hu, hend⟩ := twin_registers
  rw [ht] at hend
  have := hkept 2 (by decide)
  rw [hu] at this
  exact absurd (this.symm.trans hend) (by decide +kernel)

end Sys2Proof.Machine
end

section
/-! PROOFS. The causes of an access, in the order of the checks of Table 05.2 (R126, R209, R458). -/

namespace Sys2Proof.Machine

theorem baseStore_ready {s : State} {a b : Reg} {i : BitVec 12} (hr : Ready s [a, b] []) (n : Nat) :
    baseStore s a b i n = startStore s (read2 s a b)
      ⟨.pl, .no, arg1 s a + BitVec.ofInt 64 i.toInt, bytesOfNat n (arg2 s a b).toNat, 0, 0⟩ := gate_ready hr _

/-- A load the checks refuse. -/
theorem startLoad_refused {s : State} {t : Task} {r : LoadReq} {c : Nat} (hh : s.cur.hold = none) (hl : isLocal s r.addr = true)
    (hm : r.mode = .pl) (hb : regionBusy s (localOf r.addr) = false)
    (hc : checkAccess s s.cur.tenant s.cur.trusted r.addr r.access = some c) : startLoad s t r = trap s c r.addr := by
  unfold startLoad load
  rw [held_none hh, if_neg (by simp [hm, hl]), checked_cause hc (waitsBusy_free hb _)]
  rfl

theorem startStore_refused {s : State} {t : Task} {r : StoreReq} {c : Nat} (hh : s.cur.hold = none) (hl : isLocal s r.addr = true)
    (hm : r.mode = .pl) (hb : regionBusy s (localOf r.addr) = false)
    (hc : checkAccess s s.cur.tenant s.cur.trusted r.addr r.access = some c) : startStore s t r = trap s c r.addr := by
  unfold startStore store
  rw [held_none hh, if_neg (by simp [hm, hl]), checked_cause hc (waitsBusy_free hb _)]
  rfl

/-! ### The checks, place by place -/

section
variable {s : State} {t : Nat} {tr wr : Bool} {a : Word}

theorem alignedFor_plain (h : localOf a < 0x2000000000 ∨ 0x2100000000 ≤ localOf a) :
    alignedFor (localOf a) (plainAccess wr 8) = decide (localOf a % 8 = 0) := by
  have hw : rawWindow (localOf a) = none := if_neg (by simp only [Bool.and_eq_true, decide_eq_true_eq]; omega)
  unfold alignedFor
  rw [hw]
  rfl

theorem checkAccess_local (hw : fieldNat a 63 56 = 0) (hal : localOf a % 8 = 0)
    (h : localOf a < 0x2000000000 ∨ 0x2100000000 ≤ localOf a) (hl : isLocal s a = true) :
    checkAccess s t tr a (plainAccess wr 8) = checkLocal s t tr (localOf a) (plainAccess wr 8) := by
  unfold checkAccess
  rw [if_neg (by simp [hw]), if_neg (by simp [alignedFor_plain h, hal]), if_neg (by simp [hl])]

theorem placeOf_dram {l : Nat} (h : l < 0x2000000000) (hb : bankRetired s l = false) : placeOf s l = .dram := by
  simp [placeOf, h, hb]

theorem placeOf_control {l : Nat} (h : 0x2100000000 ≤ l) (h' : l < 0x2200000000) : placeOf s l = .control (l - 0x2100000000) := by
  unfold placeOf
  rw [if_neg (by omega), if_neg (by omega), if_pos h']

theorem placeOf_unmapped {l : Nat} (h : 0x2200000000 ≤ l) (h' : l < 0x8000000000) : placeOf s l = .unmapped := by
  unfold placeOf
  rw [if_neg (by omega), if_neg (by omega), if_neg (by omega), if_pos h']

theorem checkLocal_dram_unmapped {l : Nat} {acc : Access} (h : placeOf s l = .dram) (he : regionAt s l = none) :
    checkLocal s t tr l acc = some 0x11 := by
  simp only [checkLocal, h, he]

theorem checkLocal_dram_region {l : Nat} {acc : Access} {e : HEntry} (h : placeOf s l = .dram) (he : regionAt s l = some e) :
    checkLocal s t tr l acc =
      if !ownsAccess s t tr l acc then some 0x04 else if acc.write && e.sealed then some 0x03 else none := by
  simp only [checkLocal, h, he]

theorem checkLocal_unmapped {l : Nat} {acc : Access} (h : placeOf s l = .unmapped) : checkLocal s t tr l acc = some 0x11 := by
  unfold checkLocal
  rw [h]

theorem checkLocal_control {l o : Nat} {acc : Access} (h : placeOf s l = .control o) :
    checkLocal s t tr l acc = if tr && !acc.noCtl then none else some 0x11 := by
  unfold checkLocal
  rw [h]

theorem ownsAccess_dram {l : Nat} {acc : Access} {e : HEntry} (h : placeOf s l = .dram) (he : regionAt s l = some e) :
    ownsAccess s t tr l acc = (tr || decide (e.owner = t)) := by
  unfold ownsAccess
  rw [h]
  simp [he]

end

/-- Settles O15: an access is judged before it does anything, and its judgement follows the place of its address. -/
theorem accessCauses : Obligations.AccessCauses := by
  refine ⟨?_, ?_, ?_⟩
  · intro s d a i c hr hh addr hl hb hc
    exact (baseLoad_ready hr 8 false).trans (startLoad_refused (r := ⟨.pl, .no, 8, false, destOf d, addr, 0, 0⟩) hh hl rfl hb hc)
  · intro s a b i c hr hh addr hl hb hc
    refine (baseStore_ready hr 8).trans (startStore_refused (r := ⟨.pl, .no, addr, _, 0, 0⟩) hh hl rfl hb ?_)
    simpa [StoreReq.access, plainAccess] using hc
  intro s t tr wr a e
  dsimp only
  refine ⟨fun hw => ?_, fun hw hal h => ?_, fun hw hal h hl hb => ?_, fun hw hal hl h h' => ?_, fun hw hal hl h h' => ?_⟩
  · exact if_pos hw
  · unfold checkAccess
    rw [if_neg (by simp [hw]), if_pos (by simp [alignedFor_plain (.inl h), hal])]
  · have hp := placeOf_dram h hb
    have hcheck := checkAccess_local (t := t) (tr := tr) (wr := wr) hw hal (.inl h) hl
    refine ⟨fun he => ?_, fun he htr ho => ?_, fun he ho => ?_⟩
    · exact hcheck.trans (checkLocal_dram_unmapped hp he)
    · exact hcheck.trans ((checkLocal_dram_region hp he).trans (by simp [ownsAccess_dram hp he, htr, ho]))
    · exact hcheck.trans ((checkLocal_dram_region hp he).trans
        (by rcases ho with ho | ho <;> simp [ownsAccess_dram hp he, ho] <;> rfl))
  · have hcheck := (checkAccess_local (t := t) (tr := tr) (wr := wr) hw hal (.inr h) hl).trans
      (checkLocal_control (placeOf_control h h'))
    exact hcheck.trans (by simp [plainAccess])
  · exact (checkAccess_local hw hal (.inr (by omega)) hl).trans (checkLocal_unmapped (placeOf_unmapped h h'))

end Sys2Proof.Machine
end

section
/-! PROOFS. Accesses that a home of the package performs at once, or that wait there (R136, R140, R158, R341 to R343, R376, R377,
R424). -/

namespace Sys2Proof.Machine

/-! ### What a home finds -/

/-- The access of a task that stands alone, as its home sees it. -/
def aloneWaiter (s : State) (op : HomeOp) (e : Dest) (g : Bool) (a : Word) : Waiter :=
  ⟨s.nextKey, s.cur.tenant, s.cur.trusted, localOf a, op, .task s.cur.key e op.size g, s.time⟩

theorem checkLocal_of_checkAccess {s : State} {t : Nat} {tr : Bool} {a : Word} {acc : Access} (hl : isLocal s a = true)
    (h : checkAccess s t tr a acc = none) : checkLocal s t tr (localOf a) acc = none := by
  unfold checkAccess at h
  split_ifs at h with h1 h2 h3
  · simp [hl] at h3
  · exact h

/-- Which operations have the plain tests of a home: a cause of Table 05.2 or a poisoned word, and the tag. -/
theorem jobReady_iff {s : State} {w : Waiter} (hop : ∀ c v b, w.op ≠ .watch c v b) (hb : regionBusy s w.addr = false)
    (hs : serialHolds s w.asker.key (accessLines s w.addr w.op.size) = false) (hc : jobCause s w = none) :
    jobReady s w = tagReady s w.addr w.op := by
  unfold jobReady
  split
  next c v e => exact absurd e (hop c v true)
  · simp [hb, hs, hc]

theorem homeAlone_done {s s1 : State} {t : Task} {op : HomeOp} {e : Dest} {g : Bool} {a : Word} {bs : List Byte}
    (hr : jobReady s (aloneWaiter s op e g a) = true)
    (hj : runJob s (aloneWaiter s op e g a) (s.cur.core, s.cur.slot?.getD 0) = (s1, none, bs)) :
    homeAlone s t op e g a =
      .next (settle (retireAlone s1 { rebase s1 t with ctx := writeDest t.ctx e (destValue e op.size g bs) })) := by
  unfold aloneWaiter at hj
  unfold homeAlone
  exact (if_pos hr).trans (by rw [hj])

theorem homeAlone_waits {s : State} {op : HomeOp} {e : Dest} {g : Bool} {a : Word}
    (hr : jobReady s (aloneWaiter s op e g a) = false) (t : Task) :
    homeAlone s t op e g a = .next (bumpKey { holdFor s e (.home s.nextKey) with
      eng := { s.eng with waiters := s.eng.waiters ++ [aloneWaiter s op e g a] } }) := by
  unfold homeAlone
  exact if_neg (by unfold aloneWaiter at hr; rw [hr]; decide)

theorem ordered_met {s : State} {ord : Nat} (h : OrderMet s ord) (k : Out) : ordered s ord k = k := by
  refine if_neg fun e => ?_
  simp only [Bool.and_eq_true, decide_eq_true_eq, Bool.not_eq_true'] at e
  rcases h with h | h
  · omega
  · simp [h] at e

theorem checked_atHome {s : State} {a : Word} {acc : Access} (h : AtHome s a acc) (k : Out) : checked s a acc k = k := by
  obtain ⟨-, -, hc, hb⟩ := h
  exact checked_ok hc (waitsBusy_free hb acc) k

theorem alone_of {s : State} (h : Alone s) (k : Out) : alone s k = k := by
  obtain ⟨hf, hs, hb, -⟩ := h
  exact alone_fresh hf hs hb k

/-! ### What a home performs, once its checks pass -/

section
variable {s : State} {w : Waiter} {slot : Nat × Nat}

theorem runJob_load {m : LoadMode} {n : Nat} (hop : w.op = .load m n) (hc : jobCause s w = none) :
    runJob s w slot =
      (if m = .wfe ∧ syncPlace (placeOf s w.addr) = true then devTags s (canon s w.addr) n false else jobRead s w.addr n, none,
        placeRead s s.mem.readBytes (ctlBytes s) w.addr n) := by
  simp only [runJob, hop, hc, Bool.and_eq_true, beq_iff_eq]

end

/-! ### Loads in modes wf and wfe -/

section
variable {s : State} {t : Task} {m : LoadMode} {n : Nat} {e : Dest} {g : Bool} {a : Word}

theorem startLoad_atHome {r : LoadReq} (hm : r.mode = .wf ∨ r.mode = .wfe) (hroom : loadRoom s.cur r.dest = true)
    (hw : ClassDone s r.cls) (ho : OrderMet s r.ord) (h : AtHome s r.addr r.access) :
    startLoad s t r = homeAlone s t (.load r.mode r.size) r.dest r.signed r.addr := by
  have hmode : (r.mode == .wf || r.mode == .wfe) = true := by rcases hm with hm | hm <;> rw [hm] <;> rfl
  have hload : load s t r = homeAlone s t (.load r.mode r.size) r.dest r.signed r.addr := by
    unfold load
    dsimp only
    rw [checked_atHome h, awaitClass_done hw, if_neg (by simp [hroom]), if_neg (by simp [h.2.1]), if_pos hmode, ordered_met ho]
  unfold startLoad
  rw [held_none h.1.2.2.2, if_pos (by rw [hmode]; rfl), alone_of h.1, hload]

theorem access_load_plain (m : LoadMode) (hn : n < 16) : (HomeOp.load m n).access = plainAccess false n := by
  have h16 : (n == 16) = false := beq_eq_false_iff_ne.2 (by omega)
  have hle : decide (16 ≤ n) = false := decide_eq_false (by omega)
  show Access.mk false n n (n == 16) ((n == 16) || decide (16 ≤ n)) false = _
  rw [h16, hle]
  rfl

/-- Every word that `n` bytes touch is full, where the place has tags. -/
def HomeFull (s : State) (a : Word) (n : Nat) : Prop :=
  syncPlace (placeOf s (localOf a)) = true → ∀ q ∈ wordsAt (canon s (localOf a)) n, s.mem.full q = true

theorem tagReady_load (hm : m = .wf ∨ m = .wfe) : tagReady s (localOf a) (.load m n) = true ↔ HomeFull s a n := by
  have hall : tagReady s (localOf a) (.load m n) =
      (!syncPlace (placeOf s (localOf a)) || (wordsAt (canon s (localOf a)) n).all s.mem.full) := by
    rcases hm with rfl | rfl <;> rfl
  rw [hall, HomeFull, Bool.or_eq_true, List.all_eq_true, Bool.not_eq_true', ← Bool.not_eq_true]
  tauto

/-- The home after a load: wfe leaves its words empty. -/
def loadTags (s : State) (m : LoadMode) (a : Word) (n : Nat) : State :=
  if m = .wfe ∧ syncPlace (placeOf s (localOf a)) = true then devTags s (canon s (localOf a)) n false else jobRead s (localOf a) n

def homeBytes (s : State) (a : Word) (n : Nat) : List Byte := placeRead s s.mem.readBytes (ctlBytes s) (localOf a) n

theorem homeLoad_cause (h : AtHome s a (HomeOp.load m n).access) (hp : accessPoison s (localOf a) n = false) :
    jobCause s (aloneWaiter s (.load m n) e g a) = none := by
  obtain ⟨-, hl, hc, -⟩ := h
  show (match checkLocal s s.cur.tenant s.cur.trusted (localOf a) (HomeOp.load m n).access with
    | some c => some c
    | none => if accessPoison s (localOf a) n then some 0x0C else none) = none
  rw [checkLocal_of_checkAccess hl hc]
  simp [hp]

theorem homeLoad_ready (hm : m = .wf ∨ m = .wfe) (h : AtHome s a (HomeOp.load m n).access) (hf : HomeFree s s.cur.key a n) :
    jobReady s (aloneWaiter s (.load m n) e g a) = true ↔ HomeFull s a n := by
  rw [jobReady_iff (by intro c v b; exact HomeOp.noConfusion) h.2.2.2 hf.1 (homeLoad_cause h hf.2)]
  exact tagReady_load hm

theorem homeLoad_full (hm : m = .wf ∨ m = .wfe) (h : AtHome s a (HomeOp.load m n).access) (hf : HomeFree s s.cur.key a n)
    (hfull : HomeFull s a n) : homeAlone s t (.load m n) e g a = .next (settle (retireAlone (loadTags s m a n)
      { rebase (loadTags s m a n) t with ctx := writeDest t.ctx e (destValue e n g (homeBytes s a n)) })) := by
  exact homeAlone_done ((homeLoad_ready hm h hf).2 hfull) (runJob_load rfl (homeLoad_cause h hf.2))

theorem homeLoad_waits (hm : m = .wf ∨ m = .wfe) (h : AtHome s a (HomeOp.load m n).access) (hf : HomeFree s s.cur.key a n)
    (hempty : ¬HomeFull s a n) : homeAlone s t (.load m n) e g a = .next (bumpKey { holdFor s e (.home s.nextKey) with
      eng := { s.eng with waiters := s.eng.waiters ++ [aloneWaiter s (.load m n) e g a] } }) :=
  homeAlone_waits (Bool.eq_false_iff.2 fun hr => hempty ((homeLoad_ready hm h hf).1 hr)) t

end

/-- Settles O10: alone, a load in mode wf or wfe is one job at its home, or waits there. -/
theorem loadsAtHome : Obligations.LoadsAtHome := by
  intro s d a p z m w x hd hm hw ho addr l tags bytes full waits
  constructor
  · intro hr n h hf
    have hn := memSize_lt z
    have hacc : (HomeOp.load m n).access = plainAccess false n := access_load_plain m hn
    have hload : exec (.lx z m w x d a p) s = homeAlone s (read2 s a p) (.load m n) (destOf d) true addr :=
      (execLx_ready hr).trans (startLoad_atHome (r := ⟨m, w, n, true, destOf d, addr, _, _⟩) hm (loadRoom_destOf hd) hw ho
        (by rw [loadReq_access_plain hn]; exact h))
    rw [← hacc] at h
    refine ⟨fun hfull => ⟨extend n true (bytes n), ?_, ?_⟩, fun hempty => hload.trans (homeLoad_waits hm h hf hempty)⟩
    · rw [extend_signed (by cases z <;> decide)]
      exact BitVec.toInt_signExtend_of_le (by cases z <;> decide)
    · rw [hload, homeLoad_full hm h hf hfull, destValue_destOf, writeDest_destOf]
      rfl
  · intro hr _ h hf
    have hload : exec (.lxQ m w x d a p) s = homeAlone s (read2 s a p) (.load m 16) (.g2 d) false addr :=
      (gate_ready hr _).trans (startLoad_atHome (r := ⟨m, w, 16, false, .g2 d, addr, _, _⟩) hm rfl hw ho h)
    refine ⟨fun hfull => ?_, fun hempty => hload.trans (homeLoad_waits hm h hf hempty)⟩
    rw [hload, homeLoad_full hm h hf hfull, show destValue (.g2 d) 16 false _ = BitVec.ofNat 512 _ from rfl, writeDest_pair]
    rfl

end Sys2Proof.Machine
end

section
/-! PROOFS. Atomics at their home and the tag instructions in the chunk (R136, R341 to R343, R425, R426). -/

namespace Sys2Proof.Machine

/-! ### The new value of an atomic -/

theorem signedOf_toNat {w : Nat} (x : BitVec w) : signedOf w x.toNat = x.toInt := by
  rw [signedOf, BitVec.toInt_eq_toNat_cond, Nat.mod_eq_of_lt x.isLt]
  split_ifs with h h'
  · omega
  · push_cast; rfl
  · rfl
  · omega

theorem amoNew_eq (o : AmoOp) (n : Nat) (x y e : BitVec (8 * n)) :
    amoNew o n x.toNat y.toNat e.toNat = (amoResult o x y e).map BitVec.toNat := by
  cases o
  case add => simp [amoNew, amoResult]
  case and => simp [amoNew, amoResult]
  case or => simp [amoNew, amoResult]
  case xor => simp [amoNew, amoResult]
  case min => simp only [amoNew, amoResult, signedOf_toNat, Option.map_some, apply_ite BitVec.toNat]
  case max =>
    simp only [amoNew, amoResult, signedOf_toNat, Option.map_some]
    split_ifs with h h' h'
    · rw [BitVec.eq_of_toInt_eq (Int.le_antisymm h h')]
    · rfl
    · rfl
    · omega
  case minu => simp only [amoNew, amoResult, Option.map_some]; split_ifs <;> simp <;> omega
  case maxu => simp only [amoNew, amoResult, Option.map_some]; split_ifs <;> simp <;> omega
  case swap => rfl
  case cas => simp only [amoNew, amoResult, ← BitVec.toNat_inj, apply_ite (Option.map BitVec.toNat), Option.map_some, Option.map_none]

theorem natOfBytes_lt (bs : List Byte) : natOfBytes bs < 2 ^ (8 * bs.length) := by
  induction bs with
  | nil => simp [natOfBytes]
  | cons b bs ih =>
    have hb := b.isLt
    have hp : 2 ^ (8 * (bs.length + 1)) = 256 * 2 ^ (8 * bs.length) := by rw [Nat.mul_succ, pow_add]; ring
    simp only [natOfBytes, List.length_cons, hp]
    omega

theorem natOfBytes_readBytes_lt (m : Mem) (a n : Nat) : natOfBytes (m.readBytes a n) < 2 ^ (8 * n) := by
  have := natOfBytes_lt (m.readBytes a n)
  rwa [Mem.readBytes, List.length_map, List.length_range] at this

/-! ### One atomic at its home -/

/-- An access that windows W1 to W7 and control space refuse reaches a place with tags. -/
theorem syncPlace_of_checkLocal {s : State} {t : Nat} {tr : Bool} {l : Nat} {acc : Access} (h0 : acc.w0Only = true)
    (hc : acc.noCtl = true) (h : checkLocal s t tr l acc = none) : syncPlace (placeOf s l) = true := by
  unfold checkLocal at h
  dsimp only at h
  split at h
  · cases h
  · cases h
  · simp [hc] at h
  next w c o e =>
    rw [e]
    by_cases hw : w = 0
    · rw [hw]; rfl
    · simp [hw, h0] at h
  next e => rw [e]; rfl

section
variable {s : State} {w : Waiter} {slot : Nat × Nat} {o : AmoOp} {n : Nat} {v e : Word}

/-- The memory after an atomic: the new value, its tag as it was. -/
def amoStored (s : State) (l n : Nat) (r : Option Nat) : State :=
  match r with
  | some x => devWrite s (canon s l) (bytesOfNat n x) none
  | none => jobRead s l n

theorem runJob_amo (hop : w.op = .amo o n v e) (hc : jobCause s w = none) :
    runJob s w slot = (amoStored s w.addr n (amoNew o n (natOfBytes (s.mem.readBytes (canon s w.addr) n))
        (v.toNat % 2 ^ (8 * n)) (e.toNat % 2 ^ (8 * n))), none, bytesOfNat n (natOfBytes (s.mem.readBytes (canon s w.addr) n))) := by
  simp only [runJob, hop, hc]
  rfl

end

section
variable {s : State} {t : Task} {o : AmoOp} {n : Nat} {d : Reg} {a v e : Word}

theorem homeAmo_cause (h : AtHome s a ⟨true, n, n, true, true, false⟩) (hp : accessPoison s (localOf a) n = false) (g : Bool) (e' : Dest) :
    jobCause s (aloneWaiter s (.amo o n v e) e' g a) = none := by
  obtain ⟨-, hl, hc, -⟩ := h
  show (match checkLocal s s.cur.tenant s.cur.trusted (localOf a) ⟨true, n, n, true, true, false⟩ with
    | some c => some c
    | none => if accessPoison s (localOf a) n then some 0x0C else none) = none
  rw [checkLocal_of_checkAccess hl hc]
  simp [hp]

theorem homeAmo_ready (h : AtHome s a ⟨true, n, n, true, true, false⟩) (hf : HomeFree s s.cur.key a n) (g : Bool) (e' : Dest) :
    jobReady s (aloneWaiter s (.amo o n v e) e' g a) = true ↔ ∀ q ∈ wordsAt (canon s (localOf a)) n, s.mem.full q = true := by
  have hsync := syncPlace_of_checkLocal rfl rfl (checkLocal_of_checkAccess h.2.1 h.2.2.1)
  rw [jobReady_iff (by intro c v b; exact HomeOp.noConfusion) h.2.2.2 hf.1 (homeAmo_cause h hf.2 g e')]
  show (!syncPlace (placeOf s (localOf a)) || (wordsAt (canon s (localOf a)) n).all s.mem.full) = true ↔ _
  rw [hsync, Bool.not_true, Bool.false_or, List.all_eq_true]

theorem execAmo_ready {z : AmoSize} {x : Bool} {b : Reg} {ra : Reg} (hd : destRoom s.cur d = true)
    (hr : readiness s.cur ⟨x, if o = .cas then [ra, b, d] else [ra, b], [d], [], []⟩ = .ready)
    (h : AtHome s (arg1 s ra) ⟨true, if z = .w then 4 else 8, if z = .w then 4 else 8, true, true, false⟩) :
    exec (.amo z o x d ra b) s = homeAlone s (if o = .cas then read3 s ra b d else read2 s ra b)
      (.amo o (if z = .w then 4 else 8) (arg2 s ra b) (if o = .cas then arg3 s ra b d else 0)) (destOf d) true (arg1 s ra) := by
  rw [exec_amo]
  refine (gate_ready hr _).trans ((alone_of h.1 _).trans ?_)
  have hpair : (if o = .cas then takeG (read2 s ra b) d else (0, read2 s ra b)) =
      (if o = .cas then arg3 s ra b d else 0, if o = .cas then read3 s ra b d else read2 s ra b) := by split_ifs <;> rfl
  show atomicAccess s (if o = .cas then takeG (read2 s ra b) d else (0, read2 s ra b)).2 o (if z = .w then 4 else 8) d (arg1 s ra)
    (arg2 s ra b) (if o = .cas then takeG (read2 s ra b) d else (0, read2 s ra b)).1 = _
  rw [hpair]
  unfold atomicAccess
  rw [held_none h.1.2.2.2, checked_atHome h, if_neg (by simp [hd]), if_neg (by simp [h.2.1])]

theorem homeAmo_full {w : Nat} (hw : w = 8 * n) {x y z : BitVec w} (h : AtHome s a ⟨true, n, n, true, true, false⟩)
    (hf : HomeFree s s.cur.key a n) (hfull : ∀ q ∈ wordsAt (canon s (localOf a)) n, s.mem.full q = true)
    (hx : x.toNat = natOfBytes (s.mem.readBytes (canon s (localOf a)) n)) (hy : y = v.truncate w) (hz : z = e.truncate w)
    (h1 : 1 ≤ n) : homeAlone s t (.amo o n v e) (destOf d) true a =
      .next (settle (retireAlone (amoStored s (localOf a) n ((amoResult o x y z).map BitVec.toNat))
        { rebase (amoStored s (localOf a) n ((amoResult o x y z).map BitVec.toNat)) t with
          ctx := setG t.ctx d (x.signExtend 64) })) := by
  subst hw hy hz
  have hnew : amoNew o n (natOfBytes (s.mem.readBytes (canon s (localOf a)) n)) (v.toNat % 2 ^ (8 * n)) (e.toNat % 2 ^ (8 * n)) =
      (amoResult o x (v.truncate (8 * n)) (e.truncate (8 * n))).map BitVec.toNat := by
    rw [← amoNew_eq, hx]; simp
  have hold : BitVec.ofNat (8 * n) (natOfBytes (s.mem.readBytes (canon s (localOf a)) n) % 2 ^ (8 * n)) = x := by
    apply BitVec.eq_of_toNat_eq; rw [hx]; simp [Nat.mod_eq_of_lt (natOfBytes_readBytes_lt _ _ _)]
  rw [homeAlone_done ((homeAmo_ready h hf true (destOf d)).2 hfull) (runJob_amo rfl (homeAmo_cause h hf.2 true (destOf d)))]
  dsimp only [aloneWaiter, HomeOp.size]
  rw [destValue_destOf, writeDest_destOf, extend_signed h1, natOfBytes_bytesOfNat, hold, hnew]

theorem homeAmo_waits (h : AtHome s a ⟨true, n, n, true, true, false⟩) (hf : HomeFree s s.cur.key a n) (g : Bool) (e' : Dest)
    (hempty : ¬∀ q ∈ wordsAt (canon s (localOf a)) n, s.mem.full q = true) : homeAlone s t (.amo o n v e) e' g a =
      .next (bumpKey { holdFor s e' (.home s.nextKey) with
        eng := { s.eng with waiters := s.eng.waiters ++ [aloneWaiter s (.amo o n v e) e' g a] } }) :=
  homeAlone_waits (Bool.eq_false_iff.2 fun hr => hempty ((homeAmo_ready h hf g e').1 hr)) t

end

theorem atomicsClaim_holds : atomicsClaim := by
  intro s d a b o z x hr hd n addr l t e h hf c full
  have hexec : exec (.amo z o x d a b) s = homeAlone s t (.amo o n (arg2 s a b) e) (destOf d) true addr := execAmo_ready hd hr h
  refine ⟨fun hfull hz => ?_, fun hfull hz => ?_, fun hempty => hexec.trans (homeAmo_waits h hf true (destOf d) hempty)⟩
  · subst hz
    have hx : (s.mem.read64 c).toNat = natOfBytes (s.mem.readBytes c 8) :=
      (BitVec.toNat_ofNat _ _).trans (Nat.mod_eq_of_lt (natOfBytes_readBytes_lt s.mem c 8))
    have hdone := homeAmo_full (o := o) (d := d) (t := t) (w := 64) (n := 8) (v := arg2 s a b) (e := e) rfl h hf hfull hx
      (BitVec.setWidth_eq _).symm (BitVec.setWidth_eq _).symm (by decide)
    rw [BitVec.signExtend_eq] at hdone
    refine (hexec.trans hdone).trans ?_
    dsimp only
    cases amoResult o (s.mem.read64 c) (arg2 s a b) e <;> rfl
  · subst hz
    have hx : (BitVec.ofNat 32 (natOfBytes (s.mem.readBytes c 4))).toNat = natOfBytes (s.mem.readBytes c 4) :=
      (BitVec.toNat_ofNat _ _).trans (Nat.mod_eq_of_lt (natOfBytes_readBytes_lt s.mem c 4))
    have hdone := homeAmo_full (o := o) (d := d) (t := t) (w := 32) (n := 4) (v := arg2 s a b) (e := e) rfl h hf hfull hx rfl rfl
      (by decide)
    refine (hexec.trans hdone).trans ?_
    dsimp only
    cases amoResult o (BitVec.ofNat 32 (natOfBytes (s.mem.readBytes c 4))) ((arg2 s a b).truncate 32) (e.truncate 32) <;> rfl

/-! ### Tags in the chunk -/

theorem chunkTag_append (s : State) (t : Task) (b : Nat) (f : Bool) (a : Nat)
    (ht : t.chunk.log = s.cur.chunk.log ++ [.tag b f]) :
    chunkTag { s with cur := t } a = if b / 8 = a / 8 then f else chunkTag s a := by
  unfold chunkTag
  rw [ht, List.foldl_append]
  rfl

theorem tagsClaim_holds : tagsClaim := by
  intro s u d a b l
  refine ⟨fun hr hd hctl h => ?_, fun hr h hp => ?_⟩
  · have hexec : exec (.tagr d a) s = tagRead s (read1 s a) d (arg1 s a) := by
      rw [exec_tagr]
      exact (gate_ready hr _).trans (if_pos h.2.1)
    rw [hexec]
    unfold tagRead
    rw [held_none h.1, checked_inChunk h, if_neg (by simp [hd]), if_neg (by simp [h.2.1])]
    refine (withLines_entered h.2.2.2.2 _).trans ?_
    dsimp only
    cases hk : placeOf u (localOf (arg1 s a)) with
    | control o => exact absurd hk (hctl o)
    | _ => rfl
  · refine ⟨retire u ((rebase u (read2 s a b)).hold' (.tag (canon s l) ((arg2 s a b).getLsbD 0))), ?_, onlyTask_retire _ _, ?_, ?_, ?_,
      fun _ => rfl⟩
    · have hexec : exec (.tagw a b) s = tagStore s (read2 s a b) (arg1 s a) ((arg2 s a b).getLsbD 0) := by
        rw [exec_tagw]
        exact (gate_ready hr _).trans (if_pos h.2.1)
      rw [hexec]
      unfold tagStore
      rw [checked_inChunk h, if_neg (by simp [h.2.1])]
      refine (withLines_entered h.2.2.2.2 _).trans ?_
      rw [hp]
      rfl
    · rw [retire, chunkTag_append _ _ _ _ _ rfl, if_pos rfl]
    · intro q hq
      rw [retire, chunkTag_append _ _ _ _ _ rfl, if_neg (Ne.symm hq)]
    · intro r
      exact (getG_advance _ r).trans (by rw [read2_eq_popped]; rfl)

/-- Settles O13: an atomic is one job at its home, and the tag instructions read and extend the chunk's log. -/
theorem atomics : Obligations.Atomics := ⟨atomicsClaim_holds, tagsClaim_holds⟩

end Sys2Proof.Machine
end

section
/-! PROOFS. The stores that stay in the chunk, and sx at a home (R61, R131, R136, R140, R408, R422 to R424, R443, R445). -/

namespace Sys2Proof.Machine

/-! ### What a store adds to the chunk -/

/-- The chunk with one more store held. -/
def heldStore (u : State) (t : Task) (a : Nat) (bs : List Byte) : State :=
  retire u { rebase u t with chunk := { u.cur.chunk with log := u.cur.chunk.log ++ [.store a bs] } }

section
variable {s u : State} {t : Task} {r : StoreReq}

theorem chunkStore_held {addr : Word} {bs : List Byte} (hctl : ∀ o, placeOf s (localOf addr) ≠ .control o)
    (htouch : touch s [] (linesOf (placeWrite s (localOf addr) bs).1 (placeWrite s (localOf addr) bs).2.length) = .entered u)
    (hp : (ownScratch u (localOf addr) && poisonBlocks (chunkPoison u).mem (placeWrite s (localOf addr) bs).1
      (placeWrite s (localOf addr) bs).2.length) = false) :
    chunkStore s t addr bs =
      .next (heldStore u t (placeWrite s (localOf addr) bs).1 (placeWrite s (localOf addr) bs).2) := by
  unfold chunkStore
  dsimp only
  split
  next o e => exact absurd e (hctl o)
  · rw [withLines_entered htouch, hp]
    rfl

theorem startStore_held (hm : r.mode = .pl) (hw : ClassDone s r.cls) (hctl : ∀ o, placeOf s (localOf r.addr) ≠ .control o)
    (h : InChunk s u r.addr r.access [] (linesOf (placeWrite s (localOf r.addr) r.data).1
      (placeWrite s (localOf r.addr) r.data).2.length))
    (hp : (ownScratch u (localOf r.addr) && poisonBlocks (chunkPoison u).mem (placeWrite s (localOf r.addr) r.data).1
      (placeWrite s (localOf r.addr) r.data).2.length) = false) :
    startStore s t r =
      .next (heldStore u t (placeWrite s (localOf r.addr) r.data).1 (placeWrite s (localOf r.addr) r.data).2) := by
  have hchecked := checked_inChunk h
  obtain ⟨hhold, hlocal, -, -, htouch⟩ := h
  unfold startStore
  rw [held_none hhold, if_neg (by simp [hm, hlocal])]
  unfold store
  rw [hchecked, awaitClass_done hw, if_neg (by simp [hlocal]), if_pos (by simp [hm])]
  exact chunkStore_held hctl htouch hp

end

theorem foldl_hold (es : List Eff) (t : Task) :
    es.foldl Task.hold' t = { t with chunk := { t.chunk with log := t.chunk.log ++ es } } := by
  induction es generalizing t with
  | nil => simp
  | cons e es ih => rw [List.foldl_cons, ih]; simp [Task.hold']

theorem laneCause_none {s : State} {wr : Bool} {as : List Word}
    (hc : ∀ q ∈ as, checkAccess s s.cur.tenant s.cur.trusted q ⟨wr, 8, 8, true, true, true⟩ = none)
    (hb : ∀ q ∈ as, regionBusy s (localOf q) = false) : laneCause s wr as = none := by
  unfold laneCause firstStop
  rw [List.findSome?_eq_none_iff]
  intro q hq
  rw [waitsBusy_free (hb q hq), if_neg Bool.false_ne_true]
  exact congrArg (Option.map _) (hc q hq)

theorem laneStores_eq (u : State) (v : VWord) (as : List Word) (h : as.length = 8) :
    (as.map localOf).mapIdx (fun k a => Eff.store (canon u a) (bytesOfNat 8 (lane64 v k).toNat)) =
      (List.range 8).map fun k => .store (canon u ((as.map localOf).getD k 0)) (bytesOfNat 8 (v.extractLsb' (64 * k) 64).toNat) := by
  apply List.ext_getElem
  · simp [h]
  · intro k h1 h2
    simp [lane64_eq]
    rw [List.getElem?_eq_getElem (by simpa using h1)]
    rfl

theorem storesInChunk_holds : storesInChunkClaim := by
  intro s u a b p i w x base writes holds
  refine ⟨?base, ?sx, ?vst, ?vstx⟩
  case base =>
    intro hr data
    have hold (n : Nat) (h : writes base (data n)) : baseStore s a b i n =
        .next (heldStore u (read2 s a b) (placeWrite s (localOf base) (data n)).1 (placeWrite s (localOf base) (data n)).2) := by
      obtain ⟨hctl, hin, hp⟩ := h
      exact (baseStore_ready hr n).trans
        (startStore_held (r := ⟨.pl, .no, base, data n, 0, 0⟩) rfl (.inl rfl) hctl hin hp)
    exact ⟨hold 1, hold 2, hold 4, hold 8⟩
  case sx =>
    intro z hr hw data ⟨hctl, hin, hp⟩
    exact (gate_ready hr _).trans (startStore_held (r := ⟨.pl, w, arg1 s a, data, _, _⟩) rfl hw hctl hin hp)
  case vst =>
    intro hr data ⟨hctl, hin, hp⟩
    exact (gate_ready hr _).trans (startStore_held (r := ⟨.pl, .no, arg1 s a, data, _, _⟩) rfl (.inl rfl) hctl hin hp)
  case vstx =>
    intro hr as ls hc hb htouch
    have has : laneAddrs (arg1 s a) (getV s.cur.ctx p) = as := by simp only [laneAddrs, lane64_eq]; rfl
    refine (gate_ready hr _).trans ?_
    show unlessStop s (laneCause s true (laneAddrs (arg1 s a) (getV s.cur.ctx p))) _ = _
    rw [has, laneCause_none hc (fun q hq => hb _ (List.mem_map_of_mem hq))]
    refine (withLines_entered htouch _).trans ?_
    have hes := laneStores_eq u (getV u.cur.ctx b) as ((List.length_map _).trans List.length_range)
    rw [← has] at hes
    refine (congrArg (fun es => Host.Outcome.next (retire u (List.foldl Task.hold' (rebase u (read1 s a)) es))) hes).trans ?_
    rw [foldl_hold, has]
    rfl

/-! ### What the chunk reads back -/

theorem length_chunkBytes (s : State) (a n : Nat) : (chunkBytes s a n).length = n := by
  unfold chunkBytes
  induction s.cur.chunk.log using List.reverseRecOn with
  | nil => simp [Mem.readBytes]
  | append_singleton es e ih =>
    rw [List.foldl_append, List.foldl_cons, List.foldl_nil]
    split
    · simpa [overlayStore] using ih
    · exact ih

theorem chunkBytes_append (s : State) (t : Task) (b : Nat) (bs : List Byte) (a n : Nat)
    (ht : t.chunk.log = s.cur.chunk.log ++ [.store b bs]) :
    chunkBytes { s with cur := t } a n = overlayStore b bs a (chunkBytes s a n) := by
  unfold chunkBytes
  rw [ht, List.foldl_append]
  rfl

theorem chunkBytes_heldStore_inside (u : State) (t : Task) (a : Nat) (bs : List Byte) {k : Nat} (hk : k < bs.length) :
    chunkBytes (heldStore u t a bs) (a + k) 1 = [bs.getD k 0] := by
  obtain ⟨x, hx⟩ := List.length_eq_one_iff.1 (length_chunkBytes u (a + k) 1)
  rw [heldStore, retire, chunkBytes_append _ _ _ _ _ _ rfl, hx]
  simp [overlayStore, hk]

theorem chunkBytes_heldStore_outside (u : State) (t : Task) {a : Nat} {bs : List Byte} {q : Nat}
    (hq : q < a ∨ a + bs.length ≤ q) : chunkBytes (heldStore u t a bs) q 1 = chunkBytes u q 1 := by
  obtain ⟨x, hx⟩ := List.length_eq_one_iff.1 (length_chunkBytes u q 1)
  rw [heldStore, retire, chunkBytes_append _ _ _ _ _ _ rfl, hx]
  simp only [overlayStore, List.mapIdx_cons, List.mapIdx_nil, Nat.add_zero]
  rw [if_neg (by omega)]

theorem storeFrame_holds : storeFrameClaim := by
  intro s u a b i hr addr hctl n hn j hj h1 h2 h4 h8 r hin hp
  have hexec : exec j s = baseStore s a b i n := by
    simp only [List.mem_cons, List.not_mem_nil, or_false] at hj
    rcases hj with rfl | rfl | rfl | rfl
    · rw [h1.1 rfl]; rfl
    · rw [h2.1 rfl]; rfl
    · rw [h4.1 rfl]; rfl
    · rw [h8.1 rfl]; rfl
  have hacc : (StoreReq.mk .pl .no addr (bytesOfNat n (arg2 s a b).toNat) 0 0).access = plainAccess true n := by
    have h16 : decide (16 ≤ n) = false := by
      simp only [List.mem_cons, List.not_mem_nil, or_false] at hn
      exact decide_eq_false (by omega)
    simp [StoreReq.access, plainAccess, length_bytesOfNat, h16]
  have hdone := hexec.trans ((baseStore_ready hr n).trans (startStore_held
    (r := ⟨.pl, .no, addr, bytesOfNat n (arg2 s a b).toNat, 0, 0⟩) rfl (.inl rfl) hctl (by rw [hacc]; exact hin) hp))
  refine ⟨_, hdone, onlyTask_retire _ _, fun k hk => chunkBytes_heldStore_inside _ _ _ _ hk,
    fun q hq => chunkBytes_heldStore_outside _ _ hq, fun q => ?_, ?_, ?_, ?_, ?_, ?_⟩
  · exact (getG_advance _ q).trans (by rw [read2_eq_popped]; rfl)
  all_goals
    show _ = _
    rw [read2_eq_popped]
    simp only [heldStore, retire, Task.retire, rebase]
    rw [advance_eq]
    rfl

/-- Settles O11: a store joins the chunk's log, which is what the chunk reads back. -/
theorem storesInChunk : Obligations.StoresInChunk := ⟨storesInChunk_holds, storeFrame_holds⟩

/-! ### Stores at their home (R136, R140, R424) -/

section
variable {s : State} {core tenant : Nat} {k : WaitClass}

theorem checkLocal_raiseCounter (t : Nat) (tr : Bool) (l : Nat) (acc : Access) :
    checkLocal (raiseCounter s core tenant k) t tr l acc = checkLocal s t tr l acc := rfl

theorem jobReady_raiseCounter (w : Waiter) : jobReady (raiseCounter s core tenant k) w = jobReady s w := rfl

theorem jobCause_raiseCounter (w : Waiter) : jobCause (raiseCounter s core tenant k) w = jobCause s w := rfl

end

theorem wordsAt_ne_nil {a n : Nat} (h : 1 ≤ n) : wordsAt a n ≠ [] := by
  unfold wordsAt
  rw [if_neg (by omega)]
  simp

theorem poisonBlocks_of_anyPoison {m : Mem} {a n : Nat} (h : m.anyPoison a n = false) : poisonBlocks m a n = false := by
  simp only [Mem.anyPoison, List.any_eq_false, List.contains_iff_mem] at h
  simp only [poisonBlocks, List.any_eq_false, Bool.and_eq_true, not_and]
  exact fun x hx hp => absurd hp (by simpa using h x hx)

/-- A place with tags keeps its bytes as they are, at its canonical address. -/
theorem placeWrite_sync {s : State} {l : Nat} (h : syncPlace (placeOf s l) = true) (bs : List Byte) :
    placeWrite s l bs = (canon s l, bs) := by
  unfold placeWrite canon
  cases hp : placeOf s l with
  | window w c o =>
    have hw : w = 0 := by simpa [hp, syncPlace] using h
    simp [hw]
  | _ => rfl

theorem poison_sync {s : State} {l n : Nat} (h : syncPlace (placeOf s l) = true) (hp : accessPoison s l n = false) :
    s.mem.anyPoison (canon s l) n = false := by
  unfold accessPoison at hp
  unfold canon
  cases hq : placeOf s l with
  | window w c o =>
    have hw : w = 0 := by simpa [hq, syncPlace] using h
    simpa [hq, hw, placeRanges] using hp
  | dram => simpa [hq, placeRanges] using hp
  | _ => simp [hq, syncPlace] at h

section
variable {s : State} {t : Task} {m : StoreMode} {bs : List Byte} {a : Word} {k : WaitClass}

/-- The job a posted store leaves at its home. -/
def postedStore (s : State) (m : StoreMode) (bs : List Byte) (a : Word) (k : WaitClass) : Waiter :=
  ⟨s.nextKey, s.cur.tenant, s.cur.trusted, localOf a, .store m bs, .posted s.cur.core s.cur.tenant k s.cur.key, s.time⟩

theorem postedStore_cause (h : AtHome s a (plainAccess true bs.length)) (h16 : bs.length < 16)
    (hp : accessPoison s (localOf a) bs.length = false) (hs : syncPlace (placeOf s (localOf a)) = true) :
    jobCause s (postedStore s m bs a k) = none := by
  obtain ⟨-, hl, hc, -⟩ := h
  have hacc : (HomeOp.store m bs).access = plainAccess true bs.length := by
    have hle : decide (16 ≤ bs.length) = false := decide_eq_false (by omega)
    show Access.mk true bs.length bs.length false (false || decide (16 ≤ bs.length)) false = _
    rw [hle]
    rfl
  have hpoison : jobPoison s (postedStore s m bs a k) = false := by
    show poisonBlocks s.mem (placeWrite s (localOf a) bs).1 (placeWrite s (localOf a) bs).2.length = false
    rw [placeWrite_sync hs]
    exact poisonBlocks_of_anyPoison (poison_sync hs hp)
  show (match checkLocal s s.cur.tenant s.cur.trusted (localOf a) (HomeOp.store m bs).access with
    | some c => some c
    | none => if jobPoison s (postedStore s m bs a k) then some 0x0C else none) = none
  rw [hacc, checkLocal_of_checkAccess hl hc]
  simp [hpoison]

theorem postedStore_ready (h : AtHome s a (plainAccess true bs.length)) (h16 : bs.length < 16)
    (hf : HomeFree s 0 a bs.length) (hs : syncPlace (placeOf s (localOf a)) = true) :
    jobReady s (postedStore s m bs a k) = tagReady s (localOf a) (.store m bs) :=
  jobReady_iff (by intro c v b; exact HomeOp.noConfusion) h.2.2.2 hf.1 (postedStore_cause h h16 hf.2 hs)

theorem runJob_store {w : Waiter} {slot : Nat × Nat} (hop : w.op = .store m bs) (hm : m ≠ .pl) (hc : jobCause s w = none)
    (hs : syncPlace (placeOf s w.addr) = true) :
    runJob s w slot = (devWrite s (canon s w.addr) bs (some (m != .se)), none, []) := by
  have htag : modeTag m = some (m != .se) := by
    cases m with
    | pl => exact absurd rfl hm
    | _ => rfl
  have hr := placeWrite_sync hs bs
  simp only [runJob, hop, hc]
  split
  next off e => rw [e] at hs; cases hs
  next p e => simp only [hr, hs, if_true, htag]

theorem homeClass_sync {l : Nat} (h : syncPlace (placeOf s l) = true) : homeClass s l = storeClass s (canon s l) := by
  unfold homeClass
  split
  next o e => rw [e] at h; cases h
  · rfl

/-- The slot goes on after a posted store. -/
def afterStore (u : State) (t : Task) (r : StoreReq) (k : WaitClass) : State :=
  retireAlone u { rebase u t with hold := acquireHold r.ord k }

theorem startStore_atHome {r : StoreReq} (hm : r.mode ≠ .pl) (hw : ClassDone s r.cls) (ho : OrderMet s r.ord)
    (h : AtHome s r.addr r.access) : startStore s t r = homeStore s t r := by
  have hmode : (r.mode != .pl) = true := bne_iff_ne.2 hm
  unfold startStore
  rw [held_none h.1.2.2.2, hmode, Bool.true_or, if_pos rfl, alone_of h.1]
  unfold store
  rw [checked_atHome h, awaitClass_done hw, if_neg (by simp [h.2.1]), if_neg (by simp [hm]), ordered_met ho]

section
variable {r : StoreReq} (hs : syncPlace (placeOf s (localOf r.addr)) = true) (hown : ownScratch s (localOf r.addr) = false)
  (hcount : counterFull s s.cur.core s.cur.tenant (storeClass s (canon s (localOf r.addr))) = false)
  (hheld : ((homeOf s (canon s (localOf r.addr))).any fun h => nearHeld s s.cur.core h) = false)
include hs hown hcount hheld

theorem homeStore_done (hm : r.mode ≠ .pl)
    (hr : jobReady s (postedStore s r.mode r.data r.addr (storeClass s (canon s (localOf r.addr)))) = true)
    (hc : jobCause s (postedStore s r.mode r.data r.addr (storeClass s (canon s (localOf r.addr)))) = none) :
    homeStore s t r = .next (settle (afterStore (devWrite (raiseCounter s s.cur.core s.cur.tenant (storeClass s (canon s (localOf r.addr))))
      (canon s (localOf r.addr)) r.data (some (r.mode != .se))) t r (storeClass s (canon s (localOf r.addr))))) := by
  unfold homeStore
  dsimp only
  rw [homeClass_sync hs, hcount, hheld, if_neg (by simp [hown]), if_neg (by simp)]
  have hjob (slot : Nat × Nat) := runJob_store (slot := slot) (s := raiseCounter s s.cur.core s.cur.tenant
    (storeClass s (canon s (localOf r.addr)))) (w := postedStore s r.mode r.data r.addr (storeClass s (canon s (localOf r.addr)))) rfl
    hm ((jobCause_raiseCounter _).trans hc) hs
  unfold postedStore at hjob hr
  exact (if_pos ((jobReady_raiseCounter _).trans hr)).trans (by rw [hjob]; rfl)

theorem homeStore_waits
    (hr : jobReady s (postedStore s r.mode r.data r.addr (storeClass s (canon s (localOf r.addr)))) = false) :
    homeStore s t r = .next (afterStore (bumpKey
      { raiseCounter s s.cur.core s.cur.tenant (storeClass s (canon s (localOf r.addr))) with
        eng := { (raiseCounter s s.cur.core s.cur.tenant (storeClass s (canon s (localOf r.addr)))).eng with
          waiters := s.eng.waiters ++ [postedStore s r.mode r.data r.addr (storeClass s (canon s (localOf r.addr)))] } })
      t r (storeClass s (canon s (localOf r.addr)))) := by
  unfold homeStore
  dsimp only
  rw [homeClass_sync hs, hcount, hheld, if_neg (by simp [hown]), if_neg (by simp)]
  unfold postedStore at hr
  exact if_neg (by rw [jobReady_raiseCounter, hr]; decide)

end

end

theorem execSx_ready {s : State} {v a p : Reg} {z : MemSize} {m : StoreMode} {w : WaitClass} {x : Bool}
    (hr : readiness s.cur ⟨x, [v, a, p], [], [], []⟩ = .ready) :
    exec (.sx z m w x v a p) s = startStore s (read3 s a p v) ⟨m, w, arg1 s a, bytesOfNat (MemSize.bytes z) (arg3 s a p v).toNat,
      policyOrd (arg2 s a p), policyScope (arg2 s a p)⟩ := gate_ready hr _

/-- Settles O12: alone, a synchronising store is one posted job at its home, performed there at once or waiting. -/
theorem storesAtHome : Obligations.StoresAtHome := by
  intro s v a p z m w x hr hm hw ho n addr l bs k hold h hown hs hcount hheld r
  have hlen : bs.length = n := length_bytesOfNat _ _
  have hn : n < 16 := memSize_lt z
  have hn1 : 1 ≤ n := by cases z <;> decide
  have hacc : (StoreReq.mk m w addr bs (policyOrd (arg2 s a p)) (policyScope (arg2 s a p))).access = plainAccess true n := by
    have h16 : decide (16 ≤ n) = false := decide_eq_false (by omega)
    simp [StoreReq.access, plainAccess, hlen, h16]
  have hexec := (execSx_ready hr).trans (startStore_atHome (t := read3 s a p v) hm hw ho (by rw [hacc]; exact h))
  rw [← hlen] at h hn hn1
  constructor
  · intro hf htags
    rw [← hlen] at hf htags
    refine hexec.trans (homeStore_done hs hown hcount hheld hm ?_ (postedStore_cause h hn hf.2 hs))
    refine (postedStore_ready h hn hf hs).trans ?_
    cases m with
    | pl => exact absurd rfl hm
    | we =>
      have hnot : ¬ ((wordsAt (canon s l) bs.length).all s.mem.full) = true := fun hall => by
        obtain ⟨q, hq⟩ := List.exists_mem_of_ne_nil _ (wordsAt_ne_nil (a := canon s l) hn1)
        exact absurd (List.all_eq_true.1 hall q hq) (by rw [htags rfl q hq]; decide)
      exact Bool.or_eq_true_iff.2 (.inr (by rw [Bool.not_eq_true'] ; exact Bool.eq_false_iff.2 hnot))
    | sf => exact Bool.or_true _
    | se => exact Bool.or_true _
  · intro hf hwe htags
    rw [← hlen] at hf htags
    subst hwe
    refine hexec.trans (homeStore_waits hs hown hcount hheld ?_)
    refine (postedStore_ready h hn hf hs).trans ?_
    have hall : (wordsAt (canon s l) bs.length).all s.mem.full = true := List.all_eq_true.2 htags
    show (!syncPlace (placeOf s l) || !(wordsAt (canon s l) bs.length).all s.mem.full) = false
    rw [hs, hall]
    rfl

end Sys2Proof.Machine
end

section
/-! PROOFS. Accesses to another package, and what a held access ends with (R71, R105, R126, R140, R294, R376, R424, R426, R457,
Table 15.2). -/

namespace Sys2Proof.Machine

/-! ### What leaves -/

theorem freeReqid_unused (s : State) (core : Nat) : freeReqid s core ∉ reqidsOf s core := by
  have hfree : ∃ n ∈ List.range ((reqidsOf s core).length + 1), n ∉ reqidsOf s core := by
    by_contra hall
    push Not at hall
    have hsub := (List.nodup_range (n := (reqidsOf s core).length + 1)).subperm hall
    have := hsub.length_le
    simp at this
  have hfound : ((List.range ((reqidsOf s core).length + 1)).find? fun n => !(reqidsOf s core).contains n).isSome := by
    obtain ⟨n, hn, hused⟩ := hfree
    exact List.find?_isSome.2 ⟨n, hn, by simpa using hused⟩
  obtain ⟨k, hk⟩ := Option.isSome_iff_exists.1 hfound
  have hunused := List.find?_some hk
  show ((List.range ((reqidsOf s core).length + 1)).find? fun n => !(reqidsOf s core).contains n).getD 0 ∉ _
  rw [hk]
  simpa using hunused

/-- The entry of a tracked request that nothing holds back. -/
def sentReq (s : State) (task core tenant dest cls dcore op : Nat) (words : List Word)
    (waits : Option (Nat × Dest × Nat × Bool)) (counted : Bool) : OutReq :=
  ⟨freeReqid s core, core, tenant, mkFlit s dest cls tenant core dcore op (freeReqid s core) words, waits, task, 256,
    if cls == 2 && farHeld s core dest then some s.time else none, decide (cls ≠ 0), counted, none⟩

theorem sendTracked_sent (s : State) (task core tenant dest cls dcore op : Nat) (words : List Word)
    (waits : Option (Nat × Dest × Nat × Bool)) (counted : Bool) :
    ∃ fab, sendTracked s task core tenant dest cls dcore op words waits counted = { s with fab := fab } ∧
      fab.outReqs = s.fab.outReqs ++ [sentReq s task core tenant dest cls dcore op words waits counted] := by
  unfold sendTracked sendKept
  dsimp only
  split_ifs with hwait
  · exact ⟨_, rfl, by simp [sentReq, hwait]⟩
  · obtain ⟨fab, hs, hr⟩ := sendFlit_eq s (mkFlit s dest cls tenant core dcore op (freeReqid s core) words)
    rw [hs]
    exact ⟨_, rfl, by simp [hr, sentReq, hwait]⟩

/-- A request leaves, and its slot holds for the reply. -/
theorem requestSent_eq (s : State) (op : Nat) (a : Word) (ws : List Word) (e : Dest) (n : Nat) (g : Bool) :
    ∃ fab, requestSent s op a ws e n g =
        { s with fab := fab, cur := { s.cur with hold := some (.reply (freeReqid s s.cur.core)), ctx := tagDest s.cur.ctx e false } } ∧
      fab.outReqs = s.fab.outReqs ++ [sentReq s s.cur.key s.cur.core s.cur.tenant (pkgOf a) 0 (dcoreOf a) op (a :: ws)
        (some (s.cur.key, e, n, g)) false] := by
  obtain ⟨fab, hs, hr⟩ := sendTracked_sent s s.cur.key s.cur.core s.cur.tenant (pkgOf a) 0 (dcoreOf a) op (a :: ws)
    (some (s.cur.key, e, n, g)) false
  refine ⟨fab, ?_, hr⟩
  unfold requestSent
  rw [hs]
  rfl

theorem sendRequest_sent {s : State} (h : requestsOut s s.cur.core < 256) (op : Nat) (a : Word) (ws : List Word) (e : Dest)
    (n : Nat) (g : Bool) : sendRequest s op a ws e n g = .next (requestSent s op a ws e n g) := by
  unfold sendRequest
  rw [if_neg (by omega)]

theorem countersOf_setCounters (s : State) (core tenant : Nat) (c : Counters) :
    countersOf (setCounters s core tenant c) core tenant = c := Tab.get_set_same ..

/-- A posted flit leaves, and the far counter rises. -/
theorem sendPosted_eq (s : State) (op : Nat) (a : Word) (ws : List Word) :
    ∃ fab, sendPosted s op a ws = raiseCounter { s with fab := fab } s.cur.core s.cur.tenant .far ∧
      fab.outReqs = s.fab.outReqs ++ [sentReq s s.cur.key s.cur.core s.cur.tenant (pkgOf a) 2 (dcoreOf a) op (a :: ws) none true] := by
  obtain ⟨fab, hs, hr⟩ := sendTracked_sent s s.cur.key s.cur.core s.cur.tenant (pkgOf a) 2 (dcoreOf a) op (a :: ws) none true
  refine ⟨fab, ?_, hr⟩
  unfold sendPosted
  rw [hs]

/-! ### The control word of a request -/

theorem sizeCode_bytes (z : MemSize) : 2 ^ sizeCode (MemSize.bytes z) = MemSize.bytes z ∧ sizeCode (MemSize.bytes z) < 8 := by
  cases z <;> decide

theorem controlWord_fields {k m o c : Nat} (hk : k < 8) (hm : m < 4) (ho : o < 4) (hc : c < 4) :
    let w : Word := BitVec.ofNat 64 (k + 2 ^ 3 * m + 2 ^ 8 * o + 2 ^ 10 * c)
    fieldNat w 2 0 = k ∧ fieldNat w 4 3 = m ∧ fieldNat w 9 8 = o ∧ fieldNat w 11 10 = c := by
  simp only [fieldNat_eq, BitVec.toNat_ofNat]
  omega

theorem replyWords_one {n v : Nat} (h1 : 1 ≤ n) (h8 : n ≤ 8) :
    replyWords (bytesOfNat n v) = [BitVec.ofNat 64 (v % 2 ^ (8 * n))] := by
  have hlen : (n + 7) / 8 = 1 := by omega
  unfold replyWords
  rw [length_bytesOfNat, hlen, wordsOfBytes, wordsOfBytes, List.take_of_length_le (by rw [length_bytesOfNat]; omega),
    natOfBytes_bytesOfNat]

/-! ### The stages of an access to another package -/

theorem waitsBusy_other {s : State} {a : Word} (h : isLocal s a = false) (acc : Access) : waitsBusy s a acc = false := by
  simp [waitsBusy, h]

theorem checked_atOther {s : State} {a : Word} {acc : Access} (h : AtOther s a acc) (k : Out) : checked s a acc k = k := by
  obtain ⟨-, hl, hc⟩ := h
  exact checked_ok hc (waitsBusy_other hl acc) k

section
variable {s : State} {t : Task}

theorem startLoad_other {r : LoadReq} (hroom : loadRoom s.cur r.dest = true) (hw : ClassDone s r.cls) (ho : OrderMet s r.ord)
    (hcopy : r.mode = .pl → farCopy s r.addr r.size = none) (hout : requestsOut s s.cur.core < 256) (h : AtOther s r.addr r.access) :
    startLoad s t r = .next (requestSent s 0 r.addr
      [BitVec.ofNat 64 (sizeCode r.size + 2 ^ 3 * loadModeNum r.mode + 2 ^ 8 * r.ord + 2 ^ 10 * r.scope)] r.dest r.size r.signed) := by
  have hload : load s t r = sendRequest s 0 r.addr
      [BitVec.ofNat 64 (sizeCode r.size + 2 ^ 3 * loadModeNum r.mode + 2 ^ 8 * r.ord + 2 ^ 10 * r.scope)] r.dest r.size r.signed := by
    unfold load
    dsimp only
    rw [checked_atOther h, awaitClass_done hw, if_neg (by simp [hroom]), if_pos (by simp [h.2.1]), ordered_met ho]
    split
    next bs e =>
      split_ifs at e with hpl
      rw [hcopy (by simp only [Bool.and_eq_true, beq_iff_eq] at hpl; exact hpl.1)] at e
      cases e
    · rfl
  unfold startLoad
  rw [held_none h.1.2.2.2, if_pos (by simp [h.2.1]), alone_of h.1, hload, sendRequest_sent hout]

/-- The slot goes on after a posted flit. -/
def afterPosted (s : State) (t : Task) (op : Nat) (a : Word) (ws : List Word) (h : Option Hold) : State :=
  retireAlone (sendPosted s op a ws) { rebase (sendPosted s op a ws) t with hold := h }

theorem startStore_other {r : StoreReq} (hw : ClassDone s r.cls) (ho : OrderMet s r.ord)
    (hcount : counterFull s s.cur.core s.cur.tenant .far = false) (hheld : farHeld s s.cur.core (pkgOf r.addr) = false)
    (h : AtOther s r.addr r.access) : startStore s t r = .next (afterPosted s t 1 r.addr
      (BitVec.ofNat 64 (sizeCode r.data.length + 2 ^ 3 * storeModeNum r.mode + 2 ^ 8 * r.ord + 2 ^ 10 * r.scope) ::
        replyWords r.data) (acquireHold r.ord .far)) := by
  unfold startStore
  rw [held_none h.1.2.2.2, if_pos (by simp [h.2.1]), alone_of h.1]
  unfold store
  rw [checked_atOther h, awaitClass_done hw, if_pos (by simp [h.2.1]), ordered_met ho, hcount, hheld]
  rfl

end

theorem loadModeNum_lt (m : LoadMode) : loadModeNum m < 4 := by cases m <;> decide

theorem storeModeNum_lt (m : StoreMode) : storeModeNum m < 4 := by cases m <;> decide

theorem policyOrd_lt (w : Word) : policyOrd w < 4 := Nat.mod_lt _ (by decide)

theorem policyScope_lt (w : Word) : policyScope w < 4 := Nat.mod_lt _ (by decide)

theorem amoCode_fields {k o : Nat} (hk : k < 8) (ho : o < 10) : fieldNat (BitVec.ofNat 64 (k + 2 ^ 5 * o)) 2 0 = k := by
  simp only [fieldNat_eq, BitVec.toNat_ofNat]
  omega

theorem execAmo_other {s : State} {d a b : Reg} {o : AmoOp} {y : AmoSize} {x : Bool} (hd : destRoom s.cur d = true)
    (hr : readiness s.cur ⟨x, if o = .cas then [a, b, d] else [a, b], [d], [], []⟩ = .ready)
    (hout : requestsOut s s.cur.core < 256)
    (h : AtOther s (arg1 s a) ⟨true, if y = .w then 4 else 8, if y = .w then 4 else 8, true, true, false⟩) :
    ∃ ws, exec (.amo y o x d a b) s =
        .next (requestSent s 2 (arg1 s a) ws (destOf d) (if y = .w then 4 else 8) true) ∧
      ∃ c e, ws = [c, arg2 s a b, e] ∧ 2 ^ fieldNat c 2 0 = (if y = .w then 4 else 8) ∧ (o = .cas → e = arg3 s a b d) := by
  have hpair : (if o = .cas then takeG (read2 s a b) d else (0, read2 s a b)) =
      (if o = .cas then arg3 s a b d else 0, if o = .cas then read3 s a b d else read2 s a b) := by split_ifs <;> rfl
  have hexec : exec (.amo y o x d a b) s = atomicAccess s (if o = .cas then read3 s a b d else read2 s a b) o (if y = .w then 4 else 8) d
      (arg1 s a) (arg2 s a b) (if o = .cas then arg3 s a b d else 0) := by
    refine (gate_ready hr _).trans ((alone_of h.1 _).trans ?_)
    show atomicAccess s (if o = .cas then takeG (read2 s a b) d else (0, read2 s a b)).2 o (if y = .w then 4 else 8) d (arg1 s a)
      (arg2 s a b) (if o = .cas then takeG (read2 s a b) d else (0, read2 s a b)).1 = _
    rw [hpair]
  rw [hexec]
  unfold atomicAccess
  rw [held_none h.1.2.2.2, checked_atOther h, if_neg (by simp [hd]), if_pos (by simp [h.2.1]), sendRequest_sent hout]
  refine ⟨_, rfl, _, _, rfl, ?_, fun ho => if_pos ho⟩
  rw [amoCode_fields (by split_ifs <;> decide) (by cases o <;> decide)]
  split_ifs <;> rfl

theorem posted_counters (s : State) (fab : Fab) (t : Task) :
    countersOf (retireAlone (raiseCounter { s with fab := fab } s.cur.core s.cur.tenant .far) t) s.cur.core s.cur.tenant =
      { countersOf s s.cur.core s.cur.tenant with far := (countersOf s s.cur.core s.cur.tenant).far + 1 } :=
  countersOf_setCounters { s with fab := fab } s.cur.core s.cur.tenant _

theorem remoteAccesses_hold : remoteAccessesClaim := by
  intro s d a b p z y o m q w x hd hout hw addr asks posts goes n
  have hn := memSize_lt z
  obtain ⟨hcode, hsmall⟩ := sizeCode_bytes z
  have asked (i : Instr) (op n : Nat) (e : Dest) (g : Bool) (ws : List Word) (rest : List Word → Prop) (hr : rest ws)
      (h : exec i s = .next (requestSent s op addr ws e n g)) : asks i op n e g rest := by
    obtain ⟨fab, hs, hout⟩ := requestSent_eq s op addr ws e n g
    rw [hs] at h
    exact ⟨_, _, h, hout, rfl, rfl, rfl, rfl, rfl, rfl, rfl, freeReqid_unused _ _, rfl, rfl, ws, rfl, hr⟩
  have posted (i : Instr) (op : Nat) (u : Task) (c : Option Hold) (ws : List Word) (rest : List Word → Prop) (hr : rest ws)
      (hu : ∃ k, u = popped s.cur k) (h : exec i s = .next (afterPosted s u op addr ws c)) : posts i op u c rest := by
    obtain ⟨fab, hs, hout⟩ := sendPosted_eq s op addr ws
    obtain ⟨k, rfl⟩ := hu
    unfold afterPosted at h
    rw [hs] at h
    exact ⟨_, _, h, hout, rfl, rfl, rfl, rfl, rfl, rfl, rfl, posted_counters s fab _, rfl, ws, rfl, hr⟩
  refine ⟨?lx, ?lxq, ?amo, ?tagr, ?sx, ?tagw⟩
  case lx =>
    intro hr h hcopy ho
    have hacc : (LoadReq.mk m w n true (destOf d) addr (policyOrd (arg2 s a p)) (policyScope (arg2 s a p))).access =
      plainAccess false n := loadReq_access_plain hn
    refine asked _ _ _ _ _ _ _ ?_ ((execLx_ready hr).trans (startLoad_other (loadRoom_destOf hd) hw ho hcopy hout (by rw [hacc]; exact h)))
    obtain ⟨hk, hmode, hord, hscope⟩ := controlWord_fields hsmall (loadModeNum_lt m) (policyOrd_lt (arg2 s a p)) (policyScope_lt (arg2 s a p))
    refine ⟨_, rfl, by rw [hk]; exact hcode, ?_, hord, hscope⟩
    rw [hmode]
    cases m <;> rfl
  case lxq =>
    intro hr _ hcopy h ho
    refine asked _ _ _ _ _ _ _ ?_ ((gate_ready hr _).trans (startLoad_other (r := ⟨m, w, 16, false, .g2 d, addr, policyOrd (arg2 s a p),
      policyScope (arg2 s a p)⟩) rfl hw ho hcopy hout h))
    exact ⟨_, rfl, (controlWord_fields (k := sizeCode 16) (by decide) (loadModeNum_lt m) (policyOrd_lt (arg2 s a p))
      (policyScope_lt (arg2 s a p))).1⟩
  case amo =>
    intro hr k h
    obtain ⟨ws, hexec, hws⟩ := execAmo_other hd hr hout h
    exact asked _ _ _ _ _ _ _ hws hexec
  case tagr =>
    intro hr h
    refine asked _ _ _ _ _ _ _ rfl ((gate_ready hr _).trans ((if_neg (Bool.eq_false_iff.1 h.2.1)).trans ((alone_of h.1 _).trans ?_)))
    show tagRead s (read1 s a) d addr = _
    unfold tagRead
    rw [held_none h.1.2.2.2, checked_atOther h, if_neg (by simp [hd]), if_pos (by simp [h.2.1]), sendRequest_sent hout]
  case sx =>
    intro hr h hgo ho
    have hlen : (bytesOfNat n (arg3 s a p b).toNat).length = n := length_bytesOfNat _ _
    have hacc : (StoreReq.mk q w addr (bytesOfNat n (arg3 s a p b).toNat) (policyOrd (arg2 s a p)) (policyScope (arg2 s a p))).access =
        plainAccess true n := by
      have h16 : decide (16 ≤ n) = false := decide_eq_false (by omega)
      simp [StoreReq.access, plainAccess, hlen, h16]
    refine posted _ _ _ _ _ _ ?_ ⟨_, read3_eq_popped s a p b⟩ ((execSx_ready hr).trans (startStore_other hw ho hgo.1 hgo.2
      (by rw [hacc]; exact h)))
    obtain ⟨hk, hmode, -, -⟩ := controlWord_fields hsmall (storeModeNum_lt q) (policyOrd_lt (arg2 s a p))
      (policyScope_lt (arg2 s a p))
    dsimp only
    rw [hlen, replyWords_one (by cases z <;> decide) (by cases z <;> decide)]
    refine ⟨_, _, rfl, by rw [hk]; exact hcode, ?_, ?_⟩
    · rw [hmode]
      cases q <;> rfl
    · rw [BitVec.toNat_ofNat, Nat.mod_eq_of_lt]
      exact (Nat.mod_lt _ (by positivity)).trans_le (Nat.pow_le_pow_right (by decide) (by cases z <;> decide))
  case tagw =>
    intro hr h hgo
    have hexec : exec (.tagw a b) s = .next (afterPosted s (read2 s a b) 4 addr [if (arg2 s a b).getLsbD 0 then 1 else 0] none) := by
      refine (gate_ready hr _).trans ((if_neg (Bool.eq_false_iff.1 h.2.1)).trans ((alone_of h.1 _).trans ?_))
      show tagStore s (read2 s a b) addr ((arg2 s a b).getLsbD 0) = _
      unfold tagStore
      rw [checked_atOther h, if_pos (by simp [h.2.1]), hgo.1, hgo.2]
      obtain ⟨fab, hs, -⟩ := sendPosted_eq s 4 addr [if (arg2 s a b).getLsbD 0 then 1 else 0]
      have hhold : rebase s (read2 s a b) = { rebase s (read2 s a b) with hold := none } := by
        conv_rhs => rw [← h.1.2.2.2]
        rfl
      unfold afterPosted
      rw [hs]
      exact congrArg (fun t => Host.Outcome.next (retireAlone _ t)) hhold
    exact posted _ _ _ _ _ _ rfl ⟨_, read2_eq_popped s a b⟩ hexec

/-! ### What a held access ends with -/

theorem gate_held {s : State} {n : Needs} {k : Out} (hr : readiness s.cur n ≠ .empty5) (hk : k = .next s) : gate s n k = .next s := by
  unfold gate
  split
  · rfl
  next e => exact absurd e hr
  · exact hk

theorem startLoad_answered {s : State} {t : Task} {r : LoadReq} {c : Option Nat} {v : VWord} {g : Bool}
    (hh : s.cur.hold = some (.answer c v g)) : startLoad s t r = finishHeld s t r.dest c v r.addr := by
  simp only [startLoad, held, hh]

theorem startLoad_waits {s : State} {t : Task} {r : LoadReq} {k : Nat}
    (hh : s.cur.hold = some (.home k) ∨ s.cur.hold = some (.reply k)) : startLoad s t r = .next s := by
  rcases hh with hh | hh <;> simp only [startLoad, held, hh]

theorem writeDest_destOf_wide (c : Ctx) (d : Reg) (v : VWord) : writeDest c (destOf d) v = setG c d (v.truncate 64) := by
  rcases destOf_cases d with ⟨rfl | rfl, e⟩ | ⟨-, e⟩
  · rfl
  · rfl
  · rw [e]; rfl

theorem tagDest_destOf (c : Ctx) (d : Reg) (b : Bool) : tagDest c (destOf d) b = tagDest c (.g d) b := by
  rcases destOf_cases d with ⟨rfl | rfl, e⟩ | ⟨-, e⟩
  · rfl
  · rfl
  · rw [e]

theorem heldAccesses_hold : heldAccessesClaim := by
  intro s d a p z m w x v g c k i u
  refine ⟨fun h => ?_, fun h => ?_, fun h hr => ?_⟩
  · have ha : answeredHold s.cur = true := by simp [answeredHold, h]
    refine (execLx_ready (readiness_answered ha _)).trans ((startLoad_answered h).trans ?_)
    dsimp only [finishHeld]
    rw [writeDest_destOf_wide, tagDest_destOf]
    rfl
  · have ha : answeredHold s.cur = true := by simp [answeredHold, h]
    exact (execLx_ready (readiness_answered ha _)).trans (startLoad_answered h)
  · exact gate_held hr (startLoad_waits h)

/-- Settles O14: a request or a posted flit leaves with its words, and a held access ends with its answer. -/
theorem remoteAccesses : Obligations.RemoteAccesses := ⟨remoteAccesses_hold, heldAccesses_hold⟩

end Sys2Proof.Machine
end

section
/-! PROOFS. A class that has failed, and the tokens of serial mode its trap gives up (R115, R141, R203). -/

namespace Sys2Proof.Machine

/-! ### A state in which the trap of a failed class changes more than fencesClaim says (O16)

The trap of a chunk that has just begun gives up the tokens of serial mode its task holds (R203, log entry 60).
`fencesClaim` writes that trap without it, and its premise says of the chunk that it is not serial, not that its task holds no
token. -/

/-- The task of key 1 holds a token; its image has a trap routine, and its far class has failed. -/
def tokenState : State := { State.reset with
  cur := twinTask
  ctl := [(imgrecOff 0 0, 1#64 <<< 63)]
  eng := { State.reset.eng with counters := [(coreTenant 0 0, ⟨0, 0, 0, 0, 0, 1⟩)] }
  sched := { State.reset.sched with tokens := [(.package, 1)] } }

theorem tokenState_alone : Alone tokenState := by decide +kernel

theorem tokenState_tokens :
    (match exec (.cwait 3) tokenState with | .next t => t.sched.tokens | _ => [(.package, 1)]) = [] := by decide +kernel

/-- Refutes O16: where the task of a chunk that is not serial holds a token, the trap of `cwait` on a failed class gives the
token up. -/
theorem not_fencesAndRanges : ¬ Obligations.FencesAndRanges := by
  rintro ⟨h, -⟩
  obtain ⟨-, -, -, h⟩ := h tokenState
  obtain ⟨-, -, h⟩ := h 3 .far (.inr (.inr ⟨rfl, rfl⟩))
  have hexec := h (by decide +kernel) (by decide) (by decide +kernel) tokenState_alone (by decide +kernel)
  have hend := tokenState_tokens
  rw [hexec] at hend
  exact absurd hend (by decide +kernel)

end Sys2Proof.Machine
end

section
/-! PROOFS. `seal` and `unseal` (R267, R268, R286, R409). -/

namespace Sys2Proof.Machine

/-! ### Words of control space that the device writes -/

theorem ctlGet_congr {s t : State} (h : t.ctl = s.ctl) (o : Nat) : ctlGet t o = ctlGet s o := by unfold ctlGet; rw [h]

theorem devCtl_ctl (s : State) (off : Nat) (w : Word) : (devCtl s off w).ctl = Tab.set s.ctl (8 * (off / 8)) w :=
  (ctlChanged_onlyAborts (ctlSet s off w) off).ctl

theorem ctlGet_devCtl_same (s : State) (off : Nat) (w : Word) {o : Nat} (h : 8 * (o / 8) = 8 * (off / 8)) :
    ctlGet (devCtl s off w) o = w := by
  unfold ctlGet
  rw [devCtl_ctl, h]
  exact Tab.get_set_same ..

theorem ctlGet_devCtl_other (s : State) (off : Nat) (w : Word) {o : Nat} (h : 8 * (o / 8) ≠ 8 * (off / 8)) :
    ctlGet (devCtl s off w) o = ctlGet s o := by
  unfold ctlGet
  rw [devCtl_ctl]
  exact Tab.get_set_other _ _ _ h

/-! ### Fields of the two words -/

theorem fieldNat_eq_extractLsb' (w : Word) (hi lo : Nat) : fieldNat w hi lo = (w.extractLsb' lo (hi + 1 - lo)).toNat :=
  (BitVec.extractLsb'_toNat ..).symm

theorem sealedWord_fields (old : Word) {c owner : Nat} (hc : c < 4) (ho : owner < 64) :
    let x := sealedWord old c owner
    bitOf x 63 = true ∧ bitOf x 62 = false ∧ fieldNat x 61 60 = c ∧ fieldNat x 55 50 = owner ∧
      fieldNat x 59 56 = (fieldNat old 59 56 + 1) % 16 ∧ fieldNat x 47 0 = fieldNat old 47 0 := by
  simp only [bitOf_eq_decide, fieldNat_eq, sealedWord, BitVec.toNat_ofNat, decide_eq_true_eq, decide_eq_false_iff_not]
  omega

/-- Word 0 of an entry whose region is sealed with class `c`. -/
def sealedEntry (h : Word) (c : Nat) : Word := (h &&& ~~~(0x1C00000000000000#64)) ||| BitVec.ofNat 64 (2 ^ 60 + c * 2 ^ 58)

theorem sealedEntry_fields (h : Word) {c : Nat} (hc : c < 4) :
    bitOf (sealedEntry h c) 60 = true ∧ fieldNat (sealedEntry h c) 59 58 = c ∧
      fieldNat (sealedEntry h c) 57 0 = fieldNat h 57 0 := by
  simp only [fieldNat_eq_extractLsb', bitOf, sealedEntry, BitVec.getLsbD_or, BitVec.extractLsb'_or, BitVec.extractLsb'_and]
  have hlow : (~~~(0x1C00000000000000#64)).extractLsb' 0 (57 + 1 - 0) = BitVec.allOnes 58 := by decide
  have hclass : (~~~(0x1C00000000000000#64)).extractLsb' 58 (59 + 1 - 58) = 0#2 := by decide
  refine ⟨?_, ?_, ?_⟩
  · interval_cases c <;> simp
  · rw [hclass]
    interval_cases c <;> simp
  · have hrest : (BitVec.ofNat 64 (2 ^ 60 + c * 2 ^ 58)).extractLsb' 0 (57 + 1 - 0) = 0#58 := by interval_cases c <;> decide
    rw [hlow, hrest]
    show ((h.extractLsb' 0 58 &&& BitVec.allOnes 58) ||| 0#58).toNat = _
    rw [BitVec.and_allOnes, BitVec.or_zero]

theorem sealOff_word (n : Nat) : 8 * (sealOff n / 8) = sealOff n := by unfold sealOff; omega

theorem hmapOff_word (n : Nat) : 8 * (hmapOff n false / 8) = hmapOff n false := by unfold hmapOff; simp; omega

theorem sealOff_ne_hmapOff {n m : Nat} (h : m < 4096) : sealOff n ≠ hmapOff m false := by unfold sealOff hmapOff; simp; omega

/-! ### The two instructions -/

/-- The machine once both words of a seal are written. -/
def sealWritten (s : State) (e : HEntry) (c : Nat) : State :=
  devCtl (devCtl s (sealOff e.n) (sealedWord (ctlGet s (sealOff e.n)) c e.owner)) (hmapOff e.n false)
    (sealedEntry (ctlGet s (hmapOff e.n false)) c)

theorem sealRegion_eq (s : State) (e : HEntry) (c : Nat) : sealRegion s e c = settle (sealWritten s e c) := rfl

theorem ctlGet_sealWritten_seal (s : State) {e : HEntry} (c : Nat) (hn : e.n < 4096) :
    ctlGet (sealWritten s e c) (sealOff e.n) = sealedWord (ctlGet s (sealOff e.n)) c e.owner := by
  rw [sealWritten, ctlGet_devCtl_other _ _ _ (by rw [sealOff_word, hmapOff_word]; exact sealOff_ne_hmapOff hn),
    ctlGet_devCtl_same _ _ _ rfl]

theorem ctlGet_sealWritten_entry (s : State) (e : HEntry) (c : Nat) :
    ctlGet (sealWritten s e c) (hmapOff e.n false) = sealedEntry (ctlGet s (hmapOff e.n false)) c :=
  ctlGet_devCtl_same _ _ _ rfl

/-- The machine once both words of an unseal are written and the region's lines have left the instruction caches. -/
def unsealWritten (s : State) (n : Nat) : State :=
  let u := devCtl s (sealOff n) (ctlGet s (sealOff n) &&& ~~~(1#64 <<< 63))
  let v := devCtl u (hmapOff n false) (ctlGet u (hmapOff n false) &&& ~~~(1#64 <<< 60))
  match hEntryOf n (ctlGet s (hmapOff n false)) (ctlGet s (hmapOff n true)) with
  | some e => dropLines v (e.base / 64) ((e.base + e.size - 1) / 64)
  | none => v

theorem unsealWritten_words (s : State) {n : Nat} (hn : n < 4096) :
    bitOf (ctlGet (unsealWritten s n) (sealOff n)) 63 = false ∧ bitOf (ctlGet (unsealWritten s n) (hmapOff n false)) 60 = false ∧
      ∀ o, 8 * (o / 8) ≠ sealOff n → 8 * (o / 8) ≠ hmapOff n false → ctlGet (unsealWritten s n) o = ctlGet s o := by
  have hctl : (unsealWritten s n).ctl = (devCtl (devCtl s (sealOff n) (ctlGet s (sealOff n) &&& ~~~(1#64 <<< 63))) (hmapOff n false)
      (ctlGet (devCtl s (sealOff n) (ctlGet s (sealOff n) &&& ~~~(1#64 <<< 63))) (hmapOff n false) &&& ~~~(1#64 <<< 60))).ctl := by
    unfold unsealWritten
    dsimp only
    split <;> rfl
  have hget := ctlGet_congr hctl
  refine ⟨?_, ?_, fun o h1 h2 => ?_⟩
  · rw [hget, ctlGet_devCtl_other _ _ _ (by rw [sealOff_word, hmapOff_word]; exact sealOff_ne_hmapOff hn),
      ctlGet_devCtl_same _ _ _ rfl]
    simp [bitOf]
  · rw [hget, ctlGet_devCtl_same _ _ _ rfl]
    simp [bitOf]
  · rw [hget, ctlGet_devCtl_other _ _ _ (by rwa [hmapOff_word]), ctlGet_devCtl_other _ _ _ (by rwa [sealOff_word])]

theorem takeG_first (s : State) (a : Reg) : takeG s.cur a = (arg1 s a, read1 s a) := rfl

theorem takeG_second (s : State) (a b : Reg) : takeG (read1 s a) b = (arg2 s a b, read2 s a b) := rfl

theorem takeG_third (s : State) (a b c : Reg) : takeG (read2 s a b) c = (arg3 s a b c, read3 s a b c) := rfl

/-- The instruction ends with the handle of the region that has been sealed. -/
def sealDone (u : State) (t : Task) (n : Nat) (h : Reg) : State :=
  retireAlone u { u.cur with ctx := setG t.ctx h (BitVec.ofNat 64 (fieldNat (ctlGet u (sealOff n)) 59 56 * 4096 + n)) }

theorem exec_seal_ready {s : State} {h b l : Reg} {e : HEntry} (ha : Alone s) (hr : Ready s [b, l] [h])
    (hreg : exactRegion s (arg1 s b) (fieldNat (arg2 s b l) 39 0) = some e) (hz : fieldNat (arg2 s b l) 63 42 = 0)
    (hc : fieldNat (arg2 s b l) 41 40 ≠ 3)
    (hown : s.cur.trusted = true ∨ e.owner = s.cur.tenant ∧ fieldNat (arg2 s b l) 41 40 = 0) :
    exec (.seal h b l) s = if e.sealed then trap s 0x03 (arg1 s b) else if !destRoom s.cur h then trap s 0x02 0 else
      .next (sealDone (sealRegion s e (fieldNat (arg2 s b l) 41 40)) (read2 s b l) e.n h) := by
  have howner : ¬(e.owner ≠ s.cur.tenant ∧ (!s.cur.trusted) = true) := by
    rcases hown with ht | ⟨ho, -⟩
    · simp [ht]
    · simp [ho]
  have hclass : ¬(fieldNat (arg2 s b l) 41 40 ≠ 0 ∧ (!s.cur.trusted) = true) := by
    rcases hown with ht | ⟨-, ho⟩
    · simp [ht]
    · simp [ho]
  rw [exec_seal]
  unfold execSeal
  rw [gate_ready hr, alone_of ha, takeG_first]
  dsimp only
  rw [takeG_second]
  dsimp only
  rw [hreg]
  dsimp only
  rw [if_neg (by simp [hz, hc]), if_neg howner, if_neg hclass]
  rfl

theorem exec_unseal_ready {s : State} {h : Reg} (ha : Alone s) (hr : Ready s [h] []) :
    let x := arg1 s h
    let w := ctlGet s (sealOff (x.toNat % 4096))
    exec (.unseal h) s =
      if fieldNat x 63 16 ≠ 0 ∨ !bitOf w 63 ∨ fieldNat w 59 56 ≠ fieldNat x 15 12 then trap s 0x02 0
      else if fieldNat w 61 60 ≠ 0 ∧ !s.cur.trusted then trap s 0x02 0
      else if fieldNat w 55 50 ≠ s.cur.tenant ∧ !s.cur.trusted then trap s 0x02 0
      else .next (settle (retireAlone (unsealWritten s (x.toNat % 4096))
        { (unsealWritten s (x.toNat % 4096)).cur with ctx := (read1 s h).ctx })) :=
  (gate_ready hr _).trans (alone_of ha _)

/-- Settles O18: the two words that a seal and its removal write, and what is left. -/
theorem seals : Obligations.Seals := by
  intro s h b l e ha
  constructor
  · intro hr hd hreg c hz hc hown
    have hexec := exec_seal_ready ha hr hreg hz hc hown
    refine ⟨fun hs => hexec.trans (if_pos hs), fun hs ho hn => ⟨_, sealWritten s e c, _, hexec.trans
      ((if_neg (by simp [hs])).trans (if_neg (by simp [hd]))), rfl, rfl, ?_, ?_⟩⟩
    · rw [ctlGet_sealWritten_seal s c hn]
      exact sealedWord_fields _ (Nat.mod_lt _ (by decide)) ho
    · rw [ctlGet_sealWritten_entry]
      exact sealedEntry_fields _ (Nat.mod_lt _ (by decide))
  · intro hr x n w live
    have hexec := exec_unseal_ready ha hr
    refine ⟨fun hdead => hexec.trans (if_pos ?_), fun ⟨hz, hv, hg⟩ hown => ⟨_, hexec.trans ((if_neg ?_).trans ((if_neg ?_).trans
      (if_neg ?_))), unsealWritten_words s (Nat.mod_lt _ (by decide))⟩⟩
    · by_contra hnot
      simp only [not_or, not_not, Bool.not_eq_true', Bool.not_eq_false] at hnot
      exact hdead hnot
    · simp only [not_or, not_not, Bool.not_eq_true', Bool.not_eq_false]
      exact ⟨hz, hv, hg⟩
    · rcases hown with ht | ⟨ho, -⟩
      · simp [ht]
      · simp only [not_and]; exact fun h => absurd ho h
    · rcases hown with ht | ⟨-, ho⟩
      · simp [ht]
      · simp only [not_and]; exact fun h => absurd ho h

end Sys2Proof.Machine
end

section
/-! PROOFS. The commit of a chunk, its limit, and the grant of tokens (R110, R113, R115, R116, R118, R120, R131, R151). -/

namespace Sys2Proof.Machine

/-! ### A commit that nothing holds back -/

theorem settle_quiet {s : State} (h : Quiet s) : settle s = s := by
  obtain ⟨hw, hq⟩ := h
  have hone : settleOne s = none := by
    have hnext : nextWaiter s = none := by simp [nextWaiter, hw]
    unfold settleOne
    rw [hnext]
    simp [hq]
  unfold settle
  rw [hw, hq]
  show (match settleOne s with | none => s | some s => settleFuel 0 s) = s
  rw [hone]

theorem writeBytes_tags (m : Mem) (a : Nat) (bs : List Byte) : (m.writeBytes a bs).empties = m.empties := by
  induction bs generalizing m a with
  | nil => rfl
  | cons b bs ih => exact ih (m.write a b) (a + 1)

/-- The memory once a held store is published. -/
def stored (m : Mem) (a : Nat) (bs : List Byte) : Mem := (m.writeBytes a bs).clearPoison a bs.length

theorem stored_full (m : Mem) (a : Nat) (bs : List Byte) (q : Nat) : (stored m a bs).full q = m.full q := by
  show (!((m.writeBytes a bs).empties.contains (8 * (q / 8)))) = _
  rw [writeBytes_tags]
  rfl

theorem applyEff_store {s : State} {a : Nat} {bs : List Byte} (hp : poisonBlocks s.mem a bs.length = false) :
    applyEff s (.store a bs) =
      { raiseCounter s s.cur.core s.cur.tenant (storeClass s a) with mem := stored s.mem a bs } := by
  show (if poisonBlocks s.mem a bs.length then _ else _) = _
  rw [hp]
  rfl

/-- The machine once a chunk that meets no other has published its effects. -/
def commitPublished (s : State) : State :=
  releaseTokens ((commitOrder s.cur.chunk.log).foldl applyEff (modChunk
    { s with sched := { s.sched with order := { s.sched.order with commit := some (s.time, commitRank s) } } }
    fun c => { c with rlines := [], wlines := [] })) s.cur.key

/-- A chunk that may commit publishes its effects, and a new one begins. -/
theorem commitNow_may {s : State} (h : MayCommit s) : commitNow s = .done (settle (observe
    (modCur (commitPublished s) fun t => (commitMsg t).newChunk (commitPublished s).time))) := by
  obtain ⟨hb, ho, hsealed, hfoes, hcount⟩ := h
  unfold commitNow
  dsimp only
  rw [if_neg (by simp [hb, ho]), if_neg (by simp [hsealed]), hfoes, if_neg (by simp), if_neg (by simp), if_neg (by simp [hcount])]
  rfl

theorem commitOrder_store (a : Nat) (bs : List Byte) : commitOrder [.store a bs] = [.store a bs] := rfl

theorem commitPublished_store {s : State} {a : Nat} {bs : List Byte} (hlog : s.cur.chunk.log = [.store a bs])
    (hp : poisonBlocks s.mem a bs.length = false) : ∃ sched counters, commitPublished s = { s with
      mem := stored s.mem a bs, sched := sched, eng := { s.eng with counters := counters }
      cur := { s.cur with chunk := { s.cur.chunk with rlines := [], wlines := [] } } } := by
  unfold commitPublished
  rw [hlog, commitOrder_store, List.foldl_cons, List.foldl_nil, applyEff_store]
  · exact ⟨_, _, rfl⟩
  · exact hp

/-- What the commit of one held store leaves. -/
theorem commitNow_store {s : State} {a : Nat} {bs : List Byte} (h : MayCommit s) (hlog : s.cur.chunk.log = [.store a bs])
    (hq : Quiet s) (hp : poisonBlocks s.mem a bs.length = false) (hm : s.cur.ctx.msgDone = false) :
    ∃ t, commitNow s = .done t ∧ t.mem = stored s.mem a bs ∧ t.cur.ctx = s.cur.ctx ∧
      t.cur.chunk = Chunk.begin s.cur.ctx s.time false ∧ t.ctl = s.ctl ∧ t.conf = s.conf := by
  obtain ⟨sched, counters, hpub⟩ := commitPublished_store hlog hp
  have hmsg (c : Chunk) : commitMsg { s.cur with chunk := c } = { s.cur with chunk := c } := if_neg (by simp [hm])
  obtain ⟨u, hu, hcommit⟩ : ∃ u, u = observe (modCur (commitPublished s) fun t => (commitMsg t).newChunk (commitPublished s).time) ∧
      commitNow s = .done (settle u) := ⟨_, rfl, commitNow_may h⟩
  have hslots := observe_onlySlots (modCur (commitPublished s) fun t => (commitMsg t).newChunk (commitPublished s).time)
  rw [← hu, hpub] at hslots
  rw [hpub] at hu
  have hquiet : Quiet u := by rw [hu]; exact hq
  refine ⟨u, hcommit.trans (congrArg Commit.done (settle_quiet hquiet)), by rw [hu]; rfl, ?_, ?_, by rw [hu]; rfl, by rw [hu]; rfl⟩
  · rw [hslots]
    show (commitMsg { s.cur with chunk := { s.cur.chunk with rlines := [], wlines := [] } }).ctx = _
    rw [hmsg]
  · rw [hslots]
    show Chunk.begin (commitMsg { s.cur with chunk := { s.cur.chunk with rlines := [], wlines := [] } }).ctx s.time false = _
    rw [hmsg]

/-- A chunk without the baton, or whose turn has passed, waits. -/
theorem commitNow_waits {s : State} (h : hasBaton s = false ∨ commitOpen s = false) :
    commitNow s = .waits (modChunk s fun c => { c with due := true }) := by
  unfold commitNow
  exact if_pos (by rcases h with h | h <;> simp [h])

theorem stored_bytes {m : Mem} (hw : m.wf = true) (a : Nat) (bs : List Byte) :
    (∀ k, k < bs.length → (stored m a bs).read (a + k) = bs.getD k 0) ∧
      ∀ q, (q < a ∨ a + bs.length ≤ q) → (stored m a bs).read q = m.read q := by
  refine ⟨fun k hk => ?_, fun q hq => Mem.read_writeBytes_other m a q bs hq⟩
  rw [List.getD_eq_getElem _ _ hk]
  exact Mem.read_writeBytes_same hw a k bs hk

/-- What a commit of one store leaves, or the wait of a chunk whose turn has not come. -/
theorem commit_store_holds {u : State} {a : Nat} {bs : List Byte} (hw : u.mem.wf = true) (hlog : u.cur.chunk.log = [.store a bs])
    (hq : Quiet u) (hp : poisonBlocks u.mem a bs.length = false) (hm : u.cur.ctx.msgDone = false) :
    (MayCommit u → ∃ t, (commitNow u).state = t ∧
      (∀ k, k < bs.length → t.mem.read (a + k) = bs.getD k 0) ∧
      (∀ q, (q < a ∨ a + bs.length ≤ q) → t.mem.read q = u.mem.read q) ∧ (∀ q, t.mem.full q = u.mem.full q) ∧
      t.cur.ctx = u.cur.ctx ∧ t.cur.chunk = Chunk.begin u.cur.ctx u.time false ∧ t.ctl = u.ctl ∧ t.conf = u.conf) ∧
    (hasBaton u = false ∨ commitOpen u = false →
      ∃ t, (commitNow u).state = t ∧ t.mem = u.mem ∧ t.cur.ctx = u.cur.ctx ∧ t.cur.chunk.due = true) := by
  refine ⟨fun h => ?_, fun h => ⟨_, rfl, by rw [commitNow_waits h]; exact ⟨rfl, rfl, rfl⟩⟩⟩
  obtain ⟨t, ht, hmem, hctx, hchunk, hctl, hconf⟩ := commitNow_store h hlog hq hp hm
  obtain ⟨hin, hout⟩ := stored_bytes hw a bs
  exact ⟨t, by rw [ht]; rfl, by rw [hmem]; exact hin, by rw [hmem]; exact hout, fun q => by rw [hmem, stored_full], hctx, hchunk, hctl, hconf⟩

/-- Settles O19: a commit of one store writes its bytes and begins a chunk, and a chunk whose turn has not come waits. -/
theorem commits : Obligations.Commits := by
  intro s a bs hw hlog hq hp hm i hi hdue
  simp only [List.mem_cons, List.not_mem_nil, or_false] at hi
  rcases hi with rfl | rfl
  · have h := commit_store_holds (u := { s with cur := s.cur.retire }) hw hlog hq hp
      (by show (advance s.cur.ctx).msgDone = false; rw [advance_eq]; exact hm)
    exact ⟨fun hu => let ⟨t, ht, h⟩ := h.1 hu; ⟨t, congrArg Host.Outcome.next ht, h⟩,
      fun hu => let ⟨t, ht, h⟩ := h.2 hu; ⟨t, congrArg Host.Outcome.next ht, h⟩⟩
  · have h := commit_store_holds hw hlog hq hp hm
    exact ⟨fun hu => let ⟨t, ht, h⟩ := h.1 hu; ⟨t, (if_pos (hdue rfl)).trans (congrArg Host.Outcome.next ht), h⟩,
      fun hu => let ⟨t, ht, h⟩ := h.2 hu; ⟨t, (if_pos (hdue rfl)).trans (congrArg Host.Outcome.next ht), h⟩⟩

end Sys2Proof.Machine
end

section
/-! PROOFS. The limit of a chunk and the grant of commit tokens (R110, R113, R115, R116). -/

namespace Sys2Proof.Machine

/-! ### The abort of a chunk that has allocated nothing -/

theorem abortCur_of_allocs_nil {s : State} (h : s.cur.chunk.allocs = []) :
    abortCur s = ({ leaveArray (releaseTokens (siloBump s (abortEntry s.cur.chunk)) s.cur.key) s.cur.key with
      cur := { s.cur.restored with chunk := s.cur.chunk.aborted s.cur.core } },
      [(0x2100000000 + 0x4000000 + 8 * abortEntry s.cur.chunk) / 64]) := by
  unfold abortCur
  dsimp only
  rw [h]
  rfl

/-- Where no chunk has read its count in the silo, an abort aborts no other chunk. -/
theorem abortChunk_of_unseen {s : State} (h : s.cur.chunk.allocs = [])
    (hun : Unseen s (0x4000000 + 8 * abortEntry s.cur.chunk)) : abortChunk s =
      { leaveArray (releaseTokens (siloBump s (abortEntry s.cur.chunk)) s.cur.key) s.cur.key with
        cur := { s.cur.restored with chunk := s.cur.chunk.aborted s.cur.core } } := by
  unfold abortChunk
  rw [abortCur_of_allocs_nil h]
  dsimp only
  rw [if_neg (by simp)]
  refine publish_of_unmet _ fun u hu l hl => ?_
  rw [List.mem_singleton.1 hl]
  rcases mem_allTasks.1 hu with ⟨-, rfl⟩ | hu
  · exact List.not_mem_nil
  · rw [Nat.add_assoc]
    exact hun u (mem_allTasks.2 (.inr hu))

theorem chunkLimits_hold : chunkLimitsClaim := by
  intro s hlimit
  refine ⟨fun h => ?_, fun hk hf hs hw ha hun => ?_⟩
  · refine (if_pos hlimit).trans (congrArg Host.Outcome.next (if_neg ?_))
    rcases h with h | h <;> simp [h]
  · have hlim : chunkLimit s = modChunk (abortChunk s) fun c =>
        { c with serial := true, limited := true, want := serialWant { c with serial := true } s.cur.core } :=
      (if_pos (by simp [hk, hf])).trans (if_neg (by simp [hs]))
    rw [abortChunk_of_unseen ha hun] at hlim
    refine ⟨_, (if_pos hlimit).trans (congrArg Host.Outcome.next hlim), rfl, rfl, rfl, ?_, rfl, rfl, rfl, rfl⟩
    show some (((s.cur.chunk.aborted s.cur.core).want).getD _) = _
    unfold Chunk.aborted serialWant
    dsimp only
    rw [hw]
    split_ifs <;> rfl

/-! ### The oldest chunk that asks for a token -/

/-- The place of a task in the order of age: by the cycle in which its chunk began, then by core and slot. -/
def agePlace (t : Task) : ℕ ×ₗ ℕ ×ₗ ℕ := toLex (t.chunk.age, toLex (t.core, t.slot?.getD 8))

theorem older_iff (t u : Task) : older t u = true ↔ agePlace t < agePlace u := by
  simp only [older, agePlace, Prod.Lex.toLex_lt_toLex, Bool.or_eq_true, Bool.and_eq_true, decide_eq_true_eq, beq_iff_eq]

theorem not_older_iff (t u : Task) : older t u = false ↔ agePlace u ≤ agePlace t := by
  rw [← not_lt, ← older_iff, Bool.not_eq_true]

theorem foldl_older (ts : List Task) (t : Task) :
    ts.foldl (fun b u => if older u b then u else b) t ∈ t :: ts ∧
      ∀ v ∈ t :: ts, older v (ts.foldl (fun b u => if older u b then u else b) t) = false := by
  induction ts generalizing t with
  | nil => simp [not_older_iff]
  | cons u us ih =>
    rw [List.foldl_cons]
    obtain ⟨hmem, hmin⟩ := ih (if older u t then u else t)
    generalize us.foldl (fun b u => if older u b then u else b) (if older u t then u else t) = r at hmem hmin
    simp only [not_older_iff, List.forall_mem_cons] at hmin ⊢
    obtain ⟨hfirst, hrest⟩ := hmin
    by_cases h : older u t = true
    · rw [if_pos h] at hmem hfirst
      exact ⟨List.mem_cons_of_mem _ hmem, hfirst.trans ((older_iff u t).1 h).le, hfirst, hrest⟩
    · rw [if_neg h] at hmem hfirst
      refine ⟨?_, hfirst, hfirst.trans ((not_older_iff u t).1 (Bool.eq_false_iff.2 h)), hrest⟩
      rcases List.mem_cons.1 hmem with e | e
      · rw [e]; exact List.mem_cons_self
      · exact List.mem_cons_of_mem _ (List.mem_cons_of_mem _ e)

theorem tokenGrant_holds : tokenGrantClaim := by
  intro s scope hfree asks ⟨u, hu, hask⟩
  have hasker (v : Task) : tokenAsker s scope v = true ↔ asks v := by
    simp only [tokenAsker, asks, Bool.and_eq_true, beq_iff_eq, Bool.not_eq_true', and_assoc]
  have hmine (v : Task) : v ∈ (allTasks s).filter (tokenAsker s scope) ↔ v ∈ allTasks s ∧ asks v := by
    rw [List.mem_filter, hasker]
  have hopen : tokenFree s scope = true := by
    simp only [tokenFree, Bool.not_eq_true', List.any_eq_false, Bool.or_eq_true, Bool.and_eq_true, beq_iff_eq, not_or]
    intro e he
    obtain ⟨hne, hmeet⟩ := hfree e he
    refine ⟨hne, fun ⟨hm, hrun⟩ => ?_⟩
    split at hrun
    next t ht =>
      rcases hmeet hm t ht with h | h <;> simp [runsSerial, h] at hrun
    · cases hrun
  cases hl : (allTasks s).filter (tokenAsker s scope) with
  | nil =>
    have := (hmine u).2 ⟨hu, hask⟩
    rw [hl] at this
    cases this
  | cons t ts =>
    obtain ⟨hmem, hmin⟩ := foldl_older ts t
    rw [← hl] at hmem hmin
    obtain ⟨hm, ha⟩ := (hmine _).1 hmem
    refine ⟨_, hm, ha, fun v hv hva => hmin v ((hmine v).2 ⟨hv, hva⟩), ?_⟩
    show execSerialTokenGrant scope s = _
    unfold execSerialTokenGrant
    rw [if_neg (by simp [hopen]), hl]

/-- Settles O20: the limit of a chunk, and the grant of a token to the oldest chunk that asks. -/
theorem chunkLimits : Obligations.ChunkLimits := ⟨chunkLimits_hold, tokenGrant_holds⟩

end Sys2Proof.Machine
end

section
/-! PROOFS. `tend` and `yield` (R89, R420, R428, R429). -/

namespace Sys2Proof.Machine

theorem drainInflight_eq (s : State) : ∃ c, drainInflight s = modCur s fun t => { t with ctx := c, inflight := [] } := ⟨_, rfl⟩

/-- Where its tenant has no save area, a task leaves its slot with its registers alone. -/
theorem leaveSlot_eq {s : State} (hq : Quiet s) (h : saveRec s s.cur.tenant s.cur.core s.cur.number = none) :
    ∃ c, leaveSlot s = modCur s fun t => { t with ctx := c, inflight := [], status := .yielded } := by
  obtain ⟨c, hc⟩ := drainInflight_eq s
  refine ⟨c, ?_⟩
  have hsave : saveTask (drainInflight s) (drainInflight s).cur 1 none = drainInflight s := by
    have hrec : saveRec (drainInflight s) (drainInflight s).cur.tenant (drainInflight s).cur.core (drainInflight s).cur.number = none := h
    unfold saveTask
    rw [hrec]
  show settle (modCur (saveTask (drainInflight s) (drainInflight s).cur 1 none) fun t => { t with status := .yielded }) = _
  rw [hsave, settle_quiet (by exact hq), hc]
  rfl

theorem dropDeficit_eq (s : State) (core tenant : Nat) : ∃ sched, dropDeficit s core tenant = { s with sched := sched } := by
  unfold dropDeficit
  split_ifs <;> exact ⟨_, rfl⟩

theorem saveState_none {s : State} {t : Task} (h : saveRec s t.tenant t.core t.number = none) (code : Nat) : saveState s t code = s := by
  unfold saveState
  rw [h]

/-- The machine as an ended task leaves its slot, before its seal's use is told. -/
def slotLeft (s : State) : State :=
  let u := if stillOpen s s.cur.key then { s with sched := { s.sched with ended := s.cur.name :: s.sched.ended } } else s
  dropDeficit (releaseTokens { u with cur := Task.vacant s.cur.core } s.cur.key) s.cur.core s.cur.tenant

theorem slotLeft_eq (s : State) : ∃ sched, slotLeft s = { s with sched := sched, cur := Task.vacant s.cur.core } := by
  unfold slotLeft
  obtain ⟨sched, h⟩ := dropDeficit_eq (releaseTokens { (if stillOpen s s.cur.key then
    { s with sched := { s.sched with ended := s.cur.name :: s.sched.ended } } else s) with cur := Task.vacant s.cur.core } s.cur.key)
    s.cur.core s.cur.tenant
  refine ⟨sched, h.trans ?_⟩
  split_ifs <;> rfl

/-- The end of a task of which nothing stands beyond its slot. -/
theorem endTask_eq {s : State} (hd : s.cur.deferred = []) (hi : s.cur.icinvs = []) (hg : s.cur.gang = none) (hn : s.cur.net = none)
    (hrec : saveRec s s.cur.tenant s.cur.core s.cur.number = none) : endTask s = settle
      (if s.cur.started then ctlChanged (slotLeft s) (sealUseOff (s.cur.handle.toNat % 4096)) else slotLeft s) := by
  have hrec' : saveRec (if stillOpen s s.cur.key then { s with sched := { s.sched with ended := s.cur.name :: s.sched.ended } } else s)
      s.cur.tenant s.cur.core s.cur.number = none := by split_ifs <;> exact hrec
  unfold endTask deferredRecords gangEnded
  simp only [hd, hi, hg, hn, List.foldl_nil]
  rw [saveState_none hrec', ite_self]
  rfl

/-- What a settled end leaves: no task in the slot, and of the others at most what their wait slots have observed. -/
theorem endTask_leaves {s : State} (hd : s.cur.deferred = []) (hi : s.cur.icinvs = []) (hg : s.cur.gang = none)
    (hn : s.cur.net = none) (hrec : saveRec s s.cur.tenant s.cur.core s.cur.number = none) (hq : Quiet s)
    (hun : ∀ u ∈ s.tasks, (0x2100000000 + sealUseOff (s.cur.handle.toNat % 4096)) / 64 ∉ u.chunk.rlines ++ u.chunk.wlines) :
    endTask s = slotLeft s ∨ endTask s = observe (slotLeft s) := by
  obtain ⟨sched, hleft⟩ := slotLeft_eq s
  rw [endTask_eq hd hi hg hn hrec]
  split_ifs
  · have hunseen : Unseen (slotLeft s) (sealUseOff (s.cur.handle.toNat % 4096)) := by
      rw [hleft]
      exact fun u hu => hun u hu
    rw [ctlChanged_of_unseen hunseen]
    exact .inr (settle_quiet (by rw [hleft]; exact hq))
  · exact .inl (settle_quiet (by rw [hleft]; exact hq))

/-- The registers an inline child hands back: its parent's, the flags of both, and 1 in the destination. -/
theorem parentCtx_reads (i : Inline) (c : Ctx) :
    (i.d ≠ 0 → i.d ≠ 28 → i.d ≠ 29 → getG (parentCtx i c) i.d = 1) ∧
      (parentCtx i c).sendq = (if i.d = 29 then i.ctx.sendq ++ [1] else i.ctx.sendq) ∧ (parentCtx i c).pc = i.ctx.pc ∧
      (parentCtx i c).flags = i.ctx.flags ||| c.flags ∧ ∀ r, r ≠ i.d → getG (parentCtx i c) r = getG i.ctx r := by
  refine ⟨fun h0 h28 h29 => getG_setG_same _ _ h0 h28 h29, ?_, setG_pc .., setG_flags .., fun r hr => getG_setG_other _ _ hr⟩
  by_cases h : i.d = 29
  · rw [if_pos h, parentCtx, h]; rfl
  · rw [if_neg h]; exact setG_sendq _ _ h

/-- The slot goes back to the parent of an inline child. -/
def handedBack (s : State) (i : Inline) : State :=
  modCur s fun t => ({ t with ctx := parentCtx i t.ctx, waits := i.waits, msg := i.msg, inline := none, inflight := [] } : Task).newChunk
    s.time

/-- Settles O21: a task, an inline child and a slot end with what they hand on. -/
theorem taskEnds : Obligations.TaskEnds := by
  intro s
  refine ⟨fun ha hi => ?tend, fun i ha hi hpart hrec => ?inline, fun c hc => ⟨fun hq hg hi hfull hrec => ?yields, fun h => ?goes⟩,
    fun t hd hi hg hn hrec hq ht hun => ?ends⟩
  case tend =>
    refine (alone_of ha _).trans ?_
    rw [hi]
  case inline =>
    obtain ⟨hd, hq, hpc, hfl, hr⟩ := parentCtx_reads i s.cur.ctx
    refine ⟨handedBack s i, (alone_of ha _).trans ?_, hd, hq, hpc, rfl, rfl, rfl, hfl, hr, rfl, fun _ => rfl⟩
    rw [hi]
    dsimp only
    rw [hpart, hrec]
    rfl
  case yields =>
    obtain ⟨x, hleave⟩ := leaveSlot_eq hq hrec
    obtain ⟨sched, hdrop⟩ := dropDeficit_eq (leaveSlot c) (leaveSlot c).cur.core (leaveSlot c).cur.tenant
    refine ⟨dropDeficit (leaveSlot c) (leaveSlot c).cur.core (leaveSlot c).cur.tenant, ?_, ?_⟩
    · rw [exec_yield]
      unfold execYield
      rw [show commitNow (passed s) = .done c from hc]
      exact if_neg (by simp [hg, hi, hfull])
    · rw [hdrop, hleave]
      exact ⟨rfl, rfl, rfl, rfl⟩
  case goes =>
    rw [exec_yield]
    unfold execYield
    rw [show commitNow (passed s) = .done c from hc]
    refine if_pos ?_
    rcases h with h | h | h
    · simp [Option.isSome_iff_ne_none.2 h]
    · simp [Option.isSome_iff_ne_none.2 h]
    · simp [h]
  case ends =>
    obtain ⟨sched, hleft⟩ := slotLeft_eq s
    subst ht
    rcases endTask_leaves hd hi hg hn hrec hq hun with h | h
    · rw [h, hleft]
      exact ⟨rfl, rfl, rfl, rfl, rfl⟩
    · rw [h, hleft]
      exact ⟨rfl, rfl, rfl, rfl, by simp [observe, mapTasks, Function.comp_def]⟩

end Sys2Proof.Machine
end

section
/-! PROOFS. `spawn`, `spawn.ord`, `spawn.row` and `spawn.cl` (R84, R95, R118, R123, R418, R419, R421). -/

namespace Sys2Proof.Machine

/-! ### A child in a run queue -/

/-- The registers a task begins with: its block, its parameter block and its arguments. -/
theorem getG_entryCtx (pc block pb : Word) (x0 x1 x2 x3 : Word) (r : Reg) :
    getG (entryCtx pc block pb [x0, x1, x2, x3]) r =
      if r = 3 then block else if r = 4 then pb else if r = 10 then x0 else if r = 11 then x1 else if r = 12 then x2
      else if r = 13 then x3 else 0 := by
  unfold entryCtx
  dsimp only [List.getD_cons_zero, List.getD_cons_succ]
  by_cases h3 : r = 3
  · subst h3; rfl
  by_cases h4 : r = 4
  · subst h4; rfl
  by_cases h10 : r = 10
  · subst h10; rfl
  by_cases h11 : r = 11
  · subst h11; rfl
  by_cases h12 : r = 12
  · subst h12; rfl
  by_cases h13 : r = 13
  · subst h13; rfl
  rw [getG_setG_other _ _ h13, getG_setG_other _ _ h12, getG_setG_other _ _ h11, getG_setG_other _ _ h10, getG_setG_other _ _ h4,
    getG_setG_other _ _ h3]
  rw [if_neg h3, if_neg h4, if_neg h10, if_neg h11, if_neg h12, if_neg h13]
  simp [getG, Ctx.initial]

/-- The child that joins a run queue. -/
def spawnedChild (s : State) (core : Nat) (e : Word) (ord : Bool) : Task :=
  { unstartedTask s (childBirth s core e (if ord then some (s.cur.key, s.cur.ordNext) else none)) with key := s.nextKey }

theorem getG_spawnedChild (s : State) (core : Nat) (e : Word) (ord : Bool) (r : Reg) :
    getG (spawnedChild s core e ord).ctx r = if r ∈ [4, 10, 11, 12, 13] then getG s.cur.ctx r else 0 := by
  refine (getG_entryCtx _ _ _ _ _ _ _ r).trans ?_
  by_cases h : r ∈ [4, 10, 11, 12, 13]
  · rw [if_pos h]
    simp only [List.mem_cons, List.not_mem_nil, or_false] at h
    rcases h with rfl | rfl | rfl | rfl | rfl <;> rfl
  · rw [if_neg h]
    simp only [List.mem_cons, List.not_mem_nil, or_false, not_or] at h
    obtain ⟨h4, h10, h11, h12, h13⟩ := h
    rw [if_neg h4, if_neg h10, if_neg h11, if_neg h12, if_neg h13, ite_self]

theorem spawnTo_eq (s : State) (core : Nat) (e : Word) (ord : Bool) : spawnTo s core e ord = { s with
    tasks := insertTask (spawnedChild s core e ord) s.tasks, nextKey := s.nextKey + 1
    cur := { s.cur with ordNext := s.cur.ordNext + (if ord then 1 else 0) } } := by
  cases ord <;> rfl

theorem spawnOne_room {s : State} {d t e : Reg} {ord : Bool} (ha : Alone s) (hr : Ready s [t, e, 4, 10, 11, 12, 13] [d])
    (hd : destRoom s.cur d = true) (h4 : (arg2 s t e).toNat % 4 = 0) (hlen : (arg2 s t e).toNat < textLength s s.cur)
    (hcore : coreEnabled s (arg1 s t).toNat = true) (hq : queueFull s (arg1 s t).toNat = false) :
    spawnOne s ord d t e = finishAloneG (spawnTo s (arg1 s t).toNat (arg2 s t e) ord)
      { rebase (spawnTo s (arg1 s t).toNat (arg2 s t e) ord) (read2 s t e) with hold := none } d 0 := by
  have h1024 : (arg1 s t).toNat < 1024 := by
    unfold coreEnabled at hcore
    simp only [Bool.and_eq_true, decide_eq_true_eq] at hcore
    exact hcore.1
  unfold spawnOne
  rw [gate_ready hr, alone_of ha, takeG_first]
  dsimp only
  rw [takeG_second]
  dsimp only
  rw [if_neg (by omega), if_neg (by simp [hcore]; omega), if_neg (by simp [hd]), if_pos (by simp [hq])]

theorem spawns_hold : spawnsClaim := by
  intro s d t e ha hr hd core y h4 hlen hcore hq i hi
  obtain ⟨ord, hord, hexec⟩ : ∃ ord : Bool, (i = .spawnOrd d t e ↔ ord = true) ∧ exec i s = spawnOne s ord d t e := by
    simp only [List.mem_cons, List.not_mem_nil, or_false] at hi
    rcases hi with rfl | rfl
    · exact ⟨false, by simp, rfl⟩
    · exact ⟨true, by simp, rfl⟩
  have hdone := hexec.trans (spawnOne_room ha hr hd h4 hlen hcore hq)
  rw [spawnTo_eq] at hdone
  have hhold : ({ s.cur with ctx := setG (read2 s t e).ctx d 0, ordNext := s.cur.ordNext + (if ord then 1 else 0) } : Task) =
      { s.cur with ctx := setG (read2 s t e).ctx d 0, ordNext := s.cur.ordNext + (if ord then 1 else 0), hold := none } := by
    conv_rhs => rw [← ha.2.2.2]
  refine ⟨_, spawnedChild s core y ord, hdone, ?_, rfl, rfl, rfl, rfl, rfl, rfl, rfl, rfl, rfl, rfl, rfl, rfl, rfl, ?_, rfl,
    getG_spawnedChild s core y ord, rfl, rfl, rfl⟩
  · simp only [hord]
    rw [hhold]
    rfl
  · simp only [hord]
    rfl

/-! ### Requests of gangs -/

theorem gangInsert_split (q : List GangReq) (r : GangReq) : ∃ l₁ l₂, q = l₁ ++ l₂ ∧ gangInsert q r = l₁ ++ r :: l₂ ∧
    ((∀ x ∈ q, x.since ≠ r.since) → l₂ = []) := by
  induction q with
  | nil => exact ⟨[], [], rfl, rfl, fun _ => rfl⟩
  | cons x xs ih =>
    obtain ⟨l₁, l₂, hq, hins, hlast⟩ := ih
    unfold gangInsert
    split_ifs with h
    · refine ⟨[], x :: xs, rfl, rfl, fun hall => ?_⟩
      simp only [Bool.and_eq_true, beq_iff_eq] at h
      exact absurd h.1 (hall x List.mem_cons_self)
    · exact ⟨x :: l₁, l₂, by rw [hq]; rfl, by rw [hins]; rfl, fun hall => hlast fun y hy => hall y (List.mem_cons_of_mem _ hy)⟩

/-- The machine once a gang's request stands in its queue. -/
def gangAsked (s : State) (cl : Bool) (n : Nat) (e : Word) : State :=
  let c := if cl then n else n / 2
  bumpKey { s with sched := { s.sched with gangQ := Tab.set s.sched.gangQ c (gangInsert (gangQueue s c) (gangReq s cl n e)) } }

theorem spawnGang_checked {s : State} {d t e : Reg} {cl : Bool} (ha : Alone s) (hr : Ready s [t, e, 4, 10, 11, 12, 13] [d])
    (hd : destRoom s.cur d = true) (h4 : (arg2 s t e).toNat % 4 = 0) (hlen : (arg2 s t e).toNat < textLength s s.cur)
    (hrow : if cl then (arg1 s t).toNat < 64 ∧ rowEnabled s (2 * (arg1 s t).toNat) = true ∧ rowEnabled s (2 * (arg1 s t).toNat + 1) = true
      else (arg1 s t).toNat < 128 ∧ rowEnabled s (arg1 s t).toNat = true) :
    spawnGang s cl d t e =
      if 32 ≤ (gangQueue s (if cl then (arg1 s t).toNat else (arg1 s t).toNat / 2)).length then .next s
      else finishAloneG (gangAsked s cl (arg1 s t).toNat (arg2 s t e))
        (rebase (gangAsked s cl (arg1 s t).toNat (arg2 s t e)) (read2 s t e)) d 2 := by
  have hgood : (if cl then decide (63 < (arg1 s t).toNat) || !rowEnabled s (2 * (arg1 s t).toNat) ||
      !rowEnabled s (2 * (arg1 s t).toNat + 1) else decide (127 < (arg1 s t).toNat) || !rowEnabled s (arg1 s t).toNat) = false := by
    cases cl
    · obtain ⟨h, he⟩ := hrow
      simp [he]; omega
    · obtain ⟨h, he, he'⟩ := hrow
      simp [he, he']; omega
  unfold spawnGang
  rw [gate_ready hr, alone_of ha, takeG_first]
  dsimp only
  rw [takeG_second]
  dsimp only
  rw [if_neg (by omega), hgood, if_neg (by simp), if_neg (by simp [hd])]
  rfl

theorem gangSpawns_hold : gangSpawnsClaim := by
  intro s d t e ha hr hd n y h4 hlen cl hrow i c q
  have hexec : exec i s = spawnGang s cl d t e := by cases cl <;> rfl
  have hdone := hexec.trans (spawnGang_checked ha hr hd h4 hlen hrow)
  refine ⟨fun hq => ?_, fun hq => hdone.trans (if_pos hq)⟩
  obtain ⟨l₁, l₂, hsplit, hins, hlast⟩ := gangInsert_split q (gangReq s cl n y)
  refine ⟨_, gangReq s cl n y, l₁, l₂, hdone.trans (if_neg (Nat.not_le.2 hq)), hsplit, ?_, hlast, rfl, rfl, rfl, rfl, rfl, rfl, rfl, rfl, rfl, rfl⟩
  rw [← hins]
  exact Tab.get_set_same ..

/-- Settles O22: a child joins a run queue with its registers, and a gang's request its cluster's queue. -/
theorem spawns : Obligations.Spawns := ⟨spawns_hold, gangSpawns_hold⟩

end Sys2Proof.Machine
end

section
/-! PROOFS. The barriers of gangs, `msg` and `mdone` (R87, R98, R363, R364, R381, R382, R388, R389). -/

namespace Sys2Proof.Machine

/-! ### Barriers -/

theorem gsync_alone {s : State} (ha : Alone s) (cl : Bool) : gsync s cl = match gangOf s s.cur with
    | none => .next (retireAlone s s.cur)
    | some (g, m) =>
      if cl && !g.cl then .next (retireAlone s s.cur)
      else .next (modCur (mapMember s g.id m.pos (reachBar cl)) fun t => { t with hold := some (.gsync cl) }) := by
  unfold gsync
  rw [alone_of ha, ha.2.2.2]
  rfl

theorem mem_joined (g : Gang) (m : Member) (cl : Bool) (x : Member) :
    x ∈ joined g m cl ↔ x ∈ g.members ∧ (cl = true ∨ x.pos / 8 = m.pos / 8) := by
  cases cl <;> simp [joined, memberRow]

theorem passes_iff (g : Gang) (m : Member) (cl : Bool) : passes g m cl (if cl then m.clAt else m.rowAt) = true ↔
    ∀ x, x ∈ g.members ∧ (cl = true ∨ x.pos / 8 = m.pos / 8) →
      x.ended = true ∨ (if cl then m.clAt ≤ x.clAt else m.rowAt ≤ x.rowAt) := by
  have hstep (x : Member) : ((if cl then m.clAt else m.rowAt) ≤ if cl then x.clAt else x.rowAt) ↔
      (if cl then m.clAt ≤ x.clAt else m.rowAt ≤ x.rowAt) := by cases cl <;> exact Iff.rfl
  simp only [passes, List.all_eq_true, mem_joined, Bool.or_eq_true, decide_eq_true_eq, hstep]

/-- Settles O23: a barrier lets pass whom it does not concern, holds a member that reaches it, and passes once all have come. -/
theorem barriers : Obligations.Barriers := by
  refine ⟨fun s ha => ⟨fun hg i hi => ?_, fun g m hg => ⟨?_, fun hcl => ?_, fun hcl => ?_⟩⟩,
    fun s core slot t g m cl ht hh hg => ?_⟩
  · simp only [List.mem_cons, List.not_mem_nil, or_false] at hi
    rcases hi with rfl | rfl
    · exact (gsync_alone ha false).trans (by rw [hg])
    · exact (gsync_alone ha true).trans (by rw [hg])
  · exact (gsync_alone ha false).trans (by rw [hg]; rfl)
  · exact (gsync_alone ha true).trans (by rw [hg]; simp [hcl])
  · refine (gsync_alone ha true).trans ?_
    rw [hg]
    exact if_neg (by simp [hcl])
  · have hexec : exec (.gsyncPass core slot) s = if passes g m cl (if cl then m.clAt else m.rowAt) then
        .next (onTask (mapMember s g.id m.pos (passBar cl)) t.key fun s => retireAlone s { s.cur with hold := none, since := s.time })
        else .next s := by
      show execGsyncPass core slot s = _
      unfold execGsyncPass
      rw [ht]
      dsimp only
      rw [hh, hg]
    refine ⟨fun hall => hexec.trans (if_pos ((passes_iff g m cl).2 hall)), fun hone => hexec.trans (if_neg fun h => ?_)⟩
    obtain ⟨x, hx, hnot⟩ := hone
    exact hnot ((passes_iff g m cl).1 h x hx)

/-! ### Messages -/

section
variable {s : State} {d n : Reg} {g : BitVec 8} {c : BitVec 4}

/-- The task once the words of a message have left its queue. -/
def dequeued (s : State) (n : Reg) (k : Nat) : Task :=
  { read1 s n with ctx := { (read1 s n).ctx with sendq := (read1 s n).ctx.sendq.drop k } }

theorem execMsg_ready (hr : Ready s [n] [d]) (ha : Alone s) (hp : depPending s.cur = 0) : exec (.msg d n g c) s =
    let x := (arg1 s n).toNat
    if 2 ^ 26 ≤ x then trap s 0x02 0
    else if s.cur.ctx.sendq.length < c.toNat then trap s 0x02 0
    else if x / 1024 = s.conf.pkg ∧ !coreEnabled s (x % 1024) then
      if destRoom s.cur d then finishAloneG s (read1 s n) d 1 else trap s 0x02 0
    else
      let k := if x / 1024 = s.conf.pkg then msgClass s.cur.core (x % 1024) else .far
      if !destRoom (dequeued s n c.toNat) d then trap s 0x02 0
      else if counterFull s s.cur.core s.cur.tenant k ∨ msgHeld s (arg1 s n) then .next s
      else
        let s1 := sendMsg s s.cur.key s.cur.core (s.cur.slot?.getD 0) s.cur.tenant x g.toNat (s.cur.ctx.sendq.take c.toNat) true
        finishAloneG s1 (rebase s1 (dequeued s n c.toNat)) d 0 := by
  rw [exec_msg]
  unfold execMsg
  rw [gate_ready hr, alone_of ha, takeG_first]
  dsimp only
  rw [if_neg (not_not.2 hp)]
  rfl

theorem read1_sendq (s : State) (n : Reg) : (read1 s n).ctx.sendq = s.cur.ctx.sendq := by rw [read1_eq_popped]; rfl

/-- A message leaves, and its class's counter rises: nothing else of the machine changes but the interface. -/
theorem sendMsg_inside (task core slot tenant dst tag : Nat) (words : List Word) (h : dst / 1024 = s.conf.pkg) :
    sendMsg s task core slot tenant dst tag words true = raiseCounter { s with fab := { s.fab with netMsgs := s.fab.netMsgs ++
      [⟨core, dst % 1024, ⟨coreName s core, slot, tag, words, tenant, 0, 0, 0⟩, 256, none, true⟩] } } core tenant
      (msgClass core (dst % 1024)) := by
  unfold sendMsg
  exact if_pos h

theorem sendMsg_outside (task core slot tenant dst tag : Nat) (words : List Word) (h : dst / 1024 ≠ s.conf.pkg) :
    ∃ fab, sendMsg s task core slot tenant dst tag words true = raiseCounter { s with fab := fab } core tenant .far ∧
      fab.outReqs = s.fab.outReqs ++ [sentReq s task core tenant (dst / 1024) 2 (dst % 1024) 5
        (BitVec.ofNat 64 (tag + 2 ^ 8 * words.length) :: words) none true] := by
  obtain ⟨fab, hs, hr⟩ := sendTracked_sent s task core tenant (dst / 1024) 2 (dst % 1024) 5
    (BitVec.ofNat 64 (tag + 2 ^ 8 * words.length) :: words) none true
  refine ⟨fab, ?_, hr⟩
  unfold sendMsg
  refine (if_neg h).trans ?_
  dsimp only
  rw [hs]
  rfl

theorem mapOut_counters (s : State) (fab : Fab) (k : WaitClass) (t : Task) :
    countersOf (retireAlone (raiseCounter { s with fab := fab } s.cur.core s.cur.tenant k) t) s.cur.core s.cur.tenant =
      (countersOf s s.cur.core s.cur.tenant).mapOut k (· + 1) :=
  countersOf_setCounters { s with fab := fab } s.cur.core s.cur.tenant _

end

/-- A message that its class and its path have room for leaves. -/
theorem execMsg_sends {s : State} {d n : Reg} {g : BitVec 8} {c : BitVec 4} (hr : Ready s [n] [d]) (ha : Alone s)
    (hp : depPending s.cur = 0) (hx : (arg1 s n).toNat < 2 ^ 26) (hc : c.toNat ≤ s.cur.ctx.sendq.length) (h29 : d ≠ 29)
    (hheld : msgHeld s (arg1 s n) = false)
    (hcore : (arg1 s n).toNat / 1024 = s.conf.pkg → coreEnabled s ((arg1 s n).toNat % 1024) = true)
    (hroom : counterFull s s.cur.core s.cur.tenant (if (arg1 s n).toNat / 1024 = s.conf.pkg then
      msgClass s.cur.core ((arg1 s n).toNat % 1024) else .far) = false) :
    exec (.msg d n g c) s =
      let s1 := sendMsg s s.cur.key s.cur.core (s.cur.slot?.getD 0) s.cur.tenant (arg1 s n).toNat g.toNat
        (s.cur.ctx.sendq.take c.toNat) true
      .next (retireAlone s1 { rebase s1 (dequeued s n c.toNat) with ctx := setG (dequeued s n c.toNat).ctx d 0 }) := by
  have hd : destRoom (dequeued s n c.toNat) d = true := Bool.or_eq_true_iff.2 (.inl (bne_iff_ne.2 h29))
  rw [execMsg_ready hr ha hp]
  dsimp only
  rw [if_neg (by omega), if_neg (by omega), if_neg (fun h => by simp [hcore h.1] at h), hd, if_neg (by simp),
    if_neg (by simp [hroom, hheld])]
  rfl

theorem dequeued_ctx (s : State) (n : Reg) (k : Nat) :
    (dequeued s n k).ctx = { (read1 s n).ctx with sendq := s.cur.ctx.sendq.drop k } := by
  show { (read1 s n).ctx with sendq := (read1 s n).ctx.sendq.drop k } = _
  rw [read1_sendq]

/-- The sender goes on with the words gone from its queue and 0 in its destination. -/
theorem sentTask_eq (s : State) (d n : Reg) (k : Nat) (time : Nat) :
    ({ rebase s (dequeued s n k) with ctx := setG (dequeued s n k).ctx d 0 } : Task).retireAlone time =
      ({ read1 s n with ctx := setG { (read1 s n).ctx with sendq := s.cur.ctx.sendq.drop k } d 0 } : Task).retireAlone time := by
  rw [dequeued_ctx, read1_eq_popped]
  rfl

/-- Settles O24: a message is refused, answered, or leaves with the first words of the queue. -/
theorem messages : Obligations.Messages := by
  refine ⟨fun s d n g c hr ha hp => ?msg, fun s => ⟨rfl, fun t ht => ?mdone⟩⟩
  case mdone =>
    have hdone : t.cur = (match s.cur.msg with
      | none => s.cur
      | some m => { s.cur with ctx := { s.cur.ctx with msgPos := m.words.length, msgDone := true } }).retire := by
      injection ht with ht
      rw [← ht]
      rfl
    rw [hdone]
    cases hm : s.cur.msg with
    | none => simp only [ainLeft, Task.retire, hm]
    | some m =>
      have hpos : (advance { s.cur.ctx with msgPos := m.words.length, msgDone := true }).msgDone = true := by rw [advance_eq]
      simp only [ainLeft, Task.retire, hm, hpos, if_true]
  case msg =>
    have hexec := execMsg_ready (g := g) (c := c) hr ha hp
    dsimp only at hexec
    intro x q i t
    refine ⟨fun h => ?_, fun hx hc hpkg hcore hd => ?_, fun hx hc h29 hheld => ?_⟩
    · refine hexec.trans ?_
      rcases h with h | h
      · exact if_pos h
      · rw [if_pos h, ite_self]
        rfl
    · refine hexec.trans ?_
      have hoff : (!coreEnabled s (x % 1024)) = true := by rw [hcore]; rfl
      rw [if_neg (Nat.not_le.2 hx), if_neg (Nat.not_lt.2 hc), if_pos ⟨hpkg, hoff⟩, if_pos hd]
      rfl
    · intro sent counts
      constructor
      · intro hpkg hcore k hroom
        have hk : (if x / 1024 = s.conf.pkg then msgClass s.cur.core (x % 1024) else .far) = k := if_pos hpkg
        have hdone := execMsg_sends (g := g) hr ha hp hx hc h29 hheld (fun _ => hcore) (by rw [hk]; exact hroom)
        rw [sendMsg_inside _ _ _ _ _ _ _ hpkg] at hdone
        exact ⟨_, hdone, sentTask_eq s d n c.toNat s.time, mapOut_counters s _ k _, rfl, rfl⟩
      · intro hpkg hroom
        have hk : (if x / 1024 = s.conf.pkg then msgClass s.cur.core (x % 1024) else .far) = .far := if_neg hpkg
        have hdone := execMsg_sends (g := g) hr ha hp hx hc h29 hheld (fun h => absurd h hpkg) (by rw [hk]; exact hroom)
        obtain ⟨fab, hs, hout⟩ := sendMsg_outside (s := s) s.cur.key s.cur.core (s.cur.slot?.getD 0) s.cur.tenant x g.toNat
          (q.take c.toNat) hpkg
        rw [hs] at hdone
        have hlen : (q.take c.toNat).length = c.toNat := by rw [List.length_take]; omega
        rw [hlen] at hout
        exact ⟨_, _, hdone, sentTask_eq s d n c.toNat s.time, mapOut_counters s fab .far _, hout, rfl, rfl, rfl, rfl, rfl, rfl⟩

end Sys2Proof.Machine
end

section
/-! PROOFS. `wset` and the latches of wait slots (R102, R453, R454); `getst`, `tgctl` and `rpt` (R73, R361, R362, R406, R430). -/

namespace Sys2Proof.Machine

/-! ### Arming a wait slot -/

section
variable {s : State} {n : BitVec 2} {c : WaitCond} {a b : Reg}

theorem execWset_ready (hr : Ready s [a, b] []) : exec (.wset n c a b) s =
    let w : WaitSlot := ⟨some c, arg1 s a, arg2 s a b, false, false, none⟩
    if wsetWord c then
      if isLocal s (arg1 s a) then checked s (arg1 s a) ⟨false, 8, 8, true, false, false⟩ (arm s (read2 s a b) n w)
      else alone s (armRemote s (read2 s a b) n w c)
    else if wsetBad c (arg1 s a) then trap s 0x02 0
    else arm s (read2 s a b) n w := by
  rw [exec_wset]
  unfold execWset
  rw [gate_ready hr, takeG_first]
  dsimp only
  rw [takeG_second]

theorem wsetWord_iff : wsetWord c = true ↔ c = .full ∨ c = .empty ∨ c = .diff := by cases c <;> simp [wsetWord]

theorem execWset_operand (hr : Ready s [a, b] []) (hw : wsetWord c = false) : exec (.wset n c a b) s =
    if wsetBad c (arg1 s a) then trap s 0x02 0
    else arm s (read2 s a b) n ⟨some c, arg1 s a, arg2 s a b, false, false, none⟩ := by
  rw [execWset_ready hr]
  exact if_neg (by simp [hw])

/-- A condition on a word of another package leaves as an OP 3 request. -/
theorem armRemote_asks {w : WaitSlot} (ha : Alone s) (hl : isLocal s w.a = false) (hout : requestsOut s s.cur.core < 256)
    (hc : checkAccess s s.cur.tenant s.cur.trusted w.a ⟨false, 8, 8, true, false, false⟩ = none) (t : Task) :
    ∃ u r, armRemote s t n w c = .next u ∧ u.fab.outReqs = s.fab.outReqs ++ [r] ∧ r.flit.op = 3 ∧ r.flit.dest = pkgOf w.a ∧
      r.flit.words.head? = some w.a ∧
      u.cur = { s.cur with hold := some (.reply r.reqid), lanes := [BitVec.ofNat 64 r.reqid] } ∧ u.mem = s.mem := by
  obtain ⟨fab, hs, hr⟩ := requestSent_eq s 3 w.a (armWords c w.b) .drop 8 false
  unfold armRemote
  rw [ha.2.2.2]
  dsimp only
  rw [checked_ok hc (waitsBusy_other hl _), if_neg (by omega), hs]
  exact ⟨_, _, rfl, hr, rfl, rfl, rfl, rfl, rfl⟩

end

theorem waitSlots_hold : waitSlotsClaim := by
  intro s n c a b hr x y t i arms traps word
  have hexec : exec i s = _ := execWset_ready hr
  dsimp only at hexec
  refine ⟨fun hw hl hb hc => ?_, fun hw hl ha hout hc => ?_, fun hw hl hf hs hb v g k hh hk => ?_, fun hc => ?_, fun hc => ?_,
    fun hc => ?_, fun hc => ?_⟩
  · refine hexec.trans ?_
    rw [if_pos (wsetWord_iff.2 hw), if_pos hl, checked_ok hc (waitsBusy_free hb _)]
    rfl
  · rw [if_pos (wsetWord_iff.2 hw), if_neg (Bool.eq_false_iff.1 hl), alone_of ha] at hexec
    obtain ⟨u, r, hu, h⟩ := armRemote_asks (n := n) (c := c) (w := ⟨some c, x, y, false, false, none⟩) ha hl hout hc (read2 s a b)
    exact ⟨u, r, hexec.trans hu, h⟩
  · rw [if_pos (wsetWord_iff.2 hw), if_neg (Bool.eq_false_iff.1 hl), alone_fresh hf hs hb] at hexec
    refine hexec.trans ?_
    unfold armRemote
    rw [hh]
    dsimp only
    rw [hk]
    rfl
  · have hw : wsetWord c = false ∧ wsetBad c x = false := by rcases hc with rfl | rfl <;> exact ⟨rfl, rfl⟩
    exact (execWset_operand hr hw.1).trans (if_neg (Bool.eq_false_iff.1 hw.2))
  · subst hc
    have hbad : wsetBad .cnt x = true ↔ ¬(1 ≤ x.toNat ∧ x.toNat ≤ 3) := by simp [wsetBad]; omega
    split_ifs with h
    · exact (execWset_operand hr rfl).trans (if_neg fun e => hbad.1 e h)
    · exact (execWset_operand hr rfl).trans (if_pos (hbad.2 h))
  · subst hc
    have hbad : wsetBad .msg x = true ↔ ¬x.toNat ≤ 255 := by simp [wsetBad]
    split_ifs with h
    · exact (execWset_operand hr rfl).trans (if_neg fun e => hbad.1 e h)
    · exact (execWset_operand hr rfl).trans (if_pos (hbad.2 h))
  · subst hc
    have hbad : wsetBad .ticket x = true ↔ ¬bitOf x 63 = true := by simp [wsetBad]
    split_ifs with h
    · exact (execWset_operand hr rfl).trans (if_neg fun e => hbad.1 e h)
    · exact (execWset_operand hr rfl).trans (if_pos (hbad.2 h))

/-! ### Latches -/

theorem onTask_self {s : State} (h : isTask s.cur = true) (f : State → State) : onTask s s.cur.key f = f s :=
  if_pos (by simp [h])

theorem latches_hold : latchesClaim := by
  intro s slot ws h hstatus htask
  have hcur : isTask s.cur = true := by simp [isTask, hstatus]
  have hlatched : (modCur s fun t => { t with waits := t.waits.mapIdx fun i w => if i = ws then latchSlot s t w else w }).cur.waits[ws] =
      latchSlot s s.cur s.cur.waits[ws] := by
    show (s.cur.waits.mapIdx fun i w => if i = ws then latchSlot s s.cur w else w)[ws] = _
    rw [Vector.getElem_mapIdx, if_pos rfl]
  refine ⟨modCur s fun t => { t with waits := t.waits.mapIdx fun i w => if i = ws then latchSlot s t w else w }, ?_, ⟨rfl, fun _ => rfl⟩,
    fun k hk hne => ?_, ?_, fun hc => ?_, ?_, ?_⟩
  · show execWaitLatch s.cur.core slot ws s = _
    unfold execWaitLatch
    rw [htask]
    exact congrArg Host.Outcome.next (onTask_self hcur _)
  · show (s.cur.waits.mapIdx fun i w => if i = ws then latchSlot s s.cur w else w)[k] = _
    rw [Vector.getElem_mapIdx, if_neg hne]
  · rw [hlatched, latchSlot]
    simp [or_assoc]
  · simp [condHolds, hc]
  · rw [hlatched, latchSlot]
  · rw [hlatched, latchSlot]

/-- Settles O26: a wait slot is armed here or by a request, and latches what its condition has been. -/
theorem waitSlots : Obligations.WaitSlots := ⟨waitSlots_hold, latches_hold⟩

/-! ### Status words, tag control and repetition -/

theorem execTgctl_ready {s : State} {a b : Reg} (hr : Ready s [a, b] []) : exec (.tgctl a b) s =
    if 256 ≤ (arg1 s a).toNat ∨ 4 ≤ (arg2 s a b).toNat then trap s 0x02 0
    else if !bitOf (htabWord s s.cur.tenant (arg1 s a).toNat) 63 then trap s 0x02 0
    else .next (retire s ((read2 s a b).hold' (.tgctl (arg1 s a).toNat ((arg2 s a b).truncate 2)))) := by
  rw [exec_tgctl]
  unfold execTgctl
  rw [gate_ready hr, takeG_first]
  dsimp only
  rw [takeG_second]

/-- Settles O28: the status words, the update of a handler entry that joins the chunk, and the start of a repetition. -/
theorem statusAndRepetition : Obligations.StatusAndRepetition := by
  intro s
  refine ⟨fun d n hr hd => ?getst, fun a b hr => ?tgctl, fun c l k => ?rpt⟩
  case getst =>
    intro t w value hwf
    have hn : n.toNat < 15 := Nat.lt_succ_of_le (of_decide_eq_true hwf)
    have hvalue : statusWord s s.cur n.toNat = value.getD n.toNat 0 := by
      generalize n.toNat = k at hn
      interval_cases k <;> rfl
    exact (gate_ready hr _).trans ((finishG_room hd _ _).trans (by rw [hvalue]; rfl))
  case tgctl =>
    intro x y
    refine ⟨fun hx hy hv => ?_, fun h => ?_⟩
    · have htag : (arg2 s a b).truncate 2 = BitVec.ofNat 2 y := by apply BitVec.eq_of_toNat_eq; simp [y]
      refine (execTgctl_ready hr).trans ((if_neg (by omega)).trans ((if_neg (by simp [x] at hv; simp [hv])).trans ?_))
      rw [htag, read2_eq_popped]
      rfl
    · refine (execTgctl_ready hr).trans ?_
      rcases h with h | h | h
      · exact if_pos (.inl h)
      · exact if_pos (.inr h)
      · have hv : (!bitOf (htabWord s s.cur.tenant (arg1 s a).toNat) 63) = true := by rw [h]; rfl
        rw [if_pos hv, ite_self]
        rfl
  case rpt => rfl

end Sys2Proof.Machine
end

section
/-! PROOFS. Vectors by their elements: integer operations, moves, compares and reductions (R432 to R436, R446 to R448, R450,
R451). -/

namespace Sys2Proof.Machine

/-! ### Elements of a vector -/

theorem elemAt_eq (w : Nat) (v : VWord) (i : Nat) : elemAt w v i = (el w v i).toNat :=
  (BitVec.extractLsb'_toNat ..).symm

theorem vecOf_div (w : Nat) (xs : List Nat) (i : Nat) : vecOf w xs / 2 ^ (w * i) % 2 ^ w = xs.getD i 0 % 2 ^ w := by
  induction xs generalizing i with
  | nil => simp [vecOf]
  | cons x xs ih =>
    cases i with
    | zero => simp [vecOf, Nat.add_mul_mod_self_left]
    | succ i =>
      have hstep : vecOf w (x :: xs) / 2 ^ (w * (i + 1)) = vecOf w xs / 2 ^ (w * i) := by
        rw [Nat.mul_succ, Nat.add_comm (w * i) w, pow_add, ← Nat.div_div_eq_div_mul, vecOf,
          Nat.add_mul_div_left _ _ (by positivity), Nat.div_eq_of_lt (Nat.mod_lt _ (by positivity)), Nat.zero_add]
      rw [hstep, ih, List.getD_cons_succ]

theorem el_vecPack {w i : Nat} (h : w * i + w ≤ 512) (xs : List Nat) : el w (vecPack w xs) i = BitVec.ofNat w (xs.getD i 0) := by
  rw [el, vecPack, extractLsb'_ofNat _ _ _ _ h]
  apply BitVec.eq_of_toNat_eq
  rw [BitVec.toNat_ofNat, BitVec.toNat_ofNat, vecOf_div]

theorem vecElems_getD {w n : Nat} (v : VWord) {i : Nat} (h : i < n) : (vecElems w n v).getD i 0 = (el w v i).toNat := by
  rw [List.getD_eq_getElem _ _ (by simpa [vecElems] using h)]
  simp [vecElems, elemAt_eq]

@[simp] theorem length_vecElems (w n : Nat) (v : VWord) : (vecElems w n v).length = n := by simp [vecElems]

theorem vecElems_getElem {w n : Nat} (v : VWord) {i : Nat} (h : i < (vecElems w n v).length) :
    (vecElems w n v)[i] = (el w v i).toNat := by
  simp [vecElems, elemAt_eq]

theorem el_fits {w i : Nat} (h : i < 512 / w) : w * i + w ≤ 512 := by
  calc w * i + w = w * (i + 1) := (Nat.mul_succ w i).symm
    _ ≤ w * (512 / w) := Nat.mul_le_mul_left w h
    _ ≤ 512 := Nat.mul_div_le 512 w

/-- An element of a masked combination. -/
theorem el_vecMap2 {w i : Nat} (h : i < 512 / w) (m : Word) (f : Nat → Nat → Nat) (x y : VWord) :
    el w (vecMap2 w m f x y) i = if bitOf m i then BitVec.ofNat w (f (el w x i).toNat (el w y i).toNat) else 0 := by
  rw [vecMap2, el_vecPack (el_fits h), List.getD_eq_getElem _ _ (by simpa using h), List.getElem_mapIdx, List.getElem_zipWith,
    vecElems_getElem, vecElems_getElem]
  split_ifs <;> rfl

/-- The mask of an operation; m0 is all ones. -/
theorem bitOf_mask (s : State) (m : BitVec 3) {i : Nat} (h : i < 64) : bitOf (getM s.cur.ctx (m.zeroExtend 5)) i = mBit s m i := by
  have hm : (m.zeroExtend 5 : BitVec 5).toNat % 8 = m.toNat := by simp; omega
  unfold getM mBit
  dsimp only
  rw [hm]
  by_cases h0 : m = 0
  · subst h0
    show (BitVec.allOnes 64).getLsbD i = true
    rw [BitVec.getLsbD_allOnes]
    exact decide_eq_true h
  · have hn : m.toNat ≠ 0 := fun e => h0 (BitVec.eq_of_toNat_eq e)
    rw [if_neg h0, if_neg hn]
    simp [bitOf, Vector.getD, m.isLt]

/-! ### Integer operations -/

theorem opVV_ready {s : State} {d a b : Reg} (hr : ReadyV s [] [] [a, b] [d]) (f : VWord → VWord → VWord) :
    opVV s d a b f = .next (wroteV s s.cur d (f (getV s.cur.ctx a) (getV s.cur.ctx b))) := gate_ready hr _

theorem getV_wroteV (s : State) (d : Reg) (v : VWord) : getV (wroteV s s.cur d v).cur.ctx d = v :=
  (getV_advance _ d).trans (getV_setV_same _ d v)

theorem wroteV_flags (s : State) (d : Reg) (v : VWord) : (wroteV s s.cur d v).cur.ctx.flags = s.cur.ctx.flags := by
  show (advance (setV s.cur.ctx d v)).flags = _
  rw [advance_eq]
  rfl

theorem vecInt_gives {s : State} {e : ElemType} {m : BitVec 3} {d a b : Reg} {w : Nat} {j : Instr} {f : Nat → Nat → Nat → Nat}
    (hw : ElemType.width e = w) (hr : ReadyV s [] [] [a, b] [d]) (hexec : exec j s = vecInt s e m d a b f)
    (g : BitVec w → BitVec w → BitVec w) (hfg : ∀ x y : BitVec w, BitVec.ofNat w (f w x.toNat y.toNat) = g x y) :
    ∃ t, exec j s = .next t ∧ FrameV s t d ∧ t.cur.ctx.flags = s.cur.ctx.flags ∧ ∀ i, i < 512 / w →
      el w (getV t.cur.ctx d) i = if mBit s m i then g (el w (getV s.cur.ctx a) i) (el w (getV s.cur.ctx b) i) else 0 := by
  have h64 : 512 / w ≤ 64 := by subst hw; cases e <;> decide
  subst hw
  refine ⟨_, hexec.trans (opVV_ready hr _), frameV_wroteV _ _ _, wroteV_flags _ _ _, fun i hi => ?_⟩
  rw [getV_wroteV, el_vecMap2 hi, bitOf_mask s m (by omega), hfg]

section
variable {w : Nat} (x y : BitVec w)

theorem ofNat_minS : BitVec.ofNat w (minS w x.toNat y.toNat) = if x.toInt ≤ y.toInt then x else y := by
  simp only [minS, signedOf_toNat]
  split_ifs <;> simp

theorem ofNat_maxS : BitVec.ofNat w (maxS w x.toNat y.toNat) = if x.toInt ≤ y.toInt then y else x := by
  simp only [maxS, signedOf_toNat]
  split_ifs <;> simp

theorem ofNat_min : BitVec.ofNat w (min x.toNat y.toNat) = if x.toNat ≤ y.toNat then x else y := by
  rw [Nat.min_def]
  split_ifs <;> simp

theorem ofNat_max : BitVec.ofNat w (max x.toNat y.toNat) = if x.toNat ≤ y.toNat then y else x := by
  rw [Nat.max_def]
  split_ifs <;> simp

theorem ofNat_wrapTo (z : Int) : BitVec.ofNat w (wrapTo w z) = BitVec.ofInt w z := by
  apply BitVec.eq_of_toNat_eq
  rw [BitVec.toNat_ofNat, BitVec.toNat_ofInt, wrapTo, Nat.mod_eq_of_lt]
  have hpos : (0 : Int) < (2 ^ w : Nat) := by positivity
  have := Int.emod_lt_of_pos z hpos
  have := Int.emod_nonneg z hpos.ne'
  omega

theorem ofNat_signedShift : BitVec.ofNat w (wrapTo w (signedOf w x.toNat / 2 ^ (y.toNat % w))) = x.sshiftRight (y.toNat % w) := by
  rw [ofNat_wrapTo, signedOf_toNat, sshiftRight_eq_ofInt_div]

theorem ofNat_sub : BitVec.ofNat w ((x.toNat + 2 ^ w - y.toNat) % 2 ^ w) = x - y := by
  apply BitVec.eq_of_toNat_eq
  have := y.isLt
  rw [BitVec.toNat_ofNat, Nat.mod_mod, BitVec.toNat_sub]
  congr 1
  omega

theorem ofNat_add : BitVec.ofNat w ((x.toNat + y.toNat) % 2 ^ w) = x + y := by
  apply BitVec.eq_of_toNat_eq
  simp

theorem ofNat_mul : BitVec.ofNat w (x.toNat * y.toNat % 2 ^ w) = x * y := by
  apply BitVec.eq_of_toNat_eq
  simp

theorem ofNat_shiftLeft (k : Nat) : BitVec.ofNat w (x.toNat * 2 ^ k % 2 ^ w) = x <<< k := by
  apply BitVec.eq_of_toNat_eq
  simp [Nat.shiftLeft_eq]

theorem ofNat_shiftRight (k : Nat) : BitVec.ofNat w (x.toNat / 2 ^ k) = x >>> k := by
  apply BitVec.eq_of_toNat_eq
  rw [BitVec.toNat_ofNat, BitVec.toNat_ushiftRight, Nat.shiftRight_eq_div_pow, Nat.mod_eq_of_lt]
  exact (Nat.div_le_self _ _).trans_lt x.isLt

end

/-- Settles O29: an integer operation is the operation on its elements. -/
theorem vectorInteger : Obligations.VectorInteger := by
  intro s e m d a b hr w ops
  have hw : ElemType.width e = w := by cases e <;> rfl
  clear_value w
  have gives {j : Instr} {f : Nat → Nat → Nat → Nat} (hexec : exec j s = vecInt s e m d a b f) (g : BitVec w → BitVec w → BitVec w)
      (hfg : ∀ x y : BitVec w, BitVec.ofNat w (f w x.toNat y.toNat) = g x y) := vecInt_gives hw hr hexec g hfg
  simp only [ops, List.forall_mem_cons, List.not_mem_nil, false_implies, implies_true, and_true]
  exact ⟨gives (exec_vadd ..) _ ofNat_add,
    gives (exec_vsub ..) _ ofNat_sub,
    gives (exec_vmul ..) _ ofNat_mul,
    gives (exec_vmin ..) _ ofNat_minS,
    gives (exec_vmax ..) _ ofNat_maxS,
    gives (exec_vminu ..) _ ofNat_min,
    gives (exec_vmaxu ..) _ ofNat_max,
    gives (exec_vand ..) _ fun x y => by simp,
    gives (exec_vor ..) _ fun x y => by simp,
    gives (exec_vxor ..) _ fun x y => by simp,
    gives (exec_vsll ..) _ fun x y => ofNat_shiftLeft x _,
    gives (exec_vsrl ..) _ fun x y => ofNat_shiftRight x _,
    gives (exec_vsra ..) _ ofNat_signedShift⟩

/-! ### Compares and reductions (R436, R448) -/

theorem getLsbD_maskOf (bs : List Bool) (i : Nat) : (maskOf bs).getLsbD i = (decide (i < 64) && bs.getD i false) := by
  have hdiv := vecOf_div 1 (bs.map fun b => if b then 1 else 0) i
  rw [Nat.one_mul, Nat.pow_one] at hdiv
  have hget : (bs.map fun b => if b then 1 else 0).getD i 0 = if bs.getD i false then 1 else 0 :=
    List.getD_map bs false fun b : Bool => if b then (1 : Nat) else 0
  rw [maskOf, BitVec.getLsbD_ofNat, Nat.testBit_eq_decide_div_mod_eq, hdiv, hget]
  cases bs.getD i false <;> rfl

theorem vecCmp_iff {w : Nat} (o : VCmpOp) (x y : BitVec w) : vecCmp o w x.toNat y.toNat = true ↔ match o with
    | .eq => x = y
    | .ne => x ≠ y
    | .lt => x.toInt < y.toInt
    | .ltu => x.toNat < y.toNat
    | .le => x.toInt ≤ y.toInt
    | .leu => x.toNat ≤ y.toNat := by
  cases o <;> simp [vecCmp, signedOf_toNat, BitVec.toNat_inj]

/-- One combination of a reduction, on elements. -/
def redElem {w : Nat} (o : RedOp) (x y : BitVec w) : BitVec w :=
  match o with
  | .add => x + y
  | .min => if x.toInt ≤ y.toInt then x else y
  | .max => if x.toInt ≤ y.toInt then y else x
  | .minu => if x.toNat ≤ y.toNat then x else y
  | .maxu => if x.toNat ≤ y.toNat then y else x
  | .and => x &&& y
  | .or => x ||| y
  | .xor => x ^^^ y

theorem redStep_toNat {w : Nat} (o : RedOp) (x y : BitVec w) : redStep o w x.toNat y.toNat = (redElem o x y).toNat := by
  cases o
  case add => simp [redStep, redElem]
  case min => simp only [redStep, redElem, minS, signedOf_toNat, apply_ite BitVec.toNat]
  case max => simp only [redStep, redElem, maxS, signedOf_toNat, apply_ite BitVec.toNat]
  case minu => simp only [redStep, redElem, Nat.min_def, apply_ite BitVec.toNat]
  case maxu => simp only [redStep, redElem, Nat.max_def, apply_ite BitVec.toNat]
  case and => simp [redStep, redElem]
  case or => simp [redStep, redElem]
  case xor => simp [redStep, redElem]

theorem foldl_redStep {w : Nat} (o : RedOp) (l : List (BitVec w)) (x : BitVec w) :
    (l.map BitVec.toNat).foldl (redStep o w) x.toNat = (l.foldl (redElem o) x).toNat := by
  induction l generalizing x with
  | nil => rfl
  | cons y l ih => rw [List.map_cons, List.foldl_cons, List.foldl_cons, redStep_toNat, ih]

/-- A step that chooses one of its two operands leaves one of a list that stands in the step's relation to all. -/
theorem foldl_choice {α : Type} {f : α → α → α} {R : α → α → Prop} (hrefl : ∀ x, R x x) (htrans : ∀ x y z, R x y → R y z → R x z)
    (hf : ∀ x y, (f x y = x ∨ f x y = y) ∧ R (f x y) x ∧ R (f x y) y) (l : List α) (x : α) :
    l.foldl f x ∈ x :: l ∧ ∀ z ∈ x :: l, R (l.foldl f x) z := by
  induction l generalizing x with
  | nil => simp [hrefl]
  | cons y l ih =>
    obtain ⟨hmem, hall⟩ := ih (f x y)
    obtain ⟨hone, hx, hy⟩ := hf x y
    rw [List.foldl_cons]
    have hfirst := hall _ List.mem_cons_self
    refine ⟨?_, fun z hz => ?_⟩
    · rcases List.mem_cons.1 hmem with e | e
      · rw [e]; rcases hone with h | h <;> rw [h] <;> simp
      · exact List.mem_cons_of_mem _ (List.mem_cons_of_mem _ e)
    · rcases List.mem_cons.1 hz with rfl | hz
      · exact htrans _ _ _ hfirst hx
      · rcases List.mem_cons.1 hz with rfl | hz
        · exact htrans _ _ _ hfirst hy
        · exact hall z (List.mem_cons_of_mem _ hz)

theorem foldl_add_elems {w : Nat} (l : List (BitVec w)) (x : BitVec w) :
    l.foldl (· + ·) x = BitVec.ofNat w (((x :: l).map BitVec.toNat).sum) := by
  induction l generalizing x with
  | nil => simp
  | cons y l ih =>
    rw [List.foldl_cons, ih]
    apply BitVec.eq_of_toNat_eq
    simp [Nat.add_assoc]

theorem foldl_and_elems {w : Nat} (l : List (BitVec w)) (x : BitVec w) (j : Nat) :
    (l.foldl (· &&& ·) x).getLsbD j = true ↔ ∀ z ∈ x :: l, z.getLsbD j = true := by
  induction l generalizing x with
  | nil => simp
  | cons y l ih => rw [List.foldl_cons, ih]; simp [and_assoc]

theorem foldl_or_elems {w : Nat} (l : List (BitVec w)) (x : BitVec w) (j : Nat) :
    (l.foldl (· ||| ·) x).getLsbD j = true ↔ ∃ z ∈ x :: l, z.getLsbD j = true := by
  induction l generalizing x with
  | nil => simp
  | cons y l ih => rw [List.foldl_cons, ih]; simp [or_assoc]

/-- The elements of a vector. -/
def elems (w : Nat) (v : VWord) : List (BitVec w) := (List.range (512 / w)).map (el w v)

theorem vecElems_eq (w : Nat) (v : VWord) : vecElems w (512 / w) v = (elems w v).map BitVec.toNat := by
  simp [vecElems, elems, elemAt_eq]

theorem mem_elems {w : Nat} {v : VWord} {z : BitVec w} : z ∈ elems w v ↔ ∃ i, i < 512 / w ∧ el w v i = z := by
  simp [elems]

theorem elems_cons {w : Nat} (v : VWord) (h : 0 < 512 / w) : ∃ l, elems w v = el w v 0 :: l := by
  obtain ⟨n, hn⟩ := Nat.exists_eq_succ_of_ne_zero h.ne'
  exact ⟨_, by rw [elems, hn, List.range_succ_eq_map]; rfl⟩

/-- A number below the width stands in element 0 alone. -/
theorem el_ofNat_small {w i : Nat} (h : i < 512 / w) (x : BitVec w) :
    el w (BitVec.ofNat 512 x.toNat) i = if i = 0 then x else 0 := by
  rw [el, extractLsb'_ofNat _ _ _ _ (el_fits h)]
  split_ifs with hi
  · subst hi; simp
  · have : 2 ^ w ≤ 2 ^ (w * i) := Nat.pow_le_pow_right (by decide) (Nat.le_mul_of_pos_right _ (by omega))
    rw [Nat.div_eq_of_lt (x.isLt.trans_le this)]
    rfl

/-- What a reduction leaves in element 0, by its operation. -/
theorem redElem_all {w : Nat} (q : RedOp) (l : List (BitVec w)) (x : BitVec w) :
    let r := l.foldl (redElem q) x
    match q with
    | .add => r = BitVec.ofNat w (((x :: l).map BitVec.toNat).sum)
    | .min => (∀ z ∈ x :: l, r.toInt ≤ z.toInt) ∧ r ∈ x :: l
    | .max => (∀ z ∈ x :: l, z.toInt ≤ r.toInt) ∧ r ∈ x :: l
    | .minu => (∀ z ∈ x :: l, r.toNat ≤ z.toNat) ∧ r ∈ x :: l
    | .maxu => (∀ z ∈ x :: l, z.toNat ≤ r.toNat) ∧ r ∈ x :: l
    | .and => ∀ j, r.getLsbD j = true ↔ ∀ z ∈ x :: l, z.getLsbD j = true
    | .or => ∀ j, r.getLsbD j = true ↔ ∃ z ∈ x :: l, z.getLsbD j = true
    | .xor => r = (x :: l).foldl (· ^^^ ·) 0 := by
  cases q
  case add => exact foldl_add_elems l x
  case min =>
    refine And.symm (foldl_choice (R := fun x y => x.toInt ≤ y.toInt) (fun _ => le_rfl) (fun _ _ _ => le_trans) (fun x y => ?_) l x)
    simp only [redElem]; split_ifs <;> simp <;> omega
  case max =>
    refine And.symm (foldl_choice (R := fun x y => y.toInt ≤ x.toInt) (fun _ => le_rfl) (fun _ _ _ h h' => le_trans h' h) (fun x y => ?_) l x)
    simp only [redElem]; split_ifs <;> simp <;> omega
  case minu =>
    refine And.symm (foldl_choice (R := fun x y => x.toNat ≤ y.toNat) (fun _ => le_rfl) (fun _ _ _ => le_trans) (fun x y => ?_) l x)
    simp only [redElem]; split_ifs <;> simp <;> omega
  case maxu =>
    refine And.symm (foldl_choice (R := fun x y => y.toNat ≤ x.toNat) (fun _ => le_rfl) (fun _ _ _ h h' => le_trans h' h) (fun x y => ?_) l x)
    simp only [redElem]; split_ifs <;> simp <;> omega
  case and => exact foldl_and_elems l x
  case or => exact foldl_or_elems l x
  case xor => exact congrArg (fun z => l.foldl (· ^^^ ·) z) (BitVec.zero_xor).symm

theorem execVred_ready {s : State} {q : RedOp} {e : ElemType} {d a : Reg} {w : Nat} (hw : ElemType.width e = w)
    (hr : ReadyV s [] [] [a] [d]) {x : BitVec w} {l : List (BitVec w)} (hl : elems w (getV s.cur.ctx a) = x :: l) :
    exec (.vred q e d a) s = .next (wroteV s s.cur d (BitVec.ofNat 512 (l.foldl (redElem q) x).toNat)) := by
  subst hw
  rw [exec_vred]
  unfold execVred opVU
  rw [gate_ready hr]
  dsimp only
  rw [vecElems_eq, hl, List.map_cons]
  dsimp only
  rw [foldl_redStep]
  rfl

theorem maskDst_ne {m : Reg} (h : maskDst m = true) : m.toNat % 8 ≠ 0 := by
  simp only [maskDst, Bool.and_eq_true, decide_eq_true_eq] at h
  have : m.toNat ≠ 0 := fun e => h.1 (BitVec.eq_of_toNat_eq e)
  omega

theorem getM_wroteM (s : State) {m : Reg} (v : Word) (h : m.toNat % 8 ≠ 0) : getM (wroteM s s.cur m v).cur.ctx m = v :=
  (getM_advance _ m).trans (getM_setM_same _ v h)

theorem execVcmp_ready {s : State} {o : VCmpOp} {e : ElemType} {m a b : Reg} (hr : ReadyV s [] [] [a, b] []) :
    exec (.vcmp o e m a b) s = .next (wroteM s s.cur m (maskOf ((vecElems (ElemType.width e) (512 / ElemType.width e)
      (getV s.cur.ctx a)).zipWith (vecCmp o (ElemType.width e)) (vecElems (ElemType.width e) (512 / ElemType.width e)
        (getV s.cur.ctx b))))) := gate_ready hr _

/-- Settles O30: a compare writes the bit of every element, and a reduction combines them all. -/
theorem vectorComparesAndReductions : Obligations.VectorComparesAndReductions := by
  intro s e m d a b o q w x y
  have hw : ElemType.width e = w := by cases e <;> rfl
  have h64 : 512 / w ≤ 64 := by rw [← hw]; cases e <;> decide
  have h0 : 0 < 512 / w := by rw [← hw]; cases e <;> decide
  clear_value w
  refine ⟨fun hr hwf => ?cmp, fun hr => ?red⟩
  case cmp =>
    subst hw
    have hm : m.toNat % 8 ≠ 0 := maskDst_ne hwf
    refine ⟨_, execVcmp_ready hr, frameM_wroteM s m _, fun i hi => ?_, fun i hi => ?_⟩
    · rw [getM_wroteM _ _ hm, getLsbD_maskOf, decide_eq_true (by omega), Bool.true_and,
        List.getD_eq_getElem _ _ (by simpa using hi), List.getElem_zipWith, vecElems_getElem, vecElems_getElem]
      exact vecCmp_iff o _ _
    · rw [getM_wroteM _ _ hm, getLsbD_maskOf, List.getD_eq_default _ _ (by simpa using hi), Bool.and_false]
  case red =>
    obtain ⟨l, hl⟩ := elems_cons (getV s.cur.ctx a) h0
    have hall := redElem_all q l (el w (getV s.cur.ctx a) 0)
    refine ⟨_, execVred_ready hw hr hl, frameV_wroteV _ _ _, fun i hi hn => ?_, ?_⟩
    · rw [getV_wroteV, el_ofNat_small hn, if_neg hi.ne']
    · rw [getV_wroteV, el_ofNat_small h0, if_pos rfl]
      dsimp only at hall ⊢
      rw [← hl] at hall
      have hforall (p : BitVec w → Prop) : (∀ z ∈ elems w (getV s.cur.ctx a), p z) ↔ ∀ i, i < 512 / w → p (x i) := by
        simp [mem_elems, x]
      have hexists (p : BitVec w → Prop) : (∃ z ∈ elems w (getV s.cur.ctx a), p z) ↔ ∃ i, i < 512 / w ∧ p (x i) := by
        simp [mem_elems, x]
      cases q
      case add => rw [hall, elems, List.map_map]; rfl
      case min => exact ⟨(hforall _).1 hall.1, mem_elems.1 hall.2⟩
      case max => exact ⟨(hforall _).1 hall.1, mem_elems.1 hall.2⟩
      case minu => exact ⟨(hforall _).1 hall.1, mem_elems.1 hall.2⟩
      case maxu => exact ⟨(hforall _).1 hall.1, mem_elems.1 hall.2⟩
      case and => exact fun j _ => (hall j).trans (hforall _)
      case or => exact fun j _ => (hall j).trans (hexists _)
      case xor => rw [hall, elems, List.foldl_map]

end Sys2Proof.Machine
end

section
/-! PROOFS. Permutations, moves, mask operations and curve keys (R199, R379, R380, R412, R413, R435, R446, R447, R450). -/

namespace Sys2Proof.Machine

/-! ### Permutations and moves -/

theorem getLsbD_seven (k : BitVec 8) : k.getLsbD 7 = decide (128 ≤ k.toNat) := by
  rw [BitVec.getLsbD, Nat.testBit_eq_decide_div_mod_eq]
  have := k.isLt
  congr 1
  exact propext (by omega)

theorem el_vecPack_map {w n i : Nat} (h : w * i + w ≤ 512) (hi : i < n) (f : Nat → Nat) (v : VWord) :
    el w (vecPack w ((vecElems w n v).map f)) i = BitVec.ofNat w (f (el w v i).toNat) := by
  rw [el_vecPack h, List.getD_eq_getElem _ _ (by simpa using hi), List.getElem_map, vecElems_getElem]

/-- A word shifted to lane `n` stands there alone. -/
theorem el_lane (x : Word) {n i : Nat} (h : i < 8) : el 64 (BitVec.ofNat 512 (x.toNat <<< (64 * n))) i = if i = n then x else 0 := by
  rw [el, extractLsb'_ofNat _ _ _ _ (by omega), Nat.shiftLeft_eq]
  apply BitVec.eq_of_toNat_eq
  rw [BitVec.toNat_ofNat]
  rcases lt_trichotomy i n with hlt | heq | hgt
  · have hsplit : 2 ^ (64 * n) = 2 ^ (64 * i) * (2 ^ 64 * 2 ^ (64 * (n - i - 1))) := by
      rw [← pow_add, ← pow_add]; congr 1; omega
    rw [if_neg (by omega), hsplit, ← Nat.mul_assoc, Nat.mul_comm x.toNat, Nat.mul_assoc, Nat.mul_div_cancel_left _ (by positivity),
      Nat.mul_left_comm, Nat.mul_mod_right]
    rfl
  · rw [if_pos heq, heq, Nat.mul_div_cancel _ (by positivity), Nat.mod_eq_of_lt x.isLt]
  · have hsplit : 2 ^ (64 * i) = 2 ^ (64 * n) * 2 ^ (64 * (i - n)) := by rw [← pow_add]; congr 1; omega
    have hlt : x.toNat < 2 ^ (64 * (i - n)) := x.isLt.trans_le (Nat.pow_le_pow_right (by decide) (by omega))
    rw [if_neg (by omega), hsplit, Nat.mul_comm x.toNat, Nat.mul_div_mul_left _ _ (by positivity), Nat.div_eq_of_lt hlt]
    rfl

/-- The task once a general register has been read and V[d] written. -/
theorem readV_frame (s : State) (d a : Reg) (v : VWord) :
    let t := retire s { read1 s a with ctx := setV (read1 s a).ctx d v }
    OnlyTask s t ∧ (∀ r, r ≠ d → getV t.cur.ctx r = getV s.cur.ctx r) ∧ (∀ r, getG t.cur.ctx r = getG s.cur.ctx r) ∧
      getV t.cur.ctx d = v := by
  refine ⟨onlyTask_retire _ _, fun r hr => ?_, fun r => ?_, (getV_advance _ d).trans (getV_setV_same _ d v)⟩
  · exact (getV_advance _ r).trans ((getV_setV_other _ v hr).trans (by rw [read1_eq_popped]; rfl))
  · exact (getG_advance _ r).trans (by rw [read1_eq_popped]; rfl)

theorem vectorMovesClaim_holds : vectorMovesClaim := by
  intro s d a b n
  refine ⟨fun hr => ⟨?perm, ?sel⟩, fun hr => ⟨fun hwf => ?bcast, fun hwf => ?vg⟩, fun hr hd hwf => ?gv⟩
  case perm =>
    refine ⟨_, (exec_vperm ..).trans (opVV_ready hr _), frameV_wroteV _ _ _, fun i hi => ?_⟩
    rw [getV_wroteV, el_vecPack_map (by omega) hi]
    dsimp only
    rw [getLsbD_seven]
    split_ifs with h h' h'
    · rfl
    · simp at h'; omega
    · simp at h'; omega
    · apply BitVec.eq_of_toNat_eq
      rw [BitVec.toNat_ofNat, Nat.mod_mod]
      exact elemAt_eq 8 (getV s.cur.ctx a) _
  case sel =>
    refine ⟨_, (exec_vsel ..).trans (opVV_ready hr _), frameV_wroteV _ _ _, fun i hi => ?_⟩
    rw [getV_wroteV, el_vecPack (by omega), List.getD_eq_getElem _ _ (by simpa using hi), List.getElem_mapIdx, List.getElem_zipWith,
      vecElems_getElem, vecElems_getElem]
    have hm : bitOf (getM s.cur.ctx 1) i = (s.cur.ctx.m[1]).getLsbD i := by
      simp [bitOf, getM, Vector.getD]
    rw [hm]
    split_ifs <;> simp
  case bcast =>
    have hn : n.toNat ≤ 3 := of_decide_eq_true hwf
    obtain ⟨h1, h2, h3, h4⟩ := readV_frame s d a (vecPack (2 ^ (n.toNat + 3)) (List.replicate (512 / 2 ^ (n.toNat + 3)) (arg1 s a).toNat))
    refine ⟨_, gate_ready hr _, h1, h2, h3, fun i hi => ?_⟩
    refine (congrArg (fun v => (el _ v i).toNat) h4).trans ?_
    rw [el_vecPack (el_fits hi), List.getD_eq_getElem _ _ (by simpa using hi), List.getElem_replicate, BitVec.toNat_ofNat]
  case vg =>
    obtain ⟨h1, h2, h3, h4⟩ := readV_frame s d a (BitVec.ofNat 512 ((arg1 s a).toNat <<< (64 * n.toNat)))
    refine ⟨_, gate_ready hr _, h1, h2, h3, fun i hi => ?_⟩
    exact (congrArg (fun v => el 64 v i) h4).trans (el_lane _ hi)
  case gv =>
    refine (gate_ready hr _).trans ((finishG_room hd _ _).trans ?_)
    rw [show ((getV s.cur.ctx a) >>> (64 * n.toNat)).truncate 64 = el 64 (getV s.cur.ctx a) n.toNat from lane64_eq _ _]
    rfl

/-! ### Masks -/

/-- A mask field names m0 to m7 by its low three bits. -/
theorem getLsbD_getM (s : State) {a : Reg} (ha : a.toNat ≤ 7) {i : Nat} (h : i < 64) :
    (getM s.cur.ctx a).getLsbD i = mBit s (a.truncate 3) i := by
  have hz : (a.truncate 3 : BitVec 3).zeroExtend 5 = a := by apply BitVec.eq_of_toNat_eq; simp; omega
  rw [← bitOf_mask s (a.truncate 3) h, hz]
  rfl

theorem maskSrc_le {a : Reg} (h : maskSrc a = true) : a.toNat ≤ 7 := of_decide_eq_true h

theorem opMask_gives {s : State} {d : Reg} {j : Instr} {v : Word} {f : Nat → Bool} (hd : maskDst d = true)
    (hexec : exec j s = opMask s d v) (hv : ∀ i, i < 64 → v.getLsbD i = f i) :
    ∃ t, exec j s = .next t ∧ FrameM s t d ∧ ∀ i, i < 64 → (getM t.cur.ctx d).getLsbD i = f i :=
  ⟨_, hexec, frameM_wroteM s d v, fun i hi => (congrArg (fun v => BitVec.getLsbD v i) (getM_wroteM s v (maskDst_ne hd))).trans (hv i hi)⟩

theorem firstOne_eq {w : Word} {n : Nat} (hn : n ≤ 64) (hlow : ∀ i, i < n → w.getLsbD i = false)
    (hat : n < 64 → w.getLsbD n = true) : firstOne w = n := by
  unfold firstOne
  rcases hn.lt_or_eq with h | rfl
  · rw [List.find?_eq_some_iff_getElem.2 (by
      refine ⟨hat h, n, by simpa using h, by simp, fun j hj => by simpa using hlow j hj⟩)]
    rfl
  · rw [List.find?_eq_none.2 (fun i hi => by simpa using hlow i (List.mem_range.1 hi))]
    rfl

theorem masks_hold : masksClaim := by
  intro s d a b bit gives
  have hbit {r : Reg} (hr : maskSrc r = true) {i : Nat} (hi : i < 64) : (getM s.cur.ctx r).getLsbD i = bit r i :=
    getLsbD_getM s (maskSrc_le hr) hi
  refine ⟨fun hwf => ?and, fun hwf => ?or, fun hwf => ?xor, fun hwf => ?not, fun hr hd hwf => ⟨?pop, fun n hn hlow hat => ?first⟩⟩
  case and =>
    simp only [Instr.WellFormed, Instr.wf, Bool.and_eq_true] at hwf
    obtain ⟨⟨hd, ha⟩, hb⟩ := hwf
    exact opMask_gives hd (exec_mand ..) fun i hi => by rw [BitVec.getLsbD_and, hbit ha hi, hbit hb hi]
  case or =>
    simp only [Instr.WellFormed, Instr.wf, Bool.and_eq_true] at hwf
    obtain ⟨⟨hd, ha⟩, hb⟩ := hwf
    exact opMask_gives hd (exec_mor ..) fun i hi => by rw [BitVec.getLsbD_or, hbit ha hi, hbit hb hi]
  case xor =>
    simp only [Instr.WellFormed, Instr.wf, Bool.and_eq_true] at hwf
    obtain ⟨⟨hd, ha⟩, hb⟩ := hwf
    exact opMask_gives hd (exec_mxor ..) fun i hi => by rw [BitVec.getLsbD_xor, hbit ha hi, hbit hb hi]
  case not =>
    simp only [Instr.WellFormed, Instr.wf, Bool.and_eq_true] at hwf
    obtain ⟨hd, ha⟩ := hwf
    exact opMask_gives hd (exec_mnot ..) fun i hi => by rw [BitVec.getLsbD_not, decide_eq_true hi, hbit ha hi]; rfl
  case pop =>
    have hcount : onesIn (getM s.cur.ctx a) = (List.range 64).countP (bit a) := by
      rw [onesIn, ← List.countP_eq_length_filter]
      exact List.countP_congr fun i hi => by rw [hbit hwf (List.mem_range.1 hi)]
    refine (gate_ready hr _).trans ((finishG_room hd _ _).trans ?_)
    rw [hcount]
    rfl
  case first =>
    refine (gate_ready hr _).trans ((finishG_room hd _ _).trans ?_)
    rw [firstOne_eq hn (fun i hi => (hbit hwf (by omega)).trans (hlow i hi)) fun h => (hbit hwf h).trans (hat h)]
    rfl

/-! ### Curve keys -/

/-- The sum of digits below `b`, the lowest first. -/
def digitSum (b : Nat) (r : Nat → Nat) (w : Nat) : Nat := ((List.range w).map fun n => b ^ n * r n).sum

theorem digitSum_succ (b : Nat) (r : Nat → Nat) (w : Nat) : digitSum b r (w + 1) = digitSum b r w + b ^ w * r w := by
  simp [digitSum, List.range_succ]

theorem digitSum_lt {b : Nat} {r : Nat → Nat} (hr : ∀ n, r n < b) (w : Nat) : digitSum b r w < b ^ w := by
  induction w with
  | zero => simp [digitSum]
  | succ w ih =>
    have hmul : b ^ w * r w ≤ b ^ w * (b - 1) := Nat.mul_le_mul_left _ (by have := hr w; omega)
    have hpow : b ^ (w + 1) = b ^ w * (b - 1) + b ^ w := by
      rw [pow_succ, ← Nat.mul_succ]
      congr 1
      have := hr w
      omega
    rw [digitSum_succ, hpow]
    omega

theorem digitSum_digit {b : Nat} {r : Nat → Nat} (hr : ∀ n, r n < b) {n w : Nat} (h : n < w) : digitSum b r w / b ^ n % b = r n := by
  have hb : 0 < b := (Nat.zero_le _).trans_lt (hr 0)
  induction w with
  | zero => omega
  | succ w ih =>
    rw [digitSum_succ]
    rcases Nat.lt_succ_iff_lt_or_eq.1 h with hlt | rfl
    · have hsplit : b ^ w = b ^ n * (b * b ^ (w - n - 1)) := by rw [← pow_succ', ← pow_add]; congr 1; omega
      rw [hsplit, Nat.mul_assoc, Nat.add_mul_div_left _ _ (by positivity), Nat.mul_assoc, Nat.add_mul_mod_self_left, ih hlt]
    · rw [Nat.add_mul_div_left _ _ (by positivity), Nat.div_eq_of_lt (digitSum_lt hr n), Nat.zero_add, Nat.mod_eq_of_lt (hr n)]

theorem testBit_digitSum {k : Nat} {r : Nat → Nat} (hr : ∀ n, r n < 2 ^ k) {n w j : Nat} (h : n < w) (hj : j < k) :
    (digitSum (2 ^ k) r w).testBit (k * n + j) = (r n).testBit j := by
  rw [← digitSum_digit hr h, ← pow_mul, Nat.testBit_mod_two_pow, decide_eq_true hj, Bool.true_and, Nat.testBit_div_two_pow,
    Nat.add_comm]

/-- Bit `n` of two or three coordinates, the first lowest. -/
def digit2 (x y n : Nat) : Nat := (x.testBit n).toNat + 2 * (y.testBit n).toNat
def digit3 (x y z n : Nat) : Nat := (x.testBit n).toNat + 2 * (y.testBit n).toNat + 4 * (z.testBit n).toNat

theorem digit2_lt (x y n : Nat) : digit2 x y n < 2 ^ 2 := by
  unfold digit2
  cases x.testBit n <;> cases y.testBit n <;> decide

theorem digit3_lt (x y z n : Nat) : digit3 x y z n < 2 ^ 3 := by
  unfold digit3
  cases x.testBit n <;> cases y.testBit n <;> cases z.testBit n <;> decide

theorem digit2_testBit (x y n : Nat) : (digit2 x y n).testBit 0 = x.testBit n ∧ (digit2 x y n).testBit 1 = y.testBit n := by
  unfold digit2
  cases x.testBit n <;> cases y.testBit n <;> decide

theorem digit3_testBit (x y z n : Nat) : (digit3 x y z n).testBit 0 = x.testBit n ∧ (digit3 x y z n).testBit 1 = y.testBit n ∧
    (digit3 x y z n).testBit 2 = z.testBit n := by
  unfold digit3
  cases x.testBit n <;> cases y.testBit n <;> cases z.testBit n <;> decide

theorem interleave_two (x y w : Nat) : interleave [x, y] w = digitSum (2 ^ 2) (digit2 x y) w := by
  unfold interleave digitSum
  refine congrArg List.sum (List.map_congr_left fun n _ => ?_)
  simp only [List.mapIdx_cons, List.mapIdx_nil, List.sum_cons, List.sum_nil, List.length_cons, List.length_nil, digit2]
  cases x.testBit n <;> cases y.testBit n <;> simp [pow_succ, pow_mul] <;> ring

theorem interleave_three (x y z w : Nat) : interleave [x, y, z] w = digitSum (2 ^ 3) (digit3 x y z) w := by
  unfold interleave digitSum
  refine congrArg List.sum (List.map_congr_left fun n _ => ?_)
  simp only [List.mapIdx_cons, List.mapIdx_nil, List.sum_cons, List.sum_nil, List.length_cons, List.length_nil, digit3]
  cases x.testBit n <;> cases y.testBit n <;> cases z.testBit n <;> simp [pow_succ, pow_mul] <;> ring

theorem testBit_low (x : Nat) {n w : Nat} (h : n < w) : (x % 2 ^ w).testBit n = x.testBit n := by
  rw [Nat.testBit_mod_two_pow, decide_eq_true h, Bool.true_and]

theorem curveKeys_hold : curveKeysClaim := by
  refine ⟨fun s d a k hwf hr => ?keys, fun x y z n => ⟨fun h => ?two, fun h => ?three, ?_, ?_⟩⟩
  case keys =>
    refine ⟨_, gate_ready hr _, frameV_wroteV s d _, wroteV_flags s d _, fun i hi => ?_⟩
    refine (congrArg (fun v => el 64 v i) (getV_wroteV s d _)).trans ?_
    rw [el_vecPack (by omega), List.getD_eq_getElem _ _ (by simpa using hi), List.getElem_map, List.getElem_range]
    simp only [elemAt_eq]
    rfl
  case two =>
    have hbits := digit2_testBit (x % 2 ^ 32) (y % 2 ^ 32) n
    rw [testBit_low x h, testBit_low y h] at hbits
    show (interleave [x % 2 ^ 32, y % 2 ^ 32] 32).testBit (2 * n + 0) = _ ∧ (interleave [x % 2 ^ 32, y % 2 ^ 32] 32).testBit (2 * n + 1) = _
    rw [interleave_two, testBit_digitSum (digit2_lt _ _) h (by decide), testBit_digitSum (digit2_lt _ _) h (by decide)]
    exact hbits
  case three =>
    have hbits := digit3_testBit (x % 2 ^ 21) (y % 2 ^ 21) (z % 2 ^ 21) n
    rw [testBit_low x h, testBit_low y h, testBit_low z h] at hbits
    show (interleave [x % 2 ^ 21, y % 2 ^ 21, z % 2 ^ 21] 21).testBit (3 * n + 0) = _ ∧
      (interleave [x % 2 ^ 21, y % 2 ^ 21, z % 2 ^ 21] 21).testBit (3 * n + 1) = _ ∧
      (interleave [x % 2 ^ 21, y % 2 ^ 21, z % 2 ^ 21] 21).testBit (3 * n + 2) = _
    rw [interleave_three, testBit_digitSum (digit3_lt _ _ _) h (by decide), testBit_digitSum (digit3_lt _ _ _) h (by decide),
      testBit_digitSum (digit3_lt _ _ _) h (by decide)]
    exact hbits
  · show interleave [x % 2 ^ 32, y % 2 ^ 32] 32 < _
    rw [interleave_two]
    exact digitSum_lt (digit2_lt _ _) 32
  · show interleave [x % 2 ^ 21, y % 2 ^ 21, z % 2 ^ 21] 21 < _
    rw [interleave_three]
    exact digitSum_lt (digit3_lt _ _ _) 21

/-- Settles O34: moves, masks and curve keys, element by element and bit by bit. -/
theorem vectorMoves : Obligations.VectorMoves := ⟨vectorMovesClaim_holds, masks_hold, curveKeys_hold⟩

end Sys2Proof.Machine
end

section
/-! PROOFS. Floating-point vector operations by their elements (R433, R437, R438, R439, R441, R442). -/

namespace Sys2Proof.Machine

/-! ### Results and flags, element by element -/

theorem mapIdx_map_range {α β : Type} (n : Nat) (r : Nat → α) (g : Nat → α → β) :
    ((List.range n).map r).mapIdx g = (List.range n).map fun i => g i (r i) := by
  apply List.ext_getElem <;> simp

theorem zipWith_map_range {α β γ : Type} (n : Nat) (f : α → β → γ) (x : Nat → α) (y : Nat → β) :
    ((List.range n).map x).zipWith f ((List.range n).map y) = (List.range n).map fun i => f (x i) (y i) := by
  apply List.ext_getElem <;> simp

theorem getLsbD_union (fs : List FlagSet) (j : Nat) : (FlagSet.union fs).getLsbD j = true ↔ ∃ f ∈ fs, f.getLsbD j = true := by
  rw [FlagSet.union, foldl_or_elems]
  simp [FlagSet.none]

theorem getLsbD_union_active (n : Nat) (act : Nat → Bool) (fl : Nat → FlagSet) (j : Nat) :
    (FlagSet.union ((List.range n).map fun i => if act i then fl i else FlagSet.none)).getLsbD j = true ↔
      ∃ i, i < n ∧ act i = true ∧ (fl i).getLsbD j = true := by
  rw [getLsbD_union]
  simp only [List.mem_map, List.mem_range, exists_exists_and_eq_and]
  refine exists_congr fun i => and_congr_right fun _ => ?_
  cases act i <;> simp [FlagSet.none]

theorem FFmt.elems_eq (y : FFmt) (v : VWord) :
    FFmt.elems y v = (List.range (512 / (FFmt.fmt y).width)).map fun i => (el (FFmt.fmt y).width v i).toNat :=
  List.map_congr_left fun i _ => elemAt_eq _ v i

theorem bitOf_fpMask (s : State) (k : Bool) {i : Nat} (h : i < 64) :
    bitOf (fpMask s.cur.ctx k) i = mBit s (if k then 1 else 0) i := by
  cases k
  · exact bitOf_mask s 0 h
  · exact bitOf_mask s 1 h

theorem lanes_le (y : FFmt) : 512 / (FFmt.fmt y).width ≤ 64 := by cases y <;> decide

/-- The flags that the active elements of an operation raise. -/
def activeFlags (n : Nat) (act : Nat → Bool) (fl : Nat → FlagSet) : FlagSet :=
  FlagSet.union ((List.range n).map fun i => if act i then fl i else FlagSet.none)

theorem activeFlags_congr {n : Nat} {act act' : Nat → Bool} (h : ∀ i, i < n → act i = act' i) (fl : Nat → FlagSet) :
    activeFlags n act fl = activeFlags n act' fl :=
  congrArg FlagSet.union (List.map_congr_left fun i hi => by rw [h i (List.mem_range.1 hi)])

theorem flagsFrom_active (s : State) (c : Ctx) (hc : c.flags = s.cur.ctx.flags) (n : Nat) (act : Nat → Bool) (fl : Nat → FlagSet) :
    FlagsFrom s (retire s { s.cur with ctx := raiseFlags c (activeFlags n act fl) }) n act fl := by
  intro j
  have hflags (c : Ctx) : (advance c).flags = c.flags := by rw [advance_eq]
  refine (iff_of_eq (congrArg (fun w : FlagSet => w.getLsbD j = true) (hflags _))).trans ?_
  rw [raiseFlags, BitVec.getLsbD_or, Bool.or_eq_true, activeFlags, getLsbD_union_active, hc]

theorem fpVec_flags {w n : Nat} {m : Word} {act : Nat → Bool} (idle : Nat → Nat) (hact : ∀ i ∈ List.range n, bitOf m i = act i)
    (r : Nat → Nat × FlagSet) : (fpVec w m ((List.range n).map r) idle).2 = activeFlags n act fun i => (r i).2 := by
  unfold fpVec activeFlags
  refine congrArg FlagSet.union ((mapIdx_map_range n r _).trans (List.map_congr_left fun i hi => ?_))
  rw [hact i hi]

/-- A vector of results with its flags, written. -/
theorem finishFp_gives {s : State} {y : FFmt} {k : Bool} {d : Reg} {w : Nat} (hw : (FFmt.fmt y).width = w) {j : Instr}
    (r : Nat → Nat × FlagSet) (idle : Nat → Nat) (b : Nat → BitVec w) (hidle : ∀ i, i < 512 / w → BitVec.ofNat w (idle i) = b i)
    (hexec : exec j s = finishFp s d (fpVec (FFmt.fmt y).width (fpMask s.cur.ctx k)
      ((List.range (512 / (FFmt.fmt y).width)).map r) idle)) :
    ∃ t, exec j s = .next t ∧ FrameV s t d ∧
      (∀ i, i < 512 / w → el w (getV t.cur.ctx d) i =
        if mBit s (if k then 1 else 0) i then BitVec.ofNat w (r i).1 else b i) ∧
      FlagsFrom s t (512 / w) (fun i => mBit s (if k then 1 else 0) i) fun i => (r i).2 := by
  have hl := lanes_le y
  subst hw
  have hact : ∀ i ∈ List.range (512 / (FFmt.fmt y).width),
      bitOf (fpMask s.cur.ctx k) i = mBit s (if k then 1 else 0) i := fun i hi =>
    bitOf_fpMask s k ((List.mem_range.1 hi).trans_le hl)
  refine ⟨_, hexec, frameV_retire _ _ _ _, fun i hi => ?elem, ?flags⟩
  case elem =>
    have hread (c : Ctx) (fl : FlagSet) : getV (advance (raiseFlags c fl)) d = getV c d := getV_advance _ d
    refine (congrArg (fun v => el _ v i) (hread _ _)).trans ?_
    rw [getV_setV_same, fpVec, mapIdx_map_range, el_vecPack (el_fits hi), List.getD_eq_getElem _ _ (by simpa using hi)]
    simp only [List.getElem_map, List.getElem_range, hact i (List.mem_range.2 hi)]
    rw [apply_ite (BitVec.ofNat _), hidle i hi]
  case flags =>
    rw [fpVec_flags _ hact]
    exact flagsFrom_active s (setV s.cur.ctx d _) (setV_flags _ d _) _ _ _

/-! ### The operations (R438, R441, R442) -/

theorem fpOp2_ready {s : State} {y : FFmt} {k : Bool} {d a b : Reg} (hr : ReadyV s [] [] [a, b] [d])
    (f : Fmt → Nat → Nat → Nat × FlagSet) :
    fpOp2 s y k d a b f = finishFp s d (fpVec (FFmt.fmt y).width (fpMask s.cur.ctx k)
      ((List.range (512 / (FFmt.fmt y).width)).map fun i => f (FFmt.fmt y) (el (FFmt.fmt y).width (getV s.cur.ctx a) i).toNat
        (el (FFmt.fmt y).width (getV s.cur.ctx b) i).toNat) fun _ => 0) := by
  unfold fpOp2
  rw [gate_ready hr]
  dsimp only
  rw [FFmt.elems_eq, FFmt.elems_eq, zipWith_map_range]

theorem execVfsqrt_ready {s : State} {y : FFmt} {z u k : Bool} {d a : Reg} (hr : ReadyV s [] [] [a] [d]) :
    exec (.vfsqrt y z u k d a) s = finishFp s d (fpVec (FFmt.fmt y).width (fpMask s.cur.ctx k)
      ((List.range (512 / (FFmt.fmt y).width)).map fun i => fpSqrt (FFmt.fmt y) z u
        (el (FFmt.fmt y).width (getV s.cur.ctx a) i).toNat) fun _ => 0) := by
  rw [exec_vfsqrt]
  unfold execVfsqrt
  rw [gate_ready hr]
  dsimp only
  rw [FFmt.elems_eq, List.map_map]
  rfl

theorem execVfma_ready {s : State} {y : FFmt} {z u k : Bool} {d a b : Reg} (hr : ReadyV s [] [] [d, a, b] [d]) :
    exec (.vfma y z u k d a b) s = finishFp s d (fpVec (FFmt.fmt y).width (fpMask s.cur.ctx k)
      ((List.range (512 / (FFmt.fmt y).width)).map fun i => fpFma (FFmt.fmt y) z u
        (el (FFmt.fmt y).width (getV s.cur.ctx d) i).toNat (el (FFmt.fmt y).width (getV s.cur.ctx a) i).toNat
        (el (FFmt.fmt y).width (getV s.cur.ctx b) i).toNat) fun i => (FFmt.elems y (getV s.cur.ctx d)).getD i 0) := by
  rw [exec_vfma]
  unfold execVfma
  rw [gate_ready hr]
  dsimp only
  rw [FFmt.elems_eq y (getV s.cur.ctx a), FFmt.elems_eq y (getV s.cur.ctx b), zipWith_map_range,
    FFmt.elems_eq y (getV s.cur.ctx d), zipWith_map_range]

theorem addend_elem (y : FFmt) (v : VWord) {i : Nat} (h : i < 512 / (FFmt.fmt y).width) :
    BitVec.ofNat (FFmt.fmt y).width ((FFmt.elems y v).getD i 0) = el (FFmt.fmt y).width v i := by
  rw [FFmt.elems, vecElems_getD v h, BitVec.ofNat_toNat, BitVec.setWidth_eq]

/-- The machine once a mask is written and flags are raised. -/
def comparedF (s : State) (m : Reg) (v : Word) (fl : FlagSet) : State :=
  retire s { s.cur with ctx := raiseFlags (setM s.cur.ctx m v) fl }

theorem getM_comparedF_same (s : State) {m : Reg} (hm : m.toNat % 8 ≠ 0) (v : Word) (fl : FlagSet) :
    getM (comparedF s m v fl).cur.ctx m = v :=
  (getM_advance _ m).trans (getM_setM_same s.cur.ctx v hm)

theorem getM_comparedF_other (s : State) {m r : Reg} (hr : r.toNat % 8 ≠ m.toNat % 8) (v : Word) (fl : FlagSet) :
    getM (comparedF s m v fl).cur.ctx r = getM s.cur.ctx r :=
  (getM_advance _ r).trans (getM_setM_other s.cur.ctx v hr)

theorem comparedF_files (s : State) (m : Reg) (v : Word) (fl : FlagSet) :
    (comparedF s m v fl).cur.ctx.v = s.cur.ctx.v ∧ (comparedF s m v fl).cur.ctx.g = s.cur.ctx.g := by
  have hv : (setM s.cur.ctx m v).v = s.cur.ctx.v := by rw [setM_eq]
  have hg : (setM s.cur.ctx m v).g = s.cur.ctx.g := by rw [setM_eq]
  exact ⟨(advance_v _).trans hv, (advance_g _).trans hg⟩

theorem flagsFrom_comparedF (s : State) (m : Reg) (v : Word) (n : Nat) (act : Nat → Bool) (fl : Nat → FlagSet) :
    FlagsFrom s (comparedF s m v (activeFlags n act fl)) n act fl :=
  flagsFrom_active s (setM s.cur.ctx m v) (by rw [setM_eq]) n act fl

/-- The comparison of two elements. -/
def cmpLane (s : State) (c : FCmpOp) (y : FFmt) (z : Bool) (a b : Reg) (i : Nat) : Bool × FlagSet :=
  fpCmp (FFmt.fmt y) c z (el (FFmt.fmt y).width (getV s.cur.ctx a) i).toNat (el (FFmt.fmt y).width (getV s.cur.ctx b) i).toNat

theorem execVfcmp_ready {s : State} {c : FCmpOp} {y : FFmt} {z u k : Bool} {m a b : Reg} (hr : ReadyV s [] [] [a, b] [])
    (n : Nat) (hn : 512 / (FFmt.fmt y).width = n) :
    exec (.vfcmp c y z u k m a b) s = .next (comparedF s m
      (maskOf ((List.range n).map fun i => bitOf (fpMask s.cur.ctx k) i && (cmpLane s c y z a b i).1))
      (activeFlags n (bitOf (fpMask s.cur.ctx k)) fun i => (cmpLane s c y z a b i).2)) := by
  rw [exec_vfcmp]
  unfold execVfcmp
  rw [gate_ready hr]
  dsimp only
  rw [FFmt.elems_eq, FFmt.elems_eq, zipWith_map_range, mapIdx_map_range, mapIdx_map_range, hn]
  rfl

/-- Settles O31: a floating-point operation is the operation on its elements, under its mask. -/
theorem vectorFloat : Obligations.VectorFloat := by
  intro s y z u k d a b m c f w act x gives
  have hw : (FFmt.fmt y).width = w := by cases y <;> rfl
  clear_value w
  subst hw
  have two (hr : ReadyV s [] [] [a, b] [d]) {j : Instr} (g : Fmt → Nat → Nat → Nat × FlagSet)
      (hexec : exec j s = fpOp2 s y k d a b g) : gives j (fun i => g f (x a i) (x b i)) (fun _ => 0) :=
    finishFp_gives rfl _ _ _ (fun _ _ => rfl) (hexec.trans (fpOp2_ready hr g))
  refine ⟨fun hr => ⟨?_, ?_, ?_, ?_, ?_, ?_⟩, fun hr => ?_, fun hr => ?_, fun hr hwf => ?compare⟩
  · exact two hr (fun f x w => fpAdd f z u x w) (exec_vfadd ..)
  · exact two hr (fun f x w => fpSub f z u x w) (exec_vfsub ..)
  · exact two hr (fun f x w => fpMul f z u x w) (exec_vfmul ..)
  · exact two hr (fun f x w => fpMinMax f true z u x w) (exec_vfmin ..)
  · exact two hr (fun f x w => fpMinMax f false z u x w) (exec_vfmax ..)
  · exact two hr (fun f x w => fpDiv f z u x w) (exec_vfdiv ..)
  · exact finishFp_gives rfl _ _ _ (fun _ _ => rfl) (execVfsqrt_ready hr)
  · exact finishFp_gives rfl _ _ _ (fun i hi => addend_elem y _ hi) (execVfma_ready hr)
  case compare =>
    have hm : m.toNat % 8 ≠ 0 := maskDst_ne hwf
    obtain ⟨n, hn⟩ : ∃ n, 512 / (FFmt.fmt y).width = n := ⟨_, rfl⟩
    have hl : n ≤ 64 := hn ▸ lanes_le y
    have hact : ∀ i, i < n → bitOf (fpMask s.cur.ctx k) i = act i := fun i hi => bitOf_fpMask s k (hi.trans_le hl)
    have hexec := execVfcmp_ready (c := c) (z := z) (u := u) (k := k) (m := m) hr n hn
    rw [activeFlags_congr hact] at hexec
    rw [hn]
    refine ⟨_, hexec, onlyTask_retire _ _, fun q hq => getM_comparedF_other s hq _ _, (comparedF_files s m _ _).1,
      (comparedF_files s m _ _).2, fun i => ?bit, flagsFrom_comparedF s m _ n act _⟩
    rw [getM_comparedF_same s hm, getLsbD_maskOf]
    by_cases hi : i < n
    · rw [List.getD_eq_getElem _ _ (by simpa using hi), List.getElem_map, List.getElem_range, hact i hi,
        decide_eq_true (hi.trans_le hl), Bool.true_and, Bool.and_eq_true]
      exact (and_iff_right hi).symm
    · rw [List.getD_eq_default _ _ (by simpa using hi), Bool.and_false]
      simp [hi]

end Sys2Proof.Machine
end

section
/-! PROOFS. Rounding to nearest (R182, R183, R187). -/

namespace Sys2Proof.Machine

/-! ### Decoding what the rounding encodes -/

section
variable (f : Fmt) (neg : Bool)

/-- The fields of the bits that a sign, an exponent field and a fraction make. -/
theorem fields_of_parts {ex fr : Nat} (hex : ex < 2 ^ f.eb) (hfr : fr < 2 ^ f.mb) :
    decide (2 ^ (f.eb + f.mb) ≤ (f.signBit neg + ex * 2 ^ f.mb + fr) % 2 ^ f.width) = neg ∧
    (f.signBit neg + ex * 2 ^ f.mb + fr) / 2 ^ f.mb % 2 ^ f.eb = ex ∧ (f.signBit neg + ex * 2 ^ f.mb + fr) % 2 ^ f.mb = fr := by
  have hlow : ex * 2 ^ f.mb + fr < 2 ^ (f.eb + f.mb) := by
    rw [pow_add]
    calc ex * 2 ^ f.mb + fr < ex * 2 ^ f.mb + 2 ^ f.mb := by omega
      _ = (ex + 1) * 2 ^ f.mb := (Nat.succ_mul ex _).symm
      _ ≤ 2 ^ f.eb * 2 ^ f.mb := Nat.mul_le_mul_right _ hex
  have hwidth : 2 ^ f.width = 2 * 2 ^ (f.eb + f.mb) := by rw [Fmt.width, Nat.add_assoc, pow_add, pow_one]
  have hsign : f.signBit neg = (if neg then 2 ^ f.eb else 0) * 2 ^ f.mb := by
    cases neg
    · exact (Nat.zero_mul _).symm
    · exact pow_add 2 f.eb f.mb
  refine ⟨?sign, ?exponent, ?fraction⟩
  case sign =>
    cases neg
    · rw [decide_eq_false_iff_not, Nat.mod_eq_of_lt] <;> simp only [Fmt.signBit, Bool.false_eq_true, if_false] <;> omega
    · rw [decide_eq_true_iff, Nat.mod_eq_of_lt] <;> simp only [Fmt.signBit, if_true] <;> omega
  case exponent =>
    rw [hsign, ← Nat.add_mul, Nat.add_comm, Nat.add_mul_div_right _ _ (by positivity), Nat.div_eq_of_lt hfr, Nat.zero_add]
    cases neg
    · rw [if_neg Bool.false_ne_true, Nat.zero_add, Nat.mod_eq_of_lt hex]
    · rw [if_pos rfl, Nat.add_mod_left, Nat.mod_eq_of_lt hex]
  case fraction => rw [hsign, ← Nat.add_mul, Nat.add_comm, Nat.add_mul_mod_self_right, Nat.mod_eq_of_lt hfr]

/-- The sign of a value. -/
def signOf (neg : Bool) : ℚ := if neg then -1 else 1

theorem finiteValue_subnormal {fr : Nat} (heb : 1 < f.eb) (hfr : fr < 2 ^ f.mb) :
    finiteValue f (f.signBit neg + fr) = some (signOf neg * fr * 2 ^ (f.emin - f.mb)) := by
  obtain ⟨hs, hex, hf⟩ := fields_of_parts f neg (Nat.two_pow_pos f.eb) hfr
  rw [Nat.zero_mul, Nat.add_zero] at hs hex hf
  have hemax : 0 ≠ f.emax := by
    have := Nat.pow_lt_pow_right (a := 2) (by decide) heb
    simp only [Fmt.emax]; omega
  unfold finiteValue fpDecode
  simp only [hs, hex, hf, if_neg hemax, if_true]
  rfl

theorem finiteValue_normal {ex fr : Nat} (h0 : ex ≠ 0) (hex : ex < f.emax) (hfr : fr < 2 ^ f.mb) :
    finiteValue f (f.signBit neg + ex * 2 ^ f.mb + fr) =
      some (signOf neg * (2 ^ f.mb + fr : Nat) * 2 ^ ((ex : Int) - f.bias - f.mb)) := by
  have hlt : ex < 2 ^ f.eb := by simp only [Fmt.emax] at hex; omega
  obtain ⟨hs, he, hf⟩ := fields_of_parts f neg hlt hfr
  unfold finiteValue fpDecode
  simp only [hs, he, hf, if_neg hex.ne, if_neg h0]
  rfl

theorem finiteValue_inf : finiteValue f (f.infBits neg) = none := by
  have hlt : f.emax < 2 ^ f.eb := by
    have := Nat.two_pow_pos f.eb
    simp only [Fmt.emax]; omega
  obtain ⟨hs, he, hf⟩ := fields_of_parts f neg hlt (Nat.two_pow_pos f.mb)
  rw [Nat.add_zero] at hs he hf
  unfold finiteValue fpDecode Fmt.infBits
  simp only [he, hf, if_true]

/-- A finite number is an integer of at most mb + 1 bits times a power of two that is no smaller than the format's least. -/
theorem finiteValue_form {x : Nat} {v : ℚ} (h : finiteValue f x = some v) :
    ∃ (k E : Int), v = k * 2 ^ E ∧ |k| < 2 ^ (f.mb + 1) ∧ f.emin - f.mb ≤ E := by
  have hfr : x % 2 ^ f.mb < 2 ^ f.mb := Nat.mod_lt _ (by positivity)
  have hpow : (2 : Int) ^ (f.mb + 1) = 2 * 2 ^ f.mb := by rw [pow_succ, mul_comm]
  have hcast : ((2 ^ f.mb : Nat) : Int) = 2 ^ f.mb := by push_cast; rfl
  have signed (neg : Bool) (m : Nat) (E : Int) (hm : m < 2 * 2 ^ f.mb) (hE : f.emin - f.mb ≤ E) :
      ∃ (k E' : Int), signOf neg * m * (2 : ℚ) ^ E = k * 2 ^ E' ∧ |k| < 2 ^ (f.mb + 1) ∧ f.emin - f.mb ≤ E' := by
    refine ⟨if neg then -m else m, E, ?_, ?_, hE⟩
    · cases neg <;> simp [signOf]
    · rw [hpow, ← hcast]
      cases neg <;> simp <;> omega
  unfold finiteValue fpDecode at h
  dsimp only at h
  split_ifs at h with hmax hzero hz
  · exact Option.some.inj h ▸ signed _ _ _ (by omega) le_rfl
  · refine Option.some.inj h ▸ signed _ _ _ (by omega) ?_
    simp only [Fmt.emin]
    omega

end

/-! ### The rounding of a magnitude -/

/-- The two neighbours between which a rounding to nearest chooses. -/
theorem roundShift_cases (neg : Bool) (m K : Nat) :
    (roundShift .rne neg m K).1 = m / 2 ^ K ∧ 2 * (m % 2 ^ K) ≤ 2 ^ K ∨
    (roundShift .rne neg m K).1 = m / 2 ^ K + 1 ∧ 2 ^ K ≤ 2 * (m % 2 ^ K) := by
  unfold roundShift
  simp only [Nat.shiftRight_eq_div_pow, Bool.or_eq_true, Bool.and_eq_true, decide_eq_true_eq]
  split_ifs with h
  · exact .inr ⟨rfl, by omega⟩
  · exact .inl ⟨rfl, by omega⟩

theorem roundShift_nearest (neg : Bool) (m K : Nat) (k : Int) :
    |(m : Int) - (roundShift .rne neg m K).1 * 2 ^ K| ≤ |(m : Int) - k * 2 ^ K| := by
  have hcases := roundShift_cases neg m K
  have hcast : (2 : Int) ^ K = (2 ^ K : Nat) := by push_cast; rfl
  rw [hcast]
  obtain ⟨P, hP⟩ : ∃ P : Nat, 2 ^ K = P := ⟨_, rfl⟩
  have hpos : 0 < P := hP ▸ Nat.two_pow_pos K
  rw [hP] at hcases ⊢
  have hdiv : (m : Int) = (m / P : Nat) * P + (m % P : Nat) := by
    have := Nat.div_add_mod' m P
    exact_mod_cast this.symm
  have hlt : m % P < P := Nat.mod_lt _ hpos
  obtain ⟨n, hn⟩ : ∃ n : Nat, m / P = n := ⟨_, rfl⟩
  obtain ⟨r, hr⟩ : ∃ r : Nat, m % P = r := ⟨_, rfl⟩
  rw [hn, hr] at hdiv hcases
  rw [hr] at hlt
  -- the distance to any multiple of P is at least that to the nearer neighbour
  have hfar : (r : Int) ≤ |(m : Int) - k * P| ∨ (P : Int) - r ≤ |(m : Int) - k * P| := by
    by_cases hk : k ≤ n
    · have : k * P ≤ n * P := Int.mul_le_mul_of_nonneg_right hk (by omega)
      exact .inl (le_trans (by omega) (le_abs_self _))
    · have : (n + 1) * (P : Int) ≤ k * P := Int.mul_le_mul_of_nonneg_right (by omega) (by omega)
      rw [Int.add_mul, Int.one_mul] at this
      exact .inr (le_trans (by omega) (neg_le_abs _))
  rcases hcases with ⟨e, hle⟩ | ⟨e, hle⟩
  · rw [e, show (m : Int) - n * P = r by omega, abs_of_nonneg (by omega)]
    omega
  · rw [e, show (m : Int) - (n + 1 : Nat) * P = -(P - r) by push_cast; rw [Int.add_mul]; omega, abs_neg, abs_of_nonneg (by omega)]
    omega

theorem roundShift_inexact (neg : Bool) (m K : Nat) :
    (roundShift .rne neg m K).2 = true ↔ ((roundShift .rne neg m K).1 : Int) * 2 ^ K ≠ m := by
  have hsnd : (roundShift .rne neg m K).2 = decide (m % 2 ^ K ≠ 0) := rfl
  rw [hsnd, decide_eq_true_iff, not_iff_not]
  constructor
  · intro h0
    have hnear := roundShift_nearest neg m K (m / 2 ^ K : Nat)
    have hm : ((m / 2 ^ K : Nat) : Int) * 2 ^ K = m := by
      have := Nat.div_mul_cancel (Nat.dvd_of_mod_eq_zero h0)
      exact_mod_cast this
    rw [hm, sub_self, abs_zero] at hnear
    linarith [abs_nonpos_iff.1 hnear]
  · intro h
    have : m = (roundShift .rne neg m K).1 * 2 ^ K := by exact_mod_cast h.symm
    rw [this]
    exact Nat.mul_mod_left _ _

/-- No multiple of 2^q lies nearer to m 2^e than the one that `roundAt` gives, and the second part tells whether they differ. -/
theorem roundAt_nearest (neg : Bool) (m : Nat) (e q : Int) :
    (∀ k : Int, |(m : ℚ) * 2 ^ e - (roundAt .rne neg m e q).1 * 2 ^ q| ≤ |(m : ℚ) * 2 ^ e - k * 2 ^ q|) ∧
    ((roundAt .rne neg m e q).2 = true ↔ ((roundAt .rne neg m e q).1 : ℚ) * 2 ^ q ≠ m * 2 ^ e) := by
  have hpos : (0 : ℚ) < 2 ^ e := by positivity
  unfold roundAt
  split_ifs with h
  · have hexact : ((m <<< (e - q).toNat : Nat) : ℚ) * 2 ^ q = m * 2 ^ e := by
      obtain ⟨j, hj⟩ : ∃ j : Nat, e = q + j := ⟨(e - q).toNat, by omega⟩
      subst hj
      rw [Nat.shiftLeft_eq, show (q + j - q).toNat = j by omega, zpow_add₀ two_ne_zero, zpow_natCast]
      push_cast
      ring
    exact ⟨fun k => by rw [hexact, sub_self, abs_zero]; positivity, by simp [hexact]⟩
  · obtain ⟨K, hK⟩ : ∃ K : Nat, q = K + e := ⟨(q - e).toNat, by omega⟩
    subst hK
    rw [show ((K : Int) + e - e).toNat = K by omega, zpow_add₀ two_ne_zero, zpow_natCast]
    refine ⟨fun k => ?_, ?_⟩
    · have hnear := roundShift_nearest neg m K k
      have hscale (j : Int) : |(m : ℚ) * 2 ^ e - j * (2 ^ K * 2 ^ e)| = (|(m : Int) - j * 2 ^ K| : Int) * 2 ^ e := by
        rw [← mul_assoc, ← sub_mul, abs_mul, abs_of_pos hpos]
        push_cast
        rfl
      have hscaleN := hscale (roundShift .rne neg m K).1
      rw [Int.cast_natCast] at hscaleN
      rw [hscaleN, hscale]
      exact mul_le_mul_of_nonneg_right (by exact_mod_cast hnear) hpos.le
    · rw [roundShift_inexact, not_iff_not, ← mul_assoc, mul_left_inj' hpos.ne']
      exact_mod_cast Iff.rfl

/-! ### The rounded number is the nearest of its format -/

section
variable (f : Fmt) (neg : Bool) (m : Nat) (e : Int)

/-- The exponent of the unit in the last place of the rounding. -/
def roundExp : Int := max (topExp m e - f.mb) (f.emin - f.mb)

/-- The rounded multiple of that unit. -/
def roundMul : Nat := (roundAt .rne neg m e (roundExp f m e)).1

variable {m}

theorem magnitude_bounds (hm : m ≠ 0) : (2 : ℚ) ^ topExp m e ≤ m * 2 ^ e ∧ (m : ℚ) * 2 ^ e < 2 ^ (topExp m e + 1) := by
  have hpos : (0 : ℚ) < 2 ^ e := by positivity
  have hlo : ((2 ^ m.log2 : Nat) : ℚ) ≤ m := by exact_mod_cast Nat.log2_self_le hm
  have hhi : (m : ℚ) < (2 ^ (m.log2 + 1) : Nat) := by exact_mod_cast Nat.lt_log2_self
  push_cast at hlo hhi
  constructor
  · rw [topExp, zpow_add₀ two_ne_zero, zpow_natCast]
    exact mul_le_mul_of_nonneg_right hlo hpos.le
  · rw [topExp, show (m.log2 : Int) + e + 1 = (m.log2 + 1 : Nat) + e by push_cast; ring, zpow_add₀ two_ne_zero, zpow_natCast]
    exact mul_lt_mul_of_pos_right hhi hpos

/-- No multiple of the unit, and no number of at most mb + 1 bits under a smaller unit of the format, lies nearer. -/
theorem roundMul_nearest (hm : m ≠ 0) {k E : Int} (hk : |k| < 2 ^ (f.mb + 1)) (hE : f.emin - f.mb ≤ E) :
    |(m : ℚ) * 2 ^ e - roundMul f neg m e * 2 ^ roundExp f m e| ≤ |(m : ℚ) * 2 ^ e - k * 2 ^ E| := by
  obtain ⟨hnear, -⟩ := roundAt_nearest neg m e (roundExp f m e)
  obtain ⟨hlo, -⟩ := magnitude_bounds e hm
  by_cases hq : roundExp f m e ≤ E
  · obtain ⟨j, rfl⟩ : ∃ j : Nat, E = j + roundExp f m e := ⟨(E - roundExp f m e).toNat, by omega⟩
    have h := hnear (k * 2 ^ j)
    rw [zpow_add₀ two_ne_zero, zpow_natCast, ← mul_assoc]
    push_cast at h
    exact h
  · have htop : topExp m e = f.mb + roundExp f m e := by simp only [roundExp] at hq ⊢; omega
    have hunit : (2 : ℚ) ^ topExp m e = 2 ^ f.mb * 2 ^ roundExp f m e := by rw [htop, zpow_add₀ two_ne_zero, zpow_natCast]
    have h := hnear (2 ^ f.mb)
    push_cast at h
    rw [← hunit, abs_of_nonneg (sub_nonneg.2 hlo)] at h
    have hsmall : (k : ℚ) * 2 ^ E ≤ 2 ^ topExp m e := by
      have hkq : (k : ℚ) ≤ 2 ^ (f.mb + 1) := by exact_mod_cast (le_of_abs_le hk.le)
      calc (k : ℚ) * 2 ^ E ≤ 2 ^ (f.mb + 1) * 2 ^ E := mul_le_mul_of_nonneg_right hkq (by positivity)
        _ = 2 ^ ((f.mb + 1 : Nat) + E) := by rw [zpow_add₀ two_ne_zero, zpow_natCast]
        _ ≤ 2 ^ topExp m e := zpow_le_zpow_right₀ one_le_two (by push_cast; omega)
    exact h.trans ((sub_le_sub_left hsmall _).trans (le_abs_self _))

theorem roundMul_le (hm : m ≠ 0) : roundMul f neg m e ≤ 2 ^ (f.mb + 1) := by
  obtain ⟨hnear, -⟩ := roundAt_nearest neg m e (roundExp f m e)
  obtain ⟨-, hhi⟩ := magnitude_bounds e hm
  have hpos : (0 : ℚ) < 2 ^ roundExp f m e := by positivity
  have hbound : (m : ℚ) * 2 ^ e ≤ 2 ^ (f.mb + 1) * 2 ^ roundExp f m e := by
    refine hhi.le.trans ?_
    rw [← zpow_natCast, ← zpow_add₀ two_ne_zero]
    exact zpow_le_zpow_right₀ one_le_two (by simp only [roundExp]; push_cast; omega)
  by_contra hlt
  have hn : (2 : ℚ) ^ (f.mb + 1) + 1 ≤ roundMul f neg m e := by exact_mod_cast Nat.lt_of_not_le hlt
  have h := hnear (2 ^ (f.mb + 1))
  have hbeyond := mul_le_mul_of_nonneg_right hn hpos.le
  push_cast at h
  rw [abs_of_nonpos (sub_nonpos.2 hbound)] at h
  have habove := (neg_le_abs _).trans h
  simp only [roundMul] at hbeyond
  linarith

/-- A multiplier below the normal ones is one of the least unit. -/
theorem roundExp_of_lt (hm : m ≠ 0) (hn : roundMul f neg m e < 2 ^ f.mb) : roundExp f m e = f.emin - f.mb := by
  obtain ⟨hnear, -⟩ := roundAt_nearest neg m e (roundExp f m e)
  obtain ⟨hlo, -⟩ := magnitude_bounds e hm
  have hpos : (0 : ℚ) < 2 ^ roundExp f m e := by positivity
  by_contra hne
  have htop : topExp m e = f.mb + roundExp f m e := by simp only [roundExp] at hne ⊢; omega
  have hunit : (2 : ℚ) ^ topExp m e = 2 ^ f.mb * 2 ^ roundExp f m e := by rw [htop, zpow_add₀ two_ne_zero, zpow_natCast]
  rw [hunit] at hlo
  have hn' : (roundMul f neg m e : ℚ) + 1 ≤ 2 ^ f.mb := by exact_mod_cast hn
  have h := hnear (2 ^ f.mb)
  have hbelow := mul_le_mul_of_nonneg_right hn' hpos.le
  push_cast at h
  rw [abs_of_nonneg (sub_nonneg.2 hlo)] at h
  have habove := (le_abs_self _).trans h
  simp only [roundMul] at hbelow
  linarith

theorem overflowBits_rne : overflowBits f .rne neg = f.infBits neg := by cases neg <;> rfl

/-- A normal multiplier and its unit are those of the bits that they are encoded in. -/
theorem finiteValue_encode {n : Nat} {q : Int} (hlo : 2 ^ f.mb ≤ n) (hhi : n < 2 * 2 ^ f.mb) (hq : f.emin - f.mb ≤ q)
    (hmax : ¬ (f.emax : Int) ≤ q + f.mb + f.bias) :
    finiteValue f (f.signBit neg + (q + f.mb + f.bias).toNat * 2 ^ f.mb + (n - 2 ^ f.mb)) = some (signOf neg * (n * 2 ^ q)) := by
  have hex : ((q + f.mb + f.bias).toNat : Int) = q + f.mb + f.bias := by simp only [Fmt.emin] at hq; omega
  rw [finiteValue_normal f neg (by simp only [Fmt.emin] at hq; omega) (by omega) (by omega), hex, Nat.add_sub_of_le hlo, mul_assoc,
    show q + f.mb + f.bias - f.bias - f.mb = q by ring]

/-- The number that the bits of a rounding stand for, and NX, where they stand for a finite one. -/
theorem fpRound_finite (heb : 1 < f.eb) (hm : m ≠ 0) {r : ℚ} (hr : finiteValue f (fpRound f .rne neg m e).1 = some r) :
    r = signOf neg * (roundMul f neg m e * 2 ^ roundExp f m e) ∧
    ((fpRound f .rne neg m e).2.getLsbD 4 = true ↔ (roundAt .rne neg m e (roundExp f m e)).2 = true) := by
  have hle := roundMul_le f neg e hm
  have hsub := roundExp_of_lt f neg e hm
  have hemin : f.emin - f.mb ≤ roundExp f m e := le_max_right _ _
  have hnx (b c : Bool) : ((FlagSet.when b .nx ||| FlagSet.when (b && c) .uf).getLsbD 4 = true ↔ b = true) := by
    cases b <;> cases c <;> decide
  have hmul : roundMul f neg m e = (roundAt .rne neg m e (roundExp f m e)).1 := rfl
  unfold fpRound at hr ⊢
  rw [if_neg hm] at hr ⊢
  rw [show max (topExp m e - f.mb) (f.emin - f.mb) = roundExp f m e from rfl] at hr ⊢
  rw [hmul] at hle hsub ⊢
  dsimp only at hr ⊢
  obtain ⟨⟨n, ix⟩, hp⟩ : ∃ p, roundAt .rne neg m e (roundExp f m e) = p := ⟨_, rfl⟩
  rw [hp] at hle hsub hr ⊢
  generalize roundExp f m e = q at *
  dsimp only at hle hsub hr ⊢
  by_cases hsmall : n < 2 ^ f.mb
  · rw [if_pos hsmall] at hr ⊢
    refine ⟨?_, hnx _ _⟩
    rw [finiteValue_subnormal f neg heb hsmall] at hr
    rw [← Option.some.inj hr, hsub hsmall, mul_assoc]
  · have htwice : 2 ^ (f.mb + 1) = 2 * 2 ^ f.mb := by rw [pow_succ, mul_comm]
    rw [if_neg hsmall] at hr ⊢
    by_cases hover : n = 2 ^ (f.mb + 1)
    · rw [if_pos hover] at hr ⊢
      dsimp only at hr ⊢
      split_ifs at hr ⊢ with hinf
      · rw [overflowBits_rne, finiteValue_inf] at hr
        cases hr
      · refine ⟨?_, hnx _ _⟩
        rw [finiteValue_encode f neg le_rfl (by linarith [Nat.two_pow_pos f.mb]) (by omega) (by omega)] at hr
        rw [← Option.some.inj hr, hover, zpow_add₀ two_ne_zero]
        push_cast
        ring
    · rw [if_neg hover] at hr ⊢
      dsimp only at hr ⊢
      split_ifs at hr ⊢ with hinf
      · rw [overflowBits_rne, finiteValue_inf] at hr
        cases hr
      · refine ⟨?_, hnx _ _⟩
        rw [finiteValue_encode f neg (by omega) (by omega) hemin (by omega)] at hr
        exact (Option.some.inj hr).symm

end

theorem abs_signOf_sub (neg : Bool) (x q : ℚ) : |signOf neg * x - q| = |x - signOf neg * q| := by
  cases neg
  · simp [signOf]
  · rw [← abs_neg]
    simp [signOf, add_comm]

/-- Settles O32: the rounded multiple of the unit in the last place lies nearest, and NX tells that it is not the exact value. -/
theorem roundingIsNearest : Obligations.RoundingIsNearest := by
  intro f hf neg m e r exact hr
  have heb : 1 < f.eb := by
    simp only [List.mem_cons, List.not_mem_nil, or_false] at hf
    rcases hf with rfl | rfl | rfl <;> decide
  have hexact : exact = signOf neg * (m * 2 ^ e) := mul_assoc _ _ _
  clear_value exact
  subst hexact
  by_cases hm : m = 0
  · subst hm
    have hzero := finiteValue_subnormal f neg heb (Nat.two_pow_pos f.mb)
    rw [Nat.add_zero, Nat.cast_zero, mul_zero, zero_mul] at hzero
    have hround : fpRound f .rne neg 0 e = (f.signBit neg, .none) := rfl
    rw [hround, hzero] at hr
    rw [hround, ← Option.some.inj hr]
    exact ⟨fun x q _ => by simp, by simp [FlagSet.none]⟩
  · obtain ⟨hval, hnx⟩ := fpRound_finite f neg e heb hm hr
    obtain ⟨-, hexact⟩ := roundAt_nearest neg m e (roundExp f m e)
    have hsign : signOf neg ≠ 0 ∧ signOf neg * signOf neg = 1 := by cases neg <;> simp [signOf]
    refine ⟨fun x q hq => ?nearest, ?inexact⟩
    case nearest =>
      obtain ⟨k, E, rfl, hk, hE⟩ := finiteValue_form f hq
      rw [hval, abs_signOf_sub, abs_signOf_sub, ← mul_assoc, hsign.2, one_mul]
      cases neg
      · simpa [signOf] using roundMul_nearest f false e hm hk hE
      · simpa [signOf] using roundMul_nearest f true e hm (k := -k) (by rwa [abs_neg]) hE
    case inexact =>
      rw [hnx, hexact, hval, ne_eq, ne_eq, mul_right_inj' hsign.1]
      rfl

end Sys2Proof.Machine
end

section
/-! PROOFS. Conversions and floating-point reductions (R191, R192, R195, R440, R449). -/

namespace Sys2Proof.Machine

/-! ### A vector and flags, written -/

/-- The machine once a vector is written and flags are raised. -/
def wroteVF (s : State) (d : Reg) (v : VWord) (fl : FlagSet) : State :=
  retire s { s.cur with ctx := raiseFlags (setV s.cur.ctx d v) fl }

theorem finishFp_eq (s : State) (d : Reg) (r : VWord × FlagSet) : finishFp s d r = .next (wroteVF s d r.1 r.2) := rfl

theorem getV_wroteVF (s : State) (d : Reg) (v : VWord) (fl : FlagSet) : getV (wroteVF s d v fl).cur.ctx d = v :=
  (getV_advance _ d).trans (getV_setV_same s.cur.ctx d v)

theorem frameV_wroteVF (s : State) (d : Reg) (v : VWord) (fl : FlagSet) : FrameV s (wroteVF s d v fl) d := frameV_retire s d v fl

theorem flags_wroteVF (s : State) (d : Reg) (v : VWord) (fl : FlagSet) : (wroteVF s d v fl).cur.ctx.flags = s.cur.ctx.flags ||| fl := by
  show (advance (raiseFlags (setV s.cur.ctx d v) fl)).flags = _
  rw [advance_eq]
  rfl

theorem flagsFrom_wroteVF (s : State) (d : Reg) (v : VWord) (n : Nat) (fl : Nat → FlagSet) :
    FlagsFrom s (wroteVF s d v (FlagSet.union ((List.range n).map fl))) n (fun _ => true) fl := by
  intro j
  rw [flags_wroteVF, BitVec.getLsbD_or, Bool.or_eq_true, getLsbD_union]
  simp

/-! ### Conversions by lanes and by blocks (R191, R192, R440) -/

theorem vecElems_range (w n : Nat) (v : VWord) : vecElems w n v = (List.range n).map fun i => (el w v i).toNat :=
  List.map_congr_left fun i _ => elemAt_eq w v i

theorem execVfcvt_ready {s : State} {d a : Reg} {c : BitVec 5} (hr : ReadyV s [] [] (cvtSources a c) [d]) :
    exec (.vfcvt d a c) s = finishFp s d (cvt c.toNat (getV s.cur.ctx a) (getV s.cur.ctx (regPlus a 1))) := gate_ready hr _

theorem cvtLanes_range (w w' n : Nat) (v : VWord) (g : Nat → Nat × FlagSet) :
    cvtLanes w ((vecElems w' n v).map g) = (vecPack w ((List.range n).map fun i => (g (el w' v i).toNat).1),
      FlagSet.union ((List.range n).map fun i => (g (el w' v i).toNat).2)) := by
  simp only [cvtLanes, vecElems_range, List.map_map, Function.comp_def]

/-- A conversion of lanes fills the low ones and clears the others. -/
theorem cvtLanes_gives {s : State} {d : Reg} {j : Instr} {w n w' : Nat} {v : VWord} {g : Nat → Nat × FlagSet}
    (hexec : exec j s = finishFp s d (cvtLanes w ((vecElems w' n v).map g))) :
    ∃ t, exec j s = .next t ∧ FrameV s t d ∧
      (∀ i, i < 512 / w → el w (getV t.cur.ctx d) i = if i < n then BitVec.ofNat w (g (el w' v i).toNat).1 else 0) ∧
      FlagsFrom s t n (fun _ => true) fun i => (g (el w' v i).toNat).2 := by
  rw [cvtLanes_range] at hexec
  refine ⟨_, hexec.trans (finishFp_eq ..), frameV_wroteVF .., fun i hi => ?_, flagsFrom_wroteVF s d _ n _⟩
  rw [getV_wroteVF, el_vecPack (el_fits hi)]
  split_ifs with hn
  · rw [List.getD_eq_getElem _ _ (by simpa using hn), List.getElem_map, List.getElem_range]
  · rw [List.getD_eq_default _ _ (by simpa using hn)]
    rfl

theorem vecOf_lt (w : Nat) (xs : List Nat) : vecOf w xs < 2 ^ (w * xs.length) := by
  induction xs with
  | nil => exact Nat.one_pos
  | cons x xs ih =>
    have hx := Nat.mod_lt x (Nat.two_pow_pos w)
    calc x % 2 ^ w + 2 ^ w * vecOf w xs < 2 ^ w + 2 ^ w * vecOf w xs := by omega
      _ = 2 ^ w * (vecOf w xs + 1) := by ring
      _ ≤ 2 ^ w * 2 ^ (w * xs.length) := Nat.mul_le_mul_left _ ih
      _ = 2 ^ (w * (x :: xs).length) := by rw [List.length_cons, Nat.mul_succ, ← pow_add, Nat.add_comm]

/-- Elements below the last byte, and that byte. -/
theorem el_block {w : Nat} (xs : List Nat) (sc : Nat) (hfit : w * xs.length ≤ 504) :
    (∀ i, i < xs.length → (el w (BitVec.ofNat 512 (vecOf w xs + sc * 2 ^ 504)) i).toNat = xs.getD i 0 % 2 ^ w) ∧
    (el 8 (BitVec.ofNat 512 (vecOf w xs + sc * 2 ^ 504)) 63).toNat = sc % 256 := by
  constructor
  · intro i hi
    have hi' : w * i + w ≤ 504 := by
      calc w * i + w = w * (i + 1) := (Nat.mul_succ w i).symm
        _ ≤ w * xs.length := Nat.mul_le_mul_left w hi
        _ ≤ 504 := hfit
    obtain ⟨k, hk⟩ : ∃ k, 504 = w * i + w + k := ⟨504 - (w * i + w), by omega⟩
    have hpow : sc * 2 ^ 504 = (sc * 2 ^ k * 2 ^ w) * 2 ^ (w * i) := by rw [hk, pow_add, pow_add]; ring
    rw [el, extractLsb'_ofNat _ _ _ _ (by omega), BitVec.toNat_ofNat, hpow, Nat.add_mul_div_right _ _ (by positivity),
      Nat.add_mul_mod_self_right, vecOf_div]
  · have hlt : vecOf w xs < 2 ^ 504 := (vecOf_lt w xs).trans_le (Nat.pow_le_pow_right (by decide) hfit)
    rw [el, extractLsb'_ofNat _ _ _ _ (by decide), BitVec.toNat_ofNat, Nat.add_mul_div_right _ _ (Nat.two_pow_pos _),
      Nat.div_eq_of_lt hlt, Nat.zero_add]

theorem length_blockConvert (k : ElemFmt) (r : Rounding) (xs : List Nat) : (blockConvert k r xs).1.length = xs.length := by
  unfold blockConvert
  dsimp only
  split_ifs
  · exact List.length_map _
  · rw [List.length_map, List.length_map, List.length_map]

theorem cvtBlock_gives {s : State} {d : Reg} {j : Instr} {c : Nat} {x y : VWord} (hexec : exec j s = finishFp s d (cvtBlock c x y)) :
    ∃ t, exec j s = .next t ∧ FrameV s t d ∧
      ∃ es sc fl, blockConvert (blockFmt c) (roundingOf c) ((List.range 16).map (fun i => (el 32 x i).toNat) ++
          (List.range 16).map fun i => (el 32 y i).toNat) = (es, sc, fl) ∧
        (∀ i, i < 32 → let w := if blockFmt c = .e2m1 then 4 else 8
          (el w (getV t.cur.ctx d) i).toNat = es.getD i 0 % 2 ^ w) ∧ (el 8 (getV t.cur.ctx d) 63).toNat = sc % 256 ∧
            t.cur.ctx.flags = s.cur.ctx.flags ||| fl := by
  unfold cvtBlock at hexec
  rw [vecElems_range, vecElems_range] at hexec
  have hlen := length_blockConvert (blockFmt c) (roundingOf c) ((List.range 16).map (fun i => (el 32 x i).toNat) ++
    (List.range 16).map fun i => (el 32 y i).toNat)
  obtain ⟨⟨es, sc, fl⟩, hb⟩ : ∃ p, blockConvert (blockFmt c) (roundingOf c) ((List.range 16).map (fun i => (el 32 x i).toNat) ++
    (List.range 16).map fun i => (el 32 y i).toNat) = p := ⟨_, rfl⟩
  dsimp only at hexec
  rw [hb] at hexec hlen
  have hn : es.length = 32 := by simpa using hlen
  obtain ⟨w, hw, h8⟩ : ∃ w, (if blockFmt c = .e2m1 then 4 else 8) = w ∧ w ≤ 8 := ⟨_, rfl, by split_ifs <;> decide⟩
  dsimp only at hexec
  rw [hw] at hexec ⊢
  obtain ⟨hel, hscale⟩ := el_block es sc (w := w) (by rw [hn]; omega)
  refine ⟨_, hexec.trans (finishFp_eq ..), frameV_wroteVF .., es, sc, fl, hb, ?_, ?_, flags_wroteVF ..⟩
  · intro i hi w'
    rw [getV_wroteVF]
    exact hel i (by omega)
  · rw [getV_wroteVF]
    exact hscale

/-! ### Reductions in the fixed tree (R195, R449) -/

section
variable (f : Nat → Nat → Nat × FlagSet)

theorem redLevel_range (k : Nat) (leaf : Nat → Nat) :
    (redLevel f ((List.range (2 * k)).map leaf)).1 = (List.range k).map fun i => (f (leaf (2 * i)) (leaf (2 * i + 1))).1 := by
  induction k generalizing leaf with
  | zero => rfl
  | succ k ih =>
    have hrange : (List.range (2 * (k + 1))).map leaf = leaf 0 :: leaf 1 :: (List.range (2 * k)).map fun i => leaf (i + 2) := by
      rw [Nat.mul_succ, List.range_succ_eq_map, List.range_succ_eq_map]
      simp [Function.comp_def]
    rw [hrange, redLevel, List.range_succ_eq_map, List.map_cons, List.map_map]
    dsimp only
    rw [ih]
    rfl

/-- The tree over 2^n values that are nodes of level j leaves the node of level j + n. -/
theorem redTree_range (leaf : Nat → Nat) (n j : Nat) (fl : FlagSet) :
    (redTree f n ((List.range (2 ^ n)).map (treeOf f leaf j), fl)).1 = [treeOf f leaf (j + n) 0] := by
  induction n generalizing j fl with
  | zero => rfl
  | succ n ih =>
    have hlevel := redLevel_range f (2 ^ n) (treeOf f leaf j)
    rw [redTree, pow_succ, Nat.mul_comm]
    dsimp only
    rw [hlevel, show j + (n + 1) = j + 1 + n by omega]
    exact ih (j + 1) _

theorem fpReduce_gives {s : State} {d a : Reg} {j : Instr} {n : Nat} {lanes : VWord → List Nat} {leaf : Nat → Nat}
    (hr : ReadyV s [] [] [a] [d]) (hexec : exec j s = fpReduce s d a n lanes f)
    (hlanes : lanes (getV s.cur.ctx a) = (List.range (2 ^ n)).map leaf) :
    ∃ t, exec j s = .next t ∧ FrameV s t d ∧ getV t.cur.ctx d = BitVec.ofNat 512 (treeOf f leaf n 0) := by
  unfold fpReduce at hexec
  rw [gate_ready hr] at hexec
  refine ⟨_, hexec.trans (finishFp_eq ..), frameV_wroteVF .., ?_⟩
  have htree := redTree_range f leaf n 0 .none
  rw [Nat.zero_add] at htree
  rw [getV_wroteVF, hlanes, show (List.range (2 ^ n)).map leaf = (List.range (2 ^ n)).map (treeOf f leaf 0) from rfl, htree]
  rfl

end

/-- Settles O33: a conversion is that of its lanes or of its block, a reduction the fixed tree. -/
theorem conversionsAndTrees : Obligations.ConversionsAndTrees := by
  intro s d a c hr x k r lanes tree
  have hexec := execVfcvt_ready hr
  have hk : c.toNat = k := rfl
  rw [hk] at hexec
  refine ⟨fun h4 => ?_, fun h4 h8 => ?_, fun h8 h12 => ?_, fun h12 h16 => ?_, fun h16 h28 => ?_, fun h => ?_, fun h => ?_,
    fun h => ?_, fun h16 => ?_⟩
  all_goals clear_value k
  · rw [cvt, if_pos h4] at hexec
    exact cvtLanes_gives hexec
  · rw [cvt, if_neg (by omega), if_pos h8] at hexec
    exact cvtLanes_gives hexec
  · rw [cvt, if_neg (by omega), if_neg (by omega), if_pos h12] at hexec
    exact cvtLanes_gives hexec
  · rw [cvt, if_neg (by omega), if_neg (by omega), if_neg (by omega), if_pos h16] at hexec
    exact cvtLanes_gives hexec
  · rw [cvt, if_neg (by omega), if_neg (by omega), if_neg (by omega), if_neg (by omega), if_pos h28] at hexec
    exact cvtBlock_gives hexec
  · subst h
    exact cvtLanes_gives hexec
  · subst h
    exact cvtLanes_gives hexec
  · subst h
    exact cvtLanes_gives hexec
  · have hsrc : cvtSources a c = [a] := by
      rw [cvtSources, hk, decide_eq_false (by omega), Bool.false_and]
      rfl
    rw [hsrc] at hr
    exact ⟨fpReduce_gives _ hr (exec_vfredAddF32 ..) (vecElems_range ..),
      fpReduce_gives _ hr (exec_vfredAddBf16 ..) (by rw [vecElems_range, List.map_map]; rfl),
      fpReduce_gives _ hr (exec_vfredMaxF32 ..) (vecElems_range ..),
      fpReduce_gives _ hr (exec_vfredMinF32 ..) (vecElems_range ..)⟩

end Sys2Proof.Machine
end

section
/-! PROOFS. The matrix instructions and the row's joint array (R12, R25, R383, R386, R387, R392, R393). -/

namespace Sys2Proof.Machine

/-! ### Operands and tiles of one member -/

theorem execMldA_ready {s : State} {k : BitVec 5} {b i : Reg} (hr : ReadyV s [b] [] [i] []) :
    exec (.mldA k b i) s = .next (retire s { read1 s b with chunk := { s.cur.chunk with
      mldA := some ⟨32 * (k.toNat + 1), arg1 s b, getV s.cur.ctx i⟩ } }) := by
  rw [exec_mldA]
  unfold execMldA
  rw [gate_ready hr, takeG_first]
  dsimp only
  rw [read1_eq]
  rfl

theorem execMldB_ready {s : State} {k : BitVec 5} {b i : Reg} (hr : Ready s [b, i] []) :
    exec (.mldB k b i) s = .next (retire s { read2 s b i with chunk := { s.cur.chunk with
      mldB := some ⟨32 * (k.toNat + 1), arg1 s b, arg2 s b i⟩ } }) := by
  rw [exec_mldB]
  unfold execMldB
  rw [gate_ready hr, takeG_first]
  dsimp only
  rw [takeG_second]
  dsimp only
  rw [read2_eq_popped]
  rfl

theorem tileOf_zeroExtend (n : BitVec 2) : tileOf (n.zeroExtend 5) = n := by
  apply BitVec.eq_of_toNat_eq
  simp [tileOf]

/-- The context once a tile is cleared. -/
def clearedTile (c : Ctx) (n : BitVec 2) : Ctx := { c with ac := c.ac.set n.toNat (Vector.replicate 2048 0) n.isLt }

theorem execMzero_eq (t : Reg) (s : State) : execMzero t s = if mmaOpen s s.cur.key (some (tileOf t)) then .next s
    else .next (retire s { s.cur with ctx := clearedTile s.cur.ctx (tileOf t) }) := rfl

theorem execMzero_open {s : State} {n : BitVec 2} (h : mmaOpen s s.cur.key (some n) = false) :
    exec (.mzero (n.zeroExtend 5)) s = .next (retire s { s.cur with ctx := clearedTile s.cur.ctx n }) := by
  rw [exec_mzero, execMzero_eq, tileOf_zeroExtend, h, if_neg Bool.false_ne_true]

/-! ### The row's barrier -/

theorem arrayOf_setArray (s : State) (k : Nat) (a : ArrayOp) : arrayOf (setArray s k a) k = a := Tab.get_set_same _ _ _ _

theorem partOf_append {ps : List MmaPart} {key : Nat} {p : MmaPart} (h : partOf ps key = none) (hp : p.key = key) :
    partOf (ps ++ [p]) key = some p := by
  unfold partOf at *
  rw [List.find?_append, h]
  simp [hp]

/-- A part joins the row's operation. -/
def partJoins (s : State) (key : Nat) (me : MmaPart) : State :=
  setArray s key { arrayOf s key with parts := (arrayOf s key).parts ++ [me] }

/-- All parts of the row's operation have met. -/
def partsMeet (s : State) (key : Nat) (me : MmaPart) : State :=
  setArray (partJoins s key me) key { arrayOf s key with parts := ((arrayOf s key).parts ++ [me]).map fun p => { p with met := true } }

section
variable {s : State} {t : Task} {key : Nat} {ms : List Member} {me : MmaPart}
  (hgone : memberGone ms ((arrayOf s key).parts ++ [me]) = false) (hmine : me.key = s.cur.key) (hmet : me.met = false)
  (hnew : partOf (arrayOf s key).parts s.cur.key = none)
include hgone hmine hmet hnew

theorem mmaBarrier_waits (h : partsComplete ms ((arrayOf s key).parts ++ [me]) = false) :
    mmaBarrier (partJoins s key me) t key ms = partJoins s key me := by
  unfold mmaBarrier
  dsimp only
  rw [partJoins, arrayOf_setArray]
  dsimp only
  rw [hgone, if_neg Bool.false_ne_true]
  have hpart : partOf ((arrayOf s key).parts ++ [me]) (setArray s key { arrayOf s key with
      parts := (arrayOf s key).parts ++ [me] }).cur.key = some me := partOf_append hnew hmine
  rw [hpart]
  dsimp only
  rw [hmet, if_neg Bool.false_ne_true, h]
  rfl

theorem mmaBarrier_meets (h : partsComplete ms ((arrayOf s key).parts ++ [me]) = true)
    (hagree : partsAgree ((arrayOf s key).parts ++ [me]) = true) :
    mmaBarrier (partJoins s key me) t key ms = mmaCommit (partsMeet s key me) t key := by
  unfold mmaBarrier
  dsimp only
  rw [partsMeet, partJoins, arrayOf_setArray]
  dsimp only
  rw [hgone, if_neg Bool.false_ne_true]
  have hpart : partOf ((arrayOf s key).parts ++ [me]) (setArray s key { arrayOf s key with
      parts := (arrayOf s key).parts ++ [me] }).cur.key = some me := partOf_append hnew hmine
  rw [hpart]
  dsimp only
  rw [hmet, if_neg Bool.false_ne_true, h, hagree]
  rfl

end

theorem mmaCommit_done {s c : State} {t : Task} {k : Nat} (h : commitNow (passed { s with cur := rebase s t }) = .done c) :
    mmaCommit s t k = setArray c k { arrayOf c k with parts := (arrayOf c k).parts.map fun p =>
      if p.key = s.cur.key then { p with committed := true } else p } := by
  unfold mmaCommit
  rw [h]

/-- An `mma` whose operands the checks let through joins its row's barrier. -/
theorem execMma_joins {s : State} {i : Reg} {n : BitVec 2} {z u : Bool} {f : BitVec 5} {g : Gang} {m : Member} {da : DescA}
    {db : DescB} (hr : Ready s [i] []) (hgang : gangOf s s.cur = some (g, m)) (hda : s.cur.chunk.mldA = some da)
    (hdb : s.cur.chunk.mldB = some db) {x : Nat} (hx : (arg1 s i).toNat = x) (h0 : x ≠ 0) (h32 : x % 32 = 0) (h256 : x ≤ 256)
    (hka : da.k = x) (hkb : db.k = x) (hopen : mmaOpen s s.cur.key none = false)
    (hnew : partOf (arrayOf s (arrayKey g.id s.cur.core)).parts s.cur.key = none) (hcause : operandCause s f.toNat da db = none) :
    exec (.mma n z u f i) s = .next (mmaBarrier (partJoins s (arrayKey g.id s.cur.core)
      ⟨s.cur.key, s.cur.core, n, z, u, f, x, da, db, false, false⟩) (read1 s i) (arrayKey g.id s.cur.core) (joined g m false)) := by
  rw [exec_mma]
  unfold execMma
  rw [gate_ready hr, takeG_first]
  dsimp only
  rw [hgang]
  dsimp only
  rw [hda, hdb]
  dsimp only
  rw [hx, if_neg (by omega), if_neg (by omega), hopen, if_neg Bool.false_ne_true, hnew, if_neg (by simp), hcause]
  rfl

/-! ### The store of a tile -/

/-- The rows of a tile that a step of `mst` holds. -/
def rowStores (w : State) (c : Ctx) (n : BitVec 2) (a st : Word) (row fit : Nat) : List Eff :=
  (List.range fit).map fun j => .store (canon w (localOf (a + st * BitVec.ofNat 64 (row + j)))) (tileRow c n (row + j))

theorem holdRows_eq (w : State) (t : Task) (n : BitVec 2) (a st : Word) (row fit : Nat) :
    holdRows w t n a st row fit =
      { t with chunk := { t.chunk with log := t.chunk.log ++ rowStores w t.ctx n a st row fit } } := by
  rw [← foldl_hold, rowStores, List.foldl_map]
  rfl

/-- The rows that fit in the chunk. -/
def mstFit (s : State) (a st : Word) : Nat :=
  rowsFit (128 - s.cur.ctx.mstRow) (s.cur.chunk.llines.foldl (fun l a => addNew a l) s.cur.chunk.wlines) s a st s.cur.ctx.mstRow

/-- The lines of those rows. -/
def mstLines (s : State) (a st : Word) : List Nat :=
  (List.range (mstFit s a st)).map fun j => canon s (localOf (a + st * BitVec.ofNat 64 (s.cur.ctx.mstRow + j))) / 64

/-- The task once the last rows of a tile are held. -/
def tileHeld (w : State) (u : Task) (n : BitVec 2) (a st : Word) (row fit : Nat) : Task :=
  { w.cur with chunk := { w.cur.chunk with log := w.cur.chunk.log ++ rowStores w u.ctx n a st row fit },
               ctx := { u.ctx with mstRow := 0 } }

/-- The task once some rows of a tile are held and others remain. -/
def tileBegun (w : State) (n : BitVec 2) (a st : Word) (row fit : Nat) : Task :=
  { w.cur with chunk := { w.cur.chunk with log := w.cur.chunk.log ++ rowStores w w.cur.ctx n a st row fit },
               ctx := { w.cur.ctx with mstRow := row + fit } }

theorem holdRows_part (w : State) (n : BitVec 2) (a st : Word) (row fit : Nat) :
    { holdRows w w.cur n a st row fit with ctx := { (holdRows w w.cur n a st row fit).ctx with mstRow := row + fit } } =
      tileBegun w n a st row fit := by
  rw [holdRows_eq]
  rfl

theorem holdRows_last (w : State) (u : Task) (n : BitVec 2) (a st : Word) (row fit : Nat) :
    { holdRows w (rebase w u) n a st row fit with ctx := { (holdRows w (rebase w u) n a st row fit).ctx with mstRow := 0 } } =
      tileHeld w u n a st row fit := by
  rw [holdRows_eq]
  rfl

section
variable {s w : State} {b i : Reg} {n : BitVec 2} {x y : Word} (hx : arg1 s b = x) (hy : arg2 s b i = y) 
  (hr : Ready s [b, i] []) (hcause : mstCause s x y = none)
  (hopen : mmaOpen s s.cur.key (some n) = false) (htouch : touch s [] (mstLines s x y) = .entered w)
include hx hy hr hcause hopen htouch

theorem execMst_last (hall : s.cur.ctx.mstRow + mstFit s x y = 128) :
    exec (.mst (n.zeroExtend 5) b i) s = .next (retire w (tileHeld w (read2 s b i) n x y s.cur.ctx.mstRow (mstFit s x y))) := by
  rw [exec_mst]
  unfold execMst
  rw [gate_ready hr, takeG_first]
  dsimp only
  rw [takeG_second]
  dsimp only
  rw [hx, hy, hcause, tileOf_zeroExtend]
  dsimp only [unlessStop]
  rw [hopen, if_neg Bool.false_ne_true]
  change (if s.cur.ctx.mstRow + mstFit s x y < 128 then _ else _) = _
  rw [if_neg (by omega)]
  exact (withLines_entered htouch _).trans (congrArg (fun t => Host.Outcome.next (retire w t)) (holdRows_last ..))

theorem execMst_part (hrest : s.cur.ctx.mstRow + mstFit s x y < 128)
    (hrule : s.cur.kind ≠ .rule ∨ s.cur.chunk.first = false) :
    exec (.mst (n.zeroExtend 5) b i) s = .next (commitNow { w with cur := tileBegun w n x y s.cur.ctx.mstRow (mstFit s x y) }).state := by
  rw [exec_mst]
  unfold execMst
  rw [gate_ready hr, takeG_first]
  dsimp only
  rw [takeG_second]
  dsimp only
  rw [hx, hy, hcause, tileOf_zeroExtend]
  dsimp only [unlessStop]
  rw [hopen, if_neg Bool.false_ne_true]
  change (if s.cur.ctx.mstRow + mstFit s x y < 128 then _ else _) = _
  have hnot : (s.cur.chunk.first && s.cur.kind == .rule) = false := by
    rcases hrule with h | h
    · rw [beq_false_of_ne h, Bool.and_false]
    · rw [h, Bool.false_and]
  rw [if_pos hrest, hnot, if_neg Bool.false_ne_true]
  exact (withLines_entered htouch _).trans
    (congrArg (fun t => Host.Outcome.next (commitNow { w with cur := t }).state) (holdRows_part ..))

end

theorem matrices_hold : matricesClaim := by
  intro s k b i n z u f
  refine ⟨execMldA_ready, execMldB_ready, fun h => ?zero, ?mma, ?mst⟩
  case zero =>
    have hac : (advance (clearedTile s.cur.ctx n)).ac = s.cur.ctx.ac.set n.toNat (Vector.replicate 2048 0) n.isLt := advance_ac _
    refine ⟨_, execMzero_open h, onlyTask_retire _ _, ?same, fun m hm => ?other, advance_g _, advance_v _, advance_m _, ?flags⟩
    case same => exact (congrArg (fun v : Vector Tile 4 => v[n.toNat]'(n.isLt)) hac).trans (Vector.getElem_set_self _)
    case other => exact (congrArg (fun v : Vector Tile 4 => v[m]) hac).trans (Vector.getElem_set_ne _ _ hm.symm)
    case flags =>
      show (advance (clearedTile s.cur.ctx n)).flags = _
      rw [advance_eq]
      rfl
  case mma =>
    intro g m da db hr hgang hda hdb x key ms ps me h0 h32 h256 hka hkb hopen hnew hcause hgone joins all
    have hexec := execMma_joins (n := n) (z := z) (u := u) hr hgang hda hdb rfl h0 h32 h256 hka hkb hopen hnew hcause
    refine ⟨fun hpart => ?_, fun hall hagree c hc => ?_⟩
    · rw [hexec]
      exact congrArg Host.Outcome.next (mmaBarrier_waits hgone rfl rfl hnew hpart)
    · rw [hexec]
      exact congrArg Host.Outcome.next ((mmaBarrier_meets hgone rfl rfl hnew hall hagree).trans (mmaCommit_done hc))
  case mst =>
    intro w hr hcause hopen hrow row at' fit htouch stores
    refine ⟨fun hall hctx => ?_, fun hrest hrule => execMst_part rfl rfl hr hcause hopen htouch hrest hrule⟩
    refine ⟨_, execMst_last rfl rfl hr hcause hopen htouch hall, onlyTask_retire _ _, ?_, ?_⟩
    · refine congrArg (w.cur.chunk.log ++ ·) (List.map_congr_left fun j _ => congrArg (Eff.store _) ?_)
      have hac : (read2 s b i).ctx.ac = w.cur.ctx.ac := by rw [hctx, read2_eq_popped]; rfl
      unfold tileRow getTile
      rw [hac]
    · refine ⟨(advance_mstRow _).trans rfl, (advance_ac _).trans ?_⟩
      show (read2 s b i).ctx.ac = _
      rw [read2_eq_popped]
      rfl

/-! ### The row's joint array -/

theorem execMmaArrayStart_starts {s : State} {row key : Nat} {a : ArrayOp} (hrow : rowOps s row = [(key, a)])
    (hidle : a.running = false) (height : a.parts.length = 8) (hparts : ∀ p ∈ a.parts, p.committed = true)
    (hgone : opGone s key a = false) :
    exec (.mmaArrayStart row) s = .next (setArray s key { a with running := true, since := s.time }) := by
  have hsome : a.parts.isEmpty = false := by cases h : a.parts with
    | nil => rw [h] at height; cases height
    | cons => rfl
  rw [exec_mmaArrayStart]
  unfold execMmaArrayStart
  rw [hrow]
  simp only [List.any_cons, List.any_nil, hidle, Bool.false_and, Bool.or_false, Bool.false_eq_true, if_false, List.find?_cons,
    Bool.not_false, List.all_eq_true.2 hparts, hsome, Bool.and_true, hgone, height, if_true]

theorem mem_insertPart {p q : MmaPart} {ps : List MmaPart} : q ∈ insertPart p ps ↔ q = p ∨ q ∈ ps := by
  induction ps with
  | nil => simp [insertPart]
  | cons r ps ih =>
    unfold insertPart
    split_ifs
    · simp
    · rw [List.mem_cons, ih, List.mem_cons]
      tauto

theorem mem_foldl_insertPart {q : MmaPart} {ps l : List MmaPart} :
    q ∈ ps.foldl (fun l p => insertPart p l) l ↔ q ∈ l ∨ q ∈ ps := by
  induction ps generalizing l with
  | nil => simp
  | cons p ps ih =>
    rw [List.foldl_cons, ih, mem_insertPart, List.mem_cons]
    tauto

theorem mem_byPosition {q : MmaPart} {ps : List MmaPart} : q ∈ byPosition ps ↔ q ∈ ps := by
  rw [byPosition, mem_foldl_insertPart]
  simp

/-- A K-block ended in the tiles of some parts. -/
def blockPut (s : State) (ps : List MmaPart) (kb : Nat) : State :=
  ps.foldl (fun s' p => match findTask s p.key with
    | none => s'
    | some t => putBlock s' p (tileBlock s ps p kb (t.ctx.ac[p.tile.toNat]'(p.tile.isLt)))) s

/-- A task once a K-block has ended in a tile of it. -/
def blockEnded (t : Task) (p : MmaPart) (r : Tile × FlagSet) : Task :=
  { t with ctx := raiseFlags { t.ctx with ac := t.ctx.ac.set p.tile.toNat r.1 p.tile.isLt } r.2, usedAc := true,
           chunk := { t.chunk with start := raiseFlags { t.chunk.start with ac := t.chunk.start.ac.set p.tile.toNat r.1 p.tile.isLt } r.2 } }

theorem putBlock_onlyTasks (s : State) (p : MmaPart) (r : Tile × FlagSet) : OnlyTasks s (putBlock s p r) := by
  refine onTask_rel (R := OnlyTasks) OnlyTasks.trans id (f := fun s => modCur s fun t => blockEnded t p r) (fun t => ?_) s p.key
  exact (rfl : _ = _)

theorem foldl_onlyTasks {f : State → MmaPart → State} (hf : ∀ s p, OnlyTasks s (f s p)) (ps : List MmaPart) (s : State) :
    OnlyTasks s (ps.foldl f s) := by
  induction ps generalizing s with
  | nil => exact OnlyTasks.refl s
  | cons p ps ih => exact (hf s p).trans (ih (f s p))

theorem blockPut_onlyTasks (s : State) (ps : List MmaPart) (kb : Nat) : OnlyTasks s (blockPut s ps kb) := by
  refine foldl_onlyTasks (fun s' p => ?_) ps s
  split
  · exact OnlyTasks.refl s'
  · exact putBlock_onlyTasks s' p _

/-- The K-block count of the first part. -/
def arrayBlocks (ps : List MmaPart) : Nat :=
  match ps with
  | p :: _ => p.k / 32
  | [] => 0

/-- A running array whose words are whole ends a K-block, and with the last one its operation. -/
theorem execMmaArrayComplete_ends {s : State} {row key : Nat} {a : ArrayOp} (hrow : rowOps s row = [(key, a)])
    (hrun : a.running = true) (hparts : ∀ p ∈ a.parts, partRuns s p = true)
    (hwhole : ∀ p ∈ a.parts, ∀ q ∈ blockWords s p.fmt.toNat p a.kb, q ∉ s.mem.poison) :
    exec (.mmaArrayComplete row) s = .next (if arrayBlocks (byPosition a.parts) ≤ a.kb + 1
      then dropArray (blockPut s (byPosition a.parts) a.kb) key
      else setArray (blockPut s (byPosition a.parts) a.kb) key { a with kb := a.kb + 1, since := s.time }) := by
  rw [exec_mmaArrayComplete]
  unfold execMmaArrayComplete
  have hfind : [(key, a)].find? (fun e => e.2.running && e.2.parts.all (partRuns s)) = some (key, a) := by
    simp [hrun, List.all_eq_true.2 hparts]
  have hclean : (((byPosition a.parts).flatMap fun p => blockWords s p.fmt.toNat p a.kb).find? fun w => s.mem.poison.contains w) = none := by
    rw [List.find?_eq_none]
    intro w hw hp
    obtain ⟨p, hpart, hmem⟩ := List.mem_flatMap.1 hw
    exact hwhole p (mem_byPosition.1 hpart) w hmem (List.contains_iff_mem.1 hp)
  rw [hrow, hfind]
  dsimp only
  rw [hclean]
  refine congrArg Host.Outcome.next ?_
  by_cases h : arrayBlocks (byPosition a.parts) ≤ a.kb + 1
  · rw [if_pos h]
    exact if_pos (decide_eq_true h)
  · rw [if_neg h]
    exact if_neg fun hd => h (of_decide_eq_true hd)

theorem blockPut_self {s : State} {p : MmaPart} {kb : Nat} (hkey : p.key = s.cur.key) (hfind : findTask s p.key = some s.cur)
    (htask : isTask s.cur = true) : blockPut s [p] kb =
      { s with cur := blockEnded s.cur p (tileBlock s [p] p kb (s.cur.ctx.ac[p.tile.toNat]'(p.tile.isLt))) } := by
  unfold blockPut
  rw [List.foldl_cons, List.foldl_nil, hfind]
  dsimp only
  unfold putBlock
  rw [hkey, onTask_self htask]
  rfl

theorem arrayBlocks_byPosition {ps : List MmaPart} {n : Nat} (h : ∀ p ∈ ps, p.k = 32 * n) : arrayBlocks (byPosition ps) ≤ n := by
  cases hb : byPosition ps with
  | nil => exact Nat.zero_le n
  | cons p qs =>
    have hp := h p (mem_byPosition.1 (hb ▸ List.mem_cons_self))
    show p.k / 32 ≤ n
    omega

theorem jointArray_holds : jointArrayClaim := by
  intro s row key a hrow
  refine ⟨execMmaArrayStart_starts hrow, fun hrun hparts _ hwhole => ?_⟩
  have hexec := execMmaArrayComplete_ends hrow hrun hparts hwhole
  refine ⟨fun hlast => ?_, fun p hone hkey hfind htask hmore => ?_⟩
  · rw [if_pos (arrayBlocks_byPosition hlast)] at hexec
    have honly := blockPut_onlyTasks s (byPosition a.parts) a.kb
    refine ⟨_, hexec, ?_, ?_⟩
    · show Tab.erase (blockPut s (byPosition a.parts) a.kb).eng.arrays key = _
      rw [honly]
    · show (blockPut s (byPosition a.parts) a.kb).mem = _
      rw [honly]
  · have hpos : byPosition a.parts = [p] := by rw [hone]; rfl
    rw [hpos, if_neg (by show ¬ p.k / 32 ≤ a.kb + 1; omega), blockPut_self hkey hfind htask] at hexec
    refine ⟨_, hexec, Vector.getElem_set_self _, rfl, ?_, arrayOf_setArray _ _ _⟩
    exact (Vector.getElem_set_self _).trans (Vector.getElem_set_self _).symm

/-- Settles O35: the matrix instructions of one member and the row's joint array. -/
theorem matrices : Obligations.Matrices := ⟨matrices_hold, jointArray_holds⟩

end Sys2Proof.Machine
end

section
/-! PROOFS. The long accumulators (R196 to R198, R369 to R371). -/

namespace Sys2Proof.Machine

/-! ### What is read back -/

theorem Mem.setTags_cells (m : Mem) (a n : Nat) (f : Bool) : (m.setTags a n f).cells = m.cells := by
  unfold Mem.setTags
  induction wordsAt a n generalizing m with
  | nil => rfl
  | cons w ws ih =>
    rw [List.foldl_cons, ih]
    unfold Mem.setTag
    split_ifs <;> rfl

theorem Mem.read_congr {m m' : Mem} (h : m'.cells = m.cells) (x : Nat) : m'.read x = m.read x := by
  unfold Mem.read
  rw [h]

theorem Mem.readBytes_congr {m m' : Mem} (h : m'.cells = m.cells) (a n : Nat) : m'.readBytes a n = m.readBytes a n :=
  List.map_congr_left fun _ _ => Mem.read_congr h _

theorem Mem.readBytes_writeBytes {m : Mem} (h : m.wf = true) (a : Nat) (bs : List Byte) :
    (m.writeBytes a bs).readBytes a bs.length = bs := by
  refine List.ext_getElem (by simp [Mem.readBytes]) fun k _ hk => ?_
  simp only [Mem.readBytes, List.getElem_map, List.getElem_range]
  exact Mem.read_writeBytes_same h a k bs hk

theorem Mem.clearPoison_cells (m : Mem) (a n : Nat) : (m.clearPoison a n).cells = m.cells := rfl

theorem laccWrite_cells (m : Mem) (a v : Nat) : (laccWrite m a v).cells = (m.writeBytes a (bytesOfNat 80 v)).cells := by
  rw [laccWrite, Mem.setTags_cells, Mem.clearPoison_cells]

theorem laccRead_laccWrite {m : Mem} (h : m.wf = true) (a v : Nat) : laccRead (laccWrite m a v) a = v % 2 ^ 640 := by
  have hbytes := Mem.readBytes_writeBytes h a (bytesOfNat 80 v)
  rw [length_bytesOfNat] at hbytes
  rw [laccRead, Mem.readBytes_congr (laccWrite_cells m a v), hbytes, natOfBytes_bytesOfNat]

theorem laccRead_lt (m : Mem) (a : Nat) : laccRead m a < 2 ^ 640 := natOfBytes_readBytes_lt m a 80

/-! ### The sum -/

theorem two_pow_640 : (2 : Nat) ^ 640 = 2 * 2 ^ 639 := by rw [← pow_succ']

theorem accValue_eq (x : Nat) : accValue x = (signedOf 640 x : Int) / 2 ^ 320 := by
  unfold accValue signedOf
  rw [two_pow_640]
  have h640 : (2 : ℚ) ^ 640 = 2 * 2 ^ 639 := by rw [← pow_succ']
  have h640' : (2 : Int) ^ 640 = 2 * 2 ^ 639 := by rw [← pow_succ']
  rw [h640, h640']
  generalize (2 : Nat) ^ 639 = N
  split_ifs with h h' h'
  · push_cast
    rfl
  · omega
  · omega
  · push_cast
    rfl

theorem signedOf_wrapTo {w : Nat} {v : Int} (hlo : -(2 ^ w : Nat) ≤ 2 * v) (hhi : 2 * v < (2 ^ w : Nat)) : signedOf w (wrapTo w v) = v := by
  unfold signedOf wrapTo
  have hcast : (2 : Int) ^ w = (2 ^ w : Nat) := by push_cast; rfl
  rw [hcast]
  generalize (2 : Nat) ^ w = N at *
  have hpos : (0 : Int) < N := by omega
  have hlt := Int.emod_lt_of_pos v hpos
  have hnn := Int.emod_nonneg v hpos.ne'
  have hmod : ((v % (N : Int)).toNat % N : Nat) = (v % (N : Int)).toNat := Nat.mod_eq_of_lt (by omega)
  rw [hmod]
  by_cases hneg : v < 0
  · have : v % (N : Int) = v + N := by
      rw [← Int.add_emod_right]
      exact Int.emod_eq_of_lt (by omega) (by omega)
    split_ifs <;> omega
  · have : v % (N : Int) = v := Int.emod_eq_of_lt (by omega) (by omega)
    split_ifs <;> omega

/-- The value of a new accumulator, by the sum of the integers at weight 2^-320. -/
theorem laccSum_cases (old : Nat) (k : Int) :
    (|signedOf 640 old + k| < 2 ^ 639 ∧ laccSum old k = (wrapTo 640 (signedOf 640 old + k), .none)) ∨
    (2 ^ 639 ≤ |signedOf 640 old + k| ∧ laccSum old k = (laccNar, .of)) := by
  have hdef : laccSum old k = if (2 ^ 639 : Int) ≤ signedOf 640 old + k ∨ signedOf 640 old + k ≤ -(2 ^ 639 : Int)
    then (laccNar, .of) else (wrapTo 640 (signedOf 640 old + k), .none) := rfl
  rw [hdef]
  by_cases h : (2 ^ 639 : Int) ≤ signedOf 640 old + k ∨ signedOf 640 old + k ≤ -(2 ^ 639 : Int)
  · exact .inr ⟨le_abs'.2 h.symm, if_pos h⟩
  · rw [not_or, not_le, not_le] at h
    exact .inl ⟨abs_lt.2 ⟨h.2, h.1⟩, if_neg (by rw [not_or, not_le, not_le]; exact h)⟩

theorem laccNar_lt : laccNar < 2 ^ 640 := by
  rw [laccNar, two_pow_640]
  have := Nat.two_pow_pos 639
  omega

/-- What an addition leaves, as a number: exact below 2^319 in magnitude, NaR from there on. -/
theorem laccSum_value (old : Nat) (k : Int) {v : ℚ} (hv : v = (k : ℚ) / 2 ^ 320) :
    (|accValue old + v| < 2 ^ 319 → (laccSum old k).1 % 2 ^ 640 ≠ laccNar ∧
      accValue ((laccSum old k).1 % 2 ^ 640) = accValue old + v ∧ (laccSum old k).2 = 0) ∧
    (2 ^ 319 ≤ |accValue old + v| → (laccSum old k).1 % 2 ^ 640 = laccNar) := by
  have hsum : accValue old + v = ((signedOf 640 old + k : Int) : ℚ) / 2 ^ 320 := by
    rw [accValue_eq, hv, ← add_div]
    push_cast
    rfl
  have hscale : (2 : ℚ) ^ 639 = 2 ^ 319 * 2 ^ 320 := by rw [← pow_add]
  have hpos : (0 : ℚ) < 2 ^ 320 := by positivity
  have hcmp : |accValue old + v| < 2 ^ 319 ↔ |signedOf 640 old + k| < 2 ^ 639 := by
    rw [hsum, abs_div, abs_of_pos hpos, div_lt_iff₀ hpos, ← hscale]
    exact_mod_cast Iff.rfl
  rcases laccSum_cases old k with ⟨hlt, e⟩ | ⟨hge, e⟩
  · refine ⟨fun _ => ?_, fun h => absurd (hcmp.2 hlt) (not_lt.2 h)⟩
    have hwrap : wrapTo 640 (signedOf 640 old + k) % 2 ^ 640 = wrapTo 640 (signedOf 640 old + k) := by
      refine Nat.mod_eq_of_lt ?_
      have hp : (0 : Int) < (2 ^ 640 : Nat) := by positivity
      have := Int.emod_lt_of_pos (signedOf 640 old + k) hp
      have := Int.emod_nonneg (signedOf 640 old + k) hp.ne'
      unfold wrapTo
      generalize (2 : Nat) ^ 640 = N at *
      omega
    obtain ⟨hlo, hhi⟩ := abs_lt.1 hlt
    have h640 : ((2 ^ 640 : Nat) : Int) = 2 * 2 ^ 639 := by rw [two_pow_640]; push_cast; rfl
    have hsigned : signedOf 640 (wrapTo 640 (signedOf 640 old + k)) = signedOf 640 old + k :=
      signedOf_wrapTo (by rw [h640]; linarith) (by rw [h640]; linarith)
    rw [e]
    dsimp only
    rw [hwrap]
    refine ⟨fun hnar => ?_, ?_, rfl⟩
    · have hself : signedOf 640 laccNar = -(2 ^ 639 : Int) := by
        unfold signedOf laccNar
        have h' : (2 : Int) ^ 640 = 2 * 2 ^ 639 := by rw [← pow_succ']
        have hcast : ((2 ^ 639 : Nat) : Int) = 2 ^ 639 := by push_cast; rfl
        rw [two_pow_640, h', Nat.mod_eq_of_lt (by have := Nat.two_pow_pos 639; omega), if_pos le_rfl, hcast]
        ring
      rw [hnar, hself] at hsigned
      exact absurd hlo (by rw [← hsigned]; exact lt_irrefl _)
    · rw [accValue_eq, hsigned, hsum]
  · refine ⟨fun h => absurd (hcmp.1 h) (not_lt.2 hge), fun _ => ?_⟩
    rw [e]
    exact Nat.mod_eq_of_lt laccNar_lt

/-! ### The operations on memory (R197, R198) -/

theorem alignTo_value {e0 e : Int} (h : e0 ≤ e) (s : Bool) (m : Nat) :
    (alignTo e0 s m e : ℚ) = (if s then -1 else 1) * m * 2 ^ (e - e0) := by
  obtain ⟨j, rfl⟩ : ∃ j : Nat, e = e0 + j := ⟨(e - e0).toNat, by omega⟩
  have hj : (e0 + (j : Int) - e0).toNat = j := by omega
  have hj' : e0 + (j : Int) - e0 = j := by ring
  unfold alignTo
  rw [hj, hj', zpow_natCast, Nat.shiftLeft_eq]
  cases s <;> simp

theorem fpDecode_f32_finite {x : Nat} {v : ℚ} (h : finiteValue .f32 x = some v) :
    ∃ s m e, fpDecode .f32 x = .fin s m e ∧ v = (if s then -1 else 1) * m * 2 ^ e ∧ -149 ≤ e := by
  unfold finiteValue at h
  split at h
  next s m e hd =>
    refine ⟨s, m, e, hd, (Option.some.inj h).symm, ?_⟩
    unfold fpDecode at hd
    dsimp only at hd
    split_ifs at hd with hmax hfr hzero
    · injection hd with _ _ he
      rw [← he]
      decide
    · injection hd with _ _ he
      rw [← he]
      have hb : Fmt.f32.bias = 127 := rfl
      have hm : (Fmt.f32.mb : Int) = 23 := rfl
      have hex : (1 : Int) ≤ (x / 2 ^ Fmt.f32.mb % 2 ^ Fmt.f32.eb : Nat) := by exact_mod_cast Nat.pos_of_ne_zero hzero
      linarith
  next => cases h

theorem fpDecode_f32_special {x : Nat} (h : finiteValue .f32 x = none) : ∀ s m e, fpDecode .f32 x ≠ .fin s m e := by
  intro s m e hd
  unfold finiteValue at h
  rw [hd] at h
  cases h

theorem laccAddFv_fin {old : Nat} (h : old ≠ laccNar) (s : Bool) (m : Nat) (e : Int) :
    laccAddFv old (some (.fin s m e)) = laccSum old (alignTo (-320) s m e) := if_neg h

theorem laccAddFv_nar (s : Bool) (m : Nat) (e : Int) : laccAddFv laccNar (some (.fin s m e)) = (laccNar, .none) := by
  unfold laccAddFv
  dsimp only
  rw [if_pos rfl]

/-- A value at weight 2^-320. -/
theorem alignTo_scaled {e : Int} (h : -320 ≤ e) (s : Bool) (m : Nat) :
    (if s then -1 else 1 : ℚ) * m * 2 ^ e = (alignTo (-320) s m e : ℚ) / 2 ^ 320 := by
  have hexp : (2 : ℚ) ^ (e - -320) = 2 ^ e * 2 ^ 320 := by
    rw [sub_neg_eq_add, zpow_add₀ two_ne_zero]
    rfl
  rw [alignTo_value h, hexp, ← mul_assoc, mul_div_cancel_right₀ _ (by positivity)]

/-- An operation that writes `r.1` where the sum of integers is `r`. -/
theorem lacc_adds {m : Mem} (hw : m.wf = true) (a : Nat) {o : LaccEff} {old : Nat} {k : Int} {v : ℚ} (hv : v = (k : ℚ) / 2 ^ 320)
    (ho : laccApply m o = (laccWrite m a (laccSum old k).1, (laccSum old k).2)) :
    (|accValue old + v| < 2 ^ 319 → laccRead (laccApply m o).1 a ≠ laccNar ∧
      accValue (laccRead (laccApply m o).1 a) = accValue old + v ∧ (laccApply m o).2 = 0) ∧
    (2 ^ 319 ≤ |accValue old + v| → laccRead (laccApply m o).1 a = laccNar) := by
  rw [ho]
  dsimp only
  rw [laccRead_laccWrite hw]
  exact laccSum_value old k hv

theorem lacc_sets_nar {m : Mem} (hw : m.wf = true) (a : Nat) {o : LaccEff} {fl : FlagSet}
    (ho : laccApply m o = (laccWrite m a laccNar, fl)) : laccRead (laccApply m o).1 a = laccNar ∧ (laccApply m o).2 = fl := by
  rw [ho]
  exact ⟨(laccRead_laccWrite hw a laccNar).trans (Nat.mod_eq_of_lt laccNar_lt), rfl⟩

theorem laccApply_add {m : Mem} {a : Nat} {x : BitVec 32} {s : Bool} {n : Nat} {e : Int} (hd : fpDecode .f32 x.toNat = .fin s n e) :
    laccApply m (.add a x) = (laccWrite m a (laccAddFv (laccRead m a) (some (.fin s n e))).1,
      (laccAddFv (laccRead m a) (some (.fin s n e))).2) := by
  rw [← hd]
  rfl

theorem laccApply_addp {m : Mem} {a : Nat} {x y : BitVec 32} {s t : Bool} {n k : Nat} {e g : Int}
    (hx : fpDecode .f32 x.toNat = .fin s n e) (hy : fpDecode .f32 y.toNat = .fin t k g) :
    laccApply m (.addp a x y) = (laccWrite m a (laccAddFv (laccRead m a) (some (.fin (s != t) (n * k) (e + g)))).1,
      (laccAddFv (laccRead m a) (some (.fin (s != t) (n * k) (e + g)))).2) := by
  show (laccWrite m a (laccAddFv (laccRead m a) (fvMul (fpDecode .f32 x.toNat) (fpDecode .f32 y.toNat))).1,
    (laccAddFv (laccRead m a) (fvMul (fpDecode .f32 x.toNat) (fpDecode .f32 y.toNat))).2) = _
  rw [hx, hy]
  rfl

theorem laccApply_mrg {m : Mem} {a b : Nat} (ha : laccRead m a ≠ laccNar) (hb : laccRead m b ≠ laccNar) :
    laccApply m (.mrg a b) = (laccWrite m a (laccSum (laccRead m a) (signedOf 640 (laccRead m b))).1,
      (laccSum (laccRead m a) (signedOf 640 (laccRead m b))).2) := by
  unfold laccApply
  dsimp only
  rw [if_neg hb, if_neg ha]

theorem laccApply_mrg_nar {m : Mem} {a b : Nat} (hb : laccRead m b = laccNar) :
    laccApply m (.mrg a b) = (laccWrite m a laccNar, .nv) := by
  unfold laccApply
  dsimp only
  rw [if_pos hb]

theorem laccApply_add_special {m : Mem} {a : Nat} {x : BitVec 32} (hx : finiteValue .f32 x.toNat = none) :
    laccApply m (.add a x) = (laccWrite m a laccNar, .nv) := by
  have hfv : laccAddFv (laccRead m a) (some (fpDecode .f32 x.toNat)) = (laccNar, .nv) := by
    cases hd : fpDecode .f32 x.toNat with
    | nan q => rfl
    | inf s => rfl
    | fin s n e => exact absurd hd (fpDecode_f32_special hx s n e)
  show (laccWrite m a (laccAddFv (laccRead m a) (some (fpDecode .f32 x.toNat))).1,
    (laccAddFv (laccRead m a) (some (fpDecode .f32 x.toNat))).2) = _
  rw [hfv]

/-- The operations on the memory that a chunk has committed. -/
theorem laccumulators_apply {m : Mem} {a b : Nat} {x y : BitVec 32} (hw : m.wf = true) (hold : laccRead m a ≠ laccNar) :
    let old := accValue (laccRead m a)
    let adds := fun (o : LaccEff) (v : ℚ) =>
      let new := laccRead (laccApply m o).1 a
      (|old + v| < 2 ^ 319 → new ≠ laccNar ∧ accValue new = old + v ∧ (laccApply m o).2 = 0) ∧
      (2 ^ 319 ≤ |old + v| → new = laccNar)
    laccRead (laccApply m (.clr a)).1 a = 0 ∧
    (∀ v, finiteValue .f32 x.toNat = some v → adds (.add a x) v) ∧
    (∀ v w, finiteValue .f32 x.toNat = some v → finiteValue .f32 y.toNat = some w → adds (.addp a x y) (v * w)) ∧
    (finiteValue .f32 x.toNat = none → laccRead (laccApply m (.add a x)).1 a = laccNar) ∧
    (laccRead m b ≠ laccNar → adds (.mrg a b) (accValue (laccRead m b))) ∧
    (laccRead m b = laccNar → laccRead (laccApply m (.mrg a b)).1 a = laccNar) := by
  intro old adds
  refine ⟨?clear, fun v hv => ?add, fun v w hv hw' => ?addp, fun hv => ?special, fun hb => ?merge, fun hb => ?mergeNar⟩
  case clear => exact (laccRead_laccWrite hw a 0).trans (Nat.zero_mod _)
  case add =>
    obtain ⟨s, n, e, hd, rfl, he⟩ := fpDecode_f32_finite hv
    have ho := laccApply_add (m := m) (a := a) hd
    rw [laccAddFv_fin hold] at ho
    exact lacc_adds hw a (alignTo_scaled (by omega) s n) ho
  case addp =>
    obtain ⟨s, n, e, hd, rfl, he⟩ := fpDecode_f32_finite hv
    obtain ⟨t, k, g, hd', rfl, hg⟩ := fpDecode_f32_finite hw'
    have ho := laccApply_addp (m := m) (a := a) hd hd'
    rw [laccAddFv_fin hold] at ho
    refine lacc_adds hw a (Eq.trans ?_ (alignTo_scaled (by omega) (s != t) (n * k))) ho
    rw [zpow_add₀ two_ne_zero]
    push_cast
    cases s <;> cases t <;> simp <;> ring
  case special => exact (lacc_sets_nar hw a (laccApply_add_special hv)).1
  case merge => exact lacc_adds hw a (accValue_eq _) (laccApply_mrg hold hb)
  case mergeNar => exact (lacc_sets_nar hw a (laccApply_mrg_nar hb)).1

theorem laccumulators_absorb {m : Mem} {a : Nat} {x : BitVec 32} {v : ℚ} (hw : m.wf = true) (hnar : laccRead m a = laccNar)
    (hv : finiteValue .f32 x.toNat = some v) :
    laccRead (laccApply m (.add a x)).1 a = laccNar ∧ (laccApply m (.add a x)).2 = 0 := by
  obtain ⟨s, n, e, hd, -, -⟩ := fpDecode_f32_finite hv
  have ho := laccApply_add (m := m) (a := a) hd
  rw [hnar, laccAddFv_nar] at ho
  exact lacc_sets_nar hw a ho

/-! ### The instructions (R369 to R371) -/

theorem length_addNew (a : Nat) (l : List Nat) : (addNew a l).length ≤ l.length + 1 := by
  unfold addNew
  split_ifs
  · omega
  · rfl

theorem length_foldl_addNew (as l : List Nat) : (as.foldl (fun l a => addNew a l) l).length ≤ l.length + as.length := by
  induction as generalizing l with
  | nil => rfl
  | cons a as ih =>
    have h := ih (addNew a l)
    have := length_addNew a l
    rw [List.foldl_cons, List.length_cons]
    omega

theorem mem_addNew {a k : Nat} {l : List Nat} : k ∈ addNew a l ↔ k = a ∨ k ∈ l := by
  unfold addNew
  split_ifs with h
  · have := List.contains_iff_mem.1 h
    constructor
    · exact .inr
    · rintro (rfl | h')
      · exact this
      · exact h'
  · exact List.mem_cons

theorem mem_foldl_addNew {k : Nat} {as l : List Nat} : k ∈ as.foldl (fun l a => addNew a l) l ↔ k ∈ l ∨ k ∈ as := by
  induction as generalizing l with
  | nil => simp
  | cons a as ih =>
    rw [List.foldl_cons, ih, mem_addNew, List.mem_cons]
    tauto

theorem length_linesOf_lacc (a : Nat) : (linesOf a 80).length ≤ 3 := by
  unfold linesOf
  rw [if_neg (by decide), List.length_map, List.length_range]
  omega

/-- The task once it holds an operation on the accumulator of `l`. -/
def heldLacc (c : Chunk) (t : Task) (l : Nat) (o : LaccEff) : Task :=
  { t with chunk := { t.chunk with log := t.chunk.log ++ [.lacc o], llines := (linesOf l 80).foldl (fun l x => addNew x l) c.llines } }

theorem holdLacc_room {s : State} (t : Task) (x : Word) (o : LaccEff) (hcount : laccCount s.cur.chunk < 32)
    (hlines : (s.cur.chunk.wlines ++ s.cur.chunk.llines).length < 62) :
    holdLacc s t x o = .next (retire s (heldLacc s.cur.chunk t (localOf x) o)) := by
  have h := length_foldl_addNew (linesOf (localOf x) 80) s.cur.chunk.llines
  have h' := length_foldl_addNew ((linesOf (localOf x) 80).foldl (fun l x => addNew x l) s.cur.chunk.llines) s.cur.chunk.wlines
  have h3 := length_linesOf_lacc (localOf x)
  rw [List.length_append] at hlines
  refine if_neg ?_
  rw [not_or, not_le, not_lt]
  exact ⟨hcount, by omega⟩

theorem laccChecked_none {s : State} {x : Word} (h : laccCause s x = none) (k : Out) : laccChecked s x k = k := by
  rw [laccChecked, h]

theorem laccChecked_some {s : State} {x : Word} {c : Nat} (h : laccCause s x = some c) (k : Out) :
    laccChecked s x k = .next (takeTrap s c 0 x false false) := by
  rw [laccChecked, h]
  rfl

/-- What an instruction that holds an operation leaves. -/
theorem holdLacc_holds {s : State} {i : Instr} {pops : Nat} {x : Word} {o : LaccEff}
    (hroom : laccCount s.cur.chunk < 32 ∧ (s.cur.chunk.wlines ++ s.cur.chunk.llines).length < 62)
    (hexec : exec i s = holdLacc s (popped s.cur pops) x o) :
    ∃ u, exec i s = .next u ∧ OnlyTask s u ∧ u.cur.chunk.log = s.cur.chunk.log ++ [.lacc o] ∧
      u.cur.ctx = (popped s.cur pops).retire.ctx ∧
      (∀ k, k ∈ u.cur.chunk.llines ↔ k ∈ s.cur.chunk.llines ∨ k ∈ linesOf (localOf x) 80) :=
  ⟨_, hexec.trans (holdLacc_room _ x o hroom.1 hroom.2), onlyTask_retire _ _, rfl, rfl, fun _ => mem_foldl_addNew⟩

/-! ### A number of a format fits in its bits -/

section
variable (f : Fmt) (neg : Bool)

theorem parts_lt {ex fr : Nat} (hex : ex < 2 ^ f.eb) (hfr : fr < 2 ^ f.mb) : f.signBit neg + ex * 2 ^ f.mb + fr < 2 ^ f.width := by
  have hlow : ex * 2 ^ f.mb + fr < 2 ^ (f.eb + f.mb) := by
    rw [pow_add]
    calc ex * 2 ^ f.mb + fr < ex * 2 ^ f.mb + 2 ^ f.mb := by omega
      _ = (ex + 1) * 2 ^ f.mb := (Nat.succ_mul ex _).symm
      _ ≤ 2 ^ f.eb * 2 ^ f.mb := Nat.mul_le_mul_right _ hex
  have hsign : f.signBit neg ≤ 2 ^ (f.eb + f.mb) := by
    unfold Fmt.signBit
    split_ifs <;> omega
  rw [Fmt.width, Nat.add_assoc 1, pow_add 2 1, pow_one]
  omega

theorem fpRound_lt (m : Nat) (e : Int) : (fpRound f .rne neg m e).1 < 2 ^ f.width := by
  have heb := Nat.two_pow_pos f.eb
  have hmb := Nat.two_pow_pos f.mb
  have hinf : f.infBits neg < 2 ^ f.width := parts_lt f neg (ex := f.emax) (by simp only [Fmt.emax]; omega) hmb
  by_cases hm : m = 0
  · rw [hm]
    have := parts_lt f neg heb hmb
    rwa [Nat.zero_mul, Nat.add_zero] at this
  have hle := roundMul_le f neg e hm
  have htwice : 2 ^ (f.mb + 1) = 2 * 2 ^ f.mb := by rw [pow_succ, mul_comm]
  unfold fpRound
  rw [if_neg hm, show max (topExp m e - f.mb) (f.emin - f.mb) = roundExp f m e from rfl]
  dsimp only
  obtain ⟨⟨n, ix⟩, hp⟩ : ∃ p, roundAt .rne neg m e (roundExp f m e) = p := ⟨_, rfl⟩
  rw [roundMul, hp] at hle
  rw [hp]
  dsimp only at hle ⊢
  by_cases hsmall : n < 2 ^ f.mb
  · rw [if_pos hsmall]
    have := parts_lt f neg heb hsmall
    rwa [Nat.zero_mul, Nat.add_zero] at this
  · rw [if_neg hsmall]
    have hemax : f.emax < 2 ^ f.eb := by simp only [Fmt.emax]; omega
    by_cases hover : n = 2 ^ (f.mb + 1)
    · rw [if_pos hover]
      dsimp only
      split_ifs
      · rw [overflowBits_rne]; exact hinf
      · exact parts_lt f neg (by omega) (by omega)
    · rw [if_neg hover]
      dsimp only
      split_ifs
      · rw [overflowBits_rne]; exact hinf
      · exact parts_lt f neg (by omega) (by omega)

theorem laccRound_lt (v : Nat) (hf : f.width ≤ 64) (hmb : 0 < f.mb) : (laccRound f v).1 < 2 ^ 64 := by
  refine lt_of_lt_of_le ?_ (Nat.pow_le_pow_right (by decide) hf)
  unfold laccRound
  split_ifs
  · have hmax : f.emax < 2 ^ f.eb := by
      have := Nat.two_pow_pos f.eb
      simp only [Fmt.emax]; omega
    have h := parts_lt f false hmax (Nat.pow_lt_pow_right (a := 2) (by decide) (Nat.sub_lt hmb Nat.one_pos))
    rwa [show f.signBit false = 0 from rfl, Nat.zero_add] at h
  · exact fpRound_lt f _ _ _

end

/-! ### The instructions together -/

/-- A task that raises flags. -/
def flagged (t : Task) (fl : FlagSet) : Task := { t with ctx := raiseFlags t.ctx fl }

theorem laccLoad_ready {s : State} {d a : Reg} (f : Fmt) (hf : f.width ≤ 64 ∧ 0 < f.mb) (hr : Ready s [a] [d])
    (hc : laccCause s (arg1 s a) = none) (hd : destRoom s.cur d = true) (hp : s.mem.anyPoison (localOf (arg1 s a)) 80 = false)
    {r : Nat × FlagSet} (hres : laccRound f (laccRead (laccView s.mem s.cur.chunk.log) (localOf (arg1 s a))) = r) :
    laccLoad s d a f = .next (arrived s (flagged (read1 s a) r.2) d (BitVec.ofNat 64 r.1)) := by
  have hlt : r.1 < 2 ^ 64 := hres ▸ laccRound_lt f _ hf.1 hf.2
  have hext : (BitVec.ofNat 64 r.1).zeroExtend 512 = BitVec.ofNat 512 r.1 := by
    apply BitVec.eq_of_toNat_eq
    rw [BitVec.toNat_setWidth, BitVec.toNat_ofNat, BitVec.toNat_ofNat, Nat.mod_eq_of_lt hlt]
  unfold laccLoad
  rw [gate_ready hr, takeG_first]
  dsimp only
  rw [laccChecked_none hc, hp, if_neg Bool.false_ne_true, loadRoom_destOf hd, hres, ← hext, deliver, deliverAt_destOf]
  rfl

/-- Settles O37: a long accumulator's operations are held, add exactly, and are rounded once. -/
theorem longAccumulators : Obligations.LongAccumulators := by
  refine ⟨fun s d a b => ?_, fun m a b x y => laccumulators_apply, fun m a x v => laccumulators_absorb⟩
  intro x l room holds
  refine ⟨fun hr hc hroom => ?clear, fun hr hc hroom => ⟨?add, fun hc' => ?merge⟩, fun hr hc hroom => ?addp, fun hr k hk => ?trap,
    fun hr hc hd hp => ?load⟩
  case clear =>
    have hexec : exec (.laccClr a) s = holdLacc s (read1 s a) x (.clr l) := by
      rw [exec_laccClr]
      unfold execLaccClr
      rw [gate_ready hr, takeG_first]
      exact laccChecked_none hc _
    rw [read1_eq_popped] at hexec
    rw [read1_eq_popped]
    exact holdLacc_holds hroom hexec
  case add =>
    have hexec : exec (.laccAdd a b) s = holdLacc s (read2 s a b) x (.add l ((arg2 s a b).truncate 32)) := by
      rw [exec_laccAdd]
      unfold execLaccAdd
      rw [gate_ready hr, takeG_first]
      dsimp only
      rw [takeG_second]
      exact laccChecked_none hc _
    rw [read2_eq_popped] at hexec
    rw [read2_eq_popped]
    exact holdLacc_holds hroom hexec
  case merge =>
    have hexec : exec (.laccMrg a b) s = holdLacc s (read2 s a b) x (.mrg l (localOf (arg2 s a b))) := by
      rw [exec_laccMrg]
      unfold execLaccMrg
      rw [gate_ready hr, takeG_first]
      dsimp only
      rw [takeG_second]
      exact (laccChecked_none hc _).trans (laccChecked_none hc' _)
    rw [read2_eq_popped] at hexec
    rw [read2_eq_popped]
    exact holdLacc_holds hroom hexec
  case addp =>
    have hexec : exec (.laccAddp d a b) s =
        holdLacc s (read3 s a b d) x (.addp l ((arg3 s a b d).truncate 32) ((arg2 s a b).truncate 32)) := by
      rw [exec_laccAddp]
      unfold execLaccAddp
      rw [gate_ready hr, takeG_first]
      dsimp only
      rw [takeG_second]
      dsimp only
      rw [takeG_third]
      exact laccChecked_none hc _
    rw [read3_eq_popped] at hexec
    rw [read3_eq_popped]
    exact holdLacc_holds hroom hexec
  case trap =>
    rw [exec_laccClr]
    unfold execLaccClr
    rw [gate_ready hr, takeG_first]
    exact laccChecked_some hk _
  case load =>
    exact ⟨(exec_laccRdF32 ..).trans (laccLoad_ready .f32 (by decide) hr hc hd hp rfl),
      (exec_laccRdF64 ..).trans (laccLoad_ready .f64 (by decide) hr hc hd hp rfl)⟩

end Sys2Proof.Machine
end

section
/-! PROOFS. The net instructions: a pool that another home-map entry holds up (R135, R238). -/

namespace Sys2Proof.Machine

/-! ### A state in which a net instruction waits for its pool (O38)

`PoolAt` asks of the entry of the pool alone that it is not being rewritten. The lookup waits for every home-map entry whose
range holds the address, valid or not: one that is not VALID and is being rewritten holds the instruction up. -/

/-- A pool of 64 KiB at 0x10000 (HMAP[5]), and an entry over the same range that is not VALID and is BUSY (HMAP[6]). -/
def rewrittenState : State := { State.reset with
  ctl := [(hmapOff 5 false, BitVec.ofNat 64 (2 ^ 63 + 2 ^ 61 + 16 * 2 ^ 45 + 1)), (hmapOff 6 false, BitVec.ofNat 64 (2 ^ 43 + 16 * 2 ^ 45 + 1))]
  cur := { Task.vacant 0 with key := 1, status := .resident 0, ctx := { Ctx.initial with g := Ctx.initial.g.set 4 0x10000 } } }

def rewrittenPool : HEntry := (regionAt rewrittenState 0x10000).getD ⟨0, 0, true, 0, 0, 0, 0, false, false, 0, 0, 0, 0⟩

theorem rewritten_pool : PoolAt rewrittenState rewrittenPool ∧ rewrittenPool.sealed = false := by decide +kernel

/-- The instruction waits, and a trap would end the task. -/
theorem rewritten_waits : (match exec (.nalloc 1 2) rewrittenState with | .next t => isTask t.cur | _ => false) = true ∧
    isTask (takeTrap rewrittenState 0x02 0 0 false false).cur = false := by decide +kernel

/-- Refutes O38: `nalloc` with the type 0 waits, and takes no trap of cause 0x02, where an entry over the pool's range that is not
VALID is being rewritten. -/
theorem not_nets : ¬ Obligations.Nets := by
  rintro ⟨h, -⟩
  obtain ⟨hpool, hseal⟩ := rewritten_pool
  obtain ⟨-, htrap, -⟩ := h rewrittenState rewrittenState rewrittenPool 1 2 0 hpool hseal
  obtain ⟨hwait, hend⟩ := rewritten_waits
  rw [htrap (by decide +kernel) (by decide +kernel)] at hwait
  exact absurd (hend.symm.trans hwait) (by decide)

end Sys2Proof.Machine
end

section
/-! PROOFS. The watchdog of a home: the abort of a chunk that has read the silo (R90, R213, R331, R458). -/

namespace Sys2Proof.Machine

/-! ### A state in which the watchdog of a home changes a byte of memory (O36)

The access that the home gives up was posted by a task that has ended, so that its cause goes to the host as a fault record, and the
silo counts the record at entry 2223. A running chunk that has read that entry aborts, and a node that it has allocated, for
which its core's crib keeps no list, goes back to the free list of its pool in memory. -/

/-- A posted access of an ended task that its home could perform since time 0. -/
def hungAccess : Waiter := ⟨1, 0, false, 0x10100, .tagr, .posted 0 0 .die 9, 0⟩

/-- A chunk that has read the silo's entry 2223 and allocated the node at offset 0x80 of pool 0. -/
def siloReader : Task := { Task.vacant 0 with
  key := 1, status := .resident 0
  chunk := { Chunk.begin Ctx.initial 0 true with rlines := [(0x2100000000 + 0x4000000 + 8 * 2223) / 64], allocs := [(0, 0x80)] } }

/-- The pool is HMAP[5], 64 KiB at 0x10000. -/
def hungState : State := { State.reset with
  ctl := [(hmapOff 5 false, BitVec.ofNat 64 (2 ^ 63 + 2 ^ 61 + 16 * 2 ^ 45 + 1))], time := 5000, cur := siloReader
  eng := { State.reset.eng with waiters := [hungAccess] } }

theorem hung_cells : (match exec (.engineWatchdog (.home 0 0x10100) 0) hungState with
  | .next t => decide (t.mem.cells = hungState.mem.cells)
  | _ => true) = false := by decide +kernel

/-- Refutes O36: where the watchdog of a home sends a fault record, a chunk that has read the silo's count of it aborts, and a node
that it had allocated goes back to its pool in memory. -/
theorem not_copies : ¬ Obligations.Copies := by
  rintro ⟨-, -, -, -, -, -, h⟩
  obtain ⟨-, -, hhome⟩ := h hungState 0 0 0x10100 0
  obtain ⟨t, ht, -, -, hmem⟩ := hhome hungAccess (by decide +kernel) rfl rfl (by decide +kernel) (by decide +kernel)
  have hcells := hung_cells
  rw [ht] at hcells
  exact absurd (decide_eq_true hmem) (ne_true_of_eq_false hcells)

end Sys2Proof.Machine
end

section
/-! PROOFS. The arrival of messages inside the package (R87, R106 to R108, R389). -/

namespace Sys2Proof.Machine

/-! ### What the arrival of a message leaves of those under way -/

theorem devWrite_fab (s : State) (a : Nat) (bs : List Byte) (tag : Option Bool) : (devWrite s a bs tag).fab = s.fab := by
  unfold devWrite
  split_ifs
  · rfl
  · exact (publish_onlyAborts _ _ _).fab

theorem siloAdd_fab (s : State) (i : Nat) : (siloAdd s i).fab = s.fab := (siloAdd_onlyAborts s i).fab

theorem devCtl_fab (s : State) (off : Nat) (w : Word) : (devCtl s off w).fab = s.fab := (publish_onlyAborts _ _ _).fab

theorem undqWrite_fab (s : State) (m : Msg) (moved : Bool) : (undqWrite s m moved).fab = s.fab := by
  unfold undqWrite
  dsimp only
  by_cases hbase : localOf (tenantWord s m.tenant 11) = 0
  · rw [if_pos hbase]
    exact siloAdd_fab s _
  · rw [if_neg hbase]
    split
    · exact (siloAdd_fab _ _).trans (devWrite_fab _ _ _ _)
    · exact (devWrite_fab _ _ _ _).trans (devWrite_fab _ _ _ _)

theorem sendFlit_netMsgs (s : State) (f : Flit) : (sendFlit s f).fab.netMsgs = s.fab.netMsgs := by
  unfold sendFlit
  dsimp only
  split_ifs <;> rfl

theorem hostRecord_netMsgs (s : State) (ti launch : Nat) (body : List Word) :
    (hostRecord s 3 ti launch body).fab.netMsgs = s.fab.netMsgs := by
  unfold hostRecord sendTracked sendKept
  rw [if_pos rfl]
  dsimp only
  split_ifs
  · rfl
  · exact sendFlit_netMsgs _ _

theorem bareFault_netMsgs (s : State) (tenant launch cause : Nat) (detail : Word) :
    (bareFault s tenant launch cause detail).fab.netMsgs = s.fab.netMsgs :=
  (congrArg Fab.netMsgs (siloAdd_fab _ _)).trans (hostRecord_netMsgs _ _ _ _)

/-! ### The steps of an arrival -/

section
variable {s : State} {src dst : Nat} {m : NetMsg} {ms : List NetMsg} (hq : s.fab.netMsgs = m :: ms) (hsrc : m.src = src)
  (hdst : m.dst = dst)
include hq hsrc hdst

theorem find_first : (s.fab.netMsgs.find? fun m => m.src == src && m.dst == dst) = some m := by
  rw [hq]
  simp [hsrc, hdst]

theorem mapFirst_some {f : NetMsg → Option NetMsg} {x : NetMsg} (hf : f m = some x) : mapFirstMsg src dst f s.fab.netMsgs = x :: ms := by
  rw [hq, mapFirstMsg, if_pos ⟨hsrc, hdst⟩, hf]

theorem mapFirst_none {f : NetMsg → Option NetMsg} (hf : f m = none) : mapFirstMsg src dst f s.fab.netMsgs = ms := by
  rw [hq, mapFirstMsg, if_pos ⟨hsrc, hdst⟩, hf]

end

/-- The machine in which a message of this cycle has met the handler table. -/
def metTable (s : State) : State := { s with sched := { s.sched with order := { s.sched.order with msg := some s.time } } }

/-- The machine once a message has been accepted. -/
def msgGone (v : State) (m : NetMsg) (ms : List NetMsg) : State :=
  if m.counted then lowerCounter { v with fab := { v.fab with netMsgs := ms } } m.src m.msg.tenant (msgClass m.src m.dst) false
  else { v with fab := { v.fab with netMsgs := ms } }

/-- A message held at its sender with twice a delay. -/
def backedOff (s : State) (m : NetMsg) (d : Nat) : NetMsg := { m with delay := nextDelay d, due := some (s.time + nextDelay d) }

section
variable {s : State} {m : NetMsg} {ms : List NetMsg} (hq : s.fab.netMsgs = m :: ms) (hdue : m.due = none)
include hq hdue

theorem takeNetMsg_accepted {v : State} (hv : v.fab.netMsgs = s.fab.netMsgs)
    (h : deliverMsg s m.dst m.msg.tenant m.msg.src m.msg.slot m.msg.tag m.msg.words m.msg.missing = some v) :
    takeNetMsg s m.src m.dst = msgGone v m ms := by
  unfold takeNetMsg
  rw [find_first hq rfl rfl]
  dsimp only
  rw [hdue, h]
  dsimp only [Option.isSome_none]
  rw [if_neg Bool.false_ne_true, mapFirst_none (s := v) (hv.trans hq) rfl rfl rfl]
  rfl

theorem takeNetMsg_held
    (h : deliverMsg s m.dst m.msg.tenant m.msg.src m.msg.slot m.msg.tag m.msg.words m.msg.missing = none) :
    takeNetMsg s m.src m.dst = { s with fab := { s.fab with netMsgs :=
      { m with delay := min 32768 (2 * m.delay), due := some (s.time + min 32768 (2 * m.delay)) } :: ms } } := by
  unfold takeNetMsg
  rw [find_first hq rfl rfl]
  dsimp only
  rw [hdue, h]
  dsimp only [Option.isSome_none]
  rw [if_neg Bool.false_ne_true]
  have hnext := mapFirst_some hq rfl rfl (f := fun x => some (backedOff s x m.delay)) rfl
  exact congrArg (fun q => { s with fab := { s.fab with netMsgs := q } }) hnext

end

/-- The message as it stands in the arrival buffer. -/
def bufferedMsg (s : State) (m : NetMsg) : Msg := { m.msg with entry := htabWord s m.msg.tenant m.msg.tag, time := s.time }

/-- The machine in which a message waits for its entry to be enabled. -/
def waitsEntry (v : State) (dst : Nat) (k : Msg) : State := { v with sched := { v.sched with enWait := v.sched.enWait ++ [(dst, k)] } }

section
variable {s : State} {m : NetMsg} (hen : coreEnabled s m.dst = true)
include hen

theorem deliverMsg_undelivered (h : bitOf (htabWord s m.msg.tenant m.msg.tag) 63 = false) :
    deliverMsg s m.dst m.msg.tenant m.msg.src m.msg.slot m.msg.tag m.msg.words m.msg.missing =
      some (bareFault (undqWrite (metTable s) (bufferedMsg s m) false) m.msg.tenant 0 0x0E
        (BitVec.ofNat 64 (m.msg.tag * 16 + m.msg.words.length))) :=
  (if_neg (by rw [Bool.not_eq_true']; exact ne_false_of_eq_true hen)).trans
    (if_pos (by rw [Bool.not_eq_true']; exact h))

variable (hvalid : bitOf (htabWord s m.msg.tenant m.msg.tag) 63 = true)
include hvalid

theorem deliverMsg_full (h : 16 ≤ bufferLen s m.dst) :
    deliverMsg s m.dst m.msg.tenant m.msg.src m.msg.slot m.msg.tag m.msg.words m.msg.missing = none :=
  (if_neg (by rw [Bool.not_eq_true']; exact ne_false_of_eq_true hen)).trans
    ((if_neg (by rw [Bool.not_eq_true']; exact ne_false_of_eq_true hvalid)).trans (if_pos h))

theorem deliverMsg_enabled (h : bufferLen s m.dst < 16) (hbit : bitOf (htabWord s m.msg.tenant m.msg.tag) 60 = true) :
    deliverMsg s m.dst m.msg.tenant m.msg.src m.msg.slot m.msg.tag m.msg.words m.msg.missing =
      some (placeMsg (metTable s) m.dst (bufferedMsg s m)) :=
  (if_neg (by rw [Bool.not_eq_true']; exact ne_false_of_eq_true hen)).trans
    ((if_neg (by rw [Bool.not_eq_true']; exact ne_false_of_eq_true hvalid)).trans
      ((if_neg (Nat.not_le.2 h)).trans (if_pos hbit)))

theorem deliverMsg_pended (h : bufferLen s m.dst < 16) (hbit : bitOf (htabWord s m.msg.tenant m.msg.tag) 60 = false) :
    deliverMsg s m.dst m.msg.tenant m.msg.src m.msg.slot m.msg.tag m.msg.words m.msg.missing =
      some (waitsEntry (devCtl (metTable s) (htabOff m.msg.tenant m.msg.tag) (htabWord s m.msg.tenant m.msg.tag ||| (1#64 <<< 59)))
        m.dst (bufferedMsg s m)) :=
  (if_neg (by rw [Bool.not_eq_true']; exact ne_false_of_eq_true hen)).trans
    ((if_neg (by rw [Bool.not_eq_true']; exact ne_false_of_eq_true hvalid)).trans
      ((if_neg (Nat.not_le.2 h)).trans (if_neg (ne_true_of_eq_false hbit))))

end

/-- The task that an arrived message creates. -/
def msgTask (s : State) (m : NetMsg) : Task :=
  { unstartedTask (metTable s) (messageBirth (metTable s) m.dst (bufferedMsg s m)) with key := s.nextKey }

theorem placeMsg_creates {s : State} {m : NetMsg} (hroom : queueFull s m.dst = false) (hnone : Tab.get s.sched.arrivals m.dst [] = []) :
    placeMsg (metTable s) m.dst (bufferedMsg s m) =
      { metTable s with nextKey := s.nextKey + 1, tasks := insertTask (msgTask s m) s.tasks } := by
  refine (if_neg ?_).trans rfl
  have hnone' : Tab.get (metTable s).sched.arrivals m.dst [] = [] := hnone
  have hroom' : queueFull (metTable s) m.dst = false := hroom
  rw [hnone', hroom']
  decide

/-- A held message, sent again where its backoff has passed. -/
def again (s : State) (m : NetMsg) : Option NetMsg := some (match m.due with
  | some t => if t ≤ s.time then { m with due := none } else m
  | none => m)

/-- Settles O41: an arrival does what the handler entry says, and a full buffer holds the message at its sender. -/
theorem messageArrivals : Obligations.MessageArrivals := by
  rintro s src dst m ms hq rfl rfl e i k s' gone
  have hexec : exec i s = .next (settle (observe (takeNetMsg s m.src m.dst))) := exec_messageArrival _ _
  have hgone {v : State} (hv : v.fab.netMsgs = s.fab.netMsgs) (hdue : m.due = none)
      (h : deliverMsg s m.dst m.msg.tenant m.msg.src m.msg.slot m.msg.tag m.msg.words m.msg.missing = some v) :
      exec i s = .next (gone v) := by
    rw [hexec, takeNetMsg_accepted hq hdue hv h]
    rfl
  refine ⟨fun hdue hen => ⟨fun hvalid => ?undelivered, fun hvalid hroom hbit hqueue hnone => ?enabled, fun hvalid hroom hbit => ?pended,
    fun hvalid hfull => ?full⟩, fun n hdue => ?resend⟩
  case undelivered =>
    exact hgone ((bareFault_netMsgs _ _ _ _ _).trans (congrArg Fab.netMsgs (undqWrite_fab _ _ _))) hdue
      (deliverMsg_undelivered hen hvalid)
  case enabled =>
    have hd := deliverMsg_enabled hen hvalid hroom hbit
    rw [placeMsg_creates hqueue hnone] at hd
    refine ⟨msgTask s m, hgone rfl hdue hd, rfl, rfl, rfl, rfl, rfl, rfl, ?_, rfl, rfl, rfl, rfl⟩
    show (BitVec.ofNat 16 (fieldNat (htabWord s m.msg.tenant m.msg.tag) 55 40)).toNat = _
    rw [BitVec.toNat_ofNat, fieldNat_eq, Nat.mod_mod]
  case pended => exact hgone (congrArg Fab.netMsgs (devCtl_fab _ _ _)) hdue (deliverMsg_pended hen hvalid hroom hbit)
  case full =>
    rw [hexec, takeNetMsg_held hq hdue (deliverMsg_full hen hvalid hfull)]
  case resend =>
    have hfirst (x : NetMsg) (hx : again s m = some x) : exec (.messageResend m.src m.dst) s =
        .next { s with fab := { s.fab with netMsgs := x :: ms } } := by
      rw [exec_messageResend]
      exact congrArg (fun q => Host.Outcome.next { s with fab := { s.fab with netMsgs := q } }) (mapFirst_some hq rfl rfl hx)
    constructor
    · intro h
      exact hfirst _ (by rw [again, hdue]; exact congrArg some (if_pos h))
    · intro h
      rw [hfirst m (by rw [again, hdue]; exact congrArg some (if_neg (Nat.not_le.2 h))), ← hq]

end Sys2Proof.Machine
end


section
/-! PROOFS. Fills of the instruction caches, the end of a background clear, acknowledgements of stores and the completion of
a launch (R83, R140, R143, R270, R305). -/

namespace Sys2Proof.Machine

variable {s : State}

/-! ### The filled line -/

theorem length_chunksOf (n : Nat) : ∀ (k : Nat) (bs : List Byte), (chunksOf n k bs).length = k
  | 0, _ => rfl
  | k + 1, bs => congrArg (· + 1) (length_chunksOf n k (bs.drop n))

theorem lineWords_getElem? (m : Mem) (line : Nat) {k : Nat} (hk : k < 16) :
    (lineWords m line)[k]? = some (BitVec.ofNat 32 (natOfBytes (m.readBytes (64 * line + 4 * k) 4))) := by
  simp [lineWords, hk]

/-- A filled line holds sixteen words, deciphered or not. -/
theorem length_filledLine_words (s : State) (t : Task) : (filledLine s t).words.length = 16 := by
  unfold filledLine
  dsimp only
  split_ifs
  · rw [List.length_map, length_chunksOf]
  · rw [lineWords, List.length_map, List.length_range]

/-- Outside the code class the line holds memory's words. -/
theorem filledLine_words_of_plain {t : Task}
    (h : ∀ e, regionAt s (64 * (localOf t.ctx.pc / 64)) = some e → e.cls ≠ 1) :
    (filledLine s t).words = lineWords s.mem (localOf t.ctx.pc / 64) := by
  unfold filledLine
  dsimp only
  cases hr : regionAt s (64 * (localOf t.ctx.pc / 64)) with
  | none => rfl
  | some e => exact if_neg (by simpa using h e hr)

theorem fillCause_local (hl : isLocal s s.cur.ctx.pc = false) : fillCause s s.cur = some 0x11 := by
  unfold fillCause
  rw [hl]
  rfl

/-- An address of this package under no launch's digest is judged by its region alone. -/
theorem fillCause_dram (hl : isLocal s s.cur.ctx.pc = true) (hi : s.cur.imgd = none)
    (hp : placeOf s (localOf s.cur.ctx.pc) = .dram) {o : Option HEntry} (hr : regionAt s (localOf s.cur.ctx.pc) = o) :
    (o = none → fillCause s s.cur = some 0x11) ∧
    (∀ e c, o = some e → sealCause s s.cur e = some c → fillCause s s.cur = some c) := by
  have hd : imgdCause s s.cur = none := by unfold imgdCause; rw [hi]
  unfold fillCause
  dsimp only
  rw [hl, hd, hp, hr]
  constructor
  · rintro rfl
    rfl
  · rintro e c rfl hc
    simp only [hc, Bool.not_true, Bool.false_eq_true, if_false]

theorem sealCause_revoked {t : Task} {e : HEntry} (h : bitOf (ctlGet s (sealOff e.n)) 62 = true) :
    sealCause s t e = some 0x08 := by
  simp only [sealCause, h, Bool.true_or, if_true]

theorem sealCause_unsealed {t : Task} {e : HEntry} (h : bitOf (ctlGet s (sealOff e.n)) 62 = false)
    (hn : e.n ≠ t.handle.toNat % 4096) (hs : e.sealed = false) : sealCause s t e = some 0x04 := by
  simp [sealCause, h, hn, hs]

/-- The instruction caches once a line stands in front, in the place of one held before. -/
def filledCaches (s : State) : List ICLine :=
  filledLine s s.cur :: s.eng.icache.filter fun x =>
    !(x.core == (filledLine s s.cur).core && x.line == (filledLine s s.cur).line && x.handle == (filledLine s s.cur).handle)

/-- The machine once the running task's line is filled. -/
def filled (s : State) : State :=
  { s with cur := { s.cur with imgd := none }, eng := { s.eng with icache := filledCaches s } }

theorem execIcacheFill_done (hf : fetchWord s s.cur = none) (hb : regionBusy s (localOf s.cur.ctx.pc) = false)
    (hc : fillCause s s.cur = none) : execIcacheFill s = .next (filled s) := by
  unfold execIcacheFill
  dsimp only
  rw [hf, hb, hc]
  rfl

theorem execIcacheFill_refused (hf : fetchWord s s.cur = none) (hb : regionBusy s (localOf s.cur.ctx.pc) = false) {c : Nat}
    (hc : fillCause s s.cur = some c) : execIcacheFill s = .next (takeTrap s c 0 s.cur.ctx.pc false false) := by
  unfold execIcacheFill
  dsimp only
  rw [hf, hb, hc]
  rfl

/-- An address outside this package raises a cause. -/
theorem isLocal_of_fillCause (hc : fillCause s s.cur = none) : isLocal s s.cur.ctx.pc = true := by
  by_contra hl
  rw [fillCause_local (by simpa using hl)] at hc
  cases hc

/-- The line filled is the one then fetched from. -/
theorem fetchWord_filled (hl : isLocal s s.cur.ctx.pc = true) :
    fetchWord (filled s) (filled s).cur = (filledLine s s.cur).words[localOf s.cur.ctx.pc % 64 / 4]? := by
  have hm : fetchLine (filled s) (filled s).cur = some (filledLine s s.cur) := by
    unfold fetchLine
    refine List.find?_cons_of_pos ?_
    simp only [filledLine, filled, beq_self_eq_true, Bool.true_and]
    exact hl
  unfold fetchWord
  rw [hm]
  rfl

theorem fills_hold : fillsClaim := by
  intro s hf hb
  have hw : localOf s.cur.ctx.pc % 64 / 4 < 16 := by omega
  refine ⟨fun hc => ⟨filled s, execIcacheFill_done hf hb hc, rfl, rfl, rfl, ?some, fun hp => ?word⟩,
    fun c hc => execIcacheFill_refused hf hb hc, fillCause_local, fun hl hi hp => ?causes⟩
  case some =>
    rw [fetchWord_filled (isLocal_of_fillCause hc), List.getElem?_eq_getElem (by rw [length_filledLine_words]; exact hw)]
    rfl
  case word =>
    have ha : 64 * (localOf s.cur.ctx.pc / 64) + 4 * (localOf s.cur.ctx.pc % 64 / 4) = 4 * (localOf s.cur.ctx.pc / 4) := by
      omega
    rw [fetchWord_filled (isLocal_of_fillCause hc), filledLine_words_of_plain hp, lineWords_getElem? _ _ hw, ha]
  case causes =>
    obtain ⟨hn, hs⟩ := fillCause_dram hl hi hp rfl
    exact ⟨hn, fun e he hv => hs e _ he (sealCause_revoked hv), fun e he hv hne hu => hs e _ he (sealCause_unsealed hv hne hu)⟩

/-! ### The end of a background clear -/

/-- The machine once a granule's clear has ended. -/
def cleared (s : State) (g : Nat) : State :=
  { s with mem := { s.mem with
      clearing := s.mem.clearing.filter (· != g)
      scrubbed := insertNat g s.mem.scrubbed } }

theorem unscrubbed_cleared_same (s : State) (g : Nat) : unscrubbed (cleared s g) g = false := by
  simp [unscrubbed, cleared, mem_insertNat]

theorem unscrubbed_cleared_other (s : State) {g q : Nat} (h : q ≠ g) : unscrubbed (cleared s g) q = unscrubbed s q := by
  have hm : (insertNat g s.mem.scrubbed).contains q = s.mem.scrubbed.contains q := by
    rw [Bool.eq_iff_iff, List.contains_iff_mem, List.contains_iff_mem, mem_insertNat]
    simp [h]
  simp only [unscrubbed, cleared, hm]

theorem clears_end (s : State) (g : Nat) (hg : g ∈ s.mem.clearing)
    (hu : ∀ t ∈ allTasks s, (0x2101000000 + g / 8) / 64 ∉ t.chunk.rlines ++ t.chunk.wlines) :
    ∃ t, exec (.scrubClearComplete g) s = .next t ∧ unscrubbed t g = false ∧ g ∉ t.mem.clearing ∧
      (∀ q, q ≠ g → unscrubbed t q = unscrubbed s q) ∧ (∀ a, t.mem.read a = s.mem.read a) ∧ t.ctl = s.ctl := by
  have hn : Unseen (cleared s g) (0x1000000 + g / 8) := by
    intro t ht
    have ha : 0x2100000000 + (0x1000000 + g / 8) = 0x2101000000 + g / 8 := by omega
    rw [ha]
    exact hu t ht
  have he : exec (.scrubClearComplete g) s = .next (observe (cleared s g)) := by
    rw [← ctlChanged_of_unseen hn]
    exact if_pos (List.contains_iff_mem.2 hg)
  refine ⟨_, he, unscrubbed_cleared_same s g, ?_, fun q hq => unscrubbed_cleared_other s hq, fun a => rfl, rfl⟩
  change g ∉ s.mem.clearing.filter (· != g)
  simp

/-! ### The end of a launch -/

/-- A launch whose tasks, gangs, nets and records are gone is over (R83). -/
theorem launchOver_of {l : Launch} (hb : l.begun = true) (hn : l.nets = []) (hu : l.unacked = 0)
    (ht : ∀ t ∈ allTasks s, t.rooted = true → ofLaunch l.ti l.number t = false)
    (hg : ∀ q ∈ s.sched.gangQ, ∀ g ∈ q.2, g.launch ≠ some (l.ti, l.number)) : launchOver s l = true := by
  have htask : (allTasks s).any (fun t => t.rooted && ofLaunch l.ti l.number t) = false := by
    simpa [List.any_eq_false] using ht
  have hgang : s.sched.gangQ.any (fun q => q.2.any fun g => g.rooted && g.launch == some (l.ti, l.number)) = false := by
    refine List.any_eq_false.2 fun q hq => ?_
    rw [Bool.not_eq_true, List.any_eq_false]
    intro g hm
    simp [hg q hq g hm]
  unfold launchOver
  rw [hb, hn, hu, htask, hgang]
  rfl

theorem launch_completes (s : State) (ti n : Nat) (l : Launch)
    (hf : s.sched.launches.find? (fun x => x.ti == ti && x.number == n) = some l) (hb : l.begun = true) (hn : l.nets = [])
    (hu : l.unacked = 0) (ht : ∀ t ∈ allTasks s, t.rooted = true → ofLaunch ti n t = false)
    (hg : ∀ q ∈ s.sched.gangQ, ∀ g ∈ q.2, g.launch ≠ some (ti, n)) : ∃ t r, exec (.launchCompletion ti n) s = .next t ∧
      t.sched.launches = s.sched.launches.erase l ∧ t.fab.outReqs = s.fab.outReqs ++ [r] ∧ r.flit.op = 8 ∧
      r.flit.dest = hostEp s ti ∧ r.flit.ti = ti ∧ r.flit.words = [envelope 2 3 ti n,
        BitVec.ofNat 64 (if l.status = 2 then 2 else if l.cancelled then 1 else 0), BitVec.ofNat 64 l.fatals,
        BitVec.ofNat 64 s.time] ∧ t.mem = s.mem := by
  have hl := List.find?_some hf
  simp only [Bool.and_eq_true, beq_iff_eq] at hl
  obtain ⟨hti, hnum⟩ := hl
  have ho : launchOver s l = true := launchOver_of hb hn hu (by rw [hti, hnum]; exact ht) (by rw [hti, hnum]; exact hg)
  obtain ⟨fab, r, hs, hr, hq⟩ := sendTracked_eq { s with sched := { s.sched with launches := s.sched.launches.erase l } } 0 0 ti
    (hostEp s ti) 2 0 8 [envelope 2 3 ti n, BitVec.ofNat 64 (if l.status = 2 then 2 else if l.cancelled then 1 else 0),
      BitVec.ofNat 64 l.fatals, BitVec.ofNat 64 s.time] none false
  have he : exec (.launchCompletion ti n) s = .next
      { s with sched := { s.sched with launches := s.sched.launches.erase l }, fab := fab } := by
    change execLaunchCompletion ti n s = _
    unfold execLaunchCompletion
    rw [hf]
    dsimp only
    rw [if_pos ho, ← hs]
    rfl
  refine ⟨_, r, he, rfl, hr, ?_⟩
  rw [hq]
  exact ⟨rfl, rfl, rfl, rfl, rfl⟩

/-- A home's acknowledgement lowers its class's counter alone (R140). -/
theorem store_acknowledged (s : State) (core tenant : Nat) (k : WaitClass) (hk : k = .near ∨ k = .die)
    (ho : postedOpen s core tenant k < (countersOf s core tenant).out k) : ∃ t, exec (.storeAck core tenant k) s = .next t ∧
      countersOf t core tenant = (countersOf s core tenant).mapOut k (· - 1) ∧ t.mem = s.mem ∧ t.fab = s.fab :=
  ⟨observe (lowerCounter s core tenant k false), if_pos ⟨hk, ho⟩, countersOf_setCounters _ _ _ _, rfl, rfl⟩

theorem completions_hold : completionsClaim :=
  ⟨fun _ _ hg => if_neg (by simpa using hg), clears_end, store_acknowledged, launch_completes⟩

/-- Settles O42: each of these steps once says what it leaves behind. -/
theorem fillsAndCompletions : Obligations.FillsAndCompletions := ⟨fills_hold, completions_hold⟩

end Sys2Proof.Machine
end


section
/-! PROOFS. Dispatch of tasks and gangs to slots (R85, R88, R89, R96, R97): what committed writes of the device leave of a task
whose chunk has not touched memory, the choice of the entry, and the gang's start. -/

namespace Sys2Proof.Machine

/-! ### Writes of the device beside a chunk that has entered no line -/

/-- The executing task has entered no line, and no other task has its key. -/
structure Apart (s : State) : Prop where
  task : isTask s.cur = true
  rlines : s.cur.chunk.rlines = []
  wlines : s.cur.chunk.wlines = []
  own : ∀ u ∈ s.tasks, u.key ≠ s.cur.key

/-- What a write of the device leaves of such a machine: of the executing task at most its wait slots change; what waits at a
home or in a queue, and the counts of dispatches, stay. -/
structure KeepsRun (s t : State) : Prop where
  cur : OnlySlots s t
  apart : Apart s → Apart t
  waiters : t.eng.waiters = s.eng.waiters
  holdQ : t.fab.holdQ = s.fab.holdQ
  dispatched : t.sched.dispatched = s.sched.dispatched

theorem KeepsRun.trans {s t u : State} (h : KeepsRun s t) (h' : KeepsRun t u) : KeepsRun s u where
  cur := by
    have ht := h.cur
    have hu := h'.cur
    unfold OnlySlots at *
    rw [hu, ht]
  apart := fun ha => h'.apart (h.apart ha)
  waiters := h'.waiters.trans h.waiters
  holdQ := h'.holdQ.trans h.holdQ
  dispatched := h'.dispatched.trans h.dispatched

theorem KeepsRun.quiet {s t : State} (h : KeepsRun s t) (hq : Quiet s) : Quiet t :=
  ⟨h.waiters.trans hq.1, h.holdQ.trans hq.2⟩

/-- A change beside the tasks and the queues keeps what runs. -/
theorem KeepsRun.of_eq {s t : State} (hc : t.cur = s.cur) (hl : t.tasks = s.tasks) (hw : t.eng.waiters = s.eng.waiters)
    (hh : t.fab.holdQ = s.fab.holdQ) (hd : t.sched.dispatched = s.sched.dispatched) : KeepsRun s t where
  cur := by unfold OnlySlots; rw [hc]
  apart := fun ⟨ht, hr, hw, ho⟩ => ⟨hc ▸ ht, hc ▸ hr, hc ▸ hw, by rw [hc, hl]; exact ho⟩
  waiters := hw
  holdQ := hh
  dispatched := hd

theorem focus_finds {s : State} {t : Task} (h : ∀ u ∈ s.tasks, u.key = t.key → u = t) (hm : t ∈ (park s).tasks)
    (hc : isTask s.cur = true → s.cur.key ≠ t.key) : (focus s t.key).cur = t ∧ ∀ u ∈ (focus s t.key).tasks, u.key ≠ t.key := by
  have hfind : (park s).tasks.find? (fun u => u.key == t.key) = some t := by
    cases hf : (park s).tasks.find? (fun u => u.key == t.key) with
    | none => exact absurd (List.find?_eq_none.1 hf t hm) (by simp)
    | some u =>
      have hk : u.key = t.key := by simpa using List.find?_some hf
      have hu := List.mem_of_find?_eq_some hf
      unfold park at hu
      dsimp only at hu
      split_ifs at hu with hi
      · rcases mem_insertTask.1 hu with rfl | hu
        · exact absurd hk (hc hi)
        · rw [h u hu hk]
      · rw [h u hu hk]
  have hn : (isTask s.cur && s.cur.key == t.key) = false := by
    cases hi : isTask s.cur with
    | false => rfl
    | true => simpa using hc hi
  unfold focus
  rw [hn, if_neg (by decide)]
  dsimp only
  rw [hfind]
  exact ⟨rfl, fun u hu => by simpa using (List.mem_filter.1 hu).2⟩

/-- An operation on another task, which keeps that task's key and its being one, leaves the executing task as it is and the key
its own. -/
theorem onTask_other {s : State} {k : Nat} {f : State → State} (hi : isTask s.cur = true) (hk : k ≠ s.cur.key)
    (ho : ∀ u ∈ s.tasks, u.key ≠ s.cur.key)
    (hf : ∀ v, (f v).tasks = v.tasks ∧ (f v).cur.key = v.cur.key ∧ (f v).cur.status = v.cur.status) :
    (onTask s k f).cur = s.cur ∧ ∀ u ∈ (onTask s k f).tasks, u.key ≠ s.cur.key := by
  have hn : (isTask s.cur && s.cur.key == k) = false := by
    rw [hi, Bool.true_and, beq_eq_false_iff_ne]
    exact hk.symm
  have hpark : (park s).tasks = insertTask s.cur s.tasks := if_pos hi
  have hfocus : s.cur ∈ (focus s k).tasks ∧ (∀ u ∈ (focus s k).tasks, u.key = s.cur.key → u = s.cur) ∧
      (isTask (focus s k).cur = true → (focus s k).cur.key = k) := by
    have hmem : ∀ u ∈ (park s).tasks, u.key = s.cur.key → u = s.cur := by
      intro u hu he
      rw [hpark] at hu
      rcases mem_insertTask.1 hu with h | h
      · exact h
      · exact absurd he (ho u h)
    have hself : s.cur ∈ (park s).tasks := by rw [hpark]; exact mem_insertTask.2 (.inl rfl)
    unfold focus
    rw [hn, if_neg (by decide)]
    dsimp only
    split
    next t hf =>
      exact ⟨List.mem_filter.2 ⟨hself, by simpa using hk.symm⟩, fun u hu => hmem u (List.mem_filter.1 hu).1,
        fun _ => by simpa using List.find?_some hf⟩
    next => exact ⟨hself, hmem, fun h => absurd (show isTask (Task.vacant s.cur.core) = true from h) Bool.false_ne_true⟩
  obtain ⟨hself, huniq, hkey⟩ := hfocus
  obtain ⟨htasks, hfkey, hfstat⟩ := hf (focus s k)
  have hitask : isTask (f (focus s k)).cur = isTask (focus s k).cur := by unfold isTask; rw [hfstat]
  unfold onTask
  rw [hn, if_neg (by decide)]
  dsimp only
  rw [if_pos hi]
  refine focus_finds (by rw [htasks]; exact huniq) ?_ fun h => ?_
  · unfold park
    dsimp only
    split_ifs
    · exact mem_insertTask.2 (.inr (by rw [htasks]; exact hself))
    · rw [htasks]; exact hself
  · rw [hfkey, hkey (hitask ▸ h)]
    exact hk

/-- The fold that gives an aborted chunk's nodes back leaves the tasks. -/
theorem foldl_tasks {α β : Type} {F : State × β → α → State × β} (hF : ∀ acc a, (F acc a).1.tasks = acc.1.tasks)
    (l : List α) (acc : State × β) : (l.foldl F acc).1.tasks = acc.1.tasks := by
  induction l generalizing acc with
  | nil => rfl
  | cons a l ih => exact (ih _).trans (hF acc a)

theorem abortCur_task (s : State) : (abortCur s).1.tasks = s.tasks ∧ (abortCur s).1.cur.key = s.cur.key ∧
    (abortCur s).1.cur.status = s.cur.status := by
  refine ⟨?_, rfl, rfl⟩
  unfold abortCur
  dsimp only
  refine (foldl_tasks (fun acc a => ?_) _ (_, _)).trans rfl
  split
  · rfl
  · rfl
  · split_ifs <;> rfl

theorem publishFuel_apart (n : Nat) {s : State} (ls : List Nat) (ha : Apart s) :
    (publishFuel n s 0 ls).cur = s.cur ∧ Apart (publishFuel n s 0 ls) := by
  induction n generalizing s ls with
  | zero => exact ⟨rfl, ha⟩
  | succ n ih =>
    have hfold : ∀ (vs : List Task) (acc : State × List Nat), (∀ u ∈ vs, u.key ≠ acc.1.cur.key) → Apart acc.1 →
        let out := vs.foldl (fun (acc : State × List Nat) t =>
          (onTask acc.1 t.key fun s => (abortCur s).1, (abortCur (focus acc.1 t.key)).2 ++ acc.2)) acc
        out.1.cur = acc.1.cur ∧ Apart out.1 := by
      intro vs
      induction vs with
      | nil => exact fun acc _ h => ⟨rfl, h⟩
      | cons u vs ihv =>
        intro acc hv hacc
        obtain ⟨hc, ho⟩ := onTask_other (f := fun s => (abortCur s).1) hacc.task (hv u (.head _)) hacc.own abortCur_task
        obtain ⟨hcur, hap⟩ := ihv (onTask acc.1 u.key fun s => (abortCur s).1, (abortCur (focus acc.1 u.key)).2 ++ acc.2)
          (fun w hw => by rw [hc]; exact hv w (.tail _ hw))
          ⟨by rw [hc]; exact hacc.task, by rw [hc]; exact hacc.rlines, by rw [hc]; exact hacc.wlines, by rw [hc]; exact ho⟩
        exact ⟨hcur.trans hc, hap⟩
    have hvict : ∀ u ∈ (allTasks s).filter fun t =>
        t.key != 0 && !runsSerial s t && meet ls (t.chunk.rlines ++ t.chunk.wlines), u.key ≠ s.cur.key := by
      intro u hu
      obtain ⟨hu, hm⟩ := List.mem_filter.1 hu
      rcases mem_allTasks.1 hu with ⟨-, rfl⟩ | hu
      · rw [ha.rlines, ha.wlines] at hm
        simp [meet] at hm
      · exact ha.own u hu
    obtain ⟨hcur, hap⟩ := hfold _ (s, []) hvict ha
    unfold publishFuel
    dsimp only
    split_ifs
    · exact ⟨hcur, hap⟩
    · obtain ⟨hcur', hap'⟩ := ih _ hap
      exact ⟨hcur'.trans hcur, hap'⟩

/-- A line that the device commits aborts only the chunks of others. -/
theorem publish_keepsRun {s : State} (ls : List Nat) (ha : Apart s) : KeepsRun s (publish s 0 ls) where
  cur := by unfold OnlySlots; rw [publish, (publishFuel_apart _ ls ha).1]
  apart := fun _ => (publishFuel_apart _ ls ha).2
  waiters := by rw [(publish_onlyAborts s 0 ls).eq]
  holdQ := by rw [(publish_onlyAborts s 0 ls).fab]
  dispatched := by rw [(publish_onlyAborts s 0 ls).eq]

theorem observe_keepsRun (s : State) : KeepsRun s (observe s) where
  cur := observe_onlySlots s
  apart := fun ⟨ht, hr, hw, ho⟩ => by
    have hc : (observe s).cur = { s.cur with waits := (observe s).cur.waits, inline := (observe s).cur.inline } :=
      observe_onlySlots s
    refine ⟨by rw [hc]; exact ht, by rw [hc]; exact hr, by rw [hc]; exact hw, fun u hu => ?_⟩
    obtain ⟨v, hv, rfl⟩ := List.mem_map.1 hu
    rw [hc]
    exact ho v hv
  waiters := rfl
  holdQ := rfl
  dispatched := rfl

theorem ctlChanged_keepsRun {s : State} (off : Nat) (ha : Apart s) : KeepsRun s (ctlChanged s off) :=
  (publish_keepsRun _ ha).trans (observe_keepsRun _)

/-- The machine as a write of the device leaves memory, before its lines are published. -/
def writtenHome (s : State) (a : Nat) (bs : List Byte) : State :=
  let r := jobDone (reach s (linesOf a bs.length))
  { r with mem := ((r.mem.writeBytes a bs).clearPoison a bs.length).setTags a bs.length true }

theorem devWrite_keepsRun {s : State} (a : Nat) (bs : List Byte) (ha : Apart s) : KeepsRun s (devWrite s a bs (some true)) := by
  unfold devWrite
  split_ifs
  · exact .of_eq rfl rfl rfl rfl rfl
  · have hw : KeepsRun s (writtenHome s a bs) := .of_eq rfl rfl rfl rfl rfl
    exact (hw.trans (publish_keepsRun _ (hw.apart ha))).trans (observe_keepsRun _)

theorem saveState_keepsRun {s : State} (t : Task) (code : Nat) (ha : Apart s) : KeepsRun s (saveState s t code) := by
  unfold saveState
  split
  · exact .of_eq rfl rfl rfl rfl rfl
  · exact devWrite_keepsRun _ _ ha

/-! ### The choice of the entry (R88) -/

theorem dispatchedBefore_prio {s : State} {t u : Task} : (dispatchedBefore s t u = true → t.prio ≤ u.prio) ∧
    (dispatchedBefore s t u = false → u.prio ≤ t.prio) := by
  by_cases h : t.prio = u.prio
  · exact ⟨fun _ => h.le, fun _ => h.ge⟩
  · unfold dispatchedBefore
    simp only [ne_eq, h, not_false_eq_true, if_true, decide_eq_true_eq, decide_eq_false_iff_not]
    omega

theorem foldl_dispatchedBefore (s : State) (ts : List Task) (t : Task) :
    let c := ts.foldl (fun b u => if dispatchedBefore s u b then u else b) t
    c ∈ t :: ts ∧ ∀ u ∈ t :: ts, c.prio ≤ u.prio := by
  induction ts generalizing t with
  | nil => simp
  | cons v vs ih =>
    dsimp only at ih ⊢
    rw [List.foldl_cons]
    obtain ⟨hb, hnb⟩ := dispatchedBefore_prio (s := s) (t := v) (u := t)
    by_cases h : dispatchedBefore s v t = true
    · rw [if_pos h]
      obtain ⟨hm, hp⟩ := ih v
      refine ⟨List.mem_cons_of_mem _ hm, List.forall_mem_cons.2 ⟨(hp v (.head _)).trans (hb h), hp⟩⟩
    · rw [if_neg h]
      obtain ⟨hm, hp⟩ := ih t
      have hv := hnb (by simpa using h)
      obtain ⟨ht, hvs⟩ := List.forall_mem_cons.1 hp
      refine ⟨?_, List.forall_mem_cons.2 ⟨ht, List.forall_mem_cons.2 ⟨ht.trans hv, hvs⟩⟩⟩
      rcases List.mem_cons.1 hm with h | h
      · exact List.mem_cons.2 (.inl h)
      · exact .tail _ (.tail _ h)

/-- The entry taken is one that can be dispatched, and none of those is of a better priority. -/
theorem dispatchChoice_best {s : State} {core : Nat} {c : Task} (h : dispatchChoice s core = some c) :
    dispatchable s core c = true ∧ ∀ u ∈ allTasks s, dispatchable s core u = true → c.prio ≤ u.prio := by
  unfold dispatchChoice at h
  split at h
  next => cases h
  next t ts hl =>
    have hc := Option.some.inj h
    obtain ⟨hm, hp⟩ := foldl_dispatchedBefore s ts t
    rw [← hl, hc] at hm hp
    exact ⟨(List.mem_filter.1 hm).2, fun u hu hd => hp u (List.mem_filter.2 ⟨hu, hd⟩)⟩

/-- What can be dispatched is a task. -/
theorem isTask_of_dispatchable {s : State} {core : Nat} {t : Task} (h : dispatchable s core t = true) : isTask t = true := by
  by_contra hv
  have hs : t.status = .vacant := by simpa [isTask] using hv
  simp [dispatchable, hs] at h

/-- The entry that is taken, as it enters its slot. -/
def entersSlot (core tenant slot : Nat) (v : State) : State :=
  if v.cur.started then againDispatch v slot
  else match freeNumber v core tenant with
    | none => v
    | some k => firstDispatch v slot k

theorem entersSlot_first {s : State} {core tenant k : Nat} (slot : Nat) (hs : s.cur.started = false)
    (hk : freeNumber s core tenant = some k) : entersSlot core tenant slot s = firstDispatch s slot k := by
  unfold entersSlot
  rw [hs, hk]
  rfl

theorem entersSlot_again {s : State} (core tenant slot : Nat) (hs : s.cur.started = true) :
    entersSlot core tenant slot s = againDispatch s slot := if_pos hs

theorem execDispatch_takes {s : State} {core slot : Nat} {c : Task} (hf : slot ∈ freeSlots s core)
    (hh : slotsHeld s core = false) (he : coreEnabled s core = true) (hc : s.sched.order.cancel ≠ some s.time)
    (hd : dispatchChoice s core = some c) : exec (.dispatch core slot) s =
      .next (drainArrivals (onTask s c.key (entersSlot core c.tenant slot)) core) := by
  change execDispatch core slot s = _
  unfold execDispatch
  rw [if_neg (by simp [hf, hh, he, hc]), hd]
  rfl

/-! ### A task enters its slot (R85, R89) -/

/-- A new task as it enters its slot, before its block is written. -/
def firstEntered (s : State) (slot k : Nat) : State :=
  let n := dispatchCount s s.cur.core
  let c := setG s.cur.ctx 3 (globalOf s (taskBlock s s.cur.tenant s.cur.core k))
  modCur { s with sched := { s.sched with dispatched := Tab.set s.sched.dispatched s.cur.core (n + 1) } } fun t =>
    { t with number := k, started := true, startTime := s.time, taskId := BitVec.ofNat 64 (s.cur.core * 2 ^ 38 + n % 2 ^ 38)
             ctx := c, status := .resident slot, since := s.time, dispatched := s.nextKey, chunk := Chunk.begin c s.time true }

/-- The machine once its block is written, where the tenant has task blocks. -/
def firstBlock (s : State) (slot k : Nat) : State :=
  let b := taskBlock s s.cur.tenant s.cur.core k
  let t := (firstEntered s slot k).cur
  let words := [t.taskId, BitVec.ofNat 64 (t.prio * 2 ^ 6 + kindNum t.kind), t.origin, t.owner, getG t.ctx 10, getG t.ctx 11,
    getG t.ctx 12, getG t.ctx 13]
  if localOf (tenantWord s s.cur.tenant 2) = 0 then firstEntered s slot k
  else devWrite (firstEntered s slot k) b (bytesOfWords words) (some true)

theorem firstDispatch_eq (s : State) (slot k : Nat) : firstDispatch s slot k =
    settle (ctlChanged (saveState (bumpKey (firstBlock s slot k)) (firstBlock s slot k).cur 3)
      (sealUseOff (s.cur.handle.toNat % 4096))) := rfl

/-- The writes of a first dispatch leave the task as it entered its slot. -/
theorem firstDispatch_keepsRun {s : State} (slot k : Nat) (ho : ∀ u ∈ s.tasks, u.key ≠ s.cur.key) (hq : Quiet s) :
    KeepsRun (firstEntered s slot k) (firstDispatch s slot k) := by
  have hstart : Apart (firstEntered s slot k) := ⟨rfl, rfl, rfl, ho⟩
  have hblock : KeepsRun (firstEntered s slot k) (firstBlock s slot k) := by
    unfold firstBlock
    dsimp only
    split_ifs
    · exact .of_eq rfl rfl rfl rfl rfl
    · exact devWrite_keepsRun _ _ hstart
  have hkey := hblock.trans (.of_eq rfl rfl rfl rfl rfl : KeepsRun (firstBlock s slot k) (bumpKey (firstBlock s slot k)))
  have hsave := hkey.trans (saveState_keepsRun (firstBlock s slot k).cur 3 (hkey.apart hstart))
  have hall := hsave.trans (ctlChanged_keepsRun (sealUseOff (s.cur.handle.toNat % 4096)) (hsave.apart hstart))
  rw [firstDispatch_eq, settle_quiet (hall.quiet hq)]
  exact hall

theorem firstDispatch_entered (s : State) (slot k : Nat) (ho : ∀ u ∈ s.tasks, u.key ≠ s.cur.key) (hq : Quiet s)
    (hn : dispatchCount s s.cur.core < 2 ^ 38) :
    (firstDispatch s slot k).cur.status = .resident slot ∧ (firstDispatch s slot k).cur.started = true ∧
    (firstDispatch s slot k).cur.number = k ∧
    (firstDispatch s slot k).cur.taskId = BitVec.ofNat 64 (s.cur.core * 2 ^ 38 + dispatchCount s s.cur.core) ∧
    (firstDispatch s slot k).cur.startTime = s.time ∧
    (firstDispatch s slot k).cur.ctx = setG s.cur.ctx 3 (globalOf s (taskBlock s s.cur.tenant s.cur.core k)) ∧
    dispatchCount (firstDispatch s slot k) s.cur.core = dispatchCount s s.cur.core + 1 := by
  have h := firstDispatch_keepsRun slot k ho hq
  have hc : (firstDispatch s slot k).cur = { (firstEntered s slot k).cur with
      waits := (firstDispatch s slot k).cur.waits, inline := (firstDispatch s slot k).cur.inline } := h.cur
  have hcount : dispatchCount (firstDispatch s slot k) s.cur.core = dispatchCount s s.cur.core + 1 := by
    rw [dispatchCount, h.dispatched]
    exact Tab.get_set_same _ _ _ _
  refine ⟨?_, ?_, ?_, ?_, ?_, ?_, hcount⟩ <;> rw [hc]
  · rfl
  · rfl
  · rfl
  · change BitVec.ofNat 64 (s.cur.core * 2 ^ 38 + dispatchCount s s.cur.core % 2 ^ 38) = _
    rw [Nat.mod_eq_of_lt hn]
  · rfl
  · rfl

/-- A task started before, of a tenant without save records, as it enters its slot. -/
def againEntered (s : State) (slot : Nat) : State :=
  let t := keepLatches s.cur
  let u := { t with status := .resident slot, dispatched := s.nextKey, since := s.time, resumed := true }
  bumpKey { s with cur := if t.status = .yielded then u.newChunk s.time else { u with chunk := { u.chunk with start := u.ctx } } }

theorem againDispatch_eq {s : State} {slot : Nat} (hq : Quiet s) (hi : s.cur.inline = none)
    (hr : saveRec s s.cur.tenant s.cur.core s.cur.number = none) : againDispatch s slot = againEntered s slot := by
  have hbase : localOf (tenantWord s s.cur.tenant 3) = 0 := by
    unfold saveRec at hr
    by_contra h
    simp [h] at hr
  have hrec : ∀ (v : State) (tenant core k : Nat), v.ctl = s.ctl → tenant = s.cur.tenant → saveRec v tenant core k = none := by
    rintro v tenant core k hv rfl
    have hw : tenantWord v s.cur.tenant 3 = tenantWord s s.cur.tenant 3 := by unfold tenantWord ctlGet; rw [hv]
    unfold saveRec
    rw [hw]
    exact if_pos hbase
  have hmod : againDispatch s slot = settle (saveState (againEntered s slot) (againEntered s slot).cur 3) := by
    unfold againDispatch againEntered
    dsimp only [modCur, keepLatches]
    rw [hi]
    simp only [hrec]
    rfl
  have hten : (againEntered s slot).cur.tenant = s.cur.tenant := by
    unfold againEntered
    dsimp only [bumpKey]
    split_ifs <;> rfl
  rw [hmod, saveState, hrec (againEntered s slot) _ _ _ rfl hten]
  exact settle_quiet hq

theorem againDispatch_entered (s : State) (slot : Nat) (hq : Quiet s) (hi : s.cur.inline = none)
    (hr : saveRec s s.cur.tenant s.cur.core s.cur.number = none) :
    (againDispatch s slot).cur.status = .resident slot ∧ (againDispatch s slot).cur.ctx = s.cur.ctx ∧
    (againDispatch s slot).cur.taskId = s.cur.taskId ∧
    (∀ k, (h : k < 4) → (againDispatch s slot).cur.waits[k].sat = (s.cur.waits[k].sat || s.cur.waits[k].seen)) := by
  have hw : (againEntered s slot).cur.waits = (keepLatches s.cur).waits := by
    unfold againEntered
    dsimp only [bumpKey]
    split_ifs <;> rfl
  rw [againDispatch_eq hq hi hr]
  refine ⟨?_, ?_, ?_, fun k hk => ?_⟩
  · unfold againEntered; dsimp only [bumpKey]; split_ifs <;> rfl
  · unfold againEntered; dsimp only [bumpKey]; split_ifs <;> rfl
  · unfold againEntered; dsimp only [bumpKey]; split_ifs <;> rfl
  · simp [hw, keepLatches]

/-! ### Gangs (R96, R97) -/

/-- A gang that starts stands among the gangs, and no request of its number is left in its queue. -/
theorem startGang_started (s : State) (cluster : Nat) (q : GangReq) :
    (∃ g ∈ (startGang s cluster q).sched.gangs, g.id = q.id ∧ g.cl = q.cl ∧ g.target = q.target ∧ g.tenant = q.tenant) ∧
    (∀ x ∈ gangQueue (startGang s cluster q) cluster, x.id ≠ q.id) := by
  unfold startGang
  dsimp only
  refine ⟨⟨_, List.mem_append_right _ (.head _), rfl, rfl, rfl, rfl⟩, fun x hx => ?_⟩
  unfold gangQueue at hx
  dsimp only at hx
  rw [Tab.get_set_same] at hx
  simpa using (List.mem_filter.1 hx).2

theorem gangs_dispatched (s : State) (cluster : Nat) (q : GangReq) (qs : List GangReq) (hh : headRequests s cluster = q :: qs) :
    ((waitingGangs s cluster).find? (canReseat s) = none → canReserve s q = true →
      exec (.gangReserve cluster) s = .next (startGang s cluster q) ∧
      (∃ g ∈ (startGang s cluster q).sched.gangs, g.id = q.id ∧ g.cl = q.cl ∧ g.target = q.target ∧
        g.tenant = q.tenant) ∧
      (∀ x ∈ gangQueue (startGang s cluster q) cluster, x.id ≠ q.id)) ∧
    (q.since + 65536 ≤ s.time → (∀ h ∈ s.sched.slotHolds, h.2 ≠ q.id) → exec (.gangSlotHold cluster) s =
      .next { s with sched := { s.sched with slotHolds := s.sched.slotHolds ++
        (if q.cl then (List.range 16).map fun i => (16 * q.target + i, q.id)
         else (List.range 8).map fun i => (8 * q.target + i, q.id)) } }) ∧
    (s.time < q.since + 65536 → exec (.gangSlotHold cluster) s = .next s) := by
  refine ⟨fun hw hr => ⟨?_, startGang_started s cluster q⟩, fun ht hn => ?_, fun ht => ?_⟩
  · change execGangReserve cluster s = _
    unfold execGangReserve
    rw [hw, hh, List.find?_cons_of_pos hr]
  · have hcores : (memberCores q.cl q.target).map (fun c => (c, q.id)) =
        if q.cl then (List.range 16).map fun i => (16 * q.target + i, q.id)
        else (List.range 8).map fun i => (8 * q.target + i, q.id) := by
      unfold memberCores
      split_ifs
      · rw [List.map_map]; rfl
      · rw [List.map_map]; rfl
    change execGangSlotHold cluster s = _
    unfold execGangSlotHold
    rw [hh, ← hcores]
    exact if_pos ⟨ht, by simpa [List.any_eq_true] using fun a hm => hn (a, q.id) hm rfl⟩
  · change execGangSlotHold cluster s = _
    unfold execGangSlotHold
    rw [hh]
    exact if_neg fun h => by omega

/-- Settles O40: the choice of the entry, its two ways into a slot, and the gangs. -/
theorem dispatching : Obligations.Dispatching := by
  refine ⟨fun s core slot c hf hh he hx hc => ?_, fun s slot k => firstDispatch_entered s slot k, againDispatch_entered, gangs_dispatched⟩
  obtain ⟨hd, hbest⟩ := dispatchChoice_best hc
  have hexec := execDispatch_takes hf hh he hx hc
  have hself : c = s.cur → onTask s c.key (entersSlot core c.tenant slot) = entersSlot core c.tenant slot s := by
    rintro rfl
    exact onTask_self (isTask_of_dispatchable hd) _
  refine ⟨hbest, hexec, fun k hcur hs hk => ?_, fun hcur hs => ?_⟩
  · rw [hexec, hself hcur, entersSlot_first slot (hcur ▸ hs) hk]
  · rw [hexec, hself hcur, entersSlot_again core c.tenant slot (hcur ▸ hs)]

end Sys2Proof.Machine
end


section
/-! PROOFS. The bags: pops, steals, reloads and the placement threshold (R90 to R94, R233 to R235). -/

namespace Sys2Proof.Machine

/-! ### The entry a pop takes (R90, R92) -/

/-- `x` is taken before every entry of `l`, an entry of an earlier place before an equal one. -/
structure TakenFirst (l : List (BagEntry × Nat)) (x : BagEntry × Nat) : Prop where
  mem : x ∈ l
  unpromoted : ∀ y ∈ l, x.1.promoted.isNone = true → y.1.promoted.isNone = true ∧ x.1.prio ≤ y.1.prio
  oldest : ∀ y ∈ l, y.2 < x.2 → x.1.promoted.isNone = true → x.1.prio < y.1.prio

/-- An entry without a promotion is taken before another where neither has one and its priority is better. -/
theorem poppedBefore_unpromoted {a b : BagEntry} (ha : a.promoted.isNone = true) :
    poppedBefore a b = true ↔ b.promoted.isNone = true ∧ a.prio < b.prio := by
  rw [Option.isNone_iff_eq_none] at ha
  cases hb : b.promoted <;> simp [poppedBefore, ha, hb]

/-- Before an entry without a promotion stand the promoted ones and those of better priority. -/
theorem poppedBefore_of_unpromoted {a b : BagEntry} (hb : b.promoted.isNone = true) :
    poppedBefore a b = false ↔ a.promoted.isNone = true ∧ b.prio ≤ a.prio := by
  rw [Option.isNone_iff_eq_none] at hb
  cases ha : a.promoted <;> simp [poppedBefore, ha, hb]

theorem TakenFirst.step {l : List (BagEntry × Nat)} {y z : BagEntry × Nat} (h : TakenFirst l y) (hz : ∀ w ∈ l, w.2 < z.2) :
    TakenFirst (l ++ [z]) (if poppedBefore z.1 y.1 then z else y) := by
  have hmem : ∀ w ∈ l ++ [z], w ∈ l ∨ w = z := by simp
  by_cases hp : poppedBefore z.1 y.1 = true
  · rw [if_pos hp]
    have hbetter : z.1.promoted.isNone = true → ∀ w ∈ l, w.1.promoted.isNone = true ∧ z.1.prio < w.1.prio := by
      intro hn w hw
      obtain ⟨hy, hlt⟩ := (poppedBefore_unpromoted hn).1 hp
      obtain ⟨hw', hle⟩ := h.unpromoted w hw hy
      exact ⟨hw', by omega⟩
    refine ⟨by simp, fun w hw hn => ?_, fun w hw hlt hn => ?_⟩
    · rcases hmem w hw with hw | rfl
      · exact ⟨(hbetter hn w hw).1, (hbetter hn w hw).2.le⟩
      · exact ⟨hn, le_rfl⟩
    · rcases hmem w hw with hw | rfl
      · exact (hbetter hn w hw).2
      · exact absurd hlt (lt_irrefl _)
  · rw [if_neg hp]
    have hlater : y.1.promoted.isNone = true → z.1.promoted.isNone = true ∧ y.1.prio ≤ z.1.prio := fun hn =>
      (poppedBefore_of_unpromoted hn).1 (by simpa using hp)
    refine ⟨List.mem_append_left _ h.mem, fun w hw hn => ?_, fun w hw hlt hn => ?_⟩
    · rcases hmem w hw with hw | rfl
      · exact h.unpromoted w hw hn
      · exact hlater hn
    · rcases hmem w hw with hw | rfl
      · exact h.oldest w hw hlt hn
      · exact absurd hlt (by have := hz y h.mem; omega)

/-- One step of the search through the entries that can be popped. -/
def popStep (best : Option (BagEntry × Nat)) (x : BagEntry × Nat) : Option (BagEntry × Nat) :=
  match best with
  | none => some x
  | some y => if poppedBefore x.1 y.1 then some x else some y

theorem popIndex_eq (s : State) (b : List BagEntry) :
    popIndex s b = ((b.zipIdx.filter fun x => poppable s x.1).foldl popStep none).map (·.2) := rfl

theorem popStep_some (y z : BagEntry × Nat) : popStep (some y) z = some (if poppedBefore z.1 y.1 then z else y) := by
  unfold popStep
  dsimp only
  split_ifs <;> rfl

theorem takenFirst_foldl (zs : List (BagEntry × Nat)) {l : List (BagEntry × Nat)} {y : BagEntry × Nat} (h : TakenFirst l y)
    (hz : ∀ z ∈ zs, ∀ w ∈ l, w.2 < z.2) (hp : zs.Pairwise fun a b => a.2 < b.2) :
    ∃ x, zs.foldl popStep (some y) = some x ∧ TakenFirst (l ++ zs) x := by
  induction zs generalizing l y with
  | nil => exact ⟨y, rfl, by rwa [List.append_nil]⟩
  | cons z zs ih =>
    obtain ⟨hfirst, hrest⟩ := List.pairwise_cons.1 hp
    have hlate : ∀ v ∈ zs, ∀ w ∈ l ++ [z], w.2 < v.2 := by
      intro v hv w hw
      rcases List.mem_append.1 hw with hw | hw
      · exact hz v (.tail _ hv) w hw
      · rw [List.mem_singleton.1 hw]
        exact hfirst v hv
    obtain ⟨x, hx, hf⟩ := ih (h.step (hz z (.head _))) hlate hrest
    exact ⟨x, by rw [List.foldl_cons, popStep_some, hx], by rwa [List.append_assoc] at hf⟩

theorem pairwise_zipIdx {α : Type} (l : List α) (n : Nat) : (l.zipIdx n).Pairwise fun a b => a.2 < b.2 := by
  have h : ((l.zipIdx n).map Prod.snd).Pairwise (· < ·) := by
    rw [List.zipIdx_map_snd]
    exact List.pairwise_lt_range'
  exact List.pairwise_map.1 h

/-- The entry a pop takes: a promoted one first, then the best priority, then the oldest. -/
theorem popIndex_first {s : State} {b : List BagEntry} {i : Nat} {e : BagEntry} (hp : popIndex s b = some i)
    (he : b[i]? = some e) : TakenFirst (b.zipIdx.filter fun x => poppable s x.1) (e, i) := by
  rw [popIndex_eq] at hp
  have hpair := (pairwise_zipIdx b 0).filter fun x => poppable s x.1
  have hsub : ∀ x ∈ b.zipIdx.filter fun x => poppable s x.1, b[x.2]? = some x.1 := fun x hx =>
    List.mem_zipIdx_iff_getElem?.1 (List.mem_filter.1 hx).1
  generalize b.zipIdx.filter (fun x => poppable s x.1) = l at hp hpair hsub
  cases l with
  | nil => cases hp
  | cons y ys =>
    obtain ⟨hfirst, hrest⟩ := List.pairwise_cons.1 hpair
    have hy : TakenFirst [y] y := by
      refine ⟨.head _, fun w hw hn => ?_, fun w hw hlt => ?_⟩
      · rw [List.mem_singleton.1 hw]
        exact ⟨hn, le_rfl⟩
      · rw [List.mem_singleton.1 hw] at hlt
        exact absurd hlt (lt_irrefl _)
    obtain ⟨x, hx, hf⟩ := takenFirst_foldl ys hy (fun z hz w hw => by rw [List.mem_singleton.1 hw]; exact hfirst z hz) hrest
    rw [List.foldl_cons, show popStep none y = some y from rfl, hx] at hp
    have hi : x.2 = i := Option.some.inj hp
    have hxe := hsub x hf.mem
    rw [hi, he] at hxe
    have : x = (e, i) := Prod.ext (Option.some.inj hxe).symm hi
    exact this ▸ hf

/-! ### Entries leave and enter bags -/

theorem bagOf_setBag_same (s : State) (core : Nat) (b : List BagEntry) : bagOf (setBag s core b) core = b :=
  Tab.get_set_same _ _ _ _

theorem bagOf_setBag_other (s : State) {core c : Nat} (b : List BagEntry) (h : c ≠ core) :
    bagOf (setBag s core b) c = bagOf s c := Tab.get_set_other _ _ _ h

/-- The entries passed over keep their words and their order. -/
theorem passOver_entries (s : State) (b : List BagEntry) : (passOver s b).1.map (·.entry) = b.map (·.entry) := by
  have h : ∀ (b : List BagEntry) (acc : List BagEntry × Nat), (b.foldl (fun acc e =>
      if !poppable s e then (acc.1 ++ [e], acc.2)
      else if 3840 ≤ e.passes + 1 ∧ e.promoted.isNone then
        (acc.1 ++ [{ e with passes := e.passes + 1, promoted := some acc.2 }], acc.2 + 1)
      else (acc.1 ++ [{ e with passes := e.passes + 1 }], acc.2)) acc).1.map (·.entry) = acc.1.map (·.entry) ++ b.map (·.entry) := by
    intro b
    induction b with
    | nil => simp
    | cons e b ih =>
      intro acc
      rw [List.foldl_cons, ih]
      split_ifs <;> simp
  exact h b ([], s.sched.promoNext)

theorem bagOf_takeEntry (s : State) (core i : Nat) :
    (bagOf (takeEntry s core i) core).map (·.entry) = ((bagOf s core).eraseIdx i).map (·.entry) := by
  refine Eq.trans ?_ (passOver_entries s _)
  exact congrArg (List.map (·.entry)) (bagOf_setBag_same s core (passOver s ((bagOf s core).eraseIdx i)).1)

theorem bagOf_takeEntry_other (s : State) {core c : Nat} (i : Nat) (h : c ≠ core) :
    bagOf (takeEntry s core i) c = bagOf s c := bagOf_setBag_other s _ h

/-! ### A pop (R90, R94) -/

/-- A read of the device leaves a note of its time and begins the clears of the granules it reaches. -/
theorem jobRead_eq (v : State) (a n : Nat) : ∃ o c, jobRead v a n =
    { v with sched := { v.sched with order := o }, mem := { v.mem with clearing := c } } := ⟨_, _, rfl⟩

theorem sendFlit_holdQ (s : State) (f : Flit) : (sendFlit s f).fab.holdQ = s.fab.holdQ := by
  unfold sendFlit
  dsimp only
  split_ifs <;> rfl

theorem hostRecord_holdQ (s : State) (ti launch : Nat) (body : List Word) :
    (hostRecord s 3 ti launch body).fab.holdQ = s.fab.holdQ := by
  unfold hostRecord sendTracked sendKept
  rw [if_pos rfl]
  dsimp only
  split_ifs
  · rfl
  · exact sendFlit_holdQ _ _

/-- The machine after a fault record without a task, of which `r` waits for its acknowledgement. -/
structure FaultSent (s t : State) (r : OutReq) : Prop where
  outReqs : t.fab.outReqs = s.fab.outReqs ++ [r]
  holdQ : t.fab.holdQ = s.fab.holdQ
  eng : t.eng = s.eng
  ctl : t.ctl = s.ctl
  mem : t.mem = s.mem
  bags : t.sched.bags = s.sched.bags
  keys : t.tasks.map Task.key = s.tasks.map Task.key

/-- A fault record without a task leaves as an OP 8 flit and is counted in the silo, in whose word no chunk has looked. -/
theorem bareFault_sent (s : State) (tenant launch : Nat) {cause : Nat} (detail : Word)
    (hu : Unseen s (0x4000000 + 8 * (2211 + cause))) : ∃ r, FaultSent s (bareFault s tenant launch cause detail) r ∧
      r.flit.op = 8 ∧ r.flit.words = envelope 3 8 tenant launch ::
        [BitVec.ofNat 64 cause, 0, 0, 0, BitVec.ofNat 64 s.time, detail, Config.wrel, 0] := by
  have hold := hostRecord_holdQ s tenant launch [BitVec.ofNat 64 cause, 0, 0, 0, BitVec.ofNat 64 s.time, detail, Config.wrel, 0]
  obtain ⟨fab, ls, r, hrec, hout, hop, -, -, -, hwords⟩ := hostRecord_fault_eq s tenant launch
    [BitVec.ofNat 64 cause, 0, 0, 0, BitVec.ofNat 64 s.time, detail, Config.wrel, 0]
  rw [hrec] at hold
  have hb : bareFault s tenant launch cause detail =
      observe (siloBump { s with fab := fab, sched := { s.sched with launches := ls } } (2211 + cause)) := by
    unfold bareFault
    dsimp only
    rw [hrec]
    exact ctlChanged_of_unseen hu
  refine ⟨r, ?_, hop, hwords⟩
  rw [hb]
  exact ⟨hout, hold, rfl, rfl, rfl, rfl, (List.map_map ..).trans rfl⟩

theorem popFault_eq (s : State) (e : BagEntry) (cause : Nat) : ∃ n, popFault s e cause =
    actLower (bareFault s e.tenant n cause e.entry) e.tenant (entryPool e.entry) false := ⟨_, rfl⟩

theorem poolBase_congr {s t : State} (h : t.ctl = s.ctl) (tenant pool : Nat) : poolBase t tenant pool = poolBase s tenant pool := by
  unfold poolBase hIndices hEntry ctlGet
  rw [h]

theorem read64_congr {m m' : Mem} (h : m'.cells = m.cells) (a : Nat) : m'.read64 a = m.read64 a := by
  unfold Mem.read64
  rw [Mem.readBytes_congr h]

/-- A pool without a net's descriptor has no count of activities. -/
theorem actLower_none {v : State} {tenant pool base : Nat} {ended : Bool} (hb : poolBase v tenant pool = some base)
    (hn : netDesc v base = none) : actLower v tenant pool ended = v := by
  unfold actLower
  rw [hb, Option.bind_some, hn]

/-- The machine after reads of the device. -/
def readWith (s : State) (sched : Sched) (c : List Nat) : State := { s with sched := sched, mem := { s.mem with clearing := c } }

/-- The task of a rule that a pop in `s` puts into the run queue, in the state `v` it leaves. -/
def ruleTask (v s : State) (core base : Nat) (e : BagEntry) (w : Word) : Task :=
  { unstartedTask v (ruleBirth s core base e w (orderPair s base (entryA e.entry) (entryB e.entry))) with key := v.nextKey }

/-- It begins at the pair's offsets. -/
theorem getG_ruleTask (v s : State) (core base : Nat) (e : BagEntry) (w : Word) (r : Reg) :
    getG (ruleTask v s core base e w).ctx r =
      if r = 3 then 0 else if r = 4 then globalOf s base
      else if r = 10 then BitVec.ofNat 64 (orderPair s base (entryA e.entry) (entryB e.entry)).1
      else if r = 11 then BitVec.ofNat 64 (orderPair s base (entryA e.entry) (entryB e.entry)).2
      else if r = 12 then 0 else if r = 13 then 0 else 0 :=
  getG_entryCtx _ _ _ _ _ _ _ r

section
variable {s : State} {core i base : Nat} {e : BagEntry}

/-- A pop of a pair whose nodes it can read: the entry leaves its bag, and the rule of the pair, or its absence, decides. -/
def popRead (s : State) (core i base : Nat) (e : BagEntry) : State :=
  jobRead (jobRead (takeEntry s core i) (base + entryA e.entry) 8) (base + entryB e.entry) 8

theorem popRead_eq : ∃ sched c, popRead s core i base e = readWith s sched c := by
  have htake : ∃ sched, takeEntry s core i = { s with sched := sched } := ⟨_, rfl⟩
  obtain ⟨sched, ht⟩ := htake
  obtain ⟨o, c, hfirst⟩ := jobRead_eq (takeEntry s core i) (base + entryA e.entry) 8
  obtain ⟨o', c', hsecond⟩ := jobRead_eq (jobRead (takeEntry s core i) (base + entryA e.entry) 8) (base + entryB e.entry) 8
  unfold popRead
  rw [hsecond, hfirst, ht]
  exact ⟨_, _, rfl⟩

theorem bagOf_popRead : (bagOf (popRead s core i base e) core).map (·.entry) = ((bagOf s core).eraseIdx i).map (·.entry) :=
  bagOf_takeEntry s core i

variable (hc : coreEnabled s core = true) (hs : slotForQueue s core = true) (hq : queueLen s core < 8)
  (hp : popIndex s (bagOf s core) = some i) (he : (bagOf s core)[i]? = some e)
  (hb : poolBase s e.tenant (entryPool e.entry) = some base) (ha : s.mem.poisoned (base + entryA e.entry) = false)
  (hb' : s.mem.poisoned (base + entryB e.entry) = false) (hx : hdrAux (s.mem.read64 (base + entryA e.entry)) ≤ 2)
  (hy : hdrAux (s.mem.read64 (base + entryB e.entry)) ≤ 2)
include hc hs hq hp he hb ha hb' hx hy

theorem execBagPop_rule {w : Word} (hw : entryRule s e.tenant base e.entry = some w) : execBagPop core s =
    .next (enqueue (popRead s core i base e) (ruleBirth s core base e w (orderPair s base (entryA e.entry) (entryB e.entry)))) := by
  unfold execBagPop
  rw [if_neg (by simp [hc, hs, hq]), hp]
  dsimp only
  rw [he]
  dsimp only
  rw [hb]
  dsimp only
  rw [if_neg (by simp [ha, hb']), if_neg (by simp [hx, hy]), hw]
  rfl

theorem execBagPop_noRule (hw : entryRule s e.tenant base e.entry = none) : execBagPop core s =
    .next (settle (popFault (popRead s core i base e) e 0x0D)) := by
  unfold execBagPop
  rw [if_neg (by simp [hc, hs, hq]), hp]
  dsimp only
  rw [he]
  dsimp only
  rw [hb]
  dsimp only
  rw [if_neg (by simp [ha, hb']), if_neg (by simp [hx, hy]), hw]
  rfl

theorem pop_rule {w : Word} (hw : entryRule s e.tenant base e.entry = some w) : ∃ (t : State) (u : Task),
    exec (.bagPop core) s = .next t ∧
    t.tasks = insertTask u s.tasks ∧ u.key = s.nextKey ∧ u.kind = .rule ∧ u.status = .unstarted ∧ u.core = core ∧
    u.tenant = e.tenant ∧ u.prio = fieldNat w 57 56 ∧ u.handle.toNat = fieldNat w 55 40 ∧ u.origin = e.entry ∧
    u.net = some (entryPool e.entry) ∧ u.ctx.pc = entryPc s u.handle (fieldNat w 39 0) ∧ getG u.ctx 4 = globalOf s base ∧
    (getG u.ctx 10, getG u.ctx 11) = (BitVec.ofNat 64 (orderPair s base (entryA e.entry) (entryB e.entry)).1,
      BitVec.ofNat 64 (orderPair s base (entryA e.entry) (entryB e.entry)).2) ∧
    (bagOf t core).map (fun f => f.entry) = ((bagOf s core).eraseIdx i).map (fun f => f.entry) ∧ t.cur = s.cur ∧
    t.mem = { s.mem with clearing := t.mem.clearing } := by
  have hh : (BitVec.ofNat 16 (fieldNat w 55 40)).toNat = fieldNat w 55 40 := by
    rw [BitVec.toNat_ofNat, Nat.mod_eq_of_lt]
    rw [fieldNat_eq_extractLsb']
    exact BitVec.isLt _
  have hexec := execBagPop_rule hc hs hq hp he hb ha hb' hx hy hw
  have hbag := bagOf_popRead (s := s) (core := core) (i := i) (base := base) (e := e)
  obtain ⟨sched, c, hread⟩ := popRead_eq (s := s) (core := core) (i := i) (base := base) (e := e)
  rw [hread] at hexec hbag
  refine ⟨_, ruleTask (readWith s sched c) s core base e w, hexec, rfl, rfl, rfl, rfl,
    rfl, rfl, rfl, hh, rfl, rfl, rfl, ?_, ?_, hbag, rfl, rfl⟩
  · exact getG_ruleTask _ _ _ _ _ _ 4
  · exact Prod.ext (getG_ruleTask _ _ _ _ _ _ 10) (getG_ruleTask _ _ _ _ _ _ 11)

theorem pop_noRule (hw : entryRule s e.tenant base e.entry = none) (hn : netDesc s base = none) (hquiet : Quiet s)
    (hu : Unseen s (0x4000000 + 8 * (2211 + 0x0D))) : ∃ t r, exec (.bagPop core) s = .next t ∧
      t.fab.outReqs = s.fab.outReqs ++ [r] ∧ r.flit.op = 8 ∧ r.flit.words.getD 1 0 = 0x0D ∧ r.flit.words.getD 6 0 = e.entry ∧
      t.tasks.map Task.key = s.tasks.map Task.key ∧ (bagOf t core).length + 1 = (bagOf s core).length := by
  have hi : i < (bagOf s core).length := (List.getElem?_eq_some_iff.1 he).1
  have hlen : (bagOf (popRead s core i base e) core).length + 1 = (bagOf s core).length := by
    have h := congrArg List.length (bagOf_popRead (s := s) (core := core) (i := i) (base := base) (e := e))
    rw [List.length_map, List.length_map, List.length_eraseIdx_of_lt hi] at h
    omega
  have hexec := execBagPop_noRule hc hs hq hp he hb ha hb' hx hy hw
  obtain ⟨sched, c, hread⟩ := popRead_eq (s := s) (core := core) (i := i) (base := base) (e := e)
  rw [hread] at hexec hlen
  obtain ⟨n, hfault⟩ := popFault_eq (readWith s sched c) e 0x0D
  obtain ⟨r, hsent, hop, hwords⟩ := bareFault_sent (readWith s sched c) e.tenant n e.entry hu
  rw [hfault] at hexec
  generalize bareFault (readWith s sched c) e.tenant n 0x0D e.entry = t at hexec hsent
  have hbase : poolBase t e.tenant (entryPool e.entry) = some base := (poolBase_congr hsent.ctl _ _).trans hb
  have hdesc : netDesc t base = none := by
    rw [← hn]
    unfold netDesc
    rw [read64_congr (congrArg Mem.cells hsent.mem)]
    rfl
  have hq : Quiet t := ⟨(congrArg (·.waiters) hsent.eng).trans hquiet.1, hsent.holdQ.trans hquiet.2⟩
  rw [actLower_none hbase hdesc, settle_quiet hq] at hexec
  refine ⟨t, r, hexec, hsent.outReqs, hop, by rw [hwords]; rfl, by rw [hwords]; rfl, hsent.keys, ?_⟩
  rw [← hlen]
  unfold bagOf
  rw [hsent.bags]

end

/-! ### A steal (R91) -/

/-- The last `k` entries leave a bag, the youngest first. -/
def takeLast (s : State) (victim k : Nat) : State :=
  (List.range k).foldl (fun s _ => takeEntry s victim ((bagOf s victim).length - 1)) s

theorem takeLast_succ (s : State) (victim k : Nat) : takeLast s victim (k + 1) =
    takeEntry (takeLast s victim k) victim ((bagOf (takeLast s victim k) victim).length - 1) := by
  unfold takeLast
  rw [List.range_succ, List.foldl_append]
  rfl

theorem takeLast_entries (s : State) (victim k : Nat) : (bagOf (takeLast s victim k) victim).map (·.entry) =
    ((bagOf s victim).take ((bagOf s victim).length - k)).map (·.entry) := by
  induction k with
  | zero => rw [Nat.sub_zero, List.take_length]; rfl
  | succ k ih =>
    rw [takeLast_succ, bagOf_takeEntry, List.eraseIdx_length_sub_one, List.map_dropLast, ih, List.dropLast_eq_take, List.length_map,
      List.length_take, ← List.map_take, List.take_take]
    congr 2
    omega

theorem takeLast_other (s : State) {victim c : Nat} (k : Nat) (h : c ≠ victim) :
    bagOf (takeLast s victim k) c = bagOf s c := by
  induction k with
  | zero => rfl
  | succ k ih => rw [takeLast_succ, bagOf_takeEntry_other _ _ h, ih]

theorem takeLast_sched (s : State) (victim k : Nat) : ∃ sched, takeLast s victim k = { s with sched := sched } := by
  induction k with
  | zero => exact ⟨_, rfl⟩
  | succ k ih =>
    obtain ⟨sched, h⟩ := ih
    rw [takeLast_succ, h]
    exact ⟨_, rfl⟩

/-- Entries of one source join a bag at its end. -/
theorem bagInsert_last {l : List BagEntry} {e : BagEntry} (h : ∀ x ∈ l, x.src = e.src) : bagInsert l e = l ++ [e] := by
  induction l with
  | nil => rfl
  | cons x xs ih =>
    obtain ⟨hx, hxs⟩ := List.forall_mem_cons.1 h
    rw [bagInsert, if_neg (by simp [hx]), ih hxs, List.cons_append]

theorem foldl_bagInsert {r : Nat} (es l : List BagEntry) (hl : ∀ x ∈ l, x.src = r) (he : ∀ x ∈ es, x.src = r) :
    es.foldl bagInsert l = l ++ es := by
  induction es generalizing l with
  | nil => simp
  | cons e es ih =>
    obtain ⟨hx, hxs⟩ := List.forall_mem_cons.1 he
    rw [List.foldl_cons, bagInsert_last fun x hm => (hl x hm).trans hx.symm, ih _ _ hxs, List.append_assoc, List.singleton_append]
    intro x hm
    rcases List.mem_append.1 hm with hm | hm
    · exact hl x hm
    · rw [List.mem_singleton.1 hm, hx]

/-- An entry as the thief of a core's bag holds it. -/
def stolen (s : State) (c : Nat) (e : BagEntry) : BagEntry :=
  { e with passes := 0, promoted := none, since := s.time, src := sourceRank false c 0 }

theorem stealFrom_eq (s : State) (thief victim : Nat) : stealFrom s thief victim =
    let v := takeLast s victim (min 8 (bagOf s victim).length)
    observe (setBag v thief ((((bagOf s victim).drop ((bagOf s victim).length - min 8 (bagOf s victim).length)).map
      (stolen v victim)).foldl bagInsert (bagOf v thief))) := rfl

theorem steal_holds (s : State) (core c : Nat) (he : coreEnabled s core = true) (hs : slotForQueue s core = true)
    (hq : queueLen s core = 0) (hb : bagOf s core = []) (hm : mostBy (depthOf s) (clusterCores s (clusterOf core)) = some c)
    (hd : 8 ≤ (bagOf s c).length) : ∃ t, exec (.steal core) s = .next t ∧ t.mem = s.mem ∧
      bagOf t core = ((bagOf s c).drop ((bagOf s c).length - 8)).map (fun e =>
        { e with passes := 0, promoted := none, since := s.time, src := sourceRank false c 0 }) ∧
      (bagOf t c).map (fun f => f.entry) = ((bagOf s c).take ((bagOf s c).length - 8)).map fun f => f.entry := by
  have hne : core ≠ c := by
    rintro rfl
    rw [hb] at hd
    exact absurd hd (by decide)
  have hexec : exec (.steal core) s = .next (stealFrom s core c) := by
    change execSteal core s = _
    unfold execSteal
    rw [if_neg (by simp [he, hs, hq, depthOf, hb]), hm]
    exact if_pos hd
  obtain ⟨sched, hv⟩ := takeLast_sched s c 8
  have hentries := takeLast_entries s c 8
  have hother := takeLast_other s (victim := c) 8 hne
  rw [stealFrom_eq, min_eq_left hd] at hexec
  dsimp only at hexec
  generalize takeLast s c 8 = v at hexec hv hentries hother
  have hrank : ∀ x ∈ ((bagOf s c).drop ((bagOf s c).length - 8)).map (stolen v c), x.src = sourceRank false c 0 := by
    intro x hx
    obtain ⟨y, -, rfl⟩ := List.mem_map.1 hx
    rfl
  rw [hother, hb, foldl_bagInsert _ _ (by simp) hrank, List.nil_append] at hexec
  have hmem : v.mem = s.mem := by rw [hv]
  refine ⟨_, hexec, hmem, ?_, ?_⟩
  · refine (bagOf_setBag_same v core _).trans ?_
    rw [hv]
    rfl
  · exact (congrArg _ (bagOf_setBag_other v _ hne.symm)).trans hentries

/-! ### Reloads (R93) -/

theorem spillOf_setSpill_same (s : State) (core tenant : Nat) (p : Spill) : spillOf (setSpill s core tenant p) core tenant = p :=
  Tab.get_set_same _ _ _ _

theorem spillOf_setSpill_other (s : State) {core tenant t : Nat} (p : Spill) (h : t ≠ tenant) :
    spillOf (setSpill s core tenant p) core t = spillOf s core t :=
  Tab.get_set_other _ _ _ (by unfold coreTenant; omega)

theorem spillTenants_eq_nil {s : State} {core : Nat} (h : ∀ t, t < 64 → (spillOf s core t).head ≤ (spillOf s core t).tail) :
    spillTenants s core = [] := by
  refine List.filter_eq_nil_iff.2 fun t ht => ?_
  have := h t (List.mem_range.1 ht)
  simpa using this

theorem reloadFuel_none {s : State} {core : Nat} (h : spillTenants s core = []) (f n : Nat) :
    reloadFuel (f + 1) s core (n + 1) [] = s := by
  unfold reloadFuel
  rw [h]

theorem reloadFuel_take {s s' : State} {core t : Nat} {e : BagEntry} (h : (spillOf s core t).tail < (spillOf s core t).head)
    (ht : spillTake s core t = some (e, s')) (f n : Nat) (ts : List Nat) :
    reloadFuel (f + 1) s core (n + 1) (t :: ts) = reloadFuel f (setBag s' core (bagOf s' core ++ [e])) core n ts := by
  rw [reloadFuel]
  rw [if_pos h, ht]

/-- The entry that a spilled pair of words holds. -/
def spilled (s : State) (a : Nat) : BagEntry :=
  ⟨s.mem.read64 a, fieldNat (s.mem.read64 (a + 8)) 5 0, fieldNat (s.mem.read64 (a + 8)) 9 8, 0, none, s.time, 2048⟩

/-- The machine once the oldest spilled entry of a tenant is read. -/
def unspilled (s : State) (core tenant a : Nat) : State :=
  jobRead (setSpill s core tenant { spillOf s core tenant with tail := (spillOf s core tenant).tail + 1 }) a 16

theorem spillTake_eq {s : State} {core tenant a : Nat} (ha : spillAddr s core tenant (spillOf s core tenant).tail = some a) :
    spillTake s core tenant = some (spilled s a, unspilled s core tenant a) := by
  unfold spillTake
  dsimp only
  rw [ha]
  rfl

theorem reload_holds (s : State) (core tenant a : Nat) (he : coreEnabled s core = true) (hl : (bagOf s core).length ≤ 192)
    (ht : spillTenants s core = [tenant]) (hp : (spillOf s core tenant).tail + 1 = (spillOf s core tenant).head)
    (ha : spillAddr s core tenant (spillOf s core tenant).tail = some a) : ∃ t e, exec (.bagReload core) s = .next t ∧
      bagOf t core = bagOf s core ++ [e] ∧ e.entry = s.mem.read64 a ∧ e.tenant = fieldNat (s.mem.read64 (a + 8)) 5 0 ∧
      e.prio = fieldNat (s.mem.read64 (a + 8)) 9 8 ∧ (spillOf t core tenant).tail = (spillOf s core tenant).head ∧
      t.mem = { s.mem with clearing := t.mem.clearing } := by
  obtain ⟨o, c, hread⟩ := jobRead_eq (setSpill s core tenant { spillOf s core tenant with tail := (spillOf s core tenant).tail + 1 }) a 16
  have hbag : bagOf (unspilled s core tenant a) core = bagOf s core := by unfold unspilled; rw [hread]; rfl
  have hsame : spillOf (unspilled s core tenant a) core tenant =
      { spillOf s core tenant with tail := (spillOf s core tenant).tail + 1 } := by
    unfold unspilled; rw [hread]; exact spillOf_setSpill_same s core tenant _
  have hother : ∀ t, t ≠ tenant → spillOf (unspilled s core tenant a) core t = spillOf s core t := by
    intro t h
    unfold unspilled; rw [hread]; exact spillOf_setSpill_other s _ h
  have hmem : (unspilled s core tenant a).mem = { s.mem with clearing := c } := by unfold unspilled; rw [hread]; rfl
  have hdone : spillTenants (setBag (unspilled s core tenant a) core (bagOf (unspilled s core tenant a) core ++ [spilled s a])) core
      = [] := by
    refine spillTenants_eq_nil fun t h64 => ?_
    change (spillOf (unspilled s core tenant a) core t).head ≤ (spillOf (unspilled s core tenant a) core t).tail
    by_cases h : t = tenant
    · subst h
      rw [hsame]
      exact hp.ge
    · rw [hother t h]
      by_contra hlt
      have hm : t ∈ spillTenants s core := List.mem_filter.2 ⟨List.mem_range.2 h64, by simpa using hlt⟩
      rw [ht] at hm
      exact h (List.mem_singleton.1 hm)
  have hexec : exec (.bagReload core) s =
      .next (observe (setBag (unspilled s core tenant a) core (bagOf s core ++ [spilled s a]))) := by
    change execBagReload core s = _
    unfold execBagReload
    rw [if_neg (by simp [he, hl]), ht, reloadFuel_take (by omega) (spillTake_eq ha) 8191 63, reloadFuel_none hdone 8190 62, hbag]
  refine ⟨_, spilled s a, hexec, bagOf_setBag_same _ _ _, rfl, rfl, rfl, ?_, ?_⟩
  · change (spillOf (unspilled s core tenant a) core tenant).tail = _
    rw [hsame]
    exact hp
  · change (unspilled s core tenant a).mem = { s.mem with clearing := (unspilled s core tenant a).mem.clearing }
    rw [hmem]

/-! ### The placement threshold (R94) -/

theorem Tab.get_erase_same {α : Type} (t : Tab α) (k : Nat) (d : α) : Tab.get (Tab.erase t k) k d = d := by
  induction t with
  | nil => rfl
  | cons e es ih =>
    unfold Tab.erase at ih ⊢
    by_cases h : e.1 = k
    · rw [List.filter_cons_of_neg (by simpa using h)]
      exact ih
    · rw [List.filter_cons_of_pos (by simpa using h)]
      simpa [Tab.get, h] using ih

theorem placementLoop_moves {s : State} {cluster occ : Nat} (hn : clusterCores s cluster ≠ [])
    (hc : 4096 ≤ s.time - Tab.get s.sched.occFrom cluster 0) (ho : occ = Tab.get s.sched.occ cluster 0) :
    execPlacementLoop cluster occ s = .next { s with sched := { s.sched with
      divert := Tab.set s.sched.divert cluster (nextDivert (Tab.get s.sched.divert cluster 1024) (clusterCores s cluster).length
        (s.time - Tab.get s.sched.occFrom cluster 0) occ)
      occ := Tab.erase s.sched.occ cluster
      occFrom := Tab.set s.sched.occFrom cluster s.time } } := by
  unfold execPlacementLoop
  dsimp only
  rw [if_neg]
  rintro (h | h | h)
  · exact hn (List.length_eq_zero_iff.1 h)
  · omega
  · exact h ho

/-- Settles O39: pops, steals, reloads and the placement threshold, each by what its step leaves in the bags. -/
theorem bags : Obligations.Bags := by
  refine ⟨?pop, steal_holds, reload_holds, ?place⟩
  case pop =>
    intro s core i base e w hc hs hq hp he hb a b ha hb' hx hy
    have hfirst := popIndex_first hp he
    have hin : ∀ f ∈ bagOf s core, ∀ j, (bagOf s core)[j]? = some f → poppable s f = true →
        (f, j) ∈ (bagOf s core).zipIdx.filter fun x => poppable s x.1 := fun f _ j hj hf =>
      List.mem_filter.2 ⟨List.mem_zipIdx_iff_getElem?.2 hj, hf⟩
    refine ⟨fun f hf hpop hn => ?_, fun j f hlt hj hpop hn => ?_, pop_rule hc hs hq hp he hb ha hb' hx hy,
      pop_noRule hc hs hq hp he hb ha hb' hx hy⟩
    · obtain ⟨j, hj⟩ := List.mem_iff_getElem?.1 hf
      exact hfirst.unpromoted (f, j) (hin f hf j hj hpop) hn
    · exact hfirst.oldest (f, j) (hin f (List.mem_of_getElem? hj) j hj hpop) hlt hn
  case place =>
    intro s cluster occ c d n
    refine ⟨fun hn hc ho => ⟨_, placementLoop_moves hn hc ho, rfl, ?_, ?_, ?_⟩, fun h => ?_⟩
    · exact Tab.get_set_same _ _ _ _
    · exact Tab.get_erase_same _ _ _
    · exact Tab.get_set_same _ _ _ _
    · exact if_pos (.inr h)

end Sys2Proof.Machine
end


section
/-! PROOFS. Pre-emption: requests, releases and acknowledgements (R89, R214, R285). -/

namespace Sys2Proof.Machine

variable {s : State} {n : Nat}

/-! ### The words of requests -/

theorem setRequests_eq (s : State) (t : Nat) (pre : Preempt) : ∃ since engs, setRequests s t pre =
    { s with pre := { pre with since := since }, eng := { s.eng with engines := engs } } := ⟨_, _, rfl⟩

theorem getLsbD_putTenant_same (w : BitVec 64) (hn : n < 64) (b : Bool) : (putTenant w n b).getLsbD n = b := by
  cases b <;> simp [putTenant, hn]

theorem getLsbD_putTenant_other (w : BitVec 64) {m : Nat} (hm : m ≠ n) (b : Bool) :
    (putTenant w n b).getLsbD m = w.getLsbD m := by
  by_cases h64 : m < 64
  · have hone : (1#64 <<< n).getLsbD m = false := by
      rw [BitVec.getLsbD_shiftLeft, BitVec.getLsbD_one]
      simp
      omega
    cases b
    · simp only [putTenant, Bool.false_eq_true, if_false, BitVec.getLsbD_and, BitVec.getLsbD_not, hone, h64]
      simp
    · simp only [putTenant, if_true, BitVec.getLsbD_or, hone]
      simp
  · rw [BitVec.getLsbD_of_ge _ _ (by omega), BitVec.getLsbD_of_ge _ _ (by omega)]

/-- The machine once the service's request for a tenant is written, before any task is halted. -/
def serviceSet (s : State) (n : Nat) (on : Bool) : State :=
  setRequests s n { s.pre with svc := putTenant s.pre.svc n on, svcAck := putTenant s.pre.svcAck n false }

theorem serviceSet_eq (s : State) (n : Nat) (on : Bool) : ∃ since engs, serviceSet s n on =
    { s with pre := { s.pre with svc := putTenant s.pre.svc n on, svcAck := putTenant s.pre.svcAck n false, since := since }
             eng := { s.eng with engines := engs } } := setRequests_eq ..

theorem release_service (s : State) (n : Nat) : writeRequest s n .service false = serviceSet s n false := rfl

theorem request_service (s : State) (n : Nat) : writeRequest s n .service true = haltTenant (serviceSet s n true) n := rfl

/-! ### Who may write a request -/

theorem mayRequest_service (hn : n < 64) : mayRequest s n .service = true := by simp [mayRequest, hn]

theorem mayRequest_trusted (hn : n < 64) : mayRequest s n .trusted = trustedRuns s := by simp [mayRequest, hn]

/-! ### The halt of a tenant's tasks -/

theorem onTasks_nil (s : State) (f : State → State) : onTasks s [] f = s := rfl

/-- Where the tenant has no task in a slot that is to halt, nothing is done. -/
theorem haltTenant_none (h : ∀ u ∈ allTasks s, u.tenant = n → u.slot?.isSome = true → halts s u = false) :
    haltTenant s n = s := by
  have hmine : ((allTasks s).filter fun t => t.tenant == n && t.slot?.isSome && halts s t) = [] := by
    refine List.filter_eq_nil_iff.2 fun u hu hm => ?_
    simp only [Bool.and_eq_true, beq_iff_eq] at hm
    obtain ⟨⟨ht, hs⟩, hh⟩ := hm
    rw [h u hu ht hs] at hh
    cases hh
  unfold haltTenant
  dsimp only
  rw [hmine, List.map_nil, onTasks_nil, hmine]
  rfl

/-- The machine once the executing task has given up what its chunk holds. -/
def chunkGiven (s : State) : State := if s.cur.chunk.fresh then leaveToken s else abortChunk s

/-- A write that the only task commits aborts none. -/
theorem publish_alone (h : s.tasks = []) (ls : List Nat) : publish s s.cur.key ls = s := by
  have hv : ((allTasks s).filter fun t => t.key != s.cur.key && !runsSerial s t && meet ls (t.chunk.rlines ++ t.chunk.wlines)) = [] := by
    refine List.filter_eq_nil_iff.2 fun u hu hm => ?_
    rcases mem_allTasks.1 hu with ⟨-, rfl⟩ | hu
    · simp at hm
    · rw [h] at hu
      cases hu
  unfold publish publishFuel
  simp only [hv, List.foldl_nil, List.isEmpty_nil, if_true]

theorem abortChunk_alone (h : s.tasks = []) : abortChunk s = (abortCur s).1 := by
  unfold abortChunk
  dsimp only
  split_ifs
  · rfl
  · obtain ⟨ht, hk, -⟩ := abortCur_task s
    rw [← hk]
    exact publish_alone (ht.trans h) _

/-- What the only task has given up: its chunk, which stands at its first instruction. -/
structure GivenUp (s t : State) : Prop where
  ctl : t.ctl = s.ctl
  pre : t.pre = s.pre
  tasks : t.tasks = []
  key : t.cur.key = s.cur.key
  status : t.cur.status = s.cur.status
  core : t.cur.core = s.cur.core
  tenant : t.cur.tenant = s.cur.tenant
  number : t.cur.number = s.cur.number
  trusted : t.cur.trusted = s.cur.trusted
  gang : t.cur.gang = s.cur.gang
  inline : t.cur.inline = s.cur.inline
  hold : s.cur.hold = none → t.cur.hold = none
  inflight : s.cur.inflight = [] → t.cur.inflight = []
  fresh : t.cur.chunk.fresh = true
  ctx : t.cur.ctx = if s.cur.chunk.fresh then s.cur.ctx else s.cur.chunk.start

theorem chunkGiven_alone (h : s.tasks = []) : GivenUp s (chunkGiven s) := by
  unfold chunkGiven
  by_cases hf : s.cur.chunk.fresh = true
  · rw [if_pos hf]
    exact ⟨rfl, rfl, h, rfl, rfl, rfl, rfl, rfl, rfl, rfl, rfl, id, id, hf, (if_pos hf).symm⟩
  · rw [if_neg hf, abortChunk_alone h]
    have hab := abortCur_onlyAborts s
    refine ⟨hab.ctl, hab.pre, (abortCur_task s).1.trans h, rfl, rfl, rfl, rfl, rfl, rfl, rfl, rfl, fun _ => rfl, fun hi => ?_, rfl,
      (if_neg hf).symm⟩
    change s.cur.inflight.filter _ = []
    rw [hi]
    rfl

theorem saveRec_congr {s t : State} (h : t.ctl = s.ctl) (tenant core k : Nat) : saveRec t tenant core k = saveRec s tenant core k := by
  unfold saveRec tenantWord ctlGet
  rw [h]

theorem halts_congr {s t : State} (hc : t.ctl = s.ctl) (hp : t.pre = s.pre) (tenant : Nat) (trusted : Bool) :
    preempted t tenant trusted = preempted s tenant trusted := by
  unfold preempted tiState tenantWord ctlGet
  rw [hc, hp]

/-- The only task is halted. -/
theorem haltTenant_alone (h : s.tasks = []) (ht : s.cur.tenant = n) (hs : s.cur.slot?.isSome = true)
    (hh : halts s s.cur = true) (hr : saveRec s n s.cur.core s.cur.number = none) :
    haltTenant s n = haltCur (chunkGiven s) := by
  have hmine : ∀ v : State, v.tasks = [] → v.cur.tenant = n → v.cur.slot?.isSome = true → halts v v.cur = true →
      isTask v.cur = true ∧ ((allTasks v).filter fun t => t.tenant == n && t.slot?.isSome && halts v t) = [v.cur] := by
    intro v hv hvt hvs hvh
    have hi : isTask v.cur = true := by
      by_contra hi
      have : v.cur.status = .vacant := by simpa [isTask] using hi
      simp [Task.slot?, this] at hvs
    have hall : allTasks v = [v.cur] := by
      unfold allTasks
      rw [if_pos hi, hv]
      rfl
    exact ⟨hi, by rw [hall]; simp [hvt, hvs, hvh]⟩
  obtain ⟨hi, hm⟩ := hmine s h ht hs hh
  have hg := chunkGiven_alone h
  have hslot : (chunkGiven s).cur.slot?.isSome = true := by
    unfold Task.slot? at hs ⊢
    rw [hg.status]
    exact hs
  have hhalt : halts (chunkGiven s) (chunkGiven s).cur = true := by
    unfold halts
    rw [halts_congr hg.ctl hg.pre, hg.tenant, hg.trusted]
    exact hh
  obtain ⟨hi', hm'⟩ := hmine (chunkGiven s) hg.tasks (hg.tenant.trans ht) hslot hhalt
  have hlines : saveLines (chunkGiven s) (chunkGiven s).cur = [] := by
    unfold saveLines
    rw [saveRec_congr hg.ctl, hg.tenant, hg.core, hg.number, ht, hr]
  have hserial : serialHolds (chunkGiven s) (chunkGiven s).cur.key [] = false := by
    simp [serialHolds, meet]
  have hfirst : onTasks s [s.cur.key] (fun s => if s.cur.chunk.fresh then leaveToken s else abortChunk s) = chunkGiven s :=
    onTask_self hi chunkGiven
  unfold haltTenant
  dsimp only
  rw [hm, List.map_cons, List.map_nil, hfirst, hm', List.filter_cons_of_pos (by rw [hlines, hserial]; rfl)]
  exact onTask_self hi' _

theorem withdraw_none (h : s.cur.hold = none) : withdraw s = s := by
  unfold withdraw
  rw [h]

theorem drainInflight_none (h : s.cur.inflight = []) : drainInflight s = s := by
  have hc : ({ s.cur with inflight := [] } : Task) = s.cur := by rw [← h]
  unfold drainInflight modCur
  dsimp only
  rw [h, List.foldl_nil]
  exact congrArg (fun c => { s with cur := c }) hc

theorem dropDeficit_cur (s : State) (core tenant : Nat) : (dropDeficit s core tenant).cur = s.cur := by
  unfold dropDeficit
  split_ifs <;> rfl

/-- A task outside a gang of a tenant without save records, with no access under way, leaves its slot as it stands. -/
theorem haltCur_plain (hf : s.cur.chunk.fresh = true) (hg : s.cur.gang = none) (hh : s.cur.hold = none)
    (hi : s.cur.inflight = []) (hr : saveRec s s.cur.tenant s.cur.core s.cur.number = none) :
    (haltCur s).cur.status = .resume ∧ (haltCur s).cur.key = s.cur.key ∧ (haltCur s).cur.ctx = s.cur.ctx := by
  have hlv : leaveToken (leaveArray s s.cur.key) = drainInflight (withdraw (leaveToken (leaveArray s s.cur.key))) := by
    rw [withdraw_none (s := leaveToken (leaveArray s s.cur.key)) hh, drainInflight_none (s := leaveToken (leaveArray s s.cur.key)) hi]
  have hsave : saveTask (leaveToken (leaveArray s s.cur.key)) (leaveToken (leaveArray s s.cur.key)).cur 2 none =
      leaveToken (leaveArray s s.cur.key) := by
    unfold saveTask
    rw [saveRec_congr rfl]
    change (match saveRec s s.cur.tenant s.cur.core s.cur.number with | none => _ | some b => _) = _
    rw [hr]
  have hall : (haltCur s).cur = { s.cur with
      status := if s.cur.gang.isSome then .gangHalted else .resume, chunk := (leaveToken (leaveArray s s.cur.key)).cur.chunk } := by
    unfold haltCur
    dsimp only
    rw [if_pos (show (leaveArray s s.cur.key).cur.chunk.fresh = true from hf), ← hlv,
      if_neg (by simp [show (leaveToken (leaveArray s s.cur.key)).cur.gang = none from hg]), hsave]
    exact dropDeficit_cur _ _ _
  rw [hall]
  exact ⟨if_neg (by rw [hg]; decide), rfl, rfl⟩

/-! ### The acknowledgement -/

/-- The requests once one source's halt is acknowledged. -/
def acked (p : Preempt) (n : Nat) (src : PreemptSrc) : Preempt :=
  match src with
  | .service => { p with svcAck := putTenant p.svcAck n true }
  | .trusted => { p with trAck := putTenant p.trAck n true }

theorem acknowledge_eq (hu : Unseen s (tenantOff n 10)) (src : PreemptSrc) :
    acknowledge s n src = observe { s with pre := acked s.pre n src } := by
  cases src
  · exact ctlChanged_of_unseen (s := { s with pre := acked s.pre n .service }) hu
  · exact ctlChanged_of_unseen (s := { s with pre := acked s.pre n .trusted }) hu

/-- A task in a slot that a request of the source covers. -/
def Covered (n : Nat) (src : PreemptSrc) (u : Task) : Prop :=
  u.tenant = n ∧ u.slot?.isSome = true ∧ (src = .trusted → u.trusted = false)

theorem covered_iff {src : PreemptSrc} {u : Task} :
    (u.tenant == n && u.slot?.isSome && covers src u.trusted) = true ↔ Covered n src u := by
  cases src <;> simp [Covered, covers, and_assoc]

theorem allHalted_of_none {src : PreemptSrc} (he : s.eng.engines = []) (h : ∀ u ∈ allTasks s, ¬Covered n src u) :
    allHalted s n src = true := by
  have hany : ((allTasks s).any fun u => u.tenant == n && u.slot?.isSome && covers src u.trusted) = false :=
    List.any_eq_false.2 fun u hu => by rw [covered_iff]; exact h u hu
  unfold allHalted
  rw [hany, he]
  rfl

theorem allHalted_of_covered {src : PreemptSrc} (h : ∃ u ∈ allTasks s, Covered n src u) : allHalted s n src = false := by
  obtain ⟨u, hu, hc⟩ := h
  have hany : ((allTasks s).any fun u => u.tenant == n && u.slot?.isSome && covers src u.trusted) = true :=
    List.any_eq_true.2 ⟨u, hu, covered_iff.2 hc⟩
  unfold allHalted
  rw [hany]
  rfl

/-- Settles O44: who may write a request, what a request and a release leave, and the acknowledgement of a halt. -/
theorem preemption : Obligations.Preemption := by
  intro s n hn
  refine ⟨if_pos (mayRequest_service hn), if_pos (mayRequest_service hn), fun ht => ?trusted, fun ht => ?untrusted, ?release,
    fun hu' => ?none, fun hl ht hs hg hh hi hr hin => ?alone, fun src hreq he => ?ack⟩
  case trusted =>
    have hm : mayRequest s n .trusted = true := by
      obtain ⟨u, hu, ht, hs⟩ := ht
      rw [mayRequest_trusted hn]
      exact List.any_eq_true.2 ⟨u, hu, by rw [ht, hs]; rfl⟩
    exact ⟨if_pos hm, if_pos hm⟩
  case untrusted =>
    have hm : mayRequest s n .trusted = false := by
      rw [mayRequest_trusted hn]
      refine List.any_eq_false.2 fun u hu h => ?_
      rw [Bool.and_eq_true] at h
      rw [ht u hu h.1] at h
      exact absurd h.2 (by decide)
    exact if_neg (by rw [hm]; decide)
  case release =>
    obtain ⟨since, engs, hv⟩ := serviceSet_eq s n false
    rw [release_service, hv]
    exact ⟨getLsbD_putTenant_same _ hn _, getLsbD_putTenant_same _ hn _, rfl, rfl, rfl, rfl,
      fun m hm => getLsbD_putTenant_other _ hm _⟩
  case none =>
    obtain ⟨since, engs, hv⟩ := serviceSet_eq s n true
    have hnone : haltTenant (serviceSet s n true) n = serviceSet s n true := by
      refine haltTenant_none fun u hu ht hs => ?_
      rw [allTasks_congr (s := s) (by rw [hv]) (by rw [hv])] at hu
      rw [hu' u hu ht] at hs
      cases hs
    rw [request_service, hnone, hv]
    exact ⟨getLsbD_putTenant_same _ hn _, getLsbD_putTenant_same _ hn _, rfl, rfl, rfl⟩
  case alone =>
    obtain ⟨since, engs, hv⟩ := serviceSet_eq s n true
    have hhalt : halts (serviceSet s n true) (serviceSet s n true).cur = true := by
      have hbit : (serviceSet s n true).pre.svc.getLsbD (serviceSet s n true).cur.tenant = true := by
        rw [hv]
        dsimp only
        rw [ht]
        exact getLsbD_putTenant_same _ hn _
      unfold halts preempted
      rw [hbit]
      rfl
    have hcur : (serviceSet s n true).cur = s.cur := by rw [hv]
    have htasks : (serviceSet s n true).tasks = [] := by rw [hv]; exact hl
    have hrec : saveRec (serviceSet s n true) n s.cur.core s.cur.number = none := by
      rw [saveRec_congr (s := s) (by rw [hv])]
      exact hr
    have hall := haltTenant_alone (n := n) htasks (by rw [hcur]; exact ht) (by rw [hcur]; exact hs) hhalt (by rw [hcur]; exact hrec)
    have hgiven := chunkGiven_alone htasks
    rw [request_service, hall]
    generalize chunkGiven (serviceSet s n true) = v at hgiven
    obtain ⟨hst, hkey, hctx⟩ := haltCur_plain hgiven.fresh (hgiven.gang.trans (by rw [hcur]; exact hg))
      (hgiven.hold (by rw [hcur]; exact hh)) (hgiven.inflight (by rw [hcur]; exact hi))
      (by rw [hgiven.tenant, hgiven.core, hgiven.number, saveRec_congr hgiven.ctl, hcur, ht]; exact hrec)
    refine ⟨hst, hkey.trans (hgiven.key.trans (by rw [hcur])), fun hf => ?_, fun hf => ?_⟩
    · rw [hctx, hgiven.ctx, hcur, hf]
      rfl
    · rw [hctx, hgiven.ctx, hcur, hf]
      rfl
  case ack =>
    have hr : requested s n src = true := by cases src <;> exact hreq
    have hgo : ¬ ((decide (64 ≤ n) || !requested s n src) = true) := by simp [hr, hn]
    refine ⟨fun hnone hu => ?_, fun hcov => ?_⟩
    · have hhalt : haltTenant s n = s := haltTenant_none fun u hu => (hnone u hu).2
      have hall : allHalted s n src = true := allHalted_of_none he fun u hu => (hnone u hu).1
      have hexec : exec (.preemptHaltComplete n src) s = .next (acknowledge s n src) := by
        refine (if_neg hgo).trans ?_
        rw [hhalt]
        exact if_pos hall
      rw [hexec, acknowledge_eq hu]
      refine ⟨acked s.pre n src, rfl, ?_, ?_, ?_⟩
      · cases src <;> rfl
      · cases src <;> rfl
      · cases src <;> exact getLsbD_putTenant_same _ hn _
    · exact (if_neg hgo).trans (if_neg (by rw [allHalted_of_covered hcov]; decide))

end Sys2Proof.Machine
end


section
/-! PROOFS. Trusted writes of control space: the home map, granules, weights and the words of the handler table (R133, R135, R143,
R255, R256, R458). -/

namespace Sys2Proof.Machine

variable {s : State}

/-! ### Operations that leave control space as it is -/

theorem onTask_ctl {f : State → State} (hf : ∀ s, (f s).ctl = s.ctl) (s : State) (k : Nat) : (onTask s k f).ctl = s.ctl :=
  onTask_rel (R := fun s t => t.ctl = s.ctl) (f := f) (fun h h' => h'.trans h) (fun h => by rw [h]) hf s k

theorem onTasks_ctl {f : State → State} (hf : ∀ s, (f s).ctl = s.ctl) (s : State) (ks : List Nat) : (onTasks s ks f).ctl = s.ctl :=
  onTasks_rel (R := fun s t => t.ctl = s.ctl) (f := f) (fun h h' => h'.trans h) (fun h => by rw [h]) hf s ks

theorem devWrite_ctl (s : State) (a : Nat) (bs : List Byte) (tag : Option Bool) : (devWrite s a bs tag).ctl = s.ctl := by
  unfold devWrite
  split_ifs
  · rfl
  · exact (publish_onlyAborts _ _ _).ctl

theorem chunkGiven_ctl (s : State) : (chunkGiven s).ctl = s.ctl := by
  unfold chunkGiven
  split_ifs
  · rfl
  · exact (abortChunk_onlyAborts s).ctl

theorem withdraw_ctl (s : State) : (withdraw s).ctl = s.ctl := by
  cases h : s.cur.hold with
  | none => rw [withdraw_none h]
  | some x =>
    unfold withdraw
    rw [h]
    cases x <;> rfl

theorem saveTask_ctl (s : State) (t : Task) (code : Nat) (acc : Option Nat) : (saveTask s t code acc).ctl = s.ctl := by
  unfold saveTask
  split
  · rfl
  · dsimp only
    split
    · exact devWrite_ctl _ _ _ _
    · split
      · exact devWrite_ctl _ _ _ _
      · exact (devWrite_ctl _ _ _ _).trans (devWrite_ctl _ _ _ _)

theorem dropDeficit_ctl (s : State) (core tenant : Nat) : (dropDeficit s core tenant).ctl = s.ctl := by
  unfold dropDeficit
  split_ifs <;> rfl

theorem haltCur_ctl (s : State) : (haltCur s).ctl = s.ctl := by
  unfold haltCur
  extract_lets v w t acc x y
  have hw : w.ctl = s.ctl := (withdraw_ctl _).trans (chunkGiven_ctl v)
  have hx : x.ctl = s.ctl := (saveTask_ctl _ _ _ _).trans hw
  have hy : y.ctl = s.ctl := by
    unfold y
    split
    · exact (devWrite_ctl _ _ _ _).trans hx
    · exact hx
  exact (dropDeficit_ctl _ _ _).trans hy

theorem haltTenant_ctl (s : State) (n : Nat) : (haltTenant s n).ctl = s.ctl :=
  (onTasks_ctl haltCur_ctl _ _).trans (onTasks_ctl chunkGiven_ctl _ _)

/-- Control space and the configuration are the same. -/
def SameSpace (s t : State) : Prop := t.ctl = s.ctl ∧ t.conf = s.conf

theorem SameSpace.refl (s : State) : SameSpace s s := ⟨rfl, rfl⟩

theorem SameSpace.trans {s t u : State} (h : SameSpace s t) (h' : SameSpace t u) : SameSpace s u :=
  ⟨h'.1.trans h.1, h'.2.trans h.2⟩

theorem foldl_sameSpace {α : Type} {F : State → α → State} (hF : ∀ s a, SameSpace s (F s a)) (l : List α) (s : State) :
    SameSpace s (l.foldl F s) := by
  induction l generalizing s with
  | nil => exact .refl s
  | cons a l ih => exact (hF s a).trans (ih _)

theorem poolJob_sameSpace (s : State) (base : Nat) (offs : List Nat) : SameSpace s (poolJob s base offs) := by
  unfold poolJob
  split_ifs
  · exact .refl s
  · have h := publish_onlyAborts (reach { s with mem := offs.foldl (fun m o => poolFree m base o) s.mem }
      (base / 64 :: offs.map fun o => (base + o) / 64)) 0 (base / 64 :: offs.map fun o => (base + o) / 64)
    exact ⟨h.ctl, h.conf⟩

theorem poolReturn_sameSpace (s : State) (tenant pool : Nat) (offs : List Nat) : SameSpace s (poolReturn s tenant pool offs) := by
  unfold poolReturn
  split
  · exact .refl s
  · exact foldl_sameSpace (fun s _ => poolJob_sameSpace s _ _) _ _

theorem cribEmpty_sameSpace (s : State) (tenant pool : Nat) : SameSpace s (cribEmpty s tenant pool) := by
  unfold cribEmpty
  refine foldl_sameSpace (fun v c => ?_) _ _
  split
  · exact .refl v
  · exact SameSpace.trans (t := setCribs v c.1 _) ⟨rfl, rfl⟩ (poolReturn_sameSpace _ _ _ _)

theorem poolLeaves_sameSpace (s s' : State) (n : Nat) : SameSpace s (poolLeaves s s' n) := by
  unfold poolLeaves
  split
  · split_ifs
    · exact cribEmpty_sameSpace _ _ _
    · exact .refl s
  · exact .refl s

theorem forgetData_ctl (s : State) (n : Nat) : (forgetData s n).ctl = s.ctl := by
  unfold forgetData
  dsimp only
  split_ifs <;> rfl

/-! ### Words of control space (R458) -/

theorem ctlGet_ctlSet_same (s : State) (off : Nat) (w : Word) {o : Nat} (h : 8 * (o / 8) = 8 * (off / 8)) :
    ctlGet (ctlSet s off w) o = w := by
  unfold ctlGet ctlSet
  rw [h]
  exact Tab.get_set_same ..

theorem ctlGet_ctlSet_other (s : State) (off : Nat) (w : Word) {o : Nat} (h : 8 * (o / 8) ≠ 8 * (off / 8)) :
    ctlGet (ctlSet s off w) o = ctlGet s o := Tab.get_set_other _ _ _ h

/-- What an interface's error writes: the word of its state, and no home-map word. -/
theorem ctlGet_tiError (s : State) (t : Nat) {o : Nat} (ho : o < 0x3000000) : ctlGet (tiError s t) o = ctlGet s o := by
  unfold tiError
  split_ifs
  · rw [ctlGet_congr (haltTenant_ctl _ _)]
    exact ctlGet_devCtl_other _ _ _ (by unfold tenantOff; omega)
  · rfl

theorem ctlGet_foldl_tiError (ts : List Nat) (s : State) {o : Nat} (ho : o < 0x3000000) :
    ctlGet (ts.foldl tiError s) o = ctlGet s o := by
  induction ts generalizing s with
  | nil => rfl
  | cons t ts ih => rw [List.foldl_cons, ih, ctlGet_tiError _ _ ho]

theorem hEntry_congr {t : State} (h : t.ctl = s.ctl) (n : Nat) : hEntry t n = hEntry s n := by
  unfold hEntry ctlGet
  rw [h]

theorem judgeEntry_congr {t : State} (h : t.ctl = s.ctl) (hc : t.conf = s.conf) (e : HEntry) : judgeEntry t e = judgeEntry s e := by
  have hmem : members t e = members s e := by unfold members coreEnabled; rw [hc]
  unfold judgeEntry
  rw [hmem]
  unfold otherRegions inArena arena tenantWord hIndices
  rw [h, show hEntry t = hEntry s from funext (hEntry_congr h)]
  unfold ctlGet
  rw [h]

/-! ### Who writes -/

theorem trustedAt_of {core slot : Nat} {t : Task} (h : taskAt s core slot = some t) : trustedAt s core slot = t.trusted := by
  unfold trustedAt
  rw [h]

/-! ### A home-map word (R133, R135) -/

section
variable (s) (core slot n : Nat) (hi : Bool) (v : Word)

/-- The word as a trusted store leaves it. -/
def hmapWord : Word := (ctlGet s (hmapOff n hi) &&& ~~~hmapMask hi) ||| (v &&& hmapMask hi)

/-- The machine once the word is written and the crib lists of a pool that leaves are emptied. -/
def hmapPut : State :=
  ctlSet (poolLeaves s (ctlSet s (hmapOff n hi) (hmapWord s n hi v)) n) (hmapOff n hi) (hmapWord s n hi v)

theorem hmapPut_ctl : (hmapPut s n hi v).ctl = (ctlSet s (hmapOff n hi) (hmapWord s n hi v)).ctl := by
  unfold hmapPut
  change Tab.set (poolLeaves _ _ _).ctl _ _ = _
  rw [(poolLeaves_sameSpace _ _ _).1]
  rfl

theorem hmapStore_busy (hb : bitOf (ctlGet (hmapPut s n hi v) (hmapOff n false)) 43 = true) :
    hmapStore s core slot n hi v =
      (regionChange (poolLeaves s (ctlSet s (hmapOff n hi) (hmapWord s n hi v)) n) (hEntry s n) (hEntry (hmapPut s n hi v) n)).foldl
        tiError (devCtl (hmapPut s n hi v) (hmapOff n hi) (hmapWord s n hi v)) := if_pos hb

/-- The machine once a judged entry's words stand. -/
def hmapJudged (reason : Option Nat) : State :=
  let s1 := hmapPut s n hi v
  let s2 := match reason with
    | none => s1
    | some _ => ctlSet s1 (hmapOff n false) (ctlGet s1 (hmapOff n false) &&& ~~~(1#64 <<< 63))
  (regionChange (poolLeaves s (ctlSet s (hmapOff n hi) (hmapWord s n hi v)) n) (hEntry s n) (hEntry s2 n)).foldl tiError
    (devCtl s2 (hmapOff n hi) (ctlGet s2 (hmapOff n hi)))

theorem hmapStore_judged (hb : bitOf (ctlGet (hmapPut s n hi v) (hmapOff n false)) 43 = false) :
    hmapStore s core slot n hi v =
      let reason := (hEntry (hmapPut s n hi v) n).bind (judgeEntry (hmapPut s n hi v))
      setWstat (forgetData (hmapJudged s n hi v reason) n) core slot reason :=
  if_neg (ne_true_of_eq_false hb)

end

theorem hmapOff_lt {n : Nat} (hn : n < 4096) (hi : Bool) : hmapOff n hi < 0x10000 := by
  unfold hmapOff; split_ifs <;> omega

theorem wstatOff_ne {n o core slot : Nat} (hn : n < 4096) (hi : Bool) (ho : o = hmapOff n hi) :
    8 * (o / 8) ≠ 8 * (wstatOff core slot / 8) := by
  have := hmapOff_lt hn hi
  unfold wstatOff
  omega

/-- The status of a judgement leaves the home map as it is. -/
theorem ctlGet_setWstat_hmap (core slot : Nat) (reason : Option Nat) {n : Nat} (hn : n < 4096) (hi : Bool) :
    ctlGet (setWstat s core slot reason) (hmapOff n hi) = ctlGet s (hmapOff n hi) :=
  ctlGet_devCtl_other _ _ _ (wstatOff_ne hn hi rfl)

theorem ctlGet_setWstat (core slot : Nat) (s : State) :
    ctlGet (setWstat s core slot none) (wstatOff core slot) = 0 ∧
    ∀ r, ctlGet (setWstat s core slot (some r)) (wstatOff core slot) = BitVec.ofNat 64 (1 + 2 ^ 8 * r) :=
  ⟨ctlGet_devCtl_same _ _ _ rfl, fun _ => ctlGet_devCtl_same _ _ _ rfl⟩

/-- An entry that is refused loses VALID. -/
theorem ctlGet_hmapJudged_refused {n : Nat} (hn : n < 4096) (hi : Bool) (v : Word) (r : Nat) :
    bitOf (ctlGet (hmapJudged s n hi v (some r)) (hmapOff n false)) 63 = false := by
  have hword : ∀ w : Word, bitOf (w &&& ~~~(1#64 <<< 63)) 63 = false := fun w => by simp [bitOf]
  unfold hmapJudged
  dsimp only
  rw [ctlGet_foldl_tiError _ _ ((hmapOff_lt hn false).trans (by decide))]
  cases hi with
  | false =>
    rw [ctlGet_devCtl_same _ _ _ rfl, ctlGet_ctlSet_same _ _ _ rfl]
    exact hword _
  | true =>
    rw [ctlGet_devCtl_other _ _ _ (by unfold hmapOff; simp), ctlGet_ctlSet_same _ _ _ rfl]
    exact hword _

/-- An entry that stands has the word as written. -/
theorem ctlGet_hmapJudged_stands {n : Nat} (hn : n < 4096) (hi : Bool) (v : Word) :
    ctlGet (hmapJudged s n hi v none) (hmapOff n hi) = hmapWord s n hi v := by
  unfold hmapJudged
  dsimp only
  rw [ctlGet_foldl_tiError _ _ ((hmapOff_lt hn hi).trans (by decide)), ctlGet_devCtl_same _ _ _ rfl]
  exact ctlGet_ctlSet_same _ _ _ rfl

/-- What a trusted write of a home-map word leaves. -/
theorem hmapStore_holds (core slot : Nat) {n : Nat} (hn : n < 4096) (hi : Bool) (v : Word) :
    (bitOf (ctlGet (ctlSet s (hmapOff n hi) (hmapWord s n hi v)) (hmapOff n false)) 43 = true →
      ctlGet (hmapStore s core slot n hi v) (hmapOff n hi) = hmapWord s n hi v) ∧
    (bitOf (ctlGet (ctlSet s (hmapOff n hi) (hmapWord s n hi v)) (hmapOff n false)) 43 = false →
      (∀ e r, hEntry (ctlSet s (hmapOff n hi) (hmapWord s n hi v)) n = some e →
        judgeEntry (ctlSet s (hmapOff n hi) (hmapWord s n hi v)) e = some r →
        bitOf (ctlGet (hmapStore s core slot n hi v) (hmapOff n false)) 63 = false ∧
        ctlGet (hmapStore s core slot n hi v) (wstatOff core slot) = BitVec.ofNat 64 (1 + 2 ^ 8 * r)) ∧
      (∀ e, hEntry (ctlSet s (hmapOff n hi) (hmapWord s n hi v)) n = some e →
        judgeEntry (ctlSet s (hmapOff n hi) (hmapWord s n hi v)) e = none →
        ctlGet (hmapStore s core slot n hi v) (hmapOff n hi) = hmapWord s n hi v ∧
        ctlGet (hmapStore s core slot n hi v) (wstatOff core slot) = 0)) := by
  have hctl := hmapPut_ctl s n hi v
  have hconf : (hmapPut s n hi v).conf = (ctlSet s (hmapOff n hi) (hmapWord s n hi v)).conf := (poolLeaves_sameSpace _ _ _).2
  rw [← ctlGet_congr hctl]
  refine ⟨fun hb => ?busy, fun hb => ⟨fun e r he hj => ?refused, fun e he hj => ?stands⟩⟩
  case busy =>
    rw [hmapStore_busy s core slot n hi v hb, ctlGet_foldl_tiError _ _ ((hmapOff_lt hn hi).trans (by decide))]
    exact ctlGet_devCtl_same _ _ _ rfl
  case refused =>
    rw [← hEntry_congr hctl] at he
    rw [← judgeEntry_congr hctl hconf] at hj
    rw [hmapStore_judged s core slot n hi v hb, he, Option.bind_some, hj]
    refine ⟨?_, (ctlGet_setWstat core slot _).2 r⟩
    rw [ctlGet_setWstat_hmap core slot _ hn false, ctlGet_congr (forgetData_ctl _ _)]
    exact ctlGet_hmapJudged_refused hn hi v r
  case stands =>
    rw [← hEntry_congr hctl] at he
    rw [← judgeEntry_congr hctl hconf] at hj
    rw [hmapStore_judged s core slot n hi v hb, he, Option.bind_some, hj]
    refine ⟨?_, (ctlGet_setWstat core slot _).1⟩
    rw [ctlGet_setWstat_hmap core slot _ hn hi, ctlGet_congr (forgetData_ctl _ _)]
    exact ctlGet_hmapJudged_stands hn hi v

/-! ### A granule marked unscrubbed (R143) -/

theorem lookup_filter (p : Nat → Bool) (cs : List Host.Cell) (a : Nat) :
    Mem.lookup (cs.filter fun c => p c.1) a = if p a then Mem.lookup cs a else Mem.unlisted := by
  induction cs with
  | nil => simp [Mem.lookup]
  | cons c cs ih =>
    by_cases hc : p c.1 = true
    · rw [List.filter_cons_of_pos (by exact hc)]
      by_cases ha : c.1 = a
      · subst ha
        rw [if_pos hc]
        simp [Mem.lookup]
      · simp only [Mem.lookup, ha, if_false, ih]
    · rw [List.filter_cons_of_neg (by exact hc), ih]
      by_cases ha : c.1 = a
      · subst ha
        rw [if_neg hc, if_neg hc]
      · simp only [Mem.lookup, ha, if_false]

/-- An address lies outside granule `g`. -/
def outside (g a : Nat) : Bool := !(decide (granuleBase g ≤ a) && decide (a < granuleBase g + 0x10000))

/-- Memory once a granule is marked. -/
def markedMem (m : Mem) (g : Nat) : Mem :=
  { m with cells := m.cells.filter fun c => outside g c.1, empties := m.empties.filter (outside g)
           poison := m.poison.filter (outside g), scrubbed := removeNat g m.scrubbed, clearing := m.clearing.filter (· != g) }

theorem read_markedMem (m : Mem) (g a : Nat) : (markedMem m g).read a = if outside g a then m.read a else Mem.unlisted :=
  lookup_filter (outside g) m.cells a

theorem granuleBase_mod (g : Nat) : granuleBase g % 8 = 0 := by
  unfold granuleBase
  split_ifs <;> omega

theorem outside_word (g a : Nat) : outside g (8 * (a / 8)) = outside g a := by
  have h := granuleBase_mod g
  have hlo : granuleBase g ≤ 8 * (a / 8) ↔ granuleBase g ≤ a := by omega
  have hhi : 8 * (a / 8) < granuleBase g + 0x10000 ↔ a < granuleBase g + 0x10000 := by omega
  unfold outside
  rw [decide_eq_decide.2 hlo, decide_eq_decide.2 hhi]

theorem full_markedMem (m : Mem) (g a : Nat) : (markedMem m g).full a = if outside g a then m.full a else true := by
  have hc : (m.empties.filter (outside g)).contains (8 * (a / 8)) = (m.empties.contains (8 * (a / 8)) && outside g a) := by
    rw [Bool.eq_iff_iff, List.contains_iff_mem, List.mem_filter, Bool.and_eq_true, List.contains_iff_mem, outside_word]
  unfold Mem.full markedMem
  rw [hc]
  cases outside g a <;> simp

theorem markGranule_unmet (g : Nat) (h : ∀ k ∈ allTasks s, k.chunk.rlines = [] ∧ k.chunk.wlines = []) :
    markGranule s g = observe { s with mem := markedMem s.mem g } := by
  have hu : ∀ ls : List Nat, ∀ u ∈ allTasks { s with mem := markedMem s.mem g }, ∀ l ∈ ls,
      l ∉ u.chunk.rlines ++ u.chunk.wlines := by
    intro ls u hu l _
    obtain ⟨hr, hw⟩ := h u hu
    rw [hr, hw]
    exact List.not_mem_nil
  have hp : publish { s with mem := markedMem s.mem g } 0 (granuleLines g) = { s with mem := markedMem s.mem g } :=
    publish_of_unmet 0 (hu _)
  change ctlChanged (publish { s with mem := markedMem s.mem g } 0 (granuleLines g)) _ = _
  rw [hp]
  exact congrArg observe (publish_of_unmet 0 (hu _))

/-- The tasks that an observation leaves have the chunks they had. -/
theorem observe_chunks {p : Chunk → Prop} (h : ∀ k ∈ allTasks s, p k.chunk) : ∀ k ∈ allTasks (observe s), p k.chunk := by
  intro k hk
  rcases mem_allTasks.1 hk with ⟨hi, rfl⟩ | hk
  · have hc : (observe s).cur = { s.cur with waits := (observe s).cur.waits, inline := (observe s).cur.inline } := observe_onlySlots s
    rw [hc] at hi ⊢
    exact h s.cur (mem_allTasks.2 (.inl ⟨hi, rfl⟩))
  · obtain ⟨u, hu, rfl⟩ := List.mem_map.1 hk
    exact h u (mem_allTasks.2 (.inr hu))

theorem unscrubbedStore_one (core slot : Nat) {g : Nat} (hg : g < granules) (hc : granuleCarved g = false)
    (hs : granuleSealed s g = false) : unscrubbedStore s core slot [g] = setWstat (markGranule s g) core slot none := by
  unfold unscrubbedStore
  dsimp only
  rw [List.filter_cons_of_pos (by simp [hg, hc]), List.filter_nil, List.foldl_cons, List.foldl_nil, hs, List.any_cons, List.any_nil, hs]
  rfl

/-- What a mark leaves of memory. -/
theorem unscrubbedStore_mem (core slot : Nat) {g : Nat} (hg : g < granules) (hc : granuleCarved g = false)
    (hs : granuleSealed s g = false) (h : ∀ k ∈ allTasks s, k.chunk.rlines = [] ∧ k.chunk.wlines = []) :
    (unscrubbedStore s core slot [g]).mem = markedMem s.mem g := by
  have hu : Unseen (ctlSet (observe { s with mem := markedMem s.mem g }) (wstatOff core slot) 0) (wstatOff core slot) := by
    intro k hk
    obtain ⟨hr, hw⟩ := observe_chunks (s := { s with mem := markedMem s.mem g }) (p := fun c => c.rlines = [] ∧ c.wlines = []) h k hk
    rw [hr, hw]
    exact List.not_mem_nil
  rw [unscrubbedStore_one core slot hg hc hs, markGranule_unmet g h]
  exact congrArg State.mem (ctlChanged_of_unseen hu)

/-! ### The words a trusted store sets whole -/

theorem overlayStore_whole (o : Nat) (a b : Nat) : overlayStore o (bytesOfNat 8 a) o (bytesOfNat 8 b) = bytesOfNat 8 a := by
  refine List.ext_getElem (by simp [overlayStore]) fun k hk hk' => ?_
  have h8 : k < 8 := by simpa using hk'
  simp only [overlayStore]
  rw [List.getElem_mapIdx, if_pos ⟨by omega, by rw [length_bytesOfNat]; omega⟩, Nat.add_sub_cancel_left, List.getD_eq_getElem _ _ hk']

theorem releaseEnabled_none (h : s.sched.enWait = []) : releaseEnabled s = s := by
  unfold releaseEnabled
  rw [h]
  rfl

theorem devCtl_enWait (s : State) (o : Nat) (v : Word) : (devCtl s o v).sched.enWait = s.sched.enWait := by
  have h := (ctlChanged_onlyAborts (ctlSet s o v) o).eq
  change (ctlChanged (ctlSet s o v) o).sched.enWait = _
  rw [h]
  rfl

theorem natOfBytes_overlay (o : Nat) (v old : Word) :
    BitVec.ofNat 64 (natOfBytes (overlayStore o (bytesOfNat 8 v.toNat) o (bytesOfNat 8 old.toNat))) = v := by
  rw [overlayStore_whole, natOfBytes_bytesOfNat, Nat.mod_eq_of_lt v.isLt, BitVec.ofNat_toNat, BitVec.setWidth_eq]

/-- A word of the handler table is set whole. -/
theorem ctlStore_handler (core slot : Nat) {o : Nat} (v : Word) (h8 : o % 8 = 0) (hlo : 0x3200000 ≤ o) (hhi : o < 0x3240000) :
    ctlStore s core slot o (bytesOfNat 8 v.toNat) = devCtl s o v := by
  have ho : 8 * (o / 8) = o := by omega
  have hg : granules / 8 < 0x1000000 := by decide
  unfold ctlStore
  extract_lets o' old v' put t w
  have hv : v' = v := by unfold v'; rw [show o' = o from ho]; exact natOfBytes_overlay o v old
  have hput : put (BitVec.allOnes 64) = devCtl s o v := by
    unfold put
    rw [hv, show o' = o from ho, BitVec.and_allOnes, BitVec.not_allOnes, BitVec.and_zero, BitVec.zero_or]
  rw [show o' = o from ho, if_neg (by omega), if_neg (by simp; omega), if_neg (by simp; omega), if_neg (by simp; omega),
    if_neg (by simp; omega), if_neg (by simp; omega), if_pos (by simp; omega), hput]

/-- A store to a word that only the device writes is dropped. -/
theorem ctlStore_device (core slot : Nat) {o : Nat} (v : Word) (h8 : o % 8 = 0) (hlo : 0x4000000 ≤ o) :
    ctlStore s core slot o (bytesOfNat 8 v.toNat) = s := by
  have ho : 8 * (o / 8) = o := by omega
  have hg : granules / 8 < 0x1000000 := by decide
  unfold ctlStore
  extract_lets o' old v' put t w
  rw [show o' = o from ho, if_neg (by omega), if_neg (by simp; omega), if_neg (by simp; omega), if_neg (by simp; omega),
    if_neg (by simp; omega), if_neg (by simp; omega), if_neg (by simp; omega)]

/-! ### The judgement and the weights -/

theorem judgeEntry_holds (s : State) (e f : HEntry) :
    (f ∈ otherRegions s e.n → e.overlaps f = true → judgeEntry s e = some 1) ∧
    ((∀ g ∈ otherRegions s e.n, e.overlaps g = false) →
      (members s e = [] → judgeEntry s e = some 2) ∧
      (members s e ≠ [] → inArena s e = false → judgeEntry s e = some 3) ∧
      (members s e ≠ [] → inArena s e = true → judgeEntry s e = none)) := by
  refine ⟨fun hf ho => if_pos (List.any_eq_true.2 ⟨f, hf, ho⟩), fun hno => ?_⟩
  have hany : ¬ (otherRegions s e.n).any e.overlaps = true := by
    rw [Bool.not_eq_true, List.any_eq_false]
    exact fun g hg => by rw [hno g hg]; decide
  refine ⟨fun hm => ?_, fun hm ha => ?_, fun hm ha => ?_⟩
  · exact (if_neg hany).trans (if_pos (by rw [hm]; rfl))
  · exact (if_neg hany).trans ((if_neg (by simpa using hm)).trans (if_pos (by rw [ha]; rfl)))
  · exact (if_neg hany).trans ((if_neg (by simpa using hm)).trans (if_neg (by rw [ha]; decide)))

theorem weight_holds (s : State) (n : Nat) (v : Byte) (hn : n < 64) : ∃ t, exec (.weight n v) s = .next t ∧
    (tenantWord t n 1).toNat = max 1 v.toNat ∧ (∀ o, 8 * (o / 8) ≠ tenantOff n 1 → ctlGet t o = ctlGet s o) := by
  have ho : 8 * (tenantOff n 1 / 8) = tenantOff n 1 := by unfold tenantOff; omega
  refine ⟨setWeight s n v, if_pos hn, ?_, fun o h => ctlGet_devCtl_other _ _ _ (by rw [ho]; exact h)⟩
  have hw : tenantWord (setWeight s n v) n 1 = if v = 0 then 1 else v.zeroExtend 64 := ctlGet_devCtl_same _ _ _ rfl
  rw [hw]
  by_cases hv : v = 0
  · rw [if_pos hv, hv]
    rfl
  · rw [if_neg hv]
    have h0 : v.toNat ≠ 0 := fun h => hv (BitVec.eq_of_toNat_eq h)
    have h8 := v.isLt
    rw [BitVec.zeroExtend, BitVec.toNat_setWidth, Nat.mod_eq_of_lt (by omega)]
    omega

/-- Settles O45: who writes, and what a home-map word, a granule's mark, a weight and a word of the handler table leave. -/
theorem controlSpace : Obligations.ControlSpace := by
  refine ⟨fun s core slot t ht => ⟨fun hu n hi v g o => ?untrusted, fun htr hc hs => ⟨fun n hi v hn => ?hmap,
    fun g hg hca hse hm hk => ?mark, fun o v h8 hw => ?word⟩⟩, judgeEntry_holds, weight_holds,
    fun s o v => ⟨ctlGet_devCtl_same _ _ _ rfl, fun p hp => ctlGet_devCtl_other _ _ _ (by omega)⟩⟩
  case untrusted =>
    have hf : trustedAt s core slot = false := (trustedAt_of ht).trans hu
    exact ⟨if_neg (by rw [hf]; simp), if_neg (by rw [hf]; decide), if_neg (by rw [hf]; simp)⟩
  case hmap =>
    have hexec : exec (.hmapWrite core slot n hi v) s = .next (settle (hmapStore s core slot n hi v)) :=
      if_pos (by rw [trustedAt_of ht, htr]; simpa using hn)
    exact ⟨hexec, hmapStore_holds core slot hn hi v⟩
  case mark =>
    have hexec : exec (.unscrubbedMark core slot g) s = .next (settle (unscrubbedStore s core slot [g])) :=
      if_pos ((trustedAt_of ht).trans htr)
    have hmem := unscrubbedStore_mem core slot hg hca hse hk
    refine ⟨hexec, ?_, fun a hlo hhi => ?_, fun a ha => ?_⟩
    · unfold unscrubbed
      rw [hmem]
      simp [hg, hca, markedMem, removeNat]
    · have ho : outside g a = false := by simp [outside, hlo, hhi]
      rw [hmem, read_markedMem, full_markedMem, ho]
      exact ⟨rfl, rfl⟩
    · have ho : outside g a = true := by simp [outside]; omega
      rw [hmem, read_markedMem, full_markedMem, ho]
      exact ⟨rfl, rfl⟩
  case word =>
    have hexec : exec (.controlSpaceWrite core slot o v) s = .next (settle (ctlWrite s core slot o (bytesOfNat 8 v.toNat))) :=
      if_pos (by rw [trustedAt_of ht, htr]; simpa using h8)
    refine ⟨fun hlo hhi => ?_, fun hlo => ?_⟩
    · rw [hexec, ctlWrite, ctlStore_handler core slot v h8 hlo hhi, releaseEnabled_none ((devCtl_enWait s o v).trans hw)]
    · rw [hexec, ctlWrite, ctlStore_device core slot v h8 hlo, releaseEnabled_none hw]

end Sys2Proof.Machine
end


section
/-! PROOFS. Requests of other packages: a flit of an interface that is being torn down (R281, R296, R314). -/

namespace Sys2Proof.Machine

theorem sendFlit_nacked (s : State) (f : Flit) : (sendFlit s f).fab.nacked = s.fab.nacked := by
  unfold sendFlit
  dsimp only
  split_ifs <;> rfl

/-- An answer leaves what waits here as it is. -/
theorem replyTo_quiet {s : State} (hq : Quiet s) (f : Flit) (status : Nat) (ws : List Word) : Quiet (replyTo s f status ws) := by
  unfold replyTo
  refine ⟨?_, (sendFlit_holdQ _ _).trans hq.2⟩
  obtain ⟨fab, hs, -⟩ := sendFlit_eq s { mkFlit s f.src 1 f.ti f.dcore f.score 9 f.reqid ws with status := status, dinc := f.dinc }
  rw [hs]
  exact hq.1

/-! ### A state in which TORN is answered to a load whose number a posted flit bears (O46)

The statement has the state after the answer TORN as that of `replyTo` alone. The interface also forgets the flits answered
NACK-WAIT that bear the same source core and REQID. -/

/-- Link 0 is up with a key of its receive direction, TI 1 is being torn down, and the flit 0 of core 0 of package 0 has been
answered NACK-WAIT. -/
def tornState : State := { State.reset with
  ctl := [(tenantOff 1 0, 4)]
  fab := { State.reset.fab with links := [(0, { linkDown with up := true })], nacked := [(0, [(0, 1)])] }
  mgmt := { State.reset.mgmt with keys := [(66, { KeySlot.empty with image := [0] })] } }

/-- A load of TI 1, its tag still to be set. -/
def untaggedLoad : Flit := ⟨0, 0, 0, false, 0, 1, 0, 0, 0, 0, 0, 0, [0, 0], 0, 0, []⟩

def tornLoad : Flit := { untaggedLoad with tag := tagDue tornState untaggedLoad }

theorem tornLoad_enters : Enters tornState tornLoad := by
  have htag : tagDue tornState tornLoad = tagDue tornState untaggedLoad := by
    unfold tagDue flitTag flitHeader flitSealed
    rfl
  have hkey : (bankKey tornState (rxSlot 0) false).isEmpty = false := by decide +kernel
  refine ⟨by decide +kernel, ?_, by decide +kernel⟩
  unfold tagVerifies
  rw [htag]
  change (!(bankKey tornState (rxSlot 0) false).isEmpty && tagDue tornState untaggedLoad == tagDue tornState untaggedLoad) = true
  rw [hkey, beq_self_eq_true]
  rfl

/-- What the interface does with it. -/
def tornAnswered : State :=
  replyTo (forgetNacks (tagPassed tornState tornLoad) (fun k => k == holdKey tornLoad) fun n => n.1 == tornLoad.reqid) tornLoad 3 []

theorem tornLoad_answered : exec (.load tornLoad) tornState = .next (settle (observe tornAnswered)) := by
  obtain ⟨hf, ht, ha⟩ := tornLoad_enters
  change takeFlit tornState 0 tornLoad _ = _
  unfold takeFlit
  rw [if_pos (.inl rfl)]
  unfold receive
  rw [hf, ha, if_neg (by decide), ht, if_neg (by decide)]
  unfold acceptFlit
  rw [if_neg (by decide +kernel), if_neg (by decide +kernel), if_pos (by decide +kernel)]
  rfl

/-- Refutes O46: a load answered TORN, whose source core and number are those of a posted flit answered NACK-WAIT, leaves that
flit forgotten. -/
theorem not_remoteService : ¬ Obligations.RemoteService := by
  rintro ⟨h, -⟩
  obtain ⟨-, -, -, -, -, -, -, -, -, htorn, -⟩ := h tornState tornLoad
  obtain ⟨-, htorn⟩ := htorn tornLoad_enters (by decide +kernel) rfl
  have heq := tornLoad_answered.symm.trans (htorn rfl (by decide +kernel))
  have hquiet : ∀ v : State, Quiet v → settle (observe (replyTo v tornLoad 3 [])) = observe (replyTo v tornLoad 3 []) := fun v hv =>
    settle_quiet (replyTo_quiet hv tornLoad 3 [])
  have hn : ∀ v : State, (observe (replyTo v tornLoad 3 [])).fab.nacked = v.fab.nacked := fun v => sendFlit_nacked _ _
  have hstate := Host.Outcome.next.inj heq
  unfold tornAnswered at hstate
  rw [hquiet _ ⟨rfl, rfl⟩, hquiet _ ⟨rfl, rfl⟩] at hstate
  have hnack := congrArg (fun v : State => v.fab.nacked) hstate
  rw [hn, hn] at hnack
  exact absurd hnack (by decide +kernel)

end Sys2Proof.Machine
end


section
/-! PROOFS. Replies, retries, reply timeouts, incarnations and fences (R281, R294 to R296, R298). -/

namespace Sys2Proof.Machine

variable {s : State} {f : Flit}

/-! ### A flit that the interface takes -/

/-- A well-formed flit of an operation that no announcement holds back, and that no incarnation or teardown turns away, reaches
its operation. -/
theorem receive_accepted (k : State → State) (ha : flitArrives s f = true) (ht : tagVerifies s f = true)
    (hm : malformed f = false) (hw : announcing s = false ∨ f.op = 9 ∨ f.cls = 4)
    (hi : stampChecked f = true → f.dinc = s.conf.incarnation) (hc : f.cls = 4 ∨ f.op = 9 ∨ tiState s f.ti ≠ 4) :
    receive s f k = k (tagPassed s f) := by
  have hpass : (tagPassed s f).conf = s.conf ∧ (tagPassed s f).ctl = s.ctl := by
    unfold tagPassed
    dsimp only
    split_ifs <;> exact ⟨rfl, rfl⟩
  have hin : receive s f k = acceptFlit (tagPassed s f) f k := by
    unfold receive
    rw [if_neg (by rcases hw with h | h | h <;> simp [ha, h]), if_neg (by simp [ht])]
  have hstale : ¬ (stampChecked f && f.dinc != (tagPassed s f).conf.incarnation) = true := by
    rw [hpass.1]
    cases hs : stampChecked f with
    | false => simp
    | true => simp [hi hs]
  have htorn : ¬ (f.cls ≠ 4 ∧ f.op ≠ 9 ∧ tiState (tagPassed s f) f.ti = 4) := by
    have htis : tiState (tagPassed s f) f.ti = tiState s f.ti := by unfold tiState tenantWord ctlGet; rw [hpass.2]
    rw [htis]
    rintro ⟨h4, h9, h⟩
    rcases hc with hc | hc | hc
    · exact h4 hc
    · exact h9 hc
    · exact hc h
  rw [hin]
  unfold acceptFlit
  rw [hm, if_neg (by decide), if_neg hstale, if_neg htorn]

theorem takeFlit_accepted {op : Nat} (k : State → State) (ho : f.op = op) (ha : flitArrives s f = true) (ht : tagVerifies s f = true)
    (hm : malformed f = false) (hw : announcing s = false ∨ f.op = 9 ∨ f.cls = 4)
    (hi : stampChecked f = true → f.dinc = s.conf.incarnation) (hc : f.cls = 4 ∨ f.op = 9 ∨ tiState s f.ti ≠ 4) :
    takeFlit s op f k = .next (settle (observe (k (tagPassed s f)))) := by
  unfold takeFlit
  rw [if_pos (.inl ho), receive_accepted k ha ht hm hw hi hc]

/-- A well-formed flit travels under the class of its operation. -/
theorem cls_of_wellFormed (hm : malformed f = false) : f.cls = opClass f.op := by
  unfold malformed at hm
  simp only [Bool.or_eq_false_iff, decide_eq_false_iff_not, not_not] at hm
  obtain ⟨⟨⟨⟨⟨⟨-, -⟩, hc⟩, -⟩, -⟩, -⟩, -⟩ := hm
  exact hc

/-- What the check of a flit's tag changes: its link, and the keys of the receive direction. -/
theorem tagPassed_eq (s : State) (f : Flit) : ∃ links keys, tagPassed s f =
    { s with fab := { s.fab with links := links }, mgmt := { s.mgmt with keys := keys } } := by
  unfold tagPassed
  dsimp only
  split_ifs
  · exact ⟨_, _, rfl⟩
  · exact ⟨_, _, rfl⟩

/-! ### A held slot has its answer -/

theorem installCopy_eq (s : State) (r : OutReq) (bs : List Byte) : ∃ fc n, installCopy s r bs =
    { s with eng := { s.eng with farCopies := fc }, fresh := n } := by
  unfold installCopy
  dsimp only
  split_ifs <;> exact ⟨_, _, rfl⟩

theorem answerHeld_self {reqid : Nat} (ht : isTask s.cur = true) (hh : s.cur.hold = some (.reply reqid))
    (hs : s.cur.slot?.isSome = true) (h : Hold) : answerHeld s s.cur.key reqid h = modCur s fun t => { t with hold := some h } := by
  unfold answerHeld
  rw [onTask_self ht, if_neg (by rw [hh]; exact fun h => h rfl)]
  exact if_pos hs

/-- The requests outstanding once one has its answer. -/
def otherReqs (s : State) (r : OutReq) : List OutReq := s.fab.outReqs.filter fun x => !(x.core == r.core && x.reqid == r.reqid)

/-- The machine once the held access of the executing task has the answer `h` to the request `r`. -/
structure HeldAnswered (s : State) (r : OutReq) (h : Hold) (t : State) : Prop where
  outReqs : t.fab.outReqs = otherReqs s r
  epInc : t.fab.epInc = s.fab.epInc
  mem : t.mem = s.mem
  tears : t.tears = s.tears
  records : t.eng.gleaner.records = s.eng.gleaner.records
  cur : t.cur = { s.cur with hold := some h }

/-- A resident task's held access has its answer. -/
theorem takeAnswer_held {r : OutReq} {d : Dest} {n : Nat} {g : Bool} (hc : r.copy = none) (ht : isTask s.cur = true)
    (hw : r.waits = some (s.cur.key, d, n, g)) (hh : s.cur.hold = some (.reply r.reqid)) (hs : s.cur.slot?.isSome = true)
    (status : Nat) (ws : List Word) :
    HeldAnswered s r (.answer (statusCause status ws) (destValue d n g ((bytesOfWords ws).take n)) d.pair)
      (takeAnswer s r status ws) := by
  have hans : ∀ v : State, v.cur = s.cur → ∀ h, answerHeld v s.cur.key r.reqid h = { v with cur := { s.cur with hold := some h } } := by
    intro v hv h
    rw [← hv, answerHeld_self (by rw [hv]; exact ht) (by rw [hv]; exact hh) (by rw [hv]; exact hs)]
    rfl
  unfold takeAnswer
  dsimp only
  rw [hc, hw]
  dsimp only
  split_ifs
  · obtain ⟨fc, m, hi⟩ := installCopy_eq { s with fab := { s.fab with outReqs := otherReqs s r } } r ((bytesOfWords ws).take n)
    change HeldAnswered s r _ (answerHeld (installCopy { s with fab := { s.fab with outReqs := otherReqs s r } } r _) _ _ _)
    rw [hi, hans]
    · exact ⟨rfl, rfl, rfl, rfl, rfl, rfl⟩
    · rfl
  · rw [hans]
    · exact ⟨rfl, rfl, rfl, rfl, rfl, rfl⟩
    · rfl

theorem tearAll_none (h : s.tears = []) : tearAll s = s := by
  unfold tearAll
  rw [h]
  rfl

theorem not_mem_otherReqs {r x : OutReq} (h : x ∈ otherReqs s r) : ¬(x.core = r.core ∧ x.reqid = r.reqid) := by
  have hx := (List.mem_filter.1 h).2
  rintro ⟨hc, hi⟩
  simp [hc, hi] at hx

/-! ### Replies -/

theorem execReply_taken (ho : f.op = 9) (ha : flitArrives s f = true) (ht : tagVerifies s f = true) (hm : malformed f = false) :
    (replyReq s f = none → exec (.reply f) s = .next (settle (observe (takeReport (tagPassed s f) f)))) ∧
    ∀ r, replyReq s f = some r →
      (replyFits f r = false → exec (.reply f) s = .next (settle (observe (siloAdd (tagPassed s f) 2237)))) ∧
      (replyFits f r = true → f.status = 1 → exec (.reply f) s = .next (settle (observe (mapReq (tagPassed s f) r.core r.reqid fun x =>
        { x with delay := nextDelay r.delay, due := some ((tagPassed s f).time + nextDelay r.delay) })))) ∧
      (replyFits f r = true → f.status ≠ 1 →
        exec (.reply f) s = .next (settle (observe (tearAll (takeAnswer (tagPassed s f) r f.status f.words))))) := by
  have hst : stampChecked f = true → f.dinc = s.conf.incarnation := fun h => by rw [stampChecked, ho] at h; cases h
  have hreq : replyReq (tagPassed s f) f = replyReq s f := by
    obtain ⟨links, keys, hp⟩ := tagPassed_eq s f
    rw [hp]
    rfl
  have hexec := fun k => takeFlit_accepted (s := s) (f := f) (op := 9) k ho ha ht hm (.inr (.inl ho)) hst (.inr (.inl ho))
  refine ⟨fun hr => ?_, fun r hr => ⟨fun hf => ?_, fun hf h1 => ?_, fun hf h1 => ?_⟩⟩
  all_goals
    refine (hexec _).trans (congrArg (fun v => Host.Outcome.next (settle (observe v))) ?_)
    dsimp only
    rw [hreq, hr]
  · exact if_pos (by rw [hf]; rfl)
  · exact (if_neg (by rw [hf]; decide)).trans (if_pos h1)
  · exact (if_neg (by rw [hf]; decide)).trans (if_neg h1)

/-- A flit that answers nothing is dropped and counted, or it reports the condition of a wait slot. -/
theorem takeReport_cases : ((∀ u ∈ allTasks s, reportTo s f u = u) → takeReport s f = siloAdd s 2237) ∧
    ((∃ u ∈ allTasks s, reportTo s f u ≠ u) → takeReport s f = mapTasks s (reportTo s f)) := by
  unfold takeReport
  refine ⟨fun h => if_neg ?_, fun ⟨u, hu, hn⟩ => if_pos (List.any_eq_true.2 ⟨u, hu, by simpa using hn⟩)⟩
  rw [Bool.not_eq_true, List.any_eq_false]
  exact fun u hu => by simp [h u hu]

theorem replyFits_iff {r : OutReq} : replyFits f r = true ↔ f.dinc = r.flit.dinc ∧ (f.status ≠ 2 → f.sinc = r.flit.dinc) := by
  unfold replyFits
  simp only [Bool.and_eq_true, beq_iff_eq, Bool.or_eq_true]
  tauto

theorem replies_taken (s : State) (f : Flit) (ho : f.op = 9) (ha : flitArrives s f = true) (ht : tagVerifies s f = true)
    (hm : malformed f = false) :
    let v := tagPassed s f
    let ends := fun (t : State) => exec (.reply f) s = .next (settle (observe t))
    (replyReq s f = none → (∀ u ∈ allTasks v, reportTo v f u = u) → ends (siloAdd v 2237)) ∧
    (replyReq s f = none → (∃ u ∈ allTasks v, reportTo v f u ≠ u) → ends (mapTasks v (reportTo v f))) ∧
    (∀ r, replyReq s f = some r →
      (f.dinc ≠ r.flit.dinc ∨ f.status ≠ 2 ∧ f.sinc ≠ r.flit.dinc → ends (siloAdd v 2237)) ∧
      (f.status = 1 → f.dinc = r.flit.dinc → f.sinc = r.flit.dinc → ends (mapReq v r.core r.reqid fun x =>
        { x with delay := min 32768 (2 * r.delay), due := some (s.time + min 32768 (2 * r.delay)) })) ∧
      (∀ d n g, f.status ≠ 1 → f.dinc = r.flit.dinc → (f.status ≠ 2 → f.sinc = r.flit.dinc) → s.tears = [] → r.copy = none →
        isTask s.cur = true →
        r.waits = some (s.cur.key, d, n, g) → s.cur.hold = some (.reply r.reqid) → s.cur.slot?.isSome = true →
        ∃ t, ends t ∧ (∀ x ∈ t.fab.outReqs, ¬(x.core = r.core ∧ x.reqid = r.reqid)) ∧ t.mem = s.mem ∧
          t.cur = { s.cur with hold := some (.answer (if f.status = 0 then none
              else if f.status = 4 then some (fieldNat (f.words.getD 0 0) 7 0) else some 0x13)
            (destValue d n g ((bytesOfWords f.words).take n)) d.pair) })) := by
  intro v ends
  obtain ⟨hnone, hsome⟩ := execReply_taken ho ha ht hm
  obtain ⟨hdrop, hreport⟩ := takeReport_cases (s := v) (f := f)
  obtain ⟨links, keys, hp⟩ := tagPassed_eq s f
  have htime : (tagPassed s f).time = s.time := by rw [hp]
  refine ⟨fun hr hu => ?_, fun hr hu => ?_, fun r hr => ?_⟩
  · exact (hnone hr).trans (by rw [hdrop hu])
  · exact (hnone hr).trans (by rw [hreport hu])
  · obtain ⟨hbad, hnack, hans⟩ := hsome r hr
    refine ⟨fun h => hbad ?_, fun h1 hd hi => ?_, fun d n g h1 hd hi htr hc hta hw hh hsl => ?_⟩
    · rw [← Bool.not_eq_true, replyFits_iff]
      rintro ⟨hd, hi⟩
      rcases h with h | ⟨h2, h⟩
      · exact h hd
      · exact h (hi h2)
    · have hexec := hnack (replyFits_iff.2 ⟨hd, fun _ => hi⟩) h1
      rw [htime] at hexec
      exact hexec
    · have hcur : v.cur = s.cur := by unfold v; rw [hp]
      have hmem : v.mem = s.mem := by unfold v; rw [hp]
      have hans' := takeAnswer_held (s := v) hc (by rw [hcur]; exact hta) (by rw [hcur]; exact hw) (by rw [hcur]; exact hh)
        (by rw [hcur]; exact hsl) f.status f.words
      have htears : (takeAnswer v r f.status f.words).tears = [] := hans'.tears.trans (by unfold v; rw [hp]; exact htr)
      have hexec := hans (replyFits_iff.2 ⟨hd, hi⟩) h1
      rw [tearAll_none htears] at hexec
      refine ⟨_, hexec, fun x hx => not_mem_otherReqs (s := v) (hans'.outReqs ▸ hx), hans'.mem.trans hmem, ?_⟩
      rw [hans'.cur, hcur]
      rfl

/-! ### Retries and timeouts -/

theorem retries (s : State) (core id : Nat) (r : OutReq)
    (hf : s.fab.outReqs.find? (fun x => x.core == core && x.reqid == id) = some r) :
    (∀ n, r.due = some n → n ≤ s.time → r.posted = false ∨ olderWaits s.fab.outReqs r = false → exec (.nackWaitRetry core id) s =
      .next (sendFlit (mapReq s core id fun x => { x with due := none }) r.flit)) ∧
    (∀ n, r.due = some n → s.time < n → exec (.nackWaitRetry core id) s = .next s) ∧
    (r.flit.op ≠ 12 → (∃ x ∈ s.tears, x.tenant = r.tenant ∧ x.since + 170000 ≤ s.time) →
      exec (.replyTimeout core id) s = .next (settle (observe (tearAll (takeAnswer s r 3 []))))) ∧
    ((∀ x ∈ s.tears, x.tenant ≠ r.tenant) → exec (.replyTimeout core id) s = .next s) := by
  have hretry : ∀ n, r.due = some n → exec (.nackWaitRetry core id) s =
      if s.time < n ∨ (r.posted && olderWaits s.fab.outReqs r) = true then .next s
      else .next (sendFlit (mapReq s core id fun x => { x with due := none }) r.flit) := by
    intro n hd
    change execNackWaitRetry core id s = _
    unfold execNackWaitRetry
    rw [hf]
    dsimp only
    rw [hd]
  have htimeout : exec (.replyTimeout core id) s =
      if r.flit.op ≠ 12 ∧ (s.tears.any fun x => x.tenant == r.tenant && decide (x.since + 170000 ≤ s.time)) = true then
        .next (settle (observe (tearAll (takeAnswer s r 3 []))))
      else .next s := by
    change execReplyTimeout core id s = _
    unfold execReplyTimeout
    rw [hf]
  refine ⟨fun n hd hn ho => ?_, fun n hd hn => ?_, fun h12 ⟨x, hx, ht, hs⟩ => ?_, fun hx => ?_⟩
  · rw [hretry n hd]
    refine if_neg (not_or.2 ⟨by omega, ?_⟩)
    rcases ho with h | h <;> simp [h]
  · rw [hretry n hd, if_pos (.inl hn)]
  · rw [htimeout]
    exact if_pos ⟨h12, List.any_eq_true.2 ⟨x, hx, by simp [ht, hs]⟩⟩
  · rw [htimeout]
    refine if_neg fun h => ?_
    obtain ⟨x, hm, hp⟩ := List.any_eq_true.1 h.2
    rw [Bool.and_eq_true, beq_iff_eq] at hp
    exact hx x hm hp.1

/-! ### Incarnations -/

theorem gleanerReset_keeps (h : s.eng.gleaner.records = []) (pkg : Nat) : (gleanerReset s pkg).fab = s.fab ∧
    (gleanerReset s pkg).mem = s.mem ∧ (gleanerReset s pkg).tears = s.tears ∧ (gleanerReset s pkg).cur = s.cur := by
  unfold gleanerReset
  dsimp only
  rw [h]
  exact ⟨rfl, rfl, rfl, rfl⟩

/-- The machine once another package's incarnation is stored. -/
def announced (s : State) (f : Flit) : State :=
  let inc := fieldNat (f.words.getD 0 0) 7 0
  { s with fab := { s.fab with
      epInc := Tab.set s.fab.epInc f.src inc
      links := s.fab.links.map fun (e : Nat × Link) => (e.1, heldAfter f.src inc e.2)
      nacked := s.fab.nacked.filter fun e => e.1 / 1024 != f.src
      front := s.fab.front.filter fun e => e.1 / 1024 != f.src } }

/-- Every request under an older incarnation is answered STALE. -/
def staleAnswered (s : State) (f : Flit) : State :=
  (s.fab.outReqs.filter fun r => r.flit.dest == f.src && r.flit.dinc != fieldNat (f.words.getD 0 0) 7 0).foldl
    (fun s r => takeAnswer s r 2 []) s

theorem execIncarnationAnnouncement_taken (ho : f.op = 11) (ha : flitArrives s f = true) (ht : tagVerifies s f = true)
    (hm : malformed f = false) : exec (.incarnationAnnouncement f) s =
      .next (settle (observe (tearAll (gleanerReset (staleAnswered (announced (tagPassed s f) f) f) f.src)))) := by
  have hc : f.cls = 4 := by rw [cls_of_wellFormed hm, ho]; rfl
  exact takeFlit_accepted _ ho ha ht hm (.inr (.inr hc)) (fun h => by rw [stampChecked, ho] at h; cases h) (.inl hc)

theorem announcements (s : State) (f : Flit) (ho : f.op = 11) (ha : flitArrives s f = true) (ht : tagVerifies s f = true)
    (hm : malformed f = false) (htr : s.tears = []) (hg : s.eng.gleaner.records = []) :
    let inc := fieldNat (f.words.getD 0 0) 7 0
    ((∀ r ∈ s.fab.outReqs, r.flit.dest ≠ f.src) → ∃ t, exec (.incarnationAnnouncement f) s = .next (settle (observe t)) ∧
      Tab.get t.fab.epInc f.src 0 = inc ∧ t.fab.outReqs = s.fab.outReqs ∧ t.mem = s.mem) ∧
    (∀ r d n g, s.fab.outReqs = [r] → r.flit.dest = f.src → r.flit.dinc ≠ inc → r.copy = none → isTask s.cur = true →
      r.waits = some (s.cur.key, d, n, g) → s.cur.hold = some (.reply r.reqid) → s.cur.slot?.isSome = true →
      ∃ t, exec (.incarnationAnnouncement f) s = .next (settle (observe t)) ∧ Tab.get t.fab.epInc f.src 0 = inc ∧
        t.fab.outReqs = [] ∧ t.cur = { s.cur with hold := some (.answer (some 0x13) (destValue d n g []) d.pair) } ∧
        t.mem = s.mem) := by
  intro inc
  have hexec := execIncarnationAnnouncement_taken ho ha ht hm
  obtain ⟨links, keys, hp⟩ := tagPassed_eq s f
  have hreqs : (announced (tagPassed s f) f).fab.outReqs = s.fab.outReqs := by rw [hp]; rfl
  have hcur : (announced (tagPassed s f) f).cur = s.cur := by rw [hp]; rfl
  have hmem : (announced (tagPassed s f) f).mem = s.mem := by rw [hp]; rfl
  have htears : (announced (tagPassed s f) f).tears = [] := by rw [hp]; exact htr
  have hrec : (announced (tagPassed s f) f).eng.gleaner.records = [] := by rw [hp]; exact hg
  have hinc : Tab.get (announced (tagPassed s f) f).fab.epInc f.src 0 = inc := Tab.get_set_same _ _ _ _
  generalize announced (tagPassed s f) f = v at hexec hreqs hcur hmem htears hrec hinc
  refine ⟨fun hno => ?_, fun r d n g hr hd hi hc hta hw hh hsl => ?_⟩
  · have hold : staleAnswered v f = v := by
      unfold staleAnswered
      rw [List.filter_eq_nil_iff.2 fun r hr => by rw [hreqs] at hr; simp [hno r hr]]
      rfl
    obtain ⟨hfab, hgmem, hgtears, -⟩ := gleanerReset_keeps hrec f.src
    rw [hold, tearAll_none (hgtears.trans htears)] at hexec
    exact ⟨_, hexec, by rw [hfab]; exact hinc, by rw [hfab]; exact hreqs, hgmem.trans hmem⟩
  · have hold : staleAnswered v f = takeAnswer v r 2 [] := by
      unfold staleAnswered
      rw [hreqs, hr, List.filter_cons_of_pos (by rw [hd, beq_self_eq_true, Bool.true_and, bne_iff_ne]; exact hi)]
      rfl
    have hans := takeAnswer_held (s := v) hc (by rw [hcur]; exact hta) (by rw [hcur]; exact hw) (by rw [hcur]; exact hh)
      (by rw [hcur]; exact hsl) 2 []
    have hnone : otherReqs v r = [] := by
      unfold otherReqs
      rw [hreqs, hr]
      simp
    rw [hold] at hexec
    obtain ⟨hfab, hgmem, hgtears, hgcur⟩ := gleanerReset_keeps (hans.records.trans hrec) f.src
    rw [tearAll_none (hgtears.trans (hans.tears.trans htears))] at hexec
    refine ⟨_, hexec, ?_, ?_, ?_, hgmem.trans (hans.mem.trans hmem)⟩
    · rw [hfab, hans.epInc]
      exact hinc
    · rw [hfab, hans.outReqs, hnone]
    · have hempty : (bytesOfWords ([] : List Word)).take n = [] := by simp [bytesOfWords]
      rw [hgcur, hans.cur, hcur, hempty]
      rfl

/-! ### Fences -/

/-- What waits here once the flits of a source and a TI are discarded. -/
theorem discardFlits_waits (s : State) (src : Nat → Bool) (ti : Nat) :
    (discardFlits s src ti).eng.waiters = (s.eng.waiters.filter fun w => match w.asker with
      | .remote f => !(src f.src && f.ti == ti)
      | _ => true) ∧
    (discardFlits s src ti).fab.holdQ = s.fab.holdQ.map fun e => (e.1, e.2.filter fun f => !(src f.src && f.ti == ti)) := by
  have hfold : ∀ (fs : List Flit) (v : State), (fs.foldl (fun s f => replyTo s f 3 []) v).eng = v.eng ∧
      (fs.foldl (fun s f => replyTo s f 3 []) v).fab.holdQ = v.fab.holdQ := by
    intro fs
    induction fs with
    | nil => exact fun v => ⟨rfl, rfl⟩
    | cons f fs ih =>
      intro v
      obtain ⟨he, hh⟩ := ih (replyTo v f 3 [])
      obtain ⟨fab, hs, -⟩ := sendFlit_eq v { mkFlit v f.src 1 f.ti f.dcore f.score 9 f.reqid [] with status := 3, dinc := f.dinc }
      refine ⟨he.trans ?_, hh.trans (sendFlit_holdQ _ _)⟩
      unfold replyTo
      rw [hs]
  unfold discardFlits
  dsimp only
  obtain ⟨he, hh⟩ := hfold ((waitingFlits s).filter fun f => src f.src && f.ti == ti) (forgetNacks { s with
    eng := { s.eng with waiters := s.eng.waiters.filter fun w => match w.asker with
      | .remote f => !(src f.src && f.ti == ti)
      | _ => true }
    fab := { s.fab with holdQ := s.fab.holdQ.map fun e => (e.1, e.2.filter fun f => !(src f.src && f.ti == ti)) } }
    (fun k => src (k / 1024)) fun n => n.2 == ti)
  exact ⟨congrArg (·.waiters) he, hh⟩

theorem fences_discard (s : State) (f : Flit) (ho : f.op = 12) (ha : flitArrives s f = true) (ht : tagVerifies s f = true)
    (hm : malformed f = false) (hi : f.dinc = s.conf.incarnation) : ∃ t,
    exec (.incarnationFence f) s = .next (settle (observe (replyTo t f 0 []))) ∧
    t = discardFlits (tagPassed s f) (fun p => p == f.src) f.ti ∧
    (∀ w ∈ t.eng.waiters, ∀ g, w.asker = .remote g → ¬(g.src = f.src ∧ g.ti = f.ti)) ∧
    (∀ e ∈ t.fab.holdQ, ∀ g ∈ e.2, ¬(g.src = f.src ∧ g.ti = f.ti)) := by
  have hc : f.cls = 4 := by rw [cls_of_wellFormed hm, ho]; rfl
  obtain ⟨hw, hq⟩ := discardFlits_waits (tagPassed s f) (fun p => p == f.src) f.ti
  refine ⟨_, takeFlit_accepted _ ho ha ht hm (.inr (.inr hc)) (fun _ => hi) (.inl hc), rfl, fun w hm g hg hx => ?_,
    fun e he g hg hx => ?_⟩
  · rw [hw] at hm
    have hp := (List.mem_filter.1 hm).2
    rw [hg] at hp
    simp [hx.1, hx.2] at hp
  · rw [hq] at he
    obtain ⟨e', -, rfl⟩ := List.mem_map.1 he
    have hp := (List.mem_filter.1 hg).2
    simp [hx.1, hx.2] at hp

/-- Settles O48: what a reply, a retry, a timeout, an announcement and a fence do. -/
theorem replies : Obligations.Replies := ⟨replies_taken, retries, announcements, fences_discard⟩

end Sys2Proof.Machine
end


section
/-! PROOFS. Launches, their admission and cancels (R84, R86, R122, R259 to R261, R281, R302 to R306). -/

namespace Sys2Proof.Machine

variable {s : State} {f : Flit}

/-! ### Records to the host (R305) -/

theorem hostRecord_sent (s : State) (kind ti n : Nat) (body : List Word) : ∃ r,
    (hostRecord s kind ti n body).fab.outReqs = s.fab.outReqs ++ [r] ∧ r.flit.op = 8 ∧ r.flit.cls = 2 ∧ r.flit.dest = hostEp s ti ∧
    r.flit.ti = ti ∧ r.flit.words = BitVec.ofNat 64 (kind + 2 ^ 8 * body.length + 2 ^ 16 * ti + 2 ^ 32 * n) :: body := by
  have hsent : ∀ v : State, v.fab = s.fab → v.ctl = s.ctl → ∃ r,
      (sendTracked v 0 0 ti (hostEp v ti) 2 0 8 (envelope kind body.length ti n :: body) none false).fab.outReqs =
        s.fab.outReqs ++ [r] ∧ r.flit.op = 8 ∧ r.flit.cls = 2 ∧ r.flit.dest = hostEp s ti ∧ r.flit.ti = ti ∧
      r.flit.words = BitVec.ofNat 64 (kind + 2 ^ 8 * body.length + 2 ^ 16 * ti + 2 ^ 32 * n) :: body := by
    intro v hv hc
    have hep : hostEp v ti = hostEp s ti := by unfold hostEp tenantWord ctlGet; rw [hc]
    obtain ⟨fab, r, hs, hr, hf⟩ := sendTracked_eq v 0 0 ti (hostEp v ti) 2 0 8 (envelope kind body.length ti n :: body) none false
    rw [hs, ← hv, ← hep]
    refine ⟨r, hr, ?_⟩
    rw [hf]
    exact ⟨rfl, rfl, rfl, rfl, rfl⟩
  unfold hostRecord
  dsimp only
  split_ifs
  · exact hsent _ rfl rfl
  · exact hsent s rfl rfl

/-! ### A launch arrives (R302) -/

/-- An operation whose flits are checked in full, once it comes. -/
theorem takeFlit_comes {op : Nat} (k : State → State) (h : Comes s f op) :
    takeFlit s op f k = .next (settle (observe (k (tagPassed s f)))) := by
  obtain ⟨ho, ⟨ha, ht, hw⟩, hm, hi, hc⟩ := h
  exact takeFlit_accepted k ho ha ht hm (.inl hw) (fun _ => hi) (.inr (.inr hc))

theorem tiState_tagPassed (s : State) (f : Flit) (t : Nat) : tiState (tagPassed s f) t = tiState s t := by
  obtain ⟨links, keys, hp⟩ := tagPassed_eq s f
  rw [hp]
  rfl

/-- The launch record is the tenant's, its net descriptors included. -/
def launchOwned (v : State) (ti : Nat) (a : Word) : Prop :=
  recordOwned v ti a 0 = true ∧ recordOwned v ti a (min 1024 (fieldNat (recordWord v a 0) 42 32)) = true

theorem launch_arrives (h : Comes s f 6) :
    let v := tagPassed s f
    let n := fieldNat (f.words.getD 0 0) 31 0
    let a := f.words.getD 1 0
    let ends := fun (t : State) => exec (.launch f) s = .next (settle (observe t))
    let owned := recordOwned v f.ti a 0 = true ∧ recordOwned v f.ti a (min 1024 (fieldNat (recordWord v a 0) 42 32)) = true
    (tiState s f.ti ≠ 2 → ends (replyTo v f 3 [])) ∧
    (tiState s f.ti = 2 → ¬owned → ends (replyTo v f 4 [0x14])) ∧
    (tiState s f.ti = 2 → owned → ends (replyTo { v with sched := { v.sched with
      launches := v.sched.launches ++ [⟨f.ti, n, [], [], 0, 0, 0, false, false⟩]
      launchQ := v.sched.launchQ ++ [⟨f.ti, n, a⟩] } } f 0 [])) := by
  intro v n a ends owned
  have htis : tiState v f.ti = tiState s f.ti := tiState_tagPassed s f f.ti
  have howned : (recordOwned v f.ti a 0 && recordOwned v f.ti a (min 1024 (ctlPools (recordWord v a 0)))) = true ↔ owned :=
    iff_of_eq (Bool.and_eq_true ..)
  refine ⟨fun ht => ?_, fun ht ho => ?_, fun ht ho => ?_⟩
  all_goals
    refine (takeFlit_comes _ h).trans (congrArg (fun v => Host.Outcome.next (settle (observe v))) ?_)
    dsimp only
  · exact if_pos (by rw [htis]; exact ht)
  · refine (if_neg (by rw [htis, ht]; decide)).trans (if_pos ?_)
    rw [Bool.not_eq_true', ← Bool.not_eq_true, howned]
    exact ho
  · refine (if_neg (by rw [htis, ht]; decide)).trans (if_neg ?_)
    rw [Bool.not_eq_true', Bool.not_eq_false, howned]
    exact ho

/-! ### Admission -/

section
variable {r : LaunchReq}

/-- The machine once a record has left the queue. -/
def unqueued (s : State) (r : LaunchReq) : State := { s with sched := { s.sched with launchQ := s.sched.launchQ.erase r } }

theorem execAdmission_takes
    (hf : s.sched.launchQ.find? (fun x => !(s.pre.svc.getLsbD x.ti) && !rootWaits s x) = some r) :
    exec .admission s = .next (settle (observe (admitRecord (unqueued s r) r))) := by
  change execAdmission s = _
  unfold execAdmission
  rw [hf]
  rfl

theorem admitRecord_cancelled (h : ∃ l ∈ s.sched.launches, l.ti = r.ti ∧ l.number = r.number ∧ l.cancelled = true) :
    admitRecord s r = mapLaunch s r.ti r.number fun l => { l with begun := true } := by
  obtain ⟨l, hl, ht, hn, hc⟩ := h
  exact if_pos (List.any_eq_true.2 ⟨l, hl, by simp [ht, hn, hc]⟩)

variable (hn : ∀ l ∈ s.sched.launches, l.ti = r.ti → l.number = r.number → l.cancelled = false)
include hn

theorem not_cancelled : ¬ (s.sched.launches.any fun l => l.ti == r.ti && l.number == r.number && l.cancelled) = true := by
  rw [Bool.not_eq_true, List.any_eq_false]
  intro l hl h
  simp only [Bool.and_eq_true, beq_iff_eq] at h
  obtain ⟨⟨ht, hnum⟩, hc⟩ := h
  rw [hn l hl ht hnum] at hc
  cases hc

theorem admitRecord_bad (hb : recordBad s r.ti r.addr = true) : admitRecord s r = refuseLaunch s r.ti r.number :=
  (if_neg (not_cancelled hn)).trans (if_pos hb)

variable (hb : recordBad s r.ti r.addr = false)
include hb

theorem admitRecord_known (h2 : fieldNat (recordWord s r.addr 0) 1 0 = 2) (ht : tiState s r.ti = 2) :
    admitRecord s r = startLaunch s r.ti r.number r.addr (BitVec.ofNat 16 (fieldNat (recordWord s r.addr 0) 31 16))
      (imageOf s r.ti (BitVec.ofNat 16 (fieldNat (recordWord s r.addr 0) 31 16))) (some (recordWord s r.addr 7)) :=
  (if_neg (not_cancelled hn)).trans ((if_neg (by rw [hb]; decide)).trans ((if_pos h2).trans (if_neg (by rw [ht]; decide))))

/-- What a record's admission gives. -/
def recordAdmits (s : State) (r : LaunchReq) : Except (AdmitError × List Byte) (State × Image) :=
  admitImage s r.ti (recordWord s r.addr 1) (recordWord s r.addr 2).toNat (recordNetds s r.addr)

theorem admitRecord_error {e : AdmitError} {b : List Byte} (h2 : fieldNat (recordWord s r.addr 0) 1 0 ≠ 2)
    (ha : recordAdmits s r = .error (e, b)) :
    admitRecord s r = refuseLaunch (reportRefused s r.ti r.number e b) r.ti r.number := by
  refine (if_neg (not_cancelled hn)).trans ((if_neg (by rw [hb]; decide)).trans ((if_neg h2).trans ?_))
  unfold recordAdmits at ha
  rw [ha]

theorem admitRecord_ok {u : State} {i : Image} (h2 : fieldNat (recordWord s r.addr 0) 1 0 ≠ 2) (ha : recordAdmits s r = .ok (u, i)) :
    admitRecord s r =
      if fieldNat (recordWord s r.addr 0) 1 0 = 0 then
        if launchBad (reportAdmitted u r.number i) r.addr false (some i) then refuseLaunch (reportAdmitted u r.number i) r.ti r.number
        else mapLaunch (reportAdmitted u r.number i) r.ti r.number fun l => { l with begun := true }
      else startLaunch (reportAdmitted u r.number i) r.ti r.number r.addr i.handle (some i) none := by
  refine (if_neg (not_cancelled hn)).trans ((if_neg (by rw [hb]; decide)).trans ((if_neg h2).trans ?_))
  unfold recordAdmits at ha
  rw [ha]

end

/-- A record with a reserved field set is one R303 refuses. -/
theorem recordBad_reserved {t : Nat} {a : Word} (h : fieldNat (recordWord s a 0) 1 0 = 3 ∨ fieldNat (recordWord s a 0) 15 14 ≠ 0 ∨
    fieldNat (recordWord s a 0) 63 43 ≠ 0) : recordBad s t a = true := by
  unfold recordBad
  rcases h with h | h | h <;> simp [h]

/-! ### The root task (R304) -/

/-- The root task of a launch without a known image, in a machine where its launch has begun. -/
def rootTask (s : State) (t num : Nat) (a : Word) (handle : BitVec 16) (imgd : Option Word) : Task :=
  { unstartedTask (mapLaunch s t num fun l => { l with begun := true }) (rootBirth t num (recordWord s a 0)
    ((List.range 4).map fun k => recordWord s a (3 + k)) handle 0 imgd) with key := s.nextKey }

theorem startLaunch_unknown {t num : Nat} {a : Word} {handle : BitVec 16} {imgd : Option Word}
    (hc : coreEnabled s (fieldNat (recordWord s a 0) 13 4) = true) : startLaunch s t num a handle none imgd =
      bumpKey { mapLaunch s t num (fun l => { l with begun := true }) with
        tasks := insertTask (rootTask s t num a handle imgd) s.tasks } :=
  if_neg (by rw [hc]; exact Bool.false_ne_true)

theorem getG_rootTask (s : State) (t num : Nat) (a : Word) (handle : BitVec 16) (imgd : Option Word) (k : Nat) (hk : k < 4) :
    getG (rootTask s t num a handle imgd).ctx (BitVec.ofNat 5 (10 + k)) = recordWord s a (3 + k) := by
  refine (getG_entryCtx _ _ _ _ _ _ _ _).trans ?_
  obtain rfl | rfl | rfl | rfl : k = 0 ∨ k = 1 ∨ k = 2 ∨ k = 3 := by omega
  · rfl
  · rfl
  · rfl
  · rfl

theorem admission (s : State) (r : LaunchReq)
    (hf : s.sched.launchQ.find? (fun x => !(s.pre.svc.getLsbD x.ti) && !rootWaits s x) = some r) :
    let v := { s with sched := { s.sched with launchQ := s.sched.launchQ.erase r } }
    let ctl := recordWord v r.addr 0
    let admits := admitImage v r.ti (recordWord v r.addr 1) (recordWord v r.addr 2).toNat (recordNetds v r.addr)
    let begun := fun (t : State) => mapLaunch t r.ti r.number fun l => { l with begun := true }
    let refused := fun (t : State) => mapLaunch t r.ti r.number fun l => { l with begun := true, status := 2 }
    let ends := fun (t : State) => exec .admission s = .next (settle (observe t))
    ((∃ l ∈ s.sched.launches, l.ti = r.ti ∧ l.number = r.number ∧ l.cancelled = true) → ends (begun v)) ∧
    ((∀ l ∈ s.sched.launches, l.ti = r.ti → l.number = r.number → l.cancelled = false) →
      (fieldNat ctl 1 0 = 3 ∨ fieldNat ctl 15 14 ≠ 0 ∨ fieldNat ctl 63 43 ≠ 0 → ends (refused v)) ∧
      (recordBad v r.ti r.addr = false →
        (∀ e b, fieldNat ctl 1 0 ≠ 2 → admits = .error (e, b) → ends (refused (reportRefused v r.ti r.number e b))) ∧
        (∀ u i, fieldNat ctl 1 0 = 0 → admits = .ok (u, i) →
          let w := reportAdmitted u r.number i
          ends (if fieldNat (recordWord w r.addr 0) 42 32 = i.pools.length then begun w else refused w)) ∧
        (∀ u i, fieldNat ctl 1 0 = 1 → admits = .ok (u, i) →
          ends (startLaunch (reportAdmitted u r.number i) r.ti r.number r.addr i.handle (some i) none)) ∧
        (fieldNat ctl 1 0 = 2 → tiState s r.ti = 2 → imageOf v r.ti (BitVec.ofNat 16 (fieldNat ctl 31 16)) = none →
          coreEnabled s (fieldNat ctl 13 4) = true → ∃ t u, ends t ∧ t.tasks = insertTask u s.tasks ∧ u.key = s.nextKey ∧
            u.kind = .root ∧ u.status = .unstarted ∧ u.core = fieldNat ctl 13 4 ∧ u.prio = fieldNat ctl 3 2 ∧ u.tenant = r.ti ∧
            u.trusted = false ∧ u.handle = BitVec.ofNat 16 (fieldNat ctl 31 16) ∧ u.launch = some (r.ti, r.number) ∧
            u.imgd = some (recordWord v r.addr 7) ∧
            (∀ k, k < 4 → getG u.ctx (BitVec.ofNat 5 (10 + k)) = recordWord v r.addr (3 + k)) ∧ t.mem = s.mem))) := by
  intro v ctl admits begun refused ends
  have hends : ∀ {t : State}, admitRecord (unqueued s r) r = t → ends t := fun h =>
    (execAdmission_takes hf).trans (congrArg (fun t => Host.Outcome.next (settle (observe t))) h)
  refine ⟨fun h => hends (admitRecord_cancelled (s := unqueued s r) h), fun hn => ⟨fun h => hends (admitRecord_bad (s := unqueued s r) hn (recordBad_reserved h)),
    fun hb => ⟨fun e b h2 ha => hends (admitRecord_error (s := unqueued s r) hn hb h2 ha), fun u i h0 ha => hends ?_, fun u i h1 ha => hends ?_,
      fun h2 ht hi hc => ?_⟩⟩⟩
  · change fieldNat (recordWord (unqueued s r) r.addr 0) 1 0 = 0 at h0
    rw [admitRecord_ok (s := unqueued s r) hn hb (by rw [h0]; decide) ha, if_pos h0]
    have hbad : launchBad (reportAdmitted u r.number i) r.addr false (some i) =
        decide (fieldNat (recordWord (reportAdmitted u r.number i) r.addr 0) 42 32 ≠ i.pools.length) := by
      rw [launchBad, Bool.false_and, Bool.or_false]
      rfl
    rw [hbad]
    by_cases hp : fieldNat (recordWord (reportAdmitted u r.number i) r.addr 0) 42 32 = i.pools.length
    · rw [if_neg (by simpa using hp), if_pos hp]
    · rw [if_pos (by simpa using hp), if_neg hp]
      rfl
  · change fieldNat (recordWord (unqueued s r) r.addr 0) 1 0 = 1 at h1
    rw [admitRecord_ok (s := unqueued s r) hn hb (by rw [h1]; decide) ha]
    exact if_neg (by rw [h1]; decide)
  · have hrec := admitRecord_known (s := unqueued s r) hn hb h2 ht
    change imageOf (unqueued s r) r.ti (BitVec.ofNat 16 (fieldNat (recordWord (unqueued s r) r.addr 0) 31 16)) = none at hi
    rw [hi, startLaunch_unknown (s := unqueued s r) hc] at hrec
    exact ⟨_, rootTask (unqueued s r) r.ti r.number r.addr (BitVec.ofNat 16 (fieldNat ctl 31 16)) (some (recordWord v r.addr 7)),
      hends hrec, rfl, rfl, rfl, rfl, rfl, rfl, rfl, rfl, rfl, rfl, rfl, getG_rootTask _ _ _ _ _ _, rfl⟩

/-! ### Cancels (R122, R306) -/

theorem cancelBags_nil (h : s.sched.bags = []) (ti n : Nat) : cancelBags s ti n = (s, []) := by
  unfold cancelBags
  rw [h]
  simp only [List.map_nil, List.flatMap_nil]
  rw [← h]

theorem cancelSpills_nil (h : s.sched.spills = []) (ti n : Nat) : cancelSpills s ti n = (s, []) := by
  unfold cancelSpills
  rw [h]
  rfl

/-- The machine once a launch's unstarted tasks and requests of gangs are gone. -/
def cancelled (s : State) (l : Launch) : State :=
  let v := mapLaunch s l.ti l.number fun x => { x with cancelled := true }
  cancelGangs (dropTasks { v with sched := { v.sched with order := { v.sched.order with cancel := some v.time } } } fun t =>
    ofLaunch l.ti l.number t && t.status == .unstarted) fun g => g.launch == some (l.ti, l.number)

/-- Where nothing of nets is queued, a cancel removes tasks and requests of gangs alone. -/
theorem cancelWork_plain {l : Launch} (hb : s.sched.bags = []) (hs : s.sched.spills = []) (hn : ∀ t ∈ allTasks s, t.net = none) :
    (cancelWork s l).1 = cancelled s l := by
  have hnets : (((allTasks s).filter (ofLaunch l.ti l.number)).filter fun t => t.status == .unstarted).filterMap (fun t => t.net) = [] := by
    refine List.filterMap_eq_nil_iff.2 fun t ht => hn t ?_
    exact (List.mem_filter.1 (List.mem_filter.1 ht).1).1
  have hbags : cancelBags (cancelled s l) l.ti l.number = (cancelled s l, []) := cancelBags_nil (s := cancelled s l) hb _ _
  have hspills : cancelSpills (cancelled s l) l.ti l.number = (cancelled s l, []) := cancelSpills_nil (s := cancelled s l) hs _ _
  unfold cancelWork
  dsimp only
  change (List.foldl _ (cancelSpills (cancelBags (cancelled s l) l.ti l.number).1 l.ti l.number).1
    ((cancelBags (cancelled s l) l.ti l.number).2 ++ (cancelSpills (cancelBags (cancelled s l) l.ti l.number).1 l.ti l.number).2 ++ _)) = _
  rw [hbags, hspills, hnets]
  rfl

theorem cancel_removes {l : Launch} (hb : s.sched.bags = []) (hs : s.sched.spills = []) (hn : ∀ t ∈ allTasks s, t.net = none) :
    (∀ t, t ∈ (cancelWork s l).1.tasks ↔ t ∈ s.tasks ∧ ¬(t.status = .unstarted ∧ t.launch = some (l.ti, l.number))) ∧
    (∀ q ∈ (cancelWork s l).1.sched.gangQ, ∀ g ∈ q.2, g.launch ≠ some (l.ti, l.number)) ∧
    (∀ x ∈ (cancelWork s l).1.sched.launches, x.ti = l.ti → x.number = l.number → x.cancelled = true) := by
  rw [cancelWork_plain hb hs hn]
  refine ⟨fun t => ?_, fun q hq g hg hl => ?_, fun x hx ht hx' => ?_⟩
  · refine List.mem_filter.trans (and_congr_right fun _ => ?_)
    simp [ofLaunch]
    tauto
  · obtain ⟨q', -, rfl⟩ := List.mem_map.1 hq
    have hp := (List.mem_filter.1 hg).2
    simp [hl] at hp
  · obtain ⟨y, -, rfl⟩ := List.mem_map.1 hx
    split_ifs at ht hx' ⊢ with h
    · rfl
    · exact absurd ⟨ht, hx'⟩ h

/-- Settles O47: the arrival of a launch, its admission, its failures, its cancel, and the records that tell of them. -/
theorem launches : Obligations.Launches := by
  refine ⟨fun s f h => launch_arrives h, admission, fun s t n a ds h => if_pos ?refused, fun s f h => ?cancel, hostRecord_sent⟩
  case refused =>
    rcases h with h | h <;> simp [h]
  case cancel =>
    intro v n ends
    have hexec : ∀ {t}, (let x := match v.sched.launches.find? fun l => l.ti == f.ti && l.number == n with
          | none => (v, CancelCounts.mk 0 0 0)
          | some l => cancelWork v l
        hostRecord x.1 4 f.ti n [BitVec.ofNat 64 x.2.removed, BitVec.ofNat 64 x.2.late, BitVec.ofNat 64 x.2.begun]) = t → ends t :=
      fun ht => (takeFlit_comes _ h).trans (congrArg (fun v => Host.Outcome.next (settle (observe v))) ht)
    refine ⟨fun hf => hexec (by rw [hf]; rfl), fun l hf => ⟨hexec (by rw [hf]), fun _ hb hs hn => cancel_removes hb hs hn⟩⟩

end Sys2Proof.Machine
end


section
/-! PROOFS. The crypto block of the management die (R319, R320, R322, R334). -/

namespace Sys2Proof.Machine

variable {s u : State} {i : Instr} {op err : Nat} {run : State → State × Nat} {after : Crypto → Prop}

/-! ### Commands -/

/-- A write to CMD while no command runs starts one, whose effect on the state is the operation's. -/
theorem startCommand_idle (hidle : s.mgmt.crypto.busy = none) (hrun : run s = (u, err)) :
    startCommand s op run = modCrypto u fun x => { x with busy := some ⟨op, err, false⟩ } := by
  unfold startCommand
  rw [hidle]
  simp only [hrun]

/-- A write to CMD while a command runs marks that one as written over. -/
theorem startCommand_busy {b : CryptoCmd} (hb : s.mgmt.crypto.busy = some b) :
    startCommand s op run = modCrypto s fun x => { x with busy := some { b with late := true } } := by
  unfold startCommand
  rw [hb]

/-- The claims on one operation: the command starts, keeps memory, the task and control space, and leaves `after`. -/
def Starts (s : State) (i : Instr) (op err : Nat) (after : Crypto → Prop) : Prop := ∃ t, exec i s = .next t ∧
  t.mgmt.crypto.busy = some ⟨op, err, false⟩ ∧ t.mem = s.mem ∧ t.cur = s.cur ∧ t.ctl = s.ctl ∧ after t.mgmt.crypto

/-- An operation that keeps memory, the running task and control space starts as a command that keeps them. -/
theorem command_starts (hidle : s.mgmt.crypto.busy = none) (hexec : exec i s = .next (startCommand s op run))
    (hrun : run s = (u, err)) (hmem : u.mem = s.mem) (hcur : u.cur = s.cur) (hctl : u.ctl = s.ctl)
    (hafter : after { u.mgmt.crypto with busy := some ⟨op, err, false⟩ }) :
    Starts s i op err after :=
  ⟨_, hexec.trans (congrArg _ (startCommand_idle hidle hrun)), rfl, hmem, hcur, hctl, hafter⟩

/-- A command leaves SRAM as its operation does. -/
theorem command_leaves (hidle : s.mgmt.crypto.busy = none) (hexec : exec i s = .next (startCommand s op run))
    (hrun : run s = (u, err)) {v : Tab Byte} (hsram : u.mgmt.sram = v) : ∃ t, exec i s = .next t ∧ t.mgmt.sram = v :=
  ⟨_, hexec.trans (congrArg _ (startCommand_idle hidle hrun)), hsram⟩

/-- The running command ends, and STAT says how. -/
theorem commandDone_busy {b : CryptoCmd} (hb : s.mgmt.crypto.busy = some b) :
    exec .cryptoCommandDone s = .next (modCrypto s fun x => { x with busy := none, stat := endStat b }) := by
  change execCryptoCommandDone s = _
  unfold execCryptoCommandDone
  rw [hb]

/-! ### The operations -/

theorem opSha_ok {bs : List Byte} (hlen : s.mgmt.crypto.len.toNat ≤ 2 ^ 24)
    (hbs : mgmtBytes s s.mgmt.crypto.src.toNat s.mgmt.crypto.len.toNat = some bs) :
    opSha s = (modCrypto s fun c => { c with dig := digOf (sha384 bs) }, 0) := by
  unfold opSha
  simp only [if_neg (Nat.not_lt.mpr hlen), hbs]

theorem opSha_error (h : 2 ^ 24 < s.mgmt.crypto.len.toNat ∨
    mgmtBytes s s.mgmt.crypto.src.toNat s.mgmt.crypto.len.toNat = none) : opSha s = (s, 4) := by
  unfold opSha
  by_cases hlen : 2 ^ 24 < s.mgmt.crypto.len.toNat
  · simp only [if_pos hlen]
  · simp only [if_neg hlen, h.resolve_left hlen]

theorem opVerify_of_key {key : List Byte} (hkey : mgmtBytes s s.mgmt.crypto.keyaddr.toNat 96 = some key) :
    opVerify s = (s, verifyError s.mgmt.crypto.keyhash s.mgmt.crypto.dig key s.mgmt.crypto.sig) := by
  unfold opVerify
  simp only [hkey]

theorem verifyError_hash {keyhash dig : BitVec 384} {key : List Byte} {sig : BitVec 768} (h : digOf (sha384 key) ≠ keyhash) :
    verifyError keyhash dig key sig = 2 := if_pos h

theorem verifyError_signature {keyhash dig : BitVec 384} {key : List Byte} {sig : BitVec 768}
    (h : digOf (sha384 key) = keyhash) : verifyError keyhash dig key sig =
      if ecdsaVerify dig.toNat (natBE (key.take 48)) (natBE (key.drop 48)) (natBE ((bytesBE 96 sig.toNat).take 48))
        (natBE ((bytesBE 96 sig.toNat).drop 48)) then 0 else 3 := if_neg (not_not_intro h)

theorem scalarOf_pos (n : Nat) : 1 ≤ scalarOf n := Nat.le_add_left 1 _

theorem scalarOf_lt (n : Nat) : scalarOf n < curveQ := by
  have hmod : n % (curveQ - 1) < curveQ - 1 := Nat.mod_lt n (by decide)
  unfold scalarOf
  omega

/-- However often the nonce is drawn again, a signature is made with one of the nonces drawn. -/
theorem ecdsaSign_eq_pair (digest d : Nat) (nonce : Nat → Nat) (n : Nat) :
    ∀ j, ∃ m, ecdsaSign digest d nonce n j = ecdsaPair digest d (nonce m) := by
  induction n with
  | zero => exact fun j => ⟨j, rfl⟩
  | succ n ih =>
    intro j
    by_cases hz : (ecdsaPair digest d (nonce j)).1 = 0 ∨ (ecdsaPair digest d (nonce j)).2 = 0
    · obtain ⟨m, hm⟩ := ih (j + 1)
      exact ⟨m, (if_pos hz).trans hm⟩
    · exact ⟨j, if_neg hz⟩

theorem opSign_ok {n d : Nat} (h : signKey s n = some d) : ∃ k v, 1 ≤ k ∧ k < curveQ ∧
    v = sigOf (ecdsaPair s.mgmt.crypto.dig.toNat (scalarOf d) k) ∧
    opSign s n = (nextFresh (modCrypto s fun c => { c with sig := v }), 0) := by
  obtain ⟨m, hm⟩ := ecdsaSign_eq_pair s.mgmt.crypto.dig.toNat (scalarOf d) (drawNonce s) 16 0
  refine ⟨drawNonce s m, _, scalarOf_pos _, scalarOf_lt _, congrArg sigOf hm, ?_⟩
  unfold opSign modCrypto modMgmt
  simp only [h]

theorem opSign_error {n : Nat} (h : signKey s n = none) : opSign s n = (s, 5) := by
  unfold opSign
  simp only [h]

theorem measOf_measExtend_self (s : State) (i : Nat) (d : BitVec 384) :
    measOf (measExtend s i d) i = digOf (sha384 (digBytes (measOf s i) ++ digBytes d)) :=
  Vector.getElem_set_self (Nat.mod_lt _ (by decide))

theorem measOf_measExtend_other {i j : Nat} (h : j % 16 ≠ i % 16) (d : BitVec 384) :
    measOf (measExtend s i d) j = measOf s j :=
  Vector.getElem_set_ne (Nat.mod_lt _ (by decide)) (Nat.mod_lt _ (by decide)) (Ne.symm h)

theorem opExtend_ok {i : Nat} (h : i % 16 ≠ 0 ∨ s.mgmt.romExit = false) :
    opExtend s i = (measExtend s i s.mgmt.crypto.dig, 0) :=
  if_neg fun hc => h.elim (fun hi => hi hc.1) fun hr => Bool.false_ne_true (hr.symm.trans hc.2)

theorem opRandom_eq (s : State) : ∃ d, opRandom s = (nextFresh (modCrypto s fun c => { c with dig := d }), 0) := ⟨_, rfl⟩

/-! ### AES -/

/-- The state in which an accepted AES command runs: the core's reservation is lost. -/
def unreserved (s : State) : State := modMgmt s fun m => { m with core := { m.core with resv := none } }

theorem opAes_none {n : Nat} {tag : Bool} (h : mgmtBytes s s.mgmt.crypto.src.toNat 64 = none) : opAes s n tag = (s, 4) := by
  unfold opAes
  simp only [h, Option.map_none]

/-- With a descriptor, its input and its destinations in their ranges, ops 5 and 6 encrypt the input. -/
theorem opAes_ok {n : Nat} {tag : Bool} {d bs : List Byte} (hd : mgmtBytes s s.mgmt.crypto.src.toNat 64 = some d)
    (hbs : mgmtBytes s (s.mgmt.crypto.src.toNat + 64) (aesDesc d).len = some bs) (hlen : (aesDesc d).len ≤ 2 ^ 24)
    (hin : inSram (aesDesc d).dest (aesDesc d).len = true) (htag : tag = true → inSram (aesDesc d).tagAt 16 = true) :
    opAes s n tag = (if tag then aesGcm (unreserved s) (Tab.get s.mgmt.keys n .empty) (aesDesc d) bs
      else aesXts (unreserved s) (Tab.get s.mgmt.keys n .empty) (aesDesc d) bs) := by
  have hfits : (!(decide ((aesDesc d).len ≤ 2 ^ 24) && inSram (aesDesc d).dest (aesDesc d).len &&
      (!tag || inSram (aesDesc d).tagAt 16))) = false := by
    have htag' : (!tag || inSram (aesDesc d).tagAt 16) = true := by
      cases tag with
      | false => rfl
      | true => exact htag rfl
    simp only [decide_eq_true hlen, hin, htag', Bool.and_self, Bool.not_true]
  unfold opAes
  simp only [hd, Option.map_some, hbs, hfits, Bool.false_eq_true, if_false]
  rfl

theorem aesGcm_ok {k : KeySlot} {d : AesDesc} {bs : List Byte} (h : k.image.length = 32) :
    aesGcm s k d bs = (sramPut (sramPut s d.dest (gcmCrypt (roundKeys k.image) (d.nonce.take 12) bs)) d.tagAt
      (gcmTag (roundKeys k.image) (d.nonce.take 12) [] (gcmCrypt (roundKeys k.image) (d.nonce.take 12) bs)), 0) :=
  if_neg (not_not_intro h)

theorem aesGcm_error {k : KeySlot} {d : AesDesc} {bs : List Byte} (h : k.image.length ≠ 32) : aesGcm s k d bs = (s, 5) :=
  if_pos h

theorem aesXts_ok {k : KeySlot} {d : AesDesc} {bs : List Byte} (h : k.code.length = 64) (hbs : 16 ≤ bs.length) :
    aesXts s k d bs = (sramPut s d.dest (xtsEncrypt k.code d.nonce bs), 0) :=
  (if_neg (not_not_intro h)).trans (if_neg (Nat.not_lt.mpr hbs))

theorem aesXts_error {k : KeySlot} {d : AesDesc} {bs : List Byte} (h : k.code.length ≠ 64) : aesXts s k d bs = (s, 5) :=
  if_pos h

/-! ### The obligation -/

def KeepsDigSig (s : State) (x : Crypto) : Prop := x.dig = s.mgmt.crypto.dig ∧ x.sig = s.mgmt.crypto.sig

/-- An operation that ends in an error leaves the crypto block's registers as they were. -/
theorem starts_error (hidle : s.mgmt.crypto.busy = none) (hexec : exec i s = .next (startCommand s op run))
    (hrun : run s = (s, err)) : Starts s i op err (KeepsDigSig s) :=
  command_starts hidle hexec hrun rfl rfl rfl ⟨rfl, rfl⟩

theorem extend_starts {n : Nat} (hidle : s.mgmt.crypto.busy = none) (hn : n < 16) (h : n ≠ 0 ∨ s.mgmt.romExit = false) :
    ∃ t, exec (.cryptoExtend n) s = .next t ∧ t.mgmt.crypto.busy = some ⟨4, 0, false⟩ ∧
      measOf t n = digOf (sha384 (digBytes (measOf s n) ++ digBytes s.mgmt.crypto.dig)) ∧
      ∀ j, j < 16 → j ≠ n → measOf t j = measOf s j := by
  have hrun : opExtend s n = (measExtend s n s.mgmt.crypto.dig, 0) :=
    opExtend_ok (h.imp_left fun hz => by rwa [Nat.mod_eq_of_lt hn])
  refine ⟨_, congrArg Host.Outcome.next (startCommand_idle (op := 4) hidle hrun), rfl, measOf_measExtend_self s n _, ?_⟩
  exact fun j hj hne => measOf_measExtend_other (by rwa [Nat.mod_eq_of_lt hj, Nat.mod_eq_of_lt hn]) _

theorem xts_starts {n : Nat} {d bs : List Byte} (hidle : s.mgmt.crypto.busy = none)
    (hrun : opAes s (n % 128) false = aesXts (unreserved s) (Tab.get s.mgmt.keys (n % 128) .empty) (aesDesc d) bs) :
    let k := Tab.get s.mgmt.keys (n % 128) .empty
    (k.code.length = 64 → 16 ≤ bs.length → Starts s (.cryptoAesXts n) 6 0 (KeepsDigSig s) ∧
      ∃ t, exec (.cryptoAesXts n) s = .next t ∧
        t.mgmt.sram = (sramPut s (aesDesc d).dest (xtsEncrypt k.code (aesDesc d).nonce bs)).mgmt.sram) ∧
    (k.code.length ≠ 64 → Starts s (.cryptoAesXts n) 6 5 (KeepsDigSig s)) := by
  have hexec : exec (.cryptoAesXts n) s = .next (startCommand s 6 fun s => opAes s (n % 128) false) := rfl
  refine ⟨fun hk hbs => ?_, fun hk => ?_⟩
  · have hok := hrun.trans (aesXts_ok hk hbs)
    exact ⟨command_starts hidle hexec hok rfl rfl rfl ⟨rfl, rfl⟩, command_leaves hidle hexec hok rfl⟩
  · exact command_starts hidle hexec (hrun.trans (aesXts_error hk)) rfl rfl rfl ⟨rfl, rfl⟩

theorem puts_two {x y : List Byte} {a b : Nat} (hidle : s.mgmt.crypto.busy = none) (hexec : exec i s = .next (startCommand s op run))
    (hrun : run s = (sramPut (sramPut (unreserved s) a x) b y, 0)) : Starts s i op 0 (KeepsDigSig s) ∧
      ∃ t, exec i s = .next t ∧ t.mgmt.sram = (sramPut (sramPut s a x) b y).mgmt.sram :=
  ⟨command_starts hidle hexec hrun rfl rfl rfl ⟨rfl, rfl⟩, command_leaves hidle hexec hrun rfl⟩

theorem gcm_starts {n : Nat} {d bs : List Byte} (hidle : s.mgmt.crypto.busy = none)
    (hrun : opAes s (n % 128) true = aesGcm (unreserved s) (Tab.get s.mgmt.keys (n % 128) .empty) (aesDesc d) bs) :
    let k := Tab.get s.mgmt.keys (n % 128) .empty
    let rk := roundKeys k.image
    let ct := gcmCrypt rk ((aesDesc d).nonce.take 12) bs
    (k.image.length = 32 → Starts s (.cryptoAesGcm n) 5 0 (KeepsDigSig s) ∧
      ∃ t, exec (.cryptoAesGcm n) s = .next t ∧ t.mgmt.sram =
        (sramPut (sramPut s (aesDesc d).dest ct) (aesDesc d).tagAt (gcmTag rk ((aesDesc d).nonce.take 12) [] ct)).mgmt.sram) ∧
    (k.image.length ≠ 32 → Starts s (.cryptoAesGcm n) 5 5 (KeepsDigSig s)) := by
  have hexec : exec (.cryptoAesGcm n) s = .next (startCommand s 5 fun s => opAes s (n % 128) true) := rfl
  refine ⟨fun hk => ?_, fun hk => ?_⟩
  · exact puts_two hidle hexec (hrun.trans (aesGcm_ok hk))
  · exact command_starts hidle hexec (hrun.trans (aesGcm_error hk)) rfl rfl rfl ⟨rfl, rfl⟩

theorem sign_starts {n d : Nat} (hidle : s.mgmt.crypto.busy = none) (hd : signKey s (n % 128) = some d) :
    Starts s (.cryptoEcdsaSign n) 3 0 fun x => x.dig = s.mgmt.crypto.dig ∧ ∃ k, 1 ≤ k ∧ k < curveQ ∧
      let rs := ecdsaPair s.mgmt.crypto.dig.toNat (d % (curveQ - 1) + 1) k
      x.sig = BitVec.ofNat 768 (rs.1 * 2 ^ 384 + rs.2) := by
  obtain ⟨k, v, hpos, hlt, hv, hrun⟩ := opSign_ok hd
  unfold sigOf scalarOf at hv
  exact command_starts (run := fun s => opSign s (n % 128)) hidle rfl hrun rfl rfl rfl ⟨rfl, k, hpos, hlt, hv⟩

/-- Settles O53: each operation by its own equation, under the lemma that a command starts where none runs. -/
theorem cryptoBlock : Obligations.CryptoBlock := by
  unfold Obligations.CryptoBlock
  refine ⟨?idle, ?busy⟩
  case idle =>
    intro s hidle
    refine ⟨?sha, ?shaError, ?verify, ?sign, ?signError, ?extend, ?extendError, ?aes, ?aesError, ?random, ?invalid, ?done⟩
    case sha =>
      exact fun bs hlen hbs => command_starts (after := fun x => x.dig = digOf (sha384 bs) ∧ x.sig = s.mgmt.crypto.sig)
        hidle rfl (opSha_ok hlen hbs) rfl rfl rfl ⟨rfl, rfl⟩
    case shaError => exact fun h => starts_error hidle rfl (opSha_error h)
    case verify =>
      refine fun key hkey => ⟨fun hh => ?_, fun hh => ?_⟩
      · exact starts_error hidle rfl ((opVerify_of_key hkey).trans (congrArg _ (verifyError_hash hh)))
      · exact starts_error hidle rfl ((opVerify_of_key hkey).trans (congrArg _ (verifyError_signature hh)))
    case sign => exact fun n d hd => sign_starts hidle hd
    case signError => exact fun n hn => starts_error hidle rfl (opSign_error (n := n % 128) hn)
    case extend => exact fun n hn h => extend_starts hidle hn h
    case extendError => exact fun hrom => starts_error (run := fun s => opExtend s 0) hidle rfl (if_pos ⟨rfl, hrom⟩)
    case aes =>
      intro d n bs hd dest len nonce tagAt k leaves hbs hlen hin
      have hx := xts_starts (n := n) hidle (opAes_ok (tag := false) hd hbs hlen hin nofun)
      exact ⟨hx.1, hx.2, fun htag => gcm_starts hidle (opAes_ok (tag := true) hd hbs hlen hin fun _ => htag)⟩
    case aesError =>
      exact fun n hn => ⟨starts_error hidle rfl (opAes_none hn), starts_error hidle rfl (opAes_none hn)⟩
    case random =>
      obtain ⟨d, hrun⟩ := opRandom_eq s
      exact command_starts (after := fun x => x.sig = s.mgmt.crypto.sig) hidle rfl hrun rfl rfl rfl rfl
    case invalid => exact fun op => starts_error (run := fun s => (s, 6)) hidle rfl rfl
    case done =>
      change execCryptoCommandDone s = _
      unfold execCryptoCommandDone
      rw [hidle]
  case busy =>
    intro s b hb
    refine ⟨⟨_, commandDone_busy hb, rfl, rfl, rfl, rfl⟩, fun i hi => ?_⟩
    · obtain ⟨op, run, hexec⟩ : ∃ op run, exec i s = .next (startCommand s op run) := by
        simp only [List.mem_cons, List.not_mem_nil, or_false] at hi
        obtain rfl | rfl | rfl := hi
        · exact ⟨1, opSha, rfl⟩
        · exact ⟨2, opVerify, rfl⟩
        · exact ⟨7, opRandom, rfl⟩
      exact ⟨_, hexec.trans (congrArg _ (startCommand_busy hb)), rfl⟩

end Sys2Proof.Machine
end


section
/-! PROOFS. The SPDM responder and the MCTP mailbox (R307, R324 to R326, R335 to R338). -/

namespace Sys2Proof.Machine

variable {s v : State} {m : SpdmMsg} {f : Flit} {takes : Byte → Bool} {k : State → State} {req : List Byte}

/-! ### Sessions -/

theorem sessionAt_congr {i : Nat} (h : v.mgmt.spdm = s.mgmt.spdm) : sessionAt v i = sessionAt s i := by
  unfold sessionAt
  rw [h]

/-- A session reads as it was last set. -/
theorem sessionAt_setSession {x : SpdmSession} {i : Nat} (hx : x.id = i) : sessionAt (setSession s x) i = x :=
  hx ▸ sessionAt_setSession_same s x

theorem sessionAt_sendNamed (s : State) (i : Nat) (n : SpdmName) : ∃ bs,
    sessionAt (sendNamed s i n) i = { sessionAt s i with sent := (sessionAt s i).sent ++ [.named n bs] } :=
  ⟨_, (sessionAt_congr rfl).trans (sessionAt_spdmSend_same s i _)⟩

/-! ### MEASUREMENTS (R337) -/

theorem measBytes_head (s : State) (p : Nat) (nonce more : List Byte) : (measBytes s p nonce ++ more).take 2 = [0x13, 0x60] := by
  unfold measBytes
  simp only [List.cons_append, List.take_succ_cons, List.take_zero]

/-- The response without a signature: the measurements, and the head of the DIG that the answer leaves. -/
theorem measAnswer_unsigned {b : Bool} (s : State) (h : measError req b = none) (hsig : (req.getD 2 0).getLsbD 0 = false) :
    (measAnswer s req b).2 = measurementsOf s (req.getD 3 0).toNat
      ((bytesBE 48 (measAnswer s req b).1.mgmt.crypto.dig.toNat).take 32) := by
  have hmeas : (ran (opRandom s).1 7 0).mgmt.meas = s.mgmt.meas := by rw [ran_opRandom_mgmt]
  simp only [measAnswer, h, hsig, measBytes_eq_measurementsOf, measurementsOf_congr hmeas, Bool.false_eq_true, if_false,
    digBytes]

theorem measAnswer_signed {b : Bool} (s : State) (h : measError req b = none) (hsig : (req.getD 2 0).getLsbD 0 = true) :
    (measAnswer s req b).2.take 2 = [0x13, 0x60] := by
  simp only [measAnswer, h, hsig, if_true]
  exact measBytes_head _ _ _ _

/-- A request that passes the tests is a GET_MEASUREMENTS. -/
theorem code_of_measError {b : Bool} (h : measError req b = none) : req.getD 1 0 = 0xE0 := by
  by_contra hc
  by_cases h0 : req.getD 0 0 = 0x13
  · exact Option.some_ne_none _ ((measError_code b h0 hc).symm.trans h)
  · exact Option.some_ne_none _ ((measError_version b h0).symm.trans h)

/-! ### Requests of the fabric's sessions (R307) -/

/-- The state once a waiting flit has been taken. -/
def taken (s : State) (f : Flit) : State := modMgmt s fun m => { m with inbox := m.inbox.erase f }

/-- An answer to an OP 13 flit changes the fabric interface and the count of free choices alone. -/
theorem answerFlits_eq (s : State) (f : Flit) : ∃ F n, answerFlits s f = { s with fab := F, fresh := n } := by
  have hfold : ∀ (ws : List (List Word)) (u : State), ∃ F, ws.foldl (fun s w =>
      sendFlit s (mkFlit s f.src 4 f.ti f.dcore f.score 13 0 (w.take 26))) u = { u with fab := F } := by
    intro ws
    induction ws with
    | nil => exact fun u => ⟨u.fab, rfl⟩
    | cons w ws ih =>
      intro u
      obtain ⟨F, hF, -⟩ := sendFlit_eq u (mkFlit u f.src 4 f.ti f.dcore f.score 13 0 (w.take 26))
      obtain ⟨G, hG⟩ := ih { u with fab := F }
      exact ⟨G, (congrArg (List.foldl _ · ws) hF).trans hG⟩
  obtain ⟨F, hF⟩ := hfold (Config.securedFlits s.fresh) (nextFresh s)
  exact ⟨F, s.fresh + 1, hF⟩

/-- A request of a session whose flit has come is served from the state without the flit, and answered by flits. -/
theorem serve_taken (hmon : s.mgmt.mbox.monitor = true) (hses : m.session ≠ 0)
    (hf : s.mgmt.inbox.find? (fun f => sessionOf f == m.session) = some f) (ht : takes (spdmCode m) = true) :
    serve s m takes k = .next (answerFlits (k (taken s f)) f) := by
  unfold serve serveSession serveFlit takeInbox
  simp only [ht, Bool.not_true, Bool.false_eq_true, if_false, hses, hmon, if_true, hf]
  rfl

theorem serve_session (hmon : s.mgmt.mbox.monitor = true) (hses : m.session ≠ 0)
    (hf : s.mgmt.inbox.find? (fun f => sessionOf f == m.session) = some f) (ht : takes (spdmCode m) = true) :
    ∃ F n, serve s m takes k = .next { k (taken s f) with fab := F, fresh := n } := by
  obtain ⟨F, n, h⟩ := answerFlits_eq (k (taken s f)) f
  exact ⟨F, n, (serve_taken hmon hses hf ht).trans (congrArg Host.Outcome.next h)⟩

/-- Without a flit of its session nothing is served. -/
theorem serve_absent (hmon : s.mgmt.mbox.monitor = true) (hses : m.session ≠ 0)
    (hf : ∀ f ∈ s.mgmt.inbox, sessionOf f ≠ m.session) : serve s m takes k = .next s := by
  have hnone : s.mgmt.inbox.find? (fun f => sessionOf f == m.session) = none :=
    List.find?_eq_none.mpr fun f hm => by simp [hf f hm]
  unfold serve serveSession serveFlit takeInbox
  simp only [hses, hmon, if_true, if_false, hnone, ite_self]

/-- A request of another code is not this one. -/
theorem serve_other (ht : takes (spdmCode m) = false) : serve s m takes k = .next s := by
  unfold serve
  simp only [ht, Bool.not_false, if_true]

theorem serveOwn_monitor {code : Byte} (hmon : s.mgmt.mbox.monitor = true) :
    serveOwn s m code k = serve s m (· == code) k := if_pos hmon

theorem serveOwn_other {code : Byte} (h : spdmCode m ≠ code) : serveOwn s m code k = .next s := by
  unfold serveOwn
  split
  · exact serve_other (beq_false_of_ne h)
  · exact if_neg fun hc => h hc.2

/-- The claim on one request of a session: it is answered by name, and the task and memory are kept. -/
def Answers (s : State) (m : SpdmMsg) (f : Flit) (j : Instr) (n : SpdmName) (also : State → Prop) : Prop :=
  ∃ t bs, exec j s = .next t ∧ t.mgmt.inbox = s.mgmt.inbox.erase f ∧
    (sessionAt t m.session).sent = (sessionAt s m.session).sent ++ [.named n bs] ∧ t.cur = s.cur ∧ t.mem = s.mem ∧ also t

/-- A named answer, given after its session has been brought to `x`. -/
theorem named_answers {j : Instr} {n : SpdmName} {also : State → Prop} {x : SpdmSession} (hmon : s.mgmt.mbox.monitor = true)
    (hses : m.session ≠ 0) (hf : s.mgmt.inbox.find? (fun f => sessionOf f == m.session) = some f)
    (hexec : exec j s = serve s m takes k) (ht : takes (spdmCode m) = true)
    (hk : ∃ u, k (taken s f) = sendNamed u m.session n ∧ sessionAt u m.session = x ∧ u.mgmt.inbox = s.mgmt.inbox.erase f ∧
      u.cur = s.cur ∧ u.mem = s.mem) (hsent : x.sent = (sessionAt s m.session).sent)
    (halso : ∀ t, (sessionAt t m.session).keyed = x.keyed → (sessionAt t m.session).secured = x.secured → also t) :
    Answers s m f j n also := by
  obtain ⟨F, c, hserve⟩ := serve_session (k := k) hmon hses hf ht
  obtain ⟨u, hu, hx, hinbox, hcur, hmem⟩ := hk
  obtain ⟨bs, hbs⟩ := sessionAt_sendNamed u m.session n
  rw [hx] at hbs
  have hses' : sessionAt { k (taken s f) with fab := F, fresh := c } m.session = { x with sent := x.sent ++ [.named n bs] } := by
    rw [← hbs, hu]
    exact sessionAt_congr rfl
  refine ⟨_, bs, hexec.trans hserve, ?_, ?_, ?_, ?_, halso _ (by rw [hses']) (by rw [hses'])⟩
  · rw [hu]
    exact hinbox
  · rw [hses', hsent]
  · rw [hu]
    exact hcur
  · rw [hu]
    exact hmem

/-- A named answer of a session that stays as it is. -/
theorem plain_answers {j : Instr} {n : SpdmName} (hmon : s.mgmt.mbox.monitor = true)
    (hses : m.session ≠ 0) (hf : s.mgmt.inbox.find? (fun f => sessionOf f == m.session) = some f)
    (hexec : exec j s = serve s m takes fun s => sendNamed s m.session n) (ht : takes (spdmCode m) = true) :
    Answers s m f j n fun _ => True :=
  named_answers (x := sessionAt s m.session) hmon hses hf hexec ht ⟨taken s f, rfl, sessionAt_congr rfl, rfl, rfl, rfl⟩ rfl
    fun _ _ _ => trivial

/-- A named answer that first brings the session's keys or its protection up or down. -/
theorem keyed_answers {j : Instr} {n : SpdmName} {also : State → Prop} {keyed secured : Bool} (hmon : s.mgmt.mbox.monitor = true)
    (hses : m.session ≠ 0) (hf : s.mgmt.inbox.find? (fun f => sessionOf f == m.session) = some f)
    (hexec : exec j s = serve s m takes k) (ht : takes (spdmCode m) = true)
    (hk : k (taken s f) = sendNamed (setSession (taken s f)
      { sessionAt (taken s f) m.session with keyed := keyed, secured := secured }) m.session n)
    (halso : ∀ t, (sessionAt t m.session).keyed = keyed → (sessionAt t m.session).secured = secured → also t) :
    Answers s m f j n also :=
  named_answers (x := { sessionAt (taken s f) m.session with keyed := keyed, secured := secured }) hmon hses hf hexec ht
    ⟨_, hk, sessionAt_setSession (sessionAt_id _ _), rfl, rfl, rfl⟩
    (show (sessionAt (taken s f) m.session).sent = _ from congrArg SpdmSession.sent (sessionAt_congr rfl)) halso

/-- An answer of another form: what is served sends one reply after `u`, which leaves the session as it was. -/
theorem reply_answers {j : Instr} {r : SpdmReply} {u : State} (hmon : s.mgmt.mbox.monitor = true)
    (hses : m.session ≠ 0) (hf : s.mgmt.inbox.find? (fun f => sessionOf f == m.session) = some f)
    (hexec : exec j s = serve s m takes k) (ht : takes (spdmCode m) = true)
    (hk : k (taken s f) = spdmSend u m.session r) (hu : u.mgmt.spdm = s.mgmt.spdm) :
    ∃ t, exec j s = .next t ∧ (sessionAt t m.session).sent = (sessionAt s m.session).sent ++ [r] ∧ t.mem = u.mem ∧
      t.mgmt.crypto = u.mgmt.crypto := by
  obtain ⟨F, c, hserve⟩ := serve_session (k := k) hmon hses hf ht
  refine ⟨_, hexec.trans hserve, ?_, ?_, ?_⟩
  · rw [hk]
    have hsent := congrArg SpdmSession.sent (sessionAt_spdmSend_same u m.session r)
    rw [sessionAt_congr hu] at hsent
    exact (congrArg SpdmSession.sent (sessionAt_congr rfl)).trans hsent
  · rw [hk]
    rfl
  · rw [hk]
    rfl

/-! ### The mailbox (R335, R336) -/

theorem mailboxTake_pend {bs : List Byte} (h : s.mgmt.mbox.pend = true) : mailboxTake s bs = mboxSend s [0x13, 0x7F, 0x03, 0] := by
  unfold mailboxTake takeRequest
  simp only [h, if_true]
  rfl

/-- Before the security monitor starts the mailbox answers GET_VERSION itself. -/
theorem mailboxTake_version {bs : List Byte} (hmon : s.mgmt.mbox.monitor = false) (hpend : s.mgmt.mbox.pend = false)
    (hcode : bs.getD 1 0 = 0x84) : mailboxTake s bs = sendNamed s 0 .version := by
  unfold mailboxTake selfAnswer
  simp only [hpend, hmon, hcode, Bool.false_eq_true, if_false, if_true, Option.getD_some]

/-- Once the monitor runs, a request of a length that RXBUF holds waits there. -/
theorem mailboxTake_waits {bs : List Byte} (hmon : s.mgmt.mbox.monitor = true) (hpend : s.mgmt.mbox.pend = false)
    (h1 : 1 ≤ bs.length) (h2 : bs.length ≤ 4095) :
    mailboxTake s bs = modMbox s fun b => { b with pend := true, rxbuf := bs, rxAt := s.time } := by
  unfold mailboxTake selfAnswer takeRequest
  simp only [hpend, hmon, Bool.false_eq_true, if_false, if_true, Option.getD_none, decide_eq_true h1, decide_eq_true h2,
    Bool.and_self]

theorem tabBytes_zero (t : Tab Byte) (n : Nat) : tabBytes t 0 n = (List.range n).map fun i => Tab.get t i 0 := by
  unfold tabBytes
  simp only [Nat.zero_add]

theorem txctlWrite_pend {w : Word} (hpend : s.mgmt.mbox.pend = true) (hn : fieldNat w 11 0 ≠ 0) : txctlWrite s w =
    modMbox s fun b => { b with pend := false, rxbuf := [], sent := b.sent ++
      [(List.range (fieldNat w 11 0)).map fun i => Tab.get b.txbuf i 0] } := by
  have hgo : (!s.mgmt.mbox.pend || fieldNat w 11 0 == 0) = false := by simp [hpend, hn]
  unfold txctlWrite
  simp only [hgo, Bool.false_eq_true, if_false, tabBytes_zero]
  rfl

theorem txctlWrite_idle {w : Word} (hpend : s.mgmt.mbox.pend = false) : txctlWrite s w = s := by
  unfold txctlWrite
  simp only [hpend, Bool.not_false, Bool.true_or, if_true]

/-! ### The obligation -/

/-- The claims on a request that a session has sent. -/
theorem session_answers (hmon : s.mgmt.mbox.monitor = true) (hses : m.session ≠ 0)
    (hf : s.mgmt.inbox.find? (fun f => sessionOf f == m.session) = some f) :
    (spdmCode m = 0x84 → Answers s m f (.getVersion m) .version fun _ => True) ∧
    (spdmCode m = 0xE1 → Answers s m f (.getCapabilities m) .capabilities fun _ => True) ∧
    (spdmCode m = 0x81 → Answers s m f (.getDigests m) .digests fun _ => True) ∧
    (spdmCode m = 0x82 → Answers s m f (.getCertificate m) .certificate fun _ => True) ∧
    (spdmCode m = 0x83 → Answers s m f (.challenge m) .challengeAuth fun _ => True) ∧
    (spdmCode m = 0xE8 → Answers s m f (.heartbeat m) .heartbeatAck fun _ => True) ∧
    (spdmCode m = 0xE4 → Answers s m f (.keyExchange m) .keyExchangeRsp fun t => (sessionAt t m.session).keyed = true) ∧
    (spdmCode m = 0xE5 → Answers s m f (.finish m) .finishRsp fun t =>
      (sessionAt t m.session).secured = (sessionAt s m.session).keyed) ∧
    (spdmCode m = 0xEC → Answers s m f (.endSession m) .endSessionAck fun t =>
      (sessionAt t m.session).keyed = false ∧ (sessionAt t m.session).secured = false) := by
  have hother : sessionAt (taken s f) m.session = sessionAt s m.session := sessionAt_congr rfl
  refine ⟨fun hc => ?_, fun hc => ?_, fun hc => ?_, fun hc => ?_, fun hc => ?_, fun hc => ?_, fun hc => ?_, fun hc => ?_,
    fun hc => ?_⟩
  · exact plain_answers hmon hses hf (serveOwn_monitor hmon) (beq_iff_eq.mpr hc)
  · exact plain_answers hmon hses hf (serveOwn_monitor hmon) (beq_iff_eq.mpr hc)
  · exact plain_answers hmon hses hf (execGetDigests.eq_def m s) (beq_iff_eq.mpr hc)
  · exact plain_answers hmon hses hf (execGetCertificate.eq_def m s) (beq_iff_eq.mpr hc)
  · exact plain_answers hmon hses hf (execChallenge.eq_def m s) (beq_iff_eq.mpr hc)
  · exact plain_answers hmon hses hf (execHeartbeat.eq_def m s) (beq_iff_eq.mpr hc)
  · exact keyed_answers hmon hses hf (execKeyExchange.eq_def m s) (beq_iff_eq.mpr hc) rfl fun t hk _ => hk
  · exact keyed_answers hmon hses hf (execFinish.eq_def m s) (beq_iff_eq.mpr hc) rfl fun t _ hs => hs.trans (congrArg SpdmSession.keyed hother)
  · exact keyed_answers hmon hses hf (execEndSession.eq_def m s) (beq_iff_eq.mpr hc) rfl fun t hk hs => ⟨hk, hs⟩

/-- GET_MEASUREMENTS of a session is answered with what its tests give. -/
theorem getMeasurements_answers (hmon : s.mgmt.mbox.monitor = true) (hses : m.session ≠ 0)
    (hf : s.mgmt.inbox.find? (fun f => sessionOf f == m.session) = some f) (hc : spdmCode m = 0xE0) :
    ∃ t, exec (.getMeasurements m) s = .next t ∧ (sessionAt t m.session).sent = (sessionAt s m.session).sent ++
      [.exact (measAnswer (taken s f) m.bytes true).2] ∧
      t.mgmt.crypto = (measAnswer (taken s f) m.bytes true).1.mgmt.crypto := by
  obtain ⟨t, ht, hsent, -, hcrypto⟩ := reply_answers (j := .getMeasurements m) (takes := (· == 0xE0))
    (u := (measAnswer (taken s f) m.bytes true).1) hmon hses hf (execGetMeasurements.eq_def m s) (beq_iff_eq.mpr hc)
    (if_neg hses) (by rw [measAnswer_mgmt]; rfl)
  exact ⟨t, ht, hsent, hcrypto⟩

/-- A request of none of the supported codes of a session is answered UnsupportedRequest. -/
theorem unsupported_answers (hmon : s.mgmt.mbox.monitor = true) (hses : m.session ≠ 0)
    (hf : s.mgmt.inbox.find? (fun f => sessionOf f == m.session) = some f) (hc : spdmCode m ∉ spdmCodes) :
    ∃ t, exec (.spdmUnsupportedRequest m) s = .next t ∧ (sessionAt t m.session).sent = (sessionAt s m.session).sent ++
      [.exact [0x13, 0x7F, 0x07, m.bytes.getD 1 0]] ∧ t.mem = s.mem := by
  obtain ⟨t, ht, hsent, hmem, -⟩ := reply_answers (j := .spdmUnsupportedRequest m) (u := taken s f) hmon hses hf
    (execSpdmUnsupportedRequest.eq_def m s) (by simpa [hmon] using hc) (if_neg hses) rfl
  exact ⟨t, ht, hsent, hmem⟩

/-- A request whose code is another's is left alone. -/
theorem exec_other_code (p : Nat) : ∀ x ∈ [(Instr.getVersion m, (0x84 : Byte)), (.getCapabilities m, 0xE1),
      (.negotiateAlgorithms m, 0xE3), (.getDigests m, 0x81), (.getCertificate m, 0x82), (.challenge m, 0x83),
      (.getMeasurements m, 0xE0), (.keyExchange m, 0xE4), (.finish m, 0xE5), (.heartbeat m, 0xE8), (.keyUpdate m p, 0xE9),
      (.endSession m, 0xEC)], m.bytes.getD 1 0 ≠ x.2 → exec x.1 s = .next s := by
  simp only [List.forall_mem_cons, List.not_mem_nil, false_implies, implies_true, and_true]
  exact ⟨fun h => serveOwn_other h, fun h => serveOwn_other h, fun h => serveOwn_other h,
    fun h => (execGetDigests.eq_def m s).trans (serve_other (beq_false_of_ne h)), fun h => (execGetCertificate.eq_def m s).trans (serve_other (beq_false_of_ne h)),
    fun h => (execChallenge.eq_def m s).trans (serve_other (beq_false_of_ne h)), fun h => (execGetMeasurements.eq_def m s).trans (serve_other (beq_false_of_ne h)),
    fun h => (execKeyExchange.eq_def m s).trans (serve_other (beq_false_of_ne h)), fun h => (execFinish.eq_def m s).trans (serve_other (beq_false_of_ne h)),
    fun h => (execHeartbeat.eq_def m s).trans (serve_other (beq_false_of_ne h)), fun h => (execKeyUpdate.eq_def m p s).trans (serve_other (beq_false_of_ne h)),
    fun h => (execEndSession.eq_def m s).trans (serve_other (beq_false_of_ne h))⟩

/-- Stage 1 answers a pending request of any code by its tests. -/
theorem exec_stage1_named (hmon : s.mgmt.mbox.monitor = false) (hses : m.session = 0) (hp : pendingIs s m.bytes = true)
    (p : Nat) : ∀ x ∈ [(Instr.getDigests m, (0x81 : Byte)), (.getCertificate m, 0x82), (.challenge m, 0x83),
      (.keyExchange m, 0xE4), (.finish m, 0xE5), (.heartbeat m, 0xE8), (.keyUpdate m p, 0xE9), (.endSession m, 0xEC)],
      m.bytes.getD 1 0 = x.2 → exec x.1 s = .next (clearPend (stage1Answer s m)) := by
  simp only [List.forall_mem_cons, List.not_mem_nil, false_implies, implies_true, and_true]
  exact ⟨fun h => (execGetDigests.eq_def m s).trans (serve_stage1 _ hmon hses hp (beq_iff_eq.mpr h)), fun h => (execGetCertificate.eq_def m s).trans (serve_stage1 _ hmon hses hp (beq_iff_eq.mpr h)),
    fun h => (execChallenge.eq_def m s).trans (serve_stage1 _ hmon hses hp (beq_iff_eq.mpr h)), fun h => (execKeyExchange.eq_def m s).trans (serve_stage1 _ hmon hses hp (beq_iff_eq.mpr h)),
    fun h => (execFinish.eq_def m s).trans (serve_stage1 _ hmon hses hp (beq_iff_eq.mpr h)), fun h => (execHeartbeat.eq_def m s).trans (serve_stage1 _ hmon hses hp (beq_iff_eq.mpr h)),
    fun h => (execKeyUpdate.eq_def m p s).trans (serve_stage1 _ hmon hses hp (beq_iff_eq.mpr h)), fun h => (execEndSession.eq_def m s).trans (serve_stage1 _ hmon hses hp (beq_iff_eq.mpr h))⟩

/-- Settles O50: a session's requests by the lemma on what is served, the mailbox's by its own equations, and stage 1's by
the lemmas on its answer. -/
theorem attestation : Obligations.Attestation := by
  unfold Obligations.Attestation
  refine ⟨?absent, ?session, ?others, ?tests, ?busy, ?mailbox, ?txctl⟩
  case absent =>
    exact fun s m hmon hses hf => ⟨(serveOwn_monitor hmon).trans (serve_absent hmon hses hf),
      (execGetDigests.eq_def m s).trans (serve_absent hmon hses hf),
      (execGetMeasurements.eq_def m s).trans (serve_absent hmon hses hf)⟩
  case session =>
    intro s m f hmon hses hf
    obtain ⟨hv, hcap, hdig, hcert, hch, hhb, hke, hfin, hend⟩ := session_answers hmon hses hf
    refine ⟨hv, hcap, hdig, hcert, hch, hhb, hke, hfin, hend, fun hc => ?_, unsupported_answers hmon hses hf,
      fun c d hc herr => ?_, fun herr hsig => ?_, fun herr hsig => ?_⟩
    · obtain ⟨t, ht, hsent, -, -⟩ := reply_answers (j := .negotiateAlgorithms m) (u := taken s f) hmon hses hf
        (serveOwn_monitor hmon) (beq_iff_eq.mpr hc) rfl rfl
      exact ⟨t, ht, hsent⟩
    · obtain ⟨t, ht, hsent, -⟩ := getMeasurements_answers hmon hses hf hc
      rw [measAnswer_of_error _ herr] at hsent
      exact ⟨t, ht, hsent⟩
    · obtain ⟨t, ht, hsent, -⟩ := getMeasurements_answers hmon hses hf (code_of_measError herr)
      exact ⟨t, _, ht, hsent, measAnswer_signed _ herr hsig⟩
    · obtain ⟨t, ht, hsent, hcrypto⟩ := getMeasurements_answers hmon hses hf (code_of_measError herr)
      rw [measAnswer_unsigned _ herr hsig, ← hcrypto] at hsent
      exact ⟨t, ht, hsent⟩
  case others =>
    refine fun s m p => ⟨exec_other_code p, fun hmon hc => ?_, fun hmon hpend hses hc => ?_,
      fun hmon hpoll hpend hses hbuf x hx hc => ?_⟩
    · exact (execSpdmUnsupportedRequest.eq_def m s).trans (serve_other (by simpa [hmon, spdmCode] using hc))
    · have hself : exec (.getVersion m) s = .next (mailboxTake s m.bytes) := by
        change serveOwn s m 0x84 _ = _
        unfold serveOwn
        simp only [hmon, hses, Bool.false_eq_true, if_false, true_and, show spdmCode m = 0x84 from hc, if_true]
      obtain ⟨bs, hbs⟩ := sessionAt_sendNamed s 0 .version
      refine ⟨hself.symm, _, bs, hself, ?_⟩
      rw [mailboxTake_version hmon hpend hc]
      exact ⟨congrArg SpdmSession.sent hbs, rfl, rfl⟩
    · refine ⟨_, exec_stage1_named hmon hses (pendingIs_of_poll hpend hbuf hpoll) p x hx hc,
        clearPend_stage1Answer_pend s m, clearPend_stage1Answer_poll s m, fun c d herr => ?_⟩
      rw [clearPend_stage1Answer_mbox_sent, measAnswer_of_error s herr]
      rfl
  case tests =>
    refine fun q b => ⟨measError_version b, measError_code b, measError_signature, measError_length b, fun h0 h1 h2 hlen => ?_⟩
    have hnot : (16 < (q.getD 3 0).toNat ∧ (q.getD 3 0).toNat ≠ 0xFF) ↔
        ¬((q.getD 3 0).toNat ≤ 16 ∨ (q.getD 3 0).toNat = 0xFF) := by omega
    simp only [measError_param2 b h0 h1 h2 hlen, hnot, ite_not]
  case busy => exact fun s bs hpend => ⟨_, 0, congrArg Host.Outcome.next (mailboxTake_pend hpend), rfl⟩
  case mailbox =>
    refine fun s bs hmon => ⟨fun hpend => ⟨_, 0, congrArg Host.Outcome.next (mailboxTake_pend hpend), rfl⟩,
      fun hpend h1 h2 => ⟨⟨_, congrArg Host.Outcome.next (mailboxTake_waits hmon hpend h1 h2), rfl, rfl, rfl⟩, rfl⟩,
      fun ty h5 h6 => ?_⟩
    change execMctpMessage ty bs s = _
    unfold execMctpMessage
    rw [if_neg h5, if_neg h6]
  case txctl =>
    exact fun s v => ⟨fun hpend hn => ⟨_, congrArg Host.Outcome.next (txctlWrite_pend hpend hn), rfl⟩,
      fun hpend => congrArg Host.Outcome.next (txctlWrite_idle hpend)⟩

end Sys2Proof.Machine
end


section
/-! PROOFS. Power, cooling, boot and the memory's ECC (R165, R254, R297, R318, R321 to R323, R327 to R329, R331, R338). -/

namespace Sys2Proof.Machine

variable {s : State}

/-! ### What the steps of a stage change -/

theorem bootRegs_eq (s : State) (o : Nat) : ∃ d g, bootRegs s o = modCrypto s fun c => { c with dig := d, sig := g } := ⟨_, _, rfl⟩

theorem ran_eq (s : State) (op err : Nat) : ∃ st, ran s op err = modCrypto s fun x => { x with stat := st } := ⟨_, rfl⟩

theorem measExtend_eq (s : State) (i : Nat) (d : BitVec 384) : measExtend s i d =
    modMgmt s fun m => { m with meas := (measExtend s i d).mgmt.meas } := rfl

theorem bootHalt_eq (s : State) (n e : Nat) : bootHalt s n e = modMgmt s fun m =>
    { m with mbox := { m.mbox with bootst := BitVec.ofNat 64 (n + 2 ^ 8 * e) }, halted := true
             core := { m.core with stopped := true } } := rfl

theorem bootEnter_eq {s v : State} {o : Nat} (h : v.mgmt.flash = s.mgmt.flash) : bootEnter v o =
    modMgmt v fun m => { m with core := { m.core with pc := BitVec.ofNat 64 (hdrEntry (flashHeader s o)) } } := by
  have hflash : flashHeader v o = flashHeader s o := by
    unfold flashHeader
    rw [h]
  unfold bootEnter
  rw [hflash]

/-- The measurement that extending gives depends on the measurements alone. -/
theorem measExtend_meas {s v : State} (i : Nat) (d : BitVec 384) (h : v.mgmt.meas = s.mgmt.meas) :
    (measExtend v i d).mgmt.meas = (measExtend s i d).mgmt.meas := by
  unfold measExtend measOf
  simp only [modMgmt_mgmt, h]

theorem measOf_extended {s v : State} {i : Nat} {d : BitVec 384} (h : v.mgmt.meas = (measExtend s i d).mgmt.meas) :
    measOf v i = digOf (sha384 (bytesBE 48 (measOf s i).toNat ++ bytesBE 48 d.toNat)) := by
  have hself := measOf_measExtend_self s i d
  unfold digBytes at hself
  rw [← hself]
  unfold measOf
  simp only [h]

/-- SRAM and the crypto block's registers as a stage leaves them. -/
def crammed (s : State) (t : Tab Byte) (c : Crypto) : State := modMgmt s fun m => { m with sram := t, crypto := c }

/-- A measured image: what a stage that verified one leaves of SRAM, the crypto block and the measurements. -/
def measured (s : State) (t : Tab Byte) (c : Crypto) (i : Nat) (d : BitVec 384) : State :=
  modMgmt s fun m => { m with sram := t, crypto := c, meas := (measExtend s i d).mgmt.meas }

theorem sramPut_crammed (s : State) (a : Nat) (bs : List Byte) : ∃ t, sramPut s a bs = crammed s t s.mgmt.crypto := ⟨_, rfl⟩

theorem sramPut_crammed_crammed (s : State) (t : Tab Byte) (c : Crypto) (a : Nat) (bs : List Byte) :
    ∃ t', sramPut (crammed s t c) a bs = crammed s t' c := ⟨_, rfl⟩

theorem bootRegs_crammed (s : State) (t : Tab Byte) (c : Crypto) (o : Nat) : ∃ c', bootRegs (crammed s t c) o = crammed s t c' := by
  obtain ⟨d, g, h⟩ := bootRegs_eq (crammed s t c) o
  exact ⟨_, h⟩

theorem ran_crammed (s : State) (t : Tab Byte) (c : Crypto) (op err : Nat) : ∃ c', ran (crammed s t c) op err = crammed s t c' := by
  obtain ⟨st, h⟩ := ran_eq (crammed s t c) op err
  exact ⟨_, h⟩

theorem ran_measExtend_crammed (s : State) (t : Tab Byte) (c : Crypto) (i : Nat) (d : BitVec 384) (op err : Nat) :
    ∃ c', ran (measExtend (crammed s t c) i d) op err = measured s t c' i d := by
  have hm : measExtend (crammed s t c) i d = measured s t c i d := by
    rw [measExtend_eq, measExtend_meas (s := s) (v := crammed s t c) i d rfl]
    rfl
  obtain ⟨st, h⟩ := ran_eq (measured s t c i d) op err
  rw [hm]
  exact ⟨_, h⟩

theorem measOf_measured (s : State) (t : Tab Byte) (c : Crypto) (i : Nat) (d : BitVec 384) (f : Mgmt → Mgmt)
    (hf : ∀ m, (f m).meas = m.meas) : measOf (modMgmt (measured s t c i d) f) i =
      digOf (sha384 (bytesBE 48 (measOf s i).toNat ++ bytesBE 48 d.toNat)) := measOf_extended (hf _)

/-! ### Stage 0 (R321, R322) -/

/-- Whatever stage 0 found wrong, it halts with it. -/
theorem bootStage0_halts (h : bootError s 0 false ≠ 0) :
    ∃ t c, bootStage0 s = bootHalt (crammed s t c) 0 (bootError s 0 false) := by
  unfold bootStage0
  dsimp only
  by_cases hhdr : bootError s 0 false = 0x11
  · rw [if_pos hhdr]
    exact ⟨s.mgmt.sram, s.mgmt.crypto, rfl⟩
  · obtain ⟨t, ht⟩ := sramPut_crammed s 0x08000000 (flashBody s 0)
    obtain ⟨c, hc⟩ := bootRegs_crammed s t s.mgmt.crypto 0
    obtain ⟨c', hc'⟩ := ran_crammed s t c 2 (bootError s 0 false - 0x20)
    rw [if_neg hhdr, if_pos h, ht, hc, hc']
    exact ⟨t, c', rfl⟩

/-- An image that verifies is measured and entered. -/
theorem bootStage0_goes (h : bootError s 0 false = 0) : ∃ t c, bootStage0 s = modMgmt (measured s t c 0 (flashDigest s 0)) fun m =>
    { m with romExit := true, stage := 1, core := { m.core with pc := BitVec.ofNat 64 (hdrEntry (flashHeader s 0)) } } := by
  obtain ⟨t, ht⟩ := sramPut_crammed s 0x08000000 (flashBody s 0)
  obtain ⟨c, hc⟩ := bootRegs_crammed s t s.mgmt.crypto 0
  obtain ⟨c', hc'⟩ := ran_measExtend_crammed s t c 0 (flashDigest s 0) 4 0
  unfold bootStage0
  dsimp only
  rw [h, if_neg (by decide), if_neg (not_not_intro rfl), ht, hc, hc']
  exact ⟨t, c', bootEnter_eq (s := s) rfl⟩

/-- Stage 0 changes the management die alone, and does not start the security monitor. -/
theorem bootStage0_state (s : State) : ∃ m, bootStage0 s = { s with mgmt := m } ∧ m.mbox.monitor = s.mgmt.mbox.monitor := by
  by_cases h : bootError s 0 false = 0
  · obtain ⟨t, c, hs⟩ := bootStage0_goes h
    exact ⟨_, hs, rfl⟩
  · obtain ⟨t, c, hs⟩ := bootStage0_halts h
    exact ⟨_, hs.trans (bootHalt_eq _ _ _), rfl⟩

/-! ### Stage 1 (R333, R337, R338) -/

theorem stage1_crammed (s : State) : ∃ t c, bootRegs (stage1Regs (stage1Copies s)) damdinAt = crammed s t c := by
  have hregs : ∀ t, ∃ c, stage1Regs (crammed s t s.mgmt.crypto) = crammed s t c := fun t => ⟨_, rfl⟩
  obtain ⟨t₁, h₁⟩ := sramPut_crammed s 0x0800F000 (flashHeader s damdinAt)
  obtain ⟨t₂, h₂⟩ := sramPut_crammed_crammed s t₁ s.mgmt.crypto (hdrLoad (flashHeader s damdinAt) - 128)
    ((flashHeader s damdinAt).take 128)
  obtain ⟨t₃, h₃⟩ := sramPut_crammed_crammed s t₂ s.mgmt.crypto (hdrLoad (flashHeader s damdinAt))
    (tabBytes s.mgmt.flash (damdinAt + 256) ((hdrBlen (flashHeader s damdinAt) + 7) / 8 * 8))
  obtain ⟨c, hc⟩ := hregs t₃
  obtain ⟨c', hc'⟩ := bootRegs_crammed s t₃ c damdinAt
  unfold stage1Copies
  dsimp only
  rw [h₁, h₂, h₃, hc]
  exact ⟨t₃, c', hc'⟩

theorem bootStage1_halts (h : bootError s damdinAt true ≠ 0) : ∃ t c, bootStage1 s =
    modMgmt (bootHalt (crammed s t c) 1 (bootError s damdinAt true)) fun m => { m with poll := some true } := by
  unfold bootStage1
  dsimp only
  by_cases hhdr : bootError s damdinAt true = 0x11
  · obtain ⟨t, ht⟩ := sramPut_crammed s 0x0800F000 (flashHeader s damdinAt)
    rw [if_pos hhdr, ht]
    exact ⟨t, s.mgmt.crypto, rfl⟩
  · obtain ⟨t, c, ht⟩ := stage1_crammed s
    obtain ⟨c', hc'⟩ := ran_crammed s t c 2 (bootError s damdinAt true - 0x20)
    rw [if_neg hhdr, if_pos h, ht, hc']
    exact ⟨t, c', rfl⟩

theorem bootStage1_goes (h : bootError s damdinAt true = 0) : ∃ t c, bootStage1 s =
    modMgmt (measured s t c 1 (flashDigest s damdinAt)) fun m =>
      { m with mbox := { m.mbox with bootst := 1 }, poll := some true } := by
  obtain ⟨t, c, ht⟩ := stage1_crammed s
  obtain ⟨c', hc'⟩ := ran_measExtend_crammed s t c 1 (flashDigest s damdinAt) 4 0
  unfold bootStage1
  dsimp only
  rw [h, if_neg (by decide), if_neg (not_not_intro rfl), ht, hc']
  exact ⟨t, c', rfl⟩

/-- Stage 1's read of RXSTAT finds a request pending. -/
def PollSees (s : State) : Prop := s.mgmt.poll = some true ∧ s.mgmt.mbox.pend = true ∧ s.mgmt.mbox.rxAt < s.time

theorem bootPoll_sees (h : PollSees s) : bootPoll s = clearPend (stage1Answer s ⟨0, s.mgmt.mbox.rxbuf⟩) := by
  obtain ⟨hpoll, hpend, hat⟩ := h
  unfold bootPoll
  simp only [hpoll, hpend, decide_eq_true hat, beq_self_eq_true, Bool.and_self, if_true]

theorem bootPoll_sees_not (h : ¬PollSees s) : bootPoll s = modMgmt s fun m => { m with poll := some false } := by
  refine if_neg fun hc => h ?_
  simp only [Bool.and_eq_true, beq_iff_eq, decide_eq_true_eq] at hc
  exact ⟨hc.1.1, hc.1.2, hc.2⟩

/-- The read of RXSTAT is over, and of the management die only the mailbox's answer and the crypto block have changed. -/
theorem bootPoll_keeps (s : State) : (bootPoll s).mgmt.poll = some false ∧ (bootPoll s).mgmt.stage = s.mgmt.stage ∧
    (bootPoll s).mgmt.mbox.monitor = s.mgmt.mbox.monitor ∧ (bootPoll s).mgmt.flash = s.mgmt.flash := by
  by_cases h : PollSees s
  · rw [bootPoll_sees h]
    simp only [clearPend, stage1Answer, mboxSend, spdmSend, setSession, modMbox_mgmt, modMgmt_mgmt, true_and]
    rw [measAnswer_mgmt]
    exact ⟨rfl, rfl, rfl⟩
  · rw [bootPoll_sees_not h]
    exact ⟨rfl, rfl, rfl, rfl⟩

/-- The end of stage 1 answers no request itself. -/
theorem bootStart_mbox (s : State) : (bootStart s).mgmt.poll = (bootPoll s).mgmt.poll ∧
    (bootStart s).mgmt.crypto = (bootPoll s).mgmt.crypto ∧ (bootStart s).mgmt.mbox.sent = (bootPoll s).mgmt.mbox.sent ∧
    (bootStart s).mgmt.mbox.pend = (bootPoll s).mgmt.mbox.pend ∧
    (bootStart s).mgmt.mbox.rxbuf = (bootPoll s).mgmt.mbox.rxbuf := by
  unfold bootStart
  dsimp only
  split_ifs <;> exact ⟨rfl, rfl, rfl, rfl, rfl⟩

theorem bootStart_halted (h : s.mgmt.halted = true) : bootStart s = bootPoll s := if_pos h

theorem bootStart_goes (h : s.mgmt.halted = false) : (bootStart s).mgmt.stage = 2 ∧ (bootStart s).mgmt.mbox.monitor = true ∧
    (bootStart s).mgmt.core.pc = BitVec.ofNat 64 (hdrEntry (flashHeader s damdinAt)) := by
  obtain ⟨-, -, -, hflash⟩ := bootPoll_keeps s
  have henter := bootEnter_eq (v := modMgmt (bootPoll s) fun m => { m with stage := 2 }) (o := damdinAt) hflash
  have hs : bootStart s = modMbox (bootEnter (modMgmt (bootPoll s) fun m => { m with stage := 2 }) damdinAt)
      fun b => { b with monitor := true } := if_neg fun hc => Bool.false_ne_true (h.symm.trans hc)
  rw [hs, henter]
  exact ⟨rfl, rfl, rfl⟩

/-! ### The stages in their order (R321) -/

theorem bootNext_stage1 (h : s.mgmt.stage = 1) (hp : s.mgmt.poll = none) : bootNext s = bootStage1 s := by
  unfold bootNext
  rw [if_pos h, hp]
  rfl

theorem bootNext_start (h : s.mgmt.stage = 1) (hp : s.mgmt.poll.isSome = true) : bootNext s = bootStart s := by
  unfold bootNext
  rw [if_pos h, if_neg (by rw [Option.isNone_iff_eq_none]; exact Option.isSome_iff_ne_none.mp hp)]

theorem bootNext_stage2 (hh : s.mgmt.halted = false) (h : s.mgmt.stage = 2) : bootNext s = bootStage2 s := by
  unfold bootNext
  simp only [h, hh, show ((2 : Nat) = 1) = False from by decide, if_false, if_true, Bool.false_eq_true]

theorem bootNext_stage3 (hh : s.mgmt.halted = false) (h : s.mgmt.stage = 3) : bootNext s = bootStage3 s := by
  unfold bootNext
  simp only [h, hh, show ((3 : Nat) = 1) = False from by decide, show ((3 : Nat) = 2) = False from by decide, if_false,
    if_true, Bool.false_eq_true]

/-- The announcements wait on their links. -/
theorem announcements_fab (es : List Nat) : ∀ s : State, ∃ F, es.foldl announce s = { s with fab := F } := by
  induction es with
  | nil => exact fun s => ⟨s.fab, rfl⟩
  | cons e es ih =>
    intro s
    obtain ⟨F, hF⟩ := ih (announce s e)
    exact ⟨F, hF⟩

/-! ### The disable list (R331) -/

/-- A unit of a list that clears bits which no unit sets leaves those bits cleared. -/
theorem without_foldl {P : Conf → Prop} {u : Disabled} (hu : ∀ c : Conf, P (c.without u))
    (hkeep : ∀ (c : Conf) (v : Disabled), P c → P (c.without v)) :
    ∀ (us : List Disabled) (c : Conf), u ∈ us → P (us.foldl Conf.without c) := by
  have hall : ∀ (us : List Disabled) (c : Conf), P c → P (us.foldl Conf.without c) := by
    intro us
    induction us with
    | nil => exact fun _ h => h
    | cons v us ih => exact fun c h => ih _ (hkeep c v h)
  intro us
  induction us with
  | nil => exact fun _ h => absurd h List.not_mem_nil
  | cons v us ih =>
    intro c h
    obtain rfl | h := List.mem_cons.mp h
    · exact hall us _ (hu c)
    · exact ih _ h

theorem rowEn_without (c : Conf) (u : Disabled) (n : Nat) (h : c.rowEn.getLsbD n = false) :
    (c.without u).rowEn.getLsbD n = false := by
  cases u with
  | row k => simp [Conf.without, h]
  | channels k => exact h
  | port p w => exact h
  | bank die k => by_cases hd : die < 4 <;> simpa only [Conf.without, hd, dif_pos, dif_neg, not_false_eq_true] using h

theorem lpen_without (c : Conf) (u : Disabled) (n : Nat) (h : c.lpen.getLsbD n = false) :
    (c.without u).lpen.getLsbD n = false := by
  cases u with
  | row k => exact h
  | channels k => simp [Conf.without, h]
  | port p w => exact h
  | bank die k => by_cases hd : die < 4 <;> simpa only [Conf.without, hd, dif_pos, dif_neg, not_false_eq_true] using h

theorem rowEn_without_row (c : Conf) {n : Nat} (hn : n < 128) : (c.without (.row n)).rowEn.getLsbD n = false := by
  simp [Conf.without, hn]

theorem lpen_without_channels (c : Conf) {k b : Nat} (hk : k < 16) (hb : b < 2) :
    (c.without (.channels k)).lpen.getLsbD (2 * k + b) = false := by
  have hlt : 2 * k + b < 32 := by omega
  have h3 : (3#32).getLsbD b = true := by
    interval_cases b <;> rfl
  simp only [Conf.without, BitVec.getLsbD_and, BitVec.getLsbD_not, BitVec.getLsbD_shiftLeft, hlt, decide_true,
    Nat.add_sub_cancel_left, h3, Bool.and_true, show ¬2 * k + b < 2 * k from by omega, decide_false,
    Bool.not_false, Bool.not_true, Bool.and_false]

/-! ### The silo -/

/-- An event of the silo's entries above the abort counters is counted once, whatever chunks its write aborts. -/
theorem siloAdd_counts {i : Nat} (hi : 2211 < i) (h : Tab.get s.silo i 0 < 2 ^ 64 - 1) :
    Tab.get (siloAdd s i).silo i 0 = Tab.get s.silo i 0 + 1 := by
  rw [(siloAdd_onlyAborts s i).silo i hi]
  refine (Tab.get_set_same _ _ _ _).trans (Nat.min_eq_left ?_)
  omega

theorem siloAdd_unseen {i : Nat} (h : Unseen s (0x4000000 + 8 * i)) : siloAdd s i = observe (siloBump s i) :=
  ctlChanged_of_unseen (s := siloBump s i) h

/-! ### Access faults of the management core (R318) -/

/-- A trap of the management core writes its cause, its address and the pc. -/
theorem mgTrap_csrs (s : State) (cause : Nat) (v : Word) : csrGet (mgTrap s cause v).mgmt.core 0x341 = s.mgmt.core.pc ∧
    csrGet (mgTrap s cause v).mgmt.core 0x342 = BitVec.ofNat 64 cause ∧ csrGet (mgTrap s cause v).mgmt.core 0x343 = v ∧
    (mgTrap s cause v).mgmt.core.user = false := by
  refine ⟨?_, ?_, ?_, rfl⟩
  · exact (Tab.get_set_other _ _ _ (by decide)).trans ((Tab.get_set_other _ _ _ (by decide)).trans (Tab.get_set_same _ _ _ _))
  · exact (Tab.get_set_other _ _ _ (by decide)).trans (Tab.get_set_same _ _ _ _)
  · exact Tab.get_set_same _ _ _ _

theorem mgTrap_keeps (s : State) (cause : Nat) (v : Word) : (mgTrap s cause v).mgmt.fault = s.mgmt.fault ∧
    (mgTrap s cause v).mem = s.mem ∧ (mgTrap s cause v).silo = s.silo := ⟨rfl, rfl, rfl⟩

/-- The state in which an access fault is noted. -/
def faultNoted (s : State) (a : Nat) : State := modMgmt s fun m => { m with fault := some a }

theorem accessFault_eq {a : Nat} (h : mgmtPlace a 1 = none) : exec (.managementCoreAccessFault a) s =
    .next (mgTrap (siloAdd (faultNoted s a) 2239) 5 (BitVec.ofNat 64 a)) := by
  have hw : windowRefuses (dataUser s.mgmt.core && 5 != 1) a 1 = false := by
    unfold windowRefuses
    rw [h, Bool.and_false]
  change execManagementCoreAccessFault a s = _
  unfold execManagementCoreAccessFault mgFault
  rw [h, hw]
  rfl

/-! ### The obligation -/

/-- A power-on reset: what the reset leaves, then stage 0. -/
theorem powerOnReset_claim (s : State) :
    let r := resetPackage s
    let e := bootError r 0 false
    ∃ t, exec .powerOnReset s = .next t ∧ t.conf = resetConf s ∧ t.silo = s.silo ∧ t.power = true ∧ t.time = 0 ∧
      t.mgmt.mbox.monitor = false ∧ (∀ n, tenantWord t n 0 = ctlReset (tenantOff n 0)) ∧
      (e ≠ 0 → t.mgmt.halted = true ∧ t.mgmt.mbox.bootst = BitVec.ofNat 64 (2 ^ 8 * e) ∧ t.mgmt.stage = 0 ∧
        t.mgmt.core.stopped = true) ∧
      (e = 0 → t.mgmt.halted = false ∧ t.mgmt.stage = 1 ∧ t.mgmt.romExit = true ∧
        t.mgmt.core.pc = BitVec.ofNat 64 (hdrEntry (flashHeader r 0)) ∧
        measOf t 0 = digOf (sha384 (bytesBE 48 0 ++ bytesBE 48 (flashDigest r 0).toNat))) := by
  intro r e
  obtain ⟨m, hm, hmon⟩ := bootStage0_state r
  refine ⟨bootStage0 r, rfl, by rw [hm]; rfl, by rw [hm]; rfl, by rw [hm]; rfl, by rw [hm]; rfl, ?_, fun n => ?_,
    fun he => ?_, fun he => ?_⟩
  · rw [hm]
    exact hmon
  · have hword : 8 * (tenantOff n 0 / 8) = tenantOff n 0 := by unfold tenantOff; omega
    rw [hm]
    exact congrArg ctlReset hword
  · obtain ⟨t, c, hs⟩ := bootStage0_halts he
    rw [hs, bootHalt_eq]
    exact ⟨rfl, congrArg (BitVec.ofNat 64) (Nat.zero_add _), rfl, rfl⟩
  · obtain ⟨t, c, hs⟩ := bootStage0_goes he
    have hzero : measOf r 0 = 0 := Vector.getElem_replicate (by decide)
    rw [hs]
    refine ⟨rfl, rfl, rfl, rfl, ?_⟩
    refine (measOf_measured _ _ _ _ _ _ (by intro m; rfl)).trans ?_
    rw [hzero, BitVec.ofNat_eq_ofNat, BitVec.toNat_zero]

/-- The end of stage 1. -/
theorem bootStart_claim (hst : s.mgmt.stage = 1) (hp : s.mgmt.poll.isSome = true) :
    let b := s.mgmt.mbox
    let t := bootNext s
    t.mgmt.poll = some false ∧
    (s.mgmt.halted = true → t.mgmt.stage = 1 ∧ t.mgmt.mbox.monitor = b.monitor) ∧
    (s.mgmt.halted = false → t.mgmt.stage = 2 ∧ t.mgmt.mbox.monitor = true ∧
      t.mgmt.core.pc = BitVec.ofNat 64 (hdrEntry (flashHeader s damdinAt))) ∧
    (s.mgmt.poll = some true → b.pend = true → b.rxAt < s.time → t.mgmt.mbox.pend = false ∧
      (∀ c d, measError b.rxbuf false = some (c, d) → t.mgmt.mbox.sent = b.sent ++ [[0x13, 0x7F, c, d]]) ∧
      (measError b.rxbuf false = none → t.mgmt.mbox.sent = b.sent ++
        [measurementsOf s (b.rxbuf.getD 3 0).toNat ((bytesBE 48 t.mgmt.crypto.dig.toNat).take 32)])) ∧
    (s.mgmt.poll = some false ∨ b.pend = false ∨ s.time ≤ b.rxAt →
      t.mgmt.mbox.sent = b.sent ∧ t.mgmt.mbox.pend = b.pend ∧ t.mgmt.mbox.rxbuf = b.rxbuf) := by
  dsimp only
  obtain ⟨hpoll, hcrypto, hsent, hpend, hbuf⟩ := bootStart_mbox s
  obtain ⟨hpoll', hstage', hmon', -⟩ := bootPoll_keeps s
  rw [bootNext_start hst hp, hpoll, hcrypto, hsent, hpend, hbuf]
  refine ⟨hpoll', fun hh => ?_, bootStart_goes, fun h1 h2 h3 => ?_, fun hnot => ?_⟩
  · rw [bootStart_halted hh]
    exact ⟨hstage'.trans hst, hmon'⟩
  · rw [bootPoll_sees ⟨h1, h2, h3⟩, clearPend_stage1Answer_mbox_sent, clearPend_stage1Answer_crypto]
    refine ⟨rfl, fun c d herr => ?_, fun herr => ?_⟩
    · rw [measAnswer_of_error s herr]
      rfl
    · rw [measAnswer_unsigned s herr (no_signature_of_measError_none herr)]
  · have hsees : ¬PollSees s := by
      rintro ⟨h1, h2, h3⟩
      obtain h | h | h := hnot
      · exact absurd (h1.symm.trans h) (by decide)
      · exact Bool.false_ne_true (h.symm.trans h2)
      · exact absurd h3 (Nat.not_lt.mpr h)
    rw [bootPoll_sees_not hsees]
    exact ⟨rfl, rfl, rfl⟩

/-- Settles O54: each stage and each event by its own equations; what the silo counts by the rule for an abort's reach. -/
theorem powerAndBoot : Obligations.PowerAndBoot := by
  unfold Obligations.PowerAndBoot
  refine ⟨powerOnReset_claim, ?stage1, fun s hst hp => bootStart_claim hst hp, ?later, ?turn, ?disable, ?events, ?fault, ?ecc⟩
  case stage1 =>
    intro s hst hp hh
    rw [bootNext_stage1 hst hp]
    by_cases he : bootError s damdinAt true = 0
    · obtain ⟨t, c, hs⟩ := bootStage1_goes he
      rw [hs]
      exact ⟨hst, rfl, rfl, fun hne => absurd he hne, fun _ => ⟨hh, rfl, measOf_measured _ _ _ _ _ _ fun _ => rfl⟩⟩
    · obtain ⟨t, c, hs⟩ := bootStage1_halts he
      rw [hs, bootHalt_eq]
      exact ⟨hst, rfl, rfl, fun _ => ⟨rfl, rfl, rfl⟩, fun h => absurd h he⟩
  case later =>
    refine fun s hh => ⟨fun hst => ?_, fun hst => ?_⟩
    · rw [bootNext_stage2 hh hst]
      exact ⟨rfl, rfl, rfl, rfl⟩
    · rw [bootNext_stage3 hh hst]
      obtain ⟨F, hF⟩ := announcements_fab s.conf.endpoints { s with mem := ⟨[], [], [], [], []⟩ }
      unfold bootStage3
      rw [hF]
      exact ⟨rfl, rfl, rfl, fun a => rfl, rfl⟩
  case turn =>
    intro s c hpow hnext b hkept
    unfold step takesTurn
    rw [hnext, hpow]
    exact if_pos hkept
  case disable =>
    refine fun s => ⟨rfl, fun hd => ?_, fun n hn h => ?_, fun k hk h => ⟨?_, ?_⟩⟩
    · unfold resetConf
      rw [hd]
      rfl
    · exact without_foldl (P := fun c => c.rowEn.getLsbD n = false) (fun c => rowEn_without_row c hn)
        (fun c v => rowEn_without c v n) s.mgmt.disable s.conf h
    · exact without_foldl (P := fun c => c.lpen.getLsbD (2 * k) = false)
        (fun c => lpen_without_channels c hk (b := 0) (by decide)) (fun c v => lpen_without c v _) s.mgmt.disable s.conf h
    · exact without_foldl (P := fun c => c.lpen.getLsbD (2 * k + 1) = false)
        (fun c => lpen_without_channels c hk (b := 1) (by decide)) (fun c v => lpen_without c v _) s.mgmt.disable s.conf h
  case events =>
    refine fun s c => ⟨fun hc => ?_, rfl, rfl, ⟨_, rfl, rfl, rfl, rfl⟩, ⟨_, rfl, rfl, rfl, rfl⟩, fun h => ?_, fun h => ?_,
      fun i hpow hi hne => ?_⟩
    · exact ⟨_, congrArg Host.Outcome.next (if_pos hc), fun k => mem_addNew, rfl, rfl, rfl⟩
    · exact ⟨_, rfl, rfl, siloAdd_counts (by decide) h⟩
    · refine ⟨_, rfl, siloAdd_counts (by decide) h, fun hu => ?_⟩
      rw [siloAdd_unseen hu]
      exact ⟨observe_onlySlots (siloBump s 2235), rfl, (siloAdd_unseen hu ▸ (siloAdd_onlyAborts s 2235).ctl)⟩
    · have ha : (i.actor == Actor.unit .powerOnReset) = false := beq_false_of_ne hne
      unfold step takesTurn
      rw [hi, hpow, ha]
      rfl
  case fault =>
    intro s a ha
    have honly := siloAdd_onlyAborts (faultNoted s a) 2239
    obtain ⟨hpc, hcause, hval, huser⟩ := mgTrap_csrs (siloAdd (faultNoted s a) 2239) 5 (BitVec.ofNat 64 a)
    obtain ⟨hfault, hmem, hsilo⟩ := mgTrap_keeps (siloAdd (faultNoted s a) 2239) 5 (BitVec.ofNat 64 a)
    refine ⟨_, accessFault_eq ha, hfault.trans ?_, hpc.trans ?_, hcause, hval, huser, fun hu => hmem.trans ?_, fun h => ?_⟩
    · rw [honly.mgmt]
      rfl
    · rw [honly.mgmt]
      rfl
    · rw [siloAdd_unseen (s := faultNoted s a) hu]
      rfl
    · rw [hsilo]
      exact siloAdd_counts (s := faultNoted s a) (by decide) h
  case ecc =>
    intro s a hplace
    have hexec : exec (.uncorrectableMemoryError a) s =
        .next { s with mem := { s.mem with poison := insertNat (8 * (canon s a / 8)) s.mem.poison } } := by
      change execUncorrectableMemoryError a s = _
      unfold execUncorrectableMemoryError
      obtain h | ⟨w, c, o, h⟩ := hplace
      · rw [h]
      · rw [h]
    exact ⟨_, hexec, rfl, fun q => mem_insertNat, fun q => rfl, fun q => rfl⟩

end Sys2Proof.Machine
end


section
/-! PROOFS. Links, their keys and rekeys (R299 to R301, R307). -/

namespace Sys2Proof.Machine

variable {s t : State} {f : Flit} {m : SpdmMsg} {p q : Nat}

/-! ### Key banks -/

theorem bankKey_congr {slot : Nat} {g : Bool} (h : t.mgmt.keys = s.mgmt.keys) : bankKey t slot g = bankKey s slot g := by
  unfold bankKey
  rw [h]

@[simp] theorem bankKey_setBank_same (s : State) (slot : Nat) (g : Bool) (key : List Byte) :
    bankKey (setBank s slot g key) slot g = key := by
  unfold bankKey setBank
  simp only [Tab.get_set_same]
  cases g <;> rfl

/-- The other bank of the slot keeps its key. -/
@[simp] theorem bankKey_setBank_bank (s : State) (slot : Nat) {g g' : Bool} (h : g' ≠ g) (key : List Byte) :
    bankKey (setBank s slot g key) slot g' = bankKey s slot g' := by
  unfold bankKey setBank
  simp only [Tab.get_set_same]
  obtain rfl := Bool.eq_not.mpr h
  cases g <;> rfl

@[simp] theorem bankKey_setBank_slot (s : State) {slot slot' : Nat} (h : slot' ≠ slot) (g g' : Bool) (key : List Byte) :
    bankKey (setBank s slot g key) slot' g' = bankKey s slot' g' := by
  unfold bankKey setBank
  simp only [Tab.get_set_other _ _ _ h]

theorem rxSlot_ne_txSlot (p : Nat) : rxSlot p ≠ txSlot p := by
  unfold rxSlot txSlot
  omega

/-- The key of a direction of a link, from the session's present secret. -/
def linkKey (s : State) (d : Nat) : List Byte :=
  hkdf384 (Config.sessionSecret s.fresh) ([0x6C, 0x6A, 0x38, 0x20, 0x6C, 0x69, 0x6E, 0x6B] ++ [BitVec.ofNat 8 d]) 32

theorem loadLinkKeys_banks (s : State) (p x y : Nat) (g h : Bool) :
    bankKey (loadLinkKeys s p x y g h) (txSlot p) g = linkKey s x ∧ bankKey (loadLinkKeys s p x y g h) (rxSlot p) h = linkKey s y ∧
    (∀ g', g' ≠ g → bankKey (loadLinkKeys s p x y g h) (txSlot p) g' = bankKey s (txSlot p) g') ∧
    (∀ h', h' ≠ h → bankKey (loadLinkKeys s p x y g h) (rxSlot p) h' = bankKey s (rxSlot p) h') := by
  have hload : ∀ slot b, bankKey (loadLinkKeys s p x y g h) slot b =
      bankKey (setBank (setBank s (txSlot p) g (linkKey s x)) (rxSlot p) h (linkKey s y)) slot b := fun _ _ => bankKey_congr rfl
  refine ⟨?_, ?_, fun g' hg => ?_, fun h' hh => ?_⟩
  · rw [hload, bankKey_setBank_slot _ (rxSlot_ne_txSlot p).symm, bankKey_setBank_same]
  · rw [hload, bankKey_setBank_same]
  · rw [hload, bankKey_setBank_slot _ (rxSlot_ne_txSlot p).symm, bankKey_setBank_bank _ _ hg]
  · rw [hload, bankKey_setBank_bank _ _ hh, bankKey_setBank_slot _ (rxSlot_ne_txSlot p)]

/-- State that differs in the key store and the count of free choices alone. -/
def KeysOnly (s t : State) : Prop := ∃ K n, t = { s with mgmt := { s.mgmt with keys := K }, fresh := n }

theorem KeysOnly.trans {u : State} (h : KeysOnly s t) (h' : KeysOnly t u) : KeysOnly s u := by
  obtain ⟨K, n, rfl⟩ := h
  obtain ⟨K', n', rfl⟩ := h'
  exact ⟨K', n', rfl⟩

theorem setBank_keysOnly (s : State) (slot : Nat) (g : Bool) (key : List Byte) : KeysOnly s (setBank s slot g key) := ⟨_, _, rfl⟩

theorem nextFresh_keysOnly (s : State) : KeysOnly s (nextFresh s) := ⟨_, _, rfl⟩

theorem loadLinkKeys_keysOnly (s : State) (p x y : Nat) (g h : Bool) : KeysOnly s (loadLinkKeys s p x y g h) :=
  ((setBank_keysOnly s _ _ _).trans (setBank_keysOnly _ _ _ _)).trans (nextFresh_keysOnly _)

theorem clearIdle_keysOnly (s : State) (p : Nat) : KeysOnly s (clearIdle s p) :=
  (setBank_keysOnly s _ _ _).trans (setBank_keysOnly _ _ _ _)

/-! ### What a flit leaves of a link -/

theorem linkAt_setLink_same (s : State) (p : Nat) (l : Link) : linkAt (setLink s p l) p = l := Tab.get_set_same _ _ _ _

theorem linkAt_setLink_other (s : State) (l : Link) (h : q ≠ p) : linkAt (setLink s p l) q = linkAt s q :=
  Tab.get_set_other _ _ _ h

theorem linkAt_congr (h : t.fab.links = s.fab.links) : linkAt t q = linkAt s q := congrArg (Tab.get · q linkDown) h

/-- A link that has but sent flits or held them: its counter and what it holds may differ. -/
def LinkKept (s t : State) (q : Nat) : Prop := ∃ n hs, linkAt t q = { linkAt s q with txCtr := n, held := hs }

theorem LinkKept.refl (s : State) (q : Nat) : LinkKept s s q := ⟨_, _, rfl⟩

theorem LinkKept.trans {u : State} (h : LinkKept s t q) (h' : LinkKept t u q) : LinkKept s u q := by
  obtain ⟨n, hs, h⟩ := h
  obtain ⟨n', hs', h'⟩ := h'
  exact ⟨n', hs', by rw [h', h]⟩

theorem sendFlit_links (s : State) (f : Flit) : ∃ n hs, (sendFlit s f).fab.links =
    Tab.set s.fab.links f.port { linkAt s f.port with txCtr := n, held := hs } := by
  unfold sendFlit
  dsimp only
  split_ifs <;> exact ⟨_, _, rfl⟩

theorem sendFlit_linkAt_other (h : q ≠ f.port) : linkAt (sendFlit s f) q = linkAt s q := by
  obtain ⟨n, hs, hl⟩ := sendFlit_links s f
  unfold linkAt
  rw [hl, Tab.get_set_other _ _ _ h]

theorem sendFlit_linkKept (s : State) (f : Flit) (q : Nat) : LinkKept s (sendFlit s f) q := by
  by_cases h : q = f.port
  · obtain ⟨n, hs, hl⟩ := sendFlit_links s f
    refine ⟨n, hs, ?_⟩
    subst h
    exact (congrArg (Tab.get · f.port linkDown) hl).trans (Tab.get_set_same _ _ _ _)
  · exact ⟨_, _, sendFlit_linkAt_other h⟩

theorem sendFlit_fab (s : State) (f : Flit) : ∃ F, sendFlit s f = { s with fab := F } := by
  obtain ⟨F, h, -⟩ := sendFlit_eq s f
  exact ⟨F, h⟩

/-- Flits sent one after another keep the link's keys, and change the fabric interface alone. -/
theorem sendAll_keeps (fs : List Flit) (s : State) (q : Nat) :
    (∃ F, fs.foldl sendFlit s = { s with fab := F }) ∧ LinkKept s (fs.foldl sendFlit s) q := by
  refine List.foldlRecOn (motive := fun t => (∃ F, t = { s with fab := F }) ∧ LinkKept s t q) fs sendFlit
    ⟨⟨_, rfl⟩, LinkKept.refl s q⟩ ?_
  rintro t ⟨⟨F, hF⟩, hk⟩ f -
  obtain ⟨G, hG⟩ := sendFlit_fab t f
  exact ⟨⟨G, by rw [hG, hF]⟩, hk.trans (sendFlit_linkKept t f q)⟩

theorem portFor_congr {d : Nat} (h : t.conf = s.conf) : portFor t d = portFor s d := by
  unfold portFor portsOn
  rw [h]

/-- The flits of an answer leave by the port of the package that asked; every other link is as it was. -/
theorem answerFlits_links (s : State) (f : Flit) (q : Nat) : LinkKept s (answerFlits s f) q ∧
    (portFor s f.src ≠ q → linkAt (answerFlits s f) q = linkAt s q) := by
  have h := List.foldlRecOn
    (motive := fun t => t.conf = s.conf ∧ LinkKept s t q ∧ (portFor s f.src ≠ q → linkAt t q = linkAt s q))
    (Config.securedFlits s.fresh) (fun s ws => sendFlit s (mkFlit s f.src 4 f.ti f.dcore f.score 13 0 (ws.take 26)))
    (b := nextFresh s) ⟨rfl, LinkKept.refl s q, fun _ => rfl⟩ ?step
  case step =>
    rintro t ⟨hconf, hk, hother⟩ ws -
    refine ⟨?_, hk.trans (sendFlit_linkKept t _ q), fun hne => (sendFlit_linkAt_other ?_).trans (hother hne)⟩
    · obtain ⟨F, hF⟩ := sendFlit_fab t (mkFlit t f.src 4 f.ti f.dcore f.score 13 0 (ws.take 26))
      rw [hF]
      exact hconf
    · exact fun hq => hne (hq.trans (portFor_congr hconf)).symm
  exact ⟨h.2.1, h.2.2⟩

/-- The flits a link has held leave by their ports. -/
theorem releaseHeld_keeps (s : State) (p : Nat) : (∃ F, releaseHeld s p = { s with fab := F }) ∧ LinkKept s (releaseHeld s p) p := by
  obtain ⟨⟨F, hF⟩, hk⟩ := sendAll_keeps (linkAt s p).held (setLink s p { linkAt s p with held := [] }) p
  refine ⟨⟨F, hF⟩, LinkKept.trans ?_ hk⟩
  exact ⟨_, _, linkAt_setLink_same _ _ _⟩

theorem releaseHeld_none (h : (linkAt s p).held = []) : releaseHeld s p = setLink s p (linkAt s p) := by
  unfold releaseHeld
  simp only [h, List.foldl_nil]
  congr 1
  rw [← h]

/-! ### Bring-up (R299, R321) -/

theorem linkBringUp_idle {x y : Nat} (h : s.mgmt.stage < 3 ∨ s.mgmt.halted = true) : exec (.linkBringUp p x y) s = .next s := by
  change execLinkBringUp p x y s = _
  unfold execLinkBringUp
  rw [if_neg]
  intro hc
  simp only [Bool.and_eq_true, decide_eq_true_eq, Bool.not_eq_true'] at hc
  obtain ⟨⟨⟨hst, hh⟩, -⟩, -⟩ := hc
  obtain h | h := h
  · omega
  · exact Bool.false_ne_true (hh.symm.trans h)

/-- A link that has come up, nothing held. -/
def freshLink (x y : Nat) : Link := ⟨true, false, 0, 0, x, y, none, 0, false, false, []⟩

theorem linkBringUp_eq {x y : Nat} (hst : 3 ≤ s.mgmt.stage) (hh : s.mgmt.halted = false) (hp : p ∈ portsOn s)
    (hup : (linkAt s p).up = false) (hheld : (linkAt s p).held = []) : exec (.linkBringUp p x y) s =
      .next (releaseHeld (setLink (clearIdle (loadLinkKeys s p x y false false) p) p (freshLink x y)) p) := by
  change execLinkBringUp p x y s = _
  unfold execLinkBringUp
  simp only [hst, hh, hup, hheld, List.contains_iff_mem.mpr hp, decide_true, Bool.not_false, Bool.and_self, if_true]
  rfl

/-- The banks of a link that comes up: the keys in those of KGEN = 0, the others empty. -/
theorem linkKeys_fresh (s : State) (p x y : Nat) :
    let v := clearIdle (loadLinkKeys s p x y false false) p
    KeysOnly s v ∧
    bankKey v (txSlot p) false = linkKey s x ∧ bankKey v (rxSlot p) false = linkKey s y ∧
    bankKey v (txSlot p) true = [] ∧ bankKey v (rxSlot p) true = [] := by
  intro v
  obtain ⟨htx, hrx, -, -⟩ := loadLinkKeys_banks s p x y false false
  have hne : (false : Bool) ≠ true := Bool.false_ne_true
  refine ⟨(loadLinkKeys_keysOnly s p x y false false).trans (clearIdle_keysOnly _ p), ?_, ?_, ?_, ?_⟩
  · exact (bankKey_setBank_slot _ (rxSlot_ne_txSlot p).symm _ _ _).trans ((bankKey_setBank_bank _ _ hne _).trans htx)
  · exact (bankKey_setBank_bank _ _ hne _).trans ((bankKey_setBank_slot _ (rxSlot_ne_txSlot p) _ _ _).trans hrx)
  · exact (bankKey_setBank_slot _ (rxSlot_ne_txSlot p).symm _ _ _).trans (bankKey_setBank_same _ _ _ _)
  · exact bankKey_setBank_same _ _ _ _

theorem bringUp_claim {x y : Nat} (hst : 3 ≤ s.mgmt.stage) (hh : s.mgmt.halted = false) (hp : p ∈ portsOn s)
    (hup : (linkAt s p).up = false) (hheld : (linkAt s p).held = []) : ∃ t, exec (.linkBringUp p x y) s = .next t ∧
      linkAt t p = freshLink x y ∧ (∀ q, q ≠ p → linkAt t q = linkAt s q) ∧ t.fab.egress = s.fab.egress ∧ t.cur = s.cur ∧
      t.mem = s.mem ∧ bankKey t (txSlot p) false = linkKey s x ∧ bankKey t (rxSlot p) false = linkKey s y ∧
      bankKey t (txSlot p) true = [] ∧ bankKey t (rxSlot p) true = [] := by
  have hexec := linkBringUp_eq (x := x) (y := y) hst hh hp hup hheld
  obtain ⟨hkeeps, htx, hrx, htx', hrx'⟩ := linkKeys_fresh s p x y
  generalize clearIdle (loadLinkKeys s p x y false false) p = v at hexec hkeeps htx hrx htx' hrx'
  obtain ⟨K, n, rfl⟩ := hkeeps
  have hself : linkAt (setLink { s with mgmt := { s.mgmt with keys := K }, fresh := n } p (freshLink x y)) p = freshLink x y :=
    linkAt_setLink_same _ _ _
  rw [releaseHeld_none (by rw [hself]; rfl), hself] at hexec
  refine ⟨_, hexec, linkAt_setLink_same _ _ _, fun q hq => ?_, rfl, rfl, rfl, htx, hrx, htx', hrx'⟩
  exact (linkAt_setLink_other _ _ hq).trans ((linkAt_setLink_other _ _ hq).trans (linkAt_congr rfl))

/-! ### A flit leaves (R299) -/

/-- Over a link that is up and has counters left, a flit leaves as its image. -/
theorem sendFlit_up (hup : (linkAt s f.port).up = true) (hctr : (linkAt s f.port).txCtr < 2 ^ 48) :
    (sendFlit s f).fab.wire = s.fab.wire ++ [(f.port, flitImage (bankKey s (txSlot f.port) (linkAt s f.port).kgen)
      (linkAt s f.port).txDir (linkAt s f.port).txCtr { f with kgen := (linkAt s f.port).kgen })] ∧
    linkAt (sendFlit s f) f.port = { linkAt s f.port with txCtr := (linkAt s f.port).txCtr + 1 } := by
  have hgo : (!(linkAt s f.port).up || decide (2 ^ 48 ≤ (linkAt s f.port).txCtr)) = false := by
    rw [hup, decide_eq_false (Nat.not_le.mpr hctr)]
    rfl
  unfold sendFlit
  simp only [hgo, Bool.false_eq_true, if_false]
  by_cases h : f.op = 9 ∨ f.cls = 4
  · simp only [if_pos h]
    exact ⟨trivial, Tab.get_set_same _ _ _ _⟩
  · simp only [if_neg h]
    exact ⟨rfl, Tab.get_set_same _ _ _ _⟩

theorem flitImage_eq (key : List Byte) (dir ctr : Nat) (f : Flit) : ∃ check : List Byte, check.length = 16 ∧
    flitImage key dir ctr f = flitHeader f ++ flitSealed key dir ctr f ++ flitTag key dir ctr f ++ check :=
  ⟨_, (List.length_map _).trans List.length_range, rfl⟩

/-! ### Rekeys (R299, R300) -/

/-- The first key update of a rekey, on the link's own session. -/
theorem rekeyBegin_eq {l : Link} (hl : linkAt s p = l) (hp : p ∈ portsOn s) (hup : l.up = true) (hr : l.rekey = none) :
    rekeyBegin s p = setLink (loadLinkKeys s p l.txDir l.rxDir (!l.kgen) (!l.rxKgen)) p { l with rekey := some ⟨false, false⟩ } := by
  subst hl
  unfold rekeyBegin
  simp only [List.contains_iff_mem.mpr hp, hup, hr, Option.isNone_none, Bool.and_self, if_true]

theorem rekeyTurn_eq {l : Link} {b : Bool} (hl : linkAt s p = l) (hr : l.rekey = some ⟨false, b⟩) :
    rekeyTurn s p = releaseHeld (setLink (setBank s (txSlot p) l.kgen []) p
      { l with kgen := !l.kgen, txCtr := 0, want := false, rekey := rekeyDone ⟨true, b⟩ }) p := by
  subst hl
  unfold rekeyTurn
  simp only [hr]

theorem keyUpdate_served (hmon : s.mgmt.mbox.monitor = true) (hses : m.session = 1 + p) (hc : m.bytes.getD 1 0 = 0xE9)
    (hf : s.mgmt.inbox.find? (fun f => sessionOf f == 1 + p) = some f) : exec (.keyUpdate m p) s =
      .next (answerFlits (sendNamed (if verifiesKey m then rekeyTurn (taken s f) p else rekeyBegin (taken s f) p) m.session
        .keyUpdateAck) f) := by
  have hne : m.session ≠ 0 := by omega
  refine ((execKeyUpdate.eq_def m p s).trans (serve_taken hmon hne (by rwa [hses]) (beq_iff_eq.mpr hc))).trans ?_
  rw [if_neg (not_not_intro (show m.session = linkSession p from hses))]

/-- What an acknowledged key update keeps and sends, where the rekey changed links and keys alone. -/
structure Acked (s : State) (m : SpdmMsg) (p : Nat) (f : Flit) (t : State) : Prop where
  exec : exec (.keyUpdate m p) s = .next t
  mem : t.mem = s.mem
  inbox : t.mgmt.inbox = s.mgmt.inbox.erase f
  sent : ∃ bs, (sessionAt t m.session).sent = (sessionAt s m.session).sent ++ [.named .keyUpdateAck bs]

theorem answer_acked {v : State} (hexec : exec (.keyUpdate m p) s = .next (answerFlits (sendNamed v m.session .keyUpdateAck) f))
    (hmem : v.mem = s.mem) (hinbox : v.mgmt.inbox = s.mgmt.inbox.erase f) (hspdm : v.mgmt.spdm = s.mgmt.spdm) :
    Acked s m p f (answerFlits (sendNamed v m.session .keyUpdateAck) f) ∧
    (∀ slot g, bankKey (answerFlits (sendNamed v m.session .keyUpdateAck) f) slot g = bankKey v slot g) ∧
    LinkKept v (answerFlits (sendNamed v m.session .keyUpdateAck) f) p ∧
    (portFor v f.src ≠ p → linkAt (answerFlits (sendNamed v m.session .keyUpdateAck) f) p = linkAt v p) := by
  obtain ⟨F, n, hF⟩ := answerFlits_eq (sendNamed v m.session .keyUpdateAck) f
  obtain ⟨hk, hother⟩ := answerFlits_links (sendNamed v m.session .keyUpdateAck) f p
  obtain ⟨bs, hbs⟩ := sessionAt_sendNamed v m.session .keyUpdateAck
  refine ⟨⟨hexec, ?_, ?_, bs, ?_⟩, fun slot g => bankKey_congr ?_, hk, hother⟩
  · rw [hF]
    exact hmem
  · rw [hF]
    exact hinbox
  · rw [← sessionAt_congr (v := v) (s := s) hspdm, hF]
    exact congrArg SpdmSession.sent ((sessionAt_congr rfl).trans hbs)
  · rw [hF]
    rfl

theorem keyUpdate_begins (hmon : s.mgmt.mbox.monitor = true) (hses : m.session = 1 + p) (hc : m.bytes.getD 1 0 = 0xE9)
    (hf : s.mgmt.inbox.find? (fun f => sessionOf f == 1 + p) = some f) (hp : p ∈ portsOn s) (hup : (linkAt s p).up = true)
    (hv : m.bytes.getD 2 0 ≠ 3) (hr : (linkAt s p).rekey = none) :
    let l := linkAt s p
    ∃ t, Acked s m p f t ∧ (linkAt t p).kgen = l.kgen ∧ (linkAt t p).rekey = some ⟨false, false⟩ ∧
      bankKey t (txSlot p) (!l.kgen) = linkKey s l.txDir ∧ bankKey t (rxSlot p) (!l.rxKgen) = linkKey s l.rxDir ∧
      bankKey t (txSlot p) l.kgen = bankKey s (txSlot p) l.kgen ∧ bankKey t (rxSlot p) l.rxKgen = bankKey s (rxSlot p) l.rxKgen ∧
      (portFor s f.src ≠ p → linkAt t p = { l with rekey := some ⟨false, false⟩ }) := by
  intro l
  have hexec := keyUpdate_served hmon hses hc hf
  rw [if_neg (by rw [verifiesKey, beq_iff_eq]; exact hv),
    rekeyBegin_eq (s := taken s f) (l := l) (linkAt_congr rfl) hp hup hr] at hexec
  obtain ⟨htx, hrx, htx', hrx'⟩ := loadLinkKeys_banks (taken s f) p l.txDir l.rxDir (!l.kgen) (!l.rxKgen)
  obtain ⟨K, c, hload⟩ := loadLinkKeys_keysOnly (taken s f) p l.txDir l.rxDir (!l.kgen) (!l.rxKgen)
  generalize loadLinkKeys (taken s f) p l.txDir l.rxDir (!l.kgen) (!l.rxKgen) = v at hexec htx hrx htx' hrx' hload
  subst hload
  obtain ⟨hack, hbank, ⟨n, hs, hlink⟩, hother⟩ := answer_acked hexec rfl rfl rfl
  rw [linkAt_setLink_same] at hlink hother
  refine ⟨_, hack, by rw [hlink], by rw [hlink], ?_, ?_, ?_, ?_, hother⟩
  · exact (hbank _ _).trans htx
  · exact (hbank _ _).trans hrx
  · exact (hbank _ _).trans (htx' _ (by cases l.kgen <;> decide))
  · exact (hbank _ _).trans (hrx' _ (by cases l.rxKgen <;> decide))

theorem keyUpdate_turns {b : Bool} (hmon : s.mgmt.mbox.monitor = true) (hses : m.session = 1 + p) (hc : m.bytes.getD 1 0 = 0xE9)
    (hf : s.mgmt.inbox.find? (fun f => sessionOf f == 1 + p) = some f) (hv : m.bytes.getD 2 0 = 3)
    (hr : (linkAt s p).rekey = some ⟨false, b⟩) :
    let l := linkAt s p
    ∃ t, Acked s m p f t ∧ (linkAt t p).kgen = !l.kgen ∧ (linkAt t p).rekey = (if b then none else some ⟨true, false⟩) ∧
      (linkAt t p).want = false ∧ bankKey t (txSlot p) l.kgen = [] ∧
      bankKey t (txSlot p) (!l.kgen) = bankKey s (txSlot p) (!l.kgen) ∧
      (portFor s f.src ≠ p → l.held = [] → (linkAt t p).txCtr = 0) := by
  intro l
  have hexec := keyUpdate_served hmon hses hc hf
  rw [if_pos (by rw [verifiesKey, beq_iff_eq]; exact hv), rekeyTurn_eq (s := taken s f) (l := l) (linkAt_congr rfl) hr] at hexec
  have hnone : l.held = [] → (linkAt (releaseHeld (setLink (setBank (taken s f) (txSlot p) l.kgen []) p
      { l with kgen := !l.kgen, txCtr := 0, want := false, rekey := rekeyDone ⟨true, b⟩ }) p) p).txCtr = 0 := by
    intro hh
    rw [releaseHeld_none (by rw [linkAt_setLink_same]; exact hh), linkAt_setLink_same, linkAt_setLink_same]
  obtain ⟨⟨F, hF⟩, hkept⟩ := releaseHeld_keeps (setLink (setBank (taken s f) (txSlot p) l.kgen []) p
      { l with kgen := !l.kgen, txCtr := 0, want := false, rekey := rekeyDone ⟨true, b⟩ }) p
  generalize releaseHeld (setLink (setBank (taken s f) (txSlot p) l.kgen []) p
      { l with kgen := !l.kgen, txCtr := 0, want := false, rekey := rekeyDone ⟨true, b⟩ }) p = v at hexec hF hkept hnone
  have hkeys : v.mgmt.keys = (setBank (taken s f) (txSlot p) l.kgen []).mgmt.keys := by rw [hF]; rfl
  obtain ⟨hack, hbank, hlink, hother⟩ := answer_acked hexec (by rw [hF]; rfl) (by rw [hF]; rfl) (by rw [hF]; rfl)
  obtain ⟨n, hs, hlink⟩ := hkept.trans hlink
  rw [linkAt_setLink_same] at hlink
  refine ⟨_, hack, by rw [hlink], ?_, by rw [hlink], ?_, ?_, fun hne hh => ?_⟩
  · rw [hlink]
    cases b <;> rfl
  · exact (hbank _ _).trans ((bankKey_congr hkeys).trans (bankKey_setBank_same _ _ _ _))
  · exact (hbank _ _).trans ((bankKey_congr hkeys).trans (bankKey_setBank_bank _ _ (by cases l.kgen <;> decide) _))
  · rw [hother (by rwa [portFor_congr (s := s) (by rw [hF]; rfl)])]
    exact hnone hh

/-! ### Flits that arrive (R299, R301) -/

/-- The first verified flit under the other KGEN retires the old bank. -/
theorem tagPassed_other (h : f.kgen ≠ (linkAt s f.port).rxKgen) :
    (linkAt (tagPassed s f) f.port).rxKgen = f.kgen ∧ (linkAt (tagPassed s f) f.port).rxCtr = 1 ∧
    bankKey (tagPassed s f) (rxSlot f.port) (!f.kgen) = [] ∧
    bankKey (tagPassed s f) (rxSlot f.port) f.kgen = bankKey s (rxSlot f.port) f.kgen := by
  have hold : (linkAt s f.port).rxKgen = !f.kgen := Bool.eq_not.mpr h.symm
  unfold tagPassed
  simp only [if_neg h]
  refine ⟨?_, ?_, ?_, ?_⟩
  · exact congrArg Link.rxKgen (linkAt_setLink_same s f.port _)
  · exact congrArg Link.rxCtr (linkAt_setLink_same s f.port _)
  · rw [hold, bankKey_setBank_same]
  · exact (bankKey_setBank_bank _ _ h _).trans (bankKey_congr rfl)

theorem load_tagFailed (ha : flitArrives s f = true) (hann : announcing s = false) (hv : tagVerifies s f = false)
    (hop : f.op = 0) : exec (.load f) s = .next (settle (observe (tagFailed s f.port))) := by
  have hr : ∀ k, receive s f k = tagFailed s f.port := by
    intro k
    unfold receive
    simp only [ha, hann, hv, Bool.not_true, Bool.false_and, Bool.or_self, Bool.false_eq_true, if_false, Bool.not_false,
      if_true]
  change takeFlit s 0 f _ = _
  unfold takeFlit
  rw [if_pos (Or.inl hop), hr]

/-- A link that goes down with nothing outstanding across it is counted, and no TI enters ERROR. -/
theorem takeDown_idle (hq : Quiet s) (ho : s.fab.outReqs = []) (hu : Unseen s (0x4000000 + 8 * 2240)) :
    takeDown s p = observe (siloBump (setLink s p { linkAt s p with up := false, fails := 0 }) 2240) := by
  obtain ⟨hw, hh⟩ := hq
  have hts : tisAcross s p = [] := by
    unfold tisAcross waitingFlits
    rw [ho, hw, hh]
    rfl
  unfold takeDown
  rw [hts]
  exact siloAdd_unseen (s := setLink s p { linkAt s p with up := false, fails := 0 }) hu

/-- Settles O49: bring-up and the rekeys by what they write to the banks and the link, an answer's flits by what they keep. -/
theorem links : Obligations.Links := by
  unfold Obligations.Links
  refine ⟨fun s p x y h => linkBringUp_idle h, ?up, ?image, ?request, ?update, fun s f h => tagPassed_other h, ?failed⟩
  case up => exact fun s p x y hst hh hp hup hheld => bringUp_claim hst hh hp hup hheld
  case image =>
    intro s f l g rk nonce ct hup hctr
    obtain ⟨hwire, hlink⟩ := sendFlit_up hup hctr
    obtain ⟨check, hlen, himg⟩ := flitImage_eq (bankKey s (txSlot f.port) l.kgen) l.txDir l.txCtr g
    exact ⟨check, hlen, hwire.trans (congrArg (fun bs => s.fab.wire ++ [(f.port, bs)]) himg), hlink⟩
  case request =>
    refine fun s p => ⟨fun hup hctr hw => if_pos ?_, fun hctr => if_neg fun hc => ?_⟩
    · rw [hup, hw, decide_eq_true hctr]
      rfl
    · simp only [Bool.and_eq_true, decide_eq_true_eq] at hc
      omega
  case update =>
    intro s p m f hmon hses hc hf hp hup l key acked
    refine ⟨fun hv hr => ?_, fun b hv hr => ?_⟩
    · obtain ⟨t, ⟨hexec, hmem, hinbox, hsent⟩, hrest⟩ := keyUpdate_begins hmon hses hc hf hp hup hv hr
      exact ⟨t, ⟨hexec, hmem, hinbox, hsent⟩, hrest⟩
    · obtain ⟨t, ⟨hexec, hmem, hinbox, hsent⟩, hrest⟩ := keyUpdate_turns hmon hses hc hf hv hr
      exact ⟨t, ⟨hexec, hmem, hinbox, hsent⟩, hrest⟩
  case failed =>
    intro s f ha hann hv hop hmal hq
    have hexec := load_tagFailed ha hann hv hop
    refine ⟨fun hlt => ?_, fun hle ho hu => ?_⟩
    · have hfail : tagFailed s f.port = setLink s f.port { linkAt s f.port with fails := (linkAt s f.port).fails + 1 } :=
        if_neg (by omega)
      have hquiet : ∀ l, Quiet (observe (setLink s f.port l)) := fun _ => hq
      rw [hfail, settle_quiet (hquiet _)] at hexec
      exact ⟨_, hexec, linkAt_setLink_same s f.port _, rfl⟩
    · have hfail : tagFailed s f.port = takeDown s f.port := if_pos (by omega)
      have hquiet : ∀ l, Quiet (observe (observe (siloBump (setLink s f.port l) 2240))) := fun _ => hq
      rw [hfail, takeDown_idle hq ho hu, settle_quiet (hquiet _)] at hexec
      exact ⟨_, hexec, congrArg Link.up (linkAt_setLink_same s f.port _), rfl⟩

end Sys2Proof.Machine
end


section
/-! PROOFS. Tenant interfaces: TDISP requests, configurations, lost sessions and the move that takes too long (R253, R274,
R277 to R281). -/

namespace Sys2Proof.Machine

variable {s u : State} {t : Nat} {r : TiReply} {i : Instr} {k : State → State}

/-! ### What an answer keeps (R307) -/

/-- The state from which a request for a tenant interface is served: without its flit, where one has come. -/
def tiTaken (s : State) (t : Nat) : State :=
  match takeInbox s (fun f => f.ti == t) with
  | some x => x.2
  | none => s

def inboxSet (s : State) (l : List Flit) : State := modMgmt s fun m => { m with inbox := l }

theorem tiTaken_eq (s : State) (t : Nat) : ∃ l, tiTaken s t = inboxSet s l := by
  unfold tiTaken takeInbox
  cases s.mgmt.inbox.find? (fun f => f.ti == t) with
  | none => exact ⟨s.mgmt.inbox, rfl⟩
  | some f => exact ⟨_, rfl⟩

theorem tiTaken_of_find {f : Flit} (h : s.mgmt.inbox.find? (fun f => f.ti == t) = some f) : tiTaken s t = taken s f := by
  unfold tiTaken takeInbox
  rw [h]
  rfl

theorem tiTaken_of_none (h : s.mgmt.inbox.find? (fun f => f.ti == t) = none) : tiTaken s t = s := by
  unfold tiTaken takeInbox
  rw [h]

@[simp] theorem tiTaken_ctl (s : State) (t : Nat) : (tiTaken s t).ctl = s.ctl := by
  obtain ⟨l, h⟩ := tiTaken_eq s t
  rw [h]
  rfl

@[simp] theorem tiTaken_tiSent (s : State) (t : Nat) : (tiTaken s t).mgmt.tiSent = s.mgmt.tiSent := by
  obtain ⟨l, h⟩ := tiTaken_eq s t
  rw [h]
  rfl

@[simp] theorem tiTaken_stage (s : State) (t : Nat) : (tiTaken s t).mgmt.stage = s.mgmt.stage := by
  obtain ⟨l, h⟩ := tiTaken_eq s t
  rw [h]
  rfl

/-- What is served, as its answer has left it: the flits or the mailbox's bytes of the answer have gone. -/
def replied (u : State) (F : Fab) (b : Mailbox) (n : Nat) : State :=
  { u with fab := F, mgmt := { u.mgmt with mbox := b }, fresh := n }

theorem replied_tiSend (u : State) (t : Nat) (r : TiReply) (F : Fab) (b : Mailbox) (n : Nat) :
    (replied (tiSend u t r) F b n).mgmt.tiSent = u.mgmt.tiSent ++ [(t, r)] ∧ (replied (tiSend u t r) F b n).ctl = u.ctl :=
  ⟨rfl, rfl⟩

/-- However a request has come, its service runs and the answer changes the fabric interface, the mailbox and the count of
free choices alone. -/
theorem tiAnswer_eq (s : State) (t : Nat) (k : State → State) : ∃ F b n, tiAnswer s t k = replied (k (tiTaken s t)) F b n := by
  unfold tiAnswer
  by_cases h : (s.mgmt.inbox.any fun f => f.ti == t) = true
  · obtain ⟨f, hf⟩ := Option.isSome_iff_exists.mp (List.isSome_find?.trans h)
    obtain ⟨F, n, ha⟩ := answerFlits_eq (k (taken s f)) f
    rw [if_pos h, tiTaken_of_find hf]
    unfold serveFlit takeInbox
    rw [hf]
    exact ⟨F, _, n, ha⟩
  · have hnone : s.mgmt.inbox.find? (fun f => f.ti == t) = none :=
      List.find?_eq_none.mpr fun f hf hti => h (List.any_eq_true.mpr ⟨f, hf, hti⟩)
    rw [if_neg h, tiTaken_of_none hnone]
    exact ⟨_, _, _, rfl⟩

/-- What is answered depends only on what the service makes of the state it is run from. -/
theorem tiAnswer_congr {k' : State → State} (h : k (tiTaken s t) = k' (tiTaken s t)) : tiAnswer s t k = tiAnswer s t k' := by
  unfold tiAnswer
  by_cases ha : (s.mgmt.inbox.any fun f => f.ti == t) = true
  · obtain ⟨f, hf⟩ := Option.isSome_iff_exists.mp (List.isSome_find?.trans ha)
    rw [tiTaken_of_find hf] at h
    rw [if_pos ha, if_pos ha]
    unfold serveFlit takeInbox
    rw [hf]
    exact congrArg (answerFlits · f) h
  · have hnone : s.mgmt.inbox.find? (fun f => f.ti == t) = none :=
      List.find?_eq_none.mpr fun f hf hti => ha (List.any_eq_true.mpr ⟨f, hf, hti⟩)
    rw [tiTaken_of_none hnone] at h
    rw [if_neg ha, if_neg ha, h]

/-- A request for the interface is there. -/
def Asked (s : State) (t : Nat) : Prop := (∃ f ∈ s.mgmt.inbox, f.ti = t) ∨ s.mgmt.mbox.pend = true

theorem tiServe_asked (ht : t < 64) (hmon : s.mgmt.mbox.monitor = true) (hask : Asked s t) :
    tiServe s t k = .next (tiAnswer s t k) := by
  have hasked : tiAsked s t = true := by
    unfold tiAsked
    obtain ⟨f, hf, hti⟩ | hp := hask
    · have hany : (s.mgmt.inbox.any fun f => f.ti == t) = true := List.any_eq_true.mpr ⟨f, hf, beq_iff_eq.mpr hti⟩
      rw [hany, Bool.true_or]
    · rw [hp, Bool.or_true]
  unfold tiServe
  rw [if_pos (by rw [decide_eq_true ht, hmon, hasked]; rfl)]

theorem tiServe_idle (hf : ∀ f ∈ s.mgmt.inbox, f.ti ≠ t) (hp : s.mgmt.mbox.pend = false) : tiServe s t k = .next s := by
  have hasked : tiAsked s t = false := by
    unfold tiAsked
    rw [hp, Bool.or_false]
    exact List.any_eq_false.mpr fun f h => by simpa using hf f h
  unfold tiServe
  rw [hasked, Bool.and_false]
  rfl

/-- The claim on a request that is answered and changes nothing else. -/
def TiAnswers (s : State) (t : Nat) (i : Instr) (r : TiReply) : Prop := ∃ v, exec i s = .next v ∧
  v.mgmt.tiSent = s.mgmt.tiSent ++ [(t, r)] ∧ v.ctl = s.ctl ∧ v.cur = s.cur ∧ v.tasks = s.tasks ∧ v.mem = s.mem

section served
variable (ht : t < 64) (hmon : s.mgmt.mbox.monitor = true) (hask : Asked s t)
include ht hmon hask

theorem tiServe_replied (hexec : exec i s = tiServe s t k) (hk : k (tiTaken s t) = u) : ∃ F b n, exec i s = .next (replied u F b n) := by
  obtain ⟨F, b, n, h⟩ := tiAnswer_eq s t k
  rw [hk] at h
  exact ⟨F, b, n, hexec.trans ((tiServe_asked ht hmon hask).trans (congrArg Host.Outcome.next h))⟩

theorem tiServe_answers (hexec : exec i s = tiServe s t k) (hk : k (tiTaken s t) = tiSend (tiTaken s t) t r) :
    TiAnswers s t i r := by
  obtain ⟨F, b, n, h⟩ := tiServe_replied ht hmon hask hexec hk
  obtain ⟨l, hl⟩ := tiTaken_eq s t
  rw [hl] at h
  exact ⟨_, h, rfl, rfl, rfl, rfl, rfl⟩

end served

/-! ### Words of a tenant -/

theorem tiState_congr (h : u.ctl = s.ctl) : tiState u t = tiState s t := by
  unfold tiState tenantWord
  rw [ctlGet_congr h]

@[simp] theorem tiState_tiTaken (s : State) (t n : Nat) : tiState (tiTaken s n) t = tiState s t := tiState_congr (tiTaken_ctl s n)

theorem arena_congr (h : u.ctl = s.ctl) : arena u t = arena s t := by
  unfold arena tenantWord
  rw [ctlGet_congr h, ctlGet_congr h]

theorem tenantOff_word (t w : Nat) : 8 * (tenantOff t w / 8) = tenantOff t w := by
  unfold tenantOff
  omega

theorem tenantWord_devCtl_same (s : State) (t w : Nat) (v : Word) : tenantWord (devCtl s (tenantOff t w) v) t w = v :=
  ctlGet_devCtl_same _ _ _ rfl

theorem tenantWord_devCtl_other (s : State) (t : Nat) {w w' : Nat} (h : w' ≠ w) (v : Word) :
    tenantWord (devCtl s (tenantOff t w) v) t w' = tenantWord s t w' := by
  refine ctlGet_devCtl_other _ _ _ ?_
  rw [tenantOff_word, tenantOff_word]
  unfold tenantOff
  omega

/-! ### The state and the report generation (Table 13.1) -/

/-- Word 0 of a tenant with another state. -/
def stWord (w : Word) (v : Nat) : Word := (w &&& ~~~7#64) ||| BitVec.ofNat 64 v

/-- Word 0 of a tenant with another report generation. -/
def repgenWord (w : Word) (n : Nat) : Word := (w &&& ~~~0xFF0000#64) ||| BitVec.ofNat 64 (n % 256 * 2 ^ 16)

theorem stWord_fields (w : Word) {v : Nat} (hv : v < 8) : fieldNat (stWord w v) 2 0 = v ∧
    fieldNat (stWord w v) 23 16 = fieldNat w 23 16 := by
  have hlow : (~~~(7#64)).extractLsb' 0 3 = 0#3 := by decide
  have hgen : (~~~(7#64)).extractLsb' 16 8 = BitVec.allOnes 8 := by decide
  have hv0 : (BitVec.ofNat 64 v).extractLsb' 0 3 = BitVec.ofNat 3 v := by interval_cases v <;> decide
  have hv1 : (BitVec.ofNat 64 v).extractLsb' 16 8 = 0#8 := by interval_cases v <;> decide
  simp only [fieldNat_eq_extractLsb', stWord, BitVec.extractLsb'_or, BitVec.extractLsb'_and]
  rw [hlow, hgen, hv0, hv1, BitVec.and_zero, BitVec.zero_or, BitVec.and_allOnes, BitVec.or_zero, BitVec.toNat_ofNat]
  exact ⟨Nat.mod_eq_of_lt hv, rfl⟩

theorem repgenWord_fields (w : Word) (n : Nat) : fieldNat (repgenWord w n) 2 0 = fieldNat w 2 0 ∧
    fieldNat (repgenWord w n) 23 16 = n % 256 := by
  have hlow : (~~~(0xFF0000#64)).extractLsb' 0 3 = BitVec.allOnes 3 := by decide
  have hgen : (~~~(0xFF0000#64)).extractLsb' 16 8 = 0#8 := by decide
  have hlt : n % 256 < 256 := Nat.mod_lt _ (by decide)
  have hn0 : (BitVec.ofNat 64 (n % 256 * 2 ^ 16)).extractLsb' 0 3 = 0#3 := by
    apply BitVec.eq_of_toNat_eq
    simp only [BitVec.extractLsb'_toNat, BitVec.toNat_ofNat, Nat.shiftRight_zero]
    omega
  have hn1 : ((BitVec.ofNat 64 (n % 256 * 2 ^ 16)).extractLsb' 16 8).toNat = n % 256 := by
    simp only [BitVec.extractLsb'_toNat, BitVec.toNat_ofNat, Nat.shiftRight_eq_div_pow]
    omega
  simp only [fieldNat_eq_extractLsb', repgenWord, BitVec.extractLsb'_or, BitVec.extractLsb'_and]
  rw [hlow, hgen, hn0, BitVec.and_zero, BitVec.zero_or, BitVec.and_allOnes, BitVec.or_zero]
  exact ⟨rfl, hn1⟩

/-- A change of a tenant's state writes its word 0 and no other word. -/
theorem setTiState_writes (s : State) (t : Nat) {v : Nat} (hv : v < 8) : tiState (setTiState s t v) t = v ∧
    fieldNat (tenantWord (setTiState s t v) t 0) 23 16 = fieldNat (tenantWord s t 0) 23 16 ∧
    (∀ o, o / 8 ≠ tenantOff t 0 / 8 → ctlGet (setTiState s t v) o = ctlGet s o) ∧
    (setTiState s t v).mgmt = s.mgmt := by
  have hword : tenantWord (setTiState s t v) t 0 = stWord (tenantWord s t 0) v := tenantWord_devCtl_same _ _ _ _
  obtain ⟨hst, hgen⟩ := stWord_fields (tenantWord s t 0) hv
  refine ⟨?_, ?_, fun o ho => ctlGet_devCtl_other _ _ _ (by omega), (publish_onlyAborts _ _ _).mgmt⟩
  · unfold tiState
    rw [hword]
    exact hst
  · rw [hword]
    exact hgen

theorem raiseRepgen_writes (s : State) (t : Nat) : tiState (raiseRepgen s t) t = tiState s t ∧
    fieldNat (tenantWord (raiseRepgen s t) t 0) 23 16 = (fieldNat (tenantWord s t 0) 23 16 + 1) % 256 ∧
    (raiseRepgen s t).mgmt = s.mgmt := by
  have hword : tenantWord (raiseRepgen s t) t 0 = repgenWord (tenantWord s t 0) (fieldNat (tenantWord s t 0) 23 16 + 1) :=
    tenantWord_devCtl_same _ _ _ _
  obtain ⟨hst, hgen⟩ := repgenWord_fields (tenantWord s t 0) (fieldNat (tenantWord s t 0) 23 16 + 1)
  refine ⟨?_, ?_, (publish_onlyAborts _ _ _).mgmt⟩
  · unfold tiState
    rw [hword]
    exact hst
  · rw [hword]
    exact hgen

/-! ### LOCK, START and STOP (R279, R281) -/

theorem deriveKeys_keysOnly (s : State) (t : Nat) : KeysOnly s (deriveKeys s t) := ⟨_, _, rfl⟩

section requests
variable (ht : t < 64) (hmon : s.mgmt.mbox.monitor = true) (hask : Asked s t)
include ht hmon hask

theorem lock_wrongState (hst : tiState s t ≠ 0) : TiAnswers s t (.lockInterfaceRequest t) .invalidInterfaceState :=
  tiServe_answers ht hmon hask (execLockInterfaceRequest.eq_def t s) (if_pos (by rwa [tiState_tiTaken]))

theorem lock_refused (hst : tiState s t = 0) (h : s.mgmt.stage < 4 ∨ (arena s t).2 ≤ (arena s t).1) :
    TiAnswers s t (.lockInterfaceRequest t) .invalidRequest := by
  refine tiServe_answers ht hmon hask (execLockInterfaceRequest.eq_def t s) ((if_neg ?_).trans (if_pos ?_))
  · rw [tiState_tiTaken]
    exact not_not_intro hst
  · rwa [tiTaken_stage, arena_congr (tiTaken_ctl s t)]

/-- Past its tests a lock creates the regions of the areas. -/
theorem lock_creates (hst : tiState s t = 0) (hstage : s.mgmt.stage = 4) (har : (arena s t).1 < (arena s t).2) :
    (∀ e, createAreas (tiTaken s t) t = .error e → TiAnswers s t (.lockInterfaceRequest t) .invalidRequest) ∧
    (∀ u, createAreas (tiTaken s t) t = .ok u → ∃ F b n, exec (.lockInterfaceRequest t) s =
      .next (replied (tiSend (raiseRepgen (setTiState (deriveKeys u t) t 1) t) t .locked) F b n)) := by
  have h1 : ¬tiState (tiTaken s t) t ≠ 0 := by
    rw [tiState_tiTaken]
    exact not_not_intro hst
  have h2 : ¬((tiTaken s t).mgmt.stage < 4 ∨ (arena (tiTaken s t) t).2 ≤ (arena (tiTaken s t) t).1) := by
    rw [tiTaken_stage, arena_congr (tiTaken_ctl s t)]
    omega
  refine ⟨fun e he => ?_, fun u hu => ?_⟩
  · refine tiServe_answers ht hmon hask (execLockInterfaceRequest.eq_def t s) ?_
    simp only [if_neg h1, if_neg h2, he]
  · refine tiServe_replied ht hmon hask (execLockInterfaceRequest.eq_def t s) ?_
    simp only [if_neg h1, if_neg h2, hu]

theorem lock_locks (hst : tiState s t = 0) (hstage : s.mgmt.stage = 4) (har : (arena s t).1 < (arena s t).2)
    (hu : createAreas (tiTaken s t) t = .ok u) : ∃ v, exec (.lockInterfaceRequest t) s = .next v ∧
      v.mgmt.tiSent = u.mgmt.tiSent ++ [(t, .locked)] ∧ tiState v t = 1 ∧
      fieldNat (tenantWord v t 0) 23 16 = (fieldNat (tenantWord u t 0) 23 16 + 1) % 256 := by
  obtain ⟨-, hok⟩ := lock_creates ht hmon hask hst hstage har
  obtain ⟨F, b, n, h⟩ := hok u hu
  obtain ⟨K, c, hkeys⟩ := deriveKeys_keysOnly u t
  generalize deriveKeys u t = d at h hkeys
  obtain ⟨hone, hgen, -, hmgmt⟩ := setTiState_writes d t (v := 1) (by decide)
  obtain ⟨hst', hgen', hmgmt'⟩ := raiseRepgen_writes (setTiState d t 1) t
  obtain ⟨hsent, hctl⟩ := replied_tiSend (raiseRepgen (setTiState d t 1) t) t .locked F b n
  refine ⟨_, h, ?_, ?_, ?_⟩
  · rw [hsent, hmgmt', hmgmt, hkeys]
  · exact (tiState_congr hctl).trans (hst'.trans hone)
  · rw [show tenantWord (replied _ F b n) t 0 = _ from ctlGet_congr hctl _]
    refine hgen'.trans (congrArg (fun x => (x + 1) % 256) (hgen.trans ?_))
    rw [hkeys]
    rfl

theorem start_wrongState (hst : tiState s t ≠ 1) : TiAnswers s t (.startInterfaceRequest t) .invalidInterfaceState :=
  tiServe_answers ht hmon hask (execStartInterfaceRequest.eq_def t s) (if_neg (by rwa [tiState_tiTaken]))

theorem start_runs (hst : tiState s t = 1) : ∃ v, exec (.startInterfaceRequest t) s = .next v ∧
    v.mgmt.tiSent = s.mgmt.tiSent ++ [(t, .started)] ∧ tiState v t = 2 ∧
    (∀ o, o / 8 ≠ tenantOff t 0 / 8 → ctlGet v o = ctlGet s o) := by
  obtain ⟨F, b, n, h⟩ := tiServe_replied (i := .startInterfaceRequest t)
    (u := tiSend (setTiState (tiTaken s t) t 2) t .started) ht hmon hask
    (execStartInterfaceRequest.eq_def t s) (if_pos (by rwa [tiState_tiTaken]))
  obtain ⟨htwo, -, hother, hmgmt⟩ := setTiState_writes (tiTaken s t) t (v := 2) (by decide)
  obtain ⟨hsent, hctl⟩ := replied_tiSend (setTiState (tiTaken s t) t 2) t .started F b n
  refine ⟨_, h, ?_, (tiState_congr hctl).trans htwo, fun o ho => ?_⟩
  · rw [hsent, hmgmt, tiTaken_tiSent]
  · exact (ctlGet_congr hctl o).trans ((hother o ho).trans (ctlGet_congr (tiTaken_ctl s t) o))

theorem stop_unlocked (hst : tiState s t = 0) : TiAnswers s t (.stopInterfaceRequest t) .invalidInterfaceState :=
  tiServe_answers ht hmon hask (execStopInterfaceRequest.eq_def t s) (if_pos (by rwa [tiState_tiTaken]))

theorem stop_draining (hst : tiState s t = 4) : TiAnswers s t (.stopInterfaceRequest t) .stopped :=
  tiServe_answers ht hmon hask (execStopInterfaceRequest.eq_def t s)
    ((if_neg (by rw [tiState_tiTaken, hst]; decide)).trans (if_pos (by rwa [tiState_tiTaken])))

theorem stop_tears (hst : tiState s t = 1 ∨ tiState s t = 2 ∨ tiState s t = 3) : exec (.stopInterfaceRequest t) s =
    .next (tiAnswer s t fun x => tearBegin (abandonQueued (tiSend x t .stopped) t) t) := by
  refine (execStopInterfaceRequest.eq_def t s).trans ((tiServe_asked ht hmon hask).trans (congrArg _ (tiAnswer_congr ?_)))
  exact (if_neg (by rw [tiState_tiTaken]; omega)).trans (if_neg (by rw [tiState_tiTaken]; omega))

theorem report_given (hst : tiState s t = 1 ∨ tiState s t = 2) :
    TiAnswers s t (.getDeviceInterfaceReport t) (tiReport s t) := by
  refine tiServe_answers ht hmon hask (execGetDeviceInterfaceReport.eq_def t s) (congrArg (tiSend _ t) ?_)
  rw [if_pos (by rwa [tiState_tiTaken])]
  obtain ⟨l, hl⟩ := tiTaken_eq s t
  rw [hl]
  rfl

theorem report_wrongState (h1 : tiState s t ≠ 1) (h2 : tiState s t ≠ 2) :
    TiAnswers s t (.getDeviceInterfaceReport t) .invalidInterfaceState := by
  refine tiServe_answers ht hmon hask (execGetDeviceInterfaceReport.eq_def t s) (congrArg (tiSend _ t) (if_neg ?_))
  rw [tiState_tiTaken]
  exact not_or.mpr ⟨h1, h2⟩

end requests

/-! ### SPDM_SESSION_LOSS (R279) -/

theorem sessionLoss_error (ht : t < 64) (hst : tiState s t = 1 ∨ tiState s t = 2) : ∃ v,
    exec (.spdmSessionLoss t) s = .next v ∧ tiState v t = 3 ∧
      (∀ o, o / 8 ≠ tenantOff t 0 / 8 → ctlGet v o = ctlGet s o) := by
  obtain ⟨hthree, -, hother, -⟩ := setTiState_writes s t (v := 3) (by decide)
  have hctl := haltTenant_ctl (setTiState s t 3) t
  refine ⟨haltTenant (setTiState s t 3) t, ?_, (tiState_congr hctl).trans hthree,
    fun o ho => (ctlGet_congr hctl o).trans (hother o ho)⟩
  exact congrArg Host.Outcome.next ((if_pos ht).trans (if_pos hst))

theorem sessionLoss_idle (h1 : tiState s t ≠ 1) (h2 : tiState s t ≠ 2) : exec (.spdmSessionLoss t) s = .next s := by
  refine congrArg Host.Outcome.next ?_
  split
  · exact if_neg (not_or.mpr ⟨h1, h2⟩)
  · rfl

/-! ### SET_TI_CONFIG (R278) -/

theorem configError_congr (h : u.ctl = s.ctl) (c : TiConfig) : configError u t c = configError s t c := by
  unfold configError spWindow arena tiState tenantWord ctlGet
  rw [h]

/-- Words of one tenant written one after another: each holds what it was given, where none is written twice. -/
theorem foldl_devCtl_words (t : Nat) (xs : List (Nat × Word)) (hd : (xs.map (·.1)).Nodup) : ∀ s : State,
    (xs.foldl (fun s x => devCtl s (tenantOff t x.1) x.2) s).mgmt = s.mgmt ∧
    (∀ x ∈ xs, tenantWord (xs.foldl (fun s x => devCtl s (tenantOff t x.1) x.2) s) t x.1 = x.2) ∧
    (∀ w, w ∉ xs.map (·.1) → tenantWord (xs.foldl (fun s x => devCtl s (tenantOff t x.1) x.2) s) t w = tenantWord s t w) := by
  induction xs with
  | nil => exact fun s => ⟨rfl, fun x hx => absurd hx List.not_mem_nil, fun _ _ => rfl⟩
  | cons y ys ih =>
    intro s
    rw [List.map_cons, List.nodup_cons] at hd
    obtain ⟨hy, hys⟩ := hd
    obtain ⟨hmgmt, hin, hout⟩ := ih hys (devCtl s (tenantOff t y.1) y.2)
    rw [List.foldl_cons]
    refine ⟨hmgmt.trans (publish_onlyAborts _ _ _).mgmt, fun x hx => ?_, fun w hw => ?_⟩
    · obtain rfl | hx := List.mem_cons.mp hx
      · exact (hout _ hy).trans (tenantWord_devCtl_same _ _ _ _)
      · exact hin x hx
    · rw [List.map_cons, List.mem_cons, not_or] at hw
      exact (hout w hw.2).trans (tenantWord_devCtl_other _ _ hw.1 _)

theorem configWords_nodup (c : TiConfig) : ((configWords c).map (·.1)).Nodup := by
  change [6, 7, 5, 2, 3, 4, 11, 9, 8].Nodup
  decide

theorem setTiConfig_answers (c : TiConfig) (hmon : s.mgmt.mbox.monitor = true) (hask : Asked s (fieldNat c.op 13 8)) :
    let t := fieldNat c.op 13 8
    let e := configError s t c
    ∃ v, exec (.setTiConfig c) s = .next v ∧ v.mgmt.tiSent = s.mgmt.tiSent ++ [(t, .vendor (BitVec.ofNat 64 e))] ∧
      (e ≠ 0 → v.ctl = s.ctl) ∧ (e = 0 → ∀ x ∈ configWords c, tenantWord v t x.1 = x.2) := by
  intro t e
  have ht : t < 2 ^ (13 + 1 - 8) := Nat.mod_lt _ (Nat.two_pow_pos _)
  have he : configError (tiTaken s t) t c = e := configError_congr (tiTaken_ctl s t) c
  obtain ⟨hmgmt, hin, -⟩ := foldl_devCtl_words t (configWords c) (configWords_nodup c) (tiTaken s t)
  by_cases hz : e = 0
  · obtain ⟨F, b, n, h⟩ := tiServe_replied (i := .setTiConfig c)
      (u := tiSend ((configWords c).foldl (fun s x => devCtl s (tenantOff t x.1) x.2) (tiTaken s t)) t
        (.vendor (BitVec.ofNat 64 e))) ht hmon hask (execSetTiConfig.eq_def c s) (by dsimp only; rw [he, if_pos hz])
    refine ⟨_, h, ?_, fun hne => absurd hz hne, fun _ x hx => (ctlGet_congr (replied_tiSend _ t _ F b n).2 _).trans (hin x hx)⟩
    rw [(replied_tiSend _ t _ F b n).1, hmgmt, tiTaken_tiSent]
  · obtain ⟨F, b, n, h⟩ := tiServe_replied (i := .setTiConfig c)
      (u := tiSend (tiTaken s t) t (.vendor (BitVec.ofNat 64 e))) ht hmon hask (execSetTiConfig.eq_def c s)
      (by dsimp only; rw [he, if_neg hz])
    refine ⟨_, h, ?_, fun _ => tiTaken_ctl s t, fun h0 => absurd h0 hz⟩
    rw [(replied_tiSend _ t _ F b n).1, tiTaken_tiSent]

/-- The checks of a configuration in their order (R278). -/
theorem configError_order (s : State) (t : Nat) (c : TiConfig) :
    (tiState s t ≠ 0 → configError s t c = 1) ∧
    (tiState s t = 0 → fieldNat c.op 63 14 ≠ 0 → configError s t c = 4) ∧
    (tiState s t = 0 → configReserved c = false → c.arlo.toNat % 0x10000 ≠ 0 → configError s t c = 2) ∧
    (tiState s t = 0 → configReserved c = false → c.arlo.toNat % 0x10000 = 0 → c.arhi.toNat % 0x10000 = 0 →
      (∀ a ∈ configAreas c, a.1.1 % a.2 = 0) → c.arhi.toNat ≤ c.arlo.toNat → configError s t c = 5) := by
  unfold configError
  dsimp only
  refine ⟨fun h => if_pos h, fun h hop => ?_, fun h hres hlo => ?_, fun h hres hlo hhi hal hle => ?_⟩
  · have hres : configReserved c = true := by
      unfold configReserved
      rw [(bne_iff_ne).mpr hop]
      simp only [Bool.true_or]
    rw [if_neg (not_not_intro h), if_pos hres]
  · rw [if_neg (not_not_intro h), if_neg (by rw [hres]; exact Bool.false_ne_true), if_pos (Or.inl hlo)]
  · have hany : ((configAreas c).any fun a => a.1.1 % a.2 != 0) = false :=
      List.any_eq_false.mpr fun a ha => by rw [hal a ha]; exact Bool.false_ne_true
    rw [if_neg (not_not_intro h), if_neg (by rw [hres]; exact Bool.false_ne_true), if_neg, if_pos hle]
    rw [hany]
    rintro (h | h | h)
    · exact h hlo
    · exact h hhi
    · exact Bool.false_ne_true h

/-! ### The obligation -/

/-- Settles O52: each request by the lemma on what an answer keeps, the words by the rules for control space. -/
theorem interfaces : Obligations.Interfaces := by
  unfold Obligations.Interfaces
  refine ⟨?idle, ?requests, ?loss, ?config, ?timeout⟩
  case idle =>
    exact fun s t hf hp => ⟨(execGetTdispVersion.eq_def t s).trans (tiServe_idle hf hp),
      (execStartInterfaceRequest.eq_def t s).trans (tiServe_idle hf hp)⟩
  case requests =>
    intro s t ht hmon hask st s₁ answers
    refine ⟨?_, ?_, ?_, ?_, report_given ht hmon hask, report_wrongState ht hmon hask, lock_wrongState ht hmon hask,
      lock_refused ht hmon hask, fun u h0 h4 har hu => lock_locks ht hmon hask h0 h4 har hu,
      fun e h0 h4 har he => (lock_creates ht hmon hask h0 h4 har).1 e he, start_runs ht hmon hask,
      start_wrongState ht hmon hask, stop_unlocked ht hmon hask, stop_draining ht hmon hask, stop_tears ht hmon hask⟩
    · exact tiServe_answers ht hmon hask (execGetTdispVersion.eq_def t s) rfl
    · exact tiServe_answers ht hmon hask (execGetTdispCapabilities.eq_def t s) rfl
    · exact tiServe_answers ht hmon hask (execGetDeviceInterfaceState.eq_def t s)
        (congrArg (fun n => tiSend _ t (.state n)) (tiState_tiTaken s t t))
    · exact tiServe_answers ht hmon hask (execTdispUnsupportedRequest.eq_def t s) rfl
  case loss => exact fun s t ht _ => ⟨sessionLoss_error ht, sessionLoss_idle⟩
  case config =>
    intro s c hmon hask t e
    obtain ⟨v, hexec, hsent, hkeep, hwords⟩ := setTiConfig_answers c hmon hask
    refine ⟨v, hexec, hsent, hkeep, fun h0 => ?_, configError_order s t c⟩
    have hword := hwords h0
    simp only [configWords, List.forall_mem_cons, List.not_mem_nil, false_implies, implies_true, and_true] at hword
    exact hword
  case timeout =>
    intro s m hm
    refine ⟨?_, ?_⟩
    · change execCompactTimeout s = _
      unfold execCompactTimeout moveLimit
      simp only [hm]
    · obtain ⟨r, hout, hop, -, -, hti, hw⟩ := hostRecord_sent (writeRequest { releaseEnabled (m.disabled.foldl reenable s) with
        moves := (releaseEnabled (m.disabled.foldl reenable s)).moves.filter fun x => x.tenant != m.tenant } m.tenant .trusted
        false) 5 m.tenant 0 [1, m.base]
      refine ⟨r, ?_, hop, hti, hw⟩
      exact (congrArg List.getLast? hout).trans List.getLast?_concat

end Sys2Proof.Machine
end


section
/-! PROOFS. What a step runs: the choice of the turn, of the slot and of the port (R10, R57, R99, R100, R115). -/

namespace Sys2Proof.Machine

variable {s f u : State} {t : Task} {i : Instr}

/-! ### What a task issues next (R99) -/

/-- A task whose next instruction nothing comes before: no chunk end, token, deferred cause or limit, and no repetition. -/
structure Issues (f : State) (w : BitVec 32) (i : Instr) : Prop where
  due : f.cur.chunk.due = false
  want : f.cur.chunk.want = none
  deferred : f.cur.deferred = []
  limit : f.cur.chunk.instrs < 512
  imgd : f.cur.imgd = none
  resumed : f.cur.resumed = false
  rep : f.cur.ctx.rep = none
  retrans : f.cur.trusted = true → f.conf.retrans ≠ some f.cur.ctx.pc
  fetch : fetchWord f f.cur = some w
  decodes : decode w = .ok i

theorem awaitsToken_none (h : t.chunk.want = none) : awaitsToken s t = false := by
  unfold awaitsToken
  rw [h]

theorem issueWord_decode {w : BitVec 32} (hr : t.ctx.rep = none) (hd : decode w = .ok i) : issueWord t w = some i := by
  unfold issueWord
  rw [hr]
  simp only [hd]

theorem nextOf_issues {w : BitVec 32} (h : Issues f w i) : nextOf f f.cur = .run i (engineWord w) := by
  have hret : (f.cur.trusted && f.conf.retrans == some f.cur.ctx.pc) = false := by
    cases ht : f.cur.trusted with
    | false => rfl
    | true => exact beq_false_of_ne (h.retrans ht)
  have hdef : lowestDeferred f.cur.deferred = none := by
    rw [h.deferred]
    rfl
  unfold nextOf
  simp only [h.due, awaitsToken_none h.want, h.resumed, hdef, ite_self, Nat.not_le.mpr h.limit, h.imgd, h.fetch, hret,
    issueWord_decode h.rep h.decodes, Bool.false_and, Bool.or_self, Bool.false_eq_true, if_false, Option.isSome_none]

theorem issueCur_issues {w : BitVec 32} (h : Issues f w i) : issueCur f = exec i f := by
  unfold issueCur settled
  rw [nextOf_issues h]
  simp only [h.resumed, Bool.false_eq_true, if_false]

/-! ### The lines of serial chunks (R115) -/

/-- No running serial chunk but one task's has a line in its signatures that the step has changed. -/
def LinesKept (k : Nat) (s t : State) : Prop := ∀ x ∈ allTasks t, x.key ≠ k → runsSerial t x = true →
  ∀ l ∈ x.chunk.rlines ++ x.chunk.wlines, lineState s l = lineState t l

theorem serialKept_iff {k : Nat} {s t : State} : serialKept k s t = true ↔ LinesKept k s t := by
  unfold serialKept LinesKept
  simp only [List.all_eq_true, Bool.or_eq_true, beq_iff_eq, Bool.not_eq_true', or_assoc]
  refine forall_congr' fun x => imp_congr_right fun _ => ?_
  cases runsSerial t x <;> by_cases hx : x.key = k <;> simp [hx]

/-! ### One issue (R10, R99, R100) -/

/-- An instruction that is not stalled has moved its task, the arrays or an instruction cache. -/
def Moves (f u : State) : Prop := progressed f.cur u.cur = true ∨ u.eng.arrays ≠ f.eng.arrays ∨ u.eng.icache ≠ f.eng.icache

theorem moves_iff : (progressed f.cur u.cur || u.eng.arrays != f.eng.arrays || u.eng.icache != f.eng.icache) = true ↔
    Moves f u := by
  unfold Moves
  simp only [Bool.or_eq_true, bne_iff_ne, or_assoc]

section issue
variable {b : State} {core : Nat} {p : Ports} {ts : List Task} {w : BitVec 32}

/-- The port of an instruction whose port has been used passes the turn to the next slot. -/
theorem issueFrom_used (h : Issues (dropPerformed (focus b t.key)) w i) (hu : p.taken (some (engineWord w)) = true) :
    issueFrom b core p (t :: ts) = issueFrom b core p ts := by
  rw [issueFrom]
  rw [nextOf_issues h]
  exact if_pos hu

theorem issueFrom_free (h : Issues (dropPerformed (focus b t.key)) w i) (hu : p.taken (some (engineWord w)) = false)
    (hx : exec i (dropPerformed (focus b t.key)) = .next u) : issueFrom b core p (t :: ts) =
      if serialKept t.key (dropPerformed (focus b t.key)) u && (progressed (dropPerformed (focus b t.key)).cur u.cur ||
        u.eng.arrays != (dropPerformed (focus b t.key)).eng.arrays ||
        u.eng.icache != (dropPerformed (focus b t.key)).eng.icache) then
        .next (issued u core t p (some (engineWord w)))
      else issueFrom b core p ts := by
  rw [issueFrom]
  rw [nextOf_issues h, issueCur_issues h, hx]
  exact if_neg fun hc => Bool.false_ne_true (hu.symm.trans hc)

/-- A free port and an instruction that moves: it is issued. -/
theorem issueFrom_issued (h : Issues (dropPerformed (focus b t.key)) w i) (hu : p.taken (some (engineWord w)) = false)
    (hx : exec i (dropPerformed (focus b t.key)) = .next u) (hm : Moves (dropPerformed (focus b t.key)) u)
    (hk : LinesKept t.key (dropPerformed (focus b t.key)) u) :
    issueFrom b core p (t :: ts) = .next (issued u core t p (some (engineWord w))) := by
  rw [issueFrom_free h hu hx, serialKept_iff.mpr hk, moves_iff.mpr hm]
  rfl

/-- A slot that stalls, or is put off, passes the turn on. -/
theorem issueFrom_stalls (h : Issues (dropPerformed (focus b t.key)) w i) (hu : p.taken (some (engineWord w)) = false)
    (hx : exec i (dropPerformed (focus b t.key)) = .next u)
    (hm : ¬Moves (dropPerformed (focus b t.key)) u ∨ ¬LinesKept t.key (dropPerformed (focus b t.key)) u) :
    issueFrom b core p (t :: ts) = issueFrom b core p ts := by
  rw [issueFrom_free h hu hx]
  refine if_neg fun hc => ?_
  rw [Bool.and_eq_true, serialKept_iff, moves_iff] at hc
  exact hm.elim (fun h => h hc.2) fun h => h hc.1

end issue

/-- The turn of a core, once the compute dies have left reset, is its issue. -/
theorem step_issue {c core : Nat} {late : Bool} (hpow : s.power = true) (hnext : nextTurn s = ⟨c, .issue core late⟩)
    (hst : 3 ≤ s.mgmt.stage) : step s = issueFrom (beginTurn s ⟨c, .issue core late⟩) core
      (portsNow (beginTurn s ⟨c, .issue core late⟩) core)
      (portOrder (beginTurn s ⟨c, .issue core late⟩) core (portsNow (beginTurn s ⟨c, .issue core late⟩) core)) := by
  unfold step takesTurn
  rw [hnext, hpow]
  exact if_pos hst

/-! ### The step of another unit -/

theorem step_unit {c : Nat} (hpow : s.power = true) (hnext : nextTurn s = ⟨c, .unit i⟩) (hw : i.hasWord = false)
    (hs : slotStep i = false) (hx : exec i (beginTurn s ⟨c, .unit i⟩) = .next u) : step s =
      if serialKept 0 (beginTurn s ⟨c, .unit i⟩) (settle u) then .next (settle u) else .next (beginTurn s ⟨c, .unit i⟩) := by
  unfold step takesTurn
  rw [hnext, hpow]
  change (if (i.hasWord || slotStep i) = true then Host.Outcome.next (beginTurn s ⟨c, .unit i⟩)
    else unitTurn (beginTurn s ⟨c, .unit i⟩) i) = _
  rw [hw, hs]
  change unitTurn (beginTurn s ⟨c, .unit i⟩) i = _
  unfold unitTurn
  rw [hx]
  rfl

theorem slotStep_false (h1 : i ≠ .chunkInstructionLimit) (h2 : i ≠ .chunkCommit) (h3 : i ≠ .icacheFill)
    (h4 : i ≠ .illegalEncoding) : slotStep i = false := by
  unfold slotStep
  rw [beq_false_of_ne h1, beq_false_of_ne h2, beq_false_of_ne h3, beq_false_of_ne h4]
  rfl

/-- Settles O57: the step of a core by what its first slot issues, that of a unit by what its operation answers. -/
theorem stepRuns : Obligations.StepRuns := by
  unfold Obligations.StepRuns
  refine ⟨?issue, ?ports, ?unit, fun s t => ⟨rfl, rfl, rfl, rfl, rfl⟩⟩
  case issue =>
    intro s u core c late t ts w i hpow hnext hst b f p engine used horder hdue hwant hdef hlim himgd hres hrep hret hfetch hdec hx
    have hi : Issues f w i := ⟨hdue, hwant, hdef, hlim, himgd, hres, hrep, hret, hfetch, hdec⟩
    have hstep : step s = issueFrom b core p (t :: ts) := by
      rw [step_issue hpow hnext hst, horder]
    refine ⟨fun hu hts => ?_, fun hu => ⟨fun hm hk => ?_, fun hno hts => ?_⟩⟩
    · rw [hstep, issueFrom_used hi hu, hts]
      rfl
    · exact hstep.trans (issueFrom_issued hi hu hx hm hk)
    · rw [hstep, issueFrom_stalls hi hu hx hno, hts]
      rfl
  case ports =>
    intro b core h
    have hnone : (b.sched.ports.find? fun e => e.1 == core && e.2.time == b.time) = none := by
      refine List.find?_eq_none.mpr fun e he hc => ?_
      rw [Bool.and_eq_true, beq_iff_eq, beq_iff_eq] at hc
      exact h e he hc.1 hc.2
    unfold portsNow
    rw [hnone]
  case unit =>
    intro s t c i hpow hnext hw h1 h2 h3 h4 b hx r keeps
    have hstep := step_unit hpow hnext hw (slotStep_false h1 h2 h3 h4) hx
    refine ⟨fun hk => ?_, fun hk => ?_⟩
    · exact hstep.trans (if_pos (serialKept_iff.mpr hk))
    · exact hstep.trans (if_neg fun hc => hk (serialKept_iff.mp hc))

end Sys2Proof.Machine
end


section
/-! PROOFS. The arithmetic of a repartition: splitters, owners, the writes of the records and the completion word (R311, R312,
R316, Table 15.8). -/

namespace Sys2Proof.Machine

variable {r : Repart} {k j : Nat}

/-! ### Splitters (R311) -/

/-- A sum of weights reaches the ceiling of a share of the whole exactly where it reaches the share. -/
theorem ceil_le_iff {a p c : Nat} (hp : 0 < p) : (a + p - 1) / p ≤ c ↔ a ≤ c * p := by
  rw [Nat.div_le_iff_le_mul_add_pred hp, Nat.mul_comm p c]
  omega

theorem cumWeight_eq_teamWeight (h : ∀ i ∈ teamItems r, i.key ≤ k) : cumWeight r k = teamWeight r := by
  unfold cumWeight teamWeight
  rw [List.filter_eq_self.mpr fun i hi => decide_eq_true (h i hi)]

/-- Any cumulative weight above zero is that of an item's key. -/
theorem exists_item_cumWeight (h : 0 < cumWeight r k) : ∃ i ∈ teamItems r, i.key ≤ k ∧ cumWeight r i.key = cumWeight r k := by
  have hne : ((teamItems r).filter fun i => decide (i.key ≤ k)) ≠ [] := by
    intro h0
    unfold cumWeight at h
    rw [h0] at h
    exact Nat.lt_irrefl 0 h
  obtain ⟨i, hi⟩ : ∃ i, i ∈ List.argmax (fun i : GItem => i.key) ((teamItems r).filter fun i => decide (i.key ≤ k)) :=
    Option.ne_none_iff_exists'.mp fun h0 => hne (List.argmax_eq_none.mp h0)
  obtain ⟨hmem, hle⟩ := List.mem_filter.mp (List.argmax_mem hi)
  have hle := of_decide_eq_true hle
  refine ⟨i, hmem, hle, congrArg (fun l => (List.map (fun i : GItem => i.weight) l).sum) (List.filter_congr fun x hx => ?_)⟩
  refine decide_eq_decide.mpr ⟨fun h => h.trans hle, fun h => ?_⟩
  exact List.le_of_mem_argmax (f := fun i : GItem => i.key) (List.mem_filter.mpr ⟨hx, decide_eq_true h⟩) hi

/-- The least key of a list, none above the first bound. -/
theorem foldl_min_spec (l : List GItem) : ∀ m, l.foldl (fun m i => min m i.key) m ≤ m ∧
    (∀ i ∈ l, l.foldl (fun m i => min m i.key) m ≤ i.key) ∧
    (l.foldl (fun m i => min m i.key) m = m ∨ ∃ i ∈ l, l.foldl (fun m i => min m i.key) m = i.key) := by
  induction l with
  | nil => exact fun m => ⟨Nat.le_refl m, fun i hi => absurd hi List.not_mem_nil, Or.inl rfl⟩
  | cons x xs ih =>
    intro m
    obtain ⟨hm, hall, heq⟩ := ih (min m x.key)
    rw [List.foldl_cons]
    refine ⟨hm.trans (Nat.min_le_left _ _), fun i hi => ?_, ?_⟩
    · obtain rfl | hi := List.mem_cons.mp hi
      · exact hm.trans (Nat.min_le_right _ _)
      · exact hall i hi
    · obtain heq | ⟨i, hi, heq⟩ := heq
      · obtain hle | hle := Nat.le_total m x.key
        · exact Or.inl (heq.trans (Nat.min_eq_left hle))
        · exact Or.inr ⟨x, List.mem_cons_self, heq.trans (Nat.min_eq_right hle)⟩
      · exact Or.inr ⟨i, List.mem_cons_of_mem x hi, heq⟩

/-- Splitter j is the smallest key whose cumulative weight reaches its share. -/
theorem splitter_least (hkeys : ∀ i ∈ teamItems r, i.key < 2 ^ 64) (h1 : 1 ≤ j) (hj : j < blkP r.block) (hw : 0 < teamWeight r) :
    j * teamWeight r ≤ cumWeight r (splitter r j) * blkP r.block ∧
    ∀ k, k < splitter r j → ¬j * teamWeight r ≤ cumWeight r k * blkP r.block := by
  have hp : 0 < blkP r.block := by omega
  have hpos : 0 < j * teamWeight r := Nat.mul_pos h1 hw
  generalize htarget : (j * teamWeight r + blkP r.block - 1) / blkP r.block = target
  have hreach : ∀ c, target ≤ c ↔ j * teamWeight r ≤ c * blkP r.block := fun c => htarget ▸ ceil_le_iff hp
  have htpos : target ≠ 0 := fun h0 => by
    have h := (hreach 0).mp (Nat.le_of_eq h0)
    omega
  have hsplit : splitter r j = ((teamItems r).filter fun i => decide (target ≤ cumWeight r i.key)).foldl
      (fun m i => min m i.key) (2 ^ 64 - 1) := by
    unfold splitter
    simp only [htarget, if_neg htpos]
  obtain ⟨-, hall, heq⟩ := foldl_min_spec ((teamItems r).filter fun i => decide (target ≤ cumWeight r i.key)) (2 ^ 64 - 1)
  rw [← hsplit] at hall heq
  have hall : ∀ i ∈ teamItems r, target ≤ cumWeight r i.key → splitter r j ≤ i.key := fun i hi ht =>
    hall i (List.mem_filter.mpr ⟨hi, decide_eq_true ht⟩)
  have hattained : ∃ i ∈ teamItems r, target ≤ cumWeight r i.key ∧ splitter r j = i.key := by
    obtain heq | ⟨i, hi, heq⟩ := heq
    · have htop : cumWeight r (2 ^ 64 - 1) = teamWeight r := cumWeight_eq_teamWeight fun i hi => by
        have h := hkeys i hi
        omega
      obtain ⟨i, hi, hle, hcum⟩ := exists_item_cumWeight (htop ▸ hw)
      have hshare : target ≤ cumWeight r i.key := by
        rw [hreach, hcum, htop, Nat.mul_comm (teamWeight r)]
        exact Nat.mul_le_mul_right _ (Nat.le_of_lt hj)
      exact ⟨i, hi, hshare, Nat.le_antisymm (hall i hi hshare) (heq ▸ hle)⟩
    · obtain ⟨hi, ht⟩ := List.mem_filter.mp hi
      exact ⟨i, hi, of_decide_eq_true ht, heq⟩
  obtain ⟨i, hi, ht, heq⟩ := hattained
  refine ⟨(hreach _).mp (heq ▸ ht), fun k hk hr => ?_⟩
  have htk := (hreach _).mpr hr
  obtain ⟨x, hx, hle, hcum⟩ := exists_item_cumWeight (r := r) (k := k) (by omega)
  have hxs := hall x hx (by omega)
  omega

/-! ### Owners (R312) -/

theorem ownedBefore_iff {a b : GItem} : ownedBefore a b = true ↔
    a.key < b.key ∨ a.key = b.key ∧ (a.rank < b.rank ∨ a.rank = b.rank ∧ a.pos < b.pos) := by
  unfold ownedBefore
  simp only [Bool.or_eq_true, Bool.and_eq_true, decide_eq_true_eq, beq_iff_eq]

/-- What stands before an item stands before everything that does not stand before the item. -/
theorem ownedBefore_trans {x y z : GItem} (h : ownedBefore x y = true) (hz : ownedBefore z y = false) : ownedBefore z x = false := by
  rw [Bool.eq_false_iff, Ne, ownedBefore_iff] at hz ⊢
  rw [ownedBefore_iff] at h
  omega

theorem ownedBefore_asymm {x y : GItem} (h : ownedBefore x y = true) : ownedBefore y x = false := by
  rw [Bool.eq_false_iff, Ne, ownedBefore_iff]
  rw [ownedBefore_iff] at h
  omega

theorem mem_insertOwned {x i : GItem} {l : List GItem} : i ∈ insertOwned x l ↔ i = x ∨ i ∈ l := by
  induction l with
  | nil => exact List.mem_singleton.trans (by simp)
  | cons y ys ih =>
    unfold insertOwned
    split
    · exact List.mem_cons
    · rw [List.mem_cons, ih, List.mem_cons]
      exact or_left_comm

/-- Owner's order: nothing stands behind an item that should stand before it. -/
def Owned (l : List GItem) : Prop := l.Pairwise fun a b => ownedBefore b a = false

theorem insertOwned_owned {x : GItem} {l : List GItem} (h : Owned l) : Owned (insertOwned x l) := by
  induction l with
  | nil => exact List.pairwise_singleton _ _
  | cons y ys ih =>
    obtain ⟨hy, hys⟩ := List.pairwise_cons.mp h
    unfold insertOwned
    split
    next hb =>
      refine List.pairwise_cons.mpr ⟨fun z hz => ?_, h⟩
      obtain rfl | hz := List.mem_cons.mp hz
      · exact ownedBefore_asymm hb
      · exact ownedBefore_trans hb (hy z hz)
    next hb =>
      refine List.pairwise_cons.mpr ⟨fun z hz => ?_, ih hys⟩
      obtain rfl | hz := mem_insertOwned.mp hz
      · exact Bool.eq_false_iff.mpr hb
      · exact hy z hz

theorem foldl_insertOwned (xs : List GItem) : ∀ l, (∀ i, i ∈ xs.foldl (fun l x => insertOwned x l) l ↔ i ∈ xs ∨ i ∈ l) ∧
    (Owned l → Owned (xs.foldl (fun l x => insertOwned x l) l)) := by
  induction xs with
  | nil => exact fun l => ⟨fun i => by simp, id⟩
  | cons x xs ih =>
    intro l
    obtain ⟨hmem, hown⟩ := ih (insertOwned x l)
    rw [List.foldl_cons]
    refine ⟨fun i => ?_, fun h => hown (insertOwned_owned h)⟩
    rw [hmem, mem_insertOwned, List.mem_cons, or_assoc, or_left_comm]

theorem mem_ownedItems {ss : List Nat} {i : GItem} : i ∈ ownedItems r ss k ↔ i ∈ teamItems r ∧ ownerOf ss i.key = k := by
  unfold ownedItems
  rw [(foldl_insertOwned _ []).1 i, List.mem_filter, beq_iff_eq]
  simp only [List.not_mem_nil, or_false]

theorem ownedItems_owned (r : Repart) (ss : List Nat) (k : Nat) : Owned (ownedItems r ss k) :=
  (foldl_insertOwned _ []).2 List.Pairwise.nil

/-- The residue is made of the team's items. -/
theorem mem_residueOf {ss : List Nat} {i : GItem} (h : i ∈ residueOf r ss) : i ∈ teamItems r := by
  unfold residueOf at h
  simp only [(foldl_insertOwned _ []).1 i, List.not_mem_nil, or_false, List.mem_flatMap, List.mem_filter] at h
  obtain ⟨k, -, hi, -⟩ := h
  exact (mem_ownedItems.mp (List.mem_of_mem_drop hi)).1

/-! ### Writes by lines (R154, R312) -/

/-- Every piece of a write lies in its bytes and in one line. -/
theorem linePieces_within (n : Nat) : ∀ (a : Nat) (bs : List Byte), ∀ w ∈ linePieces n a bs,
    a ≤ w.1 ∧ w.1 + w.2.length ≤ a + bs.length ∧ w.1 / 64 = (w.1 + w.2.length - 1) / 64 := by
  induction n with
  | zero => exact fun a bs w hw => absurd hw List.not_mem_nil
  | succ n ih =>
    intro a bs w hw
    unfold linePieces at hw
    split at hw
    · exact absurd hw List.not_mem_nil
    next hne =>
      have hpos : 0 < bs.length := List.length_pos_iff.mpr fun h => hne (List.isEmpty_iff.mpr h)
      obtain rfl | hw := List.mem_cons.mp hw
      · have hlen := List.length_take (l := bs) (i := 64 - a % 64)
        dsimp only
        omega
      · obtain ⟨h1, h2, h3⟩ := ih _ _ w hw
        rw [List.length_drop] at h2
        have hshort : 64 - a % 64 ≤ bs.length := by
          by_contra hlong
          rw [List.drop_eq_nil_of_le (by omega)] at hw
          cases n with
          | zero => exact List.not_mem_nil hw
          | succ n => exact List.not_mem_nil hw
        exact ⟨by omega, by omega, h3⟩

/-- A write within one of an area's slots, and within one line. -/
def WithinSlot (s : State) (r : Repart) (w : Nat × List Byte) (area slots : Nat) : Prop := ∃ k, k < slots ∧
  areaAddr s r area k ≤ w.1 ∧ w.1 + w.2.length ≤ areaAddr s r area k + blkSize r.block ∧ w.1 / 64 = (w.1 + w.2.length - 1) / 64

theorem areaWrites_within {s : State} {area : Nat} {l : List GItem} {w : Nat × List Byte}
    (hl : ∀ i ∈ l, (pieceBytes r i).length = blkSize r.block) (hw : w ∈ areaWrites s r area l) :
    WithinSlot s r w area l.length := by
  obtain ⟨⟨i, n⟩, hmem, hw⟩ := List.mem_flatMap.mp hw
  obtain ⟨-, hn, hi⟩ := List.mem_zipIdx hmem
  obtain ⟨h1, h2, h3⟩ := linePieces_within _ _ _ w hw
  rw [hl i (hi ▸ List.getElem_mem _)] at h2
  exact ⟨n, by omega, h1, h2, h3⟩

theorem placements_within {s : State} {w : Nat × List Byte} (hl : ∀ i ∈ teamItems r, (pieceBytes r i).length = blkSize r.block)
    (hw : w ∈ placements s r) :
    let n := (ownedItems r (splitters r) (blkRank r.block)).length
    WithinSlot s r w 6 (min n (blkRcap r.block)) ∨ WithinSlot s r w 8 (min (n - blkRcap r.block) (blkScap r.block)) := by
  have hown : ∀ i ∈ ownedItems r (splitters r) (blkRank r.block), (pieceBytes r i).length = blkSize r.block :=
    fun i hi => hl i (mem_ownedItems.mp hi).1
  obtain hw | hw := List.mem_append.mp hw
  · have h := areaWrites_within (fun i hi => hown i (List.mem_of_mem_take hi)) hw
    rw [List.length_take, Nat.min_comm] at h
    exact Or.inl h
  · have h := areaWrites_within (fun i hi => hown i (List.mem_of_mem_drop (List.mem_of_mem_take hi))) hw
    rw [List.length_take, List.length_drop, Nat.min_comm] at h
    exact Or.inr h

theorem residues_within {s : State} {w : Nat × List Byte} (hl : ∀ i ∈ teamItems r, (pieceBytes r i).length = blkSize r.block)
    (hw : w ∈ residues s r) : WithinSlot s r w 2 (residueOf r (splitters r)).length :=
  areaWrites_within (fun i hi => hl i (mem_residueOf hi)) hw

/-! ### The completion word (Table 15.8) -/

/-- The word's fields: a code of 2 bits, and three counts of 20. -/
theorem countWord_fields {c x y z : Nat} (hc : c < 4) (hx : x < 2 ^ 20) (hy : y < 2 ^ 20) (hz : z < 2 ^ 20) :
    let w := BitVec.ofNat 64 (c * 2 ^ 62 + x * 2 ^ 40 + y * 2 ^ 20 + z)
    fieldNat w 59 40 = x ∧ fieldNat w 39 20 = y ∧ fieldNat w 19 0 = z ∧ fieldNat w 63 62 = c := by
  simp only [fieldNat_eq, BitVec.toNat_ofNat]
  omega

theorem field20_lt (w : Word) : fieldNat w 19 0 < 2 ^ 20 := Nat.mod_lt _ (Nat.two_pow_pos _)

theorem completionWord_fields (r : Repart) :
    let n := (ownedItems r (splitters r) (blkRank r.block)).length
    let res := (residueOf r (splitters r)).length
    let w := completionWord r
    res < 2 ^ 20 → fieldNat w 59 40 = min n (blkRcap r.block) ∧ fieldNat w 39 20 = min (n - blkRcap r.block) (blkScap r.block) ∧
      fieldNat w 19 0 = res ∧
      fieldNat w 63 62 = (if 0 < res then 2 else if 0 < min (n - blkRcap r.block) (blkScap r.block) then 1 else 0) := by
  intro n res w hres
  have hrcap : blkRcap r.block < 2 ^ 20 := field20_lt _
  have hscap : blkScap r.block < 2 ^ 20 := field20_lt _
  have hsub : n - min n (blkRcap r.block) = n - blkRcap r.block := by omega
  have hword : w = BitVec.ofNat 64 ((if 0 < res then 2 else if 0 < min (n - blkRcap r.block) (blkScap r.block) then 1 else 0) *
      2 ^ 62 + min n (blkRcap r.block) * 2 ^ 40 + min (n - blkRcap r.block) (blkScap r.block) * 2 ^ 20 + res) := by
    change BitVec.ofNat 64 ((if 0 < res then 2 else if 0 < min (n - min n (blkRcap r.block)) (blkScap r.block) then 1 else 0) *
      2 ^ 62 + min n (blkRcap r.block) * 2 ^ 40 + min (n - min n (blkRcap r.block)) (blkScap r.block) * 2 ^ 20 + res) = _
    rw [hsub]
  have hcode : (if 0 < res then 2 else if 0 < min (n - blkRcap r.block) (blkScap r.block) then 1 else 0) < 4 := by
    split_ifs <;> decide
  rw [hword]
  exact countWord_fields hcode (by omega) (by omega) hres

end Sys2Proof.Machine
end


section
/-! PROOFS. `rpart`, `rpst`, the gleaners' flits and the completion of a repartition (R309, R313, R402 to R405). -/

namespace Sys2Proof.Machine

variable {s t : State} {r : Repart} {f : Flit}

/-! ### What the collective changes -/

/-- A record of the same call in the same phase. -/
def SameCall (a b : Repart) : Prop := b.seq = a.seq ∧ b.tenant = a.tenant ∧ b.core = a.core ∧ b.block = a.block ∧
  b.task = a.task ∧ b.phase = a.phase

theorem SameCall.refl (r : Repart) : SameCall r r := ⟨rfl, rfl, rfl, rfl, rfl, rfl⟩

theorem SameCall.trans {a b c : Repart} (h : SameCall a b) (h' : SameCall b c) : SameCall a c := by
  obtain ⟨h1, h2, h3, h4, h5, h6⟩ := h
  obtain ⟨g1, g2, g3, g4, g5, g6⟩ := h'
  exact ⟨g1.trans h1, g2.trans h2, g3.trans h3, g4.trans h4, g5.trans h5, g6.trans h6⟩

/-- What the gleaner's own work keeps: the machine outside the engines and the interface, and every record's call. -/
structure GleanKept (s t : State) : Prop where
  cur : t.cur = s.cur
  mem : t.mem = s.mem
  time : t.time = s.time
  next : t.eng.gleaner.next = s.eng.gleaner.next
  records : ∀ r ∈ s.eng.gleaner.records, ∃ r' ∈ t.eng.gleaner.records, SameCall r r'

theorem GleanKept.refl (s : State) : GleanKept s s := ⟨rfl, rfl, rfl, rfl, fun r hr => ⟨r, hr, SameCall.refl r⟩⟩

theorem GleanKept.trans {u : State} (h : GleanKept s t) (h' : GleanKept t u) : GleanKept s u := by
  refine ⟨h'.cur.trans h.cur, h'.mem.trans h.mem, h'.time.trans h.time, h'.next.trans h.next, fun r hr => ?_⟩
  obtain ⟨r', hr', hc⟩ := h.records r hr
  obtain ⟨r'', hr'', hc'⟩ := h'.records r' hr'
  exact ⟨r'', hr'', hc.trans hc'⟩

theorem foldl_gleanKept {α : Type} {F : State → α → State} (hF : ∀ s a, GleanKept s (F s a)) (l : List α) (s : State) :
    GleanKept s (l.foldl F s) :=
  List.foldlRecOn (motive := GleanKept s) l F (GleanKept.refl s) fun t ht a _ => ht.trans (hF t a)

theorem gleanKept_of_fab {F : Fab} : GleanKept s { s with fab := F } := ⟨rfl, rfl, rfl, rfl, fun r hr => ⟨r, hr, SameCall.refl r⟩⟩

theorem sendTracked_gleanKept (s : State) (task core tenant dest cls dcore op : Nat) (ws : List Word)
    (w : Option (Nat × Dest × Nat × Bool)) (c : Bool) : GleanKept s (sendTracked s task core tenant dest cls dcore op ws w c) := by
  obtain ⟨F, x, h, -, -⟩ := sendTracked_eq s task core tenant dest cls dcore op ws w c
  rw [h]
  exact gleanKept_of_fab

theorem sendTeam_gleanKept (s : State) (r : Repart) (ws : List Word) : GleanKept s (sendTeam s r ws) := by
  refine foldl_gleanKept (fun s x => ?_) _ s
  split_ifs
  · exact GleanKept.refl s
  · exact sendTracked_gleanKept s _ _ _ _ _ _ _ _ _ _

theorem sendTeam_eng (s : State) (r : Repart) (ws : List Word) : (sendTeam s r ws).eng = s.eng := by
  refine List.foldlRecOn (motive := fun t : State => t.eng = s.eng) _ _ rfl ?_
  rintro t ht x -
  split_ifs
  · exact ht
  · obtain ⟨F, y, h, -, -⟩ := sendTracked_eq t 0 r.core r.tenant x.1 3 0 10 (callWords (r.calls.getD x.2 0) ws) none false
    rw [h]
    exact ht

theorem mapRepart_gleanKept (s : State) (seq : Nat) {g : Repart → Repart} (hg : ∀ r, SameCall r (g r)) :
    GleanKept s (mapRepart s seq g) := by
  refine ⟨rfl, rfl, rfl, rfl, fun r hr => ⟨_, List.mem_map_of_mem hr, ?_⟩⟩
  split_ifs
  · exact hg r
  · exact SameCall.refl r

theorem setCalls_gleanKept (s : State) (team pkg n : Nat) : GleanKept s (setCalls s team pkg n) :=
  ⟨rfl, rfl, rfl, rfl, fun r hr => ⟨r, hr, SameCall.refl r⟩⟩

theorem repartFails_gleanKept (s : State) (r : Repart) (code : Nat) : GleanKept s (repartFails s r code) := by
  unfold repartFails
  split_ifs
  · exact GleanKept.refl s
  · refine GleanKept.trans (mapRepart_gleanKept s r.seq ?_) (sendTeam_gleanKept _ r _)
    exact fun r => ⟨rfl, rfl, rfl, rfl, rfl, rfl⟩

theorem repartTakes_gleanKept (s : State) (r : Repart) (ws : List Word) : GleanKept s (repartTakes s r ws) := by
  unfold repartTakes
  dsimp only
  split_ifs
  · exact GleanKept.refl s
  · exact mapRepart_gleanKept s r.seq fun r => ⟨rfl, rfl, rfl, rfl, rfl, rfl⟩
  · refine GleanKept.trans (mapRepart_gleanKept s r.seq ?_) (repartFails_gleanKept _ r 1)
    exact fun r => ⟨rfl, rfl, rfl, rfl, rfl, rfl⟩
  · exact mapRepart_gleanKept s r.seq fun r => ⟨rfl, rfl, rfl, rfl, rfl, rfl⟩
  · refine GleanKept.trans (mapRepart_gleanKept s r.seq ?_) (repartFails_gleanKept _ r 1)
    exact fun r => ⟨rfl, rfl, rfl, rfl, rfl, rfl⟩
  · exact mapRepart_gleanKept s r.seq fun r => ⟨rfl, rfl, rfl, rfl, rfl, rfl⟩
  · exact mapRepart_gleanKept s r.seq fun r => ⟨rfl, rfl, rfl, rfl, rfl, rfl⟩

theorem tellSender_gleanKept (s : State) (seq : Nat) (f : Flit) : GleanKept s (tellSender s seq f) := by
  unfold tellSender
  split
  · exact GleanKept.refl s
  · split_ifs
    · exact (sendTracked_gleanKept s _ _ _ _ _ _ _ _ _ _).trans (setCalls_gleanKept _ _ _ _)
    · exact GleanKept.refl s

theorem repartFlit_gleanKept (s : State) (r : Repart) (f : Flit) : GleanKept s (repartFlit s r f) :=
  (repartTakes_gleanKept s r f.words).trans (tellSender_gleanKept _ r.seq f)

/-! ### Acceptance (R402, R403) -/

/-- The machine as the gleaner reads the team table and the items. -/
def acceptStart (s : State) (b : List Word) : State :=
  jobDone ((blkReads s b).foldl (fun s r => reach s (linesOf r.1 r.2)) s)

/-- A call of the team is in progress here already. -/
def acceptDup (s : State) (b : List Word) : Bool :=
  s.eng.gleaner.records.any fun r => r.live && blkTeam r.block == blkTeam b

/-- The team table as the gleaner takes it. -/
def acceptTable (s : State) (b : List Word) : List Nat :=
  if ((blkReads s b).head?.bind (readPoison s)).isSome then [] else teamTable s b

/-- The machine once the call is counted for every package of the table. -/
def acceptCalls (s : State) (b : List Word) (tab : List Nat) (dup : Bool) : State :=
  if dup then s else tab.eraseDups.foldl (fun s p => setCalls s (blkTeam b) p (callsOf s (blkTeam b) p + 1)) s

/-- The record of an accepted call. -/
def acceptRecord (s : State) (b : List Word) (tab : List Nat) (items : List GItem) (dup : Bool) : Repart :=
  ⟨s.eng.gleaner.next, s.cur.tenant, s.cur.core, s.cur.key, b, tab, tab.map (callsOf s (blkTeam b)), 0, 0,
    [(blkRank b, headOf b)], [], items, if dup then some 3 else none, []⟩

/-- A kept flit belongs to the call. -/
def acceptMine (b : List Word) (r : Repart) (dup : Bool) (f : Flit) : Bool :=
  !dup && fieldNat (f.words.getD 0 0) 63 32 == blkTeam b && flitPlace r f == .same

/-- The machine with the record. -/
def acceptAdded (s : State) (b : List Word) (r : Repart) (dup : Bool) : State :=
  { s with eng := { s.eng with gleaner := { s.eng.gleaner with
      next := (s.eng.gleaner.next + 1) % 65536, records := keepRecords (s.eng.gleaner.records ++ [r])
      early := s.eng.gleaner.early.filter fun f => !acceptMine b r dup f } } }

/-- What the gleaner does with the record: it fails, or its flits leave and those kept for it are taken. -/
def acceptEnd (s : State) (b : List Word) (tab : List Nat) (items : List GItem) (r : Repart) (dup : Bool) (bad : Option Nat)
    (mine : List Flit) : State :=
  if dup then s
  else
    match bad with
    | some a => defer (repartFails s r 0x0C) 0x0C (globalOf s a)
    | none =>
      if dupTable tab then repartFails s r 1
      else
        let s := (participantFlits b tab items).foldl (fun s w => sendTeam s r w) s
        mine.foldl (fun s f => match liveTeam s (blkTeam b) with
          | some r => repartFlit s r f
          | none => s) s

theorem acceptRepart_eq (s : State) (b : List Word) :
    let bad := (blkReads s b).findSome? (readPoison s)
    let s₁ := acceptStart s b
    let tab := acceptTable s₁ b
    let dup := acceptDup s₁ b
    let items := if bad.isSome then [] else itemPieces s₁ b
    let s₂ := acceptCalls s₁ b tab dup
    let r := acceptRecord s₂ b tab items dup
    acceptRepart s b = acceptEnd (acceptAdded s₂ b r dup) b tab items r dup bad
      (s₂.eng.gleaner.early.filter (acceptMine b r dup)) := rfl

/-- The reads mark granules as reached, and nothing else of memory. -/
theorem acceptStart_keeps (s : State) (b : List Word) : (acceptStart s b).cur = s.cur ∧ (acceptStart s b).time = s.time ∧
    (acceptStart s b).eng = s.eng ∧ ∃ c, (acceptStart s b).mem = { s.mem with clearing := c } := by
  have hreach : ∃ c : List Nat, (blkReads s b).foldl (fun s r => reach s (linesOf r.1 r.2)) s =
      { s with mem := { s.mem with clearing := c } } := by
    refine List.foldlRecOn (motive := fun t : State => ∃ c : List Nat, t = { s with mem := { s.mem with clearing := c } }) _ _
      ⟨s.mem.clearing, rfl⟩ ?_
    rintro t ⟨c, rfl⟩ a -
    exact ⟨_, rfl⟩
  obtain ⟨c, hc⟩ := hreach
  unfold acceptStart
  rw [hc]
  exact ⟨rfl, rfl, rfl, c, rfl⟩

theorem acceptCalls_gleanKept (s : State) (b : List Word) (tab : List Nat) (dup : Bool) : GleanKept s (acceptCalls s b tab dup) := by
  unfold acceptCalls
  split_ifs
  · exact GleanKept.refl s
  · exact foldl_gleanKept (fun s p => setCalls_gleanKept s _ _ _) _ s

/-- The newest record is among those kept. -/
theorem mem_keepRecords (rs : List Repart) (r : Repart) : r ∈ keepRecords (rs ++ [r]) := by
  refine List.mem_append_right _ ?_
  rw [List.length_append, List.length_singleton, List.drop_append_of_le_length (by omega)]
  exact List.mem_append_right _ List.mem_cons_self

/-- Without poison the rest of an acceptance keeps the task. -/
theorem acceptEnd_gleanKept (s : State) (b : List Word) (tab : List Nat) (items : List GItem) (r : Repart) (dup : Bool)
    (mine : List Flit) : GleanKept s (acceptEnd s b tab items r dup none mine) := by
  unfold acceptEnd
  split_ifs
  · exact GleanKept.refl s
  · exact repartFails_gleanKept s r 1
  · refine (foldl_gleanKept (fun s w => sendTeam_gleanKept s r w) _ s).trans (foldl_gleanKept (fun s f => ?_) _ _)
    split
    · exact repartFlit_gleanKept s _ f
    · exact GleanKept.refl s

/-- With a poisoned word the record ends in an error, and its task is told. -/
theorem acceptEnd_poison {b : List Word} {tab : List Nat} {items : List GItem} {dup : Bool} {a : Nat} {mine : List Flit}
    (hr : r ∈ s.eng.gleaner.records) (hdup : dup = true → r.err = some 3) (hlive : r.live = true) :
    (∃ r' ∈ (acceptEnd s b tab items r dup (some a) mine).eng.gleaner.records, SameCall r r' ∧ r'.err.isSome = true) ∧
    (acceptEnd s b tab items r dup (some a) mine).mem = s.mem ∧
    (acceptEnd s b tab items r dup (some a) mine).eng.gleaner.next = s.eng.gleaner.next := by
  unfold acceptEnd
  cases dup with
  | true =>
    rw [if_pos rfl]
    exact ⟨⟨r, hr, SameCall.refl r, by rw [hdup rfl]; rfl⟩, rfl, rfl⟩
  | false =>
    rw [if_neg Bool.false_ne_true]
    have hk := repartFails_gleanKept s r 0x0C
    refine ⟨?_, hk.mem, hk.next⟩
    change ∃ r' ∈ (repartFails s r 0x0C).eng.gleaner.records, SameCall r r' ∧ r'.err.isSome = true
    by_cases herr : r.err.isSome = true
    · have hsame : repartFails s r 0x0C = s := if_pos (by rw [herr]; rfl)
      rw [hsame]
      exact ⟨r, hr, SameCall.refl r, herr⟩
    · have hfails : repartFails s r 0x0C = sendTeam (mapRepart s r.seq fun r => { r with err := some 0x0C }) r
          [gWord 3 r.block, BitVec.ofNat 64 0x0C] := by
        refine if_neg ?_
        rw [hlive, Bool.eq_false_iff.mpr herr]
        exact Bool.false_ne_true
      rw [hfails, sendTeam_eng]
      refine ⟨{ r with err := some 0x0C }, List.mem_map.mpr ⟨r, hr, if_pos rfl⟩, ⟨rfl, rfl, rfl, rfl, rfl, rfl⟩, rfl⟩

/-- What an accepted call leaves: its record, the next sequence, memory as it was but for the granules reached. -/
structure AcceptedCall (s : State) (b : List Word) (t : State) (r : Repart) : Prop where
  record : r ∈ t.eng.gleaner.records
  seq : r.seq = s.eng.gleaner.next
  tenant : r.tenant = s.cur.tenant
  core : r.core = s.cur.core
  block : r.block = b
  task : r.task = s.cur.key
  phase : r.phase = 0
  next : t.eng.gleaner.next = (s.eng.gleaner.next + 1) % 65536
  mem : t.mem = { s.mem with clearing := t.mem.clearing }
  poison : ∀ w, (blkReads s b).findSome? (readPoison s) = some w → r.err.isSome = true
  kept : (blkReads s b).findSome? (readPoison s) = none → t.cur = s.cur ∧ t.time = s.time

/-- The machine with the record, before the gleaner's flits leave. -/
theorem acceptAdded_keeps (s : State) (b : List Word) (tab : List Nat) (items : List GItem) (dup : Bool) :
    let s₁ := acceptStart s b
    let s₂ := acceptCalls s₁ b tab dup
    let r := acceptRecord s₂ b tab items dup
    let v := acceptAdded s₂ b r dup
    r ∈ v.eng.gleaner.records ∧ v.cur = s.cur ∧ v.time = s.time ∧ v.mem = { s.mem with clearing := v.mem.clearing } ∧
    v.eng.gleaner.next = (s.eng.gleaner.next + 1) % 65536 ∧ r.seq = s.eng.gleaner.next ∧ r.tenant = s.cur.tenant ∧
    r.core = s.cur.core ∧ r.task = s.cur.key := by
  intro s₁ s₂ r v
  have hk : GleanKept s₁ s₂ := acceptCalls_gleanKept s₁ b tab dup
  obtain ⟨hcur₁, htime₁, heng₁, c, hmem₁⟩ := acceptStart_keeps s b
  have hcur : s₂.cur = s.cur := hk.cur.trans hcur₁
  have hnext : s₂.eng.gleaner.next = s.eng.gleaner.next := hk.next.trans (congrArg (fun e : Eng => e.gleaner.next) heng₁)
  have hmem : s₂.mem = { s.mem with clearing := c } := hk.mem.trans hmem₁
  refine ⟨mem_keepRecords _ _, hcur, hk.time.trans htime₁, ?_, ?_, hnext, ?_, ?_, ?_⟩
  · change s₂.mem = { s.mem with clearing := s₂.mem.clearing }
    rw [hmem]
  · change (s₂.eng.gleaner.next + 1) % 65536 = _
    rw [hnext]
  · exact congrArg Task.tenant hcur
  · exact congrArg Task.core hcur
  · exact congrArg Task.key hcur

theorem acceptRepart_accepts (s : State) (b : List Word) : ∃ r, AcceptedCall s b (acceptRepart s b) r := by
  have heq := acceptRepart_eq s b
  dsimp only at heq
  generalize acceptTable (acceptStart s b) b = tab at heq
  generalize acceptDup (acceptStart s b) b = dup at heq
  generalize (if ((blkReads s b).findSome? (readPoison s)).isSome = true then [] else itemPieces (acceptStart s b) b) = items at heq
  obtain ⟨hmem, hcur, htime, hm, hnext, hseq, htenant, hcore, htask⟩ := acceptAdded_keeps s b tab items dup
  generalize hrec : acceptRecord (acceptCalls (acceptStart s b) b tab dup) b tab items dup = r at *
  generalize acceptAdded (acceptCalls (acceptStart s b) b tab dup) b r dup = v at *
  have hblock : r.block = b := by rw [← hrec]; rfl
  have hphase : r.phase = 0 := by rw [← hrec]; rfl
  have herr : dup = true → r.err = some 3 := fun h => by rw [← hrec, h]; rfl
  cases hbad : (blkReads s b).findSome? (readPoison s) with
  | none =>
    rw [hbad] at heq
    have hk := acceptEnd_gleanKept v b tab items r dup
      ((acceptCalls (acceptStart s b) b tab dup).eng.gleaner.early.filter (acceptMine b r dup))
    rw [← heq] at hk
    obtain ⟨r', hr', h1, h2, h3, h4, h5, h6⟩ := hk.records r hmem
    refine ⟨r', hr', h1.trans hseq, h2.trans htenant, h3.trans hcore, h4.trans hblock, h5.trans htask, h6.trans hphase,
      hk.next.trans hnext, ?_, fun w hw => absurd (hbad.symm.trans hw) nofun, fun _ => ⟨hk.cur.trans hcur, hk.time.trans htime⟩⟩
    rw [hk.mem]
    exact hm
  | some a =>
    rw [hbad] at heq
    obtain ⟨⟨r', hr', ⟨h1, h2, h3, h4, h5, h6⟩, he⟩, hmem', hnext'⟩ := acceptEnd_poison (b := b) (tab := tab) (items := items)
      (a := a) (mine := (acceptCalls (acceptStart s b) b tab dup).eng.gleaner.early.filter (acceptMine b r dup)) hmem herr
      (decide_eq_true (by rw [hphase]; decide))
    rw [← heq] at hr' hmem' hnext'
    refine ⟨r', hr', h1.trans hseq, h2.trans htenant, h3.trans hcore, h4.trans hblock, h5.trans htask, h6.trans hphase,
      hnext'.trans hnext, ?_, fun _ _ => he, fun h => absurd (hbad.symm.trans h) nofun⟩
    rw [hmem']
    exact hm

/-- The fields of a handle (Table 23.2). -/
theorem handle_fields {n m : Nat} (hn : n < 2 ^ 16) (hm : m < 2 ^ 32) :
    let h := BitVec.ofNat 64 (2 ^ 63 + n * 2 ^ 32 + m)
    bitOf h 63 = true ∧ fieldNat h 62 48 = 0 ∧ fieldNat h 47 32 = n ∧ fieldNat h 31 0 = m := by
  simp only [bitOf_eq_decide, fieldNat_eq, BitVec.toNat_ofNat, decide_eq_true_eq]
  omega

/-! ### `rpart` (R309, R402) -/

section rpart
variable {d b : Reg} (ha : Alone s) (hr : Ready s [b] [d])
include ha hr

theorem rpart_misaligned (hx : (arg1 s b).toNat % 128 ≠ 0) :
    exec (.rpart d b) s = .next (takeTrap s 0x07 0 (arg1 s b) false false) := by
  change execRpart d b s = _
  unfold execRpart
  rw [gate_ready hr, alone_of ha]
  exact if_pos hx

/-- Past the checks of its block's address, `rpart` judges the block. -/
theorem rpart_judged (hx : (arg1 s b).toNat % 128 = 0)
    (hc : checkAccess s s.cur.tenant s.cur.trusted (arg1 s b) ⟨false, 128, 128, true, true, true⟩ = none)
    (hb : regionBusy s (localOf (arg1 s b)) = false) (hp : s.mem.anyPoison (canon s (localOf (arg1 s b))) 128 = false)
    (hw : (blkWord (wordsOfBytes (s.mem.readBytes (canon s (localOf (arg1 s b))) 128) 16) 10).toNat % 8 = 0) :
    let blk := wordsOfBytes (s.mem.readBytes (canon s (localOf (arg1 s b))) 128) 16
    exec (.rpart d b) s = if blkBad blk then trap s 0x02 0 else if blkRefused s blk then trap s 0x14 (arg1 s b)
      else if !destRoom s.cur d then trap s 0x02 0
      else if 4 ≤ (s.eng.gleaner.records.filter Repart.live).length then .next s
      else finishAloneG (acceptRepart s blk) (rebase (acceptRepart s blk) (read1 s b)) d
        (BitVec.ofNat 64 (2 ^ 63 + s.eng.gleaner.next * 2 ^ 32 + blkTeam blk)) := by
  intro blk
  change execRpart d b s = _
  unfold execRpart
  rw [gate_ready hr, alone_of ha]
  refine (if_neg (not_not_intro hx)).trans ((checked_ok hc (waitsBusy_free hb _) _).trans ?_)
  exact (if_neg fun h => Bool.false_ne_true (hp.symm.trans h)).trans (if_neg (not_not_intro hw))

end rpart

/-! ### `rpst` (R405) -/

theorem rpst_given {d h : Reg} (hr : Ready s [h] [d]) (hd : destRoom s.cur d = true) (hv : bitOf (arg1 s h) 63 = true)
    (hz : fieldNat (arg1 s h) 62 48 = 0) : exec (.rpst d h) s = .next (wrote s (read1 s h) d (rpstValue s (arg1 s h))) := by
  change execRpst d h s = _
  unfold execRpst
  rw [gate_ready hr]
  refine (if_neg ?_).trans (finishG_room hd _ _)
  rintro (hc | hc)
  · exact Bool.false_ne_true ((congrArg (! ·) hv).symm.trans hc)
  · exact hc hz

theorem rpst_badHandle {d h : Reg} (hr : Ready s [h] [d]) (hbad : bitOf (arg1 s h) 63 = false ∨ fieldNat (arg1 s h) 62 48 ≠ 0) :
    exec (.rpst d h) s = .next (takeTrap s 0x02 0 0 false false) := by
  change execRpst d h s = _
  unfold execRpst
  rw [gate_ready hr]
  exact if_pos (hbad.imp_left fun hv => congrArg (! ·) hv)

/-- The record that a handle names among the last 64. -/
def namedRecord (s : State) (x : Word) : Option Repart :=
  (s.eng.gleaner.records.drop (s.eng.gleaner.records.length - 64)).find? fun r =>
    r.seq == fieldNat x 47 32 && blkTeam r.block == fieldNat x 31 0

theorem rpstValue_none {x : Word} (h : namedRecord s x = none) : rpstValue s x = 7 := by
  unfold namedRecord at h
  unfold rpstValue
  simp only [h]

theorem rpstValue_some {x : Word} (h : namedRecord s x = some r) : rpstValue s x =
    if r.tenant ≠ s.cur.tenant then 7 else BitVec.ofNat 64 (r.round * 2 ^ 8 + r.phase) := by
  unfold namedRecord at h
  unfold rpstValue
  simp only [h]

/-! ### Completion (R313, R316) -/

/-- The first record of a sequence, while live, is the live record of that sequence. -/
theorem find_live {rs : List Repart} {seq : Nat} (h : rs.find? (fun x => x.seq == seq) = some r) (hl : r.live = true) :
    rs.find? (fun x => x.seq == seq && x.live) = some r := by
  obtain ⟨hp, as, bs, rfl, has⟩ := List.find?_eq_some_iff_append.mp h
  refine List.find?_eq_some_iff_append.mpr ⟨by rw [hp, hl]; rfl, as, bs, rfl, fun a ha => ?_⟩
  have hno := has a ha
  rw [Bool.not_eq_true'] at hno
  rw [hno]
  rfl

section completion
variable {seq : Nat} (hf : s.eng.gleaner.records.find? (fun x => x.seq == seq) = some r)
  (hh : serialHolds s 0 [canon s (localOf (blkWord r.block 10)) / 64] = false)
  (hs : linesSealed s [canon s (localOf (blkWord r.block 10)) / 64] = false)
include hf hh hs

theorem complete_done (he : r.err = none) (hp : r.phase = 4) (ht : r.todo = []) : exec (.repartitionComplete seq) s =
    .next (settle (devWord (mapRepart s seq fun x => { x with phase := 5, round := 0 }) (canon s (localOf (blkWord r.block 10)))
      (completionWord r))) := by
  have hlive : r.live = true := decide_eq_true (by rw [hp]; decide)
  change execRepartitionComplete seq s = _
  unfold execRepartitionComplete
  simp only [find_live hf hlive, hh, hs, he, hp, ht, Bool.false_eq_true, if_false, and_self, if_true]

theorem complete_error {e : Nat} (he : r.err = some e) (hp : r.phase < 5) : exec (.repartitionComplete seq) s =
    .next (settle (devWord (mapRepart s seq fun x => { x with phase := 6, round := 0 }) (canon s (localOf (blkWord r.block 10)))
      (BitVec.ofNat 64 (3 * 2 ^ 62 + e)))) := by
  have hlive : r.live = true := decide_eq_true hp
  change execRepartitionComplete seq s = _
  unfold execRepartitionComplete
  simp only [find_live hf hlive, hh, hs, he, Bool.false_eq_true, if_false]

end completion

/-! ### The gleaners' flits (R311, R313) -/

/-- What an acknowledged flit of the gleaners does. -/
def gleanTaken (v : State) (f : Flit) : State :=
  match liveTeam v (fieldNat (f.words.getD 0 0) 63 32) with
  | none =>
    if callPlace f (callsOf v (fieldNat (f.words.getD 0 0) 63 32) f.src) ≠ .later then v
    else
      match teamsDiffer v f with
      | some r => teamError { v with fresh := v.fresh + 1 } r f
      | none => keepEarly { v with fresh := v.fresh + 1 } f
  | some r =>
    match flitPlace r f with
    | .same => repartRuns (repartFlit v r f) r.seq
    | .later => keepEarly v f
    | .over => v

theorem gleaner_takes (hop : f.op = 10) (ha : flitArrives s f = true) (ht : tagVerifies s f = true) (hm : malformed f = false)
    (hann : announcing s = false) (hi : f.dinc = s.conf.incarnation) (hst : tiState s f.ti ≠ 4) :
    exec (.gleaner f) s = .next (gleanTaken (replyTo (tagPassed s f) f 0 []) f) := by
  change execGleaner f s = _
  unfold execGleaner
  rw [if_neg (not_not_intro hop), receive_accepted _ ha ht hm (.inl hann) (fun _ => hi) (.inr (.inr hst))]
  rfl

section taken
variable {v : State}

theorem gleanTaken_later (hl : liveTeam v (fieldNat (f.words.getD 0 0) 63 32) = none)
    (hc : callPlace f (callsOf v (fieldNat (f.words.getD 0 0) 63 32) f.src) = .later) (hn : namesakes v f = none) :
    gleanTaken v f = keepEarly { v with fresh := v.fresh + 1 } f := by
  have hd : teamsDiffer v f = none := by
    unfold teamsDiffer
    rw [hn, ite_self]
  unfold gleanTaken
  rw [hl]
  simp only [hc, ne_eq, not_true, if_false, hd]

theorem gleanTaken_over (hl : liveTeam v (fieldNat (f.words.getD 0 0) 63 32) = none)
    (hc : callPlace f (callsOf v (fieldNat (f.words.getD 0 0) 63 32) f.src) ≠ .later) : gleanTaken v f = v := by
  unfold gleanTaken
  rw [hl]
  exact if_pos hc

theorem gleanTaken_live (hl : liveTeam v (fieldNat (f.words.getD 0 0) 63 32) = some r) :
    (flitPlace r f = .same → gleanTaken v f = repartRuns (repartFlit v r f) r.seq) ∧
    (flitPlace r f = .later → gleanTaken v f = keepEarly v f) ∧ (flitPlace r f = .over → gleanTaken v f = v) := by
  unfold gleanTaken
  rw [hl]
  refine ⟨fun hp => ?_, fun hp => ?_, fun hp => ?_⟩
  · simp only [hp]
  · simp only [hp]
  · simp only [hp]

end taken

/-! ### The obligation -/

/-- Settles O43: the call by what its acceptance keeps, the numbers by the lemmas on splitters, owners and lines, a flit by the
place it has beside its team's record. -/
theorem repartitions : Obligations.Repartitions := by
  unfold Obligations.Repartitions
  refine ⟨?rpart, ?rpst, fun r j hk h1 hj hw => splitter_least hk h1 hj hw,
    fun r ss k => ⟨fun i => mem_ownedItems, ownedItems_owned r ss k⟩, ?complete,
    fun s r w hl _ => ⟨fun hw => placements_within hl hw, fun hw => residues_within hl hw⟩, completionWord_fields, ?gleaner⟩
  case rpart =>
    intro s d b ha hr hd x a blk live next
    refine ⟨rpart_misaligned ha hr, fun hx hc hb hp hw => ?_⟩
    have hexec := rpart_judged ha hr hx hc hb hp hw
    refine ⟨fun hbad => hexec.trans (if_pos hbad), fun hbad href => ?_, fun hbad href h4 => ?_, fun hbad href h4 hn => ?_⟩
    · exact hexec.trans ((if_neg (Bool.eq_false_iff.mp hbad)).trans (if_pos href))
    · refine hexec.trans ((if_neg (Bool.eq_false_iff.mp hbad)).trans ((if_neg (Bool.eq_false_iff.mp href)).trans
        ((if_neg ?_).trans (if_pos h4))))
      rw [hd]
      decide
    · have hgo : exec (.rpart d b) s = finishAloneG (acceptRepart s blk) (rebase (acceptRepart s blk) (read1 s b)) d
          (BitVec.ofNat 64 (2 ^ 63 + next * 2 ^ 32 + blkTeam blk)) := by
        refine hexec.trans ((if_neg (Bool.eq_false_iff.mp hbad)).trans ((if_neg (Bool.eq_false_iff.mp href)).trans
          ((if_neg ?_).trans (if_neg (Nat.not_le.mpr h4)))))
        rw [hd]
        decide
      obtain ⟨r, hacc⟩ := acceptRepart_accepts s blk
      obtain ⟨h63, hz, hseq, hteam⟩ := handle_fields (n := next) (m := blkTeam blk) hn (Nat.mod_lt _ (Nat.two_pow_pos _))
      refine ⟨_, _, r, hgo, fun hq => ?_, hacc.poison, h63, hz, hseq, hteam, hacc.record, hacc.seq, hacc.tenant, hacc.core,
        hacc.block, hacc.task, hacc.phase, hacc.next, hacc.mem⟩
      obtain ⟨hcur, htime⟩ := hacc.kept (List.findSome?_eq_none_iff.mpr hq)
      have hbase : rebase (acceptRepart s blk) (read1 s b) = read1 s b := by
        unfold rebase
        rw [hcur, read1_eq_popped]
        rfl
      change Task.retireAlone _ (acceptRepart s blk).time = _
      rw [hbase, htime]
  case rpst =>
    intro s d h hr hd x last record gives
    refine ⟨rpst_badHandle hr, fun hv hz => ?_⟩
    have hgiven := rpst_given hr hd hv hz
    refine ⟨fun hn => ?_, fun r hs hne => ?_, fun r hs heq => ?_⟩
    · rwa [rpstValue_none hn] at hgiven
    · rwa [rpstValue_some hs, if_pos hne] at hgiven
    · rwa [rpstValue_some hs, if_neg (not_not_intro heq)] at hgiven
  case complete =>
    exact fun s r seq hf _ hh hs => ⟨complete_done hf hh hs, fun e => complete_error hf hh hs⟩
  case gleaner =>
    intro s f hop ha ht hm hann hi hst v team kept
    have hexec := gleaner_takes hop ha ht hm hann hi hst
    refine ⟨fun hl hc hn => hexec.trans (congrArg _ (gleanTaken_later hl hc hn)),
      fun hl hc => hexec.trans (congrArg _ (gleanTaken_over hl hc)), fun r hl => ?_⟩
    obtain ⟨hsame, hlater, hover⟩ := gleanTaken_live hl
    exact ⟨fun hp => hexec.trans (congrArg _ (hsame hp)), fun hp => hexec.trans (congrArg _ (hlater hp)),
      fun hp => hexec.trans (congrArg _ (hover hp))⟩

end Sys2Proof.Machine
end
